-- ==== Sys2Proof/Word.lean ====
section
/-! DEFINITION. The word types of the Sarash TS-880 and their plainest arithmetic (R3, R5, R11). -/

namespace Sys2Proof

/-- A scalar register, an address while it is computed, a CSR: 64 bits (R11). -/
abbrev Word := BitVec 64

/-- One byte of memory. -/
abbrev Byte := BitVec 8

/-- A vector register: 512 bits (R11). -/
abbrev VWord := BitVec 512

/-- An instruction word (R97). -/
abbrev IWord := BitVec 32

/-- A scalar or vector register number as an instruction word carries it (R100). -/
abbrev Reg := BitVec 5

/-- A handle register number (R100). -/
abbrev HReg := BitVec 4

/-- A mask register number (R100). -/
abbrev MReg := BitVec 3

/-- The peer number of a module, 12 bits (Table 02-6). -/
abbrev Peer := BitVec 12

/-- `v[hi:lo]` as a natural number (R96). -/
def bitsOf (v : Nat) (hi lo : Nat) : Nat := (v >>> lo) % 2 ^ (hi + 1 - lo)

/-- The signed value of the low `n` bits of `v` (R96). -/
def sextInt (v : Nat) (n : Nat) : Int :=
  let u := v % 2 ^ n
  if u < 2 ^ (n - 1) then (u : Int) else (u : Int) - (2 : Int) ^ n

end Sys2Proof
end

