-- ==== Sys2Proof/Packet.lean ====
section
/-! DEFINITION. What travels between the agents of the machine: handles, messages, accesses, replies, notices, tile
commands and the items of pair queues and perform queues (chapters 03, 06, 09, 15, 21, 24 of spec/). -/

namespace Sys2Proof

/-- The parties of pair queues (R43, Table 24-4). `engine n` is tileindex * 4 + (0 matrix array, 1 inbound, 2 outbound,
3 multicast streamer) (Table 24-10), and for the copy streamer beside a memory slice 4,096 + its home number. -/
inductive Agent where
  | core (n : Nat)
  | home (n : Nat)
  | engine (n : Nat)
  | drawUnit (die : Nat)
  | router (cluster : Nat)
  | armature
  | equinox
  | gateway (link : Nat)
  | host
  deriving DecidableEq, Repr

/-- An agent on a module of the partition. -/
structure Place where
  peer : Peer
  agent : Agent
  deriving DecidableEq, Repr

/-- A pair queue is one per source, destination and class; classes 0-3 are messages, 4 is the access class (R43). -/
structure PairKey where
  src : Place
  dst : Place
  cls : Nat
  deriving DecidableEq, Repr

/-- Kinds of a handle register (Table 02-3). -/
inductive EndKind where
  | empty | send | recv
  deriving DecidableEq, Repr

/-- A handle: the opaque 128 bits of R15, with what the holding core keeps beside them: credits (R179), the dead mark
(R187) and the receive end's location as last learnt (R290). -/
structure Handle where
  kind : EndKind
  ident : Word
  inst : Nat
  gen : BitVec 16
  seq : Nat
  credits : Nat
  dead : Bool
  loc : Nat
  locPeer : Peer
  /-- the module of the channel home (R391) -/
  home : Peer
  /-- moves of a send end so far, which its notices name (log 93) -/
  moves : Nat
  deriving DecidableEq, Repr

/-- The empty handle (R11). -/
def Handle.none : Handle :=
  { kind := .empty, ident := 0, inst := 0, gen := 0, seq := 0, credits := 0, dead := false, loc := 0, locPeer := 0
    home := 0, moves := 0 }

/-- What a message of an instance's stream is: data, data with an end (KIND 0x10, 0x11), a closure event (0x18), a
segment marker (R185) or a close marker (R176). -/
inductive MsgKind where
  | data | dataEnd | closure | segMarker (len : Nat) | closeMarker
  deriving DecidableEq, Repr

/-- A channel message (R177) with the tag of the end it is for. -/
structure Msg where
  ident : Word
  inst : Nat
  gen : BitVec 16
  seq : Nat
  cls : Nat
  kind : MsgKind
  words : Nat
  payload : Vector Word 6
  carried : Option Handle
  /-- the party that sent it: where its credit returns (R179) -/
  src : Place
  /-- the module of its channel home -/
  home : Peer
  /-- a stub or a channel home has forwarded it: it is not in its sender's own pair queue any more (R55) -/
  fwd : Bool
  deriving DecidableEq, Repr

/-- Kinds of journalled writes, numbered as Table 08-10 numbers them. -/
inductive WKind where
  | st | stFe | feSet | feClr | anadd | vst | scat
  deriving DecidableEq, Repr

/-- The atomics with a result, in the order of Table 08-4. -/
inductive AtOp where
  | add | and | or | xor | min | max | minN | maxN | swap | cas
  deriving DecidableEq, Repr

/-- Where the value of an access lands (R44 "reply"). -/
inductive Ret where
  /-- a scalar register: sign-extended or not from `bytes` bytes -/
  | xreg (r : Reg) (sgn : Bool) (bytes : Nat)
  /-- part `part` of the vector load that is filling register `r` -/
  | vpart (r : Reg) (part : Nat)
  /-- the block scales of the decoding vector load that is filling `r` (R74) -/
  | vscale (r : Reg)
  /-- read number `ix` of running command `run` of an engine -/
  | eng (run ix : Nat)
  /-- scales of a decoded redemption with this number, from block `off` of it on (R158) -/
  | rdmScale (id off : Nat)
  /-- an instruction word that a core asks of another module: its `wordKey` and the number of the request (R97, R244) -/
  | word (key id : Nat)
  /-- no register -/
  | nothing
  deriving DecidableEq, Repr

/-- Where a redemption delivers (Table 08-7). -/
inductive RdmDst where
  | vreg (r : Reg)
  | spad (pa : Nat) (va : Word)
  | msg (handler : Word)
  deriving DecidableEq, Repr

namespace Machine

/-- A sparse map by number: keys rising; a key that is not listed stands for the map's own default. -/
abbrev AMap (α : Type) := List (Nat × α)

/-- What a Blocked slot waits for (R26): a local full/empty load (R47), a message of a class for `inbox.dq` with its registers (R184), the end of `wfi` (R251), an `rrot` step (R192). -/
inductive Why where
  | ldFe | inbox (cls : Nat) (r : Reg) (h : HReg) | wfi (deadline : Nat) | rrot
  deriving DecidableEq, Repr

/-- The states of Table 02-9. A slot whose `chnew` or `chdup` waits for its channel home is Stalled too (R173, R174): it is
`asking`, since its request is out and nothing is tried again before the reply; so is one whose next issue a local `st.fe` to
`va` holds until it has been performed (R149). -/
inductive Phase where
  | free | ready | stalled | asking | holding (va : Word) | blocked (w : Why) | parked | draining
  deriving DecidableEq, Repr

/-- The kinds of task of Table 13-1. -/
inductive TaskKind where
  | unit | handler | completion | fired | spawned
  deriving DecidableEq, Repr

/-- A fault record (Table 22-2); `lane` 0 replayable, 1 fatal, 2 overflow. `slotted` says whether the record names a
slot, which stays Parked until it is released. -/
structure FaultRec where
  jobid : BitVec 16
  gen : BitVec 16
  lane : Nat
  sev : Nat
  cause : Nat
  index : Nat
  addr : Word
  stamp : Word
  peer : Peer
  ukind : Nat
  slot : Nat
  unit : Nat
  epc : Word
  tval : Word
  count : Nat
  slotted : Bool
  deriving DecidableEq, Repr

/-- A vector load on its way (R167 to R169): the parts that have not arrived, the bytes that have, the poison met, and what
to do with the bytes: a decoding load converts `n` elements of `fmt` (R73) into `ty`; a lane load replaces lanes. -/
structure VLoad where
  reg : Reg
  left : Nat
  bytes : List (Nat × List Byte)
  poison : Option (BitVec 2)
  /-- 0 the 64 bytes as they are; 1 decode; 2 lanes -/
  how : Nat
  ty : Nat
  fmt : BitVec 8
  elt : Nat
  mode : Nat
  seed : Word
  /-- parts not yet sent, which a decoding load sends when its scales have arrived (R74): physical address and bytes -/
  later : List (Nat × Nat)
  scales : List Byte
  scaleBase : Nat
  peer : Peer
  deriving DecidableEq, Repr

/-- A redemption of this slot that waits for block scales (R158). -/
structure Redeem where
  id : Nat
  dst : RdmDst
  data : List Byte
  poison : List (Option (BitVec 2))
  fmt : BitVec 8
  elt : Nat
  /-- scale bytes that have arrived, by the block of the redemption that they begin with -/
  scales : AMap (List Byte)
  want : Nat
  peer : Peer
  deriving DecidableEq, Repr

/-- What the scheduler knows of the task in a slot (R254): its kind, class, the level at which it is counted, and the job
clock from which its watchdog counts (R337). -/
structure Task where
  kind : TaskKind
  cls : Nat
  level : Nat
  wdStart : Nat
  /-- the job clock when the slot was parked for a debugger (R249) -/
  dbg : Option Nat
  /-- it has issued `shp`, or its launch is co-resident (R270) -/
  pinned : Bool
  /-- the page of another module, by the module and an address in it, to which the access that waits at issue is to move the
  task, and the address of an instruction that goes on without (R270, R285) -/
  move : Option (Peer × Nat)
  stay : Option Word
  /-- its watchdog has expired, so that it expires no more (R337) -/
  expired : Bool
  deriving DecidableEq, Repr

/-- A pending asynchronous cause in order of arrival (R330): a refused journal entry, or a refused load's address. -/
inductive Async where
  | store (entry : Nat)
  | load (pa : Word)
  deriving DecidableEq, Repr

/-- A thread slot (Table 02-1, Table 02-4, Table 22-8). -/
structure Slot where
  phase : Phase
  gen : BitVec 16
  pc : Word
  x : Vector Word 32
  v : Vector VWord 32
  m : Vector Word 8
  h : Vector Handle 16
  /-- poison markers (R13) -/
  px : Vector (Option (BitVec 2)) 32
  pv : Vector (Option (BitVec 2)) 32
  /-- pending marks (R14) -/
  nx : BitVec 32
  nv : BitVec 32
  cause : Word
  epc : Word
  tval : Word
  tvec : Word
  gridpt : Word
  griddim : Word
  launchid : Word
  jobid : BitVec 16
  tgenx : BitVec 16
  xferid : BitVec 16
  treply : Word
  segleft : Word
  /-- `CANCEL` bits set by the task's own `cancel` (R245); the level's own marks are read beside them -/
  cancelled : BitVec 5
  frm : BitVec 2
  fseed : Word
  cntld : Nat
  cntst : Nat
  cntcp : Nat
  cnttl : Nat
  stc : Nat
  stp : Nat
  stx : Nat
  task : Task
  wake : Bool
  async : List Async
  loads : List VLoad
  redeems : List Redeem
  /-- open follow-on group: its number and member count (R229); 0 none -/
  follow : Nat
  members : Nat
  held : Option FaultRec
  deriving DecidableEq, Repr

end Machine

/-- A tile command as it stands in an engine queue: W0-W3 with the shape records it names, copied at issue (R32, R116),
the translated addresses and formats, and who is told of its end. -/
structure Cmd where
  op : BitVec 8
  w0 : Word
  w1 : Word
  w2 : Word
  w3 : Word
  shA : BitVec 128
  shB : BitVec 128
  /-- physical address of the first and second operand and their format attributes and scale areas -/
  paA : Nat
  paB : Nat
  fmtA : BitVec 8
  fmtB : BitVec 8
  scA : Nat
  scB : Nat
  /-- bytes of the leaf before each operand's first byte, from which elements are counted (R72), and from that byte to the
  leaf's end (R228) -/
  leafA : Nat
  leafB : Nat
  leafLenA : Nat
  peerA : Peer
  peerB : Peer
  /-- module of GATHER's index array -/
  peerI : Peer
  /-- virtual address of the destination (R76, R225) -/
  vaB : Word
  /-- operand A's bytes when it is a vector register group (R215) -/
  group : List Byte
  fseed : Word
  /-- the issuing core and its module -/
  peer : Peer
  core : Nat
  slot : Nat
  gen : BitVec 16
  level : Nat
  /-- 0 not in a follow-on group, else the group's number at the slot (R229) -/
  follow : Nat
  matrix : Bool
  marker : Bool
  /-- Frieze slots of the issuing tile on which it holds a read lease (R236) -/
  leases : List Nat
  /-- it came as a tile command message whose shape continuation has not arrived (R118) -/
  waits : Bool
  /-- which of the commands of its core it is, by which the core knows those that have not ended (R355) -/
  num : Nat := 0
  deriving DecidableEq, Repr

/-- What a ticket fetch has read (R156): the bytes, their poison by granule, the format attribute, the address of the first
scale and element number, and the clock of the read. -/
structure Snap where
  data : List Byte
  poison : List (Option (BitVec 2))
  fmt : BitVec 8
  scale : Nat
  elt : Nat
  at_ : Nat
  deriving DecidableEq, Repr

/-- One entry of the peer layout table (R349): the live slice masks, sizes and live tiles of a peer. -/
structure PeerLayout where
  hbm : List Nat
  lp : List Nat
  flatH : Nat
  flatL : Nat
  withheldH : Nat
  withheldL : Nat
  tiles : List Nat
  deriving DecidableEq, Repr

/-- What the boot sequence finds at steps 4 and 6 of Table 27-1 (R383): the units that fail training, by kind and number, and the
lanes on which an electrical port finds its far end. -/
structure Training where
  failed : List (Nat × Nat)
  light : List (Nat × BitVec 16)
  deriving DecidableEq, Repr

/-- What one module's Armature asks of another for a range (R57, R163): to seal it, to invalidate its replicas before an unseal
completes, and to end the seal. -/
inductive SealAct where
  | mark | invalidate | clear
  deriving DecidableEq, Repr

/-- A level as another module knows it (R271): its name, its kind and parent, whether a cancel of it is pending or its deadline
has passed, and the grid and seed of a launch. -/
structure LevelCopy where
  key : Nat
  level : Nat
  parent : Nat
  cp : Bool
  dead : Bool
  grid : Word
  seed : Word
  deriving DecidableEq, Repr

/-- What a level's module tells another one in which tasks of it are (R261, R268, R269): a cancel is pending, its deadline has
passed, it is complete. -/
inductive LevelNews where
  | cancelled | deadline | complete
  deriving DecidableEq, Repr

/-- The body of an item in transit or in a perform queue. -/
inductive Body where
  -- access class, to homes (Table 24-11)
  | load (pa size : Nat) (ret : Ret)
  | ldFe (take : Bool) (pa size : Nat) (ret : Ret)
  | store (kind : WKind) (pa size : Nat) (data : VWord) (entry : Option Nat)
  | atomic (op : AtOp) (pa size : Nat) (b expect : Word) (ret : Ret)
  | fetch (ticket : Word) (pa : Nat) (fmt : BitVec 8) (scale elt : Nat)
  /-- a fetch that a new home has performed for the home that its ticket names (R58, R281): what it read, none if it was
  refused -/
  | fetched (ticket : Word) (snap : Option Snap)
  /-- a redemption and the clock at which it entered its home's perform queue -/
  | redeem (ticket : Word) (dst : RdmDst) (at_ : Nat)
  | tkDrop (ticket : Word)
  | tkQuery (ticket : Word) (r : Reg)
  /-- a core has dropped a migrated page's old frame, or with the number of such cores a whole module has (R355; log 96) -/
  | dropMarker (core old cores : Nat)
  | drainMarker (src : Place) (core old via : Nat)
  -- replies
  | value (ret : Ret) (data : VWord) (poison : Option (BitVec 2))
  | took (r : Reg) (vs : List Word)
  | ack (entry : Option Nat)
  | refusedWrite (entry : Option Nat) (reason pa : Nat)
  | refusedRead (ret : Ret) (reason pa : Nat)
  | snapshot (dst : RdmDst) (ticket : Word) (data : List Byte) (poison : List (Option (BitVec 2)))
      (fmt : BitVec 8) (scale elt : Nat)
  | refusedRdm (dst : RdmDst) (ticket : Word) (kind : BitVec 2)
  | release (num : Nat) (gen : BitVec 6)
  -- messages and channel notices
  | msg (m : Msg)
  | chCreate (ident : Word) (core : Nat)
  | chCreated (ident : Word) (ok : Bool)
  | chInst (ident : Word) (core : Nat)
  | instReply (ident : Word) (inst : Option Nat) (gen : BitVec 16) (loc : Nat) (locPeer : Peer) (dead : Bool)
  | chClose (ident : Word) (inst : Nat)
  /-- the receive end is closed; `carried` says that it was in a message that was dropped (R299) -/
  | recvClose (ident : Word) (carried : Bool)
  /-- notices of a move: its number for an instance, the generation left or reached for the receive end (log 93) -/
  | moving (ident : Word) (inst : Option Nat) (n : Nat)
  | landing (ident : Word) (inst : Option Nat) (core n : Nat)
  | retired (ident : Word) (gen : BitVec 16)
  | returned (m : Msg)
  | credit (ident : Word) (inst : Nat)
  | final (ident : Word) (n : Nat)
  | peerClosed (ident : Word) (inst : Nat)
  | redirect (ident : Word) (inst : Nat) (core : Nat) (gen : BitVec 16)
  | fence (ident : Word) (inst : Nat) (gen : BitVec 16) (f : Int)
  | stubTold (ident : Word) (gen : BitVec 16) (holder : Nat) (newGen : BitVec 16) (made : Nat) (insts : List Nat) (done : Bool)
  | handover (ident : Word) (inst : Nat) (gen : BitVec 16) (s seg : Nat) (closed : Bool) (closes : Nat)
  -- engines
  /-- a tile command message, and the shape continuation that carries the record named by SHB (R118) -/
  | cmd (c : Cmd)
  | shapeCont (core slot : Nat) (gen : BitVec 16) (shB : BitVec 128)
  | contrib (run stage line len : Nat) (data : VWord)
  | stageLoad (run stage : Nat) (desc : Word)
  | stageReply (run line code reason : Nat)
  /-- the end of a command, with the follow-on group that it was a member of and the read leases that it still has (R229, R236) -/
  | completion (w3 status : Word) (slot : Nat) (gen : BitVec 16) (matrix counted : Bool) (level follow : Nat) (leases : List Nat)
  | silent (slot : Nat) (gen : BitVec 16) (matrix : Bool) (follow : Nat) (leases : List Nat)
  -- levels, launches and draws
  | port (j k : Nat) (data : VWord) (entry : Option Nat) (fromTask : Bool)
  | count (rec : Nat) (up : Bool)
  | cancelReq (rec : Nat)
  /-- the same for a level of the receiver's that the sender knows by its name, and a task of it killed at the deadline of the
  level `upto` (R269, R271) -/
  | farCount (key : Nat) (up : Bool)
  | farCancel (key : Nat)
  | farKilled (key upto : Nat)
  /-- a task of a level of the receiver's is at the sender from now on, and what the level's module tells (R268, R269) -/
  | levelAway (key : Nat)
  | levelNews (keys : List Nat) (n : LevelNews)
  | removal (rec order : Nat)
  | draw (core slot : Nat) (tries : Nat)
  | drawn (slot : Nat) (unit : Option (Nat × Nat))
  -- circuits, seals, Equinox
  | circReq (plan : Nat) (treply : Word) (peer : Peer) (core level : Nat)
  | holdNotice
  | holdAck
  -- between Equinoxes (R61, R246, R349; log 99): hold for a plan, whether a module is held and drained and accepts its
  -- plan, the end of the hold, with the plan lit or refused, and that `TGEN` has been raised there; a module's entry of the peer
  -- layout table
  | circHold (plan : Nat)
  | circHeld (ok : Bool)
  /-- with every module held, the plan is to be lit, and whether each new group has trained (R368) -/
  | circLight
  | circTrained (ok : Bool)
  | circEnd (lit : Bool)
  | circRaised
  | layout (l : PeerLayout)
  -- an invalidate command's range of a job for another module's TLBs, and its completion there (R353)
  -- a gang switch (R338 to R340): the stop time, with the jobs to switch out and in by tag, or the resume time; that it came too
  -- late; that a stop time, or a resume time, is withdrawn; that a module has saved the job
  | stopAt (out into : BitVec 16) (t : Word)
  | resumeAt (into : BitVec 16) (t : Word)
  | switchLate
  | switchWithdrawn (stop : Bool)
  | switchDone
  | shootReq (tag : BitVec 16) (base len : Word)
  | shootDone (base len : Word)
  | sealReq (on : Bool) (base len : Word) (treply : Word) (core level : Nat)
  | hDone (rec : Nat) (status : Word)
  | task (word : Word) (payload : Vector Word 6) (carried : Option Handle)
  | block (opcode : Word) (payload : Vector Word 6)
  | e2eAck (vc eseq : Nat)
  -- migration of a task to its data (R270, R271): Armature asks for a compute slot near a page's home and is told of one,
  -- or gives it back, and the task's slot state follows, with its age in place of the clock from which its watchdog counts
  -- and with its levels
  | reserve (pa : Nat)
  | reserved (slot : Option (Nat × Nat))
  | unreserve (core slot : Nat)
  | context (sl : Machine.Slot) (levels : List LevelCopy)
  -- between Armatures (R58, R164, R285, R288, R355): a page has moved from frame `old` of the sender's module; to its new
  -- module go its bytes, poison and counts with it. The move flag of a frame's remote-resident translations. A `pref` to a
  -- page of the receiver
  | pageMoved (old new : Nat) (dst : Peer) (data : List Byte) (poison : List (Nat × BitVec 2)) (dies : List Nat)
      (peers : List (Peer × Nat))
  | moveFlag (frame : Nat) (on : Bool)
  | prefCount (pa : Nat) (src : Place)
  -- a module asks the one that is to have its page for a frame, is given one or none, and gives one back (R284, R287)
  | pageAsk (old : Nat)
  | pageRoom (old : Nat) (new : Option Nat)
  | pageBack (old new : Nat)
  -- a seal or unseal served by another module's Armature, and that its range is out of the TLBs, or its replicas invalid,
  -- here (R57, R163)
  | sealRange (a : SealAct) (base len : Word)
  | sealDone (base len : Word)
  /-- every store of the sender to a sealed range that was translated before the seal has been performed (R57; log 103) -/
  | sealQuiet (base len : Word)
  deriving DecidableEq, Repr

/-- An item of a pair queue or perform queue: who sent it, for which job, for which slot and generation. A reply of the access
class carries the address of its request, and the bytes that were asked for (Table 24-9). -/
structure Packet where
  body : Body
  src : Place
  job : BitVec 16
  slot : Nat
  gen : BitVec 16
  addr : Nat := 0
  len : Nat := 0
  /-- which command of its core it ends; for a reply, the operation of its request (Table 24-11) -/
  tag : Nat := 0
  deriving DecidableEq, Repr

/-- A flit of the fabric (R359, Table 24-2): its header fields, the packets in its slots, each with its destination, what a TYPE 3
flit carries (a live mask or a key number), and its check field. -/
structure Flit where
  ftype : Nat
  vc : Nat
  cvc : Nat
  cred : Nat
  dpeer : Peer
  speer : Peer
  eseq : Nat
  lseq : Nat
  lack : Nat
  packets : List (PairKey × Packet)
  arg : Nat
  check : BitVec 64
  deriving DecidableEq, Repr

/-- Who writes a launch port (R316, R320, R321, R324): the host through BAR2 with 64 bytes, or an item heading the
record's home's perform queue. -/
inductive PortSrc where
  | hostWrite (j k : Nat) (size : Nat) (data : VWord)
  | queued (home : Nat)
  deriving DecidableEq, Repr

/-- What an engine does in one access step (R53): the next read or write of running command `run`, or a reply. -/
inductive EngAct where
  | read (run : Nat)
  | write (run : Nat)
  | reply (k : PairKey)
  deriving DecidableEq, Repr

/-- A choice Armature makes at an evaluation, checked against R282-R287: the frame number of the page, and the frame that a
migration or replica takes. -/
structure PlaceChoice where
  page : Nat
  frame : Nat
  deriving DecidableEq, Repr

end Sys2Proof
end

