-- ==== Sys2Proof/Syntax.lean ====
section
/-! DEFINITION. Every row of the table of operations: the 227 instructions with a 32-bit word, their operands the fields
that their word carries (chapter 06), and the 120 steps of the ordering machine and of the device, their operands what
says which party takes the step and what the outside supplies to it (95_what_each_step_holds.md). -/

namespace Sys2Proof

/-- One row of the table of operations each. -/
inductive Instr where
  /-- R121: Register add of xa and xb, modulo 2^N, optionally 32-bit -/
  | add (d : BitVec 5) (a : BitVec 5) (b : BitVec 5) (w : BitVec 1)
  /-- R121: Register subtract of xb from xa, modulo 2^N -/
  | sub (d : BitVec 5) (a : BitVec 5) (b : BitVec 5) (w : BitVec 1)
  /-- R121: Low bits of the product of xa and xb -/
  | mul (d : BitVec 5) (a : BitVec 5) (b : BitVec 5) (w : BitVec 1)
  /-- R121: High 64 bits of the 128-bit product, signed or unsigned -/
  | mulh (d : BitVec 5) (a : BitVec 5) (b : BitVec 5) (n : BitVec 1)
  /-- R122: Quotient truncated towards zero, with defined results for zero and overflow -/
  | div (d : BitVec 5) (a : BitVec 5) (b : BitVec 5) (w : BitVec 1) (n : BitVec 1)
  /-- R122: Remainder with the sign of the dividend, with defined results for zero and overflow -/
  | rem (d : BitVec 5) (a : BitVec 5) (b : BitVec 5) (w : BitVec 1) (n : BitVec 1)
  /-- R121: Bitwise AND of two registers -/
  | and (d : BitVec 5) (a : BitVec 5) (b : BitVec 5)
  /-- R121: Bitwise OR of two registers -/
  | or (d : BitVec 5) (a : BitVec 5) (b : BitVec 5)
  /-- R121: Bitwise XOR of two registers -/
  | xor (d : BitVec 5) (a : BitVec 5) (b : BitVec 5)
  /-- R121: xa AND NOT xb -/
  | andn (d : BitVec 5) (a : BitVec 5) (b : BitVec 5)
  /-- R121: Shift left by a register count modulo N -/
  | sll (d : BitVec 5) (a : BitVec 5) (b : BitVec 5) (w : BitVec 1)
  /-- R121: Logical shift right by a register count -/
  | srl (d : BitVec 5) (a : BitVec 5) (b : BitVec 5) (w : BitVec 1)
  /-- R121: Arithmetic shift right by a register count -/
  | sra (d : BitVec 5) (a : BitVec 5) (b : BitVec 5) (w : BitVec 1)
  /-- R121: Rotate right by a register count within N bits -/
  | rot (d : BitVec 5) (a : BitVec 5) (b : BitVec 5) (w : BitVec 1)
  /-- R121: Count leading zero bits -/
  | clz (d : BitVec 5) (a : BitVec 5) (w : BitVec 1)
  /-- R121: Count trailing zero bits -/
  | ctz (d : BitVec 5) (a : BitVec 5) (w : BitVec 1)
  /-- R121: Count one bits -/
  | popc (d : BitVec 5) (a : BitVec 5) (w : BitVec 1)
  /-- R121: Smaller of two registers, signed or unsigned -/
  | min (d : BitVec 5) (a : BitVec 5) (b : BitVec 5) (n : BitVec 1)
  /-- R121: Larger of two registers, signed or unsigned -/
  | max (d : BitVec 5) (a : BitVec 5) (b : BitVec 5) (n : BitVec 1)
  /-- R121: Set 1 if xa is less than xb -/
  | slt (d : BitVec 5) (a : BitVec 5) (b : BitVec 5) (n : BitVec 1)
  /-- R121: Select xa or xb by the value of xd -/
  | sel (d : BitVec 5) (a : BitVec 5) (b : BitVec 5)
  /-- R121: Sign-extend the low byte -/
  | sextB (d : BitVec 5) (a : BitVec 5)
  /-- R121: Sign-extend the low halfword -/
  | sextH (d : BitVec 5) (a : BitVec 5)
  /-- R121: Sign-extend the low word -/
  | sextW (d : BitVec 5) (a : BitVec 5)
  /-- R121: Zero-extend the low byte -/
  | zextB (d : BitVec 5) (a : BitVec 5)
  /-- R121: Zero-extend the low halfword -/
  | zextH (d : BitVec 5) (a : BitVec 5)
  /-- R121: Zero-extend the low word -/
  | zextW (d : BitVec 5) (a : BitVec 5)
  /-- R123: Add a sign-extended 16-bit immediate -/
  | addImm (d : BitVec 5) (a : BitVec 5) (i : BitVec 16)
  /-- R123: AND with a zero-extended 16-bit immediate -/
  | andImm (d : BitVec 5) (a : BitVec 5) (i : BitVec 16)
  /-- R123: OR with a zero-extended 16-bit immediate -/
  | orImm (d : BitVec 5) (a : BitVec 5) (i : BitVec 16)
  /-- R124: XOR with a sign-extended 12-bit immediate -/
  | xorImm (d : BitVec 5) (a : BitVec 5) (i : BitVec 12)
  /-- R124: Signed compare with a 12-bit immediate -/
  | sltImm (d : BitVec 5) (a : BitVec 5) (i : BitVec 12)
  /-- R124: Unsigned compare with a sign-extended 12-bit immediate -/
  | sltNImm (d : BitVec 5) (a : BitVec 5) (i : BitVec 12)
  /-- R124: 32-bit add of a 12-bit immediate, sign-extended -/
  | addWImm (d : BitVec 5) (a : BitVec 5) (i : BitVec 12)
  /-- R124: Multiply by a 12-bit immediate -/
  | mulImm (d : BitVec 5) (a : BitVec 5) (i : BitVec 12)
  /-- R124: Signed minimum with a 12-bit immediate -/
  | minImm (d : BitVec 5) (a : BitVec 5) (i : BitVec 12)
  /-- R124: Signed maximum with a 12-bit immediate -/
  | maxImm (d : BitVec 5) (a : BitVec 5) (i : BitVec 12)
  /-- R124: Unsigned minimum with a sign-extended immediate -/
  | minNImm (d : BitVec 5) (a : BitVec 5) (i : BitVec 12)
  /-- R124: Unsigned maximum with a sign-extended immediate -/
  | maxNImm (d : BitVec 5) (a : BitVec 5) (i : BitVec 12)
  /-- R125: Shift left by an immediate count -/
  | sllImm (d : BitVec 5) (a : BitVec 5) (c : BitVec 6)
  /-- R125: Logical shift right by an immediate count -/
  | srlImm (d : BitVec 5) (a : BitVec 5) (c : BitVec 6)
  /-- R125: Arithmetic shift right by an immediate count -/
  | sraImm (d : BitVec 5) (a : BitVec 5) (c : BitVec 6)
  /-- R125: Rotate right by an immediate count -/
  | rotImm (d : BitVec 5) (a : BitVec 5) (c : BitVec 6)
  /-- R125: 32-bit shift left by an immediate, sign-extended -/
  | sllWImm (d : BitVec 5) (a : BitVec 5) (c : BitVec 6)
  /-- R125: 32-bit logical shift right by an immediate -/
  | srlWImm (d : BitVec 5) (a : BitVec 5) (c : BitVec 6)
  /-- R125: 32-bit arithmetic shift right by an immediate -/
  | sraWImm (d : BitVec 5) (a : BitVec 5) (c : BitVec 6)
  /-- R125: 32-bit rotate right by an immediate -/
  | rotWImm (d : BitVec 5) (a : BitVec 5) (c : BitVec 6)
  /-- R125: Extract a bit field, zero-extended -/
  | bfx (d : BitVec 5) (a : BitVec 5) (l : BitVec 6) (w : BitVec 6)
  /-- R125: Insert a bit field into xd -/
  | bfi (d : BitVec 5) (a : BitVec 5) (l : BitVec 6) (w : BitVec 6)
  /-- R123: Load a sign-extended immediate shifted left 16 -/
  | lui (d : BitVec 5) (i : BitVec 16)
  /-- R123: Add a shifted immediate to PC -/
  | auipc (d : BitVec 5) (i : BitVec 16)
  /-- R127: FP32 add rounded once by FRM -/
  | fadd (d : BitVec 5) (a : BitVec 5) (b : BitVec 5)
  /-- R127: FP32 subtract -/
  | fsub (d : BitVec 5) (a : BitVec 5) (b : BitVec 5)
  /-- R127: FP32 multiply -/
  | fmul (d : BitVec 5) (a : BitVec 5) (b : BitVec 5)
  /-- R127: FP32 divide -/
  | fdiv (d : BitVec 5) (a : BitVec 5) (b : BitVec 5)
  /-- R128: FP32 minimum, NaN giving the positive NaN -/
  | fmin (d : BitVec 5) (a : BitVec 5) (b : BitVec 5)
  /-- R128: FP32 maximum, NaN giving the positive NaN -/
  | fmax (d : BitVec 5) (a : BitVec 5) (b : BitVec 5)
  /-- R127: Clear the FP32 sign bit -/
  | fabs (d : BitVec 5) (a : BitVec 5)
  /-- R129: FP32 equality compare -/
  | fcmpEq (d : BitVec 5) (a : BitVec 5) (b : BitVec 5)
  /-- R129: FP32 inequality compare -/
  | fcmpNe (d : BitVec 5) (a : BitVec 5) (b : BitVec 5)
  /-- R129: FP32 less-than compare -/
  | fcmpLt (d : BitVec 5) (a : BitVec 5) (b : BitVec 5)
  /-- R129: FP32 less-or-equal compare -/
  | fcmpLe (d : BitVec 5) (a : BitVec 5) (b : BitVec 5)
  /-- R129: FP32 greater-than compare -/
  | fcmpGt (d : BitVec 5) (a : BitVec 5) (b : BitVec 5)
  /-- R129: FP32 greater-or-equal compare -/
  | fcmpGe (d : BitVec 5) (a : BitVec 5) (b : BitVec 5)
  /-- R130: Signed 64-bit integer to FP32 -/
  | fcvtF32I (d : BitVec 5) (a : BitVec 5)
  /-- R130: FP32 to saturated signed 64-bit integer -/
  | fcvtIF32 (d : BitVec 5) (a : BitVec 5)
  /-- R127: BF16 to FP32, exactly -/
  | fcvtF32Bf16 (d : BitVec 5) (a : BitVec 5)
  /-- R127: FP32 rounded to BF16 -/
  | fcvtBf16F32 (d : BitVec 5) (a : BitVec 5)
  /-- R131: FP32 fused multiply-add rounded once -/
  | fma (d : BitVec 5) (a : BitVec 5) (b : BitVec 5) (c : BitVec 5)
  /-- R133: xa plus xb scaled by 2^s -/
  | lea (d : BitVec 5) (a : BitVec 5) (b : BitVec 5) (s : BitVec 3)
  /-- R134: Form a window address from tileindex and offset -/
  | gaform (d : BitVec 5) (a : BitVec 5) (b : BitVec 5)
  /-- R137: Translate an address and return its home and distance -/
  | gahome (d : BitVec 5) (a : BitVec 5)
  /-- R135: Return the tileindex of a window address, or all ones -/
  | gatile (d : BitVec 5) (a : BitVec 5)
  /-- R136: Slice-local add wrapping at 1 MiB -/
  | padd (d : BitVec 5) (a : BitVec 5) (b : BitVec 5)
  /-- R139: Branch if equal -/
  | beq (a : BitVec 5) (b : BitVec 5) (d : BitVec 16)
  /-- R139: Branch if not equal -/
  | bne (a : BitVec 5) (b : BitVec 5) (d : BitVec 16)
  /-- R139: Branch if signed less -/
  | blt (a : BitVec 5) (b : BitVec 5) (d : BitVec 16)
  /-- R139: Branch if signed greater or equal -/
  | bge (a : BitVec 5) (b : BitVec 5) (d : BitVec 16)
  /-- R139: Branch if unsigned lower -/
  | blo (a : BitVec 5) (b : BitVec 5) (d : BitVec 16)
  /-- R139: Branch if unsigned higher or same -/
  | bhs (a : BitVec 5) (b : BitVec 5) (d : BitVec 16)
  /-- R140: Jump by a 26-bit displacement -/
  | j (d : BitVec 26)
  /-- R140: Jump and write the return address to lr -/
  | jal (d : BitVec 26)
  /-- R148: Zero-extending load of 1 to 8 bytes, posted to its home -/
  | ld (d : BitVec 5) (a : BitVec 5) (w : BitVec 2) (z : BitVec 3) (o : BitVec 11)
  /-- R148: Sign-extending load -/
  | ldS (d : BitVec 5) (a : BitVec 5) (w : BitVec 2) (z : BitVec 3) (o : BitVec 11)
  /-- R148: Store, local or posted with a journal entry -/
  | st (s : BitVec 5) (a : BitVec 5) (w : BitVec 2) (z : BitVec 3) (o : BitVec 11)
  /-- R149: Load a full granule, waiting while empty, leaving it full -/
  | ldFeKeep (d : BitVec 5) (a : BitVec 5) (w : BitVec 2) (z : BitVec 2) (o : BitVec 11)
  /-- R149: Load a full granule and empty it -/
  | ldFeTake (d : BitVec 5) (a : BitVec 5) (w : BitVec 2) (z : BitVec 2) (o : BitVec 11)
  /-- R149: Store into an empty granule and fill it, refused if full -/
  | stFe (s : BitVec 5) (a : BitVec 5) (w : BitVec 2) (z : BitVec 2) (o : BitVec 11)
  /-- R148: Indexed zero-extending load -/
  | ldIndexed (d : BitVec 5) (a : BitVec 5) (b : BitVec 5) (w : BitVec 2) (z : BitVec 3)
  /-- R148: Indexed sign-extending load -/
  | ldSIndexed (d : BitVec 5) (a : BitVec 5) (b : BitVec 5) (w : BitVec 2) (z : BitVec 3)
  /-- R148: Indexed store -/
  | stIndexed (s : BitVec 5) (a : BitVec 5) (b : BitVec 5) (w : BitVec 2) (z : BitVec 3)
  /-- R149: Indexed full/empty load keeping the bit -/
  | ldFeKeepIndexed (d : BitVec 5) (a : BitVec 5) (b : BitVec 5) (w : BitVec 2) (z : BitVec 3)
  /-- R149: Indexed full/empty load emptying the granule -/
  | ldFeTakeIndexed (d : BitVec 5) (a : BitVec 5) (b : BitVec 5) (w : BitVec 2) (z : BitVec 3)
  /-- R149: Indexed full/empty store -/
  | stFeIndexed (s : BitVec 5) (a : BitVec 5) (b : BitVec 5) (w : BitVec 2) (z : BitVec 3)
  /-- R150: Set a granule's full bit, releasing waiting loads -/
  | feSet (a : BitVec 5) (b : BitVec 5)
  /-- R150: Clear a granule's full bit -/
  | feClr (a : BitVec 5) (b : BitVec 5)
  /-- R151: Push onto a tile ring queue, stalling while full -/
  | qpush (a : BitVec 5) (n : BitVec 5)
  /-- R151: Pop a tile ring queue, stalling while empty -/
  | qpop (d : BitVec 5) (n : BitVec 5)
  /-- R152: Atomic add returning the old value -/
  | aadd (d : BitVec 5) (a : BitVec 5) (b : BitVec 5) (w : BitVec 2) (z : BitVec 3)
  /-- R152: Atomic AND returning the old value -/
  | aand (d : BitVec 5) (a : BitVec 5) (b : BitVec 5) (w : BitVec 2) (z : BitVec 3)
  /-- R152: Atomic OR returning the old value -/
  | aor (d : BitVec 5) (a : BitVec 5) (b : BitVec 5) (w : BitVec 2) (z : BitVec 3)
  /-- R152: Atomic XOR returning the old value -/
  | axor (d : BitVec 5) (a : BitVec 5) (b : BitVec 5) (w : BitVec 2) (z : BitVec 3)
  /-- R152: Atomic signed minimum -/
  | amin (d : BitVec 5) (a : BitVec 5) (b : BitVec 5) (w : BitVec 2) (z : BitVec 3)
  /-- R152: Atomic signed maximum -/
  | amax (d : BitVec 5) (a : BitVec 5) (b : BitVec 5) (w : BitVec 2) (z : BitVec 3)
  /-- R152: Atomic unsigned minimum -/
  | aminN (d : BitVec 5) (a : BitVec 5) (b : BitVec 5) (w : BitVec 2) (z : BitVec 3)
  /-- R152: Atomic unsigned maximum -/
  | amaxN (d : BitVec 5) (a : BitVec 5) (b : BitVec 5) (w : BitVec 2) (z : BitVec 3)
  /-- R152: Atomic swap -/
  | aswap (d : BitVec 5) (a : BitVec 5) (b : BitVec 5) (w : BitVec 2) (z : BitVec 3)
  /-- R152: Atomic compare-and-swap against xd -/
  | acas (d : BitVec 5) (a : BitVec 5) (b : BitVec 5) (w : BitVec 2) (z : BitVec 3)
  /-- R153: Posted atomic add without a result -/
  | anadd (a : BitVec 5) (b : BitVec 5) (w : BitVec 2) (z : BitVec 3)
  /-- R155: Write a ticket at issue and post a snapshot fetch to the home -/
  | ldt (d : BitVec 5) (a : BitVec 5) (w : BitVec 2) (k : BitVec 4) (o : BitVec 10)
  /-- R158: Redeem a ticket into a vector register -/
  | rdmV (d : BitVec 5) (a : BitVec 5) (w : BitVec 2)
  /-- R158: Redeem a ticket into scratchpad, setting full bits -/
  | rdmScratchpad (a : BitVec 5) (b : BitVec 5) (w : BitVec 2)
  /-- R158: Redeem a ticket as a class-2 message creating a handler task -/
  | rdmM (a : BitVec 5) (b : BitVec 5) (w : BitVec 2)
  /-- R160: Send a drop for a ticket entry -/
  | tkdrop (a : BitVec 5) (w : BitVec 2)
  /-- R160: Query the state of a ticket entry -/
  | tkq (d : BitVec 5) (a : BitVec 5) (w : BitVec 2)
  /-- R162: Fence of tile scope, waiting for nothing -/
  | fenceTile
  /-- R162: Wait until STC is zero -/
  | fenceCluster
  /-- R162: Wait until STC and STP are zero -/
  | fenceDie
  /-- R162: Wait until STC and STP are zero -/
  | fencePackage
  /-- R162: Wait until STC, STP and STX are zero -/
  | fenceSystem
  /-- R163: Ask Armature to seal a range -/
  | seal (a : BitVec 5) (b : BitVec 5)
  /-- R163: Ask Armature to unseal a range -/
  | unseal (a : BitVec 5) (b : BitVec 5)
  /-- R164: Count a placement hint for a page -/
  | pref (a : BitVec 5) (b : BitVec 5)
  /-- R165: Read one word of a journal entry -/
  | jrd (d : BitVec 5) (a : BitVec 5)
  /-- R166: Free a refused journal entry of the slot -/
  | jdrop (a : BitVec 5)
  /-- R173: Create a channel, stalling for the channel home's reply -/
  | chnew (h : BitVec 4) (g : BitVec 4)
  /-- R174: Duplicate a send end as a new instance -/
  | chdup (h : BitVec 4) (g : BitVec 4)
  /-- R175: Move an end between handle registers -/
  | hmov (h : BitVec 4) (g : BitVec 4)
  /-- R175: Close an end if any and empty the register -/
  | hclr (h : BitVec 4)
  /-- R176: Close an end: close marker for a send end, R187 for a receive end -/
  | chclose (h : BitVec 4)
  /-- R188: Read the state of an end -/
  | chq (g : BitVec 4) (a : BitVec 5)
  /-- R185: Append a segment marker to the instance -/
  | chseg (h : BitVec 4) (a : BitVec 5)
  /-- R182: Bind a receive end to a handler -/
  | chbindHandler (g : BitVec 4) (o : BitVec 18)
  /-- R182: Bind a receive end to the inbox -/
  | chbindInbox (g : BitVec 4)
  /-- R178: Send a class-2 message on a send end -/
  | chsend (h : BitVec 4) (a : BitVec 5) (n : BitVec 3)
  /-- R178: Send a class-3 message -/
  | chsendLo (h : BitVec 4) (a : BitVec 5) (n : BitVec 3)
  /-- R178: Send a class-0 message -/
  | chsendCtl (h : BitVec 4) (a : BitVec 5) (n : BitVec 3)
  /-- R181: Send a class-2 message carrying an end -/
  | chsendh (h : BitVec 4) (g : BitVec 4) (a : BitVec 5) (n : BitVec 3)
  /-- R181: Send a class-3 message carrying an end -/
  | chsendhLo (h : BitVec 4) (g : BitVec 4) (a : BitVec 5) (n : BitVec 3)
  /-- R181: Send a class-0 message carrying an end -/
  | chsendhCtl (h : BitVec 4) (g : BitVec 4) (a : BitVec 5) (n : BitVec 3)
  /-- R184: Dequeue a message of a class, blocking while none -/
  | inboxDq (h : BitVec 4) (a : BitVec 5) (n : BitVec 3)
  /-- R184: Dequeue a message if present, else write zero -/
  | inboxTry (h : BitVec 4) (a : BitVec 5) (n : BitVec 3)
  /-- R189: Send an active message (tile command or engine marker) to an engine queue -/
  | amsg (a : BitVec 5) (n : BitVec 3)
  /-- R190: Place a new task on the core's run queue -/
  | spawn (a : BitVec 5) (p : BitVec 2) (o : BitVec 18)
  /-- R192: Contribute the tile to the next ring step and block -/
  | rrot
  /-- R196: Set the sweep's expected count and handler -/
  | mtset (a : BitVec 5) (b : BitVec 5)
  /-- R197: Read a miss-list entry or the miss count -/
  | mtlist (a : BitVec 5) (b : BitVec 5)
  /-- R194: Release the task's Frieze leases -/
  | mrel (n : BitVec 3)
  /-- R202: Vector add under mask -/
  | vadd (d : BitVec 5) (a : BitVec 5) (b : BitVec 5) (m : BitVec 3) (t : BitVec 3)
  /-- R202: Vector subtract -/
  | vsub (d : BitVec 5) (a : BitVec 5) (b : BitVec 5) (m : BitVec 3) (t : BitVec 3)
  /-- R202: Vector multiply -/
  | vmul (d : BitVec 5) (a : BitVec 5) (b : BitVec 5) (m : BitVec 3) (t : BitVec 3)
  /-- R202: Vector fused multiply-add into vd -/
  | vfma (d : BitVec 5) (a : BitVec 5) (b : BitVec 5) (m : BitVec 3) (t : BitVec 3)
  /-- R202: Vector maximum -/
  | vmax (d : BitVec 5) (a : BitVec 5) (b : BitVec 5) (m : BitVec 3) (t : BitVec 3)
  /-- R202: Vector minimum -/
  | vmin (d : BitVec 5) (a : BitVec 5) (b : BitVec 5) (m : BitVec 3) (t : BitVec 3)
  /-- R202: Vector absolute value -/
  | vabs (d : BitVec 5) (a : BitVec 5) (m : BitVec 3) (t : BitVec 3)
  /-- R202: Vector negate -/
  | vneg (d : BitVec 5) (a : BitVec 5) (m : BitVec 3) (t : BitVec 3)
  /-- R203: Correctly rounded 2^a per lane -/
  | vexp2 (d : BitVec 5) (a : BitVec 5) (m : BitVec 3) (t : BitVec 3)
  /-- R203: Correctly rounded reciprocal -/
  | vrcp (d : BitVec 5) (a : BitVec 5) (m : BitVec 3) (t : BitVec 3)
  /-- R203: Correctly rounded reciprocal square root -/
  | vrsq (d : BitVec 5) (a : BitVec 5) (m : BitVec 3) (t : BitVec 3)
  /-- R202: Vector bitwise AND -/
  | vand (d : BitVec 5) (a : BitVec 5) (b : BitVec 5) (m : BitVec 3) (t : BitVec 3)
  /-- R202: Vector bitwise OR -/
  | vor (d : BitVec 5) (a : BitVec 5) (b : BitVec 5) (m : BitVec 3) (t : BitVec 3)
  /-- R202: Vector bitwise XOR -/
  | vxor (d : BitVec 5) (a : BitVec 5) (b : BitVec 5) (m : BitVec 3) (t : BitVec 3)
  /-- R202: Vector integer shift left -/
  | vshl (d : BitVec 5) (a : BitVec 5) (b : BitVec 5) (m : BitVec 3) (t : BitVec 3)
  /-- R202: Vector arithmetic shift right -/
  | vshr (d : BitVec 5) (a : BitVec 5) (b : BitVec 5) (m : BitVec 3) (t : BitVec 3)
  /-- R202: Vector move -/
  | vmov (d : BitVec 5) (a : BitVec 5) (m : BitVec 3) (t : BitVec 3)
  /-- R202: Broadcast the low bits of an x register to every element -/
  | vbcast (d : BitVec 5) (a : BitVec 5) (m : BitVec 3) (t : BitVec 3)
  /-- R205: Pairwise-tree sum of selected elements into element 0 -/
  | vredsum (d : BitVec 5) (a : BitVec 5) (m : BitVec 3) (t : BitVec 3)
  /-- R205: Pairwise-tree maximum of selected elements -/
  | vredmax (d : BitVec 5) (a : BitVec 5) (m : BitVec 3) (t : BitVec 3)
  /-- R204: Select elements of va or vb by mask -/
  | vsel (d : BitVec 5) (a : BitVec 5) (b : BitVec 5) (m : BitVec 3) (t : BitVec 3)
  /-- R202: Permute elements of va by indices in vb -/
  | vperm (d : BitVec 5) (a : BitVec 5) (b : BitVec 5) (m : BitVec 3) (t : BitVec 3)
  /-- R206: Vector equal compare into a mask -/
  | vcmpEq (d : BitVec 3) (a : BitVec 5) (b : BitVec 5) (m : BitVec 3) (t : BitVec 3)
  /-- R206: Vector not-equal compare -/
  | vcmpNe (d : BitVec 3) (a : BitVec 5) (b : BitVec 5) (m : BitVec 3) (t : BitVec 3)
  /-- R206: Vector less-than compare -/
  | vcmpLt (d : BitVec 3) (a : BitVec 5) (b : BitVec 5) (m : BitVec 3) (t : BitVec 3)
  /-- R206: Vector less-or-equal compare -/
  | vcmpLe (d : BitVec 3) (a : BitVec 5) (b : BitVec 5) (m : BitVec 3) (t : BitVec 3)
  /-- R206: Vector greater-than compare -/
  | vcmpGt (d : BitVec 3) (a : BitVec 5) (b : BitVec 5) (m : BitVec 3) (t : BitVec 3)
  /-- R206: Vector greater-or-equal compare -/
  | vcmpGe (d : BitVec 3) (a : BitVec 5) (b : BitVec 5) (m : BitVec 3) (t : BitVec 3)
  /-- R207: Convert elements between two formats -/
  | vcvt (d : BitVec 5) (a : BitVec 5) (s : BitVec 3) (m : BitVec 3) (t : BitVec 3)
  /-- R208: Quantise 64 FP32 values into codes and block scales -/
  | vquant (d : BitVec 5) (a : BitVec 5) (b : BitVec 5) (t : BitVec 3) (f : BitVec 1) (g : BitVec 2)
  /-- R209: Dequantise codes with block scales into FP32 -/
  | vdeq (d : BitVec 5) (a : BitVec 5) (b : BitVec 5) (t : BitVec 3) (f : BitVec 1) (g : BitVec 2)
  /-- R211: Add two scaled blocks and requantise, on gateway cores only -/
  | baq (d : BitVec 5) (a : BitVec 5) (b : BitVec 5) (t : BitVec 3) (f : BitVec 1) (g : BitVec 2)
  /-- R210: Block-scaled dot product added into element 0 of vd -/
  | vmxdot (d : BitVec 5) (a : BitVec 5) (b : BitVec 5) (m : BitVec 3) (t : BitVec 3) (f : BitVec 1) (g : BitVec 2)
  /-- R213: AND of two mask registers -/
  | mand (d : BitVec 3) (a : BitVec 3) (b : BitVec 3)
  /-- R213: OR of two mask registers -/
  | mor (d : BitVec 3) (a : BitVec 3) (b : BitVec 3)
  /-- R213: NOT of a mask register -/
  | mnot (d : BitVec 3) (a : BitVec 3)
  /-- R213: Count set bits of a mask -/
  | mpop (d : BitVec 5) (a : BitVec 3)
  /-- R213: Index of the lowest set mask bit, or 64 -/
  | mfirst (d : BitVec 5) (a : BitVec 3)
  /-- R167: Vector load, decoding formatted pages -/
  | vld (d : BitVec 5) (a : BitVec 5) (w : BitVec 2) (t : BitVec 3) (o : BitVec 11)
  /-- R167: Vector store of 64 bytes to a plain page -/
  | vst (s : BitVec 5) (a : BitVec 5) (w : BitVec 2) (t : BitVec 3) (o : BitVec 11)
  /-- R169: Strided masked vector load -/
  | vlds (d : BitVec 5) (a : BitVec 5) (b : BitVec 5) (m : BitVec 3) (t : BitVec 3) (w : BitVec 2)
  /-- R169: Indexed masked vector gather -/
  | vgath (d : BitVec 5) (a : BitVec 5) (b : BitVec 5) (m : BitVec 3) (t : BitVec 3) (w : BitVec 2)
  /-- R169: Indexed masked vector scatter -/
  | vscat (s : BitVec 5) (a : BitVec 5) (b : BitVec 5) (m : BitVec 3) (t : BitVec 3) (w : BitVec 2)
  /-- R168: Undecoded 64-byte vector load -/
  | vldRaw (d : BitVec 5) (a : BitVec 5) (w : BitVec 2) (o : BitVec 11)
  /-- R168: Undecoded 64-byte vector store -/
  | vstRaw (s : BitVec 5) (a : BitVec 5) (w : BitVec 2) (o : BitVec 11)
  /-- R214: Write and check a shape-table record -/
  | shp (a : BitVec 5) (b : BitVec 5) (s : BitVec 5)
  /-- R224: Tile command: matrix multiply-accumulate into accumulator memory -/
  | mma (a : BitVec 5) (b : BitVec 5) (c : BitVec 5) (q : BitVec 3)
  /-- R224: Tile command: matrix multiply starting from zero -/
  | mmaz (a : BitVec 5) (b : BitVec 5) (c : BitVec 5) (q : BitVec 3)
  /-- R224: Tile command: matrix multiply with DSW8 weights -/
  | mmaw (a : BitVec 5) (b : BitVec 5) (c : BitVec 5) (q : BitVec 3)
  /-- R225: Tile command: store accumulator entries with tensor scale and rounding -/
  | accst (a : BitVec 5) (b : BitVec 5) (c : BitVec 5) (q : BitVec 3)
  /-- R226: Tile command: load or add an operand into accumulator memory -/
  | accld (a : BitVec 5) (b : BitVec 5) (c : BitVec 5) (q : BitVec 3)
  /-- R226: Tile command: zero accumulator entries -/
  | accz (a : BitVec 5) (b : BitVec 5) (c : BitVec 5) (q : BitVec 3)
  /-- R227: Tile command: linear byte copy -/
  | copy (a : BitVec 5) (b : BitVec 5) (c : BitVec 5) (q : BitVec 3)
  /-- R227: Tile command: two-dimensional shaped copy -/
  | copy2 (a : BitVec 5) (b : BitVec 5) (c : BitVec 5) (q : BitVec 3)
  /-- R229: Tile command: linear copy joining the follow-on group -/
  | copyf (a : BitVec 5) (b : BitVec 5) (c : BitVec 5) (q : BitVec 3)
  /-- R228: Tile command: gather rows by an INT32 index array -/
  | gather (a : BitVec 5) (b : BitVec 5) (c : BitVec 5) (q : BitVec 3)
  /-- R230: Tile command: multicast bytes to a set of tiles -/
  | mcast (a : BitVec 5) (b : BitVec 5) (c : BitVec 5) (q : BitVec 3)
  /-- R231: Tile command: contribute to a router reduction stage -/
  | reduce (a : BitVec 5) (b : BitVec 5) (c : BitVec 5) (q : BitVec 3)
  /-- R231: Tile command: load a router reduction stage -/
  | rstage (a : BitVec 5) (b : BitVec 5) (c : BitVec 5) (q : BitVec 3)
  /-- R227: Tile command: transpose a shaped operand -/
  | xpose (a : BitVec 5) (b : BitVec 5) (c : BitVec 5) (q : BitVec 3)
  /-- R227: Tile command: fill a range with a 64-bit pattern -/
  | fill (a : BitVec 5) (b : BitVec 5) (c : BitVec 5) (q : BitVec 3)
  /-- R162: Issue when outstanding counters fall to the limits -/
  | wait (l : BitVec 5) (s : BitVec 5) (c : BitVec 5) (t : BitVec 5)
  /-- R239: Read a CSR -/
  | csrr (d : BitVec 5) (c : BitVec 12)
  /-- R239: Write a CSR -/
  | csrw (a : BitVec 5) (c : BitVec 12)
  /-- R239: Set bits of a CSR -/
  | csrs (a : BitVec 5) (c : BitVec 12)
  /-- R239: Clear bits of a CSR -/
  | csrc (a : BitVec 5) (c : BitVec 12)
  /-- R252: No effect -/
  | nop
  /-- R241: Raise software cause 0x010 + n -/
  | trap (n : BitVec 5)
  /-- R243: Jump to EPC -/
  | eret
  /-- R244: Wait for stores and discard the core's fetched words -/
  | ifence
  /-- R245: Post a cancel request for a level -/
  | cancel (a : BitVec 5) (l : BitVec 5)
  /-- R246: Ask Equinox to set a circuit plan -/
  | circ (a : BitVec 5)
  /-- R248: Read the global time base -/
  | time (d : BitVec 5)
  /-- R249: Breakpoint cause 0x007 -/
  | brk
  /-- R250: Park the slot with a fatal record -/
  | haltSlot
  /-- R251: Block until a wake event or timeout -/
  | wfi
  /-- R141: Jump to a register target, writing the return address -/
  | jalr (d : BitVec 5) (a : BitVec 5)
  /-- R143: End the task, close its ends and drain the slot -/
  | exit
  /-- R142: Decrement a register and branch while nonzero -/
  | loop (a : BitVec 5) (d : BitVec 16)
  /-- R333: A register parity error at issue is repaired from the operand log and the instruction reissued, or the slot parks -/
  | registerParityReplay (c sl reg : Nat) (logBad : Bool)
  /-- R45: An item heading a pair queue moves to its destination's perform queue, engine queue, inbox or stub -/
  | deliver (k : PairKey)
  /-- R48: A home performs the access heading its perform queue and appends the reply -/
  | perform (h : Nat)
  /-- R44: A reply or acknowledgement lands: register written or journal entry retired, counters fall -/
  | reply (k : PairKey)
  /-- R146: A refusal marks a journal entry refused or zeroes a load, queuing an asynchronous cause -/
  | refusal (k : PairKey)
  /-- R330: A pending 0x060 or 0x062 cause is delivered at an instruction boundary -/
  | asyncCauseDelivery (c sl : Nat)
  /-- R156: A fetch is performed at the home, creating an entry with a snapshot or a lost record -/
  | ticketFetch (h : Nat)
  /-- R156: A redemption is matched at the home and answered with the snapshot or refused -/
  | redemption (h : Nat)
  /-- R156: A redemption held for 2^20 cycles without its fetch is refused as spent -/
  | redemptionHoldExpiry (h : Nat)
  /-- R160: A drop frees a matching ticket entry at the home -/
  | ticketDrop (h : Nat)
  /-- R160: A tkq request is answered with the entry's state -/
  | ticketQuery (h : Nat)
  /-- R278: A ticket lease expires and the home reclaims the entry -/
  | leaseEnd (h : Nat)
  /-- R154: The issuing core frees a ticket number -/
  | releaseNotice (k : PairKey)
  /-- R158: A snapshot reaches the redeemer; raw data land or scale reads are issued -/
  | snapshotReply (k : PairKey)
  /-- R158: A decoded redemption's scales arrive and the elements are decoded and written -/
  | scaleReadReply (k : PairKey)
  /-- R53: An engine starts the command heading its queue -/
  | engineStart (e : Nat)
  /-- R53: An engine issues a read or write of its command or handles its reply, stopping on a nonzero status -/
  | engineAccess (e : Nat) (act : EngAct)
  /-- R232: After every write is acknowledged the engine sends the completion or silent notice -/
  | engineComplete (e run : Nat)
  /-- R229: A parked matrix command enters the array's queue when its follow-on writes are performed -/
  | parkedCommandRelease (e : Nat)
  /-- R189: An engine marker completes once earlier commands have completed -/
  | engineMarkerComplete (e : Nat)
  /-- R231: A contributor's line reaches a reduction stage; when N lines meet they are combined and written -/
  | reductionLine (cl : Nat)
  /-- R232: A class-1 completion message creates a completion task -/
  | completionTaskCreate (c : Nat)
  /-- R232: A silent notice lowers CNTTL or CNTCP and completes the command -/
  | silentNotice (k : PairKey)
  /-- R173: A channel home records a new channel or refuses when full -/
  | channelCreationRequest (h : Nat)
  /-- R173: The reply completes chnew or triggers a retry with the next identity -/
  | channelCreationReply (k : PairKey)
  /-- R174: The channel home allocates a new send-end instance for chdup -/
  | instanceAllocation (h : Nat)
  /-- R180: A channel message delivered to a core is checked against its receive end and entered in the reorder area -/
  | messageArrival (c : Nat)
  /-- R180: A message returned to the channel home is forwarded to the end's location or dropped -/
  | mismatchedMessageReturn (h : Nat)
  /-- R180: The reorder area releases the next message of an instance into its class queue -/
  | messageRelease (c : Nat) (ident : Word) (inst : Nat)
  /-- R183: A released message for a handler-bound end becomes a handler task when a run-queue entry is free -/
  | handlerTaskCreate (c cls : Nat)
  /-- R179: A returned credit raises an instance's credit count -/
  | creditReturn (k : PairKey)
  /-- R186: The channel home counts an instance closed and may send the final notice -/
  | closeNotice (h : Nat)
  /-- R186: The receive end learns how many instances the channel had -/
  | finalNotice (k : PairKey)
  /-- R187: A send-end holder marks its instance dead -/
  | peerClosedNotice (k : PairKey)
  /-- R291: The channel home marks an end carried or in flight -/
  | movingNotice (h : Nat)
  /-- R292: The home records the new holder, increments the generation and sends redirects -/
  | landingNotice (h : Nat)
  /-- R293: An instance holder appends a fence marker and rewrites the handle's location -/
  | redirect (k : PairKey)
  /-- R294: A forwarder stub holds or forwards a message of its moved end -/
  | stubForward (c : Nat) (ident : Word) (gen : BitVec 16)
  /-- R294: A fence reaches the stub; when accounted the stub withdraws, hands over and may retire -/
  | fenceMarker (k : PairKey)
  /-- R295: The new holder's reorder area starts releasing an instance from S -/
  | handoverMarker (k : PairKey)
  /-- R294: The channel home closes a redirect round when the stub retires -/
  | stubRetirement (h : Nat)
  /-- R192: A sub-ring rotates its slots and matches once all tiles contributed and leases are released -/
  | step (cl sub : Nat)
  /-- R255: A Free slot is filled from the run queue or a draw is issued -/
  | slotFill (c : Nat)
  /-- R264: A draw-counter unit returns the next index of the earliest launch -/
  | draw (die : Nat)
  /-- R264: A core places a unit task in the reserved slot -/
  | drawReply (k : PairKey)
  /-- R265: Another die's unit gives away the highest index of its range -/
  | steal (die : Nat)
  /-- R256: An entry waiting 65,536 cycles moves to the next higher class -/
  | runQueueAgeing (c : Nat)
  /-- R266: Cluster schedulers exchange load summaries every 4,096 cycles -/
  | loadSummary
  /-- R266: A victim cluster ships up to 8 unstarted run-queue entries -/
  | workDonation (asker victim : Nat)
  /-- R320: Launch-port start write lowers START and may start the level -/
  | start (w : PortSrc)
  /-- R320: Launch-port arm write reads the record and raises the parent's count -/
  | arm (w : PortSrc)
  /-- R322: A task write to record 0 makes Equinox start one handler task -/
  | task (w : PortSrc)
  /-- R268: A cancel is performed at the level's home, making the level cancel-pending -/
  | cancelRequest (h : Nat)
  /-- R268: A draw-counter unit removes a cancelled launch's remaining indices -/
  | removalNotice (die : Nat)
  /-- R269: The cancel deadline passes and remaining tasks are killed -/
  | cancelDeadline (rec : Nat)
  /-- R259: A level home applies a raise or lowering of an outstanding count -/
  | countChange (h : Nat)
  /-- R322: Equinox sends a TKIND 3 completion on its instance of H -/
  | hCompletion
  /-- R270: A task whose counters are zero is shipped to a slot near its data -/
  | taskMigration (c sl : Nat)
  /-- R271: A migrated task resumes on its new slot -/
  | migrationArrival (c sl : Nat)
  /-- R337: A task's watchdog count reaches the limit and the task is killed -/
  | watchdogExpiry (c sl : Nat)
  /-- R251: A blocked wfi ends after 65,536 delivered cycles -/
  | wfiTimeout (c sl : Nat)
  /-- R284: Every 2^20 cycles Armature halves counts and decides migration, replication and move flags; each choice names a page by
  its frame -/
  | evaluation (choices : List PlaceChoice)
  /-- R355: A copied page's new leaf is written and shot down; the operand is the number of the frame that the page leaves -/
  | migrationSwitch (frame : Nat)
  /-- R355: The old home forwards a core's drain markers to the new home -/
  | dropMarker (h : Nat)
  /-- R58: The new home releases a source's held direct traffic -/
  | drainMarker (h : Nat)
  /-- R163: Armature completes a seal once TLBs dropped the range -/
  | sealCompletion
  /-- R163: Armature completes an unseal after replicas are invalidated -/
  | unsealCompletion
  /-- R352: A walker reads the tree for a missed page and fills the TLBs or faults -/
  | pageWalk (c : Nat) (va : Word) (fetch : Bool)
  /-- R353: A core or L2 slice drops a range's translations -/
  | tlbShootdown (who : Agent) (base len : Word)
  /-- R317: Host command creating a job -/
  | create (rec : Nat) (jslot : Nat) (tag : BitVec 16)
  /-- R326: Host command ending a job -/
  | teardown (jslot : Nat)
  /-- R338: Host command switching a job out or in -/
  | switch (out into : Option Nat) (t : Word)
  /-- R338: A late answer makes the coordinator withdraw and pick a new T -/
  | stopTimeLate (t : Word)
  /-- R339: At T every module stops issue and drains the job -/
  | switchOut
  /-- R339: Modules report the save done and the coordinator writes a host event -/
  | switchOutDone
  /-- R340: At the resume time state is restored and issue restarts -/
  | resume
  /-- R353: Host command shooting down a range of a job -/
  | invalidate (jslot : Nat) (base len : Word)
  /-- R387: Host command writing a signed attestation report -/
  | attestation (nonce : BitVec 256) (buf : Nat)
  /-- R386: Host command clearing disable-list entries for the next boot -/
  | clearDisableList (ix : List Nat)
  /-- R384: Host command raising the fused minimum firmware version -/
  | raiseFirmwareMinimum
  /-- R324: Host writes a submission queue tail -/
  | qtailWrite (j q : Nat) (v : Word)
  /-- R324: The device reads a queue entry and submits it as a port write -/
  | queueEntrySubmit (j q : Nat)
  /-- R323: Host frees event ring entries, releasing held events -/
  | evheadWrite (j : Nat) (v : Word)
  /-- R331: Release a parked slot to retry at EPC -/
  | releaseRetry (c sl : Nat) (gen : BitVec 16)
  /-- R331: Release a parked slot to resume at RELPC -/
  | releaseResume (c sl : Nat) (gen : BitVec 16)
  /-- R331: Release a parked slot by killing its task -/
  | releaseKill (c sl : Nat) (gen : BitVec 16)
  /-- R335: Host consumes replayable records; held records are raised again -/
  | rqheadWrite (v : Word)
  /-- R336: Host consumes fatal records; the reserve is written out -/
  | fqheadWrite (v : Word)
  /-- R335: Setting the replayable ring raises held records again -/
  | rqbaseWrite (v : Word)
  /-- R335: Setting the fatal ring writes out the reserve -/
  | fqbaseWrite (v : Word)
  /-- R336: Writing MCCOUNT stores the value and re-arms the machine check -/
  | mccountWrite (v : Word)
  /-- R316: A host write to any other register or offset is stored or discarded -/
  | hostRegisterWrite (bar off size : Nat) (v : VWord)
  /-- R334: A fault record reaches Equinox and is written to its lane's ring or held -/
  | faultRecord (fatal : Bool)
  /-- R246: Equinox begins a circ request and sends hold notices -/
  | circRequest
  /-- R61: A core or engine stalls cross-package issue until TGEN moves -/
  | holdNotice (k : PairKey)
  /-- R61: Equinox counts acknowledgements and drains before changing the plan -/
  | holdAck
  /-- R246: The switch reports the new circuits; TGEN is incremented and the completion sent -/
  | planLit
  /-- R368: After 1 s without the new circuits the plan is refused and restored -/
  | circTimeout
  /-- R362: A link receiver takes a flit: checks, credits, acknowledgements and in-order release -/
  | flit (link : Nat) (f : Flit) (checkOk headersOk : Bool)
  /-- R362: A sender resends unacknowledged flits from LACK + 1 -/
  | replayRequest (link lack : Nat)
  /-- R362: A gap open for 512 cycles makes the receiver request a replay -/
  | gapTimer (link : Nat)
  /-- R363: The source gateway releases acknowledged flit copies -/
  | endToEndAcknowledgement (peer : Peer) (vc eseq : Nat)
  /-- R363: A flit unacknowledged for 2^18 cycles causes resending -/
  | endToEndRetransmission (peer : Peer) (vc : Nat)
  /-- R366: A receiver declares a dark wavelength, sends a mask and replay request, emits records -/
  | lossOfLight (fibre : Nat) (waves : List Nat)
  /-- R366: The sender removes dark wavelengths from its list -/
  | liveMask (fibre : Nat) (mask : BitVec 16)
  /-- R369: An integrity key is replaced after 2^32 flits -/
  | keyReplacement (link : Nat)
  /-- R370: A DKIND 3 block is assigned to a gateway core's inbox -/
  | gatewayBlock (link : Nat)
  /-- R358: Traffic for a destination moves to another link once old flits are acknowledged -/
  | linkChange (peer : Peer) (vc : Nat)
  /-- R6: A fabric time message aligns a copy of the global time base -/
  | timeMessage (t : Word)
  /-- R375: A unit detects an error and counts it in its window -/
  | errorDetected (ukind unit : Nat) (cause : Nat) (addr : Word)
  /-- R375: A unit's error window restarts every 2^31 cycles -/
  | windowRestart (ukind unit : Nat)
  /-- R383: Equinox runs the boot sequence -/
  | powerOn (fuseOk linkOk : Bool) (found : Training)
  /-- R388: Every 10 µs Equinox adjusts DELIV against LIMIT and TJ -/
  | powerEvaluation (power tj : Nat)
  /-- R388: At 110 °C TRIP is set and the machine check raised -/
  | thermalTrip (tj : Nat)
  /-- R388: 1 ms after a trip the rails are removed -/
  | railRemoval
  /-- R98: A slot issues a word that names no instruction, or has a nonzero reserved field, and traps with cause 0x001 or
  0x002 -/
  | undefinedInstruction (w : IWord)
  /-- R349: A module receives a peer's layout entry from that peer's Equinox and updates its peer layout table -/
  | peerLayoutEntry (peer : Peer) (layout : PeerLayout)
  /-- R366: A host command makes Equinox train a link, letting wavelengths whose light has returned re-enter the live list -/
  | trainLink (link : Nat) (light : BitVec 16)
  /-- R368: The optical circuit switch reports that it cannot join a group, so Equinox restores the previous circuits and
  completes with status 0x146 -/
  | switchRefusedPlan
  /-- R386: A module reset restarts the module, clearing the telemetry counters and applying disable-list clears from the
  next boot -/
  | moduleReset
  deriving DecidableEq, Repr

end Sys2Proof
end

