-- ==== Sys2Proof/WellFormed.lean ====
section
/-! DEFINITION. The limits that the tables of chapter 06 set to the operands of an instruction (R104 to R115, R173, R175,
R178, R199, R208 to R211): an operand outside them makes the word undefined (R98). The steps of the ordering machine and of
the device have no word and no such limit: whether one may be taken now is for its meaning to say. -/

namespace Sys2Proof

/-- The operands of `i` lie inside the limits of its table. -/
def Instr.wf : Instr → Bool
  | .sllWImm _ _ c | .srlWImm _ _ c | .sraWImm _ _ c | .rotWImm _ _ c =>
    decide (c.toNat ≤ 31)
  | .bfx _ _ l w | .bfi _ _ l w =>
    decide (l.toNat + w.toNat + 1 ≤ 64)
  | .lea _ _ _ s =>
    decide (s.toNat ≤ 6)
  | .ld _ _ _ z _ | .st _ _ _ z _ | .ldIndexed _ _ _ _ z | .stIndexed _ _ _ _ z | .ldFeKeepIndexed _ _ _ _ z
  | .ldFeTakeIndexed _ _ _ _ z | .stFeIndexed _ _ _ _ z =>
    decide (z.toNat ≤ 3)
  | .ldS _ _ _ z _ | .ldSIndexed _ _ _ _ z =>
    decide (z.toNat ≤ 2)
  | .qpush _ n | .qpop _ n =>
    decide (n.toNat ≤ 7)
  | .aadd _ _ _ _ z | .aand _ _ _ _ z | .aor _ _ _ _ z | .axor _ _ _ _ z | .amin _ _ _ _ z | .amax _ _ _ _ z
  | .aminN _ _ _ _ z | .amaxN _ _ _ _ z | .aswap _ _ _ _ z | .acas _ _ _ _ z | .anadd _ _ _ z =>
    decide (z.toNat = 2 ∨ z.toNat = 3)
  | .ldt _ _ _ k _ =>
    decide (k.toNat ≤ 9)
  | .chnew h g | .chdup h g | .hmov h g =>
    decide (h ≠ g)
  | .chsend _ a n | .chsendLo _ a n | .chsendCtl _ a n =>
    decide (n.toNat ≤ 6 ∧ a.toNat + n.toNat ≤ 32)
  | .chsendh h g a n | .chsendhLo h g a n | .chsendhCtl h g a n =>
    decide (h ≠ g ∧ n.toNat ≤ 4 ∧ a.toNat + n.toNat ≤ 32)
  | .inboxDq _ a n | .inboxTry _ a n =>
    decide (n.toNat ≤ 3 ∧ a.toNat ≤ 25)
  | .amsg a n =>
    decide (n.toNat ≤ 4 ∧ a.toNat ≤ 25)
  | .spawn a p _ =>
    decide (p ≠ 0 ∧ a.toNat ≤ 29)
  | .mrel n =>
    decide (n.toNat ≤ 2)
  | .vadd _ _ _ _ t | .vsub _ _ _ _ t | .vmul _ _ _ _ t | .vmax _ _ _ _ t | .vmin _ _ _ _ t | .vabs _ _ _ t
  | .vneg _ _ _ t | .vand _ _ _ _ t | .vor _ _ _ _ t | .vxor _ _ _ _ t | .vmov _ _ _ t | .vbcast _ _ _ t
  | .vredsum _ _ _ t | .vredmax _ _ _ t | .vsel _ _ _ _ t | .vperm _ _ _ _ t | .vcmpEq _ _ _ _ t
  | .vcmpNe _ _ _ _ t | .vcmpLt _ _ _ _ t | .vcmpLe _ _ _ _ t | .vcmpGt _ _ _ _ t | .vcmpGe _ _ _ _ t
  | .vld _ _ _ t _ | .vst _ _ _ t _ | .vlds _ _ _ _ t _ =>
    [0, 1, 6, 7].contains t.toNat
  | .vfma _ _ _ _ t | .vexp2 _ _ _ t | .vrcp _ _ _ t | .vrsq _ _ _ t =>
    [0, 1].contains t.toNat
  | .vshl _ _ _ _ t | .vshr _ _ _ _ t =>
    [6, 7].contains t.toNat
  | .vquant d a b t _ g =>
    decide (g ≠ 0) && [2, 3, 4, 5, 6].contains t.toNat && decide (a.toNat % 4 = 0 ∧ d ≠ b)
  | .vdeq d _ _ t _ g =>
    decide (g ≠ 0) && [2, 3, 4, 5, 6].contains t.toNat && decide (d.toNat % 4 = 0)
  | .baq d a b t _ g =>
    decide (g ≠ 0) && [2, 3, 4, 5, 6].contains t.toNat && decide (a.toNat % 2 = 0 ∧ b.toNat % 2 = 0 ∧ d.toNat % 2 = 0)
  | .vmxdot _ a b _ t _ g =>
    decide (g ≠ 0) && [2, 3, 4, 5, 6].contains t.toNat && decide (a.toNat % 2 = 0 ∧ b.toNat % 2 = 0)
  | .vgath _ _ _ _ t _ | .vscat _ _ _ _ t _ =>
    [0, 7].contains t.toNat
  | .shp _ _ s =>
    decide (s.toNat ≤ 15)
  | .mma _ _ _ q | .mmaz _ _ _ q | .mmaw _ _ _ q | .accst _ _ _ q | .accld _ _ _ q | .accz _ _ _ q
  | .copy _ _ _ q | .copy2 _ _ _ q | .copyf _ _ _ q | .gather _ _ _ q | .mcast _ _ _ q | .reduce _ _ _ q
  | .rstage _ _ _ q | .xpose _ _ _ q | .fill _ _ _ q =>
    decide (q.toNat ≤ 4)
  | .trap n =>
    decide (n.toNat ≤ 15)
  | .cancel _ l =>
    decide (1 ≤ l.toNat ∧ l.toNat ≤ 4)
  | .add _ _ _ _ | .sub _ _ _ _ | .mul _ _ _ _ | .mulh _ _ _ _ | .div _ _ _ _ _ | .rem _ _ _ _ _ | .and _ _ _
  | .or _ _ _ | .xor _ _ _ | .andn _ _ _ | .sll _ _ _ _ | .srl _ _ _ _ | .sra _ _ _ _ | .rot _ _ _ _
  | .clz _ _ _ | .ctz _ _ _ | .popc _ _ _ | .min _ _ _ _ | .max _ _ _ _ | .slt _ _ _ _ | .sel _ _ _ | .sextB _ _
  | .sextH _ _ | .sextW _ _ | .zextB _ _ | .zextH _ _ | .zextW _ _ | .addImm _ _ _ | .andImm _ _ _
  | .orImm _ _ _ | .xorImm _ _ _ | .sltImm _ _ _ | .sltNImm _ _ _ | .addWImm _ _ _ | .mulImm _ _ _
  | .minImm _ _ _ | .maxImm _ _ _ | .minNImm _ _ _ | .maxNImm _ _ _ | .sllImm _ _ _ | .srlImm _ _ _
  | .sraImm _ _ _ | .rotImm _ _ _ | .lui _ _ | .auipc _ _ | .fadd _ _ _ | .fsub _ _ _ | .fmul _ _ _
  | .fdiv _ _ _ | .fmin _ _ _ | .fmax _ _ _ | .fabs _ _ | .fcmpEq _ _ _ | .fcmpNe _ _ _ | .fcmpLt _ _ _
  | .fcmpLe _ _ _ | .fcmpGt _ _ _ | .fcmpGe _ _ _ | .fcvtF32I _ _ | .fcvtIF32 _ _ | .fcvtF32Bf16 _ _
  | .fcvtBf16F32 _ _ | .fma _ _ _ _ | .gaform _ _ _ | .gahome _ _ | .gatile _ _ | .padd _ _ _ | .beq _ _ _
  | .bne _ _ _ | .blt _ _ _ | .bge _ _ _ | .blo _ _ _ | .bhs _ _ _ | .j _ | .jal _ | .ldFeKeep _ _ _ _ _
  | .ldFeTake _ _ _ _ _ | .stFe _ _ _ _ _ | .feSet _ _ | .feClr _ _ | .rdmV _ _ _ | .rdmScratchpad _ _ _
  | .rdmM _ _ _ | .tkdrop _ _ | .tkq _ _ _ | .fenceTile | .fenceCluster | .fenceDie | .fencePackage
  | .fenceSystem | .seal _ _ | .unseal _ _ | .pref _ _ | .jrd _ _ | .jdrop _ | .hclr _ | .chclose _ | .chq _ _
  | .chseg _ _ | .chbindHandler _ _ | .chbindInbox _ | .rrot | .mtset _ _ | .mtlist _ _ | .vcvt _ _ _ _ _
  | .mand _ _ _ | .mor _ _ _ | .mnot _ _ | .mpop _ _ | .mfirst _ _ | .vldRaw _ _ _ _ | .vstRaw _ _ _ _
  | .wait _ _ _ _ | .csrr _ _ | .csrw _ _ | .csrs _ _ | .csrc _ _ | .nop | .eret | .ifence | .circ _ | .time _
  | .brk | .haltSlot | .wfi | .jalr _ _ | .exit | .loop _ _ | .registerParityReplay _ _ _ _ | .deliver _
  | .perform _ | .reply _ | .refusal _ | .asyncCauseDelivery _ _ | .ticketFetch _ | .redemption _
  | .redemptionHoldExpiry _ | .ticketDrop _ | .ticketQuery _ | .leaseEnd _ | .releaseNotice _ | .snapshotReply _
  | .scaleReadReply _ | .engineStart _ | .engineAccess _ _ | .engineComplete _ _ | .parkedCommandRelease _
  | .engineMarkerComplete _ | .reductionLine _ | .completionTaskCreate _ | .silentNotice _
  | .channelCreationRequest _ | .channelCreationReply _ | .instanceAllocation _ | .messageArrival _
  | .mismatchedMessageReturn _ | .messageRelease _ _ _ | .handlerTaskCreate _ _ | .creditReturn _
  | .closeNotice _ | .finalNotice _ | .peerClosedNotice _ | .movingNotice _ | .landingNotice _ | .redirect _
  | .stubForward _ _ _ | .fenceMarker _ | .handoverMarker _ | .stubRetirement _ | .step _ _ | .slotFill _
  | .draw _ | .drawReply _ | .steal _ | .runQueueAgeing _ | .loadSummary | .workDonation _ _ | .start _ | .arm _
  | .task _ | .cancelRequest _ | .removalNotice _ | .cancelDeadline _ | .countChange _ | .hCompletion
  | .taskMigration _ _ | .migrationArrival _ _ | .watchdogExpiry _ _ | .wfiTimeout _ _ | .evaluation _
  | .migrationSwitch _ | .dropMarker _ | .drainMarker _ | .sealCompletion | .unsealCompletion | .pageWalk _ _ _
  | .tlbShootdown _ _ _ | .create _ _ _ | .teardown _ | .switch _ _ _ | .stopTimeLate _ | .switchOut
  | .switchOutDone | .resume | .invalidate _ _ _ | .attestation _ _ | .clearDisableList _
  | .raiseFirmwareMinimum | .qtailWrite _ _ _ | .queueEntrySubmit _ _ | .evheadWrite _ _ | .releaseRetry _ _ _
  | .releaseResume _ _ _ | .releaseKill _ _ _ | .rqheadWrite _ | .fqheadWrite _ | .rqbaseWrite _
  | .fqbaseWrite _ | .mccountWrite _ | .hostRegisterWrite _ _ _ _ | .faultRecord _ | .circRequest
  | .holdNotice _ | .holdAck | .planLit | .circTimeout | .flit _ _ _ _ | .replayRequest _ _ | .gapTimer _
  | .endToEndAcknowledgement _ _ _ | .endToEndRetransmission _ _ | .lossOfLight _ _ | .liveMask _ _
  | .keyReplacement _ | .gatewayBlock _ | .linkChange _ _ | .timeMessage _ | .errorDetected _ _ _ _
  | .windowRestart _ _ | .powerOn _ _ _ | .powerEvaluation _ _ | .thermalTrip _ | .railRemoval
  | .undefinedInstruction _ | .peerLayoutEntry _ _ | .trainLink _ _ | .switchRefusedPlan | .moduleReset => true

end Sys2Proof
end

