-- ==== Sys2Proof/Decode.lean ====
section
/-! DEFINITION. Decoding a word (R97 to R118) and the encoder from the same tables. Instructions are cut from the word's
fields here, once; a word that names no instruction, an operand outside its limits and a nonzero reserved field are told
apart, in the order of R98. -/

namespace Sys2Proof

/-- What a word decodes to: an instruction, or the first check of R98 that fails (cause 0x001 or 0x002). -/
inductive Decoded where
  | ok (i : Instr)
  | undefined
  | reserved
  deriving DecidableEq, Repr

/-- Bits [lo+n-1:lo] of a word. -/
abbrev fld (w : IWord) (lo n : Nat) : BitVec n := w.extractLsb' lo n

/-- The later checks of R98 in order: `lim`, the qualifier bits that the operation does not allow, and the operand limits;
then `res`, the reserved fields. -/
def chk (lim res : Bool) (i : Instr) : Decoded :=
  if lim && i.wf then (if res then .ok i else .reserved) else .undefined

/-- Major 0x01 (Table 06-4). -/
def decode01 (w : IWord) : Decoded :=
  match (fld w 0 6).toNat with
  | 0 => chk (fld w 9 1 == 0) (fld w 6 3 == 0) (.add (fld w 21 5) (fld w 16 5) (fld w 11 5) (fld w 10 1))
  | 1 => chk (fld w 9 1 == 0) (fld w 6 3 == 0) (.sub (fld w 21 5) (fld w 16 5) (fld w 11 5) (fld w 10 1))
  | 2 => chk (fld w 9 1 == 0) (fld w 6 3 == 0) (.mul (fld w 21 5) (fld w 16 5) (fld w 11 5) (fld w 10 1))
  | 3 => chk (fld w 10 1 == 0) (fld w 6 3 == 0) (.mulh (fld w 21 5) (fld w 16 5) (fld w 11 5) (fld w 9 1))
  | 4 => chk true (fld w 6 3 == 0) (.div (fld w 21 5) (fld w 16 5) (fld w 11 5) (fld w 10 1) (fld w 9 1))
  | 5 => chk true (fld w 6 3 == 0) (.rem (fld w 21 5) (fld w 16 5) (fld w 11 5) (fld w 10 1) (fld w 9 1))
  | 6 => chk (fld w 10 1 == 0 && fld w 9 1 == 0) (fld w 6 3 == 0) (.and (fld w 21 5) (fld w 16 5) (fld w 11 5))
  | 7 => chk (fld w 10 1 == 0 && fld w 9 1 == 0) (fld w 6 3 == 0) (.or (fld w 21 5) (fld w 16 5) (fld w 11 5))
  | 8 => chk (fld w 10 1 == 0 && fld w 9 1 == 0) (fld w 6 3 == 0) (.xor (fld w 21 5) (fld w 16 5) (fld w 11 5))
  | 9 => chk (fld w 10 1 == 0 && fld w 9 1 == 0) (fld w 6 3 == 0) (.andn (fld w 21 5) (fld w 16 5) (fld w 11 5))
  | 10 => chk (fld w 9 1 == 0) (fld w 6 3 == 0) (.sll (fld w 21 5) (fld w 16 5) (fld w 11 5) (fld w 10 1))
  | 11 => chk (fld w 9 1 == 0) (fld w 6 3 == 0) (.srl (fld w 21 5) (fld w 16 5) (fld w 11 5) (fld w 10 1))
  | 12 => chk (fld w 9 1 == 0) (fld w 6 3 == 0) (.sra (fld w 21 5) (fld w 16 5) (fld w 11 5) (fld w 10 1))
  | 13 => chk (fld w 9 1 == 0) (fld w 6 3 == 0) (.rot (fld w 21 5) (fld w 16 5) (fld w 11 5) (fld w 10 1))
  | 14 => chk (fld w 9 1 == 0) (fld w 11 5 == 0 && fld w 6 3 == 0) (.clz (fld w 21 5) (fld w 16 5) (fld w 10 1))
  | 15 => chk (fld w 9 1 == 0) (fld w 11 5 == 0 && fld w 6 3 == 0) (.ctz (fld w 21 5) (fld w 16 5) (fld w 10 1))
  | 16 => chk (fld w 9 1 == 0) (fld w 11 5 == 0 && fld w 6 3 == 0) (.popc (fld w 21 5) (fld w 16 5) (fld w 10 1))
  | 17 => chk (fld w 10 1 == 0) (fld w 6 3 == 0) (.min (fld w 21 5) (fld w 16 5) (fld w 11 5) (fld w 9 1))
  | 18 => chk (fld w 10 1 == 0) (fld w 6 3 == 0) (.max (fld w 21 5) (fld w 16 5) (fld w 11 5) (fld w 9 1))
  | 19 => chk (fld w 10 1 == 0) (fld w 6 3 == 0) (.slt (fld w 21 5) (fld w 16 5) (fld w 11 5) (fld w 9 1))
  | 20 => chk (fld w 10 1 == 0 && fld w 9 1 == 0) (fld w 6 3 == 0) (.sel (fld w 21 5) (fld w 16 5) (fld w 11 5))
  | 21 => chk (fld w 10 1 == 0 && fld w 9 1 == 0) (fld w 11 5 == 0 && fld w 6 3 == 0) (.sextB (fld w 21 5) (fld w 16 5))
  | 22 => chk (fld w 10 1 == 0 && fld w 9 1 == 0) (fld w 11 5 == 0 && fld w 6 3 == 0) (.sextH (fld w 21 5) (fld w 16 5))
  | 23 => chk (fld w 10 1 == 0 && fld w 9 1 == 0) (fld w 11 5 == 0 && fld w 6 3 == 0) (.sextW (fld w 21 5) (fld w 16 5))
  | 24 => chk (fld w 10 1 == 0 && fld w 9 1 == 0) (fld w 11 5 == 0 && fld w 6 3 == 0) (.zextB (fld w 21 5) (fld w 16 5))
  | 25 => chk (fld w 10 1 == 0 && fld w 9 1 == 0) (fld w 11 5 == 0 && fld w 6 3 == 0) (.zextH (fld w 21 5) (fld w 16 5))
  | 26 => chk (fld w 10 1 == 0 && fld w 9 1 == 0) (fld w 11 5 == 0 && fld w 6 3 == 0) (.zextW (fld w 21 5) (fld w 16 5))
  | _ => .undefined

/-- Major 0x05 (Table 06-5). -/
def decode05 (w : IWord) : Decoded :=
  match (fld w 12 4).toNat with
  | 0 => chk true true (.xorImm (fld w 21 5) (fld w 16 5) (fld w 0 12))
  | 1 => chk true true (.sltImm (fld w 21 5) (fld w 16 5) (fld w 0 12))
  | 2 => chk true true (.sltNImm (fld w 21 5) (fld w 16 5) (fld w 0 12))
  | 3 => chk true true (.addWImm (fld w 21 5) (fld w 16 5) (fld w 0 12))
  | 4 => chk true true (.mulImm (fld w 21 5) (fld w 16 5) (fld w 0 12))
  | 5 => chk true true (.minImm (fld w 21 5) (fld w 16 5) (fld w 0 12))
  | 6 => chk true true (.maxImm (fld w 21 5) (fld w 16 5) (fld w 0 12))
  | 7 => chk true true (.minNImm (fld w 21 5) (fld w 16 5) (fld w 0 12))
  | 8 => chk true true (.maxNImm (fld w 21 5) (fld w 16 5) (fld w 0 12))
  | _ => .undefined

/-- Major 0x06 (Table 06-5). -/
def decode06 (w : IWord) : Decoded :=
  match (fld w 12 4).toNat with
  | 0 => chk true (fld w 6 6 == 0) (.sllImm (fld w 21 5) (fld w 16 5) (fld w 0 6))
  | 1 => chk true (fld w 6 6 == 0) (.srlImm (fld w 21 5) (fld w 16 5) (fld w 0 6))
  | 2 => chk true (fld w 6 6 == 0) (.sraImm (fld w 21 5) (fld w 16 5) (fld w 0 6))
  | 3 => chk true (fld w 6 6 == 0) (.rotImm (fld w 21 5) (fld w 16 5) (fld w 0 6))
  | 4 => chk true (fld w 6 6 == 0) (.sllWImm (fld w 21 5) (fld w 16 5) (fld w 0 6))
  | 5 => chk true (fld w 6 6 == 0) (.srlWImm (fld w 21 5) (fld w 16 5) (fld w 0 6))
  | 6 => chk true (fld w 6 6 == 0) (.sraWImm (fld w 21 5) (fld w 16 5) (fld w 0 6))
  | 7 => chk true (fld w 6 6 == 0) (.rotWImm (fld w 21 5) (fld w 16 5) (fld w 0 6))
  | 8 => chk true true (.bfx (fld w 21 5) (fld w 16 5) (fld w 6 6) (fld w 0 6))
  | 9 => chk true true (.bfi (fld w 21 5) (fld w 16 5) (fld w 6 6) (fld w 0 6))
  | _ => .undefined

/-- Major 0x07 (Table 06-2). -/
def decode07 (w : IWord) : Decoded :=
  match (fld w 16 5).toNat with
  | 0 => chk true true (.lui (fld w 21 5) (fld w 0 16))
  | 1 => chk true true (.auipc (fld w 21 5) (fld w 0 16))
  | _ => .undefined

/-- Major 0x08 (Table 06-6). -/
def decode08 (w : IWord) : Decoded :=
  match (fld w 0 11).toNat with
  | 0 => chk true true (.fadd (fld w 21 5) (fld w 16 5) (fld w 11 5))
  | 1 => chk true true (.fsub (fld w 21 5) (fld w 16 5) (fld w 11 5))
  | 2 => chk true true (.fmul (fld w 21 5) (fld w 16 5) (fld w 11 5))
  | 3 => chk true true (.fdiv (fld w 21 5) (fld w 16 5) (fld w 11 5))
  | 4 => chk true true (.fmin (fld w 21 5) (fld w 16 5) (fld w 11 5))
  | 5 => chk true true (.fmax (fld w 21 5) (fld w 16 5) (fld w 11 5))
  | 6 => chk true (fld w 11 5 == 0) (.fabs (fld w 21 5) (fld w 16 5))
  | 16 => chk true true (.fcmpEq (fld w 21 5) (fld w 16 5) (fld w 11 5))
  | 17 => chk true true (.fcmpNe (fld w 21 5) (fld w 16 5) (fld w 11 5))
  | 18 => chk true true (.fcmpLt (fld w 21 5) (fld w 16 5) (fld w 11 5))
  | 19 => chk true true (.fcmpLe (fld w 21 5) (fld w 16 5) (fld w 11 5))
  | 20 => chk true true (.fcmpGt (fld w 21 5) (fld w 16 5) (fld w 11 5))
  | 21 => chk true true (.fcmpGe (fld w 21 5) (fld w 16 5) (fld w 11 5))
  | 32 => chk true (fld w 11 5 == 0) (.fcvtF32I (fld w 21 5) (fld w 16 5))
  | 33 => chk true (fld w 11 5 == 0) (.fcvtIF32 (fld w 21 5) (fld w 16 5))
  | 34 => chk true (fld w 11 5 == 0) (.fcvtF32Bf16 (fld w 21 5) (fld w 16 5))
  | 35 => chk true (fld w 11 5 == 0) (.fcvtBf16F32 (fld w 21 5) (fld w 16 5))
  | _ => .undefined

/-- Major 0x09 (Table 06-2). -/
def decode09 (w : IWord) : Decoded :=
  match (fld w 0 6).toNat with
  | 0 => chk true true (.fma (fld w 21 5) (fld w 16 5) (fld w 11 5) (fld w 6 5))
  | _ => .undefined

/-- Major 0x0C (Table 06-6). -/
def decode0C (w : IWord) : Decoded :=
  match (fld w 3 8).toNat with
  | 0 => chk true true (.lea (fld w 21 5) (fld w 16 5) (fld w 11 5) (fld w 0 3))
  | 1 =>
    match (fld w 0 3).toNat with
    | 0 => chk true true (.gaform (fld w 21 5) (fld w 16 5) (fld w 11 5))
    | 1 => chk true (fld w 11 5 == 0) (.gahome (fld w 21 5) (fld w 16 5))
    | 2 => chk true (fld w 11 5 == 0) (.gatile (fld w 21 5) (fld w 16 5))
    | 3 => chk true true (.padd (fld w 21 5) (fld w 16 5) (fld w 11 5))
    | _ => .undefined
  | _ => .undefined

/-- Major 0x1B (Table 06-2). -/
def decode1B (w : IWord) : Decoded :=
  match (fld w 13 1).toNat with
  | 0 => chk true true (.ldFeKeep (fld w 21 5) (fld w 16 5) (fld w 14 2) (fld w 11 2) (fld w 0 11))
  | _ => chk true true (.ldFeTake (fld w 21 5) (fld w 16 5) (fld w 14 2) (fld w 11 2) (fld w 0 11))

/-- Major 0x1D (Table 06-7). -/
def decode1D (w : IWord) : Decoded :=
  match (fld w 0 6).toNat with
  | 0 => chk true true (.ldIndexed (fld w 21 5) (fld w 16 5) (fld w 11 5) (fld w 9 2) (fld w 6 3))
  | 1 => chk true true (.ldSIndexed (fld w 21 5) (fld w 16 5) (fld w 11 5) (fld w 9 2) (fld w 6 3))
  | 2 => chk true true (.stIndexed (fld w 21 5) (fld w 16 5) (fld w 11 5) (fld w 9 2) (fld w 6 3))
  | 3 => chk true true (.ldFeKeepIndexed (fld w 21 5) (fld w 16 5) (fld w 11 5) (fld w 9 2) (fld w 6 3))
  | 4 => chk true true (.ldFeTakeIndexed (fld w 21 5) (fld w 16 5) (fld w 11 5) (fld w 9 2) (fld w 6 3))
  | 5 => chk true true (.stFeIndexed (fld w 21 5) (fld w 16 5) (fld w 11 5) (fld w 9 2) (fld w 6 3))
  | _ => .undefined

/-- Major 0x1E (Table 06-7). -/
def decode1E (w : IWord) : Decoded :=
  match (fld w 0 11).toNat with
  | 0 => chk true (fld w 21 5 == 0) (.feSet (fld w 16 5) (fld w 11 5))
  | 1 => chk true (fld w 21 5 == 0) (.feClr (fld w 16 5) (fld w 11 5))
  | 2 => chk true (fld w 21 5 == 0) (.qpush (fld w 16 5) (fld w 11 5))
  | 3 => chk true (fld w 16 5 == 0) (.qpop (fld w 21 5) (fld w 11 5))
  | _ => .undefined

/-- Major 0x20 (Table 06-7). -/
def decode20 (w : IWord) : Decoded :=
  match (fld w 0 6).toNat with
  | 0 => chk true true (.aadd (fld w 21 5) (fld w 16 5) (fld w 11 5) (fld w 9 2) (fld w 6 3))
  | 1 => chk true true (.aand (fld w 21 5) (fld w 16 5) (fld w 11 5) (fld w 9 2) (fld w 6 3))
  | 2 => chk true true (.aor (fld w 21 5) (fld w 16 5) (fld w 11 5) (fld w 9 2) (fld w 6 3))
  | 3 => chk true true (.axor (fld w 21 5) (fld w 16 5) (fld w 11 5) (fld w 9 2) (fld w 6 3))
  | 4 => chk true true (.amin (fld w 21 5) (fld w 16 5) (fld w 11 5) (fld w 9 2) (fld w 6 3))
  | 5 => chk true true (.amax (fld w 21 5) (fld w 16 5) (fld w 11 5) (fld w 9 2) (fld w 6 3))
  | 6 => chk true true (.aminN (fld w 21 5) (fld w 16 5) (fld w 11 5) (fld w 9 2) (fld w 6 3))
  | 7 => chk true true (.amaxN (fld w 21 5) (fld w 16 5) (fld w 11 5) (fld w 9 2) (fld w 6 3))
  | 8 => chk true true (.aswap (fld w 21 5) (fld w 16 5) (fld w 11 5) (fld w 9 2) (fld w 6 3))
  | 9 => chk true true (.acas (fld w 21 5) (fld w 16 5) (fld w 11 5) (fld w 9 2) (fld w 6 3))
  | _ => .undefined

/-- Major 0x21 (Table 06-2). -/
def decode21 (w : IWord) : Decoded :=
  match (fld w 0 6).toNat with
  | 0 => chk true (fld w 21 5 == 0) (.anadd (fld w 16 5) (fld w 11 5) (fld w 9 2) (fld w 6 3))
  | _ => .undefined

/-- Major 0x23 (Table 06-7). -/
def decode23 (w : IWord) : Decoded :=
  match (fld w 0 6).toNat with
  | 0 => chk true (fld w 11 5 == 0 && fld w 6 3 == 0) (.rdmV (fld w 21 5) (fld w 16 5) (fld w 9 2))
  | 1 => chk true (fld w 21 5 == 0 && fld w 6 3 == 0) (.rdmScratchpad (fld w 16 5) (fld w 11 5) (fld w 9 2))
  | 2 => chk true (fld w 21 5 == 0 && fld w 6 3 == 0) (.rdmM (fld w 16 5) (fld w 11 5) (fld w 9 2))
  | 3 => chk true (fld w 21 5 == 0 && fld w 11 5 == 0 && fld w 6 3 == 0) (.tkdrop (fld w 16 5) (fld w 9 2))
  | 4 => chk true (fld w 11 5 == 0 && fld w 6 3 == 0) (.tkq (fld w 21 5) (fld w 16 5) (fld w 9 2))
  | _ => .undefined

/-- Major 0x24 (Table 06-7). -/
def decode24 (w : IWord) : Decoded :=
  match (fld w 0 11).toNat with
  | 0 => chk true (fld w 11 15 == 0) .fenceTile
  | 1 => chk true (fld w 11 15 == 0) .fenceCluster
  | 2 => chk true (fld w 11 15 == 0) .fenceDie
  | 3 => chk true (fld w 11 15 == 0) .fencePackage
  | 4 => chk true (fld w 11 15 == 0) .fenceSystem
  | 8 => chk true (fld w 21 5 == 0) (.seal (fld w 16 5) (fld w 11 5))
  | 9 => chk true (fld w 21 5 == 0) (.unseal (fld w 16 5) (fld w 11 5))
  | 16 => chk true (fld w 21 5 == 0) (.pref (fld w 16 5) (fld w 11 5))
  | _ => .undefined

/-- Major 0x25 (Table 06-7). -/
def decode25 (w : IWord) : Decoded :=
  match (fld w 0 11).toNat with
  | 0 => chk true (fld w 11 5 == 0) (.jrd (fld w 21 5) (fld w 16 5))
  | 1 => chk true (fld w 21 5 == 0 && fld w 11 5 == 0) (.jdrop (fld w 16 5))
  | _ => .undefined

/-- Major 0x28 (Table 06-8). -/
def decode28 (w : IWord) : Decoded :=
  match (fld w 0 5).toNat with
  | 0 => chk true (fld w 5 13 == 0) (.chnew (fld w 22 4) (fld w 18 4))
  | 1 => chk true (fld w 5 13 == 0) (.chdup (fld w 22 4) (fld w 18 4))
  | 2 => chk true (fld w 5 13 == 0) (.hmov (fld w 22 4) (fld w 18 4))
  | 3 => chk true (fld w 5 17 == 0) (.hclr (fld w 22 4))
  | 4 => chk true (fld w 5 17 == 0) (.chclose (fld w 22 4))
  | 5 => chk true (fld w 22 4 == 0 && fld w 5 8 == 0) (.chq (fld w 18 4) (fld w 13 5))
  | 6 => chk true (fld w 18 4 == 0 && fld w 5 8 == 0) (.chseg (fld w 22 4) (fld w 13 5))
  | _ => .undefined

/-- Major 0x29 (R113). -/
def decode29 (w : IWord) : Decoded :=
  match (fld w 20 2).toNat with
  | 0 => chk true (fld w 18 2 == 0) (.chbindHandler (fld w 22 4) (fld w 0 18))
  | 1 => chk true (fld w 0 20 == 0) (.chbindInbox (fld w 22 4))
  | _ => .undefined

/-- Major 0x2A (Table 06-8). -/
def decode2A (w : IWord) : Decoded :=
  match (fld w 0 5).toNat with
  | 0 => chk true (fld w 18 4 == 0 && fld w 8 5 == 0) (.chsend (fld w 22 4) (fld w 13 5) (fld w 5 3))
  | 1 => chk true (fld w 18 4 == 0 && fld w 8 5 == 0) (.chsendLo (fld w 22 4) (fld w 13 5) (fld w 5 3))
  | 2 => chk true (fld w 18 4 == 0 && fld w 8 5 == 0) (.chsendCtl (fld w 22 4) (fld w 13 5) (fld w 5 3))
  | 4 => chk true (fld w 8 5 == 0) (.chsendh (fld w 22 4) (fld w 18 4) (fld w 13 5) (fld w 5 3))
  | 5 => chk true (fld w 8 5 == 0) (.chsendhLo (fld w 22 4) (fld w 18 4) (fld w 13 5) (fld w 5 3))
  | 6 => chk true (fld w 8 5 == 0) (.chsendhCtl (fld w 22 4) (fld w 18 4) (fld w 13 5) (fld w 5 3))
  | _ => .undefined

/-- Major 0x2B (Table 06-8). -/
def decode2B (w : IWord) : Decoded :=
  match (fld w 0 5).toNat with
  | 0 => chk true (fld w 18 4 == 0 && fld w 8 5 == 0) (.inboxDq (fld w 22 4) (fld w 13 5) (fld w 5 3))
  | 1 => chk true (fld w 18 4 == 0 && fld w 8 5 == 0) (.inboxTry (fld w 22 4) (fld w 13 5) (fld w 5 3))
  | 2 => chk true (fld w 18 8 == 0 && fld w 8 5 == 0) (.amsg (fld w 13 5) (fld w 5 3))
  | _ => .undefined

/-- Major 0x2D (Table 06-8). -/
def decode2D (w : IWord) : Decoded :=
  match (fld w 0 5).toNat with
  | 0 => chk true (fld w 5 21 == 0) .rrot
  | 1 => chk true (fld w 18 8 == 0 && fld w 5 3 == 0) (.mtset (fld w 13 5) (fld w 8 5))
  | 2 => chk true (fld w 18 8 == 0 && fld w 5 3 == 0) (.mtlist (fld w 13 5) (fld w 8 5))
  | 3 => chk true (fld w 8 18 == 0) (.mrel (fld w 5 3))
  | _ => .undefined

/-- Major 0x30 (Table 06-9). -/
def decode30 (w : IWord) : Decoded :=
  match (fld w 0 5).toNat with
  | 0 => chk true true (.vadd (fld w 21 5) (fld w 16 5) (fld w 11 5) (fld w 8 3) (fld w 5 3))
  | 1 => chk true true (.vsub (fld w 21 5) (fld w 16 5) (fld w 11 5) (fld w 8 3) (fld w 5 3))
  | 2 => chk true true (.vmul (fld w 21 5) (fld w 16 5) (fld w 11 5) (fld w 8 3) (fld w 5 3))
  | 3 => chk true true (.vfma (fld w 21 5) (fld w 16 5) (fld w 11 5) (fld w 8 3) (fld w 5 3))
  | 4 => chk true true (.vmax (fld w 21 5) (fld w 16 5) (fld w 11 5) (fld w 8 3) (fld w 5 3))
  | 5 => chk true true (.vmin (fld w 21 5) (fld w 16 5) (fld w 11 5) (fld w 8 3) (fld w 5 3))
  | 6 => chk true (fld w 11 5 == 0) (.vabs (fld w 21 5) (fld w 16 5) (fld w 8 3) (fld w 5 3))
  | 7 => chk true (fld w 11 5 == 0) (.vneg (fld w 21 5) (fld w 16 5) (fld w 8 3) (fld w 5 3))
  | 8 => chk true (fld w 11 5 == 0) (.vexp2 (fld w 21 5) (fld w 16 5) (fld w 8 3) (fld w 5 3))
  | 9 => chk true (fld w 11 5 == 0) (.vrcp (fld w 21 5) (fld w 16 5) (fld w 8 3) (fld w 5 3))
  | 10 => chk true (fld w 11 5 == 0) (.vrsq (fld w 21 5) (fld w 16 5) (fld w 8 3) (fld w 5 3))
  | 11 => chk true true (.vand (fld w 21 5) (fld w 16 5) (fld w 11 5) (fld w 8 3) (fld w 5 3))
  | 12 => chk true true (.vor (fld w 21 5) (fld w 16 5) (fld w 11 5) (fld w 8 3) (fld w 5 3))
  | 13 => chk true true (.vxor (fld w 21 5) (fld w 16 5) (fld w 11 5) (fld w 8 3) (fld w 5 3))
  | 14 => chk true true (.vshl (fld w 21 5) (fld w 16 5) (fld w 11 5) (fld w 8 3) (fld w 5 3))
  | 15 => chk true true (.vshr (fld w 21 5) (fld w 16 5) (fld w 11 5) (fld w 8 3) (fld w 5 3))
  | 16 => chk true (fld w 11 5 == 0) (.vmov (fld w 21 5) (fld w 16 5) (fld w 8 3) (fld w 5 3))
  | 17 => chk true (fld w 11 5 == 0) (.vbcast (fld w 21 5) (fld w 16 5) (fld w 8 3) (fld w 5 3))
  | 18 => chk true (fld w 11 5 == 0) (.vredsum (fld w 21 5) (fld w 16 5) (fld w 8 3) (fld w 5 3))
  | 19 => chk true (fld w 11 5 == 0) (.vredmax (fld w 21 5) (fld w 16 5) (fld w 8 3) (fld w 5 3))
  | 20 => chk true true (.vsel (fld w 21 5) (fld w 16 5) (fld w 11 5) (fld w 8 3) (fld w 5 3))
  | 21 => chk true true (.vperm (fld w 21 5) (fld w 16 5) (fld w 11 5) (fld w 8 3) (fld w 5 3))
  | _ => .undefined

/-- Major 0x31 (Table 06-9). -/
def decode31 (w : IWord) : Decoded :=
  match (fld w 0 5).toNat with
  | 0 => chk true (fld w 24 2 == 0) (.vcmpEq (fld w 21 3) (fld w 16 5) (fld w 11 5) (fld w 8 3) (fld w 5 3))
  | 1 => chk true (fld w 24 2 == 0) (.vcmpNe (fld w 21 3) (fld w 16 5) (fld w 11 5) (fld w 8 3) (fld w 5 3))
  | 2 => chk true (fld w 24 2 == 0) (.vcmpLt (fld w 21 3) (fld w 16 5) (fld w 11 5) (fld w 8 3) (fld w 5 3))
  | 3 => chk true (fld w 24 2 == 0) (.vcmpLe (fld w 21 3) (fld w 16 5) (fld w 11 5) (fld w 8 3) (fld w 5 3))
  | 4 => chk true (fld w 24 2 == 0) (.vcmpGt (fld w 21 3) (fld w 16 5) (fld w 11 5) (fld w 8 3) (fld w 5 3))
  | 5 => chk true (fld w 24 2 == 0) (.vcmpGe (fld w 21 3) (fld w 16 5) (fld w 11 5) (fld w 8 3) (fld w 5 3))
  | _ => .undefined

/-- Major 0x32 (Table 06-9): fn[4:3] selects the operation; fn[1:0] = 0 is only `vcvt`, with fn = 0. -/
def decode32 (w : IWord) : Decoded :=
  match (fld w 3 2).toNat with
  | 0 =>
    if fld w 0 2 == 0 then
      (if fld w 2 1 == 0 then chk true (fld w 14 2 == 0) (.vcvt (fld w 21 5) (fld w 16 5) (fld w 11 3) (fld w 8 3) (fld w 5 3)) else .undefined)
    else chk true (fld w 8 3 == 0) (.vquant (fld w 21 5) (fld w 16 5) (fld w 11 5) (fld w 5 3) (fld w 2 1) (fld w 0 2))
  | 1 => chk true (fld w 8 3 == 0) (.vdeq (fld w 21 5) (fld w 16 5) (fld w 11 5) (fld w 5 3) (fld w 2 1) (fld w 0 2))
  | 2 => chk true (fld w 8 3 == 0) (.baq (fld w 21 5) (fld w 16 5) (fld w 11 5) (fld w 5 3) (fld w 2 1) (fld w 0 2))
  | _ => chk true true (.vmxdot (fld w 21 5) (fld w 16 5) (fld w 11 5) (fld w 8 3) (fld w 5 3) (fld w 2 1) (fld w 0 2))

/-- Major 0x33 (Table 06-9). -/
def decode33 (w : IWord) : Decoded :=
  match (fld w 0 5).toNat with
  | 0 => chk true (fld w 24 2 == 0 && fld w 19 2 == 0 && fld w 14 2 == 0 && fld w 5 6 == 0) (.mand (fld w 21 3) (fld w 16 3) (fld w 11 3))
  | 1 => chk true (fld w 24 2 == 0 && fld w 19 2 == 0 && fld w 14 2 == 0 && fld w 5 6 == 0) (.mor (fld w 21 3) (fld w 16 3) (fld w 11 3))
  | 2 => chk true (fld w 24 2 == 0 && fld w 19 2 == 0 && fld w 5 11 == 0) (.mnot (fld w 21 3) (fld w 16 3))
  | 3 => chk true (fld w 19 2 == 0 && fld w 5 11 == 0) (.mpop (fld w 21 5) (fld w 16 3))
  | 4 => chk true (fld w 19 2 == 0 && fld w 5 11 == 0) (.mfirst (fld w 21 5) (fld w 16 3))
  | _ => .undefined

/-- Major 0x36 (Table 06-9). -/
def decode36 (w : IWord) : Decoded :=
  match (fld w 0 3).toNat with
  | 0 => chk true true (.vlds (fld w 21 5) (fld w 16 5) (fld w 11 5) (fld w 8 3) (fld w 5 3) (fld w 3 2))
  | 2 => chk true true (.vgath (fld w 21 5) (fld w 16 5) (fld w 11 5) (fld w 8 3) (fld w 5 3) (fld w 3 2))
  | 3 => chk true true (.vscat (fld w 21 5) (fld w 16 5) (fld w 11 5) (fld w 8 3) (fld w 5 3) (fld w 3 2))
  | _ => .undefined

/-- Major 0x37 (R111). -/
def decode37 (w : IWord) : Decoded :=
  match (fld w 11 3).toNat with
  | 0 => chk true true (.vldRaw (fld w 21 5) (fld w 16 5) (fld w 14 2) (fld w 0 11))
  | 1 => chk true true (.vstRaw (fld w 21 5) (fld w 16 5) (fld w 14 2) (fld w 0 11))
  | _ => .undefined

/-- Major 0x38 (Table 06-10). -/
def decode38 (w : IWord) : Decoded :=
  match (fld w 18 8).toNat with
  | 0 => chk true (fld w 0 3 == 0) (.shp (fld w 13 5) (fld w 8 5) (fld w 3 5))
  | 1 => chk true true (.mma (fld w 13 5) (fld w 8 5) (fld w 3 5) (fld w 0 3))
  | 2 => chk true true (.mmaz (fld w 13 5) (fld w 8 5) (fld w 3 5) (fld w 0 3))
  | 3 => chk true true (.mmaw (fld w 13 5) (fld w 8 5) (fld w 3 5) (fld w 0 3))
  | 4 => chk true true (.accst (fld w 13 5) (fld w 8 5) (fld w 3 5) (fld w 0 3))
  | 5 => chk true true (.accld (fld w 13 5) (fld w 8 5) (fld w 3 5) (fld w 0 3))
  | 6 => chk true true (.accz (fld w 13 5) (fld w 8 5) (fld w 3 5) (fld w 0 3))
  | 16 => chk true true (.copy (fld w 13 5) (fld w 8 5) (fld w 3 5) (fld w 0 3))
  | 17 => chk true true (.copy2 (fld w 13 5) (fld w 8 5) (fld w 3 5) (fld w 0 3))
  | 18 => chk true true (.copyf (fld w 13 5) (fld w 8 5) (fld w 3 5) (fld w 0 3))
  | 19 => chk true true (.gather (fld w 13 5) (fld w 8 5) (fld w 3 5) (fld w 0 3))
  | 32 => chk true true (.mcast (fld w 13 5) (fld w 8 5) (fld w 3 5) (fld w 0 3))
  | 48 => chk true true (.reduce (fld w 13 5) (fld w 8 5) (fld w 3 5) (fld w 0 3))
  | 49 => chk true true (.rstage (fld w 13 5) (fld w 8 5) (fld w 3 5) (fld w 0 3))
  | 64 => chk true true (.xpose (fld w 13 5) (fld w 8 5) (fld w 3 5) (fld w 0 3))
  | 65 => chk true true (.fill (fld w 13 5) (fld w 8 5) (fld w 3 5) (fld w 0 3))
  | _ => .undefined

/-- Major 0x3A (R107). -/
def decode3A (w : IWord) : Decoded :=
  match (fld w 12 4).toNat with
  | 0 => chk true (fld w 16 5 == 0) (.csrr (fld w 21 5) (fld w 0 12))
  | 1 => chk true (fld w 21 5 == 0) (.csrw (fld w 16 5) (fld w 0 12))
  | 2 => chk true (fld w 21 5 == 0) (.csrs (fld w 16 5) (fld w 0 12))
  | 3 => chk true (fld w 21 5 == 0) (.csrc (fld w 16 5) (fld w 0 12))
  | _ => .undefined

/-- Major 0x3B (Table 06-6). -/
def decode3B (w : IWord) : Decoded :=
  match (fld w 0 11).toNat with
  | 0 => chk true (fld w 11 15 == 0) .nop
  | 1 => chk true (fld w 21 5 == 0 && fld w 11 5 == 0) (.trap (fld w 16 5))
  | 2 => chk true (fld w 11 15 == 0) .eret
  | 3 => chk true (fld w 11 15 == 0) .ifence
  | 4 => chk true (fld w 21 5 == 0) (.cancel (fld w 16 5) (fld w 11 5))
  | 5 => chk true (fld w 21 5 == 0 && fld w 11 5 == 0) (.circ (fld w 16 5))
  | 6 => chk true (fld w 11 10 == 0) (.time (fld w 21 5))
  | 7 => chk true (fld w 11 15 == 0) .brk
  | 8 => chk true (fld w 11 15 == 0) .haltSlot
  | 9 => chk true (fld w 11 15 == 0) .wfi
  | 10 => chk true (fld w 11 5 == 0) (.jalr (fld w 21 5) (fld w 16 5))
  | 11 => chk true (fld w 11 15 == 0) .exit
  | _ => .undefined

/-- The checks of R98 on a word up to the reserved fields, by the major opcode (Table 06-2). -/
def decode (w : IWord) : Decoded :=
  match (fld w 26 6).toNat with
  | 0x01 => decode01 w
  | 0x02 => chk true true (.addImm (fld w 21 5) (fld w 16 5) (fld w 0 16))
  | 0x03 => chk true true (.andImm (fld w 21 5) (fld w 16 5) (fld w 0 16))
  | 0x04 => chk true true (.orImm (fld w 21 5) (fld w 16 5) (fld w 0 16))
  | 0x05 => decode05 w
  | 0x06 => decode06 w
  | 0x07 => decode07 w
  | 0x08 => decode08 w
  | 0x09 => decode09 w
  | 0x0C => decode0C w
  | 0x10 => chk true true (.beq (fld w 21 5) (fld w 16 5) (fld w 0 16))
  | 0x11 => chk true true (.bne (fld w 21 5) (fld w 16 5) (fld w 0 16))
  | 0x12 => chk true true (.blt (fld w 21 5) (fld w 16 5) (fld w 0 16))
  | 0x13 => chk true true (.bge (fld w 21 5) (fld w 16 5) (fld w 0 16))
  | 0x14 => chk true true (.blo (fld w 21 5) (fld w 16 5) (fld w 0 16))
  | 0x15 => chk true true (.bhs (fld w 21 5) (fld w 16 5) (fld w 0 16))
  | 0x16 => chk true true (.j (fld w 0 26))
  | 0x17 => chk true true (.jal (fld w 0 26))
  | 0x18 => chk true true (.ld (fld w 21 5) (fld w 16 5) (fld w 14 2) (fld w 11 3) (fld w 0 11))
  | 0x19 => chk true true (.ldS (fld w 21 5) (fld w 16 5) (fld w 14 2) (fld w 11 3) (fld w 0 11))
  | 0x1A => chk true true (.st (fld w 21 5) (fld w 16 5) (fld w 14 2) (fld w 11 3) (fld w 0 11))
  | 0x1B => decode1B w
  | 0x1C => chk true (fld w 13 1 == 0) (.stFe (fld w 21 5) (fld w 16 5) (fld w 14 2) (fld w 11 2) (fld w 0 11))
  | 0x1D => decode1D w
  | 0x1E => decode1E w
  | 0x20 => decode20 w
  | 0x21 => decode21 w
  | 0x22 => chk true true (.ldt (fld w 21 5) (fld w 16 5) (fld w 14 2) (fld w 10 4) (fld w 0 10))
  | 0x23 => decode23 w
  | 0x24 => decode24 w
  | 0x25 => decode25 w
  | 0x28 => decode28 w
  | 0x29 => decode29 w
  | 0x2A => decode2A w
  | 0x2B => decode2B w
  | 0x2C => chk true (fld w 18 1 == 0) (.spawn (fld w 21 5) (fld w 19 2) (fld w 0 18))
  | 0x2D => decode2D w
  | 0x30 => decode30 w
  | 0x31 => decode31 w
  | 0x32 => decode32 w
  | 0x33 => decode33 w
  | 0x34 => chk true true (.vld (fld w 21 5) (fld w 16 5) (fld w 14 2) (fld w 11 3) (fld w 0 11))
  | 0x35 => chk true true (.vst (fld w 21 5) (fld w 16 5) (fld w 14 2) (fld w 11 3) (fld w 0 11))
  | 0x36 => decode36 w
  | 0x37 => decode37 w
  | 0x38 => decode38 w
  | 0x39 => chk true (fld w 0 6 == 0) (.wait (fld w 21 5) (fld w 16 5) (fld w 11 5) (fld w 6 5))
  | 0x3A => decode3A w
  | 0x3B => decode3B w
  | 0x3C => chk true (fld w 16 5 == 0) (.loop (fld w 21 5) (fld w 0 16))
  | _ => .undefined

/-- The word of an instruction, its fields laid down as Tables 06-1 to 06-10 place them and every reserved field zero
(R99). A step of the ordering machine or of the device has no word. -/
def encode : Instr → Option IWord
  | .add d a b w => some (0x01#6 ++ d ++ a ++ b ++ w ++ 0#1 ++ 0#3 ++ 0#6)
  | .sub d a b w => some (0x01#6 ++ d ++ a ++ b ++ w ++ 0#1 ++ 0#3 ++ 1#6)
  | .mul d a b w => some (0x01#6 ++ d ++ a ++ b ++ w ++ 0#1 ++ 0#3 ++ 2#6)
  | .mulh d a b n => some (0x01#6 ++ d ++ a ++ b ++ 0#1 ++ n ++ 0#3 ++ 3#6)
  | .div d a b w n => some (0x01#6 ++ d ++ a ++ b ++ w ++ n ++ 0#3 ++ 4#6)
  | .rem d a b w n => some (0x01#6 ++ d ++ a ++ b ++ w ++ n ++ 0#3 ++ 5#6)
  | .and d a b => some (0x01#6 ++ d ++ a ++ b ++ 0#1 ++ 0#1 ++ 0#3 ++ 6#6)
  | .or d a b => some (0x01#6 ++ d ++ a ++ b ++ 0#1 ++ 0#1 ++ 0#3 ++ 7#6)
  | .xor d a b => some (0x01#6 ++ d ++ a ++ b ++ 0#1 ++ 0#1 ++ 0#3 ++ 8#6)
  | .andn d a b => some (0x01#6 ++ d ++ a ++ b ++ 0#1 ++ 0#1 ++ 0#3 ++ 9#6)
  | .sll d a b w => some (0x01#6 ++ d ++ a ++ b ++ w ++ 0#1 ++ 0#3 ++ 10#6)
  | .srl d a b w => some (0x01#6 ++ d ++ a ++ b ++ w ++ 0#1 ++ 0#3 ++ 11#6)
  | .sra d a b w => some (0x01#6 ++ d ++ a ++ b ++ w ++ 0#1 ++ 0#3 ++ 12#6)
  | .rot d a b w => some (0x01#6 ++ d ++ a ++ b ++ w ++ 0#1 ++ 0#3 ++ 13#6)
  | .clz d a w => some (0x01#6 ++ d ++ a ++ 0#5 ++ w ++ 0#1 ++ 0#3 ++ 14#6)
  | .ctz d a w => some (0x01#6 ++ d ++ a ++ 0#5 ++ w ++ 0#1 ++ 0#3 ++ 15#6)
  | .popc d a w => some (0x01#6 ++ d ++ a ++ 0#5 ++ w ++ 0#1 ++ 0#3 ++ 16#6)
  | .min d a b n => some (0x01#6 ++ d ++ a ++ b ++ 0#1 ++ n ++ 0#3 ++ 17#6)
  | .max d a b n => some (0x01#6 ++ d ++ a ++ b ++ 0#1 ++ n ++ 0#3 ++ 18#6)
  | .slt d a b n => some (0x01#6 ++ d ++ a ++ b ++ 0#1 ++ n ++ 0#3 ++ 19#6)
  | .sel d a b => some (0x01#6 ++ d ++ a ++ b ++ 0#1 ++ 0#1 ++ 0#3 ++ 20#6)
  | .sextB d a => some (0x01#6 ++ d ++ a ++ 0#5 ++ 0#1 ++ 0#1 ++ 0#3 ++ 21#6)
  | .sextH d a => some (0x01#6 ++ d ++ a ++ 0#5 ++ 0#1 ++ 0#1 ++ 0#3 ++ 22#6)
  | .sextW d a => some (0x01#6 ++ d ++ a ++ 0#5 ++ 0#1 ++ 0#1 ++ 0#3 ++ 23#6)
  | .zextB d a => some (0x01#6 ++ d ++ a ++ 0#5 ++ 0#1 ++ 0#1 ++ 0#3 ++ 24#6)
  | .zextH d a => some (0x01#6 ++ d ++ a ++ 0#5 ++ 0#1 ++ 0#1 ++ 0#3 ++ 25#6)
  | .zextW d a => some (0x01#6 ++ d ++ a ++ 0#5 ++ 0#1 ++ 0#1 ++ 0#3 ++ 26#6)
  | .addImm d a i => some (0x02#6 ++ d ++ a ++ i)
  | .andImm d a i => some (0x03#6 ++ d ++ a ++ i)
  | .orImm d a i => some (0x04#6 ++ d ++ a ++ i)
  | .xorImm d a i => some (0x05#6 ++ d ++ a ++ 0#4 ++ i)
  | .sltImm d a i => some (0x05#6 ++ d ++ a ++ 1#4 ++ i)
  | .sltNImm d a i => some (0x05#6 ++ d ++ a ++ 2#4 ++ i)
  | .addWImm d a i => some (0x05#6 ++ d ++ a ++ 3#4 ++ i)
  | .mulImm d a i => some (0x05#6 ++ d ++ a ++ 4#4 ++ i)
  | .minImm d a i => some (0x05#6 ++ d ++ a ++ 5#4 ++ i)
  | .maxImm d a i => some (0x05#6 ++ d ++ a ++ 6#4 ++ i)
  | .minNImm d a i => some (0x05#6 ++ d ++ a ++ 7#4 ++ i)
  | .maxNImm d a i => some (0x05#6 ++ d ++ a ++ 8#4 ++ i)
  | .sllImm d a c => some (0x06#6 ++ d ++ a ++ 0#4 ++ 0#6 ++ c)
  | .srlImm d a c => some (0x06#6 ++ d ++ a ++ 1#4 ++ 0#6 ++ c)
  | .sraImm d a c => some (0x06#6 ++ d ++ a ++ 2#4 ++ 0#6 ++ c)
  | .rotImm d a c => some (0x06#6 ++ d ++ a ++ 3#4 ++ 0#6 ++ c)
  | .sllWImm d a c => some (0x06#6 ++ d ++ a ++ 4#4 ++ 0#6 ++ c)
  | .srlWImm d a c => some (0x06#6 ++ d ++ a ++ 5#4 ++ 0#6 ++ c)
  | .sraWImm d a c => some (0x06#6 ++ d ++ a ++ 6#4 ++ 0#6 ++ c)
  | .rotWImm d a c => some (0x06#6 ++ d ++ a ++ 7#4 ++ 0#6 ++ c)
  | .bfx d a l w => some (0x06#6 ++ d ++ a ++ 8#4 ++ l ++ w)
  | .bfi d a l w => some (0x06#6 ++ d ++ a ++ 9#4 ++ l ++ w)
  | .lui d i => some (0x07#6 ++ d ++ 0#5 ++ i)
  | .auipc d i => some (0x07#6 ++ d ++ 1#5 ++ i)
  | .fadd d a b => some (0x08#6 ++ d ++ a ++ b ++ 0#11)
  | .fsub d a b => some (0x08#6 ++ d ++ a ++ b ++ 1#11)
  | .fmul d a b => some (0x08#6 ++ d ++ a ++ b ++ 2#11)
  | .fdiv d a b => some (0x08#6 ++ d ++ a ++ b ++ 3#11)
  | .fmin d a b => some (0x08#6 ++ d ++ a ++ b ++ 4#11)
  | .fmax d a b => some (0x08#6 ++ d ++ a ++ b ++ 5#11)
  | .fabs d a => some (0x08#6 ++ d ++ a ++ 0#5 ++ 6#11)
  | .fcmpEq d a b => some (0x08#6 ++ d ++ a ++ b ++ 16#11)
  | .fcmpNe d a b => some (0x08#6 ++ d ++ a ++ b ++ 17#11)
  | .fcmpLt d a b => some (0x08#6 ++ d ++ a ++ b ++ 18#11)
  | .fcmpLe d a b => some (0x08#6 ++ d ++ a ++ b ++ 19#11)
  | .fcmpGt d a b => some (0x08#6 ++ d ++ a ++ b ++ 20#11)
  | .fcmpGe d a b => some (0x08#6 ++ d ++ a ++ b ++ 21#11)
  | .fcvtF32I d a => some (0x08#6 ++ d ++ a ++ 0#5 ++ 32#11)
  | .fcvtIF32 d a => some (0x08#6 ++ d ++ a ++ 0#5 ++ 33#11)
  | .fcvtF32Bf16 d a => some (0x08#6 ++ d ++ a ++ 0#5 ++ 34#11)
  | .fcvtBf16F32 d a => some (0x08#6 ++ d ++ a ++ 0#5 ++ 35#11)
  | .fma d a b c => some (0x09#6 ++ d ++ a ++ b ++ c ++ 0#6)
  | .lea d a b s => some (0x0C#6 ++ d ++ a ++ b ++ 0#8 ++ s)
  | .gaform d a b => some (0x0C#6 ++ d ++ a ++ b ++ 1#8 ++ 0#3)
  | .gahome d a => some (0x0C#6 ++ d ++ a ++ 0#5 ++ 1#8 ++ 1#3)
  | .gatile d a => some (0x0C#6 ++ d ++ a ++ 0#5 ++ 1#8 ++ 2#3)
  | .padd d a b => some (0x0C#6 ++ d ++ a ++ b ++ 1#8 ++ 3#3)
  | .beq a b d => some (0x10#6 ++ a ++ b ++ d)
  | .bne a b d => some (0x11#6 ++ a ++ b ++ d)
  | .blt a b d => some (0x12#6 ++ a ++ b ++ d)
  | .bge a b d => some (0x13#6 ++ a ++ b ++ d)
  | .blo a b d => some (0x14#6 ++ a ++ b ++ d)
  | .bhs a b d => some (0x15#6 ++ a ++ b ++ d)
  | .j d => some (0x16#6 ++ d)
  | .jal d => some (0x17#6 ++ d)
  | .ld d a w z o => some (0x18#6 ++ d ++ a ++ w ++ z ++ o)
  | .ldS d a w z o => some (0x19#6 ++ d ++ a ++ w ++ z ++ o)
  | .st s a w z o => some (0x1A#6 ++ s ++ a ++ w ++ z ++ o)
  | .ldFeKeep d a w z o => some (0x1B#6 ++ d ++ a ++ w ++ 0#1 ++ z ++ o)
  | .ldFeTake d a w z o => some (0x1B#6 ++ d ++ a ++ w ++ 1#1 ++ z ++ o)
  | .stFe s a w z o => some (0x1C#6 ++ s ++ a ++ w ++ 0#1 ++ z ++ o)
  | .ldIndexed d a b w z => some (0x1D#6 ++ d ++ a ++ b ++ w ++ z ++ 0#6)
  | .ldSIndexed d a b w z => some (0x1D#6 ++ d ++ a ++ b ++ w ++ z ++ 1#6)
  | .stIndexed s a b w z => some (0x1D#6 ++ s ++ a ++ b ++ w ++ z ++ 2#6)
  | .ldFeKeepIndexed d a b w z => some (0x1D#6 ++ d ++ a ++ b ++ w ++ z ++ 3#6)
  | .ldFeTakeIndexed d a b w z => some (0x1D#6 ++ d ++ a ++ b ++ w ++ z ++ 4#6)
  | .stFeIndexed s a b w z => some (0x1D#6 ++ s ++ a ++ b ++ w ++ z ++ 5#6)
  | .feSet a b => some (0x1E#6 ++ 0#5 ++ a ++ b ++ 0#11)
  | .feClr a b => some (0x1E#6 ++ 0#5 ++ a ++ b ++ 1#11)
  | .qpush a n => some (0x1E#6 ++ 0#5 ++ a ++ n ++ 2#11)
  | .qpop d n => some (0x1E#6 ++ d ++ 0#5 ++ n ++ 3#11)
  | .aadd d a b w z => some (0x20#6 ++ d ++ a ++ b ++ w ++ z ++ 0#6)
  | .aand d a b w z => some (0x20#6 ++ d ++ a ++ b ++ w ++ z ++ 1#6)
  | .aor d a b w z => some (0x20#6 ++ d ++ a ++ b ++ w ++ z ++ 2#6)
  | .axor d a b w z => some (0x20#6 ++ d ++ a ++ b ++ w ++ z ++ 3#6)
  | .amin d a b w z => some (0x20#6 ++ d ++ a ++ b ++ w ++ z ++ 4#6)
  | .amax d a b w z => some (0x20#6 ++ d ++ a ++ b ++ w ++ z ++ 5#6)
  | .aminN d a b w z => some (0x20#6 ++ d ++ a ++ b ++ w ++ z ++ 6#6)
  | .amaxN d a b w z => some (0x20#6 ++ d ++ a ++ b ++ w ++ z ++ 7#6)
  | .aswap d a b w z => some (0x20#6 ++ d ++ a ++ b ++ w ++ z ++ 8#6)
  | .acas d a b w z => some (0x20#6 ++ d ++ a ++ b ++ w ++ z ++ 9#6)
  | .anadd a b w z => some (0x21#6 ++ 0#5 ++ a ++ b ++ w ++ z ++ 0#6)
  | .ldt d a w k o => some (0x22#6 ++ d ++ a ++ w ++ k ++ o)
  | .rdmV d a w => some (0x23#6 ++ d ++ a ++ 0#5 ++ w ++ 0#3 ++ 0#6)
  | .rdmScratchpad a b w => some (0x23#6 ++ 0#5 ++ a ++ b ++ w ++ 0#3 ++ 1#6)
  | .rdmM a b w => some (0x23#6 ++ 0#5 ++ a ++ b ++ w ++ 0#3 ++ 2#6)
  | .tkdrop a w => some (0x23#6 ++ 0#5 ++ a ++ 0#5 ++ w ++ 0#3 ++ 3#6)
  | .tkq d a w => some (0x23#6 ++ d ++ a ++ 0#5 ++ w ++ 0#3 ++ 4#6)
  | .fenceTile => some (0x24#6 ++ 0#15 ++ 0#11)
  | .fenceCluster => some (0x24#6 ++ 0#15 ++ 1#11)
  | .fenceDie => some (0x24#6 ++ 0#15 ++ 2#11)
  | .fencePackage => some (0x24#6 ++ 0#15 ++ 3#11)
  | .fenceSystem => some (0x24#6 ++ 0#15 ++ 4#11)
  | .seal a b => some (0x24#6 ++ 0#5 ++ a ++ b ++ 8#11)
  | .unseal a b => some (0x24#6 ++ 0#5 ++ a ++ b ++ 9#11)
  | .pref a b => some (0x24#6 ++ 0#5 ++ a ++ b ++ 16#11)
  | .jrd d a => some (0x25#6 ++ d ++ a ++ 0#5 ++ 0#11)
  | .jdrop a => some (0x25#6 ++ 0#5 ++ a ++ 0#5 ++ 1#11)
  | .chnew h g => some (0x28#6 ++ h ++ g ++ 0#13 ++ 0#5)
  | .chdup h g => some (0x28#6 ++ h ++ g ++ 0#13 ++ 1#5)
  | .hmov h g => some (0x28#6 ++ h ++ g ++ 0#13 ++ 2#5)
  | .hclr h => some (0x28#6 ++ h ++ 0#17 ++ 3#5)
  | .chclose h => some (0x28#6 ++ h ++ 0#17 ++ 4#5)
  | .chq g a => some (0x28#6 ++ 0#4 ++ g ++ a ++ 0#8 ++ 5#5)
  | .chseg h a => some (0x28#6 ++ h ++ 0#4 ++ a ++ 0#8 ++ 6#5)
  | .chbindHandler g o => some (0x29#6 ++ g ++ 0#2 ++ 0#2 ++ o)
  | .chbindInbox g => some (0x29#6 ++ g ++ 1#2 ++ 0#20)
  | .chsend h a n => some (0x2A#6 ++ h ++ 0#4 ++ a ++ 0#5 ++ n ++ 0#5)
  | .chsendLo h a n => some (0x2A#6 ++ h ++ 0#4 ++ a ++ 0#5 ++ n ++ 1#5)
  | .chsendCtl h a n => some (0x2A#6 ++ h ++ 0#4 ++ a ++ 0#5 ++ n ++ 2#5)
  | .chsendh h g a n => some (0x2A#6 ++ h ++ g ++ a ++ 0#5 ++ n ++ 4#5)
  | .chsendhLo h g a n => some (0x2A#6 ++ h ++ g ++ a ++ 0#5 ++ n ++ 5#5)
  | .chsendhCtl h g a n => some (0x2A#6 ++ h ++ g ++ a ++ 0#5 ++ n ++ 6#5)
  | .inboxDq h a n => some (0x2B#6 ++ h ++ 0#4 ++ a ++ 0#5 ++ n ++ 0#5)
  | .inboxTry h a n => some (0x2B#6 ++ h ++ 0#4 ++ a ++ 0#5 ++ n ++ 1#5)
  | .amsg a n => some (0x2B#6 ++ 0#8 ++ a ++ 0#5 ++ n ++ 2#5)
  | .spawn a p o => some (0x2C#6 ++ a ++ p ++ 0#1 ++ o)
  | .rrot => some (0x2D#6 ++ 0#21 ++ 0#5)
  | .mtset a b => some (0x2D#6 ++ 0#8 ++ a ++ b ++ 0#3 ++ 1#5)
  | .mtlist a b => some (0x2D#6 ++ 0#8 ++ a ++ b ++ 0#3 ++ 2#5)
  | .mrel n => some (0x2D#6 ++ 0#18 ++ n ++ 3#5)
  | .vadd d a b m t => some (0x30#6 ++ d ++ a ++ b ++ m ++ t ++ 0#5)
  | .vsub d a b m t => some (0x30#6 ++ d ++ a ++ b ++ m ++ t ++ 1#5)
  | .vmul d a b m t => some (0x30#6 ++ d ++ a ++ b ++ m ++ t ++ 2#5)
  | .vfma d a b m t => some (0x30#6 ++ d ++ a ++ b ++ m ++ t ++ 3#5)
  | .vmax d a b m t => some (0x30#6 ++ d ++ a ++ b ++ m ++ t ++ 4#5)
  | .vmin d a b m t => some (0x30#6 ++ d ++ a ++ b ++ m ++ t ++ 5#5)
  | .vabs d a m t => some (0x30#6 ++ d ++ a ++ 0#5 ++ m ++ t ++ 6#5)
  | .vneg d a m t => some (0x30#6 ++ d ++ a ++ 0#5 ++ m ++ t ++ 7#5)
  | .vexp2 d a m t => some (0x30#6 ++ d ++ a ++ 0#5 ++ m ++ t ++ 8#5)
  | .vrcp d a m t => some (0x30#6 ++ d ++ a ++ 0#5 ++ m ++ t ++ 9#5)
  | .vrsq d a m t => some (0x30#6 ++ d ++ a ++ 0#5 ++ m ++ t ++ 10#5)
  | .vand d a b m t => some (0x30#6 ++ d ++ a ++ b ++ m ++ t ++ 11#5)
  | .vor d a b m t => some (0x30#6 ++ d ++ a ++ b ++ m ++ t ++ 12#5)
  | .vxor d a b m t => some (0x30#6 ++ d ++ a ++ b ++ m ++ t ++ 13#5)
  | .vshl d a b m t => some (0x30#6 ++ d ++ a ++ b ++ m ++ t ++ 14#5)
  | .vshr d a b m t => some (0x30#6 ++ d ++ a ++ b ++ m ++ t ++ 15#5)
  | .vmov d a m t => some (0x30#6 ++ d ++ a ++ 0#5 ++ m ++ t ++ 16#5)
  | .vbcast d a m t => some (0x30#6 ++ d ++ a ++ 0#5 ++ m ++ t ++ 17#5)
  | .vredsum d a m t => some (0x30#6 ++ d ++ a ++ 0#5 ++ m ++ t ++ 18#5)
  | .vredmax d a m t => some (0x30#6 ++ d ++ a ++ 0#5 ++ m ++ t ++ 19#5)
  | .vsel d a b m t => some (0x30#6 ++ d ++ a ++ b ++ m ++ t ++ 20#5)
  | .vperm d a b m t => some (0x30#6 ++ d ++ a ++ b ++ m ++ t ++ 21#5)
  | .vcmpEq d a b m t => some (0x31#6 ++ 0#2 ++ d ++ a ++ b ++ m ++ t ++ 0#5)
  | .vcmpNe d a b m t => some (0x31#6 ++ 0#2 ++ d ++ a ++ b ++ m ++ t ++ 1#5)
  | .vcmpLt d a b m t => some (0x31#6 ++ 0#2 ++ d ++ a ++ b ++ m ++ t ++ 2#5)
  | .vcmpLe d a b m t => some (0x31#6 ++ 0#2 ++ d ++ a ++ b ++ m ++ t ++ 3#5)
  | .vcmpGt d a b m t => some (0x31#6 ++ 0#2 ++ d ++ a ++ b ++ m ++ t ++ 4#5)
  | .vcmpGe d a b m t => some (0x31#6 ++ 0#2 ++ d ++ a ++ b ++ m ++ t ++ 5#5)
  | .vcvt d a s m t => some (0x32#6 ++ d ++ a ++ 0#2 ++ s ++ m ++ t ++ 0#2 ++ 0#1 ++ 0#2)
  | .vquant d a b t f g => some (0x32#6 ++ d ++ a ++ b ++ 0#3 ++ t ++ 0#2 ++ f ++ g)
  | .vdeq d a b t f g => some (0x32#6 ++ d ++ a ++ b ++ 0#3 ++ t ++ 1#2 ++ f ++ g)
  | .baq d a b t f g => some (0x32#6 ++ d ++ a ++ b ++ 0#3 ++ t ++ 2#2 ++ f ++ g)
  | .vmxdot d a b m t f g => some (0x32#6 ++ d ++ a ++ b ++ m ++ t ++ 3#2 ++ f ++ g)
  | .mand d a b => some (0x33#6 ++ 0#2 ++ d ++ 0#2 ++ a ++ 0#2 ++ b ++ 0#6 ++ 0#5)
  | .mor d a b => some (0x33#6 ++ 0#2 ++ d ++ 0#2 ++ a ++ 0#2 ++ b ++ 0#6 ++ 1#5)
  | .mnot d a => some (0x33#6 ++ 0#2 ++ d ++ 0#2 ++ a ++ 0#11 ++ 2#5)
  | .mpop d a => some (0x33#6 ++ d ++ 0#2 ++ a ++ 0#11 ++ 3#5)
  | .mfirst d a => some (0x33#6 ++ d ++ 0#2 ++ a ++ 0#11 ++ 4#5)
  | .vld d a w t o => some (0x34#6 ++ d ++ a ++ w ++ t ++ o)
  | .vst s a w t o => some (0x35#6 ++ s ++ a ++ w ++ t ++ o)
  | .vlds d a b m t w => some (0x36#6 ++ d ++ a ++ b ++ m ++ t ++ w ++ 0#3)
  | .vgath d a b m t w => some (0x36#6 ++ d ++ a ++ b ++ m ++ t ++ w ++ 2#3)
  | .vscat s a b m t w => some (0x36#6 ++ s ++ a ++ b ++ m ++ t ++ w ++ 3#3)
  | .vldRaw d a w o => some (0x37#6 ++ d ++ a ++ w ++ 0#3 ++ o)
  | .vstRaw s a w o => some (0x37#6 ++ s ++ a ++ w ++ 1#3 ++ o)
  | .shp a b s => some (0x38#6 ++ 0#8 ++ a ++ b ++ s ++ 0#3)
  | .mma a b c q => some (0x38#6 ++ 1#8 ++ a ++ b ++ c ++ q)
  | .mmaz a b c q => some (0x38#6 ++ 2#8 ++ a ++ b ++ c ++ q)
  | .mmaw a b c q => some (0x38#6 ++ 3#8 ++ a ++ b ++ c ++ q)
  | .accst a b c q => some (0x38#6 ++ 4#8 ++ a ++ b ++ c ++ q)
  | .accld a b c q => some (0x38#6 ++ 5#8 ++ a ++ b ++ c ++ q)
  | .accz a b c q => some (0x38#6 ++ 6#8 ++ a ++ b ++ c ++ q)
  | .copy a b c q => some (0x38#6 ++ 16#8 ++ a ++ b ++ c ++ q)
  | .copy2 a b c q => some (0x38#6 ++ 17#8 ++ a ++ b ++ c ++ q)
  | .copyf a b c q => some (0x38#6 ++ 18#8 ++ a ++ b ++ c ++ q)
  | .gather a b c q => some (0x38#6 ++ 19#8 ++ a ++ b ++ c ++ q)
  | .mcast a b c q => some (0x38#6 ++ 32#8 ++ a ++ b ++ c ++ q)
  | .reduce a b c q => some (0x38#6 ++ 48#8 ++ a ++ b ++ c ++ q)
  | .rstage a b c q => some (0x38#6 ++ 49#8 ++ a ++ b ++ c ++ q)
  | .xpose a b c q => some (0x38#6 ++ 64#8 ++ a ++ b ++ c ++ q)
  | .fill a b c q => some (0x38#6 ++ 65#8 ++ a ++ b ++ c ++ q)
  | .wait l s c t => some (0x39#6 ++ l ++ s ++ c ++ t ++ 0#6)
  | .csrr d c => some (0x3A#6 ++ d ++ 0#5 ++ 0#4 ++ c)
  | .csrw a c => some (0x3A#6 ++ 0#5 ++ a ++ 1#4 ++ c)
  | .csrs a c => some (0x3A#6 ++ 0#5 ++ a ++ 2#4 ++ c)
  | .csrc a c => some (0x3A#6 ++ 0#5 ++ a ++ 3#4 ++ c)
  | .nop => some (0x3B#6 ++ 0#15 ++ 0#11)
  | .trap n => some (0x3B#6 ++ 0#5 ++ n ++ 0#5 ++ 1#11)
  | .eret => some (0x3B#6 ++ 0#15 ++ 2#11)
  | .ifence => some (0x3B#6 ++ 0#15 ++ 3#11)
  | .cancel a l => some (0x3B#6 ++ 0#5 ++ a ++ l ++ 4#11)
  | .circ a => some (0x3B#6 ++ 0#5 ++ a ++ 0#5 ++ 5#11)
  | .time d => some (0x3B#6 ++ d ++ 0#10 ++ 6#11)
  | .brk => some (0x3B#6 ++ 0#15 ++ 7#11)
  | .haltSlot => some (0x3B#6 ++ 0#15 ++ 8#11)
  | .wfi => some (0x3B#6 ++ 0#15 ++ 9#11)
  | .jalr d a => some (0x3B#6 ++ d ++ a ++ 0#5 ++ 10#11)
  | .exit => some (0x3B#6 ++ 0#15 ++ 11#11)
  | .loop a d => some (0x3C#6 ++ a ++ 0#5 ++ d)
  | .registerParityReplay _ _ _ _ | .deliver _ | .perform _ | .reply _ | .refusal _ | .asyncCauseDelivery _ _
  | .ticketFetch _ | .redemption _ | .redemptionHoldExpiry _ | .ticketDrop _ | .ticketQuery _ | .leaseEnd _
  | .releaseNotice _ | .snapshotReply _ | .scaleReadReply _ | .engineStart _ | .engineAccess _ _
  | .engineComplete _ _ | .parkedCommandRelease _ | .engineMarkerComplete _ | .reductionLine _
  | .completionTaskCreate _ | .silentNotice _ | .channelCreationRequest _ | .channelCreationReply _
  | .instanceAllocation _ | .messageArrival _ | .mismatchedMessageReturn _ | .messageRelease _ _ _
  | .handlerTaskCreate _ _ | .creditReturn _ | .closeNotice _ | .finalNotice _ | .peerClosedNotice _
  | .movingNotice _ | .landingNotice _ | .redirect _ | .stubForward _ _ _ | .fenceMarker _ | .handoverMarker _
  | .stubRetirement _ | .step _ _ | .slotFill _ | .draw _ | .drawReply _ | .steal _ | .runQueueAgeing _
  | .loadSummary | .workDonation _ _ | .start _ | .arm _ | .task _ | .cancelRequest _ | .removalNotice _
  | .cancelDeadline _ | .countChange _ | .hCompletion | .taskMigration _ _ | .migrationArrival _ _
  | .watchdogExpiry _ _ | .wfiTimeout _ _ | .evaluation _ | .migrationSwitch _ | .dropMarker _ | .drainMarker _
  | .sealCompletion | .unsealCompletion | .pageWalk _ _ _ | .tlbShootdown _ _ _ | .create _ _ _ | .teardown _
  | .switch _ _ _ | .stopTimeLate _ | .switchOut | .switchOutDone | .resume | .invalidate _ _ _
  | .attestation _ _ | .clearDisableList _ | .raiseFirmwareMinimum | .qtailWrite _ _ _ | .queueEntrySubmit _ _
  | .evheadWrite _ _ | .releaseRetry _ _ _ | .releaseResume _ _ _ | .releaseKill _ _ _ | .rqheadWrite _
  | .fqheadWrite _ | .rqbaseWrite _ | .fqbaseWrite _ | .mccountWrite _ | .hostRegisterWrite _ _ _ _
  | .faultRecord _ | .circRequest | .holdNotice _ | .holdAck | .planLit | .circTimeout | .flit _ _ _ _
  | .replayRequest _ _ | .gapTimer _ | .endToEndAcknowledgement _ _ _ | .endToEndRetransmission _ _
  | .lossOfLight _ _ | .liveMask _ _ | .keyReplacement _ | .gatewayBlock _ | .linkChange _ _ | .timeMessage _
  | .errorDetected _ _ _ _ | .windowRestart _ _ | .powerOn _ _ _ | .powerEvaluation _ _ | .thermalTrip _
  | .railRemoval | .undefinedInstruction _ | .peerLayoutEntry _ _ | .trainLink _ _ | .switchRefusedPlan
  | .moduleReset => none

/-- The instruction of a table row's bits: one 32-bit word, bit 0 the least significant (R5, R97). -/
def decodeTableWord (nbits w : Nat) : Option Instr :=
  if nbits = 32 then
    match decode (BitVec.ofNat 32 w) with
    | .ok i => some i
    | _ => none
  else none

end Sys2Proof
end

