-- ==== Sys2Proof/Config.lean ====
section
/-! DEFINITION. What an implementation fixes and the free values: the choices the manual leaves open (R42, R97, R263) and
the values of secrets and of functions it names without giving them (R360, R387). None has a body, so no proof can
use a value of one. -/

namespace Sys2Proof

/-- The free choice number `n`: which enabled step comes next, which of two allowed words a fetch returns (R42, R97). -/
opaque Config.choice : Nat → Nat

/-- Turn number `n` of a schedule that is left open: the delivered cycles that pass, then the step taken, or, where there is
none, the core that issues and its slots that latencies hold (R42, R257, R273); with a virtual address, the core prefetches the
word there instead (R244). -/
opaque Config.turn : Nat → Nat × Option Instr × Nat × List Nat × Option Word

/-- Entry `n` of the match table that the job image gives a launch, by job tag, record and number of the start: the manual does not
say where the device finds it (R39, R94, R262; log 29). -/
opaque Config.matchEntry : BitVec 16 → Nat → Nat → Nat → BitVec 128

/-- The code offset of the handler that a block for the gateway set of a link runs, by job tag and link: the manual does not say
where it stands (R370, log 51). -/
opaque Config.blockHandler : BitVec 16 → Nat → Nat

/-- The set of a compute core's L2 slice in which a page's translations lie, taken modulo 8 (R352). -/
opaque Config.l2Set : Nat → Nat

/-- What the fused secret gives for the private identity key, and what the module picks for its signature number `n`: each stands for
a number from 1 to the order of the curve less 1 (R387). -/
opaque Config.identitySecret : Nat
opaque Config.signPick : Nat → Nat

/-- The key of a link for a direction, sent or received, with its number: agreed at bring-up or at a replacement (R369). -/
opaque Config.linkKey : Nat → Bool → Nat → BitVec 128

/-- The SECDED check bits over a route header's bits 63:18 and bit 10 (R360); the manual does not give the code. -/
opaque Config.hecc : Word → BitVec 7

/-- The opcode word and payload words of a message that is neither a tile command nor a channel message nor a launch-port write, as
they travel (R361): the manual gives their sizes and not their layout (log 124). -/
opaque Config.messageBits : PairKey → Packet → BitVec 448

/-- The end tag of a receive end (R173, R180): the manual does not say how it is formed. -/
opaque Config.endTag : Word → BitVec 16 → BitVec 32

/-- The choice of a frame that a module's Armature makes for a page of another module (R284). -/
opaque Config.pickFrame : Nat → Nat

/-- In a cycle, a leaf of another module of the partition maps a frame of this one (R282): trees of other modules lie in their own
memory. -/
opaque Config.peerMaps : Nat → Nat → Bool

/-- The live mask that the far end of a fibre or port reports at a training, by free choice (R364). -/
opaque Config.farLight : Nat → BitVec 16

/-- The dark wavelengths of a fibre whose light has returned by a plan change, by free choice (R366). -/
opaque Config.lightBack : Nat → BitVec 16

/-- The module at the far end of an electrical port, by module and port: the switching layer's wiring (R357, R364). -/
opaque Config.portPeer : Peer → Nat → Peer

/-- Two modules lie in one panel of 64 (R357, R367): the manual does not say which peer numbers a panel has. -/
opaque Config.samePanel : Peer → Peer → Bool

/-- A byte of a context area, by free choice and address, where the manual gives a region's size and no layout (R342, R343;
log 13). -/
opaque Config.contextByte : Nat → Nat → Byte

/-- The 128 bits of a handle, whose layout the manual keeps to the device (R15). -/
opaque Config.handleBits : Handle → BitVec 128

end Sys2Proof
end

