-- ==== Sys2Proof/Machine/State.lean ====
section
/-! DEFINITION. The state of one Sarash TS-880 module, as plain data: every piece of state that chapters 02, 03, 13 to 15
and 21 to 27 give it. What a gang switch saves and restores (R40, R41, R339, R343) is one record, `Mach`; everything else
belongs to the module. A unit that no entry of a map names is in the state that job creation or reset gives it. -/

namespace Sys2Proof.Machine

open Sys2Proof

/-- Memory cells, addresses strictly rising, no cell listed that holds zero (log 4). -/
abbrev Memory := List Host.Cell

/-- A posted-store journal entry (R25, Table 08-10). -/
structure JEntry where
  slot : Nat
  gen : BitVec 16
  home : Nat
  peer : Peer
  /-- 1 C, 2 P, 3 X -/
  cls : Nat
  pa : Nat
  len : Nat
  data : VWord
  kind : WKind
  refused : Bool
  reason : Nat
  undelivered : Bool
  deriving DecidableEq, Repr

/-- A run-queue entry (R31, R254, R266). -/
structure RunEntry where
  kind : TaskKind
  cls : Nat
  level : Nat
  launchid : Word
  gridpt : Word
  griddim : Word
  fseed : Word
  tvec : Word
  pc : Word
  xferid : BitVec 16
  segleft : Word
  regs : List (Reg × Word)
  poisoned : List (Reg × BitVec 2)
  h0 : Handle
  hadEnd : Bool
  /-- match task: tile and the two leased slots (0 A, 1 B, 2 trailing B) -/
  leases : List (Nat × Nat)
  /-- job clock at which it entered its present class, and at which the task was created -/
  since : Nat
  wdStart : Nat
  /-- `TGENX` of a donated entry (R266); any other takes `TGEN` as its task starts (R18) -/
  tgenx : Option (BitVec 16)
  deriving DecidableEq, Repr

/-- A TLB entry for one 64 KiB page, tagged with the job (R352). -/
structure TlbE where
  job : BitVec 16
  page : Nat
  frame : Nat
  r : Bool
  w : Bool
  x : Bool
  sealed : Bool
  move : Bool
  fmt : BitVec 8
  scale : Nat
  peer : Peer
  /-- the leaf's first virtual byte, its length (R72, R220) -/
  leafVa : Nat
  leafLen : Nat
  /-- first virtual byte of the entry's span, from which elements are counted (R72, R348) -/
  spanVa : Nat
  deriving DecidableEq, Repr

/-- A receive end that a core holds (R180, R182): the binding, the level of the binding task, the final notice and the
close markers reached (R186). -/
structure RecvEnd where
  ident : Word
  gen : BitVec 16
  /-- none: never bound here (as the inbox); some none: inbox; some (some off): handler -/
  bind : Option (Option Nat)
  level : Nat
  final : Option Nat
  closes : Nat
  eventSent : Bool
  home : Peer
  /-- how many instances existed before it landed here, once the stub has said so (R295; log 24) -/
  before : Option Nat
  deriving DecidableEq, Repr

/-- The reorder area of one instance (R180, R295): the sequence to release next, the messages held, the segment count,
whether a released message is still to be taken, whether its close marker has been reached, and whether releasing waits for
a handover. -/
structure Area where
  ident : Word
  inst : Nat
  next : Nat
  held : List Msg
  seg : Nat
  busy : Bool
  closed : Bool
  waiting : Bool
  deriving DecidableEq, Repr

/-- How an end was bound at a core that it has left, for what was released there before (R198, R291): the handler's offset, if it was
bound to one, and the level. -/
structure OldBinding where
  ident : Word
  gen : BitVec 16
  off : Option Nat
  level : Nat
  deriving DecidableEq, Repr

/-- A forwarder stub (R291 to R295). -/
structure Stub where
  ident : Word
  gen : BitVec 16
  /-- new holder and generation once told -/
  dest : Option (Nat × BitVec 16)
  msgs : List Msg
  /-- instances that the home has redirected, and whether it will name more -/
  named : List Nat
  allNamed : Bool
  fences : List (Nat × Int)
  handed : List Nat
  areas : List Area
  closes : Nat
  final : Option Nat
  home : Peer
  /-- sequences forwarded or held, by instance (R294) -/
  seen : List (Nat × Nat)
  /-- as `RecvEnd.before`, for the holder that it stands for -/
  before : Option Nat
  deriving DecidableEq, Repr

/-- A message in a class queue of the inbox: a channel message with its marks (SEGIN, SEGEND and the count after it); a
message that names its handler itself, from `rdm.m` or a task write; a gateway block of a link (R370); or a completion of class
1. -/
inductive InItem where
  | chan (m : Msg) (segin segend : Bool) (segleft : Nat)
  | direct (word : Word) (payload : Vector Word 6) (poison : Option (BitVec 2)) (level : Nat) (carried : Option Handle)
  | block (link : Nat) (word : Word) (payload : Vector Word 6)
  | pkt (p : Packet)
  deriving DecidableEq, Repr

/-- A message held in a reorder area that came in its sender's own pair queue: what must be released before a later one of
the same source and class (R55). -/
structure Arrived where
  src : Place
  cls : Nat
  ident : Word
  inst : Nat
  seq : Nat
  deriving DecidableEq, Repr

/-- A `chnew` or `chdup` that waits for its channel home (R173, R174). -/
structure ChanReq where
  slot : Nat
  gen : BitVec 16
  hd : HReg
  ha : HReg
  ident : Word
  tries : Nat
  dup : Bool
  deriving DecidableEq, Repr

/-- What remains of an exited task (R27, R62): its level is lowered when its journal entries and commands are done. -/
structure Exited where
  slot : Nat
  gen : BitVec 16
  level : Nat
  unit : Bool
  cmds : Nat
  deriving DecidableEq, Repr

/-- One register write kept in the operand log (R333). -/
structure LogE where
  slot : Nat
  reg : Nat
  val : VWord
  deriving DecidableEq, Repr

/-- A core (Table 02-1, R10). -/
structure Core where
  /-- class queues 0 to 3 and the overflow area in arrival order (R30) -/
  inq : AMap (List InItem)
  spill : List (Nat × InItem)
  runq : List RunEntry
  journal : AMap JEntry
  shapes : AMap (BitVec 128)
  tkLive : List Nat
  tkLast : Nat
  tkGen : AMap (BitVec 6)
  chans : Nat
  ends : List RecvEnd
  areas : List Area
  stubs : List Stub
  oldBinds : List OldBinding
  reqs : List ChanReq
  itlb : List TlbE
  dtlb : List TlbE
  /-- instruction words held in the instruction cache or in prefetch, by `wordKey` (R97, R244) -/
  words : AMap IWord
  /-- words asked of a home on another module and not yet answered, each with the number of its request -/
  asked : AMap Nat
  askNext : Nat
  /-- the slot that issued last, and the cycle in which it did (R257) -/
  last : Nat
  issuedAt : Option Nat
  drawing : Option Nat
  /-- level starts of the job when the outstanding draw was sent (R265) -/
  drawnAt : Nat
  /-- a draw found nothing: the core draws again when a launch starts (R265) -/
  idle : Bool
  hold : Bool
  oplog : List LogE
  exited : List Exited
  /-- delivered channel messages not yet checked (R180) -/
  arrivals : List Msg
  /-- messages not yet released, in order of arrival (R55) -/
  fifo : List Arrived
  /-- next number for a redemption that waits for scales -/
  rdmNext : Nat
  /-- next follow-on group number -/
  followNext : Nat
  /-- the tile commands of the core that have not ended, and the number of the next (R355) -/
  cmds : List Cmd
  cmdNext : Nat
  /-- the cycle of the last withdrawal by a stub of the core (R306) -/
  withdrewAt : Option Nat
  /-- stale replies discarded, 32 bits (R280) -/
  stale : Nat
  deriving DecidableEq, Repr

/-- A read lease on a Frieze slot of a tile (R193, R236): the slot (0 A, 1 B, 2 trailing B) and its holder: a task
(core, slot, generation), a task still on a run queue (none), or an engine's command. -/
structure Lease where
  which : Nat
  core : Nat
  slot : Nat
  gen : BitVec 16
  engine : Bool
  deriving DecidableEq, Repr

/-- A re-armed encounter that travels with an A slot (R304): the slot that it met, its tags, the step at which it fires. -/
structure Rearmed where
  which : Nat
  tagA : BitVec 16
  tagB : BitVec 16
  due : Nat
  deriving DecidableEq, Repr

/-- A miss-list entry (Table 09-4). -/
structure Miss where
  valid : Bool
  step : BitVec 8
  tagB : BitVec 16
  tagA : BitVec 16
  deriving DecidableEq, Repr

/-- A hardware ring queue (R36): its entries, oldest first; the cycle and core of its last `qpop` and of its last `qpush`, and
the cycle in which a `qpush` last found it full, which keep the order of one cycle. -/
structure Ring where
  q : List Word
  popAt : Option (Nat × Nat)
  pushAt : Option (Nat × Nat)
  fullAt : Option Nat
  deriving DecidableEq, Repr

/-- A tile's own state (Table 02-1), but for its slice, its home port and its engines. -/
structure Tile where
  rings : AMap Ring
  mtable : AMap (BitVec 128)
  misses : List Miss
  missCount : Nat
  rearmed : List Rearmed
  leases : List Lease
  contributions : Nat
  /-- slots blocked in `rrot`, one for each contribution that they made, with their generation (R192) -/
  waiting : List (Nat × Nat × BitVec 16)
  tkorph : Nat
  deriving DecidableEq, Repr

/-- A ticket entry of a home (R156). -/
structure Ticket where
  /-- issuing core and its module (R154) -/
  peer : Peer
  core : Nat
  num : Nat
  gen : BitVec 6
  job : BitVec 16
  data : List Byte
  poison : List (Option (BitVec 2))
  fmt : BitVec 8
  scale : Nat
  elt : Nat
  /-- first pool block and blocks used at a tile home port (R157) -/
  block : Nat
  blocks : Nat
  at_ : Nat
  deriving DecidableEq, Repr

/-- A record of the lost or expired list (R156). -/
structure TkRec where
  core : Nat
  num : Nat
  gen : BitVec 6
  job : BitVec 16
  deriving DecidableEq, Repr

/-- States of the receive end at its channel home (Table 15-1). -/
inductive EndState where
  | settled | carried | redirecting | closed
  deriving DecidableEq, Repr

/-- One instance as its channel home knows it: number, holding core (none: in flight), whether closed, and whether its
creation is recorded (a close notice may come first, R186). -/
structure Inst where
  num : Nat
  holder : Option Nat
  closed : Bool
  /-- redirects that wait for its landing, oldest first: new holder and generation (R296) -/
  owes : List (Nat × BitVec 16)
  /-- credits and a peer-closed notice that wait for its landing (R187, R296) -/
  credits : Nat
  dead : Bool
  /-- the last move whose moving notice, and the last whose landing notice, has been performed (log 93) -/
  moved : Nat
  landed : Nat
  deriving DecidableEq, Repr

/-- A channel-home entry (R173, R289). -/
structure Chan where
  ident : Word
  state : EndState
  holder : Nat
  gen : BitVec 16
  insts : List Inst
  made : Nat
  finalSent : Bool
  /-- redirect rounds open: the old holder and the stub's generation -/
  rounds : List (Nat × BitVec 16)
  /-- by generation, how many instances had been made at its landing: those need a handover (R295; log 24) -/
  made_ : AMap Nat
  /-- landing notices that have come before the landing ahead of them: holder and generation (log 93) -/
  early : List (Nat × Nat)
  deriving DecidableEq, Repr

/-- A source whose direct traffic to the frame `new` a new home holds, until the drain marker of `core` for the frame `old` has
come through the home `via`, named with its module (R58, R355). -/
structure Drain where
  src : Place
  core : Nat
  old : Nat
  new : Nat
  via : Nat
  deriving DecidableEq, Repr

/-- The sources of another module whose direct traffic a new home holds: all of them but those whose drain markers have come
(R58; log 96). -/
structure FarDrain where
  peer : Peer
  old : Nat
  new : Nat
  via : Nat
  done : List Place
  deriving DecidableEq, Repr

/-- A home: perform queue, waiting loads, held redemptions with the clock at which they expire, ticket entries and lists,
channel entries (R43, R52, R156, R173). -/
structure Home where
  q : List Packet
  waiting : List Packet
  heldRdm : List (Packet × Nat)
  tickets : List Ticket
  lost : List TkRec
  expired : List TkRec
  /-- clock of the last fetch performed, by core * 256 + number (R156) -/
  fetched : AMap Nat
  /-- tickets whose fetch has been forwarded to a migrated page's new home and has not come back, and what has arrived for them
  (R58, R281) -/
  away : List Word
  awaiting : List Packet
  orphans : Nat
  chans : List Chan
  /-- sources whose direct traffic is held during a drain, and what is held, with the source it came from (R58) -/
  draining : List Drain
  far : List FarDrain
  heldDirect : List (Place × Packet)
  deriving DecidableEq, Repr

/-- A read an engine is to make: bytes at a physical address of a module, and the reads whose replies it waits for (R74). -/
structure EAcc where
  pa : Nat
  len : Nat
  peer : Peer
  needs : List Nat
  deriving DecidableEq, Repr

/-- A write an engine is to make: the reads whose bytes it writes one after the other, or with none the bytes themselves;
whether it counts in PROG (R234), whether it leaves the full bit empty (R227), and for a command of a reduction stage the
line it contributes (R231). -/
structure EWrite where
  pa : Nat
  len : Nat
  peer : Peer
  src : List Nat
  bytes : List Byte
  counts : Bool
  clears : Bool
  line : Option Nat
  deriving DecidableEq, Repr

/-- A command that an engine runs (R53): its reads and writes in order, how many of each it has issued and how many have been
answered, whether more of them follow once its reads have returned, and how it ends. -/
structure Run where
  id : Nat
  cmd : Cmd
  reads : List EAcc
  issued : Nat
  back : Nat
  got : AMap (List Byte)
  writes : List EWrite
  sent : Nat
  acked : Nat
  more : Bool
  /-- the status to end with when nothing is left to do (R228) -/
  last : Nat
  status : Nat
  reason : Nat
  prog : Nat
  deriving DecidableEq, Repr

/-- An engine: its queue (a marker of R189 has `Cmd.marker` set), its hold, the commands it runs in order of starting, and the
commands parked at an inbound streamer. -/
structure Engine where
  queue : List Cmd
  hold : List Cmd
  runs : List Run
  next : Nat
  parked : List Cmd
  /-- follow-on members not yet complete, by core, slot, generation and group, and groups that failed (R229) -/
  open_ : List (Nat × Nat × Nat × Nat)
  failed : List (Nat × Nat × Nat × Nat)
  /-- it has received a hold notice (R61) -/
  holding : Bool
  deriving DecidableEq, Repr

/-- A contributed line that waits at a reduction stage: the engine, its run, the length of its contribution, the data. -/
structure Contrib where
  eng : Nat
  run : Nat
  len : Nat
  data : VWord
  deriving DecidableEq, Repr

/-- A loaded reduction stage (R231): its descriptor, the length of the round in progress (0 none), its lines already written,
those combined whose write has not been answered, with their contributors, what waits for each line in arrival order, and the
contributions accepted whose last line has not arrived. -/
structure Stage where
  desc : Word
  len : Nat
  written : List Nat
  writing : AMap (List Contrib)
  lines : AMap (List Contrib)
  accepted : List (Nat × Nat)
  deriving DecidableEq, Repr

/-- A cluster (R40, R196, R231, R266, R302, R352). -/
structure Cluster where
  /-- sub-ring length 4, 8 or 16 while a launch holds the ring; 0 none -/
  ring : Nat
  /-- the ring launch, at which match tasks are counted; 0 the job, once it has completed (R312) -/
  launch : Nat
  sweep : Bool
  expected : Nat
  resolved : Nat
  fired : Nat
  missed : Nat
  handler : Nat
  owner : Option (Nat × Nat × Nat)
  /-- the cycle of the last `mtset`, and the ring position of its core (R196) -/
  setAt : Option (Nat × Nat)
  /-- steps taken by each sub-ring since the `mtset`, and ever -/
  steps : AMap Nat
  total : AMap Nat
  stages : AMap Stage
  inbox : List Packet
  l2 : List TlbE
  load : Nat
  mayDonate : Bool
  deriving DecidableEq, Repr

/-- A level's record (Table 21-3), with what its home holds beside it. -/
structure Level where
  level : Nat
  state : Nat
  cp : Bool
  cores : Bool
  cdl : Nat
  late : Nat
  count : Nat
  parent : Nat
  start : Nat
  tkind : Nat
  tpeer : Peer
  tcore : Nat
  tidx : Nat
  entry : Nat
  stack : Nat
  ring : Nat
  rclus : Nat
  grid : Word
  seed : Word
  stackb : Nat
  dlen : Nat
  dbase : Nat
  undrawn : Nat
  killed : Nat
  /-- job clock of the cancel request's perform step (R269) -/
  cpAt : Option Nat
  /-- order of starting (R264) -/
  order : Nat
  refused : Bool
  /-- refused raises whose lowerings are still to come, and change nothing (R258) -/
  owed : Nat
  /-- how many uses of the record are complete, which its name holds (log 109) -/
  inc : Nat
  /-- other modules at which tasks of it are, and those told that its deadline has passed (R268, R269) -/
  away : List Peer
  told : List Peer
  /-- a level of another module: its deadline has passed there (R269) -/
  dead : Bool
  deriving DecidableEq, Repr

/-- A draw-counter unit's range of one launch (R263). -/
structure Range where
  lrec : Nat
  order : Nat
  next : Nat
  stop : Nat
  deriving DecidableEq, Repr

/-- The draw-counter unit of a die: its ranges, requests in arrival order, and removal notices (R264, R265, R268). -/
structure DrawUnit where
  ranges : List Range
  q : List Packet
  deriving DecidableEq, Repr

/-- A compute slot that Armature keeps for a task of another module, with the task once its context has come (R270). -/
structure Transit where
  core : Nat
  sl : Nat
  slot : Option Slot
  deriving DecidableEq, Repr

/-- A slot that Armature has asked of another module's for a task of this one: the task's core, slot and generation, the module
and an address of the page, and the answer (R270). -/
structure Ask where
  core : Nat
  sl : Nat
  gen : BitVec 16
  peer : Peer
  pa : Nat
  answer : Option (Option (Nat × Nat))
  deriving DecidableEq, Repr

/-- A seal or unseal that Armature is serving (R163), with the status that it will complete with, the other modules that
have not answered, and whether an unseal has had the replicas invalidated and now ends the seal. -/
structure SealReq where
  on : Bool
  status : Nat
  base : Word
  len : Word
  treply : Word
  core : Nat
  level : Nat
  far : List Peer
  ending : Bool
  deriving DecidableEq, Repr

/-- Everything that a gang switch saves and restores with the job (R41, R339, Table 22-6): slots, cores, tiles, clusters,
homes, engines, levels, draw units, what is in transit, the slices with their full/empty bits and poison, accumulators, and
the clock of delivered cycles in which the job has run. -/
structure Mach where
  slots : AMap Slot
  cores : AMap Core
  tiles : AMap Tile
  clusters : AMap Cluster
  homes : AMap Home
  engines : AMap Engine
  levels : AMap Level
  draws : AMap DrawUnit
  net : List (PairKey × List Packet)
  sram : Memory
  /-- granules (physical address / 16) that are full -/
  full : List Nat
  /-- poisoned granules with their kind (R159) -/
  poison : AMap (BitVec 2)
  acc : AMap (BitVec 32)
  clock : Nat
  starts : Nat
  /-- co-resident launches that started in this cycle and wait for its end, since slots that become Free in it count (R267) -/
  coStarts : List Nat
  /-- the clock of the last load summary (R266) -/
  summaryAt : Nat
  transits : List Transit
  asks : List Ask
  /-- seals and unseals that Armature is serving (R163) -/
  seals : List SealReq
  /-- ranges whose unseal another module serves, from the invalidation of the replicas to the end of the seal (R57) -/
  unsealing : List (Peer × Word × Word)
  /-- sealed ranges to which stores of another module, translated before the seal, may not have been performed yet; and those for
  which this module owes the others word of its own (R57; log 103) -/
  unquiet : List (Peer × Word × Word)
  owesQuiet : List (Word × Word)
  /-- blocks that wait to be assigned to a flit, by link (R370) -/
  blocks : AMap (List Packet)
  /-- Equinox's side of channel H (R322): its instance and its completions that wait for credits -/
  hRecv : Bool
  hSend : Handle
  hQueue : List (Nat × Word)
  /-- replayable records of parked slots that were held when the job was switched out (R341) -/
  heldRecs : List FaultRec
  deriving DecidableEq, Repr

/-- A circ request at Equinox (R246), with the module and core of its slot. -/
structure CircReq where
  plan : Nat
  treply : Word
  peer : Peer
  core : Nat
  level : Nat
  deriving DecidableEq, Repr

/-- A circuit change in progress (R61, R246, R368): the request; the module whose Equinox serves it (log 99); the agents of
this module and the other modules whose acknowledgements are still to come; whether a module has refused its plan; when the
switch was asked, or the answer given to the module that serves; whether the new circuits are lit; whether the module that serves has raised its `TGEN`, and waits for the others to; whether every
module has accepted its lit plan, and the groups, by first fibre, size and peer, that were lit before it. -/
structure CircRun where
  req : CircReq
  server : Peer
  waiting : List Agent
  far : List Peer
  refused : Bool
  lightAt : Option Word
  lit : Bool
  raised : Bool
  asked : Bool
  before : List (Nat × Nat × Peer)
  deriving DecidableEq, Repr

/-- A submission queue (Table 21-5). -/
structure HostQ where
  base : Word
  logn : Nat
  tail : Nat
  prog : Nat
  /-- an entry read and not yet performed -/
  busy : Bool
  off : Bool
  deriving DecidableEq, Repr

/-- A host write kept for a job that is switched out (R325). -/
inductive LogW where
  | tail (q : Nat) (v : Word)
  | evhead (v : Word)
  | port (k : Nat) (size : Nat) (data : VWord)
  | release (v : Word)
  deriving DecidableEq, Repr

/-- A job (Table 21-2 and what Equinox keeps of it). -/
structure Job where
  tag : BitVec 16
  debug : Bool
  lease : Nat
  sramBase : Word
  ptroot : Nat
  tvec : Word
  code : Word
  hcount : Nat
  hbase : Nat
  nhand : Nat
  handb : Nat
  nplan : Nat
  planb : Nat
  ctxSize : Nat
  ctxb : Nat
  msix : Nat
  nev : Nat
  evb : Nat
  dropped : Nat
  badwr : Nat
  tgen : BitVec 16
  handlers : List (Nat × Nat)
  evTail : Nat
  evHead : Nat
  evHeld : List (Word × Word × Word)
  queues : AMap HostQ
  circs : List CircReq
  circ : Option CircRun
  plan : Option Nat
  tearing : Bool
  recAddr : Nat
  /-- the context header (Table 22-7) -/
  switches : Nat
  tstop : Word
  tresume : Word
  ctxState : Nat
  hostLog : List LogW
  deriving DecidableEq, Repr

/-- A gang switch in progress (R338 to R340): which jobs, the stop time, how far it is, the module that coordinates it, and at that
module those that have not reported the job saved, and whether one has answered that a time came too late. -/
structure Switch where
  out : Option Nat
  into : Option Nat
  t : Word
  /-- 0 stop time agreed; 1 stopped and draining; 2 saved; 3 resume time agreed; 4 stop time withdrawn, another still to be picked -/
  stage : Nat
  resumeAt : Word
  server : Peer
  left : List Peer
  late : Bool
  deriving DecidableEq, Repr

/-- Placement facts of the page in frame number `page` (R283 to R285): counts per die, tagged peer counts, when it last
moved, replicas. -/
structure PageRec where
  page : Nat
  dies : List Nat
  peers : List (Peer × Nat)
  movedAt : Option Nat
  replicas : List (Nat × Nat)
  flags : List Peer
  /-- the index that Armature has given the record, which a leaf's PIDX names (Table 23-4) -/
  idx : Option Nat
  deriving DecidableEq, Repr

/-- Drop markers of another module's cores that have come to an old home, and how many there are once its Armature has said so
(R355; log 96). -/
structure FarMarks where
  peer : Peer
  home : Nat
  got : Nat
  due : Option Nat
  deriving DecidableEq, Repr

/-- A page in migration (R58, R355): its old and new frame numbers, the module of the new one, whether the new leaf is
written, and the sources whose drop markers have not yet reached the old homes, with the home: cores of this module, and
for each other module of the partition its Armature, with what has come from its cores. -/
structure Migration where
  old : Nat
  new : Nat
  peer : Peer
  switched : Bool
  undrained : List (Place × Nat)
  far : List FarMarks
  deriving DecidableEq, Repr

/-- A page of another module that is coming to a frame of this one: granted, its bytes arrived or still to come (R284, R287). -/
structure Incoming where
  peer : Peer
  old : Nat
  new : Nat
  here : Bool
  deriving DecidableEq, Repr

/-- Why a range of virtual pages is shot down (R353, R355, R163): a command of this module's host, a migration, a seal, or a
command or a seal that another module serves. -/
inductive ShootWhy where
  | invalidate (jslot : Nat) | migration (peer : Peer) (old : Nat) | seal | remote (peer : Peer) | sealFor (peer : Peer)
  deriving DecidableEq, Repr

/-- A shootdown (R353): the range, why, the cores and clusters whose TLBs have not dropped it, the other modules that have not
completed it, and how many cores it was for. -/
structure Shoot where
  base : Word
  len : Word
  why : ShootWhy
  left : List Agent
  far : List Peer
  cores : Nat
  deriving DecidableEq, Repr

/-- A unit's error state (R375, R376, Table 26-3). -/
structure Unit where
  ukind : Nat
  unit : Nat
  window : Nat
  errors : Nat
  replays : Nat
  declared : Bool
  windowAt : Nat
  c2 : Nat
  c3 : Nat
  c4 : Nat
  c5 : Nat
  thr : Nat
  lthr : Nat
  deriving DecidableEq, Repr

/-- A disable-list entry (Table 26-2). -/
structure DEntry where
  ukind : Nat
  unit : Nat
  applied : Bool
  /-- cleared by command, to leave at the next boot (R386) -/
  cleared : Bool
  deriving DecidableEq, Repr

/-- One direction pair of a link (R362 to R366, R369). -/
structure Link where
  up : Bool
  peer : Peer
  liveRx : BitVec 16
  liveTx : BitVec 16
  intmask : BitVec 6
  intNow : BitVec 6
  replays : Nat
  drops : Nat
  e2eDup : Nat
  linkDup : Nat
  /-- wavelengths whose light has gone and that no training has found lit again, and the cycle of the last loss (R366, R372) -/
  dark : BitVec 16
  lossAt : Option Nat
  /-- sender: next LSEQ, flits not acknowledged, credits used per VC, the number after the wavelength used last -/
  lseq : Nat
  unacked : List Flit
  used : AMap Nat
  wave : Nat
  /-- receiver: last LSEQ in order, flits held out of order with the cycles in which they came, when a gap opened -/
  lack : Nat
  held : List (Flit × Nat)
  gapAt : Option Nat
  /-- TYPE 1 to 3 flits sent, oldest first, with what they carry: VC * 64 + credits, LACK, the live mask or the key number -/
  control : List (Nat × Nat)
  /-- key numbers of the sent and the received direction, flits sent since bring-up, and how many at the last key (R369) -/
  key : Nat
  keyRx : Nat
  flits : Nat
  keyAt : Nat
  /-- fibres of the group whose first fibre this is; 0 for an electrical port and inside a group (R357) -/
  group : Nat
  /-- credits to be returned, by VC, and whether something received has not been acknowledged yet (R362) -/
  owed : AMap Nat
  ackOwed : Bool
  deriving DecidableEq, Repr

/-- A flit that has left: the link, the wavelength that carried it (none: electrical), the flit (R365). -/
structure Sent where
  link : Nat
  wave : Option Nat
  flit : Flit
  deriving DecidableEq, Repr

/-- An end-to-end stream to or from a (module, VC) (R363): next number, copies kept with the clock of sending, the next to
deliver, and what waits out of order. -/
structure Stream where
  peer : Peer
  vc : Nat
  next : Nat
  copies : List (Flit × Nat)
  deliver : Nat
  early : List Flit
  link : Option Nat
  deriving DecidableEq, Repr

/-- Equinox's registers and queues (Table 22-3, Table 26-2, Table 27-3, R334 to R336). -/
structure Eqx where
  rqbase : Word
  rqhead : Nat
  rqtail : Nat
  fqbase : Word
  fqhead : Nat
  fqtail : Nat
  mccount : Nat
  mcvec : Nat
  relpc : Word
  wdlog : Nat
  lane0 : List FaultRec
  lane1 : List FaultRec
  held : List FaultRec
  reserve : List FaultRec
  overflowAt : Option Nat
  /-- MSI-X vectors raised, oldest first -/
  msix : List Nat
  /-- what the host has written into the mailbox, by byte offset (Table 21-1) -/
  mailbox : Memory
  hostEvents : List (Word × Word × Word)
  tagsUsed : List Nat
  ready : Bool
  fwver : Nat
  bootCode : Nat
  bootRan : Bool
  /-- the rails give power (R388) -/
  rails : Bool
  limit : Nat
  /-- the limit before the first write of a cycle, and that cycle: an evaluation in it uses it (R390) -/
  limitOld : Nat
  limitAt : Option Nat
  trip : Option Word
  power : Nat
  tj : Nat
  deliv : Nat
  evalAt : Word
  thr : Nat
  lthr : Nat
  /-- the thresholds before the last write, which hold to the end of window number `thrAt` (R380) -/
  thrOld : Nat
  lthrOld : Nat
  thrAt : Nat
  decl : Nat
  tsel : Word
  dsel : Nat
  disable : List DEntry
  keyHash : BitVec 256
  minVersion : Nat
  image : List Byte
  signs : Nat
  deriving DecidableEq, Repr

/-- What part this is: live units by fuse and disable list (R7, R21), the peer number, the flat sizes (R276) and the
fences of declared homes (R377). -/
structure Part where
  peer : Peer
  tiles : BitVec 1024
  hbm : BitVec 256
  lp : BitVec 48
  gates : BitVec 128
  fibres : BitVec 64
  waves : BitVec 1024
  lanes : BitVec 192
  flatH : Nat
  flatL : Nat
  withH : Nat
  withL : Nat
  fenced : List Nat
  deriving DecidableEq, Repr

/-- What a turn does: a core issues an instruction (R257), `busy` naming the slots that a latency of Table 13-2 holds in this
cycle; a core takes the instruction word of an address into its prefetch (R97, R244); or one of the steps of Table 03-2 and of
the device is taken. -/
inductive Act where
  | issue (core : Nat) (busy : List Nat)
  | prefetch (core : Nat) (va : Word)
  | event (i : Instr)
  deriving DecidableEq, Repr

/-- A turn: the delivered cycles that pass, then the step (log 2, log 3). -/
structure Turn where
  cycles : Nat
  act : Act
  deriving DecidableEq, Repr

/-- The whole state. -/
structure State where
  /-- the steps that come next, in order; when none is listed the step is a free choice (R42, log 2) -/
  turns : List Turn
  /-- the free choices made so far -/
  free : Nat
  /-- the slot whose instruction is in hand -/
  cur : Nat × Nat
  /-- delivered cycles since reset (R2, R19) -/
  now : Nat
  /-- the global time base and the part of a nanosecond that has passed, in 1/(2 DELIV) (R6, R388) -/
  time : Word
  timeRem : Nat
  mach : Mach
  dram : Memory
  /-- memory of the host that the device reads and writes: rings, buffers, queue entries -/
  host : Memory
  jobs : AMap Job
  /-- jobs that have been torn down while events of theirs still wait for room in the event ring, by job slot (R323, R326) -/
  ended : AMap Job
  running : Option Nat
  saved : AMap Mach
  switch : Option Switch
  pages : List PageRec
  migrations : List Migration
  /-- frames whose pages are to go to another module, which has been asked for a frame; and pages on their way to this one (R284,
  R287) -/
  pageAsks : List (Nat × Peer)
  incoming : List Incoming
  shoots : List Shoot
  /-- the delivered cycle of the last placement evaluation (R283) -/
  placeAt : Nat
  peers : AMap (BitVec 8)
  layouts : AMap PeerLayout
  links : AMap Link
  streams : List Stream
  /-- the flits that have left on the links, oldest first (R365) -/
  sent : List Sent
  units : List Unit
  /-- the part as it is used, and as its unit fuses left it (R378, R383) -/
  part : Part
  fused : Part
  eqx : Eqx
  deriving DecidableEq, Repr

/-- Why the machine stops. -/
inductive Fault where
  /-- Any step after the rails are removed (R388): the module has no power, so nothing more happens. Safe. -/
  | railsRemoved
  deriving DecidableEq, Repr

/-- Why a step is refused. -/
inductive Refusal where
  /-- The arm of an instruction that has no meaning yet. Safe. -/
  | notModelled (mnemonic : String)
  /-- A turn names a step of the ordering machine or of the device that is not enabled in this state, or names a choice that
  the rules do not allow (R42, R44): such a step does not exist, so nothing is lost by refusing it. Safe. -/
  | notEnabled (mnemonic : String)
  deriving DecidableEq, Repr

/-- A task of no kind in particular, for a slot that holds none. -/
def Task.none : Task :=
  { kind := .handler, cls := 0, level := 0, wdStart := 0, dbg := Option.none, pinned := false
    move := Option.none, stay := Option.none, expired := false }

/-- A slot after reset (Table 02-9, Table 02-4; log 5). -/
def Slot.reset : Slot :=
  { phase := .free, gen := 0, pc := 0, x := Vector.replicate 32 0, v := Vector.replicate 32 0, m := Vector.replicate 8 0
    h := Vector.replicate 16 Handle.none, px := Vector.replicate 32 none, pv := Vector.replicate 32 none, nx := 0, nv := 0
    cause := 0, epc := 0, tval := 0, tvec := 0, gridpt := 0, griddim := 0, launchid := 0, jobid := 0, tgenx := 0
    xferid := 0, treply := 0, segleft := 0, cancelled := 0, frm := 0, fseed := 0, cntld := 0, cntst := 0, cntcp := 0
    cnttl := 0, stc := 0, stp := 0, stx := 0, task := Task.none, wake := false, async := [], loads := [], redeems := []
    follow := 0, members := 0, held := none }

/-- A core after reset (log 5: the last ticket number is 255, so that 0 is taken first; the slot that issued last is the
highest). -/
def Core.reset : Core :=
  { inq := [], spill := [], runq := [], journal := [], shapes := [], tkLive := [], tkLast := 255, tkGen := [], chans := 0
    ends := [], areas := [], stubs := [], oldBinds := [], reqs := [], itlb := [], dtlb := [], words := [], asked := [], askNext := 0, last := 3
    issuedAt := none, drawing := none, drawnAt := 0, idle := false, hold := false
    oplog := [], exited := [], arrivals := [], fifo := [], rdmNext := 0, followNext := 1
    cmds := [], cmdNext := 0, withdrewAt := none, stale := 0 }

/-- A tile's own state after job creation (R34, R36, R39, R40). -/
def Tile.reset : Tile :=
  { rings := [], mtable := [], misses := [], missCount := 0, rearmed := [], leases := [], contributions := 0, waiting := []
    tkorph := 0 }

/-- A home with nothing in it. -/
def Home.reset : Home :=
  { q := [], waiting := [], heldRdm := [], tickets := [], lost := [], expired := [], fetched := [], away := [], awaiting := []
    orphans := 0
    chans := [], draining := [], far := [], heldDirect := [] }

/-- An engine with nothing to do. -/
def Engine.reset : Engine :=
  { queue := [], hold := [], runs := [], next := 0, parked := [], open_ := [], failed := [], holding := false }

/-- A cluster with no ring and no stage loaded. -/
def Cluster.reset : Cluster :=
  { ring := 0, launch := 0, sweep := false, expected := 0, resolved := 0, fired := 0, missed := 0, handler := 0
    owner := none, setAt := none, steps := [], total := [], stages := [], inbox := [], l2 := [], load := 0, mayDonate := false }

/-- A free level record. -/
def Level.free : Level :=
  { level := 0, state := 0, cp := false, cores := false, cdl := 0, late := 0, count := 0, parent := 0, start := 0
    tkind := 0, tpeer := 0, tcore := 0, tidx := 0, entry := 0, stack := 0, ring := 0, rclus := 0, grid := 0, seed := 0
    stackb := 0, dlen := 0, dbase := 0, undrawn := 0, killed := 0, cpAt := none, order := 0, refused := false, owed := 0
    inc := 0, away := [], told := [], dead := false }

/-- A draw-counter unit with no range. -/
def DrawUnit.reset : DrawUnit := { ranges := [], q := [] }

/-- The machine state of a job at its creation (R317 step 3): zero slices, empty bits, zero accumulators, empty queues. -/
def Mach.reset : Mach :=
  { slots := [], cores := [], tiles := [], clusters := [], homes := [], engines := [], levels := [], draws := [], net := []
    sram := [], full := [], poison := [], acc := [], clock := 0, starts := 0, coStarts := [], summaryAt := 0
    transits := [], asks := [], seals := [], unsealing := [], unquiet := [], owesQuiet := [], blocks := [], hRecv := false
    hSend := Handle.none, hQueue := [], heldRecs := [] }

/-- A link before it is trained (Table 24-5). -/
def Link.reset : Link :=
  { up := false, peer := 0, liveRx := 0, liveTx := 0, intmask := 0, intNow := 0, replays := 0, drops := 0, e2eDup := 0
    linkDup := 0, dark := 0, lossAt := none, lseq := 0, unacked := [], used := [], wave := 0, lack := 255, held := []
    gapAt := none, control := [], key := 0, keyRx := 0, flits := 0, keyAt := 0, group := 0, owed := []
    ackOwed := false }

/-- A submission queue after reset (Table 21-5). -/
def HostQ.reset : HostQ := { base := 0, logn := 0, tail := 0, prog := 0, busy := false, off := false }

/-- Equinox when power is applied (Tables 22-3, 26-2, 27-3). -/
def Eqx.reset : Eqx :=
  { rqbase := 0, rqhead := 0, rqtail := 0, fqbase := 0, fqhead := 0, fqtail := 0, mccount := 0, mcvec := 0, relpc := 0
    wdlog := 34, lane0 := [], lane1 := [], held := [], reserve := [], overflowAt := none, msix := [], mailbox := []
    hostEvents := [], tagsUsed := [], ready := false, fwver := 0, bootCode := 0
    bootRan := false, rails := true, limit := 3400, limitOld := 3400, limitAt := none, trip := none
    power := 0, tj := 0, deliv := 64, evalAt := 0, thr := 3, lthr := 1024
    thrOld := 3, lthrOld := 1024, thrAt := 0, decl := 0, tsel := 0, dsel := 0
    disable := [], keyHash := 0, minVersion := 0, image := [], signs := 0 }

/-- A full part (Tables 00-1 to 00-4; log 18): every unit live, 764 GiB and 1,535 GiB flat (Table 14-2), peer number 0. -/
def Part.full : Part :=
  { peer := 0, tiles := BitVec.allOnes 1024, hbm := BitVec.allOnes 256, lp := BitVec.allOnes 48
    gates := BitVec.allOnes 128, fibres := BitVec.allOnes 64, waves := BitVec.allOnes 1024, lanes := BitVec.allOnes 192
    flatH := 764 * 2 ^ 30, flatL := 1535 * 2 ^ 30, withH := 0, withL := 256 * 2 ^ 20, fenced := [] }

/-- The module when power is applied (R383): every slot Free, no job, nothing in transit. -/
def State.reset : State :=
  { turns := [], free := 0, cur := (0, 0), now := 0, time := 0, timeRem := 0, mach := Mach.reset, dram := [], host := []
    jobs := [], ended := [], running := none, saved := [], switch := none
    pages := [], migrations := [], pageAsks := [], incoming := [], shoots := [], placeAt := 0, peers := []
    layouts := [], links := [], streams := [], sent := [], units := [], part := Part.full
    fused := Part.full, eqx := Eqx.reset }

end Sys2Proof.Machine
end

