-- ==== Sys2Proof/Machine/Map.lean ====
section
/-! DEFINITION. The sparse maps and memories of the state: look-up, writing and removal, bytes and little-endian words (R5).
Writing the value that an unlisted address reads as removes its cell, so equal memories are equal lists (log 4). -/

namespace Sys2Proof.Machine

open Sys2Proof

/-- What the map holds under a number. -/
def AMap.get {α : Type} : AMap α → Nat → Option α
  | [], _ => none
  | (k, v) :: t, n => if n = k then some v else AMap.get t n

/-- The map with a number set, in rising order of numbers. -/
def AMap.set {α : Type} : AMap α → Nat → α → AMap α
  | [], n, a => [(n, a)]
  | (k, v) :: t, n, a =>
    if n < k then (n, a) :: (k, v) :: t else if n = k then (n, a) :: t else (k, v) :: AMap.set t n a

/-- The map without a number. -/
def AMap.del {α : Type} (m : AMap α) (n : Nat) : AMap α := m.filter (fun e => e.1 ≠ n)

/-- What a byte that nothing has written reads as (log 4). -/
def unwritten : Byte := 0

/-- The canonical form: addresses strictly rising, no cell equal to what an unlisted address reads as. -/
def Memory.wf : Memory → Bool
  | [] => true
  | [c] => c.2 != unwritten
  | c :: d :: t => c.2 != unwritten && decide (c.1 < d.1) && Memory.wf (d :: t)

/-- One byte of memory. -/
def Memory.byte (m : Memory) (a : Nat) : Byte := (AMap.get m a).getD unwritten

/-- Memory after one byte is written. -/
def Memory.put (m : Memory) (a : Nat) (b : Byte) : Memory :=
  if b = unwritten then AMap.del m a else AMap.set m a b

/-- `n` bytes from an address upwards. -/
def Memory.bytes (m : Memory) (a : Nat) : Nat → List Byte
  | 0 => []
  | n + 1 => m.byte a :: Memory.bytes m (a + 1) n

/-- Memory after a run of bytes is written from an address upwards. -/
def Memory.puts (m : Memory) (a : Nat) : List Byte → Memory
  | [] => m
  | b :: t => Memory.puts (m.put a b) (a + 1) t

/-- The number that little-endian bytes stand for (R5). -/
def ofBytes : List Byte → Nat
  | [] => 0
  | b :: t => b.toNat + 256 * ofBytes t

/-- The `n` low bytes of a number, little-endian (R5). -/
def toBytes (v : Nat) : Nat → List Byte
  | 0 => []
  | n + 1 => BitVec.ofNat 8 v :: toBytes (v / 256) n

/-- The cells of `m` in [a, a + n) copied to `b` upwards, what stood there before gone. -/
def Memory.copy (m : Memory) (a b n : Nat) : Memory :=
  let src := m.filter (fun c => decide (a ≤ c.1) && decide (c.1 < a + n))
  let rest := m.filter (fun c => !(decide (b ≤ c.1) && decide (c.1 < b + n)))
  src.foldl (fun acc c => AMap.set acc (c.1 - a + b) c.2) rest

/-- A sorted list of numbers with one put in. -/
def insNat : List Nat → Nat → List Nat
  | [], n => [n]
  | k :: t, n => if n < k then n :: k :: t else if n = k then k :: t else k :: insNat t n

/-- A sorted list of numbers with one taken out. -/
def delNat (l : List Nat) (n : Nat) : List Nat := l.filter (· ≠ n)

/-- The first element that satisfies `p`, and the list without it. -/
def takeFirst {α : Type} (p : α → Bool) : List α → Option (α × List α)
  | [] => none
  | a :: t => if p a then some (a, t) else (takeFirst p t).map (fun (b, r) => (b, a :: r))

/-- A list with `f` applied to the elements that satisfy `p`. -/
def mapWhere {α : Type} (p : α → Bool) (f : α → α) (l : List α) : List α := l.map (fun a => if p a then f a else a)

/-- Saturating count of `n` bits (R364, R381). -/
def satAdd (bits a b : Nat) : Nat := min (a + b) (2 ^ bits - 1)

/-- The number of ones among the low `n` bits. -/
def countOnes {w : Nat} (v : BitVec w) : Nat → Nat
  | 0 => 0
  | n + 1 => (if v.getLsbD n then 1 else 0) + countOnes v n

/-- The live units of a mask: all of them at once, or counted (R21). -/
def liveCount {w : Nat} (v : BitVec w) : Nat := if v = BitVec.allOnes w then w else countOnes v w

/-- The `k`-th live unit of a mask, counted from 0 (R275, R391). -/
def nthLive {w : Nat} (v : BitVec w) (k : Nat) : Nat :=
  if v = BitVec.allOnes w then k else ((List.range w).filter (fun i => v.getLsbD i)).getD k 0

end Sys2Proof.Machine
end

