-- ==== Sys2Proof/Machine/Formats.lean ====
section
/-! DEFINITION. Number formats and exact arithmetic (chapter 04): the value of a code, rounding, conversion, block scales,
requantising, and the order of sums. A value is exact: a rational with the sign of a zero, an infinity or a NaN. -/

namespace Sys2Proof.Machine

open Sys2Proof

/-- An exact value: ± p / q, with a sign on zeros too; infinities; NaNs with the sign they carry (R77). -/
inductive Val where
  | nan (neg : Bool)
  | inf (neg : Bool)
  | num (neg : Bool) (p q : Nat)
  deriving DecidableEq, Repr

/-- A rounding (R75, R76): `sto z` is seeded stochastic with `z[23:0]`. -/
inductive Rnd where
  | rne | rtz | sto (z : Nat)
  deriving DecidableEq, Repr

def Val.isNan : Val → Bool
  | .nan _ => true
  | _ => false

def Val.zero : Val := .num false 0 1

/-- The sign of a value. -/
def Val.sign : Val → Bool
  | .nan n => n
  | .inf n => n
  | .num n _ _ => n

/-- The exact sum, with the zeros of IEEE 754 when rounding to nearest or to zero: -0 only from two zeros -0 (R77, R81). -/
def Val.add : Val → Val → Val
  | .nan _, _ => .nan false
  | _, .nan _ => .nan false
  | .inf a, .inf b => if a = b then .inf a else .nan false
  | .inf a, _ => .inf a
  | _, .inf b => .inf b
  | .num a p q, .num b r t =>
    let x := p * t
    let y := r * q
    if a = b then .num a (x + y) (q * t)
    else if x > y then .num a (x - y) (q * t)
    else if y > x then .num b (y - x) (q * t)
    else .num false 0 1

def Val.neg : Val → Val
  | .nan n => .nan n
  | .inf n => .inf (!n)
  | .num n p q => .num (!n) p q

/-- The exact product (R77, R81). -/
def Val.mul : Val → Val → Val
  | .nan _, _ => .nan false
  | _, .nan _ => .nan false
  | .inf a, .inf b => .inf (a != b)
  | .inf a, .num b p _ => if p = 0 then .nan false else .inf (a != b)
  | .num a p _, .inf b => if p = 0 then .nan false else .inf (a != b)
  | .num a p q, .num b r t => .num (a != b) (p * r) (q * t)

/-- The exact quotient (R77, R127): a finite nonzero value by zero is an infinity, zero by zero is a NaN. -/
def Val.div : Val → Val → Val
  | .nan _, _ => .nan false
  | _, .nan _ => .nan false
  | .inf _, .inf _ => .nan false
  | .inf a, .num b _ _ => .inf (a != b)
  | .num a _ _, .inf b => .num (a != b) 0 1
  | .num a p q, .num b r t =>
    if r = 0 then (if p = 0 then .nan false else .inf (a != b)) else .num (a != b) (p * t) (q * r)

/-- `a < b` as numbers, -0 equal to +0; false with a NaN (R129). -/
def Val.lt : Val → Val → Bool
  | .nan _, _ => false
  | _, .nan _ => false
  | .inf a, .inf b => a && !b
  | .inf a, _ => a
  | _, .inf b => !b
  | .num a p q, .num b r t =>
    let x : Int := if a then -(p * t : Nat) else (p * t : Nat)
    let y : Int := if b then -(r * q : Nat) else (r * q : Nat)
    decide (x < y)

/-- `a = b` as numbers (R129). -/
def Val.eq (a b : Val) : Bool := !a.isNan && !b.isNan && !a.lt b && !b.lt a

/-- A binary format by its mantissa width, bias and greatest finite code (Table 04-2). -/
structure BinFmt where
  e : Nat
  m : Nat
  bias : Nat
  maxCode : Nat
  deriving DecidableEq, Repr

def fmtF32 : BinFmt := ⟨8, 23, 127, 0x7F7FFFFF⟩
def fmtBf16 : BinFmt := ⟨8, 7, 127, 0x7F7F⟩
def fmtE4 : BinFmt := ⟨4, 3, 7, 0x7E⟩
def fmtE5 : BinFmt := ⟨5, 2, 15, 0x7B⟩
def fmtF4 : BinFmt := ⟨2, 1, 1, 7⟩

/-- The magnitude of a finite code, sign taken off: code 0 to the greatest (R65). -/
def BinFmt.mag (f : BinFmt) (c : Nat) : Nat × Nat :=
  let ex := c >>> f.m
  let man := c % 2 ^ f.m
  let (sig, e) := if ex = 0 then (man, 1) else (2 ^ f.m + man, ex)
  -- sig * 2^(e - bias - m)
  if f.bias + f.m ≤ e then (sig * 2 ^ (e - f.bias - f.m), 1) else (sig, 2 ^ (f.bias + f.m - e))

/-- floor(log2 (p / q)) for p, q ≠ 0, as an integer. -/
def ilog2 (p q : Nat) : Int :=
  let e : Int := (Nat.log2 p : Int) - (Nat.log2 q : Int)
  if e ≥ 0 then (if p < q * 2 ^ e.toNat then e - 1 else e)
  else (if p * 2 ^ (-e).toNat < q then e - 1 else e)

/-- Whether a value with integer part `n` and fraction `r / d` of the gap to the next goes up (R75, R76). -/
def goesUp (rnd : Rnd) (n r d : Nat) : Bool :=
  match rnd with
  | .rtz => false
  | .rne => decide (2 * r > d) || (decide (2 * r = d) && n % 2 = 1)
  | .sto z => decide (r ≠ 0) && decide (2 ^ 24 * r / d > z % 2 ^ 24)

/-- The code, past the greatest if it must be, of the magnitude p / q rounded into a format (R75, R76). Above the greatest value of BF16
the next value is taken to be 2^128 in stochastic rounding (log 146). -/
def BinFmt.roundMag (f : BinFmt) (rnd : Rnd) (p q : Nat) : Nat :=
  if p = 0 then 0 else
  let lo : Int := 1 - (f.bias : Int)
  let e := max (ilog2 p q) lo
  -- p / q in units of 2^(e - m)
  let u : Int := e - f.m
  let (a, b) := if u ≥ 0 then (p, q * 2 ^ u.toNat) else (p * 2 ^ (-u).toNat, q)
  let n := a / b
  let r := a % b
  (e - lo).toNat * 2 ^ f.m + n + (if goesUp rnd n r b then 1 else 0)

/-- The element formats of Table 04-1 by code. -/
def width (fmt : Nat) : Nat :=
  match fmt with
  | 0 => 32 | 1 => 16 | 4 => 4 | 7 => 32 | _ => 8

/-- Elements that a vector register holds of a type (Table 10-1). -/
def lanes (ty : Nat) : Nat :=
  match ty with
  | 0 => 16 | 1 => 32 | 7 => 16 | _ => 64

/-- A DSW8 code in units of 2^-6 (R67). -/
def dswVal (c : Nat) : Int :=
  let term (s k : Nat) : Int := if k = 7 then 0 else if s = 1 then -((64 >>> k : Nat) : Int) else ((64 >>> k : Nat) : Int)
  term (c / 128 % 2) (c / 16 % 8) + term (c / 8 % 2) (c % 8)

/-- The canonical code of a value in units of 2^-6, if DSW8 has it (R68). -/
def dswCode (v : Int) : Option Nat := (List.range 256).find? (fun c => dswVal c = v)

/-- The value of a floating code with its sign bit on top. -/
def BinFmt.val (f : BinFmt) (c : Nat) : Val :=
  let w := f.e + f.m
  let neg := decide (c / 2 ^ w % 2 = 1)
  let mag := c % 2 ^ w
  if mag ≤ f.maxCode then let (p, q) := f.mag mag; .num neg p q
  else if mag = f.maxCode + 1 && f.maxCode % 2 ^ f.m = 2 ^ f.m - 1 then .inf neg
  else .nan neg

/-- The value of the bits of an element in a format (R65 to R69). -/
def decodeElt (fmt c : Nat) : Val :=
  match fmt with
  | 0 => fmtF32.val c
  | 1 => fmtBf16.val c
  | 2 => fmtE4.val c
  | 3 => fmtE5.val c
  | 4 => fmtF4.val c
  | 5 => let v := dswVal c; .num (decide (v < 0)) v.natAbs 64
  | 6 => let v := sextInt c 8; .num (decide (v < 0)) v.natAbs 1
  | _ => let v := sextInt c 32; .num (decide (v < 0)) v.natAbs 1

/-- The magnitude p / q rounded to an integer. -/
def roundInt (rnd : Rnd) (p q : Nat) : Nat := p / q + (if goesUp rnd (p / q) (p % q) q then 1 else 0)

/-- The greatest DSW8 magnitude in units of 2^-6 not above `n`, looking down. -/
def dswBelow : Nat → Nat
  | 0 => 0
  | n + 1 => if (dswCode ((n + 1 : Nat) : Int)).isSome then n + 1 else dswBelow n

/-- The least DSW8 magnitude above `n`, looking up at most `fuel` places. -/
def dswAbove (n : Nat) : Nat → Nat
  | 0 => n
  | fuel + 1 => if (dswCode ((n + 1 : Nat) : Int)).isSome then n + 1 else dswAbove (n + 1) fuel

/-- A magnitude rounded into DSW8, in units of 2^-6; a tie goes to the smaller magnitude (R75). -/
def roundDsw (rnd : Rnd) (p q : Nat) : Nat :=
  if 64 * p ≥ 128 * q then 128 else
  let a := dswBelow (64 * p / q)
  let c := dswAbove a 128
  -- (v - a) / (c - a) with v = 64 p / q
  let r := 64 * p - a * q
  let d := (c - a) * q
  let up := match rnd with
    | .rtz => false
    | .rne => decide (2 * r > d)
    | .sto z => decide (r ≠ 0) && decide (2 ^ 24 * r / d > z % 2 ^ 24)
  if up then c else a

/-- Saturation to a signed integer of `n` bits, as its two's complement code. -/
def satInt (n : Nat) (neg : Bool) (m : Nat) : Nat :=
  if neg then (if m ≥ 2 ^ (n - 1) then 2 ^ (n - 1) else (2 ^ n - m) % 2 ^ n)
  else min m (2 ^ (n - 1) - 1)

/-- A value converted into a floating format (Table 04-7): what an overflow gives, what infinities give, the NaN code. -/
def BinFmt.conv (f : BinFmt) (rnd : Rnd) (ovf : Nat) (inf nan : Nat) (v : Val) : Nat :=
  let top := 2 ^ (f.e + f.m)
  let sg (n : Bool) := if n then top else 0
  match v with
  | .nan n => sg n + nan
  | .inf n => sg n + inf
  | .num n p q =>
    let c := f.roundMag rnd p q
    sg n + (if c > f.maxCode then ovf else c)

/-- The code that a conversion into a format gives (R78, Table 04-7). -/
def convert (fmt : Nat) (rnd : Rnd) (v : Val) : Nat :=
  let ovf (f : BinFmt) := if rnd = .rtz then f.maxCode else f.maxCode + 1
  match fmt with
  | 0 => fmtF32.conv rnd (ovf fmtF32) 0x7F800000 0x7FC00000 v
  | 1 => fmtBf16.conv rnd (ovf fmtBf16) 0x7F80 0x7FC0 v
  | 2 => fmtE4.conv rnd 0x7E 0x7E 0x7F v
  | 3 => fmtE5.conv rnd 0x7B 0x7C 0x7F v
  | 4 => match v with
    | .nan _ => 0
    | _ => fmtF4.conv rnd 7 7 0 v
  | 5 => match v with
    | .nan _ => 0x08
    | .inf n => if n then 0x88 else 0x00
    | .num n p q =>
      let m : Int := roundDsw rnd p q
      (dswCode (if n then -m else m)).getD 0x08
  | 6 => match v with
    | .nan _ => 0
    | .inf n => satInt 8 n (2 ^ 40)
    | .num n p q => satInt 8 n (roundInt rnd p q)
  | _ => match v with
    | .nan _ => 0
    | .inf n => satInt 32 n (2 ^ 40)
    | .num n p q => satInt 32 n (roundInt rnd p q)

/-- An arithmetic result in FP32 or BF16: a produced NaN is the positive one (R77). -/
def arith (fmt : Nat) (rnd : Rnd) (v : Val) : Nat :=
  match v with
  | .nan _ => convert fmt rnd (.nan false)
  | _ => convert fmt rnd v

/-- The last three lines of the pseudocode of R76, which R391 uses as `mix`. -/
def mix64 (z : Word) : Word :=
  let z := (z ^^^ (z >>> 30)) * 0xBF58476D1CE4E5B9#64
  let z := (z ^^^ (z >>> 27)) * 0x94D049BB133111EB#64
  z ^^^ (z >>> 31)

/-- `z` of R76 for a block and an element. -/
def stochZ (seed : Word) (blk elt : Nat) : Nat :=
  (mix64 (seed + BitVec.ofNat 64 blk * 0x9E3779B97F4A7C15#64 + BitVec.ofNat 64 elt * 0xD1B54A32D192ED03#64)).toNat

/-- The rounding of an arithmetic instruction under a mode: 0 and 2 nearest even, 1 towards zero (R76, R202). -/
def arithRnd (mode : BitVec 2) : Rnd := if mode = 1 then .rtz else .rne

/-- The rounding of a conversion of a vector instruction or tile command under a mode (R76). -/
def convRnd (mode fmt : Nat) (seed : Word) (blk elt : Nat) : Rnd :=
  if mode = 1 then .rtz else if mode = 2 && fmt ≠ 0 then .sto (stochZ seed blk elt) else .rne

/-- A block scale: E8M0 or E5M2 (R70). -/
def scaleVal (e5 : Bool) (c : Nat) : Val :=
  if e5 then fmtE5.val c
  else if c = 255 then .nan false
  else if c ≥ 127 then .num false (2 ^ (c - 127)) 1 else .num false 1 (2 ^ (127 - c))

/-- Fields of a format attribute (Table 04-5). -/
def fmtOf (a : BitVec 8) : Nat := a.toNat % 16
def blkOf (a : BitVec 8) : Nat := a.toNat / 16 % 4
def sfmtOf (a : BitVec 8) : Bool := a.getLsbD 6

/-- Elements of a block by the code of BLK or of a block qualifier. -/
def blockLen (b : Nat) : Nat := if b = 1 then 8 else if b = 2 then 16 else 32

/-- Whether a format may carry block scales (Table 04-1): BLK is ignored for the others (R71). -/
def mayScale (fmt : Nat) : Bool := [2, 3, 4, 5, 6].contains fmt

/-- The attribute has scales in force (R71). -/
def scaled (a : BitVec 8) : Bool := blkOf a ≠ 0 && mayScale (fmtOf a)

/-- The exact value of an element under its attribute, with the byte of its block's scale (R73). -/
def decodeVal (a : BitVec 8) (c : Nat) (scale : Nat) : Val :=
  let e := decodeElt (fmtOf a) c
  if scaled a then e.mul (scaleVal (sfmtOf a) scale) else e

/-- Magnitude comparison of finite values. -/
def Val.magLe : Val → Val → Bool
  | .num _ p q, .num _ r t => decide (p * t ≤ r * q)
  | _, _ => false

/-- emax and the largest finite magnitude of a format (R79). -/
def emaxOf (fmt : Nat) : Int :=
  match fmt with
  | 2 => 8 | 3 => 15 | 4 => 2 | 5 => 0 | _ => 6

def maxMag (fmt : Nat) : Nat :=
  match fmt with
  | 2 => 448 | 3 => 57344 | 4 => 6 | 5 => 2 | _ => 127

/-- +0 of a format. -/
def zeroCode (fmt : Nat) : Nat := if fmt = 5 then 0x08 else 0

/-- The smallest positive E5M2 code whose value is at least p / q, looking up from code 1. -/
def leastE5 (p q : Nat) : Nat :=
  ((List.range 0x7B).find? (fun i => let (a, b) := fmtE5.mag (i + 1); decide (p * b ≤ a * q))).getD 0x7A + 1

/-- The scale of a block and its code (R79): from the greatest magnitude of the block. -/
def blockScale (e5 : Bool) (fmt : Nat) (vs : List Val) : Nat :=
  if vs.any (fun v => match v with | .num _ _ _ => false | _ => true) then (if e5 then 0x7F else 0xFF)
  else
    match vs.foldl (fun m v => if m.magLe v then v else m) Val.zero with
    | .num _ p q =>
      if p = 0 then (if e5 then 0x3C else 0x7F)
      else if e5 then leastE5 p (q * maxMag fmt)
      else (max (-127) (min 127 (ilog2 p q - emaxOf fmt)) + 127).toNat
    | _ => 0

/-- Requantising one block (R79): the scale's code, then each element's. `rnd` is given each element's number. -/
def requant (e5 : Bool) (fmt : Nat) (rnd : Nat → Rnd) (first : Nat) (vs : List Val) : Nat × List Nat :=
  let sc := blockScale e5 fmt vs
  let bad := vs.any (fun v => match v with | .num _ _ _ => false | _ => true)
  let zero := vs.all (fun v => match v with | .num _ p _ => decide (p = 0) | _ => false)
  (sc, vs.zipIdx.map (fun (v, j) =>
    if bad then zeroCode fmt
    else if zero then convert fmt (rnd (first + j)) v
    else convert fmt (rnd (first + j)) (v.div (scaleVal e5 sc))))

/-- A list cut into runs of `n`, with at most `fuel` runs. -/
def chunks {α : Type} (n : Nat) : Nat → List α → List (List α)
  | 0, _ => []
  | _, [] => []
  | fuel + 1, l => l.take n :: chunks n fuel (l.drop n)

/-- Blocks of `g` values requantised: scales, then codes (R79, R208, R211). -/
def requantAll (e5 : Bool) (fmt g : Nat) (rnd : Nat → Rnd) (vs : List Val) : List Nat × List Nat :=
  let bs := (chunks g vs.length vs).zipIdx.map (fun (b, i) => requant e5 fmt rnd (g * i) b)
  (bs.map (·.1), (bs.map (·.2)).flatten)

/-- The exact sum of products of one k-block, -0 only if every product is -0 (R80, R81). -/
def blockSum (ps : List (Val × Val)) : Val :=
  match ps.map (fun (a, b) => a.mul b) with
  | [] => Val.zero
  | p :: t => t.foldl Val.add p

/-- One k-block added into an accumulator (R80): the block's exact sum scaled, rounded to FP32, added and rounded. -/
def kblock (c : Nat) (sa sb : Val) (ps : List (Val × Val)) : Nat :=
  let t := arith 0 .rne (((blockSum ps).mul sa).mul sb)
  arith 0 .rne ((decodeElt 0 c).add (decodeElt 0 t))

/-- `fmin`, `fmax` and their vector forms on codes of a float format (R128): the positive NaN if either is a NaN, else the
smaller or larger bit for bit, -0 below +0. -/
def minmax (fmt : Nat) (mx : Bool) (a b : Nat) : Nat :=
  let x := decodeElt fmt a
  let y := decodeElt fmt b
  if x.isNan || y.isNan then convert fmt .rne (.nan false)
  else
    let less := x.lt y || (x.eq y && x.sign && !y.sign)
    if mx then (if less then b else a) else (if less then a else b)

/-- The six relations of `fcmp` and `vcmp`: eq, ne, lt, le, gt, ge (R129). -/
def relVal (cc : Nat) (x y : Val) : Bool :=
  match cc with
  | 0 => x.eq y
  | 1 => !x.eq y
  | 2 => x.lt y
  | 3 => x.lt y || x.eq y
  | 4 => y.lt x
  | _ => y.lt x || x.eq y

/-- Integer square root by Newton's steps from above. -/
def isqrtGo (n : Nat) : Nat → Nat → Nat
  | 0, x => x
  | fuel + 1, x => let y := (x + n / x) / 2; if y < x then isqrtGo n fuel y else x

def isqrt (n : Nat) : Nat := if n = 0 then 0 else isqrtGo n 1024 (2 ^ (Nat.log2 n / 2 + 1))

/-- 1 / √a for the `vrsq` of a positive finite value: exact, or between two multiples of 2^-160 and written as their
middle, which rounds like the true value (R203; log 8). -/
def rsqrtVal (p q : Nat) : Val :=
  let n := q * 2 ^ 320
  let r := isqrt (n / p)
  if r * r * p = n then .num false r (2 ^ 160) else .num false (2 * r + 1) (2 ^ 161)

/-- 2^f for a fraction f = Σ bit_i 2^-i given bit by bit, in units of 2^-256, by repeated square roots (log 8). -/
def exp2Go : List Bool → Nat → Nat → Nat
  | [], _, acc => acc
  | b :: t, r, acc => exp2Go t (isqrt (r * 2 ^ 256)) (if b then acc * r / 2 ^ 256 else acc)

/-- 2^(± p / q) with q a power of two (R203; log 8). A result beyond 2^±1100 is given as 2^±1100, which rounds alike. -/
def exp2Val (neg : Bool) (p q : Nat) : Val :=
  let k := Nat.log2 q
  let n : Int := if neg then -((p + q - 1) / q : Nat) else (p / q : Nat)
  let f := if neg then (q - p % q) % q else p % q
  let n := max (-1100) (min 1100 n)
  let bits := (List.range k).map (fun i => decide (f / 2 ^ (k - 1 - i) % 2 = 1))
  let a := if f = 0 then 2 ^ 256 else exp2Go bits (isqrt (2 * 2 ^ 512)) (2 ^ 256)
  if n ≥ 0 then .num false (a * 2 ^ n.toNat) (2 ^ 256) else .num false a (2 ^ (256 + (-n).toNat))

/-- Element `i` of width `w` of a register (R199). -/
def laneOf (v : VWord) (w i : Nat) : Nat := v.toNat >>> (w * i) % 2 ^ w

/-- A register from its elements of width `w`, lowest first. -/
def ofLanes (w : Nat) (l : List Nat) : VWord :=
  BitVec.ofNat 512 (l.foldr (fun e acc => e % 2 ^ w + acc * 2 ^ w) 0)

/-- Bytes of a register, lowest first, and back. -/
def vbytes (v : VWord) : List Byte := toBytes v.toNat 64
def ofVbytes (l : List Byte) : VWord := BitVec.ofNat 512 (ofBytes (l.take 64))

/-- CRC-8 with polynomial x^8 + x^2 + x + 1 (R154): one byte, then a list. -/
def crc8Byte (c : Nat) (b : Nat) : Nat :=
  (List.range 8).foldl (fun c _ => if c ≥ 128 then (c * 2 % 256) ^^^ 7 else c * 2) (c ^^^ b)

def crc8 (l : List Nat) : Nat := l.foldl crc8Byte 0

end Sys2Proof.Machine
end

