-- ==== Sys2Proof/Machine/Crypto.lean ====
section
/-! DEFINITION. The functions that chapter 27 names and leaves to their standards: SHA-256, ECDSA over the curve P-256 (R384,
R387; log 128), and AES-128-GMAC (R369; log 133). -/

namespace Sys2Proof.Machine

open Sys2Proof

/-! ### SHA-256 -/

/-- The round constants. -/
def shaK : List (BitVec 32) :=
    [0x428A2F98, 0x71374491, 0xB5C0FBCF, 0xE9B5DBA5, 0x3956C25B, 0x59F111F1, 0x923F82A4, 0xAB1C5ED5] ++
    [0xD807AA98, 0x12835B01, 0x243185BE, 0x550C7DC3, 0x72BE5D74, 0x80DEB1FE, 0x9BDC06A7, 0xC19BF174] ++
    [0xE49B69C1, 0xEFBE4786, 0x0FC19DC6, 0x240CA1CC, 0x2DE92C6F, 0x4A7484AA, 0x5CB0A9DC, 0x76F988DA] ++
    [0x983E5152, 0xA831C66D, 0xB00327C8, 0xBF597FC7, 0xC6E00BF3, 0xD5A79147, 0x06CA6351, 0x14292967] ++
    [0x27B70A85, 0x2E1B2138, 0x4D2C6DFC, 0x53380D13, 0x650A7354, 0x766A0ABB, 0x81C2C92E, 0x92722C85] ++
    [0xA2BFE8A1, 0xA81A664B, 0xC24B8B70, 0xC76C51A3, 0xD192E819, 0xD6990624, 0xF40E3585, 0x106AA070] ++
    [0x19A4C116, 0x1E376C08, 0x2748774C, 0x34B0BCB5, 0x391C0CB3, 0x4ED8AA4A, 0x5B9CCA4F, 0x682E6FF3] ++
    [0x748F82EE, 0x78A5636F, 0x84C87814, 0x8CC70208, 0x90BEFFFA, 0xA4506CEB, 0xBEF9A3F7, 0xC67178F2]

/-- The chaining value: eight words. -/
structure Sha where
  a : BitVec 32
  b : BitVec 32
  c : BitVec 32
  d : BitVec 32
  e : BitVec 32
  f : BitVec 32
  g : BitVec 32
  h : BitVec 32
  deriving DecidableEq, Repr

def Sha.first : Sha :=
  { a := 0x6A09E667, b := 0xBB67AE85, c := 0x3C6EF372, d := 0xA54FF53A, e := 0x510E527F, f := 0x9B05688C
    g := 0x1F83D9AB, h := 0x5BE0CD19 }

def Sha.plus (s t : Sha) : Sha :=
  { a := s.a + t.a, b := s.b + t.b, c := s.c + t.c, d := s.d + t.d, e := s.e + t.e, f := s.f + t.f, g := s.g + t.g
    h := s.h + t.h }

/-- One round, with its constant and its word of the schedule. -/
def Sha.round (s : Sha) (k w : BitVec 32) : Sha :=
  let r (x : BitVec 32) (n : Nat) : BitVec 32 := x.rotateRight n
  let t1 := s.h + (r s.e 6 ^^^ r s.e 11 ^^^ r s.e 25) + ((s.e &&& s.f) ^^^ (~~~s.e &&& s.g)) + k + w
  let t2 := (r s.a 2 ^^^ r s.a 13 ^^^ r s.a 22) + ((s.a &&& s.b) ^^^ (s.a &&& s.c) ^^^ (s.b &&& s.c))
  { a := t1 + t2, b := s.a, c := s.b, d := s.c, e := s.d + t1, f := s.e, g := s.f, h := s.g }

/-- The number that big-endian bytes stand for. -/
def beNat (l : List Byte) : Nat := ofBytes l.reverse

/-- A message schedule, newest word first, lengthened by `n` words. -/
def shaSchedule : Nat → List (BitVec 32) → List (BitVec 32)
  | 0, l => l
  | n + 1, l =>
    let w (i : Nat) : BitVec 32 := l.getD i 0
    let s0 := (w 14).rotateRight 7 ^^^ (w 14).rotateRight 18 ^^^ (w 14) >>> 3
    let s1 := (w 1).rotateRight 17 ^^^ (w 1).rotateRight 19 ^^^ (w 1) >>> 10
    shaSchedule n ((s1 + w 6 + s0 + w 15) :: l)

/-- A block of 64 bytes taken into the chaining value. -/
def Sha.block (s : Sha) (bs : List Byte) : Sha :=
  let first := (List.range 16).map (fun i => BitVec.ofNat 32 (beNat ((bs.drop (4 * i)).take 4)))
  let ws := (shaSchedule 48 first.reverse).reverse
  s.plus ((shaK.zip ws).foldl (fun t e => t.round e.1 e.2) s)

/-- Blocks of 64 bytes taken in order. -/
def Sha.blocks : Nat → Sha → List Byte → Sha
  | 0, s, _ => s
  | n + 1, s, bs => Sha.blocks n (s.block (bs.take 64)) (bs.drop 64)

/-- SHA-256 of a byte string, as the big-endian number of its 32 bytes. -/
def sha256 (bs : List Byte) : BitVec 256 :=
  let n := bs.length
  let m := bs ++ [0x80#8] ++ List.replicate ((119 - n % 64) % 64) 0 ++ (toBytes (8 * n) 8).reverse
  let s := Sha.blocks (m.length / 64) Sha.first m
  (s.a ++ s.b ++ s.c ++ s.d ++ s.e ++ s.f ++ s.g ++ s.h).cast (by decide)

/-- The 32 bytes of a digest. -/
def digestBytes (d : BitVec 256) : List Byte := (toBytes d.toNat 32).reverse

/-! ### ECDSA over P-256 -/

def p256P : Nat := 2 ^ 256 - 2 ^ 224 + 2 ^ 192 + 2 ^ 96 - 1
def p256N : Nat := 0xFFFFFFFF00000000FFFFFFFFFFFFFFFFBCE6FAADA7179E84F3B9CAC2FC632551
def p256B : Nat := 0x5AC635D8AA3A93E7B3EBBD55769886BC651D06B0CC53B0F63BCE3C3E27D2604B

/-- `b` to the power of an exponent of at most `bits` bits, modulo `m`. -/
def powMod (m b : Nat) : Nat → Nat → Nat
  | 0, _ => 1 % m
  | bits + 1, e =>
    let h := powMod m b bits (e / 2)
    if e % 2 = 1 then h * h % m * b % m else h * h % m

/-- The inverse modulo a prime of 256 bits. -/
def invMod (m a : Nat) : Nat := powMod m (a % m) 256 (m - 2)

/-- A point of the curve; none is the point at infinity. -/
abbrev CurvePoint := Option (Nat × Nat)

def p256G : CurvePoint :=
  some (0x6B17D1F2E12C4247F8BCE6E563A440F277037D812DEB33A0F4A13945D898C296,
    0x4FE342E2FE1A7F9B8EE7EB4A7C0F9E162BCE33576B315ECECBB6406837BF51F5)

/-- The pair lies on the curve y² = x³ − 3x + b. -/
def onCurve (x y : Nat) : Bool :=
  decide (x < p256P) && decide (y < p256P) && decide (y * y % p256P = (x * x * x + (p256P - 3) * x + p256B) % p256P)

/-- The sum of two points of the curve. -/
def addPoint (a b : CurvePoint) : CurvePoint :=
  match a, b with
  | none, q => q
  | p, none => p
  | some (x1, y1), some (x2, y2) =>
    let line (l : Nat) : CurvePoint :=
      let x := (l * l + 2 * p256P - x1 - x2) % p256P
      some (x, (l * (x1 + p256P - x) + p256P - y1) % p256P)
    if x1 = x2 then
      if (y1 + y2) % p256P = 0 then none
      else line ((3 * x1 * x1 + p256P - 3) * invMod p256P (2 * y1) % p256P)
    else line ((y2 + p256P - y1) * invMod p256P (x2 + p256P - x1) % p256P)

/-- A point times a number of at most `bits` bits. -/
def mulPoint (q : CurvePoint) : Nat → Nat → CurvePoint
  | 0, _ => none
  | bits + 1, k =>
    let h := mulPoint q bits (k / 2)
    let d := addPoint h h
    if k % 2 = 1 then addPoint d q else d

/-- The signature (r, s) of a digest holds under the public key (x, y). -/
def ecdsaHolds (x y digest r s : Nat) : Bool :=
  if r = 0 ∨ p256N ≤ r ∨ s = 0 ∨ p256N ≤ s ∨ onCurve x y = false then false
  else
    let w := invMod p256N s
    match addPoint (mulPoint p256G 256 (digest * w % p256N)) (mulPoint (some (x, y)) 256 (r * w % p256N)) with
    | none => false
    | some (px, _) => decide (px % p256N = r)

/-- A number from 1 to the order less 1, as a private key and the number picked for a signature are. -/
def p256Scalar (v : Nat) : Nat := v % (p256N - 1) + 1

/-- The signature (r, s) of a digest under a private key with one number picked. -/
def signWith (secret digest k : Nat) : Nat × Nat :=
  match mulPoint p256G 256 k with
  | none => (0, 0)
  | some (px, _) => (px % p256N, invMod p256N k * (digest + px % p256N * secret) % p256N)

/-- The signature (r, s) of a digest under the private key that a secret gives, with the number that the signer picks for it; a pick
that gives r or s zero is followed by another, as the standard has it: at most eight numbers do. -/
def ecdsaSign (secret pick digest : Nat) : Nat × Nat :=
  ((((List.range 9).map (fun i => signWith (p256Scalar secret) digest (p256Scalar (pick + i)))).find?
    (fun q => decide (q.1 ≠ 0) && decide (q.2 ≠ 0)))).getD (0, 0)

/-! ### AES-128 and its authentication code GMAC (R369) -/

/-- The substitution table. -/
def aesSbox : List Byte :=
    [0x63, 0x7C, 0x77, 0x7B, 0xF2, 0x6B, 0x6F, 0xC5, 0x30, 0x01, 0x67, 0x2B, 0xFE, 0xD7, 0xAB, 0x76] ++
    [0xCA, 0x82, 0xC9, 0x7D, 0xFA, 0x59, 0x47, 0xF0, 0xAD, 0xD4, 0xA2, 0xAF, 0x9C, 0xA4, 0x72, 0xC0] ++
    [0xB7, 0xFD, 0x93, 0x26, 0x36, 0x3F, 0xF7, 0xCC, 0x34, 0xA5, 0xE5, 0xF1, 0x71, 0xD8, 0x31, 0x15] ++
    [0x04, 0xC7, 0x23, 0xC3, 0x18, 0x96, 0x05, 0x9A, 0x07, 0x12, 0x80, 0xE2, 0xEB, 0x27, 0xB2, 0x75] ++
    [0x09, 0x83, 0x2C, 0x1A, 0x1B, 0x6E, 0x5A, 0xA0, 0x52, 0x3B, 0xD6, 0xB3, 0x29, 0xE3, 0x2F, 0x84] ++
    [0x53, 0xD1, 0x00, 0xED, 0x20, 0xFC, 0xB1, 0x5B, 0x6A, 0xCB, 0xBE, 0x39, 0x4A, 0x4C, 0x58, 0xCF] ++
    [0xD0, 0xEF, 0xAA, 0xFB, 0x43, 0x4D, 0x33, 0x85, 0x45, 0xF9, 0x02, 0x7F, 0x50, 0x3C, 0x9F, 0xA8] ++
    [0x51, 0xA3, 0x40, 0x8F, 0x92, 0x9D, 0x38, 0xF5, 0xBC, 0xB6, 0xDA, 0x21, 0x10, 0xFF, 0xF3, 0xD2] ++
    [0xCD, 0x0C, 0x13, 0xEC, 0x5F, 0x97, 0x44, 0x17, 0xC4, 0xA7, 0x7E, 0x3D, 0x64, 0x5D, 0x19, 0x73] ++
    [0x60, 0x81, 0x4F, 0xDC, 0x22, 0x2A, 0x90, 0x88, 0x46, 0xEE, 0xB8, 0x14, 0xDE, 0x5E, 0x0B, 0xDB] ++
    [0xE0, 0x32, 0x3A, 0x0A, 0x49, 0x06, 0x24, 0x5C, 0xC2, 0xD3, 0xAC, 0x62, 0x91, 0x95, 0xE4, 0x79] ++
    [0xE7, 0xC8, 0x37, 0x6D, 0x8D, 0xD5, 0x4E, 0xA9, 0x6C, 0x56, 0xF4, 0xEA, 0x65, 0x7A, 0xAE, 0x08] ++
    [0xBA, 0x78, 0x25, 0x2E, 0x1C, 0xA6, 0xB4, 0xC6, 0xE8, 0xDD, 0x74, 0x1F, 0x4B, 0xBD, 0x8B, 0x8A] ++
    [0x70, 0x3E, 0xB5, 0x66, 0x48, 0x03, 0xF6, 0x0E, 0x61, 0x35, 0x57, 0xB9, 0x86, 0xC1, 0x1D, 0x9E] ++
    [0xE1, 0xF8, 0x98, 0x11, 0x69, 0xD9, 0x8E, 0x94, 0x9B, 0x1E, 0x87, 0xE9, 0xCE, 0x55, 0x28, 0xDF] ++
    [0x8C, 0xA1, 0x89, 0x0D, 0xBF, 0xE6, 0x42, 0x68, 0x41, 0x99, 0x2D, 0x0F, 0xB0, 0x54, 0xBB, 0x16]

def subByte (b : Byte) : Byte := aesSbox.getD b.toNat 0

/-- A byte doubled in the field of AES. -/
def aesDouble (b : Byte) : Byte := (b <<< 1) ^^^ (if b.getLsbD 7 then 0x1B else 0)

def xorBytes (a b : List Byte) : List Byte := (a.zip b).map (fun e => e.1 ^^^ e.2)

/-- Round keys, newest first, 16 bytes each: the key, then one for each round constant. -/
def aesKeys : List Byte → List (List Byte) → List (List Byte)
  | [], ks => ks
  | rc :: t, ks =>
    let k := ks.headD []
    let w (i : Nat) : List Byte := (k.drop (4 * i)).take 4
    let g := xorBytes ([1, 2, 3, 0].map (fun i => subByte ((w 3).getD i 0))) [rc, 0, 0, 0]
    let a := xorBytes (w 0) g
    let b := xorBytes (w 1) a
    let c := xorBytes (w 2) b
    let d := xorBytes (w 3) c
    aesKeys t ((a ++ b ++ c ++ d) :: ks)

/-- The rows of a block shifted, its columns being four bytes each. -/
def shiftRows (b : List Byte) : List Byte := (List.range 16).map (fun i => b.getD ((i + 4 * (i % 4)) % 16) 0)

/-- The columns of a block mixed. -/
def mixColumns (b : List Byte) : List Byte :=
  (List.range 16).map (fun i =>
    let x (j : Nat) : Byte := b.getD (i / 4 * 4 + (i + j) % 4) 0
    aesDouble (x 0) ^^^ aesDouble (x 1) ^^^ x 1 ^^^ x 2 ^^^ x 3)

/-- A block encrypted under a key: nine rounds and a last one without mixing. -/
def aes128 (key block : List Byte) : List Byte :=
  match (aesKeys [0x01, 0x02, 0x04, 0x08, 0x10, 0x20, 0x40, 0x80, 0x1B, 0x36] [key]).reverse with
  | [] => block
  | k :: ks =>
    let b := (ks.take 9).foldl (fun b r => xorBytes (mixColumns (shiftRows (b.map subByte))) r) (xorBytes block k)
    xorBytes (shiftRows (b.map subByte)) ((ks.drop 9).headD [])

/-- The product in the field of GHASH, whose first coefficient is the highest bit. -/
def ghashMul (x y : BitVec 128) : BitVec 128 :=
  ((List.range 128).foldl (fun (e : BitVec 128 × BitVec 128) i =>
    (if x.getLsbD (127 - i) then e.1 ^^^ e.2 else e.1
    , (e.2 >>> 1) ^^^ (if e.2.getLsbD 0 then 0xE1#128 <<< 120 else 0))) (0, y)).1

/-- The hash of a string of whole blocks. -/
def ghash (h : BitVec 128) : Nat → List Byte → BitVec 128 → BitVec 128
  | 0, _, y => y
  | n + 1, bs, y => ghash h n (bs.drop 16) (ghashMul (y ^^^ BitVec.ofNat 128 (beNat (bs.take 16))) h)

/-- The big-endian bytes of a number. -/
def beBytes (v n : Nat) : List Byte := (toBytes v n).reverse

/-- AES-128-GMAC of a byte string under a key and a 96-bit IV, both read as big-endian strings (R369; log 133). -/
def gmac (key : BitVec 128) (iv : BitVec 96) (bs : List Byte) : BitVec 128 :=
  let k := beBytes key.toNat 16
  let e (b : List Byte) : BitVec 128 := BitVec.ofNat 128 (beNat (aes128 k b))
  let n := (bs.length + 15) / 16
  let text := bs ++ List.replicate (16 * n - bs.length) 0 ++ beBytes (8 * bs.length) 8 ++ beBytes 0 8
  ghash (e (beBytes 0 16)) (n + 1) text 0 ^^^ e (beBytes iv.toNat 12 ++ beBytes 1 4)

end Sys2Proof.Machine
end

