-- ==== Sys2Proof/Machine/Frames.lean ====
section
/-! DEFINITION. Frames on a link (R359 to R361, R369): the flit header, route headers, the words and data of a packet in its
slots, and the check. -/

namespace Sys2Proof.Machine

open Sys2Proof

/-! ### Regions of physical addresses (R274, R321) -/

def hbmBase : Nat := 0x010000000000
def lpBase : Nat := 0x020000000000
def portBase : Nat := 0x040000000000
def portEnd : Nat := 0x041000000000

/-! ### Headers (Tables 24-2, 24-4, 24-9, 24-10) -/

/-- The header of a flit (Table 24-2). -/
def Flit.header (f : Flit) : Word :=
  BitVec.ofNat 64 (f.vc * 2 ^ 61 + f.cvc * 2 ^ 58 + f.cred * 2 ^ 52 + f.dpeer.toNat * 2 ^ 40 + f.speer.toNat * 2 ^ 28 +
    f.eseq * 2 ^ 18 + f.lseq * 2 ^ 10 + f.lack * 2 ^ 2 + f.ftype)

/-- One bit of CRC-64 with the ECMA-182 polynomial (R359). -/
def crcBit (c : BitVec 64) (b : Bool) : BitVec 64 :=
  if c.getLsbD 63 ^^ b then (c <<< 1) ^^^ 0x42F0E1EBA9EA3693 else c <<< 1

/-- The CRC of a frame's bytes: initial value all ones, final inversion (R359; log 53). -/
def crc64 (bs : List Byte) : BitVec 64 :=
  ~~~(bs.foldl (fun c b => (List.range 8).foldl (fun c i => crcBit c (b.getLsbD (7 - i))) c) (BitVec.allOnes 64))

/-- DUNIT and DKIND of an agent (Table 24-4): a streamer is an engine of its core; for a matrix array and for a copy
streamer beside a slice the table has no number (log 105). -/
def unitOf : Agent → Nat × Nat
  | .core c => (c, 0)
  | .home h => (h, 1)
  | .engine e => (if e < 4096 then e / 4 * 7 + [3, 0, 1, 2].getD (e % 4) 0 else e, 2)
  | .gateway l => (l, 3)
  | .equinox => (8191, 0)
  | _ => (0, 0)

/-- The route header (Table 24-4). -/
def routeHeader (k : PairKey) (job : BitVec 16) (two : Bool) : Word :=
  let (u, kind) := unitOf k.dst.agent
  let w := BitVec.ofNat 64 (k.dst.peer.toNat * 2 ^ 52 + u * 2 ^ 39 + kind * 2 ^ 37 + k.cls * 2 ^ 34 + job.toNat * 2 ^ 18 +
    (if two then 2 ^ 10 else 0))
  w ||| ((Config.hecc w).setWidth 64 <<< 11)

/-- The access word (Table 24-9). -/
def accessWord (op sz pa : Nat) : Word := BitVec.ofNat 64 (op * 2 ^ 58 + sz * 2 ^ 54 + pa % 2 ^ 52)

/-- The source word (Table 24-10). -/
def sourceWord (p : Place) (slot : Nat) (gen : BitVec 16) : Word :=
  let peer := p.peer.toNat * 2 ^ 52
  match p.agent with
  | .core c => BitVec.ofNat 64 (peer + c * 2 ^ 37 + slot * 2 ^ 35 + gen.toNat * 2 ^ 19)
  | .engine e => BitVec.ofNat 64 (peer + 2 ^ 50 + e * 2 ^ 37)
  | .home h => BitVec.ofNat 64 (peer + 2 * 2 ^ 50 + h * 2 ^ 37)
  | _ => BitVec.ofNat 64 (peer + 3 * 2 ^ 50)

/-- OP of an access-class packet (Table 24-11); a launch-port write is a store. -/
def accessOp : Body → Option Nat
  | .load _ _ _ => some 0x01
  | .store .stFe _ _ _ _ => some 0x05
  | .store .feSet _ _ _ _ => some 0x06
  | .store .feClr _ _ _ _ => some 0x07
  | .store .anadd _ _ _ _ => some 0x12
  | .store _ _ _ _ _ => some 0x02
  | .port _ _ _ _ _ => some 0x02
  | .ldFe take _ _ _ => some (if take then 0x04 else 0x03)
  | .atomic op _ _ _ _ _ =>
    some (match op with
      | .add => 0x08 | .and => 0x09 | .or => 0x0A | .xor => 0x0B | .min => 0x0C | .max => 0x0D | .minN => 0x0E | .maxN => 0x0F
      | .swap => 0x10 | .cas => 0x11)
  | .fetch _ _ _ _ _ => some 0x13
  | .redeem _ _ _ => some 0x14
  | .tkDrop _ => some 0x15
  | .tkQuery _ _ => some 0x16
  | .dropMarker _ _ _ => some 0x17
  | .drainMarker _ _ _ _ => some 0x18
  | .value _ _ _ => some 0x20
  | .ack _ => some 0x21
  | .refusedWrite _ _ _ | .refusedRead _ _ _ | .refusedRdm _ _ _ => some 0x22
  | .snapshot _ _ _ _ _ _ _ => some 0x23
  | .took _ _ => some 0x20
  | .release _ _ => some 0x25
  | _ => none

/-- OP of a packet: a reply to `tkq` has one of its own (Table 24-11). -/
def packetOp (p : Packet) : Option Nat :=
  match p.body with
  | .value _ _ _ => some (if p.tag = 0x16 then 0x24 else 0x20)
  | b => accessOp b

/-- Data bytes of an access-class packet other than a value reply (Table 24-11). -/
def accessData : Body → Nat
  | .store .feSet _ _ _ _ | .store .feClr _ _ _ _ => 0
  | .store _ _ n _ _ => n
  | .port _ _ _ _ _ => 64
  | .atomic .cas _ n _ _ _ => 2 * n
  | .atomic _ _ n _ _ _ => n
  | .fetch _ _ _ scale _ => if scale = 0 then 8 else 16
  | .redeem _ _ _ => 17
  | .tkDrop _ | .tkQuery _ _ => 8
  | .refusedWrite _ _ _ | .refusedRead _ _ _ | .refusedRdm _ _ _ => 1
  | .snapshot _ _ data _ _ _ _ => min 64 data.length
  | .release _ _ => 2
  | _ => 0

/-- Data bytes of a packet: a value reply has those that its request asked for, a reply to `tkq` one. -/
def packetData (p : Packet) : Nat :=
  match p.body with
  | .value _ _ _ => if p.tag = 0x16 then 1 else p.len
  | b => accessData b

/-- A packet takes two slots when its data exceed the 40 bytes that one carries (R361); every message takes one. -/
def twoSlots (k : PairKey) (p : Packet) : Bool := decide (k.cls = 4) && decide (40 < packetData p)

/-- A reply of the access class (Table 24-11). -/
def isReply : Body → Bool
  | .value _ _ _ | .took _ _ | .ack _ | .refusedWrite _ _ _ | .refusedRead _ _ _ | .snapshot _ _ _ _ _ _ _ | .refusedRdm _ _ _
  | .release _ _ => true
  | _ => false

def isEngine : Agent → Bool
  | .engine _ => true
  | _ => false

/-- The opcode word of a tile command message and of a shape continuation (Tables 06-13, 06-15). -/
def cmdOpcode (opcode core slot : Nat) (gen : BitVec 16) : Word :=
  BitVec.ofNat 64 (opcode * 2 ^ 56 + gen.toNat * 2 ^ 32 + core * 2 ^ 16 + slot)

/-- Bytes 15:8 to 63:48 of the tile command message (Table 06-13), as words. -/
def Cmd.message (c : Cmd) : List Word :=
  [cmdOpcode 0x01 c.core c.slot c.gen, c.w0, c.w1, c.w2, c.w3, c.shA.extractLsb' 0 64, c.shA.extractLsb' 64 64]

/-- Bytes 15:8 to 63:48 of the shape continuation message (Table 06-15). -/
def contWords (core slot : Nat) (gen : BitVec 16) (shB : BitVec 128) : List Word :=
  [cmdOpcode 0x03 core slot gen, 0, 0, 0, 0, shB.extractLsb' 0 64, shB.extractLsb' 64 64]

def Cmd.continuation (c : Cmd) (shB : BitVec 128) : List Word := contWords c.core c.slot c.gen shB

/-- The address and the size code of an access-class request (Table 24-9). -/
def accessAt : Body → Nat × Nat
  | .load pa n _ | .store _ pa n _ _ | .ldFe _ pa n _ | .atomic _ pa n _ _ _ => (pa, Nat.log2 n)
  | .fetch t pa _ _ _ => (pa, t.toNat / 4 % 16)
  | .port j k _ _ _ => (portBase + j * 2 ^ 30 + 64 * k, 6)
  | .dropMarker _ old _ | .drainMarker _ _ old _ => (old * 2 ^ 16, 0)
  | _ => (0, 0)

/-- Bytes that a request asks for (R361). -/
def requestLen : Body → Nat
  | .load _ n _ | .ldFe _ _ n _ | .atomic _ _ n _ _ _ => n
  | _ => 0

/-- The access word of a packet: a request's own, or a reply's with the address of its request (Table 24-9; log 124). -/
def packetWord (p : Packet) (op : Nat) : Word :=
  let (pa, sz) := accessAt p.body
  if isReply p.body then accessWord op (Nat.log2 (packetData p)) p.addr else accessWord op sz pa

/-- The words that head an access-class packet (R361, Tables 24-4, 24-9, 24-10). -/
def accessWords (k : PairKey) (p : Packet) : Option (List Word) :=
  (packetOp p).map (fun op => [routeHeader k p.job (twoSlots k p), packetWord p op, sourceWord k.src p.slot p.gen])

/-- The destination kind and the address or handler word of a redemption (Table 24-11). -/
def rdmWords : RdmDst → Nat × Nat
  | .vreg _ => (0, 0)
  | .spad pa _ => (1, pa)
  | .msg w => (2, w.toNat)

/-- The data bytes of an access-class packet other than a value reply (Table 24-11). -/
def accessBytes : Body → List Byte
  | .store _ _ n data _ => toBytes data.toNat n
  | .port _ _ data _ _ => toBytes data.toNat 64
  | .atomic .cas _ n b e _ => toBytes e.toNat n ++ toBytes b.toNat n
  | .atomic _ _ n b _ _ => toBytes b.toNat n
  | .fetch t _ _ scale _ => toBytes t.toNat 8 ++ (if scale = 0 then [] else toBytes scale 8)
  | .redeem t dst _ => toBytes t.toNat 8 ++ toBytes (rdmWords dst).1 1 ++ toBytes (rdmWords dst).2 8
  | .tkDrop t | .tkQuery t _ => toBytes t.toNat 8
  | .refusedWrite _ reason _ | .refusedRead _ reason _ => toBytes reason 1
  | .snapshot _ _ data _ _ _ _ => data.take 64
  | .release num gen => toBytes (num + 2 ^ 8 * gen.toNat) 2
  | _ => []

/-- The data bytes of a packet. -/
def packetBytes (p : Packet) : List Byte :=
  match p.body with
  | .value _ data _ => toBytes data.toNat (packetData p)
  | b => accessBytes b

/-- The opcode word of a channel message (Table 09-2), with the word that stands in its low half: on its way the end tag, for a task
the handler (R177). -/
def opcodeWord (m : Msg) (segin segend : Bool) (low : Nat) : Word :=
  let kind := match m.kind with
    | .data => 0x10
    | .dataEnd => 0x11
    | _ => 0x18
  BitVec.ofNat 64 (kind * 2 ^ 56 + m.words * 2 ^ 53 + (if segend then 2 ^ 49 else 0) + (if segin then 2 ^ 48 else 0) +
    m.seq % 2 ^ 16 * 2 ^ 32 + low % 2 ^ 32)

/-- Payload words 0 to 5 of a channel message: an end travels in words 4 and 5 (R177, R181; log 124). -/
def msgPayload (m : Msg) : List Word :=
  match m.carried with
  | none => m.payload.toList
  | some h => m.payload.toList.take 4 ++ [(Config.handleBits h).extractLsb' 0 64, (Config.handleBits h).extractLsb' 64 64]

def wordBytes (ws : List Word) : List Byte := (ws.map (fun w => toBytes w.toNat 8)).flatten

/-- Bytes 63:8 of a message (R361): Tables 06-13 and 06-15 give those of a tile command, R177 those of a channel message, and R320
those of a launch-port write; a marker of a stream, which no task sees, has no layout of its own. -/
def messageWords (k : PairKey) (p : Packet) : List Byte :=
  match p.body with
  | .cmd c => wordBytes (Sys2Proof.Machine.Cmd.message c)
  | .shapeCont core slot gen shB => wordBytes (contWords core slot gen shB)
  | .port _ _ data _ _ => toBytes (data >>> 64).toNat 56
  | .msg m =>
    match m.kind with
    | .segMarker _ | .closeMarker => toBytes (Config.messageBits k p).toNat 56
    | _ => wordBytes (opcodeWord m false false (Config.endTag m.ident m.gen).toNat :: msgPayload m)
  | _ => toBytes (Config.messageBits k p).toNat 56

/-- A list of bytes of a given length: cut, or filled with zeros. -/
def padTo (n : Nat) (bs : List Byte) : List Byte := bs.take n ++ List.replicate (n - bs.length) 0

/-- A packet in its slots of 64 bytes (R361). -/
def slotBytes (k : PairKey) (p : Packet) : List Byte :=
  match (if k.cls = 4 then accessWords k p else none) with
  | some ws => padTo (if twoSlots k p then 128 else 64) (wordBytes ws ++ packetBytes p)
  | none => padTo 64 (toBytes (routeHeader k p.job false).toNat 8 ++ messageWords k p)

/-- Slots of a flit that a packet takes (R361). -/
def packetSlots (k : PairKey) (p : Packet) : Nat := if twoSlots k p then 2 else 1

/-- Snapshot bytes that a ticket's fetch reads (R154). -/
def snapSize (ticket : Word) : Nat := 8 * 2 ^ (ticket.toNat / 4 % 16)

/-- A snapshot reply of more than 64 bytes as the run of packets in which it travels, 64 bytes in each and `ADDR` advancing (R361). -/
def snapParts (p : Packet) : List Packet :=
  match p.body with
  | .snapshot dst t data poison fmt scale elt =>
    (List.range (max 1 ((data.length + 63) / 64))).map (fun i => { p with
      body := .snapshot dst t ((data.drop (64 * i)).take 64) ((poison.drop (4 * i)).take 4) fmt scale elt, addr := p.addr + 64 * i })
  | _ => [p]

/-- A snapshot reply has come whole. -/
def snapWhole : Body → Bool
  | .snapshot _ t data _ _ _ _ => decide (snapSize t ≤ data.length)
  | _ => true

/-- A packet that arrives behind others of its pair queue: a part of a snapshot reply joins those before it (R361). -/
def arriveBehind (q : List Packet) (p : Packet) : List Packet :=
  match q.getLast?, p.body with
  | some l, .snapshot _ t data poison _ _ _ =>
    match l.body with
    | .snapshot dst t0 had bad fmt scale elt =>
      if t0 = t ∧ l.slot = p.slot ∧ snapWhole l.body = false then
        q.dropLast ++ [{ l with body := .snapshot dst t0 (had ++ data) (bad ++ poison) fmt scale elt }]
      else q ++ [p]
    | _ => q ++ [p]
  | _, _ => q ++ [p]

/-- The packets at the head of a pair queue that fill `room` slots of a flit from the lowest (R359, R361). -/
def fillSlots (k : PairKey) : Nat → List Packet → List Packet
  | _, [] => []
  | room, p :: t => if packetSlots k p ≤ room then p :: fillSlots k (room - packetSlots k p) t else []

/-- Bytes 263:0 of a frame (R359). -/
def Flit.payload (f : Flit) : List Byte :=
  toBytes (Sys2Proof.Machine.Flit.header f).toNat 8 ++ padTo 256 ((f.packets.map (fun e => slotBytes e.1 e.2)).flatten)

/-- The check field of a flit: the CRC, or on a channel in integrity mode the upper half of the tag under the key of its direction,
whose IV is the key number and the flits sent since bring-up (R359, R369). -/
def Link.checkOf (l : Link) (n : Nat) (f : Flit) : BitVec 64 :=
  if l.intNow.getLsbD f.vc then
    (gmac (Config.linkKey n true l.key) (BitVec.ofNat 96 (l.key % 2 ^ 32 * 2 ^ 64 + l.flits % 2 ^ 64)) (Sys2Proof.Machine.Flit.payload f)).extractLsb' 64 64
  else crc64 (Sys2Proof.Machine.Flit.payload f)

/-- The frame of a flit, 272 bytes (R359). -/
def Flit.frame (f : Flit) : List Byte := Sys2Proof.Machine.Flit.payload f ++ toBytes f.check.toNat 8

end Sys2Proof.Machine
end

