-- ==== Sys2Proof/Machine/Ops.lean ====
section
/-! DEFINITION. The named operations over the state: units and their numbers, registers, memory, homes, sending, the levels'
counts, records, and taking a trap as one operation (R242, R329) with the return from one beside it (R243). -/

namespace Sys2Proof.Machine

open Sys2Proof

/-- What a step answers. -/
abbrev Out := Host.Outcome State Fault Refusal

/-! ### Units and numbers (R8, R20, R212, R276, R391) -/

def isGateway (c : Nat) : Bool := decide (7168 ≤ c)
def tileOf (c : Nat) : Nat := c / 7
def citOf (c : Nat) : Nat := c % 7
def isStreamer (c : Nat) : Bool := !isGateway c && decide (citOf c < 3)
def isCompute (c : Nat) : Bool := !isGateway c && decide (3 ≤ citOf c)
/-- Slots of a core (R8, R211). -/
def slotCount (c : Nat) : Nat := if isStreamer c then 2 else 4
/-- The die of a tile, and the cluster number die * 16 + cluster. -/
def dieOf (t : Nat) : Nat := t / 256
def clusterOf (t : Nat) : Nat := t / 16

/-- A tile that is neither fused off nor disabled (R21). -/
def Part.tileLive (p : Part) (t : Nat) : Bool := decide (t < 1024) && p.tiles.getLsbD t

/-- A live core: of a live tile, or a live gateway core. -/
def Part.coreLive (p : Part) (c : Nat) : Bool :=
  if isGateway c then decide (c < 7296) && p.gates.getLsbD (c - 7168) else p.tileLive (tileOf c)

/-- A live home of this module (R158). -/
def Part.homeLive (p : Part) (h : Nat) : Bool :=
  if h < 1024 then p.tileLive h else if h < 1280 then p.hbm.getLsbD (h - 1024)
  else decide (h < 1328) && p.lp.getLsbD (h - 1280)

/-- The home that the hash of R391 gives to a value. -/
def hashHome (p : Part) (v : Word) : Nat := nthLive p.tiles ((mix64 v).toNat % max 1 (liveCount p.tiles))

/-- The home of a flat-region byte of a tier by its live slices (R275). -/
def sliceHome (base n : Nat) (nth : Nat → Nat) (o : Nat) : Nat := base + nth (o / 4096 % max 1 n)

/-! ### Finding and changing units -/

def slotKey (c l : Nat) : Nat := c * 4 + l

def State.slotAt (s : State) (c l : Nat) : Slot := (AMap.get s.mach.slots (slotKey c l)).getD Slot.reset

def State.setSlotAt (s : State) (c l : Nat) (sl : Slot) : State :=
  { s with mach := { s.mach with slots := AMap.set s.mach.slots (slotKey c l) sl } }

/-- The slot whose instruction is in hand. -/
def State.slot (s : State) : Slot := s.slotAt s.cur.1 s.cur.2

def State.setSlot (s : State) (sl : Slot) : State := s.setSlotAt s.cur.1 s.cur.2 sl

def State.updSlotAt (s : State) (c l : Nat) (f : Slot → Slot) : State := s.setSlotAt c l (f (s.slotAt c l))

def State.upd (s : State) (f : Slot → Slot) : State := s.setSlot (f s.slot)

/-- A core with nothing in it; the slot that issued last is its highest (log 5). -/
def Core.fresh (c : Nat) : Core := { Core.reset with last := slotCount c - 1 }

def State.coreAt (s : State) (c : Nat) : Core := (AMap.get s.mach.cores c).getD (Core.fresh c)

def State.setCore (s : State) (c : Nat) (k : Core) : State :=
  { s with mach := { s.mach with cores := AMap.set s.mach.cores c k } }

def State.updCore (s : State) (c : Nat) (f : Core → Core) : State := s.setCore c (f (s.coreAt c))

def State.tileAt (s : State) (t : Nat) : Tile := (AMap.get s.mach.tiles t).getD Tile.reset

def State.updTile (s : State) (t : Nat) (f : Tile → Tile) : State :=
  { s with mach := { s.mach with tiles := AMap.set s.mach.tiles t (f (s.tileAt t)) } }

def State.homeAt (s : State) (h : Nat) : Home := (AMap.get s.mach.homes h).getD Home.reset

def State.updHome (s : State) (h : Nat) (f : Home → Home) : State :=
  { s with mach := { s.mach with homes := AMap.set s.mach.homes h (f (s.homeAt h)) } }

def State.engineAt (s : State) (e : Nat) : Engine := (AMap.get s.mach.engines e).getD Engine.reset

def State.updEngine (s : State) (e : Nat) (f : Engine → Engine) : State :=
  { s with mach := { s.mach with engines := AMap.set s.mach.engines e (f (s.engineAt e)) } }

def State.clusterAt (s : State) (c : Nat) : Cluster := (AMap.get s.mach.clusters c).getD Cluster.reset

def State.updCluster (s : State) (c : Nat) (f : Cluster → Cluster) : State :=
  { s with mach := { s.mach with clusters := AMap.set s.mach.clusters c (f (s.clusterAt c)) } }

def State.drawAt (s : State) (d : Nat) : DrawUnit := (AMap.get s.mach.draws d).getD DrawUnit.reset

def State.updDraw (s : State) (d : Nat) (f : DrawUnit → DrawUnit) : State :=
  { s with mach := { s.mach with draws := AMap.set s.mach.draws d (f (s.drawAt d)) } }

/-- A job of which nothing is known, for a module that runs none: tag 0, no handler, no table. -/
def Job.none : Job :=
  { tag := 0, debug := false, lease := 22, sramBase := 0, ptroot := 0, tvec := 0, code := 0, hcount := 0, hbase := 0
    nhand := 0, handb := 0, nplan := 0, planb := 0, ctxSize := 0, ctxb := 0, msix := 0, nev := 0, evb := 0, dropped := 0
    badwr := 0, tgen := 0, handlers := [], evTail := 0, evHead := 0, evHeld := [], queues := [], circs := []
    circ := Option.none, plan := Option.none, tearing := false, recAddr := 0, switches := 0, tstop := 0, tresume := 0
    ctxState := 0, hostLog := [] }

def State.jobAt (s : State) (j : Nat) : Job := (AMap.get s.jobs j).getD Job.none

/-- The job slot that runs: 0 where none does. -/
def State.jslot (s : State) : Nat := s.running.getD 0

/-- The job that runs. -/
def State.job (s : State) : Job := s.jobAt s.jslot

def State.updJobAt (s : State) (j : Nat) (f : Job → Job) : State :=
  { s with jobs := AMap.set s.jobs j (f (s.jobAt j)) }

/-- W10 of a job's record shows its counts (Table 21-2). -/
def State.showCounts (s : State) (j : Nat) : State :=
  let jb := s.jobAt j
  if jb.recAddr = 0 then s
  else { s with dram := s.dram.puts (jb.recAddr + 80) (toBytes (jb.dropped * 2 ^ 32 + jb.badwr) 8) }

def State.updJob (s : State) (f : Job → Job) : State := s.updJobAt s.jslot f

/-- The thresholds of the present window: a write takes effect at the next one (R380). -/
def State.thrNow (s : State) : Nat × Nat :=
  if s.eqx.thrAt < s.now / 2 ^ 31 then (s.eqx.thr, s.eqx.lthr) else (s.eqx.thrOld, s.eqx.lthrOld)

/-- A unit as its window stands: one that has ended has restarted, with the thresholds of the new one (R375, R380). -/
def State.inWindow (s : State) (e : Unit) : Unit :=
  let n := s.now / 2 ^ 31
  if n ≤ e.windowAt then e else { e with window := 0, replays := 0, declared := false, windowAt := n, thr := s.thrNow.1, lthr := s.thrNow.2 }

/-- A unit of a kind (Table 22-2). -/
def State.unitAt (s : State) (k u : Nat) : Unit :=
  s.inWindow <| (s.units.find? (fun e => e.ukind = k ∧ e.unit = u)).getD
    { ukind := k, unit := u, window := 0, errors := 0, replays := 0, declared := false, windowAt := s.now / 2 ^ 31, c2 := 0
      c3 := 0, c4 := 0, c5 := 0, thr := s.thrNow.1, lthr := s.thrNow.2 }

def State.updUnit (s : State) (k u : Nat) (f : Unit → Unit) : State :=
  { s with units := (s.units.filter (fun e => ¬(e.ukind = k ∧ e.unit = u))) ++ [f (s.unitAt k u)] }

/-- Telemetry counters are 64 bits and saturate (R381). -/
def bump (v : Nat) : Nat := satAdd 64 v 1

/-- A home as a unit of Table 22-2: its kind; its number is the home number (log 34). -/
def homeKind (h : Nat) : Nat := if h < 1024 then 3 else 4

/-! ### Registers (R11 to R14) -/

/-- X[r]; x0 reads zero (R12). -/
def Slot.rx (sl : Slot) (r : Reg) : Word := if r = 0 then 0 else sl.x[r.toNat]'r.isLt

/-- V[r]. -/
def Slot.rv (sl : Slot) (r : Reg) : VWord := sl.v[r.toNat]'r.isLt

/-- M[r]; m0 reads all ones (R12). -/
def Slot.rm (sl : Slot) (r : MReg) : Word := if r = 0 then BitVec.allOnes 64 else sl.m[r.toNat]'r.isLt

/-- H[r]. -/
def Slot.rh (sl : Slot) (r : HReg) : Handle := sl.h[r.toNat]'r.isLt

/-- X[r] written whole: its marker is cleared (R13); a write to x0 is discarded (R12). -/
def Slot.wx (sl : Slot) (r : Reg) (v : Word) : Slot :=
  if r = 0 then sl else { sl with x := sl.x.set r.toNat v r.isLt, px := sl.px.set r.toNat none r.isLt }

/-- V[r] written whole. -/
def Slot.wv (sl : Slot) (r : Reg) (v : VWord) : Slot :=
  { sl with v := sl.v.set r.toNat v r.isLt, pv := sl.pv.set r.toNat none r.isLt }

def Slot.wm (sl : Slot) (r : MReg) (v : Word) : Slot :=
  if r = 0 then sl else { sl with m := sl.m.set r.toNat v r.isLt }

def Slot.wh (sl : Slot) (r : HReg) (h : Handle) : Slot := { sl with h := sl.h.set r.toNat h r.isLt }

/-- A pending mark set or cleared; x0 is never pending. -/
def Slot.pendX (sl : Slot) (r : Reg) (b : Bool) : Slot :=
  if r = 0 then sl
  else { sl with nx := if b then sl.nx ||| (1#32 <<< r.toNat) else sl.nx &&& ~~~(1#32 <<< r.toNat) }

def Slot.pendV (sl : Slot) (r : Reg) (b : Bool) : Slot :=
  { sl with nv := if b then sl.nv ||| (1#32 <<< r.toNat) else sl.nv &&& ~~~(1#32 <<< r.toNat) }

/-- The poison marker of register number `n`: 0 to 31 x, 32 to 63 v (R13). -/
def Slot.poisonAt (sl : Slot) (n : Nat) : Option (BitVec 2) :=
  if n < 32 then (if n = 0 then none else sl.px.getD n none) else sl.pv.getD (n - 32) none

def Slot.pendingAt (sl : Slot) (n : Nat) : Bool := if n < 32 then sl.nx.getLsbD n else sl.nv.getLsbD (n - 32)

/-- A register write kept in the operand log of its core: the last 64 (R333). -/
def State.logWrite (s : State) (c l reg : Nat) (v : VWord) : State :=
  s.updCore c (fun k => { k with oplog := ({ slot := l, reg := reg, val := v } :: k.oplog).take 64 })

def State.setXAt (s : State) (c l : Nat) (r : Reg) (v : Word) : State :=
  (s.updSlotAt c l (fun sl => sl.wx r v)).logWrite c l r.toNat (v.setWidth 512)

def State.setVAt (s : State) (c l : Nat) (r : Reg) (v : VWord) : State :=
  (s.updSlotAt c l (fun sl => sl.wv r v)).logWrite c l (32 + r.toNat) v

/-- X[r] of the slot in hand written. -/
def State.setX (s : State) (r : Reg) (v : Word) : State := s.setXAt s.cur.1 s.cur.2 r v

def State.setV (s : State) (r : Reg) (v : VWord) : State := s.setVAt s.cur.1 s.cur.2 r v

def State.setM (s : State) (r : MReg) (v : Word) : State :=
  (s.upd (fun sl => sl.wm r v)).logWrite s.cur.1 s.cur.2 (64 + r.toNat) (v.setWidth 512)

/-- H[r] of a slot written; the log keeps that it was (R333). -/
def State.setHAt (s : State) (c l : Nat) (r : HReg) (h : Handle) : State :=
  (s.updSlotAt c l (fun sl => sl.wh r h)).logWrite c l (72 + r.toNat) (h.ident.setWidth 512)

def State.setH (s : State) (r : HReg) (h : Handle) : State := s.setHAt s.cur.1 s.cur.2 r h

/-- The instruction has issued: the next word follows (R138). -/
def State.retire (s : State) : State := s.upd (fun sl => { sl with pc := sl.pc + 4, phase := .ready })

/-- The instruction has issued and the next word is at `t`. -/
def State.jump (s : State) (t : Word) : State := s.upd (fun sl => { sl with pc := t, phase := .ready })

/-- Issue is held: the instruction is tried again (R26; log 9). -/
def State.stall (s : State) : State := s.upd (fun sl => { sl with phase := .stalled })

/-! ### Memory (R5, R33, R34, R159, R274) -/

/-- A byte of physical memory: the job's slices below 2^30, the module's memory above. -/
def State.byte (s : State) (pa : Nat) : Byte := if pa < 2 ^ 30 then s.mach.sram.byte pa else s.dram.byte pa

def State.bytes (s : State) (pa n : Nat) : List Byte :=
  if pa < 2 ^ 30 then s.mach.sram.bytes pa n else s.dram.bytes pa n

/-- Bytes put into memory as they are. -/
def State.rawPut (s : State) (pa : Nat) (bs : List Byte) : State :=
  if pa < 2 ^ 30 then { s with mach := { s.mach with sram := s.mach.sram.puts pa bs } }
  else { s with dram := s.dram.puts pa bs }

/-- The granules (16 bytes) that a run of `n` bytes touches. -/
def granules (pa n : Nat) : List Nat := (List.range ((pa + n + 15) / 16 - pa / 16)).map (· + pa / 16)

/-- The poison of a granule, if it holds some (R159). -/
def State.poisonOf (s : State) (g : Nat) : Option (BitVec 2) := AMap.get s.mach.poison g

/-- The poison of the lowest poisoned granule of a run. -/
def State.poisonIn (s : State) (pa n : Nat) : Option (BitVec 2) :=
  if s.mach.poison.isEmpty then none else (granules pa n).findSome? s.poisonOf

/-- A store: it clears the poison of the granules it touches, whose other bytes then read as zero (R159). -/
def State.store (s : State) (pa : Nat) (bs : List Byte) : State :=
  if s.mach.poison.isEmpty then s.rawPut pa bs else
  let bad := (granules pa bs.length).filter (fun g => (s.poisonOf g).isSome)
  let s1 := bad.foldl (fun s g => s.rawPut (16 * g) (List.replicate 16 0)) s
  let s2 := { s1 with mach := { s1.mach with poison := s1.mach.poison.filter (fun e => !bad.contains e.1) } }
  s2.rawPut pa bs

/-- Poison of a kind put into a granule, the kind in its byte 0 (R159). -/
def State.poisonGranule (s : State) (g : Nat) (k : BitVec 2) : State :=
  let s1 := s.rawPut (16 * g) (BitVec.ofNat 8 k.toNat :: List.replicate 15 0)
  { s1 with mach := { s1.mach with poison := AMap.set s1.mach.poison g k } }

/-- The full/empty bit of a granule (R34). -/
def State.isFull (s : State) (g : Nat) : Bool := s.mach.full.contains g

def State.setFull (s : State) (g : Nat) (b : Bool) : State :=
  { s with mach := { s.mach with full := if b then insNat s.mach.full g else delNat s.mach.full g } }

/-- A little-endian number of `n` bytes in memory. -/
def State.num (s : State) (pa n : Nat) : Nat := ofBytes (s.bytes pa n)

/-- A slice offset without program access: the ring queues, the home-port region, the overflow areas (R33). -/
def noAccess (off : Nat) : Bool := decide (0xB0000 ≤ off)

/-- The end of the region of Table 02-11 that a slice byte with program access lies in. -/
def regionEnd (pa : Nat) : Nat :=
  let o := pa % 2 ^ 20
  pa - o + (if o < 0x80000 then 0x80000 else if o < 0x90000 then 0x90000 else if o < 0xA0000 then 0xA0000 else 0xB0000)

/-- The home of a physical address of this module; a launch port's is its record's (R274, R275, R321). -/
def State.homeOf (s : State) (pa : Nat) : Option Nat :=
  let p := s.part
  if pa < 2 ^ 30 then some (pa / 2 ^ 20)
  else if hbmBase ≤ pa ∧ pa < hbmBase + p.flatH + p.withH then
    some (sliceHome 1024 (liveCount p.hbm) (nthLive p.hbm) (pa - hbmBase))
  else if lpBase ≤ pa ∧ pa < lpBase + p.flatL + p.withL then
    some (sliceHome 1280 (liveCount p.lp) (nthLive p.lp) (pa - lpBase))
  else if portBase ≤ pa ∧ pa < portEnd then
    let j := (pa - portBase) / 2 ^ 30
    some (hashHome p (BitVec.ofNat 64 ((s.jobAt j).tag.toNat * 2 ^ 48 + (pa - portBase) % 2 ^ 30 / 64)))
  else none

/-- The home that the hash of R391 gives to a value on another module, by its live tiles. -/
def layoutHash (l : PeerLayout) (v : Word) : Nat := l.tiles.getD ((mix64 v).toNat % max 1 l.tiles.length) 0

/-- The home of an address on another module, by its entry of the peer layout table (R349); a launch port's is its record's, for
the job whose tag is given (R321, R391). -/
def layoutHome (l : PeerLayout) (tag : BitVec 16) (pa : Nat) : Option Nat :=
  if pa < 2 ^ 30 then some (pa / 2 ^ 20)
  else if hbmBase ≤ pa ∧ pa < hbmBase + l.flatH + l.withheldH then
    some (1024 + l.hbm.getD ((pa - hbmBase) / 4096 % max 1 l.hbm.length) 0)
  else if lpBase ≤ pa ∧ pa < lpBase + l.flatL + l.withheldL then
    some (1280 + l.lp.getD ((pa - lpBase) / 4096 % max 1 l.lp.length) 0)
  else if portBase ≤ pa ∧ pa < portEnd then
    some (layoutHash l (BitVec.ofNat 64 (tag.toNat * 2 ^ 48 + (pa - portBase) % 2 ^ 30 / 64)))
  else none

/-- The withheld stripe (R276). -/
def Part.withheld (p : Part) (pa : Nat) : Bool :=
  (decide (hbmBase + p.flatH ≤ pa) && decide (pa < hbmBase + p.flatH + p.withH)) ||
    (decide (lpBase + p.flatL ≤ pa) && decide (pa < lpBase + p.flatL + p.withL))

/-- Why a home refuses an access of a job to an address (Table 08-2), reasons 2 to 4 in that order. -/
def State.refusesAt (s : State) (h : Nat) (job : BitVec 16) (pa : Nat) : Option Nat :=
  if s.part.withheld pa then some 2
  else if s.part.fenced.contains h then some 3
  else if job ≠ s.job.tag then some 4
  else none

/-! ### Sending (R43 to R45, R145) -/

/-- A party of this module. -/
def State.here (s : State) (a : Agent) : Place := { peer := s.part.peer, agent := a }

/-- The queue under a key. -/
def netGet : List (PairKey × List Packet) → PairKey → List Packet
  | [], _ => []
  | (k, q) :: t, key => if key = k then q else netGet t key

/-- The queue under a key replaced; an empty queue is not kept. -/
def netSet : List (PairKey × List Packet) → PairKey → List Packet → List (PairKey × List Packet)
  | [], key, q => if q.isEmpty then [] else [(key, q)]
  | (k, r) :: t, key, q =>
    if key = k then (if q.isEmpty then t else (k, q) :: t) else (k, r) :: netSet t key q

/-- A packet appended to its pair queue. -/
def State.append (s : State) (key : PairKey) (p : Packet) : State :=
  { s with mach := { s.mach with net := netSet s.mach.net key (netGet s.mach.net key ++ [p]) } }

/-- The head of a pair queue. -/
def State.headOf (s : State) (key : PairKey) : Option Packet := (netGet s.mach.net key).head?

/-- A pair queue without its head. -/
def State.popNet (s : State) (key : PairKey) : State :=
  { s with mach := { s.mach with net := netSet s.mach.net key (netGet s.mach.net key).tail } }

/-- Send a body from one party of the module to any place in a class, for a slot and generation. -/
def State.post (s : State) (src : Agent) (dst : Place) (cls : Nat) (b : Body) (slot : Nat) (gen : BitVec 16) : State :=
  s.append { src := s.here src, dst := dst, cls := cls }
    { body := b, src := s.here src, job := s.job.tag, slot := slot, gen := gen }

/-- A packet comes from the home's own tile: a core of it (R35, R47). -/
def ownTile (peer : Peer) (h : Nat) (p : Packet) : Bool :=
  p.src.peer = peer && match p.src.agent with
    | .core c => !isGateway c && decide (tileOf c = h)
    | _ => false

/-- A local access enters its home's perform queue ahead of remote arrivals not yet performed (R35, R47). -/
def enterLocal (peer : Peer) (h : Nat) (p : Packet) : List Packet → List Packet
  | [] => [p]
  | a :: t => if ownTile peer h a then a :: enterLocal peer h p t else p :: a :: t

/-- An access from the slot in hand to its home (R145): into the own home's perform queue, or onto its pair queue. -/
def State.access (s : State) (home : Nat) (peer : Peer) (b : Body) : State :=
  let (c, l) := s.cur
  let p : Packet := { body := b, src := s.here (.core c), job := s.slot.jobid, slot := l, gen := s.slot.gen }
  if peer = s.part.peer ∧ isGateway c = false ∧ home = tileOf c then
    s.updHome home (fun h => { h with q := enterLocal s.part.peer home p h.q })
  else s.append { src := s.here (.core c), dst := { peer := peer, agent := .home home }, cls := 4 } p

/-- A home is local to a core (R145). -/
def State.isLocal (s : State) (c home : Nat) (peer : Peer) : Bool :=
  decide (peer = s.part.peer) && !isGateway c && decide (home = tileOf c)

/-- The distance class of a home seen from a core: 1 C, 2 P, 3 X (R24, R145). -/
def State.distance (s : State) (c home : Nat) (peer : Peer) : Nat :=
  if peer ≠ s.part.peer then 3
  else if isGateway c = false ∧ home < 1024 ∧ clusterOf home = clusterOf (tileOf c) then 1 else 2

/-! ### Levels (R258, R259, R268, R319) -/

def State.levelAt (s : State) (k : Nat) : Level := (AMap.get s.mach.levels k).getD Level.free

/-- W0 and W1 of a record as they stand in the table (Table 21-3). -/
def Level.w0 (v : Level) : Nat :=
  v.level * 2 ^ 58 + v.state * 2 ^ 56 + (if v.cp then 2 ^ 55 else 0) + (if v.cores then 2 ^ 54 else 0) + v.cdl * 2 ^ 48 +
    v.late * 2 ^ 32 + v.count

def Level.w1 (v : Level) : Nat := v.parent * 2 ^ 32 + v.start

/-- A record changed: the table in memory shows one of this module once it has been armed (R319). -/
def State.setLevel (s : State) (k : Nat) (v : Level) : State :=
  let s1 := { s with mach := { s.mach with levels := AMap.set s.mach.levels k v } }
  if v.level = 0 ∨ 2 ^ 32 ≤ k then s1
  else s1.rawPut (s.job.hbase * 4096 + 64 * k) (toBytes (v.w0 + 2 ^ 64 * v.w1) 16)

def State.updLevel (s : State) (k : Nat) (f : Level → Level) : State := s.setLevel k (f (s.levelAt k))

/-- The name under which other modules know a level: record `k` of module `peer` after `inc` uses of it (R271; log 109). A record
of this module is named by its index alone, below 2^32. -/
def farKey (peer : Peer) (inc k : Nat) : Nat := (inc * 8192 + peer.toNat + 1) * 2 ^ 32 + k

/-- The module of a level that has such a name. -/
def keyPeer (key : Nat) : Peer := BitVec.ofNat 12 (key / 2 ^ 32 % 8192 - 1)

/-- The name of a level for other modules. -/
def State.globalKey (s : State) (k : Nat) : Nat := if k < 2 ^ 32 then farKey s.part.peer (s.levelAt k).inc k else k

/-- The record of this module that a name stands for: none once that use of it is complete. -/
def State.ownRec (s : State) (key : Nat) : Option Nat :=
  let k := key % 2 ^ 32
  if keyPeer key = s.part.peer ∧ (s.levelAt k).inc = key / 2 ^ 32 / 8192 then some k else none

/-- A level that another module has named, in this module's terms: the job's, where that use of a record is complete (R261). -/
def State.levelNamed (s : State) (key : Nat) : Nat := if keyPeer key = s.part.peer then (s.ownRec key).getD 0 else key

/-- The module at which a level is counted. -/
def State.levelPeer (s : State) (k : Nat) : Peer := if k < 2 ^ 32 then s.part.peer else keyPeer k

/-- The chain of levels from a record up to the job level of its module, at most five of them (R258). -/
def State.chain (s : State) : Nat → Nat → List Nat
  | 0, _ => []
  | fuel + 1, k => if k % 2 ^ 32 = 0 then [k] else k :: s.chain fuel (s.levelAt k).parent

/-- A cancel is pending on the level or an ancestor (R268). -/
def State.cancelPending (s : State) (k : Nat) : Bool := (s.chain 8 k).any (fun i => (s.levelAt i).cp)

/-- The flags of the levels at and above a task whose cancel is pending, and its own (Table 02-6): bits 1 launch, 2 graph, 3
phase, 4 job. The levels are those of the state `m`. -/
def State.cancelFlagsOf (s : State) (m : Mach) (sl : Slot) : Word :=
  let t : State := { s with mach := m }
  ((t.chain 8 sl.task.level).filter (fun k => (t.levelAt k).cp)).foldl (fun w k => w ||| (1#64 <<< (t.levelAt k).level))
    (sl.cancelled.setWidth 64)

/-- The level at which a task is counted: the job's, if the level is complete (R261). -/
def State.countLevel (s : State) (k : Nat) : Nat := if (s.levelAt k).state = 3 then 0 else k

/-- The home of a level record (R391). -/
def State.levelHome (s : State) (k : Nat) : Nat :=
  hashHome s.part (BitVec.ofNat 64 (s.job.tag.toNat * 2 ^ 48 + k))

/-- The home of a level record of the running job on a module, by its entry of the peer layout table (R391, R349). -/
def State.levelHomeOn (s : State) (peer : Peer) (k : Nat) : Nat :=
  if peer = s.part.peer then s.levelHome k
  else ((AMap.get s.layouts peer.toNat).map (fun l => layoutHash l (BitVec.ofNat 64 (s.job.tag.toNat * 2 ^ 48 + k)))).getD 0

/-- The home of a level of another module. -/
def State.farHome (s : State) (key : Nat) : Place :=
  { peer := keyPeer key, agent := .home (s.levelHomeOn (keyPeer key) (key % 2 ^ 32)) }

/-- A core sends a raise or lowering of a level's count in class 1, across the fabric for a level of another module (R259,
R271). -/
def State.sendCount (s : State) (c k : Nat) (up : Bool) : State :=
  if k < 2 ^ 32 then s.post (.core c) (s.here (.home (s.levelHome k))) 1 (.count k up) 0 0
  else s.post (.core c) (s.farHome k) 1 (.farCount k up) 0 0

/-! ### Records and traps (R328 to R336, R392) -/

/-- The causes of class U (Table 22-1); a breakpoint is one unless the job enables debugging (R249). -/
def userClass (cause : Nat) (debug : Bool) : Bool :=
  if cause = 7 then !debug
  else (decide (1 ≤ cause) && decide (cause ≤ 6)) || (decide (0x10 ≤ cause) && decide (cause ≤ 0x1F)) ||
    (decide (0x41 ≤ cause) && decide (cause ≤ 0x46)) ||
    [0x48, 0x49, 0x60, 0x61, 0x62, 0x80, 0x81, 0x82, 0x83, 0x84, 0x86, 0x87, 0x88, 0x89, 0xC0, 0xC1, 0xC2, 0xC3, 0x100,
      0x101, 0x102, 0x104, 0x140, 0x141, 0x142, 0x143, 0x144, 0x145, 0x180, 0x181].contains cause

/-- The causes of class F (Table 22-1). -/
def fatalClass (cause : Nat) : Bool :=
  [0x008, 0x182, 0x186].contains cause || (decide (0x1C0 ≤ cause) && decide (cause ≤ 0x1CA))

/-- SEV of a record (R392). -/
def sevOf (cause : Nat) (jobid : BitVec 16) : Nat :=
  if cause = 0x1C8 then 4 else if cause = 0x1CF then 1 else if cause = 0x1C9 ∨ cause = 0x1CA then 0
  else if jobid ≠ 0 ∧ (cause = 0x1C0 ∨ (0x1C2 ≤ cause ∧ cause ≤ 0x1C6)) then 3
  else if jobid ≠ 0 then 2 else 0

/-- A record put on its lane towards Equinox (R334). -/
def State.emit (s : State) (r : FaultRec) : State :=
  if r.lane = 1 then { s with eqx := { s.eqx with lane1 := s.eqx.lane1 ++ [r] } }
  else { s with eqx := { s.eqx with lane0 := s.eqx.lane0 ++ [r] } }

/-- A record of a slot's cause, or of a task that has left its slot (Table 22-2). -/
def State.slotRec (s : State) (c l cause : Nat) (index : Nat) (addr : Word) (slotted : Bool) : FaultRec :=
  let sl := s.slotAt c l
  { jobid := sl.jobid, gen := sl.gen, lane := if fatalClass cause then 1 else 0, sev := sevOf cause sl.jobid, cause := cause
    index := index, addr := addr, stamp := s.time, peer := s.part.peer, ukind := 0, slot := l, unit := c, epc := sl.epc
    tval := sl.tval, count := (s.unitAt 0 c).window, slotted := slotted }

/-- A record of a unit that names no slot. -/
def State.unitRec (s : State) (ukind unit cause : Nat) (jobid : BitVec 16) (index : Nat) (addr : Word) (count : Nat) :
    FaultRec :=
  { jobid := jobid, gen := 0, lane := if fatalClass cause then 1 else 0, sev := sevOf cause jobid, cause := cause
    index := index, addr := addr, stamp := s.time, peer := s.part.peer, ukind := ukind, slot := 0, unit := unit, epc := 0
    tval := 0, count := count, slotted := false }

/-- Take a cause at a slot (R242, R329), `epc` the address that `EPC` names. A user-class cause goes to `TVEC`; where
`TVEC` reads zero, and for every other class, the slot parks and its record is emitted. -/
def State.takeTrap (s : State) (c l cause : Nat) (tval epc : Word) (async : Bool) (index : Nat) (addr : Word) : State :=
  let code : Word := BitVec.ofNat 64 cause ||| (if async then 1#64 <<< 63 else 0)
  let s1 := s.updSlotAt c l (fun sl => { sl with cause := code, epc := epc, tval := tval })
  if userClass cause s.job.debug ∧ (s.slotAt c l).tvec ≠ 0 then
    s1.updSlotAt c l (fun sl => { sl with pc := sl.tvec, phase := .ready })
  else
    let r := s1.slotRec c l cause index addr true
    let s2 := s1.updSlotAt c l (fun sl => { sl with
      phase := .parked, held := some r
      task := { sl.task with dbg := if cause = 7 ∧ s.job.debug then some s.mach.clock else none } })
    s2.emit r

/-- A precise cause of the instruction in hand: `EPC` is its address, and a record's ADDR the value of Table 22-1. -/
def State.trap (s : State) (cause : Nat) (tval : Word) : Out :=
  .next (s.takeTrap s.cur.1 s.cur.2 cause tval s.slot.pc false 0 tval)

/-- Cause 0x040 with the level and reason of R351 in INDEX. -/
def State.trapIdx (s : State) (cause index : Nat) (tval : Word) : Out :=
  .next (s.takeTrap s.cur.1 s.cur.2 cause tval s.slot.pc false index tval)

/-- `eret`: PC := EPC, a misaligned one traps (R243). -/
def State.eret (s : State) : Out :=
  let t := s.slot.epc
  if t.toNat % 4 ≠ 0 then s.trap 0x006 t else .next (s.jump t)

/-- A wake event of a slot: the flag is set, and a blocked `wfi` ends (R251). -/
def State.wakeSlot (s : State) (c l : Nat) : State :=
  s.updSlotAt c l (fun sl =>
    match sl.phase with
    | .blocked (.wfi _) => { sl with phase := .ready, pc := sl.pc + 4, wake := true }
    | _ => { sl with wake := true })

/-- A refused load's address joins the four-place queue of its slot; a fifth is emitted as a record without a slot (R147, R330,
R392). -/
def State.pushLoadCause (s : State) (c l : Nat) (pa : Nat) : State :=
  let v : Word := BitVec.ofNat 64 pa
  let loads := (s.slotAt c l).async.filter (fun a => match a with | .load _ => true | .store _ => false)
  if 4 ≤ loads.length then s.emit { s.slotRec c l 0x062 0 v false with gen := 0, slot := 0, epc := 0, tval := 0 }
  else (s.updSlotAt c l (fun sl => { sl with async := sl.async ++ [.load v] })).wakeSlot c l

/-- Every slot of a core is woken (R251). -/
def State.wakeCore (s : State) (c : Nat) : State :=
  (List.range (slotCount c)).foldl (fun s l => s.wakeSlot c l) s

/-- The word of an instruction, for `TVAL` of the causes of R98. -/
def wordOf (i : Instr) : Word := ((encode i).getD 0).setWidth 64

/-- A host event: status, W1 and the time, put into the running job's ring or held while the ring is full (R323, R324). -/
def State.event (s : State) (j : Nat) (w0 w1 : Word) : State :=
  let jb := s.jobAt j
  if jb.nev ≠ 0 ∧ jb.evHeld.isEmpty ∧ (jb.evTail + 65536 - jb.evHead) % 65536 < jb.nev then
    let at_ := jb.evb * 4096 + 64 * (jb.evTail % jb.nev)
    let bytes := toBytes (w0.toNat + 2 ^ 64 * (w1.toNat + 2 ^ 64 * s.time.toNat)) 64
    let s1 := { s with host := s.host.puts at_ bytes, eqx := { s.eqx with msix := s.eqx.msix ++ [jb.msix] } }
    s1.updJobAt j (fun jb => { jb with evTail := (jb.evTail + 1) % 65536 })
  else s.updJobAt j (fun jb => { jb with evHeld := jb.evHeld ++ [(w0, w1, s.time)] })

/-- The answer to a command that names no job with a ring: an event of Equinox (R317, R324). -/
def State.eqxEvent (s : State) (w0 w1 w2 : Word) : State :=
  { s with eqx := { s.eqx with hostEvents := s.eqx.hostEvents ++ [(w0, w1, w2)] } }

/-- A peer's OPT bit in the peer map. -/
def setOpt (on : Bool) (v : BitVec 8) : BitVec 8 := if on then v ||| 0x08 else v &&& 0xF7

/-- A peer's ELEC bit in the peer map. -/
def setElec (on : Bool) (v : BitVec 8) : BitVec 8 := if on then v ||| 0x10 else v &&& 0xEF

def State.linkAt (s : State) (n : Nat) : Link := (AMap.get s.links n).getD Link.reset

def State.updLink (s : State) (n : Nat) (f : Link → Link) : State := { s with links := AMap.set s.links n (f (s.linkAt n)) }

/-- A peer is reached through the panel substrate: it lies in this module's panel, and an electrical port is up (R357, R367;
log 126). -/
def State.elecTo (s : State) (peer : Nat) : Bool :=
  s.links.any (fun e => decide (e.1 < 48) && e.2.up) && Config.samePanel s.part.peer (BitVec.ofNat 12 peer)

/-- The ELEC bits of the peer map as the ports now stand (R367). -/
def State.mapElec (s : State) : State := { s with peers := s.peers.map (fun e => (e.1, setElec (s.elecTo e.1) e.2)) }

/-- A link that carries nothing any more: what it had not delivered is sent again end to end, and nothing of it is kept for a replay
(R363, R371; log 101). -/
def Link.down (l : Link) : Link :=
  { l with up := false, unacked := [], held := [], gapAt := none, owed := [], ackOwed := false }

/-- A link goes down, an optical one with every fibre of its group: its peer loses its OPT bit, and with the last electrical port
every peer its ELEC bit (R366, R377). -/
def State.linkDown (s : State) (n : Nat) : State :=
  let l := s.linkAt n
  if 48 ≤ n then
    let s1 := (List.range (max 1 l.group)).foldl (fun s i => s.updLink (n + i) Link.down) s
    { s1 with peers := s1.peers.map (fun e => if e.1 = l.peer.toNat then (e.1, setOpt false e.2) else e) }
  else (s.updLink n Link.down).mapElec

/-- The live sent wavelengths of an optical link in order, as fibre * 16 + wavelength (R365). -/
def State.waves (s : State) (n : Nat) : List Nat :=
  let l := s.linkAt n
  ((List.range l.group).map (fun i =>
    ((List.range 16).filter (fun w => (s.linkAt (n + i)).liveTx.getLsbD w)).map (fun w => 16 * (n - 48 + i) + w))).flatten

/-- The live wavelength at or after a number, wrapping at the end of the list (R365). -/
def nextWave (ws : List Nat) (from_ : Nat) : Option Nat :=
  match ws.find? (fun w => decide (from_ ≤ w)) with
  | some w => some w
  | none => ws.head?

/-- A flit leaves on a link, new or again, on the next live wavelength. -/
def State.emitFlit (s : State) (n : Nat) (f : Flit) : State :=
  let w := nextWave (s.waves n) (s.linkAt n).wave
  { (s.updLink n (fun l => { l with wave := (w.map (· + 1)).getD l.wave, flits := l.flits + 1 })) with
    sent := s.sent ++ [{ link := n, wave := w, flit := f }] }

/-- A flit without payload sent, which acknowledges as every flit does: TYPE 1 credits, given as VC * 64 + credits, 2 replay
request, 3 link control with what it carries (Table 24-2). -/
def State.sendControl (s : State) (n type arg : Nat) : State :=
  let l := s.linkAt n
  let f : Flit :=
    { ftype := type, vc := 0, cvc := if type = 1 then arg / 64 else 0, cred := if type = 1 then arg % 64 else 0, dpeer := l.peer
      speer := s.part.peer, eseq := 0, lseq := 0, lack := l.lack, packets := [], arg := if type = 3 then arg else 0, check := 0 }
  (s.updLink n (fun l => { l with control := l.control ++ [(type, arg)] })).emitFlit n { f with check := l.checkOf n f }

/-- The link whose fibre group a fibre's link number lies in. -/
def State.groupLink (s : State) (n : Nat) : Option Nat :=
  (s.links.find? (fun e => decide (48 ≤ e.1) && decide (e.1 ≤ n) && decide (n < e.1 + e.2.group))).map (·.1)

/-- A group whose last received or sent wavelength is dark goes down (R366). -/
def State.checkDark (s : State) (n : Nat) : State :=
  let l := s.linkAt n
  let all (f : Link → BitVec 16) : Bool := (List.range l.group).all (fun i => f (s.linkAt (n + i)) = 0)
  if all Link.liveRx || all Link.liveTx then s.linkDown n else s

/-- A wavelength removed from the live lists of its fibre as R366 states: with the new mask and a replay request of its
receiver, and the group down if that was its last (R377). -/
def State.dropWave (s : State) (n w : Nat) : State :=
  let off (m : BitVec 16) : BitVec 16 := m &&& ~~~(1#16 <<< w)
  let s1 := s.updLink n (fun l => { l with liveRx := off l.liveRx, liveTx := off l.liveTx })
  match s.groupLink n with
  | some g =>
    if (s.linkAt g).up = false ∨ (s.linkAt n).liveRx.getLsbD w = false then s1
    else
      let s2 := (s1.sendControl g 3 (s1.linkAt n).liveRx.toNat).sendControl g 2 0
      s2.checkDark g
  | none => s1

/-- What a declaration does at once (Table 26-1): a home is fenced, a link is taken down, a wavelength leaves the live lists. -/
def State.fence (s : State) (k u : Nat) : State :=
  if k = 3 ∨ k = 4 then { s with part := { s.part with fenced := insNat s.part.fenced u } }
  else if k = 6 ∧ u < 112 then (if (s.linkAt u).up then s.linkDown u else s)
  else if k = 6 then (if (AMap.get s.links (48 + (u - 112) / 16)).isSome then s.dropWave (48 + (u - 112) / 16) ((u - 112) % 16) else s)
  else s

/-- A unit is declared lasting: one fatal record with cause 0x1C8, the fence, and its place on the disable list of 1,024 entries
(R376, R377, R382); one that a command has cleared applies again (R386). -/
def State.declareUnit (s : State) (k u : Nat) : State :=
  let r := { s.unitRec k u 0x1C8 0 0 (BitVec.ofNat 64 u) (s.unitAt k u).window with lane := 1 }
  let s1 := (s.updUnit k u (fun e => { e with declared := true })).fence k u
  let e := s1.eqx
  let d := if e.disable.any (fun x => x.ukind = k && x.unit = u) then
      e.disable.map (fun (x : DEntry) => if x.ukind = k ∧ x.unit = u then { x with cleared := false } else x)
    else if e.disable.length < 1024 then e.disable ++ [{ ukind := k, unit := u, applied := false, cleared := false }]
    else e.disable
  { s1 with eqx := { e with decl := min (e.decl + 1) (2 ^ 32 - 1), disable := d } }.emit r

/-- An error of a unit is counted, and the unit declared lasting at its threshold (R375, R376). -/
def State.countError (s : State) (k u : Nat) : State :=
  let s1 := s.updUnit k u (fun e => { e with window := e.window + 1, errors := bump e.errors })
  let e := s1.unitAt k u
  if e.declared = false ∧ e.thr ≤ e.window then s1.declareUnit k u else s1

/-- Issue has stopped: the stop time of a switch has come, or its resume time has not (R339, R340). -/
def State.stopped (s : State) : Bool :=
  match s.switch with
  | none => false
  | some w =>
    if w.stage = 4 then false
    else if w.stage = 0 then decide (w.out.isSome) && decide (w.t.toNat ≤ s.time.toNat)
    else if w.stage = 3 then decide (s.time.toNat < w.resumeAt.toNat) else true

/-- A step that is not enabled does not exist (R42). -/
def notEnabled (name : String) : Out := .refused (.notEnabled name)

/-- Delivered cycles of a task's watchdog: not those for which it has been parked for a debugger (R337). -/
def Task.age (t : Task) (now : Nat) : Nat := (t.dbg.getD now) - t.wdStart

/-! ### The context area's regions (R342) -/

/-- The live units that the context area counts: slots, cores, tiles, routers, memory slices (R342). -/
def Part.ctxCounts (p : Part) : Nat × Nat × Nat × Nat × Nat :=
  let t := liveCount p.tiles
  let g := liveCount p.gates
  let cl := ((List.range 64).filter (fun c => (List.range 16).any (fun i => p.tiles.getLsbD (c * 16 + i)))).length
  (22 * t + 4 * g, 7 * t + g, t, cl + 2, liveCount p.hbm + liveCount p.lp)

/-- Sizes in KiB of the regions of Table 22-6, in order. -/
def Part.ctxRegions (p : Part) : List Nat :=
  let (sl, co, ti, ro, me) := p.ctxCounts
  [4, 3 * sl, 16 * co, 1344 * ti, 64 * ro, 16640 * me, 4096]

/-- The region sizes rounded up to 4 KiB, as each is aligned (R342). -/
def Part.ctxSteps (p : Part) : List Nat := p.ctxRegions.map (fun n => (n + 3) / 4 * 4)

/-- KiB that the whole area takes. -/
def Part.ctxKiB (p : Part) : Nat := p.ctxSteps.sum

/-- Offset in KiB of a region. -/
def Part.ctxOffset (p : Part) (i : Nat) : Nat := (p.ctxSteps.take i).sum

/-- A host write of a job that is switched out, or that a switch has stopped, joins the job's host-write log (R325, R341);
an entry of the log has 64 bytes and no layout (log 13). -/
def State.appendLog (s : State) (j : Nat) (w : LogW) : State :=
  let jb := s.jobAt j
  let a := jb.ctxb * 4096 + s.part.ctxOffset 6 * 1024 + 64 * jb.hostLog.length
  { s with
    dram := s.dram.puts a ((List.range 64).map (fun i => Config.contextByte s.free (a + i)))
    free := s.free + 1 }.updJobAt j (fun jb => { jb with hostLog := jb.hostLog ++ [w] })

/-- Host writes of a job are kept: it does not run, or a switch has stopped it (R325, R341). -/
def State.keeps (s : State) (j : Nat) : Bool := decide (s.running ≠ some j) || s.stopped

/-- The host-write log of a job is full: the write is held at the host link (Table 22-6). -/
def State.logFull (s : State) (j : Nat) : Bool := decide (65536 ≤ (s.jobAt j).hostLog.length)

end Sys2Proof.Machine
end

