-- ==== Sys2Proof/Machine/Operands.lean ====
section
/-! DEFINITION. What an instruction needs before its effect, in the order of R98, R14, R23 and R13: the unit its core must
have, the registers it reads and writes, the counters it raises; and the operand forms shared by the families. -/

namespace Sys2Proof.Machine

open Sys2Proof

/-- What an instruction needs: the cause of R98 if its core lacks a unit, the registers it reads in the order of the poison
check (0 to 31 x, 32 to 63 v), those it writes, and whatever else holds its issue. -/
structure Need where
  lack : Option Nat := none
  reads : List Nat := []
  writes : List Nat := []
  hold : Bool := false

/-- The number of an x or v register in checks. -/
def xr (r : Reg) : Nat := r.toNat
def vr (r : Reg) : Nat := 32 + r.toNat

/-- A pending register that the instruction reads or writes holds its issue (R14). -/
def Need.pending (n : Need) (sl : Slot) : Bool := (n.reads ++ n.writes).any sl.pendingAt

/-- The first poisoned register that the instruction reads, with its kind (R13): of several, the one named first in ra, rb,
rd (log 79). -/
def Need.poisoned (n : Need) (sl : Slot) : Option (Nat × BitVec 2) :=
  n.reads.findSome? (fun r => (sl.poisonAt r).map (fun k => (r, k)))

/-- Issue an instruction (R98, R119, R144, R171, R218, R238): the unit, then the stalls, then poison, then `k`. -/
def issue (i : Instr) (n : Need) (k : State → Out) (s : State) : Out :=
  match n.lack with
  | some cause => s.trap cause (wordOf i)
  | none =>
    if n.hold || n.pending s.slot then .next s.stall
    else
      match n.poisoned s.slot with
      | some (r, kind) => s.trap (0x0C0 + kind.toNat) (BitVec.ofNat 64 r)
      | none => k s

/-- Nothing stands in the way of an instruction with these needs: its core has the unit, no register it names is pending,
none it reads is poisoned. -/
def ready (n : Need) (s : State) : Bool :=
  n.lack.isNone && !n.hold && !n.pending s.slot && (n.poisoned s.slot).isNone

/-- Instructions of the vector unit trap with 0x003 on a streamer core (R98). -/
def vecLack (s : State) : Option Nat := if isStreamer s.cur.1 then some 3 else none

/-- The value of an instruction written to xd, and nothing else (R119). -/
def writeX (i : Instr) (n : Need) (d : Reg) (f : Slot → Word) (s : State) : Out :=
  issue i { n with writes := [xr d] } (fun s => .next (s.setX d (f s.slot)).retire) s

/-- Sign extension of a field to 64 bits (R102). -/
def sx {w : Nat} (v : BitVec w) : Word := v.signExtend 64
def zx {w : Nat} (v : BitVec w) : Word := v.setWidth 64

/-- The wait field: 0 none, 1 `.c`, 2 `.p`, 3 `.x` (R101, Table 03-3). -/
def waits (w : BitVec 2) (sl : Slot) : Bool :=
  (decide (1 ≤ w.toNat) && decide (sl.stc ≠ 0)) || (decide (2 ≤ w.toNat) && decide (sl.stp ≠ 0)) ||
    (decide (3 ≤ w.toNat) && decide (sl.stx ≠ 0))

/-- Topology checks of an access or send to another module (R367), or none for the own one. -/
def State.peerCause (s : State) (peer : Peer) : Option Nat :=
  if peer = s.part.peer then none else
  let e := (AMap.get s.peers peer.toNat).getD 0
  let st := e.toNat / 32
  if st = 0 then some 0x144 else if st = 1 then some 0x142 else if st = 2 then some 0x143
  else if s.slot.tgenx ≠ s.job.tgen then some 0x140
  else if e.getLsbD 4 = false ∧ e.getLsbD 3 = false then some 0x141 else none

/-- The topology checks name the destination peer (R367). -/
def peerWord (p : Peer) : Word := p.setWidth 64

/-- The stall of R61, then the checks of R367, then `k`. -/
def toPeer (peer : Peer) (t : Word) (k : State → Out) (s : State) : Out :=
  if peer ≠ s.part.peer ∧ (s.coreAt s.cur.1).hold then .next s.stall
  else match s.peerCause peer with
    | some cause => s.trap cause t
    | none => k s

/-- `toPeer` for every module to which the issue step sends something. -/
def toPeers (t : Word) (k : State → Out) : List Peer → State → Out
  | [], s => k s
  | p :: r, s => toPeer p t (fun s => toPeers t k r s) s

/-- A hold notice has reached the core and the issue step would send something to another module: it stalls (R61). -/
def State.heldBack (s : State) (l : List Peer) : Bool := (s.coreAt s.cur.1).hold && l.any (fun p => decide (p ≠ s.part.peer))

/-- A register `i` places after another. -/
def regAfter (r : Reg) (i : Nat) : Reg := BitVec.ofNat 5 (r.toNat + i)

end Sys2Proof.Machine
end

