-- ==== Sys2Proof/Machine/Async.lean ====
section
/-! DEFINITION. Delivery at an instruction boundary: pending asynchronous causes (R329, R330), the words that name no
instruction (R98), and when issue is stopped by a gang switch (R339, R340). -/

namespace Sys2Proof.Machine

open Sys2Proof

/-- The PC lies in the 4 KiB from `TVEC` upwards (R330). -/
def Slot.inVector (sl : Slot) : Bool := decide ((sl.pc - sl.tvec).toNat < 4096)

/-- A pending asynchronous cause may be delivered at this boundary (R330): the instruction at PC has not issued, which an
instruction whose request is with a home, a channel home or the Frieze has (log 20). -/
def Slot.asyncReady (sl : Slot) : Bool :=
  !sl.async.isEmpty && !sl.inVector &&
    match sl.phase with
    | .ready | .stalled | .blocked (.inbox _ _ _) => true
    | _ => false

/-- The lowest-indexed refused entry of a slot and generation that is not delivered yet (R330). -/
def undelivered (l : Nat) (gen : BitVec 16) : AMap JEntry → Option Nat
  | [] => none
  | (n, e) :: t => if e.slot = l ∧ e.gen = gen ∧ e.refused ∧ e.undelivered then some n else undelivered l gen t

/-- The mark that an entry is undelivered taken away. -/
def clearMark (n : Nat) (j : AMap JEntry) : AMap JEntry :=
  match AMap.get j n with
  | some e => AMap.set j n { e with undelivered := false }
  | none => j

/-- ASYNC_CAUSE_DELIVERY: the cause whose refusal reached the core first is taken; `EPC` is the instruction that has not
issued (R329, R330). -/
def execAsyncCauseDelivery (c l : Nat) (s : State) : Out :=
  let sl := s.slotAt c l
  if sl.asyncReady = false ∨ s.stopped then notEnabled "ASYNC_CAUSE_DELIVERY" else
  match sl.async with
  | [] => notEnabled "ASYNC_CAUSE_DELIVERY"
  | .load pa :: t =>
    .next ((s.updSlotAt c l (fun sl => { sl with async := t })).takeTrap c l 0x062 pa sl.pc true 0 pa)
  | .store e0 :: t =>
    let e := (undelivered l sl.gen (s.coreAt c).journal).getD e0
    let s1 := (s.updSlotAt c l (fun sl => { sl with async := t })).updCore c
      (fun k => { k with journal := clearMark e k.journal })
    .next (s1.takeTrap c l 0x060 (BitVec.ofNat 64 e) sl.pc true e (BitVec.ofNat 64 e))

/-- UNDEFINED_INSTRUCTION: the word at PC names no instruction, or a reserved field of it is not zero (R98). -/
def execUndefinedInstruction (w : IWord) (s : State) : Out :=
  match decode w with
  | .ok _ => notEnabled "UNDEFINED_INSTRUCTION"
  | .undefined => s.trap 0x001 (w.setWidth 64)
  | .reserved => s.trap 0x002 (w.setWidth 64)

end Sys2Proof.Machine
end

