-- ==== Sys2Proof/Machine/Translate.lean ====
section
/-! DEFINITION. Address translation (chapter 23): the walk of the four-level tree, leaves and malformed entries, the TLBs, and
`translate` with its checks in the order of Table 23-5, the tree read from its leaves, and the counts of pages (R283). A walk is taken whole in the step that needs it (log 10). -/

namespace Sys2Proof.Machine

open Sys2Proof

/-- What a translated access knows. -/
structure Xl where
  pa : Nat
  e : TlbE
  deriving DecidableEq, Repr

/-- Result of a translation: an address, or a cause with INDEX (R350, R351). -/
inductive XRes where
  | ok (x : Xl)
  | bad (cause index : Nat)
  deriving DecidableEq, Repr

/-- Result of a walk: an entry, or the level and reason of R351. -/
inductive Walked where
  | ok (e : TlbE)
  | bad (level reason : Nat)
  deriving DecidableEq, Repr

/-- Bytes that one entry of a level spans (Table 23-1). -/
def spanOf (level : Nat) : Nat :=
  match level with
  | 0 => 2 ^ 43 | 1 => 2 ^ 30 | 2 => 2 ^ 21 | _ => 2 ^ 16

/-- Index of an address at a level. -/
def indexOf (va level : Nat) : Nat :=
  match level with
  | 0 => bitsOf va 55 43 | 1 => bitsOf va 42 30 | 2 => bitsOf va 29 21 | _ => bitsOf va 20 16

/-- Kinds allowed at a level (Table 23-1). -/
def kindAllowed (level kind : Nat) : Bool :=
  match level with
  | 0 => kind ≤ 1 | 1 => [0, 1, 3, 4, 5].contains kind | 2 => [0, 1, 3, 4, 5].contains kind
  | _ => [0, 2, 5].contains kind

/-- A physical run that lies in one assigned region of a module other than the port region: 0 tile SRAM, 1 HBM, 2 LPDDR6 by
the regions' lengths (Table 14-1). -/
def regionOf (lenH lenL pa len : Nat) : Option Nat :=
  if pa + len ≤ 2 ^ 30 then some 0
  else if hbmBase ≤ pa ∧ pa + len ≤ hbmBase + lenH then some 1
  else if lpBase ≤ pa ∧ pa + len ≤ lpBase + lenL then some 2
  else none

/-- The slab's physical byte for a unit (R348). -/
def slabUnit (frame d0 d1 s1 s2 u : Nat) : Nat :=
  let r := u / d0
  frame + (u % d0 + r % d1 * s1 + r / d1 * s2) * 2 ^ 16

/-- A leaf's words checked by R347 and turned into the entry of one 64 KiB page (R352). -/
def State.leaf (s : State) (va level w0 w1 w2 w3 : Nat) : Option TlbE :=
  let p := s.part
  let kind := bitsOf w0 63 61
  let span := spanOf level
  let vbase := va / span * span
  let frame := bitsOf w0 51 16 * 2 ^ 16
  let fmt := bitsOf w0 15 8
  let blk := bitsOf fmt 5 4
  let peer : Peer := if kind = 5 then BitVec.ofNat 12 (bitsOf w1 63 52) else p.peer
  let lens : Option (Nat × Nat) :=
    if kind = 5 then (AMap.get s.layouts peer.toNat).map (fun l => (l.flatH + l.withheldH, l.flatL + l.withheldL))
    else some (p.flatH + p.withH, p.flatL + p.withL)
  let win := s.job.sramBase.toNat
  let inWin := decide (win ≤ vbase ∧ vbase < win + 2 ^ 30)
  let d0 := bitsOf w2 63 48
  let d1 := bitsOf w2 47 32
  let len := bitsOf w3 62 48
  let s1 := bitsOf w3 47 24
  let s2 := bitsOf w3 23 0
  let reserved := decide (bitsOf w0 53 52 = 0) && decide (bitsOf w0 7 0 = 0) && decide (bitsOf fmt 7 7 = 0) &&
    (decide (kind = 5) || decide (bitsOf w0 56 56 = 0)) &&
    (decide (kind = 5) || decide (bitsOf w1 63 52 = 0)) && decide (bitsOf w1 5 0 = 0) &&
    (decide (blk ≠ 0) || decide (bitsOf w1 51 6 = 0)) &&
    decide (bitsOf w2 31 26 = 0) && (decide (kind ≠ 5) || decide (bitsOf w2 25 0 = 0)) &&
    (if kind = 4 then decide (bitsOf w3 63 63 = 0) else decide (bitsOf w2 63 32 = 0) && decide (w3 = 0))
  let format := !(decide (8 ≤ bitsOf fmt 3 0) && decide (bitsOf fmt 3 0 ≤ 14)) &&
    (decide (blk = 0) || decide (bitsOf w1 51 6 ≠ 0))
  let flen := if kind = 4 then 2 ^ 16 else span
  let port := decide (portBase ≤ frame) && decide (frame + flen ≤ portEnd)
  let place :=
    match lens with
    | none => false
    | some (lh, ll) =>
      decide (frame % flen = 0) &&
      (if port then
        decide (kind ≠ 4) && decide (bitsOf w0 60 57 = 4) && decide (bitsOf fmt 3 0 = 15) && !inWin
      else
        match regionOf lh ll frame flen with
        | none => false
        | some reg =>
          (if inWin then decide (kind = 2 ∨ kind = 3) && decide (reg = 0) && decide (frame = vbase - win)
            else decide (reg ≠ 0)) &&
          (decide (kind ≠ 4) || (List.range len).all (fun u =>
            decide (regionOf lh ll (slabUnit frame d0 d1 s1 s2 u) (2 ^ 16) = some reg))))
  let slab := decide (kind ≠ 4) || (decide (1 ≤ d0) && decide (1 ≤ d1) && decide (1 ≤ len) && decide (len ≤ span / 2 ^ 16))
  if reserved && format && place && slab then
    let u := (va - vbase) / 2 ^ 16
    some {
      job := s.job.tag
      page := va / 2 ^ 16
      frame := if kind = 4 then slabUnit frame d0 d1 s1 s2 u else frame + u * 2 ^ 16
      r := decide (bitsOf w0 60 60 = 1), w := decide (bitsOf w0 59 59 = 1), x := decide (bitsOf w0 58 58 = 1)
      sealed := decide (bitsOf w0 57 57 = 1), move := decide (kind = 5 ∧ bitsOf w0 56 56 = 1)
      fmt := BitVec.ofNat 8 fmt, scale := bitsOf w1 51 6 * 64, peer := peer
      leafVa := if kind = 4 then vbase + u / d0 * d0 * 2 ^ 16 else vbase
      leafLen := if kind = 4 then min d0 (len - u / d0 * d0) * 2 ^ 16 else span
      spanVa := vbase }
  else none

/-- The walk from a table at a level (R345): one entry per level, the first that is not a pointer ends it. An entry that its
home refuses to read ends it as a malformed one does (log 75). -/
def State.walkFrom (s : State) (va : Nat) : Nat → Nat → Nat → Walked
  | 0, level, _ => .bad level 2
  | fuel + 1, level, table =>
    let e := table + 32 * indexOf va level
    let w0 := s.num e 8
    let w1 := s.num (e + 8) 8
    let w2 := s.num (e + 16) 8
    let w3 := s.num (e + 24) 8
    let kind := bitsOf w0 63 61
    if (s.refusesAt ((s.homeOf e).getD 0) s.job.tag e).isSome then .bad level 2
    else if kind = 0 then .bad level 0
    else if kindAllowed level kind = false then .bad level 2
    else if kind = 1 then
      (if bitsOf w0 60 52 = 0 ∧ bitsOf w0 9 0 = 0 ∧ w1 = 0 ∧ w2 = 0 ∧ w3 = 0 then
        s.walkFrom va fuel (level + 1) (bitsOf w0 51 10 * 1024)
      else .bad level 2)
    else
      match s.leaf va level w0 w1 w2 w3 with
      | none => .bad level 2
      | some l =>
        if kind = 4 ∧ bitsOf w3 62 48 ≤ (va % spanOf level) / 2 ^ 16 then .bad level 1 else .ok l

def State.walk (s : State) (va : Nat) : Walked := s.walkFrom va 4 0 s.job.ptroot

/-- A page number lies in a range. -/
def inRange (base len : Word) (page : Nat) : Bool :=
  decide (base.toNat / 2 ^ 16 ≤ page) && decide (page < (base.toNat + len.toNat) / 2 ^ 16)

/-- Look an entry of a job up in a TLB; the one found becomes the most recent (R352). -/
def tlbFind (job : BitVec 16) (page : Nat) (l : List TlbE) : Option (TlbE × List TlbE) :=
  (takeFirst (fun e => decide (e.page = page) && decide (e.job = job)) l).map (fun (e, r) => (e, e :: r))

/-- An entry put into a TLB of `n` places, the least recently used one leaving. -/
def tlbPut (n : Nat) (e : TlbE) (l : List TlbE) : List TlbE := (e :: l.filter (fun f => f.page ≠ e.page ∨ f.job ≠ e.job)).take n

/-- The compute core of a cluster that holds a page's L2 entries (R352). -/
def l2Owner (page : Nat) : Nat := (page ^^^ (page >>> 6)) % 64

/-- The compute core and set of its slice that hold a page's L2 entries: eight sets of four make its 32 entries (R352; log
10). -/
def l2Place (page : Nat) : Nat × Nat := (l2Owner page, Config.l2Set page % 8)

/-- An entry put into its four-way set of the L2 slices (R352; log 10). -/
def l2Put (e : TlbE) (l : List TlbE) : List TlbE :=
  let mine := (l.filter (fun f => l2Place f.page = l2Place e.page ∧ f.page ≠ e.page)).take 3
  e :: mine ++ l.filter (fun f => l2Place f.page ≠ l2Place e.page)

/-- A shootdown of a page has not yet reached a cluster's L2 slices, which may hold its old leaf: they serve no miss on it (R353). -/
def State.shotDown (s : State) (cl page : Nat) : Bool :=
  s.shoots.any (fun x => x.left.contains (.router cl) && inRange x.base x.len page)

/-- The TLB entry of a page for a core: its own TLB, the cluster's L2, or a walk that fills both (R352). -/
def State.lookup (s : State) (c : Nat) (va : Nat) (fetch : Bool) : State × Walked :=
  let page := va / 2 ^ 16
  let core := s.coreAt c
  let putL1 (s : State) (e : TlbE) : State :=
    s.updCore c (fun k => if fetch then { k with itlb := tlbPut 16 e k.itlb } else { k with dtlb := tlbPut 32 e k.dtlb })
  match tlbFind s.job.tag page (if fetch then core.itlb else core.dtlb) with
  | some (e, _) => (putL1 s e, .ok e)
  | none =>
    let cl := clusterOf (tileOf c)
    let found := if isGateway c ∨ s.shotDown cl page then none else tlbFind s.job.tag page (s.clusterAt cl).l2
    match found with
    | some (e, _) => (putL1 s e, .ok e)
    | none =>
      match s.walk va with
      | .ok e =>
        let s1 := if isGateway c then s else s.updCluster cl (fun k => { k with l2 := l2Put e k.l2 })
        (putL1 s1 e, .ok e)
      | .bad l r => (s, .bad l r)

/-- The replica of a sealed page of this module (by its frame number) on a die, if Armature has made one (R282). -/
def State.replica (s : State) (page die : Nat) : Option Nat :=
  match s.pages.find? (fun p => p.page = page) with
  | some p => (p.replicas.find? (fun r => r.1 = die)).map (·.2)
  | none => none

/-- Kinds of translation: a read that may use a replica, a write, an instruction fetch, a read of the home itself. -/
inductive AccKind where
  | read | write | exec | home
  deriving DecidableEq, Repr

/-- `translate(va, kind)` of a core, the checks in the order of Table 23-5. -/
def State.translate (s : State) (c : Nat) (va : Word) (kind : AccKind) : State × XRes :=
  let a := va.toNat
  let win := s.job.sramBase.toNat
  if a / 2 ^ 56 ≠ 0 then (s, .bad 0x040 (4 * 4096))
  else if win ≤ a ∧ a < win + 2 ^ 30 ∧ s.part.tileLive ((a - win) / 2 ^ 20) = false then (s, .bad 0x040 (3 * 4096))
  else
    match s.lookup c a (kind = .exec) with
    | (_, .bad l r) => (s, .bad 0x040 (r * 4096 + l * 256))
    | (s1, .ok e) =>
      let refused := match kind with
        | .read => !e.r
        | .home => !e.r
        | .write => !e.w
        | .exec => !e.x
      if refused then (s1, .bad 0x041 0)
      else if kind = .write ∧ e.sealed then (s1, .bad 0x042 0)
      else
        let frame :=
          if kind = .read ∧ e.sealed ∧ e.peer = s.part.peer then (s.replica (e.frame / 2 ^ 16) (dieOf (tileOf c))).getD e.frame else e.frame
        (s1, .ok { pa := frame + a % 2 ^ 16, e := e })

/-- The home of a translated address, on the module that holds it (R275, R349). -/
def State.xlHome (s : State) (x : Xl) : Nat :=
  if x.e.peer = s.part.peer then (s.homeOf x.pa).getD 0
  else ((AMap.get s.layouts x.e.peer.toNat).bind (fun l => layoutHome l s.job.tag x.pa)).getD 0

/-- A task that Armature does not move (R270). -/
def State.pinned (s : State) (c l : Nat) : Bool :=
  let sl := s.slotAt c l
  isStreamer c || sl.task.pinned || sl.h.toList.any (fun h => h.kind = .recv) ||
    (s.tileAt (tileOf c)).leases.any (fun e => !e.engine && decide (e.core = c) && decide (e.slot = l) && decide (e.gen = sl.gen))

/-- The access of the slot in hand is to move its task: its translation carries the move flag, the task is not pinned, and no
attempt to find it a slot has failed at this instruction (R270, R285). -/
def State.mustMove (s : State) (x : Xl) : Bool :=
  x.e.move && decide (x.e.peer ≠ s.part.peer) && !s.pinned s.cur.1 s.cur.2 && decide (s.slot.task.stay ≠ some s.slot.pc)

/-- The access waits at issue, for Armature to move its task to the page (R270; log 91). -/
def State.awaitMove (s : State) (x : Xl) : State :=
  s.stall.upd (fun sl => { sl with task := { sl.task with move := some (x.e.peer, x.pa) } })

/-- An access to a translated page: it waits for its task to be moved, or the stall of R61 and the checks of R367 come first. -/
def toPage (x : Xl) (k : State → Out) (s : State) : Out :=
  if s.mustMove x then .next (s.awaitMove x) else toPeer x.e.peer (peerWord x.e.peer) k s

/-- Translate an address of the instruction in hand: a failure traps with `TVAL` = the address, and changes nothing else. -/
def withXl (va : Word) (kind : AccKind) (k : Xl → State → Out) (s : State) : Out :=
  match s.translate s.cur.1 va kind with
  | (_, .bad cause index) => s.trapIdx cause index va
  | (s1, .ok x) => k x s1

/-- A region of a slice without program access, or the trailing B slot written during a sweep (R33, R38). -/
def State.denied (s : State) (x : Xl) (len : Nat) (write : Bool) : Bool :=
  decide (x.e.peer = s.part.peer) && decide (x.pa < 2 ^ 30) &&
    (noAccess ((x.pa + len - 1) % 2 ^ 20) ||
      (write && (s.clusterAt (clusterOf (x.pa / 2 ^ 20))).sweep &&
        (decide (0xA0000 ≤ (x.pa + len - 1) % 2 ^ 20) && decide (x.pa % 2 ^ 20 < 0xB0000))))

/-- The name under which a core holds an instruction word: its physical word number, with the module for another one's. -/
def wordKey (own peer : Peer) (pa : Nat) : Nat := (if peer = own then 0 else (peer.toNat + 1) * 2 ^ 50) + pa / 4

/-- What a fetch answers: a word, a precise cause with INDEX and `TVAL`, a home's refusal of the read, or that the word is
still on its way. -/
inductive FetchRes where
  | ok (w : IWord)
  | bad (cause index : Nat) (tval : Word)
  | refused (pa : Nat)
  | later
  deriving DecidableEq, Repr

/-- A word held by a core. -/
def State.holdWord (s : State) (c key : Nat) (w : IWord) : State :=
  s.updCore c (fun k => { k with words := AMap.set k.words key w, asked := AMap.del k.asked key })

/-! ### The tree read from the other side (R345 to R348) -/

/-- Entries of a table of a level (Table 23-1). -/
def entriesOf (level : Nat) : Nat :=
  match level with
  | 0 => 8192 | 1 => 8192 | 2 => 512 | _ => 32

/-- A leaf entry: its job's slot, its address, its level, and the first page (VA / 2^16) of its span. -/
structure LeafAt where
  job : Nat
  addr : Nat
  level : Nat
  page : Nat
  deriving DecidableEq, Repr

/-- The leaf that a walk reaches, well formed or not. -/
def State.leafFrom (s : State) (va : Nat) : Nat → Nat → Nat → Option LeafAt
  | 0, _, _ => none
  | fuel + 1, level, table =>
    let e := table + 32 * indexOf va level
    let w0 := s.num e 8
    let kind := bitsOf w0 63 61
    if kind = 0 ∨ kindAllowed level kind = false then none
    else if kind = 1 then s.leafFrom va fuel (level + 1) (bitsOf w0 51 10 * 1024)
    else some { job := s.jslot, addr := e, level := level, page := va / spanOf level * spanOf level / 2 ^ 16 }

/-- The leaf that maps an address, if the walk finds one. -/
def State.leafOf (s : State) (va : Nat) : Option LeafAt :=
  match s.walk va with
  | .ok _ => s.leafFrom va 4 0 s.job.ptroot
  | .bad _ _ => none

/-- The entries of a table that are not zero in their byte 7, which holds KIND (Table 23-3): all others are invalid. -/
def State.entriesIn (s : State) (level table : Nat) : List Nat :=
  ((s.mach.sram ++ s.dram).filter (fun c =>
    decide (table ≤ c.1) && decide (c.1 < table + 32 * entriesOf level) && decide ((c.1 - table) % 32 = 7))).map
    (fun c => (c.1 - table) / 32)

/-- Every leaf below a table of a job. -/
def State.leavesFrom (s : State) (j : Nat) : Nat → Nat → Nat → Nat → List LeafAt
  | 0, _, _, _ => []
  | fuel + 1, level, table, base =>
    ((s.entriesIn level table).map (fun i =>
      let e := table + 32 * i
      let w0 := s.num e 8
      let kind := bitsOf w0 63 61
      let va := base + i * spanOf level
      if kind = 0 ∨ kindAllowed level kind = false then []
      else if kind = 1 then s.leavesFrom j fuel (level + 1) (bitsOf w0 51 10 * 1024) va
      else [{ job := j, addr := e, level := level, page := va / 2 ^ 16 }])).flatten

/-- The leaves of a job's tree, and of the trees of all jobs that the module holds. -/
def State.leavesOf (s : State) (j : Nat) : List LeafAt := s.leavesFrom j 4 0 (s.jobAt j).ptroot 0
def State.leaves (s : State) : List LeafAt := (s.jobs.map (fun j => s.leavesOf j.1)).flatten

/-- KIND, FRAME and HINT of a leaf as it stands in memory (Table 23-3). -/
def State.leafKind (s : State) (l : LeafAt) : Nat := bitsOf (s.num l.addr 8) 63 61
def State.leafFrame (s : State) (l : LeafAt) : Nat := bitsOf (s.num l.addr 8) 51 16
def State.leafHint (s : State) (l : LeafAt) : Nat := bitsOf (s.num l.addr 8) 55 54

/-- The frames of this module that a leaf maps: first frame number and how many, run by run. -/
def State.leafRuns (s : State) (l : LeafAt) : List (Nat × Nat) :=
  let f := s.leafFrame l
  match s.leafKind l with
  | 2 => [(f, 1)]
  | 3 => [(f, spanOf l.level / 2 ^ 16)]
  | 4 =>
    let w2 := s.num (l.addr + 16) 8
    let w3 := s.num (l.addr + 24) 8
    (List.range (bitsOf w3 62 48)).map (fun u =>
      (slabUnit (f * 2 ^ 16) (bitsOf w2 63 48) (bitsOf w2 47 32) (bitsOf w3 47 24) (bitsOf w3 23 0) u / 2 ^ 16, 1))
  | _ => []

/-- A frame lies in one of some runs. -/
def inRuns (l : List (Nat × Nat)) (f : Nat) : Bool := l.any (fun r => decide (r.1 ≤ f) && decide (f < r.1 + r.2))

/-- The number of the record that holds a leaf's counts: a page's is its frame's, a block or slab has one of its own (R283, Table
23-4). -/
def State.recKey (s : State) (l : LeafAt) : Nat := if s.leafKind l = 2 then s.leafFrame l else 2 ^ 40 + l.addr / 32

/-! ### Placement counts (R283) -/

def PageRec.fresh (n : Nat) : PageRec :=
  { page := n, dies := [0, 0, 0, 0], peers := [], movedAt := none, replicas := [], flags := [], idx := none }

def State.pageRec (s : State) (n : Nat) : PageRec := (s.pages.find? (fun p => p.page = n)).getD (PageRec.fresh n)

def State.setPage (s : State) (r : PageRec) : State :=
  { s with pages := s.pages.filter (fun p => p.page ≠ r.page) ++ [r] }

/-- The compute die of a party: a copy streamer beside an HBM slice is on that slice's die; none for gateways, the streamers
beside LPDDR6 slices and Equinox. -/
def dieOfAgent : Agent → Option Nat
  | .core c => if isGateway c then none else some (dieOf (tileOf c))
  | .engine e =>
    if e < 4096 then some (dieOf (e / 4)) else if e - 4096 < 1280 then some ((e - 4096 - 1024) / 64) else none
  | _ => none

/-- `n` added to a peer's count, under the tag of the smallest count where the peer has none (R283). -/
def addPeer (p : Peer) (n : Nat) (l : List (Peer × Nat)) : List (Peer × Nat) :=
  if l.any (fun e => e.1 = p) then l.map (fun e => if e.1 = p then (p, satAdd 16 e.2 n) else e)
  else if l.length < 4 then l ++ [(p, min n 65535)]
  else
    let m := l.foldl (fun m e => min m e.2) 65535
    match takeFirst (fun (e : Peer × Nat) => decide (e.2 = m)) l with
    | some (_, r) => r ++ [(p, min n 65535)]
    | none => l

/-- The frame in which the page of a frame lies now: a migration that has switched has moved its counts on (R288). -/
def State.frameNow (s : State) (f : Nat) : Nat :=
  match s.migrations.find? (fun m => m.switched && decide (m.old = f) && decide (m.peer = s.part.peer)) with
  | some m => m.new
  | none => f

/-- The frame of the page that an access is counted for: a replica's is its page's (R282, R283). -/
def State.countedFrame (s : State) (f : Nat) : Nat :=
  match s.pages.find? (fun p => p.replicas.any (fun r => r.2 = f * 2 ^ 16)) with
  | some p => p.page
  | none => s.frameNow f

/-- The record in which an access to a frame is counted: that of a block or slab that maps it, else its own (R283; log 45). -/
def State.countKey (s : State) (f : Nat) : Nat :=
  match s.leaves.find? (fun l => (s.leafKind l = 3 || s.leafKind l = 4) && inRuns (s.leafRuns l) f) with
  | some l => s.recKey l
  | none => f

/-- Accesses counted for the page of a physical address of this module's memory (R283). -/
def State.countPage (s : State) (pa : Nat) (src : Place) (n : Nat) : State :=
  if pa < 2 ^ 30 ∨ portBase ≤ pa then s
  else
    let r := s.pageRec (s.countKey (s.countedFrame (pa / 2 ^ 16)))
    if src.peer ≠ s.part.peer then s.setPage { r with peers := addPeer src.peer n r.peers }
    else
      match dieOfAgent src.agent with
      | none => s
      | some d => s.setPage { r with dies := r.dies.mapIdx (fun i v => if i = d then satAdd 16 v n else v) }

/-- A `pref` weighed, here or, for a page that has moved to another module by a migration not yet drained, there: its counts have
travelled with it (R164, R283, R288). -/
def State.countPref (s : State) (pa : Nat) (src : Place) : State :=
  match s.migrations.find? (fun m => m.switched && decide (m.old = pa / 2 ^ 16) && decide (m.peer ≠ s.part.peer)) with
  | some m => s.post .armature { peer := m.peer, agent := .armature } 1 (.prefCount (m.new * 2 ^ 16 + pa % 2 ^ 16) src) 0 0
  | none => s.countPage pa src 16

/-! ### Fetching (R97, R138, R244) -/

/-- A word of this module read at its home (R97): the aligned one, whatever the low two bits of `PC` (log 31). -/
def State.freshWord (s : State) (pa : Nat) : IWord := BitVec.ofNat 32 (s.num (pa / 4 * 4) 4)

/-- A word asked of its home as a load of 4 bytes there, for slot `l` (R244, R349): in the core's pair queue behind its earlier
accesses to that home, or for its own slice in the home's perform queue (R47, R49). -/
def State.askWord (s : State) (c l : Nat) (x : Xl) (key : Nat) : State :=
  let n := (s.coreAt c).askNext
  let h := s.xlHome x
  let p : Packet := { body := .load (x.pa / 4 * 4) 4 (.word key n), src := s.here (.core c), job := s.job.tag, slot := l
                      gen := (s.slotAt c l).gen }
  let s1 := s.updCore c (fun k => { k with asked := AMap.set k.asked key n, askNext := n + 1 })
  if s.isLocal c h x.e.peer then s1.updHome h (fun q => { q with q := enterLocal s.part.peer h p q.q })
  else s1.append { src := s.here (.core c), dst := { peer := x.e.peer, agent := .home h }, cls := 4 } p

/-- A frame of this module from which a page has moved: its old home forwards what names it (R58). -/
def State.movedFrom (s : State) (frame : Nat) : Bool := s.migrations.any (fun m => m.switched && decide (m.old = frame))

/-- A load of a core at a home of this module would be performed before anything else: nothing of the core is on its way there,
nothing waits at the home, and no page that has moved is in question (R47 to R49, R58). -/
def State.clearWay (s : State) (c h pa : Nat) : Bool :=
  let q := s.homeAt h
  (netGet s.mach.net { src := s.here (.core c), dst := s.here (.home h), cls := 4 }).isEmpty && q.q.isEmpty &&
    q.draining.isEmpty && q.far.isEmpty && q.heldDirect.isEmpty && !s.movedFrom (pa / 2 ^ 16)

/-- Fetch a word that the core does not hold: as a load of 4 bytes performed at its home (R97, R244). A home of this module to
which the way is clear answers at once, and counts the read (R283); any other is asked once, and one of another module after the stall of R61 and the checks of
R367 (log 75). -/
def State.fetchNew (s : State) (c l : Nat) (x : Xl) (key : Nat) : State × FetchRes :=
  if x.e.peer = s.part.peer ∧ s.clearWay c (s.xlHome x) x.pa then
    match s.refusesAt (s.xlHome x) s.job.tag x.pa with
    | some _ => (s, .refused x.pa)
    | none => ((s.holdWord c key (s.freshWord x.pa)).countPage x.pa (s.here (.core c)) 1, .ok (s.freshWord x.pa))
  else if (AMap.get (s.coreAt c).asked key).isSome then (s, .later)
  else if x.e.peer = s.part.peer then (s.askWord c l x key, .later)
  else if (s.coreAt c).hold then (s, .later)
  else
    match s.peerCause x.e.peer with
    | some cause => (s, .bad cause 0 (peerWord x.e.peer))
    | none => (s.askWord c l x key, .later)

/-- Fetch the word at an address for the slot in hand (R97, R138): through the I-TLB with execute permission. A word that the
core holds may be returned though memory no longer has it, or be fetched anew (log 7). One of another module's page with the move
flag is fetched after its task has moved there (R270, R285). -/
def State.fetch (s : State) (c : Nat) (pc : Word) : State × FetchRes :=
  match s.translate c pc .exec with
  | (s1, .bad cause index) => (s1, .bad cause index pc)
  | (s1, .ok x) =>
    let key := wordKey s.part.peer x.e.peer x.pa
    let anew (s : State) : State × FetchRes := if s.mustMove x then (s.awaitMove x, .later) else s.fetchNew c s.cur.2 x key
    match AMap.get (s.coreAt c).words key with
    | none => anew s1
    | some old =>
      if x.e.peer = s.part.peer ∧ s.movedFrom (x.pa / 2 ^ 16) = false ∧ old = s.freshWord x.pa then (s1, .ok old)
      else if Config.choice s.free % 2 = 0 then ({ s1 with free := s1.free + 1 }, .ok old)
      else anew { s1 with free := s1.free + 1 }

/-- A core takes a word into its prefetch (R97, R244): what it cannot read, or has, or has asked for, it leaves. -/
def State.prefetch (s : State) (c : Nat) (va : Word) : State :=
  match s.translate c va .exec with
  | (s1, .bad _ _) => s1
  | (s1, .ok x) =>
    let key := wordKey s.part.peer x.e.peer x.pa
    if (AMap.get (s.coreAt c).words key).isSome then s1 else (s1.fetchNew c s.cur.2 x key).1

end Sys2Proof.Machine
end

