-- ==== Sys2Proof/Machine/Address.lean ====
section
/-! DEFINITION. Address arithmetic, major 0x0C (R132 to R137). -/

namespace Sys2Proof.Machine

open Sys2Proof

/-- `lea`: X[xa] + X[xb] × 2^s (R133). -/
def execLea (d a b : Reg) (sc : BitVec 3) (s : State) : Out :=
  writeX (.lea d a b sc) { reads := [xr a, xr b] } d (fun sl => sl.rx a + (sl.rx b <<< sc.toNat)) s

/-- `gaform`: the window address of a tile and an offset (R134). -/
def execGaform (d a b : Reg) (s : State) : Out :=
  let base := s.job.sramBase
  writeX (.gaform d a b) { reads := [xr a, xr b] } d
    (fun sl => base + ((sl.rx a &&& 0x3FF) <<< 20) + (sl.rx b &&& 0xFFFFF)) s

/-- `gatile`: the tileindex of a window address, or all ones (R135). -/
def execGatile (d a : Reg) (s : State) : Out :=
  let base := s.job.sramBase
  writeX (.gatile d a) { reads := [xr a] } d (fun sl =>
    if base.toNat ≤ (sl.rx a).toNat ∧ (sl.rx a).toNat < base.toNat + 2 ^ 30 then ((sl.rx a - base) >>> 20) &&& 0x3FF
    else BitVec.allOnes 64) s

/-- `padd`: the slice-local add, wrapping at 1 MiB (R136). -/
def execPadd (d a b : Reg) (s : State) : Out :=
  writeX (.padd d a b) { reads := [xr a, xr b] } d
    (fun sl => (sl.rx a &&& ~~~0xFFFFF#64) ||| ((sl.rx a + sl.rx b) &&& 0xFFFFF)) s

/-- The distance that `gahome` reports: 0 own tile, else the class of R24. -/
def State.dist (s : State) (c home : Nat) (peer : Peer) : Nat :=
  if s.isLocal c home peer then 0 else s.distance c home peer

/-- `gahome`: the home of an address and its distance (R137, Table 07-8); it performs no access. -/
def execGahome (d a : Reg) (s : State) : Out :=
  issue (.gahome d a) { reads := [xr a], writes := [xr d] } (fun s =>
    withXl (s.slot.rx a) .home (fun x s1 =>
      let h := s.xlHome x
      let v := s.dist s.cur.1 h x.e.peer * 2 ^ 28 + x.e.peer.toNat * 2 ^ 16 + h
      .next (s1.setX d (BitVec.ofNat 64 v)).retire) s) s

end Sys2Proof.Machine
end

