-- ==== Sys2Proof/Machine/Memory.lean ====
section
/-! DEFINITION. Loads, stores, full/empty access and ring queues at issue (R144 to R151): the checks in the order of R144,
the journal, and what enters a perform queue or a pair queue. -/

namespace Sys2Proof.Machine

open Sys2Proof

/-- Counters raised (R23). -/
def Slot.upLd (sl : Slot) : Slot := { sl with cntld := sl.cntld + 1 }

/-- The address of the M form: X[ra] + sext(off11) × s (R148). -/
def offAddr (sl : Slot) (a : Reg) (o : BitVec 11) (size : Nat) : Word := sl.rx a + sx o * BitVec.ofNat 64 size

/-- The lowest free journal entry of a core (R25). -/
def freeEntry (j : AMap JEntry) : Option Nat := (List.range 32).find? (fun n => (AMap.get j n).isNone)

/-- Translate a data access of `len` bytes, then the regions of the slice (R33, R38), then the ways to another module. -/
def withAccess (va : Word) (len : Nat) (write : Bool) (k : Xl → State → Out) (s : State) : Out :=
  withXl va (if write then .write else .read) (fun x s1 =>
    if s.denied x len write then s.trap 0x041 va
    else toPage x (fun _ => k x s1) s) s

/-- A load that has passed its checks: xd pending, `CNTLD` raised, the request on its way (R148). -/
def State.sendLoad (s : State) (x : Xl) (d : Reg) (b : Body) : State :=
  (s.upd (fun sl => (sl.upLd).pendX d true)).access (s.xlHome x) x.e.peer b

/-- A load of `size` bytes into xd (R148). -/
def loadForm (i : Instr) (reads : List Nat) (w : BitVec 2) (d : Reg) (sgn : Bool) (size : Nat) (va : Slot → Word)
    (s : State) : Out :=
  issue i { reads := reads, writes := [xr d], hold := waits w s.slot || decide (63 ≤ s.slot.cntld) } (fun s =>
    let va := va s.slot
    if va.toNat % size ≠ 0 then s.trap 0x043 va
    else withAccess va size false (fun x s1 =>
      .next (s1.sendLoad x d (.load x.pa size (.xreg d sgn size))).retire) s) s

/-- A journalled or local write that has passed its checks (R145): its counters, its entry if it is remote, and the request
on its way; nothing where a remote one finds no free entry (R25). -/
def State.putStore (s : State) (x : Xl) (kind : WKind) (len : Nat) (data : VWord) : Option State :=
  let c := s.cur.1
  let h := s.xlHome x
  if s.isLocal c h x.e.peer then
    some ((s.upd (fun sl => { sl with cntst := sl.cntst + 1 })).access h x.e.peer (.store kind x.pa len data none))
  else
    (freeEntry (s.coreAt c).journal).map (fun e =>
      let cls := s.distance c h x.e.peer
      let je : JEntry := { slot := s.cur.2, gen := s.slot.gen, home := h, peer := x.e.peer, cls := cls, pa := x.pa
                           len := len, data := data, kind := kind, refused := false, reason := 0, undelivered := false }
      let s1 := s.upd (fun sl => { sl with
        cntst := sl.cntst + 1
        stc := if cls = 1 then sl.stc + 1 else sl.stc
        stp := if cls = 2 then sl.stp + 1 else sl.stp
        stx := if cls = 3 then sl.stx + 1 else sl.stx })
      let s2 := s1.updCore c (fun q => { q with journal := AMap.set q.journal e je })
      s2.access h x.e.peer (.store kind x.pa len data (some e)))

/-- The write sent, and the slot goes on; `k` ends the issue of a local one. With no free entry the slot stalls (R25). -/
def State.sendStore (s : State) (x : Xl) (kind : WKind) (len : Nat) (data : VWord) (k : State → State) : Out :=
  match s.putStore x kind len data with
  | none => .next s.stall
  | some t => if s.isLocal s.cur.1 (s.xlHome x) x.e.peer then .next (k t) else .next t.retire

/-- A store of `size` bytes (R148). Its journal entry keeps the whole of X[rs] (R165; log 78). -/
def storeForm (i : Instr) (reads : List Nat) (w : BitVec 2) (src : Reg) (size : Nat) (va : Slot → Word) (s : State) : Out :=
  issue i { reads := reads, hold := waits w s.slot || decide (63 ≤ s.slot.cntst) } (fun s =>
    let va := va s.slot
    if va.toNat % size ≠ 0 then s.trap 0x043 va
    else withAccess va size true (fun x s1 =>
      s1.sendStore x .st size ((s.slot.rx src).setWidth 512) State.retire) s) s

/-- Size in bytes of a size field. -/
def sizeOf (z : Nat) : Nat := 2 ^ z

/-- `ld` (R148). -/
def execLd (d a : Reg) (w : BitVec 2) (z : BitVec 3) (o : BitVec 11) (s : State) : Out :=
  loadForm (.ld d a w z o) [xr a] w d false (sizeOf z.toNat) (fun sl => offAddr sl a o (sizeOf z.toNat)) s

/-- `ld.s` (R148). -/
def execLdS (d a : Reg) (w : BitVec 2) (z : BitVec 3) (o : BitVec 11) (s : State) : Out :=
  loadForm (.ldS d a w z o) [xr a] w d true (sizeOf z.toNat) (fun sl => offAddr sl a o (sizeOf z.toNat)) s

/-- `st` (R148). -/
def execSt (r a : Reg) (w : BitVec 2) (z : BitVec 3) (o : BitVec 11) (s : State) : Out :=
  storeForm (.st r a w z o) [xr a, xr r] w r (sizeOf z.toNat) (fun sl => offAddr sl a o (sizeOf z.toNat)) s

/-- Indexed `ld`: [xa + xb] without scaling (R148). -/
def execLdIndexed (d a b : Reg) (w : BitVec 2) (z : BitVec 3) (s : State) : Out :=
  loadForm (.ldIndexed d a b w z) [xr a, xr b] w d false (sizeOf z.toNat) (fun sl => sl.rx a + sl.rx b) s

/-- Indexed `ld.s` (R148). -/
def execLdSIndexed (d a b : Reg) (w : BitVec 2) (z : BitVec 3) (s : State) : Out :=
  loadForm (.ldSIndexed d a b w z) [xr a, xr b] w d true (sizeOf z.toNat) (fun sl => sl.rx a + sl.rx b) s

/-- Indexed `st` (R148). -/
def execStIndexed (r a b : Reg) (w : BitVec 2) (z : BitVec 3) (s : State) : Out :=
  storeForm (.stIndexed r a b w z) [xr a, xr b, xr r] w r (sizeOf z.toNat) (fun sl => sl.rx a + sl.rx b) s

/-- A translated full/empty access must lie in the SRAM window (R149). -/
def inWindow (x : Xl) (peer : Peer) : Bool := decide (x.e.peer = peer) && decide (x.pa < 2 ^ 30)

/-- `ld.fe`: a local one blocks the slot until it has been performed (R47, R149). Either form is translated as R148's load
is, as a read (log 76). -/
def feLoad (i : Instr) (reads : List Nat) (w : BitVec 2) (d : Reg) (take : Bool) (size : Nat) (va : Slot → Word)
    (s : State) : Out :=
  issue i { reads := reads, writes := [xr d], hold := waits w s.slot || decide (63 ≤ s.slot.cntld) } (fun s =>
    let va := va s.slot
    if va.toNat % size ≠ 0 then s.trap 0x043 va
    else withXl va .read (fun x s1 =>
      if inWindow x s.part.peer = false then s.trap 0x044 va
      else if s.denied x size false then s.trap 0x041 va
      else
        let s2 := (s1.sendLoad x d (.ldFe take x.pa size (.xreg d false size))).retire
        if s.isLocal s.cur.1 (s.xlHome x) x.e.peer then .next (s2.upd (fun sl => { sl with phase := .blocked .ldFe }))
        else .next s2) s) s

/-- `st.fe`: a local one holds the slot's next issue, which is Stalled until it has been performed (R26, R149). -/
def feStore (i : Instr) (reads : List Nat) (w : BitVec 2) (src : Reg) (size : Nat) (va : Slot → Word) (s : State) : Out :=
  issue i { reads := reads, hold := waits w s.slot || decide (63 ≤ s.slot.cntst) } (fun s =>
    let va := va s.slot
    if va.toNat % size ≠ 0 then s.trap 0x043 va
    else withXl va .write (fun x s1 =>
      if inWindow x s.part.peer = false then s.trap 0x044 va
      else if s.denied x size true then s.trap 0x041 va
      else s1.sendStore x .stFe size ((s.slot.rx src).setWidth 512)
        (fun s => s.upd (fun sl => { sl with phase := .holding va }))) s) s

/-- `ld.fe.keep` (R149). -/
def execLdFeKeep (d a : Reg) (w z : BitVec 2) (o : BitVec 11) (s : State) : Out :=
  feLoad (.ldFeKeep d a w z o) [xr a] w d false (sizeOf z.toNat) (fun sl => offAddr sl a o (sizeOf z.toNat)) s

/-- `ld.fe.take` (R149). -/
def execLdFeTake (d a : Reg) (w z : BitVec 2) (o : BitVec 11) (s : State) : Out :=
  feLoad (.ldFeTake d a w z o) [xr a] w d true (sizeOf z.toNat) (fun sl => offAddr sl a o (sizeOf z.toNat)) s

/-- `st.fe` (R149). -/
def execStFe (r a : Reg) (w z : BitVec 2) (o : BitVec 11) (s : State) : Out :=
  feStore (.stFe r a w z o) [xr a, xr r] w r (sizeOf z.toNat) (fun sl => offAddr sl a o (sizeOf z.toNat)) s

/-- Indexed `ld.fe.keep` (R149). -/
def execLdFeKeepIndexed (d a b : Reg) (w : BitVec 2) (z : BitVec 3) (s : State) : Out :=
  feLoad (.ldFeKeepIndexed d a b w z) [xr a, xr b] w d false (sizeOf z.toNat) (fun sl => sl.rx a + sl.rx b) s

/-- Indexed `ld.fe.take` (R149). -/
def execLdFeTakeIndexed (d a b : Reg) (w : BitVec 2) (z : BitVec 3) (s : State) : Out :=
  feLoad (.ldFeTakeIndexed d a b w z) [xr a, xr b] w d true (sizeOf z.toNat) (fun sl => sl.rx a + sl.rx b) s

/-- Indexed `st.fe` (R149). -/
def execStFeIndexed (r a b : Reg) (w : BitVec 2) (z : BitVec 3) (s : State) : Out :=
  feStore (.stFeIndexed r a b w z) [xr a, xr b, xr r] w r (sizeOf z.toNat) (fun sl => sl.rx a + sl.rx b) s

/-- `fe.set` and `fe.clr`: counted as a store, no alignment (R150). The bytes that its journal entry says it carries are not
stated: a free value from 1 to 64 (log 19). -/
def feBit (i : Instr) (a b : Reg) (kind : WKind) (s : State) : Out :=
  issue i { reads := [xr a, xr b], hold := decide (63 ≤ s.slot.cntst) } (fun s =>
    let va := s.slot.rx a + s.slot.rx b
    withXl va .write (fun x s1 =>
      if inWindow x s.part.peer = false then s.trap 0x044 va
      else if s.denied x 1 true then s.trap 0x041 va
      else { s1 with free := s1.free + 1 }.sendStore x kind (1 + Config.choice s1.free % 64) 0 State.retire) s) s

/-- `fe.set` (R150). -/
def execFeSet (a b : Reg) (s : State) : Out := feBit (.feSet a b) a b .feSet s

/-- `fe.clr` (R150). -/
def execFeClr (a b : Reg) (s : State) : Out := feBit (.feClr a b) a b .feClr s

/-- A ring queue with nothing in it. -/
def Ring.reset : Ring := { q := [], popAt := none, pushAt := none, fullAt := none }

/-- A ring queue of a tile (R36). -/
def State.ringOf (s : State) (t n : Nat) : Ring := (AMap.get (s.tileAt t).rings n).getD Ring.reset

def State.setRing (s : State) (t n : Nat) (r : Ring) : State :=
  s.updTile t (fun k => { k with rings := AMap.set k.rings n r })

/-- An operation done at `at_` leaves no place in cycle `now` to one of core `c`: it was one of this core or a later one. -/
def tookTurn (at_ : Option (Nat × Nat)) (now c : Nat) : Bool :=
  match at_ with
  | some (t, k) => decide (t = now) && decide (c ≤ k)
  | none => false

/-- The queue has come in this cycle to a point behind the pop of core `c`: to a push, or to the pop of this core or a later one
(R36). -/
def Ring.popLate (r : Ring) (now c : Nat) : Bool := tookTurn r.popAt now c || r.pushAt.any (fun p => decide (p.1 = now))

/-- The queue has come in this cycle to a point behind the push of core `c`: to the push of this core or a later one, or to a
push that found it full, which goes before this one (R36). -/
def Ring.pushLate (r : Ring) (now c : Nat) : Bool := tookTurn r.pushAt now c || decide (r.fullAt = some now)

/-- An own-slice access of the slot in hand that has not been performed (R151). -/
def State.ownPending (s : State) : Bool :=
  ((s.homeAt (tileOf s.cur.1)).q ++ (s.homeAt (tileOf s.cur.1)).waiting).any
    (fun p => decide (p.src = s.here (.core s.cur.1)) && decide (p.slot = s.cur.2) && decide (p.gen = s.slot.gen))

/-- A gateway core has no ring queues (R212). -/
def gateLack (s : State) : Option Nat := if isGateway s.cur.1 then some 5 else none

/-- `qpush`: stalled while the queue is full, or while an earlier own-slice access of the slot is unperformed (R151). A push
that comes behind its place in the cycle's order is tried in the next cycle (R36; log 77). -/
def execQpush (a : Reg) (n : BitVec 5) (s : State) : Out :=
  let t := tileOf s.cur.1
  issue (.qpush a n) { lack := gateLack s, reads := [xr a] } (fun s =>
    let r := s.ringOf t n.toNat
    if s.ownPending ∨ r.pushLate s.now s.cur.1 then .next s.stall
    else if 512 ≤ r.q.length then .next (s.setRing t n.toNat { r with fullAt := some s.now }).stall
    else .next (s.setRing t n.toNat { r with pushAt := some (s.now, s.cur.1), q := r.q ++ [s.slot.rx a] }).retire) s

/-- `qpop`: stalled while the queue is empty; the entry is on its way to xd (R151). A pop that comes behind its place in the
cycle's order is tried in the next cycle (R36; log 77). -/
def execQpop (d : Reg) (n : BitVec 5) (s : State) : Out :=
  let t := tileOf s.cur.1
  issue (.qpop d n) { lack := gateLack s, writes := [xr d], hold := decide (63 ≤ s.slot.cntld) } (fun s =>
    let r := s.ringOf t n.toNat
    if r.popLate s.now s.cur.1 then .next s.stall
    else
      match r.q with
      | [] => .next s.stall
      | v :: q =>
        let s1 := (s.setRing t n.toNat { r with popAt := some (s.now, s.cur.1), q := q }).upd (fun sl => (sl.upLd).pendX d true)
        .next (s1.post (.core s.cur.1) (s.here (.core s.cur.1)) 4 (.value (.xreg d false 8) (v.setWidth 512) none)
          s.cur.2 s.slot.gen).retire) s

end Sys2Proof.Machine
end

