-- ==== Sys2Proof/Machine/Atomics.lean ====
section
/-! DEFINITION. Atomics at issue, majors 0x20 and 0x21 (R152, R153), and the value that each writes at its home. -/

namespace Sys2Proof.Machine

open Sys2Proof

/-- The value written at the home, at a width of `n` bits (Table 08-4). -/
def atomicNew (op : AtOp) (n : Nat) (old b expect : Nat) : Nat :=
  let m := 2 ^ n
  let x := old % m
  let y := b % m
  match op with
  | .add => (x + y) % m
  | .and => x &&& y
  | .or => x ||| y
  | .xor => x ^^^ y
  | .min => if sextInt x n ≤ sextInt y n then x else y
  | .max => if sextInt x n ≥ sextInt y n then x else y
  | .minN => if x ≤ y then x else y
  | .maxN => if x ≥ y then x else y
  | .swap => y
  | .cas => if x = expect % m then y else x

/-- The atomics with a result (R152): translated as a write, tracked by `CNTLD` and the pending xd. -/
def atomicForm (i : Instr) (op : AtOp) (d a b : Reg) (w : BitVec 2) (z : BitVec 3) (s : State) : Out :=
  let reads := if op = .cas then [xr a, xr b, xr d] else [xr a, xr b]
  issue i { reads := reads, writes := [xr d], hold := waits w s.slot || decide (63 ≤ s.slot.cntld) } (fun s =>
    let va := s.slot.rx a
    let size := sizeOf z.toNat
    if va.toNat % size ≠ 0 then s.trap 0x043 va
    else withAccess va size true (fun x s1 =>
      .next (s1.sendLoad x d (.atomic op x.pa size (s.slot.rx b) (s.slot.rx d) (.xreg d true size))).retire) s) s

/-- `aadd` (R152). -/
def execAadd (d a b : Reg) (w : BitVec 2) (z : BitVec 3) (s : State) : Out := atomicForm (.aadd d a b w z) .add d a b w z s

/-- `aand` (R152). -/
def execAand (d a b : Reg) (w : BitVec 2) (z : BitVec 3) (s : State) : Out := atomicForm (.aand d a b w z) .and d a b w z s

/-- `aor` (R152). -/
def execAor (d a b : Reg) (w : BitVec 2) (z : BitVec 3) (s : State) : Out := atomicForm (.aor d a b w z) .or d a b w z s

/-- `axor` (R152). -/
def execAxor (d a b : Reg) (w : BitVec 2) (z : BitVec 3) (s : State) : Out := atomicForm (.axor d a b w z) .xor d a b w z s

/-- `amin` (R152). -/
def execAmin (d a b : Reg) (w : BitVec 2) (z : BitVec 3) (s : State) : Out := atomicForm (.amin d a b w z) .min d a b w z s

/-- `amax` (R152). -/
def execAmax (d a b : Reg) (w : BitVec 2) (z : BitVec 3) (s : State) : Out := atomicForm (.amax d a b w z) .max d a b w z s

/-- `amin.n` (R152). -/
def execAminN (d a b : Reg) (w : BitVec 2) (z : BitVec 3) (s : State) : Out :=
  atomicForm (.aminN d a b w z) .minN d a b w z s

/-- `amax.n` (R152). -/
def execAmaxN (d a b : Reg) (w : BitVec 2) (z : BitVec 3) (s : State) : Out :=
  atomicForm (.amaxN d a b w z) .maxN d a b w z s

/-- `aswap` (R152). -/
def execAswap (d a b : Reg) (w : BitVec 2) (z : BitVec 3) (s : State) : Out :=
  atomicForm (.aswap d a b w z) .swap d a b w z s

/-- `acas` (R152): xd holds the expected value at issue. -/
def execAcas (d a b : Reg) (w : BitVec 2) (z : BitVec 3) (s : State) : Out := atomicForm (.acas d a b w z) .cas d a b w z s

/-- `anadd`: posted, counted as a store (R153). -/
def execAnadd (a b : Reg) (w : BitVec 2) (z : BitVec 3) (s : State) : Out :=
  issue (.anadd a b w z) { reads := [xr a, xr b], hold := waits w s.slot || decide (63 ≤ s.slot.cntst) } (fun s =>
    let va := s.slot.rx a
    let size := sizeOf z.toNat
    if va.toNat % size ≠ 0 then s.trap 0x043 va
    else withAccess va size true (fun x s1 =>
      s1.sendStore x .anadd size ((s.slot.rx b).setWidth 512) State.retire) s) s

end Sys2Proof.Machine
end

