-- ==== Sys2Proof/Machine/ChanOps.lean ====
section
/-! DEFINITION. Ends, messages, inboxes, reorder areas and stubs of a core: what closing an end, dropping a message, taking one
and handing an instance over do (R176 to R187, R289 to R300). -/

namespace Sys2Proof.Machine

open Sys2Proof

/-! ### Places of ends -/

/-- Equinox as a holder of the ends of H: core number 8,191 (R322, R391). -/
def eqxCore : Nat := 8191

/-- The holder of an end as one number: module and core. -/
def locOf (p : Peer) (c : Nat) : Nat := p.toNat * 8192 + c

def locPlace (n : Nat) : Place :=
  { peer := BitVec.ofNat 12 (n / 8192), agent := .core (n % 8192) }

/-- The channel home of an identity (R391). -/
def State.chanHome (s : State) (peer : Peer) (ident : Word) : Place :=
  if peer = s.part.peer then s.here (.home (hashHome s.part ident))
  else
    let t := ((AMap.get s.layouts peer.toNat).map (·.tiles)).getD []
    { peer := peer, agent := .home (t.getD ((mix64 ident).toNat % max 1 t.length) 0) }

/-- The entry of an identity at a home of this module. -/
def State.chanAt (s : State) (ident : Word) : Option Chan :=
  (s.homeAt (hashHome s.part ident)).chans.find? (fun e => e.ident = ident)

/-- The slots of a core that hold something. -/
def State.slotsOf (s : State) (c : Nat) : List (Nat × Slot) :=
  (s.mach.slots.filter (fun e => e.1 / 4 = c)).map (fun e => (e.1 % 4, e.2))

/-- A handle is the send end of an instance. -/
def isInst (h : Handle) (ident : Word) (inst : Nat) : Bool :=
  decide (h.kind = .send) && decide (h.ident = ident) && decide (h.inst = inst)

/-- The send end of an instance at a core: in a register, or with a handler task that waits for its slot. -/
def State.instAt (s : State) (c : Nat) (ident : Word) (inst : Nat) : Option Handle :=
  match (s.slotsOf c).findSome? (fun e => e.2.h.toList.find? (fun h => isInst h ident inst)) with
  | some h => some h
  | none => ((s.coreAt c).runq.map (·.h0)).find? (fun h => isInst h ident inst)

/-- The send end of an instance at a core changed. -/
def State.updInst (s : State) (c : Nat) (ident : Word) (inst : Nat) (f : Handle → Handle) : State :=
  let g (h : Handle) : Handle := if isInst h ident inst then f h else h
  let s1 := (s.slotsOf c).foldl (fun s e => s.updSlotAt c e.1 (fun sl => { sl with h := sl.h.map g })) s
  s1.updCore c (fun k => { k with runq := k.runq.map (fun r => { r with h0 := g r.h0 }) })

/-! ### Sending -/

/-- A message of an instance's stream, sent from a party to the location the handle records (R55, R290). -/
def State.sendOn (s : State) (src : Agent) (h : Handle) (cls : Nat) (kind : MsgKind) (words : Nat)
    (payload : Vector Word 6) (carried : Option Handle) : State :=
  s.post src (locPlace (locOf h.locPeer h.loc)) cls
    (.msg { ident := h.ident, inst := h.inst, gen := h.gen, seq := h.seq, cls := cls, kind := kind, words := words
            payload := payload, carried := carried, src := s.here src, home := h.home, fwd := false }) 0 0

def noPayload : Vector Word 6 := Vector.replicate 6 0

/-- A handle's next sequence (R177). -/
def bumpSeq (h : Handle) : Handle := { h with seq := h.seq + 1 }

/-- The credit of a message goes back to its sender (R179); markers and events used none. -/
def State.giveCredit (s : State) (src : Agent) (m : Msg) : State :=
  match m.kind with
  | .data | .dataEnd => s.post src m.src 0 (.credit m.ident m.inst) 0 0
  | _ => s

/-- An end inside a dropped message is closed (R299): a send end's close marker goes to its channel home in place of the
stream. -/
def State.closeCarried (s : State) (src : Agent) (h : Handle) : State :=
  match h.kind with
  | .empty => s
  | .recv => s.post src (s.chanHome h.home h.ident) 0 (.recvClose h.ident true) 0 0
  | .send =>
    let mk : Msg := { ident := h.ident, inst := h.inst, gen := h.gen, seq := h.seq, cls := 0, kind := .closeMarker
                      words := 0, payload := noPayload, carried := none, src := s.here src, home := h.home, fwd := true }
    (s.post src (s.chanHome h.home h.ident) 0 (.returned mk) 0 0).post src (s.chanHome h.home h.ident) 0
      (.chClose h.ident h.inst) 0 0

/-- A message is dropped: its credit returns and an end in it is closed (R179, R299). -/
def State.dropMsg (s : State) (src : Agent) (m : Msg) : State :=
  let s1 := s.giveCredit src m
  match m.carried with
  | some h => s1.closeCarried src h
  | none => s1

/-! ### The inbox (R30) -/

def Core.queue (k : Core) (cls : Nat) : List InItem := (AMap.get k.inq cls).getD []

/-- The oldest overflow messages of a class move into its free places. -/
def refill : Nat → Nat → Core → Core
  | 0, _, k => k
  | fuel + 1, cls, k =>
    if 16 ≤ (k.queue cls).length then k
    else
      match takeFirst (fun (e : Nat × InItem) => decide (e.1 = cls)) k.spill with
      | none => k
      | some (e, r) => refill fuel cls { k with inq := AMap.set k.inq cls (k.queue cls ++ [e.2]), spill := r }

/-- A place that a message of a class may use (R30). -/
def Core.room (k : Core) (cls : Nat) : Bool :=
  decide ((k.queue cls).length < 16) ||
    (decide (k.spill.length < 512) &&
      (decide (cls ≤ 1) || decide ((k.spill.filter (fun e => decide (2 ≤ e.1))).length < 448)))

def Core.putItem (k : Core) (cls : Nat) (i : InItem) : Core :=
  if (k.queue cls).length < 16 then { k with inq := AMap.set k.inq cls (k.queue cls ++ [i]) }
  else { k with spill := k.spill ++ [(cls, i)] }

/-- The first item of a class that satisfies `p`, taken out; the class's overflow moves up. -/
def Core.takeItem (k : Core) (cls : Nat) (p : InItem → Bool) : Option (InItem × Core) :=
  (takeFirst p (k.queue cls)).map (fun (i, q) => (i, refill 16 cls { k with inq := AMap.set k.inq cls q }))

/-- Slots blocked in `inbox.dq` try again (R184). -/
def State.wakeInbox (s : State) (c : Nat) : State :=
  (List.range (slotCount c)).foldl (fun s l =>
    match (s.slotAt c l).phase with
    | .blocked (.inbox _ _ _) => s.updSlotAt c l (fun sl => { sl with phase := .ready })
    | _ => s) s

/-- A message enters a class queue of a core: a release (R180, R251). -/
def State.release (s : State) (c cls : Nat) (i : InItem) : State :=
  ((s.updCore c (fun k => k.putItem cls i)).wakeCore c).wakeInbox c

/-- How the end of a released message is bound at a core (R182), or was before it moved on (R198): the handler's offset, with the
level. -/
def Core.binding (k : Core) (m : Msg) : Option Nat × Nat :=
  match k.ends.find? (fun e => decide (e.ident = m.ident) && decide (e.gen = m.gen)) with
  | some e => (e.bind.join, e.level)
  | none =>
    match k.oldBinds.find? (fun e => decide (e.ident = m.ident) && decide (e.gen = m.gen)) with
    | some e => (e.off, e.level)
    | none => (none, 0)

/-- An item that `inbox.dq` may take: of an end bound to the inbox, or never bound here (R182, R184). -/
def Core.forInbox (k : Core) : InItem → Bool
  | .chan m _ _ _ => (k.binding m).1.isNone
  | _ => false

/-! ### Reorder areas (R180, R185, R186) -/

def newArea (ident : Word) (inst : Nat) (waiting : Bool) : Area :=
  { ident := ident, inst := inst, next := 0, held := [], seg := 0, busy := false, closed := false, waiting := waiting }

def isArea (ident : Word) (inst : Nat) (a : Area) : Bool := decide (a.ident = ident) && decide (a.inst = inst)

/-- Markers that are next in sequence are applied, as long as the message before them has been taken. The second value is
how many close markers were reached. -/
def Area.settle : Nat → Area → Area × Nat
  | 0, a => (a, 0)
  | fuel + 1, a =>
    if a.busy || a.waiting then (a, 0)
    else
      match takeFirst (fun (m : Msg) => decide (m.seq = a.next)) a.held with
      | none => (a, 0)
      | some (m, r) =>
        match m.kind with
        | .segMarker n => Area.settle fuel { a with next := a.next + 1, held := r, seg := n }
        | .closeMarker =>
          let (b, n) := Area.settle fuel { a with next := a.next + 1, held := r, seg := 0, closed := true }
          (b, n + 1)
        | _ => (a, 0)

/-- The handover of every instance that needs one has come to the holder of a receive end (R295, R300). -/
def Core.allHanded (k : Core) (e : RecvEnd) : Bool :=
  match e.before with
  | none => false
  | some n => (List.range n).all (fun i => k.areas.any (fun a => isArea e.ident i a && !a.waiting))

/-- The closure event of an end is due here (R186, R300): the final notice has come, every close marker that it names has
been reached, and the handover of every instance. -/
def Core.eventDue (k : Core) (e : RecvEnd) : Bool := decide (e.final = some e.closes) && !e.eventSent && k.allHanded e

/-- The closure event of an end released, if it is due and class 0 has a place for it (R30, R186); else it waits. -/
def State.closure (s : State) (c : Nat) (ident : Word) : State :=
  let k := s.coreAt c
  match k.ends.find? (fun e => e.ident = ident) with
  | none => s
  | some e =>
    if k.eventDue e && k.room 0 && decide (c ≠ eqxCore) then
      let s2 := s.updCore c (fun k => { k with
        ends := k.ends.map (fun e => if e.ident = ident then { e with eventSent := true } else e) })
      s2.release c 0 (.chan { ident := ident, inst := 0, gen := e.gen, seq := 0, cls := 0, kind := .closure, words := 0
                              payload := noPayload, carried := none, src := s.here (.core c), home := e.home, fwd := false }
                        false false 0)
    else s

/-- Every area of an end of this core settled, and its closure event released once it is due (R186). -/
def State.settle (s : State) (c : Nat) (ident : Word) : State :=
  let k := s.coreAt c
  let out := k.areas.map (fun a => if a.ident = ident then a.settle (a.held.length + 1) else (a, 0))
  let n := (out.map (·.2)).sum
  let s1 := s.updCore c (fun k => { k with
    areas := out.map (·.1)
    ends := k.ends.map (fun e => if e.ident = ident then { e with closes := e.closes + n } else e) })
  s1.closure c ident

/-- A message has left its queue: the next of its instance may be released (R180). One dequeued or made into a task lowers the
segment count of its instance, one that is dropped does not (R185). -/
def State.gone (s : State) (c : Nat) (m : Msg) (counts : Bool) : State :=
  let f (a : Area) : Area := if isArea m.ident m.inst a && m.kind != .closure then
      { a with busy := false, seg := if counts then a.seg - 1 else a.seg } else a
  let s1 := s.updCore c (fun k => { k with
    areas := if k.ends.any (fun e => decide (e.ident = m.ident) && decide (e.gen = m.gen)) then k.areas.map f else k.areas
    stubs := k.stubs.map (fun t => if t.ident = m.ident ∧ t.gen = m.gen then { t with areas := t.areas.map f } else t) })
  s1.settle c m.ident

/-- A message has been dequeued or made into a task (R180, R185). -/
def State.taken (s : State) (c : Nat) (m : Msg) : State := s.gone c m true

/-! ### Closing (R176, R187) -/

/-- The messages of an end in the class queues and the overflow area of a core taken away. -/
def Core.purge (k : Core) (ident : Word) : List Msg × Core :=
  let mine (i : InItem) : Bool := match i with
    | .chan m _ _ _ => decide (m.ident = ident)
    | _ => false
  let msg (i : InItem) : Option Msg := match i with
    | .chan m _ _ _ => some m
    | _ => none
  let inq := k.inq.map (fun e => (e.1, e.2.filter (fun i => !mine i)))
  let gone := (k.inq.map (fun e => (e.2.filter mine).filterMap msg)).flatten ++
    ((k.spill.filter (fun e => mine e.2)).filterMap (fun e => msg e.2))
  let k1 := { k with inq := inq, spill := k.spill.filter (fun e => !mine e.2) }
  (gone, [0, 1, 2, 3].foldl (fun k cls => refill 16 cls k) k1)

/-- A receive end is closed at its core: what is queued or held here is dropped, without a count (log 114), and the channel home is
told (R187). -/
def State.closeRecv (s : State) (c : Nat) (h : Handle) : State :=
  let (gone, k) := (s.coreAt c).purge h.ident
  let held := ((k.areas.filter (fun a => a.ident = h.ident)).map (·.held)).flatten
  let s1 := s.setCore c { k with
    areas := k.areas.filter (fun a => a.ident ≠ h.ident), fifo := k.fifo.filter (fun a => a.ident ≠ h.ident)
    ends := k.ends.filter (fun e => e.ident ≠ h.ident) }
  let s2 := (gone ++ held).foldl (fun s m => s.dropMsg (.core c) m) s1
  s2.post (.core c) (s.chanHome h.home h.ident) 0 (.recvClose h.ident false) 0 0

/-- An end held at a core is closed (R176): a send end appends its close marker to its stream and tells the channel home. -/
def State.closeEnd (s : State) (c : Nat) (h : Handle) : State :=
  match h.kind with
  | .empty => s
  | .send => (s.sendOn (.core c) h 0 .closeMarker 0 noPayload none).post (.core c) (s.chanHome h.home h.ident) 0
      (.chClose h.ident h.inst) 0 0
  | .recv => s.closeRecv c h

/-- Modules to which the closing of an end sends something: its close marker or the credits of what it drops and the notices of
the ends in it, and its own notice (R176, R187, R299). -/
def State.closePeers (s : State) (h : Handle) : List Peer :=
  match h.kind with
  | .empty => []
  | .send => [h.locPeer, h.home]
  | .recv =>
    let k := s.coreAt s.cur.1
    let held := ((k.areas.filter (fun a => a.ident = h.ident)).map (·.held)).flatten
    h.home :: (((k.purge h.ident).1 ++ held).map (fun m => m.src.peer :: (m.carried.map (·.home)).toList)).flatten

/-! ### Landing and carrying (R291, R292, R296) -/

/-- An end lands in a handle register of a core: the landing notice goes to the channel home, and a receive end is known here
from then on, at the generation that the home's step gives it (R292). -/
def State.landEnd (s : State) (c : Nat) (h : Handle) : State × Handle :=
  match h.kind with
  | .empty => (s, h)
  | .send =>
    (s.post (.core c) (s.chanHome h.home h.ident) 0 (.landing h.ident (some h.inst) (locOf s.part.peer c) h.moves) 0 0, h)
  | .recv =>
    let g := h.gen + 1
    let e : RecvEnd := { ident := h.ident, gen := g, bind := none, level := 0, final := none, closes := 0
                         eventSent := false, home := h.home, before := none }
    let s1 := s.updCore c (fun k => { k with ends := k.ends ++ [e] })
    (s1.post (.core c) (s.chanHome h.home h.ident) 0 (.landing h.ident none (locOf s.part.peer c) g.toNat) 0 0
    , { h with gen := g, loc := c, locPeer := s.part.peer })

/-- Sequences of an area's messages. -/
def Area.seqs (a : Area) : List (Nat × Nat) := a.held.map (fun m => (a.inst, m.seq))

/-- A released message of an end, of this generation, is in a class queue or the overflow area. -/
def Core.waits (k : Core) (ident : Word) (gen : BitVec 16) : Bool :=
  let mine (i : InItem) : Bool := match i with
    | .chan m _ _ _ => decide (m.ident = ident) && decide (m.gen = gen)
    | _ => false
  k.inq.any (fun e => e.2.any mine) || k.spill.any (fun e => mine e.2)

/-- The receive end leaves its core inside a message: what is not released passes to a stub, what is released keeps the end's
binding, and the home is told (R198, R291). -/
def State.carryRecv (s : State) (c : Nat) (h : Handle) : State :=
  let k := s.coreAt c
  let mine := k.areas.filter (fun a => a.ident = h.ident)
  let e? := k.ends.find? (fun e => e.ident = h.ident)
  let fences := (mine.map (fun a =>
    (a.held.filter (fun m => m.kind = .closeMarker)).map (fun m => (a.inst, (m.seq : Int))))).flatten
  let t : Stub := { ident := h.ident, gen := h.gen, dest := none, msgs := (mine.map (·.held)).flatten, named := []
                    allNamed := false, fences := fences, handed := [], areas := mine.map (fun a => { a with held := [] })
                    closes := (e?.map (·.closes)).getD 0
                    final := e?.bind (fun e => if e.eventSent then none else e.final)
                    home := h.home
                    seen := (mine.map Area.seqs).flatten
                    before := (e?.map (·.before)).getD (some 0) }
  let b : OldBinding :=
    { ident := h.ident, gen := h.gen, off := e?.bind (·.bind.join), level := (e?.map (·.level)).getD 0 }
  let s1 := s.updCore c (fun k => { k with
    areas := k.areas.filter (fun a => a.ident ≠ h.ident), fifo := k.fifo.filter (fun a => a.ident ≠ h.ident)
    ends := k.ends.filter (fun e => e.ident ≠ h.ident)
    stubs := k.stubs ++ [t], oldBinds := k.oldBinds.filter (fun x => k.waits x.ident x.gen) ++ [b] })
  s1.post (.core c) (s.chanHome h.home h.ident) 0 (.moving h.ident none h.gen.toNat) 0 0

/-- A send end as it travels, one move further (log 93). -/
def moved (h : Handle) : Handle := if h.kind = .send then { h with moves := h.moves + 1 } else h

/-- A send end leaves its core (R296); `h` is the end as it was there. -/
def State.carrySend (s : State) (c : Nat) (h : Handle) : State :=
  s.post (.core c) (s.chanHome h.home h.ident) 0 (.moving h.ident (some h.inst) (h.moves + 1)) 0 0

/-- Live stubs of the cores of a tile (R297). -/
def State.stubsOfTile (s : State) (c : Nat) : Nat :=
  if isGateway c then (s.coreAt c).stubs.length
  else ((List.range 7).map (fun i => (s.coreAt (7 * tileOf c + i)).stubs.length)).sum

/-! ### Stubs (R294) -/

def isStub (ident : Word) (gen : BitVec 16) (t : Stub) : Bool := decide (t.ident = ident) && decide (t.gen = gen)

/-- A message forwarded by a stub to the new holder, in its own class, with the generation the stub was told. -/
def State.forwardMsg (s : State) (c : Nat) (dest : Nat × BitVec 16) (m : Msg) : State :=
  s.post (.core c) (locPlace dest.1) m.cls (.msg { m with gen := dest.2, fwd := true }) 0 0

/-- Every sequence of an instance up to its fence is accounted for at the stub: forwarded, or dequeued at the old holder. -/
def Stub.accounted (t : Stub) (inst : Nat) (f : Int) : Bool :=
  let from_ := ((t.areas.find? (fun a => a.inst = inst)).map (·.next)).getD 0
  (List.range ((f + 1).toNat - from_)).all (fun i => t.seen.contains (inst, from_ + i))

/-- An instance needs a handover at a holder of the receive end (R295): it existed before the landing there, or it is not
yet known how many did (log 24). -/
def needsHandover (before : Option Nat) (inst : Nat) : Bool :=
  match before with
  | none => true
  | some n => decide (inst < n)

/-- The handover of an instance that the stub itself waits for has come, or none is due. -/
def Stub.has (t : Stub) (inst : Nat) : Bool :=
  match t.areas.find? (fun a => a.inst = inst) with
  | some a => !a.waiting
  | none => !needsHandover t.before inst

/-- An instance that a stub may hand over now (R294): its fence has come, or its close marker has been reached, everything up to
it is accounted for and forwarded, and the stub's own handover of it has arrived. -/
def Stub.mayHand (t : Stub) (inst : Nat) : Bool :=
  !t.handed.contains inst &&
    (t.fences.any (fun f => f.1 = inst && t.accounted inst f.2) || t.areas.any (fun a => a.inst = inst && a.closed)) &&
    !(t.msgs.any (fun m => m.inst = inst)) && t.has inst

/-- The first item that satisfies `p` taken out of a class queue or of the overflow area (R30). -/
def Core.withdraw (k : Core) (p : InItem → Bool) : Option (InItem × Core) :=
  match [0, 1, 2, 3].findSome? (fun cls => k.takeItem cls p) with
  | some r => some r
  | none => (takeFirst (fun (e : Nat × InItem) => p e.2) k.spill).map (fun (e, r) => (e.2, { k with spill := r }))

/-- One instance handed over: a released message still in the old core's queue is withdrawn and forwarded, and the marker
carries the sequence at which the new holder starts, the segment count, the close state and the count of close markers. -/
def State.handOver (s : State) (c : Nat) (t : Stub) (dest : Nat × BitVec 16) (inst : Nat) : State × Stub :=
  let a := (t.areas.find? (fun a => a.inst = inst)).getD (newArea t.ident inst false)
  let mine (i : InItem) : Bool := match i with
    | .chan m _ _ _ => decide (m.ident = t.ident) && decide (m.gen = t.gen) && decide (m.inst = inst) && m.kind != .closure
    | _ => false
  let (s1, start) :=
    match (s.coreAt c).withdraw mine with
    | some (.chan m _ _ _, k) => ((s.setCore c { k with withdrewAt := some s.now }).forwardMsg c dest m, m.seq)
    | _ => (s, a.next)
  let s2 := s1.post (.core c) (locPlace dest.1) 0 (.handover t.ident inst dest.2 start a.seg a.closed t.closes) 0 0
  (s2, { t with handed := t.handed ++ [inst] })

/-- The instance number under which a handover carries only the old holder's count of close markers, and how many instances
existed before the landing (log 24, log 26). -/
def countOnly : Nat := 65536

/-- A stub hands over what it may, and retires when every instance that the home named has been handed over (R294). -/
def State.stubCheck (s : State) (c : Nat) (ident : Word) (gen : BitVec 16) : State :=
  match (s.coreAt c).stubs.find? (isStub ident gen) with
  | none => s
  | some t =>
    match t.dest with
    | none => s
    | some dest =>
      let all := t.named ++ (t.areas.map (·.inst)).filter (fun i => !t.named.contains i)
      let (s1, t1) := (all.filter t.mayHand).foldl (fun (s, t) i => s.handOver c t dest i) (s, t)
      let rest := (s1.coreAt c).stubs.filter (fun u => !isStub ident gen u)
      let due := t1.named
      if t1.allNamed && t1.msgs.isEmpty && due.all (fun i => t1.handed.contains i) then
        (s1.updCore c (fun k => { k with stubs := rest })).post (.core c) (s.chanHome t.home ident) 0 (.retired ident gen) 0 0
      else s1.updCore c (fun k => { k with stubs := rest ++ [t1] })

/-- A stub whose receive end has been closed drops what it holds and retires; what was released here before the end left, and has
not been taken, goes too, since nothing is delivered after the close (R187, R299; log 73). -/
def State.stubDrop (s : State) (c : Nat) (ident : Word) : State :=
  let (mine, rest) := (s.coreAt c).stubs.partition (fun t => decide (t.ident = ident))
  let (gone, k) := (s.coreAt c).purge ident
  let s0 := s.setCore c { k with stubs := rest, oldBinds := k.oldBinds.filter (fun b => b.ident ≠ ident) }
  let s1 := gone.foldl (fun s m => s.dropMsg (.core c) m) s0
  mine.foldl (fun s t =>
    (t.msgs.foldl (fun s m => s.dropMsg (.core c) m) s).post (.core c) (s.chanHome t.home ident) 0
      (.retired ident t.gen) 0 0) s1

end Sys2Proof.Machine
end

