-- ==== Sys2Proof/Machine/TaskOps.lean ====
section
/-! DEFINITION. The life of a task (R17, R26 to R31, R62, R143, R254 to R261): a run-queue entry, taking a slot, the counts at
its level, and its end. -/

namespace Sys2Proof.Machine

open Sys2Proof

/-- The launch among a level's ancestors or itself; 0 none (R254). -/
def State.launchOf (s : State) (k : Nat) : Nat := ((s.chain 8 k).find? (fun i => (s.levelAt i).level = 1)).getD 0

/-- A new task's entry: its level is the job's where the level is complete (R261), its CSRs those of R18. With no launch
among its levels it has `LAUNCHID`, `GRIDDIM` and `FSEED` 0 (log 80). -/
def State.newTask (s : State) (kind : TaskKind) (cls level : Nat) (offset : Nat) : RunEntry :=
  let lv := s.countLevel level
  let k := s.launchOf lv
  { kind := kind, cls := cls, level := lv, launchid := BitVec.ofNat 64 (k % 2 ^ 32)
    gridpt := 0, griddim := if k = 0 then 0 else (s.levelAt k).grid, fseed := if k = 0 then 0 else (s.levelAt k).seed
    tvec := s.job.tvec, pc := s.job.code + BitVec.ofNat 64 offset, xferid := 0, segleft := 0
    regs := [], poisoned := [], h0 := Handle.none, hadEnd := false, leases := [], since := s.mach.clock
    wdStart := s.mach.clock, tgenx := none }

/-- Raises of a level's count that have been sent and not yet performed (R259). -/
def State.raisesDue (s : State) (k : Nat) : Nat :=
  let mine (p : Packet) : Bool := match p.body with
    | .count r up => up && decide (r = k)
    | .farCount key up => up && decide (s.ownRec key = some k)
    | _ => false
  (s.mach.net.map (fun q => q.2.countP mine)).sum + (s.mach.homes.map (fun h => h.2.q.countP mine)).sum

/-- A level's count cannot be raised again, the raises on their way counted (R258). -/
def State.countFull (s : State) (k : Nat) : Bool := decide (2 ^ 32 - 1 ≤ (s.levelAt k).count + s.raisesDue k)

/-- The record of a creation refused because the level's count would overflow (R258). -/
def State.overflowRecord (s : State) (c k : Nat) : State :=
  s.emit (s.unitRec 0 c 0x185 s.job.tag (k % 2 ^ 32) (BitVec.ofNat 64 (k % 2 ^ 32)) (s.unitAt 0 c).window)

/-- A run-queue entry is free (R31). -/
def State.runRoom (s : State) (c : Nat) : Bool := decide ((s.coreAt c).runq.length < 64)

/-- A task joins the run queue of a core. -/
def State.join (s : State) (c : Nat) (e : RunEntry) : State := s.updCore c (fun k => { k with runq := k.runq ++ [e] })

/-- A task joins the run queue of a core, and its level's count is raised (R259). -/
def State.enqueue (s : State) (c : Nat) (e : RunEntry) : State := (s.join c e).sendCount c e.level true

/-- Release every lease of a task (R143, R194). -/
def State.dropLeases (s : State) (c l : Nat) (gen : BitVec 16) (which : Nat → Bool) : State :=
  if isGateway c then s else
  s.updTile (tileOf c) (fun t => { t with leases := t.leases.filter (fun e =>
    !(decide (e.core = c) && decide (e.slot = l) && decide (e.gen = gen) && !e.engine && which e.which)) })

/-- A task is placed on a Free slot (R18, R28, R29). -/
def State.place (s : State) (c l : Nat) (e : RunEntry) : State :=
  let gen := (s.slotAt c l).gen + 1
  let pinned := (s.levelAt (s.launchOf e.level)).cores
  let sl0 : Slot := { Slot.reset with
    phase := .ready, gen := gen, pc := e.pc, tvec := e.tvec, gridpt := e.gridpt, griddim := e.griddim
    launchid := e.launchid, jobid := s.job.tag, tgenx := e.tgenx.getD s.job.tgen, xferid := e.xferid, segleft := e.segleft
    fseed := e.fseed
    task := { Task.none with kind := e.kind, cls := e.cls, level := e.level, wdStart := e.wdStart, pinned := pinned } }
  let sl1 := e.regs.foldl (fun sl r => sl.wx r.1 r.2) sl0
  let sl2 := { sl1 with h := sl1.h.set 0 e.h0 }
  let sl3 := e.poisoned.foldl (fun (sl : Slot) r =>
    if r.1 = 0 then sl else { sl with px := sl.px.set r.1.toNat (some r.2) r.1.isLt }) sl2
  let s0 := (s.setSlotAt c l sl3).updCore c (fun k => { k with oplog := k.oplog.filter (fun e => e.slot ≠ l) })
  let s1 := e.regs.foldl (fun s r => s.logWrite c l r.1.toNat (r.2.setWidth 512)) s0
  e.leases.foldl (fun s t => s.updTile t.1 (fun q => { q with
    leases := q.leases ++ [{ which := t.2, core := c, slot := l, gen := gen, engine := false }] })) s1

/-- A completion of a command of an exited task that has not been made into a task (R259). -/
def awaits (e : Exited) : InItem → Bool
  | .pkt p => match p.body with
    | .completion _ _ slot gen _ counted _ _ _ => counted && decide (slot = e.slot) && decide (gen = e.gen)
    | _ => false
  | _ => false

/-- A write of the exited task to its own slice that is not yet performed: it has no journal entry (R145). -/
def State.ownStores (s : State) (c : Nat) (e : Exited) : Bool :=
  let mine (p : Packet) : Bool := decide (p.src = s.here (.core c)) && decide (p.slot = e.slot) && decide (p.gen = e.gen) &&
    (match p.body with | .store _ _ _ _ _ => true | _ => false)
  !isGateway c && (s.homeAt (tileOf c)).q.any mine

/-- Exited tasks whose entries have retired or been dropped, whose writes to the own slice have been performed and whose
commands are complete report to their level (R62), after the raises for their completion tasks (R259). -/
def State.settleExits (s : State) (c : Nat) : State :=
  let k := s.coreAt c
  if k.exited.isEmpty then s else
  let owes (e : Exited) : Bool := decide (e.cmds ≠ 0) || k.journal.any (fun j => j.2.slot = e.slot && j.2.gen = e.gen) ||
    (k.queue 1).any (awaits e) || k.spill.any (fun x => awaits e x.2) || s.ownStores c e
  let (keep, done) := k.exited.partition owes
  (done.foldl (fun s e => if e.unit then s.sendCount c e.level false else s)
    (s.updCore c (fun k => { k with exited := keep })))

/-- A slot that drains is Free once its `CNTLD` is zero (R26, R27). -/
def State.drain (s : State) (c l : Nat) : State :=
  s.updSlotAt c l (fun sl => if sl.phase = .draining ∧ sl.cntld = 0 then { sl with phase := .free } else sl)

/-- A task ends, by `exit` or by a kill (R143, R269): its ends are closed from h0 to h15, its leases released, its refused
entries dropped (R146), and its slot drains; a unit's launch is lowered when R62 allows, any other level at once. -/
def State.endTask (s : State) (c l : Nat) : State :=
  let sl := s.slotAt c l
  let s1 := sl.h.toList.foldl (fun s h => s.closeEnd c h) s
  let s2 := s1.dropLeases c l sl.gen (fun _ => true)
  let unit := decide (sl.task.kind = .unit)
  let s3 := s2.updCore c (fun k => { k with
    journal := k.journal.filter (fun j => !(decide (j.2.slot = l) && decide (j.2.gen = sl.gen) && j.2.refused))
    exited := k.exited ++ [{ slot := l, gen := sl.gen, level := sl.task.level, unit := unit
                             cmds := sl.cntcp + sl.cnttl }] })
  let s4 := s3.updSlotAt c l (fun sl => { sl with
    phase := .draining, h := Vector.replicate 16 Handle.none, async := [], held := none
    cntst := 0, cntcp := 0, cnttl := 0, stc := 0, stp := 0, stx := 0, nx := 0, nv := 0 })
  let s5 := if unit then s4 else s4.sendCount c sl.task.level false
  (s5.drain c l).settleExits c

/-- A task is killed: its record on the fatal lane, then as by `exit` (R269, R337). -/
def State.kill (s : State) (c l cause : Nat) (index : Nat) (addr : Word) : State :=
  (s.emit (s.slotRec c l cause index addr true)).endTask c l

end Sys2Proof.Machine
end

