-- ==== Sys2Proof/Machine/Homes.lean ====
section
/-! DEFINITION. What a home does beside its own queue: replies, granules that become full and the loads that wait on them (R34,
R35), and how redemptions land (R158, R159). -/

namespace Sys2Proof.Machine

open Sys2Proof

/-- A reply of a home to the source of a packet (R44), with the address of its request (Table 24-9). -/
def State.reply (s : State) (h : Nat) (p : Packet) (b : Body) : State :=
  s.append { src := s.here (.home h), dst := p.src, cls := 4 }
    { body := b, src := s.here (.home h), job := s.job.tag, slot := p.slot, gen := p.gen, addr := (accessAt p.body).1
      len := requestLen p.body, tag := (accessOp p.body).getD 0 }

/-- The bytes that an access reads, as a register's bits. -/
def State.wide (s : State) (pa n : Nat) : VWord := ofVbytes (s.bytes pa n)

/-- A slot blocked on a local `ld.fe` goes on once the load has been performed (R47). -/
def State.unblockFe (s : State) (h : Nat) (p : Packet) : State :=
  match p.src.agent with
  | .core c =>
    if ownTile s.part.peer h p ∧ (s.slotAt c p.slot).gen = p.gen ∧ (s.slotAt c p.slot).phase = .blocked .ldFe then
      s.updSlotAt c p.slot (fun sl => { sl with phase := .ready })
    else s
  | _ => s

/-- A `ld.fe` performed on a full granule (Table 02-12). -/
def State.performFe (s : State) (h : Nat) (p : Packet) (take : Bool) (pa size : Nat) (ret : Ret) : State :=
  let v := s.wide pa size
  let k := s.poisonIn pa size
  let s1 := if take then s.setFull (pa / 16) false else s
  (s1.reply h p (.value ret v k)).unblockFe h p

/-- A waiting load of a granule. -/
def waitsAt (g : Nat) (p : Packet) : Bool :=
  match p.body with
  | .ldFe _ pa _ _ => decide (pa / 16 = g)
  | _ => false

/-- The loads that wait on a full granule performed in arrival order, while it is full (R35). -/
def State.wakeLoads (s : State) (h g : Nat) : Nat → State
  | 0 => s
  | fuel + 1 =>
    if s.isFull g = false then s else
    match takeFirst (waitsAt g) (s.homeAt h).waiting with
    | none => s
    | some (p, r) =>
      let s1 := s.updHome h (fun q => { q with waiting := r })
      match p.body with
      | .ldFe take pa size ret => State.wakeLoads (s1.performFe h p take pa size ret) h g fuel
      | _ => s1

/-- A granule of a slice becomes full (R34, R35). -/
def State.fill (s : State) (g : Nat) : State :=
  let h := g / 65536
  (s.setFull g true).wakeLoads h g ((s.homeAt h).waiting.length + 1)

/-- Bytes written into a slice by an engine or a redemption: stored, and every granule touched becomes full (Table 02-12). -/
def State.storeFull (s : State) (pa : Nat) (bs : List Byte) : State :=
  let s1 := s.store pa bs
  if pa < 2 ^ 30 then (granules pa bs.length).foldl State.fill s1 else s1

/-- A granule poisoned by a redemption, its full bit set (R158). -/
def State.poisonFull (s : State) (g : Nat) (k : BitVec 2) : State :=
  if g < 2 ^ 26 then (s.poisonGranule g k).fill g else s.poisonGranule g k

/-! ### Redemptions landing (R158, R159) -/

/-- A v register poisoned (R13); its bits, which nothing can read, stay as they were. -/
def State.poisonV (s : State) (c l : Nat) (r : Reg) (k : BitVec 2) : State :=
  s.updSlotAt c l (fun sl => { sl with pv := sl.pv.set r.toNat (some k) r.isLt })

def State.poisonX (s : State) (c l : Nat) (r : Reg) (k : BitVec 2) : State :=
  if r = 0 then s else s.updSlotAt c l (fun sl => { sl with px := sl.px.set r.toNat (some k) r.isLt })

/-- Bytes 8 × i of a snapshot as payload words after the ticket. -/
def snapWords (ticket : Word) (data : List Byte) : Vector Word 6 :=
  Vector.ofFn (fun i => if i.val = 0 then ticket else BitVec.ofNat 64 (ofBytes ((data.drop (8 * (i.val - 1))).take 8)))

/-- A redemption that is refused lands (Table 08-7). -/
def State.landRefused (s : State) (c l : Nat) (dst : RdmDst) (ticket : Word) (k : BitVec 2) : State :=
  match dst with
  | .vreg r => s.poisonV c l r k
  | .spad pa _ =>
    if s.part.fenced.contains (pa / 2 ^ 20) then s
    else (granules pa (8 * 2 ^ (bitsOf ticket.toNat 5 2))).foldl (fun s g => s.poisonFull g k) s
  | .msg w => s.release c 2 (.direct w (snapWords ticket []) (some k) (s.slotAt c l).task.level none)

end Sys2Proof.Machine
end

