-- ==== Sys2Proof/Machine/Tickets.lean ====
section
/-! DEFINITION. Tickets at issue: the ticket value and when it is well formed (R154), `ldt` (R155), the three forms of `rdm`
(R158), `tkdrop` and `tkq` (R160). -/

namespace Sys2Proof.Machine

open Sys2Proof

/-- CHECK of Table 08-5: CRC-8 over ticket bytes 0 to 6, then the two bytes of `JOBID` (R154). -/
def ticketCheck (low : Nat) (job : BitVec 16) : Nat :=
  crc8 ((toBytes low 7 ++ toBytes job.toNat 2).map (·.toNat))

/-- A ticket from its fields (Table 08-5). -/
def ticketOf (job : BitVec 16) (gen num core home : Nat) (peer : Peer) (k : Nat) : Word :=
  let low := gen * 2 ^ 50 + num * 2 ^ 42 + core * 2 ^ 29 + home * 2 ^ 18 + peer.toNat * 2 ^ 6 + k * 4
  BitVec.ofNat 64 (ticketCheck low job * 2 ^ 56 + low)

def tkGenOf (t : Word) : Nat := bitsOf t.toNat 55 50
def tkNumOf (t : Word) : Nat := bitsOf t.toNat 49 42
def tkCoreOf (t : Word) : Nat := bitsOf t.toNat 41 29
def tkHomeOf (t : Word) : Nat := bitsOf t.toNat 28 18
def tkPeerOf (t : Word) : Peer := t.extractLsb' 6 12
def tkSizeOf (t : Word) : Nat := bitsOf t.toNat 5 2
/-- The bytes of a ticket's snapshot. -/
def tkBytes (t : Word) : Nat := 8 * 2 ^ tkSizeOf t

/-- A ticket is well formed (R154). -/
def wellFormedTicket (t : Word) (job : BitVec 16) : Bool :=
  decide (bitsOf t.toNat 63 56 = ticketCheck (t.toNat % 2 ^ 56) job) && decide (tkSizeOf t ≤ 9) &&
    decide (t.toNat % 4 = 0) && decide (tkHomeOf t < 1328)

/-- HOME is live on PEER, as the issuing core knows it (R158). A peer without an entry in the layout table is no live peer: the
checks of R367 answer for it. -/
def State.ticketHomeLive (s : State) (t : Word) : Bool :=
  let h := tkHomeOf t
  if tkPeerOf t = s.part.peer then s.part.homeLive h
  else
    match AMap.get s.layouts (tkPeerOf t).toNat with
    | none => true
    | some l => if h < 1024 then l.tiles.contains h else if h < 1280 then l.hbm.contains (h - 1024) else l.lp.contains (h - 1280)

/-- Element number of an address in its leaf (R72). -/
def eltAt (x : Xl) (va : Nat) : Nat := (va - x.e.spanVa) * 8 / width (fmtOf x.e.fmt)

/-- The next ticket number in rotation that is not live (R154). -/
def Core.nextTicket (k : Core) : Option Nat :=
  ((List.range 256).map (fun i => (k.tkLast + 1 + i) % 256)).find? (fun n => !k.tkLive.contains n)

/-- `ldt`: the ticket is written at issue and the fetch posted (R51, R155). -/
def execLdt (d a : Reg) (w : BitVec 2) (k : BitVec 4) (o : BitVec 10) (s : State) : Out :=
  let c := s.cur.1
  issue (.ldt d a w k o) { reads := [xr a], writes := [xr d]
                           hold := waits w s.slot || decide (256 ≤ (s.coreAt c).tkLive.length) } (fun s =>
    let va := s.slot.rx a + sx o * 8
    let len := 8 * 2 ^ k.toNat
    if va.toNat % len ≠ 0 then s.trap 0x043 va
    else withXl va .home (fun x s1 =>
      if s.denied x len false then s.trap 0x041 va
      else toPage x (fun _ =>
        match (s.coreAt c).nextTicket with
        | none => .next s.stall
        | some n =>
          let g : BitVec 6 := match AMap.get (s.coreAt c).tkGen n with
            | some g => g + 1
            | none => 0
          let home := s.xlHome x
          let t := ticketOf s.slot.jobid g.toNat n c home x.e.peer k.toNat
          let j := eltAt x va.toNat
          let blk := if blkOf x.e.fmt = 0 then 0 else x.e.scale + j / blockLen (blkOf x.e.fmt)
          let s2 := s1.updCore c (fun q => { q with
            tkLive := insNat q.tkLive n, tkLast := n, tkGen := AMap.set q.tkGen n g })
          .next (((s2.setX d t).access home x.e.peer (.fetch t x.pa x.e.fmt blk j))).retire) s) s) s

/-- A ticket taken to its home, or answered at the issuing core (R158): `dst` is where the answer lands. -/
def State.redeem (s : State) (t : Word) (dst : RdmDst) : Out :=
  if wellFormedTicket t s.slot.jobid = false then .next (s.landRefused s.cur.1 s.cur.2 dst t 2).retire
  else if s.ticketHomeLive t = false then .next (s.landRefused s.cur.1 s.cur.2 dst t 3).retire
  else toPeer (tkPeerOf t) (peerWord (tkPeerOf t)) (fun s =>
    let s1 := s.upd (fun sl =>
      let sl1 := { sl with cntld := sl.cntld + 1 }
      match dst with
      | .vreg r => sl1.pendV r true
      | _ => sl1)
    .next (s1.access (tkHomeOf t) (tkPeerOf t) (.redeem t dst s.mach.clock)).retire) s

/-- `rdm vd, xa` (R158). -/
def execRdmV (d a : Reg) (w : BitVec 2) (s : State) : Out :=
  issue (.rdmV d a w) { lack := vecLack s, reads := [xr a], writes := [vr d]
                        hold := waits w s.slot || decide (63 ≤ s.slot.cntld) } (fun s =>
    s.redeem (s.slot.rx a) (.vreg d)) s

/-- `rdm [xa], xb` (R158): the destination is checked over the snapshot's raw length, which must lie in one region of one
slice (log 17); only the page of its first byte is translated (log 148). -/
def execRdmScratchpad (a b : Reg) (w : BitVec 2) (s : State) : Out :=
  issue (.rdmScratchpad a b w) { reads := [xr a, xr b], hold := waits w s.slot || decide (63 ≤ s.slot.cntld) } (fun s =>
    let va := s.slot.rx a
    let t := s.slot.rx b
    let len := tkBytes t
    if va.toNat % 16 ≠ 0 then s.trap 0x043 va
    else withXl va .write (fun x s1 =>
      if inWindow x s.part.peer = false then s.trap 0x044 va
      else if 2 ^ 20 < x.pa % 2 ^ 20 + len then s.trap 0x043 va
      else if s.denied x len true then s.trap 0x041 va
      else if regionEnd x.pa < x.pa + len then s.trap 0x043 va
      else s1.redeem t (.spad x.pa va)) s) s

/-- The offset is entered in the job's handler table for a class (R90, R318). -/
def State.entered (s : State) (offset cls : Nat) : Bool :=
  s.job.handlers.any (fun h => decide (h.1 = offset) && decide (h.2 / 2 ^ cls % 2 = 1))

/-- `rdm.m xa, xb` (R158): X[xa] is the handler/opcode word. With no place for the message at this core the slot
stalls, before the handler is looked up (log 82). -/
def execRdmM (a b : Reg) (w : BitVec 2) (s : State) : Out :=
  issue (.rdmM a b w) { reads := [xr a, xr b]
                        hold := waits w s.slot || decide (63 ≤ s.slot.cntld) || !(s.coreAt s.cur.1).room 2 } (fun s =>
    let v := s.slot.rx a
    if s.entered (v.toNat % 2 ^ 32) 2 = false then s.trap 0x084 (v &&& 0xFFFFFFFF)
    else s.redeem (s.slot.rx b) (.msg v)) s

/-- `tkdrop`: a drop for a well-formed ticket, no reply and no counter (R160); towards another module the checks of R367, which
name it (log 83). -/
def execTkdrop (a : Reg) (w : BitVec 2) (s : State) : Out :=
  issue (.tkdrop a w) { reads := [xr a], hold := waits w s.slot } (fun s =>
    let t := s.slot.rx a
    if wellFormedTicket t s.slot.jobid = false ∨ s.ticketHomeLive t = false then .next s.retire
    else toPeer (tkPeerOf t) (peerWord (tkPeerOf t)) (fun s =>
      .next (s.access (tkHomeOf t) (tkPeerOf t) (.tkDrop t)).retire) s) s

/-- `tkq`: 5 at issue for a ticket that is not well formed, 4 for one whose home is not live (log 28); else the home is
asked (R160), on another module after the checks of R367, which name `tkq` (log 83). -/
def execTkq (d a : Reg) (w : BitVec 2) (s : State) : Out :=
  issue (.tkq d a w) { reads := [xr a], writes := [xr d], hold := waits w s.slot || decide (63 ≤ s.slot.cntld) } (fun s =>
    let t := s.slot.rx a
    if wellFormedTicket t s.slot.jobid = false then .next (s.setX d 5).retire
    else if s.ticketHomeLive t = false then .next (s.setX d 4).retire
    else toPeer (tkPeerOf t) (peerWord (tkPeerOf t)) (fun s =>
      .next (((s.upd (fun sl => (sl.upLd).pendX d true)).access (tkHomeOf t) (tkPeerOf t) (.tkQuery t d))).retire) s) s

end Sys2Proof.Machine
end

