-- ==== Sys2Proof/Machine/Channels.lean ====
section
/-! DEFINITION. Handle, channel and message instructions and `spawn` at issue, majors 0x28 to 0x2C (R171 to R185, R188,
R190). -/

namespace Sys2Proof.Machine

open Sys2Proof

/-- The number of a handle register, for `TVAL` (Table 09-1). -/
def hnum (h : HReg) : Word := h.setWidth 64

/-- The next identity of a core (R391). -/
def State.nextIdent (s : State) (c : Nat) : Word × State :=
  let n := (s.coreAt c).chans
  (BitVec.ofNat 64 (s.job.tag.toNat * 2 ^ 48 + c * 2 ^ 32 + n),
    s.updCore c (fun k => { k with chans := (k.chans + 1) % 2 ^ 32 }))

/-- A creation request for a slot's `chnew` (R173). -/
def State.askChannel (s : State) (c l : Nat) (hd ha : HReg) (tries : Nat) : State :=
  let (ident, s1) := s.nextIdent c
  let r : ChanReq := { slot := l, gen := (s.slotAt c l).gen, hd := hd, ha := ha, ident := ident, tries := tries, dup := false }
  (s1.updCore c (fun k => { k with reqs := k.reqs ++ [r] })).post (.core c) (s.chanHome s.part.peer ident) 0
    (.chCreate ident c) l (s.slotAt c l).gen

/-- `chnew`: both registers empty, then the slot stays Stalled until the channel home answers (R173). -/
def execChnew (hd ha : HReg) (s : State) : Out :=
  issue (.chnew hd ha) {} (fun s =>
    if (s.slot.rh hd).kind ≠ .empty then s.trap 0x082 (hnum hd)
    else if (s.slot.rh ha).kind ≠ .empty then s.trap 0x082 (hnum ha)
    else
      let s1 := s.askChannel s.cur.1 s.cur.2 hd ha 0
      .next (s1.upd (fun sl => { sl with phase := .asking }))) s

/-- `chdup`: a send end in ha and an empty hd, then the slot stays Stalled until the channel home answers (R174). -/
def execChdup (hd ha : HReg) (s : State) : Out :=
  issue (.chdup hd ha) {} (fun s =>
    let h := s.slot.rh ha
    match h.kind with
    | .empty => s.trap 0x081 (hnum ha)
    | .recv => s.trap 0x083 (hnum ha)
    | .send =>
      if (s.slot.rh hd).kind ≠ .empty then s.trap 0x082 (hnum hd)
      else toPeer h.home (hnum hd) (fun s =>
        let r : ChanReq := { slot := s.cur.2, gen := s.slot.gen, hd := hd, ha := ha, ident := h.ident, tries := 0
                             dup := true }
        let s1 := s.updCore s.cur.1 (fun k => { k with reqs := k.reqs ++ [r] })
        let s2 := s1.post (.core s.cur.1) (s.chanHome h.home h.ident) 0 (.chInst h.ident s.cur.1) s.cur.2 s.slot.gen
        .next (s2.upd (fun sl => { sl with phase := .asking }))) s) s

/-- `hmov` (R175). -/
def execHmov (hd ha : HReg) (s : State) : Out :=
  issue (.hmov hd ha) {} (fun s =>
    let h := s.slot.rh ha
    if h.kind = .empty then s.trap 0x081 (hnum ha)
    else if (s.slot.rh hd).kind ≠ .empty then s.trap 0x082 (hnum hd)
    else .next ((s.setH hd h).setH ha Handle.none).retire) s

/-- `hclr`: closes the end in hd if there is one (R175). -/
def execHclr (hd : HReg) (s : State) : Out :=
  issue (.hclr hd) {} (fun s =>
    let h := s.slot.rh hd
    if h.kind = .empty then .next s.retire
    else toPeers (hnum hd) (fun s => .next ((s.setH hd Handle.none).closeEnd s.cur.1 h).retire) (s.closePeers h) s) s

/-- `chclose` (R176). -/
def execChclose (hd : HReg) (s : State) : Out :=
  issue (.chclose hd) {} (fun s =>
    let h := s.slot.rh hd
    if h.kind = .empty then s.trap 0x081 (hnum hd)
    else toPeers (hnum hd) (fun s => .next ((s.setH hd Handle.none).closeEnd s.cur.1 h).retire) (s.closePeers h) s) s

/-- Released messages of an end that wait at its core. -/
def Core.waitingFor (k : Core) (ident : Word) : Nat :=
  let mine (i : InItem) : Bool := match i with
    | .chan m _ _ _ => decide (m.ident = ident)
    | _ => false
  (k.inq.map (fun e => (e.2.filter mine).length)).sum + (k.spill.filter (fun e => mine e.2)).length

/-- The state of an end (R188, Table 09-3). A receive end is moving while a stub of it lives on this module, or while the
core knows of a handover still to come, whatever module the stub is on. -/
def State.endState (s : State) (h : Handle) : Word :=
  let k := s.coreAt s.cur.1
  match h.kind with
  | .empty => 0
  | .send => BitVec.ofNat 64 (h.credits * 2 ^ 16 + (if h.dead then 8 else 0) + 1)
  | .recv =>
    let bound := (k.ends.find? (fun e => e.ident = h.ident)).any (fun e => e.bind.join.isSome)
    let here := (k.ends.find? (fun e => e.ident = h.ident)).any (fun e => !k.allHanded e)
    let moving := here || s.mach.cores.any (fun e => e.2.stubs.any (fun t => t.ident = h.ident))
    BitVec.ofNat 64 (min 127 (k.waitingFor h.ident) * 2 ^ 16 + (if bound then 32 else 64) + (if moving then 16 else 0) + 2)

/-- `chq`: an empty register reads as kind 0 (R188). -/
def execChq (ha : HReg) (a : Reg) (s : State) : Out :=
  issue (.chq ha a) { writes := [xr a] } (fun s => .next (s.setX a (s.endState (s.slot.rh ha))).retire) s

/-- The checks of an end that sends (R178): its kind, whether it is dead; then, after `own`, those of R61 and R367 towards
another module. -/
def sendEnd (hd : HReg) (own : Handle → Option (Nat × Word)) (k : Handle → State → Out) (s : State) : Out :=
  let h := s.slot.rh hd
  match h.kind with
  | .empty => s.trap 0x081 (hnum hd)
  | .recv => s.trap 0x083 (hnum hd)
  | .send =>
    if h.dead then s.trap 0x080 (hnum hd)
    else
      match own h with
      | some (cause, t) => s.trap cause t
      | none => toPeer h.locPeer (hnum hd) (k h) s

/-- Payload words X[xa], X[xa + 1], … (R112, R178). -/
def payloadOf (sl : Slot) (a : Reg) (n : Nat) : Vector Word 6 :=
  Vector.ofFn (fun i => if i.val < n then sl.rx (regAfter a i.val) else 0)

def payloadRegs (a : Reg) (n : Nat) : List Nat := (List.range n).map (fun i => xr (regAfter a i))

/-- `chseg`: a segment marker takes the next sequence and no credit (R185); a dead end comes before a length that is not valid
(log 115). -/
def execChseg (hd : HReg) (a : Reg) (s : State) : Out :=
  issue (.chseg hd a) { reads := [xr a] } (fun s =>
    let v := s.slot.rx a
    sendEnd hd (fun _ => if v = 0 ∨ 2 ^ 32 ≤ v.toNat then some (0x089, v) else none) (fun h s =>
      .next ((s.sendOn (.core s.cur.1) h 0 (.segMarker v.toNat) 0 noPayload none).setH hd (bumpSeq h)).retire) s) s

/-- A live send end: the end a send goes out on. -/
def liveSend (h : Handle) : Bool := decide (h.kind = .send) && !h.dead

/-- A send end without credit stalls its send (R171, R179). -/
def outOfCredit (h : Handle) : Bool := liveSend h && decide (h.credits = 0)

/-- A send (R178, R179): with no credit it stalls. -/
def sendForm (i : Instr) (cls : Nat) (hd : HReg) (a : Reg) (n : BitVec 3) (s : State) : Out :=
  issue i { reads := payloadRegs a n.toNat, hold := outOfCredit (s.slot.rh hd) } (fun s =>
    sendEnd hd (fun _ => none) (fun h s =>
      let s1 := s.sendOn (.core s.cur.1) h cls .data n.toNat (payloadOf s.slot a n.toNat) none
      .next (s1.setH hd { bumpSeq h with credits := h.credits - 1 }).retire) s) s

/-- `chsend`, class 2 (R178). -/
def execChsend (hd : HReg) (a : Reg) (n : BitVec 3) (s : State) : Out := sendForm (.chsend hd a n) 2 hd a n s

/-- `chsend.lo`, class 3 (R178). -/
def execChsendLo (hd : HReg) (a : Reg) (n : BitVec 3) (s : State) : Out := sendForm (.chsendLo hd a n) 3 hd a n s

/-- `chsend.ctl`, class 0 (R178). -/
def execChsendCtl (hd : HReg) (a : Reg) (n : BitVec 3) (s : State) : Out := sendForm (.chsendCtl hd a n) 0 hd a n s

/-- A send that carries an end (R181, R291, R296): it stalls with no credit, and for a receive end with no place for its stub
(R297). -/
def carryForm (i : Instr) (cls : Nat) (hd ha : HReg) (a : Reg) (n : BitVec 3) (s : State) : Out :=
  let full := liveSend (s.slot.rh hd) && decide ((s.slot.rh ha).kind = .recv) && decide (64 ≤ s.stubsOfTile s.cur.1)
  issue i { reads := payloadRegs a n.toNat, hold := outOfCredit (s.slot.rh hd) || full } (fun s =>
    let e := s.slot.rh ha
    sendEnd hd (fun h =>
        if e.kind = .empty then some (0x081, hnum ha)
        else if e.kind = .recv ∧ e.ident = h.ident then some (0x086, hnum ha) else none) (fun h s =>
      toPeer e.home (hnum hd) (fun s =>
        let s1 := s.sendOn (.core s.cur.1) h cls .dataEnd n.toNat (payloadOf s.slot a n.toNat) (some (moved e))
        let s2 := (s1.setH hd { bumpSeq h with credits := h.credits - 1 }).setH ha Handle.none
        let s3 := if e.kind = .recv then s2.carryRecv s.cur.1 e else s2.carrySend s.cur.1 e
        .next s3.retire) s) s) s

/-- `chsendh`, class 2 (R181). -/
def execChsendh (hd ha : HReg) (a : Reg) (n : BitVec 3) (s : State) : Out := carryForm (.chsendh hd ha a n) 2 hd ha a n s

/-- `chsendh.lo`, class 3 (R181). -/
def execChsendhLo (hd ha : HReg) (a : Reg) (n : BitVec 3) (s : State) : Out := carryForm (.chsendhLo hd ha a n) 3 hd ha a n s

/-- `chsendh.ctl`, class 0 (R181). -/
def execChsendhCtl (hd ha : HReg) (a : Reg) (n : BitVec 3) (s : State) : Out :=
  carryForm (.chsendhCtl hd ha a n) 0 hd ha a n s

/-- Bind the receive end in ha (R182). -/
def bindForm (i : Instr) (ha : HReg) (target : Option Nat) (s : State) : Out :=
  issue i {} (fun s =>
    let h := s.slot.rh ha
    match h.kind with
    | .empty => s.trap 0x081 (hnum ha)
    | .send => s.trap 0x083 (hnum ha)
    | .recv =>
      match target with
      | some off =>
        if (List.range 4).any (fun n => s.entered off n) = false then s.trap 0x084 (BitVec.ofNat 64 off)
        else .next (s.updCore s.cur.1 (fun k => { k with ends := k.ends.map (fun e =>
          if e.ident = h.ident then { e with bind := some (some off), level := s.slot.task.level } else e) })).retire
      | none =>
        .next ((s.updCore s.cur.1 (fun k => { k with ends := k.ends.map (fun e =>
          if e.ident = h.ident then { e with bind := some none, level := s.slot.task.level } else e) })).wakeInbox
            s.cur.1).retire) s

/-- `chbind` to a handler at offset off18 × 4 (R182). -/
def execChbindHandler (ha : HReg) (o : BitVec 18) (s : State) : Out :=
  bindForm (.chbindHandler ha o) ha (some (4 * o.toNat)) s

/-- `chbind` to the inbox (R182). -/
def execChbindInbox (ha : HReg) (s : State) : Out := bindForm (.chbindInbox ha) ha none s

/-- The payload as a task reads it: the words in which an end travels read zero (R181). -/
def readPayload (m : Msg) : List Word :=
  let l := m.payload.toList
  if m.carried.isSome then l.take 4 ++ [0, 0] else l

/-- The head message of a class taken by the slot (R184): its end lands in hd, its words are on their way to the registers. -/
def State.dequeue (s : State) (hd : HReg) (a : Reg) (m : Msg) (segin segend : Bool) (left : Nat) (k : Core) : State :=
  let c := s.cur.1
  let s1 := s.setCore c k
  let s2 := match m.carried with
    | some h => let (t, g) := s1.landEnd c h; t.setH hd g
    | none => s1
  let s3 := (s2.giveCredit (.core c) m).taken c m
  let regs := (List.range 7).map (regAfter a)
  let s4 := s3.upd (fun sl => regs.foldl (fun sl r => sl.pendX r true) { sl.upLd with segleft := BitVec.ofNat 64 left })
  s4.post (.core c) (s.here (.core c)) 4 (.took a (opcodeWord m segin segend 0 :: readPayload m)) s.cur.2 s.slot.gen

/-- Modules to which the dequeue of an item sends something: the credit of its message, and the landing notice of its end. -/
def dequeuePeers : InItem → List Peer
  | .chan m _ _ _ => m.src.peer :: (m.carried.map (·.home)).toList
  | _ => []

/-- `inbox.dq` and `inbox.try` (R184). Both stall for `CNTLD` and for pending registers, whether a message is there or not (log
116), and for the cycle in which a stub of the core has withdrawn a message, since a dequeue of one cycle goes before a withdrawal of
it (R306; log 122); what the dequeue sends to another module has the checks of R367 (log 94). -/
def inboxForm (i : Instr) (wait : Bool) (hd : HReg) (a : Reg) (n : BitVec 3) (s : State) : Out :=
  let regs := (List.range 7).map (fun j => xr (regAfter a j))
  let away := (((s.coreAt s.cur.1).takeItem n.toNat (s.coreAt s.cur.1).forInbox).map (fun e => dequeuePeers e.1)).getD []
  issue i { writes := regs, hold := decide (63 ≤ s.slot.cntld) || s.heldBack away || decide ((s.coreAt s.cur.1).withdrewAt = some s.now) } (fun s =>
    let k := s.coreAt s.cur.1
    if (s.slot.rh hd).kind ≠ .empty then s.trap 0x082 (hnum hd)
    else
      match k.takeItem n.toNat k.forInbox with
      | some (.chan m segin segend left, k1) =>
        toPeers (hnum hd) (fun s => .next (s.dequeue hd a m segin segend left k1).retire) away s
      | _ =>
        if wait then .next (s.upd (fun sl => { sl with phase := .blocked (.inbox n.toNat a hd) }))
        else .next (s.setX a 0).retire) s

/-- `inbox.dq` (R184). -/
def execInboxDq (hd : HReg) (a : Reg) (n : BitVec 3) (s : State) : Out := inboxForm (.inboxDq hd a n) true hd a n s

/-- `inbox.try` (R184). -/
def execInboxTry (hd : HReg) (a : Reg) (n : BitVec 3) (s : State) : Out := inboxForm (.inboxTry hd a n) false hd a n s

/-- `spawn` (R190): stalled while the run queue is full; with a cancel pending at the level it creates nothing, and a count
that would overflow refuses the creation (R258). The raise of a level of another module goes to that module (R61, R271, R367). -/
def execSpawn (a : Reg) (p : BitVec 2) (o : BitVec 18) (s : State) : Out :=
  let c := s.cur.1
  issue (.spawn a p o) { reads := payloadRegs a 3
                         hold := !s.cancelPending s.slot.task.level && !s.runRoom c } (fun s =>
    let k := s.slot.task.level
    if s.cancelPending k then .next s.retire
    else if s.countFull k then .next (s.overflowRecord c k).retire
    else
      let args := (List.range 3).map (fun j => (BitVec.ofNat 5 (10 + j), s.slot.rx (regAfter a j)))
      toPeer (s.levelPeer k) (peerWord (s.levelPeer k)) (fun s =>
        .next (s.enqueue c { s.newTask .spawned p.toNat k (4 * o.toNat) with regs := args }).retire) s) s

end Sys2Proof.Machine
end

