-- ==== Sys2Proof/Machine/Fences.lean ====
section
/-! DEFINITION. Waits, fences, seal, hints and the journal, majors 0x24, 0x25 and 0x39 (R162 to R166). -/

namespace Sys2Proof.Machine

open Sys2Proof

/-- A fence holds issue as a wait field does and has no other effect (R162, Table 03-3). -/
def fenceForm (i : Instr) (w : BitVec 2) (s : State) : Out :=
  issue i { hold := waits w s.slot } (fun s => .next s.retire) s

/-- `fence.tile` waits for nothing (R162). -/
def execFenceTile (s : State) : Out := fenceForm .fenceTile 0 s

/-- `fence.cluster` (R162). -/
def execFenceCluster (s : State) : Out := fenceForm .fenceCluster 1 s

/-- `fence.die` (R162). -/
def execFenceDie (s : State) : Out := fenceForm .fenceDie 2 s

/-- `fence.package` (R162). -/
def execFencePackage (s : State) : Out := fenceForm .fencePackage 2 s

/-- `fence.system` (R162). -/
def execFenceSystem (s : State) : Out := fenceForm .fenceSystem 3 s

/-- A counter above its limit, 31 meaning none (Table 03-3). -/
def overLimit (l : BitVec 5) (n : Nat) : Bool := decide (l.toNat ≠ 31) && decide (l.toNat < n)

/-- `wait l, s, c, t` (R162). -/
def execWait (l st c t : BitVec 5) (s : State) : Out :=
  let sl := s.slot
  issue (.wait l st c t) { hold := overLimit l sl.cntld || overLimit st sl.cntst || overLimit c sl.cntcp || overLimit t sl.cnttl }
    (fun s => .next s.retire) s

/-- Translation for `seal` and `unseal`: a write, to which a page that is sealed already is no obstacle (R163; log 27). -/
def withSealable (va : Word) (k : State → Out) (s : State) : Out :=
  match s.translate s.cur.1 va .write with
  | (s1, .ok _) => k s1
  | (s1, .bad cause index) => if cause = 0x042 then k s1 else s.trapIdx cause index va

/-- `seal` and `unseal` (R163): the range is checked and the request goes to Armature. A range that runs past 2^64 is no range of
whole pages, and fails with the others' cause 0x046 (log 112). -/
def sealForm (i : Instr) (on : Bool) (a b : Reg) (s : State) : Out :=
  issue i { reads := [xr a, xr b] } (fun s =>
    let base := s.slot.rx a
    let len := s.slot.rx b
    let win := s.job.sramBase.toNat
    let stop := base.toNat + len.toNat
    if base.toNat % 65536 ≠ 0 ∨ len.toNat % 65536 ≠ 0 ∨ len = 0 ∨ 2 ^ 64 < stop ∨
        (base.toNat < win + 2 ^ 30 ∧ win < stop) then s.trap 0x046 base
    else withSealable base (withSealable (base + len - 1) (fun s1 =>
      .next (s1.post (.core s.cur.1) (s.here .armature) 0 (.sealReq on base len s.slot.treply s.cur.1 s.slot.task.level)
        s.cur.2 s.slot.gen).retire)) s) s

/-- `seal` (R163). -/
def execSeal (a b : Reg) (s : State) : Out := sealForm (.seal a b) true a b s

/-- `unseal` (R163). -/
def execUnseal (a b : Reg) (s : State) : Out := sealForm (.unseal a b) false a b s

/-- `pref`: sixteen on the page's count (R164, R283), by word of Armature for a page of another module (log 96); a failed
translation makes it do nothing. It translates as a read of the page's home, so that a page without read permission counts nothing
(log 113). -/
def execPref (a b : Reg) (s : State) : Out :=
  issue (.pref a b) { reads := [xr a, xr b] } (fun s =>
    match s.translate s.cur.1 (s.slot.rx a + s.slot.rx b) .home with
    | (_, .bad _ _) => .next s.retire
    | (s1, .ok x) =>
      if x.e.peer = s.part.peer then .next (s1.countPref x.pa (s.here (.core s.cur.1))).retire
      else .next (s1.post .armature { peer := x.e.peer, agent := .armature } 1 (.prefCount x.pa (s.here (.core s.cur.1))) 0 0).retire) s

/-- The code of an operation kind (Table 08-10). -/
def kindCode : WKind → Nat
  | .st => 0 | .stFe => 1 | .feSet => 2 | .feClr => 3 | .anadd => 4 | .vst => 5 | .scat => 6

/-- One word of a journal entry (R165, Table 08-10). -/
def JEntry.word (e : JEntry) (n : Nat) : Word :=
  if n = 0 then
    BitVec.ofNat 64 (2 ^ 63 + (if e.refused then 2 ^ 62 + e.reason * 2 ^ 59 else 0) + e.cls * 2 ^ 57 +
      kindCode e.kind * 2 ^ 53 + e.gen.toNat * 2 ^ 32 + e.len * 2 ^ 16 + e.home)
  else if n = 1 then BitVec.ofNat 64 (e.pa % 2 ^ 52)
  else if n ≤ 9 then e.data.extractLsb' (64 * (n - 2)) 64
  else 0

/-- The entry X[xa][4:0], if it is the slot's own at its present generation (R165, R166). -/
def State.ownEntry (s : State) (v : Word) : Option JEntry :=
  match AMap.get (s.coreAt s.cur.1).journal (v.toNat % 32) with
  | some e => if e.slot = s.cur.2 ∧ e.gen = s.slot.gen then some e else none
  | none => none

/-- `jrd` (R165). -/
def execJrd (d a : Reg) (s : State) : Out :=
  issue (.jrd d a) { reads := [xr a], writes := [xr d] } (fun s =>
    let v := s.slot.rx a
    let w := match s.ownEntry v with
      | some e => e.word (bitsOf v.toNat 8 5)
      | none => 0
    .next (s.setX d w).retire) s

/-- Counters of a journalled write lowered: `CNTST` and its class (R24). -/
def Slot.downSt (sl : Slot) (cls : Nat) : Slot :=
  { sl with
    cntst := sl.cntst - 1
    stc := if cls = 1 then sl.stc - 1 else sl.stc
    stp := if cls = 2 then sl.stp - 1 else sl.stp
    stx := if cls = 3 then sl.stx - 1 else sl.stx }

/-- `jdrop`: the slot's own refused entry is freed and its counters lowered; a cause 0x060 not yet delivered for it goes with
it (R166). -/
def execJdrop (a : Reg) (s : State) : Out :=
  issue (.jdrop a) { reads := [xr a] } (fun s =>
    let n := (s.slot.rx a).toNat % 32
    match s.ownEntry (s.slot.rx a) with
    | none => .next s.retire
    | some e =>
      if e.refused = false then .next s.retire
      else
        let async := if e.undelivered then
            (match takeFirst (fun (q : Async) => match q with | .store _ => true | .load _ => false) s.slot.async with
              | some (_, r) => r
              | none => s.slot.async)
          else s.slot.async
        let s1 := s.updCore s.cur.1 (fun k => { k with journal := AMap.del k.journal n })
        .next (s1.upd (fun sl => { sl.downSt e.cls with async := async })).retire) s

end Sys2Proof.Machine
end

