-- ==== Sys2Proof/Machine/VectorMem.lean ====
section
/-! DEFINITION. Vector loads and stores at issue, majors 0x34 to 0x37 (R167 to R169), with the order of scale and element
reads of R74. -/

namespace Sys2Proof.Machine

open Sys2Proof

/-- A page is plain for a type (R167); BLK is ignored where the format is never scaled (R71). -/
def plainFor (a : BitVec 8) (ty : Nat) : Bool :=
  decide (fmtOf a = 15) || (decide (fmtOf a = ty) && (decide (blkOf a = 0) || !mayScale ty))

/-- A vector load with nothing arrived. -/
def vload (r : Reg) (left : Nat) : VLoad :=
  { reg := r, left := left, bytes := [], poison := none, how := 0, ty := 0, fmt := 0, elt := 0, mode := 0, seed := 0
    later := [], scales := [], scaleBase := 0, peer := 0 }

/-- vd pending, `CNTLD` raised, and what is to be done with the parts kept by the slot. -/
def State.startVLoad (s : State) (v : VLoad) : State :=
  s.upd (fun sl => { (sl.upLd).pendV v.reg true with loads := sl.loads ++ [v] })

/-- 64 bytes into vd as they are (R167, R168). -/
def State.sendVec (s : State) (x : Xl) (d : Reg) : State :=
  (s.startVLoad (vload d 1)).access (s.xlHome x) x.e.peer (.load x.pa 64 (.vpart d 0))

/-- The pieces of at most 64 bytes of a run. -/
def pieces (pa len : Nat) : List (Nat × Nat) :=
  (List.range ((len + 63) / 64)).map (fun i => (pa + 64 * i, min 64 (len - 64 * i)))

/-- The scales that a decoding load reads: the physical address of the first and how many (R72, R74). -/
def scaleRun (x : Xl) (va ty : Nat) : Nat × Nat :=
  let g := blockLen (blkOf x.e.fmt)
  let j := eltAt x va
  (x.e.scale + j / g, (j % g + lanes ty + g - 1) / g)

/-- A decoding load (R73, R74, R167): without scales its element reads go at once, with scales after their reply. -/
def State.sendDecode (s : State) (x : Xl) (va : Nat) (d : Reg) (ty len : Nat) : State :=
  let a := x.e.fmt
  let j := eltAt x va
  let g := blockLen (blkOf a)
  let ps := pieces x.pa len
  let v : VLoad := { vload d ps.length with
    how := 1, ty := ty, fmt := a, elt := j, mode := s.slot.frm.toNat, seed := s.slot.fseed, peer := x.e.peer }
  if scaled a then
    let (first, n) := scaleRun x va ty
    let sh := s.xlHome { x with pa := first }
    (s.startVLoad { v with later := ps, scaleBase := j / g }).access sh x.e.peer (.load first n (.vscale d))
  else
    (ps.zipIdx).foldl (fun s p => s.access (s.xlHome x) x.e.peer (.load p.1.1 p.1.2 (.vpart d p.2))) (s.startVLoad v)

/-- The address of majors 0x34, 0x35 and 0x37: X[xa] + sext(off11) × 16 (R167). -/
def vecAddr (sl : Slot) (a : Reg) (o : BitVec 11) : Word := sl.rx a + sx o * 16

/-- `vld` (R167): misalignment to 64 comes before translation, misalignment to the bytes of a decoded load after it and
before the regions of the slice, those of the block scales among them (log 81, log 143). -/
def execVld (d a : Reg) (w : BitVec 2) (t : BitVec 3) (o : BitVec 11) (s : State) : Out :=
  issue (.vld d a w t o) { lack := vecLack s, reads := [xr a], writes := [vr d]
                           hold := waits w s.slot || decide (63 ≤ s.slot.cntld) } (fun s =>
    let va := vecAddr s.slot a o
    let ty := t.toNat
    if va.toNat % 64 ≠ 0 then s.trap 0x043 va
    else withXl va .read (fun x s1 =>
      let plain := plainFor x.e.fmt ty
      let len := if plain then 64 else lanes ty * width (fmtOf x.e.fmt) / 8
      if va.toNat % len ≠ 0 then s.trap 0x043 va
      else if s.denied x len false ∨ (plain = false ∧ scaled x.e.fmt ∧
          s.denied { x with pa := (scaleRun x va.toNat ty).1 } (scaleRun x va.toNat ty).2 false) then s.trap 0x041 va
      else toPage x (fun _ =>
        if plain then .next (s1.sendVec x d).retire else .next (s1.sendDecode x va.toNat d ty len).retire) s) s) s

/-- `vst` to a plain page (R167). -/
def execVst (r a : Reg) (w : BitVec 2) (t : BitVec 3) (o : BitVec 11) (s : State) : Out :=
  issue (.vst r a w t o) { lack := vecLack s, reads := [xr a, vr r]
                           hold := waits w s.slot || decide (63 ≤ s.slot.cntst) } (fun s =>
    let va := vecAddr s.slot a o
    if va.toNat % 64 ≠ 0 then s.trap 0x043 va
    else withXl va .write (fun x s1 =>
      if s.denied x 64 true then s.trap 0x041 va
      else if plainFor x.e.fmt t.toNat = false then s.trap 0x045 va
      else toPage x (fun _ =>
        s1.sendStore x .vst 64 (s.slot.rv r) State.retire) s) s) s

/-- `vld.raw` (R168). -/
def execVldRaw (d a : Reg) (w : BitVec 2) (o : BitVec 11) (s : State) : Out :=
  issue (.vldRaw d a w o) { lack := vecLack s, reads := [xr a], writes := [vr d]
                            hold := waits w s.slot || decide (63 ≤ s.slot.cntld) } (fun s =>
    let va := vecAddr s.slot a o
    if va.toNat % 64 ≠ 0 then s.trap 0x043 va
    else withAccess va 64 false (fun x s1 => .next (s1.sendVec x d).retire) s) s

/-- `vst.raw` (R168). -/
def execVstRaw (r a : Reg) (w : BitVec 2) (o : BitVec 11) (s : State) : Out :=
  issue (.vstRaw r a w o) { lack := vecLack s, reads := [xr a, vr r]
                            hold := waits w s.slot || decide (63 ≤ s.slot.cntst) } (fun s =>
    let va := vecAddr s.slot a o
    if va.toNat % 64 ≠ 0 then s.trap 0x043 va
    else withAccess va 64 true (fun x s1 => s1.sendStore x .vst 64 (s.slot.rv r) State.retire) s) s

/-- The active lanes of a mask for a type (R200). -/
def activeLanes (m : Word) (ty : Nat) : List Nat := (List.range (lanes ty)).filter (fun i => m.getLsbD i)

/-- Every active lane's address aligned and translated in lane order (R144 steps 4 and 5, R169): the first failure is the
answer. -/
def State.lanesXl (s : State) (ty : Nat) (write : Bool) (va : Nat → Word) :
    List Nat → State × Except (Nat × Nat × Word) (List (Nat × Xl))
  | [] => (s, .ok [])
  | i :: t =>
    let a := va i
    let size := width ty / 8
    if a.toNat % size ≠ 0 then (s, .error (0x043, 0, a))
    else
      match s.translate s.cur.1 a (if write then .write else .read) with
      | (_, .bad cause index) => (s, .error (cause, index, a))
      | (s1, .ok x) =>
        if s.denied x size write then (s, .error (0x041, 0, a))
        else
          match State.lanesXl s1 ty write va t with
          | (s2, .ok l) => (s2, .ok ((i, x) :: l))
          | (s2, .error e) => (s2, .error e)

/-- The first lane whose page is not plain for the type (R144 step 6, R169). -/
def unplainLane (ty : Nat) (l : List (Nat × Xl)) : Option Nat :=
  (l.find? (fun e => !plainFor e.2.e.fmt ty)).map (·.1)

/-- The checks towards other modules in lane order, then `k`. -/
def State.lanesPeers (s : State) (k : State → Out) : List (Nat × Xl) → Out
  | [] => k s
  | (_, x) :: t => toPage x (fun s => State.lanesPeers s k t) s

/-- After every lane has been translated: the pages' formats, then the checks towards other modules, then `k`. -/
def State.lanesPass (s : State) (ty : Nat) (va : Nat → Word) (l : List (Nat × Xl)) (k : State → Out) : Out :=
  match unplainLane ty l with
  | some i => s.trap 0x045 (va i)
  | none => s.lanesPeers k l

/-- `vlds` and `vgath` (R169): inactive lanes of vd keep their bits. -/
def laneLoad (i : Instr) (reads : List Nat) (d : Reg) (m : MReg) (t : BitVec 3) (w : BitVec 2) (va : Slot → Nat → Word)
    (s : State) : Out :=
  let reads := if m = 0 then reads else reads ++ [vr d]
  issue i { lack := vecLack s, reads := reads, writes := [vr d]
            hold := waits w s.slot || decide (63 ≤ s.slot.cntld) } (fun s =>
    let ty := t.toNat
    let act := activeLanes (s.slot.rm m) ty
    match s.lanesXl ty false (va s.slot) act with
    | (_, .error (cause, index, a)) => s.trapIdx cause index a
    | (s1, .ok ls) =>
      s.lanesPass ty (va s.slot) ls (fun _ =>
        if ls.isEmpty then .next (s1.setV d (s.slot.rv d)).retire
        else
          let s2 := s1.startVLoad { vload d ls.length with how := 2, ty := ty }
          .next ((ls.foldl (fun s e => s.access (s.xlHome e.2) e.2.e.peer
            (.load e.2.pa (width ty / 8) (.vpart d e.1))) s2)).retire)) s

/-- `vlds`: lane i at X[xa] + i × X[xb] (R169). -/
def execVlds (d a b : Reg) (m : MReg) (t : BitVec 3) (w : BitVec 2) (s : State) : Out :=
  laneLoad (.vlds d a b m t w) [xr a, xr b] d m t w (fun sl i => sl.rx a + BitVec.ofNat 64 i * sl.rx b) s

/-- The index of a lane: sext(V[vb] lane i, 32) (R169). -/
def laneIndex (v : VWord) (i : Nat) : Word := sx (BitVec.ofNat 32 (laneOf v 32 i))

/-- `vgath` (R169). -/
def execVgath (d a b : Reg) (m : MReg) (t : BitVec 3) (w : BitVec 2) (s : State) : Out :=
  laneLoad (.vgath d a b m t w) [xr a, vr b] d m t w (fun sl i => sl.rx a + laneIndex (sl.rv b) i) s

/-- The lane stores sent in lane order. -/
def State.putLanes (s : State) (ty : Nat) (v : VWord) : List (Nat × Xl) → Option State
  | [] => some s
  | (i, x) :: t =>
    (s.putStore x .scat (width ty / 8) (BitVec.ofNat 512 (laneOf v (width ty) i))).bind (fun s => State.putLanes s ty v t)

/-- `vscat` (R169): it stalls until `CNTST` has room for all its lanes and the journal for all that are remote. -/
def execVscat (r a b : Reg) (m : MReg) (t : BitVec 3) (w : BitVec 2) (s : State) : Out :=
  let ty := t.toNat
  let act := activeLanes (s.slot.rm m) ty
  issue (.vscat r a b m t w) { lack := vecLack s, reads := [xr a, vr b, vr r]
                               hold := waits w s.slot || decide (63 < s.slot.cntst + act.length) } (fun s =>
    let va (i : Nat) : Word := s.slot.rx a + laneIndex (s.slot.rv b) i
    match s.lanesXl ty true va act with
    | (_, .error (cause, index, a)) => s.trapIdx cause index a
    | (s1, .ok ls) =>
      s.lanesPass ty va ls (fun _ =>
        match s1.putLanes ty (s.slot.rv r) ls with
        | none => .next s.stall
        | some t => .next t.retire)) s

end Sys2Proof.Machine
end

