-- ==== Sys2Proof/Machine/TileCmds.lean ====
section
/-! DEFINITION. Shape records and tile commands at issue, major 0x38, and `amsg` (R115 to R118, R189, R214 to R222, R229): the
checks in the order of R218, the command word with its translated addresses, and its way to an engine. -/

namespace Sys2Proof.Machine

open Sys2Proof

/-- A shape record by fields (Table 06-12). -/
structure Shape where
  base : Nat
  rp : Nat
  tp : Nat
  rows : Nat
  cols : Nat
  rot : Nat
  kind : Nat
  fmt : Nat
  top : Nat
  deriving DecidableEq, Repr

def shapeOf (v : BitVec 128) : Shape :=
  let n := v.toNat
  { base := bitsOf n 47 0, rp := bitsOf n 63 48, tp := bitsOf n 95 64, rows := bitsOf n 103 96, cols := bitsOf n 111 104
    rot := bitsOf n 115 112, kind := bitsOf n 119 116, fmt := bitsOf n 123 120, top := bitsOf n 127 124 }

/-- Registers of a KIND 1 group over `t` k-tiles (R215, R224). -/
def Shape.groupLen (r : Shape) (t : Nat) : Nat := ((t - 1) * r.tp * 16 + r.rows * r.cols * 16 + 63) / 64

/-- The group fits in 8 registers and does not pass v31. -/
def Shape.groupOk (r : Shape) (t : Nat) : Bool :=
  decide (r.groupLen t ≤ 8) && decide (r.base % 32 + r.groupLen t ≤ 32)

/-- The registers of a group, for checks: every one up to v31, of a group that is too long as well (R218 step 3). -/
def Shape.group (r : Shape) (t : Nat) : List Reg :=
  (List.range (min (r.groupLen t) (32 - r.base % 32))).map (fun i => BitVec.ofNat 5 (r.base % 32 + i))

/-- The checks of R217 on a record that is not all zero. -/
def Shape.aligned (r : Shape) : Bool :=
  decide (r.rows ≠ 0) && decide (r.cols ≠ 0) && decide (r.top = 0) && decide (r.fmt ≤ 7) &&
    (if r.kind = 0 then
      decide (r.base % 16 = 0) && (decide (r.rows ≤ 1) || decide (r.cols ≤ r.rp)) && decide (r.rot ≤ 6) &&
        decide (r.cols % 2 ^ r.rot = 0)
    else decide (r.kind = 1) && decide (r.base < 32) && decide (r.rp = 0) && decide (r.rot = 0) && r.groupOk 1)

/-- A core without a shape table: a streamer core or a gateway core (R214). -/
def shapeLack (s : State) : Option Nat := if isCompute s.cur.1 then none else some 5

/-- `shp` (R214, R217, R270). -/
def execShp (a b n : Reg) (s : State) : Out :=
  issue (.shp a b n) { lack := shapeLack s, reads := [xr a, xr b] } (fun s =>
    let v : BitVec 128 := s.slot.rx b ++ s.slot.rx a
    if v ≠ 0 ∧ (shapeOf v).aligned = false then s.trap 0x048 (s.slot.rx a)
    else
      let s1 := s.updCore s.cur.1 (fun k => { k with shapes := AMap.set k.shapes (n.toNat % 16) v })
      .next ((s1.upd (fun sl => { sl with task := { sl.task with pinned := true } })).retire)) s

/-! ### The operations (Tables 06-10, 11-2) -/

/-- Engine class of an operation, none for an undefined one. -/
def classOf (op : Nat) : Option Nat :=
  if 1 ≤ op ∧ op ≤ 6 then some 0
  else if [0x10, 0x11, 0x12, 0x13, 0x40, 0x41].contains op then some 1
  else if op = 0x20 then some 2
  else if op = 0x30 ∨ op = 0x31 then some 3
  else none

/-- The q values that a class accepts. -/
def classAccepts (cls q : Nat) : Bool :=
  match cls with
  | 0 => decide (q = 0)
  | 1 => [1, 2, 4].contains q
  | 2 => decide (q = 3)
  | _ => decide (q = 2)

def isMma (op : Nat) : Bool := decide (1 ≤ op) && decide (op ≤ 3)

/-- The record named by SHA, by SHB is read (Table 11-2). -/
def usesA (op : Nat) : Bool := isMma op || [5, 0x11, 0x13, 0x40].contains op
def usesB (op : Nat) : Bool := isMma op || [4, 0x11, 0x13, 0x40].contains op

/-- The core-kind checks of R212 and R214. -/
def tileLack (c op q : Nat) : Option Nat :=
  if isGateway c then
    (if q ≤ 3 ∨ ¬[0x10, 0x41].contains op then some 5 else none)
  else if isStreamer c ∧ (usesA op ∨ usesB op) then some 5
  else none

/-- Fields of W0 (Table 06-11). -/
def w0Sha (w : Word) : Nat := bitsOf w.toNat 51 48
def w0Shb (w : Word) : Nat := bitsOf w.toNat 47 44
def w0Flags (w : Word) : Nat := bitsOf w.toNat 39 32
def w0Acc (w : Word) : Nat := bitsOf w.toNat 23 0

/-- The format override, if it is valid. -/
def w0Fovr (w : Word) : Option (BitVec 8) :=
  if w.getLsbD 31 then some (BitVec.ofNat 8 (bitsOf w.toNat 30 24)) else none

/-- The operation reads FLAGS, the format override, ACC (Table 11-2, R221). -/
def usesFlags (op : Nat) : Bool := isMma op || [4, 5, 0x11, 0x13, 0x41].contains op
def usesFovr (op : Nat) : Bool := isMma op || [4, 5].contains op
def usesAcc (op : Nat) : Bool := isMma op || [4, 5, 6, 0x10, 0x11, 0x12, 0x20, 0x30, 0x41].contains op

/-- A field of W0 kept where the operation uses it, else zero (R116). -/
def keepField (used : Bool) (w : Word) (hi lo : Nat) : Nat := if used then bitsOf w.toNat hi lo * 2 ^ lo else 0

/-- W0 of a command (R116): the op, its class and the fields of X[xa] that the operation uses. -/
def tileW0 (op : Nat) (v : Word) : Word :=
  BitVec.ofNat 64 (op * 2 ^ 56 + (classOf op).getD 0 * 2 ^ 52 + keepField (usesA op) v 51 48 + keepField (usesB op) v 47 44 +
    keepField (usesFlags op) v 39 32 + keepField (usesFovr op) v 31 24 + keepField (usesAcc op) v 23 0)

/-- k-tiles, or tiles, that operand A's record stands for. -/
def ktiles (op : Nat) (w0 : Word) : Nat := if isMma op then w0Flags w0 % 16 + 1 else 1

/-- A record of the core's shape table (R32). -/
def State.shape (s : State) (n : Nat) : BitVec 128 := (AMap.get (s.coreAt s.cur.1).shapes n).getD 0

/-- Operand A's vector register group, where the operation allows one and the record names one (R215). -/
def State.groupOf (s : State) (op : Nat) (w0 : Word) : List Reg :=
  let r := shapeOf (s.shape (w0Sha w0))
  if (isMma op || decide (op = 5)) && decide (r.kind = 1) then r.group (ktiles op w0) else []

/-- Byte offset of granule (t, r, c) from an operand's base (R216). -/
def Shape.off (r : Shape) (t i c : Nat) : Nat :=
  t * r.tp * 16 + i * r.rp * 16 + (if r.rot = 0 then c else c ^^^ (i % 2 ^ r.rot)) * 16

/-- Bytes from the base to the end of the last row of `t` tiles. -/
def Shape.extent (r : Shape) (t : Nat) : Nat := (t - 1) * r.tp * 16 + (r.rows - 1) * r.rp * 16 + r.cols * 16

/-- The runs that `t` tiles touch: one per row. -/
def Shape.runs (r : Shape) (t : Nat) : List (Nat × Nat) :=
  ((List.range t).map (fun i => (List.range r.rows).map (fun j => (i * r.tp * 16 + j * r.rp * 16, r.cols * 16)))).flatten

/-! ### Translation of address words (R220) -/

/-- A run of bytes of a translated range that a command may not touch: a region without program access, or the trailing B slot
written during a sweep (R33, R38). -/
def State.runDenied (s : State) (x : Xl) (off len : Nat) (write : Bool) : Bool :=
  let o := (x.pa + off) % 2 ^ 20
  decide (x.e.peer = s.part.peer) && decide (x.pa < 2 ^ 30) &&
    (decide (0xB0000 < o + len) ||
      (write && decide (0xA0000 < o + len) && (s.clusterAt (clusterOf ((x.pa + off) / 2 ^ 20))).sweep))

/-- Bytes from an address to the end of its translation leaf. -/
def leafLeft (x : Xl) (va : Nat) : Nat := x.e.leafVa + x.e.leafLen - va

/-- A sealed page of this module as an engine of the own tile reads it: at the replica on the die, if there is one (R57, R282). -/
def State.nearRead (s : State) (q : Nat) (x : Xl) : Xl :=
  if q ≠ 4 ∧ x.e.sealed ∧ x.e.peer = s.part.peer ∧ x.e.leafLen = 2 ^ 16 then
    { x with pa := (s.replica (x.e.frame / 2 ^ 16) (dieOf (tileOf s.cur.1))).getD x.e.frame + x.pa % 2 ^ 16 }
  else x

/-- A range of a command for queue `q` translated and checked (R220): its alignment and length before its translation, then the
leaf's end, then its regions, and one address word wholly before the next (log 144). A streamer of another bank reads sources at their
home, whose frames of one leaf follow each other. -/
def withRange (q : Nat) (va : Word) (align len : Nat) (runs : List (Nat × Nat)) (write : Bool) (k : Xl → State → Out) (s : State) :
    Out :=
  if va.toNat % align ≠ 0 ∨ len % align ≠ 0 then s.trap 0x049 va
  else withXl va (if write then .write else .home) (fun x0 s1 =>
    let x := if write then x0 else s.nearRead q x0
    if leafLeft x va.toNat < len then s.trap 0x049 va
    else if runs.any (fun r => s.runDenied x r.1 r.2 write) then s.trap 0x041 va
    else toPage x (fun _ => k x s1) s) s

/-- A linear range. -/
def withLinear (q : Nat) (va : Word) (len : Nat) (write : Bool) (k : Xl → State → Out) (s : State) : Out :=
  withRange q va 16 len [(0, len)] write k s

/-- A shaped operand: BASE plus the word (R219). -/
def withShaped (q : Nat) (r : Shape) (t : Nat) (w : Word) (write : Bool) (k : Word → Xl → State → Out) (s : State) : Out :=
  let va := BitVec.ofNat 64 r.base + w
  withRange q va 16 (r.extent t) (r.runs t) write (k va) s

/-- An address word (R116). -/
def addrWord (x : Xl) : Word := BitVec.ofNat 64 (x.e.fmt.toNat * 2 ^ 52 + x.pa % 2 ^ 52)

/-! ### Effective formats (R221) -/

/-- The effective format of an operand. -/
def effFmt (ovr : Option (BitVec 8)) (leaf : Option TlbE) (r : Shape) : BitVec 8 :=
  match ovr, leaf with
  | some f, _ => f
  | none, some e => if fmtOf e.fmt ≠ 15 then e.fmt else BitVec.ofNat 8 r.fmt
  | none, none => BitVec.ofNat 8 r.fmt

/-- Element number of a byte of an operand, `at_` the bytes of its leaf before the operand (R72). -/
def eltNo (f : BitVec 8) (at_ off : Nat) : Nat := (at_ + off) * 8 / width (fmtOf f)

/-- The block checks of R221: scales need a leaf that has them, and rows that start at a block boundary. An effective format
whose FMT is none of Table 04-1's names no element and fails with them, also that of ACCLD and ACCST, for which R221 and
Table 11-2 name no check (R63; log 110). -/
def blocksOk (f : BitVec 8) (leaf : Option TlbE) (at_ : Nat) (runs : List (Nat × Nat)) : Bool :=
  decide (fmtOf f ≤ 7) &&
    (decide (blkOf f = 0) ||
      (match leaf with
        | none => false
        | some e => decide (blkOf e.fmt ≠ 0) &&
          (!scaled f || runs.all (fun r => decide (eltNo f at_ r.1 % blockLen (blkOf f) = 0)))))

/-- Elements of a row of an operand. -/
def Shape.elts (r : Shape) (f : BitVec 8) : Nat := r.cols * 128 / width (fmtOf f)

/-- The formats of a matrix command (R224). -/
def mmaFormats (op : Nat) (fa fb : Nat) : Bool :=
  let ok (f : Nat) : Bool := [1, 2, 3, 4, 6].contains f
  if op = 3 then decide (fb = 5) && ok fa
  else ok fa && ok fb && (decide (fa = 1) == decide (fb = 1))

/-! ### The command and its way to an engine -/

/-- A run of physical bytes touches slot `w` of a tile's Frieze. -/
def touchesSlot (tile w pa len : Nat) : Bool :=
  let lo := tile * 2 ^ 20 + 0x80000 + w * 0x10000
  decide (pa < lo + 0x10000) && decide (lo < pa + len)

/-- The slots of the own tile's Frieze of which a test holds, for a range in the slices. -/
def State.friezeSlots (s : State) (x : Xl) (p : Nat → Bool) : List Nat :=
  if isGateway s.cur.1 = false ∧ x.e.peer = s.part.peer ∧ x.pa < 2 ^ 30 then [0, 1, 2].filter p else []

/-- The slots of the own tile's Frieze that runs of a translated range, by their offsets and lengths, lie in (R236). -/
def State.friezeRead (s : State) (x : Xl) (runs : List (Nat × Nat)) : List Nat :=
  s.friezeSlots x (fun w => runs.any (fun r => touchesSlot (tileOf s.cur.1) w (x.pa + r.1) r.2))

/-- A run of bytes cut at multiples of 64. -/
def lineCuts : Nat → Nat → Nat → List (Nat × Nat)
  | 0, _, _ => []
  | fuel + 1, pa, len =>
    if len = 0 then []
    else
      let n := min len (64 - pa % 64)
      (pa, n) :: lineCuts fuel (pa + n) (len - n)

/-- Blocks of an operand that a run of its bytes touches (R72). -/
def blocksOf (f : BitVec 8) (leaf off len : Nat) : Nat × Nat :=
  let g := blockLen (blkOf f)
  (eltNo f leaf off / g, (eltNo f leaf (off + len) - 1) / g)

/-- The physical runs of an operand's block scales (R72). -/
def scaleRuns (r : Shape) (t : Nat) (f : BitVec 8) (leaf sc : Nat) : List (Nat × Nat) :=
  if scaled f then
    ((r.runs t).map (fun q =>
      let (b0, b1) := blocksOf f leaf q.1 q.2
      lineCuts (b1 - b0 + 2) (sc + b0) (b1 + 1 - b0))).flatten
  else []

/-- A block scale of an operand lies in a region that a command may not touch (R33, R38, R72): its cause comes, with the operand's
address, once the operand's blocks are known to be right (log 143). -/
def State.scalesDenied (s : State) (x : Xl) (r : Shape) (t : Nat) (va : Word) (f : BitVec 8) (write : Bool) : Bool :=
  blocksOk f (some x.e) (va.toNat - x.e.spanVa) (r.runs t) &&
    (scaleRuns r t f (va.toNat - x.e.spanVa) x.e.scale).any (fun q => s.runDenied { x with pa := q.1 } 0 q.2 write)

/-- The slots of the own tile's Frieze that a shaped operand, with its block scales, is read from (R236). -/
def State.friezeOperand (s : State) (x : Xl) (r : Shape) (t : Nat) (va : Word) (f : BitVec 8) : List Nat :=
  let scales := scaleRuns r t f (va.toNat - x.e.spanVa) x.e.scale
  if isGateway s.cur.1 = false ∧ x.e.peer = s.part.peer then
    [0, 1, 2].filter (fun w =>
      (r.runs t).any (fun q => touchesSlot (tileOf s.cur.1) w (x.pa + q.1) q.2) ||
        scales.any (fun q => touchesSlot (tileOf s.cur.1) w q.1 q.2))
  else []

/-- The slots that some row of a gathered source can lie in: rows of `n` bytes at multiples of `pitch` from its base (R228,
R236; log 88). -/
def State.friezeRows (s : State) (x : Xl) (pitch n : Nat) : List Nat :=
  s.friezeSlots x (fun w =>
    let stop := tileOf s.cur.1 * 2 ^ 20 + 0x80000 + w * 0x10000 + 0x10000
    decide (x.pa < stop) && touchesSlot (tileOf s.cur.1) w (x.pa + (stop - 1 - x.pa) / max 1 pitch * pitch) n)

/-- A command with nothing but its issuer. -/
def State.blankCmd (s : State) (op : Nat) (w0 w1 w2 w3 : Word) (q : Nat) : Cmd :=
  { op := BitVec.ofNat 8 op, w0 := w0, w1 := w1, w2 := w2, w3 := w3, shA := 0, shB := 0, paA := 0, paB := 0, fmtA := 0
    fmtB := 0, scA := 0, scB := 0, leafA := 0, leafB := 0, leafLenA := 0, peerA := s.part.peer, peerB := s.part.peer
    peerI := s.part.peer, vaB := 0, group := [], fseed := s.slot.fseed
    peer := s.part.peer, core := s.cur.1, slot := s.cur.2, gen := s.slot.gen
    level := s.slot.task.level, follow := 0, matrix := decide (q = 0), marker := false, leases := []
    waits := false }

/-- Operand A of a command set from a translation. -/
def cmdA (c : Cmd) (x : Xl) (va : Word) (f : BitVec 8) (leases : List Nat) : Cmd :=
  { c with paA := x.pa, fmtA := f, scA := x.e.scale, leafA := va.toNat - x.e.spanVa, leafLenA := leafLeft x va.toNat
           peerA := x.e.peer, leases := c.leases ++ leases }

/-- Operand B, or the destination. -/
def cmdB (c : Cmd) (x : Xl) (va : Word) (f : BitVec 8) : Cmd :=
  { c with paB := x.pa, fmtB := f, scB := x.e.scale, leafB := va.toNat - x.e.spanVa, peerB := x.e.peer, vaB := va
           w2 := addrWord x }

/-- The engine of an own tile's queue. -/
def ownEngine (c q : Nat) : Nat := tileOf c * 4 + q

/-- Where a command for `q` goes (Table 06-10): for q = 4 the streamer that owns the bank of an address. -/
def State.enginePlace (s : State) (q : Nat) (x : Option Xl) : Place :=
  match x with
  | some x =>
    if q = 4 then
      let h := s.xlHome x
      { peer := x.e.peer, agent := .engine (if h < 1024 then h * 4 + 1 else 4096 + h) }
    else s.here (.engine (ownEngine s.cur.1 q))
  | none => s.here (.engine (ownEngine s.cur.1 q))

/-- An engine is one of the own tile. -/
def State.ownTileEngine (s : State) (p : Place) : Option Nat :=
  match p.agent with
  | .engine e =>
    if p.peer = s.part.peer ∧ isGateway s.cur.1 = false ∧ e < 4096 ∧ e / 4 = tileOf s.cur.1 then some e else none
  | _ => none

/-- The queue of an own engine is full (R222). -/
def State.engineFull (s : State) (e : Nat) : Bool := decide (16 ≤ (s.engineAt e).queue.length)

/-- The slot has an open follow-on group that a matrix command would close (R229). -/
def Slot.followOpen (sl : Slot) : Bool := decide (sl.members ≠ 0)

/-- A member joins the slot's follow-on group (R229). -/
def State.joinFollow (s : State) : State × Nat :=
  let c := s.cur.1
  let k := s.coreAt c
  let g := if s.slot.members = 0 then k.followNext else s.slot.follow
  let s1 := if s.slot.members = 0 then s.updCore c (fun k => { k with followNext := k.followNext + 1 }) else s
  let s2 := s1.upd (fun sl => { sl with follow := g, members := sl.members + 1 })
  (s2.updEngine (ownEngine c 1) (fun e => { e with open_ := e.open_ ++ [(c, s.cur.2, s.slot.gen.toNat, g)] }), g)

/-- A command with the number that its core gives it next. -/
def State.numbered (s : State) (c : Cmd) : Cmd := { c with num := (s.coreAt s.cur.1).cmdNext }

/-- The counters and leases of a command that enters its queue (R218 step 9, R236); its core keeps in mind that it has not ended
(R355). -/
def State.countCmd (s : State) (c : Cmd) : State :=
  let s0 := s.updCore s.cur.1 (fun k => { k with cmds := k.cmds ++ [c], cmdNext := k.cmdNext + 1 })
  let s1 := s0.upd (fun sl => if c.matrix then { sl with cnttl := sl.cnttl + 1 } else { sl with cntcp := sl.cntcp + 1 })
  if c.leases.isEmpty then s1
  else s1.updTile (tileOf c.core) (fun t => { t with
    leases := t.leases ++ c.leases.map (fun w => { which := w, core := c.core, slot := c.slot, gen := c.gen, engine := true }) })

/-- An inline shape record: its BASE is the physical base ÷ 16 (R118, Table 06-12), which is that of the operand, BASE plus the
address word where the operation adds one (R219; log 111). -/
def inlineShape (v : BitVec 128) (pa : Nat) : BitVec 128 := BitVec.ofNat 128 (v.toNat / 2 ^ 48 * 2 ^ 48 + pa / 16 % 2 ^ 48)

/-- The operations that name a second record, which travels in a shape continuation (R118). -/
def hasCont (op : Nat) : Bool := [0x11, 0x13, 0x40].contains op

/-- A command leaves its tile in class 2: the record named by SHA inline, then, in the same step and pair queue, the
continuation with the one named by SHB, each with the physical base of its operand (R118; log 111). -/
def State.sendCmd (s : State) (pl : Place) (c : Cmd) : State :=
  let c1 := { c with shA := if usesA c.op.toNat then inlineShape c.shA c.paA else 0, shB := 0, waits := hasCont c.op.toNat }
  let s1 := s.post (.core s.cur.1) pl 2 (.cmd c1) s.cur.2 s.slot.gen
  if hasCont c.op.toNat then
    s1.post (.core s.cur.1) pl 2 (.shapeCont c.core c.slot c.gen (inlineShape c.shB c.paB)) s.cur.2 s.slot.gen
  else s1

/-- A command enters the queue of an own engine, is parked (R229), or leaves in class 2 (R53, R118); `s0` is the state that a
stall leaves. A marker joins and closes no group. -/
def State.enterCmd (s s0 : State) (pl : Place) (member : Bool) (c0 : Cmd) : Out :=
  let c := s.numbered c0
  if c.matrix ∧ c.marker = false ∧ s.slot.followOpen then
    let c1 := { c with follow := s.slot.follow }
    let s1 := s.upd (fun sl => { sl with follow := 0, members := 0 })
    .next ((s1.updEngine (ownEngine s.cur.1 1) (fun e => { e with parked := e.parked ++ [c1] })).countCmd c1).retire
  else
    match s.ownTileEngine pl with
    | some e =>
      if s.engineFull e then .next s0.stall
      else
        let (s1, g) := if member then s.joinFollow else (s, 0)
        let c1 := { c with follow := g }
        .next ((s1.updEngine e (fun k => { k with queue := k.queue ++ [c1] })).countCmd c1).retire
    | none =>
      let (s1, g) := if member then s.joinFollow else (s, 0)
      let c1 := { c with follow := g }
      .next ((s1.sendCmd pl c1).countCmd c1).retire

/-- The whole destination lies in the own tile's slice (R229). -/
def State.inOwnSlice (s : State) (x : Xl) (len : Nat) : Bool :=
  !isGateway s.cur.1 && decide (x.e.peer = s.part.peer) && decide (tileOf s.cur.1 * 2 ^ 20 ≤ x.pa) &&
    decide (x.pa + len ≤ (tileOf s.cur.1 + 1) * 2 ^ 20)

/-! ### Each operation's checks (R218 steps 6 to 9) -/

/-- MMA, MMAZ, MMAW (R223, R224). M and N are held to 64 before a range is translated, so that 0x102 for them comes before a
translation's cause (log 117). -/
def mmaIssue (op : Nat) (w0 w1 w2 w3 tv : Word) (q : Nat) (s : State) : Out :=
  let va := s.shape (w0Sha w0)
  let vb := s.shape (w0Shb w0)
  let a := shapeOf va
  let b := shapeOf vb
  let t := ktiles op w0
  let acc := w0Acc w0
  let bad : Out := s.trap 0x102 tv
  if va = 0 ∨ vb = 0 ∨ b.kind ≠ 0 ∨ (a.kind = 1 ∧ a.groupOk t = false) ∨ 64 < a.rows ∨ 64 < b.rows ∨
      0x10000 < acc + a.rows * b.rows ∨ 0x10000 ≤ acc then bad
  else
    let c0 := { s.blankCmd op w0 w1 w2 w3 q with shA := va, shB := vb }
    let finish (s1 : State) (c : Cmd) (fa : BitVec 8) (okA : Bool) : Out :=
      withShaped q b t w2 false (fun vaB x s2 =>
        let fb := effFmt (w0Fovr w0) (some x.e) b
        let k := a.elts fa
        if s.scalesDenied x b t vaB fb false then s.trap 0x041 vaB
        else if okA && blocksOk fb (some x.e) (vaB.toNat - x.e.spanVa) (b.runs t) &&
            mmaFormats op (fmtOf fa) (fmtOf fb) && decide (k % 8 = 0) && decide (k ≤ 256) && decide (b.elts fb = k) then
          s2.enterCmd s (s.enginePlace q none) false
            { cmdB c x vaB fb with leases := c.leases ++ s.friezeOperand x b t vaB fb }
        else bad) s1
    if a.kind = 1 then
      let fa := effFmt none none a
      finish s { c0 with fmtA := fa, group := ((a.group t).map (fun r => vbytes (s.slot.rv r))).flatten } fa
        (blocksOk fa none 0 [])
    else
      withShaped q a t w1 false (fun vaA x s1 =>
        let fa := effFmt none (some x.e) a
        if s.scalesDenied x a t vaA fa false then s.trap 0x041 vaA
        else finish s1 (cmdA { c0 with w1 := addrWord x } x vaA fa (s.friezeOperand x a t vaA fa)) fa
          (blocksOk fa (some x.e) (vaA.toNat - x.e.spanVa) (a.runs t))) s

/-- ACCST (R225). -/
def accstIssue (op : Nat) (w0 w1 w2 w3 tv : Word) (q : Nat) (s : State) : Out :=
  let vb := s.shape (w0Shb w0)
  let b := shapeOf vb
  let acc := w0Acc w0
  let bad : Out := s.trap 0x102 tv
  if vb = 0 ∨ b.kind ≠ 0 ∨ w0Flags w0 % 4 = 3 ∨ 2 ^ 32 ≤ w1.toNat ∨ 0x10000 ≤ acc then bad
  else
    withShaped q b 1 w2 true (fun va x s1 =>
      let f := effFmt (w0Fovr w0) (some x.e) b
      if s.scalesDenied x b 1 va f true then s.trap 0x041 va
      else if blocksOk f (some x.e) (va.toNat - x.e.spanVa) (b.runs 1) && decide (acc + b.rows * b.elts f ≤ 0x10000) then
        s1.enterCmd s (s.enginePlace q none) false (cmdB { s.blankCmd op w0 w1 w2 w3 q with shB := vb } x va f)
      else bad) s

/-- ACCLD (R226). A valid override gives the format of a register group as well, before its record's FORMAT (R215, R221; log
120). -/
def accldIssue (op : Nat) (w0 w1 w2 w3 tv : Word) (q : Nat) (s : State) : Out :=
  let va := s.shape (w0Sha w0)
  let a := shapeOf va
  let acc := w0Acc w0
  let bad : Out := s.trap 0x102 tv
  let ok (f : BitVec 8) : Bool :=
    !(decide (blkOf f ≠ 0) && (decide (fmtOf f = 0) || decide (fmtOf f = 7))) && decide (acc + a.rows * a.elts f ≤ 0x10000)
  if va = 0 ∨ (a.kind = 1 ∧ a.groupOk 1 = false) ∨ 0x10000 ≤ acc then bad
  else
    let c0 := { s.blankCmd op w0 w1 w2 w3 q with shA := va }
    if a.kind = 1 then
      let f := effFmt (w0Fovr w0) none a
      if blocksOk f none 0 [] && ok f then
        s.enterCmd s (s.enginePlace q none) false
          { c0 with fmtA := f, group := ((a.group 1).map (fun r => vbytes (s.slot.rv r))).flatten }
      else bad
    else
      withShaped q a 1 w1 false (fun w x s1 =>
        let f := effFmt (w0Fovr w0) (some x.e) a
        if s.scalesDenied x a 1 w f false then s.trap 0x041 w
        else if blocksOk f (some x.e) (w.toNat - x.e.spanVa) (a.runs 1) && ok f then
          s1.enterCmd s (s.enginePlace q none) false
            (cmdA { c0 with w1 := addrWord x } x w f (s.friezeOperand x a 1 w f))
        else bad) s

/-- ACCZ (R226). -/
def acczIssue (op : Nat) (w0 w1 w2 w3 tv : Word) (q : Nat) (s : State) : Out :=
  if w1 = 0 ∨ 65536 < w1.toNat ∨ 0x10000 ≤ w0Acc w0 ∨ 0x10000 < w0Acc w0 + w1.toNat then s.trap 0x102 tv
  else s.enterCmd s (s.enginePlace q none) false (s.blankCmd op w0 w1 w2 w3 q)

/-- A follow-on member must stay in the own slice, and be no ninth (R229): both after its ranges have been translated (log 118). -/
def State.memberBad (s : State) (member : Bool) (x : Xl) (len : Nat) : Bool :=
  member && (!s.inOwnSlice x len || decide (8 ≤ s.slot.members))

/-- COPY and COPYF (R227, R229). -/
def copyIssue (op : Nat) (w0 w1 w2 w3 tv : Word) (q : Nat) (s : State) : Out :=
  let len := w0Acc w0
  let member := decide (op = 0x12)
  if len = 0 then s.trap 0x102 tv
  else
    withLinear q w1 len false (fun x s1 => withLinear q w2 len true (fun y s2 =>
      if s.memberBad member y len then s.trap 0x102 tv
      else
        let c0 := { s.blankCmd op w0 w1 w2 w3 q with w1 := addrWord x }
        let c := cmdB (cmdA c0 x w1 x.e.fmt (s.friezeRead x [(0, len)])) y w2 y.e.fmt
        s2.enterCmd s (s.enginePlace q (some x)) member c) s1) s

/-- COPY2 (R227, R229). -/
def copy2Issue (op : Nat) (w0 w1 w2 w3 tv : Word) (q : Nat) (s : State) : Out :=
  let va := s.shape (w0Sha w0)
  let vb := s.shape (w0Shb w0)
  let a := shapeOf va
  let b := shapeOf vb
  let t := w0Acc w0
  let member := decide (128 ≤ w0Flags w0)
  if va = 0 ∨ vb = 0 ∨ a.kind ≠ 0 ∨ b.kind ≠ 0 ∨ a.rows ≠ b.rows ∨ a.cols ≠ b.cols ∨ t = 0 ∨ 65535 < t then s.trap 0x102 tv
  else
    withShaped q a t w1 false (fun wa x s1 => withShaped q b t w2 true (fun wb y s2 =>
      if s.memberBad member y (b.extent t) then s.trap 0x102 tv
      else
        let c0 := { s.blankCmd op w0 w1 w2 w3 q with w1 := addrWord x, shA := va, shB := vb }
        s2.enterCmd s (s.enginePlace q (some x)) member
          (cmdB (cmdA c0 x wa x.e.fmt (s.friezeRead x (a.runs t))) y wb y.e.fmt)) s1) s

/-- GATHER (R228, R229): the index array, then the source's base, then the destination. Which rows it reads is known only to the
engine: at issue the base's own granule is checked for a region without access (log 88). -/
def gatherIssue (op : Nat) (w0 w1 w2 w3 tv : Word) (q : Nat) (s : State) : Out :=
  let va := s.shape (w0Sha w0)
  let vb := s.shape (w0Shb w0)
  let a := shapeOf va
  let b := shapeOf vb
  let member := decide (128 ≤ w0Flags w0)
  if va = 0 ∨ vb = 0 ∨ a.kind ≠ 0 ∨ b.kind ≠ 0 ∨ a.cols ≠ b.cols then s.trap 0x102 tv
  else
    withRange q w1 4 (4 * b.rows) [(0, 4 * b.rows)] false (fun i s1 =>
      let base := BitVec.ofNat 64 a.base
      withRange q base 16 0 [(0, 16)] false (fun x s2 => withShaped q b 1 w2 true (fun wb y s3 =>
        if s.memberBad member y (b.extent 1) then s.trap 0x102 tv
        else
          let c0 := { s.blankCmd op w0 w1 w2 w3 q with
            w1 := addrWord i, peerI := i.e.peer, shA := va, shB := vb, leases := s.friezeRead i [(0, 4 * b.rows)] }
          s3.enterCmd s (s.enginePlace q (some i)) member
            (cmdB (cmdA c0 x base x.e.fmt (s.friezeRows x (a.rp * 16) (a.cols * 16))) y wb y.e.fmt)) s2) s1) s

/-- XPOSE (R227). -/
def xposeIssue (op : Nat) (w0 w1 w2 w3 tv : Word) (q : Nat) (s : State) : Out :=
  let va := s.shape (w0Sha w0)
  let vb := s.shape (w0Shb w0)
  let a := shapeOf va
  let b := shapeOf vb
  if va = 0 ∨ vb = 0 ∨ a.kind ≠ 0 ∨ b.kind ≠ 0 then s.trap 0x102 tv
  else
    withShaped q a 1 w1 false (fun wa x s1 => withShaped q b 1 w2 true (fun wb y s2 =>
      let f := effFmt none (some x.e) a
      if fmtOf f = 4 ∨ b.rows ≠ a.elts f ∨ b.elts f ≠ a.rows then s.trap 0x102 tv
      else
        let c0 := { s.blankCmd op w0 w1 w2 w3 q with w1 := addrWord x, shA := va, shB := vb }
        s2.enterCmd s (s.enginePlace q (some x)) false
          (cmdB (cmdA c0 x wa f (s.friezeRead x (a.runs 1))) y wb y.e.fmt)) s1) s

/-- FILL (R227). -/
def fillIssue (op : Nat) (w0 w1 w2 w3 tv : Word) (q : Nat) (s : State) : Out :=
  let len := w0Acc w0
  if len = 0 then s.trap 0x102 tv
  else
    withLinear q w2 len true (fun y s1 =>
      s1.enterCmd s (s.enginePlace q (some y)) false (cmdB (s.blankCmd op w0 w1 w2 w3 q) y w2 y.e.fmt)) s

/-- The region of Table 02-11 that a slice offset lies in; none without program access. -/
def sliceRegion (o : Nat) : Option Nat :=
  if o < 0x80000 then some 0 else if o < 0x90000 then some 1 else if o < 0xA0000 then some 2
  else if o < 0xB0000 then some 3 else none

/-- The live tiles of a destination set of MCAST (Table 11-4). -/
def State.mcastTiles (s : State) (tile : Nat) (w : Word) : List Nat :=
  let cl := bitsOf w.toNat 51 36
  let cls := if cl = 0 then [clusterOf tile] else
    ((List.range 16).filter (fun i => decide (cl / 2 ^ i % 2 = 1))).map (fun i => dieOf tile * 16 + i)
  ((cls.map (fun c => ((List.range 16).filter (fun i => decide (bitsOf w.toNat 35 20 / 2 ^ i % 2 = 1))).map
    (fun i => c * 16 + i))).flatten).filter s.part.tileLive

/-- MCAST (R230): the destination's address, for `TVAL`, is that of the own slice, and its causes come in the order of log 144. -/
def mcastIssue (op : Nat) (w0 w1 w2 w3 tv : Word) (q : Nat) (s : State) : Out :=
  let len := w0Acc w0
  let o := w2.toNat % 2 ^ 20
  let dst := s.job.sramBase + BitVec.ofNat 64 (tileOf s.cur.1 * 2 ^ 20 + o)
  if bitsOf w2.toNat 63 52 ≠ 0 ∨ bitsOf w2.toNat 35 20 = 0 then s.trap 0x102 tv
  else
    withLinear q w1 len false (fun x s1 =>
      let last := o + (len - 1)
      if o % 16 ≠ 0 ∨ 2 ^ 20 < o + len then s.trap 0x049 dst
      else if (sliceRegion o).isNone ∨ (sliceRegion last).isNone then s.trap 0x041 dst
      else if sliceRegion o ≠ sliceRegion last then s.trap 0x049 dst
      else if sliceRegion o = some 3 ∧
          (s.mcastTiles (tileOf s.cur.1) w2).any (fun t => (s.clusterAt (clusterOf t)).sweep) then s.trap 0x041 dst
      else
        s1.enterCmd s (s.enginePlace q none) false
          (cmdA { s.blankCmd op w0 w1 w2 w3 q with w1 := addrWord x } x w1 x.e.fmt (s.friezeRead x [(0, len)]))) s

/-- REDUCE and RSTAGE (R231). -/
def reduceIssue (op : Nat) (w0 w1 w2 w3 tv : Word) (q : Nat) (s : State) : Out :=
  let len := w0Acc w0
  if 16 ≤ w2.toNat ∨ len % 64 ≠ 0 ∨ 65536 < len then s.trap 0x102 tv
  else
    withLinear q w1 len false (fun x s1 =>
      s1.enterCmd s (s.enginePlace q none) false
        (cmdA { s.blankCmd op w0 w1 w2 w3 q with w1 := addrWord x } x w1 x.e.fmt (s.friezeRead x [(0, len)]))) s

/-- A slice byte that no engine may write: a region without program access, or the trailing B slot of a tile whose ring runs a
sweep (R33, R38). -/
def State.closedByte (s : State) (pa : Nat) : Bool :=
  noAccess (pa % 2 ^ 20) || (decide (0xA0000 ≤ pa % 2 ^ 20) && (s.clusterAt (clusterOf (pa / 2 ^ 20))).sweep)

/-- RSTAGE (R231): the stage descriptor's reserved bits, OP and a DOFF that is no multiple of 16 (0x102; log 119), then the region
of DOFF (R33, Table 11-1). A DTILE of another die is taken as written (log 119). -/
def rstageIssue (op : Nat) (w0 w1 w2 w3 tv : Word) (q : Nat) (s : State) : Out :=
  let d := w1.toNat
  let dst := bitsOf d 19 10 * 2 ^ 20 + bitsOf d 39 20
  if 16 ≤ w2.toNat ∨ bitsOf d 63 40 ≠ 0 ∨ bitsOf d 9 8 ≠ 0 ∨ 2 < bitsOf d 3 0 ∨ bitsOf d 39 20 % 16 ≠ 0 then
    s.trap 0x102 tv
  else if s.closedByte dst then s.trap 0x041 (s.job.sramBase + BitVec.ofNat 64 dst)
  else s.enterCmd s (s.enginePlace q none) false (s.blankCmd op w0 w1 w2 w3 q)

/-- Steps 6 to 9 of R218 for an operation. -/
def opIssue (op : Nat) (w0 w1 w2 w3 tv : Word) (q : Nat) (s : State) : Out :=
  if isMma op then mmaIssue op w0 w1 w2 w3 tv q s
  else if op = 4 then accstIssue op w0 w1 w2 w3 tv q s
  else if op = 5 then accldIssue op w0 w1 w2 w3 tv q s
  else if op = 6 then acczIssue op w0 w1 w2 w3 tv q s
  else if op = 0x10 ∨ op = 0x12 then copyIssue op w0 w1 w2 w3 tv q s
  else if op = 0x11 then copy2Issue op w0 w1 w2 w3 tv q s
  else if op = 0x13 then gatherIssue op w0 w1 w2 w3 tv q s
  else if op = 0x40 then xposeIssue op w0 w1 w2 w3 tv q s
  else if op = 0x41 then fillIssue op w0 w1 w2 w3 tv q s
  else if op = 0x20 then mcastIssue op w0 w1 w2 w3 tv q s
  else if op = 0x30 then reduceIssue op w0 w1 w2 w3 tv q s
  else rstageIssue op w0 w1 w2 w3 tv q s

/-- What holds the issue of a command, or a marker, for `q` (R218 step 2, R222, R23): a command that will be parked needs no
place in the queue. -/
def State.tileHold (s : State) (q : Nat) (marker : Bool) : Bool :=
  let sl := s.slot
  (if q = 0 then decide (63 ≤ sl.cnttl) else decide (63 ≤ sl.cntcp)) ||
    (decide (q ≤ 3) && !isGateway s.cur.1 && !(decide (q = 0) && !marker && sl.followOpen) && s.engineFull (ownEngine s.cur.1 q))

/-- `tcmd op, xa, xb, xc, q` (R218). -/
def tcmdForm (i : Instr) (op : Nat) (a b c : Reg) (q : BitVec 3) (s : State) : Out :=
  let w0 := tileW0 op (s.slot.rx a)
  issue i { lack := tileLack s.cur.1 op q.toNat
            reads := [xr a, xr b, xr c] ++ (s.groupOf op w0).map vr
            hold := s.tileHold q.toNat false } (fun s =>
    let sl := s.slot
    if classAccepts ((classOf op).getD 0) q.toNat = false then s.trap 0x100 (sl.rx a)
    else opIssue op w0 (sl.rx b) (sl.rx c) sl.treply (sl.rx a) q.toNat s) s

/-- `tcmd mma` (R224). -/
def execMma (a b c : Reg) (q : BitVec 3) (s : State) : Out := tcmdForm (.mma a b c q) 0x01 a b c q s

/-- `tcmd mmaz` (R224). -/
def execMmaz (a b c : Reg) (q : BitVec 3) (s : State) : Out := tcmdForm (.mmaz a b c q) 0x02 a b c q s

/-- `tcmd mmaw` (R224). -/
def execMmaw (a b c : Reg) (q : BitVec 3) (s : State) : Out := tcmdForm (.mmaw a b c q) 0x03 a b c q s

/-- `tcmd accst` (R225). -/
def execAccst (a b c : Reg) (q : BitVec 3) (s : State) : Out := tcmdForm (.accst a b c q) 0x04 a b c q s

/-- `tcmd accld` (R226). -/
def execAccld (a b c : Reg) (q : BitVec 3) (s : State) : Out := tcmdForm (.accld a b c q) 0x05 a b c q s

/-- `tcmd accz` (R226). -/
def execAccz (a b c : Reg) (q : BitVec 3) (s : State) : Out := tcmdForm (.accz a b c q) 0x06 a b c q s

/-- `tcmd copy` (R227). -/
def execCopy (a b c : Reg) (q : BitVec 3) (s : State) : Out := tcmdForm (.copy a b c q) 0x10 a b c q s

/-- `tcmd copy2` (R227). -/
def execCopy2 (a b c : Reg) (q : BitVec 3) (s : State) : Out := tcmdForm (.copy2 a b c q) 0x11 a b c q s

/-- `tcmd copyf` (R229). -/
def execCopyf (a b c : Reg) (q : BitVec 3) (s : State) : Out := tcmdForm (.copyf a b c q) 0x12 a b c q s

/-- `tcmd gather` (R228). -/
def execGather (a b c : Reg) (q : BitVec 3) (s : State) : Out := tcmdForm (.gather a b c q) 0x13 a b c q s

/-- `tcmd mcast` (R230). -/
def execMcast (a b c : Reg) (q : BitVec 3) (s : State) : Out := tcmdForm (.mcast a b c q) 0x20 a b c q s

/-- `tcmd reduce` (R231). -/
def execReduce (a b c : Reg) (q : BitVec 3) (s : State) : Out := tcmdForm (.reduce a b c q) 0x30 a b c q s

/-- `tcmd rstage` (R231). -/
def execRstage (a b c : Reg) (q : BitVec 3) (s : State) : Out := tcmdForm (.rstage a b c q) 0x31 a b c q s

/-- `tcmd xpose` (R227). -/
def execXpose (a b c : Reg) (q : BitVec 3) (s : State) : Out := tcmdForm (.xpose a b c q) 0x40 a b c q s

/-- `tcmd fill` (R227). -/
def execFill (a b c : Reg) (q : BitVec 3) (s : State) : Out := tcmdForm (.fill a b c q) 0x41 a b c q s

/-! ### `amsg` (R189) -/

/-- The engine marker of `amsg` opcode 0x02 (R189). With n = 4 the address that selects the streamer is translated as a read
of its home (log 89). -/
def markerIssue (w : Nat → Word) (tv iw : Word) (q : Nat) (s : State) : Out :=
  if w 1 ≠ 0 ∨ w 3 ≠ 0 ∨ w 5 ≠ 0 ∨ w 6 ≠ 0 ∨ (q ≠ 4 ∧ w 2 ≠ 0) then s.trap 0x101 tv
  else if isGateway s.cur.1 ∧ q ≤ 3 then s.trap 0x005 iw
  else
    let c := { s.blankCmd 0 0 0 0 (w 4) q with marker := true }
    if q = 4 then
      withXl (w 2) .home (fun x s1 => toPeer x.e.peer (peerWord x.e.peer) (fun _ =>
        s1.enterCmd s (s.enginePlace q (some x)) false c) s) s
    else s.enterCmd s (s.enginePlace q none) false c

/-- `amsg xa, n` (R189): its checks in the order given there, and after them the registers of its group (log 130). -/
def execAmsg (a : Reg) (n : BitVec 3) (s : State) : Out :=
  let q := n.toNat
  let marker := decide ((s.slot.rx a).toNat / 2 ^ 56 = 2)
  issue (.amsg a n) { reads := payloadRegsOf a, hold := s.tileHold q marker } (fun s =>
    let w (i : Nat) : Word := s.slot.rx (regAfter a i)
    let ow := w 0
    if ow.toNat % 2 ^ 56 ≠ 0 then s.trap 0x101 ow
    else if ow.toNat / 2 ^ 56 = 1 then
      let op := (w 1).toNat / 2 ^ 56
      match classOf op with
      | none => s.trap 0x101 ow
      | some cls =>
        if bitsOf (w 1).toNat 55 52 ≠ cls ∨ w 5 ≠ 0 ∨ w 6 ≠ 0 then s.trap 0x101 ow
        else if classAccepts cls q = false then s.trap 0x100 ow
        else if (tileLack s.cur.1 op q).isSome then s.trap 0x005 (wordOf (.amsg a n))
        else
          let w0 := tileW0 op (w 1)
          let group : Need := { reads := (s.groupOf op w0).map vr }
          issue (.amsg a n) group (opIssue op w0 (w 2) (w 3) (w 4) ow q) s
    else if ow.toNat / 2 ^ 56 = 2 then markerIssue w ow (wordOf (.amsg a n)) q s
    else s.trap 0x101 ow) s
where
  payloadRegsOf (a : Reg) : List Nat := (List.range 7).map (fun i => xr (regAfter a i))

end Sys2Proof.Machine
end

