-- ==== Sys2Proof/Machine/Ordering.lean ====
section
/-! DEFINITION. Perform, reply and refusal steps (R44 to R49, R146 to R153, R159), and the repair of a register (R333). -/

namespace Sys2Proof.Machine

open Sys2Proof

/-! ### Performing an access (R48) -/

/-- Why a home refuses a packet's access (Table 08-2), reasons 2 to 4 in that order. -/
def State.refuses (s : State) (h : Nat) (p : Packet) (pa : Nat) : Option Nat := s.refusesAt h p.job pa

/-- An address of the launch-port region (R321). -/
def isPort (pa : Nat) : Bool := decide (portBase ≤ pa) && decide (pa < portEnd)

/-- Job slot and record of a launch port's address (R321). -/
def portJob (pa : Nat) : Nat := (pa - portBase) / 2 ^ 30
def portRec (pa : Nat) : Nat := (pa - portBase) % 2 ^ 30 / 64

/-- The opcode of a launch-port write: bits [63:56] of the word at bytes 15:8 (R320). -/
def portOp (v : VWord) : Nat := (v.extractLsb' 120 8).toNat

/-- A discarded port write is counted (R316, R320). -/
def State.badWrite (s : State) (j : Nat) : State :=
  (s.updJobAt j (fun jb => { jb with badwr := satAdd 32 jb.badwr 1 })).showCounts j

/-- The job slot that a tag names (R320). -/
def State.slotOfTag (s : State) (tag : BitVec 16) : Option Nat := (s.jobs.find? (fun e => e.2.tag = tag)).map (·.1)

/-- The source is an engine, or a router that writes a reduction stage's line as one does (R231). -/
def fromEngine (p : Packet) : Bool :=
  match p.src.agent with
  | .engine _ | .router _ => true
  | _ => false

/-- The packet is a `st.fe`. -/
def isStFe (p : Packet) : Bool :=
  match p.body with
  | .store .stFe _ _ _ _ => true
  | _ => false

/-- A local write has been performed or refused: `CNTST` falls (R23), and a task that has exited may report (R62). A local
`st.fe` then lets its slot go on, or traps with 0x061 where its granule was full (R149); another write leaves the slot that
waits for a `st.fe` waiting. -/
def State.localDone (s : State) (p : Packet) (full : Bool) : State :=
  match p.src.agent with
  | .core c =>
    let sl := s.slotAt c p.slot
    if sl.gen ≠ p.gen ∨ sl.phase = .draining ∨ sl.phase = .free then s.settleExits c
    else
      let s1 := s.updSlotAt c p.slot (fun sl => { sl with cntst := sl.cntst - 1 })
      match isStFe p, sl.phase with
      | true, .holding va =>
        if full then s1.takeTrap c p.slot 0x061 va sl.pc false 0 va
        else s1.updSlotAt c p.slot (fun sl => { sl with phase := .ready, pc := sl.pc + 4 })
      | _, _ => s1
  | _ => s

/-- The answer to a write: an acknowledgement, or nothing for a local one (R145). -/
def State.ackWrite (s : State) (h : Nat) (p : Packet) (entry : Option Nat) : State :=
  match entry with
  | none => s.localDone p false
  | some _ => s.reply h p (.ack entry)

/-- The answer to a refused write (R146); a local one has no entry to mark (log 35). -/
def State.refuseWrite (s : State) (h : Nat) (p : Packet) (entry : Option Nat) (reason pa : Nat) : State :=
  match entry with
  | none => s.localDone p (reason = 1)
  | some _ => s.reply h p (.refusedWrite entry reason pa)

/-- A journalled, local or engine write performed on memory other than a launch port (R148 to R150, R153, R159). Engine writes
set the full bit of the granules they write, or leave it empty for FILL with FLAGS[0] (R220, R227). -/
def State.performStore (s : State) (h : Nat) (p : Packet) (kind : WKind) (pa size : Nat) (data : VWord) (entry : Option Nat) :
    State :=
  let bs := toBytes data.toNat size
  let g := pa / 16
  if fromEngine p then
    let s1 := (s.store pa bs).countPage pa p.src 1
    let s2 := if 2 ^ 30 ≤ pa then s1
      else if kind = .feClr then (granules pa size).foldl (fun s g => s.setFull g false) s1
      else (granules pa size).foldl State.fill s1
    s2.ackWrite h p entry
  else
    let counted := s.countPage pa p.src 1
    match kind with
    | .st | .vst | .scat => (counted.store pa bs).ackWrite h p entry
    | .stFe =>
      if s.isFull g then s.refuseWrite h p entry 1 pa
      else ((counted.store pa bs).fill g).ackWrite h p entry
    | .feSet => (s.fill g).ackWrite h p entry
    | .feClr => (s.setFull g false).ackWrite h p entry
    | .anadd =>
      if (s.poisonIn pa size).isSome then s.refuseWrite h p entry 6 pa
      else
        let old := s.num pa size
        (counted.store pa (toBytes (atomicNew .add (8 * size) old data.toNat 0) size)).ackWrite h p entry

/-- A store to a launch port that no launch-port step takes (R321): one to a fenced home is refused with reason 3 (Table
08-2, R377), another size or kind with reason 5, one with another job's tag with reason 4, and any opcode but start is
discarded and counted. -/
def State.portStore (s : State) (h : Nat) (p : Packet) (kind : WKind) (pa size : Nat) (data : VWord) (entry : Option Nat) :
    Option State :=
  if s.part.fenced.contains h then some (s.refuseWrite h p entry 3 pa)
  else if kind ≠ .vst ∨ size ≠ 64 ∨ pa % 64 ≠ 0 ∨ fromEngine p then some (s.refuseWrite h p entry 5 pa)
  else if p.job ≠ (s.jobAt (portJob pa)).tag then some (s.refuseWrite h p entry 4 pa)
  else if portOp data ≠ 0x20 ∨ (s.jobAt (portJob pa)).hcount ≤ portRec pa then
    some ((s.badWrite (portJob pa)).ackWrite h p entry)
  else none

/-- PERFORM: the access at the head of a home's perform queue (R48). Tickets, launch ports and notices have steps of their
own. -/
def execPerform (h : Nat) (s : State) : Out :=
  match (s.homeAt h).q with
  | [] => notEnabled "PERFORM"
  | p :: rest =>
    let s0 := s.updHome h (fun q => { q with q := rest })
    match p.body with
    | .load pa size ret =>
      if isPort pa ∧ s.part.fenced.contains h = false then .next (s0.reply h p (.value ret 0 none))
      else
        match s.refuses h p pa with
        | some r => .next (s0.reply h p (.refusedRead ret r pa))
        | none => .next ((s0.countPage pa p.src 1).reply h p (.value ret (s.wide pa size) (s.poisonIn pa size)))
    | .ldFe take pa size ret =>
      match s.refuses h p pa with
      | some r => .next ((s0.reply h p (.refusedRead ret r pa)).unblockFe h p)
      | none =>
        if s.isFull (pa / 16) then .next (s0.performFe h p take pa size ret)
        else .next (s0.updHome h (fun q => { q with waiting := q.waiting ++ [p] }))
    | .atomic op pa size b e ret =>
      if isPort pa then .next (s0.reply h p (.refusedRead ret (if s.part.fenced.contains h then 3 else 5) pa))
      else
        match s.refuses h p pa with
        | some r => .next (s0.reply h p (.refusedRead ret r pa))
        | none =>
          let s1 := s0.countPage pa p.src 1
          match s.poisonIn pa size with
          | some k => .next (s1.reply h p (.value ret 0 (some k)))
          | none =>
            let new := atomicNew op (8 * size) (s.num pa size) b.toNat e.toNat
            .next ((s1.store pa (toBytes new size)).reply h p (.value ret (s.wide pa size) none))
    | .store kind pa size data entry =>
      if isPort pa then
        match s0.portStore h p kind pa size data entry with
        | some t => .next t
        | none => notEnabled "PERFORM"
      else
        match s.refuses h p pa with
        | some r => .next (s0.refuseWrite h p entry r pa)
        | none => .next (s0.performStore h p kind pa size data entry)
    | .port _ k data entry task =>
      if s.part.fenced.contains h then .next (s0.refuseWrite h p entry 3 0)
      else
      match s.slotOfTag p.job with
      | none => .next (s0.refuseWrite h p entry 4 0)
      | some j =>
        if portOp data < 0x20 ∨ 0x22 < portOp data ∨ (task ∧ portOp data ≠ 0x20) ∨ (s.jobAt j).hcount ≤ k then
          .next ((s0.badWrite j).ackWrite h p entry)
        else notEnabled "PERFORM"
    | _ => notEnabled "PERFORM"

/-! ### Replies (R44, R28, R13, R14) -/

/-- A reply for a slot generation that has passed is discarded and counted: in the core's own count of 32 bits, and in telemetry
counter 2 of 64 bits (R28, R280, R381; log 135). -/
def State.stale (s : State) (c : Nat) : State :=
  (s.updCore c (fun k => { k with stale := satAdd 32 k.stale 1 })).updUnit 0 c (fun u => { u with c2 := bump u.c2 })

/-- The slot still holds the task that a packet is for. -/
def State.current (s : State) (c l : Nat) (gen : BitVec 16) : Bool :=
  decide ((s.slotAt c l).gen = gen) && decide ((s.slotAt c l).phase ≠ .free)

/-- The slot drains: values are counted and discarded (R143). -/
def State.draining (s : State) (c l : Nat) : Bool := decide ((s.slotAt c l).phase = .draining)

/-- `CNTLD` falls, and a draining slot may become Free (R23, R26). -/
def State.downLd (s : State) (c l : Nat) : State :=
  (s.updSlotAt c l (fun sl => { sl with cntld := sl.cntld - 1 })).drain c l

/-- A scalar value lands (R148, R152, R159). -/
def State.landX (s : State) (c l : Nat) (r : Reg) (sgn : Bool) (bytes : Nat) (data : VWord) (poison : Option (BitVec 2)) : State :=
  if s.draining c l then s.downLd c l
  else
    let n := data.toNat % 2 ^ (8 * bytes)
    let v : Word := if sgn then BitVec.ofInt 64 (sextInt n (8 * bytes)) else BitVec.ofNat 64 n
    let s1 := match poison with
      | some k => s.poisonX c l r k
      | none => s.setXAt c l r v
    (s1.updSlotAt c l (fun sl => sl.pendX r false)).downLd c l

/-- A vector load with one more part; of several poisoned parts the one that arrives first gives the kind (log 84). -/
def VLoad.part (v : VLoad) (n : Nat) (bs : List Byte) (k : Option (BitVec 2)) : VLoad :=
  { v with left := v.left - 1, bytes := v.bytes ++ [(n, bs)], poison := v.poison.orElse (fun _ => k) }

/-- The bytes of part `n`. -/
def VLoad.get (v : VLoad) (n : Nat) : List Byte := ((v.bytes.find? (fun e => e.1 = n)).map (·.2)).getD []

/-- The scale byte of an element of a decoding load. -/
def VLoad.scale (v : VLoad) (i : Nat) : Nat :=
  (v.scales.getD ((v.elt + i) / blockLen (blkOf v.fmt) - v.scaleBase) 0).toNat

/-- Code `i` of a run of bytes in a format. -/
def codeAt (fmt : Nat) (bs : List Byte) (i : Nat) : Nat :=
  let w := width fmt
  if w = 4 then (bs.getD (i / 2) 0).toNat / 2 ^ (4 * (i % 2)) % 16
  else ofBytes ((bs.drop (i * (w / 8))).take (w / 8))

/-- The register value of a vector load whose parts have all arrived (R167 to R169, R73, R76). -/
def VLoad.value (v : VLoad) (old : VWord) : VWord :=
  match v.how with
  | 0 => ofVbytes (v.get 0)
  | 1 =>
    let bs := ((List.range v.bytes.length).map v.get).flatten
    ofLanes (width v.ty) ((List.range (lanes v.ty)).map (fun i =>
      convert v.ty (convRnd v.mode v.ty v.seed 0 i) (decodeVal v.fmt (codeAt (fmtOf v.fmt) bs i) (v.scale i))))
  | 2 =>
    let w := width v.ty
    ofLanes w ((List.range (lanes v.ty)).map (fun i =>
      if v.bytes.any (fun e => e.1 = i) then ofBytes ((v.get i).take (w / 8)) else laneOf old w i))
  | _ => 0

/-- A vector load of a slot is replaced, and lands once nothing is left of it. -/
def State.stepVLoad (s : State) (c l : Nat) (v : VLoad) : State :=
  let others (sl : Slot) : List VLoad := sl.loads.filter (fun e => e.reg ≠ v.reg)
  if v.left ≠ 0 then s.updSlotAt c l (fun sl => { sl with loads := others sl ++ [v] })
  else
    let s1 := s.updSlotAt c l (fun sl => { sl with loads := others sl })
    if s.draining c l then s1.downLd c l
    else
      let s2 := match v.poison with
        | some k => s1.poisonV c l v.reg k
        | none => s1.setVAt c l v.reg (v.value ((s.slotAt c l).rv v.reg))
      (s2.updSlotAt c l (fun sl => sl.pendV v.reg false)).downLd c l

/-- The vector load that fills a register. -/
def State.vloadAt (s : State) (c l : Nat) (r : Reg) : Option VLoad := (s.slotAt c l).loads.find? (fun e => e.reg = r)

/-- A home of a module by physical address. -/
def State.homeAtPeer (s : State) (peer : Peer) (pa : Nat) : Nat :=
  if peer = s.part.peer then (s.homeOf pa).getD 0
  else ((AMap.get s.layouts peer.toNat).bind (fun l => layoutHome l s.job.tag pa)).getD 0

/-- An access sent for another slot than the one in hand. -/
def State.accessFor (s : State) (c l : Nat) (peer : Peer) (pa : Nat) (b : Body) : State :=
  { ({ s with cur := (c, l) }.access (s.homeAtPeer peer pa) peer b) with cur := s.cur }

/-- The scales of a decoding load have arrived: its element reads go (R74). -/
def State.gotScales (s : State) (c l : Nat) (v : VLoad) (bs : List Byte) (k : Option (BitVec 2)) : State :=
  let v1 := { v with scales := bs, later := [], poison := v.poison.orElse (fun _ => k) }
  (v.later.zipIdx).foldl (fun s p => s.accessFor c l v.peer p.1.1 (.load p.1.1 p.1.2 (.vpart v.reg p.2))) (s.stepVLoad c l v1)

/-- A journal entry retires (R23 to R25, R62). -/
def State.retireEntry (s : State) (c n : Nat) : State :=
  match AMap.get (s.coreAt c).journal n with
  | none => s
  | some e =>
    let s1 := s.updCore c (fun k => { k with journal := AMap.del k.journal n })
    let s2 := if s.current c e.slot e.gen ∧ s.draining c e.slot = false then s1.updSlotAt c e.slot (fun sl => sl.downSt e.cls)
      else s1
    s2.settleExits c

/-- An instruction word asked of another module arrives: the core holds it, unless `ifence` has discarded the request (R244). -/
def State.gotWord (s : State) (c key n : Nat) (data : VWord) : State :=
  if AMap.get (s.coreAt c).asked key = some n then s.holdWord c key (data.setWidth 32) else s

/-- A request for an instruction word is refused: the slot that asked takes 0x062 as after any refused load, and asks again (log
75). -/
def State.noWord (s : State) (c l key n pa : Nat) (gen : BitVec 16) : State :=
  if AMap.get (s.coreAt c).asked key ≠ some n then s
  else
    let s1 := s.updCore c (fun k => { k with asked := AMap.del k.asked key })
    if s.current c l gen ∧ s.draining c l = false then s1.pushLoadCause c l pa else s1

/-- After the stop time of a switch what is on its way to a core is spilled, and reaches it after the resume (Table 22-5); the
scales of a load, and the completions of commands, that a migrating page's core waits for still come (R287, R355; log 104). -/
def State.spills (s : State) (b : Body) : Bool :=
  s.stopped && match b with
    | .value (.vscale _) _ _ | .refusedRead (.vscale _) _ _ | .completion _ _ _ _ _ _ _ _ _ => s.migrations.isEmpty
    | _ => true

/-- REPLY: a value, an acknowledgement or the answer to `chdup` lands at a core (R44). The instance made for a `chdup` whose
task is gone is closed (log 86). -/
def execReply (k : PairKey) (s : State) : Out :=
  match k.dst.agent, s.headOf k with
  | .core c, some p =>
    if k.dst.peer ≠ s.part.peer ∨ s.spills p.body then notEnabled "REPLY" else
    let s0 := s.popNet k
    let l := p.slot
    match p.body with
    | .value (.rdmScale _ _) _ _ => notEnabled "REPLY"
    | .value (.word key n) data _ => .next (s0.gotWord c key n data)
    | .value ret data poison =>
      if s.current c l p.gen = false then .next (s0.stale c)
      else
        match ret with
        | .xreg r sgn n => .next (s0.landX c l r sgn n data poison)
        | .vpart r n =>
          match s.vloadAt c l r with
          | some v => .next (s0.stepVLoad c l (v.part n (vbytes data) poison))
          | none => .next (s0.stale c)
        | .vscale r =>
          match s.vloadAt c l r with
          | some v => .next (s0.gotScales c l v (vbytes data) poison)
          | none => .next (s0.stale c)
        | _ => .next s0
    | .took a vs =>
      if s.current c l p.gen = false then .next (s0.stale c)
      else if s.draining c l then .next (s0.downLd c l)
      else
        let s1 := (vs.zipIdx).foldl (fun s e => s.setXAt c l (regAfter a e.2) e.1) s0
        .next ((s1.updSlotAt c l (fun sl =>
          (List.range vs.length).foldl (fun sl i => sl.pendX (regAfter a i) false) sl)).downLd c l)
    | .ack (some n) => .next (s0.retireEntry c n)
    | .instReply ident inst gen loc locPeer dead =>
      match takeFirst (fun (r : ChanReq) => r.dup && decide (r.ident = ident)) (s.coreAt c).reqs with
      | none => .next s0
      | some (r, rest) =>
        let s0 := s0.updCore c (fun k => { k with reqs := rest })
        let old := (s.slotAt c r.slot).rh r.ha
        let passed := decide ((s.slotAt c r.slot).gen ≠ r.gen)
        let s1 := if passed then s0.stale c else s0
        if s.current c r.slot r.gen = false ∨ s.draining c r.slot then
          match inst with
          | some i => .next (s1.closeEnd c { old with
              kind := .send, ident := ident, inst := i, gen := gen, seq := 0, loc := loc, locPeer := locPeer, home := p.src.peer, moves := 0 })
          | none => .next s1
        else
          match inst with
          | none => .next (s1.takeTrap c r.slot 0x088 (hnum r.ha) (s.slotAt c r.slot).pc false 0 (hnum r.ha))
          | some i =>
            let h : Handle := { kind := .send, ident := ident, inst := i, gen := gen, seq := 0, credits := 64, dead := dead
                                loc := loc, locPeer := locPeer, home := old.home, moves := 0 }
            .next ((s1.setHAt c r.slot r.hd h).updSlotAt c r.slot (fun sl => { sl with phase := .ready, pc := sl.pc + 4 }))
    | _ => notEnabled "REPLY"
  | _, _ => notEnabled "REPLY"

/-! ### Refusals (R146, R147, R330) -/

/-- A refused write reaches its core (R146, R27). -/
def State.refusedEntry (s : State) (c n reason : Nat) : State :=
  match AMap.get (s.coreAt c).journal n with
  | none => s
  | some e =>
    if s.current c e.slot e.gen ∧ s.draining c e.slot = false then
      let s1 := s.updCore c (fun k => { k with
        journal := AMap.set k.journal n { e with refused := true, reason := reason, undelivered := true } })
      (s1.updSlotAt c e.slot (fun sl => { sl with async := sl.async ++ [.store n] })).wakeSlot c e.slot
    else
      let s1 := s.updCore c (fun k => { k with journal := AMap.del k.journal n })
      (s1.emit { s.slotRec c e.slot 0x060 n (BitVec.ofNat 64 e.pa) false with gen := e.gen, epc := 0, tval := 0 }).settleExits c

/-- A redemption into a message of the core (Table 08-7). -/
def rdmIsMsg : RdmDst → Bool
  | .msg _ => true
  | _ => false

/-- A redemption that waited for a slot ends without landing data: `CNTLD` falls, and vd is no longer pending (R158). -/
def State.endRdm (s : State) (c l : Nat) (dst : RdmDst) : State :=
  let s1 := match dst with
    | .vreg r => s.updSlotAt c l (fun sl => sl.pendV r false)
    | _ => s
  s1.downLd c l

/-- REFUSAL: a refused write, load or redemption reaches its core (R146, R147, R158). A refused lane of `vlds` or `vgath`
zeroes that lane alone, and each refused lane has its own cause (log 85). -/
def execRefusal (k : PairKey) (s : State) : Out :=
  match k.dst.agent, s.headOf k with
  | .core c, some p =>
    if k.dst.peer ≠ s.part.peer ∨ s.spills p.body then notEnabled "REFUSAL" else
    let s0 := s.popNet k
    let l := p.slot
    let live := s.current c l p.gen
    let drains := s.draining c l
    match p.body with
    | .refusedWrite (some n) reason _ => .next (s0.refusedEntry c n reason)
    | .refusedRead (.word key n) _ pa => .next (s0.noWord c l key n pa p.gen)
    | .refusedRead ret _ pa =>
      if live = false then .next (s0.stale c)
      else
        let cause (s : State) : State := if drains then s else s.pushLoadCause c l pa
        match ret with
        | .xreg r _ _ => .next (cause (s0.landX c l r false 8 0 none))
        | .vpart r n =>
          match s.vloadAt c l r with
          | some v =>
            let v1 := v.part n (List.replicate 64 0) none
            .next (cause (s0.stepVLoad c l (if v.how = 2 then v1 else { v1 with how := 3 })))
          | none => .next (s0.stale c)
        | .vscale r =>
          match s.vloadAt c l r with
          | some v => .next (cause (s0.stepVLoad c l { v with how := 3, left := 0, later := [] }))
          | none => .next (s0.stale c)
        | _ => notEnabled "REFUSAL"
    | .refusedRdm dst t kind =>
      if live = false then .next (s0.stale c)
      else if drains then .next (s0.downLd c l)
      else if rdmIsMsg dst ∧ (s.coreAt c).room 2 = false then notEnabled "REFUSAL"
      else .next ((s0.landRefused c l dst t kind).endRdm c l dst)
    | _ => notEnabled "REFUSAL"
  | _, _ => notEnabled "REFUSAL"

/-! ### Register parity (R333) -/

/-- An instruction of the slot is to issue and reads its registers. -/
def Phase.reads : Phase → Bool
  | .ready | .stalled => true
  | _ => false

/-- X[n] rewritten, its marker left as it is. -/
def Slot.fixX (sl : Slot) (n : Nat) (v : Word) : Slot := if n = 0 then sl else { sl with x := sl.x.setIfInBounds n v }

/-- The newest copy of a register in the operand log. -/
def Core.logged (k : Core) (l reg : Nat) : Option LogE := k.oplog.find? (fun e => e.slot = l && e.reg = reg)

/-- REGISTER_PARITY_REPLAY: the register is rewritten from its newest copy; with none, or one that is uncorrectable, the slot
parks with cause 0x1C1. Either counts one error of the core (R333, R375). -/
def execRegisterParityReplay (c l reg : Nat) (logBad : Bool) (s : State) : Out :=
  let sl := s.slotAt c l
  if sl.phase.reads = false ∨ slotCount c ≤ l ∨ 88 ≤ reg then notEnabled "REGISTER_PARITY_REPLAY"
  else
    match (s.coreAt c).logged l reg, logBad with
    | some e, false =>
      let v := e.val
      let n : Nat := reg
      let s1 :=
        if n < 32 then s.updSlotAt c l (fun sl => sl.fixX n (v.setWidth 64))
        else if n < 64 then s.updSlotAt c l (fun sl => { sl with v := sl.v.setIfInBounds (n - 32) v })
        else if n < 72 then s.updSlotAt c l (fun sl => { sl with m := sl.m.setIfInBounds (n - 64) (v.setWidth 64) })
        else s
      .next ((s1.updUnit 0 c (fun u => { u with c3 := bump u.c3 })).countError 0 c)
    | _, _ =>
      let a : Word := BitVec.ofNat 64 reg
      .next ((s.countError 0 c).takeTrap c l 0x1C1 a sl.pc false 0 a)

end Sys2Proof.Machine
end

