-- ==== Sys2Proof/Machine/Engines.lean ====
section
/-! DEFINITION. Engines (R53, R216, R222 to R236): starting a command, its reads and writes, the matrix arithmetic, follow-on
groups, completions, and the reduction stages of the routers. -/

namespace Sys2Proof.Machine

open Sys2Proof

/-! ### Accesses of a command -/

/-- A run of bytes cut into 64-byte lines where it can be, else granules; one byte run is one piece. -/
def gcuts : Nat → Nat → Nat → List (Nat × Nat)
  | 0, _, _ => []
  | fuel + 1, pa, len =>
    if len = 0 then []
    else
      let n := if pa % 64 = 0 ∧ 64 ≤ len then 64 else min 16 len
      (pa, n) :: gcuts fuel (pa + n) (len - n)

/-- A copy cut into moves of lines where both sides allow, else granules: source, destination, bytes. -/
def moveCuts : Nat → Nat → Nat → Nat → List (Nat × Nat × Nat)
  | 0, _, _, _ => []
  | fuel + 1, a, b, len =>
    if len = 0 then []
    else
      let n := if a % 64 = 0 ∧ b % 64 = 0 ∧ 64 ≤ len then 64 else min 16 len
      (a, b, n) :: moveCuts fuel (a + n) (b + n) (len - n)

def movesOf (a b len : Nat) : List (Nat × Nat × Nat) := moveCuts (len / 16 + 1) a b len

/-- The scale reads of an operand (R72, R74). -/
def scaleReads (r : Shape) (t : Nat) (f : BitVec 8) (leaf sc : Nat) (peer : Peer) : List EAcc :=
  (scaleRuns r t f leaf sc).map (fun q => { pa := q.1, len := q.2, peer := peer, needs := [] })

/-- The reads of an operand: scales, then elements, each of which waits for the scales of its blocks (R74); `base` reads stand
before them. -/
def operandReads (r : Shape) (t pa : Nat) (f : BitVec 8) (leaf sc : Nat) (peer : Peer) (base : Nat) : List EAcc :=
  let ss := scaleReads r t f leaf sc peer
  let needs (off len : Nat) : List Nat :=
    if ss.isEmpty then []
    else
      let (b0, b1) := blocksOf f leaf off len
      ((ss.zipIdx).filter (fun e => decide (e.1.pa ≤ sc + b1) && decide (sc + b0 < e.1.pa + e.1.len))).map (fun e => base + e.2)
  ss ++ (((r.runs t).map (fun q => (gcuts (q.2 / 16 + 1) (pa + q.1) q.2).map
    (fun e => { pa := e.1, len := e.2, peer := peer, needs := needs (e.1 - pa) e.2 }))).flatten)

/-- Bytes that reads brought, by physical address. -/
abbrev Fetched := List (Nat × List Byte)

def Fetched.byte (l : Fetched) (pa : Nat) : Nat :=
  match l.find? (fun e => decide (e.1 ≤ pa) && decide (pa < e.1 + e.2.length)) with
  | some (a, bs) => (bs.getD (pa - a) 0).toNat
  | none => 0

/-- The reads `n` to `n + m - 1` of a run with what they brought. -/
def Run.fetched (r : Run) (n m : Nat) : Fetched :=
  ((r.reads.zipIdx).filter (fun e => decide (n ≤ e.2) && decide (e.2 < n + m))).map
    (fun e => (e.1.pa, (AMap.get r.got e.2).getD []))

/-- An operand whose bytes have been read: from memory, or a vector register group. -/
structure Operand where
  shape : Shape
  fmt : BitVec 8
  pa : Nat
  leaf : Nat
  sc : Nat
  scales : Fetched
  elts : Fetched
  group : List Byte
  deriving Repr

/-- Byte offset of element `k` of row `i` of tile `t`, and its block's number (R215, R216, R72). -/
def Operand.place (o : Operand) (t i k : Nat) : Nat :=
  let bit := k * width (fmtOf o.fmt)
  if o.shape.kind = 1 then t * o.shape.tp * 16 + i * o.shape.cols * 16 + bit / 8
  else o.shape.off t i (bit / 128) + bit % 128 / 8

/-- The code of an element. -/
def Operand.code (o : Operand) (t i k : Nat) : Nat :=
  let w := width (fmtOf o.fmt)
  let at_ := o.place t i k
  let byte (j : Nat) : Nat := if o.shape.kind = 1 then (o.group.getD (at_ + j) 0).toNat else o.elts.byte (o.pa + at_ + j)
  if w = 4 then byte 0 / 2 ^ (4 * (k % 2)) % 16
  else ((List.range (w / 8)).map (fun j => byte j * 256 ^ j)).sum

/-- The code of an element's block scale. -/
def Operand.scaleCode (o : Operand) (t i k : Nat) : Nat :=
  o.scales.byte (o.sc + eltNo o.fmt o.leaf (o.place t i k) / blockLen (blkOf o.fmt))

/-- The scale of an element's block: 1 where the operand has none (R80). -/
def Operand.scale (o : Operand) (t i k : Nat) : Val :=
  if scaled o.fmt then scaleVal (sfmtOf o.fmt) (o.scaleCode t i k) else .num false 1 1

/-- The exact value of an element (R73). -/
def Operand.value (o : Operand) (t i k : Nat) : Val :=
  decodeVal o.fmt (o.code t i k) (if scaled o.fmt then o.scaleCode t i k else 0)

/-! ### A command's plan -/

def Run.new (id : Nat) (c : Cmd) (reads : List EAcc) (writes : List EWrite) (more : Bool) : Run :=
  { id := id, cmd := c, reads := reads, issued := 0, back := 0, got := [], writes := writes, sent := 0, acked := 0, more := more
    last := 0, status := 0, reason := 0, prog := 0 }

/-- Moves as reads and writes: write `i` takes the bytes of read `base + i`. -/
def moveReads (peer : Peer) (l : List (Nat × Nat × Nat)) : List EAcc :=
  l.map (fun m => { pa := m.1, len := m.2.2, peer := peer, needs := [] })

def moveWrites (peer : Peer) (base : Nat) (l : List (Nat × Nat × Nat)) : List EWrite :=
  (l.zipIdx).map (fun m => { pa := m.1.2.1, len := m.1.2.2, peer := peer, src := [base + m.2], bytes := [], counts := true
                             clears := false, line := none })

/-- Bytes as writes of their own. -/
def byteWrites (pa : Nat) (bs : List Byte) (peer : Peer) (clears : Bool) : List EWrite :=
  (gcuts (bs.length / 16 + 1) pa bs.length).map (fun e =>
    { pa := e.1, len := e.2, peer := peer, src := [], bytes := (bs.drop (e.1 - pa)).take e.2, counts := true, clears := clears
      line := none })

/-- The engine of a command is the one of tile `e / 4`. -/
def engineTile (e : Nat) : Nat := e / 4

/-- An entry of a tile's accumulator memory, as the bits of an FP32 (R37). -/
def State.accAt (s : State) (t n : Nat) : Nat := ((AMap.get s.mach.acc (t * 65536 + n)).getD 0).toNat

def State.setAcc (s : State) (t n v : Nat) : State :=
  let k := t * 65536 + n
  { s with mach := { s.mach with
    acc := if v = 0 then AMap.del s.mach.acc k else AMap.set s.mach.acc k (BitVec.ofNat 32 v) } }

/-- Operand A's shape where it is a group: no reads. -/
def cmdReadsA (c : Cmd) (t base : Nat) : List EAcc :=
  let a := shapeOf c.shA
  if a.kind = 1 then [] else operandReads a t c.paA c.fmtA c.leafA c.scA c.peerA base

/-- The numbers of an element and its block's element index in memory, for rounding (R76): `blk` and `elt`. -/
def roundPlace (f : BitVec 8) (va leaf off k : Nat) : Nat × Nat :=
  let w := width (fmtOf f)
  let at_ := va + off
  if scaled f then
    let e := (eltNo f leaf off + (if w = 4 then k % 2 else 0)) % blockLen (blkOf f)
    ((at_ - e * w / 8) / 16, e)
  else (at_ / 64 * 4, at_ % 64 * 8 / w + (if w = 4 then k % 2 else 0))

/-- ACCST's rows (R225): codes by element, and scale codes by their block's number. A last run of a row with fewer values than a
block is requantised with a scale of its own (log 90). -/
def State.accRow (s : State) (c : Cmd) (t i : Nat) : List Nat × List (Nat × Nat) :=
  let b := shapeOf c.shB
  let f := c.fmtB
  let fmt := fmtOf f
  let n := b.elts f
  let o : Operand := { shape := b, fmt := f, pa := c.paB, leaf := c.leafB, sc := c.scB, scales := [], elts := [], group := [] }
  let tv := decodeElt 0 (c.w1.toNat % 2 ^ 32)
  let vs := (List.range n).map (fun k => (decodeElt 0 (s.accAt t (w0Acc c.w0 + i * n + k))).mul tv)
  let rnd (k : Nat) : Rnd :=
    let (blk, elt) := roundPlace f c.vaB.toNat c.leafB (o.place 0 i k) k
    convRnd (w0Flags c.w0 % 4) fmt c.fseed blk elt
  if scaled f then
    let g := blockLen (blkOf f)
    let (sc, codes) := requantAll (sfmtOf f) fmt g rnd vs
    (codes, (sc.zipIdx).map (fun e => (eltNo f c.leafB (o.place 0 i (e.2 * g)) / g, e.1)))
  else ((vs.zipIdx).map (fun e => convert fmt (rnd e.2) e.1), [])

/-- The bytes of granule `c` of a row of codes. -/
def rowGranule (f : BitVec 8) (codes : List Nat) (c : Nat) : List Byte :=
  let w := width (fmtOf f)
  let per := 128 / w
  toBytes (((codes.drop (c * per)).take per).foldr (fun e acc => e % 2 ^ w + acc * 2 ^ w) 0) 16

/-- The writes of row `i` of an operand: in order of column, each granule at its place (R216, R227). -/
def rowWrites (r : Shape) (f : BitVec 8) (pa i : Nat) (codes : List Nat) (peer : Peer) : List EWrite :=
  if r.rot = 0 then
    byteWrites (pa + r.off 0 i 0) (((List.range r.cols).map (rowGranule f codes)).flatten) peer false
  else ((List.range r.cols).map (fun c => byteWrites (pa + r.off 0 i c) (rowGranule f codes c) peer false)).flatten

/-- The writes of ACCST: the rows, and their scales as writes that PROG does not count (R225, R234). -/
def State.accstWrites (s : State) (c : Cmd) (t : Nat) : List EWrite :=
  let b := shapeOf c.shB
  ((List.range b.rows).map (fun i =>
    let (codes, scales) := s.accRow c t i
    rowWrites b c.fmtB c.paB i codes c.peerB ++
      scales.map (fun e => { pa := c.scB + e.1, len := 1, peer := c.peerB, src := [], bytes := toBytes e.2 1, counts := false
                             clears := false, line := none }))).flatten

/-- The reads of one line, or more, that lie in line `j` of a linear source. -/
def readsOfLine (reads : List EAcc) (base j : Nat) : List Nat :=
  ((reads.zipIdx).filter (fun e => decide (base + 64 * j ≤ e.1.pa) && decide (e.1.pa < base + 64 * j + 64))).map (·.2)

/-- The moves of COPY2 in order of tile, row and column: whole rows, or granules where a rotation moves them (R216, R227). -/
def copy2Moves (a b : Shape) (t pa pb : Nat) : List (Nat × Nat × Nat) :=
  ((List.range t).map (fun i => ((List.range a.rows).map (fun j =>
    if a.rot = 0 ∧ b.rot = 0 then movesOf (pa + a.off i j 0) (pb + b.off i j 0) (a.cols * 16)
    else (List.range a.cols).map (fun c => (pa + a.off i j c, pb + b.off i j c, 16)))).flatten)).flatten

/-- A command as it starts at an engine: its reads, and its writes as far as they are known (R223 to R231). -/
def State.planCmd (s : State) (e id : Nat) (c : Cmd) : Run :=
  let op := c.op.toNat
  let a := shapeOf c.shA
  let b := shapeOf c.shB
  let len := w0Acc c.w0
  if isMma op then
    let t := ktiles op c.w0
    let ra := cmdReadsA c t 0
    Run.new id c (ra ++ operandReads b t c.paB c.fmtB c.leafB c.scB c.peerB ra.length) [] false
  else if op = 4 then Run.new id c [] (s.accstWrites c (engineTile e)) false
  else if op = 5 then Run.new id c (cmdReadsA c 1 0) [] false
  else if op = 6 then Run.new id c [] [] false
  else if op = 0x10 ∨ op = 0x12 then
    let m := movesOf c.paA c.paB len
    Run.new id c (moveReads c.peerA m) (moveWrites c.peerB 0 m) false
  else if op = 0x11 then
    let m := copy2Moves a b len c.paA c.paB
    Run.new id c (moveReads c.peerA m) (moveWrites c.peerB 0 m) false
  else if op = 0x13 then
    let pa := c.w1.toNat % 2 ^ 52
    let rs := (lineCuts (4 * b.rows + 1) pa (4 * b.rows)).map
      (fun q => { pa := q.1, len := q.2, peer := c.peerI, needs := [] })
    Run.new id c rs [] true
  else if op = 0x40 then
    Run.new id c (operandReads a 1 c.paA (BitVec.ofNat 8 (fmtOf c.fmtA)) 0 0 c.peerA 0) [] true
  else if op = 0x41 then
    let bs := ((List.range (len / 8)).map (fun _ => toBytes c.w1.toNat 8)).flatten
    Run.new id c [] (byteWrites c.paB bs c.peerB (decide (w0Flags c.w0 % 2 = 1))) false
  else if op = 0x20 then
    let o := c.w2.toNat % 2 ^ 20
    let tiles := s.mcastTiles (engineTile e) c.w2
    let m := movesOf c.paA o len
    let ws := ((moveWrites s.part.peer 0 m).map (fun w => tiles.map (fun t => { w with pa := t * 2 ^ 20 + w.pa }))).flatten
    Run.new id c (moveReads c.peerA m) ws false
  else if op = 0x30 then
    let rs := (gcuts (len / 16 + 1) c.paA len).map (fun q => { pa := q.1, len := q.2, peer := c.peerA, needs := [] })
    let ws := (List.range (max 1 (len / 64))).map (fun j =>
      { pa := 0, len := min 64 len, peer := s.part.peer, src := readsOfLine rs c.paA j, bytes := [], counts := true, clears := false
        line := some j })
    Run.new id c rs ws false
  else
    Run.new id c [] [{ pa := 0, len := 0, peer := s.part.peer, src := [], bytes := [], counts := false, clears := false
                       line := some 0 }] false

/-! ### Reads and writes that follow once reads have returned -/

/-- GATHER after its indices: the rows up to the first index that leaves the leaf, which ends the command with 0x04A (R228).
ROT of the source does not turn a row (log 132). -/
def gatherRows (a b : Shape) (c : Cmd) (ixs : List Nat) : List (Nat × Nat × Nat) × Bool :=
  let row (x : Nat) : Nat := x * a.rp * 16
  let ok (x : Nat) : Bool := decide (x < 2 ^ 31) && decide (row x + a.cols * 16 ≤ c.leafLenA)
  let good := ixs.takeWhile ok
  let move (x j : Nat) : List (Nat × Nat × Nat) :=
    if b.rot = 0 then movesOf (c.paA + row x) (c.paB + b.off 0 j 0) (b.cols * 16)
    else (List.range b.cols).map (fun k => (c.paA + row x + k * 16, c.paB + b.off 0 j k, 16))
  (((good.zipIdx).map (fun e => move e.1 e.2)).flatten, decide (good.length ≠ ixs.length))

/-- XPOSE's rows (R227): element (i, j) of the source is element i of row j of the destination. -/
def xposeWrites (c : Cmd) (o : Operand) : List EWrite :=
  let b := shapeOf c.shB
  ((List.range b.rows).map (fun j =>
    rowWrites b c.fmtA c.paB j ((List.range o.shape.rows).map (fun i => o.code 0 i j)) c.peerB)).flatten

/-- An operand of a command from the reads of a run that begin at `base`. -/
def Run.operand (r : Run) (sh : Shape) (t pa : Nat) (f : BitVec 8) (leaf sc base : Nat) (peer : Peer) (group : List Byte) :
    Operand :=
  let ns := if sh.kind = 1 then 0 else (scaleReads sh t f leaf sc peer).length
  let n := if sh.kind = 1 then 0 else (operandReads sh t pa f leaf sc peer 0).length
  { shape := sh, fmt := f, pa := pa, leaf := leaf, sc := sc, scales := r.fetched base ns, elts := r.fetched (base + ns) (n - ns)
    group := group }

/-- A run whose first reads have all returned: what follows is planned. -/
def Run.expand (r : Run) : Run :=
  let c := r.cmd
  let a := shapeOf c.shA
  let b := shapeOf c.shB
  if c.op.toNat = 0x13 then
    let bytes := ((List.range r.reads.length).map (fun i => (AMap.get r.got i).getD [])).flatten
    let ixs := (List.range b.rows).map (fun i => ofBytes ((bytes.drop (4 * i)).take 4))
    let (m, bad) := gatherRows a b c ixs
    { r with reads := r.reads ++ moveReads c.peerA m, writes := moveWrites c.peerB r.reads.length m, more := false
             last := if bad then 0x04A else 0 }
  else
    let o := r.operand a 1 c.paA (BitVec.ofNat 8 (fmtOf c.fmtA)) 0 0 0 c.peerA []
    { r with writes := xposeWrites c o, more := false }

/-- Every reply to what the run has issued has come, and nothing is left to issue, or the run has stopped (R233). -/
def Run.finished (r : Run) : Bool :=
  decide (r.back = r.issued) && decide (r.acked = r.sent) &&
    (decide (r.status ≠ 0) || (!r.more && decide (r.issued = r.reads.length) && decide (r.sent = r.writes.length)))

/-- A run has written part of a 64-byte line (R339). -/
def Run.midLine (r : Run) : Bool :=
  decide (r.status = 0) && !r.more && decide (r.sent < r.writes.length) &&
    decide (((r.writes.take r.sent).map (·.len)).sum % 64 ≠ 0)

/-- The run will read no more. -/
def Run.readAll (r : Run) : Bool :=
  decide (r.back = r.issued) && (decide (r.status ≠ 0) || (!r.more && decide (r.issued = r.reads.length)))

/-- The status with which a run ends. -/
def Run.code (r : Run) : Nat := if r.status ≠ 0 then r.status else r.last

/-! ### Steps of an engine -/

def State.runAt (s : State) (e id : Nat) : Option Run := (s.engineAt e).runs.find? (fun r => r.id = id)

/-- The key of a follow-on member's group. -/
def followKey (c : Cmd) : Nat × Nat × Nat × Nat := (c.core, c.slot, c.gen.toNat, c.follow)

/-- A follow-on member of this module's slots is no longer waited for (R229). -/
def State.memberDone (s : State) (key : Nat × Nat × Nat × Nat) (code : Nat) : State :=
  s.updEngine (ownEngine key.1 1) (fun k => { k with
    open_ := match takeFirst (fun x => decide (x = key)) k.open_ with
      | some (_, r) => r
      | none => k.open_
    failed := if code = 0 then k.failed else k.failed ++ [key] })

/-- One read lease of a command of a slot given back (R236). -/
def dropLease (core slot : Nat) (gen : BitVec 16) (l : List Lease) (w : Nat) : List Lease :=
  match takeFirst (fun (x : Lease) => x.engine && decide (x.which = w) && decide (x.core = core) && decide (x.slot = slot) &&
      decide (x.gen = gen)) l with
  | some (_, r) => r
  | none => l

/-- Leases of a command of a slot of this module given back. -/
def State.dropLeasesOf (s : State) (core slot : Nat) (gen : BitVec 16) (ws : List Nat) : State :=
  if ws.isEmpty then s
  else s.updTile (tileOf core) (fun t => { t with leases := ws.foldl (dropLease core slot gen) t.leases })

/-- A run of module `own`'s command has still to read a slot of its tile's Frieze, or may have: a read of it is not answered, or
rows to gather are not yet known (R236). -/
def Run.stillReads (own : Peer) (r : Run) (w : Nat) : Bool :=
  !r.readAll && ((r.more && decide (r.cmd.op.toNat = 0x13)) ||
    (r.reads.zipIdx).any (fun e => (AMap.get r.got e.2).isNone && decide (e.1.peer = own) &&
      touchesSlot (tileOf r.cmd.core) w e.1.pa e.1.len))

/-- A run put back at its engine: the lease on a Frieze slot goes with the last read of that slot (R236), but for another
module's command, whose leases go with its completion, and a follow-on member of this module counts as finished once nothing is
left of it (R229). -/
def State.putRun (s : State) (e : Nat) (r : Run) : State :=
  let c := r.cmd
  let (keep, gone) := c.leases.partition (fun w => decide (c.peer ≠ s.part.peer) || r.stillReads s.part.peer w)
  let s1 := s.dropLeasesOf c.core c.slot c.gen gone
  let ended := r.finished && decide (c.follow ≠ 0) && !c.matrix && decide (c.peer = s.part.peer)
  let s2 := if ended then s1.memberDone (followKey c) r.code else s1
  let c2 := { c with leases := keep, follow := if ended then 0 else c.follow }
  s2.updEngine e (fun k => { k with runs := k.runs.map (fun x => if x.id = r.id then { r with cmd := c2 } else x) })

/-- The matrix array of a tile. -/
def isMatrix (e : Nat) : Bool := decide (e < 4096) && decide (e % 4 = 0)

/-- The head of the hold moves into the queue while there is room (R222). -/
def Engine.refill (k : Engine) : Engine :=
  let n := 16 - k.queue.length
  { k with queue := k.queue ++ k.hold.take n, hold := k.hold.drop n }

/-- An address word of a command lies in a page, by its frame (R355). -/
def cmdNames (x : Cmd) (peer : Peer) (frame : Nat) : Bool :=
  (decide (x.peerA = peer) && decide (x.paA / 2 ^ 16 = frame)) || (decide (x.peerB = peer) && decide (x.paB / 2 ^ 16 = frame)) ||
    (decide (x.op = 0x13) && decide (x.peerI = peer) && decide (x.w1.toNat % 2 ^ 52 / 2 ^ 16 = frame))

/-- A core may not drop a migrating page before a command that waits at this engine has completed (R355), and the drain of a
switch waits for that (R287): the engine goes on (log 104). -/
def State.drainNeeds (s : State) (cs : List Cmd) : Bool :=
  s.shoots.any (fun x => match x.why with
    | .migration p old => cs.any (fun c =>
        decide (c.peer = s.part.peer) && cmdNames c p old && x.left.contains (.core c.core))
    | _ => false)

/-- After the stop time of a switch a matrix array goes on with the command that it runs, and a streamer only to the end of a line,
or for a migration that is to reach its switch (R287, R339; log 104). -/
def State.goesOn (s : State) (e : Nat) (r : Run) : Bool := !s.stopped || isMatrix e || r.midLine || s.drainNeeds [r.cmd]

/-- ENGINE_START: the command at the head of an engine's queue starts, not before its shape continuation has arrived (R118), and
not after the stop time of a switch (R339) but where the drain needs it; a matrix array runs one at a time (R53, R222). -/
def execEngineStart (e : Nat) (s : State) : Out :=
  let k := s.engineAt e
  match k.queue with
  | [] => notEnabled "ENGINE_START"
  | c :: rest =>
    if (s.stopped ∧ s.drainNeeds (k.queue ++ k.hold) = false) ∨ c.marker ∨ c.waits ∨ (isMatrix e ∧ k.runs ≠ []) then notEnabled "ENGINE_START"
    else
      let r := s.planCmd e k.next c
      let s1 := s.updEngine e (fun k => ({ k with queue := rest, runs := k.runs ++ [r], next := k.next + 1 }).refill)
      .next (s1.putRun e r)

/-- The number under which a reply names a run and its access. -/
def accessNo (run ix : Nat) : Nat := run * 2 ^ 32 + ix

/-- A place of the home of an engine's access. -/
def State.homePlace (s : State) (peer : Peer) (pa : Nat) : Place :=
  { peer := peer, agent := .home (s.homeAtPeer peer pa) }

/-- The region of an access that no engine may touch: reached only by a gathered row, whose command then ends as one whose
read is refused (R33; log 88). -/
def State.closedRegion (s : State) (a : EAcc) : Bool :=
  decide (a.peer = s.part.peer) && decide (a.pa < 2 ^ 30) && noAccess (a.pa % 2 ^ 20 + a.len - 1)

/-- The next read of a run (R53): held while its scales are on the way (R74), and towards another module during a hold (R61). -/
def State.engineRead (s : State) (e : Nat) (r : Run) : Out :=
  match r.reads[r.issued]? with
  | none => notEnabled "ENGINE_ACCESS"
  | some a =>
    if r.status ≠ 0 ∨ s.goesOn e r = false ∨ a.needs.any (fun n => (AMap.get r.got n).isNone) ∨
        ((s.engineAt e).holding ∧ a.peer ≠ s.part.peer) then notEnabled "ENGINE_ACCESS"
    else if s.closedRegion a then .next (s.putRun e { r with status := 0x062, reason := 0 })
    else
      .next ((s.post (.engine e) (s.homePlace a.peer a.pa) 4 (.load a.pa a.len (.eng r.id r.issued)) 0 0).putRun e
        { r with issued := r.issued + 1 })

/-- The next write of a run, once the bytes are there, or its next message to the router (R231). -/
def State.engineWrite (s : State) (e : Nat) (r : Run) : Out :=
  match r.writes[r.sent]? with
  | none => notEnabled "ENGINE_ACCESS"
  | some w =>
    if r.status ≠ 0 ∨ s.goesOn e r = false ∨ w.src.any (fun n => (AMap.get r.got n).isNone) ∨
        ((s.engineAt e).holding ∧ w.peer ≠ s.part.peer) then notEnabled "ENGINE_ACCESS"
    else
      let bs := if w.src = [] then w.bytes else (w.src.map (fun n => (AMap.get r.got n).getD [])).flatten
      let r1 := { r with sent := r.sent + 1 }
      let router := s.here (.router (clusterOf (engineTile e)))
      let stage := r.cmd.w2.toNat % 16
      match w.line with
      | none =>
        let kind : WKind := if w.clears then .feClr else .st
        .next ((s.post (.engine e) (s.homePlace w.peer w.pa) 4
          (.store kind w.pa w.len (ofVbytes bs) (some (accessNo r.id r.sent))) 0 0).putRun e r1)
      | some j =>
        if r.cmd.op.toNat = 0x30 then
          .next ((s.post (.engine e) router 2 (.contrib r.id stage j (w0Acc r.cmd.w0) (ofVbytes bs)) 0 0).putRun e r1)
        else .next ((s.post (.engine e) router 2 (.stageLoad r.id stage r.cmd.w1) 0 0).putRun e r1)

/-- A read has returned. -/
def Run.gotRead (r : Run) (ix : Nat) (bs : List Byte) (status reason : Nat) : Run :=
  let r1 := { r with
    back := r.back + 1
    got := if status = 0 then AMap.set r.got ix bs else r.got
    status := if r.status = 0 then status else r.status
    reason := if r.status = 0 then reason else r.reason }
  if r1.more ∧ r1.status = 0 ∧ r1.back = r1.reads.length then r1.expand else r1

/-- A write has been answered. -/
def Run.gotAck (r : Run) (bytes status reason : Nat) : Run :=
  { r with
    acked := r.acked + 1
    prog := r.prog + bytes
    status := if r.status = 0 then status else r.status
    reason := if r.status = 0 then reason else r.reason }

/-- The bytes of write `ix` that count in PROG (R234). -/
def Run.countOf (r : Run) (ix : Nat) : Nat :=
  match r.writes[ix]? with
  | some w => if w.counts then w.len else 0
  | none => 0

/-- A reply at an engine (R53, R233). -/
def State.engineReply (s : State) (e : Nat) (k : PairKey) : Out :=
  match s.headOf k with
  | none => notEnabled "ENGINE_ACCESS"
  | some p =>
    let s0 := s.popNet k
    let with_ (id : Nat) (f : Run → Run) : Out :=
      match s.runAt e id with
      | some r => .next (s0.putRun e (f r))
      | none => .next s0
    match p.body with
    | .value (.eng id ix) data poison =>
      with_ id (fun r =>
        let n := match r.reads[ix]? with | some a => a.len | none => 0
        r.gotRead ix ((vbytes data).take n) (if poison.isSome then 0x105 else 0) 0)
    | .refusedRead (.eng id ix) reason _ => with_ id (fun r => r.gotRead ix [] 0x062 reason)
    | .ack (some n) => with_ (n / 2 ^ 32) (fun r => r.gotAck (r.countOf (n % 2 ^ 32)) 0 0)
    | .refusedWrite (some n) reason _ => with_ (n / 2 ^ 32) (fun r => r.gotAck 0 0x060 reason)
    | .stageReply id line code reason => with_ id (fun r => r.gotAck (if code = 0 then r.countOf line else 0) code reason)
    | _ => notEnabled "ENGINE_ACCESS"

/-- ENGINE_ACCESS: a read or write of a running command, or a reply to one (R53). -/
def execEngineAccess (e : Nat) (act : EngAct) (s : State) : Out :=
  match act with
  | .read id =>
    match s.runAt e id with
    | some r => s.engineRead e r
    | none => notEnabled "ENGINE_ACCESS"
  | .write id =>
    match s.runAt e id with
    | some r => s.engineWrite e r
    | none => notEnabled "ENGINE_ACCESS"
  | .reply k =>
    if k.dst = s.here (.engine e) then s.engineReply e k else notEnabled "ENGINE_ACCESS"

/-! ### Completion (R232 to R234) -/

/-- REASON of a completion: for a refused write (Table 11-6). -/
def Run.why (r : Run) : Nat := if r.code = 0x060 then r.reason else 0

/-- The status word of Table 11-6. -/
def statusWord (prog op reason code : Nat) : Word :=
  BitVec.ofNat 64 (prog % 2 ^ 32 * 2 ^ 32 + op * 2 ^ 24 + reason * 2 ^ 9 + code)

/-- The completion message, or under ERRONLY and code 0 the silent notice, towards the issuing core (R232). By it a core
learns which of its commands has ended (R355; log 139), and the end of a follow-on member that another module's streamer has
run. -/
def State.sendCompletion (s : State) (e : Nat) (c : Cmd) (status : Word) (code : Nat) : State :=
  let b : Body := if c.w3.getLsbD 0 ∧ code = 0 then .silent c.slot c.gen c.matrix c.follow c.leases
    else .completion c.w3 status c.slot c.gen c.matrix true c.level c.follow c.leases
  s.append { src := s.here (.engine e), dst := { peer := c.peer, agent := .core c.core }, cls := 1 }
    { body := b, src := s.here (.engine e), job := s.job.tag, slot := c.slot, gen := c.gen, tag := c.num }

/-- C after MMA, MMAZ or MMAW (R223, R224, R80). -/
def State.mmaResult (s : State) (t : Nat) (r : Run) : List (Nat × Nat) :=
  let c := r.cmd
  let a := shapeOf c.shA
  let b := shapeOf c.shB
  let tk := ktiles c.op.toNat c.w0
  let oa := r.operand a tk c.paA c.fmtA c.leafA c.scA 0 c.peerA c.group
  let ob := r.operand b tk c.paB c.fmtB c.leafB c.scB (cmdReadsA c tk 0).length c.peerB []
  let kk := a.elts c.fmtA
  let entry (i n : Nat) : Nat :=
    let at_ := w0Acc c.w0 + i * b.rows + n
    (List.range (tk * (kk / 8))).foldl (fun acc kb =>
      let tile := kb / (kk / 8)
      let k0 := kb % (kk / 8) * 8
      let ps := (List.range 8).map (fun j =>
        (decodeElt (fmtOf c.fmtA) (oa.code tile i (k0 + j)), decodeElt (fmtOf c.fmtB) (ob.code tile n (k0 + j))))
      kblock acc (oa.scale tile i k0) (ob.scale tile n k0) ps) (if c.op.toNat = 2 then 0 else s.accAt t at_)
  ((List.range a.rows).map (fun i => (List.range b.rows).map (fun n => (w0Acc c.w0 + i * b.rows + n, entry i n)))).flatten

/-- The entries after ACCLD (R226). -/
def State.accldResult (s : State) (t : Nat) (r : Run) : List (Nat × Nat) :=
  let c := r.cmd
  let a := shapeOf c.shA
  let o := r.operand a 1 c.paA c.fmtA c.leafA c.scA 0 c.peerA c.group
  let n := a.elts c.fmtA
  let add := decide (w0Flags c.w0 % 2 = 1)
  ((List.range a.rows).map (fun i => (List.range n).map (fun k =>
    let at_ := w0Acc c.w0 + i * n + k
    let v := o.value 0 i k
    (at_, if add then arith 0 .rne (v.add (decodeElt 0 (s.accAt t at_))) else convert 0 .rne v)))).flatten

/-- The accumulator entries that a command writes as it finishes (R37, R224 to R226). -/
def State.accWrites (s : State) (t : Nat) (r : Run) : List (Nat × Nat) :=
  let c := r.cmd
  let op := c.op.toNat
  if isMma op then s.mmaResult t r
  else if op = 4 then
    if w0Flags c.w0 / 4 % 2 = 1 then
      let b := shapeOf c.shB
      (List.range (b.rows * b.elts c.fmtB)).map (fun i => (w0Acc c.w0 + i, 0))
    else []
  else if op = 5 then s.accldResult t r
  else if op = 6 then (List.range c.w1.toNat).map (fun i => (w0Acc c.w0 + i, 0))
  else []

/-- ENGINE_COMPLETE: the accumulator writes of a matrix command that did not stop, then the completion (R232 to R234). A command that a
fatal error has stopped during the drain of a switch sends its own after the resume (R341). -/
def execEngineComplete (e id : Nat) (s : State) : Out :=
  match s.runAt e id with
  | none => notEnabled "ENGINE_COMPLETE"
  | some r =>
    if r.finished = false ∨ (s.stopped ∧ r.code = 0x1C0) then notEnabled "ENGINE_COMPLETE"
    else
      let t := engineTile e
      let s1 := if isMatrix e ∧ r.code = 0 then (s.accWrites t r).foldl (fun s w => s.setAcc t w.1 w.2) s else s
      let s2 := s1.updEngine e (fun k => { k with runs := k.runs.filter (fun x => x.id ≠ id) })
      .next (s2.sendCompletion e r.cmd (statusWord r.prog r.cmd.op.toNat r.why r.code) r.code)

/-- PARKED_COMMAND_RELEASE: the first parked command of an inbound streamer whose follow-on group is done enters the matrix
array's queue, or is abandoned with 0x109 where a member failed (R229). -/
def execParkedCommandRelease (e : Nat) (s : State) : Out :=
  let k := s.engineAt e
  match takeFirst (fun (c : Cmd) => !k.open_.contains (followKey c)) k.parked with
  | none => notEnabled "PARKED_COMMAND_RELEASE"
  | some (c, rest) =>
    let s1 := s.updEngine e (fun k => { k with parked := rest, failed := k.failed.filter (fun x => x ≠ followKey c) })
    if k.failed.contains (followKey c) then
      .next ((s1.dropLeasesOf c.core c.slot c.gen c.leases).sendCompletion e { c with follow := 0, leases := [] }
        (statusWord 0 c.op.toNat 0 0x109) 0x109)
    else if 16 ≤ (s.engineAt (e - 1)).queue.length then notEnabled "PARKED_COMMAND_RELEASE"
    else .next (s1.updEngine (e - 1) (fun q => { q with queue := q.queue ++ [{ c with follow := 0 }] }))

/-- ENGINE_MARKER_COMPLETE: a marker at the head of a queue completes once the engine runs nothing (R189); after the stop time of a
switch it stays queued (R339). -/
def execEngineMarkerComplete (e : Nat) (s : State) : Out :=
  let k := s.engineAt e
  match k.queue with
  | [] => notEnabled "ENGINE_MARKER_COMPLETE"
  | c :: rest =>
    if c.marker = false ∨ k.runs ≠ [] ∨ s.stopped then notEnabled "ENGINE_MARKER_COMPLETE"
    else
      let s1 := s.updEngine e (fun k => ({ k with queue := rest }).refill)
      .next (s1.sendCompletion e c 0 0)

/-! ### Reduction stages (R231) -/

/-- Contributors of a stage. -/
def Stage.n (g : Stage) : Nat := bitsOf g.desc.toNat 7 4 + 1

def Stage.line (g : Stage) (j : Nat) : List Contrib := (AMap.get g.lines j).getD []

/-- A line of the round in progress has been combined. -/
def Stage.combined (g : Stage) (j : Nat) : Bool := g.written.contains j || (AMap.get g.writing j).isSome

/-- A round is in progress: a line has arrived, or been combined. -/
def Stage.busy (g : Stage) : Bool := !g.written.isEmpty || !g.writing.isEmpty || g.lines.any (fun e => !e.2.isEmpty)

/-- The length with which a new contribution's first line must agree: its round's first arrival's; none where it is the
first. -/
def Stage.roundLen (g : Stage) : Option Nat :=
  let q := g.line 0
  let gone := if g.combined 0 then g.n else 0
  let first := (gone + q.length) / g.n * g.n
  if first < gone ∨ (first = 0 ∧ g.len ≠ 0) then some g.len else (q[first - gone]?).map (·.len)

/-- Elements of a line combined (R231): FP32 addition, FP32 maximum, INT32 addition. -/
def combine (op a b : Nat) : Nat :=
  match op with
  | 0 => arith 0 .rne ((decodeElt 0 a).add (decodeElt 0 b))
  | 1 => minmax 0 true a b
  | _ => (a + b) % 2 ^ 32

/-- Contributions in increasing order of source tile, arrival order kept among those of one tile. -/
def byTile : List Contrib → List Contrib
  | [] => []
  | c :: t => ins c (byTile t)
where
  ins (c : Contrib) : List Contrib → List Contrib
    | [] => [c]
    | d :: t => if engineTile c.eng ≤ engineTile d.eng then c :: d :: t else d :: ins c t

/-- N lines combined element by element. -/
def combineLines (op : Nat) (l : List Contrib) : VWord :=
  match byTile l with
  | [] => 0
  | c :: t => ofLanes 32 ((List.range 16).map (fun i =>
      t.foldl (fun acc d => combine op acc (laneOf d.data 32 i)) (laneOf c.data 32 i)))

/-- Where a stage writes. -/
def Stage.dest (g : Stage) : Nat := bitsOf g.desc.toNat 19 10 * 2 ^ 20 + bitsOf g.desc.toNat 39 20

/-- Stage `n` of a cluster's router. -/
def State.setStage (s : State) (cl n : Nat) (g : Stage) : State :=
  s.updCluster cl (fun k => { k with stages := AMap.set k.stages n g })

/-- Line `j` of a stage has been written, or its write refused: its contributors are answered, and the round resets once every
line is written (R231). -/
def State.lineWritten (s : State) (cl n : Nat) (g : Stage) (j code reason : Nat) (use : List Contrib) : State :=
  let s1 := use.foldl (fun s c => s.post (.router cl) (s.here (.engine c.eng)) 1 (.stageReply c.run j code reason) 0 0) s
  let written := j :: g.written
  let full := decide (written.length * 64 = g.len)
  s1.setStage cl n { g with
    len := if full then 0 else g.len, written := if full then [] else written, writing := AMap.del g.writing j }

/-- The lines of a stage that have arrived from all its contributors are combined, and each result goes to its home as an engine
write (R231). Where it lies in a region that no engine may write, nothing is written and the contributors get 0x060 (R33, R38;
log 59). -/
def State.fireStage (s : State) (cl n : Nat) : Nat → State
  | 0 => s
  | fuel + 1 =>
    match AMap.get (s.clusterAt cl).stages n with
    | none => s
    | some g =>
      match g.lines.find? (fun e => decide (g.n ≤ e.2.length) && !g.combined e.1) with
      | none => s
      | some (j, l) =>
        let use := l.take g.n
        let pa := g.dest + 64 * j
        let g1 := { g with
          len := if g.len = 0 then (use.head?.map (·.len)).getD 0 else g.len, lines := AMap.set g.lines j (l.drop g.n) }
        let s1 :=
          if s.closedByte pa ∨ s.closedByte (pa + 63) then s.lineWritten cl n g1 j 0x060 0 use
          else (s.setStage cl n { g1 with writing := AMap.set g1.writing j use }).post (.router cl)
            (s.here (.home (pa / 2 ^ 20))) 4
            (.store .st pa 64 (combineLines (g.desc.toNat % 16) use) (some (accessNo n j))) 0 0
        State.fireStage s1 cl n fuel

/-- The lines that wait at a stage: it can fire no more often. -/
def Stage.waiting (g : Stage) : Nat := (g.lines.map (fun e => e.2.length)).sum

/-- The answer to the write of a line comes back to its router. -/
def State.lineAnswered (s : State) (cl no code reason : Nat) : State :=
  let n := no / 2 ^ 32
  let j := no % 2 ^ 32
  match AMap.get (s.clusterAt cl).stages n with
  | none => s
  | some g => (s.lineWritten cl n g j code reason ((AMap.get g.writing j).getD [])).fireStage cl n g.waiting

/-- REDUCTION_LINE: what heads the inbox of a router: a stage descriptor, a contributor's line, or the answer to the write of a
combined line (R231). A contribution of no lines is answered at once. -/
def execReductionLine (cl : Nat) (s : State) : Out :=
  match (s.clusterAt cl).inbox with
  | [] => notEnabled "REDUCTION_LINE"
  | p :: rest =>
    let s0 := s.updCluster cl (fun k => { k with inbox := rest })
    let stages := (s.clusterAt cl).stages
    let answer (s : State) (b : Body) : State := s.post (.router cl) p.src 1 b 0 0
    match p.src.agent, p.body with
    | .engine _, .stageLoad run n desc =>
      let busy := match AMap.get stages n with
        | some g => g.busy
        | none => false
      if busy then .next (answer s0 (.stageReply run 0 0x107 0))
      else
        let g : Stage := { desc := desc, len := 0, written := [], writing := [], lines := [], accepted := [] }
        .next (answer (s0.setStage cl n g) (.stageReply run 0 0 0))
    | .engine e, .contrib run n line len data =>
      match AMap.get stages n with
      | none => .next (answer s0 (.stageReply run line 0x106 0))
      | some g =>
        let ok := if line = 0 then (match g.roundLen with | some l => decide (l = len) | none => true)
          else g.accepted.contains (e, run)
        if ok = false then .next (answer s0 (.stageReply run line 0x106 0))
        else if len = 0 then .next (answer s0 (.stageReply run line 0 0))
        else
          let acc := if line = 0 then g.accepted ++ [(e, run)] else g.accepted
          let acc1 := if 64 * (line + 1) = len then acc.filter (fun x => x ≠ (e, run)) else acc
          let c : Contrib := { eng := e, run := run, len := len, data := data }
          let g1 := { g with
            accepted := acc1
            len := if g.len = 0 ∧ line = 0 ∧ (g.line 0).isEmpty then len else g.len
            lines := AMap.set g.lines line (g.line line ++ [c]) }
          .next ((s0.setStage cl n g1).fireStage cl n g1.waiting)
    | .home _, .ack (some no) => .next (s0.lineAnswered cl no 0 0)
    | .home _, .refusedWrite (some no) reason _ => .next (s0.lineAnswered cl no 0x060 reason)
    | _, _ => notEnabled "REDUCTION_LINE"

end Sys2Proof.Machine
end

