-- ==== Sys2Proof/Machine/ChannelHome.lean ====
section
/-! DEFINITION. Channel homes (R173, R174, R180, R186, R187, R289 to R296) and what their notices do at the cores that hold the
ends: arrival, release, redirects, fences, handovers and stubs. -/

namespace Sys2Proof.Machine

open Sys2Proof

/-! ### Entries of a home -/

def State.setChan (s : State) (h : Nat) (e : Chan) : State :=
  s.updHome h (fun q => { q with chans := q.chans.map (fun x => if x.ident = e.ident then e else x) })

/-- The entry of an identity at a home. -/
def State.entryAt (s : State) (h : Nat) (ident : Word) : Option Chan := (s.homeAt h).chans.find? (fun e => e.ident = ident)

def Chan.inst (e : Chan) (n : Nat) : Option Inst := e.insts.find? (fun i => i.num = n)

def Chan.updInst (e : Chan) (n : Nat) (f : Inst → Inst) : Chan :=
  { e with insts := e.insts.map (fun i => if i.num = n then f i else i) }

/-- Instances not closed. -/
def Chan.live (e : Chan) : List Inst := e.insts.filter (fun i => !i.closed)

def Inst.new (n loc : Nat) : Inst :=
  { num := n, holder := some loc, closed := false, owes := [], credits := 0, dead := false
    moved := 0, landed := 0 }

/-- An entry all of whose instances and whose receive end are closed is freed (R187). -/
def State.freeChan (s : State) (h : Nat) (e : Chan) : State :=
  if e.state = .closed ∧ e.live.isEmpty then s.updHome h (fun q => { q with chans := q.chans.filter (fun x => x.ident ≠ e.ident) })
  else s.setChan h e

/-- A notice from a home to a holder, in class 0. -/
def State.tell (s : State) (h loc : Nat) (b : Body) : State := s.post (.home h) (locPlace loc) 0 b 0 0

/-- Once every instance is closed the home sends the final notice, naming how many there ever were (R186). -/
def State.finalCheck (s : State) (h : Nat) (e : Chan) : State × Chan :=
  if e.live.isEmpty ∧ e.finalSent = false ∧ e.state ≠ .closed then
    (s.tell h e.holder (.final e.ident e.made), { e with finalSent := true })
  else (s, e)

/-- The head of a home's perform queue, with the home after it. -/
def State.takeHome (s : State) (h : Nat) : Option (Packet × State) :=
  match (s.homeAt h).q with
  | [] => none
  | p :: r => some (p, s.updHome h (fun q => { q with q := r }))

/-- CHANNEL_CREATION_REQUEST: an entry, or a refusal where 512 are in use or the identity is live (R173, R391). -/
def execChannelCreationRequest (h : Nat) (s : State) : Out :=
  match s.takeHome h with
  | some (p, s0) =>
    match p.body, p.src.agent with
    | .chCreate ident c, .core _ =>
      let q := s.homeAt h
      if 512 ≤ q.chans.length ∨ (s.entryAt h ident).isSome then .next (s0.post (.home h) p.src 0 (.chCreated ident false) 0 0)
      else
        let loc := locOf p.src.peer c
        let e : Chan := { ident := ident, state := .settled, holder := loc, gen := 0, insts := [Inst.new 0 loc], made := 1
                          finalSent := false, rounds := [], made_ := [], early := [] }
        .next ((s0.updHome h (fun q => { q with chans := q.chans ++ [e] })).post (.home h) p.src 0 (.chCreated ident true) 0 0)
    | _, _ => notEnabled "CHANNEL_CREATION_REQUEST"
  | none => notEnabled "CHANNEL_CREATION_REQUEST"

/-- The two ends of a new channel (R173). -/
def newSend (p : Peer) (c : Nat) (ident : Word) : Handle :=
  { kind := .send, ident := ident, inst := 0, gen := 0, seq := 0, credits := 64, dead := false
    loc := c, locPeer := p, home := p, moves := 0 }

def newRecv (p : Peer) (c : Nat) (ident : Word) : Handle := { newSend p c ident with kind := .recv, credits := 0 }

/-- CHANNEL_CREATION_REPLY: `chnew` ends, or the next identity is tried, four in all (R173). A reply for a task that is gone is
discarded and counted (R28, R280); the core then closes both ends of the new channel (log 86). -/
def execChannelCreationReply (k : PairKey) (s : State) : Out :=
  match k.dst.agent, s.headOf k with
  | .core c, some p =>
    match p.body with
    | .chCreated ident ok =>
      if k.dst.peer ≠ s.part.peer then notEnabled "CHANNEL_CREATION_REPLY" else
      match takeFirst (fun (r : ChanReq) => !r.dup && decide (r.ident = ident)) (s.coreAt c).reqs with
      | none => .next (s.popNet k)
      | some (r, rest) =>
        let s0 := (s.popNet k).updCore c (fun q => { q with reqs := rest })
        let s1 := if (s.slotAt c r.slot).gen ≠ r.gen then s0.stale c else s0
        let gone := !s.current c r.slot r.gen || s.draining c r.slot
        let hs := newSend s.part.peer c ident
        let hr := newRecv s.part.peer c ident
        if ok then
          if gone then .next ((s1.closeEnd c hs).closeEnd c hr)
          else
            let e : RecvEnd := { ident := ident, gen := 0, bind := none, level := 0, final := none, closes := 0
                                 eventSent := false, home := s.part.peer, before := some 0 }
            let s2 := s1.updCore c (fun q => { q with ends := q.ends ++ [e] })
            .next (((s2.setHAt c r.slot r.hd hs).setHAt c r.slot r.ha hr).updSlotAt c r.slot
              (fun sl => { sl with phase := .ready, pc := sl.pc + 4 }))
        else if gone then .next s1
        else if r.tries < 3 then .next (s1.askChannel c r.slot r.hd r.ha (r.tries + 1))
        else .next (s1.takeTrap c r.slot 0x087 0 (s.slotAt c r.slot).pc false 0 0)
    | _ => notEnabled "CHANNEL_CREATION_REPLY"
  | _, _ => notEnabled "CHANNEL_CREATION_REPLY"

/-- INSTANCE_ALLOCATION: the next instance of a channel, or none where 255 are live; a close notice that came first is applied
(R174, R186). -/
def execInstanceAllocation (h : Nat) (s : State) : Out :=
  match s.takeHome h with
  | some (p, s0) =>
    match p.body with
    | .chInst ident c =>
      match s.entryAt h ident with
      | none => .next (s0.post (.home h) p.src 0 (.instReply ident none 0 0 0 true) p.slot p.gen)
      | some e =>
        let answer (n : Option Nat) (s : State) : State :=
          s.post (.home h) p.src 0 (.instReply ident n e.gen (e.holder % 8192) (BitVec.ofNat 12 (e.holder / 8192))
            (decide (e.state = .closed))) p.slot p.gen
        if 255 ≤ e.live.length then .next (answer none s0)
        else
          let n := e.made
          let known := e.inst n
          let e1 := { e with
            made := n + 1
            insts := if known.isSome then e.insts else e.insts ++ [Inst.new n (locOf p.src.peer c)] }
          let (s1, e2) := s0.finalCheck h e1
          .next (answer (some n) (s1.freeChan h e2))
    | _ => notEnabled "INSTANCE_ALLOCATION"
  | none => notEnabled "INSTANCE_ALLOCATION"

/-! ### Moves at the home (R291, R292, R294, R296) -/

/-- MOVING_NOTICE: a receive end is carried, an instance is in flight (R291, R296); a notice whose landing has been
performed already changes nothing (log 93). -/
def execMovingNotice (h : Nat) (s : State) : Out :=
  match s.takeHome h with
  | some (p, s0) =>
    match p.body with
    | .moving ident inst n =>
      match s.entryAt h ident, inst with
      | none, _ => .next s0
      | some e, none =>
        .next (s0.setChan h (if e.state = .closed ∨ e.gen.toNat ≠ n then e else { e with state := .carried }))
      | some e, some i => .next (s0.setChan h (e.updInst i (fun i =>
          if i.landed < n then { i with holder := none, moved := n } else i)))
    | _ => notEnabled "MOVING_NOTICE"
  | none => notEnabled "MOVING_NOTICE"

/-- Instances in flight that will still be redirected to a generation. -/
def Chan.owing (e : Chan) (gen : BitVec 16) : Bool := e.live.any (fun i => i.owes.any (fun o => o.2 = gen))

/-- The stub of a round is told the new holder, how many instances there were at the landing, those for which it is to
account, and whether more will follow (R292, R296). -/
def State.tellStub (s : State) (h : Nat) (e : Chan) (round : Nat × BitVec 16) (dest : Nat × BitVec 16) (insts : List Nat) :
    State :=
  s.tell h round.1 (.stubTold e.ident round.2 dest.1 dest.2 ((AMap.get e.made_ dest.2.toNat).getD 0) insts (!e.owing dest.2))

/-- LANDING_NOTICE of a receive end: the next generation at the new holder, a redirect to every instance that is held, and word
to the old holder's stub, which accounts for those and for the instances closed before, by their close markers (R292, R306). -/
def State.landRecv (s : State) (h : Nat) (e : Chan) (loc : Nat) : State :=
  let g := e.gen + 1
  let held := e.live.filter (fun i => i.holder.isSome)
  let s1 := held.foldl (fun s i => s.tell h (i.holder.getD 0) (.redirect e.ident i.num loc g)) s
  let insts := e.insts.map (fun i => if i.closed ∨ i.holder.isSome then i else { i with owes := i.owes ++ [(loc, g)] })
  let round := (e.holder, e.gen)
  let e1 := { e with
    state := .redirecting, holder := loc, gen := g, insts := insts, rounds := e.rounds ++ [round]
    made_ := AMap.set e.made_ g.toNat e.made }
  (s1.setChan h e1).tellStub h e1 round (loc, g) ((held ++ e.insts.filter (·.closed)).map (·.num))

/-- The landing with generation `n` at the place `loc`, and those after it that have come before it (log 93). -/
def State.landings (s : State) (h : Nat) (ident : Word) : Nat → Nat → Nat → State
  | 0, _, _ => s
  | fuel + 1, loc, n =>
    match s.entryAt h ident with
    | none => s
    | some e =>
      if n ≠ (e.gen + 1).toNat then s.setChan h { e with early := e.early ++ [(loc, n)] }
      else
        let s1 := s.landRecv h e loc
        match takeFirst (fun (x : Nat × Nat) => decide (x.2 = (e.gen + 2).toNat)) e.early with
        | none => s1
        | some (x, rest) =>
          match s1.entryAt h ident with
          | none => s1
          | some e1 => (s1.setChan h { e1 with early := rest }).landings h ident fuel x.1 x.2

/-- LANDING_NOTICE of a send end: what waited for it follows: redirects in order, credits, the peer-closed notice (R296). A
landing that a later one has overtaken changes nothing, and one after which the end is known to have moved on leaves it in
flight (log 93). -/
def State.landInst (s : State) (h : Nat) (e : Chan) (n loc move : Nat) : State :=
  match e.inst n with
  | none => s
  | some i =>
    if move ≤ i.landed then s
    else if i.closed ∨ move < i.moved then s.setChan h (e.updInst n (fun i => { i with landed := move })) else
    let e0 := e
    let e := e0.updInst n (fun i => { i with landed := move })
    let e1 := e.updInst n (fun i => { i with holder := some loc, owes := [], credits := 0, dead := false })
    let s1 := i.owes.foldl (fun s o => s.tell h loc (.redirect e.ident n o.1 o.2)) (s.setChan h e1)
    let s2 := i.owes.foldl (fun s o =>
      match e.rounds.find? (fun r => r.2 + 1 = o.2) with
      | some r => s.tellStub h e1 r o [n]
      | none => s) s1
    let s3 := (List.range i.credits).foldl (fun s _ => s.tell h loc (.credit e.ident n)) s2
    if i.dead then s3.tell h loc (.peerClosed e.ident n) else s3

/-- LANDING_NOTICE (R292, R296). A receive end that has been closed since it landed leaves only a stub there, which is told
(R299). -/
def execLandingNotice (h : Nat) (s : State) : Out :=
  match s.takeHome h with
  | some (p, s0) =>
    match p.body with
    | .landing ident inst loc n =>
      match s.entryAt h ident, inst with
      | none, none => .next (s0.tell h loc (.recvClose ident false))
      | none, some _ => .next s0
      | some e, none =>
        .next (if e.state = .closed then s0.tell h loc (.recvClose ident false)
          else s0.landings h ident (e.early.length + 1) loc n)
      | some e, some i => .next (s0.landInst h e i loc n)
    | _ => notEnabled "LANDING_NOTICE"
  | none => notEnabled "LANDING_NOTICE"

/-- STUB_RETIREMENT: a redirect round ends (R294, Table 15-1). -/
def execStubRetirement (h : Nat) (s : State) : Out :=
  match s.takeHome h with
  | some (p, s0) =>
    match p.body with
    | .retired ident gen =>
      match s.entryAt h ident with
      | none => .next s0
      | some e =>
        let rounds := e.rounds.filter (fun r => r.2 ≠ gen)
        .next (s0.setChan h { e with
          rounds := rounds, state := if rounds.isEmpty ∧ e.state = .redirecting then .settled else e.state })
    | _ => notEnabled "STUB_RETIREMENT"
  | none => notEnabled "STUB_RETIREMENT"

/-! ### Closing at the home (R176, R186, R187, R299) -/

/-- A send end is closed: the stubs that waited for its landing account for its close marker, and the final notice may go. -/
def State.instClosed (s : State) (h : Nat) (e : Chan) (n : Nat) : State :=
  match e.inst n with
  | none =>
    let i : Inst :=
      { num := n, holder := none, closed := true, owes := [], credits := 0, dead := false, moved := 0, landed := 0 }
    s.setChan h { e with insts := e.insts ++ [i] }
  | some i =>
    let e1 := e.updInst n (fun i => { i with closed := true, holder := none, owes := [] })
    let s1 := i.owes.foldl (fun s o =>
      match e.rounds.find? (fun r => r.2 + 1 = o.2) with
      | some r => s.tellStub h e1 r o [n]
      | none => s) s
    let (s2, e2) := s1.finalCheck h e1
    s2.freeChan h e2

/-- The receive end is closed: the holders of the instances are told, and the stubs drop what they hold (R187, R299), that
of an end closed inside a message (`carried`) whose moving notice is still to come among them, and those of places whose landing
notices have overtaken one ahead of them (R306). -/
def State.recvClosed (s : State) (h : Nat) (e : Chan) (carried : Bool) : State :=
  let held := e.live.filter (fun i => i.holder.isSome)
  let s1 := held.foldl (fun s i => s.tell h (i.holder.getD 0) (.peerClosed e.ident i.num)) s
  let stubAt := if e.state = .carried ∨ carried ∨ !e.early.isEmpty then e.rounds ++ [(e.holder, e.gen)] else e.rounds
  let places := (stubAt.map (·.1) ++ e.early.map (·.1)).eraseDups
  let s2 := places.foldl (fun s r => s.tell h r (.recvClose e.ident false)) s1
  let e1 := { e with
    state := .closed, rounds := []
    insts := e.insts.map (fun i => if i.closed ∨ i.holder.isSome then i else { i with dead := true }) }
  s2.freeChan h e1

/-- CLOSE_NOTICE: an instance, or the receive end, is closed (R186, R187). -/
def execCloseNotice (h : Nat) (s : State) : Out :=
  match s.takeHome h with
  | some (p, s0) =>
    match p.body with
    | .chClose ident n =>
      match s.entryAt h ident with
      | none => .next s0
      | some e => .next (s0.instClosed h e n)
    | .recvClose ident carried =>
      match s.entryAt h ident with
      | none => .next s0
      | some e => .next (s0.recvClosed h e carried)
    | _ => notEnabled "CLOSE_NOTICE"
  | none => notEnabled "CLOSE_NOTICE"

/-- A dropped data message is counted (R187). -/
def State.countDropped (s : State) (m : Msg) : State :=
  match m.kind with
  | .data | .dataEnd => (s.updJob (fun j => { j with dropped := satAdd 32 j.dropped 1 })).showCounts s.jslot
  | _ => s

/-- MISMATCHED_MESSAGE_RETURN: forwarded to the end's present location, or dropped and counted; the close marker of a dropped
send end goes where its stream went, while a stub waits there (R180, R187, R299). -/
def execMismatchedMessageReturn (h : Nat) (s : State) : Out :=
  match s.takeHome h with
  | some (p, s0) =>
    match p.body with
    | .returned m =>
      match s.entryAt h m.ident with
      | none => .next ((s0.dropMsg (.home h) m).countDropped m)
      | some e =>
        if e.state = .closed then .next ((s0.dropMsg (.home h) m).countDropped m)
        else
          match e.rounds.find? (fun r => decide (r.2 = m.gen) && decide (m.kind = .closeMarker)) with
          | some r => .next (s0.post (.home h) (locPlace r.1) m.cls (.msg { m with fwd := true }) 0 0)
          | none => .next (s0.post (.home h) (locPlace e.holder) m.cls (.msg { m with gen := e.gen, fwd := true }) 0 0)
    | _ => notEnabled "MISMATCHED_MESSAGE_RETURN"
  | none => notEnabled "MISMATCHED_MESSAGE_RETURN"

/-! ### Arrival and release at a core (R180, R185, R291, R294, R297) -/

/-- A message of a moved end at its stub: a close marker is the last of its instance's stream, like a fence (R294). -/
def Stub.take (t : Stub) (m : Msg) : Stub :=
  { t with
    msgs := t.msgs ++ [m], seen := t.seen ++ [(m.inst, m.seq)]
    fences := if m.kind = .closeMarker then t.fences ++ [(m.inst, (m.seq : Int))] else t.fences }

def State.updStub (s : State) (c : Nat) (ident : Word) (gen : BitVec 16) (f : Stub → Stub) : State :=
  s.updCore c (fun k => { k with stubs := mapWhere (isStub ident gen) f k.stubs })

/-- The core will hold a message when it checks it: for an end that it holds, or at a stub that does not know the new holder
(R180, R297). -/
def Core.holds (k : Core) (m : Msg) : Bool :=
  k.ends.any (fun e => decide (e.ident = m.ident) && decide (e.gen = m.gen)) ||
    k.stubs.any (fun t => isStub m.ident m.gen t && t.dest.isNone)

/-- Held messages of a tile: in the reorder areas of its cores, in their stubs, and on the way there (R297). -/
def State.heldOfTile (s : State) (c : Nat) : Nat :=
  let one (k : Core) : Nat := (k.areas.map (fun a => a.held.length)).sum + (k.stubs.map (fun t => t.msgs.length)).sum +
    k.arrivals.countP k.holds
  if isGateway c then one (s.coreAt c) else ((List.range 7).map (fun i => one (s.coreAt (7 * tileOf c + i)))).sum

/-- What R55 keeps of a message that enters a reorder area. -/
def arrived (m : Msg) : List Arrived :=
  match m.kind with
  | .data | .dataEnd => if m.fwd then [] else [{ src := m.src, cls := m.cls, ident := m.ident, inst := m.inst, seq := m.seq }]
  | _ => []

/-- No message that came before it from the same source in the same class is still to be released (R55). -/
def Core.inOrder (k : Core) (m : Msg) : Bool :=
  m.fwd || decide ((k.fifo.find? (fun a => decide (a.src = m.src) && decide (a.cls = m.cls))).toList = arrived m)

/-- MESSAGE_ARRIVAL: into the reorder area of its instance, to the stub of its generation, or back to the channel home
(R180, R291, R297). -/
def execMessageArrival (c : Nat) (s : State) : Out :=
  match (s.coreAt c).arrivals with
  | [] => notEnabled "MESSAGE_ARRIVAL"
  | m :: rest =>
    let k := s.coreAt c
    let s0 := s.updCore c (fun k => { k with arrivals := rest })
    match k.ends.find? (fun e => decide (e.ident = m.ident) && decide (e.gen = m.gen)) with
    | some e =>
      let areas := if k.areas.any (isArea m.ident m.inst) then k.areas
        else k.areas ++ [newArea m.ident m.inst (needsHandover e.before m.inst)]
      let s1 := s0.updCore c (fun k => { k with
        areas := mapWhere (isArea m.ident m.inst) (fun a => { a with held := a.held ++ [m] }) areas
        fifo := k.fifo ++ arrived m })
      .next (s1.settle c m.ident)
    | none =>
      match k.stubs.find? (isStub m.ident m.gen) with
      | some t =>
        if t.dest.isNone ∧ 64 ≤ (t.msgs.filter (fun x => x.inst = m.inst)).length then notEnabled "MESSAGE_ARRIVAL"
        else .next (s0.updStub c m.ident m.gen (fun t => t.take m))
      | none => .next (s0.post (.core c) (s.chanHome m.home m.ident) 0 (.returned m) 0 0)

/-- MESSAGE_RELEASE: the next message of an instance enters its class queue, with its segment marks (R180, R185), in the
order of R55 among the messages of one source and class; under the number `countOnly`, the closure event that has waited for
a place (R30, R186). -/
def execMessageRelease (c : Nat) (ident : Word) (inst : Nat) (s : State) : Out :=
  if inst = countOnly then
    (match (s.coreAt c).ends.find? (fun e => e.ident = ident) with
    | some e =>
      if (s.coreAt c).eventDue e && (s.coreAt c).room 0 && decide (c ≠ eqxCore) then .next (s.closure c ident)
      else notEnabled "MESSAGE_RELEASE"
    | none => notEnabled "MESSAGE_RELEASE")
  else
  match (s.coreAt c).areas.find? (isArea ident inst) with
  | none => notEnabled "MESSAGE_RELEASE"
  | some a =>
    if a.busy || a.waiting || decide (c = eqxCore) then notEnabled "MESSAGE_RELEASE"
    else
      match takeFirst (fun (m : Msg) => decide (m.seq = a.next)) a.held with
      | none => notEnabled "MESSAGE_RELEASE"
      | some (m, r) =>
        match m.kind with
        | .data | .dataEnd =>
          if (s.coreAt c).room m.cls = false ∨ (s.coreAt c).inOrder m = false then notEnabled "MESSAGE_RELEASE"
          else
            let left := a.seg - 1
            let b : Area := { a with next := a.next + 1, held := r, busy := true }
            let s1 := s.updCore c (fun k => { k with
              areas := mapWhere (isArea ident inst) (fun _ => b) k.areas
              fifo := k.fifo.filter (fun x => !(arrived m).contains x) })
            .next (s1.release c m.cls (.chan m (decide (a.seg ≠ 0)) (decide (a.seg = 1)) left))
        | _ => notEnabled "MESSAGE_RELEASE"

/-- STUB_FORWARD: the first message that a stub holds goes to the new holder (R294). -/
def execStubForward (c : Nat) (ident : Word) (gen : BitVec 16) (s : State) : Out :=
  match (s.coreAt c).stubs.find? (isStub ident gen) with
  | none => notEnabled "STUB_FORWARD"
  | some t =>
    match t.dest, t.msgs with
    | some d, m :: r =>
      .next (((s.updStub c ident gen (fun t => { t with msgs := r })).forwardMsg c d m).stubCheck c ident gen)
    | _, _ => notEnabled "STUB_FORWARD"

/-- The stub of a moved end learns the new holder, and instances for which it is to account; it hands its count of close
markers over once (R292, R295; log 26). -/
def State.stubTold (s : State) (c : Nat) (ident : Word) (gen : BitVec 16) (dest : Nat × BitVec 16) (made : Nat)
    (insts : List Nat) (done : Bool) : State :=
  match (s.coreAt c).stubs.find? (isStub ident gen) with
  | none => s
  | some t =>
    let s1 := if t.dest.isNone then
        s.post (.core c) (locPlace dest.1) 0 (.handover ident countOnly dest.2 made 0 false t.closes) 0 0
      else s
    let s2 := match t.final with
      | some n => s1.post (.core c) (locPlace dest.1) 0 (.final ident n) 0 0
      | none => s1
    (s2.updStub c ident gen (fun t => { t with
      dest := some dest, named := t.named ++ insts, allNamed := done, final := none })).stubCheck c ident gen

/-! ### Notices at the holders -/

/-- The send end of an instance at a party: a core, or Equinox with its end of H (R322). -/
def State.sendAt (s : State) (a : Agent) (ident : Word) (inst : Nat) : Option Handle :=
  match a with
  | .core c =>
    if c = eqxCore then (if isInst s.mach.hSend ident inst then some s.mach.hSend else none) else s.instAt c ident inst
  | _ => none

def State.updSend (s : State) (a : Agent) (ident : Word) (inst : Nat) (f : Handle → Handle) : State :=
  match a with
  | .core c =>
    if c = eqxCore then { s with mach := { s.mach with hSend := f s.mach.hSend } } else s.updInst c ident inst f
  | _ => s

/-- A notice for an instance: at its holder `f` acts; a holder that no longer has it sends the notice back to the channel home,
and the home follows the instance, or keeps the notice with `keep` until it lands (R179, R187, R296). -/
def State.followNotice (s : State) (k : PairKey) (b : Body) (home : Peer → Place) (ident : Word) (inst : Nat)
    (f : State → Handle → State) (keep : Inst → Inst) : State :=
  match k.dst.agent with
  | .home h =>
    match s.entryAt h ident with
    | none => s
    | some e =>
      match e.inst inst with
      | none => s
      | some i =>
        if i.closed then s
        else
          match i.holder with
          | some loc => s.tell h loc b
          | none => s.setChan h (e.updInst inst keep)
  | a =>
    match s.sendAt a ident inst with
    | some x => f s x
    | none => s.post a (home k.src.peer) 0 b 0 0

/-- The channel home of an identity as a notice knows it: where the notice came from, or the identity's own module (log 25). -/
def State.noticeHome (s : State) (ident : Word) (k : PairKey) : Peer :=
  match k.src.agent with
  | .home _ => k.src.peer
  | _ => if (s.chanAt ident).isSome then s.part.peer else k.src.peer

def State.notice (s : State) (name : String) (k : PairKey) (b : Body) (ident : Word) (inst : Nat)
    (f : State → Handle → State) (keep : Inst → Inst) : Out :=
  if k.dst.peer ≠ s.part.peer then notEnabled name
  else .next ((s.popNet k).followNotice k b (fun _ => s.chanHome (s.noticeHome ident k) ident) ident inst f keep)

/-- A redirect among those that wait for an instance's landing, in the order of their generations (R296). -/
def insOwe (x : Nat × BitVec 16) (l : List (Nat × BitVec 16)) : List (Nat × BitVec 16) :=
  l.filter (fun o => decide (2 ^ 15 ≤ (o.2 - x.2).toNat)) ++ x :: l.filter (fun o => !decide (2 ^ 15 ≤ (o.2 - x.2).toNat))

/-- REDIRECT: the holder sends a fence to the old holder of the receive end, and its handle names the new one (R293, R296). A
redirect that has overtaken one of an earlier round goes back to the home, and follows again. -/
def execRedirect (k : PairKey) (s : State) : Out :=
  match s.headOf k with
  | some p =>
    match p.body with
    | .redirect ident inst loc gen =>
      s.notice "REDIRECT" k p.body ident inst (fun s h =>
        if gen ≠ h.gen + 1 then s.post k.dst.agent (s.chanHome (s.noticeHome ident k) ident) 0 p.body 0 0 else
        let s1 := s.post k.dst.agent (locPlace (locOf h.locPeer h.loc)) 0 (.fence ident inst h.gen ((h.seq : Int) - 1)) 0 0
        s1.updSend k.dst.agent ident inst (fun h => { h with
          gen := gen, loc := loc % 8192, locPeer := BitVec.ofNat 12 (loc / 8192) }))
        (fun i => { i with owes := insOwe (loc, gen) i.owes })
    | _ => notEnabled "REDIRECT"
  | none => notEnabled "REDIRECT"

/-- CREDIT_RETURN (R179). -/
def execCreditReturn (k : PairKey) (s : State) : Out :=
  match s.headOf k with
  | some p =>
    match p.body with
    | .credit ident inst =>
      s.notice "CREDIT_RETURN" k p.body ident inst
        (fun s _ => s.updSend k.dst.agent ident inst (fun h => { h with credits := min 64 (h.credits + 1) }))
        (fun i => { i with credits := i.credits + 1 })
    | _ => notEnabled "CREDIT_RETURN"
  | none => notEnabled "CREDIT_RETURN"

/-- PEER_CLOSED_NOTICE (R187). -/
def execPeerClosedNotice (k : PairKey) (s : State) : Out :=
  match s.headOf k with
  | some p =>
    match p.body with
    | .peerClosed ident inst =>
      s.notice "PEER_CLOSED_NOTICE" k p.body ident inst
        (fun s _ => s.updSend k.dst.agent ident inst (fun h => { h with dead := true }))
        (fun i => { i with dead := true })
    | _ => notEnabled "PEER_CLOSED_NOTICE"
  | none => notEnabled "PEER_CLOSED_NOTICE"

/-- FINAL_NOTICE: kept at the receive end until its close markers are reached, or by a stub until it can pass it on (R186,
R300). -/
def execFinalNotice (k : PairKey) (s : State) : Out :=
  match k.dst.agent, s.headOf k with
  | .core c, some p =>
    match p.body with
    | .final ident n =>
      if k.dst.peer ≠ s.part.peer then notEnabled "FINAL_NOTICE" else
      let s0 := s.popNet k
      let q := s.coreAt c
      if q.ends.any (fun e => e.ident = ident) then
        .next ((s0.updCore c (fun q => { q with
          ends := q.ends.map (fun e => if e.ident = ident then { e with final := some n } else e) })).settle c ident)
      else
        match (q.stubs.filter (fun t => t.ident = ident)).getLast? with
        | none => .next s0
        | some t =>
          match t.dest with
          | some d => .next (s0.post (.core c) (locPlace d.1) 0 (.final ident n) 0 0)
          | none => .next (s0.updStub c ident t.gen (fun t => { t with final := some n }))
    | _ => notEnabled "FINAL_NOTICE"
  | _, _ => notEnabled "FINAL_NOTICE"

/-- FENCE_MARKER: the stub learns how far an instance's stream goes (R294). -/
def execFenceMarker (k : PairKey) (s : State) : Out :=
  match k.dst.agent, s.headOf k with
  | .core c, some p =>
    match p.body with
    | .fence ident inst gen f =>
      if k.dst.peer ≠ s.part.peer then notEnabled "FENCE_MARKER"
      else .next (((s.popNet k).updStub c ident gen (fun t => { t with fences := t.fences ++ [(inst, f)] })).stubCheck c ident gen)
    | _ => notEnabled "FENCE_MARKER"
  | _, _ => notEnabled "FENCE_MARKER"

/-- The reorder area of an instance as a handover leaves it (R295). -/
def handArea (ident : Word) (inst start seg : Nat) (closed : Bool) (l : List Area) : List Area :=
  let l1 := if l.any (isArea ident inst) then l else l ++ [newArea ident inst true]
  mapWhere (isArea ident inst) (fun a =>
    if a.waiting then { a with next := start, seg := seg, closed := closed, waiting := false } else a) l1

/-- How many instances there were before the landing is known: the others wait for no handover (R295; log 24). -/
def freeAreas (ident : Word) (n : Nat) (l : List Area) : List Area :=
  l.map (fun a => if a.ident = ident ∧ n ≤ a.inst then { a with waiting := false } else a)

/-- What the old holder's stub says once: its count of close markers, and how many instances there were (log 24, log 26). -/
def Core.learn (k : Core) (ident : Word) (made closes : Nat) : Core :=
  let f (e : RecvEnd) : RecvEnd := { e with closes := e.closes + closes, before := some (e.before.getD made) }
  { k with
    ends := k.ends.map (fun e => if e.ident = ident then f e else e)
    areas := if (k.ends.find? (fun e => e.ident = ident)).any (fun e => e.before.isNone) then freeAreas ident made k.areas else k.areas }

def Stub.learn (t : Stub) (made closes : Nat) : Stub :=
  { t with
    closes := t.closes + closes, before := some (t.before.getD made)
    areas := if t.before.isNone then freeAreas t.ident made t.areas else t.areas }

/-- HANDOVER_MARKER: at the new holder the instance is released from S on; at a stub of a holder that has moved on, the stub has
what it waited for (R295, R300; log 24, log 26). -/
def execHandoverMarker (k : PairKey) (s : State) : Out :=
  match k.dst.agent, s.headOf k with
  | .core c, some p =>
    match p.body with
    | .handover ident inst gen start seg closed closes =>
      if k.dst.peer ≠ s.part.peer then notEnabled "HANDOVER_MARKER" else
      let s0 := s.popNet k
      let count := decide (inst = countOnly)
      if (s.coreAt c).ends.any (fun e => decide (e.ident = ident) && decide (e.gen = gen)) then
        let s1 := s0.updCore c (fun q => if count then q.learn ident start closes
          else { q with areas := handArea ident inst start seg closed q.areas })
        .next (s1.settle c ident)
      else
        match (s.coreAt c).stubs.find? (isStub ident gen) with
        | none => .next s0
        | some t =>
          if count then
            let s1 := s0.updStub c ident gen (fun t => t.learn start (if t.dest.isSome then 0 else closes))
            let s2 := match t.dest with
              | some d => s1.post (.core c) (locPlace d.1) 0 (.handover ident countOnly d.2 start 0 false closes) 0 0
              | none => s1
            .next (s2.stubCheck c ident gen)
          else
            .next ((s0.updStub c ident gen (fun t => { t with areas := handArea ident inst start seg closed t.areas })).stubCheck
              c ident gen)
    | _ => notEnabled "HANDOVER_MARKER"
  | _, _ => notEnabled "HANDOVER_MARKER"

/-! ### Tasks from messages and completions (R183, R232, R247, R258, R260, R261) -/

/-- An item of a class queue that makes a handler task: its end is bound to a handler, or it names the handler itself. -/
def Core.forHandler (k : Core) : InItem → Bool
  | .chan m _ _ _ => (k.binding m).1.isSome
  | .direct _ _ _ _ _ => true
  | .block _ _ _ => true
  | .pkt _ => false

/-- The registers of a handler task (R29). -/
def handlerRegs (word : Word) (payload : List Word) : List (Reg × Word) :=
  (9, word) :: (payload.zipIdx).map (fun e => (BitVec.ofNat 5 (10 + e.2), e.1))

/-- A message dropped in place of its task: its credit returns, its end is closed, and the next of its instance may follow
(R183, R258, R299). -/
def State.dropTaken (s : State) (c : Nat) (m : Msg) : State := (s.dropMsg (.core c) m).gone c m false

/-- The handler task of a channel message (R183, R185, R29). -/
def State.chanTask (s : State) (c cls : Nat) (m : Msg) (segin segend : Bool) (left off level : Nat) : State :=
  let (s1, h0, had) := match m.carried with
    | some h => let (t, g) := s.landEnd c h; (t, g, true)
    | none => (s, Handle.none, false)
  let e := { s.newTask .handler cls level off with
    regs := handlerRegs (opcodeWord m segin segend off) (readPayload m), segleft := BitVec.ofNat 64 left, h0 := h0, hadEnd := had }
  ((s1.giveCredit (.core c) m).enqueue c e).taken c m

/-- HANDLER_TASK_CREATE: the first message of a class queue that is bound to a handler becomes its task, once a run-queue entry
is free; one whose handler is not entered for its class, whose level has a cancel pending, or whose level's count is full is
dropped (R183, R258). -/
def execHandlerTaskCreate (c cls : Nat) (s : State) : Out :=
  if s.stopped then notEnabled "HANDLER_TASK_CREATE" else
  match (s.coreAt c).takeItem cls (s.coreAt c).forHandler with
  | some (.chan m segin segend left, k) =>
    let (b, level) := (s.coreAt c).binding m
    let off := b.getD 0
    let s0 := s.setCore c k
    let bad := decide (m.kind ≠ .closure) && !s.entered off cls
    if bad then
      .next ((s0.dropTaken c m).emit (s.unitRec 0 c 0x085 s.job.tag 0 (BitVec.ofNat 64 off) (s.unitAt 0 c).window))
    else if s.cancelPending level then .next (s0.dropTaken c m)
    else if s.countFull (s.countLevel level) then .next ((s0.dropTaken c m).overflowRecord c (s.countLevel level))
    else if s.runRoom c = false then notEnabled "HANDLER_TASK_CREATE"
    else .next (s0.chanTask c cls m segin segend left off level)
  | some (.direct word payload poison level carried, k) =>
    let s0 := s.setCore c k
    let drop : State := match carried with | some h => s0.closeCarried (.core c) h | none => s0
    if s.cancelPending level then .next drop
    else if s.countFull (s.countLevel level) then .next (drop.overflowRecord c (s.countLevel level))
    else if s.runRoom c = false then notEnabled "HANDLER_TASK_CREATE"
    else
      let (s1, h0, had) := match carried with
        | some h => let (t, g) := s0.landEnd c h; (t, g, true)
        | none => (s0, Handle.none, false)
      let bad := match poison with
        | some k => (List.range 5).map (fun i => (BitVec.ofNat 5 (11 + i), k))
        | none => []
      let e := { s.newTask .handler cls level (word.toNat % 2 ^ 32) with
        regs := handlerRegs word payload.toList, poisoned := bad, h0 := h0, hadEnd := had }
      .next (s1.enqueue c e)
  | some (.block link word payload, k) =>
    let s0 := s.setCore c k
    let off := Config.blockHandler s.job.tag link % 2 ^ 32
    if s.entered off 2 = false then
      .next (s0.emit (s.unitRec 0 c 0x085 s.job.tag 0 (BitVec.ofNat 64 off) (s.unitAt 0 c).window))
    else if s.cancelPending 0 then .next s0
    else if s.countFull 0 then .next (s0.overflowRecord c 0)
    else if s.runRoom c = false then notEnabled "HANDLER_TASK_CREATE"
    else .next (s0.enqueue c { s.newTask .handler cls 0 off with
      regs := handlerRegs word payload.toList })
  | _ => notEnabled "HANDLER_TASK_CREATE"

/-- A class-1 item is a completion. -/
def isCompletion : InItem → Bool
  | .pkt _ => true
  | _ => false

/-- COMPLETION_TASK_CREATE: the first completion of class 1 becomes a task. With a cancel pending at its level it makes
none, and the completion of a level then lowers its parent's count (R232, R260, R261). -/
def execCompletionTaskCreate (c : Nat) (s : State) : Out :=
  if s.stopped then notEnabled "COMPLETION_TASK_CREATE" else
  match (s.coreAt c).takeItem 1 isCompletion with
  | some (.pkt p, k) =>
    match p.body with
    | .completion w3 status _ _ _ _ level _ _ =>
      let s0 := s.setCore c k
      let ofLevel := match p.src.agent with
        | .home _ => true
        | _ => false
      if s.cancelPending level then
        .next ((if ofLevel then s0.sendCount c level false else s0).settleExits c)
      else if ofLevel = false ∧ s.countFull (s.countLevel level) then
        .next ((s0.overflowRecord c (s.countLevel level)).settleExits c)
      else if s.runRoom c = false then notEnabled "COMPLETION_TASK_CREATE"
      else
        let e := { s.newTask .completion 1 level (w3.toNat / 2 ^ 32) with
          xferid := w3.extractLsb' 16 16, regs := [(10, status)] }
        .next ((if ofLevel then s0.join c e else s0.enqueue c e).settleExits c)
    | _ => notEnabled "COMPLETION_TASK_CREATE"
  | _ => notEnabled "COMPLETION_TASK_CREATE"

/-- A command's completion, or its silent notice, has reached the issuing core: `CNTTL` or `CNTCP` falls, or an exited task has
one command less in flight (R23, R62), and the core knows command `num` as one that has ended (R355). -/
def State.commandDone (s0 : State) (c l : Nat) (gen : BitVec 16) (matrix : Bool) (num : Nat) : State :=
  let s := s0.updCore c (fun k => { k with cmds := k.cmds.filter (fun x => x.num ≠ num) })
  if s.current c l gen && !s.draining c l then
    s.updSlotAt c l (fun sl => if matrix then { sl with cnttl := sl.cnttl - 1 } else { sl with cntcp := sl.cntcp - 1 })
  else
    let f (e : Exited) : Exited := if e.slot = l ∧ e.gen = gen then { e with cmds := e.cmds - 1 } else e
    s.updCore c (fun k => { k with exited := k.exited.map f })

/-- The end of a command that another module's streamer has run, told by its completion or silent notice: it was perhaps a
follow-on member (R229), and the read leases that it took at issue go (R236; log 123). -/
def State.foreignEnd (s : State) (c : Nat) (p : Packet) (slot : Nat) (gen : BitVec 16) (follow code : Nat) (leases : List Nat) :
    State :=
  if p.src.peer = s.part.peer then s
  else
    let s1 := s.dropLeasesOf c slot gen leases
    if follow ≠ 0 then s1.memberDone (c, slot, gen.toNat, follow) code else s1

/-- SILENT_NOTICE (R232). -/
def execSilentNotice (k : PairKey) (s : State) : Out :=
  match k.dst.agent, s.headOf k with
  | .core c, some p =>
    match p.body with
    | .silent l gen matrix follow leases =>
      if k.dst.peer ≠ s.part.peer then notEnabled "SILENT_NOTICE"
      else .next ((((s.popNet k).foreignEnd c p l gen follow 0 leases).commandDone c l gen matrix p.tag).settleExits c)
    | _ => notEnabled "SILENT_NOTICE"
  | _, _ => notEnabled "SILENT_NOTICE"

end Sys2Proof.Machine
end

