-- ==== Sys2Proof/Machine/Frieze.lean ====
section
/-! DEFINITION. Frieze rings (R38 to R40, R191 to R197, R301 to R304): `rrot`, `mtset`, `mtlist`, `mrel`, and the step of a
sub-ring with its encounters. -/

namespace Sys2Proof.Machine

open Sys2Proof

/-- The slots of a slice by number: 0 A, 1 B, 2 trailing B (Table 02-11). -/
def friezeAt (t which : Nat) : Nat := t * 2 ^ 20 + 0x80000 + which * 0x10000

/-- The sub-ring length of a cluster's configuration: RING 1, 2, 3 are 4, 8, 16 (Table 21-3). -/
def ringLen (ring : Nat) : Nat := 2 ^ (ring + 1)

/-- The live tiles of a sub-ring in ring order (R302). -/
def State.subRing (s : State) (cl sub : Nat) : List Nat :=
  let n := (s.clusterAt cl).ring
  ((List.range n).map (fun i => cl * 16 + sub * n + i)).filter s.part.tileLive

/-- The issue of an instruction that needs a ring (R191, R212). -/
def friezeForm (i : Instr) (reads writes : List Nat) (k : State → Out) (s : State) : Out :=
  issue i { lack := gateLack s, reads := reads, writes := writes } (fun s =>
    if (s.clusterAt (clusterOf (tileOf s.cur.1))).ring = 0 then s.trap 0x104 0 else k s) s

/-- `rrot`: the tile contributes and the slot blocks (R192). -/
def execRrot (s : State) : Out :=
  friezeForm .rrot [] [] (fun s =>
    let s1 := s.updTile (tileOf s.cur.1) (fun t => { t with
      contributions := t.contributions + 1, waiting := t.waiting ++ [(s.cur.1, s.cur.2, s.slot.gen)] })
    .next (s1.upd (fun sl => { sl with phase := .blocked .rrot }))) s

/-- The position of a tile among the live tiles of its sub-ring (R302). -/
def State.ringPos (s : State) (t : Nat) : Nat :=
  let k := s.clusterAt (clusterOf t)
  (s.subRing (clusterOf t) (t % 16 / max 1 k.ring)).idxOf t

/-- An `mtset` from a higher ring position of this cycle stands already, and is applied after this one (R196; log 107). -/
def State.mtsetLate (s : State) (t : Nat) : Bool :=
  (s.clusterAt (clusterOf t)).setAt.any (fun e => decide (e.1 = s.now) && decide (s.ringPos t < e.2))

/-- `mtset` (R196, R304): a sweep starts, with its step counts at 0; an expected count of 0 ends it. -/
def execMtset (a b : Reg) (s : State) : Out :=
  friezeForm (.mtset a b) [xr a, xr b] [] (fun s =>
    let n := (s.slot.rx a).toNat % 2 ^ 32
    let t := tileOf s.cur.1
    if s.mtsetLate t then .next s.retire
    else
      .next (s.updCluster (clusterOf t) (fun k => { k with
        sweep := decide (n ≠ 0), expected := n, resolved := 0, fired := 0, missed := 0, setAt := some (s.now, s.ringPos t)
        handler := (s.slot.rx b).toNat % 2 ^ 32, owner := some (s.cur.1, s.slot.task.level, s.cur.2), steps := [] })).retire) s

/-- A miss-list entry as `mtlist` reads it (Table 09-4). -/
def Miss.word (m : Miss) : Word :=
  BitVec.ofNat 64 ((if m.valid then 2 ^ 63 else 0) + m.step.toNat * 2 ^ 32 + m.tagB.toNat * 2 ^ 16 + m.tagA.toNat)

/-- `mtlist xa, xb` (R197). -/
def execMtlist (a b : Reg) (s : State) : Out :=
  friezeForm (.mtlist a b) [xr b] [xr a] (fun s =>
    let v := (s.slot.rx b).toNat
    let t := tileOf s.cur.1
    let q := s.tileAt t
    let w := if v / 16 % 2 = 1 then BitVec.ofNat 64 q.missCount
      else ((q.misses[v % 16]?).map Miss.word).getD 0
    let s1 := if v / 32 % 2 = 1 then
        s.updTile t (fun q => { q with misses := q.misses.mapIdx (fun i m => if i = v % 16 then { m with valid := false } else m) })
      else s
    .next (s1.setX a w).retire) s

/-- `mrel n` (R194): both, the A slot, or the matched slot; a gateway core has no lease (R212). -/
def execMrel (n : BitVec 3) (s : State) : Out :=
  issue (.mrel n) {} (fun s =>
    let which (w : Nat) : Bool := decide (n = 0) || (decide (n = 1) && decide (w = 0)) || (decide (n = 2) && decide (w ≠ 0))
    .next (s.dropLeases s.cur.1 s.cur.2 s.slot.gen which).retire) s

/-! ### The step (R192) -/

/-- Cells of a region of the old memory put at another place of the new one. -/
def moveCells {α : Type} (old : AMap α) (a b n : Nat) (new : AMap α) : AMap α :=
  (old.filter (fun c => decide (a ≤ c.1) && decide (c.1 < a + n))).foldl (fun acc c => AMap.set acc (c.1 - a + b) c.2) new

/-- The moves of one step over the tiles of a sub-ring: (from, to) addresses of 64 KiB regions. -/
def friezeMoves (tiles : List Nat) : List (Nat × Nat) :=
  let n := tiles.length
  let at_ (p : Nat) : Nat := tiles.getD (p % n) 0
  ((List.range n).map (fun p =>
    [(friezeAt (at_ p) 1, friezeAt (at_ p) 2), (friezeAt (at_ (p + n - 1)) 0, friezeAt (at_ p) 0),
      (friezeAt (at_ (p + 1)) 1, friezeAt (at_ p) 1)])).flatten

/-- The A, B and trailing slots moved: bytes and poison; the full bits stay (R192; log 30). -/
def State.rotate (s : State) (tiles : List Nat) : State :=
  let inRing (g : Nat) (unit : Nat) : Bool :=
    tiles.any (fun t => decide (friezeAt t 0 / unit ≤ g) && decide (g < (friezeAt t 0 + 0x30000) / unit))
  let mv := friezeMoves tiles
  let old := s.mach.sram
  let oldP := s.mach.poison
  let sram := mv.foldl (fun m e => moveCells old e.1 e.2 0x10000 m) (old.filter (fun c => !inRing c.1 1))
  let poison := mv.foldl (fun m e => moveCells oldP (e.1 / 16) (e.2 / 16) 0x1000 m) (oldP.filter (fun c => !inRing c.1 16))
  { s with mach := { s.mach with sram := sram, poison := poison } }

/-- The tag of a slot (R38). -/
def State.tagAt (s : State) (t which : Nat) : BitVec 16 := BitVec.ofNat 16 (s.num (friezeAt t which) 2)

/-- The first valid entry that matches (R39): its handler and priority. -/
def matchFind (tagA tagB : BitVec 16) : AMap (BitVec 128) → Option (Nat × Nat)
  | [] => none
  | (_, e) :: t =>
    if tagA ≠ 0 ∧ tagB ≠ 0 ∧ e.getLsbD 63 ∧ e.extractLsb' 0 16 = tagA ∧ (e.getLsbD 62 ∨ e.extractLsb' 16 16 = tagB) then
      some ((e.extractLsb' 96 32).toNat, max 1 (e.extractLsb' 60 2).toNat)
    else matchFind tagA tagB t

/-- A miss written to a tile's list, or only counted when the list is full (R195). -/
def State.writeMiss (s : State) (t : Nat) (step : Nat) (tagA tagB : BitVec 16) : State :=
  let m : Miss := { valid := true, step := BitVec.ofNat 8 step, tagB := tagB, tagA := tagA }
  let s1 := s.updTile t (fun q =>
    let misses := match q.misses.findIdx? (fun m => m.valid = false) with
      | some i => q.misses.mapIdx (fun j k => if j = i then m else k)
      | none => if q.misses.length < 16 then q.misses ++ [m] else q.misses
    { q with misses := misses, missCount := (q.missCount + 1) % 2 ^ 32 })
  let s2 := s1.updCluster (clusterOf t) (fun k => { k with resolved := k.resolved + 1, missed := k.missed + 1 })
  let q := (s.tileAt t).misses
  if q.length < 16 ∨ q.any (fun m => m.valid = false) then s2.updUnit 3 t (fun u => { u with c5 := bump u.c5 }) else s2

/-- The compute core of a tile with the most free run-queue entries, the lowest on a tie (R193). -/
def State.matchCore (s : State) (t : Nat) : Option Nat :=
  let best := ([3, 4, 5, 6].map (fun i => 7 * t + i)).foldl (fun (b : Option Nat) c =>
    match b with
    | none => some c
    | some d => if (s.coreAt c).runq.length < (s.coreAt d).runq.length then some c else some d) none
  match best with
  | some c => if s.runRoom c then some c else none
  | none => none

/-- A match task joins a run queue, its level raised by the tile before the step ends (R259). -/
def State.joinMatch (s : State) (c : Nat) (e : RunEntry) : State :=
  (s.join c e).updLevel e.level (fun v => { v with count := v.count + 1 })

/-- One encounter (R193, R195): with no free run-queue entry it is deferred, or a miss if it was deferred before (`again`)
or the A slot carries 4 already; with one, a miss at once where no task may be created, else a match task with leases on the
A slot and the matched slot. -/
def State.encounter (s : State) (t which step due : Nat) (tagA tagB : BitVec 16) (e : Nat × Nat) (again : Bool) : State :=
  let k := (s.clusterAt (clusterOf t)).launch
  let lv := s.countLevel k
  match s.matchCore t with
  | none =>
    if again ∨ 4 ≤ (s.tileAt t).rearmed.length then s.writeMiss t step tagA tagB
    else (s.updTile t (fun q => { q with rearmed := q.rearmed ++ [{ which := which, tagA := tagA, tagB := tagB, due := due }] })).updUnit 3 t
      (fun u => { u with c4 := bump u.c4 })
  | some c =>
    if s.cancelPending lv then s.writeMiss t step tagA tagB
    else if s.countFull lv then (s.overflowRecord (7 * t + 3) lv).writeMiss t step tagA tagB
    else
      let base := s.job.sramBase + BitVec.ofNat 64 (friezeAt t 0)
      let regs : List (Reg × Word) := [(10, tagA.setWidth 64), (11, tagB.setWidth 64), (12, base)
                                      , (13, base + BitVec.ofNat 64 (which * 0x10000))]
      let r := { s.newTask .fired e.2 k e.1 with regs := regs, leases := [(t, 0), (t, which)] }
      (s.joinMatch c r).updCluster (clusterOf t) (fun q => { q with resolved := q.resolved + 1, fired := q.fired + 1 })

/-- The lookups of one tile after a step (R193, R301, R304). -/
def State.matchTile (s : State) (t n step total : Nat) : State :=
  let span := if n % 2 = 0 then n / 2 else n
  let cl := clusterOf t
  let tab := (s.tileAt t).mtable
  let tagA := s.tagAt t 0
  let ordinary := !(s.clusterAt cl).sweep || decide (step ≤ span)
  let sides := if n % 2 = 0 then [1, 2] else [1]
  let (mine, later) := (s.tileAt t).rearmed.partition (fun r => decide (r.due = total))
  let s1 := s.updTile t (fun q => { q with rearmed := later })
  sides.foldl (fun s which =>
    let tagB := s.tagAt t which
    let re := mine.any (fun r => decide (r.which = which) && decide (r.tagA = tagA) && decide (r.tagB = tagB))
    if ordinary || re then
      match matchFind tagA tagB tab with
      | some e => s.encounter t which step (total + span) tagA tagB e re
      | none => s
    else s) s1

/-- The sweep's completion once the resolved count has reached the expected one, after all lookups of the step, whose counts it
carries (R196; log 108). -/
def State.sweepDone (s : State) (cl : Nat) : State :=
  let k := s.clusterAt cl
  if k.sweep = false ∨ k.resolved < k.expected then s
  else
    let s1 := s.updCluster cl (fun k => { k with sweep := false })
    match k.owner with
    | none => s1
    | some (c, level, _) =>
      s1.post (.router cl) (s.here (.core c)) 1
        (.completion (BitVec.ofNat 64 (k.handler * 2 ^ 32)) (BitVec.ofNat 64 (k.fired % 2 ^ 32 + k.missed % 2 ^ 16 * 2 ^ 32))
          0 0 false false level 0 []) 0 0

/-- No lease is held on a slot of a tile: by a task, a command, or a match task that waits for its slot (R303). -/
def State.leaseFree (s : State) (t : Nat) : Bool :=
  (s.tileAt t).leases.isEmpty &&
    [3, 4, 5, 6].all (fun i => (s.coreAt (7 * t + i)).runq.all (fun r => r.leases.all (fun e => e.1 ≠ t)))

/-- The slot whose contribution a step has used goes on, unless its task has been killed (R192). -/
def State.endRrot (s : State) (t : Nat) : State :=
  match (s.tileAt t).waiting with
  | [] => s
  | w :: r =>
    let s1 := s.updTile t (fun q => { q with waiting := r })
    s1.updSlotAt w.1 w.2.1 (fun sl =>
      if sl.phase = .blocked .rrot ∧ sl.gen = w.2.2 then { sl with phase := .ready, pc := sl.pc + 4 } else sl)

/-- STEP: a sub-ring whose live tiles have all contributed, with no lease held, rotates and matches (R192, R303); no
task is made once a switch has stopped the job (R339). -/
def execStep (cl sub : Nat) (s : State) : Out :=
  let tiles := s.subRing cl sub
  let k := s.clusterAt cl
  if s.stopped ∨ k.ring = 0 ∨ 16 ≤ sub * k.ring ∨ tiles.isEmpty ∨
      tiles.any (fun t => decide ((s.tileAt t).contributions = 0) || !s.leaseFree t) then notEnabled "STEP"
  else
    let n := tiles.length
    let step := (AMap.get k.steps sub).getD 0 + 1
    let total := (AMap.get k.total sub).getD 0 + 1
    let s1 := s.updCluster cl (fun k => { k with steps := AMap.set k.steps sub step, total := AMap.set k.total sub total })
    let arms := tiles.map (fun t => (s.tileAt t).rearmed)
    let s2 := (tiles.zipIdx).foldl (fun s e => s.updTile e.1 (fun q => { q with
      contributions := q.contributions - 1, rearmed := arms.getD ((e.2 + n - 1) % n) [] })) (s1.rotate tiles)
    let s3 := tiles.foldl (fun s t => s.matchTile t n step total) s2
    .next ((tiles.foldl State.endRrot s3).sweepDone cl)

end Sys2Proof.Machine
end

