-- ==== Sys2Proof/Machine/Levels.lean ====
section
/-! DEFINITION. Levels (R258 to R263, R267 to R269, R319 to R323): counts and completion, arming, starting, dividing and
placing a grid, cancelling and killing, and the task write of record 0. -/

namespace Sys2Proof.Machine

open Sys2Proof

/-! ### Completion (R260, Table 13-4) -/

/-- The status word of a level's completion; `cancelled` says whether it or an ancestor has a cancel pending. -/
def levelStatus (v : Level) (cancelled : Bool) : Word :=
  let code := if v.refused then 0x183 else if cancelled then 0x184 else 0
  BitVec.ofNat 64 (v.undrawn % 2 ^ 32 * 2 ^ 32 + min v.killed 65535 * 2 ^ 16 + v.level * 2 ^ 12 + code)

/-- A start write to another level's launch port: bytes 15:8 hold opcode 0x20. -/
def startData : VWord := BitVec.ofNat 512 (0x20 * 2 ^ 120)

/-- The completion of a level goes to its target: a host event, a launch port, a handler, or channel H (Table 21-3). -/
def State.notify (s : State) (k : Nat) (v : Level) (cancelled : Bool) : State :=
  let st := levelStatus v cancelled
  match v.tkind with
  | 0 => s.event s.jslot st (BitVec.ofNat 64 k)
  | 1 =>
    let home := s.levelHomeOn v.tpeer v.tidx
    s.post (.home (s.levelHome k)) { peer := v.tpeer, agent := .home home } 1 (.port s.jslot v.tidx startData none false) 0 0
  | 2 =>
    s.post (.home (s.levelHome k)) (s.here (.core v.tcore)) 1
      (.completion (BitVec.ofNat 64 (v.tidx * 2 ^ 32)) st 0 0 false false v.parent 0 []) 0 0
  | _ => s.post (.home (s.levelHome k)) (s.here .equinox) 0 (.hDone k st) 0 0

/-- A command of a core of module `own`, whose level is one of that module's. -/
def Cmd.relevel (own : Peer) (f : Nat → Nat) (c : Cmd) : Cmd := if c.peer = own then { c with level := f c.level } else c

/-- A body for a party of module `own` or from one, whose references to levels of that module are changed by `f`. -/
def relevelBody (own dst : Peer) (f : Nat → Nat) : Body → Body
  | .count k up => .count (if dst = own then f k else k) up
  | .completion w3 status slot gen matrix counted level follow leases =>
    .completion w3 status slot gen matrix counted (if dst = own then f level else level) follow leases
  | .circReq plan treply peer core level => .circReq plan treply peer core (if peer = own then f level else level)
  | .sealReq on base len treply core level => .sealReq on base len treply core (f level)
  | .cmd c => .cmd (Sys2Proof.Machine.Cmd.relevel own f c)
  | b => b

def relevelPkt (own dst : Peer) (f : Nat → Nat) (p : Packet) : Packet := { p with body := relevelBody own dst f p.body }

/-- An inbox item, a core and an engine whose level references are changed by `f`. -/
def InItem.relevel (own : Peer) (f : Nat → Nat) : InItem → InItem
  | .direct word payload poison level carried => .direct word payload poison (f level) carried
  | .pkt p => .pkt (relevelPkt own own f p)
  | i => i

def Core.relevel (own : Peer) (f : Nat → Nat) (k : Core) : Core :=
  { k with
    inq := k.inq.map (fun e => (e.1, e.2.map (InItem.relevel own f))), spill := k.spill.map (fun e => (e.1, e.2.relevel own f))
    runq := k.runq.map (fun e => { e with level := f e.level }), ends := k.ends.map (fun e => { e with level := f e.level })
    oldBinds := k.oldBinds.map (fun e => { e with level := f e.level })
    exited := k.exited.map (fun e => { e with level := f e.level }) }

def Engine.relevel (own : Peer) (f : Nat → Nat) (e : Engine) : Engine :=
  let g (c : Cmd) : Cmd := Sys2Proof.Machine.Cmd.relevel own f c
  { e with
    queue := e.queue.map g, hold := e.hold.map g, parked := e.parked.map g
    runs := e.runs.map (fun r => { r with cmd := g r.cmd }) }

/-- A level that completes is named by nothing any more: whatever refers to it, and is not yet counted at it, is of the job
level of its module, `job`, from now on (R261, R312), though its record may be armed again. -/
def State.relevel (s : State) (k job : Nat) : State :=
  let f (n : Nat) : Nat := if n = k then job else n
  let own := s.part.peer
  let m := s.mach
  let slot (sl : Slot) : Slot := { sl with task := { sl.task with level := f sl.task.level } }
  let slots : AMap Slot := m.slots.map (fun e => (e.1, slot e.2))
  let clusters : AMap Cluster := m.clusters.map (fun e => (e.1, { e.2 with
    launch := f e.2.launch, owner := e.2.owner.map (fun o => (o.1, f o.2.1, o.2.2)) }))
  let net : List (PairKey × List Packet) := m.net.map (fun e => (e.1, e.2.map (relevelPkt own e.1.dst.peer f)))
  let home (h : Home) : Home := { h with q := h.q.map (relevelPkt own own f) }
  let m1 : Mach := { m with
    slots := slots, transits := m.transits.map (fun t => { t with slot := t.slot.map slot }), cores := m.cores.map (fun e => (e.1, e.2.relevel own f)), clusters := clusters
    engines := m.engines.map (fun e => (e.1, e.2.relevel own f)), net := net
    homes := m.homes.map (fun e => (e.1, home e.2)), seals := m.seals.map (fun (e : SealReq) => { e with level := f e.level }) }
  ({ s with mach := m1 }).updJob (fun j =>
    let req (e : CircReq) : CircReq := if e.peer = own then { e with level := f e.level } else e
    let run (c : CircRun) : CircRun := { c with req := req c.req }
    { j with circs := j.circs.map req, circ := j.circ.map run })

/-- Armature tells another module's of levels of this one (R261, R268, R269; log 109). -/
def State.tellLevels (s : State) (p : Peer) (keys : List Nat) (n : LevelNews) : State :=
  s.post .armature { peer := p, agent := .armature } 1 (.levelNews keys n) 0 0

/-- A level may complete: it has started, or a cancel reached it before it started; the job level stays open (R260, R268,
R261). -/
def Level.closable (v : Level) : Bool :=
  decide (v.count = 0) && (decide (v.state = 2) || (decide (v.state = 1) && v.cp))

/-- Tasks of a level that completes are of the job level from now on, on the other modules too, which are told of its cancel and its
deadline (R261, R268, R269). -/
def State.tasksAway (s : State) (l : List Peer) : State :=
  if l.isEmpty then s else s.updLevel 0 (fun v => { v with away := v.away ++ l.filter (fun p => !v.away.contains p) })

/-- A level whose count is zero completes, and unless its target is a handler its parent's count falls in the same step; so on
up the chain (R260). -/
def State.settleLevel (s : State) : Nat → Nat → State
  | 0, _ => s
  | fuel + 1, k =>
    let v := s.levelAt k
    if k % 2 ^ 32 = 0 ∨ 2 ^ 32 ≤ k ∨ v.closable = false then s
    else
      let cancelled := s.cancelPending k
      let s0 := v.away.foldl (fun s p => s.tellLevels p [s.globalKey k] .complete) s
      let s1 := ((s0.setLevel k { v with state := 3, inc := v.inc + 1, away := [], told := [] }).relevel k 0).tasksAway v.away
      let s2 := s1.notify k v cancelled
      if v.tkind = 2 then s2
      else State.settleLevel (s2.updLevel v.parent (fun p => { p with count := p.count - 1 })) fuel v.parent

/-- A level's count lowered by `n`. -/
def State.lowerLevel (s : State) (k n : Nat) : State :=
  (s.updLevel k (fun v => { v with count := v.count - n })).settleLevel 6 k

/-- One raise or lowering of a level, at home `h`; a raise of a full count is refused, and a lowering that answers one changes
nothing (R258; log 109). -/
def State.countAt (s : State) (h k : Nat) (up : Bool) : State :=
  if up then
    if 2 ^ 32 - 1 ≤ (s.levelAt k).count then (s.updLevel k (fun v => { v with owed := v.owed + 1 })).overflowRecord (7 * h + 3) k
    else s.updLevel k (fun v => { v with count := v.count + 1 })
  else if (s.levelAt k).owed ≠ 0 then s.updLevel k (fun v => { v with owed := v.owed - 1 })
  else s.lowerLevel k 1

/-- One killed task counted in KILLED of a level and of those above it up to `top` (R269). -/
def State.countKilled (s : State) (k top : Nat) : State :=
  ((s.chain 8 k).takeWhile (fun i => i ≠ top) ++ [top]).foldl (fun s i => s.updLevel i (fun v => { v with killed := v.killed + 1 })) s

/-- COUNT_CHANGE: a raise or a lowering performed at the level's home (R259), or the notice of a task of another module killed at a
deadline (R269). What names a completed use of a record is of the job level (R261). -/
def execCountChange (h : Nat) (s : State) : Out :=
  match s.takeHome h with
  | some (p, s0) =>
    match p.body with
    | .count k up => .next (s0.countAt h k up)
    | .farCount key up => .next (s0.countAt h (s.levelNamed key) up)
    | .farKilled key top => .next (s0.countKilled (s.levelNamed key) (s.levelNamed top))
    | _ => notEnabled "COUNT_CHANGE"
  | none => notEnabled "COUNT_CHANGE"

/-! ### Dividing and placing a grid (R263, R267) -/

/-- Extents of a grid. -/
def gridX (g : Word) : Nat := bitsOf g.toNat 20 0
def gridY (g : Word) : Nat := bitsOf g.toNat 41 21
def gridZ (g : Word) : Nat := bitsOf g.toNat 62 42
def gridSize (g : Word) : Nat := gridX g * gridY g * gridZ g

/-- The grid point of a linear index (R263). -/
def gridPoint (g : Word) (i : Nat) : Word :=
  let x := max 1 (gridX g)
  let y := max 1 (gridY g)
  BitVec.ofNat 64 (i % x + i / x % y * 2 ^ 21 + i / (x * y) * 2 ^ 42)

/-- Live tiles of a die. -/
def Part.dieTiles (p : Part) (d : Nat) : List Nat := ((List.range 256).map (· + 256 * d)).filter p.tileLive

/-- The die on which a page is resident: that of its first granule (R284). -/
def State.pageDie (s : State) (e : TlbE) : Option Nat :=
  if e.peer ≠ s.part.peer then none
  else
    match s.homeOf e.frame with
    | some h => if h < 1024 then some (dieOf h) else if h < 1280 then some ((h - 1024) / 64) else none
    | none => none

/-- Pages of the data that a launch names, by die (R263). -/
def State.dieData (s : State) (v : Level) : List Nat :=
  let dies := (List.range v.dlen).filterMap (fun i =>
    match s.walk ((v.dbase + i) * 2 ^ 16) with
    | .ok e => s.pageDie e
    | .bad _ _ => none)
  (List.range 4).map (fun d => (dies.filter (fun x => x = d)).length)

/-- The weights of the live compute dies: data, or live compute slots where the launch names no resident data (R263). -/
def State.dieWeights (s : State) (v : Level) : List Nat :=
  let tiles := (List.range 4).map (fun d => (s.part.dieTiles d).length)
  let data := ((s.dieData v).zip tiles).map (fun e => if e.2 = 0 then 0 else e.1)
  if data.sum = 0 then tiles else data

/-- Upper bounds of the dies' ranges in proportion to their weights; a bound that is no whole number is rounded either way, a
free choice (log 15). A die without weight, as a die that is not live, has an empty range. -/
def bounds (free total sum : Nat) : List Nat → Nat → Nat → Nat → List Nat
  | [], _, _, _ => []
  | w :: t, cum, low, i =>
    let c := cum + w
    let x := total * c / max 1 sum
    let up := if total * c % max 1 sum ≠ 0 ∧ Config.choice (free + i) % 2 = 1 then x + 1 else x
    let b := if w = 0 then low else max low (min total up)
    b :: bounds free total sum t c b (i + 1)

/-- The ranges of the four dies (R263). -/
def State.gridRanges (s : State) (v : Level) : List (Nat × Nat) :=
  let w := s.dieWeights v
  let b := bounds s.free (gridSize v.grid) w.sum w 0 0 0
  (0 :: b).zip b

/-- The task of one unit of a launch (R18, R29, R254). -/
def State.unitEntry (s : State) (k i c l : Nat) : RunEntry :=
  let v := s.levelAt k
  let n := (tileOf c * 4 + (citOf c - 3)) * 4 + l
  let sp : Nat := if v.stack = 0 then 0 else v.stackb + v.stack * 16 * n
  { s.newTask .unit 2 k v.entry with
    level := k, launchid := BitVec.ofNat 64 k, griddim := v.grid, fseed := v.seed, gridpt := gridPoint v.grid i
    regs := [(30, BitVec.ofNat 64 sp)] }

/-- A slot that an arriving task may take: Free, and not kept for a draw, for a task in transit, or for a co-resident launch
that starts in this cycle (R264, R267, R270). -/
def State.openSlot (s : State) (c l : Nat) : Bool :=
  s.mach.coStarts.isEmpty && decide ((s.slotAt c l).phase = .free) && decide ((s.coreAt c).drawing ≠ some l) &&
    !s.mach.transits.any (fun t => decide (t.core = c) && decide (t.sl = l))

/-- The open compute slots of a die, lowest core and slot first. -/
def State.openSlots (s : State) (d : Nat) : List (Nat × Nat) :=
  (((s.part.dieTiles d).map (fun t => ([3, 4, 5, 6].map (fun i => (List.range 4).map (fun l => (7 * t + i, l)))).flatten)).flatten).filter
    (fun e => s.openSlot e.1 e.2)

/-- Units per die of a co-resident grid: its share, or as many as it has room for; the surplus to the dies with room left, from
die 0 (R267). -/
def spread (share room : List Nat) : List Nat :=
  let first := (share.zip room).map (fun e => min e.1 e.2)
  let rest := share.sum - first.sum
  ((first.zip room).foldl (fun (acc : List Nat × Nat) e =>
    let more := min acc.2 (e.2 - e.1)
    (acc.1 ++ [e.1 + more], acc.2 - more)) ([], rest)).1

/-- A co-resident grid is placed whole where the module has the slots; where it has not, it is refused at the end of the cycle
(`final`), since slots that become Free in the cycle of the start step count (R267). -/
def State.admitCores (s : State) (k : Nat) (final : Bool) : State :=
  let v := s.levelAt k
  let n := gridSize v.grid
  let open_ := (List.range 4).map s.openSlots
  if (open_.map List.length).sum < n then
    if final then s.setLevel k { v with refused := true, undrawn := n, count := v.count - n }
    else { s with mach := { s.mach with coStarts := s.mach.coStarts ++ [k] } }
  else
    let share := (s.gridRanges v).map (fun r => r.2 - r.1)
    let per := spread share (open_.map List.length)
    let slots := ((open_.zip per).map (fun e => e.1.take e.2)).flatten
    (slots.zipIdx).foldl (fun s e => s.place e.1.1 e.1.2 (s.unitEntry k e.2 e.1.1 e.1.2)) { s with free := s.free + 4 }

/-- The cycle ends: co-resident launches that wait for its end are admitted or refused (R267). -/
def State.endCycle (s : State) : State :=
  if s.mach.coStarts.isEmpty then s
  else
    s.mach.coStarts.foldl (fun s k => if (s.levelAt k).state = 2 then (s.admitCores k true).settleLevel 6 k else s)
      { s with mach := { s.mach with coStarts := [] } }

/-- The grid divided among the draw-counter units of the live compute dies (R263). -/
def State.divide (s : State) (k : Nat) : State :=
  let v := s.levelAt k
  let r := s.gridRanges v
  ((r.zipIdx).filter (fun e => !(s.part.dieTiles e.2).isEmpty)).foldl
    (fun s e => s.updDraw e.2 (fun u => { u with
      ranges := u.ranges ++ [{ lrec := k, order := v.order, next := e.1.1, stop := e.1.2 }] })) { s with free := s.free + 4 }

/-- A match table entry with its reserved bits zero (Table 02-14, R4). -/
def matchBits (e : BitVec 128) : BitVec 128 := e &&& 0xFFFFFFFF00000000F0000000FFFFFFFF#128

/-- A launch with `ring=` configures its cluster (R312, R39, R302). -/
def State.ringStart (s : State) (k : Nat) (v : Level) : State :=
  let cl := v.rclus
  let tab := (List.range 32).map (fun i => (i, matchBits (Config.matchEntry s.job.tag k v.order i)))
  let tiles := ((List.range 16).map (fun i => cl * 16 + i)).filter s.part.tileLive
  let s1 := tiles.foldl (fun s t => s.updTile t (fun q => { q with
    mtable := tab, misses := [], missCount := 0, rearmed := [] })) s
  s1.updCluster cl (fun q => { q with
    ring := ringLen v.ring, launch := k, sweep := false, expected := 0, resolved := 0, steps := [] })

/-- The start step of a level (R262, R320). -/
def State.startLevel (s : State) (k : Nat) : State :=
  let v := { s.levelAt k with state := 2, order := s.mach.starts }
  let s1 := (s.setLevel k v)
  let s2 := { s1 with mach := { s1.mach with starts := s1.mach.starts + 1 } }
  let s3 := if v.level ≠ 1 then s2
    else
      let a := if v.ring = 0 then s2 else s2.ringStart k v
      let b := if v.cores then a.admitCores k false else a.divide k
      { b with mach := { b.mach with cores := b.mach.cores.map (fun e => (e.1, { e.2 with idle := false })) } }
  s3.settleLevel 6 k

/-! ### Cancelling (R268, R269) -/

/-- The records of a level and its descendants that are not complete. -/
def State.underLevel (s : State) (k : Nat) : List Nat :=
  (s.mach.levels.filter (fun e => e.2.state ≠ 3 && decide (e.2.level ≠ 0) && (s.chain 8 e.1).contains k)).map (·.1)

/-- One level becomes cancel-pending. -/
def State.markCancel (s : State) (k : Nat) : State :=
  let v := s.levelAt k
  let s1 := s.setLevel k { v with cp := true }
  if 2 ^ 32 ≤ k then s1
  else if v.level = 1 ∧ v.state = 1 then
    let n := gridSize v.grid
    s1.setLevel k { v with cp := true, count := v.count - n, undrawn := v.undrawn + n }
  else if v.level = 1 ∧ v.state = 2 then
    ((List.range 4).filter (fun d => !(s.part.dieTiles d).isEmpty)).foldl
      (fun s d => s.post (.home (s.levelHome k)) (s.here (.drawUnit d)) 0 (.removal k v.order) 0 0) s1
  else s1

/-- The run-queue entries of cancelled levels at one core are removed, and their counts lowered. -/
def State.purgeRunq (s : State) (lvs : List Nat) (c : Nat) : State :=
  let (gone, keep) := (s.coreAt c).runq.partition (fun e => lvs.contains e.level)
  if gone.isEmpty then s
  else gone.foldl (fun s e => (s.closeEnd c e.h0).sendCount c e.level false) (s.updCore c (fun k => { k with runq := keep }))

/-- The tasks of levels that have become cancel-pending are woken, where a bit of their `CANCEL` changes by it (R251). -/
def State.wakeCancelled (s : State) (fresh : List Nat) : State :=
  let changes (sl : Slot) : Bool := (s.chain 8 sl.task.level).any (fun k =>
    fresh.contains k && !sl.cancelled.getLsbD (s.levelAt k).level)
  s.mach.slots.foldl (fun s e => if e.2.phase ≠ .free ∧ changes e.2 then s.wakeSlot (e.1 / 4) (e.1 % 4) else s) s

/-- Levels become cancel-pending in one step: those that are so already stay as they are; their run-queue entries go, their tasks
are woken, other modules at which they have tasks are told, and those whose count is zero complete (R268). -/
def State.makePending (s : State) (lvs : List Nat) : State :=
  let fresh := lvs.filter (fun i => !(s.levelAt i).cp)
  let s1 := fresh.foldl State.markCancel s
  let peers := if fresh.isEmpty then [] else ((lvs.map (fun i => (s.levelAt i).away)).flatten).eraseDups
  let s2 := peers.foldl (fun s p => s.tellLevels p (fresh.map s.globalKey) .cancelled) s1
  let s3 := s2.mach.cores.foldl (fun s e => s.purgeRunq lvs e.1) s2
  lvs.foldl (fun s k => s.settleLevel 6 k) (s3.wakeCancelled fresh)

/-! ### Launch-port writes (R316, R319 to R322) -/

/-- A port write: its job slot, record, data, whether a task issued it, and the state after it has left its queue. -/
structure PortWrite where
  j : Nat
  k : Nat
  data : VWord
  fromTask : Bool
  /-- its answer: the home, packet and journal entry -/
  ans : Option (Nat × Packet × Option Nat)
  rest : State

/-- The write is answered once it has been performed. -/
def PortWrite.done (w : PortWrite) (s : State) : State :=
  match w.ans with
  | some (h, p, e) => s.ackWrite h p e
  | none => s

/-- The launch-port write that a `PortSrc` names, if it has a port: a host write, or what heads a home's perform queue,
which waits while a switch has stopped the job (R339); a fenced home refuses it (R377). -/
def State.portWrite (s : State) (w : PortSrc) : Option PortWrite :=
  match w with
  | .hostWrite j k _ data =>
    if s.keeps j then none else some { j := j, k := k, data := data, fromTask := false, ans := none, rest := s }
  | .queued h =>
    if s.stopped ∨ s.part.fenced.contains h then none else
    match s.takeHome h with
    | none => none
    | some (p, s0) =>
      match p.body with
      | .store .vst pa 64 data entry =>
        if isPort pa ∧ pa % 64 = 0 ∧ fromEngine p = false ∧ p.job = (s.jobAt (portJob pa)).tag then
          some { j := portJob pa, k := portRec pa, data := data, fromTask := true, ans := some (h, p, entry), rest := s0 }
        else none
      | .port _ k data entry task =>
        (s.slotOfTag p.job).map (fun j =>
          { j := j, k := k, data := data, fromTask := task, ans := some (h, p, entry), rest := s0 })
      | _ => none

/-- A hierarchy record as the home reads it from the table (Table 21-3); bit 63 of GRID is reserved (Table 02-6). -/
def State.readRecord (s : State) (k : Nat) : Level × Nat :=
  let at_ := s.job.hbase * 4096 + 64 * k
  let w (i : Nat) : Nat := s.num (at_ + 8 * i) 8
  ({ Level.free with
     level := bitsOf (w 0) 60 58, cores := decide (bitsOf (w 0) 54 54 = 1), cdl := bitsOf (w 0) 53 48
     parent := bitsOf (w 1) 63 32, start := bitsOf (w 1) 31 0, tkind := bitsOf (w 2) 63 62
     tpeer := BitVec.ofNat 12 (bitsOf (w 2) 59 48), tcore := bitsOf (w 2) 44 32, tidx := bitsOf (w 2) 31 0
     entry := bitsOf (w 3) 63 32, stack := bitsOf (w 3) 31 16, ring := bitsOf (w 3) 15 14, rclus := bitsOf (w 3) 13 8
     grid := BitVec.ofNat 64 (w 4 % 2 ^ 63), seed := BitVec.ofNat 64 (w 5), stackb := bitsOf (w 6) 55 0
     dlen := bitsOf (w 7) 63 40, dbase := bitsOf (w 7) 39 0 }
  , bitsOf (w 0) 57 56)

/-- A completed record that the host has written anew is a free one (R319, R320). -/
def State.freshen (s : State) (k : Nat) : State :=
  let v := s.levelAt k
  if v.state = 3 ∧ (s.readRecord k).2 ≠ 3 then
    { s with mach := { s.mach with levels := AMap.set s.mach.levels k { Level.free with inc := v.inc } } }
  else s

/-- The home of a record of a job on this module is fenced: a launch-port write to it is refused with reason 3 (R377). -/
def State.portFenced (s : State) (j k : Nat) : Bool :=
  s.part.fenced.contains (hashHome s.part (BitVec.ofNat 64 ((s.jobAt j).tag.toNat * 2 ^ 48 + k)))

/-- A host write that no port takes: one to a fenced home, of another size, past the table, or with an opcode that Table 21-4 does not list; a
write for a job that does not exist is dropped, one for a job that is switched out, or that a switch has stopped, is kept
while its log has room (R316, R320, R325, R341). -/
def State.hostPort (s : State) (w : PortSrc) : Option State :=
  match w with
  | .hostWrite j k size data =>
    match AMap.get s.jobs j with
    | none => some s
    | some jb =>
      if s.keeps j then (if s.logFull j then none else some (s.appendLog j (.port k size data)))
      else if s.portFenced j k then some s
      else if size ≠ 64 ∨ jb.hcount ≤ k ∨ portOp data < 0x20 ∨ 0x22 < portOp data then some (s.badWrite j)
      else none
  | .queued _ => none

/-- START: START falls, and at zero the level starts; after the start LATE rises (R320, R262). -/
def State.doStart (s0 : State) (k : Nat) (j : Nat) : State :=
  let s := s0.freshen k
  let v := s.levelAt k
  if v.state = 1 then
    let s1 := s.setLevel k { v with start := v.start - 1 }
    if v.start ≤ 1 ∧ v.cp = false then s1.startLevel k else s1
  else if v.state = 2 ∨ v.state = 3 then s.setLevel k { v with late := satAdd 16 v.late 1 }
  else s.badWrite j

/-- START: launch-port opcode 0x20 (R320). -/
def execStart (w : PortSrc) (s : State) : Out :=
  match s.hostPort w with
  | some t => .next t
  | none =>
    match s.portWrite w with
    | some q =>
      if portOp q.data ≠ 0x20 ∨ (s.jobAt q.j).hcount ≤ q.k then notEnabled "START"
      else .next (q.done (q.rest.doStart q.k q.j))
    | none => notEnabled "START"

/-- What an arm accepts (Table 21-4, R319, R320). -/
def State.armable (s : State) (k : Nat) (v : Level) (st : Nat) : Bool :=
  let old := s.levelAt k
  decide (k ≠ 0) && decide (old.state ≠ 1) && decide (old.state ≠ 2) && decide (st = 0) && decide (v.level ≠ 0) &&
    (decide (v.tkind ≠ 2) || (s.part.coreLive v.tcore && s.entered v.tidx 1)) && decide ((s.levelAt v.parent).state ≠ 3)

/-- The records that an arm of record `k` concerns, with completed ones that the host has written anew free (R319, R320). -/
def State.beforeArm (s : State) (k : Nat) : State := (s.freshen k).freshen (s.readRecord k).1.parent

/-- An arm: the record is read, the parent's count rises, a launch counts its units; under a pending cancel it, and what has been
armed below it, becomes cancel-pending at once; with START 0 the record starts (R319, R320, R268). -/
def State.doArm (s0 : State) (k j : Nat) : State :=
  let s := s0.beforeArm k
  let (v, st) := s.readRecord k
  let old := s.levelAt k
  let held := if old.state = 0 then old.count else 0
  let n := if v.level = 1 then gridSize v.grid else 0
  if s.armable k v st = false then s.badWrite j
  else if s.countFull v.parent ∨ 2 ^ 32 ≤ held + n then (s.overflowRecord (7 * s.levelHome k + 3) k).badWrite j
  else
    let s1 := s.updLevel v.parent (fun p => { p with count := p.count + 1 })
    let cancelled := decide (old.state = 0) && old.cp
    let s2 := s1.setLevel k { v with state := 1, count := held + n, inc := old.inc, cpAt := if cancelled then old.cpAt else none }
    if s.cancelPending v.parent ∨ cancelled then s2.makePending (s2.underLevel k) else if v.start = 0 then s2.startLevel k else s2

/-- ARM: launch-port opcode 0x21, which no task may write (R320). -/
def execArm (w : PortSrc) (s : State) : Out :=
  match s.portWrite w with
  | some q =>
    if (s.hostPort w).isSome ∨ portOp q.data ≠ 0x21 ∨ (s.jobAt q.j).hcount ≤ q.k ∨ q.fromTask then notEnabled "ARM"
    else .next (q.done (q.rest.doArm q.k q.j))
  | none => notEnabled "ARM"

/-- The identity of the start channel H (R391, R322). -/
def hIdent (tag : BitVec 16) : Word := BitVec.ofNat 64 (tag.toNat * 2 ^ 48 + eqxCore * 2 ^ 32)

/-- The task write's parts (Table 21-6). -/
def taskWord (data : VWord) : Word := data.extractLsb' 64 64
def taskPayload (data : VWord) : Vector Word 6 := Vector.ofFn (fun i => data.extractLsb' (128 + 64 * i.val) 64)

/-- A new send-end instance of H, in flight or at a holder, where 255 are not live (R322, R174); none once H's entry is gone. -/
def State.newOfH (s : State) (holder : Option Nat) : Option (Handle × State) :=
  let id := hIdent s.job.tag
  let h := hashHome s.part id
  match s.entryAt h id with
  | none => none
  | some e =>
    if 255 ≤ e.live.length then none
    else
      let x : Handle := { newSend s.part.peer (e.holder % 8192) id with
        inst := e.made, gen := e.gen, locPeer := BitVec.ofNat 12 (e.holder / 8192), dead := decide (e.state = .closed)
        moves := if holder.isNone then 1 else 0 }
      let i : Inst := { Inst.new e.made 0 with holder := holder, moved := x.moves }
      some (x, s.setChan h { e with made := e.made + 1, insts := e.insts ++ [i] })

/-- A handler task asked of Equinox, with the end that SEL names (R322): H's receive end is carried once; a new instance of H is
allocated at its home, in flight. -/
def State.doTask (s : State) (j : Nat) (data : VWord) : State :=
  let w := taskWord data
  let sel := bitsOf w.toNat 55 54
  let core := bitsOf w.toNat 44 32
  let off := bitsOf w.toNat 31 0
  let id := hIdent s.job.tag
  if bitsOf w.toNat 53 45 ≠ 0 ∨ sel = 3 ∨ s.part.coreLive core = false ∨ s.entered off 0 = false ∨
      (sel = 1 ∧ s.mach.hRecv = false) then s.badWrite j
  else
    let word (kind words : Nat) : Word := BitVec.ofNat 64 (kind * 2 ^ 56 + words * 2 ^ 53 + off)
    let pay := taskPayload data
    let pay4 := (pay.setIfInBounds 4 0).setIfInBounds 5 0
    let send (s : State) (b : Body) : State := s.post .equinox (s.here (.core core)) 0 b 0 0
    match sel with
    | 0 => send s (.task (word 0x10 6) pay none)
    | 1 =>
      let e := newRecv s.part.peer eqxCore id
      let s1 := { s with mach := { s.mach with hRecv := false } }
      send (s1.carryRecv eqxCore e) (.task (word 0x11 4) pay4 (some e))
    | _ =>
      match s.newOfH none with
      | none => s.badWrite j
      | some (x, s1) => send s1 (.task (word 0x11 4) pay4 (some x))

/-- TASK: launch-port opcode 0x22 on record 0, which no task may write (R320, R322). -/
def execTask (w : PortSrc) (s : State) : Out :=
  match s.portWrite w with
  | some q =>
    if (s.hostPort w).isSome ∨ portOp q.data ≠ 0x22 ∨ (s.jobAt q.j).hcount ≤ q.k ∨ q.fromTask then notEnabled "TASK"
    else if q.k ≠ 0 then .next (q.done (q.rest.badWrite q.j))
    else .next (q.done (q.rest.doTask q.j q.data))
  | none => notEnabled "TASK"

/-- Equinox's own instance of H, made when its first completion is to go out (R322; log 92); none once H's entry is gone. -/
def State.ownH (s : State) : Option (Handle × State) :=
  if s.mach.hSend.kind = .send then some (s.mach.hSend, s) else s.newOfH (some (locOf s.part.peer eqxCore))

/-- H still has an entry at its home. -/
def State.hLives (s : State) : Bool := (s.entryAt (hashHome s.part (hIdent s.job.tag)) (hIdent s.job.tag)).isSome

/-- H_COMPLETION: the oldest completion for H goes out on Equinox's instance, when there is one and it has a credit; a dead
instance, or an entry that is gone, drops it (R322). -/
def execHCompletion (s : State) : Out :=
  match s.mach.hQueue with
  | [] => notEnabled "H_COMPLETION"
  | (k, st) :: rest =>
    let drop : State := { s with mach := { s.mach with hQueue := rest } }
    match s.ownH with
    | none => if s.hLives then notEnabled "H_COMPLETION" else .next drop
    | some (h, s0) =>
    let s1 := { s0 with mach := { s0.mach with hQueue := rest, hSend := h } }
    if h.dead then .next s1
    else if h.credits = 0 then notEnabled "H_COMPLETION"
    else
      let pay : Vector Word 6 := (noPayload.setIfInBounds 0 st).setIfInBounds 1 (BitVec.ofNat 64 k)
      let s2 := s1.sendOn (.core eqxCore) h 1 .data 2 pay none
      .next { s2 with mach := { s2.mach with hSend := { bumpSeq h with credits := h.credits - 1 } } }

/-! ### Cancel requests and the deadline (R268, R269) -/

/-- A cancel of a level, at its home: it and every descendant that is not complete become cancel-pending, and its deadline counts
from now (R268, R269). For a record that is not armed yet the home keeps in mind that its cancel is pending (log 137). -/
def State.cancelLevel (s : State) (k : Nat) : State :=
  let lvs := s.underLevel k
  let v := s.levelAt k
  (s.setLevel k { v with cpAt := some s.mach.clock, cp := v.cp || decide (v.level = 0) }).makePending lvs

/-- CANCEL_REQUEST: nothing happens at a level that is complete or already has a cancel pending (R268, R245). -/
def execCancelRequest (h : Nat) (s : State) : Out :=
  match s.takeHome h with
  | some (p, s0) =>
    let perform (k : Nat) : State :=
      let t := s0.freshen k
      if (t.levelAt k).state = 3 ∨ (t.levelAt k).cp then s0 else t.cancelLevel k
    match p.body with
    | .cancelReq k => .next (perform k)
    | .farCancel key => .next (((s.ownRec key).map perform).getD s0)
    | _ => notEnabled "CANCEL_REQUEST"
  | none => notEnabled "CANCEL_REQUEST"

/-- REMOVAL_NOTICE: a draw-counter unit drops what is left of a cancelled launch's range (R268). -/
def execRemovalNotice (die : Nat) (s : State) : Out :=
  match (s.drawAt die).q with
  | p :: rest =>
    match p.body with
    | .removal k order =>
      let (mine, keep) := (s.drawAt die).ranges.partition (fun r => decide (r.lrec = k) && decide (r.order = order))
      let n := (mine.map (fun r => r.stop - r.next)).sum
      let s1 := s.updDraw die (fun u => { u with q := rest, ranges := keep })
      .next ((s1.updLevel k (fun v => { v with undrawn := v.undrawn + n })).lowerLevel k n)
    | _ => notEnabled "REMOVAL_NOTICE"
  | [] => notEnabled "REMOVAL_NOTICE"

/-- The tasks that the deadline of a level kills: those in slots, not yet draining (R269). -/
def State.doomed (s : State) (k : Nat) : List (Nat × Nat × Nat) :=
  (s.mach.slots.filter (fun e =>
    decide (e.2.phase ≠ .free) && decide (e.2.phase ≠ .draining) && (s.chain 8 e.2.task.level).contains k)).map
    (fun e => (e.1 / 4, e.1 % 4, e.2.task.level))

/-- One task killed at the deadline of level `k`, counted in KILLED of its level and the levels up to `k`, at their home (R269). -/
def State.killAt (s : State) (k : Nat) (e : Nat × Nat × Nat) : State :=
  let s1 := if e.2.2 < 2 ^ 32 then s.countKilled e.2.2 k
    else s.post (.core e.1) (s.farHome e.2.2) 1 (.farKilled e.2.2 k) 0 0
  s1.kill e.1 e.2.1 0x182 (e.2.2 % 2 ^ 32) (BitVec.ofNat 64 (e.2.2 % 2 ^ 32))

/-- Other modules at which a level has tasks, and that have not been told that its deadline has passed. -/
def State.untold (s : State) (k : Nat) : List Peer :=
  (((s.underLevel k).map (fun i => (s.levelAt i).away)).flatten.eraseDups).filter (fun p => !(s.levelAt k).told.contains p)

/-- CANCEL_DEADLINE: 2^CDL delivered cycles after the request, the level's remaining tasks are killed, here and on the modules to
which some have moved (R269, R271). -/
def execCancelDeadline (k : Nat) (s : State) : Out :=
  let v := s.levelAt k
  match v.cpAt with
  | none => notEnabled "CANCEL_DEADLINE"
  | some t =>
    let cdl := if v.cdl = 0 then 20 else v.cdl
    let dead := s.doomed k
    let far := s.untold k
    if s.stopped ∨ s.mach.clock < t + 2 ^ cdl ∨ (dead.isEmpty ∧ far.isEmpty) then notEnabled "CANCEL_DEADLINE"
    else
      let s1 := far.foldl (fun s p => s.tellLevels p [s.globalKey k] .deadline) (s.setLevel k { v with told := v.told ++ far })
      .next (dead.foldl (fun s e => s.killAt k e) s1)

/-! ### Levels of other modules (R271; log 109) -/

/-- A level as another module is to know it. -/
def State.levelCopy (s : State) (k : Nat) : LevelCopy :=
  let v := s.levelAt k
  { key := s.globalKey k, level := v.level, parent := s.globalKey v.parent, cp := v.cp, dead := v.dead, grid := v.grid, seed := v.seed }

/-- What a context says of a level of another module is kept beside what is known of it. -/
def State.takeCopy (s : State) (c : LevelCopy) : State :=
  if keyPeer c.key = s.part.peer then s
  else
    let v := s.levelAt c.key
    s.setLevel c.key { v with
      level := c.level, state := 2, parent := c.parent, cp := v.cp || c.cp, dead := v.dead || c.dead, grid := c.grid, seed := c.seed }

/-- A task of a level of this module is at another one: that module is told of the level's cancels from now on, and at once of
those that are pending. -/
def State.levelAway (s : State) (from_ : Peer) (key : Nat) : State :=
  match s.ownRec key with
  | none => (s.tasksAway [from_]).tellLevels from_ [key] .complete
  | some k =>
    let s1 := s.updLevel k (fun v => { v with away := if v.away.contains from_ then v.away else v.away ++ [from_] })
    let cp := (s.chain 8 k).filter (fun i => (s.levelAt i).cp)
    if cp.isEmpty then s1 else s1.tellLevels from_ (cp.map s.globalKey) .cancelled

/-- A level's module tells of it (R261, R268, R269). -/
def State.levelNews (s : State) (keys : List Nat) (n : LevelNews) : State :=
  let known := keys.filter (fun k => (AMap.get s.mach.levels k).isSome)
  match n with
  | .cancelled => s.makePending known
  | .deadline => known.foldl (fun s k =>
      (s.doomed k).foldl (fun s e => s.killAt k e) (s.setLevel k { s.levelAt k with cp := true, dead := true })) s
  | .complete => known.foldl (fun s k =>
      let t := s.relevel k (farKey (keyPeer k) 0 0)
      { t with mach := { t.mach with levels := AMap.del t.mach.levels k } }) s

end Sys2Proof.Machine
end

