-- ==== Sys2Proof/Machine/Sched.lean ====
section
/-! DEFINITION. Filling slots (R255), draws and steals (R264, R265), ageing (R256), load summaries and donation (R266), task
migration (R270, R271), the watchdog (R337) and the end of `wfi` (R251). -/

namespace Sys2Proof.Machine

open Sys2Proof

/-! ### Slots and draws -/

/-- The lowest open slot of a core (R255). -/
def State.freeSlot (s : State) (c : Nat) : Option Nat := (List.range (slotCount c)).find? (fun l => s.openSlot c l)

/-- The head of the highest non-empty class of a run queue, oldest first, and the rest (R255). -/
def nextEntry (q : List RunEntry) : Option (RunEntry × List RunEntry) :=
  [0, 1, 2, 3].findSome? (fun n => takeFirst (fun (e : RunEntry) => decide (e.cls = n)) q)

/-- Some started launch of the job has indices left (R264). -/
def State.indicesLeft (s : State) : Bool := s.mach.draws.any (fun e => e.2.ranges.any (fun r => decide (r.next < r.stop)))

/-- SLOT_FILL: the run queue's next entry takes the lowest Free slot; with none a compute core draws (R255, R264). -/
def execSlotFill (c : Nat) (s : State) : Out :=
  let k := s.coreAt c
  match s.freeSlot c with
  | none => notEnabled "SLOT_FILL"
  | some l =>
    if s.running.isNone ∨ s.stopped ∨ s.part.coreLive c = false ∨ (isCompute c ∧ !s.mach.coStarts.isEmpty) then notEnabled "SLOT_FILL"
    else
      match nextEntry k.runq with
      | some (e, rest) => .next ((s.setCore c { k with runq := rest }).place c l e)
      | none =>
        if isCompute c ∧ k.drawing = none ∧ k.idle = false ∧ s.indicesLeft then
          .next ((s.setCore c { k with drawing := some l, drawnAt := s.mach.starts }).post (.core c) (s.here (.drawUnit (dieOf (tileOf c)))) 0
            (.draw c l 0) l 0)
        else notEnabled "SLOT_FILL"

/-- The range of the earliest launch that has indices left on a die (R264). -/
def firstRange (l : List Range) : Option Range :=
  (l.filter (fun r => decide (r.next < r.stop))).foldl (fun b r =>
    match b with
    | none => some r
    | some q => if r.order < q.order then some r else some q) none

/-- A range in place of the one of the same launch. -/
def putRange (l : List Range) (r : Range) : List Range := l.map (fun q => if q.lrec = r.lrec ∧ q.order = r.order then r else q)

/-- The next live die after `d` in the order of R265, after `n` dies asked; none once all have been. -/
def State.nextDie (s : State) (home n : Nat) : Option Nat :=
  ((List.range 4).filter (fun i => decide (n < i))).find? (fun i => !(s.part.dieTiles ((home + i) % 4)).isEmpty)

/-- A request that finds nothing goes on to the next die, or comes back without an index (R265). -/
def State.passDraw (s : State) (die : Nat) (p : Packet) (c l tries : Nat) : State :=
  let home := dieOf (tileOf c)
  match s.nextDie home tries with
  | some i => s.post (.drawUnit die) (s.here (.drawUnit ((home + i) % 4))) 0 (.draw c l i) p.slot p.gen
  | none => s.post (.drawUnit die) (s.here (.core c)) 0 (.drawn l none) 0 0

/-- DRAW: the own die's unit gives its lowest index (R264). -/
def execDraw (die : Nat) (s : State) : Out :=
  if s.stopped then notEnabled "DRAW" else
  match (s.drawAt die).q with
  | [] => notEnabled "DRAW"
  | p :: rest =>
    match p.body with
    | .draw c l 0 =>
      let s0 := s.updDraw die (fun u => { u with q := rest })
      match firstRange (s.drawAt die).ranges with
      | some r =>
        let s1 := s0.updDraw die (fun u => { u with ranges := putRange u.ranges { r with next := r.next + 1 } })
        .next (s1.post (.drawUnit die) (s.here (.core c)) 0 (.drawn l (some (r.lrec, r.next))) 0 0)
      | none => .next (s0.passDraw die p c l 0)
    | _ => notEnabled "DRAW"

/-- STEAL: another die's unit gives its highest index (R265). -/
def execSteal (die : Nat) (s : State) : Out :=
  if s.stopped then notEnabled "STEAL" else
  match (s.drawAt die).q with
  | [] => notEnabled "STEAL"
  | p :: rest =>
    match p.body with
    | .draw c l (n + 1) =>
      let s0 := s.updDraw die (fun u => { u with q := rest })
      match firstRange (s.drawAt die).ranges with
      | some r =>
        let s1 := s0.updDraw die (fun u => { u with ranges := putRange u.ranges { r with stop := r.stop - 1 } })
        .next (s1.post (.drawUnit die) (s.here (.core c)) 0 (.drawn l (some (r.lrec, r.stop - 1))) 0 0)
      | none => .next (s0.passDraw die p c l (n + 1))
    | _ => notEnabled "STEAL"

/-- DRAW_REPLY: the unit task takes the slot that was kept for it; with no index the core waits for a launch to start,
unless one has started since it drew (R264, R265). -/
def execDrawReply (k : PairKey) (s : State) : Out :=
  match k.dst.agent, s.headOf k with
  | .core c, some p =>
    match p.body with
    | .drawn l unit =>
      if k.dst.peer ≠ s.part.peer ∨ s.stopped then notEnabled "DRAW_REPLY" else
      let s0 := (s.popNet k).updCore c (fun q => { q with drawing := none })
      match unit with
      | some (r, i) => .next (s0.place c l (s.unitEntry r i c l))
      | none =>
        .next ((s0.updCore c (fun q => { q with idle := decide (q.drawnAt = s.mach.starts) })).updCluster (clusterOf (tileOf c))
          (fun q => { q with mayDonate := true }))
    | _ => notEnabled "DRAW_REPLY"
  | _, _ => notEnabled "DRAW_REPLY"

/-! ### Ageing and donation -/

/-- An entry that has waited 65,536 cycles in class 2 or 3 (R256). -/
def State.aged (s : State) (e : RunEntry) : Bool := decide (2 ≤ e.cls) && decide (e.since + 65536 < s.mach.clock)

/-- RUN_QUEUE_AGEING: such an entry moves to the tail of the next higher class (R256). -/
def execRunQueueAgeing (c : Nat) (s : State) : Out :=
  match takeFirst s.aged (s.coreAt c).runq with
  | none => notEnabled "RUN_QUEUE_AGEING"
  | some (e, rest) =>
    .next (s.updCore c (fun k => { k with runq := rest ++ [{ e with cls := e.cls - 1, since := s.mach.clock }] }))

/-- The live cores of a cluster. -/
def State.clusterCores (s : State) (cl : Nat) : List Nat :=
  (((List.range 16).map (fun i => (List.range 7).map (fun j => 7 * (16 * cl + i) + j))).flatten).filter s.part.coreLive

/-- Entries on the run queues of a cluster. -/
def State.clusterLoad (s : State) (cl : Nat) : Nat := ((s.clusterCores cl).map (fun c => (s.coreAt c).runq.length)).sum

/-- LOAD_SUMMARY: every 4,096 delivered cycles each cluster learns the others' loads (R266). -/
def execLoadSummary (s : State) : Out :=
  if s.mach.clock < s.mach.summaryAt + 4096 then notEnabled "LOAD_SUMMARY"
  else
    let s1 := (List.range 64).foldl (fun s cl =>
      let n := s.clusterLoad cl
      if n = (s.clusterAt cl).load then s else s.updCluster cl (fun k => { k with load := n })) s
    .next { s1 with mach := { s1.mach with summaryAt := s.mach.clock } }

/-- A run-queue entry that may be shipped (R266). -/
def shippable (e : RunEntry) : Bool :=
  match e.kind with
  | .spawned | .unit => true
  | .handler => !e.hadEnd
  | _ => false

/-- The raise of a core for a level is on its way or not yet performed; of a raise for a level of another module this one knows that
it has come there (R259; log 109). -/
def State.raiseDue (s : State) (c k : Nat) : Bool :=
  let me := s.here (.core c)
  let h := s.levelHome k
  if k < 2 ^ 32 then
    (netGet s.mach.net { src := me, dst := s.here (.home h), cls := 1 } ++ (s.homeAt h).q).any (fun p =>
      decide (p.src = me) && decide (p.body = .count k true))
  else
    let b (p : Packet) : Bool := decide (p.src = me) && decide (p.body = .farCount k true)
    (netGet s.mach.net { src := me, dst := s.farHome k, cls := 1 }).any b ||
      s.streams.any (fun x => decide (x.peer = keyPeer k) && x.copies.any (fun f => f.1.packets.any (fun q => b q.2)))

/-- The newest shippable entry of a class in a cluster: its core and place there. A core with a Free slot fills it first
(R272). -/
def State.newestOf (s : State) (cl cls : Nat) : Option (Nat × Nat) :=
  let all := (((s.clusterCores cl).filter (fun c => (s.freeSlot c).isNone)).map (fun c =>
    (((s.coreAt c).runq.zipIdx).filter (fun e => decide (e.1.cls = cls) && shippable e.1)).map
      (fun e => (e.1.since, c, e.2)))).flatten
  (all.foldl (fun b e =>
    match b with
    | none => some e
    | some q => if q.1 ≤ e.1 then some e else some q) none).map (·.2)

/-- One entry shipped to a core of the asking cluster, a free choice among those that may run it (R266, R254); one that is
due to age goes at its new class (R272). Where the raise of the newest is still on its way the shipment ends before it, so that its
lowering comes behind (R259; log 109). It carries the `TGEN` of its first shipping, and joins behind those shipped before it (log
142). -/
def State.shipOne (s : State) (asker victim : Nat) : Option State :=
  ((s.newestOf victim 3).orElse (fun _ => s.newestOf victim 2)).bind (fun e =>
    ((s.coreAt e.1).runq[e.2]?).bind (fun r =>
      let cores := (s.clusterCores asker).filter (fun c => s.runRoom c && (isCompute c || decide (r.kind ≠ .unit)))
      if cores.isEmpty ∨ s.raiseDue e.1 r.level then none
      else
        let c := cores.getD (Config.choice s.free % cores.length) 0
        let s1 := s.updCore e.1 (fun k => { k with runq := k.runq.eraseIdx e.2 })
        let r1 := if s.aged r then { r with cls := r.cls - 1, since := s.mach.clock } else r
        let r2 := { r1 with tgenx := some (r.tgenx.getD s.job.tgen) }
        some { (s1.join c r2) with free := s.free + 1 }))

/-- Up to `n` entries shipped. -/
def State.ship (s : State) (asker victim : Nat) : Nat → State
  | 0 => s
  | n + 1 =>
    match s.shipOne asker victim with
    | some t => State.ship t asker victim n
    | none => s

/-- WORK_DONATION: a cluster with 8 Free compute slots, empty run queues and a steal that found nothing asks the cluster of the
greatest load in the last summary, one of its own die on a tie (R266). -/
def execWorkDonation (asker victim : Nat) (s : State) : Out :=
  let load (c : Nat) : Nat := (s.clusterAt c).load
  let others := (List.range 64).filter (fun c => decide (c ≠ asker))
  let best := others.foldl (fun m c => max m (load c)) 0
  let tie := others.filter (fun c => decide (load c = best))
  let near := tie.filter (fun c => decide (c / 16 = asker / 16))
  let free := ((s.clusterCores asker).filter isCompute).map (fun c => ((List.range 4).filter (fun l => s.openSlot c l)).length)
  if s.stopped ∨ (s.clusterAt asker).mayDonate = false ∨ free.sum < 8 ∨ s.clusterLoad asker ≠ 0 ∨ best = 0 ∨
      (if near.isEmpty then tie else near).contains victim = false then notEnabled "WORK_DONATION"
  else
    .next ((s.ship asker victim 8).updCluster asker (fun k => { k with mayDonate := false }))

/-! ### Migration to the data (R270, R271, R285) -/

/-- The counters of R59 are all zero. -/
def Slot.quiet (sl : Slot) : Bool :=
  decide (sl.cntld = 0) && decide (sl.cntst = 0) && decide (sl.cntcp = 0) && decide (sl.cnttl = 0) && decide (sl.stc = 0) &&
    decide (sl.stp = 0) && decide (sl.stx = 0)

/-- The page to which the access that waits at issue in a slot is to move its task: the task is not pinned, and every counter is
zero (R59, R270). -/
def State.wantsMove (s : State) (c l : Nat) : Option (Peer × Nat) :=
  let sl := s.slotAt c l
  if sl.phase = .stalled ∧ sl.quiet ∧ s.pinned c l = false then sl.task.move else none

/-- A slot near a page is asked of the module that holds it (R270; log 91). -/
def State.askSlot (s : State) (c l : Nat) (peer : Peer) (pa : Nat) : State :=
  let a : Ask := { core := c, sl := l, gen := (s.slotAt c l).gen, peer := peer, pa := pa, answer := none }
  ({ s with mach := { s.mach with asks := s.mach.asks ++ [a] } }).post .armature { peer := peer, agent := .armature } 1 (.reserve pa) 0 0

/-- A slot that is not needed any more is given back. -/
def State.giveBack (s : State) (a : Ask) (pick : Option (Nat × Nat)) : State :=
  match pick with
  | some (c, l) => s.post .armature { peer := a.peer, agent := .armature } 1 (.unreserve c l) 0 0
  | none => s

/-- The task leaves for the slot that has been kept for it; its send ends go with it, and its slot is Free (R270, R271, R296). -/
def State.shipTask (s : State) (c l : Nat) (peer : Peer) (to_ : Nat × Nat) : State :=
  let sl := s.slotAt c l
  let s1 := (sl.h.toList.filter (fun h => h.kind = .send)).foldl (fun s h => s.carrySend c h) s
  let out : Slot := { sl with
    h := sl.h.map moved
    task := { sl.task with
      level := s.globalKey sl.task.level, wdStart := s.mach.clock - sl.task.wdStart, move := none, stay := none } }
  let levels := (s.chain 8 sl.task.level).map s.levelCopy
  (s1.updSlotAt c l (fun sl => { sl with phase := .free, h := Vector.replicate 16 Handle.none })).post
    (.core c) { peer := peer, agent := .core to_.1 } 1 (.context out levels) to_.2 0

/-- TASK_MIGRATION: Armature asks the module that holds the page for a slot; with the answer the task leaves for that slot, or, if
none could be reserved, its access proceeds as a remote one (R270, R271, R285, R59). A slot named for a task that no longer wants
it is given back. -/
def execTaskMigration (c l : Nat) (s : State) : Out :=
  if s.stopped then notEnabled "TASK_MIGRATION"
  else
    match takeFirst (fun (a : Ask) => decide (a.core = c) && decide (a.sl = l)) s.mach.asks, s.wantsMove c l with
    | none, some (peer, pa) => .next (s.askSlot c l peer pa)
    | some ({ answer := some pick, gen, peer, pa, .. }, rest), want =>
      let s0 := { s with mach := { s.mach with asks := rest } }
      if want ≠ some (peer, pa) ∨ gen ≠ (s.slotAt c l).gen then
        .next (s0.giveBack { core := c, sl := l, gen := gen, peer := peer, pa := pa, answer := none } pick)
      else
        match pick with
        | some to_ => .next (s0.shipTask c l peer to_)
        | none => .next (s0.updSlotAt c l (fun sl => { sl with task := { sl.task with move := none, stay := some sl.pc } }))
    | _, _ => notEnabled "TASK_MIGRATION"

/-- Open compute slots for a task of another module, of the nearest clusters that have some: the page's home's cluster, the
home's die, the module (R270). -/
def State.nearSlots (s : State) (pa : Nat) : List (Nat × Nat) :=
  let ofTiles (l : List Nat) : List (Nat × Nat) :=
    ((l.map (fun t => ([3, 4, 5, 6].map (fun i => (List.range 4).map (fun l => (7 * t + i, l)))).flatten)).flatten).filter
      (fun e => s.openSlot e.1 e.2)
  let live (l : List Nat) : List Nat := l.filter s.part.tileLive
  let near : List (List Nat) := match s.homeOf pa with
    | some h =>
      if h < 1024 then [live ((List.range 16).map (· + 16 * clusterOf h)), s.part.dieTiles (dieOf h)]
      else if h < 1280 then [s.part.dieTiles ((h - 1024) / 64)] else []
    | none => []
  ((near ++ [live (List.range 1024)]).find? (fun l => !(ofTiles l).isEmpty)).elim [] ofTiles

/-- Another module's Armature asks for a slot: one is kept for it and named in the answer, or none is open (R270; log 91). -/
def State.reserveSlot (s : State) (from_ : Place) (pa : Nat) : State :=
  let l := s.nearSlots pa
  let pick := l[Config.choice s.free % max 1 l.length]?
  let s1 : State := match pick with
    | some (c, i) => { s with mach := { s.mach with transits := s.mach.transits ++ [{ core := c, sl := i, slot := none }] } }
    | none => s
  { (s1.post .armature from_ 1 (.reserved pick) 0 0) with free := s.free + 1 }

/-- An answer belongs to the oldest question to that module that has none. -/
def answerAsk (from_ : Peer) (pick : Option (Nat × Nat)) : List Ask → List Ask
  | [] => []
  | a :: t => if a.peer = from_ ∧ a.answer.isNone then { a with answer := some pick } :: t else a :: answerAsk from_ pick t

def State.slotAnswered (s : State) (from_ : Peer) (pick : Option (Nat × Nat)) : State :=
  { s with mach := { s.mach with asks := answerAsk from_ pick s.mach.asks } }

/-- A kept slot is open again. -/
def State.unreserve (s : State) (c l : Nat) : State :=
  match takeFirst (fun (t : Transit) => decide (t.core = c) && decide (t.sl = l) && t.slot.isNone) s.mach.transits with
  | some (_, rest) => { s with mach := { s.mach with transits := rest } }
  | none => s

/-- The context of a task arrives for the slot kept for it, with what it says of its levels; the module of its level is told that
the task is here (R270, R271; log 109). -/
def State.takeContext (s : State) (c l : Nat) (sl : Slot) (levels : List LevelCopy) : Option State :=
  let mine (t : Transit) : Bool := decide (t.core = c) && decide (t.sl = l) && t.slot.isNone
  let sl1 : Slot := { sl with task := { sl.task with level := s.levelNamed sl.task.level } }
  let key := sl.task.level
  (takeFirst mine s.mach.transits).map (fun (t, rest) =>
    let s1 := levels.foldl State.takeCopy { s with mach := { s.mach with transits := rest ++ [{ t with slot := some sl1 }] } }
    if keyPeer key = s.part.peer then s1
    else s1.post .armature { peer := keyPeer key, agent := .armature } 1 (.levelAway key) 0 0)

/-- MIGRATION_ARRIVAL: a task from another module resumes in the slot kept for it, which has a new generation, with its
counters zero and its wake flag clear, and no register copy of the slot's last task in the operand log (R333); its watchdog has not advanced in transit, the deadline of a cancel has (R59, R251, R269,
R271, R337). -/
def execMigrationArrival (c l : Nat) (s : State) : Out :=
  match takeFirst (fun (t : Transit) => decide (t.core = c) && decide (t.sl = l) && t.slot.isSome) s.mach.transits with
  | some ({ slot := some t, .. }, rest) =>
    if (s.slotAt c l).phase ≠ .free ∨ isCompute c = false ∨ s.stopped then notEnabled "MIGRATION_ARRIVAL"
    else
      let sl : Slot := { t with
        gen := (s.slotAt c l).gen + 1, phase := .ready, wake := false, cntld := 0, cntst := 0, cntcp := 0, cnttl := 0, stc := 0
        stp := 0, stx := 0, task := { t.task with wdStart := s.mach.clock - t.task.wdStart } }
      let s0 : State := { s with mach := { s.mach with transits := rest } }
      let s1 := (s0.setSlotAt c l sl).updCore c (fun k => { k with oplog := k.oplog.filter (fun e => e.slot ≠ l) })
      let s2 := (sl.h.toList.filter (fun h => h.kind = .send)).foldl (fun s h => (s.landEnd c h).1) s1
      match (s2.chain 8 t.task.level).find? (fun k => (s2.levelAt k).dead) with
      | some k => .next (s2.killAt k (c, l, t.task.level))
      | none => .next s2
  | _ => notEnabled "MIGRATION_ARRIVAL"

/-! ### Time in a slot -/

/-- WATCHDOG_EXPIRY: the task in a slot, or for numbers from 4 on the entry of the run queue, is killed with 0x186 at
2^WDLIMIT delivered cycles; of one that drains already only the record is left to emit (R337, R269). -/
def execWatchdogExpiry (c l : Nat) (s : State) : Out :=
  let sl := s.slotAt c l
  let limit := 2 ^ s.eqx.wdlog
  if s.stopped then notEnabled "WATCHDOG_EXPIRY"
  else if l < slotCount c then
    if sl.phase = .free ∨ sl.task.expired ∨ sl.task.age s.mach.clock < limit then notEnabled "WATCHDOG_EXPIRY"
    else
      let s1 := s.updSlotAt c l (fun sl => { sl with task := { sl.task with expired := true } })
      if sl.phase = .draining then .next (s1.emit (s1.slotRec c l 0x186 0 0 true)) else .next (s1.kill c l 0x186 0 0)
  else
    match (s.coreAt c).runq[l - 4]? with
    | some e =>
      if l < 4 ∨ s.mach.clock - e.wdStart < limit then notEnabled "WATCHDOG_EXPIRY"
      else
        let s1 := s.emit (s.unitRec 0 c 0x186 s.job.tag 0 0 (s.unitAt 0 c).window)
        let s2 := s1.updCore c (fun k => { k with runq := k.runq.eraseIdx (l - 4) })
        .next ((s2.closeEnd c e.h0).sendCount c e.level false)
    | none => notEnabled "WATCHDOG_EXPIRY"

/-- WFI_TIMEOUT: a slot blocked in `wfi` goes on after 65,536 delivered cycles (R251). -/
def execWfiTimeout (c l : Nat) (s : State) : Out :=
  match (s.slotAt c l).phase with
  | .blocked (.wfi t) =>
    if s.mach.clock < t then notEnabled "WFI_TIMEOUT"
    else .next (s.updSlotAt c l (fun sl => { sl with phase := .ready, pc := sl.pc + 4 }))
  | _ => notEnabled "WFI_TIMEOUT"

end Sys2Proof.Machine
end

