-- ==== Sys2Proof/Machine/Placement.lean ====
section
/-! DEFINITION. Armature's placement and the TLBs' upkeep (R58, R163, R281 to R288, R352 to R356): evaluations, page migration
with its markers, replicas, seals, walks taken ahead of an access, and shootdowns. -/

namespace Sys2Proof.Machine

open Sys2Proof

/-- Some leaf maps a frame. -/
def State.mapped (s : State) (f : Nat) : Bool :=
  s.leaves.any (fun l => (s.leafRuns l).any (fun r => decide (r.1 ≤ f) && decide (f < r.1 + r.2)))

/-! ### Frames and their homes (R275, R284) -/

/-- The other modules of the partition (R367). -/
def State.others (s : State) : List Peer :=
  (s.peers.filter (fun e => decide (e.2.toNat / 32 = 3) && decide (e.1 ≠ s.part.peer.toNat))).map (fun e => BitVec.ofNat 12 e.1)

/-- The homes of a frame's sixteen granules on a module. -/
def State.frameHomes (s : State) (peer : Peer) (f : Nat) : List Nat :=
  (List.range 16).map (fun i => s.homeAtPeer peer (f * 2 ^ 16 + 4096 * i))

def isHbm (f : Nat) : Bool := decide (hbmBase ≤ f * 2 ^ 16) && decide (f * 2 ^ 16 < lpBase)

/-- The home die of a frame in HBM: that of its first granule. -/
def State.homeDie (s : State) (f : Nat) : Nat := (s.homeAtPeer s.part.peer (f * 2 ^ 16) - 1024) / 64

/-- A frame of HBM that straddles two stacks. -/
def State.straddles (s : State) (f : Nat) : Bool :=
  let hs := s.frameHomes s.part.peer f
  hs.any (fun h => decide ((h - 1024) / 32 ≠ (hs.headD 0 - 1024) / 32))

/-- A tier's flat region (R276): its first byte, its length, and the mask of its live slices as numbers. -/
def Part.tier (p : Part) (hbm : Bool) : Nat × Nat × List Nat :=
  if hbm then (hbmBase, p.flatH, (List.range (liveCount p.hbm)).map (fun i => 1024 + nthLive p.hbm i))
  else (lpBase, p.flatL, (List.range (liveCount p.lp)).map (fun i => 1280 + nthLive p.lp i))

/-- The physical address that an access names at its home. -/
def bodyPa : Body → Option Nat
  | .load pa _ _ => some pa
  | .ldFe _ pa _ _ => some pa
  | .store _ pa _ _ _ => some pa
  | .atomic _ pa _ _ _ _ => some pa
  | .fetch _ pa _ _ _ => some pa
  | _ => none

/-- The frames of module `peer` that what is in flight for a job names: accesses on their way or at a home, scaled loads still to
be made, and the operands of tile commands that have not ended. -/
def Mach.named (m : Mach) (peer : Peer) : List Nat :=
  let pas (l : List Packet) : List Nat := l.filterMap (fun p => bodyPa p.body)
  let cmd (c : Cmd) : List Nat :=
    (if c.peerA = peer then [c.paA] else []) ++ (if c.peerB = peer then [c.paB] else []) ++
      (if c.op = 0x13 ∧ c.peerI = peer then [c.w1.toNat % 2 ^ 52] else [])
  ((((m.net.filter (fun e => decide (e.1.dst.peer = peer))).map (fun e => pas e.2)).flatten ++
    (m.homes.map (fun e => pas (e.2.q ++ e.2.waiting ++ e.2.heldDirect.map (·.2)))).flatten ++
    (m.slots.map (fun e => (e.2.loads.map (fun v => if v.peer = peer then v.later.map (·.1) else [])).flatten)).flatten ++
    (m.cores.map (fun e => (e.2.cmds.map cmd).flatten)).flatten ++
    (m.engines.map (fun e => (e.2.runs.map (fun r => cmd r.cmd ++ ((r.reads.filter (fun a => a.peer = peer)).map (·.pa)))).flatten)).flatten).map
    (· / 2 ^ 16)).eraseDups

/-- The running job's machine and those of the jobs that are switched out. -/
def State.machs (s : State) : List Mach := s.mach :: s.saved.map (·.2)

/-- A run of frames added to a list of runs that rise and do not touch. -/
def addRun (r : Nat × Nat) : List (Nat × Nat) → List (Nat × Nat)
  | [] => [r]
  | q :: t =>
    if r.1 + r.2 < q.1 then r :: q :: t
    else if q.1 + q.2 < r.1 then q :: addRun r t
    else addRun (min r.1 q.1, max (r.1 + r.2) (q.1 + q.2) - min r.1 q.1) t

/-- The frames of a tier's flat region that are in use, as runs that rise: what leaves map, what migrations, pages on their way here
and replicas use, and what an access in flight still names, as after an unseal (R282, R284). -/
def State.usedRuns (s : State) (hbm : Bool) : List (Nat × Nat) :=
  let (base, len, _) := s.part.tier hbm
  let one (l : List Nat) : List (Nat × Nat) := l.map (fun f => (f, 1))
  let frames := (s.leaves.map s.leafRuns).flatten ++ one (s.migrations.map (·.old)) ++
    one ((s.migrations.filter (fun m => m.peer = s.part.peer)).map (·.new)) ++ one (s.incoming.map (·.new)) ++
    one ((s.pages.map (fun p => p.replicas.map (fun r => r.2 / 2 ^ 16))).flatten) ++
    one ((s.machs.map (fun m => m.named s.part.peer)).flatten)
  (frames.filter (fun r => decide (base ≤ r.1 * 2 ^ 16) && decide (r.1 * 2 ^ 16 < base + len))).foldl (fun l r => addRun r l) []

/-- Frames of the HBM flat region that nothing uses. -/
def State.hbmFree (s : State) : Nat := s.part.flatH / 2 ^ 16 - ((s.usedRuns true).map (·.2)).sum

/-- How many granules of a run lie on the `k`-th of `n` live slices (R275). -/
def granulesOn (n k : Nat) (r : Nat × Nat) : Nat := (r.1 + r.2 + n - 1 - k) / n - (r.1 + n - 1 - k) / n

/-- The free granules of the sixteen slices of a frame of a tier, together (Table 14-6). -/
def State.freeGranules (s : State) (hbm : Bool) (f : Nat) : Nat :=
  let (base, len, live) := s.part.tier hbm
  let n := max 1 live.length
  let first := base / 2 ^ 16
  let runs := (s.usedRuns hbm).map (fun r => (16 * (r.1 - first), 16 * r.2))
  ((List.range 16).map (fun i =>
    let k := (16 * (f - first) + i) % n
    granulesOn n k (0, len / 4096) - (runs.map (granulesOn n k)).sum)).sum

/-- A frame of a tier's flat region whose homes allow that it be taken: none is fenced, and in HBM they lie in one stack (R284,
R377). -/
def State.suits (s : State) (hbm : Bool) (f : Nat) : Bool :=
  !(hbm && s.straddles f) && !(s.frameHomes s.part.peer f).any (fun h => s.part.fenced.contains h)

/-- A frame of each kind of homes that is free, if there is one: the frames from the region's first, and from the end of each run
in use, for as many as the tier has live slices. -/
def State.freeFrames (s : State) (hbm : Bool) : List Nat :=
  let (base, len, live) := s.part.tier hbm
  let used := s.usedRuns hbm
  let first := base / 2 ^ 16
  ((first :: used.map (fun r => r.1 + r.2)).map (fun p =>
    ((List.range (max 1 live.length)).map (· + p)).filter (fun f =>
      decide (f < first + len / 2 ^ 16) && !inRuns used f && s.suits hbm f))).flatten

/-- Some frame of a die is free, and some frame of LPDDR6. -/
def State.dieHasFree (s : State) (d : Nat) : Bool := (s.freeFrames true).any (fun f => s.homeDie f = d)
def State.lpHasFree (s : State) : Bool := !(s.freeFrames false).isEmpty

/-- No free frame of its die lies on slices with more free granules (Table 14-6). -/
def State.bestOfDie (s : State) (f : Nat) : Bool :=
  (s.freeFrames true).all (fun g => decide (s.homeDie g ≠ s.homeDie f) || decide (s.freeGranules true g ≤ s.freeGranules true f))

/-- A frame of a tier's flat region that may be taken for a migration or a replica: whole in the region, mapped by no leaf, here or
on another module, in no other use, and with homes that allow it (R282, R284; log 45). -/
def State.mayTake (s : State) (f : Nat) (hbm : Bool) : Bool :=
  let (base, len, _) := s.part.tier hbm
  decide (base ≤ f * 2 ^ 16) && decide (f * 2 ^ 16 + 2 ^ 16 ≤ base + len) && s.suits hbm f && !inRuns (s.usedRuns hbm) f &&
    !(!s.others.isEmpty && Config.peerMaps s.now f)

/-! ### Evaluation (R282 to R287) -/

/-- The access writes. -/
def bodyWrites : Body → Bool
  | .store _ _ _ _ _ => true
  | .atomic _ _ _ _ _ _ => true
  | _ => false

/-- A command not yet complete that may write to a frame of this module's memory: its destination's leaf begins at or below
it. -/
def State.cmdMayWrite (s : State) (f : Nat) (c : Cmd) : Bool :=
  decide (c.peerB = s.part.peer) && decide ((c.paB - c.leafB) / 2 ^ 16 ≤ f) && decide (2 ^ 30 ≤ c.paB)

/-- A write to a frame that has been translated and is not yet performed (R57): in a pair queue, at a home, or still to be made
for a tile command that has not ended. -/
def State.writeIn (s : State) (m : Mach) (f : Nat) : Bool :=
  let hits (p : Packet) : Bool := bodyWrites p.body && (bodyPa p.body).any (fun pa => decide (pa / 2 ^ 16 = f))
  m.net.any (fun e => e.2.any hits) ||
    m.homes.any (fun e => e.2.q.any hits || e.2.waiting.any hits || e.2.heldDirect.any (fun p => hits p.2)) ||
    m.cores.any (fun e => e.2.cmds.any (s.cmdMayWrite f)) ||
    m.engines.any (fun e => (e.2.queue ++ e.2.hold ++ e.2.parked).any (s.cmdMayWrite f) ||
      e.2.runs.any (fun r => s.cmdMayWrite f r.cmd || r.writes.any (fun w => decide (w.pa / 2 ^ 16 = f))))

/-- A write to a frame is outstanding for the running job or for one that is switched out, or may be by way of a frame that its page
has left (R57). -/
def State.writePending (s : State) (f : Nat) : Bool :=
  s.machs.any (fun m => s.writeIn m f) || s.migrations.any (fun m => decide (m.new = f)) || s.incoming.any (fun i => decide (i.new = f))

/-- A write to a page of another module that is not yet known to be performed: journalled, on its way, or still to be made for a tile
command that has not ended, wherever it is (R57). -/
def State.writesAway (s : State) (peer : Peer) (f : Nat) : Bool :=
  let cmd (c : Cmd) : Bool := decide (c.peerB = peer) && decide (c.paB / 2 ^ 16 = f)
  s.mach.cores.any (fun e => e.2.cmds.any cmd ||
      e.2.journal.any (fun j => decide (j.2.peer = peer) && decide (j.2.pa / 2 ^ 16 = f) && !j.2.refused)) ||
    s.mach.net.any (fun e => e.2.any (fun p =>
      decide (e.1.dst.peer = peer) && bodyWrites p.body && (bodyPa p.body).any (fun pa => decide (pa / 2 ^ 16 = f)))) ||
    s.mach.engines.any (fun e => e.2.runs.any (fun r => r.writes.any (fun w => decide (w.peer = peer) && decide (w.pa / 2 ^ 16 = f))))

/-- The flag of peers that should send their tasks to a page (R285). -/
def PageRec.flagged (r : PageRec) (hint : Nat) (moving : List Peer) : List Peer :=
  (r.peers.filter (fun e =>
    (decide (64 ≤ e.2) && !moving.contains e.1 && decide (hint = 0 ∨ hint = 2)) || (decide (e.2 ≠ 0) && decide (hint = 1)))).map
    (·.1)

/-- A migration may start from here or towards here: at most 64 are in flight in the module, pages on their way here and those that
wait for another module's frame among them, and 16 towards a die of it, and none starts once a gang switch has been agreed
(R287). -/
def State.mayMigrate (s : State) (die : Option Nat) : Bool :=
  let here := (s.migrations.filter (fun m => decide (m.peer = s.part.peer))).map (·.new) ++ s.incoming.map (·.new)
  s.switch.isNone && decide (s.migrations.length + s.pageAsks.length + s.incoming.length < 64) &&
    (die.isNone || decide ((here.filter (fun f => isHbm f && decide (some (s.homeDie f) = die))).length < 16))

/-- A migration begins (R58). -/
def State.beginMigration (s : State) (old new : Nat) (peer : Peer) : State :=
  { s with migrations := s.migrations ++
      [{ old := old, new := new, peer := peer, switched := false, undrained := [], far := [] }] }

/-- A replica is made: the home's bytes and poison (R57, R282). -/
def State.replicate (s : State) (r : PageRec) (die f : Nat) : State :=
  let a := r.page * 2 ^ 16
  let b := f * 2 ^ 16
  let bad := (s.mach.poison.filter (fun e => decide (a ≤ e.1 * 16) && decide (e.1 * 16 < a + 2 ^ 16))).map
    (fun e => (e.1 + b / 16 - a / 16, e.2))
  let s1 := { s with
    dram := s.dram.copy a b (2 ^ 16)
    mach := { s.mach with poison := bad.foldl (fun (m : AMap (BitVec 2)) (e : Nat × BitVec 2) => AMap.set m e.1 e.2) s.mach.poison } }
  s1.setPage { r with replicas := r.replicas ++ [(die, b)] }

/-- The counts of a leaf (R283). -/
def State.leafRec (s : State) (l : LeafAt) : PageRec := s.pageRec (s.recKey l)

/-- The format attribute of a leaf, and its scale area: first byte and length (R72); none for an attribute without scales. -/
def State.leafFmt (s : State) (l : LeafAt) : Nat := bitsOf (s.num l.addr 8) 15 8
def State.leafScales (s : State) (l : LeafAt) : Option (Nat × Nat) :=
  let fmt := BitVec.ofNat 8 (s.leafFmt l)
  let n := if s.leafKind l = 4 then bitsOf (s.num (l.addr + 24) 8) 62 48 * 2 ^ 16 else spanOf l.level
  if blkOf fmt = 0 then none
  else some (bitsOf (s.num (l.addr + 8) 8) 51 6 * 64, (n * 8 / width (fmtOf fmt) + blockLen (blkOf fmt) - 1) / blockLen (blkOf fmt))

/-- A scale area of a leaf of this module's memory touches a frame: leaves and ticket entries name it by its physical address, so
its page stays where it is (R72, R281; log 140). -/
def State.holdsScales (s : State) (f : Nat) : Bool :=
  s.leaves.any (fun l => s.leafKind l ≠ 5 && (s.leafScales l).any (fun a =>
    decide (a.1 < (f + 1) * 2 ^ 16) && decide (f * 2 ^ 16 < a.1 + a.2)))

/-- What Table 14-6 has an evaluation do with a page: nothing, replicas on dies, a migration to a module, to a die of HBM
(to the best slices of it, or to any), or to LPDDR6. -/
inductive Due where
  | nothing
  | replicas (dies : List Nat)
  | peer (p : Peer)
  | hbm (dies : List Nat) (best : Bool)
  | lpddr
  deriving DecidableEq, Repr

/-- The row of Table 14-6 that applies to a leaf. A page that a block or slab maps too is not moved (log 45), nor one that holds
scales, nor to another module one that has some (log 140). -/
def State.due (s : State) (l : LeafAt) : Due :=
  let e := s.leafFrame l
  let r := s.leafRec l
  let hint := s.leafHint l
  let sum := r.dies.sum
  let top := r.dies.foldl max 0
  let home := if isHbm e then r.dies.getD (s.homeDie e) 0 else 0
  let moving := s.migrations.any (fun m => decide (m.old = e) || decide (m.new = e)) || s.pageAsks.any (fun a => decide (a.1 = e)) ||
    s.incoming.any (fun i => decide (i.new = e))
  let dies (p : Nat → Bool) : List Nat := (List.range 4).filter (fun d => p (r.dies.getD d 0))
  let inBlock := s.leaves.any (fun b => s.leafKind b ≠ 2 && (s.leafRuns b).any (fun r => decide (r.1 ≤ e) && decide (e < r.1 + r.2)))
  if s.leafKind l ≠ 2 ∨ hint = 1 ∨ hint = 3 ∨ e * 2 ^ 16 < 2 ^ 30 ∨ portBase ≤ e * 2 ^ 16 then .nothing
  else if bitsOf (s.num l.addr 8) 57 57 = 1 then
    let want := (dies (fun n => decide (256 ≤ n))).filter (fun d => !r.replicas.any (fun q => q.1 = d))
    if want.isEmpty then .nothing else .replicas want
  else if inBlock ∨ s.holdsScales e ∨ moving ∨ r.movedAt.any (fun t => decide (s.now < t + 2 ^ 22)) then .nothing
  else
    match r.peers.find? (fun q => decide (512 ≤ q.2) && decide (4 * sum ≤ q.2)) with
    | some (p, _) => if blkOf (BitVec.ofNat 8 (s.leafFmt l)) = 0 then .peer p else .nothing
    | none =>
      if isHbm e ∧ 512 ≤ top ∧ 4 * home ≤ top then .hbm (dies (fun n => decide (512 ≤ n) && decide (4 * home ≤ n))) true
      else if isHbm e = false ∧ 256 ≤ sum + (r.peers.map (·.2)).sum then .hbm (dies (fun n => decide (n = top))) false
      else if isHbm e ∧ sum = 0 ∧ r.peers.all (fun q => q.2 = 0) ∧ (hint = 2 ∨ 16 * s.hbmFree < s.part.flatH / 2 ^ 16) then .lpddr
      else .nothing

/-- One migration that is due, to the frame that Armature names; with none named it must be that none may start, or that no
frame is free: with other modules in the partition any may be mapped by a leaf of theirs (R284, R287; log 45). -/
def State.migrateDue (s : State) (l : LeafAt) (pick : List Nat) (die : Nat → Option Nat) (ok : Nat → Bool) (none_ : Bool) : Option State :=
  match pick with
  | [] => if none_ || !s.others.isEmpty then some s else none
  | f :: rest =>
    if rest.isEmpty ∧ s.mayMigrate (die f) ∧ ok f then some (s.beginMigration (s.leafFrame l) f s.part.peer) else none

/-- The other module that is to have a page is asked for a frame, while a migration may start (R284). -/
def State.askPage (s : State) (f : Nat) (p : Peer) : State :=
  if s.mayMigrate none then
    ({ s with pageAsks := s.pageAsks ++ [(f, p)] }).post .armature { peer := p, agent := .armature } 1 (.pageAsk f) 0 0
  else s

/-- No replica of a page may be made yet: a seal or unseal of it is being served, here or by another module, or stores of another
module that were translated before the seal may still be on their way (R57). -/
def State.sealing (s : State) (page : Nat) : Bool :=
  s.mach.seals.any (fun q => inRange q.base q.len page) || s.mach.unsealing.any (fun q => inRange q.2.1 q.2.2 page) ||
    s.mach.unquiet.any (fun q => inRange q.2.1 q.2.2 page)

/-- What is due done with a leaf's page, for the frames that the choices give it; `live` says that the page's job runs, without
which none of its pages migrates (R287). -/
def State.placeDue (s : State) (cs : List PlaceChoice) (live : Bool) (l : LeafAt) : Option State :=
  let e := s.leafFrame l
  let pick := (cs.filter (fun c => c.page = e)).map (·.frame)
  let still : Option State := if pick.isEmpty then some s else none
  match s.due l with
  | .nothing => still
  | .replicas want =>
    if s.writePending e || s.sealing l.page || s.migrations.any (fun m => decide (m.old = e)) then still
    else if !pick.all (fun f => isHbm f && want.contains (s.homeDie f)) then none
    else
      want.foldl (fun (o : Option State) d => o.bind (fun s =>
        match pick.filter (fun f => s.homeDie f = d) with
        | [] => if s.dieHasFree d && s.others.isEmpty then none else some s
        | f :: rest => if rest.isEmpty ∧ s.mayTake f true then some (s.replicate (s.pageRec e) d f) else none)) (some s)
  | .peer p => if live then still.map (fun s => s.askPage e p) else still
  | .hbm ds best =>
    if live = false then still
    else
      s.migrateDue l pick (fun f => some (s.homeDie f))
        (fun f => isHbm f && ds.contains (s.homeDie f) && s.mayTake f true && (!best || s.bestOfDie f))
        (ds.all (fun d => !s.mayMigrate (some d) || !s.dieHasFree d))
  | .lpddr =>
    if live then s.migrateDue l pick (fun _ => none) (fun f => s.mayTake f false) (!s.mayMigrate none || !s.lpHasFree) else still

/-- The flags of a page told to the modules for which they have changed, and the record's index written into the leaf (R285,
R346; log 97). -/
def State.markLeaf (s : State) (l : LeafAt) : State :=
  let r := s.leafRec l
  let e := s.leafFrame l
  if s.leafKind l = 5 ∨ (r.dies.sum = 0 ∧ r.peers.isEmpty ∧ r.flags.isEmpty) then s
  else
    let flags := if s.leafHint l = 3 then []
      else r.flagged (s.leafHint l) ((s.migrations.filter (fun m => decide (m.old = e))).map (·.peer))
    let tell (s : State) (p : Peer) (on : Bool) : State :=
      s.post .armature { peer := p, agent := .armature } 1 (.moveFlag e on) 0 0
    let s1 := (flags.filter (fun p => !r.flags.contains p)).foldl (fun s p => tell s p true) s
    let s2 := (r.flags.filter (fun p => !flags.contains p)).foldl (fun s p => tell s p false) s1
    let idx := r.idx.getD (((List.range (s.pages.length + 1)).find? (fun i => !s.pages.any (fun p => p.idx = some i))).getD 0)
    let own := s.pageRec (s.recKey l)
    let w2 := s2.num (l.addr + 16) 8
    (s2.setPage { own with flags := flags, idx := some idx }).rawPut (l.addr + 16)
      (toBytes (w2 / 2 ^ 26 * 2 ^ 26 + idx % 2 ^ 26) 8)

/-- Every leaf in turn: its placement, a frame that several map being placed by the first of them, then its flags and index. -/
def State.placeAll (s : State) (cs : List PlaceChoice) (live : Bool) (done : List Nat) : List LeafAt → Option (State × List Nat)
  | [] => some (s, done)
  | l :: t =>
    let f := s.leafFrame l
    let placed := if s.leafKind l = 2 ∧ done.contains f then some s else s.placeDue cs live l
    placed.bind (fun s1 => (s1.markLeaf l).placeAll cs live (if s.leafKind l = 2 then done ++ [f] else done) t)

/-- The sealed ranges to whose pages on other modules no store of this one is outstanding: those modules are told, once (R57; log
103). -/
def State.tellQuiet (s : State) : State :=
  let quiet (r : Word × Word) : Bool := (List.range (r.2.toNat / 2 ^ 16)).all (fun i =>
    match s.walk (r.1.toNat + i * 2 ^ 16) with
    | .ok e => decide (e.peer = s.part.peer) || !s.writesAway e.peer (e.frame / 2 ^ 16)
    | .bad _ _ => true)
  let (out, keep) := s.mach.owesQuiet.partition quiet
  out.foldl (fun s r => s.others.foldl (fun s p =>
    s.post .armature { peer := p, agent := .armature } 1 (.sealQuiet r.1 r.2) 0 0) s) { s with mach := { s.mach with owesQuiet := keep } }

/-- The state with the machine of a job that is switched out in place of the running one's, which is put by; done again it is put
back. -/
def State.asJob (s : State) (j : Nat) : State :=
  match AMap.get s.saved j with
  | none => s
  | some m =>
    let rest := AMap.del s.saved j
    { s with running := some j, mach := m, saved := match s.running with
        | some r => AMap.set rest r s.mach
        | none => rest }

/-- The pages of one job placed: those of a job that a switch has stopped, or that is switched out, do not migrate (R282 to R287). -/
def State.placeJob (s : State) (cs : List PlaceChoice) (done : List Nat) (j : Nat) : Option (State × List Nat) :=
  let ls := s.leavesOf j
  if s.running = some j then
    (s.placeAll cs (!s.stopped) done ls).map (fun r => if s.stopped then r else (r.1.tellQuiet, r.2))
  else if (AMap.get s.saved j).isNone then some (s, done)
  else
    ((s.asJob j).placeAll cs false done ls).map (fun r =>
      (match s.running with
        | some k => r.1.asJob k
        | none => { r.1 with running := none, mach := s.mach, saved := AMap.set r.1.saved j r.1.mach }, r.2))

/-- The pages of several jobs in turn. -/
def State.placeJobs (s : State) (cs : List PlaceChoice) (done : List Nat) : List Nat → Option State
  | [] => some s
  | j :: t => (s.placeJob cs done j).bind (fun r => r.1.placeJobs cs r.2 t)

/-- EVALUATION (R283, R284): every 2^20 delivered cycles every page is placed by Table 14-6, in the frames that
the choices name, by the counts before they are halved, and every count is halved (log 45). -/
def execEvaluation (choices : List PlaceChoice) (s : State) : Out :=
  if s.now < s.placeAt + 2 ^ 20 then notEnabled "EVALUATION"
  else
    match s.placeJobs choices [] (s.jobs.map (·.1)) with
    | none => notEnabled "EVALUATION"
    | some s1 => .next { s1 with
        placeAt := s.now
        pages := s1.pages.map (fun r => { r with dies := r.dies.map (· / 2), peers := r.peers.map (fun q => (q.1, q.2 / 2)) }) }

/-! ### Migration (R58, R355) -/

/-- The engines of a core's tile and the core itself, as the sources that its drain markers stand for. -/
def sourcesOf (peer : Peer) (c : Nat) : List Place :=
  { peer := peer, agent := .core c } ::
    (if isGateway c then [] else (List.range 4).map (fun i => { peer := peer, agent := .engine (tileOf c * 4 + i) }))

/-- An access with its physical address changed. -/
def retarget (f : Nat → Nat) : Body → Body
  | .load pa n r => .load (f pa) n r
  | .ldFe t pa n r => .ldFe t (f pa) n r
  | .store k pa n d e => .store k (f pa) n d e
  | .atomic o pa n b x r => .atomic o (f pa) n b x r
  | .fetch t pa a b c => .fetch t (f pa) a b c
  | b => b

/-- The homes of a new frame to which an old home of the page forwards. -/
def State.homesFor (s : State) (from_ : Peer) (old : Nat) (dst : Peer) (new h : Nat) : List Nat :=
  (((s.frameHomes from_ old).zip (s.frameHomes dst new)).filter (fun e => e.1 = h)).map (·.2) |>.eraseDups

def State.newHomes (s : State) (m : Migration) (h : Nat) : List Nat := s.homesFor s.part.peer m.old m.peer m.new h

/-- A home of a module as one number, as a drain names it. -/
def viaOf (p : Peer) (h : Nat) : Nat := p.toNat * 2048 + h

/-- The core number under which a module's Armature says that every core of it has dropped a page (log 96). -/
def allCores : Nat := 65535

/-- The migration, already switched, whose old frame an access names. -/
def State.forwards (s : State) (p : Packet) : Option Migration :=
  match bodyPa p.body with
  | some pa => s.migrations.find? (fun m => m.switched && decide (m.old = pa / 2 ^ 16))
  | none => none

/-- The ticket of a fetch. -/
def fetchTicket (p : Packet) : Option Word :=
  match p.body with
  | .fetch t _ _ _ _ => some t
  | _ => none

/-- An access forwarded by an old home over the page's path to the new one (R58). The home that a ticket names keeps in mind
that its fetch is away (R281). -/
def State.forwardTo (s : State) (h : Nat) (m : Migration) (p : Packet) : State :=
  let f (pa : Nat) : Nat := m.new * 2 ^ 16 + pa % 2 ^ 16
  let dst := s.homeAtPeer m.peer (f ((bodyPa p.body).getD 0))
  let s1 :=
    match fetchTicket p with
    | some t =>
      if tkHomeOf t = h ∧ tkPeerOf t = s.part.peer then s.updHome h (fun q => { q with away := q.away ++ [t] }) else s
    | none => s
  s1.append { src := s.here (.home h), dst := { peer := m.peer, agent := .home dst }, cls := 4 }
    { p with body := retarget f p.body }

/-- A redemption notes the clock of its arrival in the perform queue (R161). -/
def stampArrival (now : Nat) (p : Packet) : Packet :=
  match p.body with
  | .redeem t dst _ => { p with body := .redeem t dst now }
  | _ => p

/-- An access arrives at its home: forwarded if its page has moved on, else into the perform queue. -/
def State.enterHome (s : State) (h : Nat) (p : Packet) : State :=
  match s.forwards p with
  | some m => s.forwardTo h m p
  | none => s.updHome h (fun q => { q with q := q.q ++ [stampArrival s.mach.clock p] })

/-- A snapshot read on another module: its lease counts from its arrival, since the clocks differ (log 87). -/
def stampForeign (now : Nat) (p : Packet) : Packet :=
  match p.body with
  | .fetched t snap => { p with body := .fetched t (snap.map (fun v => { v with at_ := now })) }
  | _ => p

/-- A home holds direct traffic of a source to a frame: a drain of that source is open for it. A streamer that may run commands of
every core, beside a memory slice or the inbound one of a tile, is a source until every core of its module is drained, and so is
any engine of another module (R58; log 96). -/
def Home.holds (q : Home) (src : Place) (p : Packet) : Bool :=
  let engine : Option Nat := match src.agent with
    | .engine n => some n
    | _ => none
  let shared := engine.any (fun n => decide (4096 ≤ n) || decide (n % 4 = 1))
  let source : Bool := match src.agent with
    | .core _ => true
    | _ => engine.isSome
  let to_ (f : Nat) : Bool := (bodyPa p.body).any (fun pa => decide (pa / 2 ^ 16 = f))
  q.draining.any (fun d => to_ d.new && (decide (d.src = src) || (shared && decide (d.src.peer = src.peer)))) ||
    (source && q.far.any (fun d => to_ d.new && decide (d.peer = src.peer) &&
      (engine.isSome || !d.done.contains src)))

/-- What a pair queue from `src` delivers to a home: held while a drain of that source is open for its frame, and so is what the
source sends behind it (R49, R53, R58). -/
def State.arriveHome (s : State) (h : Nat) (src : Place) (p0 : Packet) : State :=
  let p := if src.peer = s.part.peer then p0 else stampForeign s.mach.clock p0
  if (s.homeAt h).heldDirect.any (fun e => decide (e.1 = src)) || (s.homeAt h).holds src p then
    s.updHome h (fun q => { q with heldDirect := q.heldDirect ++ [(src, p)] })
  else s.enterHome h p

/-- The page's leaf rewritten to name a frame: KIND 5 where it lies on another module, KIND 2 on this one (R355, R349). -/
def State.rewriteLeaf (s : State) (peer : Peer) (new : Nat) (l : LeafAt) : State :=
  let w0 := s.num l.addr 8
  let w1 := s.num (l.addr + 8) 8
  let w0' := (w0 - bitsOf w0 51 16 * 2 ^ 16 + new % 2 ^ 36 * 2 ^ 16) % 2 ^ 61
  let move := bitsOf w0' 56 56 * 2 ^ 56
  if peer = s.part.peer then
    (s.rawPut l.addr (toBytes (w0' - move + 2 * 2 ^ 61) 8)).rawPut (l.addr + 8) (toBytes (w1 % 2 ^ 52) 8)
  else
    (s.rawPut l.addr (toBytes (w0' - move + 5 * 2 ^ 61) 8)).rawPut (l.addr + 8)
      (toBytes (w1 % 2 ^ 52 + peer.toNat * 2 ^ 52) 8 ++ toBytes 0 16)

/-- The cores that have run anything, and the clusters: all others hold no translation. -/
def State.users (s : State) : List Nat := (s.mach.cores.map (·.1)).filter (fun c => decide (c < 7296))

/-- The cores and L2 slices that hold a translation of a range. -/
def State.holders (s : State) (base len : Word) : List Agent :=
  ((s.users.filter (fun c => ((s.coreAt c).itlb ++ (s.coreAt c).dtlb).any (fun e => inRange base len e.page))).map Agent.core) ++
    ((s.mach.clusters.filter (fun e => e.2.l2.any (fun f => inRange base len f.page))).map (fun e => Agent.router e.1))

/-- Equinox of this module sends management traffic of no job to that of another one (Table 24-3). -/
def State.tellManagement (s : State) (b : Body) (peer : Peer) : State :=
  s.append { src := s.here .equinox, dst := { peer := peer, agent := .equinox }, cls := 0 }
    { body := b, src := s.here .equinox, job := 0, slot := 0, gen := 0 }

/-- A page of a range is migrating before its switch (R163, R288). -/
def State.movingIn (s : State) (base len : Word) : Bool :=
  s.migrations.any (fun m => !m.switched && (List.range (len.toNat / 2 ^ 16)).any (fun i =>
    match s.walk (base.toNat + i * 2 ^ 16) with
    | .ok e => decide (e.peer = s.part.peer) && decide (e.frame / 2 ^ 16 = m.old)
    | .bad _ _ => false))

/-- A module tells the old homes of another one's page that its cores, `n` of them, have dropped it (R355; log 96). -/
def State.dropAll (s : State) (p : Peer) (old n : Nat) : State :=
  (s.frameHomes p old).eraseDups.foldl (fun s h =>
    s.post .armature { peer := p, agent := .home h } 4 (.dropMarker allCores old n) 0 0) s

/-- A shootdown that no TLB has still to serve is complete: an invalidate command answers with status 0x0, or another module
that serves one is told (R353), as is one that serves a seal, once no page of it is migrating (R288); and of a page of another
module its old homes are told that this module has dropped it (log 96). -/
def State.endShoots (s : State) : State :=
  let waits (x : Shoot) : Bool := match x.why with
    | .sealFor _ => s.movingIn x.base x.len
    | _ => false
  let (done, open_) := s.shoots.partition (fun x => x.left.isEmpty && x.far.isEmpty && !waits x)
  done.foldl (fun s x => match x.why with
    | .invalidate j => s.eqxEvent 0 (BitVec.ofNat 64 j) s.time
    | .migration p old =>
      if p = s.part.peer ∨ open_.any (fun y => y.why = x.why) then s else s.dropAll p old x.cores
    | .remote p => s.tellManagement (.shootDone x.base x.len) p
    | .sealFor p => s.post .armature { peer := p, agent := .armature } 1 (.sealDone x.base x.len) 0 0
    | .seal => s) { s with shoots := open_ }

/-- The shootdown of a page whose leaf has been rewritten, for every core that may hold it. -/
def State.shootPage (s : State) (peer : Peer) (old : Nat) (l : LeafAt) : Shoot :=
  let base : Word := BitVec.ofNat 64 (l.page * 2 ^ 16)
  { base := base, len := 0x10000, why := .migration peer old, far := [], cores := s.users.length
    left := s.users.map Agent.core ++ (s.holders base 0x10000).filter
      (fun (x : Agent) => match x with | .router _ => true | _ => false) }

/-- The new homes on this module hold the direct traffic of every source of the partition until it is drained (R58). -/
def State.openDrains (s : State) (from_ : Peer) (old new : Nat) : State :=
  (s.frameHomes from_ old).eraseDups.foldl (fun s h =>
    (s.homesFor from_ old s.part.peer new h).foldl (fun s n => s.updHome n (fun q => { q with
      draining := q.draining ++ (s.users.map (fun c => (sourcesOf s.part.peer c).map (fun p =>
        ({ src := p, core := c, old := old, new := new, via := viaOf from_ h } : Drain)))).flatten
      far := q.far ++ s.others.map (fun p => { peer := p, old := old, new := new, via := viaOf from_ h, done := [] }) })) s) s

/-- The poison of a frame, by granule in it. -/
def State.poisonOfFrame (s : State) (f : Nat) : List (Nat × BitVec 2) :=
  (s.mach.poison.filter (fun e => decide (f * 2 ^ 12 ≤ e.1) && decide (e.1 < (f + 1) * 2 ^ 12))).map (fun e => (e.1 - f * 2 ^ 12, e.2))

/-- Poison put into a frame, by granule in it. -/
def State.putPoison (s : State) (f : Nat) (l : List (Nat × BitVec 2)) : State :=
  { s with mach := { s.mach with
    poison := l.foldl (fun (m : AMap (BitVec 2)) (e : Nat × BitVec 2) => AMap.set m (f * 2 ^ 12 + e.1) e.2) s.mach.poison } }

/-- MIGRATION_SWITCH (R355) of the page in frame `old`: it is copied, its leaves name the new frame in every tree of the partition, and its range
is shot down; what waits at the old homes is forwarded, and the new homes hold each source's direct traffic until it is
drained (log 14, log 96). -/
def execMigrationSwitch (old : Nat) (s : State) : Out :=
  match s.migrations.find? (fun m => m.old = old ∧ m.switched = false) with
  | none => notEnabled "MIGRATION_SWITCH"
  | some m =>
    let own := decide (m.peer = s.part.peer)
    let me := s.part.peer
    let leaves := s.leaves.filter (fun l => s.leafKind l = 2 ∧ s.leafFrame l = m.old)
    let bad := s.poisonOfFrame m.old
    let r := s.pageRec m.old
    let data := if own then [] else s.dram.bytes (m.old * 2 ^ 16) (2 ^ 16)
    let inOld (g : Nat) : Bool := decide (m.old * 2 ^ 12 ≤ g) && decide (g < (m.old + 1) * 2 ^ 12)
    let clean : State := { s with mach := { s.mach with poison := s.mach.poison.filter (fun e => !inOld e.1) } }
    let s1 := if own then ({ clean with dram := s.dram.copy (m.old * 2 ^ 16) (m.new * 2 ^ 16) (2 ^ 16) }).putPoison m.new bad else clean
    let s2 := leaves.foldl (fun s l => s.rewriteLeaf m.peer m.new l) s1
    let olds := (s.frameHomes me m.old).eraseDups
    let sources := s.users.map (fun c => s.here (.core c)) ++ s.others.map (fun p => ({ peer := p, agent := .armature } : Place))
    let m1 := { m with switched := true, undrained := (sources.map (fun x => olds.map (fun h => (x, h)))).flatten }
    let s3 : State := { s2 with
      migrations := (s2.migrations.map (fun (x : Migration) => if x.old = old ∧ x.switched = false then m1 else x)).filter
        (fun (x : Migration) => !(x.switched && x.undrained.isEmpty))
      shoots := s2.shoots ++ leaves.map (fun l => s.shootPage me m.old l) }
    let s4 := if own then s3.openDrains me m.old m.new else s3
    let s5 := olds.foldl (fun s h =>
      let goes (p : Packet) : Bool := (bodyPa p.body).any (fun pa => decide (pa / 2 ^ 16 = m.old))
      let (out, stay) := (s.homeAt h).q.partition goes
      out.foldl (fun s p => s.forwardTo h m1 p) (s.updHome h (fun q => { q with q := stay }))) s4
    let s6 := s.others.foldl (fun s p =>
      let there := decide (p = m.peer)
      s.post .armature { peer := p, agent := .armature } 1 (.pageMoved m.old m.new m.peer (if there then data else [])
        (if there then bad else []) (if there then r.dies else []) (if there then r.peers else [])) 0 0) s5
    let s7 := { s6 with pages := s6.pages.filter (fun p => p.page ≠ m.old) }
    let s8 := if own then s7.setPage { r with page := m.new, movedAt := some s.now, replicas := [], flags := [] } else s7
    .next s8.endShoots

/-- A page of another module has moved (R355; log 96): the leaves that named it name its new frame and are shot down here;
where it has come to this module, its bytes, poison and counts are put there and its homes wait for the drains. -/
def State.pageMoved (s : State) (src : Peer) (old new : Nat) (dst : Peer) (data : List Byte) (poison : List (Nat × BitVec 2))
    (dies : List Nat) (peers : List (Peer × Nat)) : State :=
  let mine := s.leaves.filter (fun l => s.leafKind l = 5 ∧ bitsOf (s.num (l.addr + 8) 8) 63 52 = src.toNat ∧ s.leafFrame l = old)
  let s1 := mine.foldl (fun s l => s.rewriteLeaf dst new l) s
  let s2 := { s1 with shoots := s1.shoots ++ mine.map (fun l => s.shootPage src old l) }
  let s3 := if dst ≠ s.part.peer then s2
    else
      let r := PageRec.fresh new
      (((s2.rawPut (new * 2 ^ 16) data).putPoison new poison).setPage { r with
        dies := dies, peers := peers, movedAt := some s.now }).openDrains src old new
  let s4 := if mine.isEmpty then s3.dropAll src old 0 else s3
  let came (i : Incoming) : Incoming := if i.peer = src ∧ i.old = old ∧ i.new = new ∧ dst = s.part.peer then { i with here := true } else i
  { s4 with incoming := s4.incoming.map came }.endShoots

/-- Another module asks for a frame for a page of its own that is to come here: Armature picks one of those that Table 14-6 allows on
any die of HBM (log 141), or there is none, or no migration may start (R284, R287). -/
def State.takePageAsk (s : State) (from_ : Peer) (old : Nat) : State :=
  let ok (f : Nat) : Bool := isHbm f && s.mayTake f true && s.bestOfDie f && s.mayMigrate (some (s.homeDie f))
  let f := Config.pickFrame s.free
  let pick := if s.running.isNone ∨ s.stopped then none else if ok f then some f else (s.freeFrames true).find? ok
  let s1 : State := { s with
    free := s.free + 1
    incoming := s.incoming ++ (pick.map (fun f => ({ peer := from_, old := old, new := f, here := false } : Incoming))).toList }
  s1.post .armature { peer := from_, agent := .armature } 1 (.pageRoom old pick) 0 0

/-- The answer: the page's migration to that frame begins, unless it is not to move any more, which gives the frame back (R284,
R287). -/
def State.takePageRoom (s : State) (from_ : Peer) (old : Nat) (new : Option Nat) : State :=
  let s1 : State := { s with pageAsks := s.pageAsks.filter (fun a => !(decide (a.1 = old) && decide (a.2 = from_))) }
  let may := s.pageAsks.any (fun a => decide (a = (old, from_))) && s.switch.isNone &&
    s.leaves.any (fun l => decide (s.leafKind l = 2) && decide (s.leafFrame l = old) && decide (bitsOf (s.num l.addr 8) 57 57 = 0))
  match new with
  | none => s1
  | some f =>
    if may then s1.beginMigration old f from_
    else s1.post .armature { peer := from_, agent := .armature } 1 (.pageBack old f) 0 0

/-- A frame is given back. -/
def State.takePageBack (s : State) (from_ : Peer) (old new : Nat) : State :=
  { s with incoming := s.incoming.filter (fun i => !(decide (i.peer = from_) && decide (i.old = old) && decide (i.new = new))) }

/-- The move flag of this module for a frame of another: in the leaves that name it (R285, R346). -/
def State.putMove (s : State) (src : Peer) (frame : Nat) (on : Bool) : State :=
  (s.leaves.filter (fun l => s.leafKind l = 5 ∧ bitsOf (s.num (l.addr + 8) 8) 63 52 = src.toNat ∧ s.leafFrame l = frame)).foldl
    (fun s l =>
      let w0 := s.num l.addr 8
      s.rawPut l.addr (toBytes (w0 - bitsOf w0 56 56 * 2 ^ 56 + (if on then 2 ^ 56 else 0)) 8)) s

/-- A source's drop marker has reached an old home: with the last of all the old frame is free (R355). -/
def State.undrain (s : State) (old : Nat) (src : Place) (h : Nat) : State :=
  let ms := s.migrations.map (fun (x : Migration) =>
    if x.old = old then { x with undrained := x.undrained.filter (fun e => e ≠ (src, h)) } else x)
  { s with migrations := ms.filter (fun x => !(x.switched && x.undrained.isEmpty)) }

/-- Drain markers for sources go to the new homes of a page, behind what the old home has forwarded (R58). -/
def State.sendDrains (s : State) (h : Nat) (m : Migration) (c : Nat) (srcs : List Place) : State :=
  (s.newHomes m h).foldl (fun s n => srcs.foldl (fun s src =>
    s.post (.home h) { peer := m.peer, agent := .home n } 4 (.drainMarker src c m.old (viaOf s.part.peer h)) 0 0) s) s

/-- What has come at an old home from another module: the drop marker of a core, or its Armature's word how many there are
(log 96). -/
def Migration.mark (m : Migration) (peer : Peer) (h : Nat) (due : Option Nat) : Migration :=
  let old := (m.far.find? (fun e => decide (e.peer = peer) && decide (e.home = h))).getD
    { peer := peer, home := h, got := 0, due := none }
  let new := if due.isSome then { old with due := due } else { old with got := old.got + 1 }
  { m with far := new :: m.far.filter (fun e => !(decide (e.peer = peer) && decide (e.home = h))) }

/-- Every drop marker of another module has come at an old home. -/
def Migration.allMarks (m : Migration) (peer : Peer) (h : Nat) : Bool :=
  m.far.any (fun e => decide (e.peer = peer) && decide (e.home = h) && e.due.any (fun n => decide (n ≤ e.got)))

/-- DROP_MARKER (R355): a core's drop marker has reached an old home behind every access that the core translated with the
old leaf; the home sends the drain markers of the core and its engines after what it has forwarded, and that of a whole
module once the drop markers of all its cores have come. The old frame is free once every source has been drained. -/
def execDropMarker (h : Nat) (s : State) : Out :=
  match s.takeHome h with
  | some (p, s0) =>
    match p.body with
    | .dropMarker c old n =>
      match s.migrations.find? (fun m => m.old = old ∧ m.switched) with
      | none => .next s0
      | some m =>
        let s1 := if c = allCores then s0 else s0.sendDrains h m c (sourcesOf p.src.peer c)
        if p.src.peer = s.part.peer then .next (s1.undrain old p.src h)
        else
          let m1 := m.mark p.src.peer h (if c = allCores then some n else none)
          let s2 := { s1 with migrations := s1.migrations.map (fun (x : Migration) => if x = m then m1 else x) }
          let arm : Place := { peer := p.src.peer, agent := .armature }
          if m1.allMarks p.src.peer h then .next ((s2.sendDrains h m1 allCores [arm]).undrain old arm h) else .next s2
    | _ => notEnabled "DROP_MARKER"
  | none => notEnabled "DROP_MARKER"

/-- The direct traffic that no drain holds any more goes on, in order of arrival, but for what a source sent behind something still
held. -/
def State.releaseHeld (s : State) (h : Nat) : State :=
  let q := s.homeAt h
  let (stay, go) := q.heldDirect.foldl (fun (acc : List (Place × Packet) × List (Place × Packet)) e =>
    if q.holds e.1 e.2 || acc.1.any (fun x => decide (x.1 = e.1)) then (acc.1 ++ [e], acc.2) else (acc.1, acc.2 ++ [e])) ([], [])
  go.foldl (fun s e => s.enterHome h e.2) (s.updHome h (fun q => { q with heldDirect := stay }))

/-- A page that has come to this module, and for whose frame no home waits for a drain marker any more, is no longer in migration
(R58, R287). -/
def State.settleIncoming (s : State) : State :=
  { s with incoming := s.incoming.filter (fun i => !i.here || s.mach.homes.any (fun e =>
      e.2.draining.any (fun d => decide (d.new = i.new)) || e.2.far.any (fun d => decide (d.new = i.new)))) }

/-- DRAIN_MARKER (R58): the source's direct traffic is held no longer on that account. -/
def execDrainMarker (h : Nat) (s : State) : Out :=
  match s.takeHome h with
  | some (p, s0) =>
    match p.body with
    | .drainMarker src c old via =>
      let far (d : FarDrain) : FarDrain :=
        if d.peer = src.peer ∧ d.old = old ∧ d.via = via then { d with done := d.done ++ [src] } else d
      .next (((s0.updHome h (fun q => { q with
        draining := q.draining.filter (fun d => !(decide (d.src = src) && decide (d.core = c) && decide (d.old = old) && decide (d.via = via)))
        far := if c = allCores then q.far.filter (fun d => !(d.peer = src.peer ∧ d.old = old ∧ d.via = via)) else q.far.map far
        })).releaseHeld h).settleIncoming)
    | _ => notEnabled "DRAIN_MARKER"
  | none => notEnabled "DRAIN_MARKER"

/-! ### Shootdowns (R353, R355) -/

/-- A core has something in hand that names a page by its frame before its switch: a tile command not yet complete that carries an
address word inside it, wherever it is, or a scaled load whose elements are still to be read (R355). -/
def State.inPage (s : State) (c : Nat) (peer : Peer) (old : Nat) : Bool :=
  (s.coreAt c).cmds.any (fun x => cmdNames x peer old) ||
    (List.range (slotCount c)).any (fun l => (s.slotAt c l).loads.any (fun v =>
      decide (v.peer = peer) && v.later.any (fun a => decide (a.1 / 2 ^ 16 = old))))

/-- A range dropped from the TLBs of one core, or from one cluster's L2 slices. -/
def State.dropTlb (s : State) (who : Agent) (base len : Word) : State :=
  let f (l : List TlbE) : List TlbE := l.filter (fun e => !inRange base len e.page)
  match who with
  | .core c => s.updCore c (fun k => { k with itlb := f k.itlb, dtlb := f k.dtlb })
  | .router c => s.updCluster c (fun k => { k with l2 := f k.l2 })
  | _ => s

/-- A core that has dropped a migrating page for the last time sends its drop marker to each old home (R355). -/
def State.sendDrops (s : State) (c : Nat) (x : Shoot) : State :=
  match x.why with
  | .migration p old =>
    if s.shoots.any (fun y => y.why = x.why ∧ y.left.contains (.core c)) then s
    else (s.frameHomes p old).eraseDups.foldl (fun s h =>
      s.post (.core c) { peer := p, agent := .home h } 4 (.dropMarker c old 0) 0 0) s
  | _ => s

/-- TLB_SHOOTDOWN: a core or a cluster's L2 slices drop the range of a shootdown that is waiting for them; a core keeps a
migrating page while a command or load of its own names it (R353, R355). -/
def execTlbShootdown (who : Agent) (base len : Word) (s : State) : Out :=
  match s.shoots.find? (fun x => x.base = base ∧ x.len = len ∧ x.left.contains who) with
  | none => notEnabled "TLB_SHOOTDOWN"
  | some x =>
    let busy := match who, x.why with
      | .core c, .migration p old => s.inPage c p old
      | _, _ => false
    if busy then notEnabled "TLB_SHOOTDOWN"
    else
      let s1 := s.dropTlb who base len
      let s2 : State := { s1 with shoots := s1.shoots.map (fun (y : Shoot) => if y = x then { y with left := y.left.filter (· ≠ who) } else y) }
      let s3 := match who with
        | .core c => s2.sendDrops c x
        | _ => s2
      .next s3.endShoots

/-- A shootdown of a range for every TLB of this module that holds some of it, and for other modules; it may be complete at
once. -/
def State.shoot (s : State) (base len : Word) (why : ShootWhy) (far : List Peer) : State :=
  let x : Shoot := { base := base, len := len, why := why, left := s.holders base len, far := far, cores := 0 }
  { s with shoots := s.shoots ++ [x] }.endShoots

/-- An invalidate command of the running job: on every module that holds it (R353). -/
def State.invalidate (s : State) (j : Nat) (base len : Word) : State :=
  let s1 := s.others.foldl (fun s p => s.tellManagement (.shootReq s.job.tag base len) p) s
  s1.shoot base len (.invalidate j) s.others

/-- Another module's Equinox serves an invalidate command: its range is shot down here, unless the job does not run here,
when no TLB holds anything of it (R353, Table 23-7). -/
def State.takeShoot (s : State) (from_ : Peer) (tag : BitVec 16) (base len : Word) : State :=
  if s.running.isSome ∧ s.job.tag = tag then s.shoot base len (.remote from_) [] else s.tellManagement (.shootDone base len) from_

/-- Another module has completed an invalidate command that this one serves. -/
def State.shootEnds (s : State) (from_ : Peer) (base len : Word) : State :=
  match takeFirst (fun (x : Shoot) => decide (x.base = base) && decide (x.len = len) && x.far.contains from_) s.shoots with
  | some (x, rest) => { s with shoots := { x with far := x.far.filter (· ≠ from_) } :: rest }.endShoots
  | none => s

/-! ### Sealing (R57, R163, R282) -/

/-- The pages of a range. -/
def pagesOf (base len : Word) : List Nat := (List.range (len.toNat / 2 ^ 16)).map (· + base.toNat / 2 ^ 16)

/-- A leaf of the port region, which is never sealed (R321). -/
def State.portLeaf (s : State) (l : LeafAt) : Bool :=
  decide (portBase ≤ s.leafFrame l * 2 ^ 16) && decide (s.leafFrame l * 2 ^ 16 < portEnd)

/-- The SEAL bit of the leaf that maps a page, if any, set or cleared (log 46). -/
def State.putSeal (s : State) (on : Bool) (page : Nat) : State :=
  match s.leafOf (page * 2 ^ 16) with
  | none => s
  | some l =>
    if s.portLeaf l then s else
    let w0 := s.num l.addr 8
    s.rawPut l.addr (toBytes (w0 - bitsOf w0 57 57 * 2 ^ 57 + (if on then 2 ^ 57 else 0)) 8)

/-- The status of a seal or unseal: 2 a page without write permission, 1 a page not present, or skipped because it is of the
port region (R321; log 98), 0 else (R163). -/
def State.sealStatus (s : State) (base len : Word) : Nat :=
  let ws := (pagesOf base len).map (fun p => s.walk (p * 2 ^ 16))
  if ws.any (fun w => match w with | .ok e => !e.w | _ => false) then 2
  else if ws.any (fun w => match w with | .bad _ _ => true | .ok e => decide (portBase ≤ e.frame)) then 1 else 0

/-- The other modules of the partition are asked for their part of a seal or unseal (R57, R163; log 103). -/
def State.askSeal (s : State) (a : SealAct) (base len : Word) : State :=
  s.others.foldl (fun s p => s.post .armature { peer := p, agent := .armature } 1 (.sealRange a base len) 0 0) s

/-- The leaves of a range that is sealed, and its shootdown; until they say so, stores of other modules translated before it may
still be on their way, and so may this module's to them (R57; log 103). -/
def State.sealLeaves (s : State) (base len : Word) (why : ShootWhy) : State :=
  let s1 := (pagesOf base len).foldl (fun s p => s.putSeal true p) s
  let m := s1.mach
  let s2 := if s.others.isEmpty then s1
    else { s1 with mach := { m with unquiet := m.unquiet ++ s.others.map (fun p => (p, base, len)), owesQuiet := m.owesQuiet ++ [(base, len)] } }
  s2.shoot base len why []

/-- Another module's stores to a sealed range have all been performed (R57; log 103). -/
def State.takeQuiet (s : State) (from_ : Peer) (base len : Word) : State :=
  let l := match takeFirst (fun (q : Peer × Word × Word) => decide (q = (from_, base, len))) s.mach.unquiet with
    | some (_, r) => r
    | none => s.mach.unquiet
  { s with mach := { s.mach with unquiet := l } }

/-- Armature receives a request (R163): a seal marks the leaves and shoots the range down, an unseal has the replicas of the
other modules invalidated; it completes in its turn. -/
def State.beginSeal (s : State) (on : Bool) (base len treply : Word) (core level : Nat) : State :=
  let st := s.sealStatus base len
  let q : SealReq :=
    { on := on, status := st, base := base, len := len, treply := treply, core := core, level := level
      far := if st = 2 then [] else s.others, ending := false }
  let s1 := { s with mach := { s.mach with seals := s.mach.seals ++ [q] } }
  if st = 2 then s1
  else if on then (s1.askSeal .mark base len).sealLeaves base len .seal
  else s1.askSeal .invalidate base len

/-- The class-1 completion of a seal or unseal; under ERRONLY status 0 sends none (R163). -/
def State.endSeal (s : State) (q : SealReq) : State :=
  if q.status = 0 ∧ q.treply.getLsbD 0 then s
  else s.post .armature (s.here (.core q.core)) 1
    (.completion q.treply (BitVec.ofNat 64 q.status) 0 0 false false q.level 0 []) 0 0

/-- SEAL_COMPLETION: every TLB has dropped the range, and no page of it is migrating before its switch (R163, R288). -/
def execSealCompletion (s : State) : Out :=
  match s.mach.seals with
  | q :: rest =>
    if s.running.isNone ∨ q.on = false ∨ !q.far.isEmpty ∨ s.shoots.any (fun x => x.why = .seal ∧ x.base = q.base ∧ x.len = q.len) ∨
        s.movingIn q.base q.len then notEnabled "SEAL_COMPLETION"
    else .next (({ s with mach := { s.mach with seals := rest } }).endSeal q)
  | [] => notEnabled "SEAL_COMPLETION"

/-- The replicas of a virtual page's frame are invalid and their memory is returned (R282). -/
def State.dropReplicas (s : State) (page : Nat) : State :=
  match s.walk (page * 2 ^ 16) with
  | .ok e => { s with pages := s.pages.map (fun r => if r.page = e.frame / 2 ^ 16 then { r with replicas := [] } else r) }
  | .bad _ _ => s

/-- The leaves of a range are no longer sealed, and no TLB of this module holds it sealed. -/
def State.endSealed (s : State) (base len : Word) : State :=
  let s1 := (pagesOf base len).foldl (fun s p => s.putSeal false p) s
  (s1.holders base len).foldl (fun s w => s.dropTlb w base len) s1

/-- UNSEAL_COMPLETION: every replica is invalid, the leaves are no longer sealed, and no TLB holds the range sealed (R163,
R57). With other modules in the partition it takes two steps: with the replicas of all of them invalid they are asked to end the
seal, and with that done everywhere it ends here and completes (log 103). -/
def execUnsealCompletion (s : State) : Out :=
  match s.mach.seals with
  | q :: rest =>
    if q.on ∨ !q.far.isEmpty ∨ s.running.isNone then notEnabled "UNSEAL_COMPLETION"
    else if q.status = 2 then .next (({ s with mach := { s.mach with seals := rest } }).endSeal q)
    else
      let s1 := (pagesOf q.base q.len).foldl (fun s p => s.dropReplicas p) s
      if q.ending = false ∧ !s.others.isEmpty then
        let q1 : SealReq := { q with ending := true, far := s.others }
        .next ({ s1 with mach := { s1.mach with seals := q1 :: rest } }.askSeal .clear q.base q.len)
      else .next (({ s1 with mach := { s1.mach with seals := rest } }.endSealed q.base q.len).endSeal q)
  | [] => notEnabled "UNSEAL_COMPLETION"

/-- Another module's Armature asks for this module's part of a seal or unseal (R57, R163; log 103). -/
def State.takeSeal (s : State) (from_ : Peer) (a : SealAct) (base len : Word) : State :=
  match a with
  | .mark => s.sealLeaves base len (.sealFor from_)
  | .invalidate =>
    let s1 := (pagesOf base len).foldl (fun s p => s.dropReplicas p) { s with mach := { s.mach with
      unsealing := s.mach.unsealing ++ [(from_, base, len)] } }
    s1.post .armature { peer := from_, agent := .armature } 1 (.sealDone base len) 0 0
  | .clear =>
    let l := s.mach.unsealing
    let rest := match takeFirst (fun (q : Peer × Word × Word) => decide (q = (from_, base, len))) l with
      | some (_, r) => r
      | none => l
    ({ s with mach := { s.mach with unsealing := rest } }.endSealed base len).post .armature
      { peer := from_, agent := .armature } 1 (.sealDone base len) 0 0

/-- A module has answered for its part of the first seal or unseal of a range that waits for it. -/
def answerSeal (from_ : Peer) (base len : Word) : List SealReq → List SealReq
  | [] => []
  | q :: t =>
    if q.base = base ∧ q.len = len ∧ q.far.contains from_ then { q with far := q.far.filter (· ≠ from_) } :: t
    else q :: answerSeal from_ base len t

def State.sealAnswered (s : State) (from_ : Peer) (base len : Word) : State :=
  { s with mach := { s.mach with seals := answerSeal from_ base len s.mach.seals } }

/-! ### Walks (R352) -/

/-- PAGE_WALK: the page that a core's TLB misses is looked up in the L2 slices and in the tree, and an entry found fills them; a
walk that finds none caches nothing, and the access faults by its own check (R347, R351, R352). -/
def execPageWalk (c : Nat) (va : Word) (fetch : Bool) (s : State) : Out :=
  let k := s.coreAt c
  if s.running.isNone ∨ s.part.coreLive c = false ∨ 2 ^ 56 ≤ va.toNat ∨
      (if fetch then k.itlb else k.dtlb).any (fun e => e.page = va.toNat / 2 ^ 16) then notEnabled "PAGE_WALK"
  else .next (s.lookup c va.toNat fetch).1

end Sys2Proof.Machine
end

