-- ==== Sys2Proof/Machine/Reliability.lean ====
section
/-! DEFINITION. Errors and declarations, the job boundary, boot and power (chapters 26 and 27). -/

namespace Sys2Proof.Machine

open Sys2Proof

/-! ### The disable list and the job boundary (R377, R378) -/

/-- Bits of a mask cleared. -/
def clearBits {w : Nat} (m : BitVec w) (ns : List Nat) : BitVec w := ns.foldl (fun m n => m &&& ~~~(1#w <<< n)) m

/-- A declared unit taken out of the part (Table 26-1). -/
def Part.without (p : Part) (ukind unit : Nat) : Part :=
  let tile (t : Nat) : Part := { p with tiles := clearBits p.tiles [t] }
  match ukind with
  | 0 => if isGateway unit then { p with gates := clearBits p.gates [unit - 7168] } else tile (tileOf unit)
  | 1 => tile unit
  | 2 => tile unit
  | 3 => tile unit
  | 4 => if unit < 1280 then { p with hbm := clearBits p.hbm [unit - 1024] } else { p with lp := clearBits p.lp [unit - 1280] }
  | 5 => { p with tiles := clearBits p.tiles ((List.range 16).map (· + 16 * unit)) }
  | 6 =>
    if unit < 48 then { p with lanes := clearBits p.lanes ((List.range 4).map (· + 4 * unit)) }
    else if unit < 112 then { p with fibres := clearBits p.fibres [unit - 48] }
    else { p with waves := clearBits p.waves [unit - 112] }
  | _ => p

/-- Flat regions and withheld stripes by the live slices: 3,056 MiB of an HBM slice and 32,752 MiB of an LPDDR6 slice are
addressable (R276). -/
def Part.resize (p : Part) : Part :=
  let h := liveCount p.hbm * (3056 * 2 ^ 20)
  let l := liveCount p.lp * (32752 * 2 ^ 20)
  { p with flatH := h / 2 ^ 30 * 2 ^ 30, withH := h % 2 ^ 30, flatL := l / 2 ^ 30 * 2 ^ 30, withL := l % 2 ^ 30 }

/-- Where a byte of a tier lies: its live slice, counted from 0, and its byte there (R275). -/
def slicePlace (n o : Nat) : Nat × Nat := (o / 4096 % max 1 n, o / 4096 / max 1 n * 4096 + o % 4096)

/-- The tier's byte at a live slice and a byte of it (R275). -/
def placeOffset (n k b : Nat) : Nat := (b / 4096 * n + k) * 4096 + b % 4096

/-- The cells of a tier at the addresses that they have once its live slices have changed: a byte stays in its slice, and
those of a slice that is no longer live are gone (R275). -/
def resliced {w : Nat} (base size : Nat) (old new : BitVec w) (m : Memory) : Memory :=
  if old = new then m
  else
    let mine (c : Host.Cell) : Bool := decide (base ≤ c.1) && decide (c.1 < base + size)
    let live := (List.range w).filter (fun i => new.getLsbD i)
    (m.filter mine).foldl (fun acc c =>
      let (k, b) := slicePlace (liveCount old) (c.1 - base)
      match live.idxOf? (nthLive old k) with
      | some i => acc.put (base + placeOffset live.length i b) c.2
      | none => acc) (m.filter (fun c => !mine c))

/-- The pending entries of the disable list are applied and marked, the regions resized, and what the slices hold appears at
its new addresses (R378, R275). -/
def State.applyDisables (s : State) : State :=
  let p := s.eqx.disable.foldl (fun (p : Part) e => if e.applied then p else p.without e.ukind e.unit) s.part
  { s with
    part := p.resize
    dram := resliced lpBase (s.part.flatL + s.part.withL) s.part.lp p.lp
      (resliced hbmBase (s.part.flatH + s.part.withH) s.part.hbm p.hbm s.dram)
    eqx := { s.eqx with disable := s.eqx.disable.map (fun e => { e with applied := true }) } }

/-- The live indices of a mask. -/
def liveList {w : Nat} (m : BitVec w) : List Nat := (List.range w).filter (fun i => m.getLsbD i)

/-- This module's entry of the peer layout table (R349). -/
def Part.layout (p : Part) : PeerLayout :=
  { hbm := liveList p.hbm, lp := liveList p.lp, flatH := p.flatH, flatL := p.flatL, withheldH := p.withH, withheldL := p.withL
    tiles := liveList p.tiles }

/-- Equinox sends this module's entry to the Equinox of another module (R349). -/
def State.sendLayout (s : State) (peer : Peer) : State := s.tellManagement (.layout s.part.layout) peer

/-- The other modules of the partition: those that the peer map does not have outside it (Table 24-6). -/
def State.partition (s : State) : List Peer :=
  (s.peers.filter (fun e => decide (32 ≤ e.2.toNat) && decide (e.1 ≠ s.part.peer.toNat))).map (fun e => BitVec.ofNat 12 e.1)

/-- The job boundary: no job exists, and what is pending is applied (R378); this module's layout then goes to every module
of the partition (R349). -/
def State.jobBoundary (s : State) : State :=
  if s.jobs.isEmpty then
    let s1 := if s.eqx.disable.any (fun e => !e.applied) then s.applyDisables else s
    s1.partition.foldl State.sendLayout s1
  else s

/-- A declaration while the module holds no job: the boundary is at hand (R378). -/
def State.boundaryDue (s : State) : State := if s.eqx.disable.any (fun e => !e.applied) then s.jobBoundary else s

/-! ### Errors (R375, R376) -/

/-- The fatal causes of a unit's uncorrectable error that have a record of their own (Table 22-1); 0 stands for a corrected
error. -/
def errorCauses : List Nat := [0, 0x1C0, 0x1C1, 0x1C2, 0x1C3, 0x1C4, 0x1C5, 0x1C6]

/-- A unit number of a kind (Table 22-2, R375; log 34). -/
def unitExists (k u : Nat) : Bool :=
  match k with
  | 0 => decide (u < 7296)
  | 1 => decide (u < 1024)
  | 2 => decide (u < 1024)
  | 3 => decide (u < 1024)
  | 4 => decide (1024 ≤ u) && decide (u < 1328)
  | 5 => decide (u < 66)
  | 6 => decide (u < 112 + 1024)
  | 7 => decide (u = 0)
  | _ => false

/-- An engine's command stops with status 0x1C0 (R233): every command that an engine of the unit runs takes that code. -/
def State.stopEngines (s : State) (k u : Nat) : State :=
  let es := if k = 1 then [4 * u] else if k = 2 then [4 * u + 1, 4 * u + 2, 4 * u + 3] else []
  es.foldl (fun s e =>
    match AMap.get s.mach.engines e with
    | none => s
    | some n => (n.runs.filter (fun r => decide (r.status = 0))).foldl
        (fun s r => s.putRun e { r with status := 0x1C0, more := false }) s) s

/-- ERROR_DETECTED: an error is counted in its unit's window, and declares the unit at the threshold; an uncorrectable one emits
its record with the window count, and stops an engine's command (R375, R376). -/
def execErrorDetected (k u cause : Nat) (addr : Word) (s : State) : Out :=
  if unitExists k u = false ∨ errorCauses.contains cause = false ∨ (cause = 0x1C0 ∧ k ≠ 1 ∧ k ≠ 2) then
    notEnabled "ERROR_DETECTED"
  else
    let s1 := s.countError k u
    if cause = 0 then .next s1.boundaryDue
    else
      let job := if cause = 0x1C1 then 0 else s.job.tag
      let s2 := s1.emit (s1.unitRec k u cause job 0 addr (s1.unitAt k u).window)
      .next (if cause = 0x1C0 then s2.stopEngines k u else s2).boundaryDue

/-- WINDOW_RESTART: a unit's window restarts every 2^31 delivered cycles, and a changed threshold takes effect (R375, R380).
Nothing waits for this step: a unit whose window has ended is already read, and counted in, as restarted (`State.inWindow`).
-/
def execWindowRestart (k u : Nat) (s : State) : Out :=
  let n := s.now / 2 ^ 31
  match s.units.find? (fun e => e.ukind = k ∧ e.unit = u) with
  | some e => if unitExists k u = false ∨ n ≤ e.windowAt then notEnabled "WINDOW_RESTART" else .next (s.updUnit k u id)
  | none => notEnabled "WINDOW_RESTART"

/-! ### Boot (R383 to R386) -/

/-- A field of the firmware image: `n` bytes at an offset, little-endian (Table 27-2). -/
def imageField (img : List Byte) (off n : Nat) : Nat := ofBytes ((img.drop off).take n)

/-- The code of boot step 2 (R384): 0x02 where the image is not one or its signature fails, 0x03 where its version is below the
fused minimum, 0 where it is accepted. -/
def imageCode (keyHash : BitVec 256) (minVersion : Nat) (img : List Byte) : Nat :=
  let len := imageField img 8 8
  let body := (img.drop 192).take len
  let holds := ecdsaHolds (imageField img 64 32) (imageField img 96 32) (sha256 (img.take 64 ++ body)).toNat
    (imageField img 128 32) (imageField img 160 32)
  if img.length < 192 ∨ imageField img 0 4 ≠ 0x45514E58 ∨ len % 4096 ≠ 0 ∨ 16 * 2 ^ 20 < len ∨ img.length < 192 + len ∨
      imageField img 16 48 ≠ 0 ∨ sha256 ((img.drop 64).take 64) ≠ keyHash ∨ holds = false then 0x02
  else if imageField img 4 4 < minVersion then 0x03 else 0

/-- Some compute die is live: some tile of it is (R21). -/
def Part.anyDie (p : Part) : Bool := decide (liveCount p.tiles ≠ 0)

/-- A part with another peer number, and with no fence. -/
def Part.withPeer (p : Part) (n : Peer) : Part := { p with peer := n }
def Part.unfenced (p : Part) : Part := { p with fenced := [] }

def Eqx.withDisable (e : Eqx) (l : List DEntry) : Eqx := { e with disable := l }

/-- Power is applied, or the module is reset: everything but fuses, boot storage and the host's memory is as at reset (R383;
log 43). -/
def State.restart (s : State) : State :=
  let e : Eqx := { Eqx.reset with
    disable := s.eqx.disable, keyHash := s.eqx.keyHash, minVersion := s.eqx.minVersion, image := s.eqx.image
    signs := s.eqx.signs }
  { State.reset with
    turns := s.turns, free := s.free, host := s.host, part := s.fused.withPeer s.part.peer, fused := s.fused, eqx := e }

/-- The boot sequence stops with a code (R383). -/
def State.bootFails (s : State) (code : Nat) : State := { s with eqx := { s.eqx with bootRan := true, bootCode := code } }

/-- A unit that fails training at step 4 is on the disable list as declared, with its record (R383, R376). -/
def State.failTraining (s : State) (u : Nat × Nat) : State := s.declareUnit u.1 u.2

/-- Wavelengths of a fibre that are live in the part (R21). -/
def Part.waveMask (p : Part) (f : Nat) : BitVec 16 := if p.fibres.getLsbD f then (p.waves >>> (16 * f)).setWidth 16 else 0

/-- A link newly brought up: its counters, mask and key number stay, all else is as at bring-up (R362, R369). -/
def Link.bringUp (l : Link) (peer : Peer) (live : BitVec 16) (group : Nat) : Link :=
  { Link.reset with
    up := true, peer := peer, liveRx := live, liveTx := live, intmask := l.intmask, intNow := l.intNow, replays := l.replays
    drops := l.drops, e2eDup := l.e2eDup, linkDup := l.linkDup, dark := l.dark, lossAt := l.lossAt, control := l.control
    key := l.key + 1, keyRx := l.keyRx + 1, group := group }

/-- The wavelengths of a fibre, or the lanes of a port, that a training may bring up: those live in the part, from which a declared
one goes at the job boundary (R377). -/
def State.trainable (s : State) (n : Nat) : BitVec 16 :=
  if n < 48 then (s.part.lanes >>> (4 * n)).setWidth 16 &&& 0x000F else s.part.waveMask (n - 48)

/-- The live list of the sent direction of a fibre or port after a training, as its far end has reported it (R364). -/
def State.farReport (s : State) (n : Nat) : BitVec 16 := Config.farLight (s.free * 128 + n) &&& s.trainable n

/-- An electrical port trained: the lanes on which it finds the far end are live, and a port that was down is brought up, in
integrity mode only towards a module of the same panel (R362, R369); with no lane it is down. -/
def State.trainPort (s : State) (n : Nat) (light : BitVec 16) : State :=
  let live := light &&& s.trainable n
  let l := s.linkAt n
  let far := Config.portPeer s.part.peer n
  if live = 0 then
    { s.updLink n (fun l => { l with liveRx := 0, liveTx := s.farReport n }) with free := s.free + 1 }.linkDown n
  else
    let l0 := if l.up then { l with liveRx := live } else
      { l.bringUp far live 0 with intNow := if Config.samePanel s.part.peer far then l.intmask else 0 }
    ({ s.updLink n (fun _ => { l0 with liveTx := s.farReport n }) with free := s.free + 1 }).mapElec

/-- POWER_ON: Equinox runs the boot sequence (Table 27-1); with what training finds at steps 4 and 6. A fibre trains when a plan lights it (R368; log 106). -/
def execPowerOn (fuseOk linkOk : Bool) (found : Training) (s : State) : Out :=
  if s.eqx.rails ∧ s.eqx.bootRan then notEnabled "POWER_ON"
  else if found.failed.any (fun u => !unitExists u.1 u.2) ∨ found.light.any (fun u => decide (48 ≤ u.1)) then notEnabled "POWER_ON"
  else
    let s0 := s.restart
    let e := s0.eqx
    let code := imageCode e.keyHash e.minVersion e.image
    if fuseOk = false then .next (s0.bootFails 0x01)
    else if code ≠ 0 then .next (s0.bootFails code)
    else
      let s1 := { s0 with eqx := { e with fwver := imageField e.image 4 4 } }
      if linkOk = false then .next (s1.bootFails 0x04)
      else
        let kept := s1.eqx.disable.filter (fun d => !d.cleared)
        let lost (p : Part) : Part := found.failed.foldl (fun (p : Part) u => p.without u.1 u.2) p
        let s2 := found.failed.foldl State.failTraining { s1 with eqx := s1.eqx.withDisable kept }
        if (lost s1.part).anyDie = false then .next ((found.failed.foldl State.failTraining s1).bootFails 0x05)
        else
          let s3 := { s2 with
            part := lost s2.part
            eqx := s2.eqx.withDisable (s2.eqx.disable.map (fun (d : DEntry) => { d with applied := false })) }
          let s4 := s3.applyDisables
          let s5 := { s4 with part := s4.part.unfenced }
          let s6 := found.light.foldl (fun s u => s.trainPort u.1 u.2) s5
          .next { s6 with eqx := { s6.eqx with bootRan := true, ready := true } }

/-- MODULE_RESET: the module starts again, with its telemetry at zero; what is cleared from the disable list is gone at the boot
that follows (R381, R386). -/
def execModuleReset (s : State) : Out := .next s.restart

/-! ### Power (R388, R389) -/

/-- The hottest junction is at `tj` tenths of a degree: DELIV is held at 32 or less from 100.0 °C on, and at 110.0 °C TRIP is set and
the machine-check vector raised, once (R388). -/
def State.setTj (s : State) (tj : Nat) : State :=
  let e := { s.eqx with tj := tj, deliv := if 1000 ≤ tj then min 32 s.eqx.deliv else s.eqx.deliv }
  { s with eqx := if 1100 ≤ tj ∧ e.trip.isNone then { e with trip := some s.time, msix := e.msix ++ [e.mcvec] } else e }

/-- POWER_EVALUATION: every 10 µs Equinox moves DELIV by one, and holds it at 32 or less while TJ is 100.0 °C or more
(R388); a LIMIT written in the same cycle does not count yet (R390). -/
def execPowerEvaluation (power tj : Nat) (s : State) : Out :=
  let e := s.eqx
  if s.time.toNat < e.evalAt.toNat + 10000 then notEnabled "POWER_EVALUATION"
  else
    let limit := if e.limitAt = some s.now then e.limitOld else e.limit
    let d := if limit < power then max 8 (e.deliv - 1)
      else if 100 * power < 97 * limit then min 64 (e.deliv + 1) else e.deliv
    .next ({ s with eqx := { e with power := power, deliv := d, evalAt := s.time } }.setTj tj)

/-- THERMAL_TRIP: at 110.0 °C TRIP is set and the machine-check vector raised. -/
def execThermalTrip (tj : Nat) (s : State) : Out :=
  if tj < 1100 ∨ s.eqx.trip.isSome then notEnabled "THERMAL_TRIP" else .next (s.setTj tj)

/-- RAIL_REMOVAL: 1 ms after a trip. -/
def execRailRemoval (s : State) : Out :=
  match s.eqx.trip with
  | some t =>
    if s.time.toNat < t.toNat + 1000000 then notEnabled "RAIL_REMOVAL"
    else .next { s with eqx := { s.eqx with rails := false } }
  | none => notEnabled "RAIL_REMOVAL"

end Sys2Proof.Machine
end

