-- ==== Sys2Proof/Machine/Context.lean ====
section
/-! DEFINITION. The context area of a job (R342 to R344): its regions and their sizes, the header, slot records and the
parts of a tile record whose layout the manual gives, written at a switch-out (log 13). -/

namespace Sys2Proof.Machine

open Sys2Proof

/-- The context header (Table 22-7). -/
def Job.header (j : Job) (p : Part) : List Byte :=
  let w (v : Nat) : List Byte := toBytes v 8
  w (j.tag.toNat * 2 ^ 48 + 2 ^ 32 + j.switches % 2 ^ 32) ++ w j.tstop.toNat ++ w j.tresume.toNat ++
    ((List.range 6).map (fun i => w (p.ctxOffset (i + 1) / 4))).flatten ++ w 0 ++ w j.ctxState

/-- The header of a job's context area written where it lies. -/
def State.putHeader (s : State) (j : Nat) : State :=
  let jb := s.jobAt j
  { s with dram := s.dram.puts (jb.ctxb * 4096) (jb.header s.part) }

/-- Slot state as a number, in the order of Table 02-9. -/
def Phase.code : Phase → Nat
  | .free => 0 | .ready => 1 | .stalled | .asking | .holding _ => 2 | .blocked _ => 3 | .parked => 4 | .draining => 5

/-- A poison marker's three bits (R13). -/
def markBits (k : Option (BitVec 2)) : Nat :=
  match k with
  | none => 0
  | some b => 4 + b.toNat

/-- Bits put one above the other, `n` each. -/
def packBits (n : Nat) : List Nat → Nat
  | [] => 0
  | v :: t => v % 2 ^ n + 2 ^ n * packBits n t

/-- The words of a fault record (Table 22-2). -/
def FaultRec.bytes (r : FaultRec) : List Byte :=
  let w (v : Nat) : List Byte := toBytes v 8
  w (r.jobid.toNat * 2 ^ 48 + r.gen.toNat * 2 ^ 32 + r.lane * 2 ^ 30 + r.sev * 2 ^ 27 + r.cause * 2 ^ 16 + r.index % 2 ^ 16) ++
    w r.addr.toNat ++ w r.stamp.toNat ++
    w (r.peer.toNat * 2 ^ 40 + r.ukind * 2 ^ 36 + r.slot * 2 ^ 32 + r.unit) ++ w r.epc.toNat ++
    w r.tval.toNat ++ w r.count ++ w 0

/-- The refused loads queued at a slot (R330). -/
def Slot.loadQueue (sl : Slot) : List Nat := sl.async.filterMap (fun a => match a with | .load pa => some pa.toNat | _ => none)

/-- The watchdog count of a slot: 0 for one that holds no task (R337). -/
def Slot.watchdog (sl : Slot) (clock : Nat) : Nat := if sl.phase = .free then 0 else sl.task.age clock

/-- A slot record (Table 22-8) at a job clock, with `CANCEL` as the task reads it and the record of the slot that is held, if any. -/
def Slot.record (sl : Slot) (clock : Nat) (cancel : Word) (held : Option FaultRec) : List Byte :=
  let w (v : Nat) : List Byte := toBytes v 8
  let q := sl.loadQueue
  w sl.pc.toNat ++ w (sl.phase.code + sl.gen.toNat * 2 ^ 16) ++
    w (packBits 6 [sl.cntld, sl.cntst, sl.cntcp, sl.cnttl, sl.stc, sl.stp, sl.stx]) ++ w (sl.watchdog clock) ++
    toBytes (sl.nx.toNat + sl.nv.toNat * 2 ^ 32) 16 ++ w q.length ++ ((List.range 4).map (fun i => w (q.getD i 0))).flatten ++
    w 0 ++
    ([sl.epc, sl.tval, sl.tvec, sl.cause, sl.gridpt, sl.griddim, sl.launchid, sl.tgenx.setWidth 64, sl.xferid.setWidth 64,
      sl.treply, sl.segleft, cancel, sl.frm.setWidth 64, sl.fseed, sl.jobid.setWidth 64].map
      (fun v => w v.toNat)).flatten ++ toBytes 0 40 ++
    (sl.x.toList.map (fun v => w v.toNat)).flatten ++ (sl.v.toList.map (fun v => toBytes v.toNat 64)).flatten ++
    ((List.range 8).map (fun i => w (sl.rm (BitVec.ofNat 3 i)).toNat)).flatten ++
    (sl.h.toList.map (fun h => toBytes (Config.handleBits h).toNat 16)).flatten ++
    toBytes (packBits 3 ((sl.px.toList ++ sl.pv.toList).map markBits)) 24 ++
    (match held with | some r => r.bytes | none => toBytes 0 64) ++ toBytes 0 104

/-- The place of a slot among the thread slots in core-number order. -/
def Part.slotIndex (p : Part) (c l : Nat) : Nat :=
  ((((List.range c).filter p.coreLive).map slotCount).sum) + l

/-- The place of a tile among the live ones. -/
def Part.tileIndex (p : Part) (t : Nat) : Nat := ((List.range t).filter p.tileLive).length

/-- A run of a context area that has no layout of its own, written with bytes that the manual leaves open (log 13). -/
def Memory.fill (m : Memory) (a n choice : Nat) : Memory := m.puts a ((List.range n).map (fun i => Config.contextByte choice (a + i)))

/-- The address lies in what a switch-out writes of the regions from the slot records to the memory-slice tickets; the last
47 KiB of a tile record are not written (R343). `o` counts from the area's first byte. -/
def Part.ctxWritten (p : Part) (o : Nat) : Bool :=
  let tiles := p.ctxOffset 3 * 1024
  decide (p.ctxOffset 1 * 1024 ≤ o) && decide (o < p.ctxOffset 6 * 1024) &&
    (decide (o < tiles) || decide (tiles + 1344 * 1024 * liveCount p.tiles ≤ o) || decide ((o - tiles) % (1344 * 1024) < 0x144400))

/-- The bytes of a tile's slice that hold its ring queues, its home port and its cores' inbox overflow areas (Table 02-11), as far as
they hold anything: their layout is the device's (log 13). -/
def Mach.putRegions (m : Mach) (t a choice : Nat) (d : Memory) : Memory :=
  let q := (AMap.get m.tiles t).getD Tile.reset
  let d1 := if q.rings.any (fun e => !e.2.q.isEmpty) then d.fill (a + 0xB0000) 0x8000 choice else d
  let d2 := if (AMap.get m.homes t).isSome then d1.fill (a + 0xB8000) 0x10000 choice else d1
  (List.range 7).foldl (fun (d : Memory) i =>
    if ((AMap.get m.cores (7 * t + i)).map (fun (k : Core) => k.spill.isEmpty)) = some false then
      d.fill (a + 0xC8000 + i * 0x8000) 0x8000 choice
    else d) d2

/-- The parts of a tile record (Table 22-9) at address `a`: the slice, the full/empty bits, accumulator memory, match table,
miss list and miss count; the engine queues and the perform queue have no layout of their own. -/
def Mach.putTile (m : Mach) (t a choice : Nat) (d : Memory) : Memory :=
  let q := (AMap.get m.tiles t).getD Tile.reset
  let slice := m.putRegions t a choice
    ((m.sram.filter (fun c => c.1 / 2 ^ 20 = t)).foldl (fun (d : Memory) c => d.put (a + c.1 % 2 ^ 20) c.2) d)
  let bits := (m.full.filter (fun g => g / 65536 = t)).foldl (fun (d : Memory) g =>
    let at_ := a + 0x100000 + g % 65536 / 8
    d.put at_ (d.byte at_ ||| (1#8 <<< (g % 8)))) slice
  let acc := (m.acc.filter (fun e => e.1 / 65536 = t)).foldl (fun (d : Memory) e =>
    d.puts (a + 0x102000 + 4 * (e.1 % 65536)) (toBytes e.2.toNat 4)) bits
  let tab := q.mtable.foldl (fun (d : Memory) e => d.puts (a + 0x142000 + 16 * e.1) (toBytes e.2.toNat 16)) acc
  let miss := (tab.puts (a + 0x142200) (q.misses.map (fun x => toBytes (Miss.word x).toNat 8)).flatten).puts (a + 0x142280)
    (toBytes q.missCount 4)
  let eng := if m.engines.any (fun (e : Nat × Engine) => decide (e.1 / 4 = t)) then miss.fill (a + 0x142400) 4096 choice else miss
  if m.homes.any (fun (e : Nat × Home) => decide (e.1 = t)) then eng.fill (a + 0x143400) 4096 choice else eng

/-- The live clusters in order, whose routers the router region counts before those of the I/O dies. -/
def Part.liveClusters (p : Part) : List Nat :=
  (List.range 64).filter (fun c => (List.range 16).any (fun i => p.tiles.getLsbD (c * 16 + i)))

/-- What a switch-out writes into the context area of job slot `j` for the state `m` (R339, R342 to R344): every region is
written whole, a unit that holds nothing with zeros, and every router's record where packets have been spilled (log 13, log 104).
-/
def State.saveContext (s : State) (j : Nat) (m : Mach) : State :=
  let p := s.part
  let base := (s.jobAt j).ctxb * 4096
  let at_ (i : Nat) : Nat := base + p.ctxOffset i * 1024
  let blank := s.dram.filter (fun c => decide (c.1 < base) || !p.ctxWritten (c.1 - base))
  let slots := m.slots.foldl (fun (d : Memory) e =>
    d.puts (at_ 1 + 3072 * p.slotIndex (e.1 / 4) (e.1 % 4)) (e.2.record m.clock (s.cancelFlagsOf m e.2)
      (m.heldRecs.find? (fun r => decide (r.unit = e.1 / 4) && decide (r.slot = e.1 % 4))))) blank
  let cores := ((m.cores.map Prod.fst).filter p.coreLive).foldl (fun (d : Memory) c =>
    d.fill (at_ 2 + 16384 * ((List.range c).filter p.coreLive).length) 16384 s.free) slots
  let touched : List Nat := (m.tiles.map Prod.fst ++ m.sram.map (fun (c : Host.Cell) => c.1 / 2 ^ 20) ++
    m.full.map (· / 65536) ++ m.acc.map (fun (e : Nat × BitVec 32) => e.1 / 65536) ++
    m.engines.map (fun (e : Nat × Engine) => e.1 / 4) ++ m.homes.map Prod.fst).eraseDups
  let tiles := (touched.filter p.tileLive).foldl (fun (d : Memory) t =>
    m.putTile t (at_ 3 + 1344 * 1024 * p.tileIndex t) s.free d) cores
  let used := if m.net.isEmpty then (m.clusters.map Prod.fst).filterMap (fun c => p.liveClusters.idxOf? c)
    else List.range (p.liveClusters.length + 2)
  let routers := used.foldl (fun (d : Memory) i => d.fill (at_ 4 + 65536 * i) 65536 s.free) tiles
  let slices := (m.homes.map Prod.fst).filter (fun h => decide (1024 ≤ h) && p.homeLive h)
  let tickets := slices.foldl (fun (d : Memory) h =>
    d.fill (at_ 5 + 16640 * 1024 * (((List.range (h - 1024)).map (· + 1024)).filter p.homeLive).length) (16640 * 1024) s.free) routers
  { s with dram := tickets, free := s.free + 1 }.putHeader j

end Sys2Proof.Machine
end

