-- ==== Sys2Proof/Machine/Records.lean ====
section
/-! DEFINITION. Fault records at Equinox (R334 to R336): the two rings, held records, the reserve and the machine check, and the
release of a parked slot (R331). -/

namespace Sys2Proof.Machine

open Sys2Proof

/-- Entries of a fault ring by LOGN (Table 22-3): 4 to 15, else no ring. -/
def ringSize (base : Word) : Nat :=
  let n := base.toNat % 16
  if 4 ≤ n then 2 ^ n else 0

/-- Host address of a position of a fault ring. -/
def ringAt (base : Word) (i : Nat) : Nat := base.toNat / 4096 * 4096 + 64 * (i % ringSize base)

/-- Unconsumed positions. -/
def pending (head tail : Nat) : Nat := (tail + 65536 - head) % 65536

/-- The overflow record of the episode is still unconsumed (R335). -/
def Eqx.overflowOpen (e : Eqx) : Option Nat :=
  match e.overflowAt with
  | some i => if pending e.rqhead i < pending e.rqhead e.rqtail then some i else none
  | none => none

/-- An ordinary record finds room in the replayable ring: the last free position is kept for an overflow record, unless one is
there (R335). -/
def Eqx.rqRoom (e : Eqx) : Bool :=
  decide (pending e.rqhead e.rqtail + (if e.overflowOpen.isSome then 0 else 1) < ringSize e.rqbase)

/-- A record written at the tail of the replayable ring. -/
def State.putReplayable (s : State) (r : FaultRec) : State :=
  let e := s.eqx
  { s with
    host := s.host.puts (ringAt e.rqbase e.rqtail) r.bytes
    eqx := { e with rqtail := (e.rqtail + 1) % 65536 } }

/-- The overflow record: LANE 2, cause 0x1CF, COUNT the records held (R335). -/
def State.overflowRec (s : State) : FaultRec :=
  { s.unitRec 7 0 0x1CF 0 0 (BitVec.ofNat 64 s.eqx.held.length) s.eqx.held.length with lane := 2 }

/-- While records are held, the reserved position carries the overflow record, rewritten in place while it is unconsumed; when
none is held the episode is over (R335). -/
def State.settleOverflow (s : State) : State :=
  let e := s.eqx
  if e.held.isEmpty then { s with eqx := { e with overflowAt := none } }
  else
    match e.overflowOpen with
    | some i => { s with host := s.host.puts (ringAt e.rqbase i) s.overflowRec.bytes }
    | none =>
      if pending e.rqhead e.rqtail < ringSize e.rqbase then
        let s1 := s.putReplayable s.overflowRec
        { s1 with eqx := { s1.eqx with overflowAt := some e.rqtail } }
      else s

/-- Held records written while there is room, in the order in which they are raised again (R335). -/
def State.writeHeld (s : State) : Nat → State
  | 0 => s
  | fuel + 1 =>
    match s.eqx.held with
    | [] => s
    | r :: rest =>
      if s.eqx.rqRoom then
        State.writeHeld ({ s with eqx := { s.eqx with held := rest } }.putReplayable r) fuel
      else s

/-- Every held record is raised again (R335, R340). -/
def State.raiseHeld (s : State) : State := (s.writeHeld s.eqx.held.length).settleOverflow

/-- A replayable record reaches Equinox: written, or held (R335); the record of a slot of a job that is switched out is kept
with the job (R341). -/
def State.takeReplayable (s : State) (r : FaultRec) : State :=
  if s.eqx.held.isEmpty && s.eqx.rqRoom then s.putReplayable r
  else match (if r.slotted then s.jobs.find? (fun e => decide (e.2.tag = r.jobid) && (AMap.get s.saved e.1).isSome) else none) with
  | some (j, _) =>
    let m := (AMap.get s.saved j).getD Mach.reset
    { s with saved := AMap.set s.saved j { m with heldRecs := m.heldRecs ++ [r] } }
  | none => { s with eqx := { s.eqx with held := s.eqx.held ++ [r] } }.settleOverflow

/-- A record written at the tail of the fatal ring. -/
def State.putFatal (s : State) (r : FaultRec) : State :=
  let e := s.eqx
  { s with
    host := s.host.puts (ringAt e.fqbase e.fqtail) r.bytes
    eqx := { e with fqtail := (e.fqtail + 1) % 65536 } }

def Eqx.fqRoom (e : Eqx) : Bool := decide (pending e.fqhead e.fqtail < ringSize e.fqbase)

/-- The reserve written out in arrival order as the fatal ring frees (R336). -/
def State.writeReserve (s : State) : Nat → State
  | 0 => s
  | fuel + 1 =>
    match s.eqx.reserve with
    | [] => s
    | r :: rest =>
      if s.eqx.fqRoom then
        State.writeReserve ({ s with eqx := { s.eqx with reserve := rest } }.putFatal r) fuel
      else s

/-- A fatal record reaches Equinox: the ring, the reserve of 1,024, or the count, which raises the machine check as it
leaves zero (R336). -/
def State.takeFatal (s : State) (r : FaultRec) : State :=
  let e := s.eqx
  if e.reserve.isEmpty && e.fqRoom then s.putFatal r
  else if e.reserve.length < 1024 then { s with eqx := { e with reserve := e.reserve ++ [r] } }
  else { s with eqx := { e with
      mccount := min (e.mccount + 1) (2 ^ 32 - 1)
      msix := if e.mccount = 0 then e.msix ++ [e.mcvec] else e.msix } }

/-- FAULT_RECORD: the next record of a lane reaches Equinox; the fatal lane goes first (R334). -/
def execFaultRecord (fatal : Bool) (s : State) : Out :=
  if fatal then
    match s.eqx.lane1 with
    | r :: rest => .next ({ s with eqx := { s.eqx with lane1 := rest } }.takeFatal r)
    | [] => notEnabled "FAULT_RECORD"
  else
    match s.eqx.lane0 with
    | r :: rest =>
      if s.eqx.lane1 ≠ [] then notEnabled "FAULT_RECORD"
      else .next ({ s with eqx := { s.eqx with lane0 := rest } }.takeReplayable r)
    | [] => notEnabled "FAULT_RECORD"

/-! ### Fault ring registers (Table 22-3) -/

/-- BASE and LOGN as the register keeps them: its reserved bits read zero (R4). -/
def ringReg (v : Word) : Word := v &&& ~~~0xFF0#64

def State.writeRqhead (s : State) (v : Word) : State :=
  { s with eqx := { s.eqx with rqhead := v.toNat % 65536 } }.raiseHeld

def State.writeFqhead (s : State) (v : Word) : State :=
  let s1 := { s with eqx := { s.eqx with fqhead := v.toNat % 65536 } }
  s1.writeReserve s1.eqx.reserve.length

def State.writeRqbase (s : State) (v : Word) : State :=
  let s1 := { s with eqx := { s.eqx with rqbase := ringReg v } }
  if s.eqx.rqbase.toNat % 16 = 0 ∧ v.toNat % 16 ≠ 0 then s1.raiseHeld else s1

def State.writeFqbase (s : State) (v : Word) : State :=
  let s1 := { s with eqx := { s.eqx with fqbase := ringReg v } }
  if s.eqx.fqbase.toNat % 16 = 0 ∧ v.toNat % 16 ≠ 0 then s1.writeReserve s1.eqx.reserve.length else s1

def State.writeMccount (s : State) (v : Word) : State := { s with eqx := { s.eqx with mccount := v.toNat % 2 ^ 32 } }

/-- The registers of BAR0 answer: the module is not in the recovery state (R383). -/
def State.serves (s : State) : Bool := s.eqx.ready

/-- A register write in the recovery state is discarded (R383, R316). -/
def State.hostDoes (s : State) (f : State → State) : Out := .next (if s.serves then f s else s)

/-- RQHEAD_WRITE (R335). -/
def execRqheadWrite (v : Word) (s : State) : Out := s.hostDoes (fun s => s.writeRqhead v)

/-- FQHEAD_WRITE (R336). -/
def execFqheadWrite (v : Word) (s : State) : Out := s.hostDoes (fun s => s.writeFqhead v)

/-- RQBASE_WRITE (R335). -/
def execRqbaseWrite (v : Word) (s : State) : Out := s.hostDoes (fun s => s.writeRqbase v)

/-- FQBASE_WRITE (R335). -/
def execFqbaseWrite (v : Word) (s : State) : Out := s.hostDoes (fun s => s.writeFqbase v)

/-- MCCOUNT_WRITE (R336). -/
def execMccountWrite (v : Word) (s : State) : Out := s.hostDoes (fun s => s.writeMccount v)

/-! ### Releasing a slot (R331) -/

/-- The RELEASE word of an action (Table 22-3). -/
def releaseWord (act c l : Nat) (gen : BitVec 16) : Word :=
  BitVec.ofNat 64 (act * 2 ^ 62 + gen.toNat * 2 ^ 32 + c * 4 + l)

/-- A parked slot leaves its park: its record is no longer held for it, and time parked for a debugger is not the watchdog's
(R249, R331, R337). -/
def State.unpark (s : State) (c l : Nat) (pc : Word) : State :=
  s.updSlotAt c l (fun sl => { sl with
    phase := .ready, pc := pc, held := none
    task := { sl.task with
      wdStart := match sl.task.dbg with | some t => sl.task.wdStart + (s.mach.clock - t) | none => sl.task.wdStart
      dbg := none } })

/-- A release performed: 0 retry at `EPC`, 1 resume at RELPC, 2 kill; of another generation it changes nothing (R331). A
slot that `halt.slot` has parked ends its task as by `exit`, whichever of the three is asked (R250). -/
def State.doRelease (s : State) (act c l : Nat) (gen : BitVec 16) : State :=
  let sl := s.slotAt c l
  if sl.phase ≠ .parked ∨ sl.gen ≠ gen then s
  else if act < 3 ∧ (sl.held.map (·.cause)) = some 0x008 then s.endTask c l
  else
    match act with
    | 0 => s.unpark c l sl.epc
    | 1 => s.unpark c l s.eqx.relpc
    | 2 => s.endTask c l
    | _ => s

/-- The job slot whose host-write log keeps a release: a job that is switched out, or that a switch has stopped, and has the
slot parked (R331, R341). -/
def State.releaseKept (s : State) (c l : Nat) (gen : BitVec 16) : Option Nat :=
  let mine (m : Mach) : Bool := (AMap.get m.slots (slotKey c l)).any (fun x => x.phase = .parked ∧ x.gen = gen)
  match s.running with
  | some j => if mine s.mach then (if s.stopped then some j else none) else (s.saved.find? (fun e => mine e.2)).map (·.1)
  | none => (s.saved.find? (fun e => mine e.2)).map (·.1)

/-- A release arrives: performed, or kept in a job's host-write log (R331, R341). -/
def State.release_ (s : State) (act c l : Nat) (gen : BitVec 16) : State :=
  match s.releaseKept c l gen with
  | some j => s.appendLog j (.release (releaseWord act c l gen))
  | none => s.doRelease act c l gen

/-- A release that finds its log full is held at the host link (Table 22-6). -/
def State.releaseWaits (s : State) (c l : Nat) (gen : BitVec 16) : Bool := (s.releaseKept c l gen).any s.logFull

/-- A RELEASE word performed. -/
def State.releaseByWord (s : State) (f : State → Nat → Nat → Nat → BitVec 16 → State) (v : Word) : State :=
  let n := v.toNat
  f s (bitsOf n 63 62) (bitsOf n 14 2) (bitsOf n 1 0) (BitVec.ofNat 16 (bitsOf n 47 32))

/-- RELEASE_RETRY (R331). -/
def execReleaseRetry (c l : Nat) (gen : BitVec 16) (s : State) : Out :=
  if s.releaseWaits c l gen then notEnabled "RELEASE_RETRY" else s.hostDoes (fun s => s.release_ 0 c l gen)

/-- RELEASE_RESUME (R331). -/
def execReleaseResume (c l : Nat) (gen : BitVec 16) (s : State) : Out :=
  if s.releaseWaits c l gen then notEnabled "RELEASE_RESUME" else s.hostDoes (fun s => s.release_ 1 c l gen)

/-- RELEASE_KILL (R331). -/
def execReleaseKill (c l : Nat) (gen : BitVec 16) (s : State) : Out :=
  if s.releaseWaits c l gen then notEnabled "RELEASE_KILL" else s.hostDoes (fun s => s.release_ 2 c l gen)

end Sys2Proof.Machine
end

