-- ==== Sys2Proof/Machine/System.lean ====
section
/-! DEFINITION. System instructions, majors 0x3A and 0x3B (R238 to R252), `exit` (R143) and the CSRs they read and write (R18
to R22, R240). -/

namespace Sys2Proof.Machine

open Sys2Proof

/-! ### CSRs (Tables 02-4 to 02-7) -/

/-- SLOTID (Table 02-6). -/
def State.slotId (s : State) : Word := BitVec.ofNat 64 (s.slot.gen.toNat * 2 ^ 16 + s.cur.2)

/-- COREID (Table 02-6). -/
def State.coreId (s : State) : Word := BitVec.ofNat 64 (s.part.peer.toNat * 2 ^ 16 + s.cur.1)

/-- TILEID (Table 02-6); a gateway core has CIT 7 and its gateway number (R212). -/
def State.tileId (s : State) : Word :=
  let c := s.cur.1
  if isGateway c then BitVec.ofNat 64 (7 * 2 ^ 16 + (c - 7168)) else BitVec.ofNat 64 (citOf c * 2 ^ 16 + tileOf c)

/-- The flag of a level kind (Table 02-6): 1 launch, 2 graph, 3 phase, 4 job. -/
def State.cancelFlags (s : State) : Word :=
  s.cancelFlagsOf s.mach s.slot

/-- CAPCORE (Table 02-7). -/
def State.capCore (s : State) : Word :=
  let p := s.part
  let cls := (List.range 64).filter (fun c => (List.range 16).any (fun t => p.tiles.getLsbD (c * 16 + t)))
  let dies := [0, 1, 2, 3].filter (fun d => cls.any (fun c => decide (c / 16 = d)))
  BitVec.ofNat 64 (liveCount p.gates * 2 ^ 32 + dies.length * 2 ^ 18 + cls.length * 2 ^ 11 + liveCount p.tiles)

/-- CAPMEM (Table 02-7): a stack is live while a slice of it is (log 33). -/
def State.capMem (s : State) : Word :=
  let p := s.part
  let live := (List.range 8).filter (fun k => (List.range 32).any (fun i => p.hbm.getLsbD (32 * k + i)))
  BitVec.ofNat 64 (liveCount p.lp * 2 ^ 13 + liveCount p.hbm * 2 ^ 4 + live.length)

/-- CAPLINK (Table 02-7). -/
def State.capLink (s : State) : Word :=
  let p := s.part
  BitVec.ofNat 64 (liveCount p.waves * 2 ^ 15 + liveCount p.fibres * 2 ^ 8 + liveCount p.lanes)

/-- The value of a CSR, none for a number that is not assigned (R18). A gateway core, which has no tile, reads TKORPH as 0
(log 131). -/
def State.csr (s : State) (n : Nat) : Option Word :=
  let sl := s.slot
  match n with
  | 0x000 => some sl.cause
  | 0x001 => some sl.epc
  | 0x002 => some sl.tval
  | 0x003 => some sl.tvec
  | 0x010 => some s.slotId
  | 0x011 => some s.coreId
  | 0x012 => some s.tileId
  | 0x013 => some sl.gridpt
  | 0x014 => some sl.griddim
  | 0x015 => some sl.launchid
  | 0x016 => some (sl.jobid.setWidth 64)
  | 0x020 => some (s.job.tgen.setWidth 64)
  | 0x021 => some (sl.tgenx.setWidth 64)
  | 0x030 => some s.time
  | 0x031 => some (BitVec.ofNat 64 s.now)
  | 0x040 => some (BitVec.ofNat 64 sl.cntld)
  | 0x041 => some (BitVec.ofNat 64 sl.cntst)
  | 0x042 => some (BitVec.ofNat 64 sl.cntcp)
  | 0x043 => some (BitVec.ofNat 64 sl.cnttl)
  | 0x044 => some (BitVec.ofNat 64 sl.stc)
  | 0x045 => some (BitVec.ofNat 64 sl.stp)
  | 0x046 => some (BitVec.ofNat 64 sl.stx)
  | 0x050 => some (sl.xferid.setWidth 64)
  | 0x051 => some sl.treply
  | 0x052 => some sl.segleft
  | 0x060 => some (if isGateway s.cur.1 then 0 else BitVec.ofNat 64 (s.tileAt (tileOf s.cur.1)).tkorph)
  | 0x061 => some s.cancelFlags
  | 0x070 => some (sl.frm.setWidth 64)
  | 0x071 => some sl.fseed
  | 0x0F0 => some s.capCore
  | 0x0F1 => some s.capMem
  | 0x0F2 => some s.capLink
  | _ => none

/-- A value written to a CSR (Table 12-2); a read-only one takes nothing (R18). -/
def Slot.writeCsr (sl : Slot) (n : Nat) (w : Word) : Slot :=
  match n with
  | 0x001 => { sl with epc := w }
  | 0x003 => { sl with tvec := w &&& ~~~3 }
  | 0x021 => { sl with tgenx := w.setWidth 16 }
  | 0x051 => { sl with treply := w &&& 0xFFFFFFFFFFFF0001 }
  | 0x070 => if w.setWidth 2 = 3#2 then sl else { sl with frm := w.setWidth 2 }
  | 0x071 => { sl with fseed := w }
  | _ => sl

/-- `csrr` (R239). -/
def execCsrr (d : Reg) (c : BitVec 12) (s : State) : Out :=
  issue (.csrr d c) { writes := [xr d] } (fun s =>
    match s.csr c.toNat with
    | none => s.trap 0x004 (c.setWidth 64)
    | some v => .next (s.setX d v).retire) s

/-- A CSR changed by a function of its value and X[xa] (R239). -/
def csrForm (i : Instr) (a : Reg) (c : BitVec 12) (f : Word → Word → Word) (s : State) : Out :=
  issue i { reads := [xr a] } (fun s =>
    match s.csr c.toNat with
    | none => s.trap 0x004 (c.setWidth 64)
    | some v => .next (s.upd (fun sl => sl.writeCsr c.toNat (f v (sl.rx a)))).retire) s

/-- `csrw` (R239). -/
def execCsrw (a : Reg) (c : BitVec 12) (s : State) : Out := csrForm (.csrw a c) a c (fun _ x => x) s

/-- `csrs` (R239). -/
def execCsrs (a : Reg) (c : BitVec 12) (s : State) : Out := csrForm (.csrs a c) a c (fun v x => v ||| x) s

/-- `csrc` (R239). -/
def execCsrc (a : Reg) (c : BitVec 12) (s : State) : Out := csrForm (.csrc a c) a c (fun v x => v &&& ~~~x) s

/-! ### Traps, fetch, waiting and ending -/

/-- `nop` (R252). -/
def execNop (s : State) : Out := issue .nop {} (fun s => .next s.retire) s

/-- `trap n`: software cause 0x010 + n (R241). -/
def execTrap (n : BitVec 5) (s : State) : Out :=
  issue (.trap n) {} (fun s => s.trap (0x010 + n.toNat) (n.setWidth 64)) s

/-- `eret` (R243). -/
def execEret (s : State) : Out := issue .eret {} State.eret s

/-- `ifence`: once `CNTST` is zero the core holds no instruction word, and one on its way to it is discarded (R244). -/
def execIfence (s : State) : Out :=
  issue .ifence { hold := decide (s.slot.cntst ≠ 0) } (fun s =>
    .next (s.updCore s.cur.1 (fun k => { k with words := [], asked := [] })).retire) s

/-- The kind of a record's level: as its home has read it, or, for one that is not armed, or that the host has written anew since it
completed, as it stands in the table (R245, R319). -/
def State.recordKind (s : State) (k : Nat) : Nat :=
  let v := s.levelAt k
  let w := s.num (s.job.hbase * 4096 + 64 * k) 8
  if k < 2 ^ 32 ∧ (v.level = 0 ∨ (v.state = 3 ∧ bitsOf w 57 56 ≠ 3)) then bitsOf w 60 58 else v.level

/-- The record that `cancel` names: an index, or the task's own level of a kind (R245). An index names a record of the module on
which the task now runs (log 138). -/
def State.cancelTarget (s : State) (v : Word) (lvl : Nat) : Option Nat :=
  let n := v.toNat % 2 ^ 32
  if n = 2 ^ 32 - 1 then (s.chain 8 s.slot.task.level).find? (fun k => decide ((s.levelAt k).level = lvl))
  else if s.job.hcount ≤ n ∨ s.recordKind n = 0 then none
  else some n

/-- The cancel request goes to the level's home, on the module that counts it (R245, R271). -/
def State.sendCancel (s : State) (k : Nat) : State :=
  if k < 2 ^ 32 then s.post (.core s.cur.1) (s.here (.home (s.levelHome k))) 0 (.cancelReq k) s.cur.2 s.slot.gen
  else s.post (.core s.cur.1) (s.farHome k) 0 (.farCancel k) s.cur.2 s.slot.gen

/-- `cancel` (R245): the task's own bit, where it was clear, is a wake event (R251). -/
def execCancel (a l : BitVec 5) (s : State) : Out :=
  issue (.cancel a l) { reads := [xr a] } (fun s =>
    let v := s.slot.rx a
    match s.cancelTarget v l.toNat with
    | none => s.trap 0x181 v
    | some k =>
      if s.recordKind k ≠ l.toNat then s.trap 0x180 v
      else
        toPeer (s.levelPeer k) (peerWord (s.levelPeer k)) (fun s =>
        let s1 := s.sendCancel k
        let own := (s.chain 8 s.slot.task.level).contains k
        let fresh := !s.cancelFlags.getLsbD l.toNat
        let s2 := if own then s1.upd (fun sl => { sl with
            cancelled := sl.cancelled ||| (1#5 <<< l.toNat), wake := sl.wake || fresh }) else s1
        .next s2.retire) s) s

/-- A plan is empty: no entry, or VALID is 0 (R368). -/
def State.planEmpty (s : State) (p : Nat) : Bool :=
  decide (s.job.nplan ≤ p) || decide (s.num (s.job.planb * 4096 + 256 * p) 8 < 2 ^ 63)

/-- `circ`: with `STX` zero the request goes to Equinox (R246). -/
def execCirc (a : Reg) (s : State) : Out :=
  issue (.circ a) { reads := [xr a], hold := decide (s.slot.stx ≠ 0) } (fun s =>
    let v := s.slot.rx a
    if 256 ≤ v.toNat ∨ s.planEmpty v.toNat then s.trap 0x145 v
    else
      .next (s.post (.core s.cur.1) (s.here .equinox) 0
        (.circReq v.toNat s.slot.treply s.part.peer s.cur.1 s.slot.task.level) s.cur.2 s.slot.gen).retire) s

/-- `time` (R248). -/
def execTime (d : Reg) (s : State) : Out := issue (.time d) { writes := [xr d] } (fun s => .next (s.setX d s.time).retire) s

/-- `brk` (R249): TVAL 0; whether it parks is decided where the cause is taken. -/
def execBrk (s : State) : Out := issue .brk {} (fun s => s.trap 0x007 0) s

/-- `halt.slot` (R250). -/
def execHaltSlot (s : State) : Out := issue .haltSlot {} (fun s => s.trap 0x008 0) s

/-- `wfi`: the wake flag is cleared; with it set the instruction does not block (R251). -/
def execWfi (s : State) : Out :=
  issue .wfi {} (fun s =>
    if s.slot.wake then .next (s.upd (fun sl => { sl with wake := false })).retire
    else .next (s.upd (fun sl => { sl with wake := false, phase := .blocked (.wfi (s.mach.clock + 65536)) }))) s

/-- `exit` (R143, R17, R27). -/
def execExit (s : State) : Out :=
  let away := s.levelPeer s.slot.task.level :: (s.slot.h.toList.map (fun h => s.closePeers h)).flatten
  issue .exit { hold := s.heldBack away } (fun s => .next (s.endTask s.cur.1 s.cur.2)) s

end Sys2Proof.Machine
end

