-- ==== Sys2Proof/Machine/Host.lean ====
section
/-! DEFINITION. The host's side (chapters 21 and 22): jobs, gang switches, submission queues, event rings, and the registers
of the PCIe windows. -/

namespace Sys2Proof.Machine

open Sys2Proof

/-! ### Creating a job (R317) -/

/-- The bits of each word of a job record that its writer sets (Table 21-2); the others are reserved, or Equinox's own. -/
def recordRw : List Nat :=
  let all := 2 ^ 64 - 1
  [0x03F00000, all, all, all, all, all, 2 ^ 56 - 1, 2 ^ 49 - 1, all, all, 0, 0, 0, 0, 0, 0]

/-- A word of a job record. -/
def State.recWord (s : State) (rec i : Nat) : Nat := s.num (rec + 8 * i) 8

/-- The number of the first word of a job record that fails validation (Table 21-2, R342); reserved fields are ignored (R4). -/
def State.badField (s : State) (rec : Nat) : Option Nat :=
  let w := s.recWord rec
  let lease := bitsOf (w 0) 24 20
  let nev := bitsOf (w 9) 55 40
  let checks : List (Nat × Bool) :=
    [(0, decide (lease = 0) || (decide (16 ≤ lease) && decide (lease ≤ 30))),
     (1, decide (w 1 % 2 ^ 30 = 0) && decide (w 1 < 2 ^ 56)),
     (2, decide (w 2 % 4096 = 0) && decide (w 2 < 2 ^ 52)),
     (3, decide (w 3 % 4 = 0)),
     (4, decide (w 4 % 4096 = 0)),
     (5, decide (bitsOf (w 5) 63 40 ≠ 0)),
     (7, decide (bitsOf (w 7) 48 40 ≤ 256)),
     (8, decide (s.part.ctxKiB ≤ 64 * bitsOf (w 8) 63 40)),
     (9, [16, 32, 64, 128, 256, 512, 1024, 2048, 4096, 8192, 16384, 32768].contains nev)]
  (checks.find? (fun c => !c.2)).map (·.1)

/-- The handler table as it stands in memory (R318). -/
def State.readHandlers (s : State) (n base : Nat) : List (Nat × Nat) :=
  (List.range n).map (fun i => let e := s.num (base * 4096 + 8 * i) 8; (bitsOf e 31 0, bitsOf e 35 32))

/-- A job as its record gives it. -/
def State.readJob (s : State) (rec : Nat) (tag : BitVec 16) : Job :=
  let w := s.recWord rec
  let lease := bitsOf (w 0) 24 20
  { Job.none with
    tag := tag, debug := decide (bitsOf (w 0) 25 25 = 1), lease := if lease = 0 then 22 else lease
    sramBase := BitVec.ofNat 64 (w 1), ptroot := w 2, tvec := BitVec.ofNat 64 (w 3), code := BitVec.ofNat 64 (w 4)
    hcount := bitsOf (w 5) 63 40, hbase := bitsOf (w 5) 39 0, nhand := bitsOf (w 6) 55 40, handb := bitsOf (w 6) 39 0
    nplan := bitsOf (w 7) 48 40, planb := bitsOf (w 7) 39 0, ctxSize := bitsOf (w 8) 63 40, ctxb := bitsOf (w 8) 39 0
    msix := bitsOf (w 9) 63 56, nev := bitsOf (w 9) 55 40, evb := bitsOf (w 9) 39 0
    handlers := s.readHandlers (bitsOf (w 6) 55 40) (bitsOf (w 6) 39 0), recAddr := rec }

/-- The state in which a job begins (R317 steps 3 and 4): zero tile state, the job level as record 0, started, with one count of
its own that nothing lowers, and the start channel H, whose receive end and one send-end instance Equinox holds (R322). -/
def newMach (p : Part) (tag : BitVec 16) : Mach :=
  let id := hIdent tag
  let loc := locOf p.peer eqxCore
  let entry : Chan :=
    { ident := id, state := .settled, holder := loc, gen := 0, insts := [], made := 0, finalSent := false
      rounds := [], made_ := [], early := [] }
  let e : RecvEnd :=
    { ident := id, gen := 0, bind := none, level := 0, final := none, closes := 0, eventSent := false, home := p.peer
      before := some 0 }
  { Mach.reset with
    levels := [(0, { Level.free with level := 4, state := 2, count := 1 })]
    homes := [(hashHome p id, { Home.reset with chans := [entry] })]
    cores := [(eqxCore, { Core.reset with ends := [e] })]
    hRecv := true }

/-- The packets of no job: management traffic between modules (Table 24-4), which no job's state takes with it. -/
def Mach.management (m : Mach) : List (PairKey × List Packet) :=
  (m.net.map (fun (e : PairKey × List Packet) => (e.1, e.2.filter (fun p => decide (p.job = 0))))).filter (fun e => !e.2.isEmpty)

/-- A job's state taken off the tiles, without the management traffic. -/
def Mach.ofJob (m : Mach) : Mach :=
  let net := m.net.map (fun (e : PairKey × List Packet) => (e.1, e.2.filter (fun p => decide (p.job ≠ 0))))
  { m with net := net.filter (fun e => !e.2.isEmpty) }

/-- Another state on the tiles: management traffic stays where it is. -/
def State.setMach (s : State) (m : Mach) : State :=
  s.mach.management.foldl (fun (acc : State) e => e.2.foldl (fun acc p => acc.append e.1 p) acc) { s with mach := m }

/-- A tag that Equinox may give: not 0, of no job that exists, and of none of the last 65,534 created (R317, R326; log 41). -/
def State.tagFree (s : State) (tag : BitVec 16) : Bool :=
  decide (tag ≠ 0) && !s.jobs.any (fun e => e.2.tag = tag) && !(s.eqx.tagsUsed.take 65534).contains tag.toNat

/-- CREATE: a job record is validated; the job gets its slot, tag and initial state, in place where no other job's state is
on the tiles, else in its context area (R317); the record's reserved fields read as zero from then on (R4). -/
def execCreate (rec jslot : Nat) (tag : BitVec 16) (s : State) : Out :=
  if s.eqx.ready = false ∨ 64 ≤ jslot ∨ (AMap.get s.jobs jslot).isSome ∨ (AMap.get s.ended jslot).isSome ∨ s.tagFree tag = false ∨
      (s.jobs.isEmpty ∧ s.eqx.disable.any (fun e => !e.applied)) ∨
      rec < lpBase ∨ lpBase + s.part.flatL < rec + 128 ∨ rec % 8 ≠ 0 then notEnabled "CREATE"
  else
    match s.badField rec with
    | some n => .next (s.eqxEvent 1 (BitVec.ofNat 64 n) s.time)
    | none =>
      let own (i : Nat) : Nat := if i = 0 then jslot * 2 ^ 26 + tag.toNat else 0
      let words := recordRw.zipIdx.map (fun m => (s.recWord rec m.2 &&& m.1) + own m.2)
      let jb := s.readJob rec tag
      let here := decide (s.running = none ∧ s.switch = none)
      let m := newMach s.part tag
      let s1 : State := { s with
        dram := (s.dram.puts rec ((words.map (fun w => toBytes w 8)).flatten)).puts (jb.hbase * 4096)
          (toBytes ((m.levels.map (fun e => e.2.w0 + 2 ^ 64 * e.2.w1)).sum) 16)
        jobs := AMap.set s.jobs jslot { jb with ctxState := if here then 0 else 1 }
        eqx := { s.eqx with tagsUsed := (tag.toNat :: s.eqx.tagsUsed).take 65534 } }
      let s2 : State := if here then { s1.setMach m with running := some jslot }
        else { s1.saveContext jslot m with saved := AMap.set s1.saved jslot m }
      .next ((s2.putHeader jslot).eqxEvent 0 (BitVec.ofNat 64 jslot) s.time)

/-! ### Teardown (R326) -/

/-- What the machine holds of a job slot: the running state, or the saved one. -/
def State.machOf (s : State) (j : Nat) : Mach := if s.running = some j then s.mach else (AMap.get s.saved j).getD Mach.reset

/-- Every slot is Free and every engine command complete (R326 step 2). -/
def Mach.quiet (m : Mach) : Bool :=
  m.slots.all (fun e => e.2.phase = .free) && m.transits.isEmpty &&
    m.engines.all (fun e => e.2.queue.isEmpty && e.2.hold.isEmpty && e.2.runs.isEmpty && e.2.parked.isEmpty) &&
    m.net.all (fun e => e.2.all (fun p => match p.body with | .cmd _ => false | _ => true))

/-- Page records of frames that no leaf maps any more are dropped. -/
def State.dropPages (s : State) : State :=
  { s with pages := s.pages.filter (fun r => s.mapped r.page || s.leaves.any (fun l => s.recKey l = r.page)) }

/-- With the job gone from this module no TLB holds anything of it: every invalidation in progress is complete, here and for the
module that serves it (R353). -/
def State.dropShoots (s : State) : State :=
  let answers (x : Shoot) : Bool := match x.why with
    | .invalidate _ | .remote _ => true
    | _ => false
  { s with shoots := (s.shoots.filter answers).map (fun (x : Shoot) => { x with left := [], far := [] }) }.endShoots

/-- TEARDOWN: the command first cancels the job level; once every slot is Free and every command complete, everything of the
job is dropped, its slot freed, the final event written, and a job boundary may come (R326, R378). Events that still wait
for room in its ring stay held (R323). -/
def execTeardown (j : Nat) (s : State) : Out :=
  if s.eqx.ready = false then notEnabled "TEARDOWN"
  else
  match AMap.get s.jobs j with
  | none => .next (s.eqxEvent 1 (BitVec.ofNat 64 j) s.time)
  | some jb =>
    if s.switch.isSome then notEnabled "TEARDOWN"
    else if jb.tearing = false then
      let s1 := s.updJobAt j (fun x => { x with tearing := true })
      .next (if s.running = some j ∧ (s.levelAt 0).cp = false then s1.cancelLevel 0 else s1)
    else if (s.machOf j).quiet = false then notEnabled "TEARDOWN"
    else
      let s1 := s.event j 0 (BitVec.ofNat 64 j)
      let jb1 := s1.jobAt j
      let s2 : State := { s1 with
        jobs := AMap.del s1.jobs j, saved := AMap.del s1.saved j
        ended := if jb1.evHeld.isEmpty then s1.ended else AMap.set s1.ended j jb1 }
      let s3 : State := if s.running = some j then
          { s2.setMach Mach.reset with running := none, migrations := [], pageAsks := [], incoming := [] }.dropShoots else s2
      .next s3.dropPages.jobBoundary

/-! ### Gang switches (R338 to R341) -/

/-- A stop or resume time: at least 50 µs from now (R338). -/
def State.timeOk (s : State) (t : Word) : Bool := decide (s.time.toNat + 50000 ≤ t.toNat)

/-- A resume time of the coordinator's choice (R340). -/
def State.someTime (s : State) : Word := BitVec.ofNat 64 (s.time.toNat + 50000 + Config.choice s.free)

/-- The tag of a job slot, 0 for none. -/
def State.tagOf (s : State) (j : Option Nat) : BitVec 16 := (j.map (fun n => (s.jobAt n).tag)).getD 0

/-- A message of a switch to the Equinox of every other module that holds the job (R338). -/
def State.tellSwitch (s : State) (b : Body) : State := s.others.foldl (fun s p => s.tellManagement b p) s

/-- The time that a switch now waits for goes to the other modules: the stop time, or the resume time (R338, R340). -/
def State.sendTime (s : State) (w : Switch) : State :=
  s.tellSwitch (if w.stage = 0 then .stopAt (s.tagOf w.out) (s.tagOf w.into) w.t else .resumeAt (s.tagOf w.into) w.resumeAt)

/-- SWITCH: a stop time is agreed for the job to switch out, or, with nothing to switch out, a resume time, and goes to the other
modules (R338). -/
def execSwitch (out into : Option Nat) (t : Word) (s : State) : Out :=
  let exists_ (j : Option Nat) : Bool := match j with
    | some n => (AMap.get s.jobs n).isSome
    | none => true
  if s.eqx.ready = false ∨ s.switch.isSome ∨ s.timeOk t = false ∨ exists_ out = false ∨ exists_ into = false ∨
      s.running ≠ out ∨ (out = none ∧ into = none) ∨ (into.isSome ∧ into = out) then notEnabled "SWITCH"
  else if out.isSome ∧ s.job.circ.isSome then notEnabled "SWITCH"
  else
    let w : Switch :=
      { out := out, into := into, t := t, stage := if out.isSome then 0 else 3, resumeAt := t, server := s.part.peer
        left := s.part.peer :: s.others, late := false }
    .next ({ s with switch := some w }.sendTime w)

/-- A launch-port write of the host performed now (R320); a write that no port takes is counted (R316), and one to a fenced home is refused (R377). -/
def State.portNow (s : State) (j k size : Nat) (data : VWord) : State :=
  if s.portFenced j k then s
  else if size ≠ 64 ∨ (s.jobAt j).hcount ≤ k then s.badWrite j
  else if portOp data = 0x20 then s.doStart k j
  else if portOp data = 0x21 then s.doArm k j
  else if portOp data = 0x22 ∧ k = 0 then s.doTask j data
  else s.badWrite j

/-- A queue's register set. -/
def State.queueAt (s : State) (j q : Nat) : HostQ := (AMap.get (s.jobAt j).queues q).getD HostQ.reset

def State.updQueue (s : State) (j q : Nat) (f : HostQ → HostQ) : State :=
  s.updJobAt j (fun jb => { jb with queues := AMap.set jb.queues q (f ((AMap.get jb.queues q).getD HostQ.reset)) })

/-- QTAIL takes effect; a tail more than 2^LOGN ahead of PROG disables the queue, with a host event of status 0x2 (R324,
R325). -/
def State.tailNow (s : State) (j q : Nat) (v : Word) : State :=
  let x := s.queueAt j q
  let t := v.toNat % 65536
  let s1 := s.updQueue j q (fun x => { x with tail := t })
  if x.off ∨ x.logn < 4 ∨ (t + 65536 - x.prog) % 65536 ≤ 2 ^ x.logn then s1
  else (s1.updQueue j q (fun x => { x with off := true })).event j 2 (BitVec.ofNat 64 q)

/-- Held events of a job written while its event ring has room (R323): the state, and the job as it is then. -/
def State.writeEvents (s : State) (jb : Job) : Nat → State × Job
  | 0 => (s, jb)
  | fuel + 1 =>
    match jb.evHeld with
    | [] => (s, jb)
    | (w0, w1, t) :: rest =>
      if jb.nev = 0 ∨ jb.nev ≤ pending jb.evHead jb.evTail then (s, jb)
      else
        let s1 : State := { s with
          host := s.host.puts (jb.evb * 4096 + 64 * (jb.evTail % jb.nev))
            (toBytes (w0.toNat + 2 ^ 64 * (w1.toNat + 2 ^ 64 * t.toNat)) 64)
          eqx := { s.eqx with msix := s.eqx.msix ++ [jb.msix] } }
        State.writeEvents s1 { jb with evTail := (jb.evTail + 1) % 65536, evHeld := rest } fuel

/-- EVHEAD takes effect (R323). -/
def State.evheadNow (s : State) (j : Nat) (v : Word) : State :=
  let jb := { s.jobAt j with evHead := v.toNat % 65536 }
  let (s1, jb1) := s.writeEvents jb jb.evHeld.length
  s1.updJobAt j (fun _ => jb1)

/-- EVHEAD of a slot whose job has been torn down, with events still held (R323, R326). -/
def State.evheadEnded (s : State) (j : Nat) (jb : Job) (v : Word) : State :=
  let (s1, jb1) := s.writeEvents { jb with evHead := v.toNat % 65536 } jb.evHeld.length
  { s1 with ended := if jb1.evHeld.isEmpty then AMap.del s1.ended j else AMap.set s1.ended j jb1 }

/-- One host write kept during a switch, performed (R325, R340, R341). -/
def State.replayLog (s : State) (j : Nat) (w : LogW) : State :=
  match w with
  | .tail q v => s.tailNow j q v
  | .evhead v => s.evheadNow j v
  | .port k size d => s.portNow j k size d
  | .release v => s.releaseByWord State.doRelease v

/-- Kept writes of a job's log performed, in order (R325). -/
def State.replayAll (s : State) (j : Nat) (l : List LogW) : State := l.foldl (fun s w => s.replayLog j w) s

/-- A job taken from where it was saved back onto the tiles, its held records with it. -/
def State.loadJob (s : State) (j : Nat) (f : Job → Job) : State :=
  let m := (AMap.get s.saved j).getD Mach.reset
  { s.setMach { m with heldRecs := [] } with
    eqx := { s.eqx with held := s.eqx.held ++ m.heldRecs }, saved := AMap.del s.saved j, running := some j
    jobs := AMap.set s.jobs j (f (s.jobAt j)) }

/-- A stop time withdrawn on this module: the job goes on as though none had been agreed, from the tiles or from where it has already
been saved (R338; log 136). -/
def State.goOn (s : State) (w : Switch) : State :=
  match w.stage, w.out with
  | 2, some j =>
    let s1 := (s.loadJob j (fun jb => { jb with switches := jb.switches - 1, ctxState := 2, hostLog := [] })).putHeader j
    ({ s1 with switch := none }.raiseHeld).replayAll j (s.jobAt j).hostLog
  | _, some j =>
    ({ s with switch := none }.updJobAt j (fun jb => { jb with hostLog := [] })).replayAll j (s.jobAt j).hostLog
  | _, none => { s with switch := none }

/-- STOP_TIME_LATE: a module got the time less than 10 µs ahead; the coordinator withdraws it on every module and picks a new one,
a stop time only while it knows of no change of circuits of the job in progress (R338, R340, R246; log 136). -/
def execStopTimeLate (t : Word) (s : State) : Out :=
  match s.switch with
  | some w =>
    let w1 : Switch := { w with
      stage := if w.stage = 3 then 3 else 0, t := if w.stage = 3 then w.t else t, resumeAt := t, late := false
      left := s.part.peer :: s.others }
    if s.timeOk t = false ∨ w.server ≠ s.part.peer then notEnabled "STOP_TIME_LATE"
    else if w.stage = 4 then
      (if s.job.circ.isSome then notEnabled "STOP_TIME_LATE" else .next ({ s with switch := some w1 }.sendTime w1))
    else if w.late = false then notEnabled "STOP_TIME_LATE"
    else if w.stage = 3 then .next ({ s.tellSwitch (.switchWithdrawn false) with switch := some w1 }.sendTime w1)
    else
      let s1 := (s.tellSwitch (.switchWithdrawn true)).goOn w
      .next (if s1.job.circ.isSome then { s1 with switch := some { w1 with stage := 4 } }
        else { s1 with switch := some w1 }.sendTime w1)
  | none => notEnabled "STOP_TIME_LATE"

/-- A stop or resume time that another module's Equinox has picked arrives: it holds here too, unless it is less than 10 µs ahead
(R338). One for a job that this module does not hold, or that a switch of another coordinator bars, is not answered. -/
def State.takeTime (s : State) (from_ : Peer) (w : Switch) (t : Word) : State :=
  if s.switch.any (fun x => decide (x.server ≠ from_)) then s
  else if t.toNat < s.time.toNat + 10000 then s.tellManagement .switchLate from_
  else { s with switch := some w }

/-- A stop time of another module's: while this one knows of a change of the job's circuits in progress it is answered as one that
comes too late, since no switch begins then (R246, R338; log 136). -/
def State.takeStopAt (s : State) (from_ : Peer) (out into : BitVec 16) (t : Word) : State :=
  match s.slotOfTag out with
  | none => s
  | some j =>
    if (s.jobAt j).circ.isSome then s.tellManagement .switchLate from_
    else
      s.takeTime from_ { out := some j, into := s.slotOfTag into, t := t, stage := 0, resumeAt := t, server := from_, left := [], late := false } t

def State.takeResumeAt (s : State) (from_ : Peer) (into : BitVec 16) (t : Word) : State :=
  match s.slotOfTag into with
  | none => s
  | some j =>
    let out := s.switch.bind (·.out)
    s.takeTime from_ { out := out, into := some j, t := t, stage := 3, resumeAt := t, server := from_, left := [], late := false } t

/-- A time is withdrawn: nothing has changed (R338). -/
def State.takeWithdrawn (s : State) (from_ : Peer) (stop : Bool) : State :=
  match s.switch with
  | some w =>
    if w.server ≠ from_ then s
    else if stop then s.goOn w
    else if w.stage = 3 then { s with switch := if w.out.isSome then some { w with stage := 2 } else none }
    else s
  | none => s

/-- A module has answered that the time came too late (R338). -/
def State.takeLate (s : State) : State := { s with switch := s.switch.map (fun w => { w with late := true }) }

/-- SWITCH_OUT: at T issue has stopped and the job drains (R339). -/
def execSwitchOut (s : State) : Out :=
  match s.switch with
  | some w =>
    if w.stage ≠ 0 ∨ w.late ∨ s.time.toNat < w.t.toNat then notEnabled "SWITCH_OUT"
    else .next { s with switch := some { w with stage := 1 } }
  | none => notEnabled "SWITCH_OUT"

/-- The drain is over: each matrix array has finished its command or been stopped by a fatal error, each streamer has stopped at the
boundary of a line, migrations have reached their switch with every drain marker
delivered, and the replay and end-to-end buffers are empty, with nothing held out of order (R287, R339, R371). -/
def State.drained (s : State) : Bool :=
  s.mach.engines.all (fun e => e.2.runs.all (fun r => if isMatrix e.1 then decide (r.code = 0x1C0) else !r.midLine)) &&
    s.migrations.isEmpty && s.pageAsks.isEmpty && s.incoming.isEmpty &&
    s.shoots.all (fun x => match x.why with | .sealFor _ | .migration _ _ => false | _ => true) &&
    s.mach.homes.all (fun e => e.2.draining.isEmpty && e.2.far.isEmpty) &&
    s.streams.all (fun x => x.copies.isEmpty && x.early.isEmpty) &&
    s.links.all (fun e => e.2.unacked.isEmpty && e.2.held.isEmpty)

/-- The TLBs are flushed (Table 22-4). -/
def Mach.flushTlbs (m : Mach) : Mach :=
  { m with
    cores := m.cores.map (fun (e : Nat × Core) => (e.1, { e.2 with itlb := [], dtlb := [] }))
    clusters := m.clusters.map (fun (e : Nat × Cluster) => (e.1, { e.2 with l2 := [] })) }

/-- The packets that a switch-out spills, counted at their routers: which router holds a packet is a free choice (Table 22-4, Table
26-3; log 104). -/
def State.countSpills (s : State) (m : Mach) : State :=
  let n := (m.net.map (fun (e : PairKey × List Packet) => e.2.length)).sum
  { (List.range n).foldl (fun s i => s.updUnit 5 (Config.choice (s.free + i) % 66) (fun u => { u with c2 := bump u.c2 })) s with
    free := s.free + n }

/-- Every module has the job saved: the coordinator tells the host the elapsed time, and agrees the resume time of the job to
resume (R339, R340). -/
def State.allSaved (s : State) (w : Switch) : State :=
  let s1 := s.eqxEvent 0 (BitVec.ofNat 64 (w.out.getD 0)) (s.time - w.t)
  let w1 := { w with stage := 3, resumeAt := s.someTime, left := [] }
  if w.into.isNone then { s1 with switch := none }
  else { s1 with switch := some w1, free := s.free + 1 }.sendTime w1

/-- A module reports to the coordinator that the job is saved there (Table 22-4). -/
def State.takeDone (s : State) (from_ : Peer) : State :=
  match s.switch with
  | some w =>
    let w1 := { w with left := w.left.filter (· ≠ from_) }
    if w.left.contains from_ = false then s
    else if w1.left = [] then s.allSaved w1 else { s with switch := some w1 }
  | none => s

/-- This module has the job saved: it reports to the coordinator, or is it. -/
def State.reportSaved (s : State) (w : Switch) : State :=
  if w.server = s.part.peer then { s with switch := some { w with stage := 2 } }.takeDone s.part.peer
  else { s with switch := if w.into.isSome then some { w with stage := 2 } else none }.tellManagement .switchDone w.server

/-- SWITCH_OUT_DONE: the job is saved whole, the TLBs are flushed, and the module reports it; once all have, the host is told the
elapsed time (R339, R340). -/
def execSwitchOutDone (s : State) : Out :=
  match s.switch, s.running with
  | some w, some j =>
    if w.stage ≠ 1 ∨ w.late ∨ s.job.circ.isSome ∨ s.drained = false then notEnabled "SWITCH_OUT_DONE"
    else
      let mine (r : FaultRec) : Bool := r.slotted && decide (r.jobid = s.job.tag)
      let m0 := s.mach.ofJob.flushTlbs
      let m := { m0 with heldRecs := m0.heldRecs ++ s.eqx.held.filter mine }
      let s0 := { s with eqx := { s.eqx with held := s.eqx.held.filter (fun r => !mine r) } }.settleOverflow
      let s1 := s0.updJobAt j (fun x => { x with switches := x.switches + 1, tstop := w.t, ctxState := 1 })
      let s2 := s1.saveContext j m
      let s3 : State := { s2.setMach Mach.reset with
        saved := AMap.set s2.saved j m, running := none
        shoots := s2.shoots.map (fun (x : Shoot) => { x with left := [], far := [] }) }
      .next ((s3.countSpills m).endShoots.reportSaved w)
  | _, _ => notEnabled "SWITCH_OUT_DONE"

/-- RESUME: at the resume time the state is as it was saved, the handler table is read again, issue restarts, held records are
raised again and the kept host writes performed in order (R318, R325, R340). -/
def execResume (s : State) : Out :=
  match s.switch with
  | some w =>
    match w.into with
    | some j =>
      if w.stage ≠ 3 ∨ w.late ∨ s.time.toNat < w.resumeAt.toNat then notEnabled "RESUME"
      else
        let s1 := s.loadJob j (fun jb => { jb with
          tresume := w.resumeAt, ctxState := 2, hostLog := [], handlers := s.readHandlers jb.nhand jb.handb })
        let jb := s.jobAt j
        let s2 := (({ s1 with switch := none }.putHeader j).raiseHeld).replayAll j jb.hostLog
        .next (if jb.tearing ∧ (s2.levelAt 0).cp = false then s2.cancelLevel 0 else s2)
    | none => notEnabled "RESUME"
  | none => notEnabled "RESUME"

/-! ### Commands (R353, R384, R386, R387) -/

/-- INVALIDATE: a range of a job is shot down; a malformed command is answered at once with status 0x1, and one for a job
that is switched out is complete at once (R353, R356). -/
def execInvalidate (j : Nat) (base len : Word) (s : State) : Out :=
  if s.eqx.ready = false then notEnabled "INVALIDATE"
  else if base.toNat % 65536 ≠ 0 ∨ len.toNat % 65536 ≠ 0 ∨ len = 0 ∨ (AMap.get s.jobs j).isNone then
    .next (s.eqxEvent 1 (BitVec.ofNat 64 j) s.time)
  else if s.running ≠ some j then .next (s.eqxEvent 0 (BitVec.ofNat 64 j) s.time)
  else .next (s.invalidate j base len)

/-- DENTRY of a disable-list entry (Table 26-2). -/
def DEntry.word (e : DEntry) : Nat :=
  2 ^ 63 + (if e.applied then 2 ^ 62 else 0) + e.ukind % 16 * 2 ^ 56 + e.unit % 2 ^ 32 * 2 ^ 24

/-- The identity public key, x then y (R387). -/
def identityKey : List Byte :=
  match mulPoint p256G 256 (p256Scalar Config.identitySecret) with
  | some (x, y) => toBytes x 32 ++ toBytes y 32
  | none => toBytes 0 64

/-- The 256 bytes that an attestation signs (Table 27-4). -/
def State.report (s : State) (nonce : BitVec 256) : List Byte :=
  let w (v : Nat) : List Byte := toBytes v 8
  let running := s.eqx.image.take (192 + imageField s.eqx.image 8 8)
  toBytes nonce.toNat 32 ++ identityKey ++ digestBytes (sha256 running) ++
    w s.capCore.toNat ++ w s.capMem.toNat ++ w s.capLink.toNat ++
    digestBytes (sha256 (s.eqx.disable.map (fun e => w e.word)).flatten) ++
    w s.part.peer.toNat ++ w s.time.toNat ++ toBytes 0 56

/-- ATTESTATION: the signed report goes to the host's buffer, then the event of status 0x0 (R387). -/
def execAttestation (nonce : BitVec 256) (buf : Nat) (s : State) : Out :=
  if s.eqx.ready = false ∨ buf % 4096 ≠ 0 then notEnabled "ATTESTATION"
  else
    let r := s.report nonce
    let q := ecdsaSign Config.identitySecret (Config.signPick s.eqx.signs) (sha256 r).toNat
    let sig := toBytes q.1 32 ++ toBytes q.2 32
    let s1 : State := { s with host := s.host.puts buf (r ++ sig), eqx := { s.eqx with signs := s.eqx.signs + 1 } }
    .next (s1.eqxEvent 0 0 s.time)

/-- CLEAR_DISABLE_LIST: the entries named by INDEX leave the list at the next boot; only while the module holds no job
(R386). -/
def execClearDisableList (ix : List Nat) (s : State) : Out :=
  if s.eqx.ready = false ∨ s.jobs.isEmpty = false then notEnabled "CLEAR_DISABLE_LIST"
  else
    let d := s.eqx.disable.mapIdx (fun i e => if ix.contains i then { e with cleared := true } else e)
    .next ({ s with eqx := { s.eqx with disable := d } }.eqxEvent 0 0 s.time)

/-- RAISE_FIRMWARE_MINIMUM: the fused minimum rises to the running image's version; it never falls (R384). -/
def execRaiseFirmwareMinimum (s : State) : Out :=
  if s.eqx.ready = false then notEnabled "RAISE_FIRMWARE_MINIMUM"
  else .next ({ s with eqx := { s.eqx with minVersion := max s.eqx.minVersion s.eqx.fwver } }.eqxEvent 0 0 s.time)

/-! ### Queues and events (R323 to R325) -/

/-- A write for a job: done now, or kept while the job is switched out or stopped (R325, R341); for no job it is discarded
(R316). -/
def State.jobWrite (s : State) (j : Nat) (w : LogW) : State :=
  if (AMap.get s.jobs j).isNone ∨ s.serves = false then s
  else if s.keeps j then s.appendLog j w
  else s.replayLog j w

/-- A write of EVHEAD (R323, R325). -/
def State.evheadWrite (s : State) (j : Nat) (v : Word) : State :=
  match AMap.get s.ended j with
  | some jb => if s.serves then s.evheadEnded j jb v else s
  | none => s.jobWrite j (.evhead v)

/-- A write for job slot `j` has to wait for room in its log. -/
def State.logWaits (s : State) (j : Nat) : Bool := s.keeps j && s.logFull j

/-- QTAIL_WRITE (R324, R325). -/
def execQtailWrite (j q : Nat) (v : Word) (s : State) : Out :=
  if 64 ≤ j ∨ 8 ≤ q ∨ s.logWaits j then notEnabled "QTAIL_WRITE" else .next (s.jobWrite j (.tail q v))

/-- EVHEAD_WRITE (R323, R325). -/
def execEvheadWrite (j : Nat) (v : Word) (s : State) : Out :=
  if 64 ≤ j ∨ s.logWaits j then notEnabled "EVHEAD_WRITE" else .next (s.evheadWrite j v)

/-- Bytes of a queue's ring: in BAR4 memory where its base is an address of the LPDDR6 flat region, else the host's (R324; log
44). -/
def State.ringBytes (s : State) (a n : Nat) : List Byte :=
  if lpBase ≤ a ∧ a + n ≤ lpBase + s.part.flatL then s.dram.bytes a n else s.host.bytes a n

/-- QUEUE_ENTRY_SUBMIT: the next entry of a queue is read and submitted to its record's home; one that no port takes is
counted, and PROG passes it at once (R324, R316). -/
def execQueueEntrySubmit (j q : Nat) (s : State) : Out :=
  let x := s.queueAt j q
  let jb := s.jobAt j
  if s.running ≠ some j ∨ s.stopped ∨ 8 ≤ q ∨ x.off ∨ x.logn < 4 ∨ x.busy ∨ x.tail = x.prog then notEnabled "QUEUE_ENTRY_SUBMIT"
  else
    let bs := s.ringBytes (x.base.toNat + 64 * (x.prog % 2 ^ x.logn)) 64
    let data : VWord := BitVec.ofNat 512 (ofBytes bs)
    let op := portOp data
    let k := if op = 0x22 then 0 else (data.extractLsb' 256 128).toNat
    if op < 0x20 ∨ 0x22 < op ∨ jb.hcount ≤ k then
      .next ((s.badWrite j).updQueue j q (fun x => { x with prog := (x.prog + 1) % 65536 }))
    else
      .next ((s.updQueue j q (fun x => { x with busy := true })).post .equinox (s.here (.home (s.levelHome k))) 0
        (.port j k data (some q) false) 0 0)

/-! ### The PCIe windows (R316, R364, R380, R385) -/

def State.setEqx (s : State) (f : Eqx → Eqx) : State := { s with eqx := f s.eqx }

/-- RASCTL: a changed threshold takes effect at the next window (R380). -/
def State.writeRasctl (s : State) (v : Word) : State :=
  let (thr, lthr) := s.thrNow
  let n := v.toNat
  s.setEqx (fun e => { e with
    thrOld := thr, lthrOld := lthr, thrAt := s.now / 2 ^ 31
    thr := if n % 256 = 0 then e.thr else n % 256
    lthr := if bitsOf n 23 8 = 0 then e.lthr else bitsOf n 23 8 })

/-- A register of the fault rings written (Table 22-3). -/
def State.writeRingReg (s : State) (off : Nat) (v : Word) : State :=
  match off with
  | 0x00 => s.writeRqbase v
  | 0x08 => s.writeRqhead v
  | 0x20 => s.writeFqbase v
  | 0x28 => s.writeFqhead v
  | 0x38 => s.writeMccount v
  | 0x40 => s.setEqx (fun e => { e with mcvec := v.toNat % 256 })
  | 0x48 => s.releaseByWord State.release_ v
  | 0x50 => s.setEqx (fun e => { e with relpc := v })
  | 0x58 =>
    let n := v.toNat % 64
    if 24 ≤ n ∧ n ≤ 48 then s.setEqx (fun e => { e with wdlog := n }) else s
  | _ => s

/-- A host queue register written (Table 21-5). -/
def State.writeQueueReg (s : State) (off : Nat) (v : Word) : State :=
  let j := off / 4096
  let r := off % 4096
  if r = 0x800 then s.evheadWrite j v
  else if 0x200 ≤ r then s
  else
    let q := r / 64
    match r % 64 with
    | 0x00 =>
      if (AMap.get s.jobs j).isNone then s
      else s.updQueue j q (fun x => { x with base := v >>> 12 <<< 12, logn := v.toNat % 16, off := false })
    | 0x08 => s.jobWrite j (.tail q v)
    | _ => s

/-- A write of 8 bytes to BAR0; read-only and unassigned offsets discard it (R316, R364, R380, R385). -/
def State.writeBar0 (s : State) (off : Nat) (v : Word) : State :=
  if 0x400 ≤ off ∧ off < 0x460 then (if s.serves then s.writeRingReg (off - 0x400) v else s)
  else if off < 0x1000 then s.setEqx (fun e => { e with mailbox := e.mailbox.puts off (toBytes v.toNat 8) })
  else if s.serves = false then s
  else if 0x2000 ≤ off ∧ off < 0x2000 + 64 * 112 then
    (if off % 64 = 8 then
      let n := (off - 0x2000) / 64
      { s with links := AMap.set s.links n { (AMap.get s.links n).getD Link.reset with intmask := v.setWidth 6 } }
    else s)
  else if off = 0x4000 then s.writeRasctl v
  else if off = 0x4010 then s.setEqx (fun e => { e with tsel := v &&& 0x0FFFFFFFFF0000FF })
  else if off = 0x4020 then s.setEqx (fun e => { e with dsel := v.toNat % 1024 })
  else if off = 0x5008 then s.setEqx (fun e => { e with
    limit := max 1000 (min 3400 (v.toNat % 4096)), limitOld := if e.limitAt = some s.now then e.limitOld else e.limit
    limitAt := some s.now })
  else if 0x10000 ≤ off ∧ off < 0x10000 + 64 * 4096 then s.writeQueueReg (off - 0x10000) v
  else s

/-- A BAR0 write for a job whose host-write log is full: a release, QTAIL or EVHEAD, held at the host link (Table 22-6). -/
def State.bar0Waits (s : State) (off : Nat) (v : Word) : Bool :=
  let n := v.toNat
  if off = 0x448 then s.releaseWaits (bitsOf n 14 2) (bitsOf n 1 0) (BitVec.ofNat 16 (bitsOf n 47 32))
  else
    let j := (off - 0x10000) / 4096
    let r := (off - 0x10000) % 4096
    decide (0x10000 ≤ off) && decide (off < 0x10000 + 64 * 4096) && (AMap.get s.jobs j).isSome && s.serves &&
      (decide (r = 0x800) || (decide (r < 0x200) && decide (r % 64 = 8))) && s.logWaits j

/-- An address lies in a hierarchy record that belongs to the device: armed or started, and not yet complete (R319). -/
def State.deviceRecord (s : State) (a : Nat) : Bool :=
  s.jobs.any (fun e =>
    let b := e.2.hbase * 4096
    let v := (AMap.get (s.machOf e.1).levels ((a - b) / 64)).getD Level.free
    decide (b ≤ a) && decide (a < b + 64 * e.2.hcount) && (decide (v.state = 1) || decide (v.state = 2)))

/-- The bits of a byte that a host write sets: in the record of a job that exists only those of its writer's fields (R4). -/
def State.hostBits (s : State) (a : Nat) : Byte :=
  match s.jobs.find? (fun e => decide (e.2.recAddr ≤ a) && decide (a < e.2.recAddr + 128)) with
  | some e => BitVec.ofNat 8 (recordRw.getD ((a - e.2.recAddr) / 8) 0 / 2 ^ (8 * ((a - e.2.recAddr) % 8)))
  | none => BitVec.allOnes 8

/-- The host's bytes stored into BAR4 memory, but for those of a record that belongs to the device, which are ignored (R319), and for
the read-only and reserved fields of a job record (R4, Table 21-2). -/
def State.hostStore (s : State) (a : Nat) : List Byte → State
  | [] => s
  | b :: t =>
    let rw := s.hostBits a
    State.hostStore (if s.deviceRecord a then s else s.store a [(s.byte a &&& ~~~rw) ||| (b &&& rw)]) (a + 1) t

/-- HOST_REGISTER_WRITE: a host write of up to 64 bytes to a window (R316): registers of BAR0 take aligned writes of 8 bytes
(log 48); a launch port takes aligned writes of 64; BAR4 is LPDDR6 memory. -/
def execHostRegisterWrite (bar off size : Nat) (v : VWord) (s : State) : Out :=
  if 64 < size ∨ size = 0 then notEnabled "HOST_REGISTER_WRITE"
  else if bar = 0 then
    if size ≠ 8 ∨ off % 8 ≠ 0 then .next s
    else if s.bar0Waits off (v.setWidth 64) then notEnabled "HOST_REGISTER_WRITE"
    else .next (s.writeBar0 off (v.setWidth 64))
  else if s.serves = false then .next s
  else if bar = 2 then
    let j := off / 2 ^ 30
    let k := off % 2 ^ 30 / 64
    if s.logWaits j then notEnabled "HOST_REGISTER_WRITE"
    else .next (s.jobWrite j (.port k (if off % 64 = 0 then size else 0) v))
  else if bar = 4 ∧ off + size ≤ s.part.flatL then .next (s.hostStore (lpBase + off) (toBytes v.toNat size))
  else .next s

/-! ### What the host reads (R316, R325, R364, R380, R381, R385) -/

/-- A telemetry counter (Table 26-3); 0 for an unknown unit or index. -/
def State.counter (s : State) (k u i : Nat) : Nat :=
  let e := s.unitAt k u
  let link : Link := (AMap.get s.links u).getD Link.reset
  match i, k with
  | 0, _ => e.window
  | 1, _ => e.errors
  | 2, 6 => link.replays
  | 3, 6 => link.drops
  | 4, 6 => e.c4
  | 5, 6 => link.e2eDup
  | 6, 6 => e.replays
  | 2, _ => e.c2
  | 3, _ => e.c3
  | 4, _ => e.c4
  | 5, _ => e.c5
  | _, _ => 0

/-- A count as a field of 32 bits shows it: saturated (R364). -/
def count32 (v : Nat) : Nat := min v (2 ^ 32 - 1)

/-- A register of BAR0 read by the host. -/
def State.readBar0 (s : State) (off : Nat) : Nat :=
  let e := s.eqx
  let p := s.part
  let b (v : Bool) (n : Nat) : Nat := if v then 2 ^ n else 0
  if off = 0x5000 then b e.ready 63 + e.fwver * 2 ^ 8 + e.bootCode
  else if off < 0x1000 ∧ (off < 0x400 ∨ 0x460 ≤ off) then ofBytes (e.mailbox.bytes off 8)
  else if s.serves = false then 0
  else if off < 0x1000 then
    match off - 0x400 with
    | 0x00 => e.rqbase.toNat | 0x08 => e.rqhead | 0x10 => e.rqtail | 0x18 => e.held.length
    | 0x20 => e.fqbase.toNat | 0x28 => e.fqhead | 0x30 => e.fqtail | 0x38 => e.mccount | 0x40 => e.mcvec
    | 0x58 => e.wdlog
    | _ => 0
  else if off < 0x2000 then
    match off - 0x1000 with
    | 0x00 => s.capCore.toNat | 0x08 => s.capMem.toNat | 0x10 => s.capLink.toNat
    | 0x18 => p.flatH | 0x20 => p.flatL | 0x28 => p.withH | 0x30 => p.withL
    | _ => 0
  else if off < 0x2000 + 64 * 112 then
    let l : Link := (AMap.get s.links ((off - 0x2000) / 64)).getD Link.reset
    match off % 64 with
    | 0x00 => b l.up 63 + l.peer.toNat * 2 ^ 48 + l.liveRx.toNat * 2 ^ 16 + l.liveTx.toNat
    | 0x08 => l.intmask.toNat
    | 0x10 => count32 l.drops * 2 ^ 32 + count32 l.replays
    | 0x18 => count32 l.e2eDup * 2 ^ 32 + count32 l.linkDup
    | _ => 0
  else
    match off with
    | 0x4000 => e.lthr * 2 ^ 8 + e.thr
    | 0x4008 => b (e.disable.any (fun d => !d.applied)) 32 + e.decl
    | 0x4010 => e.tsel.toNat
    | 0x4018 => s.counter (bitsOf e.tsel.toNat 59 56) (bitsOf e.tsel.toNat 55 24) (bitsOf e.tsel.toNat 7 0)
    | 0x4020 => e.dsel
    | 0x4028 => ((e.disable[e.dsel]?).map DEntry.word).getD 0
    | 0x5008 => e.limit
    | 0x5010 => b e.trip.isSome 63 + min e.power 4095 * 2 ^ 28 + min e.tj 4095 * 2 ^ 16 + e.deliv
    | _ =>
      if 0x10000 ≤ off ∧ off < 0x10000 + 64 * 4096 then
        let j := (off - 0x10000) / 4096
        let r := (off - 0x10000) % 4096
        let x := s.queueAt j (r / 64)
        if r = 0x800 then ((AMap.get s.ended j).getD (s.jobAt j)).evHead
        else if 0x200 ≤ r then 0
        else
          match r % 64 with
          | 0x00 => x.base.toNat + x.logn
          | 0x08 => x.tail
          | 0x10 => b (decide (s.running ≠ some j) && (AMap.get s.jobs j).isSome) 63 + x.prog
          | _ => 0
      else 0

/-- What the host reads through a window, `size` bytes from an offset (R316, Table 21-1): the registers of BAR0, eight bytes
at a time; the launch ports of BAR2, which read zero (R321); through BAR4 the LPDDR6 flat region. Outside an assigned
offset, and of BAR2 and BAR4 in the recovery state (R383), a read returns zero. -/
def State.hostRead (s : State) (bar off size : Nat) : List Byte :=
  if bar = 0 then (List.range size).map (fun i => BitVec.ofNat 8 (s.readBar0 ((off + i) / 8 * 8) / 2 ^ (8 * ((off + i) % 8))))
  else if bar = 4 ∧ s.serves ∧ off + size ≤ s.part.flatL then s.dram.bytes (lpBase + off) size
  else List.replicate size 0

end Sys2Proof.Machine
end

