-- ==== Sys2Proof/Machine/Circuits.lean ====
section
/-! DEFINITION. Optical circuits (R61, R246, R247, R357, R367, R368): a plan read and checked, the hold of cross-package
traffic, and the change or refusal of the plan. -/

namespace Sys2Proof.Machine

open Sys2Proof

/-- A fibre group of a plan: first fibre, size, peer. -/
structure Group where
  first : Nat
  size : Nat
  peer : Peer
  deriving DecidableEq, Repr

/-- The halfword of fibre `f` in plan `p` of a job (Table 24-7). -/
def State.planFibre (s : State) (j : Job) (p f : Nat) : Nat := s.num (j.planb * 4096 + 256 * p + 8 + 2 * f) 2

/-- The groups of a plan from fibre `f` on; none for a malformed halfword, a group that is not aligned to its size, or one whose
fibres are not all used for one peer (R368). -/
def State.planGroups (s : State) (j : Job) (p : Nat) : Nat → Nat → Option (List Group)
  | 0, _ => some []
  | fuel + 1, f =>
    if 64 ≤ f then some []
    else
      let w := s.planFibre j p f
      if bitsOf w 12 12 ≠ 0 then none
      else if bitsOf w 15 15 = 0 then s.planGroups j p fuel (f + 1)
      else
        let size := 2 ^ bitsOf w 14 13
        let members := (List.range size).map (fun i => s.planFibre j p (f + i))
        if bitsOf w 14 13 = 3 ∨ f % size ≠ 0 ∨ members.any (fun m => decide (bitsOf m 15 15 = 0) ||
            decide (bitsOf m 12 12 ≠ 0) || decide (bitsOf m 11 0 ≠ bitsOf w 11 0)) then none
        else
          (s.planGroups j p fuel (f + size)).map (fun t =>
            { first := f, size := size, peer := BitVec.ofNat 12 (bitsOf w 11 0) } :: t)

/-- The groups of a plan that Equinox accepts: of an entry that the job's table has and that is valid, well formed, and every peer
live in the peer map (R368; log 127). -/
def State.planOk (s : State) (j : Job) (p : Nat) : Option (List Group) :=
  if j.nplan ≤ p ∨ s.num (j.planb * 4096 + 256 * p) 8 < 2 ^ 63 then none
  else
  match s.planGroups j p 64 0 with
  | some gs => if gs.all (fun g => ((AMap.get s.peers g.peer.toNat).getD 0).toNat / 32 = 3) then some gs else none
  | none => none

/-- The groups now lit. -/
def State.litGroups (s : State) : List Group :=
  (s.links.filter (fun e => decide (48 ≤ e.1) && decide (e.2.group ≠ 0) && e.2.up)).map
    (fun e => { first := e.1 - 48, size := e.2.group, peer := e.2.peer })

/-- Nothing is on its way to a peer over a circuit: no packet in a pair queue, no flit unacknowledged (R61). -/
def State.quietTo (s : State) (p : Peer) : Bool :=
  s.mach.net.all (fun e => decide (e.1.dst.peer ≠ p)) && s.streams.all (fun x => decide (x.peer ≠ p) || x.copies.isEmpty)

/-- Every pair queue that crosses a circuit being removed is empty (R61). -/
def State.removedQuiet (s : State) (new : List Group) : Bool :=
  s.litGroups.all (fun g => new.contains g || s.quietTo g.peer)

/-- The cores and engines that get a hold notice (R61). -/
def State.holdAgents (s : State) : List Agent :=
  (((List.range 7296).filter s.part.coreLive).map Agent.core) ++
    (((List.range 1024).filter s.part.tileLive).map (fun t => (List.range 4).map (fun i => Agent.engine (4 * t + i)))).flatten ++
    ((((List.range 304).map (· + 1024)).filter s.part.homeLive).map (fun h => Agent.engine (4096 + h)))

/-- The module whose Equinox serves the circ requests of the job: the lowest of those that hold it (R246; log 99). -/
def State.circServer (s : State) : Peer := s.others.foldl (fun a p => if p.toNat < a.toNat then p else a) s.part.peer

/-- Equinox of this module sends a hold notice to each of its cores and engines (R61). -/
def State.sendNotices (s : State) : State := s.holdAgents.foldl (fun s a => s.post .equinox (s.here a) 0 .holdNotice 0 0) s

/-- Equinox of this module tells that of another one. -/
def State.tellEquinox (s : State) (b : Body) (peer : Peer) : State := s.post .equinox { peer := peer, agent := .equinox } 0 b 0 0

/-- A circ request arrives at an Equinox: it queues at the one that serves, and any other sends it on there (R246; log 99). -/
def State.takeCircReq (s : State) (r : CircReq) : State :=
  if s.circServer = s.part.peer then s.updJob (fun j => { j with circs := j.circs ++ [r] })
  else s.tellEquinox (.circReq r.plan r.treply r.peer r.core r.level) s.circServer

/-- CIRC_REQUEST: Equinox begins to serve the oldest circ request of the job: hold notices go to every core and engine, on
another module through its Equinox (R246, R61; log 99). -/
def execCircRequest (s : State) : Out :=
  match s.job.circs with
  | [] => notEnabled "CIRC_REQUEST"
  | r :: rest =>
    if s.running.isNone ∨ s.job.circ.isSome ∨ s.switch.isSome then notEnabled "CIRC_REQUEST"
    else
      let run : CircRun :=
        { req := r, server := s.part.peer, waiting := s.holdAgents, far := s.others, refused := false, lightAt := none, lit := false, raised := false
          asked := false, before := [] }
      let s1 := s.updJob (fun j => { j with circs := rest, circ := some run })
      .next (s.others.foldl (fun s p => s.tellEquinox (.circHold r.plan) p) s1.sendNotices)

/-- The Equinox that serves a circ request asks this module to hold (R61; log 99). A gang switch that this module coordinates is to be
withdrawn, as no switch begins while a change is in progress (R246, R338; log 136). -/
def State.takeCircHold (s : State) (from_ : Peer) (plan : Nat) : Option State :=
  if s.job.circ.isSome then none
  else
    let run : CircRun :=
      { req := { plan := plan, treply := 0, peer := from_, core := 0, level := 0 }, server := from_, waiting := s.holdAgents, far := []
        refused := false, lightAt := none, lit := false, raised := false, asked := false, before := [] }
    let s1 : State := { s with switch := s.switch.map (fun (w : Switch) =>
      if w.server = s.part.peer ∧ w.out.isSome ∧ w.stage ≤ 1 then { w with late := true } else w) }
    some ((s1.updJob (fun j => { j with circ := some run })).sendNotices)

/-- Another module's answer reaches the Equinox that serves. -/
def State.takeCircHeld (s : State) (from_ : Peer) (ok : Bool) : State :=
  s.updJob (fun j => { j with
    circ := j.circ.map (fun c => { c with far := c.far.filter (· ≠ from_), refused := c.refused || !ok }) })

/-- HOLD_NOTICE: a core or engine holds what would leave for another package, and acknowledges (R61). -/
def execHoldNotice (k : PairKey) (s : State) : Out :=
  match s.headOf k with
  | some p =>
    if p.body ≠ .holdNotice ∨ k.dst.peer ≠ s.part.peer ∨ k.src ≠ s.here .equinox then notEnabled "HOLD_NOTICE"
    else
      match k.dst.agent with
      | .core c => .next (((s.popNet k).updCore c (fun q => { q with hold := true })).post (.core c) (s.here .equinox) 0 .holdAck 0 0)
      | .engine e =>
        .next (((s.popNet k).updEngine e (fun q => { q with holding := true })).post (.engine e) (s.here .equinox) 0 .holdAck 0 0)
      | _ => notEnabled "HOLD_NOTICE"
  | none => notEnabled "HOLD_NOTICE"

/-- The hold ends at every core and engine. -/
def State.endHold (s : State) : State :=
  { s with mach := { s.mach with
      cores := s.mach.cores.map (fun (e : Nat × Core) => (e.1, { e.2 with hold := false }))
      engines := s.mach.engines.map (fun (e : Nat × Engine) => (e.1, { e.2 with holding := false })) } }

/-- The class-1 completion of a circ request (Table 12-3); under ERRONLY code 0 sends none (R247). -/
def State.circDone (s : State) (r : CircReq) (code : Nat) : State :=
  if code = 0 ∧ r.treply.getLsbD 0 then s
  else s.post .equinox { peer := r.peer, agent := .core r.core } 1
    (.completion r.treply (BitVec.ofNat 64 (s.job.tgen.toNat * 2 ^ 16 + code)) 0 0 false false r.level 0 []) 0 0

/-- The wavelengths of a fibre that a training at a plan change finds lit: those of the part but for the dark ones whose light has not
returned (R366, R377). -/
def State.planLight (s : State) (f : Nat) : BitVec 16 :=
  s.trainable (48 + f) &&& (~~~(s.linkAt (48 + f)).dark ||| Config.lightBack (s.free * 64 + f))

/-- Every group that is not lit yet trains: some wavelength of it is lit (R368). -/
def State.groupsTrain (s : State) (gs : List Group) : Bool :=
  (gs.filter (fun g => !s.litGroups.contains g)).all (fun g => (List.range g.size).any (fun i => s.planLight (g.first + i) ≠ 0))

/-- The fibres of a plan lit: groups that stay keep their links, new ones are brought up, the rest go dark. -/
def State.lightPlan (s : State) (gs : List Group) : State :=
  let old := s.litGroups
  let link (n : Nat) : Link := (AMap.get s.links n).getD Link.reset
  let dark := s.links.map (fun (e : Nat × Link) =>
    if 48 ≤ e.1 ∧ !(gs.any (fun g => decide (g.first ≤ e.1 - 48) && decide (e.1 - 48 < g.first + g.size))) then
      (e.1, { e.2.down with peer := 0, group := 0, liveRx := 0, liveTx := 0 })
    else e)
  let lit := gs.foldl (fun (m : AMap Link) g =>
    if old.contains g then m
    else (List.range g.size).foldl (fun (m : AMap Link) i =>
      let n := 48 + g.first + i
      let rx := s.planLight (g.first + i)
      AMap.set m n { (link n).bringUp g.peer rx (if i = 0 then g.size else 0) with
        liveTx := s.farReport n, dark := (link n).dark &&& ~~~rx }) m) dark
  { s with
    free := s.free + 1
    links := lit
    peers := s.peers.map (fun e => (e.1, setOpt (gs.any (fun g => g.peer.toNat = e.1)) e.2)) }

/-- The groups of a list of first fibres, sizes and peers. -/
def groupsOf (l : List (Nat × Nat × Peer)) : List Group := l.map (fun g => { first := g.1, size := g.2.1, peer := g.2.2 })

/-- A plan is lit before every module is known to accept it: the circuits that it replaces are kept in mind (R368). -/
def State.tryPlan (s : State) (c : CircRun) (gs : List Group) : State :=
  (s.lightPlan gs).updJob (fun j => { j with
    circ := some { c with lit := true, before := s.litGroups.map (fun g => (g.first, g.size, g.peer)) } })

/-- The circuits before a plan restored (R368). -/
def State.restorePlan (s : State) (c : CircRun) : State := if c.lit then s.lightPlan (groupsOf c.before) else s

/-- A plan refused: the previous circuits are restored on every module and `TGEN` stays, the hold ends, and the status is 0x146
(R368). -/
def State.refusePlan (s : State) (c : CircRun) : State :=
  s.others.foldl (fun s p => s.tellEquinox (.circEnd false) p)
    (((((s.restorePlan c).updJob (fun j => { j with circ := none })).endHold)).circDone c.req 0x146)

/-- Every agent of this module has acknowledged, and nothing has been asked or answered yet (R61). -/
def CircRun.held (c : CircRun) : Bool := c.waiting.isEmpty && c.far.isEmpty && c.lightAt.isNone

/-- The request in hand at the Equinox that serves it, with every module held (R61). -/
def State.circReady (s : State) : Option CircRun :=
  match s.job.circ with
  | some c => if c.waiting.isEmpty ∧ c.far.isEmpty ∧ c.server = s.part.peer ∧ c.raised = false then some c else none
  | none => none

/-- Held everywhere and drained: every pair queue on a circuit to be removed is empty. The Equinox that serves asks the
switch, and refuses a plan that any module cannot accept; another one answers it (R61, R246, R368; log 99). -/
def State.askSwitch (s : State) (c : CircRun) : Option State :=
  let mark (s : State) : State := s.updJob (fun j => { j with circ := some { c with lightAt := some s.time } })
  match s.planOk s.job c.req.plan with
  | none => some (if c.server = s.part.peer then s.refusePlan c else (mark s).tellEquinox (.circHeld false) c.server)
  | some gs =>
    if c.server = s.part.peer ∧ c.refused then some (s.refusePlan c)
    else if s.removedQuiet gs then
      some (if c.server = s.part.peer then mark s else (mark s).tellEquinox (.circHeld true) c.server)
    else none

/-- The first pair queue to Equinox that an acknowledgement heads. -/
def State.nextAck (s : State) : Option PairKey :=
  (s.mach.net.find? (fun e => decide (e.1.dst = s.here .equinox) &&
    (match e.2.head? with | some p => decide (p.body = .holdAck) | none => false))).map (·.1)

/-- HOLD_ACK: Equinox counts an acknowledgement; when the last is in and the old circuits are drained it asks the switch, or
answers the Equinox that serves (R61). -/
def execHoldAck (s : State) : Out :=
  match s.job.circ, s.nextAck with
  | some c, some k =>
    let c1 := { c with waiting := c.waiting.filter (· ≠ k.src.agent) }
    let s1 := (s.popNet k).updJob (fun j => { j with circ := some c1 })
    .next (if c1.held then (s1.askSwitch c1).getD s1 else s1)
  | some c, none =>
    if c.held = false then notEnabled "HOLD_ACK"
    else
      match s.askSwitch c with
      | some s1 => .next s1
      | none => notEnabled "HOLD_ACK"
  | none, _ => notEnabled "HOLD_ACK"

/-- R358 holds for every peer of a group: no flit to it is unacknowledged, so that traffic to it may move to the group. -/
def State.lightMoves (s : State) (gs : List Group) : Bool :=
  gs.all (fun g => s.streams.all (fun x => decide (x.peer ≠ g.peer) || x.copies.isEmpty))

/-- The last module has raised its `TGEN`: the request is complete (R246). -/
def State.circOver (s : State) (c : CircRun) : State :=
  (s.updJob (fun j => { j with circ := none })).circDone c.req 0

/-- The new circuits are lit everywhere and R358 holds here: `TGEN` rises by one and the hold ends. The Equinox that serves tells the
other modules, and sends the completion once each of them has raised its own; another one answers that it has (R246, R61). -/
def State.circLit (s : State) (c : CircRun) : State :=
  let s1 := (s.updJob (fun j => { j with plan := some c.req.plan, tgen := j.tgen + 1 })).endHold
  if c.server = s.part.peer then
    let c1 := { c with raised := true, far := s.others }
    if s.others = [] then s1.circOver c1
    else s.others.foldl (fun s p => s.tellEquinox (.circEnd true) p) (s1.updJob (fun j => { j with circ := some c1 }))
  else (s1.updJob (fun j => { j with circ := none })).tellEquinox .circRaised c.server

/-- Another module has raised its `TGEN` for the request in hand (R246). -/
def State.takeCircRaised (s : State) (from_ : Peer) : State :=
  match s.job.circ with
  | some c =>
    let c1 := { c with far := c.far.filter (· ≠ from_) }
    if c.raised = false then s
    else if c1.far = [] then s.circOver c1 else s.updJob (fun j => { j with circ := some c1 })
  | none => s

/-- Groups of a plan that R358 binds: those to a peer to which no group led before. -/
def CircRun.fresh (c : CircRun) (gs : List Group) : List Group := gs.filter (fun g => !(groupsOf c.before).contains g)

/-- The plan in hand here, lit and accepted by every module: `TGEN` follows at once unless R358 must be waited for (R246, R367,
R368). -/
def State.light (s : State) (c : CircRun) : State :=
  if s.lightMoves (c.fresh s.litGroups) then s.circLit c else s.updJob (fun j => { j with circ := some { c with asked := true } })

/-- The Equinox that serves asks this module to light its plan: it answers whether each new group has trained (R246, R368; log
99). -/
def State.takeCircLight (s : State) : State :=
  match s.job.circ with
  | some c =>
    match s.planOk s.job c.req.plan with
    | some gs =>
      if s.groupsTrain gs then (s.tryPlan c gs).tellEquinox (.circTrained true) c.server
      else s.tellEquinox (.circTrained false) c.server
    | none => s.tellEquinox (.circTrained false) c.server
  | none => s

/-- Another module's answer about its new groups: with the last the plan is in force, and one that has none refuses it for all
(R368). -/
def State.takeCircTrained (s : State) (from_ : Peer) (ok : Bool) : State :=
  match s.job.circ with
  | some c =>
    if c.lit = false ∨ c.raised ∨ c.far.contains from_ = false then s
    else if ok = false then s.refusePlan c
    else
      let c1 := { c with far := c.far.filter (· ≠ from_) }
      let s1 := s.updJob (fun j => { j with circ := some c1 })
      if c1.far = [] then s1.light c1 else s1
  | none => s

/-- The end of a hold that another module's Equinox serves (log 99): the plan is in force here too, or its circuits are as they
were. -/
def State.takeCircEnd (s : State) (lit : Bool) : State :=
  match s.job.circ with
  | some c =>
    if c.server = s.part.peer then s
    else if lit then s.light c
    else ((s.restorePlan c).updJob (fun j => { j with circ := none })).endHold
  | none => s

/-- PLAN_LIT: within 1 s the switch reports the new circuits and the groups are trained (R246, R368): they are lit, and the other
modules are asked to light theirs. A plan that is lit everywhere already, and waits for R358 only, is completed once that holds
for every newly lit peer, however long it takes. -/
def execPlanLit (s : State) : Out :=
  match s.job.circ with
  | some c =>
    if c.raised then notEnabled "PLAN_LIT"
    else if c.lit then
      (if c.asked ∧ s.lightMoves (c.fresh s.litGroups) then .next (s.circLit c) else notEnabled "PLAN_LIT")
    else
      match s.circReady.bind (·.lightAt), s.planOk s.job c.req.plan with
      | some t, some gs =>
        if t.toNat + 1000000000 < s.time.toNat ∨ s.groupsTrain gs = false then notEnabled "PLAN_LIT"
        else
          let c1 := { c with far := s.others }
          let s1 := s.tryPlan c1 gs
          match s1.job.circ with
          | some c2 => .next (if s.others = [] then s1.light c2 else s.others.foldl (fun s p => s.tellEquinox .circLight p) s1)
          | none => .next s1
      | _, _ => notEnabled "PLAN_LIT"
  | none => notEnabled "PLAN_LIT"

/-- CIRC_TIMEOUT: 1 s of `TIME` passed without the new circuits, or without a module's new groups trained (R368). -/
def execCircTimeout (s : State) : Out :=
  match s.job.circ with
  | some c =>
    match c.lightAt with
    | some t =>
      if c.server ≠ s.part.peer ∨ c.raised ∨ (c.lit ∧ c.far = []) ∨ s.time.toNat < t.toNat + 1000000000 then notEnabled "CIRC_TIMEOUT"
      else .next (s.refusePlan c)
    | none => notEnabled "CIRC_TIMEOUT"
  | none => notEnabled "CIRC_TIMEOUT"

/-- SWITCH_REFUSED_PLAN: the switch cannot join a group to a matching one of its peer (R368). -/
def execSwitchRefusedPlan (s : State) : Out :=
  match s.circReady with
  | some c => if c.lightAt.isNone ∨ c.lit then notEnabled "SWITCH_REFUSED_PLAN" else .next (s.refusePlan c)
  | none => notEnabled "SWITCH_REFUSED_PLAN"

end Sys2Proof.Machine
end

