-- ==== Sys2Proof/Machine/Flags.lean ====
section
/-! DEFINITION. No instruction of this hardware sets a flag (R119, R127, R201): the comparisons that stand where other
hardware has flags are the integer and floating relations whose result is a value or a branch. -/

namespace Sys2Proof.Machine

open Sys2Proof

/-- The six branch relations of majors 0x10 to 0x15: eq, ne, lt, ge signed, lo, hs unsigned (R139). -/
def branchRel (cc : Nat) (a b : Word) : Bool :=
  match cc with
  | 0 => a == b
  | 1 => a != b
  | 2 => a.slt b
  | 3 => !a.slt b
  | 4 => a.ult b
  | _ => !a.ult b

/-- Less than at a width, signed or unsigned (R120, R121). -/
def lessThan {w : Nat} (uns : Bool) (a b : BitVec w) : Bool := if uns then a.ult b else a.slt b

/-- The six relations of `fcmp` on FP32 codes (R129). -/
def fcmpRel (cc : Nat) (a b : Nat) : Bool := relVal cc (decodeElt 0 a) (decodeElt 0 b)

/-- The six signed relations of `vcmp` on integers (R206). -/
def icmpRel (cc : Nat) (a b : Int) : Bool :=
  match cc with
  | 0 => decide (a = b)
  | 1 => decide (a ≠ b)
  | 2 => decide (a < b)
  | 3 => decide (a ≤ b)
  | 4 => decide (a > b)
  | _ => decide (a ≥ b)

end Sys2Proof.Machine
end

