-- ==== Sys2Proof/Machine/Control.lean ====
section
/-! DEFINITION. Control transfer within a task (R138 to R142): branches, jumps, `jalr` and `loop`. -/

namespace Sys2Proof.Machine

open Sys2Proof

/-- A conditional branch: the target counts from the branch itself, scaled by 4 (R139, R102). -/
def branchIf (i : Instr) (cc : Nat) (a b : Reg) (d : BitVec 16) (s : State) : Out :=
  issue i { reads := [xr a, xr b] } (fun s =>
    if branchRel cc (s.slot.rx a) (s.slot.rx b) then .next (s.jump (s.slot.pc + sx d * 4)) else .next s.retire) s

/-- `beq` (R139). -/
def execBeq (a b : Reg) (d : BitVec 16) (s : State) : Out := branchIf (.beq a b d) 0 a b d s

/-- `bne` (R139). -/
def execBne (a b : Reg) (d : BitVec 16) (s : State) : Out := branchIf (.bne a b d) 1 a b d s

/-- `blt` (R139). -/
def execBlt (a b : Reg) (d : BitVec 16) (s : State) : Out := branchIf (.blt a b d) 2 a b d s

/-- `bge` (R139). -/
def execBge (a b : Reg) (d : BitVec 16) (s : State) : Out := branchIf (.bge a b d) 3 a b d s

/-- `blo` (R139). -/
def execBlo (a b : Reg) (d : BitVec 16) (s : State) : Out := branchIf (.blo a b d) 4 a b d s

/-- `bhs` (R139). -/
def execBhs (a b : Reg) (d : BitVec 16) (s : State) : Out := branchIf (.bhs a b d) 5 a b d s

/-- `j` (R140). -/
def execJ (d : BitVec 26) (s : State) : Out :=
  issue (.j d) {} (fun s => .next (s.jump (s.slot.pc + sx d * 4))) s

/-- `jal`: x31 := PC + 4 (R140). -/
def execJal (d : BitVec 26) (s : State) : Out :=
  issue (.jal d) { writes := [31] } (fun s =>
    let pc := s.slot.pc
    .next ((s.setX 31 (pc + 4)).jump (pc + sx d * 4))) s

/-- `jalr`: the target is read first; a misaligned one traps and writes nothing (R141). -/
def execJalr (d a : Reg) (s : State) : Out :=
  issue (.jalr d a) { reads := [xr a], writes := [xr d] } (fun s =>
    let pc := s.slot.pc
    let t := s.slot.rx a
    if t.toNat % 4 ≠ 0 then s.trap 0x006 t else .next ((s.setX d (pc + 4)).jump t)) s

/-- `loop`: decrement, and branch while the count is not zero (R142). -/
def execLoop (a : Reg) (d : BitVec 16) (s : State) : Out :=
  issue (.loop a d) { reads := [xr a], writes := [xr a] } (fun s =>
    let pc := s.slot.pc
    let n := s.slot.rx a - 1
    if n ≠ 0 then .next ((s.setX a n).jump (pc + sx d * 4)) else .next (s.setX a n).retire) s

end Sys2Proof.Machine
end

