-- ==== Sys2Proof/Machine/Fabric.lean ====
section
/-! DEFINITION. The fabric (chapter 24): the choice of a link, sending and receiving flits, link replay, end-to-end recovery, loss of light, keys, gateway blocks, the time base and the peer layout table. -/

namespace Sys2Proof.Machine

open Sys2Proof

/-- The virtual channel of a packet of a pair queue (Table 24-3): the queue's source decides, so that one queue keeps to one
channel (R45). -/
def vcOf (k : PairKey) (p : Packet) : Nat :=
  if k.cls ≤ 1 then 0 else if k.cls = 2 then 3 else if k.cls = 3 then 4
  else if isReply p.body then (if isEngine k.dst.agent then 5 else 2)
  else if isEngine k.src.agent then 5 else 1

/-! ### Links (R357, R358, R362, R364, R365) -/

/-- The link by which traffic to a module leaves: its lit fibre group, else the live electrical port that its number picks
(R358). -/
def State.linkFor (s : State) (peer : Peer) : Option Nat :=
  match s.litGroups.find? (fun g => g.peer = peer) with
  | some g => some (48 + g.first)
  | none =>
    let ports := (s.links.filter (fun e => decide (e.1 < 48) && e.2.up)).map (·.1)
    ports[peer.toNat % max 1 ports.length]?

/-- The sender has a credit and room in its replay buffer (R362). -/
def Link.maySend (l : Link) (vc : Nat) : Bool :=
  l.up && decide ((AMap.get l.used vc).getD 0 < 48) && decide (l.unacked.length < 128)

/-- A data flit sent for the first time on a link: it takes the next LSEQ, acknowledges, returns credits of one channel, and spends
one (R362). -/
def State.transmit (s : State) (n : Nat) (f : Flit) : State :=
  let l := s.linkAt n
  let (cvc, cred) := (l.owed.head?).getD (0, 0)
  let f0 := { f with lseq := l.lseq, lack := l.lack, cvc := cvc, cred := min 63 cred }
  let f1 := { f0 with check := l.checkOf n f0 }
  (s.updLink n (fun l => { l with
    lseq := (l.lseq + 1) % 256, unacked := l.unacked ++ [f1], ackOwed := false
    owed := if cred ≤ 63 then l.owed.tail else AMap.set l.owed cvc (cred - 63)
    used := AMap.set l.used f.vc ((AMap.get l.used f.vc).getD 0 + 1) })).emitFlit n f1

/-- A received data flit that has been accepted: its credit is to be returned, and its number acknowledged (R362; log 134). -/
def Link.owes (l : Link) (vc : Nat) : Link :=
  { l with owed := AMap.set l.owed vc ((AMap.get l.owed vc).getD 0 + 1), ackOwed := true }

/-- Flits up to an acknowledged LSEQ leave the replay buffer (R362). -/
def ackFlits (lack : Nat) (l : List Flit) : List Flit :=
  if l.any (fun f => f.lseq = lack) then (l.dropWhile (fun f => f.lseq ≠ lack)).tail else l

/-- Every unacknowledged flit sent again as it was, in LSEQ order (R362). -/
def State.resend (s : State) (n : Nat) : State := (s.linkAt n).unacked.foldl (fun s f => s.emitFlit n f) s

/-! ### Streams (R358, R363) -/

def State.streamAt (s : State) (peer : Peer) (vc : Nat) : Stream :=
  (s.streams.find? (fun x => x.peer = peer ∧ x.vc = vc)).getD
    { peer := peer, vc := vc, next := 0, copies := [], deliver := 0, early := [], link := none }

def State.setStream (s : State) (x : Stream) : State :=
  { s with streams := s.streams.filter (fun y => ¬(y.peer = x.peer ∧ y.vc = x.vc)) ++ [x] }

/-- A packet that is an end-to-end acknowledgement. -/
def isE2eAck (p : Packet) : Bool :=
  match p.body with
  | .e2eAck _ _ => true
  | _ => false

/-- A flit that only acknowledges. -/
def onlyAcks (f : Flit) : Bool := f.packets.all (fun e => isE2eAck e.2)

/-- The link by which the head of a pair queue to another module may leave now: that of its (module, channel), none while the link
has no credit, the window is full, or the link has yet to change (R358, R362, R363). -/
def State.wayOut (s : State) (k : PairKey) (p : Packet) : Option Nat :=
  let x := s.streamAt k.dst.peer (vcOf k p)
  (if x.link.isNone then s.linkFor k.dst.peer else x.link).filter (fun n =>
    decide (s.linkFor k.dst.peer = some n) && (s.linkAt n).maySend (vcOf k p) && decide (x.copies.length < 512))

/-- Some data may leave by a link now. -/
def State.hasData (s : State) (n : Nat) : Bool :=
  s.mach.net.any (fun e => decide (e.1.dst.peer ≠ s.part.peer) && e.2.head?.any (fun p => s.wayOut e.1 p = some n))

/-- With no data to send, a receiver returns its credits and acknowledges in TYPE 1 flits (R362; log 134). -/
def State.payBack (s : State) (n : Nat) : State :=
  let l := s.linkAt n
  if l.up = false ∨ (l.owed = [] ∧ l.ackOwed = false) ∨ s.hasData n then s
  else
    let s1 := s.updLink n (fun l => { l with owed := [], ackOwed := false })
    if l.owed = [] then s1.sendControl n 1 0
    else l.owed.foldl (fun s e => s.sendControl n 1 (e.1 * 64 + min 63 e.2)) s1

/-- The packets at the head of a pair queue to another module leave in a flit, as many as its slots take: over the link of their
(module, channel), with a copy kept; none while the link has no credit, the window is full, or the link has yet to change (R358,
R359, R362, R363; log 52). A flit that only acknowledges is no data flit: it takes no number and no copy of it is kept (log 125). -/
def State.depart (s : State) (k : PairKey) (p : Packet) : Option State :=
  let vc := vcOf k p
  let x := s.streamAt k.dst.peer vc
  match s.wayOut k p with
  | none => none
  | some n =>
    let q := ((netGet s.mach.net k).map snapParts).flatten
    let out := fillSlots k 4 (q.takeWhile (fun q => isE2eAck q = isE2eAck p))
    let f : Flit :=
      { ftype := 0, vc := vc, cvc := 0, cred := 0, dpeer := k.dst.peer, speer := s.part.peer, eseq := x.next % 1024, lseq := 0
        lack := 0, packets := out.map (fun q => (k, q)), arg := 0, check := 0 }
    let s1 : State := { s with mach := { s.mach with net := netSet s.mach.net k (q.drop out.length) } }
    let y : Stream := if onlyAcks f then { x with link := some n }
      else { x with next := (x.next + 1) % 1024, copies := x.copies ++ [(f, s.now)], link := some n }
    some (((s1.setStream y).transmit n f).payBack n)

/-- A packet of a job that is switched out waits with the job's other packets for its resume (R60, R371, Table 22-5). -/
def State.spillLate (s : State) (j : Nat) (k : PairKey) (p : Packet) : State :=
  let m := (AMap.get s.saved j).getD Mach.reset
  { s with saved := AMap.set s.saved j { m with net := netSet m.net k (arriveBehind (netGet m.net k) p) } }

/-- What arrives for this module in a flit: a block waits for its gateway set, a packet of a job that is switched out with its job,
everything else in its pair queue. -/
def State.arrivePacket (s : State) (e : PairKey × Packet) : State :=
  match s.saved.find? (fun j => decide (e.2.job ≠ 0) && decide ((s.jobAt j.1).tag = e.2.job)) with
  | some j => s.spillLate j.1 e.1 e.2
  | none =>
    match e.1.dst.agent, e.2.body with
    | .gateway n, .block _ _ =>
      { s with mach := { s.mach with blocks := AMap.set s.mach.blocks n ((AMap.get s.mach.blocks n).getD [] ++ [e.2]) } }
    | _, _ => { s with mach := { s.mach with net := netSet s.mach.net e.1 (arriveBehind (netGet s.mach.net e.1) e.2) } }

/-- A cumulative end-to-end acknowledgement goes back on VC 0 (R363). -/
def State.sendE2e (s : State) (n : Nat) (peer : Peer) (vc eseq : Nat) : State :=
  s.append { src := s.here (.gateway n), dst := { peer := peer, agent := .gateway n }, cls := 0 }
    { body := .e2eAck vc eseq, src := s.here (.gateway n), job := 0, slot := 0, gen := 0 }

/-- Flits of a stream delivered while the next ESEQ is here (R363). -/
def State.deliverStream (s : State) (n : Nat) (peer : Peer) (vc : Nat) : Nat → State
  | 0 => s
  | fuel + 1 =>
    let x := s.streamAt peer vc
    match takeFirst (fun (f : Flit) => decide (f.eseq = x.deliver)) x.early with
    | none => s
    | some (f, rest) =>
      let s1 := s.setStream { x with deliver := (x.deliver + 1) % 1024, early := rest }
      let s2 := f.packets.foldl State.arrivePacket s1
      State.deliverStream (s2.sendE2e n peer vc f.eseq) n peer vc fuel

/-- A flit released by its link: put in its stream's order, or discarded as a duplicate and acknowledged again (R363). One that
only acknowledges has no place in that order (log 125). -/
def State.arriveFlit (s : State) (n : Nat) (f : Flit) : State :=
  let x := s.streamAt f.speer f.vc
  let d := (f.eseq + 1024 - x.deliver) % 1024
  if onlyAcks f ∧ f.packets ≠ [] then f.packets.foldl State.arrivePacket s
  else if 512 ≤ d ∨ x.early.any (fun g => g.eseq = f.eseq) then
    (s.updLink n (fun l => { l with e2eDup := bump l.e2eDup })).sendE2e n f.speer f.vc ((x.deliver + 1023) % 1024)
  else (s.setStream { x with early := x.early ++ [f] }).deliverStream n f.speer f.vc (x.early.length + 1)

/-- Held flits released in LSEQ order: each goes on unless a route header dropped it (R360, R362). -/
def State.releaseFlits (s : State) (n : Nat) : Nat → State
  | 0 => s
  | fuel + 1 =>
    let l := s.linkAt n
    match takeFirst (fun (f : Flit × Nat) => decide (f.1.lseq = (l.lack + 1) % 256)) l.held with
    | none => s
    | some ((f, _), rest) =>
      let s1 := s.updLink n (fun l => { l with lack := f.lseq, held := rest })
      State.releaseFlits (if f.ftype = 0 then s1.arriveFlit n f else s1) n fuel

/-- A gap that stays open is timed from the first flit that came beyond it: the one before which LACK stood at `lack` goes on
where LACK has not moved, else what is held now lies beyond another (R362). -/
def State.timeGap (s : State) (n lack : Nat) : State :=
  s.updLink n (fun l => { l with
    gapAt := if l.lack = lack ∧ l.gapAt.isSome ∧ l.held ≠ [] then l.gapAt else (l.held.map (·.2)).min? })

/-- A replay request received: counted, with a declaration at the link's threshold, then answered (R362, R376). -/
def State.takeReplay (s : State) (n lack : Nat) : State :=
  let s1 := s.updLink n (fun l => { l with unacked := ackFlits lack l.unacked, replays := bump l.replays })
  let s2 := s1.updUnit 6 n (fun u => { u with replays := u.replays + 1 })
  let u := s2.unitAt 6 n
  (if u.declared = false ∧ u.lthr ≤ u.replays then s2.declareUnit 6 n else s2).resend n

/-- The credits that a flit returns are applied at its sender; a data flit's are those of the one copy that is accepted (R362; log
134). -/
def Link.credited (f : Flit) (l : Link) : Link := { l with used := AMap.set l.used f.cvc ((AMap.get l.used f.cvc).getD 0 - f.cred) }

/-- FLIT: a link receiver takes a flit (R362): a failed check discards it whole and asks for a replay; credits and the
acknowledgement are applied; a data flit is a duplicate, held, or released in order; a flit with an uncorrectable route
header is dropped without an end-to-end acknowledgement (R360). -/
def execFlit (n : Nat) (f : Flit) (checkOk headersOk : Bool) (s : State) : Out :=
  let l := s.linkAt n
  if l.up = false ∨ 112 ≤ n ∨ (n ≥ 48 ∧ l.group = 0) ∨ 256 ≤ f.lseq ∨ 6 ≤ f.vc ∨ 1024 ≤ f.eseq then notEnabled "FLIT"
  else if checkOk = false then .next (s.sendControl n 2 0)
  else
    let s0 := s.updLink n (fun l => { l with unacked := ackFlits f.lack l.unacked })
    let s1 := s0.updLink n (Link.credited f)
    if f.ftype = 2 then .next (s1.takeReplay n f.lack).boundaryDue
    else if f.ftype = 3 ∧ n < 48 then .next (s1.updLink n (fun l => { l with keyRx := f.arg }))
    else if f.ftype ≠ 0 then .next s1
    else
      let d := (f.lseq + 255 - l.lack) % 256
      if 128 ≤ d ∨ l.held.any (fun g => g.1.lseq = f.lseq) then
        .next (s0.updLink n (fun l => { l with linkDup := bump l.linkDup }))
      else
        let s2 := if headersOk then s1
          else
            let s2 := (s1.updLink n (fun l => { l with drops := bump l.drops })).countError 6 n
            s2.emit (s2.unitRec 6 n 0x1C9 0 0 (BitVec.ofNat 64 n) (s2.unitAt 6 n).window)
        let s3 := s2.updLink n (fun l => { l.owes f.vc with
          held := l.held ++ [(if headersOk then f else { f with ftype := 1 }, s.now)] })
        .next (((s3.releaseFlits n (l.held.length + 1)).timeGap n l.lack).payBack n).boundaryDue

/-- REPLAY_REQUEST: a sender resends what is not acknowledged from LACK + 1 (R362). -/
def execReplayRequest (n lack : Nat) (s : State) : Out :=
  if (s.linkAt n).up then .next (s.takeReplay n lack).boundaryDue else notEnabled "REPLAY_REQUEST"

/-- GAP_TIMER: a gap open for 512 delivered cycles makes the receiver ask for a replay (R362). -/
def execGapTimer (n : Nat) (s : State) : Out :=
  match (s.linkAt n).gapAt with
  | some t =>
    if s.now < t + 512 then notEnabled "GAP_TIMER"
    else .next ((s.updLink n (fun l => { l with gapAt := some s.now })).sendControl n 2 0)
  | none => notEnabled "GAP_TIMER"

/-- The pair queue that an end-to-end acknowledgement of a module heads. -/
def State.e2eHead (s : State) (peer : Peer) (vc eseq : Nat) : Option PairKey :=
  (s.mach.net.find? (fun e => decide (e.1.src.peer = peer) && decide (e.1.dst.peer = s.part.peer) &&
    (match e.2.head? with | some p => decide (p.body = .e2eAck vc eseq) | none => false))).map (·.1)

/-- END_TO_END_ACKNOWLEDGEMENT: the copies up to the acknowledged ESEQ are released (R363). -/
def execEndToEndAcknowledgement (peer : Peer) (vc eseq : Nat) (s : State) : Out :=
  match s.e2eHead peer vc eseq with
  | none => notEnabled "END_TO_END_ACKNOWLEDGEMENT"
  | some k =>
    let x := s.streamAt peer vc
    let left := if x.copies.any (fun c => c.1.eseq = eseq) then (x.copies.dropWhile (fun c => c.1.eseq ≠ eseq)).tail else x.copies
    .next ((s.popNet k).setStream { x with copies := left })

/-- END_TO_END_RETRANSMISSION: a flit has stayed unacknowledged for 2^18 delivered cycles: every unacknowledged flit of its
stream is sent again in ESEQ order, as far as the link has room (R363). The link is the stream's, or, once that is down, the
one that R358 gives (log 101), to which new flits do not move before all are acknowledged; a group of fibres that a plan has joined
to another module is the stream's no more. -/
def execEndToEndRetransmission (peer : Peer) (vc : Nat) (s : State) : Out :=
  let x := s.streamAt peer vc
  match x.link with
  | none => notEnabled "END_TO_END_RETRANSMISSION"
  | some n0 =>
    let n := if (s.linkAt n0).up ∧ (n0 < 48 ∨ (s.linkAt n0).peer = peer) then n0 else (s.linkFor peer).getD n0
    if x.copies.any (fun c => decide (c.2 + 2 ^ 18 ≤ s.now)) = false ∨ (s.linkAt n).maySend vc = false then
      notEnabled "END_TO_END_RETRANSMISSION"
    else
      let (s1, cs) := x.copies.foldl (fun (acc : State × List (Flit × Nat)) c =>
        if (acc.1.linkAt n).maySend vc then
          ((acc.1.transmit n c.1).updUnit 6 n (fun u => { u with c4 := bump u.c4 }), acc.2 ++ [(c.1, s.now)])
        else (acc.1, acc.2 ++ [c])) (s, [])
      .next (s1.setStream { s1.streamAt peer vc with copies := cs })

/-- LINK_CHANGE: traffic for a (module, channel) moves to another link once every flit sent on the old one is acknowledged
(R358). -/
def execLinkChange (peer : Peer) (vc : Nat) (s : State) : Out :=
  let x := s.streamAt peer vc
  if x.link.isNone ∨ x.copies ≠ [] ∨ s.linkFor peer = x.link ∨ (s.linkFor peer).isNone then notEnabled "LINK_CHANGE"
  else .next (s.setStream { x with link := s.linkFor peer })

/-! ### Light and keys (R366, R369) -/

/-- The first fibre of the lit group that a fibre belongs to. -/
def State.litGroupOf (s : State) (f : Nat) : Option Nat :=
  (s.litGroups.find? (fun g => decide (g.first ≤ f) && decide (f < g.first + g.size))).map (fun g => 48 + g.first)

/-- LOSS_OF_LIGHT: the receiver drops the dark wavelengths of a fibre from its list, sends the new mask and a replay
request, and emits a record for each, in ascending order (R366, R372, R373). The losses of one cycle are declared in one step
(R372). -/
def execLossOfLight (f : Nat) (ws : List Nat) (s : State) : Out :=
  match s.litGroupOf f with
  | none => notEnabled "LOSS_OF_LIGHT"
  | some n =>
    let l := s.linkAt (48 + f)
    if ws = [] ∨ ws.eraseDups ≠ ws ∨ l.lossAt = some s.now ∨ ws.any (fun w => decide (16 ≤ w) || !l.liveRx.getLsbD w) then notEnabled "LOSS_OF_LIGHT"
    else
      let mask := clearBits l.liveRx ws
      let s1 := (s.updLink (48 + f) (fun l => { l with
        liveRx := mask, dark := l.dark ||| (l.liveRx &&& ~~~mask), lossAt := some s.now })).sendControl n 3 mask.toNat
      let s2 := s1.sendControl n 2 0
      let s3 := ((List.range 16).filter ws.contains).foldl (fun s w =>
        let u := 112 + 16 * f + w
        let s1 := s.countError 6 u
        s1.emit (s1.unitRec 6 u 0x1CA 0 0 (BitVec.ofNat 64 (16 * f + w)) (s1.unitAt 6 u).window)) s2
      .next (s3.checkDark n).boundaryDue

/-- LIVE_MASK: the sender removes dark wavelengths from its list (R366). -/
def execLiveMask (f : Nat) (mask : BitVec 16) (s : State) : Out :=
  match s.litGroupOf f with
  | none => notEnabled "LIVE_MASK"
  | some n => .next ((s.updLink (48 + f) (fun l => { l with liveTx := l.liveTx &&& mask })).checkDark n)

/-- KEY_REPLACEMENT: the integrity key of the sent direction is replaced after 2^32 flits, by a TYPE 3 flit (R369). -/
def execKeyReplacement (n : Nat) (s : State) : Out :=
  let l := s.linkAt n
  if l.up = false ∨ l.intNow = 0 ∨ l.flits < l.keyAt + 2 ^ 32 then notEnabled "KEY_REPLACEMENT"
  else .next ((s.updLink n (fun l => { l with key := l.key + 1, keyAt := l.flits })).sendControl n 3 (l.key + 1))

/-- TRAIN_LINK: on a host command Equinox trains a link; wavelengths, or lanes, whose light is there enter its live lists
(R366); a link that was down is brought up (R362, R369). -/
def execTrainLink (n : Nat) (light : BitVec 16) (s : State) : Out :=
  let live := light &&& s.trainable n
  if s.eqx.ready = false ∨ 112 ≤ n then notEnabled "TRAIN_LINK"
  else if n < 48 then .next (s.trainPort n light)
  else
    match (s.links.filter (fun e => decide (48 ≤ e.1) && decide (e.2.group ≠ 0))).find?
      (fun e => decide (e.1 ≤ n) && decide (n < e.1 + e.2.group)) with
    | none => notEnabled "TRAIN_LINK"
    | some (g, lg) =>
      let s1 := { s.updLink n (fun l => { l with liveRx := live, liveTx := s.farReport n, dark := l.dark &&& ~~~light }) with
        free := s.free + 1 }
      if lg.up then .next (s1.checkDark g)
      else if live = 0 then .next s1
      else
        let s2 := (List.range lg.group).foldl (fun s i => s.updLink (g + i) (fun l =>
          { l.bringUp lg.peer l.liveRx (if i = 0 then lg.group else 0) with liveTx := l.liveTx })) s1
        .next { s2 with peers := s2.peers.map (fun e => if e.1 = lg.peer.toNat then (e.1, setOpt true e.2) else e) }

/-! ### Blocks, the time base, the peer layout table (R6, R349, R370) -/

/-- The live gateway cores of a link (Table 24-1). -/
def State.gatewaysOf (s : State) (n : Nat) : List Nat :=
  let a := if n < 48 then 2 * n else 96 + 2 * ((n - 48) / 4)
  ([a, a + 1].map (· + 7168)).filter s.part.coreLive

/-- GATEWAY_BLOCK: the link's assignment queue places a block, as a class-2 message, on the gateway core that its index
picks (R370). -/
def execGatewayBlock (n : Nat) (s : State) : Out :=
  match (AMap.get s.mach.blocks n).getD [] with
  | [] => notEnabled "GATEWAY_BLOCK"
  | p :: rest =>
    let s0 := { s with mach := { s.mach with blocks := if rest.isEmpty then AMap.del s.mach.blocks n else AMap.set s.mach.blocks n rest } }
    let g := s.gatewaysOf n
    match p.body with
    | .block word payload =>
      if p.job ≠ s.job.tag then .next s0
      else
        match g[word.toNat % 2 ^ 32 % max 1 g.length]? with
        | some c =>
          if (s.coreAt c).room 2 then .next (s0.release c 2 (.block n word payload)) else notEnabled "GATEWAY_BLOCK"
        | none => .next s0
    | _ => .next s0

/-- TIME_MESSAGE: a fabric time message aligns this copy of the global time base (R6), which never falls (R248): a message
behind it changes nothing (log 100). -/
def execTimeMessage (t : Word) (s : State) : Out :=
  .next (if t.toNat ≤ s.time.toNat then s else { s with time := t, timeRem := 0 })

/-- A peer's layout enters the peer layout table (R349). A peer that the map had outside the partition or unpopulated is
live from then on, reachable by what links are up, and gets this module's entry: that is the bring-up of the partition with
it (log 50). -/
def State.takeLayout (s : State) (peer : Peer) (l : PeerLayout) : State :=
  let old := (AMap.get s.peers peer.toNat).getD 0
  let s1 : State := { s with layouts := AMap.set s.layouts peer.toNat l }
  if old.toNat / 32 ≤ 1 then
    let new := setElec (s.elecTo peer.toNat) (setOpt (s.litGroups.any (fun g => g.peer = peer)) 0x60)
    { s1 with peers := AMap.set s.peers peer.toNat new }.sendLayout peer
  else s1

/-- PEER_LAYOUT_ENTRY: a peer's Equinox sends its layout, at partition bring-up or after a job boundary of its own (R349). -/
def execPeerLayoutEntry (peer : Peer) (l : PeerLayout) (s : State) : Out :=
  if peer = s.part.peer then notEnabled "PEER_LAYOUT_ENTRY" else .next (s.takeLayout peer l)

end Sys2Proof.Machine
end

