-- ==== Sys2Proof/Machine/Deliver.lean ====
section
/-! DEFINITION. DELIVER (R45): what heads a pair queue goes to its destination: a home's perform queue, an engine's queue or
hold, an inbox, a stub, a unit of the module, or, for another module, a link. -/

namespace Sys2Proof.Machine

open Sys2Proof

/-- A job slot's queue whose entry has been performed moves past it (R324). -/
def State.entryDone (s : State) (j q : Nat) : State :=
  s.updQueue j q (fun x => { x with prog := (x.prog + 1) % 65536, busy := false })

/-- A tile command arrives at an engine: its queue of 16, then the hold of 64 (R222). -/
def State.takeCmd (s : State) (e : Nat) (c : Cmd) : Option State :=
  let k := s.engineAt e
  if k.hold.isEmpty ∧ k.queue.length < 16 then some (s.updEngine e (fun k => { k with queue := k.queue ++ [c] }))
  else if k.hold.length < 64 then some (s.updEngine e (fun k => { k with hold := k.hold ++ [c] }))
  else none

/-- The shape continuation joins its command (R118): the first from that slot of module `peer` that waits for one. -/
def joinCont (peer : Peer) (core slot : Nat) (gen : BitVec 16) (shB : BitVec 128) : List Cmd → Option (List Cmd)
  | [] => none
  | c :: t =>
    if c.waits ∧ c.peer = peer ∧ c.core = core ∧ c.slot = slot ∧ c.gen = gen then some ({ c with shB := shB, waits := false } :: t)
    else (joinCont peer core slot gen shB t).map (fun l => c :: l)

/-- A shape continuation arrives at an engine (R118); one for which no command waits is dropped. -/
def State.takeCont (s : State) (e : Nat) (peer : Peer) (core slot : Nat) (gen : BitVec 16) (shB : BitVec 128) : State :=
  s.updEngine e (fun k =>
    match joinCont peer core slot gen shB k.queue with
    | some q => { k with queue := q }
    | none =>
      match joinCont peer core slot gen shB k.hold with
      | some q => { k with hold := q }
      | none => k)

/-- A message or notice arrives at a core. A channel message goes on to its check by R180, while the tile has room for what
waits (R297); a completion and a task of Equinox enter the inbox while it has room (R30). -/
def State.deliverCore (s : State) (c : Nat) (p : Packet) : Option State :=
  let k := s.coreAt c
  match p.body with
  | .msg m =>
    if k.holds m ∧ 256 ≤ s.heldOfTile c then none else some (s.updCore c (fun k => { k with arrivals := k.arrivals ++ [m] }))
  | .completion _ status sl gen matrix counted _ follow leases =>
    if k.room 1 then
      let s1 := (s.release c 1 (.pkt p)).foreignEnd c p sl gen follow (status.toNat % 512) leases
      some (if counted then (s1.commandDone c sl gen matrix p.tag).settleExits c else s1)
    else none
  | .task word payload carried => if k.room 0 then some (s.release c 0 (.direct word payload none 0 carried)) else none
  | .stubTold ident gen holder newGen made insts done => some (s.stubTold c ident gen (holder, newGen) made insts done)
  | .recvClose ident _ => some (s.stubDrop c ident)
  | .context sl levels => s.takeContext c p.slot sl levels
  | _ => none

/-- Bodies that a home takes from its perform queue. -/
def forHomeQueue : Body → Bool
  | .load _ _ _ | .ldFe _ _ _ _ | .store _ _ _ _ _ | .atomic _ _ _ _ _ _ | .fetch _ _ _ _ _ | .fetched _ _ | .redeem _ _ _ | .tkDrop _
  | .tkQuery _ _ | .dropMarker _ _ _ | .drainMarker _ _ _ _ | .chCreate _ _ | .chInst _ _ | .chClose _ _ | .recvClose _ _ | .moving _ _ _
  | .landing _ _ _ _ | .retired _ _ | .returned _ | .port _ _ _ _ _ | .count _ _ | .farCount _ _ | .farKilled _ _ | .cancelReq _
  | .farCancel _ => true
  | _ => false

/-- What Equinox takes: circ requests, completions for channel H, and the answers to queue entries. -/
def State.deliverEquinox (s : State) (p : Packet) : Option State :=
  match p.body with
  | .circReq plan treply peer core level =>
    some (s.takeCircReq { plan := plan, treply := treply, peer := peer, core := core, level := level })
  | .circHold plan => s.takeCircHold p.src.peer plan
  | .circHeld ok => some (s.takeCircHeld p.src.peer ok)
  | .circLight => some s.takeCircLight
  | .circTrained ok => some (s.takeCircTrained p.src.peer ok)
  | .circEnd lit => some (s.takeCircEnd lit)
  | .circRaised => some (s.takeCircRaised p.src.peer)
  | .stopAt out into t => some (s.takeStopAt p.src.peer out into t)
  | .resumeAt into t => some (s.takeResumeAt p.src.peer into t)
  | .switchLate => some s.takeLate
  | .switchWithdrawn stop => some (s.takeWithdrawn p.src.peer stop)
  | .switchDone => some (s.takeDone p.src.peer)
  | .shootReq tag base len => some (s.takeShoot p.src.peer tag base len)
  | .shootDone base len => some (s.shootEnds p.src.peer base len)
  | .layout l => some (if p.src.peer = s.part.peer then s else s.takeLayout p.src.peer l)
  | .hDone rec status => some { s with mach := { s.mach with hQueue := s.mach.hQueue ++ [(rec, status)] } }
  | .ack (some q) => (s.slotOfTag p.job).map (fun j => s.entryDone j q)
  | .refusedWrite (some q) _ _ => (s.slotOfTag p.job).map (fun j => s.entryDone j q)
  | _ => none

/-- The head of a pair queue given to its destination on this module; none where it has a step of its own or no room. -/
def State.deliverHere (s : State) (k : PairKey) (p : Packet) : Option State :=
  match k.dst.agent with
  | .home h =>
    if forHomeQueue p.body = false then none
    else if k.cls = 4 then some (s.arriveHome h k.src p) else some (s.enterHome h p)
  | .engine e =>
    match p.body with
    | .cmd c => s.takeCmd e c
    | .shapeCont core slot gen shB => some (s.takeCont e p.src.peer core slot gen shB)
    | _ => none
  | .core c => if s.spills p.body then none else s.deliverCore c p
  | .drawUnit d =>
    match p.body with
    | .draw _ _ _ | .removal _ _ => some (s.updDraw d (fun u => { u with q := u.q ++ [p] }))
    | _ => none
  | .router c =>
    match p.body with
    | .contrib _ _ _ _ _ | .stageLoad _ _ _ | .ack _ | .refusedWrite _ _ _ => some (s.updCluster c (fun u => { u with inbox := u.inbox ++ [p] }))
    | _ => none
  | .armature =>
    match p.body with
    | .sealReq on base len treply core level => some (s.beginSeal on base len treply core level)
    | .reserve pa => some (s.reserveSlot p.src pa)
    | .reserved pick => some (s.slotAnswered p.src.peer pick)
    | .unreserve c l => some (s.unreserve c l)
    | .levelAway key => some (s.levelAway p.src.peer key)
    | .levelNews keys n => some (s.levelNews keys n)
    | .pageMoved old new dst data poison dies peers => some (s.pageMoved p.src.peer old new dst data poison dies peers)
    | .moveFlag frame on => some (s.putMove p.src.peer frame on)
    | .prefCount pa src => some (s.countPref pa src)
    | .pageAsk old => some (s.takePageAsk p.src.peer old)
    | .pageRoom old new => some (s.takePageRoom p.src.peer old new)
    | .pageBack old new => some (s.takePageBack p.src.peer old new)
    | .sealRange a base len => some (s.takeSeal p.src.peer a base len)
    | .sealQuiet base len => some (s.takeQuiet p.src.peer base len)
    | .sealDone base len => some (s.sealAnswered p.src.peer base len)
    | _ => none
  | .equinox => s.deliverEquinox p
  | .gateway n =>
    match p.body with
    | .block _ _ => some { s with mach := { s.mach with blocks := AMap.set s.mach.blocks n ((AMap.get s.mach.blocks n).getD [] ++ [p]) } }
    | _ => none
  | .host => none

/-- DELIVER: the head of a pair queue leaves it. A message of a job that the module does not run is refused at arrival (R41,
R326); an access of one is refused at its home. Management traffic is of no job (Table 24-4). -/
def execDeliver (k : PairKey) (s : State) : Out :=
  match s.headOf k with
  | none => notEnabled "DELIVER"
  | some p =>
    if k.dst.peer ≠ s.part.peer then
      match s.depart k p with
      | some s1 => .next s1
      | none => notEnabled "DELIVER"
    else if k.cls ≠ 4 ∧ p.job ≠ s.job.tag ∧ p.job ≠ 0 then .next (s.popNet k)
    else
      match (s.popNet k).deliverHere k p with
      | some s1 => .next s1
      | none => notEnabled "DELIVER"

end Sys2Proof.Machine
end

