-- ==== Sys2Proof/Machine/Scalar.lean ====
section
/-! DEFINITION. The integer register forms, the immediate forms and the shift and bit-field forms of majors 0x01 to 0x07
(R119 to R126): each takes its whole effect in its issue step. -/

namespace Sys2Proof.Machine

open Sys2Proof

/-- Quotient of R122: all ones for a zero divisor, truncated towards zero, the one overflow wrapping. -/
def divide {n : Nat} (uns : Bool) (a b : BitVec n) : BitVec n :=
  if b = 0 then BitVec.allOnes n else if uns then a / b else a.sdiv b

/-- Remainder of R122: the dividend for a zero divisor, else with the dividend's sign. -/
def remainder {n : Nat} (uns : Bool) (a b : BitVec n) : BitVec n :=
  if b = 0 then a else if uns then a % b else a.srem b

/-- The high half of the exact product (R121, `mulh`). -/
def mulHigh (uns : Bool) (a b : Word) : Word :=
  if uns then BitVec.ofNat 64 (a.toNat * b.toNat / 2 ^ 64) else BitVec.ofInt 64 (a.toInt * b.toInt / 2 ^ 64)

/-- A shift count, modulo the width (R121). -/
def shiftCount {n : Nat} (b : BitVec n) : Nat := b.toNat % n

/-- Zero bits above the highest one (R121). -/
def clz {n : Nat} (a : BitVec n) : BitVec n := BitVec.ofNat n (if a = 0 then n else n - 1 - Nat.log2 a.toNat)

/-- Zero bits below the lowest one, found bit by bit (R121). -/
def ctzGo {n : Nat} (a : BitVec n) : Nat → Nat → Nat
  | 0, i => i
  | fuel + 1, i => if a.getLsbD i then i else ctzGo a fuel (i + 1)

def ctz {n : Nat} (a : BitVec n) : BitVec n := BitVec.ofNat n (ctzGo a n 0)

/-- Ones of a word (R121). -/
def popc {n : Nat} (a : BitVec n) : BitVec n := BitVec.ofNat n (countOnes a n)

/-- An operation at width 64, or at width 32 on the low halves with its result sign-extended (R120). -/
def atWidth (w : BitVec 1) (f : {n : Nat} → BitVec n → BitVec n → BitVec n) (a b : Word) : Word :=
  if w = 1 then sx (f (a.setWidth 32) (b.setWidth 32)) else f a b

/-- A register form: X[rd] := f X[ra] X[rb] (R121). -/
def regForm (i : Instr) (d a b : Reg) (f : Word → Word → Word) (s : State) : Out :=
  writeX i { reads := [xr a, xr b] } d (fun sl => f (sl.rx a) (sl.rx b)) s

/-- A unary or immediate form: X[rd] := f X[ra] (R121, R123 to R125). -/
def unForm (i : Instr) (d a : Reg) (f : Word → Word) (s : State) : Out :=
  writeX i { reads := [xr a] } d (fun sl => f (sl.rx a)) s

/-- The smaller or larger of two words (R121). -/
def pick (mx uns : Bool) (a b : Word) : Word := if lessThan uns a b != mx then a else b

/-- A truth value as a result. -/
def bit (b : Bool) : Word := if b then 1 else 0

/-- `add` (R121). -/
def execAdd (d a b : Reg) (w : BitVec 1) (s : State) : Out :=
  regForm (.add d a b w) d a b (atWidth w (fun a b => a + b)) s

/-- `sub` (R121). -/
def execSub (d a b : Reg) (w : BitVec 1) (s : State) : Out :=
  regForm (.sub d a b w) d a b (atWidth w (fun a b => a - b)) s

/-- `mul` (R121). -/
def execMul (d a b : Reg) (w : BitVec 1) (s : State) : Out :=
  regForm (.mul d a b w) d a b (atWidth w (fun a b => a * b)) s

/-- `sll` (R121). -/
def execSll (d a b : Reg) (w : BitVec 1) (s : State) : Out :=
  regForm (.sll d a b w) d a b (atWidth w (fun a b => a <<< shiftCount b)) s

/-- `srl` (R121). -/
def execSrl (d a b : Reg) (w : BitVec 1) (s : State) : Out :=
  regForm (.srl d a b w) d a b (atWidth w (fun a b => a >>> shiftCount b)) s

/-- `sra` (R121). -/
def execSra (d a b : Reg) (w : BitVec 1) (s : State) : Out :=
  regForm (.sra d a b w) d a b (atWidth w (fun a b => a.sshiftRight (shiftCount b))) s

/-- `rot` (R121). -/
def execRot (d a b : Reg) (w : BitVec 1) (s : State) : Out :=
  regForm (.rot d a b w) d a b (atWidth w (fun a b => a.rotateRight (shiftCount b))) s

/-- `mulh` (R121). -/
def execMulh (d a b : Reg) (n : BitVec 1) (s : State) : Out :=
  regForm (.mulh d a b n) d a b (mulHigh (n = 1)) s

/-- `div` (R122). -/
def execDiv (d a b : Reg) (w n : BitVec 1) (s : State) : Out :=
  regForm (.div d a b w n) d a b (atWidth w (divide (n = 1))) s

/-- `rem` (R122). -/
def execRem (d a b : Reg) (w n : BitVec 1) (s : State) : Out :=
  regForm (.rem d a b w n) d a b (atWidth w (remainder (n = 1))) s

/-- `and` (R121). -/
def execAnd (d a b : Reg) (s : State) : Out :=
  regForm (.and d a b) d a b (fun a b => a &&& b) s

/-- `or` (R121). -/
def execOr (d a b : Reg) (s : State) : Out :=
  regForm (.or d a b) d a b (fun a b => a ||| b) s

/-- `xor` (R121). -/
def execXor (d a b : Reg) (s : State) : Out :=
  regForm (.xor d a b) d a b (fun a b => a ^^^ b) s

/-- `andn` (R121). -/
def execAndn (d a b : Reg) (s : State) : Out :=
  regForm (.andn d a b) d a b (fun a b => a &&& ~~~b) s

/-- `clz` (R121). -/
def execClz (d a : Reg) (w : BitVec 1) (s : State) : Out :=
  unForm (.clz d a w) d a (fun a => atWidth w (fun x _ => clz x) a 0) s

/-- `ctz` (R121). -/
def execCtz (d a : Reg) (w : BitVec 1) (s : State) : Out :=
  unForm (.ctz d a w) d a (fun a => atWidth w (fun x _ => ctz x) a 0) s

/-- `popc` (R121). -/
def execPopc (d a : Reg) (w : BitVec 1) (s : State) : Out :=
  unForm (.popc d a w) d a (fun a => atWidth w (fun x _ => popc x) a 0) s

/-- `min` (R121). -/
def execMin (d a b : Reg) (n : BitVec 1) (s : State) : Out :=
  regForm (.min d a b n) d a b (pick false (n = 1)) s

/-- `max` (R121). -/
def execMax (d a b : Reg) (n : BitVec 1) (s : State) : Out :=
  regForm (.max d a b n) d a b (pick true (n = 1)) s

/-- `slt` (R121). -/
def execSlt (d a b : Reg) (n : BitVec 1) (s : State) : Out :=
  regForm (.slt d a b n) d a b (fun x y => bit (lessThan (n = 1) x y)) s

/-- `sel`, which reads xd as its condition (R121). -/
def execSel (d a b : Reg) (s : State) : Out :=
  writeX (.sel d a b) { reads := [xr a, xr b, xr d] } d
    (fun sl => if sl.rx d ≠ 0 then sl.rx a else sl.rx b) s

/-- `sext.b` (R121). -/
def execSextB (d a : Reg) (s : State) : Out :=
  unForm (.sextB d a) d a (fun a => sx (a.setWidth 8)) s

/-- `sext.h` (R121). -/
def execSextH (d a : Reg) (s : State) : Out :=
  unForm (.sextH d a) d a (fun a => sx (a.setWidth 16)) s

/-- `sext.w` (R121). -/
def execSextW (d a : Reg) (s : State) : Out :=
  unForm (.sextW d a) d a (fun a => sx (a.setWidth 32)) s

/-- `zext.b` (R121). -/
def execZextB (d a : Reg) (s : State) : Out :=
  unForm (.zextB d a) d a (fun a => zx (a.setWidth 8)) s

/-- `zext.h` (R121). -/
def execZextH (d a : Reg) (s : State) : Out :=
  unForm (.zextH d a) d a (fun a => zx (a.setWidth 16)) s

/-- `zext.w` (R121). -/
def execZextW (d a : Reg) (s : State) : Out :=
  unForm (.zextW d a) d a (fun a => zx (a.setWidth 32)) s

/-- `add` with a 16-bit immediate (R123). -/
def execAddImm (d a : Reg) (i : BitVec 16) (s : State) : Out :=
  unForm (.addImm d a i) d a (fun a => a + sx i) s

/-- `and` with a 16-bit immediate (R123). -/
def execAndImm (d a : Reg) (i : BitVec 16) (s : State) : Out :=
  unForm (.andImm d a i) d a (fun a => a &&& zx i) s

/-- `or` with a 16-bit immediate (R123). -/
def execOrImm (d a : Reg) (i : BitVec 16) (s : State) : Out :=
  unForm (.orImm d a i) d a (fun a => a ||| zx i) s

/-- The 12-bit immediate form `xor` (R124). -/
def execXorImm (d a : Reg) (i : BitVec 12) (s : State) : Out :=
  unForm (.xorImm d a i) d a (fun a => a ^^^ sx i) s

/-- The 12-bit immediate form `slt` (R124). -/
def execSltImm (d a : Reg) (i : BitVec 12) (s : State) : Out :=
  unForm (.sltImm d a i) d a (fun a => bit (lessThan false a (sx i))) s

/-- The 12-bit immediate form `sltN` (R124). -/
def execSltNImm (d a : Reg) (i : BitVec 12) (s : State) : Out :=
  unForm (.sltNImm d a i) d a (fun a => bit (lessThan true a (sx i))) s

/-- The 12-bit immediate form `addW` (R124). -/
def execAddWImm (d a : Reg) (i : BitVec 12) (s : State) : Out :=
  unForm (.addWImm d a i) d a (fun a => atWidth 1 (fun x y => x + y) a (sx i)) s

/-- The 12-bit immediate form `mul` (R124). -/
def execMulImm (d a : Reg) (i : BitVec 12) (s : State) : Out :=
  unForm (.mulImm d a i) d a (fun a => a * sx i) s

/-- The 12-bit immediate form `min` (R124). -/
def execMinImm (d a : Reg) (i : BitVec 12) (s : State) : Out :=
  unForm (.minImm d a i) d a (fun a => pick false false a (sx i)) s

/-- The 12-bit immediate form `max` (R124). -/
def execMaxImm (d a : Reg) (i : BitVec 12) (s : State) : Out :=
  unForm (.maxImm d a i) d a (fun a => pick true false a (sx i)) s

/-- The 12-bit immediate form `minN` (R124). -/
def execMinNImm (d a : Reg) (i : BitVec 12) (s : State) : Out :=
  unForm (.minNImm d a i) d a (fun a => pick false true a (sx i)) s

/-- The 12-bit immediate form `maxN` (R124). -/
def execMaxNImm (d a : Reg) (i : BitVec 12) (s : State) : Out :=
  unForm (.maxNImm d a i) d a (fun a => pick true true a (sx i)) s

/-- `sll` by an immediate count (R125). -/
def execSllImm (d a : Reg) (c : BitVec 6) (s : State) : Out :=
  unForm (.sllImm d a c) d a (fun a => atWidth 0 (fun x y => x <<< shiftCount y) a (zx c)) s

/-- `sll.w` by an immediate count (R125). -/
def execSllWImm (d a : Reg) (c : BitVec 6) (s : State) : Out :=
  unForm (.sllWImm d a c) d a (fun a => atWidth 1 (fun x y => x <<< shiftCount y) a (zx c)) s

/-- `srl` by an immediate count (R125). -/
def execSrlImm (d a : Reg) (c : BitVec 6) (s : State) : Out :=
  unForm (.srlImm d a c) d a (fun a => atWidth 0 (fun x y => x >>> shiftCount y) a (zx c)) s

/-- `srl.w` by an immediate count (R125). -/
def execSrlWImm (d a : Reg) (c : BitVec 6) (s : State) : Out :=
  unForm (.srlWImm d a c) d a (fun a => atWidth 1 (fun x y => x >>> shiftCount y) a (zx c)) s

/-- `sra` by an immediate count (R125). -/
def execSraImm (d a : Reg) (c : BitVec 6) (s : State) : Out :=
  unForm (.sraImm d a c) d a (fun a => atWidth 0 (fun x y => x.sshiftRight (shiftCount y)) a (zx c)) s

/-- `sra.w` by an immediate count (R125). -/
def execSraWImm (d a : Reg) (c : BitVec 6) (s : State) : Out :=
  unForm (.sraWImm d a c) d a (fun a => atWidth 1 (fun x y => x.sshiftRight (shiftCount y)) a (zx c)) s

/-- `rot` by an immediate count (R125). -/
def execRotImm (d a : Reg) (c : BitVec 6) (s : State) : Out :=
  unForm (.rotImm d a c) d a (fun a => atWidth 0 (fun x y => x.rotateRight (shiftCount y)) a (zx c)) s

/-- `rot.w` by an immediate count (R125). -/
def execRotWImm (d a : Reg) (c : BitVec 6) (s : State) : Out :=
  unForm (.rotWImm d a c) d a (fun a => atWidth 1 (fun x y => x.rotateRight (shiftCount y)) a (zx c)) s

/-- Ones in the low `n` bits. -/
def maskLow (n : Nat) : Word := BitVec.ofNat 64 (2 ^ n - 1)

/-- `bfx`: bits [lsb + width - 1 : lsb], zero-extended (R125). -/
def execBfx (d a : Reg) (l w : BitVec 6) (s : State) : Out :=
  unForm (.bfx d a l w) d a (fun a => (a >>> l.toNat) &&& maskLow (w.toNat + 1)) s

/-- `bfi`: the field of xd at lsb replaced by the low bits of xa; xd is read (R125). -/
def execBfi (d a : Reg) (l w : BitVec 6) (s : State) : Out :=
  writeX (.bfi d a l w) { reads := [xr a, xr d] } d
    (fun sl => (sl.rx d &&& ~~~(maskLow (w.toNat + 1) <<< l.toNat)) |||
      ((sl.rx a &&& maskLow (w.toNat + 1)) <<< l.toNat)) s

/-- `lui` (R123). -/
def execLui (d : Reg) (i : BitVec 16) (s : State) : Out :=
  writeX (.lui d i) {} d (fun _ => sx i <<< 16) s

/-- `auipc`: PC is the address of the instruction itself (R123). -/
def execAuipc (d : Reg) (i : BitVec 16) (s : State) : Out :=
  writeX (.auipc d i) {} d (fun sl => sl.pc + (sx i <<< 16)) s

end Sys2Proof.Machine
end

