-- ==== Sys2Proof/Machine/ScalarFp.lean ====
section
/-! DEFINITION. Scalar FP32 (R127 to R131), majors 0x08 and 0x09: operands are bits [31:0] of a register, results are
written with bits [63:32] zero, and each rounded result is rounded once by `FRM`.MODE as it stands at issue. -/

namespace Sys2Proof.Machine

open Sys2Proof

/-- The FP32 value of a register. -/
def f32Of (a : Word) : Val := decodeElt 0 (a.toNat % 2 ^ 32)

/-- An FP32 result (R77, R127). -/
def toF32 (mode : BitVec 2) (v : Val) : Word := BitVec.ofNat 64 (arith 0 (arithRnd mode) v)

/-- A two-operand FP32 form. -/
def fpForm (i : Instr) (d a b : Reg) (f : Val → Val → Val) (s : State) : Out :=
  writeX i { reads := [xr a, xr b] } d (fun sl => toF32 sl.frm (f (f32Of (sl.rx a)) (f32Of (sl.rx b)))) s

/-- `fadd` (R127). -/
def execFadd (d a b : Reg) (s : State) : Out := fpForm (.fadd d a b) d a b Val.add s

/-- `fsub` (R127). -/
def execFsub (d a b : Reg) (s : State) : Out := fpForm (.fsub d a b) d a b (fun x y => x.add y.neg) s

/-- `fmul` (R127). -/
def execFmul (d a b : Reg) (s : State) : Out := fpForm (.fmul d a b) d a b Val.mul s

/-- `fdiv` (R127). -/
def execFdiv (d a b : Reg) (s : State) : Out := fpForm (.fdiv d a b) d a b Val.div s

/-- `fmin` and `fmax` on codes (R128). -/
def fpPick (i : Instr) (mx : Bool) (d a b : Reg) (s : State) : Out :=
  writeX i { reads := [xr a, xr b] } d
    (fun sl => BitVec.ofNat 64 (minmax 0 mx ((sl.rx a).toNat % 2 ^ 32) ((sl.rx b).toNat % 2 ^ 32))) s

/-- `fmin` (R128). -/
def execFmin (d a b : Reg) (s : State) : Out := fpPick (.fmin d a b) false d a b s

/-- `fmax` (R128). -/
def execFmax (d a b : Reg) (s : State) : Out := fpPick (.fmax d a b) true d a b s

/-- `fabs`: bit 31 cleared for every code (R127). -/
def execFabs (d a : Reg) (s : State) : Out :=
  writeX (.fabs d a) { reads := [xr a] } d (fun sl => sl.rx a &&& 0x7FFFFFFF) s

/-- `fcmp` of a relation (R129). -/
def fpCompare (i : Instr) (cc : Nat) (d a b : Reg) (s : State) : Out :=
  writeX i { reads := [xr a, xr b] } d
    (fun sl => if fcmpRel cc ((sl.rx a).toNat % 2 ^ 32) ((sl.rx b).toNat % 2 ^ 32) then 1 else 0) s

/-- `fcmp.eq` (R129). -/
def execFcmpEq (d a b : Reg) (s : State) : Out := fpCompare (.fcmpEq d a b) 0 d a b s

/-- `fcmp.ne` (R129). -/
def execFcmpNe (d a b : Reg) (s : State) : Out := fpCompare (.fcmpNe d a b) 1 d a b s

/-- `fcmp.lt` (R129). -/
def execFcmpLt (d a b : Reg) (s : State) : Out := fpCompare (.fcmpLt d a b) 2 d a b s

/-- `fcmp.le` (R129). -/
def execFcmpLe (d a b : Reg) (s : State) : Out := fpCompare (.fcmpLe d a b) 3 d a b s

/-- `fcmp.gt` (R129). -/
def execFcmpGt (d a b : Reg) (s : State) : Out := fpCompare (.fcmpGt d a b) 4 d a b s

/-- `fcmp.ge` (R129). -/
def execFcmpGe (d a b : Reg) (s : State) : Out := fpCompare (.fcmpGe d a b) 5 d a b s

/-- A signed 64-bit integer as an exact value. -/
def intVal (a : Word) : Val := .num (decide (a.toInt < 0)) a.toInt.natAbs 1

/-- `fcvt.f32.i` (R127, R130). -/
def execFcvtF32I (d a : Reg) (s : State) : Out :=
  writeX (.fcvtF32I d a) { reads := [xr a] } d (fun sl => toF32 sl.frm (intVal (sl.rx a))) s

/-- An FP32 value as a saturated signed 64-bit integer (R130). -/
def toI64 (rnd : Rnd) (v : Val) : Word :=
  match v with
  | .nan _ => 0
  | .inf n => BitVec.ofNat 64 (satInt 64 n (2 ^ 64))
  | .num n p q => BitVec.ofNat 64 (satInt 64 n (roundInt rnd p q))

/-- `fcvt.i.f32` (R130). -/
def execFcvtIF32 (d a : Reg) (s : State) : Out :=
  writeX (.fcvtIF32 d a) { reads := [xr a] } d (fun sl => toI64 (arithRnd sl.frm) (f32Of (sl.rx a))) s

/-- `fcvt.f32.bf16`, exactly; a NaN keeps its sign (R77, R127). -/
def execFcvtF32Bf16 (d a : Reg) (s : State) : Out :=
  writeX (.fcvtF32Bf16 d a) { reads := [xr a] } d
    (fun sl => BitVec.ofNat 64 (convert 0 .rne (decodeElt 1 ((sl.rx a).toNat % 2 ^ 16)))) s

/-- `fcvt.bf16.f32` by Table 04-7 (R127). -/
def execFcvtBf16F32 (d a : Reg) (s : State) : Out :=
  writeX (.fcvtBf16F32 d a) { reads := [xr a] } d
    (fun sl => BitVec.ofNat 64 (convert 1 (arithRnd sl.frm) (f32Of (sl.rx a)))) s

/-- `fma`: a × b + c rounded once, specials on the exact operation (R131). -/
def execFma (d a b c : Reg) (s : State) : Out :=
  writeX (.fma d a b c) { reads := [xr a, xr b, xr c] } d
    (fun sl => toF32 sl.frm (((f32Of (sl.rx a)).mul (f32Of (sl.rx b))).add (f32Of (sl.rx c)))) s

end Sys2Proof.Machine
end

