-- ==== Sys2Proof/Machine/TicketHome.lean ====
section
/-! DEFINITION. Tickets at their home (R51, R52, R156, R157, R160, R161, R278, R279) and redemptions as they land (R158). -/

namespace Sys2Proof.Machine

open Sys2Proof

/-- Entries of a home's ticket table (R156, R157). -/
def ticketRoom (h : Nat) : Nat := if h < 1024 then 256 else 4096

/-- A ticket names a record: CORE, NUM and GEN. -/
def namesTicket (t : Word) (core num : Nat) (gen : BitVec 6) : Bool :=
  decide (tkCoreOf t = core) && decide (tkNumOf t = num) && decide (tkGenOf t = gen.toNat)

def namesRec (t : Word) (r : TkRec) : Bool := namesTicket t r.core r.num r.gen

/-- A record pushed on a list of 64, the oldest leaving (R156). -/
def pushRec (l : List TkRec) (r : TkRec) : List TkRec := if 64 ≤ l.length then l.tail ++ [r] else l ++ [r]

/-- The release notice to the issuing core (R154). -/
def State.releaseTicket (s : State) (h : Nat) (peer : Peer) (core num : Nat) (gen : BitVec 6) : State :=
  s.post (.home h) { peer := peer, agent := .core core } 4 (.release num gen) 0 0

/-- The first run of `n` free blocks of a tile home port's snapshot pool of 512 (R157; log 36). -/
def freeRun (l : List Ticket) (n : Nat) : Option Nat :=
  (List.range (513 - n)).find? (fun b => l.all (fun t => decide (t.block + t.blocks ≤ b) || decide (b + n ≤ t.block)))

/-- How a redemption is answered at its home (Table 08-6). -/
inductive RdmAnswer where
  | sent (t : Ticket)
  | refused (kind : BitVec 2) (dropLost : Bool)
  | hold
  deriving DecidableEq, Repr

/-- The lease of an entry has ended, and what arrived at clock `at_` was not yet in the perform queue then (R161, R278). -/
def State.leaseOver (s : State) (e : Ticket) (at_ : Nat) : Bool :=
  decide (e.at_ + 2 ^ s.job.lease ≤ s.mach.clock) && decide (e.at_ + 2 ^ s.job.lease ≤ at_)

/-- Table 08-6 in the order of its rows, for a redemption that arrived at clock `at_`; an entry whose lease it finds ended
answers as reclaimed (R161), and a fenced home answers what it holds as lost (R377). -/
def State.matchRdm (s : State) (h : Nat) (t : Word) (job : BitVec 16) (at_ : Nat) : RdmAnswer :=
  let q := s.homeAt h
  let entry := q.tickets.find? (fun e => namesTicket t e.core e.num e.gen)
  if s.part.fenced.contains h ∧ (entry.isSome ∨ q.lost.any (namesRec t) ∨ q.expired.any (namesRec t)) then .refused 3 false
  else
    match entry with
    | some e => if s.leaseOver e at_ then .refused 1 false else if e.job ≠ job then .refused 2 false else .sent e
    | none =>
      if q.lost.any (namesRec t) then .refused 3 true
      else if q.expired.any (namesRec t) then .refused 1 false
      else
        match AMap.get q.fetched (tkCoreOf t * 256 + tkNumOf t) with
        | some at_ => if s.mach.clock ≤ at_ + 2 ^ 20 then .refused 0 false else .hold
        | none => .hold

/-- The answer sent, if it is one; `true` says that the redemption is to be held (R52, R156). -/
def State.answerRdm (s : State) (h : Nat) (p : Packet) (t : Word) (dst : RdmDst) (at_ : Nat) : State × Bool :=
  match s.matchRdm h t p.job at_ with
  | .sent e =>
    let s1 := s.updHome h (fun q => { q with tickets := q.tickets.filter (fun x => !namesTicket t x.core x.num x.gen) })
    ((s1.reply h p (.snapshot dst t e.data e.poison e.fmt e.scale e.elt)).releaseTicket h e.peer e.core e.num e.gen, false)
  | .refused k dropLost =>
    let s1 := if dropLost then
        s.updHome h (fun q => { q with lost := match takeFirst (namesRec t) q.lost with | some (_, r) => r | none => q.lost })
      else s
    (s1.reply h p (.refusedRdm dst t k), false)
  | .hold => (s, true)

/-- A redemption matched and answered, or held (R52, R156). -/
def State.doRedeem (s : State) (h : Nat) (p : Packet) (t : Word) (dst : RdmDst) (at_ : Nat) : State :=
  match s.answerRdm h p t dst at_ with
  | (s1, false) => s1
  | (s1, true) => s1.updHome h (fun q => { q with heldRdm := q.heldRdm ++ [(p, s.mach.clock + 2 ^ 20)] })

/-- A drop: a matching entry is freed (R160). -/
def State.doDrop (s : State) (h : Nat) (p : Packet) (t : Word) : State :=
  match takeFirst (fun (e : Ticket) => namesTicket t e.core e.num e.gen && decide (e.job = p.job)) (s.homeAt h).tickets with
  | some (e, r) =>
    if s.leaseOver e s.mach.clock then s
    else (s.updHome h (fun q => { q with tickets := r })).releaseTicket h e.peer e.core e.num e.gen
  | none => s

/-- The state of a ticket for `tkq` (R160). -/
def State.ticketState (s : State) (h : Nat) (t : Word) (job : BitVec 16) : Nat :=
  let q := s.homeAt h
  let entry := q.tickets.find? (fun e => namesTicket t e.core e.num e.gen)
  if s.part.fenced.contains h ∧ (entry.isSome ∨ q.expired.any (namesRec t)) then 4
  else
    match entry with
    | some e => if s.leaseOver e s.mach.clock then 3 else if e.job = job then 1 else 5
    | none => if q.lost.any (namesRec t) then 4 else if q.expired.any (namesRec t) then 3 else 2

/-- A query answered (R160). -/
def State.doQuery (s : State) (h : Nat) (p : Packet) (t : Word) (r : Reg) : State :=
  s.reply h p (.value (.xreg r false 8) (BitVec.ofNat 512 (s.ticketState h t p.job)) none)

/-- The ticket that an item of a perform queue redeems, drops or asks for. -/
def ticketOfItem (p : Packet) : Option Word :=
  match p.body with
  | .redeem t _ _ | .tkDrop t | .tkQuery t _ => some t
  | _ => none

/-- Two tickets name one entry. -/
def sameTicket (t u : Word) : Bool := namesTicket u (tkCoreOf t) (tkNumOf t) (BitVec.ofNat 6 (tkGenOf t))

/-- A redemption, drop or query performed. -/
def State.doTicketItem (s : State) (h : Nat) (p : Packet) : State :=
  match p.body with
  | .redeem t dst at_ => s.doRedeem h p t dst at_
  | .tkDrop t => s.doDrop h p t
  | .tkQuery t r => s.doQuery h p t r
  | _ => s

/-- A redemption, drop or query at its home: it waits while the ticket's fetch is with a migrated page's new home (R58,
R281). -/
def State.ticketItem (s : State) (h : Nat) (p : Packet) (t : Word) : State :=
  if (s.homeAt h).away.any (sameTicket t) then s.updHome h (fun q => { q with awaiting := q.awaiting ++ [p] })
  else s.doTicketItem h p

/-- Held redemptions of a ticket served in the step of its fetch (R52), then what waited for the fetch to come back. -/
def State.serveHeld (s : State) (h : Nat) (t : Word) : State :=
  let held (e : Packet × Nat) : Bool := (ticketOfItem e.1).any (sameTicket t)
  let waits (p : Packet) : Bool := (ticketOfItem p).any (sameTicket t)
  let q := s.homeAt h
  let s1 := s.updHome h (fun k => { k with
    heldRdm := k.heldRdm.filter (fun e => !held e), away := k.away.filter (fun u => !sameTicket t u)
    awaiting := k.awaiting.filter (fun p => !waits p) })
  (q.awaiting.filter waits).foldl (fun s p => s.doTicketItem h p)
    ((q.heldRdm.filter held).foldl (fun s e => s.doTicketItem h e.1) s1)

/-- The entry of a fetch at the home that its ticket names, or a lost record where the table or the pool has no room or the
fetch was refused (R156, R157). -/
def State.makeEntry (s : State) (h : Nat) (p : Packet) (t : Word) (snap : Option Snap) : State :=
  let core := tkCoreOf t
  let num := tkNumOf t
  let gen : BitVec 6 := BitVec.ofNat 6 (tkGenOf t)
  let at_ := (snap.map (·.at_)).getD s.mach.clock
  let s0 := s.updHome h (fun q => { q with fetched := AMap.set q.fetched (core * 256 + num) at_ })
  let blocks := max 1 (tkBytes t / 64)
  let q := s.homeAt h
  let run := if h < 1024 then freeRun q.tickets blocks else some 0
  let lost : State :=
    let s1 := s0.updHome h (fun q => { q with lost := pushRec q.lost { core := core, num := num, gen := gen, job := p.job } })
    (s1.updUnit (homeKind h) h (fun u => { u with c3 := bump u.c3 })).releaseTicket h p.src.peer core num gen
  let s1 :=
    match snap, run with
    | some v, some b =>
      if q.tickets.length < ticketRoom h then
        let e : Ticket := { peer := p.src.peer, core := core, num := num, gen := gen, job := p.job, data := v.data
                            poison := v.poison, fmt := v.fmt, scale := v.scale, elt := v.elt
                            block := b, blocks := if h < 1024 then blocks else 0, at_ := at_ }
        s0.updHome h (fun q => { q with tickets := q.tickets ++ [e] })
      else lost
    | _, _ => lost
  s1.serveHeld h t

/-- What a fetch reads at the home of its address (R51, R159): nothing where the home refuses it (R147). -/
def State.snapshotOf (s : State) (h : Nat) (p : Packet) (t : Word) (pa : Nat) (fmt : BitVec 8) (scale elt : Nat) : Option Snap :=
  if (s.refuses h p pa).isSome then none
  else some { data := s.bytes pa (tkBytes t), poison := (granules pa (tkBytes t)).map s.poisonOf, fmt := fmt, scale := scale
              elt := elt, at_ := s.mach.clock }

/-- TICKET_FETCH: an entry with a snapshot, or a lost record (R156, R157, R159). A fetch that has been forwarded to a migrated
page's new home is read there, and its entry is made at the home that the ticket names (R58, R281; log 87). -/
def execTicketFetch (h : Nat) (s : State) : Out :=
  match (s.homeAt h).q with
  | p :: rest =>
    let s0 := s.updHome h (fun q => { q with q := rest })
    match p.body with
    | .fetch t pa fmt scale elt =>
      let snap := s.snapshotOf h p t pa fmt scale elt
      let s1 := if snap.isSome then s0.countPage pa p.src 1 else s0
      if tkHomeOf t = h ∧ tkPeerOf t = s.part.peer then .next (s1.makeEntry h p t snap)
      else
        .next (s1.append { src := s.here (.home h), dst := { peer := tkPeerOf t, agent := .home (tkHomeOf t) }, cls := 4 }
          { p with body := .fetched t snap })
    | .fetched t snap =>
      .next (s0.makeEntry h p t snap)
    | _ => notEnabled "TICKET_FETCH"
  | [] => notEnabled "TICKET_FETCH"

/-- REDEMPTION: matched and answered, or held (R52, R156). -/
def execRedemption (h : Nat) (s : State) : Out :=
  match (s.homeAt h).q with
  | p :: rest =>
    match p.body with
    | .redeem t _ _ => .next ((s.updHome h (fun q => { q with q := rest })).ticketItem h p t)
    | _ => notEnabled "REDEMPTION"
  | [] => notEnabled "REDEMPTION"

/-- REDEMPTION_HOLD_EXPIRY: a redemption held for 2^20 delivered cycles is refused as spent (R156). -/
def execRedemptionHoldExpiry (h : Nat) (s : State) : Out :=
  match takeFirst (fun (e : Packet × Nat) => decide (e.2 ≤ s.mach.clock)) (s.homeAt h).heldRdm with
  | some (e, rest) =>
    let s0 := s.updHome h (fun q => { q with heldRdm := rest })
    match e.1.body with
    | .redeem t dst _ => .next (s0.reply h e.1 (.refusedRdm dst t 0))
    | _ => .next s0
  | none => notEnabled "REDEMPTION_HOLD_EXPIRY"

/-- TICKET_DROP: a matching entry is freed (R160). -/
def execTicketDrop (h : Nat) (s : State) : Out :=
  match (s.homeAt h).q with
  | p :: rest =>
    match p.body with
    | .tkDrop t => .next ((s.updHome h (fun q => { q with q := rest })).ticketItem h p t)
    | _ => notEnabled "TICKET_DROP"
  | [] => notEnabled "TICKET_DROP"

/-- TICKET_QUERY (R160). -/
def execTicketQuery (h : Nat) (s : State) : Out :=
  match (s.homeAt h).q with
  | p :: rest =>
    match p.body with
    | .tkQuery t _ => .next ((s.updHome h (fun q => { q with q := rest })).ticketItem h p t)
    | _ => notEnabled "TICKET_QUERY"
  | [] => notEnabled "TICKET_QUERY"

/-- LEASE_END: an entry whose lease has ended is reclaimed (R278); a redemption that was in the perform queue before then
goes first (R161). -/
def execLeaseEnd (h : Nat) (s : State) : Out :=
  let q := s.homeAt h
  let stop (e : Ticket) : Nat := e.at_ + 2 ^ s.job.lease
  let wanted (e : Ticket) : Bool := q.q.any (fun p => match p.body with
    | .redeem t _ at_ => namesTicket t e.core e.num e.gen && decide (at_ < stop e)
    | _ => false)
  match takeFirst (fun (e : Ticket) => decide (stop e ≤ s.mach.clock) && !wanted e) q.tickets with
  | some (e, r) =>
    let s1 := s.updHome h (fun q => { q with
      tickets := r, expired := pushRec q.expired { core := e.core, num := e.num, gen := e.gen, job := e.job }
      orphans := if h < 1024 then q.orphans else q.orphans + 1 })
    let s2 := if h < 1024 then s1.updTile h (fun t => { t with tkorph := satAdd 32 t.tkorph 1 }) else s1
    .next ((s2.updUnit (homeKind h) h (fun u => { u with c2 := bump u.c2 })).releaseTicket h e.peer e.core e.num e.gen)
  | none => notEnabled "LEASE_END"

/-- RELEASE_NOTICE: a ticket number is free again (R154). -/
def execReleaseNotice (k : PairKey) (s : State) : Out :=
  match k.dst.agent, s.headOf k with
  | .core c, some p =>
    match p.body with
    | .release num gen =>
      if k.dst.peer ≠ s.part.peer then notEnabled "RELEASE_NOTICE"
      else .next ((s.popNet k).updCore c (fun q =>
        if AMap.get q.tkGen num = some gen then { q with tkLive := delNat q.tkLive num } else q))
    | _ => notEnabled "RELEASE_NOTICE"
  | _, _ => notEnabled "RELEASE_NOTICE"

/-! ### Landing (R158, R159) -/

/-- A snapshot is decoded where it lands (R158). -/
def decodes (fmt : BitVec 8) : Bool :=
  [2, 3, 4, 5].contains (fmtOf fmt) || (decide (fmtOf fmt = 6) && decide (blkOf fmt ≠ 0))

/-- The poison of the lowest poisoned granule among the first `n` bytes. -/
def lowPoison (l : List (Option (BitVec 2))) (n : Nat) : Option (BitVec 2) := (l.take ((n + 15) / 16)).findSome? id

/-- The poison of the granule that element `j` of a snapshot comes from. -/
def eltPoison (fmt : BitVec 8) (l : List (Option (BitVec 2))) (j : Nat) : Option (BitVec 2) :=
  (l.getD (j * width (fmtOf fmt) / 128) none)

/-- Elements that a redemption delivers: all of the snapshot's, or 16 into a register. -/
def rdmElts (dst : RdmDst) (fmt : BitVec 8) (n : Nat) : Nat :=
  let total := n * 8 / width (fmtOf fmt)
  match dst with
  | .vreg _ => min 16 total
  | _ => total

/-- The blocks, counted from the snapshot's first, whose scales a redemption reads: those with an element that is not
poisoned. -/
def rdmBlocks (r : Redeem) : List Nat :=
  let g := blockLen (blkOf r.fmt)
  let n := rdmElts r.dst r.fmt r.data.length
  (List.range ((r.elt % g + n + g - 1) / g)).filter (fun b =>
    (List.range g).any (fun i =>
      decide (r.elt % g ≤ b * g + i) && decide (b * g + i - r.elt % g < n) &&
        (eltPoison r.fmt r.poison (b * g + i - r.elt % g)).isNone))

/-- Runs of consecutive block numbers whose scales, from `base` on, lie in one granule: each is one read at one home, and
has one poison (log 147). -/
def runsOf (base : Nat) : List Nat → List (Nat × Nat)
  | [] => []
  | a :: t =>
    match runsOf base t with
    | (b, n) :: r => if b = a + 1 ∧ (base + b) % 16 ≠ 0 then (a, n + 1) :: r else (a, 1) :: (b, n) :: r
    | [] => [(a, 1)]

/-- The scale byte of a block. -/
def Redeem.scaleAt (r : Redeem) (b : Nat) : Nat :=
  match (r.scales.filter (fun e => decide (e.1 ≤ b) && decide (b < e.1 + e.2.length))).getLast? with
  | some (a, l) => (l.getD (b - a) 0).toNat
  | none => 0

/-- Element `j` of a redemption as FP32 (R158, R73, R78). -/
def Redeem.value (r : Redeem) (j : Nat) : Nat :=
  let sc := if scaled r.fmt then r.scaleAt ((r.elt % blockLen (blkOf r.fmt) + j) / blockLen (blkOf r.fmt)) else 0
  convert 0 .rne (decodeVal r.fmt (codeAt (fmtOf r.fmt) r.data j) sc)

/-- 16 bytes, or fewer at the end, into a granule of a slice: written with the full bit set, or poisoned (R158); a fenced home takes
neither (R377; log 35). -/
def State.landGranule (s : State) (pa : Nat) (bs : List Byte) (k : Option (BitVec 2)) : State :=
  if s.part.fenced.contains (pa / 2 ^ 20) then s
  else
    match k with
    | some k => s.poisonFull (pa / 16) k
    | none => s.storeFull pa bs

/-- A redemption lands (Table 08-7). -/
def State.landRdm (s : State) (c l : Nat) (ticket : Word) (r : Redeem) : State :=
  let dec := decodes r.fmt
  let n := rdmElts r.dst r.fmt r.data.length
  match r.dst with
  | .vreg d =>
    let used := if dec then (n * width (fmtOf r.fmt) + 7) / 8 else min 64 r.data.length
    match lowPoison r.poison used with
    | some k => s.poisonV c l d k
    | none =>
      s.setVAt c l d (if dec then ofLanes 32 ((List.range n).map r.value) else ofVbytes r.data)
  | .spad pa _ =>
    if dec then
      let stop := regionEnd pa
      let s1 := (List.range ((4 * n + 15) / 16)).foldl (fun s i =>
        let at_ := pa + 16 * i
        if stop ≤ at_ then s
        else
          let js := (List.range 4).map (· + 4 * i) |>.filter (· < n)
          s.landGranule at_ ((js.map (fun j => toBytes (r.value j) 4)).flatten) (js.findSome? (eltPoison r.fmt r.poison))) s
      if stop < pa + 4 * n then s1.pushLoadCause c l stop else s1
    else
      (List.range ((r.data.length + 15) / 16)).foldl (fun s i =>
        s.landGranule (pa + 16 * i) ((r.data.drop (16 * i)).take 16) (r.poison.getD i none)) s
  | .msg w =>
    s.release c 2 (.direct w (snapWords ticket (r.data.take 40)) (lowPoison r.poison 40) (s.slotAt c l).task.level none)

/-- SNAPSHOT_REPLY: raw data land, or the scale reads of a decoded redemption go, one for the scales of a
granule (R158, R74; log 147). -/
def execSnapshotReply (k : PairKey) (s : State) : Out :=
  match k.dst.agent, s.headOf k with
  | .core c, some p =>
    match p.body with
    | .snapshot dst t data poison fmt scale elt =>
      if k.dst.peer ≠ s.part.peer ∨ snapWhole p.body = false ∨ s.spills p.body then notEnabled "SNAPSHOT_REPLY" else
      let s0 := s.popNet k
      let l := p.slot
      if s.current c l p.gen = false then .next (s0.stale c)
      else if s.draining c l then .next (s0.downLd c l)
      else
        let id := (s.coreAt c).rdmNext
        let r : Redeem := { id := id, dst := dst, data := data, poison := poison, fmt := fmt, elt := elt, scales := [], want := 0
                            peer := p.src.peer }
        let runs := if decodes fmt && scaled fmt && !rdmIsMsg dst then runsOf scale (rdmBlocks r) else []
        if runs.isEmpty then
          if rdmIsMsg dst ∧ (s.coreAt c).room 2 = false then notEnabled "SNAPSHOT_REPLY"
          else .next ((s0.landRdm c l t r).endRdm c l dst)
        else
          let s1 := (s0.updCore c (fun q => { q with rdmNext := q.rdmNext + 1 })).updSlotAt c l (fun sl => { sl with
            redeems := sl.redeems ++ [{ r with want := runs.length }] })
          .next (runs.foldl (fun s e =>
            s.accessFor c l p.src.peer (scale + e.1) (.load (scale + e.1) e.2 (.rdmScale id e.1))) s1)
    | _ => notEnabled "SNAPSHOT_REPLY"
  | _, _ => notEnabled "SNAPSHOT_REPLY"

/-- Scale bytes of a redemption arrived: after the last of them its elements are decoded and written. -/
def State.rdmScales (s : State) (c l id off : Nat) (bs : List Byte) : State :=
  match (s.slotAt c l).redeems.find? (fun r => r.id = id) with
  | none => s
  | some r =>
    let r1 := { r with scales := AMap.set r.scales off bs, want := r.want - 1 }
    let rest := (s.slotAt c l).redeems.filter (fun r => r.id ≠ id)
    if r1.want ≠ 0 then s.updSlotAt c l (fun sl => { sl with redeems := rest ++ [r1] })
    else
      let s1 := s.updSlotAt c l (fun sl => { sl with redeems := rest })
      if s.draining c l then s1.downLd c l else (s1.landRdm c l 0 r1).endRdm c l r.dst

/-- SCALE_READ_REPLY: a refused or poisoned scale counts as 0xFF, a NaN, and the former is a refused load (R158; log 37). -/
def execScaleReadReply (k : PairKey) (s : State) : Out :=
  match k.dst.agent, s.headOf k with
  | .core c, some p =>
    if k.dst.peer ≠ s.part.peer ∨ s.spills p.body then notEnabled "SCALE_READ_REPLY" else
    let s0 := s.popNet k
    let l := p.slot
    let nans : List Byte := List.replicate 64 0xFF
    match p.body with
    | .value (.rdmScale id off) data poison =>
      if s.current c l p.gen = false then .next (s0.stale c)
      else .next (s0.rdmScales c l id off (if poison.isSome then nans else vbytes data))
    | .refusedRead (.rdmScale id off) _ pa =>
      if s.current c l p.gen = false then .next (s0.stale c)
      else
        let s1 := if s.draining c l then s0 else s0.pushLoadCause c l pa
        .next (s1.rdmScales c l id off nans)
    | _ => notEnabled "SCALE_READ_REPLY"
  | _, _ => notEnabled "SCALE_READ_REPLY"

end Sys2Proof.Machine
end

