-- ==== Sys2Proof/Machine/Vector.lean ====
section
/-! DEFINITION. The vector unit, majors 0x30 to 0x33 (R199 to R213): lanes under a mask, arithmetic and moves, reductions,
compares, conversion, quantisation, block dot, `baq` and the mask operations. -/

namespace Sys2Proof.Machine

open Sys2Proof

/-! ### Element functions (Table 10-4): rounding mode, type, then the elements of va, vb and vd -/

/-- The types f32 and bf16. -/
def isFloat (ty : Nat) : Bool := decide (ty ≤ 1)

/-- An element function: `FRM`.MODE, the type, elements a, b, c. -/
abbrev LaneFn := BitVec 2 → Nat → Nat → Nat → Nat → Nat

/-- A float result rounded once (R202). -/
def vRound (mode : BitVec 2) (ty : Nat) (v : Val) : Nat := arith ty (arithRnd mode) v

/-- An integer result, modulo 2^w (R69). -/
def vWrap (ty : Nat) (x : Int) : Nat := (x % (2 ^ width ty : Nat)).toNat

def vAdd : LaneFn := fun mode ty a b _ =>
  if isFloat ty then vRound mode ty ((decodeElt ty a).add (decodeElt ty b)) else (a + b) % 2 ^ width ty

def vSub : LaneFn := fun mode ty a b _ =>
  if isFloat ty then vRound mode ty ((decodeElt ty a).add (decodeElt ty b).neg) else (a + 2 ^ width ty - b) % 2 ^ width ty

def vMul : LaneFn := fun mode ty a b _ =>
  if isFloat ty then vRound mode ty ((decodeElt ty a).mul (decodeElt ty b)) else a * b % 2 ^ width ty

def vFma : LaneFn := fun mode ty a b c =>
  vRound mode ty (((decodeElt ty a).mul (decodeElt ty b)).add (decodeElt ty c))

/-- The maximum or minimum: R128 for floats, signed for integers. -/
def vPick (mx : Bool) : LaneFn := fun _ ty a b _ =>
  if isFloat ty then minmax ty mx a b
  else
    let less := decide (sextInt a (width ty) < sextInt b (width ty))
    if mx then (if less then b else a) else (if less then a else b)

def vAbs : LaneFn := fun _ ty a _ _ =>
  let w := width ty
  if isFloat ty then a % 2 ^ (w - 1) else vWrap ty (sextInt a w).natAbs

def vNeg : LaneFn := fun _ ty a _ _ =>
  let w := width ty
  if isFloat ty then a ^^^ 2 ^ (w - 1) else vWrap ty (-(sextInt a w))

def vExp2 : LaneFn := fun mode ty a _ _ =>
  match decodeElt ty a with
  | .nan _ => vRound mode ty (.nan false)
  | .inf n => vRound mode ty (if n then Val.zero else .inf false)
  | .num n p q => vRound mode ty (exp2Val n p q)

def vRcp : LaneFn := fun mode ty a _ _ => vRound mode ty ((Val.num false 1 1).div (decodeElt ty a))

def vRsq : LaneFn := fun mode ty a _ _ =>
  match decodeElt ty a with
  | .nan _ => vRound mode ty (.nan false)
  | .inf n => vRound mode ty (if n then .nan false else Val.zero)
  | .num n p q =>
    if p = 0 then vRound mode ty (.inf n)
    else if n then vRound mode ty (.nan false)
    else vRound mode ty (rsqrtVal p q)

def vShl : LaneFn := fun _ ty a b _ => a * 2 ^ (b % width ty) % 2 ^ width ty

def vShr : LaneFn := fun _ ty a b _ => vWrap ty (sextInt a (width ty) >>> (b % width ty))

/-! ### Lanes under a governing mask (R200, R201) -/

/-- vd with its active elements replaced: `f` gives the element of a lane. -/
def governed (sl : Slot) (d : Reg) (m : MReg) (ty : Nat) (f : Nat → Nat) : VWord :=
  let w := width ty
  ofLanes w ((List.range (lanes ty)).map (fun i => if (sl.rm m).getLsbD i then f i else laneOf (sl.rv d) w i))

/-- vd is read, unless the mask governs nothing (R200). -/
def maskReads (m : MReg) (d : Reg) : List Nat := if m = 0 then [] else [vr d]

/-- A value written to vd, and nothing else. -/
def writeV (i : Instr) (n : Need) (d : Reg) (f : Slot → VWord) (s : State) : Out :=
  issue i { n with writes := [vr d] } (fun s => .next (s.setV d (f s.slot)).retire) s

/-- An element-wise instruction of major 0x30 with two vector sources. -/
def vecBinary (i : Instr) (f : LaneFn) (d a b : Reg) (m : MReg) (t : BitVec 3) (s : State) : Out :=
  let ty := t.toNat
  let w := width ty
  writeV i { lack := vecLack s, reads := [vr a, vr b] ++ maskReads m d } d (fun sl =>
    governed sl d m ty (fun k => f sl.frm ty (laneOf (sl.rv a) w k) (laneOf (sl.rv b) w k) 0)) s

/-- An element-wise instruction of major 0x30 with one vector source. -/
def vecUnary (i : Instr) (f : LaneFn) (d a : Reg) (m : MReg) (t : BitVec 3) (s : State) : Out :=
  let ty := t.toNat
  writeV i { lack := vecLack s, reads := vr a :: maskReads m d } d (fun sl =>
    governed sl d m ty (fun k => f sl.frm ty (laneOf (sl.rv a) (width ty) k) 0 0)) s

/-- `vadd` (R202). -/
def execVadd (d a b : Reg) (m : MReg) (t : BitVec 3) (s : State) : Out :=
  vecBinary (.vadd d a b m t) (vAdd) d a b m t s

/-- `vsub` (R202). -/
def execVsub (d a b : Reg) (m : MReg) (t : BitVec 3) (s : State) : Out :=
  vecBinary (.vsub d a b m t) (vSub) d a b m t s

/-- `vmul` (R202). -/
def execVmul (d a b : Reg) (m : MReg) (t : BitVec 3) (s : State) : Out :=
  vecBinary (.vmul d a b m t) (vMul) d a b m t s

/-- `vmax` (R202). -/
def execVmax (d a b : Reg) (m : MReg) (t : BitVec 3) (s : State) : Out :=
  vecBinary (.vmax d a b m t) (vPick true) d a b m t s

/-- `vmin` (R202). -/
def execVmin (d a b : Reg) (m : MReg) (t : BitVec 3) (s : State) : Out :=
  vecBinary (.vmin d a b m t) (vPick false) d a b m t s

/-- `vand` (R202). -/
def execVand (d a b : Reg) (m : MReg) (t : BitVec 3) (s : State) : Out :=
  vecBinary (.vand d a b m t) (fun _ _ a b _ => a &&& b) d a b m t s

/-- `vor` (R202). -/
def execVor (d a b : Reg) (m : MReg) (t : BitVec 3) (s : State) : Out :=
  vecBinary (.vor d a b m t) (fun _ _ a b _ => a ||| b) d a b m t s

/-- `vxor` (R202). -/
def execVxor (d a b : Reg) (m : MReg) (t : BitVec 3) (s : State) : Out :=
  vecBinary (.vxor d a b m t) (fun _ _ a b _ => a ^^^ b) d a b m t s

/-- `vshl` (R202). -/
def execVshl (d a b : Reg) (m : MReg) (t : BitVec 3) (s : State) : Out :=
  vecBinary (.vshl d a b m t) (vShl) d a b m t s

/-- `vshr` (R202). -/
def execVshr (d a b : Reg) (m : MReg) (t : BitVec 3) (s : State) : Out :=
  vecBinary (.vshr d a b m t) (vShr) d a b m t s

/-- `vabs` (R202). -/
def execVabs (d a : Reg) (m : MReg) (t : BitVec 3) (s : State) : Out :=
  vecUnary (.vabs d a m t) (vAbs) d a m t s

/-- `vneg` (R202). -/
def execVneg (d a : Reg) (m : MReg) (t : BitVec 3) (s : State) : Out :=
  vecUnary (.vneg d a m t) (vNeg) d a m t s

/-- `vexp2` (R203). -/
def execVexp2 (d a : Reg) (m : MReg) (t : BitVec 3) (s : State) : Out :=
  vecUnary (.vexp2 d a m t) (vExp2) d a m t s

/-- `vrcp` (R203). -/
def execVrcp (d a : Reg) (m : MReg) (t : BitVec 3) (s : State) : Out :=
  vecUnary (.vrcp d a m t) (vRcp) d a m t s

/-- `vrsq` (R203). -/
def execVrsq (d a : Reg) (m : MReg) (t : BitVec 3) (s : State) : Out :=
  vecUnary (.vrsq d a m t) (vRsq) d a m t s

/-- `vmov` (R202). -/
def execVmov (d a : Reg) (m : MReg) (t : BitVec 3) (s : State) : Out :=
  vecUnary (.vmov d a m t) (fun _ _ a _ _ => a) d a m t s

/-- `vfma`: vd is an operand (R202, R131). -/
def execVfma (d a b : Reg) (m : MReg) (t : BitVec 3) (s : State) : Out :=
  let ty := t.toNat
  let w := width ty
  writeV (.vfma d a b m t) { lack := vecLack s, reads := [vr a, vr b, vr d] } d (fun sl =>
    governed sl d m ty (fun k => vFma sl.frm ty (laneOf (sl.rv a) w k) (laneOf (sl.rv b) w k) (laneOf (sl.rv d) w k))) s

/-- `vbcast`: the low bits of an x register in every active element (R202). -/
def execVbcast (d a : Reg) (m : MReg) (t : BitVec 3) (s : State) : Out :=
  let ty := t.toNat
  writeV (.vbcast d a m t) { lack := vecLack s, reads := maskReads m d ++ [xr a] } d (fun sl =>
    governed sl d m ty (fun _ => (sl.rx a).toNat % 2 ^ width ty)) s

/-- `vperm`: element (b mod E) of va (R202). -/
def execVperm (d a b : Reg) (m : MReg) (t : BitVec 3) (s : State) : Out :=
  let ty := t.toNat
  let w := width ty
  writeV (.vperm d a b m t) { lack := vecLack s, reads := [vr a, vr b] ++ maskReads m d } d (fun sl =>
    governed sl d m ty (fun k => laneOf (sl.rv a) w (laneOf (sl.rv b) w k % lanes ty))) s

/-- `vsel`: the mask selects, vd is written whole (R204). -/
def execVsel (d a b : Reg) (m : MReg) (t : BitVec 3) (s : State) : Out :=
  let ty := t.toNat
  let w := width ty
  writeV (.vsel d a b m t) { lack := vecLack s, reads := [vr a, vr b] } d (fun sl =>
    ofLanes w ((List.range (lanes ty)).map (fun k =>
      if (sl.rm m).getLsbD k then laneOf (sl.rv a) w k else laneOf (sl.rv b) w k))) s

/-! ### Reductions and compares (R205, R206, R82) -/

/-- One round of the pairwise tree. -/
def treeRound (f : Nat → Nat → Nat) : List Nat → List Nat
  | a :: b :: t => f a b :: treeRound f t
  | l => l

/-- The pairwise tree of R82, with at most `fuel` rounds. -/
def tree (f : Nat → Nat → Nat) : Nat → List Nat → Nat
  | 0, l => l.headD 0
  | fuel + 1, l => tree f fuel (treeRound f l)

/-- A reduction: unselected elements enter as `unit`, the result goes to element 0 and zeros elsewhere (R205). -/
def reduceForm (i : Instr) (f : LaneFn) (unit : Nat → Nat) (d a : Reg) (m : MReg) (t : BitVec 3) (s : State) : Out :=
  let ty := t.toNat
  writeV i { lack := vecLack s, reads := [vr a] } d (fun sl =>
    let l := (List.range (lanes ty)).map (fun k =>
      if (sl.rm m).getLsbD k then laneOf (sl.rv a) (width ty) k else unit ty)
    BitVec.ofNat 512 (tree (fun x y => f sl.frm ty x y 0) 6 l)) s

/-- `vredsum`: an unselected element enters as -0, or 0 for integers (R205, R82). -/
def execVredsum (d a : Reg) (m : MReg) (t : BitVec 3) (s : State) : Out :=
  reduceForm (.vredsum d a m t) vAdd (fun ty => if isFloat ty then 2 ^ (width ty - 1) else 0) d a m t s

/-- `vredmax`: an unselected element enters as -∞, or the least integer (R205). -/
def execVredmax (d a : Reg) (m : MReg) (t : BitVec 3) (s : State) : Out :=
  reduceForm (.vredmax d a m t) (vPick true)
    (fun ty => if ty = 0 then 0xFF800000 else if ty = 1 then 0xFF80 else 2 ^ (width ty - 1)) d a m t s

/-- A relation of elements: R129 for floats, signed for integers (R206). -/
def laneRel (cc ty a b : Nat) : Bool :=
  if isFloat ty then relVal cc (decodeElt ty a) (decodeElt ty b)
  else
    let x := sextInt a (width ty)
    let y := sextInt b (width ty)
    match cc with
    | 0 => decide (x = y)
    | 1 => decide (x ≠ y)
    | 2 => decide (x < y)
    | 3 => decide (x ≤ y)
    | 4 => decide (y < x)
    | _ => decide (y ≤ x)

/-- The mask of the lanes below `n` that satisfy `p`. -/
def maskOf (p : Nat → Bool) : Nat → Word
  | 0 => 0
  | n + 1 => maskOf p n ||| (if p n then 1#64 <<< n else 0)

/-- `vcmp` (R206). -/
def compareForm (i : Instr) (cc : Nat) (d : MReg) (a b : Reg) (m : MReg) (t : BitVec 3) (s : State) : Out :=
  let ty := t.toNat
  let w := width ty
  issue i { lack := vecLack s, reads := [vr a, vr b] } (fun s =>
    let sl := s.slot
    .next (s.setM d (maskOf (fun k => (sl.rm m).getLsbD k &&
      laneRel cc ty (laneOf (sl.rv a) w k) (laneOf (sl.rv b) w k)) (lanes ty))).retire) s

/-- `vcmp.eq` (R206). -/
def execVcmpEq (d : MReg) (a b : Reg) (m : MReg) (t : BitVec 3) (s : State) : Out :=
  compareForm (.vcmpEq d a b m t) 0 d a b m t s

/-- `vcmp.ne` (R206). -/
def execVcmpNe (d : MReg) (a b : Reg) (m : MReg) (t : BitVec 3) (s : State) : Out :=
  compareForm (.vcmpNe d a b m t) 1 d a b m t s

/-- `vcmp.lt` (R206). -/
def execVcmpLt (d : MReg) (a b : Reg) (m : MReg) (t : BitVec 3) (s : State) : Out :=
  compareForm (.vcmpLt d a b m t) 2 d a b m t s

/-- `vcmp.le` (R206). -/
def execVcmpLe (d : MReg) (a b : Reg) (m : MReg) (t : BitVec 3) (s : State) : Out :=
  compareForm (.vcmpLe d a b m t) 3 d a b m t s

/-- `vcmp.gt` (R206). -/
def execVcmpGt (d : MReg) (a b : Reg) (m : MReg) (t : BitVec 3) (s : State) : Out :=
  compareForm (.vcmpGt d a b m t) 4 d a b m t s

/-- `vcmp.ge` (R206). -/
def execVcmpGe (d : MReg) (a b : Reg) (m : MReg) (t : BitVec 3) (s : State) : Out :=
  compareForm (.vcmpGe d a b m t) 5 d a b m t s

/-! ### Conversion and blocks (R207 to R211) -/

/-- `vcvt.ty.ts` (R207). -/
def execVcvt (d a : Reg) (ts : BitVec 3) (m : MReg) (t : BitVec 3) (s : State) : Out :=
  let ty := t.toNat
  let from_ := ts.toNat
  writeV (.vcvt d a ts m t) { lack := vecLack s, reads := vr a :: maskReads m d } d (fun sl =>
    governed sl d m ty (fun k =>
      if k < min (lanes from_) (lanes ty) then
        convert ty (convRnd sl.frm.toNat ty sl.fseed 0 k) (decodeElt from_ (laneOf (sl.rv a) (width from_) k))
      else zeroCode ty)) s

/-- The codes of 64 elements of a type (R199). -/
def codes64 (v : VWord) (ty : Nat) : List Nat := (List.range 64).map (laneOf v (width ty))

/-- The FP32 values of four registers from `a` (R208). -/
def fp32x64 (sl : Slot) (a : Reg) : List Val :=
  (List.range 64).map (fun j => decodeElt 0 (laneOf (sl.rv (regAfter a (j / 16))) 32 (j % 16)))

/-- Scales in the low bytes of a register, zeros above. -/
def scaleReg (l : List Nat) : VWord := ofLanes 8 l

/-- The rounding of a requantising vector instruction: blk 0, elt j (R208, R211). -/
def laneRnd (sl : Slot) (ty : Nat) (j : Nat) : Rnd := convRnd sl.frm.toNat ty sl.fseed 0 j

/-- `vquant` (R208): codes to vd, scales to vb. -/
def execVquant (d a b : Reg) (t : BitVec 3) (f : BitVec 1) (g : BitVec 2) (s : State) : Out :=
  issue (.vquant d a b t f g) { lack := vecLack s, reads := [0, 1, 2, 3].map (fun k => vr (regAfter a k))
                                writes := [vr d, vr b] } (fun s =>
    let sl := s.slot
    let ty := t.toNat
    let (sc, cs) := requantAll (f = 1) ty (blockLen g.toNat) (laneRnd sl ty) (fp32x64 sl a)
    .next (((s.setV d (ofLanes (width ty) cs)).setV b (scaleReg sc))).retire) s

/-- The values of 64 codes with their scales (R73). -/
def decode64 (ty : Nat) (e5 : Bool) (g : Nat) (codes scales : VWord) : List Val :=
  ((codes64 codes ty).zipIdx).map (fun (c, j) => (decodeElt ty c).mul (scaleVal e5 (laneOf scales 8 (j / g))))

/-- `vdeq` (R209): four registers from vd. -/
def execVdeq (d a b : Reg) (t : BitVec 3) (f : BitVec 1) (g : BitVec 2) (s : State) : Out :=
  issue (.vdeq d a b t f g) { lack := vecLack s, reads := [vr a, vr b]
                              writes := [0, 1, 2, 3].map (fun k => vr (regAfter d k)) } (fun s =>
    let sl := s.slot
    let vs := (decode64 t.toNat (f = 1) (blockLen g.toNat) (sl.rv a) (sl.rv b)).map (convert 0 (arithRnd sl.frm))
    .next ((List.range 4).foldl (fun s k => s.setV (regAfter d k) (ofLanes 32 ((vs.drop (16 * k)).take 16))) s).retire) s

/-- The k-blocks of `vmxdot` added into an accumulator (R210, R80). -/
def mxdot (ty : Nat) (e5 : Bool) (g : Nat) (mask : Word) (a sa b sb : VWord) (c : Nat) : Nat :=
  (List.range 8).foldl (fun c kb =>
    if mask.getLsbD kb then
      kblock c (scaleVal e5 (laneOf sa 8 (8 * kb / g))) (scaleVal e5 (laneOf sb 8 (8 * kb / g)))
        ((List.range 8).map (fun j => (decodeElt ty (laneOf a (width ty) (8 * kb + j))
          , decodeElt ty (laneOf b (width ty) (8 * kb + j)))))
    else c) c

/-- `vmxdot` (R210): element 0 of vd; the others keep their bits. -/
def execVmxdot (d a b : Reg) (m : MReg) (t : BitVec 3) (f : BitVec 1) (g : BitVec 2) (s : State) : Out :=
  writeV (.vmxdot d a b m t f g)
    { lack := vecLack s, reads := [vr a, vr (regAfter a 1), vr b, vr (regAfter b 1), vr d] } d (fun sl =>
      let old := sl.rv d
      let c := mxdot t.toNat (f = 1) (blockLen g.toNat) (sl.rm m) (sl.rv a) (sl.rv (regAfter a 1)) (sl.rv b)
        (sl.rv (regAfter b 1)) (laneOf old 32 0)
      BitVec.ofNat 512 (c % 2 ^ 32 + old.toNat / 2 ^ 32 * 2 ^ 32)) s

/-- `baq` issues on a gateway core only (R211, R98). -/
def baqLack (s : State) : Option Nat :=
  if isStreamer s.cur.1 then some 3 else if isCompute s.cur.1 then some 5 else none

/-- `baq` (R211): exact sums, requantised with fresh scales. -/
def execBaq (d a b : Reg) (t : BitVec 3) (f : BitVec 1) (g : BitVec 2) (s : State) : Out :=
  issue (.baq d a b t f g) { lack := baqLack s, reads := [vr a, vr (regAfter a 1), vr b, vr (regAfter b 1)]
                             writes := [vr d, vr (regAfter d 1)] } (fun s =>
    let sl := s.slot
    let ty := t.toNat
    let n := blockLen g.toNat
    let va := decode64 ty (f = 1) n (sl.rv a) (sl.rv (regAfter a 1))
    let vb := decode64 ty (f = 1) n (sl.rv b) (sl.rv (regAfter b 1))
    let (sc, cs) := requantAll (f = 1) ty n (laneRnd sl ty) (va.zipWith Val.add vb)
    .next (((s.setV d (ofLanes (width ty) cs)).setV (regAfter d 1) (scaleReg sc))).retire) s

/-! ### Mask operations (R213) -/

/-- A mask written (R213). -/
def maskForm (i : Instr) (d : MReg) (f : Slot → Word) (s : State) : Out :=
  issue i { lack := vecLack s } (fun s => .next (s.setM d (f s.slot)).retire) s

/-- `mand` (R213). -/
def execMand (d a b : MReg) (s : State) : Out := maskForm (.mand d a b) d (fun sl => sl.rm a &&& sl.rm b) s

/-- `mor` (R213). -/
def execMor (d a b : MReg) (s : State) : Out := maskForm (.mor d a b) d (fun sl => sl.rm a ||| sl.rm b) s

/-- `mnot` (R213). -/
def execMnot (d a : MReg) (s : State) : Out := maskForm (.mnot d a) d (fun sl => ~~~sl.rm a) s

/-- `mpop` (R213). -/
def execMpop (d : Reg) (a : MReg) (s : State) : Out :=
  writeX (.mpop d a) { lack := vecLack s } d (fun sl => BitVec.ofNat 64 (countOnes (sl.rm a) 64)) s

/-- The lowest one at or above bit `64 - n`, or 64. -/
def firstOne (v : Word) : Nat → Nat
  | 0 => 64
  | n + 1 => if v.getLsbD (63 - n) then 63 - n else firstOne v n

/-- `mfirst` (R213). -/
def execMfirst (d : Reg) (a : MReg) (s : State) : Out :=
  writeX (.mfirst d a) { lack := vecLack s } d (fun sl => BitVec.ofNat 64 (firstOne (sl.rm a) 64)) s

end Sys2Proof.Machine
end

