-- ==== Sys2Proof/Machine/Dispatch.lean ====
section
/-! DEFINITION. `exec`: one arm for each row of the table of operations, each one call of its meaning. -/

namespace Sys2Proof.Machine

open Sys2Proof

/-- The effect of one instruction or one step of the machine. -/
def exec (i : Instr) (s : State) : Host.Outcome State Fault Refusal :=
  match i with
  | .add d a b w => Sys2Proof.Machine.execAdd d a b w s
  | .sub d a b w => Sys2Proof.Machine.execSub d a b w s
  | .mul d a b w => Sys2Proof.Machine.execMul d a b w s
  | .mulh d a b n => Sys2Proof.Machine.execMulh d a b n s
  | .div d a b w n => Sys2Proof.Machine.execDiv d a b w n s
  | .rem d a b w n => Sys2Proof.Machine.execRem d a b w n s
  | .and d a b => Sys2Proof.Machine.execAnd d a b s
  | .or d a b => Sys2Proof.Machine.execOr d a b s
  | .xor d a b => Sys2Proof.Machine.execXor d a b s
  | .andn d a b => Sys2Proof.Machine.execAndn d a b s
  | .sll d a b w => Sys2Proof.Machine.execSll d a b w s
  | .srl d a b w => Sys2Proof.Machine.execSrl d a b w s
  | .sra d a b w => Sys2Proof.Machine.execSra d a b w s
  | .rot d a b w => Sys2Proof.Machine.execRot d a b w s
  | .clz d a w => Sys2Proof.Machine.execClz d a w s
  | .ctz d a w => Sys2Proof.Machine.execCtz d a w s
  | .popc d a w => Sys2Proof.Machine.execPopc d a w s
  | .min d a b n => Sys2Proof.Machine.execMin d a b n s
  | .max d a b n => Sys2Proof.Machine.execMax d a b n s
  | .slt d a b n => Sys2Proof.Machine.execSlt d a b n s
  | .sel d a b => Sys2Proof.Machine.execSel d a b s
  | .sextB d a => Sys2Proof.Machine.execSextB d a s
  | .sextH d a => Sys2Proof.Machine.execSextH d a s
  | .sextW d a => Sys2Proof.Machine.execSextW d a s
  | .zextB d a => Sys2Proof.Machine.execZextB d a s
  | .zextH d a => Sys2Proof.Machine.execZextH d a s
  | .zextW d a => Sys2Proof.Machine.execZextW d a s
  | .addImm d a imm => Sys2Proof.Machine.execAddImm d a imm s
  | .andImm d a imm => Sys2Proof.Machine.execAndImm d a imm s
  | .orImm d a imm => Sys2Proof.Machine.execOrImm d a imm s
  | .xorImm d a imm => Sys2Proof.Machine.execXorImm d a imm s
  | .sltImm d a imm => Sys2Proof.Machine.execSltImm d a imm s
  | .sltNImm d a imm => Sys2Proof.Machine.execSltNImm d a imm s
  | .addWImm d a imm => Sys2Proof.Machine.execAddWImm d a imm s
  | .mulImm d a imm => Sys2Proof.Machine.execMulImm d a imm s
  | .minImm d a imm => Sys2Proof.Machine.execMinImm d a imm s
  | .maxImm d a imm => Sys2Proof.Machine.execMaxImm d a imm s
  | .minNImm d a imm => Sys2Proof.Machine.execMinNImm d a imm s
  | .maxNImm d a imm => Sys2Proof.Machine.execMaxNImm d a imm s
  | .sllImm d a c => Sys2Proof.Machine.execSllImm d a c s
  | .srlImm d a c => Sys2Proof.Machine.execSrlImm d a c s
  | .sraImm d a c => Sys2Proof.Machine.execSraImm d a c s
  | .rotImm d a c => Sys2Proof.Machine.execRotImm d a c s
  | .sllWImm d a c => Sys2Proof.Machine.execSllWImm d a c s
  | .srlWImm d a c => Sys2Proof.Machine.execSrlWImm d a c s
  | .sraWImm d a c => Sys2Proof.Machine.execSraWImm d a c s
  | .rotWImm d a c => Sys2Proof.Machine.execRotWImm d a c s
  | .bfx d a l w => Sys2Proof.Machine.execBfx d a l w s
  | .bfi d a l w => Sys2Proof.Machine.execBfi d a l w s
  | .lui d imm => Sys2Proof.Machine.execLui d imm s
  | .auipc d imm => Sys2Proof.Machine.execAuipc d imm s
  | .fadd d a b => Sys2Proof.Machine.execFadd d a b s
  | .fsub d a b => Sys2Proof.Machine.execFsub d a b s
  | .fmul d a b => Sys2Proof.Machine.execFmul d a b s
  | .fdiv d a b => Sys2Proof.Machine.execFdiv d a b s
  | .fmin d a b => Sys2Proof.Machine.execFmin d a b s
  | .fmax d a b => Sys2Proof.Machine.execFmax d a b s
  | .fabs d a => Sys2Proof.Machine.execFabs d a s
  | .fcmpEq d a b => Sys2Proof.Machine.execFcmpEq d a b s
  | .fcmpNe d a b => Sys2Proof.Machine.execFcmpNe d a b s
  | .fcmpLt d a b => Sys2Proof.Machine.execFcmpLt d a b s
  | .fcmpLe d a b => Sys2Proof.Machine.execFcmpLe d a b s
  | .fcmpGt d a b => Sys2Proof.Machine.execFcmpGt d a b s
  | .fcmpGe d a b => Sys2Proof.Machine.execFcmpGe d a b s
  | .fcvtF32I d a => Sys2Proof.Machine.execFcvtF32I d a s
  | .fcvtIF32 d a => Sys2Proof.Machine.execFcvtIF32 d a s
  | .fcvtF32Bf16 d a => Sys2Proof.Machine.execFcvtF32Bf16 d a s
  | .fcvtBf16F32 d a => Sys2Proof.Machine.execFcvtBf16F32 d a s
  | .fma d a b c => Sys2Proof.Machine.execFma d a b c s
  | .lea d a b r => Sys2Proof.Machine.execLea d a b r s
  | .gaform d a b => Sys2Proof.Machine.execGaform d a b s
  | .gahome d a => Sys2Proof.Machine.execGahome d a s
  | .gatile d a => Sys2Proof.Machine.execGatile d a s
  | .padd d a b => Sys2Proof.Machine.execPadd d a b s
  | .beq a b d => Sys2Proof.Machine.execBeq a b d s
  | .bne a b d => Sys2Proof.Machine.execBne a b d s
  | .blt a b d => Sys2Proof.Machine.execBlt a b d s
  | .bge a b d => Sys2Proof.Machine.execBge a b d s
  | .blo a b d => Sys2Proof.Machine.execBlo a b d s
  | .bhs a b d => Sys2Proof.Machine.execBhs a b d s
  | .j d => Sys2Proof.Machine.execJ d s
  | .jal d => Sys2Proof.Machine.execJal d s
  | .ld d a w z o => Sys2Proof.Machine.execLd d a w z o s
  | .ldS d a w z o => Sys2Proof.Machine.execLdS d a w z o s
  | .st r a w z o => Sys2Proof.Machine.execSt r a w z o s
  | .ldFeKeep d a w z o => Sys2Proof.Machine.execLdFeKeep d a w z o s
  | .ldFeTake d a w z o => Sys2Proof.Machine.execLdFeTake d a w z o s
  | .stFe r a w z o => Sys2Proof.Machine.execStFe r a w z o s
  | .ldIndexed d a b w z => Sys2Proof.Machine.execLdIndexed d a b w z s
  | .ldSIndexed d a b w z => Sys2Proof.Machine.execLdSIndexed d a b w z s
  | .stIndexed r a b w z => Sys2Proof.Machine.execStIndexed r a b w z s
  | .ldFeKeepIndexed d a b w z => Sys2Proof.Machine.execLdFeKeepIndexed d a b w z s
  | .ldFeTakeIndexed d a b w z => Sys2Proof.Machine.execLdFeTakeIndexed d a b w z s
  | .stFeIndexed r a b w z => Sys2Proof.Machine.execStFeIndexed r a b w z s
  | .feSet a b => Sys2Proof.Machine.execFeSet a b s
  | .feClr a b => Sys2Proof.Machine.execFeClr a b s
  | .qpush a n => Sys2Proof.Machine.execQpush a n s
  | .qpop d n => Sys2Proof.Machine.execQpop d n s
  | .aadd d a b w z => Sys2Proof.Machine.execAadd d a b w z s
  | .aand d a b w z => Sys2Proof.Machine.execAand d a b w z s
  | .aor d a b w z => Sys2Proof.Machine.execAor d a b w z s
  | .axor d a b w z => Sys2Proof.Machine.execAxor d a b w z s
  | .amin d a b w z => Sys2Proof.Machine.execAmin d a b w z s
  | .amax d a b w z => Sys2Proof.Machine.execAmax d a b w z s
  | .aminN d a b w z => Sys2Proof.Machine.execAminN d a b w z s
  | .amaxN d a b w z => Sys2Proof.Machine.execAmaxN d a b w z s
  | .aswap d a b w z => Sys2Proof.Machine.execAswap d a b w z s
  | .acas d a b w z => Sys2Proof.Machine.execAcas d a b w z s
  | .anadd a b w z => Sys2Proof.Machine.execAnadd a b w z s
  | .ldt d a w k o => Sys2Proof.Machine.execLdt d a w k o s
  | .rdmV d a w => Sys2Proof.Machine.execRdmV d a w s
  | .rdmScratchpad a b w => Sys2Proof.Machine.execRdmScratchpad a b w s
  | .rdmM a b w => Sys2Proof.Machine.execRdmM a b w s
  | .tkdrop a w => Sys2Proof.Machine.execTkdrop a w s
  | .tkq d a w => Sys2Proof.Machine.execTkq d a w s
  | .fenceTile => Sys2Proof.Machine.execFenceTile s
  | .fenceCluster => Sys2Proof.Machine.execFenceCluster s
  | .fenceDie => Sys2Proof.Machine.execFenceDie s
  | .fencePackage => Sys2Proof.Machine.execFencePackage s
  | .fenceSystem => Sys2Proof.Machine.execFenceSystem s
  | .seal a b => Sys2Proof.Machine.execSeal a b s
  | .unseal a b => Sys2Proof.Machine.execUnseal a b s
  | .pref a b => Sys2Proof.Machine.execPref a b s
  | .jrd d a => Sys2Proof.Machine.execJrd d a s
  | .jdrop a => Sys2Proof.Machine.execJdrop a s
  | .chnew h g => Sys2Proof.Machine.execChnew h g s
  | .chdup h g => Sys2Proof.Machine.execChdup h g s
  | .hmov h g => Sys2Proof.Machine.execHmov h g s
  | .hclr h => Sys2Proof.Machine.execHclr h s
  | .chclose h => Sys2Proof.Machine.execChclose h s
  | .chq g a => Sys2Proof.Machine.execChq g a s
  | .chseg h a => Sys2Proof.Machine.execChseg h a s
  | .chbindHandler g o => Sys2Proof.Machine.execChbindHandler g o s
  | .chbindInbox g => Sys2Proof.Machine.execChbindInbox g s
  | .chsend h a n => Sys2Proof.Machine.execChsend h a n s
  | .chsendLo h a n => Sys2Proof.Machine.execChsendLo h a n s
  | .chsendCtl h a n => Sys2Proof.Machine.execChsendCtl h a n s
  | .chsendh h g a n => Sys2Proof.Machine.execChsendh h g a n s
  | .chsendhLo h g a n => Sys2Proof.Machine.execChsendhLo h g a n s
  | .chsendhCtl h g a n => Sys2Proof.Machine.execChsendhCtl h g a n s
  | .inboxDq h a n => Sys2Proof.Machine.execInboxDq h a n s
  | .inboxTry h a n => Sys2Proof.Machine.execInboxTry h a n s
  | .amsg a n => Sys2Proof.Machine.execAmsg a n s
  | .spawn a p o => Sys2Proof.Machine.execSpawn a p o s
  | .rrot => Sys2Proof.Machine.execRrot s
  | .mtset a b => Sys2Proof.Machine.execMtset a b s
  | .mtlist a b => Sys2Proof.Machine.execMtlist a b s
  | .mrel n => Sys2Proof.Machine.execMrel n s
  | .vadd d a b m t => Sys2Proof.Machine.execVadd d a b m t s
  | .vsub d a b m t => Sys2Proof.Machine.execVsub d a b m t s
  | .vmul d a b m t => Sys2Proof.Machine.execVmul d a b m t s
  | .vfma d a b m t => Sys2Proof.Machine.execVfma d a b m t s
  | .vmax d a b m t => Sys2Proof.Machine.execVmax d a b m t s
  | .vmin d a b m t => Sys2Proof.Machine.execVmin d a b m t s
  | .vabs d a m t => Sys2Proof.Machine.execVabs d a m t s
  | .vneg d a m t => Sys2Proof.Machine.execVneg d a m t s
  | .vexp2 d a m t => Sys2Proof.Machine.execVexp2 d a m t s
  | .vrcp d a m t => Sys2Proof.Machine.execVrcp d a m t s
  | .vrsq d a m t => Sys2Proof.Machine.execVrsq d a m t s
  | .vand d a b m t => Sys2Proof.Machine.execVand d a b m t s
  | .vor d a b m t => Sys2Proof.Machine.execVor d a b m t s
  | .vxor d a b m t => Sys2Proof.Machine.execVxor d a b m t s
  | .vshl d a b m t => Sys2Proof.Machine.execVshl d a b m t s
  | .vshr d a b m t => Sys2Proof.Machine.execVshr d a b m t s
  | .vmov d a m t => Sys2Proof.Machine.execVmov d a m t s
  | .vbcast d a m t => Sys2Proof.Machine.execVbcast d a m t s
  | .vredsum d a m t => Sys2Proof.Machine.execVredsum d a m t s
  | .vredmax d a m t => Sys2Proof.Machine.execVredmax d a m t s
  | .vsel d a b m t => Sys2Proof.Machine.execVsel d a b m t s
  | .vperm d a b m t => Sys2Proof.Machine.execVperm d a b m t s
  | .vcmpEq d a b m t => Sys2Proof.Machine.execVcmpEq d a b m t s
  | .vcmpNe d a b m t => Sys2Proof.Machine.execVcmpNe d a b m t s
  | .vcmpLt d a b m t => Sys2Proof.Machine.execVcmpLt d a b m t s
  | .vcmpLe d a b m t => Sys2Proof.Machine.execVcmpLe d a b m t s
  | .vcmpGt d a b m t => Sys2Proof.Machine.execVcmpGt d a b m t s
  | .vcmpGe d a b m t => Sys2Proof.Machine.execVcmpGe d a b m t s
  | .vcvt d a r m t => Sys2Proof.Machine.execVcvt d a r m t s
  | .vquant d a b t f g => Sys2Proof.Machine.execVquant d a b t f g s
  | .vdeq d a b t f g => Sys2Proof.Machine.execVdeq d a b t f g s
  | .baq d a b t f g => Sys2Proof.Machine.execBaq d a b t f g s
  | .vmxdot d a b m t f g => Sys2Proof.Machine.execVmxdot d a b m t f g s
  | .mand d a b => Sys2Proof.Machine.execMand d a b s
  | .mor d a b => Sys2Proof.Machine.execMor d a b s
  | .mnot d a => Sys2Proof.Machine.execMnot d a s
  | .mpop d a => Sys2Proof.Machine.execMpop d a s
  | .mfirst d a => Sys2Proof.Machine.execMfirst d a s
  | .vld d a w t o => Sys2Proof.Machine.execVld d a w t o s
  | .vst r a w t o => Sys2Proof.Machine.execVst r a w t o s
  | .vlds d a b m t w => Sys2Proof.Machine.execVlds d a b m t w s
  | .vgath d a b m t w => Sys2Proof.Machine.execVgath d a b m t w s
  | .vscat r a b m t w => Sys2Proof.Machine.execVscat r a b m t w s
  | .vldRaw d a w o => Sys2Proof.Machine.execVldRaw d a w o s
  | .vstRaw r a w o => Sys2Proof.Machine.execVstRaw r a w o s
  | .shp a b r => Sys2Proof.Machine.execShp a b r s
  | .mma a b c q => Sys2Proof.Machine.execMma a b c q s
  | .mmaz a b c q => Sys2Proof.Machine.execMmaz a b c q s
  | .mmaw a b c q => Sys2Proof.Machine.execMmaw a b c q s
  | .accst a b c q => Sys2Proof.Machine.execAccst a b c q s
  | .accld a b c q => Sys2Proof.Machine.execAccld a b c q s
  | .accz a b c q => Sys2Proof.Machine.execAccz a b c q s
  | .copy a b c q => Sys2Proof.Machine.execCopy a b c q s
  | .copy2 a b c q => Sys2Proof.Machine.execCopy2 a b c q s
  | .copyf a b c q => Sys2Proof.Machine.execCopyf a b c q s
  | .gather a b c q => Sys2Proof.Machine.execGather a b c q s
  | .mcast a b c q => Sys2Proof.Machine.execMcast a b c q s
  | .reduce a b c q => Sys2Proof.Machine.execReduce a b c q s
  | .rstage a b c q => Sys2Proof.Machine.execRstage a b c q s
  | .xpose a b c q => Sys2Proof.Machine.execXpose a b c q s
  | .fill a b c q => Sys2Proof.Machine.execFill a b c q s
  | .wait l r c t => Sys2Proof.Machine.execWait l r c t s
  | .csrr d c => Sys2Proof.Machine.execCsrr d c s
  | .csrw a c => Sys2Proof.Machine.execCsrw a c s
  | .csrs a c => Sys2Proof.Machine.execCsrs a c s
  | .csrc a c => Sys2Proof.Machine.execCsrc a c s
  | .nop => Sys2Proof.Machine.execNop s
  | .trap n => Sys2Proof.Machine.execTrap n s
  | .eret => Sys2Proof.Machine.execEret s
  | .ifence => Sys2Proof.Machine.execIfence s
  | .cancel a l => Sys2Proof.Machine.execCancel a l s
  | .circ a => Sys2Proof.Machine.execCirc a s
  | .time d => Sys2Proof.Machine.execTime d s
  | .brk => Sys2Proof.Machine.execBrk s
  | .haltSlot => Sys2Proof.Machine.execHaltSlot s
  | .wfi => Sys2Proof.Machine.execWfi s
  | .jalr d a => Sys2Proof.Machine.execJalr d a s
  | .exit => Sys2Proof.Machine.execExit s
  | .loop a d => Sys2Proof.Machine.execLoop a d s
  | .registerParityReplay c sl reg logBad => Sys2Proof.Machine.execRegisterParityReplay c sl reg logBad s
  | .deliver k => Sys2Proof.Machine.execDeliver k s
  | .perform h => Sys2Proof.Machine.execPerform h s
  | .reply k => Sys2Proof.Machine.execReply k s
  | .refusal k => Sys2Proof.Machine.execRefusal k s
  | .asyncCauseDelivery c sl => Sys2Proof.Machine.execAsyncCauseDelivery c sl s
  | .ticketFetch h => Sys2Proof.Machine.execTicketFetch h s
  | .redemption h => Sys2Proof.Machine.execRedemption h s
  | .redemptionHoldExpiry h => Sys2Proof.Machine.execRedemptionHoldExpiry h s
  | .ticketDrop h => Sys2Proof.Machine.execTicketDrop h s
  | .ticketQuery h => Sys2Proof.Machine.execTicketQuery h s
  | .leaseEnd h => Sys2Proof.Machine.execLeaseEnd h s
  | .releaseNotice k => Sys2Proof.Machine.execReleaseNotice k s
  | .snapshotReply k => Sys2Proof.Machine.execSnapshotReply k s
  | .scaleReadReply k => Sys2Proof.Machine.execScaleReadReply k s
  | .engineStart e => Sys2Proof.Machine.execEngineStart e s
  | .engineAccess e act => Sys2Proof.Machine.execEngineAccess e act s
  | .engineComplete e run => Sys2Proof.Machine.execEngineComplete e run s
  | .parkedCommandRelease e => Sys2Proof.Machine.execParkedCommandRelease e s
  | .engineMarkerComplete e => Sys2Proof.Machine.execEngineMarkerComplete e s
  | .reductionLine cl => Sys2Proof.Machine.execReductionLine cl s
  | .completionTaskCreate c => Sys2Proof.Machine.execCompletionTaskCreate c s
  | .silentNotice k => Sys2Proof.Machine.execSilentNotice k s
  | .channelCreationRequest h => Sys2Proof.Machine.execChannelCreationRequest h s
  | .channelCreationReply k => Sys2Proof.Machine.execChannelCreationReply k s
  | .instanceAllocation h => Sys2Proof.Machine.execInstanceAllocation h s
  | .messageArrival c => Sys2Proof.Machine.execMessageArrival c s
  | .mismatchedMessageReturn h => Sys2Proof.Machine.execMismatchedMessageReturn h s
  | .messageRelease c ident inst => Sys2Proof.Machine.execMessageRelease c ident inst s
  | .handlerTaskCreate c cls => Sys2Proof.Machine.execHandlerTaskCreate c cls s
  | .creditReturn k => Sys2Proof.Machine.execCreditReturn k s
  | .closeNotice h => Sys2Proof.Machine.execCloseNotice h s
  | .finalNotice k => Sys2Proof.Machine.execFinalNotice k s
  | .peerClosedNotice k => Sys2Proof.Machine.execPeerClosedNotice k s
  | .movingNotice h => Sys2Proof.Machine.execMovingNotice h s
  | .landingNotice h => Sys2Proof.Machine.execLandingNotice h s
  | .redirect k => Sys2Proof.Machine.execRedirect k s
  | .stubForward c ident gen => Sys2Proof.Machine.execStubForward c ident gen s
  | .fenceMarker k => Sys2Proof.Machine.execFenceMarker k s
  | .handoverMarker k => Sys2Proof.Machine.execHandoverMarker k s
  | .stubRetirement h => Sys2Proof.Machine.execStubRetirement h s
  | .step cl sub => Sys2Proof.Machine.execStep cl sub s
  | .slotFill c => Sys2Proof.Machine.execSlotFill c s
  | .draw die => Sys2Proof.Machine.execDraw die s
  | .drawReply k => Sys2Proof.Machine.execDrawReply k s
  | .steal die => Sys2Proof.Machine.execSteal die s
  | .runQueueAgeing c => Sys2Proof.Machine.execRunQueueAgeing c s
  | .loadSummary => Sys2Proof.Machine.execLoadSummary s
  | .workDonation asker victim => Sys2Proof.Machine.execWorkDonation asker victim s
  | .start w => Sys2Proof.Machine.execStart w s
  | .arm w => Sys2Proof.Machine.execArm w s
  | .task w => Sys2Proof.Machine.execTask w s
  | .cancelRequest h => Sys2Proof.Machine.execCancelRequest h s
  | .removalNotice die => Sys2Proof.Machine.execRemovalNotice die s
  | .cancelDeadline rec => Sys2Proof.Machine.execCancelDeadline rec s
  | .countChange h => Sys2Proof.Machine.execCountChange h s
  | .hCompletion => Sys2Proof.Machine.execHCompletion s
  | .taskMigration c sl => Sys2Proof.Machine.execTaskMigration c sl s
  | .migrationArrival c sl => Sys2Proof.Machine.execMigrationArrival c sl s
  | .watchdogExpiry c sl => Sys2Proof.Machine.execWatchdogExpiry c sl s
  | .wfiTimeout c sl => Sys2Proof.Machine.execWfiTimeout c sl s
  | .evaluation choices => Sys2Proof.Machine.execEvaluation choices s
  | .migrationSwitch page => Sys2Proof.Machine.execMigrationSwitch page s
  | .dropMarker h => Sys2Proof.Machine.execDropMarker h s
  | .drainMarker h => Sys2Proof.Machine.execDrainMarker h s
  | .sealCompletion => Sys2Proof.Machine.execSealCompletion s
  | .unsealCompletion => Sys2Proof.Machine.execUnsealCompletion s
  | .pageWalk c va fetch => Sys2Proof.Machine.execPageWalk c va fetch s
  | .tlbShootdown who base len => Sys2Proof.Machine.execTlbShootdown who base len s
  | .create rec jslot tag => Sys2Proof.Machine.execCreate rec jslot tag s
  | .teardown jslot => Sys2Proof.Machine.execTeardown jslot s
  | .switch out into t => Sys2Proof.Machine.execSwitch out into t s
  | .stopTimeLate t => Sys2Proof.Machine.execStopTimeLate t s
  | .switchOut => Sys2Proof.Machine.execSwitchOut s
  | .switchOutDone => Sys2Proof.Machine.execSwitchOutDone s
  | .resume => Sys2Proof.Machine.execResume s
  | .invalidate jslot base len => Sys2Proof.Machine.execInvalidate jslot base len s
  | .attestation nonce buf => Sys2Proof.Machine.execAttestation nonce buf s
  | .clearDisableList ix => Sys2Proof.Machine.execClearDisableList ix s
  | .raiseFirmwareMinimum => Sys2Proof.Machine.execRaiseFirmwareMinimum s
  | .qtailWrite j q v => Sys2Proof.Machine.execQtailWrite j q v s
  | .queueEntrySubmit j q => Sys2Proof.Machine.execQueueEntrySubmit j q s
  | .evheadWrite j v => Sys2Proof.Machine.execEvheadWrite j v s
  | .releaseRetry c sl gen => Sys2Proof.Machine.execReleaseRetry c sl gen s
  | .releaseResume c sl gen => Sys2Proof.Machine.execReleaseResume c sl gen s
  | .releaseKill c sl gen => Sys2Proof.Machine.execReleaseKill c sl gen s
  | .rqheadWrite v => Sys2Proof.Machine.execRqheadWrite v s
  | .fqheadWrite v => Sys2Proof.Machine.execFqheadWrite v s
  | .rqbaseWrite v => Sys2Proof.Machine.execRqbaseWrite v s
  | .fqbaseWrite v => Sys2Proof.Machine.execFqbaseWrite v s
  | .mccountWrite v => Sys2Proof.Machine.execMccountWrite v s
  | .hostRegisterWrite bar off size v => Sys2Proof.Machine.execHostRegisterWrite bar off size v s
  | .faultRecord fatal => Sys2Proof.Machine.execFaultRecord fatal s
  | .circRequest => Sys2Proof.Machine.execCircRequest s
  | .holdNotice k => Sys2Proof.Machine.execHoldNotice k s
  | .holdAck => Sys2Proof.Machine.execHoldAck s
  | .planLit => Sys2Proof.Machine.execPlanLit s
  | .circTimeout => Sys2Proof.Machine.execCircTimeout s
  | .flit link f checkOk headersOk => Sys2Proof.Machine.execFlit link f checkOk headersOk s
  | .replayRequest link lack => Sys2Proof.Machine.execReplayRequest link lack s
  | .gapTimer link => Sys2Proof.Machine.execGapTimer link s
  | .endToEndAcknowledgement peer vc eseq => Sys2Proof.Machine.execEndToEndAcknowledgement peer vc eseq s
  | .endToEndRetransmission peer vc => Sys2Proof.Machine.execEndToEndRetransmission peer vc s
  | .lossOfLight fibre waves => Sys2Proof.Machine.execLossOfLight fibre waves s
  | .liveMask fibre mask => Sys2Proof.Machine.execLiveMask fibre mask s
  | .keyReplacement link => Sys2Proof.Machine.execKeyReplacement link s
  | .gatewayBlock link => Sys2Proof.Machine.execGatewayBlock link s
  | .linkChange peer vc => Sys2Proof.Machine.execLinkChange peer vc s
  | .timeMessage t => Sys2Proof.Machine.execTimeMessage t s
  | .errorDetected ukind unit cause addr => Sys2Proof.Machine.execErrorDetected ukind unit cause addr s
  | .windowRestart ukind unit => Sys2Proof.Machine.execWindowRestart ukind unit s
  | .powerOn fuseOk linkOk found => Sys2Proof.Machine.execPowerOn fuseOk linkOk found s
  | .powerEvaluation power tj => Sys2Proof.Machine.execPowerEvaluation power tj s
  | .thermalTrip tj => Sys2Proof.Machine.execThermalTrip tj s
  | .railRemoval => Sys2Proof.Machine.execRailRemoval s
  | .undefinedInstruction w => Sys2Proof.Machine.execUndefinedInstruction w s
  | .peerLayoutEntry peer layout => Sys2Proof.Machine.execPeerLayoutEntry peer layout s
  | .trainLink link light => Sys2Proof.Machine.execTrainLink link light s
  | .switchRefusedPlan => Sys2Proof.Machine.execSwitchRefusedPlan s
  | .moduleReset => Sys2Proof.Machine.execModuleReset s

end Sys2Proof.Machine
end

