-- ==== Sys2Proof/Machine/Issue.lean ====
section
/-! DEFINITION. A turn of the machine: the delivered cycles that pass, then one core's issue (R257) or one step of Table 03-2
or of the device. -/

namespace Sys2Proof.Machine

open Sys2Proof

/-- Delivered cycles pass: the module's clock, the job's clock unless the job is stopped, and the time base, 32 / DELIV ns a
cycle (R2, R6, R388; log 3). -/
def State.pass (s : State) (n : Nat) : State :=
  if n = 0 then s else
  let s := s.endCycle
  let d := max 1 s.eqx.deliv
  let t := s.timeRem + 32 * n
  { s with
    now := s.now + n
    mach := if s.stopped || s.running.isNone then s.mach else { s.mach with clock := s.mach.clock + n }
    time := s.time + BitVec.ofNat 64 (t / d)
    timeRem := t % d }

/-- A slot that issue may take: Ready, or Stalled and tried again (R26, R257; log 9). -/
def Phase.issues : Phase → Bool
  | .ready | .stalled => true
  | _ => false

/-- The slots that a core tries in this cycle, in their order: from the slot after the one that issued last, wrapping, those
that a latency holds left out (R257). -/
def State.order (s : State) (c : Nat) (busy : List Nat) : List Nat :=
  let n := slotCount c
  ((List.range n).map (fun i => ((s.coreAt c).last + 1 + i) % n)).filter
    (fun l => !busy.contains l && (s.slotAt c l).phase.issues)

/-- The effect of a word at PC: its instruction's, or that of a word that names none (R98). -/
def State.runWord (s : State) (w : IWord) : Out :=
  match decode w with
  | .ok i => exec i s
  | _ => execUndefinedInstruction w s

/-- A read of an instruction word is refused at its home: the slot stalls, and takes 0x062 as after any refused load (R147,
R276; log 75). -/
def State.fetchRefused (s : State) (c l pa : Nat) : State :=
  let s1 := s.stall
  if (s.slotAt c l).async.contains (.load (BitVec.ofNat 64 pa)) then s1 else s1.pushLoadCause c l pa

/-- What a slot keeps of an access that was to move its task belongs to that instruction, and to this try of it (R270). -/
def State.newTry (s : State) : State :=
  let t := s.slot.task
  if t.move.isNone ∧ t.stay.isNone then s
  else s.upd (fun sl => { sl with task := { t with move := none, stay := if t.stay = some sl.pc then t.stay else none } })

/-- A slot reaches an instruction boundary: an asynchronous cause that may be delivered comes first (R329), else the word at
PC is fetched and its instruction executed. -/
def State.boundary (s : State) (c l : Nat) : Out :=
  let s1 := ({ s with cur := (c, l) }).newTry
  if s1.slot.asyncReady then execAsyncCauseDelivery c l s1
  else
    match s1.fetch c s1.slot.pc with
    | (s2, .bad cause index t) => s2.trapIdx cause index t
    | (s2, .refused pa) => .next (s2.fetchRefused c l pa)
    | (s2, .later) => .next s2.stall
    | (s2, .ok w) => s2.runWord w

/-- The first of these slots whose instruction is not Stalled issues (R26, R257); with none the cycle issues nothing. -/
def State.tryIssue (s : State) (c : Nat) : List Nat → Out
  | [] => .next s
  | l :: t =>
    match s.boundary c l with
    | .next s1 =>
      if (s1.slotAt c l).phase = .stalled then State.tryIssue s1 c t
      else .next (s1.updCore c (fun k => { k with last := l, issuedAt := some s.now }))
    | o => o

/-- A core's issue: at most one instruction in a cycle (R257). -/
def State.issueCore (s : State) (c : Nat) (busy : List Nat) : Out :=
  if s.stopped || !s.part.coreLive c || decide ((s.coreAt c).issuedAt = some s.now) then .next s
  else s.tryIssue c (s.order c busy)

/-- A live core's prefetch (R244). -/
def State.prefetchCore (s : State) (c : Nat) (va : Word) : Out :=
  if s.stopped || !s.part.coreLive c || s.running.isNone then .next s
  else .next ({ s with cur := (c, 0) }.prefetch c va)

/-- One turn. Without power nothing happens but a power-on (R388). -/
def State.turn (s : State) (t : Turn) : Out :=
  match t.act with
  | .issue c busy => if s.eqx.rails then (s.pass t.cycles).issueCore c busy else .fault .railsRemoved
  | .prefetch c va => if s.eqx.rails then (s.pass t.cycles).prefetchCore c va else .fault .railsRemoved
  | .event i =>
    if s.eqx.rails then
      match encode i, i with
      | some _, _ => notEnabled "instruction"
      | none, .undefinedInstruction _ => notEnabled "UNDEFINED_INSTRUCTION"
      | none, i => exec i (s.pass t.cycles)
    else
      match i with
      | .powerOn _ _ _ => exec i (s.pass t.cycles)
      | _ => .fault .railsRemoved

/-- The turn of an open schedule (log 2). -/
def freeTurn (n : Nat) : Turn :=
  let t := Config.turn n
  { cycles := t.1
    act := match t.2.1, t.2.2.2.2 with
      | some i, _ => .event i
      | none, some va => .prefetch t.2.2.1 va
      | none, none => .issue t.2.2.1 t.2.2.2.1 }

/-- The next turn: the one listed first, or, with none listed, a free one; a free one that is not enabled passes with no
effect (log 2). -/
def State.advance (s : State) : Out :=
  match s.turns with
  | t :: r => { s with turns := r }.turn t
  | [] =>
    let s1 := { s with free := s.free + 1 }
    match s1.turn (freeTurn s.free) with
    | .refused (.notEnabled _) => .next s1
    | o => o

end Sys2Proof.Machine
end

