-- ==== Sys2Proof/Machine/Step.lean ====
section
/-! DEFINITION. `step`, and where it fetches its next instruction. -/

namespace Sys2Proof.Machine

open Sys2Proof

/-- One step of the machine: its next turn. -/
def step (s : State) : Host.Outcome State Fault Refusal := s.advance

/-- An instruction word where `step` fetches next: the next turn is the issue of compute core 3 of tile 0, whose slot 0 is
Ready with a PC that its instruction TLB maps to the first bytes of the tile's slice, and the word stands there and in the
core's prefetch (log 6). -/
def State.withFetchWord (s : State) (_nbits w : Nat) : State :=
  let e : TlbE :=
    { job := s.job.tag, page := 1, frame := 0, r := true, w := true, x := true, sealed := false, move := false, fmt := 0x0F, scale := 0
      peer := s.part.peer, leafVa := 0x10000, leafLen := 0x10000, spanVa := 0x10000 }
  let s1 := s.updSlotAt 3 0 (fun sl => { sl with phase := .ready, pc := 0x10000, async := [] })
  let s2 := s1.updCore 3 (fun k => { k with last := 3, issuedAt := none, words := AMap.set k.words 0 (BitVec.ofNat 32 w), itlb := tlbPut 16 e k.itlb })
  { s2.rawPut 0 (toBytes w 4) with turns := { cycles := 0, act := .issue 3 [] } :: s.turns, switch := none }

end Sys2Proof.Machine
end

