-- ==== Sys2Proof/Safety.lean ====
section
/-! DEFINITION. What counts as a good state, and the words in which statements speak of results and of what stays. -/

namespace Sys2Proof.Safety

open Sys2Proof Sys2Proof.Machine

/-- The memories, the job's slices, those of the jobs that are saved, the module's own and the host's, keep their canonical form
(log 4). -/
def memoryWf (s : State) : Prop :=
  s.mach.sram.wf = true ∧ s.dram.wf = true ∧ s.host.wf = true ∧ s.eqx.mailbox.wf = true ∧
    ∀ e ∈ s.saved, e.2.sram.wf = true

/-- Bits [31:0] of a register (R120). -/
def low (x : Word) : BitVec 32 := x.setWidth 32

/-- The result of an integer form at the width that its `.w` bit names (R120). -/
def atN (w : BitVec 1) (r64 : Word) (r32 : BitVec 32) : Word := if w = 1 then r32.signExtend 64 else r64

/-- A truth value as a result. -/
def oneIf (p : Prop) [Decidable p] : Word := if p then 1 else 0

/-- Everything but the slots, the cores (the operand log) and Equinox (records on their lanes) is as it was. -/
def sameOutside (s t : State) : Prop :=
  { t with mach := { t.mach with slots := s.mach.slots, cores := s.mach.cores }, eqx := s.eqx } = s

/-- No slot but the one in hand has changed. -/
def otherSlotsSame (s t : State) : Prop :=
  ∀ c l, slotKey c l ≠ slotKey s.cur.1 s.cur.2 → t.slotAt c l = s.slotAt c l

/-- Every byte of memory reads as before. -/
def sameMemory (s t : State) : Prop := ∀ a, t.byte a = s.byte a

/-- A slot after an instruction that only computes: no x register but `d`, and no poison but that of `d`, has changed; and of the
rest of the slot only the PC and the phase have, or, where a cause has been taken, no register of the file but the PC, the phase,
CAUSE, EPC and TVAL, and what a parked slot keeps for the host: its record and the job clock at which it was parked for a
debugger. -/
def sameSlotBut (d : Reg) (a b : Slot) : Prop :=
  (∀ r, r ≠ d → b.rx r = a.rx r) ∧ (∀ n, n ≠ d.toNat → b.poisonAt n = a.poisonAt n) ∧
    ({ b with x := a.x, px := a.px, pc := a.pc, phase := a.phase } = a ∨
      { b with pc := a.pc, phase := a.phase, cause := a.cause, epc := a.epc, tval := a.tval, held := a.held
               task := { b.task with dbg := a.task.dbg } } = a)

/-- The destination of an instruction that only computes: majors 0x01 to 0x09, and `lea`, `gaform`, `gatile` and `padd` of major
0x0C (R119). -/
def scalarDest : Instr → Option Reg
  | .add d _ _ _ | .sub d _ _ _ | .mul d _ _ _ | .mulh d _ _ _ | .div d _ _ _ _ | .rem d _ _ _ _ | .and d _ _ | .or d _ _
  | .xor d _ _ | .andn d _ _ | .sll d _ _ _ | .srl d _ _ _ | .sra d _ _ _ | .rot d _ _ _ | .clz d _ _ | .ctz d _ _
  | .popc d _ _ | .min d _ _ _ | .max d _ _ _ | .slt d _ _ _ | .sel d _ _ | .sextB d _ | .sextH d _ | .sextW d _
  | .zextB d _ | .zextH d _ | .zextW d _ | .addImm d _ _ | .andImm d _ _ | .orImm d _ _ | .xorImm d _ _ | .sltImm d _ _
  | .sltNImm d _ _ | .addWImm d _ _ | .mulImm d _ _ | .minImm d _ _ | .maxImm d _ _ | .minNImm d _ _ | .maxNImm d _ _
  | .sllImm d _ _ | .srlImm d _ _ | .sraImm d _ _ | .rotImm d _ _ | .sllWImm d _ _ | .srlWImm d _ _ | .sraWImm d _ _
  | .rotWImm d _ _ | .bfx d _ _ _ | .bfi d _ _ _ | .lui d _ | .auipc d _ | .fadd d _ _ | .fsub d _ _ | .fmul d _ _
  | .fdiv d _ _ | .fmin d _ _ | .fmax d _ _ | .fabs d _ | .fcmpEq d _ _ | .fcmpNe d _ _ | .fcmpLt d _ _ | .fcmpLe d _ _
  | .fcmpGt d _ _ | .fcmpGe d _ _ | .fcvtF32I d _ | .fcvtIF32 d _ | .fcvtF32Bf16 d _ | .fcvtBf16F32 d _ | .fma d _ _ _
  | .lea d _ _ _ | .gaform d _ _ | .gatile d _ | .padd d _ _ => some d
  | _ => none

/-- The last packet of a pair queue has this body. -/
def lastIs (t : State) (k : PairKey) (b : Body) : Prop := ∃ p, (netGet t.mach.net k).getLast? = some p ∧ p.body = b

/-- A request of the slot in hand is on its way to a home: in the own slice's perform queue, or last on its pair queue (R43,
R47). -/
def requested (s u : State) (home : Nat) (peer : Peer) (b : Body) : Prop :=
  if s.isLocal s.cur.1 home peer = true then
    ∃ p ∈ (u.homeAt home).q, p.body = b ∧ p.src = s.here (.core s.cur.1) ∧ p.slot = s.cur.2 ∧ p.gen = s.slot.gen
  else lastIs u { src := s.here (.core s.cur.1), dst := { peer := peer, agent := .home home }, cls := 4 } b

/-- A posted write of the slot in hand has been issued (R24, R25, R145): it is on its way and counted in CNTST; a remote one is
counted in its distance class and stands in the lowest free journal entry; registers and memory are as they were. -/
def posted (s u : State) (x : Xl) (kind : WKind) (len : Nat) (data : VWord) : Prop :=
  let c := s.cur.1
  let h := s.xlHome x
  let cls := s.distance c h x.e.peer
  let up : Nat → Nat := fun k => if s.isLocal c h x.e.peer = false ∧ cls = k then 1 else 0
  u.slot.cntst = s.slot.cntst + 1 ∧ u.slot.cntld = s.slot.cntld ∧ u.slot.x = s.slot.x ∧ sameMemory s u ∧
    u.slot.stc = s.slot.stc + up 1 ∧ u.slot.stp = s.slot.stp + up 2 ∧ u.slot.stx = s.slot.stx + up 3 ∧
    if s.isLocal c h x.e.peer = true then
      (u.coreAt c).journal = (s.coreAt c).journal ∧ requested s u h x.e.peer (.store kind x.pa len data none)
    else ∃ e, freeEntry (s.coreAt c).journal = some e ∧ requested s u h x.e.peer (.store kind x.pa len data (some e)) ∧
      AMap.get (u.coreAt c).journal e = some
        { slot := s.cur.2, gen := s.slot.gen, home := h, peer := x.e.peer, cls := cls, pa := x.pa, len := len, data := data
          kind := kind, refused := false, reason := 0, undelivered := false }

/-- Nothing of R61 and R367 stands in the way of an access to a module. -/
def wayOut (s : State) (peer : Peer) : Prop :=
  peer = s.part.peer ∨ ((s.coreAt s.cur.1).hold = false ∧ s.peerCause peer = none)

/-- A data access of `len` bytes of the slot in hand is allowed: it translates, to `x` with `t` the state in which the TLBs have
been used, no region of a slice is denied to it, its page is not flagged to move the task (R270, R285), and the way to its
module is open (R144). -/
def openWay (s t : State) (va : Word) (len : Nat) (write : Bool) (x : Xl) : Prop :=
  s.translate s.cur.1 va (if write then .write else .read) = (t, .ok x) ∧ s.denied x len write = false ∧
    s.mustMove x = false ∧ wayOut s x.e.peer

/-- A range of a tile command for queue `q` passes its checks (R220): aligned, translated with `t` the state in which the TLBs
have been used, to `x`, a source at the replica that an own engine reads (R57), inside one leaf, no run of it denied, its page not
flagged to move the task, and the way to its module open. -/
def rangeOk (s t : State) (q : Nat) (va : Word) (align len : Nat) (runs : List (Nat × Nat)) (write : Bool) (x : Xl) : Prop :=
  va.toNat % align = 0 ∧ len % align = 0 ∧
    (∃ y, s.translate s.cur.1 va (if write then .write else .home) = (t, .ok y) ∧
      x = if write then y else s.nearRead q y) ∧ len ≤ leafLeft x va.toNat ∧
    runs.any (fun r => s.runDenied x r.1 r.2 write) = false ∧ s.mustMove x = false ∧ wayOut s x.e.peer

/-- An own engine's queue has a place, where the command goes to one (R222). -/
def queueOpen (s : State) (pl : Place) : Prop := ∀ e, s.ownTileEngine pl = some e → s.engineFull e = false

/-- A command of `op` for `q`, or a marker, has entered (R218 step 9): its counter is one more, PC has moved on, memory is
unchanged, and the command is parked behind an open follow-on group, last in the own engine's queue, or put on its pair
queue, for an operation with two records with the continuation that carries the second of them behind it (R118). -/
def commandEntered (s u : State) (pl : Place) (op q : Nat) (marker : Bool := false) : Prop :=
  (if q = 0 then u.slot.cnttl = s.slot.cnttl + 1 ∧ u.slot.cntcp = s.slot.cntcp
    else u.slot.cntcp = s.slot.cntcp + 1 ∧ u.slot.cnttl = s.slot.cnttl) ∧
  u.slot.pc = s.slot.pc + 4 ∧ u.slot.x = s.slot.x ∧ u.slot.v = s.slot.v ∧ sameMemory s u ∧
  ∃ c : Cmd, c.op = BitVec.ofNat 8 op ∧ c.core = s.cur.1 ∧ c.slot = s.cur.2 ∧ c.gen = s.slot.gen ∧ c.marker = marker ∧
    if q = 0 ∧ marker = false ∧ s.slot.followOpen = true then (u.engineAt (ownEngine s.cur.1 1)).parked.getLast? = some c
    else
      match s.ownTileEngine pl with
      | some e => (u.engineAt e).queue.getLast? = some c
      | none =>
        let k : PairKey := { src := s.here (.core s.cur.1), dst := pl, cls := 2 }
        ∃ p, p.body = .cmd c ∧
          if hasCont op then ∃ r v, r.body = .shapeCont s.cur.1 s.cur.2 s.slot.gen v ∧
            netGet u.mach.net k = netGet s.mach.net k ++ [p, r]
          else netGet u.mach.net k = netGet s.mach.net k ++ [p]

/-- What a tile command needs to issue, but for its operands' ranges (R218 steps 1 to 5): its core's units, its registers, and a
`q` that its class accepts. -/
def commandReady (s : State) (op : Nat) (a b c : Reg) (q : BitVec 3) : Prop :=
  ready { lack := tileLack s.cur.1 op q.toNat
          reads := [xr a, xr b, xr c] ++ (s.groupOf op (tileW0 op (s.slot.rx a))).map vr
          hold := s.tileHold q.toNat false } s = true ∧ classAccepts ((classOf op).getD 0) q.toNat = true

/-- A pair queue between two parties of the module. -/
def queueOf (s : State) (a b : Agent) (cls : Nat) : PairKey := { src := s.here a, dst := s.here b, cls := cls }

/-- A body heads a pair queue to a party of this module. -/
def heads (s : State) (k : PairKey) (a : Agent) (b : Body) : Prop :=
  k.dst = s.here a ∧ ∃ p, s.headOf k = some p ∧ p.body = b

/-- The head of a pair queue has left it. -/
def left (s t : State) (k : PairKey) : Prop := t.mach.net = netSet s.mach.net k (netGet s.mach.net k).tail

end Sys2Proof.Safety
end

