-- ==== Sys2Proof/Certificates/Slice0/Obligations.lean ====
section
/-! DEFINITION. The statements about this model, for the provers. Each names the rule of the spec that it formalises; `ready` says
that an instruction's core has its unit, that no register it names is pending and that none it reads is poisoned (R98, R14,
R13). -/

open Sys2Proof Sys2Proof.Machine Sys2Proof.Safety

/-- Every operation of major 0x01 writes the result of Table 07-1 at its width and goes on (R120, R121, R122). -/
def Obligations.register_forms_give_the_results_of_table_07_1 : Prop :=
  ∀ (s : State) (d a b : Reg) (w n : BitVec 1),
    let x := s.slot.rx a
    let y := s.slot.rx b
    let c := s.slot.rx d
    let done : Word → Out := fun v => .next (s.setX d v).retire
    (ready { reads := [xr a, xr b], writes := [xr d] } s = true →
      exec (.add d a b w) s = done (atN w (x + y) (low x + low y)) ∧
      exec (.sub d a b w) s = done (atN w (x - y) (low x - low y)) ∧
      exec (.mul d a b w) s = done (atN w (x * y) (low x * low y)) ∧
      exec (.mulh d a b n) s = done (if n = 1 then BitVec.ofNat 64 (x.toNat * y.toNat / 2 ^ 64)
        else BitVec.ofInt 64 (x.toInt * y.toInt / 2 ^ 64)) ∧
      exec (.div d a b w n) s = done (atN w
        (if y = 0 then BitVec.allOnes 64 else if n = 1 then x / y else x.sdiv y)
        (if low y = 0 then BitVec.allOnes 32 else if n = 1 then low x / low y else (low x).sdiv (low y))) ∧
      exec (.rem d a b w n) s = done (atN w
        (if y = 0 then x else if n = 1 then x % y else x.srem y)
        (if low y = 0 then low x else if n = 1 then low x % low y else (low x).srem (low y))) ∧
      exec (.and d a b) s = done (x &&& y) ∧
      exec (.or d a b) s = done (x ||| y) ∧
      exec (.xor d a b) s = done (x ^^^ y) ∧
      exec (.andn d a b) s = done (x &&& ~~~y) ∧
      exec (.sll d a b w) s = done (atN w (x <<< (y.toNat % 64)) (low x <<< (y.toNat % 32))) ∧
      exec (.srl d a b w) s = done (atN w (x >>> (y.toNat % 64)) (low x >>> (y.toNat % 32))) ∧
      exec (.sra d a b w) s = done (atN w (x.sshiftRight (y.toNat % 64)) ((low x).sshiftRight (y.toNat % 32))) ∧
      exec (.rot d a b w) s = done (atN w (x.rotateRight (y.toNat % 64)) ((low x).rotateRight (y.toNat % 32))) ∧
      exec (.min d a b n) s = done (if (if n = 1 then x.ult y else x.slt y) then x else y) ∧
      exec (.max d a b n) s = done (if (if n = 1 then x.ult y else x.slt y) then y else x) ∧
      exec (.slt d a b n) s = done (oneIf ((if n = 1 then x.ult y else x.slt y) = true))) ∧
    (ready { reads := [xr a, xr b, xr d], writes := [xr d] } s = true →
      exec (.sel d a b) s = done (if c ≠ 0 then x else y)) ∧
    (ready { reads := [xr a], writes := [xr d] } s = true →
      exec (.clz d a w) s = done (atN w (BitVec.ofNat 64 (if x = 0 then 64 else 63 - x.toNat.log2))
        (BitVec.ofNat 32 (if low x = 0 then 32 else 31 - (low x).toNat.log2))) ∧
      (∃ k k32 : Nat, exec (.ctz d a w) s = done (atN w (BitVec.ofNat 64 k) (BitVec.ofNat 32 k32)) ∧
        (k ≤ 64 ∧ (∀ i, i < k → x.getLsbD i = false) ∧ (k < 64 → x.getLsbD k = true)) ∧
        (k32 ≤ 32 ∧ (∀ i, i < k32 → x.getLsbD i = false) ∧ (k32 < 32 → x.getLsbD k32 = true))) ∧
      exec (.popc d a w) s = done (atN w (BitVec.ofNat 64 ((List.range 64).countP (fun i => x.getLsbD i)))
        (BitVec.ofNat 32 ((List.range 32).countP (fun i => x.getLsbD i)))) ∧
      exec (.sextB d a) s = done ((x.setWidth 8).signExtend 64) ∧
      exec (.sextH d a) s = done ((x.setWidth 16).signExtend 64) ∧
      exec (.sextW d a) s = done ((low x).signExtend 64) ∧
      exec (.zextB d a) s = done (x &&& 0xFF) ∧
      exec (.zextH d a) s = done (x &&& 0xFFFF) ∧
      exec (.zextW d a) s = done (x &&& 0xFFFFFFFF))

/-- The immediate forms of majors 0x02 to 0x07 write the results of Tables 07-3 and 07-4 and of R125 (R123, R124,
R125). -/
def Obligations.immediate_forms_give_the_results_of_their_tables : Prop :=
  ∀ (s : State) (d a : Reg) (i : BitVec 16) (j : BitVec 12) (c l w : BitVec 6),
    let x := s.slot.rx a
    let y := s.slot.rx d
    let k : Word := j.signExtend 64
    let done : Word → Out := fun v => .next (s.setX d v).retire
    (ready { reads := [xr a], writes := [xr d] } s = true →
      exec (.addImm d a i) s = done (x + i.signExtend 64) ∧
      exec (.andImm d a i) s = done (x &&& i.zeroExtend 64) ∧
      exec (.orImm d a i) s = done (x ||| i.zeroExtend 64) ∧
      exec (.xorImm d a j) s = done (x ^^^ k) ∧
      exec (.sltImm d a j) s = done (oneIf (x.slt k = true)) ∧
      exec (.sltNImm d a j) s = done (oneIf (x.ult k = true)) ∧
      exec (.addWImm d a j) s = done ((low (x + k)).signExtend 64) ∧
      exec (.mulImm d a j) s = done (x * k) ∧
      exec (.minImm d a j) s = done (if x.slt k then x else k) ∧
      exec (.maxImm d a j) s = done (if x.slt k then k else x) ∧
      exec (.minNImm d a j) s = done (if x.ult k then x else k) ∧
      exec (.maxNImm d a j) s = done (if x.ult k then k else x) ∧
      exec (.sllImm d a c) s = done (x <<< c.toNat) ∧
      exec (.srlImm d a c) s = done (x >>> c.toNat) ∧
      exec (.sraImm d a c) s = done (x.sshiftRight c.toNat) ∧
      exec (.rotImm d a c) s = done (x.rotateRight c.toNat) ∧
      (c.toNat ≤ 31 →
        exec (.sllWImm d a c) s = done ((low x <<< c.toNat).signExtend 64) ∧
        exec (.srlWImm d a c) s = done ((low x >>> c.toNat).signExtend 64) ∧
        exec (.sraWImm d a c) s = done (((low x).sshiftRight c.toNat).signExtend 64) ∧
        exec (.rotWImm d a c) s = done (((low x).rotateRight c.toNat).signExtend 64)) ∧
      (l.toNat + w.toNat + 1 ≤ 64 →
        exec (.bfx d a l w) s = done ((x >>> l.toNat) &&& BitVec.ofNat 64 (2 ^ (w.toNat + 1) - 1)))) ∧
    (ready { reads := [xr a, xr d], writes := [xr d] } s = true → l.toNat + w.toNat + 1 ≤ 64 →
      ∃ t : Word, exec (.bfi d a l w) s = done t ∧ ∀ b, b < 64 →
        t.getLsbD b = if l.toNat ≤ b ∧ b < l.toNat + w.toNat + 1 then x.getLsbD (b - l.toNat) else y.getLsbD b) ∧
    (ready { writes := [xr d] } s = true →
      exec (.lui d i) s = done (i.signExtend 64 <<< 16) ∧
      exec (.auipc d i) s = done (s.slot.pc + (i.signExtend 64 <<< 16)))

/-- The scalar FP32 forms write the exact result rounded once by FRM.MODE, comparisons 0 or 1 (R127, R128, R129, R130,
R131, spec/07_scalar_instructions.md Table 07-6). -/
def Obligations.fp32_forms_round_once_and_clear_the_upper_half : Prop :=
  ∀ (s : State) (d a b c : Reg),
    let f : Reg → Val := fun r => decodeElt 0 ((s.slot.rx r).toNat % 2 ^ 32)
    let code : Reg → Nat := fun r => (s.slot.rx r).toNat % 2 ^ 32
    let rnd := arithRnd s.slot.frm
    let done : Word → Out := fun v => .next (s.setX d v).retire
    let rounded : Val → Out := fun v => done (BitVec.ofNat 64 (arith 0 rnd v))
    let rel : Nat → Out := fun k => done (oneIf (relVal k (f a) (f b) = true))
    (ready { reads := [xr a, xr b], writes := [xr d] } s = true →
      exec (.fadd d a b) s = rounded ((f a).add (f b)) ∧
      exec (.fsub d a b) s = rounded ((f a).add (f b).neg) ∧
      exec (.fmul d a b) s = rounded ((f a).mul (f b)) ∧
      exec (.fdiv d a b) s = rounded ((f a).div (f b)) ∧
      exec (.fmin d a b) s = done (BitVec.ofNat 64 (minmax 0 false (code a) (code b))) ∧
      exec (.fmax d a b) s = done (BitVec.ofNat 64 (minmax 0 true (code a) (code b))) ∧
      exec (.fcmpEq d a b) s = rel 0 ∧ exec (.fcmpNe d a b) s = rel 1 ∧ exec (.fcmpLt d a b) s = rel 2 ∧
      exec (.fcmpLe d a b) s = rel 3 ∧ exec (.fcmpGt d a b) s = rel 4 ∧ exec (.fcmpGe d a b) s = rel 5) ∧
    (ready { reads := [xr a], writes := [xr d] } s = true →
      exec (.fabs d a) s = done (s.slot.rx a &&& 0x7FFFFFFF) ∧
      exec (.fcvtF32I d a) s = rounded (intVal (s.slot.rx a)) ∧
      exec (.fcvtIF32 d a) s = done (toI64 rnd (f a)) ∧
      exec (.fcvtF32Bf16 d a) s = done (BitVec.ofNat 64 (convert 0 .rne (decodeElt 1 ((s.slot.rx a).toNat % 2 ^ 16)))) ∧
      exec (.fcvtBf16F32 d a) s = done (BitVec.ofNat 64 (convert 1 rnd (f a)))) ∧
    (ready { reads := [xr a, xr b, xr c], writes := [xr d] } s = true →
      exec (.fma d a b c) s = rounded (((f a).mul (f b)).add (f c)))

/-- lea, gaform, gatile and padd compute as R133 to R136 state and perform no access (R133, R134, R135, R136). -/
def Obligations.address_forms_compute_in_the_window : Prop :=
  ∀ (s : State) (d a b : Reg) (k : BitVec 3),
    let x := s.slot.rx a
    let y := s.slot.rx b
    let base := s.job.sramBase
    let done : Word → Out := fun v => .next (s.setX d v).retire
    (ready { reads := [xr a, xr b], writes := [xr d] } s = true →
      (k.toNat ≤ 6 → exec (.lea d a b k) s = done (x + (y <<< k.toNat))) ∧
      exec (.gaform d a b) s = done (base + ((x &&& 0x3FF) <<< 20) + (y &&& 0xFFFFF)) ∧
      ∃ v : Word, exec (.padd d a b) s = done v ∧ v >>> 20 = x >>> 20 ∧ v &&& 0xFFFFF = (x + y) &&& 0xFFFFF) ∧
    (ready { reads := [xr a], writes := [xr d] } s = true →
      exec (.gatile d a) s = done
        (if base.toNat ≤ x.toNat ∧ x.toNat < base.toNat + 2 ^ 30 then ((x - base) >>> 20) &&& 0x3FF
          else 0xFFFFFFFFFFFFFFFF))

/-- gahome writes HOME, PEER and DIST of a readable address, and traps where translation refuses (R137, R24, R275). -/
def Obligations.gahome_writes_the_home_its_peer_and_the_distance : Prop :=
  ∀ (s : State) (d a : Reg), ready { reads := [xr a], writes := [xr d] } s = true →
    (∀ x t, s.translate s.cur.1 (s.slot.rx a) .home = (t, .ok x) →
      exec (.gahome d a) s = .next (t.setX d (BitVec.ofNat 64
        (s.dist s.cur.1 (s.xlHome x) x.e.peer * 2 ^ 28 + x.e.peer.toNat * 2 ^ 16 + s.xlHome x))).retire) ∧
    (∀ cause index t, s.translate s.cur.1 (s.slot.rx a) .home = (t, .bad cause index) →
      exec (.gahome d a) s = s.trapIdx cause index (s.slot.rx a))

/-- Branches compare two registers, jumps and loop transfer by 4-byte displacements, jalr reads its target first
(R139, R140, R141, R142). -/
def Obligations.branches_and_jumps_transfer_as_stated : Prop :=
  ∀ (s : State) (d a b : Reg) (disp : BitVec 16) (far : BitVec 26),
    let x := s.slot.rx a
    let y := s.slot.rx b
    let pc := s.slot.pc
    let go : Bool → Out := fun p => .next (if p then s.jump (pc + disp.signExtend 64 * 4) else s.retire)
    (ready { reads := [xr a, xr b] } s = true →
      exec (.beq a b disp) s = go (decide (x = y)) ∧ exec (.bne a b disp) s = go (decide (x ≠ y)) ∧
      exec (.blt a b disp) s = go (decide (x.toInt < y.toInt)) ∧ exec (.bge a b disp) s = go (decide (y.toInt ≤ x.toInt)) ∧
      exec (.blo a b disp) s = go (decide (x.toNat < y.toNat)) ∧ exec (.bhs a b disp) s = go (decide (y.toNat ≤ x.toNat))) ∧
    exec (.j far) s = .next (s.jump (pc + far.signExtend 64 * 4)) ∧
    (ready { writes := [31] } s = true →
      exec (.jal far) s = .next ((s.setX 31 (pc + 4)).jump (pc + far.signExtend 64 * 4))) ∧
    (ready { reads := [xr a], writes := [xr d] } s = true →
      (x.toNat % 4 = 0 → exec (.jalr d a) s = .next ((s.setX d (pc + 4)).jump x)) ∧
      (x.toNat % 4 ≠ 0 → exec (.jalr d a) s = s.trap 0x006 x)) ∧
    (ready { reads := [xr a], writes := [xr a] } s = true →
      exec (.loop a disp) s = .next (if x - 1 ≠ 0 then (s.setX a (x - 1)).jump (pc + disp.signExtend 64 * 4)
        else (s.setX a (x - 1)).retire))

/-- Frame of majors 0x01 to 0x09, lea, gaform, gatile, padd: only X[rd], PC and phase change in the slot; on a trap
PC, phase, CAUSE, EPC, TVAL and its record (R119, R12, R138). -/
def Obligations.scalar_frame : Prop :=
  ∀ (s t : State) (i : Instr) (d : Reg), scalarDest i = some d → exec i s = .next t →
    sameSlotBut d s.slot (t.slotAt s.cur.1 s.cur.2) ∧ otherSlotsSame s t ∧ sameMemory s t ∧ sameOutside s t

/-- A scalar load or ld.fe that passes its checks marks xd pending, raises CNTLD and sends its request, changing no
memory (R144, R145, R148, R14, R23). -/
def Obligations.scalar_loads_send_one_request : Prop :=
  ∀ (s t : State) (d a b : Reg) (w : BitVec 2) (z : BitVec 3) (z2 : BitVec 2) (o : BitVec 11) (x : Xl),
    let size := 2 ^ z.toNat
    let size2 := 2 ^ z2.toNat
    let off := s.slot.rx a + o.signExtend 64 * BitVec.ofNat 64 size
    let off2 := s.slot.rx a + o.signExtend 64 * BitVec.ofNat 64 size2
    let sum := s.slot.rx a + s.slot.rx b
    let hold := waits w s.slot || decide (63 ≤ s.slot.cntld)
    let isLocal := s.isLocal s.cur.1 (s.xlHome x) x.e.peer
    let sent : Bool → Nat → State := fun sgn n => (t.sendLoad x d (.load x.pa n (.xreg d sgn n))).retire
    let sentFe : Bool → Nat → State := fun take n =>
      let u := (t.sendLoad x d (.ldFe take x.pa n (.xreg d false n))).retire
      if isLocal then u.upd (fun sl => { sl with phase := .blocked .ldFe }) else u
    z.toNat ≤ 3 →
    (ready { reads := [xr a], writes := [xr d], hold := hold } s = true →
      (off.toNat % size = 0 → openWay s t off size false x →
        exec (.ld d a w z o) s = .next (sent false size) ∧
        (z.toNat ≤ 2 → exec (.ldS d a w z o) s = .next (sent true size))) ∧
      (off2.toNat % size2 = 0 → inWindow x s.part.peer = true →
        openWay s t off2 size2 false x →
          exec (.ldFeKeep d a w z2 o) s = .next (sentFe false size2) ∧
          exec (.ldFeTake d a w z2 o) s = .next (sentFe true size2))) ∧
    (ready { reads := [xr a, xr b], writes := [xr d], hold := hold } s = true → sum.toNat % size = 0 →
      (openWay s t sum size false x →
        exec (.ldIndexed d a b w z) s = .next (sent false size) ∧
        (z.toNat ≤ 2 → exec (.ldSIndexed d a b w z) s = .next (sent true size)) ∧
        (inWindow x s.part.peer = true →
          exec (.ldFeKeepIndexed d a b w z) s = .next (sentFe false size) ∧
          exec (.ldFeTakeIndexed d a b w z) s = .next (sentFe true size)))) ∧
    (∀ va kind body, s.translate s.cur.1 va kind = (t, .ok x) →
      let u := (t.sendLoad x d body).retire
      u.slot.cntld = s.slot.cntld + 1 ∧ u.slot.pc = s.slot.pc + 4 ∧ (d ≠ 0 → u.slot.pendingAt d.toNat = true) ∧
        u.slot.x = s.slot.x ∧ u.slot.cntst = s.slot.cntst ∧ sameMemory s u ∧ requested s u (s.xlHome x) x.e.peer body)

/-- A posted write that passes its checks goes on its way, raises CNTST and, where remote, its class count and fills a
journal entry (R144, R145, R148, R149, R150, R153, R24, R25). That a journal entry keeps the whole of X[rs] for a
narrower store (log 78) and that the lowest free entry is taken (log 145) are the model's choices. -/
def Obligations.posted_writes_count_and_are_journalled : Prop :=
  ∀ (s t : State) (r a b : Reg) (w : BitVec 2) (z : BitVec 3) (z2 : BitVec 2) (o : BitVec 11) (x : Xl),
    let size := 2 ^ z.toNat
    let size2 := 2 ^ z2.toNat
    let off := s.slot.rx a + o.signExtend 64 * BitVec.ofNat 64 size
    let off2 := s.slot.rx a + o.signExtend 64 * BitVec.ofNat 64 size2
    let sum := s.slot.rx a + s.slot.rx b
    let data : VWord := (s.slot.rx r).setWidth 512
    let full := decide (63 ≤ s.slot.cntst)
    let isLocal := s.isLocal s.cur.1 (s.xlHome x) x.e.peer
    let on : State → Prop := fun u => u.slot.pc = s.slot.pc + 4 ∧ u.slot.phase = .ready
    let onFe : Word → State → Prop := fun va u =>
      if isLocal = true then u.slot.pc = s.slot.pc ∧ u.slot.phase = .holding va else on u
    z.toNat ≤ 3 → (isLocal = true ∨ freeEntry (s.coreAt s.cur.1).journal ≠ none) →
    (ready { reads := [xr a, xr r], hold := waits w s.slot || full } s = true →
      (off.toNat % size = 0 → openWay s t off size true x →
        ∃ u, exec (.st r a w z o) s = .next u ∧ posted s u x .st size data ∧ on u) ∧
      (off2.toNat % size2 = 0 → openWay s t off2 size2 true x → inWindow x s.part.peer = true →
        ∃ u, exec (.stFe r a w z2 o) s = .next u ∧ posted s u x .stFe size2 data ∧ onFe off2 u)) ∧
    (ready { reads := [xr a, xr b, xr r], hold := waits w s.slot || full } s = true → sum.toNat % size = 0 →
      openWay s t sum size true x →
        (∃ u, exec (.stIndexed r a b w z) s = .next u ∧ posted s u x .st size data ∧ on u) ∧
        (inWindow x s.part.peer = true →
          ∃ u, exec (.stFeIndexed r a b w z) s = .next u ∧ posted s u x .stFe size data ∧ onFe sum u)) ∧
    (ready { reads := [xr a, xr b], hold := full } s = true → openWay s t sum 1 true x → inWindow x s.part.peer = true →
      (∃ u len, 1 ≤ len ∧ len ≤ 64 ∧ exec (.feSet a b) s = .next u ∧ posted s u x .feSet len 0 ∧ on u) ∧
      (∃ u len, 1 ≤ len ∧ len ≤ 64 ∧ exec (.feClr a b) s = .next u ∧ posted s u x .feClr len 0 ∧ on u)) ∧
    (ready { reads := [xr a, xr b], hold := waits w s.slot || full } s = true → 2 ≤ z.toNat →
      (s.slot.rx a).toNat % size = 0 → openWay s t (s.slot.rx a) size true x →
        ∃ u, exec (.anadd a b w z) s = .next u ∧ posted s u x .anadd size ((s.slot.rx b).setWidth 512) ∧ on u)

/-- A memory instruction whose address is not a multiple of its size takes cause 0x043 with TVAL = the address (R144,
R148, R149, R152, R153, R155, R158, R167, R168, R169). -/
def Obligations.misaligned_accesses_trap_before_translation : Prop :=
  ∀ (s : State) (d a b : Reg) (w z2 : BitVec 2) (z : BitVec 3) (o : BitVec 11) (k : BitVec 4) (p : BitVec 10) (ty : BitVec 3)
    (m : MReg),
    let off := s.slot.rx a + o.signExtend 64 * BitVec.ofNat 64 (2 ^ z.toNat)
    let off2 := s.slot.rx a + o.signExtend 64 * BitVec.ofNat 64 (2 ^ z2.toNat)
    let line := s.slot.rx a + o.signExtend 64 * 16
    let tk := s.slot.rx a + p.signExtend 64 * 8
    let sum := s.slot.rx a + s.slot.rx b
    let holdL := waits w s.slot || decide (63 ≤ s.slot.cntld)
    let holdS := waits w s.slot || decide (63 ≤ s.slot.cntst)
    (ready { reads := [xr a], writes := [xr d], hold := holdL } s = true →
      (off.toNat % 2 ^ z.toNat ≠ 0 → exec (.ld d a w z o) s = s.trap 0x043 off ∧ exec (.ldS d a w z o) s = s.trap 0x043 off) ∧
      (off2.toNat % 2 ^ z2.toNat ≠ 0 → exec (.ldFeKeep d a w z2 o) s = s.trap 0x043 off2 ∧
        exec (.ldFeTake d a w z2 o) s = s.trap 0x043 off2)) ∧
    (ready { reads := [xr a, xr d], hold := holdS } s = true →
      (off.toNat % 2 ^ z.toNat ≠ 0 → exec (.st d a w z o) s = s.trap 0x043 off) ∧
      (off2.toNat % 2 ^ z2.toNat ≠ 0 → exec (.stFe d a w z2 o) s = s.trap 0x043 off2)) ∧
    (ready { reads := [xr a, xr b], writes := [xr d], hold := holdL } s = true → sum.toNat % 2 ^ z.toNat ≠ 0 →
      exec (.ldIndexed d a b w z) s = s.trap 0x043 sum ∧ exec (.ldSIndexed d a b w z) s = s.trap 0x043 sum ∧
      exec (.ldFeKeepIndexed d a b w z) s = s.trap 0x043 sum ∧ exec (.ldFeTakeIndexed d a b w z) s = s.trap 0x043 sum) ∧
    (ready { reads := [xr a, xr b, xr d], hold := holdS } s = true → sum.toNat % 2 ^ z.toNat ≠ 0 →
      exec (.stIndexed d a b w z) s = s.trap 0x043 sum ∧ exec (.stFeIndexed d a b w z) s = s.trap 0x043 sum) ∧
    ((s.slot.rx a).toNat % 2 ^ z.toNat ≠ 0 →
      let bad : Out := s.trap 0x043 (s.slot.rx a)
      (ready { reads := [xr a, xr b], writes := [xr d], hold := holdL } s = true →
        exec (.aadd d a b w z) s = bad ∧ exec (.aand d a b w z) s = bad ∧ exec (.aor d a b w z) s = bad ∧
        exec (.axor d a b w z) s = bad ∧ exec (.amin d a b w z) s = bad ∧ exec (.amax d a b w z) s = bad ∧
        exec (.aminN d a b w z) s = bad ∧ exec (.amaxN d a b w z) s = bad ∧ exec (.aswap d a b w z) s = bad) ∧
      (ready { reads := [xr a, xr b, xr d], writes := [xr d], hold := holdL } s = true → exec (.acas d a b w z) s = bad) ∧
      (ready { reads := [xr a, xr b], hold := holdS } s = true → exec (.anadd a b w z) s = bad)) ∧
    (ready { reads := [xr a], writes := [xr d]
             hold := waits w s.slot || decide (256 ≤ (s.coreAt s.cur.1).tkLive.length) } s = true →
      tk.toNat % (8 * 2 ^ k.toNat) ≠ 0 → exec (.ldt d a w k p) s = s.trap 0x043 tk) ∧
    (ready { lack := vecLack s, reads := [xr a], writes := [vr d], hold := holdL } s = true → line.toNat % 64 ≠ 0 →
      exec (.vld d a w ty o) s = s.trap 0x043 line ∧ exec (.vldRaw d a w o) s = s.trap 0x043 line) ∧
    (ready { lack := vecLack s, reads := [xr a, vr d], hold := holdS } s = true → line.toNat % 64 ≠ 0 →
      exec (.vst d a w ty o) s = s.trap 0x043 line ∧ exec (.vstRaw d a w o) s = s.trap 0x043 line) ∧
    (ready { reads := [xr a, xr b], hold := holdL } s = true → (s.slot.rx a).toNat % 16 ≠ 0 →
      exec (.rdmScratchpad a b w) s = s.trap 0x043 (s.slot.rx a)) ∧
    (∀ i rest, activeLanes (s.slot.rm m) ty.toNat = i :: rest →
      let strided := s.slot.rx a + BitVec.ofNat 64 i * s.slot.rx b
      let indexed := s.slot.rx a + laneIndex (s.slot.rv b) i
      let old := if m = 0 then [] else [vr d]
      let lanes := decide (63 < s.slot.cntst + (rest.length + 1))
      (ready { lack := vecLack s, reads := [xr a, xr b] ++ old, writes := [vr d], hold := holdL } s = true →
        strided.toNat % (width ty.toNat / 8) ≠ 0 → exec (.vlds d a b m ty w) s = s.trap 0x043 strided) ∧
      (ready { lack := vecLack s, reads := [xr a, vr b] ++ old, writes := [vr d], hold := holdL } s = true →
        indexed.toNat % (width ty.toNat / 8) ≠ 0 → exec (.vgath d a b m ty w) s = s.trap 0x043 indexed) ∧
      (ready { lack := vecLack s, reads := [xr a, vr b, vr d], hold := waits w s.slot || lanes } s = true →
        indexed.toNat % (width ty.toNat / 8) ≠ 0 → exec (.vscat d a b m ty w) s = s.trap 0x043 indexed))

/-- qpush appends to the own tile's ring queue, qpop takes its head and sends it to xd (R36, R151, R14, R23). -/
def Obligations.ring_queues_push_and_pop_in_order : Prop :=
  (∀ (s : State) (d a : Reg) (n : BitVec 5), isGateway s.cur.1 = true →
    exec (.qpush a n) s = s.trap 5 (wordOf (.qpush a n)) ∧ exec (.qpop d n) s = s.trap 5 (wordOf (.qpop d n))) ∧
  (∀ (s : State) (d a : Reg) (n : BitVec 5), isGateway s.cur.1 = false → n.toNat ≤ 7 →
    let t := tileOf s.cur.1
    let r := s.ringOf t n.toNat
    let stalls : Out → Prop := fun o => ∃ u, o = .next u ∧ (u.ringOf t n.toNat).q = r.q ∧ u.slot = s.stall.slot
    let pushStalls := 512 ≤ r.q.length ∨ s.ownPending = true ∨ r.pushLate s.now s.cur.1 = true
    let popStalls := r.q = [] ∨ r.popLate s.now s.cur.1 = true
    (ready { reads := [xr a] } s = true →
      (¬pushStalls → ∃ u, exec (.qpush a n) s = .next u ∧ (u.ringOf t n.toNat).q = r.q ++ [s.slot.rx a] ∧
        u.slot = s.retire.slot) ∧
      (pushStalls → stalls (exec (.qpush a n) s))) ∧
    (ready { writes := [xr d], hold := decide (63 ≤ s.slot.cntld) } s = true →
      (popStalls → stalls (exec (.qpop d n) s)) ∧
      (∀ v q, ¬popStalls → r.q = v :: q → ∃ u, exec (.qpop d n) s = .next u ∧ (u.ringOf t n.toNat).q = q ∧
        u.slot.cntld = s.slot.cntld + 1 ∧ (d ≠ 0 → u.slot.pendingAt d.toNat = true) ∧ u.slot.pc = s.slot.pc + 4 ∧
        lastIs u { src := s.here (.core s.cur.1), dst := s.here (.core s.cur.1), cls := 4 }
          (.value (.xreg d false 8) (v.setWidth 512) none))))

/-- An atomic that passes its checks sends its operation, X[xb] and X[xd] to the home, where Table 08-4 gives the new
value (R144, R145, R152, R153, spec/08_memory_instructions.md Table 08-4). -/
def Obligations.atomics_send_their_operation_which_combines : Prop :=
  (∀ (s t : State) (d a b : Reg) (w : BitVec 2) (z : BitVec 3) (x : Xl), z.toNat = 2 ∨ z.toNat = 3 →
    let size := 2 ^ z.toNat
    let va := s.slot.rx a
    let hold := waits w s.slot || decide (63 ≤ s.slot.cntld)
    let sent : AtOp → Out := fun op =>
      .next (t.sendLoad x d (.atomic op x.pa size (s.slot.rx b) (s.slot.rx d) (.xreg d true size))).retire
    va.toNat % size = 0 → openWay s t va size true x →
    (ready { reads := [xr a, xr b], writes := [xr d], hold := hold } s = true →
      exec (.aadd d a b w z) s = sent .add ∧ exec (.aand d a b w z) s = sent .and ∧ exec (.aor d a b w z) s = sent .or ∧
      exec (.axor d a b w z) s = sent .xor ∧ exec (.amin d a b w z) s = sent .min ∧ exec (.amax d a b w z) s = sent .max ∧
      exec (.aminN d a b w z) s = sent .minN ∧ exec (.amaxN d a b w z) s = sent .maxN ∧
      exec (.aswap d a b w z) s = sent .swap) ∧
    (ready { reads := [xr a, xr b, xr d], writes := [xr d], hold := hold } s = true → exec (.acas d a b w z) s = sent .cas)) ∧
  (∀ o b e : Word,
    let f : AtOp → Nat := fun op => atomicNew op 64 o.toNat b.toNat e.toNat
    f .add = (o + b).toNat ∧ f .and = (o &&& b).toNat ∧ f .or = (o ||| b).toNat ∧ f .xor = (o ^^^ b).toNat ∧
    f .min = (if o.toInt ≤ b.toInt then o else b).toNat ∧ f .max = (if b.toInt ≤ o.toInt then o else b).toNat ∧
    f .minN = min o.toNat b.toNat ∧ f .maxN = max o.toNat b.toNat ∧ f .swap = b.toNat ∧
    f .cas = if o = e then b.toNat else o.toNat) ∧
  (∀ o b e : Word,
    let f : AtOp → Nat := fun op => atomicNew op 32 o.toNat b.toNat e.toNat
    f .add = (low o + low b).toNat ∧ f .and = (low o &&& low b).toNat ∧ f .or = (low o ||| low b).toNat ∧
    f .xor = (low o ^^^ low b).toNat ∧
    f .min = (if (low o).toInt ≤ (low b).toInt then low o else low b).toNat ∧
    f .max = (if (low b).toInt ≤ (low o).toInt then low o else low b).toNat ∧
    f .minN = min (low o).toNat (low b).toNat ∧ f .maxN = max (low o).toNat (low b).toNat ∧ f .swap = (low b).toNat ∧
    f .cas = if low o = low e then (low b).toNat else (low o).toNat)

/-- ldt builds a ticket and posts its fetch; rdm, tkdrop and tkq answer bad tickets at the core and send good ones
(R154, R155, R158, R160, R367). -/
def Obligations.tickets_are_built_and_redeemed_at_issue : Prop :=
  ∀ (s t : State) (d a b : Reg) (w : BitVec 2) (k : BitVec 4) (o : BitVec 10) (x : Xl),
    let c := s.cur.1
    let job := s.slot.jobid
    let va := s.slot.rx a + o.signExtend 64 * 8
    let len := 8 * 2 ^ k.toNat
    let ta := s.slot.rx a
    let tb := s.slot.rx b
    let holdL := waits w s.slot || decide (63 ≤ s.slot.cntld)
    let lost : Word → Prop := fun tk => wellFormedTicket tk job = true ∧ s.ticketHomeLive tk = false
    let good : Word → Prop := fun tk => wellFormedTicket tk job = true ∧ s.ticketHomeLive tk = true ∧ wayOut s (tkPeerOf tk)
    let up : State → State := fun u => u.upd (fun sl => { sl with cntld := sl.cntld + 1 })
    let sent : State → Word → RdmDst → Out := fun u tk dst =>
      .next (u.access (tkHomeOf tk) (tkPeerOf tk) (.redeem tk dst u.mach.clock)).retire
    (ready { reads := [xr a], writes := [xr d]
             hold := waits w s.slot || decide (256 ≤ (s.coreAt c).tkLive.length) } s = true →
      k.toNat ≤ 9 → va.toNat % len = 0 → s.translate c va .home = (t, .ok x) → s.denied x len false = false →
      s.mustMove x = false → wayOut s x.e.peer →
      ∃ n g u blk, exec (.ldt d a w k o) s = .next u ∧ n < 256 ∧ n ∉ (s.coreAt c).tkLive ∧ n ∈ (u.coreAt c).tkLive ∧
        u.slot.rx d = (if d = 0 then 0 else ticketOf job g n c (s.xlHome x) x.e.peer k.toNat) ∧
        requested s u (s.xlHome x) x.e.peer
          (.fetch (ticketOf job g n c (s.xlHome x) x.e.peer k.toNat) x.pa x.e.fmt blk (eltAt x va.toNat)) ∧
        u.slot.cntld = s.slot.cntld ∧ u.slot.cntst = s.slot.cntst ∧ u.slot.pc = s.slot.pc + 4 ∧ sameMemory s u) ∧
    (ready { lack := vecLack s, reads := [xr a], writes := [vr d], hold := holdL } s = true →
      (wellFormedTicket ta job = false → exec (.rdmV d a w) s = .next (s.poisonV c s.cur.2 d 2).retire) ∧
      (lost ta → exec (.rdmV d a w) s = .next (s.poisonV c s.cur.2 d 3).retire) ∧
      (good ta → exec (.rdmV d a w) s =
        sent (s.upd (fun sl => { sl with cntld := sl.cntld + 1 }.pendV d true)) ta (.vreg d))) ∧
    (ready { reads := [xr a, xr b], hold := holdL } s = true → ta.toNat % 16 = 0 →
      s.translate c ta .write = (t, .ok x) → inWindow x s.part.peer = true → s.denied x (tkBytes tb) true = false →
      x.pa + tkBytes tb ≤ regionEnd x.pa →
      (wellFormedTicket tb job = false →
        exec (.rdmScratchpad a b w) s = .next (t.landRefused c s.cur.2 (.spad x.pa ta) tb 2).retire) ∧
      (lost tb → exec (.rdmScratchpad a b w) s = .next (t.landRefused c s.cur.2 (.spad x.pa ta) tb 3).retire) ∧
      (good tb → exec (.rdmScratchpad a b w) s = sent (up t) tb (.spad x.pa ta))) ∧
    (ready { reads := [xr a, xr b], hold := holdL || !(s.coreAt c).room 2 } s = true →
      (s.entered (ta.toNat % 2 ^ 32) 2 = false → exec (.rdmM a b w) s = s.trap 0x084 (ta &&& 0xFFFFFFFF)) ∧
      (s.entered (ta.toNat % 2 ^ 32) 2 = true →
        (wellFormedTicket tb job = false → exec (.rdmM a b w) s = .next (s.landRefused c s.cur.2 (.msg ta) tb 2).retire) ∧
        (lost tb → exec (.rdmM a b w) s = .next (s.landRefused c s.cur.2 (.msg ta) tb 3).retire) ∧
        (good tb → exec (.rdmM a b w) s = sent (up s) tb (.msg ta)))) ∧
    (ready { reads := [xr a], hold := waits w s.slot } s = true →
      (wellFormedTicket ta job = false ∨ lost ta → exec (.tkdrop a w) s = .next s.retire) ∧
      (good ta → exec (.tkdrop a w) s = .next (s.access (tkHomeOf ta) (tkPeerOf ta) (.tkDrop ta)).retire)) ∧
    (ready { reads := [xr a], writes := [xr d], hold := holdL } s = true →
      (wellFormedTicket ta job = false → exec (.tkq d a w) s = .next (s.setX d 5).retire) ∧
      (lost ta → exec (.tkq d a w) s = .next (s.setX d 4).retire) ∧
      (good ta → exec (.tkq d a w) s = .next
        (((s.upd (fun sl => (sl.upLd).pendX d true)).access (tkHomeOf ta) (tkPeerOf ta) (.tkQuery ta d))).retire))

/-- A fence or wait whose counters meet its condition only moves PC, and otherwise stalls (R162). -/
def Obligations.fences_and_waits_only_wait : Prop :=
  ∀ (s : State) (l st c t : BitVec 5),
    let sl := s.slot
    let within : BitVec 5 → Nat → Prop := fun k n => k.toNat = 31 ∨ n ≤ k.toNat
    let go : Prop → Out → Prop := fun p o => (p → o = .next s.retire) ∧ (¬p → o = .next s.stall)
    exec .fenceTile s = .next s.retire ∧
    go (sl.stc = 0) (exec .fenceCluster s) ∧
    go (sl.stc = 0 ∧ sl.stp = 0) (exec .fenceDie s) ∧
    go (sl.stc = 0 ∧ sl.stp = 0) (exec .fencePackage s) ∧
    go (sl.stc = 0 ∧ sl.stp = 0 ∧ sl.stx = 0) (exec .fenceSystem s) ∧
    go (within l sl.cntld ∧ within st sl.cntst ∧ within c sl.cntcp ∧ within t sl.cnttl) (exec (.wait l st c t) s)

/-- seal and unseal of an allowed, writable range send a request to Armature; a range R163 does not allow traps with
0x046 (R163, spec/08_memory_instructions.md Table 08-1). -/
def Obligations.seal_and_unseal_ask_armature : Prop :=
  ∀ (s t u : State) (a b : Reg) (x y : XRes), ready { reads := [xr a, xr b] } s = true →
    let sealable : XRes → Prop := fun r => match r with | .ok _ => True | .bad cause _ => cause = 0x042
    let traps : Word → XRes → Out → Prop := fun va r o => ∀ cause index, r = .bad cause index → cause ≠ 0x042 →
      o = s.trapIdx cause index va
    let base := s.slot.rx a
    let len := s.slot.rx b
    let win := s.job.sramBase.toNat
    let bad := base.toNat % 65536 ≠ 0 ∨ len.toNat % 65536 ≠ 0 ∨ len = 0 ∨ 2 ^ 64 < base.toNat + len.toNat ∨
      (base.toNat < win + 2 ^ 30 ∧ win < base.toNat + len.toNat)
    let asked : Bool → Out := fun on => .next (u.post (.core s.cur.1) (s.here .armature) 0
      (.sealReq on base len s.slot.treply s.cur.1 s.slot.task.level) s.cur.2 s.slot.gen).retire
    (bad → exec (.seal a b) s = s.trap 0x046 base ∧ exec (.unseal a b) s = s.trap 0x046 base) ∧
    (¬bad → s.translate s.cur.1 base .write = (t, x) → t.translate t.cur.1 (base + len - 1) .write = (u, y) →
      (sealable x → sealable y → exec (.seal a b) s = asked true ∧ exec (.unseal a b) s = asked false) ∧
      (traps base x (exec (.seal a b) s) ∧ traps base x (exec (.unseal a b) s)))

/-- pref counts an access to a resident page, jrd reads a word of an own entry, jdrop frees a refused own entry (R164,
R165, R166, R283). That pref translates as a read (log 113) is the model's reading. -/
def Obligations.pref_and_the_journal_words : Prop :=
  ∀ (s : State) (d a b : Reg),
    let v := s.slot.rx a
    let n := v.toNat % 32
    let own : JEntry → Prop := fun e =>
      AMap.get (s.coreAt s.cur.1).journal n = some e ∧ e.slot = s.cur.2 ∧ e.gen = s.slot.gen
    (ready { reads := [xr a, xr b] } s = true →
      (∀ t c i, s.translate s.cur.1 (v + s.slot.rx b) .home = (t, .bad c i) → exec (.pref a b) s = .next s.retire) ∧
      (∀ t x, s.translate s.cur.1 (v + s.slot.rx b) .home = (t, .ok x) → exec (.pref a b) s =
        if x.e.peer = s.part.peer then .next (t.countPref x.pa (s.here (.core s.cur.1))).retire
        else .next (t.post .armature { peer := x.e.peer, agent := .armature } 1 (.prefCount x.pa (s.here (.core s.cur.1))) 0 0).retire)) ∧
    (ready { reads := [xr a], writes := [xr d] } s = true →
      (∀ e, own e → exec (.jrd d a) s = .next (s.setX d (e.word (bitsOf v.toNat 8 5))).retire) ∧
      ((∀ e, ¬own e) → exec (.jrd d a) s = .next (s.setX d 0).retire)) ∧
    (ready { reads := [xr a] } s = true →
      (∀ e, own e → e.refused = true → ∃ t, exec (.jdrop a) s = .next t ∧ (t.coreAt s.cur.1).journal =
          AMap.del (s.coreAt s.cur.1).journal n ∧ t.slot.cntst = s.slot.cntst - 1 ∧ t.slot.pc = s.slot.pc + 4 ∧
          t.slot.x = s.slot.x ∧ sameMemory s t) ∧
      (∀ e, own e → e.refused = false → exec (.jdrop a) s = .next s.retire) ∧
      ((∀ e, ¬own e) → exec (.jdrop a) s = .next s.retire))

/-- chnew, chdup, hmov, hclr, chclose, chq and chbind act on the handle registers as stated, and trap on the wrong
kind (R172, R173, R174, R175, R176, R182, R188, spec/09_channel_instructions.md Table 09-1). -/
def Obligations.channel_ends_are_made_moved_and_closed : Prop :=
  ∀ (s : State) (h g : HReg) (a : Reg) (o : BitVec 18), h ≠ g →
    let c := s.cur.1
    let eh := s.slot.rh h
    let eg := s.slot.rh g
    let waiting : State → Out := fun u => .next (u.upd (fun sl => { sl with phase := .asking }))
    let ways := ∀ p ∈ s.closePeers eg, wayOut s p
    let bound : Option Nat → State := fun b => s.updCore c (fun k => { k with ends := k.ends.map (fun e =>
      if e.ident = eg.ident then { e with bind := some b, level := s.slot.task.level } else e) })
    (eh.kind = .empty → eg.kind = .empty → exec (.chnew h g) s = waiting (s.askChannel c s.cur.2 h g 0)) ∧
    (eh.kind = .empty → eg.kind ≠ .empty → exec (.chnew h g) s = s.trap 0x082 (g.setWidth 64)) ∧
    (eh.kind ≠ .empty → exec (.chnew h g) s = s.trap 0x082 (h.setWidth 64) ∧
      (eg.kind = .send → exec (.chdup h g) s = s.trap 0x082 (h.setWidth 64)) ∧
      (eg.kind ≠ .empty → exec (.hmov h g) s = s.trap 0x082 (h.setWidth 64))) ∧
    (eg.kind = .send → eh.kind = .empty → wayOut s eg.home → ∃ u, exec (.chdup h g) s = .next u ∧ u.slot.phase = .asking ∧
      lastIs u { src := s.here (.core c), dst := s.chanHome eg.home eg.ident, cls := 0 } (.chInst eg.ident c) ∧
      (∃ r, (u.coreAt c).reqs = (s.coreAt c).reqs ++ [r] ∧ r.dup = true ∧ r.ident = eg.ident ∧ r.hd = h ∧ r.ha = g) ∧
      u.slot.h = s.slot.h ∧ u.slot.x = s.slot.x ∧ sameMemory s u) ∧
    (eg.kind = .empty → exec (.chdup h g) s = s.trap 0x081 (g.setWidth 64) ∧
      exec (.hmov h g) s = s.trap 0x081 (g.setWidth 64) ∧ exec (.chclose g) s = s.trap 0x081 (g.setWidth 64) ∧
      exec (.hclr g) s = .next s.retire ∧ exec (.chbindInbox g) s = s.trap 0x081 (g.setWidth 64) ∧
      exec (.chbindHandler g o) s = s.trap 0x081 (g.setWidth 64)) ∧
    (eg.kind = .recv → exec (.chdup h g) s = s.trap 0x083 (g.setWidth 64)) ∧
    (eg.kind ≠ .empty → eh.kind = .empty → ∃ u, exec (.hmov h g) s = .next u ∧ u.slot.rh h = eg ∧
      u.slot.rh g = Handle.none ∧ (∀ q, q ≠ h → q ≠ g → u.slot.rh q = s.slot.rh q) ∧ u.slot.x = s.slot.x) ∧
    (eg.kind ≠ .empty → ways → exec (.chclose g) s = .next ((s.setH g Handle.none).closeEnd c eg).retire ∧
      exec (.hclr g) s = .next ((s.setH g Handle.none).closeEnd c eg).retire) ∧
    (ready { writes := [xr a] } s = true → exec (.chq g a) s = .next (s.setX a (s.endState eg)).retire) ∧
    (eg.kind = .recv →
      ((List.range 4).any (fun n => s.entered (4 * o.toNat) n) = true →
        exec (.chbindHandler g o) s = .next (bound (some (4 * o.toNat))).retire) ∧
      ((List.range 4).any (fun n => s.entered (4 * o.toNat) n) = false →
        exec (.chbindHandler g o) s = s.trap 0x084 (BitVec.ofNat 64 (4 * o.toNat))) ∧
      exec (.chbindInbox g) s = .next ((bound none).wakeInbox c).retire) ∧
    (eg.kind = .send → exec (.chbindInbox g) s = s.trap 0x083 (g.setWidth 64) ∧
      exec (.chbindHandler g o) s = s.trap 0x083 (g.setWidth 64))

/-- A send with a credit sends its payload with the handle's sequence, and the handle then has one credit less (R177,
R178, R179, R181, R185, spec/09_channel_instructions.md Table 09-1). -/
def Obligations.sends_take_one_credit_and_the_next_sequence : Prop :=
  ∀ (s : State) (h g : HReg) (a : Reg) (n : BitVec 3), h ≠ g →
    let c := s.cur.1
    let e := s.slot.rh h
    let f := s.slot.rh g
    let v := s.slot.rx a
    let sent : Nat → MsgKind → Option Handle → State := fun cls k carried =>
      (s.sendOn (.core c) e cls k n.toNat (payloadOf s.slot a n.toNat) carried).setH h
        { bumpSeq e with credits := e.credits - 1 }
    let plain : Nat → Out := fun cls => .next (sent cls .data none).retire
    let carry : Nat → Out := fun cls =>
      let u := (sent cls .dataEnd (some (moved f))).setH g Handle.none
      .next (if f.kind = .recv then u.carryRecv c f else u.carrySend c f).retire
    let live := e.kind = .send ∧ e.dead = false ∧ wayOut s e.locPeer
    (ready { reads := payloadRegs a n.toNat } s = true →
      (live → 0 < e.credits →
        (n.toNat ≤ 6 → exec (.chsend h a n) s = plain 2 ∧ exec (.chsendLo h a n) s = plain 3 ∧
          exec (.chsendCtl h a n) s = plain 0) ∧
        (n.toNat ≤ 4 → f.kind ≠ .empty → ¬(f.kind = .recv ∧ f.ident = e.ident) →
          (f.kind = .recv → s.stubsOfTile c < 64) → wayOut s f.home →
          exec (.chsendh h g a n) s = carry 2 ∧ exec (.chsendhLo h g a n) s = carry 3 ∧
          exec (.chsendhCtl h g a n) s = carry 0)) ∧
      (live → e.credits = 0 → exec (.chsend h a n) s = .next s.stall ∧ exec (.chsendLo h a n) s = .next s.stall ∧
        exec (.chsendCtl h a n) s = .next s.stall ∧ exec (.chsendh h g a n) s = .next s.stall ∧
        exec (.chsendhLo h g a n) s = .next s.stall ∧ exec (.chsendhCtl h g a n) s = .next s.stall) ∧
      (e.kind = .empty → exec (.chsend h a n) s = s.trap 0x081 (h.setWidth 64)) ∧
      (e.kind = .recv → exec (.chsend h a n) s = s.trap 0x083 (h.setWidth 64)) ∧
      (e.kind = .send → e.dead = true → exec (.chsend h a n) s = s.trap 0x080 (h.setWidth 64)) ∧
      (live → 0 < e.credits → f.kind = .empty → exec (.chsendh h g a n) s = s.trap 0x081 (g.setWidth 64)) ∧
      (live → 0 < e.credits → f.kind = .recv → s.stubsOfTile c < 64 → f.ident = e.ident →
        exec (.chsendh h g a n) s = s.trap 0x086 (g.setWidth 64))) ∧
    (ready { reads := [xr a] } s = true → e.kind = .send → e.dead = false →
      (wayOut s e.locPeer → v ≠ 0 → v.toNat < 2 ^ 32 → exec (.chseg h a) s = .next
        ((s.sendOn (.core c) e 0 (.segMarker v.toNat) 0 noPayload none).setH h (bumpSeq e)).retire) ∧
      (v = 0 ∨ 2 ^ 32 ≤ v.toNat → exec (.chseg h a) s = s.trap 0x089 v))

/-- inbox.dq and inbox.try take the oldest message of the class or block and write zero; spawn enqueues a task of its
level (R182, R184, R180, R185, R190, R254, R258, R259, R261). -/
def Obligations.inbox_instructions_and_spawn : Prop :=
  (∀ (s : State) (h : HReg) (a : Reg) (n : BitVec 3), n.toNat ≤ 3 → a.toNat ≤ 25 →
    let k := s.coreAt s.cur.1
    let item := k.takeItem n.toNat k.forInbox
    let away := (item.map (fun e => dequeuePeers e.1)).getD []
    ready { writes := (List.range 7).map (fun j => xr (regAfter a j))
            hold := decide (63 ≤ s.slot.cntld) || s.heldBack away || decide (k.withdrewAt = some s.now) } s = true →
    ((s.slot.rh h).kind ≠ .empty → exec (.inboxDq h a n) s = s.trap 0x082 (h.setWidth 64) ∧
      exec (.inboxTry h a n) s = s.trap 0x082 (h.setWidth 64)) ∧
    ((s.slot.rh h).kind = .empty →
      (∀ m segin segend left k1, item = some (.chan m segin segend left, k1) → (∀ p ∈ away, wayOut s p) →
        exec (.inboxDq h a n) s = .next (s.dequeue h a m segin segend left k1).retire ∧
        exec (.inboxTry h a n) s = .next (s.dequeue h a m segin segend left k1).retire) ∧
      (item = none →
        exec (.inboxDq h a n) s = .next (s.upd (fun sl => { sl with phase := .blocked (.inbox n.toNat a h) })) ∧
        exec (.inboxTry h a n) s = .next (s.setX a 0).retire))) ∧
  (∀ (s : State) (a : Reg) (p : BitVec 2) (o : BitVec 18), p ≠ 0 → a.toNat ≤ 29 →
    ready { reads := payloadRegs a 3 } s = true →
    let c := s.cur.1
    let k := s.slot.task.level
    let raised : State → Nat → Prop := fun t l =>
      if l < 2 ^ 32 then lastIs t { src := s.here (.core c), dst := s.here (.home (s.levelHome l)), cls := 1 } (.count l true)
      else lastIs t { src := s.here (.core c), dst := s.farHome l, cls := 1 } (.farCount l true)
    (s.cancelPending k = true → exec (.spawn a p o) s = .next s.retire) ∧
    (s.cancelPending k = false → s.runRoom c = false → exec (.spawn a p o) s = .next s.stall) ∧
    (s.cancelPending k = false → s.runRoom c = true → s.countFull k = false →
      wayOut s (s.levelPeer k) → ∃ t e, exec (.spawn a p o) s = .next t ∧ (t.coreAt c).runq = (s.coreAt c).runq ++ [e] ∧ e.kind = .spawned ∧
        e.cls = p.toNat ∧ e.level = s.countLevel k ∧ raised t e.level ∧ e.pc = s.job.code + BitVec.ofNat 64 (4 * o.toNat) ∧
        e.regs = [(10, s.slot.rx a), (11, s.slot.rx (regAfter a 1)), (12, s.slot.rx (regAfter a 2))] ∧
        t.slot.x = s.slot.x ∧ t.slot.pc = s.slot.pc + 4 ∧ sameMemory s t))

/-- rrot, mtset and mtlist act on the cluster's ring and take cause 0x104 without one; mrel releases leases (R191,
R192, R194, R196, R197, R212). -/
def Obligations.frieze_instructions_need_a_ring : Prop :=
  (∀ (s : State) (a b : Reg) (n : BitVec 3), isGateway s.cur.1 = true →
    exec .rrot s = s.trap 5 (wordOf .rrot) ∧ exec (.mtset a b) s = s.trap 5 (wordOf (.mtset a b)) ∧
    exec (.mtlist a b) s = s.trap 5 (wordOf (.mtlist a b)) ∧ exec (.mrel n) s = .next s.retire) ∧
  (∀ (s : State) (a b : Reg) (n : BitVec 3), isGateway s.cur.1 = false → n.toNat ≤ 2 →
    let tl := tileOf s.cur.1
    let cl := clusterOf tl
    let va := s.slot.rx a
    let vb := s.slot.rx b
    ((s.clusterAt cl).ring = 0 → exec .rrot s = s.trap 0x104 0 ∧
      (ready { reads := [xr a, xr b] } s = true → exec (.mtset a b) s = s.trap 0x104 0) ∧
      (ready { reads := [xr b], writes := [xr a] } s = true → exec (.mtlist a b) s = s.trap 0x104 0)) ∧
    ((s.clusterAt cl).ring ≠ 0 →
      (∃ t, exec .rrot s = .next t ∧ t.slot.phase = .blocked .rrot ∧ t.slot.pc = s.slot.pc ∧
        (t.tileAt tl).contributions = (s.tileAt tl).contributions + 1 ∧
        (t.tileAt tl).waiting = (s.tileAt tl).waiting ++ [(s.cur.1, s.cur.2, s.slot.gen)] ∧ sameMemory s t) ∧
      (ready { reads := [xr a, xr b] } s = true → s.mtsetLate tl = true → exec (.mtset a b) s = .next s.retire) ∧
      (ready { reads := [xr a, xr b] } s = true → s.mtsetLate tl = false → ∃ t, exec (.mtset a b) s = .next t ∧
        (t.clusterAt cl).expected = va.toNat % 2 ^ 32 ∧ ((t.clusterAt cl).sweep = true ↔ va.toNat % 2 ^ 32 ≠ 0) ∧
        (t.clusterAt cl).resolved = 0 ∧ (t.clusterAt cl).handler = vb.toNat % 2 ^ 32 ∧ t.slot.pc = s.slot.pc + 4 ∧
        sameMemory s t) ∧
      (ready { reads := [xr b], writes := [xr a] } s = true → ∃ t, exec (.mtlist a b) s = .next t ∧
        t.slot.rx a = (if a = 0 then 0 else if vb.getLsbD 4 then BitVec.ofNat 64 (s.tileAt tl).missCount
          else (((s.tileAt tl).misses[vb.toNat % 16]?).map Miss.word).getD 0) ∧
        t.slot.pc = s.slot.pc + 4 ∧ sameMemory s t)) ∧
    (∃ t, exec (.mrel n) s = .next t ∧ t.slot.pc = s.slot.pc + 4 ∧ sameMemory s t ∧ ∀ e, e ∈ (t.tileAt tl).leases ↔
      e ∈ (s.tileAt tl).leases ∧ ¬(e.core = s.cur.1 ∧ e.slot = s.cur.2 ∧ e.gen = s.slot.gen ∧ e.engine = false ∧
        (n = 0 ∨ (n = 1 ∧ e.which = 0) ∨ (n = 2 ∧ e.which ≠ 0)))))

/-- An element-wise vector instruction replaces the active lanes of vd by its function of the lanes of its sources
(R200, R201, R202, R203, spec/10_vector_instructions.md Table 10-4). -/
def Obligations.element_wise_vector_forms_act_on_active_lanes : Prop :=
  ∀ (s : State) (d a b : Reg) (m : MReg) (t : BitVec 3),
    let ty := t.toNat
    let w := width ty
    let A : Nat → Nat := fun k => laneOf (s.slot.rv a) w k
    let B : Nat → Nat := fun k => laneOf (s.slot.rv b) w k
    let D : Nat → Nat := fun k => laneOf (s.slot.rv d) w k
    let put : (Nat → Nat) → Out := fun f =>
      .next (s.setV d (ofLanes w ((List.range (lanes ty)).map (fun k =>
        if (s.slot.rm m).getLsbD k then f k else laneOf (s.slot.rv d) w k)))).retire
    let rd : List Nat := if m = 0 then [] else [vr d]
    let val : Nat → Val := decodeElt ty
    let rnd : Val → Nat := fun v => arith ty (arithRnd s.slot.frm) v
    let isF := ty ≤ 1
    (ready { lack := vecLack s, reads := [vr a, vr b] ++ rd, writes := [vr d] } s = true → [0, 1, 6, 7].contains ty →
      exec (.vadd d a b m t) s = put (fun k => if isF then rnd ((val (A k)).add (val (B k))) else (A k + B k) % 2 ^ w) ∧
      exec (.vsub d a b m t) s = put (fun k => vSub s.slot.frm ty (A k) (B k) 0) ∧
      exec (.vmul d a b m t) s = put (fun k => vMul s.slot.frm ty (A k) (B k) 0) ∧
      exec (.vmax d a b m t) s = put (fun k => vPick true s.slot.frm ty (A k) (B k) 0) ∧
      exec (.vmin d a b m t) s = put (fun k => vPick false s.slot.frm ty (A k) (B k) 0) ∧
      exec (.vand d a b m t) s = put (fun k => A k &&& B k) ∧
      exec (.vor d a b m t) s = put (fun k => A k ||| B k) ∧
      exec (.vxor d a b m t) s = put (fun k => A k ^^^ B k) ∧
      exec (.vperm d a b m t) s = put (fun k => A (B k % lanes ty)) ∧
      (6 ≤ ty → exec (.vshl d a b m t) s = put (fun k => A k * 2 ^ (B k % w) % 2 ^ w) ∧
        exec (.vshr d a b m t) s = put (fun k => ((sextInt (A k) w >>> (B k % w)) % (2 ^ w : Nat)).toNat))) ∧
    (ready { lack := vecLack s, reads := vr a :: rd, writes := [vr d] } s = true → [0, 1, 6, 7].contains ty →
      exec (.vabs d a m t) s = put (fun k => vAbs s.slot.frm ty (A k) 0 0) ∧
      exec (.vneg d a m t) s = put (fun k => vNeg s.slot.frm ty (A k) 0 0) ∧
      exec (.vmov d a m t) s = put A ∧
      (isF → exec (.vexp2 d a m t) s = put (fun k => vExp2 s.slot.frm ty (A k) 0 0) ∧
        exec (.vrcp d a m t) s = put (fun k => rnd ((Val.num false 1 1).div (val (A k)))) ∧
        exec (.vrsq d a m t) s = put (fun k => vRsq s.slot.frm ty (A k) 0 0))) ∧
    (ready { lack := vecLack s, reads := [vr a, vr b, vr d], writes := [vr d] } s = true → isF →
      exec (.vfma d a b m t) s = put (fun k => rnd (((val (A k)).mul (val (B k))).add (val (D k))))) ∧
    (ready { lack := vecLack s, reads := rd ++ [xr a], writes := [vr d] } s = true → [0, 1, 6, 7].contains ty →
      exec (.vbcast d a m t) s = put (fun _ => (s.slot.rx a).toNat % 2 ^ w))

/-- vsel selects by the mask, reductions fold the pairwise tree, vcmp writes a mask, mask operations combine masks
(R204, R205, R206, R82, R213). -/
def Obligations.selection_reduction_and_compare_of_vectors : Prop :=
  ∀ (s : State) (d a b : Reg) (md ma mb m : MReg) (t : BitVec 3),
    let ty := t.toNat
    let w := width ty
    let A : Nat → Nat := fun k => laneOf (s.slot.rv a) w k
    let B : Nat → Nat := fun k => laneOf (s.slot.rv b) w k
    let on : Nat → Bool := fun k => (s.slot.rm m).getLsbD k
    let putM : Word → Out := fun v => .next (s.setM md v).retire
    let folded : (Nat → Nat → Nat) → Nat → Out := fun f unit => .next (s.setV d (BitVec.ofNat 512
      (tree f 6 ((List.range (lanes ty)).map (fun k => if on k then A k else unit))))).retire
    let cmp : Nat → Out := fun cc => putM (maskOf (fun k => on k && laneRel cc ty (A k) (B k)) (lanes ty))
    (ready { lack := vecLack s, reads := [vr a, vr b], writes := [vr d] } s = true → [0, 1, 6, 7].contains ty →
      exec (.vsel d a b m t) s = .next (s.setV d (ofLanes w ((List.range (lanes ty)).map (fun k =>
        if on k then A k else B k)))).retire) ∧
    (ready { lack := vecLack s, reads := [vr a], writes := [vr d] } s = true → [0, 1, 6, 7].contains ty →
      exec (.vredsum d a m t) s = folded (fun x y => vAdd s.slot.frm ty x y 0) (if ty ≤ 1 then 2 ^ (w - 1) else 0) ∧
      exec (.vredmax d a m t) s = folded (fun x y => vPick true s.slot.frm ty x y 0)
        (if ty = 0 then 0xFF800000 else if ty = 1 then 0xFF80 else 2 ^ (w - 1))) ∧
    (ready { lack := vecLack s, reads := [vr a, vr b] } s = true → [0, 1, 6, 7].contains ty →
      exec (.vcmpEq md a b m t) s = cmp 0 ∧ exec (.vcmpNe md a b m t) s = cmp 1 ∧ exec (.vcmpLt md a b m t) s = cmp 2 ∧
      exec (.vcmpLe md a b m t) s = cmp 3 ∧ exec (.vcmpGt md a b m t) s = cmp 4 ∧ exec (.vcmpGe md a b m t) s = cmp 5) ∧
    (isStreamer s.cur.1 = false →
      exec (.mand md ma mb) s = putM (s.slot.rm ma &&& s.slot.rm mb) ∧
      exec (.mor md ma mb) s = putM (s.slot.rm ma ||| s.slot.rm mb) ∧
      exec (.mnot md ma) s = putM (~~~s.slot.rm ma) ∧
      (ready { writes := [xr d] } s = true →
        exec (.mpop d ma) s = .next (s.setX d (BitVec.ofNat 64
          ((List.range 64).countP (fun i => (s.slot.rm ma).getLsbD i)))).retire ∧
        ∃ k, exec (.mfirst d ma) s = .next (s.setX d (BitVec.ofNat 64 k)).retire ∧ k ≤ 64 ∧
          (∀ i, i < k → (s.slot.rm ma).getLsbD i = false) ∧ (k < 64 → (s.slot.rm ma).getLsbD k = true))) ∧
    (∀ v, (s.setM 0 v).slot.rm 0 = BitVec.allOnes 64)

/-- vcvt, vquant, vdeq, vmxdot and baq write codes, scales and FP32 values of their blocks (R207, R208, R209, R210,
R211, R73, R80). -/
def Obligations.conversion_and_block_forms_write_whole_registers : Prop :=
  ∀ (s : State) (d a b : Reg) (ts m t : BitVec 3) (f : BitVec 1) (g : BitVec 2),
    let ty := t.toNat
    let fr := ts.toNat
    let w := width ty
    let R : Reg → VWord := fun r => s.slot.rv r
    let rd : List Nat := if m = 0 then [] else [vr d]
    let n := blockLen g.toNat
    let q := requantAll (f = 1) ty n (laneRnd s.slot ty)
    (ready { lack := vecLack s, reads := vr a :: rd, writes := [vr d] } s = true →
      exec (.vcvt d a ts m t) s = .next (s.setV d (ofLanes w ((List.range (lanes ty)).map (fun k =>
        if (s.slot.rm m).getLsbD k then
          (if k < min (lanes fr) (lanes ty) then
            convert ty (convRnd s.slot.frm.toNat ty s.slot.fseed 0 k) (decodeElt fr (laneOf (R a) (width fr) k))
          else zeroCode ty)
        else laneOf (R d) w k)))).retire) ∧
    (2 ≤ ty → ty ≤ 6 → g ≠ 0 →
      (ready { lack := vecLack s, reads := [0, 1, 2, 3].map (fun k => vr (regAfter a k)), writes := [vr d, vr b] } s = true →
        a.toNat % 4 = 0 → d ≠ b →
        exec (.vquant d a b t f g) s = .next (((s.setV d (ofLanes w (q (fp32x64 s.slot a)).2)).setV b
          (scaleReg (q (fp32x64 s.slot a)).1))).retire) ∧
      (ready { lack := vecLack s, reads := [vr a, vr b], writes := [0, 1, 2, 3].map (fun k => vr (regAfter d k)) } s = true →
        d.toNat % 4 = 0 → ∃ u, exec (.vdeq d a b t f g) s = .next u ∧ u.slot.pc = s.slot.pc + 4 ∧
          ∀ k, k < 4 → u.slot.rv (regAfter d k) = ofLanes 32
            ((((decode64 ty (f = 1) n (R a) (R b)).map (convert 0 (arithRnd s.slot.frm))).drop (16 * k)).take 16)) ∧
      (ready { lack := vecLack s, reads := [vr a, vr (regAfter a 1), vr b, vr (regAfter b 1), vr d], writes := [vr d] } s = true →
        a.toNat % 2 = 0 → b.toNat % 2 = 0 → ∃ c : Nat, exec (.vmxdot d a b m t f g) s =
          .next (s.setV d (BitVec.ofNat 512 (c % 2 ^ 32 + (R d).toNat / 2 ^ 32 * 2 ^ 32))).retire ∧
          c = mxdot ty (f = 1) n (s.slot.rm m) (R a) (R (regAfter a 1)) (R b) (R (regAfter b 1)) (laneOf (R d) 32 0)) ∧
      (isGateway s.cur.1 = true → ready { reads := [vr a, vr (regAfter a 1), vr b, vr (regAfter b 1)]
                                          writes := [vr d, vr (regAfter d 1)] } s = true →
        a.toNat % 2 = 0 → b.toNat % 2 = 0 → d.toNat % 2 = 0 →
        let r := q ((decode64 ty (f = 1) n (R a) (R (regAfter a 1))).zipWith Val.add
          (decode64 ty (f = 1) n (R b) (R (regAfter b 1))))
        exec (.baq d a b t f g) s = .next (((s.setV d (ofLanes w r.2)).setV (regAfter d 1) (scaleReg r.1))).retire) ∧
      (isCompute s.cur.1 = true → exec (.baq d a b t f g) s = s.trap 0x005 (wordOf (.baq d a b t f g))))

/-- Vector loads and stores that pass their checks send their reads and writes and mark or count as scalar ones do
(R167, R168, R169, R74, R144). -/
def Obligations.vector_loads_and_stores_move_64_bytes_or_lanes : Prop :=
  ∀ (s t : State) (d a b : Reg) (w : BitVec 2) (ty m : BitVec 3) (o : BitVec 11) (x : Xl),
    let va := s.slot.rx a + o.signExtend 64 * 16
    let holdL := waits w s.slot || decide (63 ≤ s.slot.cntld)
    let holdS := waits w s.slot || decide (63 ≤ s.slot.cntst)
    let room := s.isLocal s.cur.1 (s.xlHome x) x.e.peer = true ∨ freeEntry (s.coreAt s.cur.1).journal ≠ none
    let rd : List Nat := if m = 0 then [] else [vr d]
    let act := activeLanes (s.slot.rm m) ty.toNat
    let lane : Nat → Word := fun i => s.slot.rx a + (BitVec.ofNat 32 (laneOf (s.slot.rv b) 32 i)).signExtend 64
    let strided : Nat → Word := fun i => s.slot.rx a + BitVec.ofNat 64 i * s.slot.rx b
    let got : List (Nat × Xl) → Out := fun ls => .next (ls.foldl (fun s e => s.access (s.xlHome e.2) e.2.e.peer
      (.load e.2.pa (width ty.toNat / 8) (.vpart d e.1)))
      (t.startVLoad { vload d ls.length with how := 2, ty := ty.toNat })).retire
    (ready { lack := vecLack s, reads := [xr a], writes := [vr d], hold := holdL } s = true → va.toNat % 64 = 0 →
      (openWay s t va 64 false x → exec (.vldRaw d a w o) s = .next (t.sendVec x d).retire ∧
        (plainFor x.e.fmt ty.toNat = true → exec (.vld d a w ty o) s = .next (t.sendVec x d).retire)) ∧
      (let len := lanes ty.toNat * width (fmtOf x.e.fmt) / 8
       plainFor x.e.fmt ty.toNat = false → va.toNat % len = 0 → openWay s t va len false x →
         (scaled x.e.fmt = true → s.denied { x with pa := (scaleRun x va.toNat ty.toNat).1 } (scaleRun x va.toNat ty.toNat).2 false = false) →
         exec (.vld d a w ty o) s = .next (t.sendDecode x va.toNat d ty.toNat len).retire)) ∧
    (ready { lack := vecLack s, reads := [xr a, vr d], hold := holdS } s = true → va.toNat % 64 = 0 →
      openWay s t va 64 true x →
      (room → ∃ u, t.putStore x .vst 64 (s.slot.rv d) = some u ∧ exec (.vstRaw d a w o) s = .next u.retire ∧
        (plainFor x.e.fmt ty.toNat = true → exec (.vst d a w ty o) s = .next u.retire)) ∧
      (plainFor x.e.fmt ty.toNat = false → exec (.vst d a w ty o) s = s.trap 0x045 va)) ∧
    (∀ ls, (∀ e ∈ ls, s.mustMove e.2 = false ∧ wayOut s e.2.e.peer) →
      let plain := unplainLane ty.toNat ls = none
      let stops : (Nat → Word) → Out → Prop := fun va o => ∀ i, unplainLane ty.toNat ls = some i → o = s.trap 0x045 (va i)
      let loads : Out := if ls = [] then .next (t.setV d (s.slot.rv d)).retire else got ls
      (ready { lack := vecLack s, reads := [xr a, xr b] ++ rd, writes := [vr d], hold := holdL } s = true →
        s.lanesXl ty.toNat false strided act = (t, .ok ls) →
        (plain → exec (.vlds d a b m ty w) s = loads) ∧ stops strided (exec (.vlds d a b m ty w) s)) ∧
      (ready { lack := vecLack s, reads := [xr a, vr b] ++ rd, writes := [vr d], hold := holdL } s = true →
        s.lanesXl ty.toNat false lane act = (t, .ok ls) →
        (plain → exec (.vgath d a b m ty w) s = loads) ∧ stops lane (exec (.vgath d a b m ty w) s)) ∧
      (ready { lack := vecLack s, reads := [xr a, vr b, vr d]
               hold := waits w s.slot || decide (63 < s.slot.cntst + act.length) } s = true →
        s.lanesXl ty.toNat true lane act = (t, .ok ls) →
        (plain → ∀ u, t.putLanes ty.toNat (s.slot.rv d) ls = some u → exec (.vscat d a b m ty w) s = .next u.retire) ∧
        stops lane (exec (.vscat d a b m ty w) s)))

/-- shp stores X[xb]:X[xa] as a shape record and pins the task; amsg queues an engine marker or issues the command in
its registers (R214, R217, R270, R32, R189, R218, R222). -/
def Obligations.shp_sets_shapes_and_amsg_issues_commands : Prop :=
  (∀ (s : State) (a b n : Reg), n.toNat ≤ 15 →
    let v : BitVec 128 := s.slot.rx b ++ s.slot.rx a
    (isCompute s.cur.1 = true → ready { reads := [xr a, xr b] } s = true →
      (v = 0 ∨ (shapeOf v).aligned = true → ∃ t, exec (.shp a b n) s = .next t ∧ t.shape n.toNat = v ∧
        (∀ k, k ≠ n.toNat → t.shape k = s.shape k) ∧ t.slot.task.pinned = true ∧ t.slot.pc = s.slot.pc + 4 ∧
        t.slot.x = s.slot.x ∧ sameMemory s t) ∧
      (v ≠ 0 → (shapeOf v).aligned = false → exec (.shp a b n) s = s.trap 0x048 (s.slot.rx a))) ∧
    (isCompute s.cur.1 = false → exec (.shp a b n) s = s.trap 0x005 (wordOf (.shp a b n)))) ∧
  (∀ (s : State) (a : Reg) (n : BitVec 3), n.toNat ≤ 4 → a.toNat ≤ 25 →
    let w : Nat → Word := fun i => s.slot.rx (regAfter a i)
    let ow := w 0
    let q := n.toNat
    let pl := s.enginePlace q none
    let acc := w0Acc (w 1)
    ready { reads := (List.range 7).map (fun i => xr (regAfter a i)), hold := s.tileHold q (decide (ow.toNat / 2 ^ 56 = 2)) } s = true →
    (ow.toNat % 2 ^ 56 ≠ 0 ∨ (ow.toNat / 2 ^ 56 ≠ 1 ∧ ow.toNat / 2 ^ 56 ≠ 2) → exec (.amsg a n) s = s.trap 0x101 ow) ∧
    (ow.toNat = 2 ^ 56 → (w 1).toNat / 2 ^ 56 = 6 → bitsOf (w 1).toNat 55 52 = 0 → w 5 = 0 → w 6 = 0 → n = 0 →
      isGateway s.cur.1 = false → queueOpen s pl → 1 ≤ (w 2).toNat → (w 2).toNat ≤ 65536 → acc < 0x10000 →
      acc + (w 2).toNat ≤ 0x10000 → ∃ v, exec (.amsg a n) s = .next v ∧ commandEntered s v pl 6 0) ∧
    (ow.toNat = 2 ^ 57 → w 1 = 0 → w 2 = 0 → w 3 = 0 → w 5 = 0 → w 6 = 0 → q ≤ 3 → isGateway s.cur.1 = false →
      queueOpen s pl → ∃ v, exec (.amsg a n) s = .next v ∧ commandEntered s v pl 0 q true))

/-- copy, copyf, copy2, gather, xpose and fill whose ranges pass their checks enter an engine's queue and raise CNTCP
(R218, R219, R220, R222, R227, R228, R229, spec/11_tile_commands.md Table 11-2). -/
def Obligations.copy_class_commands_enter_their_queue : Prop :=
  ∀ (s t u r : State) (a b c : Reg) (q : BitVec 3) (i x y : Xl),
    let w1 := s.slot.rx b
    let w2 := s.slot.rx c
    let W : Nat → Word := fun op => tileW0 op (s.slot.rx a)
    let len : Nat → Nat := fun op => w0Acc (W op)
    let va : Nat → BitVec 128 := fun op => s.shape (w0Sha (W op))
    let vb : Nat → BitVec 128 := fun op => s.shape (w0Shb (W op))
    let A : Nat → Shape := fun op => shapeOf (va op)
    let B : Nat → Shape := fun op => shapeOf (vb op)
    let base : Shape → Word → Word := fun p w => BitVec.ofNat 64 p.base + w
    let pl : Xl → Place := fun x => s.enginePlace q.toNat (some x)
    let enters : Nat → Instr → Place → Prop := fun op ins p => ∃ v, exec ins s = .next v ∧ commandEntered s v p op q.toNat
    let shaped : Nat → Prop := fun op => va op ≠ 0 ∧ vb op ≠ 0 ∧ (A op).kind = 0 ∧ (B op).kind = 0
    let member : Nat → Prop := fun n => s.inOwnSlice y n = true ∧ s.slot.members < 8
    (commandReady s 0x10 a b c q → len 0x10 ≠ 0 → rangeOk s t q.toNat w1 16 (len 0x10) [(0, len 0x10)] false x →
      rangeOk t u q.toNat w2 16 (len 0x10) [(0, len 0x10)] true y → queueOpen u (pl x) →
      enters 0x10 (.copy a b c q) (pl x)) ∧
    (commandReady s 0x12 a b c q → len 0x12 ≠ 0 → rangeOk s t q.toNat w1 16 (len 0x12) [(0, len 0x12)] false x →
      rangeOk t u q.toNat w2 16 (len 0x12) [(0, len 0x12)] true y → queueOpen u (pl x) → member (len 0x12) →
      enters 0x12 (.copyf a b c q) (pl x)) ∧
    (commandReady s 0x41 a b c q → len 0x41 ≠ 0 → rangeOk s t q.toNat w2 16 (len 0x41) [(0, len 0x41)] true y →
      queueOpen t (pl y) → enters 0x41 (.fill a b c q) (pl y)) ∧
    (let n := len 0x11
     commandReady s 0x11 a b c q → shaped 0x11 → (A 0x11).rows = (B 0x11).rows → (A 0x11).cols = (B 0x11).cols →
      1 ≤ n → n ≤ 65535 → rangeOk s t q.toNat (base (A 0x11) w1) 16 ((A 0x11).extent n) ((A 0x11).runs n) false x →
      rangeOk t u q.toNat (base (B 0x11) w2) 16 ((B 0x11).extent n) ((B 0x11).runs n) true y → queueOpen u (pl x) →
      (128 ≤ w0Flags (W 0x11) → member ((B 0x11).extent n)) → enters 0x11 (.copy2 a b c q) (pl x)) ∧
    (let n := 4 * (B 0x13).rows
     commandReady s 0x13 a b c q → shaped 0x13 → (A 0x13).cols = (B 0x13).cols →
      rangeOk s t q.toNat w1 4 n [(0, n)] false i → rangeOk t u q.toNat (BitVec.ofNat 64 (A 0x13).base) 16 0 [(0, 16)] false x →
      rangeOk u r q.toNat (base (B 0x13) w2) 16 ((B 0x13).extent 1) ((B 0x13).runs 1) true y → queueOpen r (pl i) →
      (128 ≤ w0Flags (W 0x13) → member ((B 0x13).extent 1)) → enters 0x13 (.gather a b c q) (pl i)) ∧
    (commandReady s 0x40 a b c q → shaped 0x40 →
      rangeOk s t q.toNat (base (A 0x40) w1) 16 ((A 0x40).extent 1) ((A 0x40).runs 1) false x →
      rangeOk t u q.toNat (base (B 0x40) w2) 16 ((B 0x40).extent 1) ((B 0x40).runs 1) true y → queueOpen u (pl x) →
      (let f := effFmt none (some x.e) (A 0x40)
       fmtOf f ≠ 4 ∧ (B 0x40).rows = (A 0x40).elts f ∧ (B 0x40).elts f = (A 0x40).rows) →
      enters 0x40 (.xpose a b c q) (pl x))

/-- mma, mmaz, mmaw, accst, accld and accz that pass their checks enter the matrix queue, or park behind a group, and
raise CNTTL (R218, R221, R222, R223, R224, R225, R226, R229). That the class check comes first (log 66), that FOVR
gives the format of an ACCLD register group (log 120) and that closed block scales take 0x041 at issue (log 143) are
the model's readings. -/
def Obligations.matrix_commands_enter_their_queue : Prop :=
  ∀ (s t u : State) (a b c : Reg) (x y : Xl),
    let w1 := s.slot.rx b
    let w2 := s.slot.rx c
    let W : Nat → Word := fun op => tileW0 op (s.slot.rx a)
    let acc : Nat → Nat := fun op => w0Acc (W op)
    let va : Nat → BitVec 128 := fun op => s.shape (w0Sha (W op))
    let vb : Nat → BitVec 128 := fun op => s.shape (w0Shb (W op))
    let A : Nat → Shape := fun op => shapeOf (va op)
    let B : Nat → Shape := fun op => shapeOf (vb op)
    let base : Shape → Word → Word := fun p w => BitVec.ofNat 64 p.base + w
    let pl := s.enginePlace 0 none
    let enters : Nat → Instr → Prop := fun op ins => ∃ v, exec ins s = .next v ∧ commandEntered s v pl op 0
    let room : State → Prop := fun u => s.slot.followOpen = true ∨ queueOpen u pl
    let mul : Nat → Instr → Prop := fun op ins =>
      let k := ktiles op (W op)
      let P := A op
      let Q := B op
      commandReady s op a b c 0 → room u → va op ≠ 0 → vb op ≠ 0 → Q.kind = 0 → P.rows ≤ 64 → Q.rows ≤ 64 →
      acc op < 0x10000 → acc op + P.rows * Q.rows ≤ 0x10000 →
      rangeOk t u 0 (base Q w2) 16 (Q.extent k) (Q.runs k) false y →
      (let fb := effFmt (w0Fovr (W op)) (some y.e) Q
       let good : BitVec 8 → Prop := fun fa =>
        blocksOk fb (some y.e) ((base Q w2).toNat - y.e.spanVa) (Q.runs k) = true ∧
          mmaFormats op (fmtOf fa) (fmtOf fb) = true ∧ P.elts fa % 8 = 0 ∧ P.elts fa ≤ 256 ∧ Q.elts fb = P.elts fa
       s.scalesDenied y Q k (base Q w2) fb false = false →
       (P.kind = 0 → rangeOk s t 0 (base P w1) 16 (P.extent k) (P.runs k) false x →
          s.scalesDenied x P k (base P w1) (effFmt none (some x.e) P) false = false →
          good (effFmt none (some x.e) P) →
          blocksOk (effFmt none (some x.e) P) (some x.e) ((base P w1).toNat - x.e.spanVa) (P.runs k) = true →
          enters op ins) ∧
       (P.kind = 1 → t = s → P.groupOk k = true → good (effFmt none none P) →
          blocksOk (effFmt none none P) none 0 [] = true → enters op ins))
    mul 1 (.mma a b c 0) ∧ mul 2 (.mmaz a b c 0) ∧ mul 3 (.mmaw a b c 0) ∧
    (commandReady s 4 a b c 0 → room t → vb 4 ≠ 0 → (B 4).kind = 0 → w0Flags (W 4) % 4 ≠ 3 → w1.toNat < 2 ^ 32 →
      acc 4 < 0x10000 → rangeOk s t 0 (base (B 4) w2) 16 ((B 4).extent 1) ((B 4).runs 1) true y →
      (let f := effFmt (w0Fovr (W 4)) (some y.e) (B 4)
       s.scalesDenied y (B 4) 1 (base (B 4) w2) f true = false ∧
       blocksOk f (some y.e) ((base (B 4) w2).toNat - y.e.spanVa) ((B 4).runs 1) = true ∧
        acc 4 + (B 4).rows * (B 4).elts f ≤ 0x10000) → enters 4 (.accst a b c 0)) ∧
    (commandReady s 5 a b c 0 → va 5 ≠ 0 → acc 5 < 0x10000 →
      let good : BitVec 8 → Prop := fun f =>
        (blkOf f = 0 ∨ (fmtOf f ≠ 0 ∧ fmtOf f ≠ 7)) ∧ acc 5 + (A 5).rows * (A 5).elts f ≤ 0x10000
      ((A 5).kind = 0 → room t → rangeOk s t 0 (base (A 5) w1) 16 ((A 5).extent 1) ((A 5).runs 1) false x →
        (let f := effFmt (w0Fovr (W 5)) (some x.e) (A 5)
         s.scalesDenied x (A 5) 1 (base (A 5) w1) f false = false ∧
         blocksOk f (some x.e) ((base (A 5) w1).toNat - x.e.spanVa) ((A 5).runs 1) = true ∧ good f) →
        enters 5 (.accld a b c 0)) ∧
      ((A 5).kind = 1 → room s → (A 5).groupOk 1 = true →
        (let f := effFmt (w0Fovr (W 5)) none (A 5)
         blocksOk f none 0 [] = true ∧ good f) → enters 5 (.accld a b c 0))) ∧
    (commandReady s 6 a b c 0 → room s → 1 ≤ w1.toNat → w1.toNat ≤ 65536 → acc 6 < 0x10000 →
      acc 6 + w1.toNat ≤ 0x10000 → enters 6 (.accz a b c 0))

/-- mcast, reduce and rstage that pass their checks enter their engine's queue and raise CNTCP (R218, R222, R230,
R231). That the class check comes first (log 66) is the model's reading, that a DTILE of another die is taken as
written its choice (log 119). -/
def Obligations.multicast_and_reduction_commands_enter_their_queue : Prop :=
  ∀ (s t : State) (a b c : Reg) (x : Xl),
    let w1 := s.slot.rx b
    let w2 := s.slot.rx c
    let len : Nat → Nat := fun op => w0Acc (tileW0 op (s.slot.rx a))
    let pl : Nat → Place := fun q => s.enginePlace q none
    let enters : Nat → Nat → Instr → Prop := fun op q ins => ∃ v, exec ins s = .next v ∧ commandEntered s v (pl q) op q
    let d := w1.toNat
    (let o := w2.toNat % 2 ^ 20
     commandReady s 0x20 a b c 3 → queueOpen t (pl 3) → w2.toNat < 2 ^ 52 → bitsOf w2.toNat 35 20 ≠ 0 →
      rangeOk s t 3 w1 16 (len 0x20) [(0, len 0x20)] false x → o % 16 = 0 → o + len 0x20 ≤ 2 ^ 20 →
      (∃ k, sliceRegion o = some k ∧ sliceRegion (o + (len 0x20 - 1)) = some k ∧
        (k = 3 → ∀ tl ∈ s.mcastTiles (tileOf s.cur.1) w2, (s.clusterAt (clusterOf tl)).sweep = false)) →
      enters 0x20 3 (.mcast a b c 3)) ∧
    (commandReady s 0x30 a b c 2 → queueOpen t (pl 2) → w2.toNat < 16 → len 0x30 % 64 = 0 → len 0x30 ≤ 65536 →
      rangeOk s t 2 w1 16 (len 0x30) [(0, len 0x30)] false x → enters 0x30 2 (.reduce a b c 2)) ∧
    (let dst := bitsOf d 19 10 * 2 ^ 20 + bitsOf d 39 20
     commandReady s 0x31 a b c 2 → queueOpen s (pl 2) → w2.toNat < 16 → d < 2 ^ 40 → bitsOf d 9 8 = 0 → bitsOf d 3 0 ≤ 2 →
      bitsOf d 39 20 % 16 = 0 →
      (s.closedByte dst = false → enters 0x31 2 (.rstage a b c 2)) ∧
      (s.closedByte dst = true → exec (.rstage a b c 2) s = s.trap 0x041 (s.job.sramBase + BitVec.ofNat 64 dst)))

/-- csrr writes the CSR's value, csrw, csrs and csrc change a writable one, and an unassigned number takes cause 0x004
(R18, R238, R239, R240, spec/02_state.md Tables 02-4 to 02-7). -/
def Obligations.csr_instructions_read_and_write_the_assigned_csrs : Prop :=
  ∀ (s : State) (d a : Reg) (c : BitVec 12),
    let x := s.slot.rx a
    let put : Word → Out := fun v => .next (s.upd (fun sl => sl.writeCsr c.toNat v)).retire
    (ready { writes := [xr d] } s = true →
      (∀ v, s.csr c.toNat = some v → exec (.csrr d c) s = .next (s.setX d v).retire) ∧
      (s.csr c.toNat = none → exec (.csrr d c) s = s.trap 0x004 (c.setWidth 64))) ∧
    (ready { reads := [xr a] } s = true →
      (∀ v, s.csr c.toNat = some v → exec (.csrw a c) s = put x ∧ exec (.csrs a c) s = put (v ||| x) ∧
        exec (.csrc a c) s = put (v &&& ~~~x)) ∧
      (s.csr c.toNat = none → exec (.csrw a c) s = s.trap 0x004 (c.setWidth 64) ∧
        exec (.csrs a c) s = s.trap 0x004 (c.setWidth 64) ∧ exec (.csrc a c) s = s.trap 0x004 (c.setWidth 64))) ∧
    (∀ (sl : Slot) (v : Word),
      (sl.writeCsr 0x001 v).epc = v ∧ (sl.writeCsr 0x003 v).tvec = v &&& ~~~3 ∧
      (sl.writeCsr 0x021 v).tgenx = v.setWidth 16 ∧ (sl.writeCsr 0x051 v).treply = v &&& 0xFFFFFFFFFFFF0001 ∧
      (sl.writeCsr 0x071 v).fseed = v ∧
      (sl.writeCsr 0x070 v).frm = (if v.setWidth 2 = 3#2 then sl.frm else v.setWidth 2) ∧
      ∀ n, ¬[0x001, 0x003, 0x021, 0x051, 0x070, 0x071].contains n → sl.writeCsr n v = sl) ∧
    (∀ n : Nat, (s.csr n).isSome = true ↔ n ∈ [0x000, 0x001, 0x002, 0x003, 0x010, 0x011, 0x012, 0x013, 0x014, 0x015, 0x016,
      0x020, 0x021, 0x030, 0x031, 0x040, 0x041, 0x042, 0x043, 0x044, 0x045, 0x046, 0x050, 0x051, 0x052, 0x060, 0x061, 0x070,
      0x071, 0x0F0, 0x0F1, 0x0F2]) ∧
    s.csr 0x000 = some s.slot.cause ∧ s.csr 0x001 = some s.slot.epc ∧ s.csr 0x002 = some s.slot.tval ∧
    s.csr 0x003 = some s.slot.tvec

/-- Taking a cause sets CAUSE, EPC and TVAL and goes to TVEC, or parks the slot with a record where it is not vectored
(R242, R328, R329, spec/22_traps_and_switching.md Table 22-1). -/
def Obligations.taking_a_cause_saves_and_transfers : Prop :=
  ∀ (s : State) (c l cause : Nat) (tval epc : Word) (async : Bool) (index : Nat) (addr : Word),
    let a := s.slotAt c l
    let t := s.takeTrap c l cause tval epc async index addr
    let b := t.slotAt c l
    let code : Word := BitVec.ofNat 64 cause ||| (if async then 1#64 <<< 63 else 0)
    (userClass cause s.job.debug = true → a.tvec ≠ 0 →
      b = { a with cause := code, epc := epc, tval := tval, pc := a.tvec, phase := .ready } ∧ t.eqx = s.eqx) ∧
    (userClass cause s.job.debug = false ∨ a.tvec = 0 → ∃ r,
      b = { a with cause := code, epc := epc, tval := tval, phase := .parked, held := some r, task := b.task } ∧
      r.cause = cause ∧ r.epc = epc ∧ r.tval = tval ∧ r.unit = c ∧ r.slot = l ∧ r.gen = a.gen ∧ r.slotted = true ∧
      (fatalClass cause = false → t.eqx = { s.eqx with lane0 := s.eqx.lane0 ++ [r] }) ∧
      (fatalClass cause = true → t.eqx = { s.eqx with lane1 := s.eqx.lane1 ++ [r] })) ∧
    (∀ c' l', slotKey c' l' ≠ slotKey c l → t.slotAt c' l' = s.slotAt c' l') ∧ t.mach.cores = s.mach.cores ∧
    sameMemory s t ∧ sameOutside s t

/-- trap n takes cause 0x010 + n, brk 0x007 and halt.slot 0x008, with EPC the instruction; eret continues at EPC
(R241, R242, R243, R249, R250, R328, R329, spec/22_traps_and_switching.md Table 22-1). -/
def Obligations.traps_breakpoint_halt_and_eret : Prop :=
  (∀ (s : State) (n : BitVec 5), n.toNat ≤ 15 →
    let take : Nat → Word → Out := fun cause v => .next (s.takeTrap s.cur.1 s.cur.2 cause v s.slot.pc false 0 v)
    exec (.trap n) s = take (0x010 + n.toNat) (n.setWidth 64) ∧ exec .brk s = take 0x007 0 ∧ exec .haltSlot s = take 0x008 0) ∧
  (∀ s : State,
    (s.slot.epc.toNat % 4 = 0 → exec .eret s = .next (s.upd (fun sl => { sl with pc := sl.epc, phase := .ready }))) ∧
    (s.slot.epc.toNat % 4 ≠ 0 → exec .eret s = s.trap 0x006 s.slot.epc) ∧
    (∀ cause v, userClass cause s.job.debug = true → s.slot.tvec ≠ 0 → s.slot.pc.toNat % 4 = 0 →
      ∃ t u, s.trap cause v = .next t ∧ exec .eret t = .next u ∧ u.slot.pc = s.slot.pc ∧ u.slot.x = s.slot.x ∧
        u.slot.cause = BitVec.ofNat 64 cause)) ∧
  (∀ d, userClass 0x007 d = !d) ∧ (∀ n d, n < 16 → userClass (0x010 + n) d = true) ∧ fatalClass 0x008 = true ∧
  (∀ n d, n < 0x200 → ¬(userClass n d = true ∧ fatalClass n = true))

/-- nop, ifence, time, wfi and exit act as stated (R244, R248, R251, R252, R143, R27). -/
def Obligations.waiting_and_control_instructions_complete : Prop :=
  ∀ (s : State) (d : Reg),
    exec .nop s = .next s.retire ∧
    (s.slot.cntst = 0 → ∃ t, exec .ifence s = .next t ∧ (t.coreAt s.cur.1).words = [] ∧ (t.coreAt s.cur.1).asked = [] ∧
      t.slot = { s.slot with pc := s.slot.pc + 4, phase := .ready }) ∧
    (s.slot.cntst ≠ 0 → exec .ifence s = .next s.stall) ∧
    (ready { writes := [xr d] } s = true → exec (.time d) s = .next (s.setX d s.time).retire) ∧
    (s.slot.wake = true → ∃ t, exec .wfi s = .next t ∧ t.slot = { s.slot with wake := false, pc := s.slot.pc + 4, phase := .ready }) ∧
    (s.slot.wake = false → ∃ t, exec .wfi s = .next t ∧
      t.slot = { s.slot with wake := false, phase := .blocked (.wfi (s.mach.clock + 65536)) }) ∧
    (s.heldBack (s.levelPeer s.slot.task.level :: (s.slot.h.toList.map (fun h => s.closePeers h)).flatten) = false →
      ∃ t, exec .exit s = .next t ∧ t.slot.phase = (if s.slot.cntld = 0 then .free else .draining) ∧
      t.slot.h = Vector.replicate 16 Handle.none ∧ t.slot.cntst = 0 ∧ t.slot.cntcp = 0 ∧ t.slot.cnttl = 0 ∧
      (isGateway s.cur.1 = false → ∀ e ∈ (t.tileAt (tileOf s.cur.1)).leases,
        ¬(e.core = s.cur.1 ∧ e.slot = s.cur.2 ∧ e.gen = s.slot.gen ∧ e.engine = false)) ∧
      t.slot.x = s.slot.x ∧ sameMemory s t)

/-- cancel marks an ancestor level in CANCEL and sends its request; circ sends a plan to Equinox once STX is zero
(R245, R246, R268). -/
def Obligations.cancel_and_circ_send_their_requests : Prop :=
  ∀ (s : State) (a l : Reg),
    let v := s.slot.rx a
    (ready { reads := [xr a] } s = true → 1 ≤ l.toNat → l.toNat ≤ 4 →
      (s.cancelTarget v l.toNat = none → exec (.cancel a l) s = s.trap 0x181 v) ∧
      (∀ k, s.cancelTarget v l.toNat = some k →
        (s.recordKind k ≠ l.toNat → exec (.cancel a l) s = s.trap 0x180 v) ∧
        (s.recordKind k = l.toNat → wayOut s (s.levelPeer k) → ∃ t, exec (.cancel a l) s = .next t ∧
          t.slot.pc = s.slot.pc + 4 ∧ t.slot.x = s.slot.x ∧ sameMemory s t ∧
          (if k < 2 ^ 32 then
            lastIs t { src := s.here (.core s.cur.1), dst := s.here (.home (s.levelHome k)), cls := 0 } (.cancelReq k)
           else lastIs t { src := s.here (.core s.cur.1), dst := s.farHome k, cls := 0 } (.farCancel k)) ∧
          (s.cancelFlags.getLsbD l.toNat = false → (s.chain 8 s.slot.task.level).contains k = true → t.slot.wake = true) ∧
          t.slot.cancelled = (if (s.chain 8 s.slot.task.level).contains k then s.slot.cancelled ||| (1#5 <<< l.toNat)
            else s.slot.cancelled)))) ∧
    (ready { reads := [xr a], hold := decide (s.slot.stx ≠ 0) } s = true →
      (256 ≤ v.toNat ∨ s.planEmpty v.toNat = true → exec (.circ a) s = s.trap 0x145 v) ∧
      (v.toNat < 256 → s.planEmpty v.toNat = false → exec (.circ a) s = .next (s.post (.core s.cur.1) (s.here .equinox) 0
        (.circReq v.toNat s.slot.treply s.part.peer s.cur.1 s.slot.task.level) s.cur.2 s.slot.gen).retire))

/-- PERFORM reads, writes or combines the bytes of the access at the head of its home's queue, and nothing else of
memory (R34, R35, R44, R48, R146, R149, R150, R152, R153, R159, spec/02_state.md Table 02-12). How a local write
without a journal entry is refused is the model's reading (log 35). -/
def Obligations.a_home_performs_accesses_on_its_memory : Prop :=
  ∀ (s : State) (h : Nat) (p : Packet) (rest : List Packet), (s.homeAt h).q = p :: rest →
    let key : PairKey := { src := s.here (.home h), dst := p.src, cls := 4 }
    let answers : State → Body → Prop := fun t b =>
      ∃ r, (netGet t.mach.net key).getLast? = some r ∧ r.body = b ∧ r.slot = p.slot ∧ r.gen = p.gen
    let runs : (State → Prop) → Prop := fun post => ∃ t, exec (.perform h) s = .next t ∧ (t.homeAt h).q = rest ∧ post t
    let inOne : Nat → Nat → Prop := fun pa n => pa + n ≤ 2 ^ 30 ∨ 2 ^ 30 ≤ pa
    let wrote : State → Nat → Nat → Nat → Prop := fun t pa n v =>
      (∀ i, i < n → t.byte (pa + i) = BitVec.ofNat 8 (v / 256 ^ i)) ∧ ∀ a, a < pa ∨ pa + n ≤ a → t.byte a = s.byte a
    (∀ pa n ret, p.body = .load pa n ret → isPort pa = false → s.refuses h p pa = none →
      runs (fun t => sameMemory s t ∧ t.mach.full = s.mach.full ∧
        answers t (.value ret (s.wide pa n) (s.poisonIn pa n)))) ∧
    (∀ kind pa n v e, p.body = .store kind pa n v e → isPort pa = false → fromEngine p = false → s.refuses h p pa = none →
      let acked : State → Prop := fun t => e ≠ none → answers t (.ack e)
      let fills : State → Prop := fun t => (s.homeAt (pa / 16 / 65536)).waiting = [] → t.isFull (pa / 16) = true
      (kind = .st ∨ kind = .vst ∨ kind = .scat → inOne pa n → runs (fun t =>
        (∀ i, i < n → t.byte (pa + i) = BitVec.ofNat 8 (v.toNat / 256 ^ i)) ∧
        (∀ a, a < pa ∨ pa + n ≤ a →
          t.byte a = if a / 16 ∈ granules pa n ∧ s.poisonOf (a / 16) ≠ none then 0 else s.byte a) ∧
        (∀ g, g ∈ granules pa n → t.poisonOf g = none) ∧ t.mach.full = s.mach.full ∧ acked t)) ∧
      (kind = .stFe → s.isFull (pa / 16) = false → inOne pa n → s.poisonIn pa n = none →
        runs (fun t => wrote t pa n v.toNat ∧ fills t ∧ acked t)) ∧
      (kind = .stFe → s.isFull (pa / 16) = true → ∀ k, e = some k →
        runs (fun t => sameMemory s t ∧ t.mach.full = s.mach.full ∧ answers t (.refusedWrite e 1 pa))) ∧
      (kind = .feSet → runs (fun t => sameMemory s t ∧ fills t ∧ acked t)) ∧
      (kind = .feClr → runs (fun t => sameMemory s t ∧ t.mach.full = delNat s.mach.full (pa / 16) ∧ acked t)) ∧
      (kind = .anadd → s.poisonIn pa n = none → inOne pa n →
        runs (fun t => wrote t pa n (atomicNew .add (8 * n) (s.num pa n) v.toNat 0) ∧ t.mach.full = s.mach.full ∧ acked t)) ∧
      (kind = .anadd → ∀ k b, e = some k → s.poisonIn pa n = some b →
        runs (fun t => sameMemory s t ∧ t.mach.full = s.mach.full ∧ answers t (.refusedWrite e 6 pa)))) ∧
    (∀ op pa n b e ret, p.body = .atomic op pa n b e ret → isPort pa = false → s.refuses h p pa = none →
      (s.poisonIn pa n = none → inOne pa n →
        runs (fun t => wrote t pa n (atomicNew op (8 * n) (s.num pa n) b.toNat e.toNat) ∧ t.mach.full = s.mach.full ∧
          answers t (.value ret (s.wide pa n) none))) ∧
      (∀ k, s.poisonIn pa n = some k → runs (fun t => sameMemory s t ∧ t.mach.poison = s.mach.poison ∧
        t.mach.full = s.mach.full ∧ answers t (.value ret 0 (some k))))) ∧
    (∀ take pa n ret, p.body = .ldFe take pa n ret → s.refuses h p pa = none →
      (s.isFull (pa / 16) = true →
        runs (fun t => sameMemory s t ∧ answers t (.value ret (s.wide pa n) (s.poisonIn pa n)) ∧
          t.mach.full = if take then delNat s.mach.full (pa / 16) else s.mach.full)) ∧
      (s.isFull (pa / 16) = false → runs (fun t => sameMemory s t ∧ t.mach.full = s.mach.full ∧ t.mach.net = s.mach.net ∧
        (t.homeAt h).waiting = (s.homeAt h).waiting ++ [p]))) ∧
    (∀ pa n ret r, p.body = .load pa n ret → isPort pa = false → s.refuses h p pa = some r →
      runs (fun t => sameMemory s t ∧ answers t (.refusedRead ret r pa)))

/-- A reply writes its register and lowers CNTLD, an acknowledgement retires its entry, a refusal marks it and raises
a cause (R23, R24, R28, R44, R145, R146, R147, R148, R330). -/
def Obligations.replies_and_refusals_land_at_their_core : Prop :=
  ∀ (s : State) (k : PairKey) (c : Nat) (p : Packet), k.dst = s.here (.core c) → s.headOf k = some p → s.stopped = false →
    let l := p.slot
    let a := s.slotAt c l
    a.gen = p.gen → a.phase ≠ .free → a.phase ≠ .draining →
    (∀ r sgn n v, p.body = .value (.xreg r sgn n) v none → ∃ t, exec (.reply k) s = .next t ∧
      t.mach.net = netSet s.mach.net k (netGet s.mach.net k).tail ∧ (t.slotAt c l).cntld = a.cntld - 1 ∧ sameMemory s t ∧
      (∀ q, q ≠ r → (t.slotAt c l).rx q = a.rx q) ∧ (r ≠ 0 → (t.slotAt c l).pendingAt r.toNat = false ∧
        (t.slotAt c l).poisonAt r.toNat = none ∧ (t.slotAt c l).rx r =
          (if sgn then BitVec.ofInt 64 (sextInt (v.toNat % 2 ^ (8 * n)) (8 * n)) else BitVec.ofNat 64 (v.toNat % 2 ^ (8 * n))))) ∧
    (∀ n e, p.body = .ack (some n) → AMap.get (s.coreAt c).journal n = some e → e.slot = l → e.gen = p.gen →
      ∃ t, exec (.reply k) s = .next t ∧ AMap.get (t.coreAt c).journal n = none ∧
        (t.slotAt c l).cntst = a.cntst - 1 ∧ (t.slotAt c l).x = a.x ∧ sameMemory s t) ∧
    (∀ n e reason pa, p.body = .refusedWrite (some n) reason pa → AMap.get (s.coreAt c).journal n = some e → e.slot = l →
      e.gen = p.gen → ∃ t, exec (.refusal k) s = .next t ∧ AMap.get (t.coreAt c).journal n =
          some { e with refused := true, reason := reason, undelivered := true } ∧
        (t.slotAt c l).async = a.async ++ [.store n] ∧ (t.slotAt c l).cntst = a.cntst ∧ sameMemory s t) ∧
    (∀ r sgn n reason pa, p.body = .refusedRead (.xreg r sgn n) reason pa →
      (a.async.filter (fun q => match q with | .load _ => true | .store _ => false)).length < 4 →
      ∃ t, exec (.refusal k) s = .next t ∧ (t.slotAt c l).rx r = 0 ∧ (t.slotAt c l).cntld = a.cntld - 1 ∧
        (t.slotAt c l).async = a.async ++ [.load (BitVec.ofNat 64 pa)] ∧ sameMemory s t)

/-- An asynchronous cause is taken at a boundary, a bad word at its PC, a register with a parity error is rewritten or
parks its slot (R98, R329, R330, R333, R45, R41). That no such cause is delivered while the instruction at PC waits
for its answer is the model's reading (log 20). -/
def Obligations.causes_are_delivered_and_registers_repaired : Prop :=
  ∀ (s : State) (c l reg : Nat) (w : IWord),
    let a := s.slotAt c l
    (a.asyncReady = true → s.stopped = false →
      (∀ pa r, a.async = .load pa :: r → ∃ t, exec (.asyncCauseDelivery c l) s = .next t ∧ (t.slotAt c l).async = r ∧
        (t.slotAt c l).cause = 0x8000000000000062 ∧ (t.slotAt c l).epc = a.pc ∧ (t.slotAt c l).tval = pa ∧ sameMemory s t) ∧
      (∀ n r, a.async = .store n :: r → ∃ t, exec (.asyncCauseDelivery c l) s = .next t ∧ (t.slotAt c l).async = r ∧
        (t.slotAt c l).cause = 0x8000000000000060 ∧ (t.slotAt c l).epc = a.pc ∧ sameMemory s t ∧
        (t.slotAt c l).tval = BitVec.ofNat 64 ((undelivered l a.gen (s.coreAt c).journal).getD n))) ∧
    (decode w = .undefined → exec (.undefinedInstruction w) s = s.trap 0x001 (w.setWidth 64)) ∧
    (decode w = .reserved → exec (.undefinedInstruction w) s = s.trap 0x002 (w.setWidth 64)) ∧
    (a.phase = .ready → l < slotCount c → reg < 88 →
      (∀ e, (s.coreAt c).logged l reg = some e → ∃ t, exec (.registerParityReplay c l reg false) s = .next t ∧
        (t.slotAt c l).phase = .ready ∧ (t.slotAt c l).pc = a.pc ∧ sameMemory s t ∧
        (∀ r : Reg, r ≠ 0 → r.toNat = reg → (t.slotAt c l).rx r = e.val.setWidth 64) ∧
        (∀ r : Reg, 32 + r.toNat = reg → (t.slotAt c l).rv r = e.val)) ∧
      ∀ bad, bad = true ∨ (s.coreAt c).logged l reg = none → ∃ t, exec (.registerParityReplay c l reg bad) s = .next t ∧
        (t.slotAt c l).phase = .parked ∧ (t.slotAt c l).cause = 0x1C1 ∧ (t.slotAt c l).tval = BitVec.ofNat 64 reg ∧
        sameMemory s t) ∧
    (∀ (k : PairKey) (h : Nat) (p : Packet), k.dst = s.here (.home h) → k.cls = 4 → s.headOf k = some p →
      forHomeQueue p.body = true → exec (.deliver k) s = .next ((s.popNet k).arriveHome h k.src p))

/-- The ticket steps of a home keep, answer and free entries by Table 08-6; a raw snapshot lands in its v register,
scales arrive (R154, R156, R157, R158, R159, R160, R161, R278, R377, spec/08_memory_instructions.md Tables 08-6 to
08-8). Where a snapshot lies (log 36), that a redemption lands whole (log 21) and that a bad scale counts as 0xFF (log
37) are the model's choices or readings. -/
def Obligations.tickets_at_their_home_and_landing : Prop :=
  ∀ (s : State) (h : Nat) (p : Packet) (rest : List Packet),
    let q := s.homeAt h
    let names : Word → Ticket → Bool := fun tk e => namesTicket tk e.core e.num e.gen
    let lists : Word → List TkRec → Bool := fun tk l => l.any (fun r => namesTicket tk r.core r.num r.gen)
    let popped : State := s.updHome h (fun q => { q with q := rest })
    let own : Word → Prop := fun tk => tkHomeOf tk = h ∧ tkPeerOf tk = s.part.peer
    let room : Word → Prop := fun tk => q.tickets.length < ticketRoom h ∧
      ∃ b, (if h < 1024 then freeRun q.tickets (max 1 (tkBytes tk / 64)) else some 0) = some b
    let sends : State → Place → Body → Prop := fun t dst b =>
      let k : PairKey := { src := s.here (.home h), dst := dst, cls := 4 }
      ∃ new, netGet t.mach.net k = netGet s.mach.net k ++ new ∧ b ∈ new.map (·.body)
    let freed : State → Ticket → Prop := fun t e => sends t { peer := e.peer, agent := .core e.core } (.release e.num e.gen)
    let keeps : Out → Word → List Byte → Prop := fun o tk data => ∃ t e, o = .next t ∧ (t.homeAt h).tickets = q.tickets ++ [e] ∧
      (t.homeAt h).q = rest ∧ e.data = data ∧ e.job = p.job ∧ e.num = tkNumOf tk ∧ e.core = tkCoreOf tk ∧ sameMemory s t
    let loses : Out → Word → Prop := fun o tk => ∃ t, o = .next t ∧ (t.homeAt h).tickets = q.tickets ∧ sameMemory s t ∧
      (t.homeAt h).lost = pushRec q.lost { core := tkCoreOf tk, num := tkNumOf tk, gen := BitVec.ofNat 6 (tkGenOf tk)
                                           job := p.job } ∧
      sends t { peer := p.src.peer, agent := .core (tkCoreOf tk) } (.release (tkNumOf tk) (BitVec.ofNat 6 (tkGenOf tk)))
    let here : Word → Prop := fun tk => q.away.any (sameTicket tk) = false
    let waits : Word → Out → Prop := fun tk o => q.away.any (sameTicket tk) = true →
      o = .next (popped.updHome h (fun q => { q with awaiting := q.awaiting ++ [p] }))
    let stop : Ticket → Nat := fun e => e.at_ + 2 ^ s.job.lease
    let fenced := s.part.fenced.contains h = true
    (q.q = p :: rest →
      (q.heldRdm = [] → q.awaiting = [] →
        (∀ tk pa fmt sc elt, p.body = .fetch tk pa fmt sc elt → own tk →
          (s.refuses h p pa = none → room tk → keeps (exec (.ticketFetch h) s) tk (s.bytes pa (tkBytes tk))) ∧
          (s.refuses h p pa ≠ none ∨ ¬room tk → loses (exec (.ticketFetch h) s) tk)) ∧
        (∀ tk v, p.body = .fetched tk (some v) → (room tk → keeps (exec (.ticketFetch h) s) tk v.data) ∧
          (¬room tk → loses (exec (.ticketFetch h) s) tk))) ∧
      (∀ tk pa fmt sc elt, p.body = .fetch tk pa fmt sc elt → ¬own tk → ∃ t, exec (.ticketFetch h) s = .next t ∧
        lastIs t { src := s.here (.home h), dst := { peer := tkPeerOf tk, agent := .home (tkHomeOf tk) }, cls := 4 }
          (.fetched tk (s.snapshotOf h p tk pa fmt sc elt))) ∧
      (∀ tk dst at_, p.body = .redeem tk dst at_ → waits tk (exec (.redemption h) s) ∧
        (here tk → ∃ t, exec (.redemption h) s = .next t ∧ (t.homeAt h).q = rest ∧ sameMemory s t ∧
          (let refused : BitVec 2 → Prop := fun n => (t.homeAt h).tickets = q.tickets ∧ (t.homeAt h).heldRdm = q.heldRdm ∧
            sends t p.src (.refusedRdm dst tk n)
           let noEntry := q.tickets.find? (names tk) = none
           let last := AMap.get q.fetched (tkCoreOf tk * 256 + tkNumOf tk)
           let ended : Ticket → Prop := fun e => stop e ≤ s.mach.clock ∧ stop e ≤ at_
           (∀ e, ¬fenced → q.tickets.find? (names tk) = some e →
            (e.job = p.job → ¬ended e → (t.homeAt h).tickets = q.tickets.filter (fun x => !names tk x) ∧
              sends t p.src (.snapshot dst tk e.data e.poison e.fmt e.scale e.elt) ∧ freed t e) ∧
            (e.job ≠ p.job → ¬ended e → refused 2) ∧ (ended e → refused 1)) ∧
           (∀ a r b, ¬fenced → noEntry → q.lost = a ++ r :: b → lists tk a = false → namesTicket tk r.core r.num r.gen = true →
            refused 3 ∧ (t.homeAt h).lost = a ++ b) ∧
           (¬fenced → noEntry → lists tk q.lost = false →
            (lists tk q.expired = true → refused 1 ∧ (t.homeAt h).expired = q.expired) ∧
            (lists tk q.expired = false →
              (∀ f, last = some f → s.mach.clock ≤ f + 2 ^ 20 → refused 0) ∧
              ((∀ f, last = some f → f + 2 ^ 20 < s.mach.clock) → (t.homeAt h).tickets = q.tickets ∧
                (t.homeAt h).heldRdm = q.heldRdm ++ [(p, s.mach.clock + 2 ^ 20)] ∧ t.mach.net = s.mach.net))) ∧
           (fenced → q.tickets.any (names tk) = true ∨ lists tk q.lost = true ∨ lists tk q.expired = true → refused 3)))) ∧
      (∀ tk, p.body = .tkDrop tk → waits tk (exec (.ticketDrop h) s) ∧
        (here tk → ∃ t, exec (.ticketDrop h) s = .next t ∧ (t.homeAt h).q = rest ∧ sameMemory s t ∧
          (∀ a e b, q.tickets = a ++ e :: b → (∀ x ∈ a, names tk x = false ∨ x.job ≠ p.job) → names tk e = true →
            e.job = p.job → s.mach.clock < stop e → (t.homeAt h).tickets = a ++ b ∧ freed t e) ∧
          ((∀ x ∈ q.tickets, names tk x = false ∨ x.job ≠ p.job) →
            (t.homeAt h).tickets = q.tickets ∧ t.mach.net = s.mach.net))) ∧
      (∀ tk r, p.body = .tkQuery tk r → waits tk (exec (.ticketQuery h) s) ∧
        (here tk → ¬fenced → exec (.ticketQuery h) s = .next (popped.reply h p (.value (.xreg r false 8) (BitVec.ofNat 512
          (match q.tickets.find? (names tk) with
           | some e => if stop e ≤ s.mach.clock then 3 else if e.job = p.job then 1 else 5
           | none => if lists tk q.lost then 4 else if lists tk q.expired then 3 else 2)) none))))) ∧
    (∀ e r, q.heldRdm = e :: r → e.2 ≤ s.mach.clock → ∀ tk dst at_, e.1.body = .redeem tk dst at_ →
      exec (.redemptionHoldExpiry h) s = .next ((s.updHome h (fun q => { q with heldRdm := r })).reply h e.1
        (.refusedRdm dst tk 0))) ∧
    (∀ e r, q.tickets = e :: r → q.q = [] → stop e ≤ s.mach.clock → ∃ t, exec (.leaseEnd h) s = .next t ∧
      (t.homeAt h).tickets = r ∧ (t.homeAt h).expired = pushRec q.expired { core := e.core, num := e.num, gen := e.gen
                                                                            job := e.job } ∧ freed t e ∧ sameMemory s t) ∧
    (∀ (k : PairKey) (c : Nat), k.dst = s.here (.core c) → s.headOf k = some p →
      (∀ num gen, p.body = .release num gen → AMap.get (s.coreAt c).tkGen num = some gen →
        ∃ t, exec (.releaseNotice k) s = .next t ∧ (t.coreAt c).tkLive = delNat (s.coreAt c).tkLive num ∧ sameMemory s t) ∧
      (s.current c p.slot p.gen = true → s.draining c p.slot = false → s.stopped = false →
        (∀ d tk data fmt sc elt, p.body = .snapshot (.vreg d) tk data (List.replicate ((data.length + 15) / 16) none)
            fmt sc elt → snapSize tk ≤ data.length → decodes fmt = false → ∃ t, exec (.snapshotReply k) s = .next t ∧
          (t.slotAt c p.slot).rv d = ofVbytes data ∧ (t.slotAt c p.slot).cntld = (s.slotAt c p.slot).cntld - 1 ∧
          (t.slotAt c p.slot).pendingAt (32 + d.toNat) = false ∧ sameMemory s t) ∧
        (∀ id off v, p.body = .value (.rdmScale id off) v none →
          exec (.scaleReadReply k) s = .next ((s.popNet k).rdmScales c p.slot id off (vbytes v)))))

/-- An engine starts its queue's head, issues its reads and writes in order, and counts the answers (R53, R61, R62,
R74, R222, R233, R339). The order of the accesses of one run is the model's choice (log 58). -/
def Obligations.engines_start_read_write_and_collect_replies : Prop :=
  ∀ (s : State) (e : Nat),
    let k := s.engineAt e
    (∀ c rest, s.stopped = false → k.queue = c :: rest → c.marker = false → c.waits = false → (isMatrix e = true → k.runs = []) →
      ∃ t r, exec (.engineStart e) s = .next t ∧ (t.engineAt e).runs.getLast? = some r ∧ r.id = k.next ∧ r.cmd.op = c.op ∧ r.cmd.w0 = c.w0 ∧
        r.cmd.w1 = c.w1 ∧ r.issued = 0 ∧ r.sent = 0 ∧ r.status = 0 ∧
        (t.engineAt e).queue = rest ++ k.hold.take (16 - rest.length) ∧
        (t.engineAt e).hold = k.hold.drop (16 - rest.length) ∧ (t.engineAt e).next = k.next + 1 ∧ sameMemory s t) ∧
    (∀ id r, s.runAt e id = some r → r.status = 0 → s.goesOn e r = true →
      (∀ a, r.reads[r.issued]? = some a → (∀ n ∈ a.needs, (AMap.get r.got n).isSome = true) →
        (k.holding = true → a.peer = s.part.peer) → s.closedRegion a = false →
        ∃ t q, exec (.engineAccess e (.read id)) s = .next t ∧ t.runAt e id = some q ∧ q.issued = r.issued + 1 ∧
          q.reads = r.reads ∧ sameMemory s t ∧
          lastIs t { src := s.here (.engine e), dst := s.homePlace a.peer a.pa, cls := 4 }
            (.load a.pa a.len (.eng r.id r.issued))) ∧
      (∀ w, r.writes[r.sent]? = some w → w.line = none → w.src = [] → w.clears = false →
        (k.holding = true → w.peer = s.part.peer) →
        ∃ t q, exec (.engineAccess e (.write id)) s = .next t ∧ t.runAt e id = some q ∧ q.sent = r.sent + 1 ∧
          q.writes = r.writes ∧ sameMemory s t ∧
          lastIs t { src := s.here (.engine e), dst := s.homePlace w.peer w.pa, cls := 4 }
            (.store .st w.pa w.len (ofVbytes w.bytes) (some (accessNo r.id r.sent)))) ∧
      (∀ q ix d, heads s q (.engine e) (.value (.eng id ix) d none) →
        ∃ t u, exec (.engineAccess e (.reply q)) s = .next t ∧ t.runAt e id = some u ∧ u.back = r.back + 1 ∧
          left s t q ∧ sameMemory s t))

/-- A finished command leaves its engine and its completion, or silent notice, goes to the issuing core (R189, R224,
R226, R229, R232, R234, R341, spec/11_tile_commands.md Table 11-6). That a marker under ERRONLY sends the silent
notice (log 38) and that the accumulators change in the step of completion (log 60) are the model's readings. -/
def Obligations.engines_complete_and_tell_the_issuing_core : Prop :=
  ∀ (s : State) (e : Nat),
    let k := s.engineAt e
    let told : State → Cmd → Nat → Word → Prop := fun t c code st =>
      lastIs t { src := s.here (.engine e), dst := { peer := c.peer, agent := .core c.core }, cls := 1 }
        (if c.w3.getLsbD 0 = true ∧ code = 0 then .silent c.slot c.gen c.matrix c.follow c.leases
          else .completion c.w3 st c.slot c.gen c.matrix true c.level c.follow c.leases)
    (∀ id r, s.runAt e id = some r → r.finished = true → s.stopped = false ∨ r.code ≠ 0x1C0 → ∃ t, exec (.engineComplete e id) s = .next t ∧
      t.runAt e id = none ∧ told t r.cmd r.code (statusWord r.prog r.cmd.op.toNat r.why r.code) ∧ sameMemory s t ∧
      (r.cmd.op = 6 → isMatrix e = true → r.code = 0 → ∀ n, t.accAt (engineTile e) n =
        if w0Acc r.cmd.w0 ≤ n ∧ n < w0Acc r.cmd.w0 + r.cmd.w1.toNat then 0 else s.accAt (engineTile e) n) ∧
      (isMatrix e = false ∨ r.code ≠ 0 → t.mach.acc = s.mach.acc)) ∧
    (∀ c rest, k.queue = c :: rest → c.marker = true → k.runs = [] → s.stopped = false → ∃ t, exec (.engineMarkerComplete e) s = .next t ∧
      (t.engineAt e).queue = rest ++ k.hold.take (16 - rest.length) ∧ told t c 0 0 ∧ sameMemory s t) ∧
    (∀ c rest, k.parked = c :: rest → k.open_.contains (followKey c) = false →
      (k.failed.contains (followKey c) = false → (s.engineAt (e - 1)).queue.length < 16 →
        ∃ t, exec (.parkedCommandRelease e) s = .next t ∧ (t.engineAt e).parked = rest ∧ sameMemory s t ∧
          (t.engineAt (e - 1)).queue = (s.engineAt (e - 1)).queue ++ [{ c with follow := 0 }]) ∧
      (k.failed.contains (followKey c) = true → ∃ t, exec (.parkedCommandRelease e) s = .next t ∧
        (t.engineAt e).parked = rest ∧ told t { c with follow := 0, leases := [] } 0x109 (statusWord 0 c.op.toNat 0 0x109) ∧ sameMemory s t))

/-- A stage combines each line of its N contributors in order of their tiles, writes it at its home, and answers them
once written (R231, R235, spec/11_tile_commands.md Table 11-5). That a refusal of the write reaches the contributors
with 0x060 and its reason is the model's reading (log 59). -/
def Obligations.reduction_stages_combine_and_answer_their_contributors : Prop :=
  ∀ (s : State) (cl : Nat) (p : Packet) (rest : List Packet), (s.clusterAt cl).inbox = p :: rest →
    let stages := (s.clusterAt cl).stages
    let popped : State → Prop := fun t => (t.clusterAt cl).inbox = rest ∧ sameMemory s t
    (∀ e, p.src = s.here (.engine e) →
      let back : PairKey := queueOf s (.router cl) (.engine e) 1
      (∀ run n d, p.body = .stageLoad run n d → AMap.get stages n = none →
        ∃ t g, exec (.reductionLine cl) s = .next t ∧ popped t ∧ AMap.get (t.clusterAt cl).stages n = some g ∧ g.desc = d ∧
          g.lines = [] ∧ lastIs t back (.stageReply run 0 0 0)) ∧
      (∀ run n j len d, p.body = .contrib run n j len d → AMap.get stages n = none →
        ∃ t, exec (.reductionLine cl) s = .next t ∧ popped t ∧ lastIs t back (.stageReply run j 0x106 0)) ∧
      (∀ run n j len d g, p.body = .contrib run n j len d → AMap.get stages n = some g → len ≠ 0 →
        let c : Contrib := { eng := e, run := run, len := len, data := d }
        let pa := g.dest + 64 * j
        (if j = 0 then (∀ l, g.roundLen = some l → l = len) else (e, run) ∈ g.accepted) →
        (∀ x ∈ g.lines, x.2.length < g.n) → (g.line j).length + 1 = g.n → g.combined j = false →
        s.closedByte pa = false → s.closedByte (pa + 63) = false →
        ∀ first others, (first :: others).Perm (g.line j ++ [c]) →
          (first :: others).Pairwise (fun a b => engineTile a.eng < engineTile b.eng) →
          ∃ t, exec (.reductionLine cl) s = .next t ∧ popped t ∧
            lastIs t (queueOf s (.router cl) (.home (pa / 2 ^ 20)) 4) (.store .st pa 64
              (ofLanes 32 ((List.range 16).map (fun i =>
                others.foldl (fun acc o => combine (g.desc.toNat % 16) acc (laneOf o.data 32 i)) (laneOf first.data 32 i))))
              (some (accessNo n j))))) ∧
    (∀ h n j g use, p.src = s.here (.home h) → AMap.get stages n = some g → AMap.get g.writing j = some use → j < 2 ^ 32 →
      let answered : Nat → Nat → Prop := fun code reason => ∃ t, exec (.reductionLine cl) s = .next t ∧ popped t ∧
        ∀ c ∈ use, ∃ new, netGet t.mach.net (queueOf s (.router cl) (.engine c.eng) 1) =
          netGet s.mach.net (queueOf s (.router cl) (.engine c.eng) 1) ++ new ∧
            .stageReply c.run j code reason ∈ new.map (·.body)
      (p.body = .ack (some (accessNo n j)) → answered 0 0) ∧
      (∀ reason pa, p.body = .refusedWrite (some (accessNo n j)) reason pa → answered 0x060 reason))

/-- A completion becomes a class-1 task of its handler, and a silent notice lowers its slot's counter (R23, R29, R232,
R258, R259, R260, R261). -/
def Obligations.completions_become_tasks_and_silent_notices_count : Prop :=
  ∀ (s : State) (c : Nat), s.stopped = false →
    (∀ p k w3 st l g mx ct lv fo ls, (s.coreAt c).takeItem 1 isCompletion = some (.pkt p, k) →
      p.body = .completion w3 st l g mx ct lv fo ls →
      (s.cancelPending lv = false → s.countFull (s.countLevel lv) = false → s.runRoom c = true →
        ∃ t e, exec (.completionTaskCreate c) s = .next t ∧ (t.coreAt c).runq = (s.coreAt c).runq ++ [e] ∧
          e.kind = .completion ∧ e.cls = 1 ∧ e.level = s.countLevel lv ∧ e.xferid = w3.extractLsb' 16 16 ∧
          e.regs = [(10, st)] ∧ e.pc = s.job.code + BitVec.ofNat 64 (w3.toNat / 2 ^ 32) ∧ sameMemory s t) ∧
      (s.cancelPending lv = true → ∃ t, exec (.completionTaskCreate c) s = .next t ∧
        (t.coreAt c).runq = (s.coreAt c).runq ∧ sameMemory s t)) ∧
    (∀ k l g mx fo ls, heads s k (.core c) (.silent l g mx fo ls) → s.current c l g = true → s.draining c l = false →
      ∃ t, exec (.silentNotice k) s = .next t ∧ sameMemory s t ∧
        t.slotAt c l = (if mx then { s.slotAt c l with cnttl := (s.slotAt c l).cnttl - 1 }
          else { s.slotAt c l with cntcp := (s.slotAt c l).cntcp - 1 }))

/-- A channel home records channels and instances, and follows moves, landings and retirements (R173, R174, R289,
R291, R292, R294, R296, spec/15_channels_and_rings.md Table 15-1). -/
def Obligations.channel_homes_record_creations_and_moves : Prop :=
  ∀ (s : State) (h : Nat) (p : Packet) (rest : List Packet), (s.homeAt h).q = p :: rest →
    let back : PairKey := { src := s.here (.home h), dst := p.src, cls := 0 }
    let runs : Instr → (State → Prop) → Prop := fun i post => ∃ t, exec i s = .next t ∧ (t.homeAt h).q = rest ∧
      sameMemory s t ∧ post t
    (∀ ident c c0, p.body = .chCreate ident c → p.src.agent = .core c0 →
      ((s.homeAt h).chans.length < 512 → s.entryAt h ident = none → runs (.channelCreationRequest h) (fun t =>
        (∃ e, (t.homeAt h).chans = (s.homeAt h).chans ++ [e] ∧ e.ident = ident ∧ e.state = .settled ∧ e.gen = 0 ∧
          e.holder = locOf p.src.peer c ∧ e.insts = [Inst.new 0 e.holder] ∧ e.made = 1) ∧
        lastIs t back (.chCreated ident true))) ∧
      (512 ≤ (s.homeAt h).chans.length ∨ (s.entryAt h ident).isSome = true → runs (.channelCreationRequest h) (fun t =>
        (t.homeAt h).chans = (s.homeAt h).chans ∧ lastIs t back (.chCreated ident false)))) ∧
    (∀ ident e, s.entryAt h ident = some e →
      (∀ c, p.body = .chInst ident c → e.live.length < 255 → e.inst e.made = none → runs (.instanceAllocation h) (fun t =>
        t.entryAt h ident = some { e with made := e.made + 1, insts := e.insts ++ [Inst.new e.made (locOf p.src.peer c)] } ∧
        lastIs t back (.instReply ident (some e.made) e.gen (e.holder % 8192) (BitVec.ofNat 12 (e.holder / 8192))
          (decide (e.state = .closed))))) ∧
      (∀ c, p.body = .chInst ident c → 255 ≤ e.live.length → ∃ t, exec (.instanceAllocation h) s = .next t ∧
        t.entryAt h ident = some e ∧ ∃ r, (netGet t.mach.net back).getLast? = some r ∧
          ∃ g l lp d, r.body = .instReply ident none g l lp d) ∧
      (∀ g, p.body = .moving ident none g → runs (.movingNotice h) (fun t =>
        t.entryAt h ident = some (if e.state ≠ .closed ∧ g = e.gen.toNat then { e with state := .carried } else e))) ∧
      (∀ n g, p.body = .moving ident (some n) g → runs (.movingNotice h) (fun t =>
        t.entryAt h ident = some (e.updInst n (fun i => if i.landed < g then { i with holder := none, moved := g } else i)))) ∧
      (∀ loc g, p.body = .landing ident none loc g → e.state ≠ .closed → g ≠ (e.gen + 1).toNat → runs (.landingNotice h) (fun t =>
        t.entryAt h ident = some { e with early := e.early ++ [(loc, g)] })) ∧
      (∀ loc, p.body = .landing ident none loc (e.gen + 1).toNat → e.state ≠ .closed → e.early = [] → runs (.landingNotice h) (fun t =>
        (∃ u, t.entryAt h ident = some u ∧ u.state = .redirecting ∧ u.holder = loc ∧ u.gen = e.gen + 1 ∧
          u.rounds = e.rounds ++ [(e.holder, e.gen)]) ∧
        ∀ i ∈ e.live, ∀ x, i.holder = some x → ∃ r ∈ netGet t.mach.net { src := s.here (.home h), dst := locPlace x, cls := 0 },
          r.body = .redirect ident i.num loc (e.gen + 1))) ∧
      (∀ n i loc g, p.body = .landing ident (some n) loc g → e.inst n = some i → i.closed = false → i.landed < g → i.moved ≤ g →
        runs (.landingNotice h) (fun t => ∃ u, t.entryAt h ident = some u ∧
          u.inst n = some { i with holder := some loc, owes := [], credits := 0, dead := false, landed := g })) ∧
      (∀ g, p.body = .retired ident g → runs (.stubRetirement h) (fun t =>
        ∃ u, t.entryAt h ident = some u ∧ u.rounds = e.rounds.filter (fun r => r.2 ≠ g) ∧
          (e.state = .redirecting → u.state = if u.rounds = [] then .settled else .redirecting))))

/-- A channel home counts closed instances, sends the final notice, tells the holders of a closed end, and redirects
stray messages (R180, R186, R187, R299). -/
def Obligations.channel_homes_close_ends_and_return_messages : Prop :=
  ∀ (s : State) (h : Nat) (p : Packet) (rest : List Packet), (s.homeAt h).q = p :: rest →
    let told : State → Nat → Body → Prop := fun t loc b =>
      ∃ r ∈ netGet t.mach.net { src := s.here (.home h), dst := locPlace loc, cls := 0 }, r.body = b
    (∀ ident e, s.entryAt h ident = some e →
      (∀ n i, p.body = .chClose ident n → e.inst n = some i →
        let e1 := e.updInst n (fun i => { i with closed := true, holder := none, owes := [] })
        (e1.live ≠ [] → ∃ t, exec (.closeNotice h) s = .next t ∧ t.entryAt h ident = some e1 ∧ sameMemory s t) ∧
        (e1.live = [] → e.state ≠ .closed → e.finalSent = false → ∃ t, exec (.closeNotice h) s = .next t ∧
          t.entryAt h ident = some { e1 with finalSent := true } ∧ told t e.holder (.final ident e.made) ∧ sameMemory s t)) ∧
      (∀ cr, p.body = .recvClose ident cr →
        (e.live ≠ [] → ∃ t u, exec (.closeNotice h) s = .next t ∧ t.entryAt h ident = some u ∧ u.state = .closed ∧
          u.rounds = [] ∧ sameMemory s t ∧
          ∀ i ∈ e.live, ∀ x, i.holder = some x → told t x (.peerClosed ident i.num)) ∧
        (e.live = [] → ∃ t, exec (.closeNotice h) s = .next t ∧ t.entryAt h ident = none ∧ sameMemory s t)) ∧
      (∀ m, p.body = .returned m → m.ident = ident → e.state ≠ .closed → m.kind ≠ .closeMarker →
        ∃ t, exec (.mismatchedMessageReturn h) s = .next t ∧ sameMemory s t ∧
          lastIs t { src := s.here (.home h), dst := locPlace e.holder, cls := m.cls } (.msg { m with gen := e.gen, fwd := true }))) ∧
    (∀ m, p.body = .returned m → s.entryAt h m.ident = none → ∃ t, exec (.mismatchedMessageReturn h) s = .next t ∧
      t.job.dropped = if m.kind = .data ∨ m.kind = .dataEnd then min (s.job.dropped + 1) (2 ^ 32 - 1) else s.job.dropped)

/-- An arriving message is held for its instance, kept by a stub or sent back; the next in sequence is released; a
bound one becomes a task (R29, R173, R179, R180, R183, R185, R258, R291). -/
def Obligations.cores_check_release_and_dispatch_messages : Prop :=
  ∀ (s : State) (c : Nat),
    let k := s.coreAt c
    (∀ m rest, k.arrivals = m :: rest →
      (k.ends.any (fun e => decide (e.ident = m.ident) && decide (e.gen = m.gen)) = true → m.kind = .data →
        ∃ t, exec (.messageArrival c) s = .next t ∧ (t.coreAt c).arrivals = rest ∧ sameMemory s t ∧
          ∃ a ∈ (t.coreAt c).areas, isArea m.ident m.inst a = true ∧ m ∈ a.held) ∧
      (k.ends.any (fun e => decide (e.ident = m.ident) && decide (e.gen = m.gen)) = false →
        (∀ st, k.stubs.find? (isStub m.ident m.gen) = some st → st.msgs.length < 64 →
          ∃ t, exec (.messageArrival c) s = .next t ∧ sameMemory s t ∧
            (t.coreAt c).stubs.find? (isStub m.ident m.gen) = some (st.take m)) ∧
        (k.stubs.find? (isStub m.ident m.gen) = none → ∃ t, exec (.messageArrival c) s = .next t ∧ sameMemory s t ∧
          lastIs t { src := s.here (.core c), dst := s.chanHome m.home m.ident, cls := 0 } (.returned m)))) ∧
    (∀ ident inst a m r, k.areas.find? (isArea ident inst) = some a → a.busy = false → a.waiting = false → c ≠ eqxCore →
      a.held = m :: r → m.seq = a.next → m.kind = .data → (k.queue m.cls).length < 16 → inst ≠ countOnly → k.inOrder m = true →
      ∃ t, exec (.messageRelease c ident inst) s = .next t ∧ sameMemory s t ∧
        (t.coreAt c).queue m.cls =
          k.queue m.cls ++ [.chan m (decide (a.seg ≠ 0)) (decide (a.seg = 1)) (a.seg - 1)] ∧
        (t.coreAt c).areas.find? (isArea ident inst) =
          some { a with next := a.next + 1, held := r, busy := true }) ∧
    (∀ cls m sb se left q off lv, k.takeItem cls k.forHandler = some (.chan m sb se left, q) →
      k.binding m = (some off, lv) → m.carried = none → m.kind = .data →
      (s.stopped = false → s.entered off cls = true → s.cancelPending lv = false → s.countFull (s.countLevel lv) = false →
        s.runRoom c = true →
        ∃ t e, exec (.handlerTaskCreate c cls) s = .next t ∧ (t.coreAt c).runq = k.runq ++ [e] ∧ e.kind = .handler ∧
          e.cls = cls ∧ e.level = s.countLevel lv ∧ e.pc = s.job.code + BitVec.ofNat 64 off ∧
          e.regs = handlerRegs (opcodeWord m sb se off) (readPayload m) ∧ e.segleft = BitVec.ofNat 64 left ∧ sameMemory s t ∧
          ∃ r ∈ netGet t.mach.net { src := s.here (.core c), dst := m.src, cls := 0 }, r.body = .credit m.ident m.inst) ∧
      (s.stopped = false → s.entered off cls = false → ∃ t r, exec (.handlerTaskCreate c cls) s = .next t ∧ (t.coreAt c).runq = k.runq ∧
        t.eqx.lane0 = s.eqx.lane0 ++ [r] ∧ r.cause = 0x085 ∧ sameMemory s t) ∧
      (s.stopped = false → s.entered off cls = true → s.cancelPending lv = true → ∃ t, exec (.handlerTaskCreate c cls) s = .next t ∧
        (t.coreAt c).runq = k.runq ∧ t.eqx = s.eqx ∧ sameMemory s t)) ∧
    (∀ q ident r reqs, heads s q (.core c) (.chCreated ident true) →
      takeFirst (fun (r : ChanReq) => !r.dup && decide (r.ident = ident)) k.reqs = some (r, reqs) →
      s.current c r.slot r.gen = true → s.draining c r.slot = false → r.hd ≠ r.ha →
      ∃ t, exec (.channelCreationReply q) s = .next t ∧ (t.slotAt c r.slot).rh r.hd = newSend s.part.peer c ident ∧
        (t.slotAt c r.slot).rh r.ha = newRecv s.part.peer c ident ∧ (t.slotAt c r.slot).phase = .ready ∧
        (t.slotAt c r.slot).pc = (s.slotAt c r.slot).pc + 4 ∧ (t.coreAt c).reqs = reqs ∧ sameMemory s t)

/-- Credits, closures and redirects act at an instance's holder; stubs forward, learn fences and hand over (R179,
R186, R187, R290, R292, R293, R294, R295). Which instances wait for a handover (log 24, 26) and where a notice goes
that finds its end gone (log 67) are the model's readings. -/
def Obligations.holders_follow_notices_and_stubs_forward : Prop :=
  ∀ (s : State) (c : Nat) (k : PairKey) (ident : Word) (inst : Nat), c ≠ eqxCore →
    let q := s.coreAt c
    let popped := s.popNet k
    (∀ x, s.instAt c ident inst = some x →
      (heads s k (.core c) (.credit ident inst) → exec (.creditReturn k) s =
        .next (popped.updInst c ident inst (fun h => { h with credits := min 64 (h.credits + 1) }))) ∧
      (heads s k (.core c) (.peerClosed ident inst) → exec (.peerClosedNotice k) s =
        .next (popped.updInst c ident inst (fun h => { h with dead := true }))) ∧
      (∀ loc g, heads s k (.core c) (.redirect ident inst loc g) → g ≠ x.gen + 1 → exec (.redirect k) s =
        .next (popped.post (.core c) (s.chanHome (s.noticeHome ident k) ident) 0 (.redirect ident inst loc g) 0 0)) ∧
      (∀ loc g, heads s k (.core c) (.redirect ident inst loc g) → g = x.gen + 1 → exec (.redirect k) s =
        .next ((popped.post (.core c) (locPlace (locOf x.locPeer x.loc)) 0 (.fence ident inst x.gen ((x.seq : Int) - 1)) 0 0).updInst
          c ident inst (fun h => { h with gen := g, loc := loc % 8192, locPeer := BitVec.ofNat 12 (loc / 8192) })))) ∧
    (∀ n, heads s k (.core c) (.final ident n) → q.ends.any (fun e => e.ident = ident) = true →
      ∃ t, exec (.finalNotice k) s = .next t ∧ sameMemory s t ∧
        ∃ e ∈ (t.coreAt c).ends, e.ident = ident ∧ e.final = some n) ∧
    (∀ g st d m r, q.stubs.find? (isStub ident g) = some st → st.dest = some d → st.msgs = m :: r →
      ∃ t, exec (.stubForward c ident g) s = .next t ∧ sameMemory s t ∧
        ∃ p ∈ netGet t.mach.net { src := s.here (.core c), dst := locPlace d.1, cls := m.cls },
          p.body = .msg { m with gen := d.2, fwd := true }) ∧
    (∀ g f st, heads s k (.core c) (.fence ident inst g f) → q.stubs.find? (isStub ident g) = some st → st.dest = none →
      ∃ t, exec (.fenceMarker k) s = .next t ∧ sameMemory s t ∧
        (t.coreAt c).stubs.find? (isStub ident g) = some { st with fences := st.fences ++ [(inst, f)] }) ∧
    (∀ g f st d, heads s k (.core c) (.fence ident inst g f) → q.stubs.find? (isStub ident g) = some st → st.dest = some d →
      st.named = [inst] → st.allNamed = true → st.msgs = [] → st.handed = [] → (∀ a ∈ st.areas, a.inst = inst) →
      st.accounted inst f = true → st.has inst = true →
      let a := st.areas.head?.getD (newArea st.ident inst false)
      let mine : InItem → Bool := fun i => match i with
        | .chan m _ _ _ => decide (m.ident = st.ident) && decide (m.gen = st.gen) && decide (m.inst = inst) && m.kind != .closure
        | _ => false
      let sends : State → Place → Nat → Body → Prop := fun t dst cls b =>
        let key : PairKey := { src := s.here (.core c), dst := dst, cls := cls }
        ∃ new, netGet t.mach.net key = netGet popped.mach.net key ++ new ∧ b ∈ new.map (·.body)
      let hands : Nat → Nat → Prop := fun start seg => ∃ t, exec (.fenceMarker k) s = .next t ∧ sameMemory s t ∧
        (t.coreAt c).stubs = q.stubs.filter (fun u => !isStub ident g u) ∧
        sends t (locPlace d.1) 0 (.handover st.ident inst d.2 start seg a.closed st.closes) ∧
        sends t (s.chanHome st.home ident) 0 (.retired ident g) ∧
        ∀ m segin segend left k1, q.withdraw mine = some (.chan m segin segend left, k1) →
          sends t (locPlace d.1) m.cls (.msg { m with gen := d.2, fwd := true })
      (q.withdraw mine = none → hands a.next a.seg) ∧
      (∀ m segin segend left k1, q.withdraw mine = some (.chan m segin segend left, k1) →
        hands m.seq a.seg)) ∧
    (∀ g start seg cl n, heads s k (.core c) (.handover ident inst g start seg cl n) → inst ≠ countOnly →
      q.ends.any (fun e => decide (e.ident = ident) && decide (e.gen = g)) = true →
      (∀ a ∈ q.areas, isArea ident inst a = true → a.waiting = true) →
      ∃ t, exec (.handoverMarker k) s = .next t ∧ sameMemory s t ∧
        ∃ a ∈ (t.coreAt c).areas, isArea ident inst a = true ∧ a.waiting = false ∧ start ≤ a.next ∧
          ((∀ b ∈ q.areas, isArea ident inst b = true → ∀ m ∈ b.held, m.kind = .data) → a.next = start ∧ a.seg = seg))

/-- Slots are filled from the run queue or by draws, old entries rise, loads are shared, tasks move, and watchdogs and
waits end (R18, R28, R251, R254, R255, R256, R264, R265, R266, R270, R271, R337). Which core of the asking cluster
gets a donated entry is the model's choice (log 63), how the send ends of a task that leaves travel its reading (log
64). -/
def Obligations.schedulers_fill_draw_age_and_expire : Prop :=
  ∀ (s : State) (c l : Nat),
    let k := s.coreAt c
    let runs : Instr → (State → Prop) → Prop := fun i post => ∃ t, exec i s = .next t ∧ sameMemory s t ∧ post t
    (s.freeSlot c = some l → s.running.isSome = true → s.stopped = false → s.part.coreLive c = true →
      (isCompute c = true → s.mach.coStarts = []) →
      (∀ e rest, nextEntry k.runq = some (e, rest) → runs (.slotFill c) (fun t =>
        (t.coreAt c).runq = rest ∧ (t.slotAt c l).phase = .ready ∧ (t.slotAt c l).gen = (s.slotAt c l).gen + 1 ∧
        (t.slotAt c l).pc = e.pc ∧ (t.slotAt c l).tvec = e.tvec ∧ (t.slotAt c l).gridpt = e.gridpt ∧
        (t.slotAt c l).jobid = s.job.tag ∧ (t.slotAt c l).tgenx = e.tgenx.getD s.job.tgen ∧ (t.slotAt c l).cause = 0 ∧ (t.slotAt c l).v = Vector.replicate 32 0 ∧
        (t.slotAt c l).task.level = e.level ∧ (e.regs = [] → (t.slotAt c l).x = Vector.replicate 32 0))) ∧
      (nextEntry k.runq = none → isCompute c = true → k.drawing = none → k.idle = false → s.indicesLeft = true →
        runs (.slotFill c) (fun t => (t.coreAt c).drawing = some l ∧ (t.coreAt c).drawnAt = s.mach.starts ∧
          lastIs t (queueOf s (.core c) (.drawUnit (dieOf (tileOf c))) 0) (.draw c l 0)))) ∧
    (∀ die p rest r, s.stopped = false → (s.drawAt die).q = p :: rest → firstRange (s.drawAt die).ranges = some r →
      (p.body = .draw c l 0 → runs (.draw die) (fun t => (t.drawAt die).q = rest ∧
        (t.drawAt die).ranges = putRange (s.drawAt die).ranges { r with next := r.next + 1 } ∧
        lastIs t (queueOf s (.drawUnit die) (.core c) 0) (.drawn l (some (r.lrec, r.next))))) ∧
      (∀ n, p.body = .draw c l (n + 1) → runs (.steal die) (fun t => (t.drawAt die).q = rest ∧
        (t.drawAt die).ranges = putRange (s.drawAt die).ranges { r with stop := r.stop - 1 } ∧
        lastIs t (queueOf s (.drawUnit die) (.core c) 0) (.drawn l (some (r.lrec, r.stop - 1)))))) ∧
    (∀ q, s.stopped = false → (heads s q (.core c) (.drawn l none) → runs (.drawReply q) (fun t =>
        (t.coreAt c).idle = decide (k.drawnAt = s.mach.starts) ∧ (t.coreAt c).drawing = none)) ∧
      (∀ r i, heads s q (.core c) (.drawn l (some (r, i))) → runs (.drawReply q) (fun t =>
        (t.coreAt c).drawing = none ∧ (t.slotAt c l).phase = .ready ∧
        (t.slotAt c l).launchid = BitVec.ofNat 64 r ∧ (t.slotAt c l).gridpt = gridPoint (s.levelAt r).grid i))) ∧
    (∀ e rest, k.runq = e :: rest → 2 ≤ e.cls → e.since + 65536 < s.mach.clock → runs (.runQueueAgeing c) (fun t =>
      (t.coreAt c).runq = rest ++ [{ e with cls := e.cls - 1, since := s.mach.clock }])) ∧
    (s.mach.summaryAt + 4096 ≤ s.mach.clock → runs .loadSummary (fun t => t.mach.summaryAt = s.mach.clock ∧
      ∀ cl, cl < 64 → (t.clusterAt cl).load = s.clusterLoad cl)) ∧
    (∀ a v, s.stopped = false → a < 64 → v < 64 → v ≠ a → v / 16 = a / 16 → (s.clusterAt a).mayDonate = true → s.clusterLoad a = 0 →
      (∀ x, x < 64 → x ≠ a → (s.clusterAt x).load ≤ (s.clusterAt v).load) → 0 < (s.clusterAt v).load →
      8 ≤ (((s.clusterCores a).filter isCompute).map
        (fun y => ((List.range 4).filter (fun i => s.openSlot y i)).length)).sum →
      runs (.workDonation a v) (fun t => (t.clusterAt a).mayDonate = false ∧
        t = (s.ship a v 8).updCluster a (fun q => { q with mayDonate := false }))) ∧
    (∀ peer pa, s.stopped = false → s.wantsMove c l = some (peer, pa) →
      (let asked : Option (Option (Nat × Nat)) → Ask := fun r =>
        { core := c, sl := l, gen := (s.slotAt c l).gen, peer := peer, pa := pa, answer := r }
       ((∀ a ∈ s.mach.asks, a.core ≠ c ∨ a.sl ≠ l) → runs (.taskMigration c l) (fun t =>
        t.mach.asks = s.mach.asks ++ [asked none] ∧ t.slotAt c l = s.slotAt c l ∧
        lastIs t { src := s.here .armature, dst := { peer := peer, agent := .armature }, cls := 1 } (.reserve pa))) ∧
       (∀ to_ rest, s.mach.asks = asked (some (some to_)) :: rest → runs (.taskMigration c l) (fun t =>
        t.mach.asks = rest ∧ (t.slotAt c l).phase = .free ∧ (t.slotAt c l).h = Vector.replicate 16 Handle.none ∧
        (t.slotAt c l).gen = (s.slotAt c l).gen ∧
        ∃ out levels, lastIs t { src := s.here (.core c), dst := { peer := peer, agent := .core to_.1 }, cls := 1 }
          (.context out levels) ∧ out.x = (s.slotAt c l).x ∧ out.v = (s.slotAt c l).v ∧ out.m = (s.slotAt c l).m ∧
          out.pc = (s.slotAt c l).pc ∧ out.tgenx = (s.slotAt c l).tgenx ∧ out.h = (s.slotAt c l).h.map moved)) ∧
       (∀ rest, s.mach.asks = asked (some none) :: rest → runs (.taskMigration c l) (fun t => t.mach.asks = rest ∧
        t.slotAt c l = { s.slotAt c l with
          task := { (s.slotAt c l).task with move := none, stay := some (s.slotAt c l).pc } })))) ∧
    (∀ x rest, s.mach.transits = { core := c, sl := l, slot := some x } :: rest → s.stopped = false →
      (s.slotAt c l).phase = .free → isCompute c = true → (∀ k ∈ s.chain 8 x.task.level, (s.levelAt k).dead = false) →
      runs (.migrationArrival c l) (fun t =>
        t.mach.transits = rest ∧ t.slotAt c l = { x with
          gen := (s.slotAt c l).gen + 1, phase := .ready, wake := false, cntld := 0, cntst := 0, cntcp := 0, cnttl := 0
          stc := 0, stp := 0, stx := 0, task := { x.task with wdStart := s.mach.clock - x.task.wdStart } })) ∧
    (s.stopped = false → l < slotCount c → (s.slotAt c l).phase ≠ .free → (s.slotAt c l).task.expired = false →
      2 ^ s.eqx.wdlog ≤ (s.slotAt c l).task.age s.mach.clock → runs (.watchdogExpiry c l) (fun t =>
        ((t.slotAt c l).phase = .draining ∨ (t.slotAt c l).phase = .free) ∧ (t.slotAt c l).task.expired = true ∧
        ∃ r, t.eqx.lane1 = s.eqx.lane1 ++ [r] ∧ r.cause = 0x186 ∧ r.slot = l ∧ r.unit = c)) ∧
    (∀ d, (s.slotAt c l).phase = .blocked (.wfi d) → d ≤ s.mach.clock → exec (.wfiTimeout c l) s =
      .next (s.updSlotAt c l (fun sl => { sl with phase := .ready, pc := sl.pc + 4 })))

/-- A step moves every A slot clockwise, every B slot counter-clockwise and B over the trailing slot, when all have
contributed and no lease is held (R38, R192, R303, R339). That the full bits of the slots stay in place (log 30) and
that one step copies and looks up (log 71) are the model's readings. -/
def Obligations.a_step_of_a_sub_ring_rotates_its_slots : Prop :=
  ∀ (s : State) (cl sub : Nat), memoryWf s →
    let k := s.clusterAt cl
    let ts := s.subRing cl sub
    let n := ts.length
    let pos : Nat → Nat := fun p => ts.getD (p % n) 0
    s.stopped = false → cl < 64 → sub * k.ring < 16 → (k.ring = 4 ∨ k.ring = 8 ∨ k.ring = 16) → ts ≠ [] →
    (∀ x ∈ ts, 0 < (s.tileAt x).contributions ∧ s.leaseFree x = true) →
    ∃ t, exec (.step cl sub) s = .next t ∧
      (∀ p i, p < n → i < 0x10000 →
        t.byte (friezeAt (pos p) 2 + i) = s.byte (friezeAt (pos p) 1 + i) ∧
        t.byte (friezeAt (pos p) 0 + i) = s.byte (friezeAt (pos (p + n - 1)) 0 + i) ∧
        t.byte (friezeAt (pos p) 1 + i) = s.byte (friezeAt (pos (p + 1)) 1 + i)) ∧
      (∀ a, (∀ x ∈ ts, a < friezeAt x 0 ∨ friezeAt x 0 + 0x30000 ≤ a) → t.byte a = s.byte a) ∧
      (∀ x ∈ ts, (t.tileAt x).contributions = (s.tileAt x).contributions - 1)

/-- Host writes to launch ports arm and start levels and create tasks; other writes are counted and those for no job
dropped (R262, R263, R316, R319, R320, R322, R325, spec/21_host_and_launch.md Table 21-4). -/
def Obligations.launch_ports_arm_start_and_create_tasks : Prop :=
  ∀ (s : State) (j k : Nat) (d : VWord),
    let w : PortSrc := .hostWrite j k 64 d
    let v := s.levelAt k
    (∀ size, AMap.get s.jobs j = none → exec (.start (.hostWrite j k size d)) s = .next s) ∧
    (∀ size, (AMap.get s.jobs j).isSome = true → s.keeps j = true → s.logFull j = false → ∃ t, exec (.start (.hostWrite j k size d)) s = .next t ∧
      (t.jobAt j).hostLog = (s.jobAt j).hostLog ++ [.port k size d] ∧ t.mach = s.mach) ∧
    ((AMap.get s.jobs j).isSome = true → s.keeps j = false → s.portFenced j k = true → exec (.start w) s = .next s) ∧
    ((AMap.get s.jobs j).isSome = true → s.keeps j = false → s.portFenced j k = false → (s.jobAt j).hcount ≤ k → ∃ t, exec (.start w) s = .next t ∧
      (t.jobAt j).badwr = min ((s.jobAt j).badwr + 1) (2 ^ 32 - 1) ∧ t.mach = s.mach) ∧
    ((AMap.get s.jobs j).isSome = true → s.keeps j = false → s.portFenced j k = false → k < (s.jobAt j).hcount →
      (portOp d ≠ 0x20 → portOp d ≠ 0x21 → portOp d ≠ 0x22 → ∃ t, exec (.start w) s = .next t ∧
        (t.jobAt j).badwr = min ((s.jobAt j).badwr + 1) (2 ^ 32 - 1) ∧ t.mach = s.mach) ∧
      (portOp d = 0x20 →
        (v.state = 1 → 1 < v.start → ∃ t, exec (.start w) s = .next t ∧ t.levelAt k = { v with start := v.start - 1 }) ∧
        (v.state = 1 → v.start ≤ 1 → v.cp = false → v.count ≠ 0 → v.level ≠ 1 → ∃ t, exec (.start w) s = .next t ∧
          t.levelAt k = { v with start := v.start - 1, state := 2, order := s.mach.starts }) ∧
        (v.state = 1 → v.start ≤ 1 → v.cp = false → v.count ≠ 0 → v.level = 1 → v.cores = false →
          (∃ die, die < 4 ∧ s.part.dieTiles die ≠ []) →
          ∃ t, ∃ low : Nat → Nat, exec (.start w) s = .next t ∧ (t.levelAt k).state = 2 ∧
            low 0 = 0 ∧ low 4 = gridSize v.grid ∧ ∀ die, die < 4 → low die ≤ low (die + 1) ∧
              (s.part.dieTiles die = [] → low (die + 1) = low die ∧ (t.drawAt die).ranges = (s.drawAt die).ranges) ∧
              (s.part.dieTiles die ≠ [] → (t.drawAt die).ranges = (s.drawAt die).ranges ++
                [{ lrec := k, order := s.mach.starts, next := low die, stop := low (die + 1) }])) ∧
        (v.state = 0 ∨ (v.state = 3 ∧ (s.readRecord k).2 ≠ 3) → ∃ t, exec (.start w) s = .next t ∧
          (t.jobAt j).badwr = min ((s.jobAt j).badwr + 1) (2 ^ 32 - 1)) ∧
        (v.state = 2 ∨ (v.state = 3 ∧ (s.readRecord k).2 = 3) → ∃ t, exec (.start w) s = .next t ∧
          t.levelAt k = { v with late := min (v.late + 1) (2 ^ 16 - 1) })) ∧
      (portOp d = 0x21 →
        let b := s.beforeArm k
        let u := b.levelAt k
        let r := (b.readRecord k).1
        (b.armable k r (b.readRecord k).2 = false → ∃ t, exec (.arm w) s = .next t ∧
          (t.jobAt j).badwr = min ((s.jobAt j).badwr + 1) (2 ^ 32 - 1) ∧ t.mach.levels = b.mach.levels) ∧
        (b.armable k r (b.readRecord k).2 = true → b.countFull r.parent = false → b.cancelPending r.parent = false →
          u.state = 0 → u.cp = false → r.level ≠ 1 → u.count < 2 ^ 32 → r.start ≠ 0 → r.parent ≠ k → ∃ t, exec (.arm w) s = .next t ∧
            t.levelAt k = { r with state := 1, count := u.count, inc := u.inc, cpAt := none } ∧
            (t.levelAt r.parent).count = (b.levelAt r.parent).count + 1)) ∧
      (portOp d = 0x22 → k = 0 →
        let u := taskWord d
        let core := bitsOf u.toNat 44 32
        let off := bitsOf u.toNat 31 0
        bitsOf u.toNat 55 45 = 0 → s.part.coreLive core = true → s.entered off 0 = true →
          ∃ t, exec (.task w) s = .next t ∧ sameMemory s t ∧ lastIs t (queueOf s .equinox (.core core) 0)
            (.task (BitVec.ofNat 64 (0x10 * 2 ^ 56 + 6 * 2 ^ 53 + off)) (taskPayload d) none)))

/-- Counts rise and fall at a level's home, a level at zero completes into its parent, a cancel marks the level and
its tasks end at the deadline (R245, R251, R258, R259, R260, R268, R269, R322, spec/13_execution_model.md Table 13-4).
That a cancel reaches every core in its step is the model's reading (log 65). -/
def Obligations.levels_count_complete_and_cancel : Prop :=
  ∀ (s : State) (h : Nat) (p : Packet) (rest : List Packet),
    ((s.homeAt h).q = p :: rest →
      (∀ k, p.body = .count k true →
        ((s.levelAt k).count < 2 ^ 32 - 1 → ∃ t, exec (.countChange h) s = .next t ∧ (t.homeAt h).q = rest ∧
          t.levelAt k = { s.levelAt k with count := (s.levelAt k).count + 1 }) ∧
        (2 ^ 32 - 1 ≤ (s.levelAt k).count → ∃ t r, exec (.countChange h) s = .next t ∧ (t.homeAt h).q = rest ∧
          t.levelAt k = { s.levelAt k with owed := (s.levelAt k).owed + 1 } ∧ t.eqx.lane0 = s.eqx.lane0 ++ [r] ∧ r.cause = 0x185 ∧ r.index = k % 2 ^ 32)) ∧
      (∀ key, p.body = .farCount key true →
        let k := s.levelNamed key
        (s.levelAt k).count < 2 ^ 32 - 1 → ∃ t, exec (.countChange h) s = .next t ∧ (t.homeAt h).q = rest ∧
          t.levelAt k = { s.levelAt k with count := (s.levelAt k).count + 1 }) ∧
      (∀ k, p.body = .count k false →
        let v := s.levelAt k
        (v.owed ≠ 0 → ∃ t, exec (.countChange h) s = .next t ∧ t.levelAt k = { v with owed := v.owed - 1 }) ∧
        (v.owed = 0 → 2 ≤ v.count → ∃ t, exec (.countChange h) s = .next t ∧ t.levelAt k = { v with count := v.count - 1 }) ∧
        (v.owed = 0 → v.count = 1 → k ≠ 0 → k < 2 ^ 32 → v.state = 2 → v.tkind ≠ 2 → v.parent ≠ k → 2 ≤ (s.levelAt v.parent).count →
          ∃ t, exec (.countChange h) s = .next t ∧ (t.levelAt k).state = 3 ∧ (t.levelAt k).count = 0 ∧
            (t.levelAt v.parent).count = (s.levelAt v.parent).count - 1)) ∧
      (∀ k, p.body = .cancelReq k →
        let b := s.freshen k
        let v := b.levelAt k
        (v.state = 3 ∨ v.cp = true → ∃ t, exec (.cancelRequest h) s = .next t ∧ t.mach.levels = s.mach.levels ∧
          t.mach.slots = s.mach.slots) ∧
        (v.state = 0 → v.cp = false → v.level = 0 → ∃ t, exec (.cancelRequest h) s = .next t ∧ (t.levelAt k).cp = true ∧
          (t.levelAt k).cpAt = some s.mach.clock) ∧
        (v.state ≠ 3 → v.cp = false → v.level ≠ 0 → ∃ t, exec (.cancelRequest h) s = .next t ∧
          (t.levelAt k).cpAt = some s.mach.clock ∧ (∀ i ∈ b.underLevel k, (t.levelAt i).cp = true) ∧ k ∈ b.underLevel k ∧
          ∀ c, ∀ e ∈ (t.coreAt c).runq, ∃ d ∈ (s.coreAt c).runq, d.level ∉ b.underLevel k ∧ e = { d with level := e.level }))) ∧
    (∀ die k o, (s.drawAt die).q = p :: rest → p.body = .removal k o →
      let mine : Range → Bool := fun r => decide (r.lrec = k) && decide (r.order = o)
      ∃ t, exec (.removalNotice die) s = .next t ∧
        (t.drawAt die).ranges = (s.drawAt die).ranges.filter (fun r => !mine r) ∧
        (t.levelAt k).undrawn = (s.levelAt k).undrawn +
          (((s.drawAt die).ranges.filter mine).map (fun r => r.stop - r.next)).sum) ∧
    (∀ k at_, s.stopped = false → (s.levelAt k).cpAt = some at_ → s.doomed k ≠ [] →
      at_ + 2 ^ (if (s.levelAt k).cdl = 0 then 20 else (s.levelAt k).cdl) ≤ s.mach.clock →
      ∃ t, exec (.cancelDeadline k) s = .next t ∧ ∀ e ∈ s.doomed k,
        (t.slotAt e.1 e.2.1).phase = .draining ∨ (t.slotAt e.1 e.2.1).phase = .free) ∧
    (∀ k st q, s.mach.hQueue = (k, st) :: q →
      (s.ownH = none → s.hLives = false → ∃ t, exec .hCompletion s = .next t ∧ t.mach.hQueue = q ∧ t.mach.net = s.mach.net) ∧
      (∀ e u, s.ownH = some (e, u) →
        (e.dead = true → ∃ t, exec .hCompletion s = .next t ∧ t.mach.hQueue = q ∧ t.mach.net = s.mach.net) ∧
        (e.dead = false → 0 < e.credits → ∃ t m, exec .hCompletion s = .next t ∧ t.mach.hQueue = q ∧
          t.mach.hSend.credits = e.credits - 1 ∧ t.mach.hSend.seq = e.seq + 1 ∧
          lastIs t { src := s.here (.core eqxCore), dst := locPlace (locOf e.locPeer e.loc), cls := 1 } (.msg m) ∧
          m.seq = e.seq ∧ m.payload[0] = st ∧ m.payload[1] = BitVec.ofNat 64 k)))

/-- Evaluations halve the counts and keep to 64 migrations, a switch moves the bytes, markers drain the old path,
seals complete, TLBs fill and drop (R57, R58, R163, R282, R284, R287, R288, R352, R353, R355). That the page is copied
in the step of its switch (log 14), what the operand of an evaluation names (log 45) and that a seal takes a whole
leaf (log 46) are the model's readings. -/
def Obligations.armature_places_pages_and_keeps_the_tlbs : Prop :=
  ∀ s : State,
    (∀ cs u, s.placeAt + 2 ^ 20 ≤ s.now → s.placeJobs cs [] (s.jobs.map (·.1)) = some u →
      ∃ t, exec (.evaluation cs) s = .next t ∧
      t.placeAt = s.now ∧ t.pages = u.pages.map (fun r => { r with
        dies := r.dies.map (· / 2), peers := r.peers.map (fun q => (q.1, q.2 / 2)) }) ∧
      (s.migrations.length ≤ 64 → t.migrations.length ≤ 64)) ∧
    (∀ old m, s.migrations.find? (fun m => m.old = old ∧ m.switched = false) = some m →
      ∃ t, exec (.migrationSwitch old) s = .next t ∧ (∀ x ∈ t.migrations, x.old = old → x.switched = true) ∧
        (m.peer = s.part.peer → memoryWf s → 2 ^ 14 ≤ m.new → m.new ≠ m.old →
          (∀ l ∈ s.leaves, l.addr + 32 ≤ m.new * 2 ^ 16 ∨ m.new * 2 ^ 16 + 2 ^ 16 ≤ l.addr) →
          ∀ i, i < 2 ^ 16 → t.dram.byte (m.new * 2 ^ 16 + i) = s.dram.byte (m.old * 2 ^ 16 + i))) ∧
    (∀ h p rest, (s.homeAt h).q = p :: rest →
      (∀ c old k m, p.body = .dropMarker c old k → c ≠ allCores →
        s.migrations.find? (fun m => m.old = old ∧ m.switched) = some m →
        ∃ t, exec (.dropMarker h) s = .next t ∧ sameMemory s t ∧ ∀ n ∈ s.newHomes m h, ∀ x ∈ sourcesOf p.src.peer c,
          ∃ r ∈ netGet t.mach.net { src := s.here (.home h), dst := { peer := m.peer, agent := .home n }, cls := 4 },
            r.body = .drainMarker x c old (viaOf s.part.peer h)) ∧
      (∀ x c old via, p.body = .drainMarker x c old via → ∃ t, exec (.drainMarker h) s = .next t ∧ sameMemory s t ∧
        (∀ d, d ∈ (t.homeAt h).draining ↔ d ∈ (s.homeAt h).draining ∧
          ¬(d.src = x ∧ d.core = c ∧ d.old = old ∧ d.via = via)) ∧
        (c = allCores → ∀ d ∈ (t.homeAt h).far, ¬(d.peer = x.peer ∧ d.old = old ∧ d.via = via)))) ∧
    (∀ q rest, s.mach.seals = q :: rest → s.running.isSome = true →
      let done : State → Prop := fun t => t.mach.seals = rest ∧ (q.status = 0 ∧ q.treply.getLsbD 0 = true ∨
        lastIs t (queueOf s .armature (.core q.core) 1)
          (.completion q.treply (BitVec.ofNat 64 q.status) 0 0 false false q.level 0 []))
      (q.on = true → q.far = [] → s.shoots.any (fun x => x.why = .seal ∧ x.base = q.base ∧ x.len = q.len) = false →
        s.movingIn q.base q.len = false → ∃ t, exec .sealCompletion s = .next t ∧ done t ∧ sameMemory s t) ∧
      (q.on = false → q.far = [] → (q.status = 2 ∨ q.ending = true ∨ s.others = [] →
          ∃ t, exec .unsealCompletion s = .next t ∧ done t) ∧
        (q.status ≠ 2 → q.ending = false → s.others ≠ [] → ∃ t, exec .unsealCompletion s = .next t ∧
          t.mach.seals = { q with ending := true, far := s.others } :: rest))) ∧
    (∀ (c : Nat) (va : Word) (fetch : Bool), s.running.isSome = true → s.part.coreLive c = true → va.toNat < 2 ^ 56 →
      (if fetch then (s.coreAt c).itlb else (s.coreAt c).dtlb).any (fun e => e.page = va.toNat / 2 ^ 16) = false →
      ∃ t, exec (.pageWalk c va fetch) s = .next t ∧ sameMemory s t ∧
        ∀ e, (s.lookup c va.toNat fetch).2 = .ok e →
          (if fetch then (t.coreAt c).itlb else (t.coreAt c).dtlb).any (fun x => x.page = va.toNat / 2 ^ 16) = true) ∧
    (∀ c base len x, s.shoots.find? (fun x => x.base = base ∧ x.len = len ∧ x.left.contains (.core c)) = some x →
      (∀ q old, x.why = .migration q old → s.inPage c q old = false) → ∃ t, exec (.tlbShootdown (.core c) base len) s = .next t ∧
        sameMemory s t ∧ ∀ e ∈ (t.coreAt c).itlb ++ (t.coreAt c).dtlb, inRange base len e.page = false)

/-- Create, teardown, the steps of a gang switch, invalidate, attestation and the boot commands act and answer as
stated (R317, R318, R326, R338, R339, R340, R353, R356, R384, R386, R387, spec/21_host_and_launch.md Table 21-2).
Where an answer goes and what its second word holds are the model's choice (log 42). -/
def Obligations.commands_create_switch_and_end_jobs : Prop :=
  ∀ s : State, s.eqx.ready = true →
    let told : State → Peer → Body → Prop := fun t p b =>
      ∃ r ∈ netGet t.mach.net { src := s.here .equinox, dst := { peer := p, agent := .equinox }, cls := 0 }, r.body = b
    let only : State → Mach → Prop := fun t m => { t.mach with net := [] } = m ∧ ∀ k, ∀ p ∈ netGet t.mach.net k, p.job = 0
    (∀ rec j tag, j < 64 → AMap.get s.jobs j = none → AMap.get s.ended j = none → s.tagFree tag = true →
      (s.jobs = [] → s.eqx.disable.any (fun e => !e.applied) = false) → lpBase ≤ rec → rec + 128 ≤ lpBase + s.part.flatL →
      rec % 8 = 0 →
      (∀ n, s.badField rec = some n → exec (.create rec j tag) s = .next (s.eqxEvent 1 (BitVec.ofNat 64 n) s.time)) ∧
      (s.badField rec = none → ∃ t, exec (.create rec j tag) s = .next t ∧ (AMap.get t.jobs j).isSome = true ∧
        (t.jobAt j).tag = tag ∧ t.eqx.hostEvents = s.eqx.hostEvents ++ [(0, BitVec.ofNat 64 j, s.time)] ∧
        (s.running = none → s.switch = none → t.running = some j ∧ only t (newMach s.part tag)) ∧
        (s.running ≠ none → t.running = s.running ∧ t.mach = s.mach ∧
          AMap.get t.saved j = some (newMach s.part tag)))) ∧
    (∀ j, AMap.get s.jobs j = none → exec (.teardown j) s = .next (s.eqxEvent 1 (BitVec.ofNat 64 j) s.time)) ∧
    (∀ j jb, AMap.get s.jobs j = some jb → s.switch = none →
      (jb.tearing = false → ∃ t, exec (.teardown j) s = .next t ∧ (t.jobAt j).tearing = true) ∧
      (jb.tearing = true → (s.machOf j).quiet = true → ∃ t, exec (.teardown j) s = .next t ∧ AMap.get t.jobs j = none ∧
        AMap.get t.saved j = none ∧ (s.running = some j → t.running = none ∧ only t Mach.reset) ∧
        (((s.event j 0 (BitVec.ofNat 64 j)).jobAt j).evHeld ≠ [] →
          AMap.get t.ended j = some ((s.event j 0 (BitVec.ofNat 64 j)).jobAt j)))) ∧
    (∀ out into t0, s.switch = none → s.timeOk t0 = true → s.running = out → (out ≠ none ∨ into ≠ none) →
      (∀ j, out = some j ∨ into = some j → (AMap.get s.jobs j).isSome = true) → (into ≠ none → into ≠ out) →
      (out ≠ none → s.job.circ = none) →
      ∃ t, exec (.switch out into t0) s = .next t ∧ sameMemory s t ∧
        t.switch = some
          { out := out, into := into, t := t0, stage := if out.isSome then 0 else 3, resumeAt := t0
            server := s.part.peer, left := s.part.peer :: s.others, late := false } ∧
        ∀ p ∈ s.others, told t p (if out.isSome then .stopAt (s.tagOf out) (s.tagOf into) t0 else .resumeAt (s.tagOf into) t0)) ∧
    (∀ w, s.switch = some w →
      (∀ t0, s.timeOk t0 = true → w.late = true → w.server = s.part.peer → w.stage = 0 → s.job.circ = none →
        (∀ j, w.out = some j → (s.jobAt j).hostLog = []) → ∃ t, exec (.stopTimeLate t0) s = .next t ∧
          t.switch = some { w with t := t0, resumeAt := t0, late := false, left := s.part.peer :: s.others } ∧
          ∀ p ∈ s.others, told t p (.switchWithdrawn true) ∧ told t p (.stopAt (s.tagOf w.out) (s.tagOf w.into) t0)) ∧
      (w.stage = 0 → w.late = false → w.t.toNat ≤ s.time.toNat → exec .switchOut s = .next { s with switch := some { w with stage := 1 } }) ∧
      (∀ j, w.stage = 1 → w.late = false → s.running = some j → s.job.circ = none → s.drained = true → ∃ t, exec .switchOutDone s = .next t ∧
        t.running = none ∧ only t Mach.reset ∧ AMap.get t.saved j = some { s.mach.ofJob.flushTlbs with
          heldRecs := s.mach.heldRecs ++ s.eqx.held.filter (fun r => r.slotted && decide (r.jobid = s.job.tag)) } ∧
        (w.server ≠ s.part.peer → told t w.server .switchDone) ∧
        (w.server = s.part.peer → w.left = [w.server] →
          t.eqx.hostEvents.getLast? = some (0, BitVec.ofNat 64 (w.out.getD 0), s.time - w.t))) ∧
      (∀ j, w.into = some j → w.stage = 3 → w.late = false → w.resumeAt.toNat ≤ s.time.toNat → (s.jobAt j).hostLog = [] →
        (s.jobAt j).tearing = false → ∃ t, exec .resume s = .next t ∧ t.running = some j ∧ t.switch = none ∧
          AMap.get t.saved j = none ∧
          let m := (AMap.get s.saved j).getD Mach.reset
          { t.mach with net := [] } = { m with net := [], heldRecs := [] } ∧
            ∀ k, ∀ p ∈ netGet m.net k, p ∈ netGet t.mach.net k)) ∧
    (∀ j base len,
      (base.toNat % 65536 ≠ 0 ∨ len.toNat % 65536 ≠ 0 ∨ len = 0 ∨ AMap.get s.jobs j = none →
        exec (.invalidate j base len) s = .next (s.eqxEvent 1 (BitVec.ofNat 64 j) s.time)) ∧
      (base.toNat % 65536 = 0 → len.toNat % 65536 = 0 → len ≠ 0 → AMap.get s.jobs j ≠ none →
        (s.running ≠ some j → exec (.invalidate j base len) s = .next (s.eqxEvent 0 (BitVec.ofNat 64 j) s.time)) ∧
        (s.running = some j → exec (.invalidate j base len) s = .next (s.invalidate j base len)) ∧
        (s.running = some j → s.holders base len ≠ [] → ∃ t, exec (.invalidate j base len) s = .next t ∧
          ∃ x ∈ t.shoots, x.base = base ∧ x.len = len ∧ x.why = .invalidate j ∧ x.left = s.holders base len ∧
            x.far = s.others) ∧
        (s.running = some j → s.holders base len = [] → s.others = [] → s.shoots = [] → ∃ t,
          exec (.invalidate j base len) s = .next t ∧
          t.eqx.hostEvents = s.eqx.hostEvents ++ [(0, BitVec.ofNat 64 j, s.time)]))) ∧
    (∀ nonce buf, buf % 4096 = 0 → ∃ t, exec (.attestation nonce buf) s = .next t ∧
      t.eqx.hostEvents = s.eqx.hostEvents ++ [(0, 0, s.time)] ∧ t.host = s.host.puts buf (s.report nonce ++
        let q := ecdsaSign Config.identitySecret (Config.signPick s.eqx.signs) (sha256 (s.report nonce)).toNat
        toBytes q.1 32 ++ toBytes q.2 32)) ∧
    (∀ ix, s.jobs = [] → ∃ t, exec (.clearDisableList ix) s = .next t ∧
      t.eqx.disable = s.eqx.disable.mapIdx (fun i e => if ix.contains i then { e with cleared := true } else e)) ∧
    (∃ t, exec .raiseFirmwareMinimum s = .next t ∧ t.eqx.minVersion = max s.eqx.minVersion s.eqx.fwver)

/-- Queue tails, event heads, ring registers and releases act as stated, and fault records go to their ring or wait
(R250, R316, R323, R324, R325, R331, R334, R335, R336, R341, spec/22_traps_and_switching.md Table 22-3,
spec/27_boot_and_power.md Table 27-3). Where the ring of a queue lies (log 44) and when a fault ring has room (log 72)
are the model's readings. -/
def Obligations.host_writes_and_fault_records_reach_equinox : Prop :=
  ∀ s : State, s.eqx.ready = true →
    let log : Nat → LogW → State := fun j w => s.appendLog j w
    (∀ j q v, j < 64 → q < 8 → (AMap.get s.jobs j).isSome = true → AMap.get s.ended j = none →
      (s.keeps j = true → s.logFull j = false → exec (.qtailWrite j q v) s = .next (log j (.tail q v)) ∧
        exec (.evheadWrite j v) s = .next (log j (.evhead v))) ∧
      (s.keeps j = false → ∃ t u, exec (.qtailWrite j q v) s = .next t ∧ (t.queueAt j q).tail = v.toNat % 65536 ∧
        (4 ≤ (s.queueAt j q).logn → 2 ^ (s.queueAt j q).logn < (v.toNat % 65536 + 65536 - (s.queueAt j q).prog) % 65536 →
          (t.queueAt j q).off = true) ∧
        exec (.evheadWrite j v) s = .next u ∧ (u.jobAt j).evHead = v.toNat % 65536)) ∧
    (∀ j jb v, j < 64 → AMap.get s.ended j = some jb → AMap.get s.jobs j = none → exec (.evheadWrite j v) s = .next (s.evheadEnded j jb v)) ∧
    (∀ j q, s.running = some j → s.stopped = false → q < 8 →
      let x := s.queueAt j q
      let data : VWord := BitVec.ofNat 512 (ofBytes (s.ringBytes (x.base.toNat + 64 * (x.prog % 2 ^ x.logn)) 64))
      x.off = false → 4 ≤ x.logn → x.busy = false → x.tail ≠ x.prog →
      (portOp data < 0x20 ∨ 0x22 < portOp data → ∃ t, exec (.queueEntrySubmit j q) s = .next t ∧
        (t.queueAt j q).prog = (x.prog + 1) % 65536 ∧ (t.jobAt j).badwr = min ((s.jobAt j).badwr + 1) (2 ^ 32 - 1)) ∧
      (portOp data = 0x22 → 0 < (s.jobAt j).hcount → ∃ t, exec (.queueEntrySubmit j q) s = .next t ∧
        (t.queueAt j q).busy = true ∧ lastIs t (queueOf s .equinox (.home (s.levelHome 0)) 0)
          (.port j 0 data (some q) false))) ∧
    (∀ c l g j, s.running = some j → (s.slotAt c l).phase = .parked → (s.slotAt c l).gen = g → s.stopped = true → s.logFull j = false →
      exec (.releaseRetry c l g) s = .next (log j (.release (releaseWord 0 c l g))) ∧
      exec (.releaseResume c l g) s = .next (log j (.release (releaseWord 1 c l g))) ∧
      exec (.releaseKill c l g) s = .next (log j (.release (releaseWord 2 c l g)))) ∧
    (∀ c l g, (s.slotAt c l).phase = .parked → (s.slotAt c l).gen = g → s.running.isSome = true → s.stopped = false → ∃ t u w,
      exec (.releaseRetry c l g) s = .next t ∧ exec (.releaseResume c l g) s = .next u ∧
      exec (.releaseKill c l g) s = .next w ∧ ((w.slotAt c l).phase = .draining ∨ (w.slotAt c l).phase = .free) ∧
      ((s.slotAt c l).held.map (·.cause) ≠ some 0x008 →
        (t.slotAt c l).phase = .ready ∧ (t.slotAt c l).pc = (s.slotAt c l).epc ∧ (t.slotAt c l).x = (s.slotAt c l).x ∧
        (u.slotAt c l).phase = .ready ∧ (u.slotAt c l).pc = s.eqx.relpc ∧ (u.slotAt c l).x = (s.slotAt c l).x) ∧
      ((s.slotAt c l).held.map (·.cause) = some 0x008 →
        ((t.slotAt c l).phase = .draining ∨ (t.slotAt c l).phase = .free) ∧
        ((u.slotAt c l).phase = .draining ∨ (u.slotAt c l).phase = .free))) ∧
    (∀ v : Word, ∃ a b c d e, exec (.rqheadWrite v) s = .next a ∧ a.eqx.rqhead = v.toNat % 65536 ∧
      exec (.fqheadWrite v) s = .next b ∧ b.eqx.fqhead = v.toNat % 65536 ∧
      exec (.rqbaseWrite v) s = .next c ∧ c.eqx.rqbase = v &&& ~~~0xFF0#64 ∧
      exec (.fqbaseWrite v) s = .next d ∧ d.eqx.fqbase = v &&& ~~~0xFF0#64 ∧
      exec (.mccountWrite v) s = .next e ∧ e.eqx.mccount = v.toNat % 2 ^ 32) ∧
    (∀ r rest, s.eqx.lane0 = r :: rest → s.eqx.lane1 = [] →
      (s.eqx.held = [] → s.eqx.rqRoom = true → ∃ t, exec (.faultRecord false) s = .next t ∧ t.eqx.lane0 = rest ∧
        t.host = s.host.puts (ringAt s.eqx.rqbase s.eqx.rqtail) r.bytes ∧ t.eqx.rqtail = (s.eqx.rqtail + 1) % 65536) ∧
      (s.eqx.rqRoom = false →
        let away := s.jobs.find? (fun e => decide (e.2.tag = r.jobid) && (AMap.get s.saved e.1).isSome)
        (r.slotted = false ∨ away = none → ∃ t, exec (.faultRecord false) s = .next t ∧ t.eqx.held = s.eqx.held ++ [r]) ∧
        (∀ e, r.slotted = true → away = some e → ∃ t m, exec (.faultRecord false) s = .next t ∧ AMap.get t.saved e.1 = some m ∧
          m.heldRecs = ((AMap.get s.saved e.1).getD Mach.reset).heldRecs ++ [r]))) ∧
    (∀ r rest, s.eqx.lane1 = r :: rest →
      (s.eqx.reserve = [] → s.eqx.fqRoom = true → ∃ t, exec (.faultRecord true) s = .next t ∧ t.eqx.lane1 = rest ∧
        t.host = s.host.puts (ringAt s.eqx.fqbase s.eqx.fqtail) r.bytes ∧ t.eqx.fqtail = (s.eqx.fqtail + 1) % 65536) ∧
      (s.eqx.fqRoom = false → s.eqx.reserve.length < 1024 → ∃ t, exec (.faultRecord true) s = .next t ∧
        t.eqx.reserve = s.eqx.reserve ++ [r]) ∧
      (1024 ≤ s.eqx.reserve.length → ∃ t, exec (.faultRecord true) s = .next t ∧
        t.eqx.mccount = min (s.eqx.mccount + 1) (2 ^ 32 - 1) ∧
        (s.eqx.mccount = 0 → t.eqx.msix = s.eqx.msix ++ [s.eqx.mcvec]))) ∧
    (∀ (off size : Nat) (v : VWord),
      (0 < size → size ≤ 64 → off + size ≤ s.part.flatL → memoryWf s → s.mach.poison = [] →
        ∃ t, exec (.hostRegisterWrite 4 off size v) s = .next t ∧ ∀ i, i < size →
          let a := lpBase + off + i
          let rw := s.hostBits a
          t.dram.byte a = if s.deviceRecord a = true then s.dram.byte a
            else (s.dram.byte a &&& ~~~rw) ||| ((toBytes v.toNat size).getD i 0 &&& rw)) ∧
      exec (.hostRegisterWrite 0 0x450 8 v) s = .next (s.setEqx (fun e => { e with relpc := v.setWidth 64 })) ∧
      exec (.hostRegisterWrite 0 0x440 8 v) s = .next (s.setEqx (fun e => { e with mcvec := v.toNat % 256 })) ∧
      exec (.hostRegisterWrite 0 0x410 8 v) s = .next s ∧ exec (.hostRegisterWrite 0 0x5010 8 v) s = .next s ∧
      exec (.hostRegisterWrite 0 0x6000 8 v) s = .next s)

/-- A circ request holds cross-package traffic everywhere, the plan then changes with TGEN one higher, or is refused
with 0x146 (R61, R246, R247, R358, R367, R368). What a hold stops is the model's reading (log 68). -/
def Obligations.circuits_change_after_a_hold : Prop :=
  ∀ s : State,
    let held : State → Prop := fun t => (∀ c, (t.coreAt c).hold = false) ∧ ∀ e, (t.engineAt e).holding = false
    let tells : State → Peer → Body → Prop := fun t p b =>
      lastIs t { src := s.here .equinox, dst := { peer := p, agent := .equinox }, cls := 0 } b
    let done : State → CircReq → Nat → Prop := fun t r code =>
      lastIs t { src := s.here .equinox, dst := { peer := r.peer, agent := .core r.core }, cls := 1 }
        (.completion r.treply (BitVec.ofNat 64 (t.job.tgen.toNat * 2 ^ 16 + code)) 0 0 false false r.level 0 [])
    let risen : State → CircRun → Prop := fun t c => t.job.tgen = s.job.tgen + 1 ∧ t.job.plan = some c.req.plan ∧ held t ∧
      (c.server = s.part.peer → s.others = [] → t.job.circ = none ∧ (c.req.treply.getLsbD 0 = false → done t c.req 0)) ∧
      (c.server = s.part.peer → s.others ≠ [] → t.job.circ = some { c with raised := true, far := s.others } ∧
        ∀ p ∈ s.others, tells t p (.circEnd true)) ∧
      (c.server ≠ s.part.peer → t.job.circ = none ∧ tells t c.server .circRaised)
    let refused : State → CircReq → Prop := fun t r => t.job.circ = none ∧ t.job.tgen = s.job.tgen ∧ held t ∧ done t r 0x146 ∧
      ∀ p ∈ s.others, tells t p (.circEnd false)
    let ended : State → CircReq → Prop := fun t r => refused t r ∧ t.links = s.links ∧ t.peers = s.peers
    let litNow : State → CircRun → Prop := fun t c => t.job.circ = some { c with
      lit := true, before := s.litGroups.map (fun g => (g.first, g.size, g.peer)) }
    (∀ r rest, s.job.circs = r :: rest → s.running.isSome = true → s.job.circ = none → s.switch = none →
      ∃ t, exec .circRequest s = .next t ∧ t.job.circs = rest ∧
        t.job.circ = some { req := r, server := s.part.peer, waiting := s.holdAgents, far := s.others, refused := false
                            lightAt := none, lit := false, raised := false, asked := false, before := [] } ∧ sameMemory s t ∧
        (∀ a ∈ s.holdAgents, lastIs t (queueOf s .equinox a 0) .holdNotice) ∧ ∀ p ∈ s.others, tells t p (.circHold r.plan)) ∧
    (∀ k n, k.src = s.here .equinox →
      (heads s k (.core n) .holdNotice → ∃ t, exec (.holdNotice k) s = .next t ∧ (t.coreAt n).hold = true ∧
        lastIs t (queueOf s (.core n) .equinox 0) .holdAck) ∧
      (heads s k (.engine n) .holdNotice → ∃ t, exec (.holdNotice k) s = .next t ∧ (t.engineAt n).holding = true ∧
        lastIs t (queueOf s (.engine n) .equinox 0) .holdAck)) ∧
    (∀ c k, s.job.circ = some c → s.nextAck = some k →
      let left_ := c.waiting.filter (fun a => a ≠ k.src.agent)
      (left_ ≠ [] ∨ c.far ≠ [] → ∃ t, exec .holdAck s = .next t ∧ left s t k ∧
        t.job.circ = some { c with waiting := left_ }) ∧
      (left_ = [] → c.far = [] → c.lightAt = none →
        let asked : CircRun := { c with waiting := [], lightAt := some s.time }
        (c.server = s.part.peer → c.lit = false → s.planOk s.job c.req.plan = none ∨ c.refused = true →
          ∃ t, exec .holdAck s = .next t ∧ ended t c.req) ∧
        (∀ gs, c.server = s.part.peer → c.refused = false → s.planOk s.job c.req.plan = some gs → (∀ g ∈ s.litGroups, g ∈ gs) →
          ∃ t, exec .holdAck s = .next t ∧ t.job.circ = some asked ∧ t.job.tgen = s.job.tgen) ∧
        (c.server ≠ s.part.peer → s.planOk s.job c.req.plan = none →
          ∃ t, exec .holdAck s = .next t ∧ t.job.circ = some asked ∧ tells t c.server (.circHeld false)) ∧
        (∀ gs, c.server ≠ s.part.peer → s.planOk s.job c.req.plan = some gs → (∀ g ∈ s.litGroups, g ∈ gs) →
          ∃ t, exec .holdAck s = .next t ∧ t.job.circ = some asked ∧ tells t c.server (.circHeld true)))) ∧
    (∀ c, s.job.circ = some c → c.raised = false → c.lit = true → c.asked = true → (∀ x ∈ s.streams, x.copies = []) →
      ∃ t, exec .planLit s = .next t ∧ risen t c) ∧
    (∀ c k p, s.job.circ = some c → c.raised = false → k.dst = s.here .equinox → s.headOf k = some p → p.job = s.job.tag →
      (p.body = .circTrained true → c.lit = true → c.far = [p.src.peer] → (∀ x ∈ s.streams, x.copies = []) →
        ∃ t, exec (.deliver k) s = .next t ∧ risen t c) ∧
      (p.body = .circTrained false → c.lit = true → p.src.peer ∈ c.far → ∃ t, exec (.deliver k) s = .next t ∧
        refused t c.req ∧ t.links = (s.restorePlan c).links) ∧
      (∀ gs, p.body = .circLight → s.planOk s.job c.req.plan = some gs → ∃ t, exec (.deliver k) s = .next t ∧
        t.job.tgen = s.job.tgen ∧ tells t c.server (.circTrained (s.groupsTrain gs)) ∧
        (s.groupsTrain gs = true → litNow t c) ∧ (s.groupsTrain gs = false → t.job.circ = some c ∧ t.links = s.links))) ∧
    (∀ c k p, s.job.circ = some c → c.raised = true → k.dst = s.here .equinox → s.headOf k = some p → p.job = s.job.tag →
      p.body = .circRaised → c.far = [p.src.peer] → ∃ t, exec (.deliver k) s = .next t ∧ t.job.circ = none ∧
        t.job.tgen = s.job.tgen ∧ (c.req.treply.getLsbD 0 = false → done t c.req 0)) ∧
    (∀ c at_, s.job.circ = some c → c.waiting = [] → c.far = [] → c.server = s.part.peer → c.lightAt = some at_ → c.lit = false →
      c.raised = false →
      (∀ gs, s.planOk s.job c.req.plan = some gs → s.groupsTrain gs = true → s.time.toNat ≤ at_.toNat + 1000000000 →
        (∀ x ∈ s.streams, x.copies = []) → ∃ t, exec .planLit s = .next t ∧ (s.others = [] → risen t c) ∧
          (s.others ≠ [] → litNow t { c with far := s.others } ∧ t.job.tgen = s.job.tgen ∧
            ∀ p ∈ s.others, tells t p .circLight)) ∧
      (∃ t, exec .switchRefusedPlan s = .next t ∧ ended t c.req) ∧
      (at_.toNat + 1000000000 ≤ s.time.toNat → ∃ t, exec .circTimeout s = .next t ∧ ended t c.req))

/-- Flits are released in order and replayed, streams acknowledged and resent, dark light and keys handled as stated
(R6, R349, R358, R360, R362, R363, R366, R369, R370, R373). When a peer is live (log 50), how packets fill a flit (log
52) and that acknowledgements alone take no number (log 125) are the model's readings. -/
def Obligations.links_replay_streams_recover_and_light_fails : Prop :=
  ∀ (s : State) (n : Nat),
    let l := s.linkAt n
    let far : Prop := s.jobs ≠ []
    let asks : State → Prop := fun t => ∃ g, t.sent = s.sent ++ [g] ∧ g.link = n ∧ g.flit.ftype = 2 ∧ g.flit.lack = l.lack
    let data (f : Flit) : Prop := f.ftype = 0 ∧ f.lseq < 256 ∧ f.vc < 6 ∧ f.eseq < 1024
    (∀ f hd, far → l.up = true → n < 112 → (48 ≤ n → l.group ≠ 0) → data f →
      (∃ t, exec (.flit n f false hd) s = .next t ∧ asks t ∧ (t.linkAt n).lack = l.lack ∧ (t.linkAt n).held = l.held ∧
        t.mach = s.mach) ∧
      (f.lseq = (l.lack + 1) % 256 → l.lack < 256 → l.held = [] → ∃ t, exec (.flit n f true hd) s = .next t ∧
        (t.linkAt n).lack = f.lseq ∧ (t.linkAt n).held = [] ∧ sameMemory s t ∧
        ∀ k ps, hd = true → f.packets = ps.map (fun p => (k, p)) → onlyAcks f = false → (∀ g, k.dst.agent ≠ .gateway g) →
          (∀ p ∈ ps, ∀ j ∈ s.saved, p.job = 0 ∨ (s.jobAt j.1).tag ≠ p.job) →
          (∀ p ∈ ps, ∀ d t x y z u v, p.body ≠ .snapshot d t x y z u v) →
          (s.streamAt f.speer f.vc).deliver = f.eseq → (s.streamAt f.speer f.vc).early = [] →
          netGet t.mach.net k = netGet s.mach.net k ++ ps ∧
          (t.streamAt f.speer f.vc).deliver = (f.eseq + 1) % 1024 ∧
          lastIs t { src := s.here (.gateway n), dst := { peer := f.speer, agent := .gateway n }, cls := 0 }
            (.e2eAck f.vc f.eseq)) ∧
      (128 ≤ (f.lseq + 255 - l.lack) % 256 → ∃ t, exec (.flit n f true hd) s = .next t ∧ (t.linkAt n).lack = l.lack ∧
        (t.linkAt n).held = l.held ∧ (t.linkAt n).linkDup = min (l.linkDup + 1) (2 ^ 64 - 1))) ∧
    (∀ lack, far → l.up = true → n < 112 → ∃ t gs, exec (.replayRequest n lack) s = .next t ∧
      (t.linkAt n).replays = min (l.replays + 1) (2 ^ 64 - 1) ∧ sameMemory s t ∧ t.sent = s.sent ++ gs ∧
      (∀ g ∈ gs, g.link = n) ∧ gs.map (·.flit) =
        (if l.unacked.any (fun f => f.lseq = lack) then (l.unacked.dropWhile (fun f => f.lseq ≠ lack)).tail else l.unacked)) ∧
    (∀ at_, l.gapAt = some at_ → at_ + 512 ≤ s.now → ∃ t, exec (.gapTimer n) s = .next t ∧ asks t ∧
      (t.linkAt n).gapAt = some s.now) ∧
    (∀ peer vc,
      let x := s.streamAt peer vc
      (∀ q k, s.e2eHead peer vc q = some k → x.copies.any (fun c => c.1.eseq = q) = true →
        ∃ t, exec (.endToEndAcknowledgement peer vc q) s = .next t ∧ left s t k ∧
          (t.streamAt peer vc).copies = (x.copies.dropWhile (fun c => c.1.eseq ≠ q)).tail) ∧
      (∀ m f at_, x.link = some m → x.copies = [(f, at_)] → at_ + 2 ^ 18 ≤ s.now → (s.linkAt m).maySend vc = true →
        m < 48 ∨ (s.linkAt m).peer = peer →
        ∃ t g, exec (.endToEndRetransmission peer vc) s = .next t ∧ t.sent = s.sent ++ [g] ∧ g.link = m ∧
          g.flit.packets = f.packets ∧ g.flit.eseq = f.eseq ∧ (t.streamAt peer vc).copies = [(f, s.now)]) ∧
      (x.link.isSome = true → x.copies = [] → s.linkFor peer ≠ x.link → (s.linkFor peer).isSome = true →
        exec (.linkChange peer vc) s = .next (s.setStream { x with link := s.linkFor peer }))) ∧
    (∀ f g ws, far → s.litGroupOf f = some g → (s.linkAt (48 + f)).lossAt ≠ some s.now → ws ≠ [] → ws.eraseDups = ws →
      (∀ w ∈ ws, w < 16 ∧ (s.linkAt (48 + f)).liveRx.getLsbD w = true) →
      ∃ t, exec (.lossOfLight f ws) s = .next t ∧ sameMemory s t ∧ s.eqx.lane1.length + ws.length ≤ t.eqx.lane1.length ∧
        (∀ w ∈ ws, (t.linkAt (48 + f)).liveRx.getLsbD w = false) ∧
        ∃ a b, t.sent = s.sent ++ [a, b] ∧ a.flit.ftype = 3 ∧ a.flit.arg = (t.linkAt (48 + f)).liveRx.toNat ∧
          b.flit.ftype = 2) ∧
    (∀ f g mask, s.litGroupOf f = some g → ∃ t, exec (.liveMask f mask) s = .next t ∧
      (t.linkAt (48 + f)).liveTx = (s.linkAt (48 + f)).liveTx &&& mask) ∧
    (l.up = true → l.intNow ≠ 0 → l.keyAt + 2 ^ 32 ≤ l.flits → ∃ t g, exec (.keyReplacement n) s = .next t ∧
      (t.linkAt n).key = l.key + 1 ∧ (t.linkAt n).keyAt = l.flits ∧ t.sent = s.sent ++ [g] ∧ g.flit.ftype = 3 ∧
      g.flit.arg = l.key + 1) ∧
    (∀ p rest w pay, (AMap.get s.mach.blocks n).getD [] = p :: rest → p.body = .block w pay → p.job ≠ s.job.tag →
      ∃ t, exec (.gatewayBlock n) s = .next t ∧ t.mach.cores = s.mach.cores ∧ (AMap.get t.mach.blocks n).getD [] = rest) ∧
    (∀ p rest w pay c, (AMap.get s.mach.blocks n).getD [] = p :: rest → p.body = .block w pay → p.job = s.job.tag →
      (s.gatewaysOf n)[w.toNat % 2 ^ 32 % max 1 (s.gatewaysOf n).length]? = some c → ((s.coreAt c).queue 2).length < 16 →
      ∃ t, exec (.gatewayBlock n) s = .next t ∧ (t.coreAt c).queue 2 = (s.coreAt c).queue 2 ++ [.block n w pay] ∧
        (AMap.get t.mach.blocks n).getD [] = rest) ∧
    (∀ at_, exec (.timeMessage at_) s = .next (if at_.toNat ≤ s.time.toNat then s else { s with time := at_, timeRem := 0 })) ∧
    (∀ peer y, peer ≠ s.part.peer → ∃ t, exec (.peerLayoutEntry peer y) s = .next t ∧
      AMap.get t.layouts peer.toNat = some y ∧ sameMemory s t) ∧
    (∀ light, s.eqx.ready = true → n < 48 → light &&& s.trainable n ≠ 0 → ∃ t, exec (.trainLink n light) s = .next t ∧
      (t.linkAt n).up = true ∧ (t.linkAt n).liveRx = light &&& s.trainable n)

/-- Errors count and declare units, windows restart, the boot sequence ends ready or with its code, and power and heat
act as stated (R375, R376, R377, R380, R381, R383, R384, R386, R388, spec/27_boot_and_power.md Table 27-1). What a
module reset keeps (log 43) and which commands an error of a streamer stops (log 49) are the model's readings. -/
def Obligations.errors_are_counted_and_power_is_kept : Prop :=
  ∀ s : State,
    (∀ k u cause a, s.jobs ≠ [] → unitExists k u = true → errorCauses.contains cause = true →
      (cause = 0x1C0 → k = 1 ∨ k = 2) → (s.unitAt k u).declared = false → (s.unitAt k u).window + 1 < (s.unitAt k u).thr →
      ∃ t, exec (.errorDetected k u cause a) s = .next t ∧ (t.unitAt k u).window = (s.unitAt k u).window + 1 ∧
        (t.unitAt k u).errors = min ((s.unitAt k u).errors + 1) (2 ^ 64 - 1) ∧ (t.unitAt k u).declared = false ∧
        (cause = 0 → t.eqx = s.eqx) ∧
        (cause ≠ 0 → ∃ r, t.eqx.lane1 = s.eqx.lane1 ++ [r] ∧ r.cause = cause ∧ r.ukind = k ∧ r.unit = u ∧
          r.count = (s.unitAt k u).window + 1)) ∧
    (∀ k u a, s.jobs ≠ [] → unitExists k u = true → (s.unitAt k u).declared = false →
      (s.unitAt k u).thr ≤ (s.unitAt k u).window + 1 → ∃ t r, exec (.errorDetected k u 0 a) s = .next t ∧
        (t.unitAt k u).declared = true ∧ t.eqx.lane1 = s.eqx.lane1 ++ [r] ∧ r.cause = 0x1C8 ∧ r.ukind = k ∧ r.unit = u ∧
        r.count = (s.unitAt k u).window + 1 ∧ t.eqx.decl = min (s.eqx.decl + 1) (2 ^ 32 - 1) ∧
        (s.eqx.disable.length < 1024 → s.eqx.disable.any (fun d => d.ukind = k ∧ d.unit = u) = false → t.eqx.disable =
          s.eqx.disable ++ [{ ukind := k, unit := u, applied := false, cleared := false }]) ∧
        (k = 3 ∨ k = 4 → u ∈ t.part.fenced)) ∧
    (∀ k u e, unitExists k u = true → s.units.find? (fun e => e.ukind = k ∧ e.unit = u) = some e →
      e.windowAt < s.now / 2 ^ 31 → ∃ t, exec (.windowRestart k u) s = .next t ∧ t.unitAt k u = s.unitAt k u ∧
        s.unitAt k u = { e with window := 0, replays := 0, declared := false, windowAt := s.now / 2 ^ 31, thr := s.thrNow.1, lthr := s.thrNow.2 } ∧
        ∃ x ∈ t.units, x = s.unitAt k u) ∧
    (s.eqx.rails = false ∨ s.eqx.bootRan = false → ∀ fuseOk linkOk found,
      (∀ u ∈ found.failed, unitExists u.1 u.2 = true) → (∀ e ∈ found.light, e.1 < 48) →
      ∃ t, exec (.powerOn fuseOk linkOk found) s = .next t) ∧
    (s.eqx.rails = false ∨ s.eqx.bootRan = false → ∀ linkOk found, found.failed = [] → (∀ e ∈ found.light, e.1 < 48) →
      let kept := s.eqx.disable.filter (fun d => !d.cleared)
      let p := kept.foldl (fun (p : Part) d => p.without d.ukind d.unit) (s.fused.withPeer s.part.peer)
      (∃ t, exec (.powerOn false linkOk found) s = .next t ∧ t.eqx.bootCode = 0x01 ∧ t.eqx.ready = false) ∧
      (∀ code, imageCode s.eqx.keyHash s.eqx.minVersion s.eqx.image = code →
        (code ≠ 0 → ∃ t, exec (.powerOn true linkOk found) s = .next t ∧ t.eqx.bootCode = code ∧ t.eqx.ready = false) ∧
        (code = 0 → (∃ t, exec (.powerOn true false found) s = .next t ∧ t.eqx.bootCode = 0x04 ∧ t.eqx.ready = false) ∧
          (liveCount s.fused.tiles = 0 → ∃ t, exec (.powerOn true true found) s = .next t ∧ t.eqx.bootCode = 0x05 ∧
            t.eqx.ready = false) ∧
          (liveCount s.fused.tiles ≠ 0 → ∃ t, exec (.powerOn true true found) s = .next t ∧
            t.eqx.bootCode = 0 ∧ t.eqx.ready = true ∧ t.eqx.fwver = imageField s.eqx.image 4 4 ∧ t.jobs = [] ∧
            t.running = none ∧ t.part = p.resize.unfenced ∧
            t.eqx.disable = kept.map (fun (d : DEntry) => { d with applied := true }))))) ∧
    let limit := if s.eqx.limitAt = some s.now then s.eqx.limitOld else s.eqx.limit
    (∀ power tj, s.eqx.evalAt.toNat + 10000 ≤ s.time.toNat → ∃ t, exec (.powerEvaluation power tj) s = .next t ∧
      (1000 ≤ tj → t.eqx.deliv ≤ 32) ∧ (1100 ≤ tj → t.eqx.trip.isSome = true) ∧ t.eqx.evalAt = s.time ∧
      (tj < 1000 → 8 ≤ s.eqx.deliv → s.eqx.deliv ≤ 64 → 8 ≤ t.eqx.deliv ∧ t.eqx.deliv ≤ 64 ∧
        (limit < power → t.eqx.deliv = max 8 (s.eqx.deliv - 1)) ∧
        (power ≤ limit → 100 * power < 97 * limit → t.eqx.deliv = min 64 (s.eqx.deliv + 1)) ∧
        (power ≤ limit → 97 * limit ≤ 100 * power → t.eqx.deliv = s.eqx.deliv))) ∧
    (∀ tj, 1100 ≤ tj → s.eqx.trip = none → ∃ t, exec (.thermalTrip tj) s = .next t ∧ t.eqx.trip = some s.time ∧ t.eqx.deliv ≤ 32 ∧
      t.eqx.msix = s.eqx.msix ++ [s.eqx.mcvec]) ∧
    (∀ at_, s.eqx.trip = some at_ → at_.toNat + 1000000 ≤ s.time.toNat → ∃ t, exec .railRemoval s = .next t ∧
      t.eqx.rails = false ∧ (∀ x y turn rest, t.turns = turn :: rest → turn.act = .issue x y → step t = .fault .railsRemoved)) ∧
    (∃ t, exec .moduleReset s = .next t ∧ t.jobs = [] ∧ t.running = none ∧ t.mach = Mach.reset ∧ t.fused = s.fused ∧
      t.eqx.keyHash = s.eqx.keyHash ∧ t.eqx.minVersion = s.eqx.minVersion ∧ t.eqx.disable = s.eqx.disable ∧ t.units = [])

/-- When a core's turn to issue comes and the word at its slot's PC decodes to i, step is exec of i at that state
(R42, R97, R98, R257, R270, R329). Which step is next is the model's choice (log 2). -/
def Obligations.a_step_runs_the_decoded_instruction : Prop :=
  ∀ (s : State) (n c l : Nat) (busy ls : List Nat) (rest : List Turn), s.eqx.rails = true →
    s.turns = { cycles := n, act := .issue c busy } :: rest →
    let p := { s with turns := rest }.pass n
    let q := ({ p with cur := (c, l) }).newTry
    let goes : Host.Outcome State Fault Refusal → Prop := fun o =>
      (∀ t, o = .next t → (t.slotAt c l).phase ≠ .stalled →
        step s = .next (t.updCore c (fun k => { k with last := l, issuedAt := some p.now }))) ∧
      (∀ t, o = .next t → (t.slotAt c l).phase = .stalled → step s = t.tryIssue c ls) ∧
      ((∀ t, o ≠ .next t) → step s = o)
    p.stopped = false → p.part.coreLive c = true → (p.coreAt c).issuedAt ≠ some p.now → p.order c busy = l :: ls →
    q.slot.asyncReady = false →
    (∀ u w i, q.fetch c q.slot.pc = (u, .ok w) → decode w = .ok i → i.wf = true → goes (exec i u)) ∧
    (∀ u cause ix a, q.fetch c q.slot.pc = (u, .bad cause ix a) → goes (u.trapIdx cause ix a))

/-- Words that the manual writes out decode to the instructions that it names (R99, R100, R103, R104, R105, R106,
R107, R108, spec/06_encodings.md Table 06-14, spec/07_scalar_instructions.md Table 07-5). -/
def Obligations.words_of_the_manual_decode : Prop :=
  decode 0x08200005#32 = .ok (.addImm 1 0 5) ∧ decode 0x04420800#32 = .ok (.add 2 2 1 0) ∧
    decode 0xE8400012#32 = .ok (.csrr 2 0x012) ∧ decode 0x18628009#32 = .ok (.bfx 3 2 0 9) ∧
    decode 0x60A41800#32 = .ok (.ld 5 4 0 3 0) ∧ decode 0x04A63E04#32 = .ok (.div 5 6 7 1 1) ∧
    decode 0x14222FFF#32 = .ok (.sltNImm 1 2 0xFFF) ∧ decode 0x1C201234#32 = .ok (.lui 1 0x1234) ∧
    decode 0x248531C0#32 = .ok (.fma 4 5 6 7) ∧ decode 0x30432003#32 = .ok (.lea 2 3 4 3) ∧
    decode 0x50640002#32 = .ok (.blo 3 4 2) ∧ decode 0x5C000010#32 = .ok (.jal 16) ∧
    decode 0xEC1F000A#32 = .ok (.jalr 0 31) ∧ decode 0xF120FFFE#32 = .ok (.loop 9 0xFFFE) ∧
    decode 0xEC000000#32 = .ok .nop ∧ decode 0xEC000800#32 = .reserved ∧ decode 0x00000000#32 = .undefined

/-- Every word that decodes is the encoding of a well-formed instruction, and every well-formed instruction decodes
from its word (R97, R98, R99, R103, R104, R105, R106, R107, R108, spec/06_encodings.md Table 06-2). -/
def Obligations.decoding_and_encoding_agree : Prop :=
  (∀ i w, i.wf = true → encode i = some w → decode w = .ok i) ∧
    (∀ w i, decode w = .ok i → i.wf = true ∧ encode i = some w)

/-- Every step from a state whose memories are in canonical form leads to one whose memories are (R5, R33, R34, R40,
R48, R274, R339). -/
def Obligations.every_step_keeps_the_memories_canonical : Prop :=
  ∀ s t : State, memoryWf s → step s = .next t → memoryWf t

/-- At reset every slot is Free, no job exists, memory lists nothing, and Equinox's registers hold their reset values
(R383, R385, R388, R26, R11, R364, spec/27_boot_and_power.md Table 27-3, spec/22_traps_and_switching.md Table 22-3).
Zero in a register without a stated reset value (log 5) and a full part (log 18) are the model's choices. -/
def Obligations.reset_state_has_the_stated_values : Prop :=
  memoryWf State.reset ∧ (∀ a, State.reset.byte a = 0) ∧
    (∀ c l, (State.reset.slotAt c l).phase = .free ∧ (State.reset.slotAt c l).h = Vector.replicate 16 Handle.none) ∧
    State.reset.running = none ∧ State.reset.jobs = [] ∧ State.reset.eqx.ready = false ∧ State.reset.eqx.deliv = 64 ∧
    State.reset.eqx.limit = 3400 ∧ State.reset.eqx.wdlog = 34 ∧ State.reset.eqx.rqbase = 0 ∧ State.reset.eqx.fqbase = 0 ∧
    State.reset.eqx.mccount = 0 ∧ State.reset.litGroups = [] ∧ ∀ n, (State.reset.linkAt n).up = false
end

