-- ==== Sys2Proof/Laws/Map.lean ====
section
/-! SUPPORT. Laws of the sparse maps and of memory (log 4): reading after writing, and that every memory operation keeps the
canonical form. -/

namespace Sys2Proof.Machine

open Sys2Proof

variable {α : Type}

/-! ### Maps -/

theorem AMap.get_set_self (m : AMap α) (n : Nat) (a : α) : AMap.get (AMap.set m n a) n = some a := by
  induction m with
  | nil => simp [AMap.set, AMap.get]
  | cons e t ih =>
    obtain ⟨k, v⟩ := e
    simp only [AMap.set]
    split
    · simp [AMap.get]
    · split
      · simp [AMap.get]
      · simp [AMap.get, ‹¬n = k›, ih]

theorem AMap.get_set_other (m : AMap α) {n k : Nat} (a : α) (h : k ≠ n) : AMap.get (AMap.set m n a) k = AMap.get m k := by
  induction m with
  | nil => simp [AMap.set, AMap.get, h]
  | cons e t ih =>
    obtain ⟨j, v⟩ := e
    simp only [AMap.set]
    split
    · simp [AMap.get, h]
    · split
      · subst_vars; simp [AMap.get, h]
      · simp only [AMap.get, ih]

theorem AMap.get_del_self (m : AMap α) (n : Nat) : AMap.get (AMap.del m n) n = none := by
  induction m with
  | nil => rfl
  | cons e t ih =>
    obtain ⟨k, v⟩ := e
    by_cases h : k = n
    · simpa [AMap.del, h] using ih
    · have h' : ¬n = k := fun e => h e.symm
      simpa [AMap.del, h, AMap.get, h'] using ih

theorem AMap.get_del_other (m : AMap α) {n k : Nat} (h : k ≠ n) : AMap.get (AMap.del m n) k = AMap.get m k := by
  induction m with
  | nil => rfl
  | cons e t ih =>
    obtain ⟨j, v⟩ := e
    by_cases hj : j = n
    · have hk : ¬k = j := fun e => h (e.trans hj)
      simpa [AMap.del, hj, AMap.get, hk, h] using ih
    · simp only [AMap.del, ne_eq, hj, not_false_eq_true, decide_true, List.filter_cons_of_pos, AMap.get] at ih ⊢
      rw [ih]

/-! ### The canonical form as two plain facts -/

theorem Memory.wf_iff (m : Memory) :
    m.wf = true ↔ m.Pairwise (fun a b => a.1 < b.1) ∧ ∀ c ∈ m, c.2 ≠ unwritten := by
  induction m with
  | nil => simp [Memory.wf]
  | cons c t ih =>
    cases t with
    | nil => simp [Memory.wf]
    | cons d u =>
      simp only [Memory.wf, Bool.and_eq_true, bne_iff_ne, ne_eq, decide_eq_true_eq, ih, List.pairwise_cons,
        List.mem_cons, forall_eq_or_imp]
      constructor
      · rintro ⟨⟨h1, h2⟩, ⟨h3, h4⟩, h5, h6⟩
        exact ⟨⟨⟨h2, fun a ha => h2.trans (h3 a ha)⟩, h3, h4⟩, h1, h5, h6⟩
      · rintro ⟨⟨⟨h2, _⟩, h3, h4⟩, h1, h5, h6⟩
        exact ⟨⟨h1, h2⟩, ⟨h3, h4⟩, h5, h6⟩

theorem AMap.mem_set {m : AMap α} {n : Nat} {a : α} {c : Nat × α} (h : c ∈ AMap.set m n a) : c = (n, a) ∨ c ∈ m := by
  induction m with
  | nil => simpa [AMap.set] using h
  | cons e t ih =>
    obtain ⟨k, v⟩ := e
    simp only [AMap.set] at h
    split at h
    · simpa using h
    · split at h
      · rcases List.mem_cons.mp h with h | h
        · exact .inl h
        · exact .inr (List.mem_cons_of_mem _ h)
      · rcases List.mem_cons.mp h with h | h
        · exact .inr (h ▸ List.mem_cons_self)
        · exact (ih h).imp_right (List.mem_cons_of_mem _)

/-- Setting a number keeps the keys rising. -/
theorem AMap.set_sorted (m : AMap α) (n : Nat) (a : α) (h : m.Pairwise (fun a b => a.1 < b.1)) :
    (AMap.set m n a).Pairwise (fun a b => a.1 < b.1) := by
  induction m with
  | nil => simp [AMap.set]
  | cons e t ih =>
    obtain ⟨k, v⟩ := e
    rw [List.pairwise_cons] at h
    simp only [AMap.set]
    split
    · rename_i hlt
      exact List.pairwise_cons.mpr ⟨fun c hc => by
        rcases List.mem_cons.mp hc with hc | hc
        · subst hc; exact hlt
        · exact hlt.trans (h.1 c hc), List.pairwise_cons.mpr h⟩
    · split
      · subst_vars; exact List.pairwise_cons.mpr h
      · refine List.pairwise_cons.mpr ⟨fun c hc => ?_, ih h.2⟩
        rcases AMap.mem_set hc with hc | hc
        · subst hc; simp only; omega
        · exact h.1 c hc

/-! ### Memory operations keep the canonical form -/

theorem Memory.set_wf {m : Memory} (h : m.wf = true) (a : Nat) {b : Byte} (hb : b ≠ unwritten) :
    Memory.wf (AMap.set m a b) = true := by
  rw [Memory.wf_iff] at h ⊢
  exact ⟨AMap.set_sorted m a b h.1, fun c hc => by
    rcases AMap.mem_set hc with hc | hc
    · subst hc; exact hb
    · exact h.2 c hc⟩

theorem Memory.filter_wf {m : Memory} (h : m.wf = true) (p : Host.Cell → Bool) : Memory.wf (m.filter p) = true := by
  rw [Memory.wf_iff] at h ⊢
  exact ⟨h.1.filter _, fun c hc => h.2 c (List.mem_filter.mp hc).1⟩

theorem Memory.put_wf {m : Memory} (h : m.wf = true) (a : Nat) (b : Byte) : (m.put a b).wf = true := by
  unfold Memory.put
  split
  · exact Memory.filter_wf h _
  · exact Memory.set_wf h a ‹_›

theorem Memory.puts_wf {m : Memory} (h : m.wf = true) (a : Nat) (bs : List Byte) : (m.puts a bs).wf = true := by
  induction bs generalizing m a with
  | nil => exact h
  | cons b t ih => exact ih (Memory.put_wf h a b) (a + 1)

/-- Cells of a well-formed memory set one after the other keep the form. -/
theorem Memory.foldl_set_wf (f : Nat → Nat) (src : List Host.Cell) {m : Memory} (h : m.wf = true)
    (hs : ∀ c ∈ src, c.2 ≠ unwritten) : Memory.wf (src.foldl (fun acc c => AMap.set acc (f c.1) c.2) m) = true := by
  induction src generalizing m with
  | nil => exact h
  | cons c t ih =>
    exact ih (Memory.set_wf h (f c.1) (hs c List.mem_cons_self)) fun d hd => hs d (List.mem_cons_of_mem _ hd)

theorem Memory.copy_wf {m : Memory} (h : m.wf = true) (a b n : Nat) : (m.copy a b n).wf = true := by
  refine Memory.foldl_set_wf (fun k => k - a + b) _ (Memory.filter_wf h _) fun c hc => ?_
  exact ((Memory.wf_iff m).mp h).2 c (List.mem_filter.mp hc).1

/-! ### Reading after writing -/

theorem Memory.byte_put_self (m : Memory) (a : Nat) (b : Byte) : (m.put a b).byte a = b := by
  unfold Memory.put Memory.byte
  split
  · simp [AMap.get_del_self, ‹b = unwritten›]
  · simp [AMap.get_set_self]

theorem Memory.byte_put_other (m : Memory) {a k : Nat} (b : Byte) (h : k ≠ a) : (m.put a b).byte k = m.byte k := by
  unfold Memory.put Memory.byte
  split
  · rw [AMap.get_del_other m h]
  · rw [AMap.get_set_other m b h]

/-- A byte outside a run that is written reads as before. -/
theorem Memory.byte_puts_outside (m : Memory) (a : Nat) (bs : List Byte) {k : Nat} (h : k < a ∨ a + bs.length ≤ k) :
    (m.puts a bs).byte k = m.byte k := by
  induction bs generalizing m a with
  | nil => rfl
  | cons b t ih =>
    rw [List.length_cons] at h
    rw [Memory.puts, ih _ _ (by omega), Memory.byte_put_other _ _ (by omega)]

/-- A byte inside a run that is written is the run's. -/
theorem Memory.byte_puts_inside (m : Memory) (a : Nat) (bs : List Byte) (i : Nat) (h : i < bs.length) :
    (m.puts a bs).byte (a + i) = bs[i] := by
  induction bs generalizing m a i with
  | nil => simp at h
  | cons b t ih =>
    cases i with
    | zero => simp [Memory.puts, Memory.byte_puts_outside, Memory.byte_put_self]
    | succ j =>
      have := ih (m.put a b) (a + 1) j (by simpa using h)
      rw [Memory.puts, show a + (j + 1) = a + 1 + j by omega, this]
      rfl

@[simp] theorem length_toBytes (v n : Nat) : (toBytes v n).length = n := by
  induction n generalizing v with
  | zero => rfl
  | succ n ih => simp [toBytes, ih]

/-- Little-endian bytes stand for the number they were cut from (R5). -/
theorem ofBytes_toBytes (v n : Nat) : ofBytes (toBytes v n) = v % 256 ^ n := by
  induction n generalizing v with
  | zero => simp [toBytes, ofBytes, Nat.mod_one]
  | succ n ih =>
    have h : (BitVec.ofNat 8 v).toNat = v % 256 := BitVec.toNat_ofNat v 8
    rw [toBytes, ofBytes, ih, h, Nat.pow_succ', Nat.mod_mul]

end Sys2Proof.Machine
end

