-- ==== Sys2Proof/Laws/State.lean ====
section
/-! SUPPORT. What each named update of the state leaves as it was: one lemma for each field, by rfl. -/

namespace Sys2Proof.Machine

open Sys2Proof

@[simp] theorem State.setSlotAt_turns (s : State) (c l : Nat) (sl : Slot) : (s.setSlotAt c l sl).turns = s.turns := rfl
@[simp] theorem State.setSlotAt_free (s : State) (c l : Nat) (sl : Slot) : (s.setSlotAt c l sl).free = s.free := rfl
@[simp] theorem State.setSlotAt_cur (s : State) (c l : Nat) (sl : Slot) : (s.setSlotAt c l sl).cur = s.cur := rfl
@[simp] theorem State.setSlotAt_now (s : State) (c l : Nat) (sl : Slot) : (s.setSlotAt c l sl).now = s.now := rfl
@[simp] theorem State.setSlotAt_time (s : State) (c l : Nat) (sl : Slot) : (s.setSlotAt c l sl).time = s.time := rfl
@[simp] theorem State.setSlotAt_timeRem (s : State) (c l : Nat) (sl : Slot) : (s.setSlotAt c l sl).timeRem = s.timeRem := rfl
@[simp] theorem State.setSlotAt_dram (s : State) (c l : Nat) (sl : Slot) : (s.setSlotAt c l sl).dram = s.dram := rfl
@[simp] theorem State.setSlotAt_host (s : State) (c l : Nat) (sl : Slot) : (s.setSlotAt c l sl).host = s.host := rfl
@[simp] theorem State.setSlotAt_jobs (s : State) (c l : Nat) (sl : Slot) : (s.setSlotAt c l sl).jobs = s.jobs := rfl
@[simp] theorem State.setSlotAt_ended (s : State) (c l : Nat) (sl : Slot) : (s.setSlotAt c l sl).ended = s.ended := rfl
@[simp] theorem State.setSlotAt_running (s : State) (c l : Nat) (sl : Slot) : (s.setSlotAt c l sl).running = s.running := rfl
@[simp] theorem State.setSlotAt_saved (s : State) (c l : Nat) (sl : Slot) : (s.setSlotAt c l sl).saved = s.saved := rfl
@[simp] theorem State.setSlotAt_switch (s : State) (c l : Nat) (sl : Slot) : (s.setSlotAt c l sl).switch = s.switch := rfl
@[simp] theorem State.setSlotAt_pages (s : State) (c l : Nat) (sl : Slot) : (s.setSlotAt c l sl).pages = s.pages := rfl
@[simp] theorem State.setSlotAt_migrations (s : State) (c l : Nat) (sl : Slot) : (s.setSlotAt c l sl).migrations = s.migrations := rfl
@[simp] theorem State.setSlotAt_pageAsks (s : State) (c l : Nat) (sl : Slot) : (s.setSlotAt c l sl).pageAsks = s.pageAsks := rfl
@[simp] theorem State.setSlotAt_incoming (s : State) (c l : Nat) (sl : Slot) : (s.setSlotAt c l sl).incoming = s.incoming := rfl
@[simp] theorem State.setSlotAt_shoots (s : State) (c l : Nat) (sl : Slot) : (s.setSlotAt c l sl).shoots = s.shoots := rfl
@[simp] theorem State.setSlotAt_placeAt (s : State) (c l : Nat) (sl : Slot) : (s.setSlotAt c l sl).placeAt = s.placeAt := rfl
@[simp] theorem State.setSlotAt_peers (s : State) (c l : Nat) (sl : Slot) : (s.setSlotAt c l sl).peers = s.peers := rfl
@[simp] theorem State.setSlotAt_layouts (s : State) (c l : Nat) (sl : Slot) : (s.setSlotAt c l sl).layouts = s.layouts := rfl
@[simp] theorem State.setSlotAt_links (s : State) (c l : Nat) (sl : Slot) : (s.setSlotAt c l sl).links = s.links := rfl
@[simp] theorem State.setSlotAt_streams (s : State) (c l : Nat) (sl : Slot) : (s.setSlotAt c l sl).streams = s.streams := rfl
@[simp] theorem State.setSlotAt_sent (s : State) (c l : Nat) (sl : Slot) : (s.setSlotAt c l sl).sent = s.sent := rfl
@[simp] theorem State.setSlotAt_units (s : State) (c l : Nat) (sl : Slot) : (s.setSlotAt c l sl).units = s.units := rfl
@[simp] theorem State.setSlotAt_part (s : State) (c l : Nat) (sl : Slot) : (s.setSlotAt c l sl).part = s.part := rfl
@[simp] theorem State.setSlotAt_fused (s : State) (c l : Nat) (sl : Slot) : (s.setSlotAt c l sl).fused = s.fused := rfl
@[simp] theorem State.setSlotAt_eqx (s : State) (c l : Nat) (sl : Slot) : (s.setSlotAt c l sl).eqx = s.eqx := rfl
@[simp] theorem State.setSlotAt_mach_cores (s : State) (c l : Nat) (sl : Slot) :
    (s.setSlotAt c l sl).mach.cores = s.mach.cores := rfl
@[simp] theorem State.setSlotAt_mach_tiles (s : State) (c l : Nat) (sl : Slot) :
    (s.setSlotAt c l sl).mach.tiles = s.mach.tiles := rfl
@[simp] theorem State.setSlotAt_mach_clusters (s : State) (c l : Nat) (sl : Slot) :
    (s.setSlotAt c l sl).mach.clusters = s.mach.clusters := rfl
@[simp] theorem State.setSlotAt_mach_homes (s : State) (c l : Nat) (sl : Slot) :
    (s.setSlotAt c l sl).mach.homes = s.mach.homes := rfl
@[simp] theorem State.setSlotAt_mach_engines (s : State) (c l : Nat) (sl : Slot) :
    (s.setSlotAt c l sl).mach.engines = s.mach.engines := rfl
@[simp] theorem State.setSlotAt_mach_levels (s : State) (c l : Nat) (sl : Slot) :
    (s.setSlotAt c l sl).mach.levels = s.mach.levels := rfl
@[simp] theorem State.setSlotAt_mach_draws (s : State) (c l : Nat) (sl : Slot) :
    (s.setSlotAt c l sl).mach.draws = s.mach.draws := rfl
@[simp] theorem State.setSlotAt_mach_net (s : State) (c l : Nat) (sl : Slot) :
    (s.setSlotAt c l sl).mach.net = s.mach.net := rfl
@[simp] theorem State.setSlotAt_mach_sram (s : State) (c l : Nat) (sl : Slot) :
    (s.setSlotAt c l sl).mach.sram = s.mach.sram := rfl
@[simp] theorem State.setSlotAt_mach_full (s : State) (c l : Nat) (sl : Slot) :
    (s.setSlotAt c l sl).mach.full = s.mach.full := rfl
@[simp] theorem State.setSlotAt_mach_poison (s : State) (c l : Nat) (sl : Slot) :
    (s.setSlotAt c l sl).mach.poison = s.mach.poison := rfl
@[simp] theorem State.setSlotAt_mach_acc (s : State) (c l : Nat) (sl : Slot) :
    (s.setSlotAt c l sl).mach.acc = s.mach.acc := rfl
@[simp] theorem State.setSlotAt_mach_clock (s : State) (c l : Nat) (sl : Slot) :
    (s.setSlotAt c l sl).mach.clock = s.mach.clock := rfl
@[simp] theorem State.setSlotAt_mach_starts (s : State) (c l : Nat) (sl : Slot) :
    (s.setSlotAt c l sl).mach.starts = s.mach.starts := rfl
@[simp] theorem State.setSlotAt_mach_coStarts (s : State) (c l : Nat) (sl : Slot) :
    (s.setSlotAt c l sl).mach.coStarts = s.mach.coStarts := rfl
@[simp] theorem State.setSlotAt_mach_summaryAt (s : State) (c l : Nat) (sl : Slot) :
    (s.setSlotAt c l sl).mach.summaryAt = s.mach.summaryAt := rfl
@[simp] theorem State.setSlotAt_mach_transits (s : State) (c l : Nat) (sl : Slot) :
    (s.setSlotAt c l sl).mach.transits = s.mach.transits := rfl
@[simp] theorem State.setSlotAt_mach_asks (s : State) (c l : Nat) (sl : Slot) :
    (s.setSlotAt c l sl).mach.asks = s.mach.asks := rfl
@[simp] theorem State.setSlotAt_mach_seals (s : State) (c l : Nat) (sl : Slot) :
    (s.setSlotAt c l sl).mach.seals = s.mach.seals := rfl
@[simp] theorem State.setSlotAt_mach_unsealing (s : State) (c l : Nat) (sl : Slot) :
    (s.setSlotAt c l sl).mach.unsealing = s.mach.unsealing := rfl
@[simp] theorem State.setSlotAt_mach_unquiet (s : State) (c l : Nat) (sl : Slot) :
    (s.setSlotAt c l sl).mach.unquiet = s.mach.unquiet := rfl
@[simp] theorem State.setSlotAt_mach_owesQuiet (s : State) (c l : Nat) (sl : Slot) :
    (s.setSlotAt c l sl).mach.owesQuiet = s.mach.owesQuiet := rfl
@[simp] theorem State.setSlotAt_mach_blocks (s : State) (c l : Nat) (sl : Slot) :
    (s.setSlotAt c l sl).mach.blocks = s.mach.blocks := rfl
@[simp] theorem State.setSlotAt_mach_hRecv (s : State) (c l : Nat) (sl : Slot) :
    (s.setSlotAt c l sl).mach.hRecv = s.mach.hRecv := rfl
@[simp] theorem State.setSlotAt_mach_hSend (s : State) (c l : Nat) (sl : Slot) :
    (s.setSlotAt c l sl).mach.hSend = s.mach.hSend := rfl
@[simp] theorem State.setSlotAt_mach_hQueue (s : State) (c l : Nat) (sl : Slot) :
    (s.setSlotAt c l sl).mach.hQueue = s.mach.hQueue := rfl
@[simp] theorem State.setSlotAt_mach_heldRecs (s : State) (c l : Nat) (sl : Slot) :
    (s.setSlotAt c l sl).mach.heldRecs = s.mach.heldRecs := rfl
@[simp] theorem State.setCore_turns (s : State) (c : Nat) (k : Core) : (s.setCore c k).turns = s.turns := rfl
@[simp] theorem State.setCore_free (s : State) (c : Nat) (k : Core) : (s.setCore c k).free = s.free := rfl
@[simp] theorem State.setCore_cur (s : State) (c : Nat) (k : Core) : (s.setCore c k).cur = s.cur := rfl
@[simp] theorem State.setCore_now (s : State) (c : Nat) (k : Core) : (s.setCore c k).now = s.now := rfl
@[simp] theorem State.setCore_time (s : State) (c : Nat) (k : Core) : (s.setCore c k).time = s.time := rfl
@[simp] theorem State.setCore_timeRem (s : State) (c : Nat) (k : Core) : (s.setCore c k).timeRem = s.timeRem := rfl
@[simp] theorem State.setCore_dram (s : State) (c : Nat) (k : Core) : (s.setCore c k).dram = s.dram := rfl
@[simp] theorem State.setCore_host (s : State) (c : Nat) (k : Core) : (s.setCore c k).host = s.host := rfl
@[simp] theorem State.setCore_jobs (s : State) (c : Nat) (k : Core) : (s.setCore c k).jobs = s.jobs := rfl
@[simp] theorem State.setCore_ended (s : State) (c : Nat) (k : Core) : (s.setCore c k).ended = s.ended := rfl
@[simp] theorem State.setCore_running (s : State) (c : Nat) (k : Core) : (s.setCore c k).running = s.running := rfl
@[simp] theorem State.setCore_saved (s : State) (c : Nat) (k : Core) : (s.setCore c k).saved = s.saved := rfl
@[simp] theorem State.setCore_switch (s : State) (c : Nat) (k : Core) : (s.setCore c k).switch = s.switch := rfl
@[simp] theorem State.setCore_pages (s : State) (c : Nat) (k : Core) : (s.setCore c k).pages = s.pages := rfl
@[simp] theorem State.setCore_migrations (s : State) (c : Nat) (k : Core) : (s.setCore c k).migrations = s.migrations := rfl
@[simp] theorem State.setCore_pageAsks (s : State) (c : Nat) (k : Core) : (s.setCore c k).pageAsks = s.pageAsks := rfl
@[simp] theorem State.setCore_incoming (s : State) (c : Nat) (k : Core) : (s.setCore c k).incoming = s.incoming := rfl
@[simp] theorem State.setCore_shoots (s : State) (c : Nat) (k : Core) : (s.setCore c k).shoots = s.shoots := rfl
@[simp] theorem State.setCore_placeAt (s : State) (c : Nat) (k : Core) : (s.setCore c k).placeAt = s.placeAt := rfl
@[simp] theorem State.setCore_peers (s : State) (c : Nat) (k : Core) : (s.setCore c k).peers = s.peers := rfl
@[simp] theorem State.setCore_layouts (s : State) (c : Nat) (k : Core) : (s.setCore c k).layouts = s.layouts := rfl
@[simp] theorem State.setCore_links (s : State) (c : Nat) (k : Core) : (s.setCore c k).links = s.links := rfl
@[simp] theorem State.setCore_streams (s : State) (c : Nat) (k : Core) : (s.setCore c k).streams = s.streams := rfl
@[simp] theorem State.setCore_sent (s : State) (c : Nat) (k : Core) : (s.setCore c k).sent = s.sent := rfl
@[simp] theorem State.setCore_units (s : State) (c : Nat) (k : Core) : (s.setCore c k).units = s.units := rfl
@[simp] theorem State.setCore_part (s : State) (c : Nat) (k : Core) : (s.setCore c k).part = s.part := rfl
@[simp] theorem State.setCore_fused (s : State) (c : Nat) (k : Core) : (s.setCore c k).fused = s.fused := rfl
@[simp] theorem State.setCore_eqx (s : State) (c : Nat) (k : Core) : (s.setCore c k).eqx = s.eqx := rfl
@[simp] theorem State.setCore_mach_slots (s : State) (c : Nat) (k : Core) :
    (s.setCore c k).mach.slots = s.mach.slots := rfl
@[simp] theorem State.setCore_mach_tiles (s : State) (c : Nat) (k : Core) :
    (s.setCore c k).mach.tiles = s.mach.tiles := rfl
@[simp] theorem State.setCore_mach_clusters (s : State) (c : Nat) (k : Core) :
    (s.setCore c k).mach.clusters = s.mach.clusters := rfl
@[simp] theorem State.setCore_mach_homes (s : State) (c : Nat) (k : Core) :
    (s.setCore c k).mach.homes = s.mach.homes := rfl
@[simp] theorem State.setCore_mach_engines (s : State) (c : Nat) (k : Core) :
    (s.setCore c k).mach.engines = s.mach.engines := rfl
@[simp] theorem State.setCore_mach_levels (s : State) (c : Nat) (k : Core) :
    (s.setCore c k).mach.levels = s.mach.levels := rfl
@[simp] theorem State.setCore_mach_draws (s : State) (c : Nat) (k : Core) :
    (s.setCore c k).mach.draws = s.mach.draws := rfl
@[simp] theorem State.setCore_mach_net (s : State) (c : Nat) (k : Core) :
    (s.setCore c k).mach.net = s.mach.net := rfl
@[simp] theorem State.setCore_mach_sram (s : State) (c : Nat) (k : Core) :
    (s.setCore c k).mach.sram = s.mach.sram := rfl
@[simp] theorem State.setCore_mach_full (s : State) (c : Nat) (k : Core) :
    (s.setCore c k).mach.full = s.mach.full := rfl
@[simp] theorem State.setCore_mach_poison (s : State) (c : Nat) (k : Core) :
    (s.setCore c k).mach.poison = s.mach.poison := rfl
@[simp] theorem State.setCore_mach_acc (s : State) (c : Nat) (k : Core) :
    (s.setCore c k).mach.acc = s.mach.acc := rfl
@[simp] theorem State.setCore_mach_clock (s : State) (c : Nat) (k : Core) :
    (s.setCore c k).mach.clock = s.mach.clock := rfl
@[simp] theorem State.setCore_mach_starts (s : State) (c : Nat) (k : Core) :
    (s.setCore c k).mach.starts = s.mach.starts := rfl
@[simp] theorem State.setCore_mach_coStarts (s : State) (c : Nat) (k : Core) :
    (s.setCore c k).mach.coStarts = s.mach.coStarts := rfl
@[simp] theorem State.setCore_mach_summaryAt (s : State) (c : Nat) (k : Core) :
    (s.setCore c k).mach.summaryAt = s.mach.summaryAt := rfl
@[simp] theorem State.setCore_mach_transits (s : State) (c : Nat) (k : Core) :
    (s.setCore c k).mach.transits = s.mach.transits := rfl
@[simp] theorem State.setCore_mach_asks (s : State) (c : Nat) (k : Core) :
    (s.setCore c k).mach.asks = s.mach.asks := rfl
@[simp] theorem State.setCore_mach_seals (s : State) (c : Nat) (k : Core) :
    (s.setCore c k).mach.seals = s.mach.seals := rfl
@[simp] theorem State.setCore_mach_unsealing (s : State) (c : Nat) (k : Core) :
    (s.setCore c k).mach.unsealing = s.mach.unsealing := rfl
@[simp] theorem State.setCore_mach_unquiet (s : State) (c : Nat) (k : Core) :
    (s.setCore c k).mach.unquiet = s.mach.unquiet := rfl
@[simp] theorem State.setCore_mach_owesQuiet (s : State) (c : Nat) (k : Core) :
    (s.setCore c k).mach.owesQuiet = s.mach.owesQuiet := rfl
@[simp] theorem State.setCore_mach_blocks (s : State) (c : Nat) (k : Core) :
    (s.setCore c k).mach.blocks = s.mach.blocks := rfl
@[simp] theorem State.setCore_mach_hRecv (s : State) (c : Nat) (k : Core) :
    (s.setCore c k).mach.hRecv = s.mach.hRecv := rfl
@[simp] theorem State.setCore_mach_hSend (s : State) (c : Nat) (k : Core) :
    (s.setCore c k).mach.hSend = s.mach.hSend := rfl
@[simp] theorem State.setCore_mach_hQueue (s : State) (c : Nat) (k : Core) :
    (s.setCore c k).mach.hQueue = s.mach.hQueue := rfl
@[simp] theorem State.setCore_mach_heldRecs (s : State) (c : Nat) (k : Core) :
    (s.setCore c k).mach.heldRecs = s.mach.heldRecs := rfl
@[simp] theorem State.updTile_turns (s : State) (n : Nat) (f : Tile → Tile) : (s.updTile n f).turns = s.turns := rfl
@[simp] theorem State.updTile_free (s : State) (n : Nat) (f : Tile → Tile) : (s.updTile n f).free = s.free := rfl
@[simp] theorem State.updTile_cur (s : State) (n : Nat) (f : Tile → Tile) : (s.updTile n f).cur = s.cur := rfl
@[simp] theorem State.updTile_now (s : State) (n : Nat) (f : Tile → Tile) : (s.updTile n f).now = s.now := rfl
@[simp] theorem State.updTile_time (s : State) (n : Nat) (f : Tile → Tile) : (s.updTile n f).time = s.time := rfl
@[simp] theorem State.updTile_timeRem (s : State) (n : Nat) (f : Tile → Tile) : (s.updTile n f).timeRem = s.timeRem := rfl
@[simp] theorem State.updTile_dram (s : State) (n : Nat) (f : Tile → Tile) : (s.updTile n f).dram = s.dram := rfl
@[simp] theorem State.updTile_host (s : State) (n : Nat) (f : Tile → Tile) : (s.updTile n f).host = s.host := rfl
@[simp] theorem State.updTile_jobs (s : State) (n : Nat) (f : Tile → Tile) : (s.updTile n f).jobs = s.jobs := rfl
@[simp] theorem State.updTile_ended (s : State) (n : Nat) (f : Tile → Tile) : (s.updTile n f).ended = s.ended := rfl
@[simp] theorem State.updTile_running (s : State) (n : Nat) (f : Tile → Tile) : (s.updTile n f).running = s.running := rfl
@[simp] theorem State.updTile_saved (s : State) (n : Nat) (f : Tile → Tile) : (s.updTile n f).saved = s.saved := rfl
@[simp] theorem State.updTile_switch (s : State) (n : Nat) (f : Tile → Tile) : (s.updTile n f).switch = s.switch := rfl
@[simp] theorem State.updTile_pages (s : State) (n : Nat) (f : Tile → Tile) : (s.updTile n f).pages = s.pages := rfl
@[simp] theorem State.updTile_migrations (s : State) (n : Nat) (f : Tile → Tile) : (s.updTile n f).migrations = s.migrations := rfl
@[simp] theorem State.updTile_pageAsks (s : State) (n : Nat) (f : Tile → Tile) : (s.updTile n f).pageAsks = s.pageAsks := rfl
@[simp] theorem State.updTile_incoming (s : State) (n : Nat) (f : Tile → Tile) : (s.updTile n f).incoming = s.incoming := rfl
@[simp] theorem State.updTile_shoots (s : State) (n : Nat) (f : Tile → Tile) : (s.updTile n f).shoots = s.shoots := rfl
@[simp] theorem State.updTile_placeAt (s : State) (n : Nat) (f : Tile → Tile) : (s.updTile n f).placeAt = s.placeAt := rfl
@[simp] theorem State.updTile_peers (s : State) (n : Nat) (f : Tile → Tile) : (s.updTile n f).peers = s.peers := rfl
@[simp] theorem State.updTile_layouts (s : State) (n : Nat) (f : Tile → Tile) : (s.updTile n f).layouts = s.layouts := rfl
@[simp] theorem State.updTile_links (s : State) (n : Nat) (f : Tile → Tile) : (s.updTile n f).links = s.links := rfl
@[simp] theorem State.updTile_streams (s : State) (n : Nat) (f : Tile → Tile) : (s.updTile n f).streams = s.streams := rfl
@[simp] theorem State.updTile_sent (s : State) (n : Nat) (f : Tile → Tile) : (s.updTile n f).sent = s.sent := rfl
@[simp] theorem State.updTile_units (s : State) (n : Nat) (f : Tile → Tile) : (s.updTile n f).units = s.units := rfl
@[simp] theorem State.updTile_part (s : State) (n : Nat) (f : Tile → Tile) : (s.updTile n f).part = s.part := rfl
@[simp] theorem State.updTile_fused (s : State) (n : Nat) (f : Tile → Tile) : (s.updTile n f).fused = s.fused := rfl
@[simp] theorem State.updTile_eqx (s : State) (n : Nat) (f : Tile → Tile) : (s.updTile n f).eqx = s.eqx := rfl
@[simp] theorem State.updTile_mach_slots (s : State) (n : Nat) (f : Tile → Tile) :
    (s.updTile n f).mach.slots = s.mach.slots := rfl
@[simp] theorem State.updTile_mach_cores (s : State) (n : Nat) (f : Tile → Tile) :
    (s.updTile n f).mach.cores = s.mach.cores := rfl
@[simp] theorem State.updTile_mach_clusters (s : State) (n : Nat) (f : Tile → Tile) :
    (s.updTile n f).mach.clusters = s.mach.clusters := rfl
@[simp] theorem State.updTile_mach_homes (s : State) (n : Nat) (f : Tile → Tile) :
    (s.updTile n f).mach.homes = s.mach.homes := rfl
@[simp] theorem State.updTile_mach_engines (s : State) (n : Nat) (f : Tile → Tile) :
    (s.updTile n f).mach.engines = s.mach.engines := rfl
@[simp] theorem State.updTile_mach_levels (s : State) (n : Nat) (f : Tile → Tile) :
    (s.updTile n f).mach.levels = s.mach.levels := rfl
@[simp] theorem State.updTile_mach_draws (s : State) (n : Nat) (f : Tile → Tile) :
    (s.updTile n f).mach.draws = s.mach.draws := rfl
@[simp] theorem State.updTile_mach_net (s : State) (n : Nat) (f : Tile → Tile) :
    (s.updTile n f).mach.net = s.mach.net := rfl
@[simp] theorem State.updTile_mach_sram (s : State) (n : Nat) (f : Tile → Tile) :
    (s.updTile n f).mach.sram = s.mach.sram := rfl
@[simp] theorem State.updTile_mach_full (s : State) (n : Nat) (f : Tile → Tile) :
    (s.updTile n f).mach.full = s.mach.full := rfl
@[simp] theorem State.updTile_mach_poison (s : State) (n : Nat) (f : Tile → Tile) :
    (s.updTile n f).mach.poison = s.mach.poison := rfl
@[simp] theorem State.updTile_mach_acc (s : State) (n : Nat) (f : Tile → Tile) :
    (s.updTile n f).mach.acc = s.mach.acc := rfl
@[simp] theorem State.updTile_mach_clock (s : State) (n : Nat) (f : Tile → Tile) :
    (s.updTile n f).mach.clock = s.mach.clock := rfl
@[simp] theorem State.updTile_mach_starts (s : State) (n : Nat) (f : Tile → Tile) :
    (s.updTile n f).mach.starts = s.mach.starts := rfl
@[simp] theorem State.updTile_mach_coStarts (s : State) (n : Nat) (f : Tile → Tile) :
    (s.updTile n f).mach.coStarts = s.mach.coStarts := rfl
@[simp] theorem State.updTile_mach_summaryAt (s : State) (n : Nat) (f : Tile → Tile) :
    (s.updTile n f).mach.summaryAt = s.mach.summaryAt := rfl
@[simp] theorem State.updTile_mach_transits (s : State) (n : Nat) (f : Tile → Tile) :
    (s.updTile n f).mach.transits = s.mach.transits := rfl
@[simp] theorem State.updTile_mach_asks (s : State) (n : Nat) (f : Tile → Tile) :
    (s.updTile n f).mach.asks = s.mach.asks := rfl
@[simp] theorem State.updTile_mach_seals (s : State) (n : Nat) (f : Tile → Tile) :
    (s.updTile n f).mach.seals = s.mach.seals := rfl
@[simp] theorem State.updTile_mach_unsealing (s : State) (n : Nat) (f : Tile → Tile) :
    (s.updTile n f).mach.unsealing = s.mach.unsealing := rfl
@[simp] theorem State.updTile_mach_unquiet (s : State) (n : Nat) (f : Tile → Tile) :
    (s.updTile n f).mach.unquiet = s.mach.unquiet := rfl
@[simp] theorem State.updTile_mach_owesQuiet (s : State) (n : Nat) (f : Tile → Tile) :
    (s.updTile n f).mach.owesQuiet = s.mach.owesQuiet := rfl
@[simp] theorem State.updTile_mach_blocks (s : State) (n : Nat) (f : Tile → Tile) :
    (s.updTile n f).mach.blocks = s.mach.blocks := rfl
@[simp] theorem State.updTile_mach_hRecv (s : State) (n : Nat) (f : Tile → Tile) :
    (s.updTile n f).mach.hRecv = s.mach.hRecv := rfl
@[simp] theorem State.updTile_mach_hSend (s : State) (n : Nat) (f : Tile → Tile) :
    (s.updTile n f).mach.hSend = s.mach.hSend := rfl
@[simp] theorem State.updTile_mach_hQueue (s : State) (n : Nat) (f : Tile → Tile) :
    (s.updTile n f).mach.hQueue = s.mach.hQueue := rfl
@[simp] theorem State.updTile_mach_heldRecs (s : State) (n : Nat) (f : Tile → Tile) :
    (s.updTile n f).mach.heldRecs = s.mach.heldRecs := rfl
@[simp] theorem State.updHome_turns (s : State) (n : Nat) (f : Home → Home) : (s.updHome n f).turns = s.turns := rfl
@[simp] theorem State.updHome_free (s : State) (n : Nat) (f : Home → Home) : (s.updHome n f).free = s.free := rfl
@[simp] theorem State.updHome_cur (s : State) (n : Nat) (f : Home → Home) : (s.updHome n f).cur = s.cur := rfl
@[simp] theorem State.updHome_now (s : State) (n : Nat) (f : Home → Home) : (s.updHome n f).now = s.now := rfl
@[simp] theorem State.updHome_time (s : State) (n : Nat) (f : Home → Home) : (s.updHome n f).time = s.time := rfl
@[simp] theorem State.updHome_timeRem (s : State) (n : Nat) (f : Home → Home) : (s.updHome n f).timeRem = s.timeRem := rfl
@[simp] theorem State.updHome_dram (s : State) (n : Nat) (f : Home → Home) : (s.updHome n f).dram = s.dram := rfl
@[simp] theorem State.updHome_host (s : State) (n : Nat) (f : Home → Home) : (s.updHome n f).host = s.host := rfl
@[simp] theorem State.updHome_jobs (s : State) (n : Nat) (f : Home → Home) : (s.updHome n f).jobs = s.jobs := rfl
@[simp] theorem State.updHome_ended (s : State) (n : Nat) (f : Home → Home) : (s.updHome n f).ended = s.ended := rfl
@[simp] theorem State.updHome_running (s : State) (n : Nat) (f : Home → Home) : (s.updHome n f).running = s.running := rfl
@[simp] theorem State.updHome_saved (s : State) (n : Nat) (f : Home → Home) : (s.updHome n f).saved = s.saved := rfl
@[simp] theorem State.updHome_switch (s : State) (n : Nat) (f : Home → Home) : (s.updHome n f).switch = s.switch := rfl
@[simp] theorem State.updHome_pages (s : State) (n : Nat) (f : Home → Home) : (s.updHome n f).pages = s.pages := rfl
@[simp] theorem State.updHome_migrations (s : State) (n : Nat) (f : Home → Home) : (s.updHome n f).migrations = s.migrations := rfl
@[simp] theorem State.updHome_pageAsks (s : State) (n : Nat) (f : Home → Home) : (s.updHome n f).pageAsks = s.pageAsks := rfl
@[simp] theorem State.updHome_incoming (s : State) (n : Nat) (f : Home → Home) : (s.updHome n f).incoming = s.incoming := rfl
@[simp] theorem State.updHome_shoots (s : State) (n : Nat) (f : Home → Home) : (s.updHome n f).shoots = s.shoots := rfl
@[simp] theorem State.updHome_placeAt (s : State) (n : Nat) (f : Home → Home) : (s.updHome n f).placeAt = s.placeAt := rfl
@[simp] theorem State.updHome_peers (s : State) (n : Nat) (f : Home → Home) : (s.updHome n f).peers = s.peers := rfl
@[simp] theorem State.updHome_layouts (s : State) (n : Nat) (f : Home → Home) : (s.updHome n f).layouts = s.layouts := rfl
@[simp] theorem State.updHome_links (s : State) (n : Nat) (f : Home → Home) : (s.updHome n f).links = s.links := rfl
@[simp] theorem State.updHome_streams (s : State) (n : Nat) (f : Home → Home) : (s.updHome n f).streams = s.streams := rfl
@[simp] theorem State.updHome_sent (s : State) (n : Nat) (f : Home → Home) : (s.updHome n f).sent = s.sent := rfl
@[simp] theorem State.updHome_units (s : State) (n : Nat) (f : Home → Home) : (s.updHome n f).units = s.units := rfl
@[simp] theorem State.updHome_part (s : State) (n : Nat) (f : Home → Home) : (s.updHome n f).part = s.part := rfl
@[simp] theorem State.updHome_fused (s : State) (n : Nat) (f : Home → Home) : (s.updHome n f).fused = s.fused := rfl
@[simp] theorem State.updHome_eqx (s : State) (n : Nat) (f : Home → Home) : (s.updHome n f).eqx = s.eqx := rfl
@[simp] theorem State.updHome_mach_slots (s : State) (n : Nat) (f : Home → Home) :
    (s.updHome n f).mach.slots = s.mach.slots := rfl
@[simp] theorem State.updHome_mach_cores (s : State) (n : Nat) (f : Home → Home) :
    (s.updHome n f).mach.cores = s.mach.cores := rfl
@[simp] theorem State.updHome_mach_tiles (s : State) (n : Nat) (f : Home → Home) :
    (s.updHome n f).mach.tiles = s.mach.tiles := rfl
@[simp] theorem State.updHome_mach_clusters (s : State) (n : Nat) (f : Home → Home) :
    (s.updHome n f).mach.clusters = s.mach.clusters := rfl
@[simp] theorem State.updHome_mach_engines (s : State) (n : Nat) (f : Home → Home) :
    (s.updHome n f).mach.engines = s.mach.engines := rfl
@[simp] theorem State.updHome_mach_levels (s : State) (n : Nat) (f : Home → Home) :
    (s.updHome n f).mach.levels = s.mach.levels := rfl
@[simp] theorem State.updHome_mach_draws (s : State) (n : Nat) (f : Home → Home) :
    (s.updHome n f).mach.draws = s.mach.draws := rfl
@[simp] theorem State.updHome_mach_net (s : State) (n : Nat) (f : Home → Home) :
    (s.updHome n f).mach.net = s.mach.net := rfl
@[simp] theorem State.updHome_mach_sram (s : State) (n : Nat) (f : Home → Home) :
    (s.updHome n f).mach.sram = s.mach.sram := rfl
@[simp] theorem State.updHome_mach_full (s : State) (n : Nat) (f : Home → Home) :
    (s.updHome n f).mach.full = s.mach.full := rfl
@[simp] theorem State.updHome_mach_poison (s : State) (n : Nat) (f : Home → Home) :
    (s.updHome n f).mach.poison = s.mach.poison := rfl
@[simp] theorem State.updHome_mach_acc (s : State) (n : Nat) (f : Home → Home) :
    (s.updHome n f).mach.acc = s.mach.acc := rfl
@[simp] theorem State.updHome_mach_clock (s : State) (n : Nat) (f : Home → Home) :
    (s.updHome n f).mach.clock = s.mach.clock := rfl
@[simp] theorem State.updHome_mach_starts (s : State) (n : Nat) (f : Home → Home) :
    (s.updHome n f).mach.starts = s.mach.starts := rfl
@[simp] theorem State.updHome_mach_coStarts (s : State) (n : Nat) (f : Home → Home) :
    (s.updHome n f).mach.coStarts = s.mach.coStarts := rfl
@[simp] theorem State.updHome_mach_summaryAt (s : State) (n : Nat) (f : Home → Home) :
    (s.updHome n f).mach.summaryAt = s.mach.summaryAt := rfl
@[simp] theorem State.updHome_mach_transits (s : State) (n : Nat) (f : Home → Home) :
    (s.updHome n f).mach.transits = s.mach.transits := rfl
@[simp] theorem State.updHome_mach_asks (s : State) (n : Nat) (f : Home → Home) :
    (s.updHome n f).mach.asks = s.mach.asks := rfl
@[simp] theorem State.updHome_mach_seals (s : State) (n : Nat) (f : Home → Home) :
    (s.updHome n f).mach.seals = s.mach.seals := rfl
@[simp] theorem State.updHome_mach_unsealing (s : State) (n : Nat) (f : Home → Home) :
    (s.updHome n f).mach.unsealing = s.mach.unsealing := rfl
@[simp] theorem State.updHome_mach_unquiet (s : State) (n : Nat) (f : Home → Home) :
    (s.updHome n f).mach.unquiet = s.mach.unquiet := rfl
@[simp] theorem State.updHome_mach_owesQuiet (s : State) (n : Nat) (f : Home → Home) :
    (s.updHome n f).mach.owesQuiet = s.mach.owesQuiet := rfl
@[simp] theorem State.updHome_mach_blocks (s : State) (n : Nat) (f : Home → Home) :
    (s.updHome n f).mach.blocks = s.mach.blocks := rfl
@[simp] theorem State.updHome_mach_hRecv (s : State) (n : Nat) (f : Home → Home) :
    (s.updHome n f).mach.hRecv = s.mach.hRecv := rfl
@[simp] theorem State.updHome_mach_hSend (s : State) (n : Nat) (f : Home → Home) :
    (s.updHome n f).mach.hSend = s.mach.hSend := rfl
@[simp] theorem State.updHome_mach_hQueue (s : State) (n : Nat) (f : Home → Home) :
    (s.updHome n f).mach.hQueue = s.mach.hQueue := rfl
@[simp] theorem State.updHome_mach_heldRecs (s : State) (n : Nat) (f : Home → Home) :
    (s.updHome n f).mach.heldRecs = s.mach.heldRecs := rfl
@[simp] theorem State.updEngine_turns (s : State) (n : Nat) (f : Engine → Engine) : (s.updEngine n f).turns = s.turns := rfl
@[simp] theorem State.updEngine_free (s : State) (n : Nat) (f : Engine → Engine) : (s.updEngine n f).free = s.free := rfl
@[simp] theorem State.updEngine_cur (s : State) (n : Nat) (f : Engine → Engine) : (s.updEngine n f).cur = s.cur := rfl
@[simp] theorem State.updEngine_now (s : State) (n : Nat) (f : Engine → Engine) : (s.updEngine n f).now = s.now := rfl
@[simp] theorem State.updEngine_time (s : State) (n : Nat) (f : Engine → Engine) : (s.updEngine n f).time = s.time := rfl
@[simp] theorem State.updEngine_timeRem (s : State) (n : Nat) (f : Engine → Engine) : (s.updEngine n f).timeRem = s.timeRem := rfl
@[simp] theorem State.updEngine_dram (s : State) (n : Nat) (f : Engine → Engine) : (s.updEngine n f).dram = s.dram := rfl
@[simp] theorem State.updEngine_host (s : State) (n : Nat) (f : Engine → Engine) : (s.updEngine n f).host = s.host := rfl
@[simp] theorem State.updEngine_jobs (s : State) (n : Nat) (f : Engine → Engine) : (s.updEngine n f).jobs = s.jobs := rfl
@[simp] theorem State.updEngine_ended (s : State) (n : Nat) (f : Engine → Engine) : (s.updEngine n f).ended = s.ended := rfl
@[simp] theorem State.updEngine_running (s : State) (n : Nat) (f : Engine → Engine) : (s.updEngine n f).running = s.running := rfl
@[simp] theorem State.updEngine_saved (s : State) (n : Nat) (f : Engine → Engine) : (s.updEngine n f).saved = s.saved := rfl
@[simp] theorem State.updEngine_switch (s : State) (n : Nat) (f : Engine → Engine) : (s.updEngine n f).switch = s.switch := rfl
@[simp] theorem State.updEngine_pages (s : State) (n : Nat) (f : Engine → Engine) : (s.updEngine n f).pages = s.pages := rfl
@[simp] theorem State.updEngine_migrations (s : State) (n : Nat) (f : Engine → Engine) : (s.updEngine n f).migrations = s.migrations := rfl
@[simp] theorem State.updEngine_pageAsks (s : State) (n : Nat) (f : Engine → Engine) : (s.updEngine n f).pageAsks = s.pageAsks := rfl
@[simp] theorem State.updEngine_incoming (s : State) (n : Nat) (f : Engine → Engine) : (s.updEngine n f).incoming = s.incoming := rfl
@[simp] theorem State.updEngine_shoots (s : State) (n : Nat) (f : Engine → Engine) : (s.updEngine n f).shoots = s.shoots := rfl
@[simp] theorem State.updEngine_placeAt (s : State) (n : Nat) (f : Engine → Engine) : (s.updEngine n f).placeAt = s.placeAt := rfl
@[simp] theorem State.updEngine_peers (s : State) (n : Nat) (f : Engine → Engine) : (s.updEngine n f).peers = s.peers := rfl
@[simp] theorem State.updEngine_layouts (s : State) (n : Nat) (f : Engine → Engine) : (s.updEngine n f).layouts = s.layouts := rfl
@[simp] theorem State.updEngine_links (s : State) (n : Nat) (f : Engine → Engine) : (s.updEngine n f).links = s.links := rfl
@[simp] theorem State.updEngine_streams (s : State) (n : Nat) (f : Engine → Engine) : (s.updEngine n f).streams = s.streams := rfl
@[simp] theorem State.updEngine_sent (s : State) (n : Nat) (f : Engine → Engine) : (s.updEngine n f).sent = s.sent := rfl
@[simp] theorem State.updEngine_units (s : State) (n : Nat) (f : Engine → Engine) : (s.updEngine n f).units = s.units := rfl
@[simp] theorem State.updEngine_part (s : State) (n : Nat) (f : Engine → Engine) : (s.updEngine n f).part = s.part := rfl
@[simp] theorem State.updEngine_fused (s : State) (n : Nat) (f : Engine → Engine) : (s.updEngine n f).fused = s.fused := rfl
@[simp] theorem State.updEngine_eqx (s : State) (n : Nat) (f : Engine → Engine) : (s.updEngine n f).eqx = s.eqx := rfl
@[simp] theorem State.updEngine_mach_slots (s : State) (n : Nat) (f : Engine → Engine) :
    (s.updEngine n f).mach.slots = s.mach.slots := rfl
@[simp] theorem State.updEngine_mach_cores (s : State) (n : Nat) (f : Engine → Engine) :
    (s.updEngine n f).mach.cores = s.mach.cores := rfl
@[simp] theorem State.updEngine_mach_tiles (s : State) (n : Nat) (f : Engine → Engine) :
    (s.updEngine n f).mach.tiles = s.mach.tiles := rfl
@[simp] theorem State.updEngine_mach_clusters (s : State) (n : Nat) (f : Engine → Engine) :
    (s.updEngine n f).mach.clusters = s.mach.clusters := rfl
@[simp] theorem State.updEngine_mach_homes (s : State) (n : Nat) (f : Engine → Engine) :
    (s.updEngine n f).mach.homes = s.mach.homes := rfl
@[simp] theorem State.updEngine_mach_levels (s : State) (n : Nat) (f : Engine → Engine) :
    (s.updEngine n f).mach.levels = s.mach.levels := rfl
@[simp] theorem State.updEngine_mach_draws (s : State) (n : Nat) (f : Engine → Engine) :
    (s.updEngine n f).mach.draws = s.mach.draws := rfl
@[simp] theorem State.updEngine_mach_net (s : State) (n : Nat) (f : Engine → Engine) :
    (s.updEngine n f).mach.net = s.mach.net := rfl
@[simp] theorem State.updEngine_mach_sram (s : State) (n : Nat) (f : Engine → Engine) :
    (s.updEngine n f).mach.sram = s.mach.sram := rfl
@[simp] theorem State.updEngine_mach_full (s : State) (n : Nat) (f : Engine → Engine) :
    (s.updEngine n f).mach.full = s.mach.full := rfl
@[simp] theorem State.updEngine_mach_poison (s : State) (n : Nat) (f : Engine → Engine) :
    (s.updEngine n f).mach.poison = s.mach.poison := rfl
@[simp] theorem State.updEngine_mach_acc (s : State) (n : Nat) (f : Engine → Engine) :
    (s.updEngine n f).mach.acc = s.mach.acc := rfl
@[simp] theorem State.updEngine_mach_clock (s : State) (n : Nat) (f : Engine → Engine) :
    (s.updEngine n f).mach.clock = s.mach.clock := rfl
@[simp] theorem State.updEngine_mach_starts (s : State) (n : Nat) (f : Engine → Engine) :
    (s.updEngine n f).mach.starts = s.mach.starts := rfl
@[simp] theorem State.updEngine_mach_coStarts (s : State) (n : Nat) (f : Engine → Engine) :
    (s.updEngine n f).mach.coStarts = s.mach.coStarts := rfl
@[simp] theorem State.updEngine_mach_summaryAt (s : State) (n : Nat) (f : Engine → Engine) :
    (s.updEngine n f).mach.summaryAt = s.mach.summaryAt := rfl
@[simp] theorem State.updEngine_mach_transits (s : State) (n : Nat) (f : Engine → Engine) :
    (s.updEngine n f).mach.transits = s.mach.transits := rfl
@[simp] theorem State.updEngine_mach_asks (s : State) (n : Nat) (f : Engine → Engine) :
    (s.updEngine n f).mach.asks = s.mach.asks := rfl
@[simp] theorem State.updEngine_mach_seals (s : State) (n : Nat) (f : Engine → Engine) :
    (s.updEngine n f).mach.seals = s.mach.seals := rfl
@[simp] theorem State.updEngine_mach_unsealing (s : State) (n : Nat) (f : Engine → Engine) :
    (s.updEngine n f).mach.unsealing = s.mach.unsealing := rfl
@[simp] theorem State.updEngine_mach_unquiet (s : State) (n : Nat) (f : Engine → Engine) :
    (s.updEngine n f).mach.unquiet = s.mach.unquiet := rfl
@[simp] theorem State.updEngine_mach_owesQuiet (s : State) (n : Nat) (f : Engine → Engine) :
    (s.updEngine n f).mach.owesQuiet = s.mach.owesQuiet := rfl
@[simp] theorem State.updEngine_mach_blocks (s : State) (n : Nat) (f : Engine → Engine) :
    (s.updEngine n f).mach.blocks = s.mach.blocks := rfl
@[simp] theorem State.updEngine_mach_hRecv (s : State) (n : Nat) (f : Engine → Engine) :
    (s.updEngine n f).mach.hRecv = s.mach.hRecv := rfl
@[simp] theorem State.updEngine_mach_hSend (s : State) (n : Nat) (f : Engine → Engine) :
    (s.updEngine n f).mach.hSend = s.mach.hSend := rfl
@[simp] theorem State.updEngine_mach_hQueue (s : State) (n : Nat) (f : Engine → Engine) :
    (s.updEngine n f).mach.hQueue = s.mach.hQueue := rfl
@[simp] theorem State.updEngine_mach_heldRecs (s : State) (n : Nat) (f : Engine → Engine) :
    (s.updEngine n f).mach.heldRecs = s.mach.heldRecs := rfl
@[simp] theorem State.updCluster_turns (s : State) (n : Nat) (f : Cluster → Cluster) : (s.updCluster n f).turns = s.turns := rfl
@[simp] theorem State.updCluster_free (s : State) (n : Nat) (f : Cluster → Cluster) : (s.updCluster n f).free = s.free := rfl
@[simp] theorem State.updCluster_cur (s : State) (n : Nat) (f : Cluster → Cluster) : (s.updCluster n f).cur = s.cur := rfl
@[simp] theorem State.updCluster_now (s : State) (n : Nat) (f : Cluster → Cluster) : (s.updCluster n f).now = s.now := rfl
@[simp] theorem State.updCluster_time (s : State) (n : Nat) (f : Cluster → Cluster) : (s.updCluster n f).time = s.time := rfl
@[simp] theorem State.updCluster_timeRem (s : State) (n : Nat) (f : Cluster → Cluster) : (s.updCluster n f).timeRem = s.timeRem := rfl
@[simp] theorem State.updCluster_dram (s : State) (n : Nat) (f : Cluster → Cluster) : (s.updCluster n f).dram = s.dram := rfl
@[simp] theorem State.updCluster_host (s : State) (n : Nat) (f : Cluster → Cluster) : (s.updCluster n f).host = s.host := rfl
@[simp] theorem State.updCluster_jobs (s : State) (n : Nat) (f : Cluster → Cluster) : (s.updCluster n f).jobs = s.jobs := rfl
@[simp] theorem State.updCluster_ended (s : State) (n : Nat) (f : Cluster → Cluster) : (s.updCluster n f).ended = s.ended := rfl
@[simp] theorem State.updCluster_running (s : State) (n : Nat) (f : Cluster → Cluster) : (s.updCluster n f).running = s.running := rfl
@[simp] theorem State.updCluster_saved (s : State) (n : Nat) (f : Cluster → Cluster) : (s.updCluster n f).saved = s.saved := rfl
@[simp] theorem State.updCluster_switch (s : State) (n : Nat) (f : Cluster → Cluster) : (s.updCluster n f).switch = s.switch := rfl
@[simp] theorem State.updCluster_pages (s : State) (n : Nat) (f : Cluster → Cluster) : (s.updCluster n f).pages = s.pages := rfl
@[simp] theorem State.updCluster_migrations (s : State) (n : Nat) (f : Cluster → Cluster) : (s.updCluster n f).migrations = s.migrations := rfl
@[simp] theorem State.updCluster_pageAsks (s : State) (n : Nat) (f : Cluster → Cluster) : (s.updCluster n f).pageAsks = s.pageAsks := rfl
@[simp] theorem State.updCluster_incoming (s : State) (n : Nat) (f : Cluster → Cluster) : (s.updCluster n f).incoming = s.incoming := rfl
@[simp] theorem State.updCluster_shoots (s : State) (n : Nat) (f : Cluster → Cluster) : (s.updCluster n f).shoots = s.shoots := rfl
@[simp] theorem State.updCluster_placeAt (s : State) (n : Nat) (f : Cluster → Cluster) : (s.updCluster n f).placeAt = s.placeAt := rfl
@[simp] theorem State.updCluster_peers (s : State) (n : Nat) (f : Cluster → Cluster) : (s.updCluster n f).peers = s.peers := rfl
@[simp] theorem State.updCluster_layouts (s : State) (n : Nat) (f : Cluster → Cluster) : (s.updCluster n f).layouts = s.layouts := rfl
@[simp] theorem State.updCluster_links (s : State) (n : Nat) (f : Cluster → Cluster) : (s.updCluster n f).links = s.links := rfl
@[simp] theorem State.updCluster_streams (s : State) (n : Nat) (f : Cluster → Cluster) : (s.updCluster n f).streams = s.streams := rfl
@[simp] theorem State.updCluster_sent (s : State) (n : Nat) (f : Cluster → Cluster) : (s.updCluster n f).sent = s.sent := rfl
@[simp] theorem State.updCluster_units (s : State) (n : Nat) (f : Cluster → Cluster) : (s.updCluster n f).units = s.units := rfl
@[simp] theorem State.updCluster_part (s : State) (n : Nat) (f : Cluster → Cluster) : (s.updCluster n f).part = s.part := rfl
@[simp] theorem State.updCluster_fused (s : State) (n : Nat) (f : Cluster → Cluster) : (s.updCluster n f).fused = s.fused := rfl
@[simp] theorem State.updCluster_eqx (s : State) (n : Nat) (f : Cluster → Cluster) : (s.updCluster n f).eqx = s.eqx := rfl
@[simp] theorem State.updCluster_mach_slots (s : State) (n : Nat) (f : Cluster → Cluster) :
    (s.updCluster n f).mach.slots = s.mach.slots := rfl
@[simp] theorem State.updCluster_mach_cores (s : State) (n : Nat) (f : Cluster → Cluster) :
    (s.updCluster n f).mach.cores = s.mach.cores := rfl
@[simp] theorem State.updCluster_mach_tiles (s : State) (n : Nat) (f : Cluster → Cluster) :
    (s.updCluster n f).mach.tiles = s.mach.tiles := rfl
@[simp] theorem State.updCluster_mach_homes (s : State) (n : Nat) (f : Cluster → Cluster) :
    (s.updCluster n f).mach.homes = s.mach.homes := rfl
@[simp] theorem State.updCluster_mach_engines (s : State) (n : Nat) (f : Cluster → Cluster) :
    (s.updCluster n f).mach.engines = s.mach.engines := rfl
@[simp] theorem State.updCluster_mach_levels (s : State) (n : Nat) (f : Cluster → Cluster) :
    (s.updCluster n f).mach.levels = s.mach.levels := rfl
@[simp] theorem State.updCluster_mach_draws (s : State) (n : Nat) (f : Cluster → Cluster) :
    (s.updCluster n f).mach.draws = s.mach.draws := rfl
@[simp] theorem State.updCluster_mach_net (s : State) (n : Nat) (f : Cluster → Cluster) :
    (s.updCluster n f).mach.net = s.mach.net := rfl
@[simp] theorem State.updCluster_mach_sram (s : State) (n : Nat) (f : Cluster → Cluster) :
    (s.updCluster n f).mach.sram = s.mach.sram := rfl
@[simp] theorem State.updCluster_mach_full (s : State) (n : Nat) (f : Cluster → Cluster) :
    (s.updCluster n f).mach.full = s.mach.full := rfl
@[simp] theorem State.updCluster_mach_poison (s : State) (n : Nat) (f : Cluster → Cluster) :
    (s.updCluster n f).mach.poison = s.mach.poison := rfl
@[simp] theorem State.updCluster_mach_acc (s : State) (n : Nat) (f : Cluster → Cluster) :
    (s.updCluster n f).mach.acc = s.mach.acc := rfl
@[simp] theorem State.updCluster_mach_clock (s : State) (n : Nat) (f : Cluster → Cluster) :
    (s.updCluster n f).mach.clock = s.mach.clock := rfl
@[simp] theorem State.updCluster_mach_starts (s : State) (n : Nat) (f : Cluster → Cluster) :
    (s.updCluster n f).mach.starts = s.mach.starts := rfl
@[simp] theorem State.updCluster_mach_coStarts (s : State) (n : Nat) (f : Cluster → Cluster) :
    (s.updCluster n f).mach.coStarts = s.mach.coStarts := rfl
@[simp] theorem State.updCluster_mach_summaryAt (s : State) (n : Nat) (f : Cluster → Cluster) :
    (s.updCluster n f).mach.summaryAt = s.mach.summaryAt := rfl
@[simp] theorem State.updCluster_mach_transits (s : State) (n : Nat) (f : Cluster → Cluster) :
    (s.updCluster n f).mach.transits = s.mach.transits := rfl
@[simp] theorem State.updCluster_mach_asks (s : State) (n : Nat) (f : Cluster → Cluster) :
    (s.updCluster n f).mach.asks = s.mach.asks := rfl
@[simp] theorem State.updCluster_mach_seals (s : State) (n : Nat) (f : Cluster → Cluster) :
    (s.updCluster n f).mach.seals = s.mach.seals := rfl
@[simp] theorem State.updCluster_mach_unsealing (s : State) (n : Nat) (f : Cluster → Cluster) :
    (s.updCluster n f).mach.unsealing = s.mach.unsealing := rfl
@[simp] theorem State.updCluster_mach_unquiet (s : State) (n : Nat) (f : Cluster → Cluster) :
    (s.updCluster n f).mach.unquiet = s.mach.unquiet := rfl
@[simp] theorem State.updCluster_mach_owesQuiet (s : State) (n : Nat) (f : Cluster → Cluster) :
    (s.updCluster n f).mach.owesQuiet = s.mach.owesQuiet := rfl
@[simp] theorem State.updCluster_mach_blocks (s : State) (n : Nat) (f : Cluster → Cluster) :
    (s.updCluster n f).mach.blocks = s.mach.blocks := rfl
@[simp] theorem State.updCluster_mach_hRecv (s : State) (n : Nat) (f : Cluster → Cluster) :
    (s.updCluster n f).mach.hRecv = s.mach.hRecv := rfl
@[simp] theorem State.updCluster_mach_hSend (s : State) (n : Nat) (f : Cluster → Cluster) :
    (s.updCluster n f).mach.hSend = s.mach.hSend := rfl
@[simp] theorem State.updCluster_mach_hQueue (s : State) (n : Nat) (f : Cluster → Cluster) :
    (s.updCluster n f).mach.hQueue = s.mach.hQueue := rfl
@[simp] theorem State.updCluster_mach_heldRecs (s : State) (n : Nat) (f : Cluster → Cluster) :
    (s.updCluster n f).mach.heldRecs = s.mach.heldRecs := rfl
@[simp] theorem State.append_turns (s : State) (key : PairKey) (p : Packet) : (s.append key p).turns = s.turns := rfl
@[simp] theorem State.append_free (s : State) (key : PairKey) (p : Packet) : (s.append key p).free = s.free := rfl
@[simp] theorem State.append_cur (s : State) (key : PairKey) (p : Packet) : (s.append key p).cur = s.cur := rfl
@[simp] theorem State.append_now (s : State) (key : PairKey) (p : Packet) : (s.append key p).now = s.now := rfl
@[simp] theorem State.append_time (s : State) (key : PairKey) (p : Packet) : (s.append key p).time = s.time := rfl
@[simp] theorem State.append_timeRem (s : State) (key : PairKey) (p : Packet) : (s.append key p).timeRem = s.timeRem := rfl
@[simp] theorem State.append_dram (s : State) (key : PairKey) (p : Packet) : (s.append key p).dram = s.dram := rfl
@[simp] theorem State.append_host (s : State) (key : PairKey) (p : Packet) : (s.append key p).host = s.host := rfl
@[simp] theorem State.append_jobs (s : State) (key : PairKey) (p : Packet) : (s.append key p).jobs = s.jobs := rfl
@[simp] theorem State.append_ended (s : State) (key : PairKey) (p : Packet) : (s.append key p).ended = s.ended := rfl
@[simp] theorem State.append_running (s : State) (key : PairKey) (p : Packet) : (s.append key p).running = s.running := rfl
@[simp] theorem State.append_saved (s : State) (key : PairKey) (p : Packet) : (s.append key p).saved = s.saved := rfl
@[simp] theorem State.append_switch (s : State) (key : PairKey) (p : Packet) : (s.append key p).switch = s.switch := rfl
@[simp] theorem State.append_pages (s : State) (key : PairKey) (p : Packet) : (s.append key p).pages = s.pages := rfl
@[simp] theorem State.append_migrations (s : State) (key : PairKey) (p : Packet) : (s.append key p).migrations = s.migrations := rfl
@[simp] theorem State.append_pageAsks (s : State) (key : PairKey) (p : Packet) : (s.append key p).pageAsks = s.pageAsks := rfl
@[simp] theorem State.append_incoming (s : State) (key : PairKey) (p : Packet) : (s.append key p).incoming = s.incoming := rfl
@[simp] theorem State.append_shoots (s : State) (key : PairKey) (p : Packet) : (s.append key p).shoots = s.shoots := rfl
@[simp] theorem State.append_placeAt (s : State) (key : PairKey) (p : Packet) : (s.append key p).placeAt = s.placeAt := rfl
@[simp] theorem State.append_peers (s : State) (key : PairKey) (p : Packet) : (s.append key p).peers = s.peers := rfl
@[simp] theorem State.append_layouts (s : State) (key : PairKey) (p : Packet) : (s.append key p).layouts = s.layouts := rfl
@[simp] theorem State.append_links (s : State) (key : PairKey) (p : Packet) : (s.append key p).links = s.links := rfl
@[simp] theorem State.append_streams (s : State) (key : PairKey) (p : Packet) : (s.append key p).streams = s.streams := rfl
@[simp] theorem State.append_sent (s : State) (key : PairKey) (p : Packet) : (s.append key p).sent = s.sent := rfl
@[simp] theorem State.append_units (s : State) (key : PairKey) (p : Packet) : (s.append key p).units = s.units := rfl
@[simp] theorem State.append_part (s : State) (key : PairKey) (p : Packet) : (s.append key p).part = s.part := rfl
@[simp] theorem State.append_fused (s : State) (key : PairKey) (p : Packet) : (s.append key p).fused = s.fused := rfl
@[simp] theorem State.append_eqx (s : State) (key : PairKey) (p : Packet) : (s.append key p).eqx = s.eqx := rfl
@[simp] theorem State.append_mach_slots (s : State) (key : PairKey) (p : Packet) :
    (s.append key p).mach.slots = s.mach.slots := rfl
@[simp] theorem State.append_mach_cores (s : State) (key : PairKey) (p : Packet) :
    (s.append key p).mach.cores = s.mach.cores := rfl
@[simp] theorem State.append_mach_tiles (s : State) (key : PairKey) (p : Packet) :
    (s.append key p).mach.tiles = s.mach.tiles := rfl
@[simp] theorem State.append_mach_clusters (s : State) (key : PairKey) (p : Packet) :
    (s.append key p).mach.clusters = s.mach.clusters := rfl
@[simp] theorem State.append_mach_homes (s : State) (key : PairKey) (p : Packet) :
    (s.append key p).mach.homes = s.mach.homes := rfl
@[simp] theorem State.append_mach_engines (s : State) (key : PairKey) (p : Packet) :
    (s.append key p).mach.engines = s.mach.engines := rfl
@[simp] theorem State.append_mach_levels (s : State) (key : PairKey) (p : Packet) :
    (s.append key p).mach.levels = s.mach.levels := rfl
@[simp] theorem State.append_mach_draws (s : State) (key : PairKey) (p : Packet) :
    (s.append key p).mach.draws = s.mach.draws := rfl
@[simp] theorem State.append_mach_sram (s : State) (key : PairKey) (p : Packet) :
    (s.append key p).mach.sram = s.mach.sram := rfl
@[simp] theorem State.append_mach_full (s : State) (key : PairKey) (p : Packet) :
    (s.append key p).mach.full = s.mach.full := rfl
@[simp] theorem State.append_mach_poison (s : State) (key : PairKey) (p : Packet) :
    (s.append key p).mach.poison = s.mach.poison := rfl
@[simp] theorem State.append_mach_acc (s : State) (key : PairKey) (p : Packet) :
    (s.append key p).mach.acc = s.mach.acc := rfl
@[simp] theorem State.append_mach_clock (s : State) (key : PairKey) (p : Packet) :
    (s.append key p).mach.clock = s.mach.clock := rfl
@[simp] theorem State.append_mach_starts (s : State) (key : PairKey) (p : Packet) :
    (s.append key p).mach.starts = s.mach.starts := rfl
@[simp] theorem State.append_mach_coStarts (s : State) (key : PairKey) (p : Packet) :
    (s.append key p).mach.coStarts = s.mach.coStarts := rfl
@[simp] theorem State.append_mach_summaryAt (s : State) (key : PairKey) (p : Packet) :
    (s.append key p).mach.summaryAt = s.mach.summaryAt := rfl
@[simp] theorem State.append_mach_transits (s : State) (key : PairKey) (p : Packet) :
    (s.append key p).mach.transits = s.mach.transits := rfl
@[simp] theorem State.append_mach_asks (s : State) (key : PairKey) (p : Packet) :
    (s.append key p).mach.asks = s.mach.asks := rfl
@[simp] theorem State.append_mach_seals (s : State) (key : PairKey) (p : Packet) :
    (s.append key p).mach.seals = s.mach.seals := rfl
@[simp] theorem State.append_mach_unsealing (s : State) (key : PairKey) (p : Packet) :
    (s.append key p).mach.unsealing = s.mach.unsealing := rfl
@[simp] theorem State.append_mach_unquiet (s : State) (key : PairKey) (p : Packet) :
    (s.append key p).mach.unquiet = s.mach.unquiet := rfl
@[simp] theorem State.append_mach_owesQuiet (s : State) (key : PairKey) (p : Packet) :
    (s.append key p).mach.owesQuiet = s.mach.owesQuiet := rfl
@[simp] theorem State.append_mach_blocks (s : State) (key : PairKey) (p : Packet) :
    (s.append key p).mach.blocks = s.mach.blocks := rfl
@[simp] theorem State.append_mach_hRecv (s : State) (key : PairKey) (p : Packet) :
    (s.append key p).mach.hRecv = s.mach.hRecv := rfl
@[simp] theorem State.append_mach_hSend (s : State) (key : PairKey) (p : Packet) :
    (s.append key p).mach.hSend = s.mach.hSend := rfl
@[simp] theorem State.append_mach_hQueue (s : State) (key : PairKey) (p : Packet) :
    (s.append key p).mach.hQueue = s.mach.hQueue := rfl
@[simp] theorem State.append_mach_heldRecs (s : State) (key : PairKey) (p : Packet) :
    (s.append key p).mach.heldRecs = s.mach.heldRecs := rfl
@[simp] theorem State.setXAt_turns (s : State) (c l : Nat) (r : Reg) (v : Word) : (s.setXAt c l r v).turns = s.turns := rfl
@[simp] theorem State.setXAt_free (s : State) (c l : Nat) (r : Reg) (v : Word) : (s.setXAt c l r v).free = s.free := rfl
@[simp] theorem State.setXAt_cur (s : State) (c l : Nat) (r : Reg) (v : Word) : (s.setXAt c l r v).cur = s.cur := rfl
@[simp] theorem State.setXAt_now (s : State) (c l : Nat) (r : Reg) (v : Word) : (s.setXAt c l r v).now = s.now := rfl
@[simp] theorem State.setXAt_time (s : State) (c l : Nat) (r : Reg) (v : Word) : (s.setXAt c l r v).time = s.time := rfl
@[simp] theorem State.setXAt_timeRem (s : State) (c l : Nat) (r : Reg) (v : Word) : (s.setXAt c l r v).timeRem = s.timeRem := rfl
@[simp] theorem State.setXAt_dram (s : State) (c l : Nat) (r : Reg) (v : Word) : (s.setXAt c l r v).dram = s.dram := rfl
@[simp] theorem State.setXAt_host (s : State) (c l : Nat) (r : Reg) (v : Word) : (s.setXAt c l r v).host = s.host := rfl
@[simp] theorem State.setXAt_jobs (s : State) (c l : Nat) (r : Reg) (v : Word) : (s.setXAt c l r v).jobs = s.jobs := rfl
@[simp] theorem State.setXAt_ended (s : State) (c l : Nat) (r : Reg) (v : Word) : (s.setXAt c l r v).ended = s.ended := rfl
@[simp] theorem State.setXAt_running (s : State) (c l : Nat) (r : Reg) (v : Word) : (s.setXAt c l r v).running = s.running := rfl
@[simp] theorem State.setXAt_saved (s : State) (c l : Nat) (r : Reg) (v : Word) : (s.setXAt c l r v).saved = s.saved := rfl
@[simp] theorem State.setXAt_switch (s : State) (c l : Nat) (r : Reg) (v : Word) : (s.setXAt c l r v).switch = s.switch := rfl
@[simp] theorem State.setXAt_pages (s : State) (c l : Nat) (r : Reg) (v : Word) : (s.setXAt c l r v).pages = s.pages := rfl
@[simp] theorem State.setXAt_migrations (s : State) (c l : Nat) (r : Reg) (v : Word) : (s.setXAt c l r v).migrations = s.migrations := rfl
@[simp] theorem State.setXAt_pageAsks (s : State) (c l : Nat) (r : Reg) (v : Word) : (s.setXAt c l r v).pageAsks = s.pageAsks := rfl
@[simp] theorem State.setXAt_incoming (s : State) (c l : Nat) (r : Reg) (v : Word) : (s.setXAt c l r v).incoming = s.incoming := rfl
@[simp] theorem State.setXAt_shoots (s : State) (c l : Nat) (r : Reg) (v : Word) : (s.setXAt c l r v).shoots = s.shoots := rfl
@[simp] theorem State.setXAt_placeAt (s : State) (c l : Nat) (r : Reg) (v : Word) : (s.setXAt c l r v).placeAt = s.placeAt := rfl
@[simp] theorem State.setXAt_peers (s : State) (c l : Nat) (r : Reg) (v : Word) : (s.setXAt c l r v).peers = s.peers := rfl
@[simp] theorem State.setXAt_layouts (s : State) (c l : Nat) (r : Reg) (v : Word) : (s.setXAt c l r v).layouts = s.layouts := rfl
@[simp] theorem State.setXAt_links (s : State) (c l : Nat) (r : Reg) (v : Word) : (s.setXAt c l r v).links = s.links := rfl
@[simp] theorem State.setXAt_streams (s : State) (c l : Nat) (r : Reg) (v : Word) : (s.setXAt c l r v).streams = s.streams := rfl
@[simp] theorem State.setXAt_sent (s : State) (c l : Nat) (r : Reg) (v : Word) : (s.setXAt c l r v).sent = s.sent := rfl
@[simp] theorem State.setXAt_units (s : State) (c l : Nat) (r : Reg) (v : Word) : (s.setXAt c l r v).units = s.units := rfl
@[simp] theorem State.setXAt_part (s : State) (c l : Nat) (r : Reg) (v : Word) : (s.setXAt c l r v).part = s.part := rfl
@[simp] theorem State.setXAt_fused (s : State) (c l : Nat) (r : Reg) (v : Word) : (s.setXAt c l r v).fused = s.fused := rfl
@[simp] theorem State.setXAt_eqx (s : State) (c l : Nat) (r : Reg) (v : Word) : (s.setXAt c l r v).eqx = s.eqx := rfl
@[simp] theorem State.setXAt_mach_tiles (s : State) (c l : Nat) (r : Reg) (v : Word) :
    (s.setXAt c l r v).mach.tiles = s.mach.tiles := rfl
@[simp] theorem State.setXAt_mach_clusters (s : State) (c l : Nat) (r : Reg) (v : Word) :
    (s.setXAt c l r v).mach.clusters = s.mach.clusters := rfl
@[simp] theorem State.setXAt_mach_homes (s : State) (c l : Nat) (r : Reg) (v : Word) :
    (s.setXAt c l r v).mach.homes = s.mach.homes := rfl
@[simp] theorem State.setXAt_mach_engines (s : State) (c l : Nat) (r : Reg) (v : Word) :
    (s.setXAt c l r v).mach.engines = s.mach.engines := rfl
@[simp] theorem State.setXAt_mach_levels (s : State) (c l : Nat) (r : Reg) (v : Word) :
    (s.setXAt c l r v).mach.levels = s.mach.levels := rfl
@[simp] theorem State.setXAt_mach_draws (s : State) (c l : Nat) (r : Reg) (v : Word) :
    (s.setXAt c l r v).mach.draws = s.mach.draws := rfl
@[simp] theorem State.setXAt_mach_net (s : State) (c l : Nat) (r : Reg) (v : Word) :
    (s.setXAt c l r v).mach.net = s.mach.net := rfl
@[simp] theorem State.setXAt_mach_sram (s : State) (c l : Nat) (r : Reg) (v : Word) :
    (s.setXAt c l r v).mach.sram = s.mach.sram := rfl
@[simp] theorem State.setXAt_mach_full (s : State) (c l : Nat) (r : Reg) (v : Word) :
    (s.setXAt c l r v).mach.full = s.mach.full := rfl
@[simp] theorem State.setXAt_mach_poison (s : State) (c l : Nat) (r : Reg) (v : Word) :
    (s.setXAt c l r v).mach.poison = s.mach.poison := rfl
@[simp] theorem State.setXAt_mach_acc (s : State) (c l : Nat) (r : Reg) (v : Word) :
    (s.setXAt c l r v).mach.acc = s.mach.acc := rfl
@[simp] theorem State.setXAt_mach_clock (s : State) (c l : Nat) (r : Reg) (v : Word) :
    (s.setXAt c l r v).mach.clock = s.mach.clock := rfl
@[simp] theorem State.setXAt_mach_starts (s : State) (c l : Nat) (r : Reg) (v : Word) :
    (s.setXAt c l r v).mach.starts = s.mach.starts := rfl
@[simp] theorem State.setXAt_mach_coStarts (s : State) (c l : Nat) (r : Reg) (v : Word) :
    (s.setXAt c l r v).mach.coStarts = s.mach.coStarts := rfl
@[simp] theorem State.setXAt_mach_summaryAt (s : State) (c l : Nat) (r : Reg) (v : Word) :
    (s.setXAt c l r v).mach.summaryAt = s.mach.summaryAt := rfl
@[simp] theorem State.setXAt_mach_transits (s : State) (c l : Nat) (r : Reg) (v : Word) :
    (s.setXAt c l r v).mach.transits = s.mach.transits := rfl
@[simp] theorem State.setXAt_mach_asks (s : State) (c l : Nat) (r : Reg) (v : Word) :
    (s.setXAt c l r v).mach.asks = s.mach.asks := rfl
@[simp] theorem State.setXAt_mach_seals (s : State) (c l : Nat) (r : Reg) (v : Word) :
    (s.setXAt c l r v).mach.seals = s.mach.seals := rfl
@[simp] theorem State.setXAt_mach_unsealing (s : State) (c l : Nat) (r : Reg) (v : Word) :
    (s.setXAt c l r v).mach.unsealing = s.mach.unsealing := rfl
@[simp] theorem State.setXAt_mach_unquiet (s : State) (c l : Nat) (r : Reg) (v : Word) :
    (s.setXAt c l r v).mach.unquiet = s.mach.unquiet := rfl
@[simp] theorem State.setXAt_mach_owesQuiet (s : State) (c l : Nat) (r : Reg) (v : Word) :
    (s.setXAt c l r v).mach.owesQuiet = s.mach.owesQuiet := rfl
@[simp] theorem State.setXAt_mach_blocks (s : State) (c l : Nat) (r : Reg) (v : Word) :
    (s.setXAt c l r v).mach.blocks = s.mach.blocks := rfl
@[simp] theorem State.setXAt_mach_hRecv (s : State) (c l : Nat) (r : Reg) (v : Word) :
    (s.setXAt c l r v).mach.hRecv = s.mach.hRecv := rfl
@[simp] theorem State.setXAt_mach_hSend (s : State) (c l : Nat) (r : Reg) (v : Word) :
    (s.setXAt c l r v).mach.hSend = s.mach.hSend := rfl
@[simp] theorem State.setXAt_mach_hQueue (s : State) (c l : Nat) (r : Reg) (v : Word) :
    (s.setXAt c l r v).mach.hQueue = s.mach.hQueue := rfl
@[simp] theorem State.setXAt_mach_heldRecs (s : State) (c l : Nat) (r : Reg) (v : Word) :
    (s.setXAt c l r v).mach.heldRecs = s.mach.heldRecs := rfl
@[simp] theorem State.setVAt_turns (s : State) (c l : Nat) (r : Reg) (v : VWord) : (s.setVAt c l r v).turns = s.turns := rfl
@[simp] theorem State.setVAt_free (s : State) (c l : Nat) (r : Reg) (v : VWord) : (s.setVAt c l r v).free = s.free := rfl
@[simp] theorem State.setVAt_cur (s : State) (c l : Nat) (r : Reg) (v : VWord) : (s.setVAt c l r v).cur = s.cur := rfl
@[simp] theorem State.setVAt_now (s : State) (c l : Nat) (r : Reg) (v : VWord) : (s.setVAt c l r v).now = s.now := rfl
@[simp] theorem State.setVAt_time (s : State) (c l : Nat) (r : Reg) (v : VWord) : (s.setVAt c l r v).time = s.time := rfl
@[simp] theorem State.setVAt_timeRem (s : State) (c l : Nat) (r : Reg) (v : VWord) : (s.setVAt c l r v).timeRem = s.timeRem := rfl
@[simp] theorem State.setVAt_dram (s : State) (c l : Nat) (r : Reg) (v : VWord) : (s.setVAt c l r v).dram = s.dram := rfl
@[simp] theorem State.setVAt_host (s : State) (c l : Nat) (r : Reg) (v : VWord) : (s.setVAt c l r v).host = s.host := rfl
@[simp] theorem State.setVAt_jobs (s : State) (c l : Nat) (r : Reg) (v : VWord) : (s.setVAt c l r v).jobs = s.jobs := rfl
@[simp] theorem State.setVAt_ended (s : State) (c l : Nat) (r : Reg) (v : VWord) : (s.setVAt c l r v).ended = s.ended := rfl
@[simp] theorem State.setVAt_running (s : State) (c l : Nat) (r : Reg) (v : VWord) : (s.setVAt c l r v).running = s.running := rfl
@[simp] theorem State.setVAt_saved (s : State) (c l : Nat) (r : Reg) (v : VWord) : (s.setVAt c l r v).saved = s.saved := rfl
@[simp] theorem State.setVAt_switch (s : State) (c l : Nat) (r : Reg) (v : VWord) : (s.setVAt c l r v).switch = s.switch := rfl
@[simp] theorem State.setVAt_pages (s : State) (c l : Nat) (r : Reg) (v : VWord) : (s.setVAt c l r v).pages = s.pages := rfl
@[simp] theorem State.setVAt_migrations (s : State) (c l : Nat) (r : Reg) (v : VWord) : (s.setVAt c l r v).migrations = s.migrations := rfl
@[simp] theorem State.setVAt_pageAsks (s : State) (c l : Nat) (r : Reg) (v : VWord) : (s.setVAt c l r v).pageAsks = s.pageAsks := rfl
@[simp] theorem State.setVAt_incoming (s : State) (c l : Nat) (r : Reg) (v : VWord) : (s.setVAt c l r v).incoming = s.incoming := rfl
@[simp] theorem State.setVAt_shoots (s : State) (c l : Nat) (r : Reg) (v : VWord) : (s.setVAt c l r v).shoots = s.shoots := rfl
@[simp] theorem State.setVAt_placeAt (s : State) (c l : Nat) (r : Reg) (v : VWord) : (s.setVAt c l r v).placeAt = s.placeAt := rfl
@[simp] theorem State.setVAt_peers (s : State) (c l : Nat) (r : Reg) (v : VWord) : (s.setVAt c l r v).peers = s.peers := rfl
@[simp] theorem State.setVAt_layouts (s : State) (c l : Nat) (r : Reg) (v : VWord) : (s.setVAt c l r v).layouts = s.layouts := rfl
@[simp] theorem State.setVAt_links (s : State) (c l : Nat) (r : Reg) (v : VWord) : (s.setVAt c l r v).links = s.links := rfl
@[simp] theorem State.setVAt_streams (s : State) (c l : Nat) (r : Reg) (v : VWord) : (s.setVAt c l r v).streams = s.streams := rfl
@[simp] theorem State.setVAt_sent (s : State) (c l : Nat) (r : Reg) (v : VWord) : (s.setVAt c l r v).sent = s.sent := rfl
@[simp] theorem State.setVAt_units (s : State) (c l : Nat) (r : Reg) (v : VWord) : (s.setVAt c l r v).units = s.units := rfl
@[simp] theorem State.setVAt_part (s : State) (c l : Nat) (r : Reg) (v : VWord) : (s.setVAt c l r v).part = s.part := rfl
@[simp] theorem State.setVAt_fused (s : State) (c l : Nat) (r : Reg) (v : VWord) : (s.setVAt c l r v).fused = s.fused := rfl
@[simp] theorem State.setVAt_eqx (s : State) (c l : Nat) (r : Reg) (v : VWord) : (s.setVAt c l r v).eqx = s.eqx := rfl
@[simp] theorem State.setVAt_mach_tiles (s : State) (c l : Nat) (r : Reg) (v : VWord) :
    (s.setVAt c l r v).mach.tiles = s.mach.tiles := rfl
@[simp] theorem State.setVAt_mach_clusters (s : State) (c l : Nat) (r : Reg) (v : VWord) :
    (s.setVAt c l r v).mach.clusters = s.mach.clusters := rfl
@[simp] theorem State.setVAt_mach_homes (s : State) (c l : Nat) (r : Reg) (v : VWord) :
    (s.setVAt c l r v).mach.homes = s.mach.homes := rfl
@[simp] theorem State.setVAt_mach_engines (s : State) (c l : Nat) (r : Reg) (v : VWord) :
    (s.setVAt c l r v).mach.engines = s.mach.engines := rfl
@[simp] theorem State.setVAt_mach_levels (s : State) (c l : Nat) (r : Reg) (v : VWord) :
    (s.setVAt c l r v).mach.levels = s.mach.levels := rfl
@[simp] theorem State.setVAt_mach_draws (s : State) (c l : Nat) (r : Reg) (v : VWord) :
    (s.setVAt c l r v).mach.draws = s.mach.draws := rfl
@[simp] theorem State.setVAt_mach_net (s : State) (c l : Nat) (r : Reg) (v : VWord) :
    (s.setVAt c l r v).mach.net = s.mach.net := rfl
@[simp] theorem State.setVAt_mach_sram (s : State) (c l : Nat) (r : Reg) (v : VWord) :
    (s.setVAt c l r v).mach.sram = s.mach.sram := rfl
@[simp] theorem State.setVAt_mach_full (s : State) (c l : Nat) (r : Reg) (v : VWord) :
    (s.setVAt c l r v).mach.full = s.mach.full := rfl
@[simp] theorem State.setVAt_mach_poison (s : State) (c l : Nat) (r : Reg) (v : VWord) :
    (s.setVAt c l r v).mach.poison = s.mach.poison := rfl
@[simp] theorem State.setVAt_mach_acc (s : State) (c l : Nat) (r : Reg) (v : VWord) :
    (s.setVAt c l r v).mach.acc = s.mach.acc := rfl
@[simp] theorem State.setVAt_mach_clock (s : State) (c l : Nat) (r : Reg) (v : VWord) :
    (s.setVAt c l r v).mach.clock = s.mach.clock := rfl
@[simp] theorem State.setVAt_mach_starts (s : State) (c l : Nat) (r : Reg) (v : VWord) :
    (s.setVAt c l r v).mach.starts = s.mach.starts := rfl
@[simp] theorem State.setVAt_mach_coStarts (s : State) (c l : Nat) (r : Reg) (v : VWord) :
    (s.setVAt c l r v).mach.coStarts = s.mach.coStarts := rfl
@[simp] theorem State.setVAt_mach_summaryAt (s : State) (c l : Nat) (r : Reg) (v : VWord) :
    (s.setVAt c l r v).mach.summaryAt = s.mach.summaryAt := rfl
@[simp] theorem State.setVAt_mach_transits (s : State) (c l : Nat) (r : Reg) (v : VWord) :
    (s.setVAt c l r v).mach.transits = s.mach.transits := rfl
@[simp] theorem State.setVAt_mach_asks (s : State) (c l : Nat) (r : Reg) (v : VWord) :
    (s.setVAt c l r v).mach.asks = s.mach.asks := rfl
@[simp] theorem State.setVAt_mach_seals (s : State) (c l : Nat) (r : Reg) (v : VWord) :
    (s.setVAt c l r v).mach.seals = s.mach.seals := rfl
@[simp] theorem State.setVAt_mach_unsealing (s : State) (c l : Nat) (r : Reg) (v : VWord) :
    (s.setVAt c l r v).mach.unsealing = s.mach.unsealing := rfl
@[simp] theorem State.setVAt_mach_unquiet (s : State) (c l : Nat) (r : Reg) (v : VWord) :
    (s.setVAt c l r v).mach.unquiet = s.mach.unquiet := rfl
@[simp] theorem State.setVAt_mach_owesQuiet (s : State) (c l : Nat) (r : Reg) (v : VWord) :
    (s.setVAt c l r v).mach.owesQuiet = s.mach.owesQuiet := rfl
@[simp] theorem State.setVAt_mach_blocks (s : State) (c l : Nat) (r : Reg) (v : VWord) :
    (s.setVAt c l r v).mach.blocks = s.mach.blocks := rfl
@[simp] theorem State.setVAt_mach_hRecv (s : State) (c l : Nat) (r : Reg) (v : VWord) :
    (s.setVAt c l r v).mach.hRecv = s.mach.hRecv := rfl
@[simp] theorem State.setVAt_mach_hSend (s : State) (c l : Nat) (r : Reg) (v : VWord) :
    (s.setVAt c l r v).mach.hSend = s.mach.hSend := rfl
@[simp] theorem State.setVAt_mach_hQueue (s : State) (c l : Nat) (r : Reg) (v : VWord) :
    (s.setVAt c l r v).mach.hQueue = s.mach.hQueue := rfl
@[simp] theorem State.setVAt_mach_heldRecs (s : State) (c l : Nat) (r : Reg) (v : VWord) :
    (s.setVAt c l r v).mach.heldRecs = s.mach.heldRecs := rfl
@[simp] theorem State.setM_turns (s : State) (r : MReg) (v : Word) : (s.setM r v).turns = s.turns := rfl
@[simp] theorem State.setM_free (s : State) (r : MReg) (v : Word) : (s.setM r v).free = s.free := rfl
@[simp] theorem State.setM_cur (s : State) (r : MReg) (v : Word) : (s.setM r v).cur = s.cur := rfl
@[simp] theorem State.setM_now (s : State) (r : MReg) (v : Word) : (s.setM r v).now = s.now := rfl
@[simp] theorem State.setM_time (s : State) (r : MReg) (v : Word) : (s.setM r v).time = s.time := rfl
@[simp] theorem State.setM_timeRem (s : State) (r : MReg) (v : Word) : (s.setM r v).timeRem = s.timeRem := rfl
@[simp] theorem State.setM_dram (s : State) (r : MReg) (v : Word) : (s.setM r v).dram = s.dram := rfl
@[simp] theorem State.setM_host (s : State) (r : MReg) (v : Word) : (s.setM r v).host = s.host := rfl
@[simp] theorem State.setM_jobs (s : State) (r : MReg) (v : Word) : (s.setM r v).jobs = s.jobs := rfl
@[simp] theorem State.setM_ended (s : State) (r : MReg) (v : Word) : (s.setM r v).ended = s.ended := rfl
@[simp] theorem State.setM_running (s : State) (r : MReg) (v : Word) : (s.setM r v).running = s.running := rfl
@[simp] theorem State.setM_saved (s : State) (r : MReg) (v : Word) : (s.setM r v).saved = s.saved := rfl
@[simp] theorem State.setM_switch (s : State) (r : MReg) (v : Word) : (s.setM r v).switch = s.switch := rfl
@[simp] theorem State.setM_pages (s : State) (r : MReg) (v : Word) : (s.setM r v).pages = s.pages := rfl
@[simp] theorem State.setM_migrations (s : State) (r : MReg) (v : Word) : (s.setM r v).migrations = s.migrations := rfl
@[simp] theorem State.setM_pageAsks (s : State) (r : MReg) (v : Word) : (s.setM r v).pageAsks = s.pageAsks := rfl
@[simp] theorem State.setM_incoming (s : State) (r : MReg) (v : Word) : (s.setM r v).incoming = s.incoming := rfl
@[simp] theorem State.setM_shoots (s : State) (r : MReg) (v : Word) : (s.setM r v).shoots = s.shoots := rfl
@[simp] theorem State.setM_placeAt (s : State) (r : MReg) (v : Word) : (s.setM r v).placeAt = s.placeAt := rfl
@[simp] theorem State.setM_peers (s : State) (r : MReg) (v : Word) : (s.setM r v).peers = s.peers := rfl
@[simp] theorem State.setM_layouts (s : State) (r : MReg) (v : Word) : (s.setM r v).layouts = s.layouts := rfl
@[simp] theorem State.setM_links (s : State) (r : MReg) (v : Word) : (s.setM r v).links = s.links := rfl
@[simp] theorem State.setM_streams (s : State) (r : MReg) (v : Word) : (s.setM r v).streams = s.streams := rfl
@[simp] theorem State.setM_sent (s : State) (r : MReg) (v : Word) : (s.setM r v).sent = s.sent := rfl
@[simp] theorem State.setM_units (s : State) (r : MReg) (v : Word) : (s.setM r v).units = s.units := rfl
@[simp] theorem State.setM_part (s : State) (r : MReg) (v : Word) : (s.setM r v).part = s.part := rfl
@[simp] theorem State.setM_fused (s : State) (r : MReg) (v : Word) : (s.setM r v).fused = s.fused := rfl
@[simp] theorem State.setM_eqx (s : State) (r : MReg) (v : Word) : (s.setM r v).eqx = s.eqx := rfl
@[simp] theorem State.setM_mach_tiles (s : State) (r : MReg) (v : Word) :
    (s.setM r v).mach.tiles = s.mach.tiles := rfl
@[simp] theorem State.setM_mach_clusters (s : State) (r : MReg) (v : Word) :
    (s.setM r v).mach.clusters = s.mach.clusters := rfl
@[simp] theorem State.setM_mach_homes (s : State) (r : MReg) (v : Word) :
    (s.setM r v).mach.homes = s.mach.homes := rfl
@[simp] theorem State.setM_mach_engines (s : State) (r : MReg) (v : Word) :
    (s.setM r v).mach.engines = s.mach.engines := rfl
@[simp] theorem State.setM_mach_levels (s : State) (r : MReg) (v : Word) :
    (s.setM r v).mach.levels = s.mach.levels := rfl
@[simp] theorem State.setM_mach_draws (s : State) (r : MReg) (v : Word) :
    (s.setM r v).mach.draws = s.mach.draws := rfl
@[simp] theorem State.setM_mach_net (s : State) (r : MReg) (v : Word) :
    (s.setM r v).mach.net = s.mach.net := rfl
@[simp] theorem State.setM_mach_sram (s : State) (r : MReg) (v : Word) :
    (s.setM r v).mach.sram = s.mach.sram := rfl
@[simp] theorem State.setM_mach_full (s : State) (r : MReg) (v : Word) :
    (s.setM r v).mach.full = s.mach.full := rfl
@[simp] theorem State.setM_mach_poison (s : State) (r : MReg) (v : Word) :
    (s.setM r v).mach.poison = s.mach.poison := rfl
@[simp] theorem State.setM_mach_acc (s : State) (r : MReg) (v : Word) :
    (s.setM r v).mach.acc = s.mach.acc := rfl
@[simp] theorem State.setM_mach_clock (s : State) (r : MReg) (v : Word) :
    (s.setM r v).mach.clock = s.mach.clock := rfl
@[simp] theorem State.setM_mach_starts (s : State) (r : MReg) (v : Word) :
    (s.setM r v).mach.starts = s.mach.starts := rfl
@[simp] theorem State.setM_mach_coStarts (s : State) (r : MReg) (v : Word) :
    (s.setM r v).mach.coStarts = s.mach.coStarts := rfl
@[simp] theorem State.setM_mach_summaryAt (s : State) (r : MReg) (v : Word) :
    (s.setM r v).mach.summaryAt = s.mach.summaryAt := rfl
@[simp] theorem State.setM_mach_transits (s : State) (r : MReg) (v : Word) :
    (s.setM r v).mach.transits = s.mach.transits := rfl
@[simp] theorem State.setM_mach_asks (s : State) (r : MReg) (v : Word) :
    (s.setM r v).mach.asks = s.mach.asks := rfl
@[simp] theorem State.setM_mach_seals (s : State) (r : MReg) (v : Word) :
    (s.setM r v).mach.seals = s.mach.seals := rfl
@[simp] theorem State.setM_mach_unsealing (s : State) (r : MReg) (v : Word) :
    (s.setM r v).mach.unsealing = s.mach.unsealing := rfl
@[simp] theorem State.setM_mach_unquiet (s : State) (r : MReg) (v : Word) :
    (s.setM r v).mach.unquiet = s.mach.unquiet := rfl
@[simp] theorem State.setM_mach_owesQuiet (s : State) (r : MReg) (v : Word) :
    (s.setM r v).mach.owesQuiet = s.mach.owesQuiet := rfl
@[simp] theorem State.setM_mach_blocks (s : State) (r : MReg) (v : Word) :
    (s.setM r v).mach.blocks = s.mach.blocks := rfl
@[simp] theorem State.setM_mach_hRecv (s : State) (r : MReg) (v : Word) :
    (s.setM r v).mach.hRecv = s.mach.hRecv := rfl
@[simp] theorem State.setM_mach_hSend (s : State) (r : MReg) (v : Word) :
    (s.setM r v).mach.hSend = s.mach.hSend := rfl
@[simp] theorem State.setM_mach_hQueue (s : State) (r : MReg) (v : Word) :
    (s.setM r v).mach.hQueue = s.mach.hQueue := rfl
@[simp] theorem State.setM_mach_heldRecs (s : State) (r : MReg) (v : Word) :
    (s.setM r v).mach.heldRecs = s.mach.heldRecs := rfl
@[simp] theorem State.setHAt_turns (s : State) (c l : Nat) (r : HReg) (v : Handle) : (s.setHAt c l r v).turns = s.turns := rfl
@[simp] theorem State.setHAt_free (s : State) (c l : Nat) (r : HReg) (v : Handle) : (s.setHAt c l r v).free = s.free := rfl
@[simp] theorem State.setHAt_cur (s : State) (c l : Nat) (r : HReg) (v : Handle) : (s.setHAt c l r v).cur = s.cur := rfl
@[simp] theorem State.setHAt_now (s : State) (c l : Nat) (r : HReg) (v : Handle) : (s.setHAt c l r v).now = s.now := rfl
@[simp] theorem State.setHAt_time (s : State) (c l : Nat) (r : HReg) (v : Handle) : (s.setHAt c l r v).time = s.time := rfl
@[simp] theorem State.setHAt_timeRem (s : State) (c l : Nat) (r : HReg) (v : Handle) : (s.setHAt c l r v).timeRem = s.timeRem := rfl
@[simp] theorem State.setHAt_dram (s : State) (c l : Nat) (r : HReg) (v : Handle) : (s.setHAt c l r v).dram = s.dram := rfl
@[simp] theorem State.setHAt_host (s : State) (c l : Nat) (r : HReg) (v : Handle) : (s.setHAt c l r v).host = s.host := rfl
@[simp] theorem State.setHAt_jobs (s : State) (c l : Nat) (r : HReg) (v : Handle) : (s.setHAt c l r v).jobs = s.jobs := rfl
@[simp] theorem State.setHAt_ended (s : State) (c l : Nat) (r : HReg) (v : Handle) : (s.setHAt c l r v).ended = s.ended := rfl
@[simp] theorem State.setHAt_running (s : State) (c l : Nat) (r : HReg) (v : Handle) : (s.setHAt c l r v).running = s.running := rfl
@[simp] theorem State.setHAt_saved (s : State) (c l : Nat) (r : HReg) (v : Handle) : (s.setHAt c l r v).saved = s.saved := rfl
@[simp] theorem State.setHAt_switch (s : State) (c l : Nat) (r : HReg) (v : Handle) : (s.setHAt c l r v).switch = s.switch := rfl
@[simp] theorem State.setHAt_pages (s : State) (c l : Nat) (r : HReg) (v : Handle) : (s.setHAt c l r v).pages = s.pages := rfl
@[simp] theorem State.setHAt_migrations (s : State) (c l : Nat) (r : HReg) (v : Handle) : (s.setHAt c l r v).migrations = s.migrations := rfl
@[simp] theorem State.setHAt_pageAsks (s : State) (c l : Nat) (r : HReg) (v : Handle) : (s.setHAt c l r v).pageAsks = s.pageAsks := rfl
@[simp] theorem State.setHAt_incoming (s : State) (c l : Nat) (r : HReg) (v : Handle) : (s.setHAt c l r v).incoming = s.incoming := rfl
@[simp] theorem State.setHAt_shoots (s : State) (c l : Nat) (r : HReg) (v : Handle) : (s.setHAt c l r v).shoots = s.shoots := rfl
@[simp] theorem State.setHAt_placeAt (s : State) (c l : Nat) (r : HReg) (v : Handle) : (s.setHAt c l r v).placeAt = s.placeAt := rfl
@[simp] theorem State.setHAt_peers (s : State) (c l : Nat) (r : HReg) (v : Handle) : (s.setHAt c l r v).peers = s.peers := rfl
@[simp] theorem State.setHAt_layouts (s : State) (c l : Nat) (r : HReg) (v : Handle) : (s.setHAt c l r v).layouts = s.layouts := rfl
@[simp] theorem State.setHAt_links (s : State) (c l : Nat) (r : HReg) (v : Handle) : (s.setHAt c l r v).links = s.links := rfl
@[simp] theorem State.setHAt_streams (s : State) (c l : Nat) (r : HReg) (v : Handle) : (s.setHAt c l r v).streams = s.streams := rfl
@[simp] theorem State.setHAt_sent (s : State) (c l : Nat) (r : HReg) (v : Handle) : (s.setHAt c l r v).sent = s.sent := rfl
@[simp] theorem State.setHAt_units (s : State) (c l : Nat) (r : HReg) (v : Handle) : (s.setHAt c l r v).units = s.units := rfl
@[simp] theorem State.setHAt_part (s : State) (c l : Nat) (r : HReg) (v : Handle) : (s.setHAt c l r v).part = s.part := rfl
@[simp] theorem State.setHAt_fused (s : State) (c l : Nat) (r : HReg) (v : Handle) : (s.setHAt c l r v).fused = s.fused := rfl
@[simp] theorem State.setHAt_eqx (s : State) (c l : Nat) (r : HReg) (v : Handle) : (s.setHAt c l r v).eqx = s.eqx := rfl
@[simp] theorem State.setHAt_mach_tiles (s : State) (c l : Nat) (r : HReg) (v : Handle) :
    (s.setHAt c l r v).mach.tiles = s.mach.tiles := rfl
@[simp] theorem State.setHAt_mach_clusters (s : State) (c l : Nat) (r : HReg) (v : Handle) :
    (s.setHAt c l r v).mach.clusters = s.mach.clusters := rfl
@[simp] theorem State.setHAt_mach_homes (s : State) (c l : Nat) (r : HReg) (v : Handle) :
    (s.setHAt c l r v).mach.homes = s.mach.homes := rfl
@[simp] theorem State.setHAt_mach_engines (s : State) (c l : Nat) (r : HReg) (v : Handle) :
    (s.setHAt c l r v).mach.engines = s.mach.engines := rfl
@[simp] theorem State.setHAt_mach_levels (s : State) (c l : Nat) (r : HReg) (v : Handle) :
    (s.setHAt c l r v).mach.levels = s.mach.levels := rfl
@[simp] theorem State.setHAt_mach_draws (s : State) (c l : Nat) (r : HReg) (v : Handle) :
    (s.setHAt c l r v).mach.draws = s.mach.draws := rfl
@[simp] theorem State.setHAt_mach_net (s : State) (c l : Nat) (r : HReg) (v : Handle) :
    (s.setHAt c l r v).mach.net = s.mach.net := rfl
@[simp] theorem State.setHAt_mach_sram (s : State) (c l : Nat) (r : HReg) (v : Handle) :
    (s.setHAt c l r v).mach.sram = s.mach.sram := rfl
@[simp] theorem State.setHAt_mach_full (s : State) (c l : Nat) (r : HReg) (v : Handle) :
    (s.setHAt c l r v).mach.full = s.mach.full := rfl
@[simp] theorem State.setHAt_mach_poison (s : State) (c l : Nat) (r : HReg) (v : Handle) :
    (s.setHAt c l r v).mach.poison = s.mach.poison := rfl
@[simp] theorem State.setHAt_mach_acc (s : State) (c l : Nat) (r : HReg) (v : Handle) :
    (s.setHAt c l r v).mach.acc = s.mach.acc := rfl
@[simp] theorem State.setHAt_mach_clock (s : State) (c l : Nat) (r : HReg) (v : Handle) :
    (s.setHAt c l r v).mach.clock = s.mach.clock := rfl
@[simp] theorem State.setHAt_mach_starts (s : State) (c l : Nat) (r : HReg) (v : Handle) :
    (s.setHAt c l r v).mach.starts = s.mach.starts := rfl
@[simp] theorem State.setHAt_mach_coStarts (s : State) (c l : Nat) (r : HReg) (v : Handle) :
    (s.setHAt c l r v).mach.coStarts = s.mach.coStarts := rfl
@[simp] theorem State.setHAt_mach_summaryAt (s : State) (c l : Nat) (r : HReg) (v : Handle) :
    (s.setHAt c l r v).mach.summaryAt = s.mach.summaryAt := rfl
@[simp] theorem State.setHAt_mach_transits (s : State) (c l : Nat) (r : HReg) (v : Handle) :
    (s.setHAt c l r v).mach.transits = s.mach.transits := rfl
@[simp] theorem State.setHAt_mach_asks (s : State) (c l : Nat) (r : HReg) (v : Handle) :
    (s.setHAt c l r v).mach.asks = s.mach.asks := rfl
@[simp] theorem State.setHAt_mach_seals (s : State) (c l : Nat) (r : HReg) (v : Handle) :
    (s.setHAt c l r v).mach.seals = s.mach.seals := rfl
@[simp] theorem State.setHAt_mach_unsealing (s : State) (c l : Nat) (r : HReg) (v : Handle) :
    (s.setHAt c l r v).mach.unsealing = s.mach.unsealing := rfl
@[simp] theorem State.setHAt_mach_unquiet (s : State) (c l : Nat) (r : HReg) (v : Handle) :
    (s.setHAt c l r v).mach.unquiet = s.mach.unquiet := rfl
@[simp] theorem State.setHAt_mach_owesQuiet (s : State) (c l : Nat) (r : HReg) (v : Handle) :
    (s.setHAt c l r v).mach.owesQuiet = s.mach.owesQuiet := rfl
@[simp] theorem State.setHAt_mach_blocks (s : State) (c l : Nat) (r : HReg) (v : Handle) :
    (s.setHAt c l r v).mach.blocks = s.mach.blocks := rfl
@[simp] theorem State.setHAt_mach_hRecv (s : State) (c l : Nat) (r : HReg) (v : Handle) :
    (s.setHAt c l r v).mach.hRecv = s.mach.hRecv := rfl
@[simp] theorem State.setHAt_mach_hSend (s : State) (c l : Nat) (r : HReg) (v : Handle) :
    (s.setHAt c l r v).mach.hSend = s.mach.hSend := rfl
@[simp] theorem State.setHAt_mach_hQueue (s : State) (c l : Nat) (r : HReg) (v : Handle) :
    (s.setHAt c l r v).mach.hQueue = s.mach.hQueue := rfl
@[simp] theorem State.setHAt_mach_heldRecs (s : State) (c l : Nat) (r : HReg) (v : Handle) :
    (s.setHAt c l r v).mach.heldRecs = s.mach.heldRecs := rfl
@[simp] theorem State.retire_turns (s : State) : (s.retire).turns = s.turns := rfl
@[simp] theorem State.retire_free (s : State) : (s.retire).free = s.free := rfl
@[simp] theorem State.retire_cur (s : State) : (s.retire).cur = s.cur := rfl
@[simp] theorem State.retire_now (s : State) : (s.retire).now = s.now := rfl
@[simp] theorem State.retire_time (s : State) : (s.retire).time = s.time := rfl
@[simp] theorem State.retire_timeRem (s : State) : (s.retire).timeRem = s.timeRem := rfl
@[simp] theorem State.retire_dram (s : State) : (s.retire).dram = s.dram := rfl
@[simp] theorem State.retire_host (s : State) : (s.retire).host = s.host := rfl
@[simp] theorem State.retire_jobs (s : State) : (s.retire).jobs = s.jobs := rfl
@[simp] theorem State.retire_ended (s : State) : (s.retire).ended = s.ended := rfl
@[simp] theorem State.retire_running (s : State) : (s.retire).running = s.running := rfl
@[simp] theorem State.retire_saved (s : State) : (s.retire).saved = s.saved := rfl
@[simp] theorem State.retire_switch (s : State) : (s.retire).switch = s.switch := rfl
@[simp] theorem State.retire_pages (s : State) : (s.retire).pages = s.pages := rfl
@[simp] theorem State.retire_migrations (s : State) : (s.retire).migrations = s.migrations := rfl
@[simp] theorem State.retire_pageAsks (s : State) : (s.retire).pageAsks = s.pageAsks := rfl
@[simp] theorem State.retire_incoming (s : State) : (s.retire).incoming = s.incoming := rfl
@[simp] theorem State.retire_shoots (s : State) : (s.retire).shoots = s.shoots := rfl
@[simp] theorem State.retire_placeAt (s : State) : (s.retire).placeAt = s.placeAt := rfl
@[simp] theorem State.retire_peers (s : State) : (s.retire).peers = s.peers := rfl
@[simp] theorem State.retire_layouts (s : State) : (s.retire).layouts = s.layouts := rfl
@[simp] theorem State.retire_links (s : State) : (s.retire).links = s.links := rfl
@[simp] theorem State.retire_streams (s : State) : (s.retire).streams = s.streams := rfl
@[simp] theorem State.retire_sent (s : State) : (s.retire).sent = s.sent := rfl
@[simp] theorem State.retire_units (s : State) : (s.retire).units = s.units := rfl
@[simp] theorem State.retire_part (s : State) : (s.retire).part = s.part := rfl
@[simp] theorem State.retire_fused (s : State) : (s.retire).fused = s.fused := rfl
@[simp] theorem State.retire_eqx (s : State) : (s.retire).eqx = s.eqx := rfl
@[simp] theorem State.retire_mach_cores (s : State) :
    (s.retire).mach.cores = s.mach.cores := rfl
@[simp] theorem State.retire_mach_tiles (s : State) :
    (s.retire).mach.tiles = s.mach.tiles := rfl
@[simp] theorem State.retire_mach_clusters (s : State) :
    (s.retire).mach.clusters = s.mach.clusters := rfl
@[simp] theorem State.retire_mach_homes (s : State) :
    (s.retire).mach.homes = s.mach.homes := rfl
@[simp] theorem State.retire_mach_engines (s : State) :
    (s.retire).mach.engines = s.mach.engines := rfl
@[simp] theorem State.retire_mach_levels (s : State) :
    (s.retire).mach.levels = s.mach.levels := rfl
@[simp] theorem State.retire_mach_draws (s : State) :
    (s.retire).mach.draws = s.mach.draws := rfl
@[simp] theorem State.retire_mach_net (s : State) :
    (s.retire).mach.net = s.mach.net := rfl
@[simp] theorem State.retire_mach_sram (s : State) :
    (s.retire).mach.sram = s.mach.sram := rfl
@[simp] theorem State.retire_mach_full (s : State) :
    (s.retire).mach.full = s.mach.full := rfl
@[simp] theorem State.retire_mach_poison (s : State) :
    (s.retire).mach.poison = s.mach.poison := rfl
@[simp] theorem State.retire_mach_acc (s : State) :
    (s.retire).mach.acc = s.mach.acc := rfl
@[simp] theorem State.retire_mach_clock (s : State) :
    (s.retire).mach.clock = s.mach.clock := rfl
@[simp] theorem State.retire_mach_starts (s : State) :
    (s.retire).mach.starts = s.mach.starts := rfl
@[simp] theorem State.retire_mach_coStarts (s : State) :
    (s.retire).mach.coStarts = s.mach.coStarts := rfl
@[simp] theorem State.retire_mach_summaryAt (s : State) :
    (s.retire).mach.summaryAt = s.mach.summaryAt := rfl
@[simp] theorem State.retire_mach_transits (s : State) :
    (s.retire).mach.transits = s.mach.transits := rfl
@[simp] theorem State.retire_mach_asks (s : State) :
    (s.retire).mach.asks = s.mach.asks := rfl
@[simp] theorem State.retire_mach_seals (s : State) :
    (s.retire).mach.seals = s.mach.seals := rfl
@[simp] theorem State.retire_mach_unsealing (s : State) :
    (s.retire).mach.unsealing = s.mach.unsealing := rfl
@[simp] theorem State.retire_mach_unquiet (s : State) :
    (s.retire).mach.unquiet = s.mach.unquiet := rfl
@[simp] theorem State.retire_mach_owesQuiet (s : State) :
    (s.retire).mach.owesQuiet = s.mach.owesQuiet := rfl
@[simp] theorem State.retire_mach_blocks (s : State) :
    (s.retire).mach.blocks = s.mach.blocks := rfl
@[simp] theorem State.retire_mach_hRecv (s : State) :
    (s.retire).mach.hRecv = s.mach.hRecv := rfl
@[simp] theorem State.retire_mach_hSend (s : State) :
    (s.retire).mach.hSend = s.mach.hSend := rfl
@[simp] theorem State.retire_mach_hQueue (s : State) :
    (s.retire).mach.hQueue = s.mach.hQueue := rfl
@[simp] theorem State.retire_mach_heldRecs (s : State) :
    (s.retire).mach.heldRecs = s.mach.heldRecs := rfl
@[simp] theorem State.jump_turns (s : State) (t : Word) : (s.jump t).turns = s.turns := rfl
@[simp] theorem State.jump_free (s : State) (t : Word) : (s.jump t).free = s.free := rfl
@[simp] theorem State.jump_cur (s : State) (t : Word) : (s.jump t).cur = s.cur := rfl
@[simp] theorem State.jump_now (s : State) (t : Word) : (s.jump t).now = s.now := rfl
@[simp] theorem State.jump_time (s : State) (t : Word) : (s.jump t).time = s.time := rfl
@[simp] theorem State.jump_timeRem (s : State) (t : Word) : (s.jump t).timeRem = s.timeRem := rfl
@[simp] theorem State.jump_dram (s : State) (t : Word) : (s.jump t).dram = s.dram := rfl
@[simp] theorem State.jump_host (s : State) (t : Word) : (s.jump t).host = s.host := rfl
@[simp] theorem State.jump_jobs (s : State) (t : Word) : (s.jump t).jobs = s.jobs := rfl
@[simp] theorem State.jump_ended (s : State) (t : Word) : (s.jump t).ended = s.ended := rfl
@[simp] theorem State.jump_running (s : State) (t : Word) : (s.jump t).running = s.running := rfl
@[simp] theorem State.jump_saved (s : State) (t : Word) : (s.jump t).saved = s.saved := rfl
@[simp] theorem State.jump_switch (s : State) (t : Word) : (s.jump t).switch = s.switch := rfl
@[simp] theorem State.jump_pages (s : State) (t : Word) : (s.jump t).pages = s.pages := rfl
@[simp] theorem State.jump_migrations (s : State) (t : Word) : (s.jump t).migrations = s.migrations := rfl
@[simp] theorem State.jump_pageAsks (s : State) (t : Word) : (s.jump t).pageAsks = s.pageAsks := rfl
@[simp] theorem State.jump_incoming (s : State) (t : Word) : (s.jump t).incoming = s.incoming := rfl
@[simp] theorem State.jump_shoots (s : State) (t : Word) : (s.jump t).shoots = s.shoots := rfl
@[simp] theorem State.jump_placeAt (s : State) (t : Word) : (s.jump t).placeAt = s.placeAt := rfl
@[simp] theorem State.jump_peers (s : State) (t : Word) : (s.jump t).peers = s.peers := rfl
@[simp] theorem State.jump_layouts (s : State) (t : Word) : (s.jump t).layouts = s.layouts := rfl
@[simp] theorem State.jump_links (s : State) (t : Word) : (s.jump t).links = s.links := rfl
@[simp] theorem State.jump_streams (s : State) (t : Word) : (s.jump t).streams = s.streams := rfl
@[simp] theorem State.jump_sent (s : State) (t : Word) : (s.jump t).sent = s.sent := rfl
@[simp] theorem State.jump_units (s : State) (t : Word) : (s.jump t).units = s.units := rfl
@[simp] theorem State.jump_part (s : State) (t : Word) : (s.jump t).part = s.part := rfl
@[simp] theorem State.jump_fused (s : State) (t : Word) : (s.jump t).fused = s.fused := rfl
@[simp] theorem State.jump_eqx (s : State) (t : Word) : (s.jump t).eqx = s.eqx := rfl
@[simp] theorem State.jump_mach_cores (s : State) (t : Word) :
    (s.jump t).mach.cores = s.mach.cores := rfl
@[simp] theorem State.jump_mach_tiles (s : State) (t : Word) :
    (s.jump t).mach.tiles = s.mach.tiles := rfl
@[simp] theorem State.jump_mach_clusters (s : State) (t : Word) :
    (s.jump t).mach.clusters = s.mach.clusters := rfl
@[simp] theorem State.jump_mach_homes (s : State) (t : Word) :
    (s.jump t).mach.homes = s.mach.homes := rfl
@[simp] theorem State.jump_mach_engines (s : State) (t : Word) :
    (s.jump t).mach.engines = s.mach.engines := rfl
@[simp] theorem State.jump_mach_levels (s : State) (t : Word) :
    (s.jump t).mach.levels = s.mach.levels := rfl
@[simp] theorem State.jump_mach_draws (s : State) (t : Word) :
    (s.jump t).mach.draws = s.mach.draws := rfl
@[simp] theorem State.jump_mach_net (s : State) (t : Word) :
    (s.jump t).mach.net = s.mach.net := rfl
@[simp] theorem State.jump_mach_sram (s : State) (t : Word) :
    (s.jump t).mach.sram = s.mach.sram := rfl
@[simp] theorem State.jump_mach_full (s : State) (t : Word) :
    (s.jump t).mach.full = s.mach.full := rfl
@[simp] theorem State.jump_mach_poison (s : State) (t : Word) :
    (s.jump t).mach.poison = s.mach.poison := rfl
@[simp] theorem State.jump_mach_acc (s : State) (t : Word) :
    (s.jump t).mach.acc = s.mach.acc := rfl
@[simp] theorem State.jump_mach_clock (s : State) (t : Word) :
    (s.jump t).mach.clock = s.mach.clock := rfl
@[simp] theorem State.jump_mach_starts (s : State) (t : Word) :
    (s.jump t).mach.starts = s.mach.starts := rfl
@[simp] theorem State.jump_mach_coStarts (s : State) (t : Word) :
    (s.jump t).mach.coStarts = s.mach.coStarts := rfl
@[simp] theorem State.jump_mach_summaryAt (s : State) (t : Word) :
    (s.jump t).mach.summaryAt = s.mach.summaryAt := rfl
@[simp] theorem State.jump_mach_transits (s : State) (t : Word) :
    (s.jump t).mach.transits = s.mach.transits := rfl
@[simp] theorem State.jump_mach_asks (s : State) (t : Word) :
    (s.jump t).mach.asks = s.mach.asks := rfl
@[simp] theorem State.jump_mach_seals (s : State) (t : Word) :
    (s.jump t).mach.seals = s.mach.seals := rfl
@[simp] theorem State.jump_mach_unsealing (s : State) (t : Word) :
    (s.jump t).mach.unsealing = s.mach.unsealing := rfl
@[simp] theorem State.jump_mach_unquiet (s : State) (t : Word) :
    (s.jump t).mach.unquiet = s.mach.unquiet := rfl
@[simp] theorem State.jump_mach_owesQuiet (s : State) (t : Word) :
    (s.jump t).mach.owesQuiet = s.mach.owesQuiet := rfl
@[simp] theorem State.jump_mach_blocks (s : State) (t : Word) :
    (s.jump t).mach.blocks = s.mach.blocks := rfl
@[simp] theorem State.jump_mach_hRecv (s : State) (t : Word) :
    (s.jump t).mach.hRecv = s.mach.hRecv := rfl
@[simp] theorem State.jump_mach_hSend (s : State) (t : Word) :
    (s.jump t).mach.hSend = s.mach.hSend := rfl
@[simp] theorem State.jump_mach_hQueue (s : State) (t : Word) :
    (s.jump t).mach.hQueue = s.mach.hQueue := rfl
@[simp] theorem State.jump_mach_heldRecs (s : State) (t : Word) :
    (s.jump t).mach.heldRecs = s.mach.heldRecs := rfl
@[simp] theorem State.stall_turns (s : State) : (s.stall).turns = s.turns := rfl
@[simp] theorem State.stall_free (s : State) : (s.stall).free = s.free := rfl
@[simp] theorem State.stall_cur (s : State) : (s.stall).cur = s.cur := rfl
@[simp] theorem State.stall_now (s : State) : (s.stall).now = s.now := rfl
@[simp] theorem State.stall_time (s : State) : (s.stall).time = s.time := rfl
@[simp] theorem State.stall_timeRem (s : State) : (s.stall).timeRem = s.timeRem := rfl
@[simp] theorem State.stall_dram (s : State) : (s.stall).dram = s.dram := rfl
@[simp] theorem State.stall_host (s : State) : (s.stall).host = s.host := rfl
@[simp] theorem State.stall_jobs (s : State) : (s.stall).jobs = s.jobs := rfl
@[simp] theorem State.stall_ended (s : State) : (s.stall).ended = s.ended := rfl
@[simp] theorem State.stall_running (s : State) : (s.stall).running = s.running := rfl
@[simp] theorem State.stall_saved (s : State) : (s.stall).saved = s.saved := rfl
@[simp] theorem State.stall_switch (s : State) : (s.stall).switch = s.switch := rfl
@[simp] theorem State.stall_pages (s : State) : (s.stall).pages = s.pages := rfl
@[simp] theorem State.stall_migrations (s : State) : (s.stall).migrations = s.migrations := rfl
@[simp] theorem State.stall_pageAsks (s : State) : (s.stall).pageAsks = s.pageAsks := rfl
@[simp] theorem State.stall_incoming (s : State) : (s.stall).incoming = s.incoming := rfl
@[simp] theorem State.stall_shoots (s : State) : (s.stall).shoots = s.shoots := rfl
@[simp] theorem State.stall_placeAt (s : State) : (s.stall).placeAt = s.placeAt := rfl
@[simp] theorem State.stall_peers (s : State) : (s.stall).peers = s.peers := rfl
@[simp] theorem State.stall_layouts (s : State) : (s.stall).layouts = s.layouts := rfl
@[simp] theorem State.stall_links (s : State) : (s.stall).links = s.links := rfl
@[simp] theorem State.stall_streams (s : State) : (s.stall).streams = s.streams := rfl
@[simp] theorem State.stall_sent (s : State) : (s.stall).sent = s.sent := rfl
@[simp] theorem State.stall_units (s : State) : (s.stall).units = s.units := rfl
@[simp] theorem State.stall_part (s : State) : (s.stall).part = s.part := rfl
@[simp] theorem State.stall_fused (s : State) : (s.stall).fused = s.fused := rfl
@[simp] theorem State.stall_eqx (s : State) : (s.stall).eqx = s.eqx := rfl
@[simp] theorem State.stall_mach_cores (s : State) :
    (s.stall).mach.cores = s.mach.cores := rfl
@[simp] theorem State.stall_mach_tiles (s : State) :
    (s.stall).mach.tiles = s.mach.tiles := rfl
@[simp] theorem State.stall_mach_clusters (s : State) :
    (s.stall).mach.clusters = s.mach.clusters := rfl
@[simp] theorem State.stall_mach_homes (s : State) :
    (s.stall).mach.homes = s.mach.homes := rfl
@[simp] theorem State.stall_mach_engines (s : State) :
    (s.stall).mach.engines = s.mach.engines := rfl
@[simp] theorem State.stall_mach_levels (s : State) :
    (s.stall).mach.levels = s.mach.levels := rfl
@[simp] theorem State.stall_mach_draws (s : State) :
    (s.stall).mach.draws = s.mach.draws := rfl
@[simp] theorem State.stall_mach_net (s : State) :
    (s.stall).mach.net = s.mach.net := rfl
@[simp] theorem State.stall_mach_sram (s : State) :
    (s.stall).mach.sram = s.mach.sram := rfl
@[simp] theorem State.stall_mach_full (s : State) :
    (s.stall).mach.full = s.mach.full := rfl
@[simp] theorem State.stall_mach_poison (s : State) :
    (s.stall).mach.poison = s.mach.poison := rfl
@[simp] theorem State.stall_mach_acc (s : State) :
    (s.stall).mach.acc = s.mach.acc := rfl
@[simp] theorem State.stall_mach_clock (s : State) :
    (s.stall).mach.clock = s.mach.clock := rfl
@[simp] theorem State.stall_mach_starts (s : State) :
    (s.stall).mach.starts = s.mach.starts := rfl
@[simp] theorem State.stall_mach_coStarts (s : State) :
    (s.stall).mach.coStarts = s.mach.coStarts := rfl
@[simp] theorem State.stall_mach_summaryAt (s : State) :
    (s.stall).mach.summaryAt = s.mach.summaryAt := rfl
@[simp] theorem State.stall_mach_transits (s : State) :
    (s.stall).mach.transits = s.mach.transits := rfl
@[simp] theorem State.stall_mach_asks (s : State) :
    (s.stall).mach.asks = s.mach.asks := rfl
@[simp] theorem State.stall_mach_seals (s : State) :
    (s.stall).mach.seals = s.mach.seals := rfl
@[simp] theorem State.stall_mach_unsealing (s : State) :
    (s.stall).mach.unsealing = s.mach.unsealing := rfl
@[simp] theorem State.stall_mach_unquiet (s : State) :
    (s.stall).mach.unquiet = s.mach.unquiet := rfl
@[simp] theorem State.stall_mach_owesQuiet (s : State) :
    (s.stall).mach.owesQuiet = s.mach.owesQuiet := rfl
@[simp] theorem State.stall_mach_blocks (s : State) :
    (s.stall).mach.blocks = s.mach.blocks := rfl
@[simp] theorem State.stall_mach_hRecv (s : State) :
    (s.stall).mach.hRecv = s.mach.hRecv := rfl
@[simp] theorem State.stall_mach_hSend (s : State) :
    (s.stall).mach.hSend = s.mach.hSend := rfl
@[simp] theorem State.stall_mach_hQueue (s : State) :
    (s.stall).mach.hQueue = s.mach.hQueue := rfl
@[simp] theorem State.stall_mach_heldRecs (s : State) :
    (s.stall).mach.heldRecs = s.mach.heldRecs := rfl
@[simp] theorem State.setFull_turns (s : State) (g : Nat) (b : Bool) : (s.setFull g b).turns = s.turns := rfl
@[simp] theorem State.setFull_free (s : State) (g : Nat) (b : Bool) : (s.setFull g b).free = s.free := rfl
@[simp] theorem State.setFull_cur (s : State) (g : Nat) (b : Bool) : (s.setFull g b).cur = s.cur := rfl
@[simp] theorem State.setFull_now (s : State) (g : Nat) (b : Bool) : (s.setFull g b).now = s.now := rfl
@[simp] theorem State.setFull_time (s : State) (g : Nat) (b : Bool) : (s.setFull g b).time = s.time := rfl
@[simp] theorem State.setFull_timeRem (s : State) (g : Nat) (b : Bool) : (s.setFull g b).timeRem = s.timeRem := rfl
@[simp] theorem State.setFull_dram (s : State) (g : Nat) (b : Bool) : (s.setFull g b).dram = s.dram := rfl
@[simp] theorem State.setFull_host (s : State) (g : Nat) (b : Bool) : (s.setFull g b).host = s.host := rfl
@[simp] theorem State.setFull_jobs (s : State) (g : Nat) (b : Bool) : (s.setFull g b).jobs = s.jobs := rfl
@[simp] theorem State.setFull_ended (s : State) (g : Nat) (b : Bool) : (s.setFull g b).ended = s.ended := rfl
@[simp] theorem State.setFull_running (s : State) (g : Nat) (b : Bool) : (s.setFull g b).running = s.running := rfl
@[simp] theorem State.setFull_saved (s : State) (g : Nat) (b : Bool) : (s.setFull g b).saved = s.saved := rfl
@[simp] theorem State.setFull_switch (s : State) (g : Nat) (b : Bool) : (s.setFull g b).switch = s.switch := rfl
@[simp] theorem State.setFull_pages (s : State) (g : Nat) (b : Bool) : (s.setFull g b).pages = s.pages := rfl
@[simp] theorem State.setFull_migrations (s : State) (g : Nat) (b : Bool) : (s.setFull g b).migrations = s.migrations := rfl
@[simp] theorem State.setFull_pageAsks (s : State) (g : Nat) (b : Bool) : (s.setFull g b).pageAsks = s.pageAsks := rfl
@[simp] theorem State.setFull_incoming (s : State) (g : Nat) (b : Bool) : (s.setFull g b).incoming = s.incoming := rfl
@[simp] theorem State.setFull_shoots (s : State) (g : Nat) (b : Bool) : (s.setFull g b).shoots = s.shoots := rfl
@[simp] theorem State.setFull_placeAt (s : State) (g : Nat) (b : Bool) : (s.setFull g b).placeAt = s.placeAt := rfl
@[simp] theorem State.setFull_peers (s : State) (g : Nat) (b : Bool) : (s.setFull g b).peers = s.peers := rfl
@[simp] theorem State.setFull_layouts (s : State) (g : Nat) (b : Bool) : (s.setFull g b).layouts = s.layouts := rfl
@[simp] theorem State.setFull_links (s : State) (g : Nat) (b : Bool) : (s.setFull g b).links = s.links := rfl
@[simp] theorem State.setFull_streams (s : State) (g : Nat) (b : Bool) : (s.setFull g b).streams = s.streams := rfl
@[simp] theorem State.setFull_sent (s : State) (g : Nat) (b : Bool) : (s.setFull g b).sent = s.sent := rfl
@[simp] theorem State.setFull_units (s : State) (g : Nat) (b : Bool) : (s.setFull g b).units = s.units := rfl
@[simp] theorem State.setFull_part (s : State) (g : Nat) (b : Bool) : (s.setFull g b).part = s.part := rfl
@[simp] theorem State.setFull_fused (s : State) (g : Nat) (b : Bool) : (s.setFull g b).fused = s.fused := rfl
@[simp] theorem State.setFull_eqx (s : State) (g : Nat) (b : Bool) : (s.setFull g b).eqx = s.eqx := rfl
@[simp] theorem State.setFull_mach_slots (s : State) (g : Nat) (b : Bool) :
    (s.setFull g b).mach.slots = s.mach.slots := rfl
@[simp] theorem State.setFull_mach_cores (s : State) (g : Nat) (b : Bool) :
    (s.setFull g b).mach.cores = s.mach.cores := rfl
@[simp] theorem State.setFull_mach_tiles (s : State) (g : Nat) (b : Bool) :
    (s.setFull g b).mach.tiles = s.mach.tiles := rfl
@[simp] theorem State.setFull_mach_clusters (s : State) (g : Nat) (b : Bool) :
    (s.setFull g b).mach.clusters = s.mach.clusters := rfl
@[simp] theorem State.setFull_mach_homes (s : State) (g : Nat) (b : Bool) :
    (s.setFull g b).mach.homes = s.mach.homes := rfl
@[simp] theorem State.setFull_mach_engines (s : State) (g : Nat) (b : Bool) :
    (s.setFull g b).mach.engines = s.mach.engines := rfl
@[simp] theorem State.setFull_mach_levels (s : State) (g : Nat) (b : Bool) :
    (s.setFull g b).mach.levels = s.mach.levels := rfl
@[simp] theorem State.setFull_mach_draws (s : State) (g : Nat) (b : Bool) :
    (s.setFull g b).mach.draws = s.mach.draws := rfl
@[simp] theorem State.setFull_mach_net (s : State) (g : Nat) (b : Bool) :
    (s.setFull g b).mach.net = s.mach.net := rfl
@[simp] theorem State.setFull_mach_sram (s : State) (g : Nat) (b : Bool) :
    (s.setFull g b).mach.sram = s.mach.sram := rfl
@[simp] theorem State.setFull_mach_poison (s : State) (g : Nat) (b : Bool) :
    (s.setFull g b).mach.poison = s.mach.poison := rfl
@[simp] theorem State.setFull_mach_acc (s : State) (g : Nat) (b : Bool) :
    (s.setFull g b).mach.acc = s.mach.acc := rfl
@[simp] theorem State.setFull_mach_clock (s : State) (g : Nat) (b : Bool) :
    (s.setFull g b).mach.clock = s.mach.clock := rfl
@[simp] theorem State.setFull_mach_starts (s : State) (g : Nat) (b : Bool) :
    (s.setFull g b).mach.starts = s.mach.starts := rfl
@[simp] theorem State.setFull_mach_coStarts (s : State) (g : Nat) (b : Bool) :
    (s.setFull g b).mach.coStarts = s.mach.coStarts := rfl
@[simp] theorem State.setFull_mach_summaryAt (s : State) (g : Nat) (b : Bool) :
    (s.setFull g b).mach.summaryAt = s.mach.summaryAt := rfl
@[simp] theorem State.setFull_mach_transits (s : State) (g : Nat) (b : Bool) :
    (s.setFull g b).mach.transits = s.mach.transits := rfl
@[simp] theorem State.setFull_mach_asks (s : State) (g : Nat) (b : Bool) :
    (s.setFull g b).mach.asks = s.mach.asks := rfl
@[simp] theorem State.setFull_mach_seals (s : State) (g : Nat) (b : Bool) :
    (s.setFull g b).mach.seals = s.mach.seals := rfl
@[simp] theorem State.setFull_mach_unsealing (s : State) (g : Nat) (b : Bool) :
    (s.setFull g b).mach.unsealing = s.mach.unsealing := rfl
@[simp] theorem State.setFull_mach_unquiet (s : State) (g : Nat) (b : Bool) :
    (s.setFull g b).mach.unquiet = s.mach.unquiet := rfl
@[simp] theorem State.setFull_mach_owesQuiet (s : State) (g : Nat) (b : Bool) :
    (s.setFull g b).mach.owesQuiet = s.mach.owesQuiet := rfl
@[simp] theorem State.setFull_mach_blocks (s : State) (g : Nat) (b : Bool) :
    (s.setFull g b).mach.blocks = s.mach.blocks := rfl
@[simp] theorem State.setFull_mach_hRecv (s : State) (g : Nat) (b : Bool) :
    (s.setFull g b).mach.hRecv = s.mach.hRecv := rfl
@[simp] theorem State.setFull_mach_hSend (s : State) (g : Nat) (b : Bool) :
    (s.setFull g b).mach.hSend = s.mach.hSend := rfl
@[simp] theorem State.setFull_mach_hQueue (s : State) (g : Nat) (b : Bool) :
    (s.setFull g b).mach.hQueue = s.mach.hQueue := rfl
@[simp] theorem State.setFull_mach_heldRecs (s : State) (g : Nat) (b : Bool) :
    (s.setFull g b).mach.heldRecs = s.mach.heldRecs := rfl
@[simp] theorem State.updJobAt_turns (s : State) (j : Nat) (f : Job → Job) : (s.updJobAt j f).turns = s.turns := rfl
@[simp] theorem State.updJobAt_free (s : State) (j : Nat) (f : Job → Job) : (s.updJobAt j f).free = s.free := rfl
@[simp] theorem State.updJobAt_cur (s : State) (j : Nat) (f : Job → Job) : (s.updJobAt j f).cur = s.cur := rfl
@[simp] theorem State.updJobAt_now (s : State) (j : Nat) (f : Job → Job) : (s.updJobAt j f).now = s.now := rfl
@[simp] theorem State.updJobAt_time (s : State) (j : Nat) (f : Job → Job) : (s.updJobAt j f).time = s.time := rfl
@[simp] theorem State.updJobAt_timeRem (s : State) (j : Nat) (f : Job → Job) : (s.updJobAt j f).timeRem = s.timeRem := rfl
@[simp] theorem State.updJobAt_mach (s : State) (j : Nat) (f : Job → Job) : (s.updJobAt j f).mach = s.mach := rfl
@[simp] theorem State.updJobAt_dram (s : State) (j : Nat) (f : Job → Job) : (s.updJobAt j f).dram = s.dram := rfl
@[simp] theorem State.updJobAt_host (s : State) (j : Nat) (f : Job → Job) : (s.updJobAt j f).host = s.host := rfl
@[simp] theorem State.updJobAt_ended (s : State) (j : Nat) (f : Job → Job) : (s.updJobAt j f).ended = s.ended := rfl
@[simp] theorem State.updJobAt_running (s : State) (j : Nat) (f : Job → Job) : (s.updJobAt j f).running = s.running := rfl
@[simp] theorem State.updJobAt_saved (s : State) (j : Nat) (f : Job → Job) : (s.updJobAt j f).saved = s.saved := rfl
@[simp] theorem State.updJobAt_switch (s : State) (j : Nat) (f : Job → Job) : (s.updJobAt j f).switch = s.switch := rfl
@[simp] theorem State.updJobAt_pages (s : State) (j : Nat) (f : Job → Job) : (s.updJobAt j f).pages = s.pages := rfl
@[simp] theorem State.updJobAt_migrations (s : State) (j : Nat) (f : Job → Job) : (s.updJobAt j f).migrations = s.migrations := rfl
@[simp] theorem State.updJobAt_pageAsks (s : State) (j : Nat) (f : Job → Job) : (s.updJobAt j f).pageAsks = s.pageAsks := rfl
@[simp] theorem State.updJobAt_incoming (s : State) (j : Nat) (f : Job → Job) : (s.updJobAt j f).incoming = s.incoming := rfl
@[simp] theorem State.updJobAt_shoots (s : State) (j : Nat) (f : Job → Job) : (s.updJobAt j f).shoots = s.shoots := rfl
@[simp] theorem State.updJobAt_placeAt (s : State) (j : Nat) (f : Job → Job) : (s.updJobAt j f).placeAt = s.placeAt := rfl
@[simp] theorem State.updJobAt_peers (s : State) (j : Nat) (f : Job → Job) : (s.updJobAt j f).peers = s.peers := rfl
@[simp] theorem State.updJobAt_layouts (s : State) (j : Nat) (f : Job → Job) : (s.updJobAt j f).layouts = s.layouts := rfl
@[simp] theorem State.updJobAt_links (s : State) (j : Nat) (f : Job → Job) : (s.updJobAt j f).links = s.links := rfl
@[simp] theorem State.updJobAt_streams (s : State) (j : Nat) (f : Job → Job) : (s.updJobAt j f).streams = s.streams := rfl
@[simp] theorem State.updJobAt_sent (s : State) (j : Nat) (f : Job → Job) : (s.updJobAt j f).sent = s.sent := rfl
@[simp] theorem State.updJobAt_units (s : State) (j : Nat) (f : Job → Job) : (s.updJobAt j f).units = s.units := rfl
@[simp] theorem State.updJobAt_part (s : State) (j : Nat) (f : Job → Job) : (s.updJobAt j f).part = s.part := rfl
@[simp] theorem State.updJobAt_fused (s : State) (j : Nat) (f : Job → Job) : (s.updJobAt j f).fused = s.fused := rfl
@[simp] theorem State.updJobAt_eqx (s : State) (j : Nat) (f : Job → Job) : (s.updJobAt j f).eqx = s.eqx := rfl

end Sys2Proof.Machine
end

