-- ==== Sys2Proof/Laws/Ops.lean ====
section
/-! SUPPORT. One law for each shared operation: what reading a unit or a register gives after an update, what memory holds after
a store, what issue does with an instruction, and what taking a cause and returning from it leave. -/

namespace Sys2Proof.Machine

open Sys2Proof

/-! ### Units -/

@[simp] theorem State.slotAt_setSlotAt_self (s : State) (c l : Nat) (sl : Slot) : (s.setSlotAt c l sl).slotAt c l = sl := by
  simp [State.slotAt, State.setSlotAt, AMap.get_set_self]

theorem State.slotAt_setSlotAt_other (s : State) {c l c' l' : Nat} (sl : Slot) (h : slotKey c' l' ≠ slotKey c l) :
    (s.setSlotAt c l sl).slotAt c' l' = s.slotAt c' l' := by
  simp [State.slotAt, State.setSlotAt, AMap.get_set_other _ _ h]

@[simp] theorem State.coreAt_setCore_self (s : State) (c : Nat) (k : Core) : (s.setCore c k).coreAt c = k := by
  simp [State.coreAt, State.setCore, AMap.get_set_self]

theorem State.coreAt_setCore_other (s : State) {c c' : Nat} (k : Core) (h : c' ≠ c) : (s.setCore c k).coreAt c' = s.coreAt c' := by
  simp [State.coreAt, State.setCore, AMap.get_set_other _ _ h]

@[simp] theorem State.coreAt_setSlotAt (s : State) (c l : Nat) (sl : Slot) (c' : Nat) :
    (s.setSlotAt c l sl).coreAt c' = s.coreAt c' := rfl

@[simp] theorem State.slotAt_setCore (s : State) (c : Nat) (k : Core) (c' l : Nat) :
    (s.setCore c k).slotAt c' l = s.slotAt c' l := rfl

@[simp] theorem State.slotAt_updCore (s : State) (c : Nat) (f : Core → Core) (c' l : Nat) :
    (s.updCore c f).slotAt c' l = s.slotAt c' l := rfl

@[simp] theorem State.slotAt_updSlotAt_self (s : State) (c l : Nat) (f : Slot → Slot) :
    (s.updSlotAt c l f).slotAt c l = f (s.slotAt c l) := by simp [State.updSlotAt]

theorem State.slotAt_updSlotAt_other (s : State) {c l c' l' : Nat} (f : Slot → Slot) (h : slotKey c' l' ≠ slotKey c l) :
    (s.updSlotAt c l f).slotAt c' l' = s.slotAt c' l' := by simp [State.updSlotAt, State.slotAt_setSlotAt_other s _ h]

@[simp] theorem State.slot_upd (s : State) (f : Slot → Slot) : (s.upd f).slot = f s.slot := by
  simp [State.upd, State.setSlot, State.slot]

@[simp] theorem State.homeAt_updHome_self (s : State) (h : Nat) (f : Home → Home) : (s.updHome h f).homeAt h = f (s.homeAt h) := by
  simp [State.homeAt, State.updHome, AMap.get_set_self]

theorem State.homeAt_updHome_other (s : State) {h h' : Nat} (f : Home → Home) (n : h' ≠ h) :
    (s.updHome h f).homeAt h' = s.homeAt h' := by
  simp [State.homeAt, State.updHome, AMap.get_set_other _ _ n]

@[simp] theorem State.tileAt_updTile_self (s : State) (t : Nat) (f : Tile → Tile) : (s.updTile t f).tileAt t = f (s.tileAt t) := by
  simp [State.tileAt, State.updTile, AMap.get_set_self]

@[simp] theorem State.engineAt_updEngine_self (s : State) (e : Nat) (f : Engine → Engine) :
    (s.updEngine e f).engineAt e = f (s.engineAt e) := by
  simp [State.engineAt, State.updEngine, AMap.get_set_self]

@[simp] theorem State.clusterAt_updCluster_self (s : State) (k : Nat) (f : Cluster → Cluster) :
    (s.updCluster k f).clusterAt k = f (s.clusterAt k) := by
  simp [State.clusterAt, State.updCluster, AMap.get_set_self]

@[simp] theorem State.jobAt_updJobAt_self (s : State) (j : Nat) (f : Job → Job) : (s.updJobAt j f).jobAt j = f (s.jobAt j) := by
  simp [State.jobAt, State.updJobAt, AMap.get_set_self]

/-! ### Pair queues (R43) -/

theorem netGet_netSet_self (l : List (PairKey × List Packet)) (k : PairKey) (q : List Packet)
    (h : l.Pairwise (fun a b => a.1 ≠ b.1)) : netGet (netSet l k q) k = q := by
  induction l with
  | nil =>
    simp only [netSet]
    split
    · simp_all [netGet]
    · simp [netGet]
  | cons e t ih =>
    obtain ⟨j, r⟩ := e
    rw [List.pairwise_cons] at h
    simp only [netSet]
    split
    · rename_i hk
      subst hk
      split
      · have hq : q = [] := by simpa using ‹q.isEmpty = true›
        subst hq
        clear ih
        have hn : ∀ t : List (PairKey × List Packet), (∀ e ∈ t, k ≠ e.1) → netGet t k = [] := by
          intro t ht
          induction t with
          | nil => rfl
          | cons e u iu =>
            have h1 : ¬k = e.1 := ht e List.mem_cons_self
            simp only [netGet, h1, if_false]
            exact iu fun x hx => ht x (List.mem_cons_of_mem _ hx)
        exact hn t h.1
      · simp [netGet]
    · simp [netGet, ‹¬k = j›, ih h.2]

theorem netGet_netSet_other (l : List (PairKey × List Packet)) {k j : PairKey} (q : List Packet) (h : j ≠ k) :
    netGet (netSet l k q) j = netGet l j := by
  induction l with
  | nil =>
    simp only [netSet]
    split <;> simp [netGet, h]
  | cons e t ih =>
    obtain ⟨i, r⟩ := e
    simp only [netSet]
    split
    · rename_i hk
      subst hk
      split <;> simp [netGet, h]
    · simp [netGet, ih]

/-! ### Registers (R12, R13) -/

@[simp] theorem Slot.rx_zero (sl : Slot) : sl.rx 0 = 0 := rfl

/-- X[r] after a write to it: x0 stays zero. -/
theorem Slot.rx_wx_self (sl : Slot) (r : Reg) (v : Word) : (sl.wx r v).rx r = if r = 0 then 0 else v := by
  unfold Slot.rx Slot.wx
  split
  · rfl
  · simp

theorem Slot.rx_wx_other (sl : Slot) {r q : Reg} (v : Word) (h : q ≠ r) : (sl.wx r v).rx q = sl.rx q := by
  unfold Slot.rx Slot.wx
  split
  · rfl
  · split
    · rfl
    · have hn : r.toNat ≠ q.toNat := fun e => h (BitVec.eq_of_toNat_eq e.symm)
      simp [hn]

theorem Slot.rv_wv_self (sl : Slot) (r : Reg) (v : VWord) : (sl.wv r v).rv r = v := by simp [Slot.rv, Slot.wv]

theorem Slot.rv_wv_other (sl : Slot) {r q : Reg} (v : VWord) (h : q ≠ r) : (sl.wv r v).rv q = sl.rv q := by
  have hn : r.toNat ≠ q.toNat := fun e => h (BitVec.eq_of_toNat_eq e.symm)
  simp [Slot.rv, Slot.wv, hn]

/-- M[r] after a write to it: m0 stays all ones. -/
theorem Slot.rm_wm_self (sl : Slot) (r : MReg) (v : Word) :
    (sl.wm r v).rm r = if r = 0 then BitVec.allOnes 64 else v := by
  unfold Slot.rm Slot.wm
  split
  · rfl
  · simp

@[simp] theorem Slot.wx_pc (sl : Slot) (r : Reg) (v : Word) : (sl.wx r v).pc = sl.pc := by unfold Slot.wx; split <;> rfl
@[simp] theorem Slot.wx_v (sl : Slot) (r : Reg) (v : Word) : (sl.wx r v).v = sl.v := by unfold Slot.wx; split <;> rfl
@[simp] theorem Slot.wx_m (sl : Slot) (r : Reg) (v : Word) : (sl.wx r v).m = sl.m := by unfold Slot.wx; split <;> rfl
@[simp] theorem Slot.wx_h (sl : Slot) (r : Reg) (v : Word) : (sl.wx r v).h = sl.h := by unfold Slot.wx; split <;> rfl

/-- The slot in hand after its result is written and it goes on. -/
theorem State.slot_setX_retire (s : State) (d : Reg) (v : Word) :
    ((s.setX d v).retire).slot = { (s.slot.wx d v) with pc := s.slot.pc + 4, phase := .ready } := by
  have h : (s.setX d v).slot = s.slot.wx d v := by
    simp [State.setX, State.setXAt, State.logWrite, State.slot, State.updCore, State.updSlotAt]
  simp [State.retire, h]

/-! ### Memory -/

/-- Bytes put into memory keep both memories canonical. -/
theorem State.rawPut_wf (s : State) (pa : Nat) (bs : List Byte) (h1 : s.mach.sram.wf = true) (h2 : s.dram.wf = true) :
    (s.rawPut pa bs).mach.sram.wf = true ∧ (s.rawPut pa bs).dram.wf = true := by
  unfold State.rawPut
  split
  · exact ⟨Memory.puts_wf h1 pa bs, h2⟩
  · exact ⟨h1, Memory.puts_wf h2 pa bs⟩

/-- A store keeps both memories canonical. -/
theorem State.store_wf (s : State) (pa : Nat) (bs : List Byte) (h1 : s.mach.sram.wf = true) (h2 : s.dram.wf = true) :
    (s.store pa bs).mach.sram.wf = true ∧ (s.store pa bs).dram.wf = true := by
  unfold State.store
  split
  · exact s.rawPut_wf pa bs h1 h2
  · have hf : ∀ (l : List Nat) (s : State), s.mach.sram.wf = true ∧ s.dram.wf = true →
        (l.foldl (fun s g => s.rawPut (16 * g) (List.replicate 16 0)) s).mach.sram.wf = true ∧
        (l.foldl (fun s g => s.rawPut (16 * g) (List.replicate 16 0)) s).dram.wf = true := by
      intro l
      induction l with
      | nil => exact fun s h => h
      | cons g t ih => exact fun s h => ih _ (s.rawPut_wf _ _ h.1 h.2)
    obtain ⟨h3, h4⟩ := hf ((granules pa bs.length).filter (fun g => (s.poisonOf g).isSome)) s ⟨h1, h2⟩
    exact State.rawPut_wf _ pa bs h3 h4

theorem State.poisonGranule_wf (s : State) (g : Nat) (k : BitVec 2) (h1 : s.mach.sram.wf = true) (h2 : s.dram.wf = true) :
    (s.poisonGranule g k).mach.sram.wf = true ∧ (s.poisonGranule g k).dram.wf = true :=
  s.rawPut_wf _ _ h1 h2

/-- A byte outside the run that is put reads as before, where the run lies in one of the two memories. -/
theorem State.byte_rawPut_outside (s : State) (pa : Nat) (bs : List Byte) (a : Nat)
    (h : a < pa ∨ pa + bs.length ≤ a) : (s.rawPut pa bs).byte a = s.byte a := by
  unfold State.rawPut State.byte
  split <;> split <;> first | rfl | exact Memory.byte_puts_outside _ _ _ h

/-! ### Issue (R98, R14, R13) -/

/-- What issue can do: the unit is lacking and the cause is taken, issue is held, a poisoned register is read and its cause is
taken, or the instruction has its effect. -/
theorem issue_cases (i : Instr) (n : Need) (k : State → Out) (s : State) :
    (∃ c, n.lack = some c ∧ issue i n k s = s.trap c (wordOf i)) ∨
    (n.lack = none ∧ (n.hold || n.pending s.slot) = true ∧ issue i n k s = .next s.stall) ∨
    (n.lack = none ∧ (n.hold || n.pending s.slot) = false ∧ ∃ r q, n.poisoned s.slot = some (r, q) ∧
      issue i n k s = s.trap (0x0C0 + q.toNat) (BitVec.ofNat 64 r)) ∨
    (ready n s = true ∧ issue i n k s = k s) := by
  unfold issue ready
  cases hl : n.lack with
  | some c => exact .inl ⟨c, rfl, by simp⟩
  | none =>
    cases hh : (n.hold || n.pending s.slot) with
    | true => exact .inr (.inl ⟨rfl, rfl, by simp⟩)
    | false =>
      cases hp : n.poisoned s.slot with
      | some p => exact .inr (.inr (.inl ⟨rfl, rfl, p.1, p.2, rfl, by simp⟩))
      | none =>
        rw [Bool.or_eq_false_iff] at hh
        exact .inr (.inr (.inr ⟨by simp [hh.1, hh.2], by simp⟩))

/-- With nothing in its way an instruction has its effect. -/
theorem issue_ready {n : Need} {s : State} (h : ready n s = true) (i : Instr) (k : State → Out) : issue i n k s = k s := by
  rcases issue_cases i n k s with ⟨c, hc, _⟩ | ⟨_, hh, _⟩ | ⟨_, _, r, q, hp, _⟩ | ⟨_, he⟩
  · simp [ready, hc] at h
  · rw [Bool.or_eq_true] at hh
    rcases hh with hh | hh <;> simp [ready, hh] at h
  · simp [ready, hp] at h
  · exact he

/-- An instruction that only writes xd, with nothing in its way. -/
theorem writeX_ready {n : Need} {d : Reg} {s : State} (h : ready { n with writes := [xr d] } s = true) (i : Instr)
    (f : Slot → Word) : writeX i n d f s = .next (s.setX d (f s.slot)).retire := by
  rw [writeX, issue_ready h]

/-! ### Taking a cause and returning from it (R242, R243, R329) -/

/-- What taking a cause can do: the handler's address is the next PC and the slot goes on, or the slot parks with a record. -/
theorem State.takeTrap_cases (s : State) (c l cause : Nat) (tval epc : Word) (async : Bool) (index : Nat) (addr : Word) :
    let code : Word := BitVec.ofNat 64 cause ||| (if async then 1#64 <<< 63 else 0)
    let t := s.takeTrap c l cause tval epc async index addr
    (userClass cause s.job.debug = true ∧ (s.slotAt c l).tvec ≠ 0 ∧
      t.slotAt c l = { s.slotAt c l with cause := code, epc := epc, tval := tval, pc := (s.slotAt c l).tvec, phase := .ready } ∧
      t.eqx = s.eqx) ∨
    ((userClass cause s.job.debug = false ∨ (s.slotAt c l).tvec = 0) ∧ (t.slotAt c l).phase = .parked ∧
      (t.slotAt c l).cause = code ∧ (t.slotAt c l).epc = epc ∧ (t.slotAt c l).tval = tval ∧
      (t.slotAt c l).pc = (s.slotAt c l).pc ∧ (t.slotAt c l).x = (s.slotAt c l).x ∧ (t.slotAt c l).held.isSome = true) := by
  intro code t
  by_cases h : userClass cause s.job.debug ∧ (s.slotAt c l).tvec ≠ 0
  · left
    refine ⟨h.1, h.2, ?_, ?_⟩
    · simp only [t, State.takeTrap, h.1, h.2, ne_eq, not_false_eq_true, and_self, if_true, State.slotAt_updSlotAt_self]
      rfl
    · simp only [t, State.takeTrap, h.1, h.2, ne_eq, not_false_eq_true, and_self, if_true]
      rfl
  · right
    have hor : userClass cause s.job.debug = false ∨ (s.slotAt c l).tvec = 0 := by
      by_cases hu : userClass cause s.job.debug = true
      · exact .inr (by_contra fun e => h ⟨hu, e⟩)
      · exact .inl (by simpa using hu)
    have he : ∀ (u : State) (r : FaultRec), (u.emit r).slotAt c l = u.slotAt c l := by
      intro u r; unfold State.emit; split <;> rfl
    refine ⟨hor, ?_⟩
    simp only [t, State.takeTrap, h, if_false, he, State.slotAt_updSlotAt_self]
    simp [code]

end Sys2Proof.Machine
end

