-- ==== Sys2Proof/Laws/Access.lean ====
section
/-! SUPPORT. One law for each operation on the way of an access: what a translation can change, what the checks let through,
where an access goes, what a posted write leaves, and what a store to memory does. -/

namespace Sys2Proof.Machine

open Sys2Proof Sys2Proof.Safety

/-! ### Translation (R350, R352) -/

/-- Only TLBs differ: those of the cores and the L2 of the clusters. -/
def onlyTlbs (s t : State) : Prop :=
  { t with mach := { t.mach with cores := s.mach.cores, clusters := s.mach.clusters } } = s ∧
    (∀ c, { t.coreAt c with itlb := (s.coreAt c).itlb, dtlb := (s.coreAt c).dtlb } = s.coreAt c) ∧
    ∀ c, { t.clusterAt c with l2 := (s.clusterAt c).l2 } = s.clusterAt c

theorem onlyTlbs_refl (s : State) : onlyTlbs s s := ⟨rfl, fun _ => rfl, fun _ => rfl⟩

theorem onlyTlbs_trans {s t u : State} (h : onlyTlbs s t) (k : onlyTlbs t u) : onlyTlbs s u := by
  refine ⟨?_, fun c => ?_, fun c => ?_⟩
  · rw [← h.1, ← k.1]
  · rw [← h.2.1 c, ← k.2.1 c]
  · rw [← h.2.2 c, ← k.2.2 c]

theorem onlyTlbs_updCore (s : State) (c : Nat) (f : Core → Core)
    (h : ∀ k, { f k with itlb := k.itlb, dtlb := k.dtlb } = k) : onlyTlbs s (s.updCore c f) := by
  refine ⟨rfl, fun k => ?_, fun k => rfl⟩
  by_cases e : k = c
  · subst e; simpa [State.updCore] using h (s.coreAt k)
  · simp [State.updCore, State.coreAt_setCore_other s _ e]

theorem onlyTlbs_updCluster (s : State) (c : Nat) (f : Cluster → Cluster)
    (h : ∀ k, { f k with l2 := k.l2 } = k) : onlyTlbs s (s.updCluster c f) := by
  refine ⟨rfl, fun k => rfl, fun k => ?_⟩
  by_cases e : k = c
  · subst e; simpa using h (s.clusterAt k)
  · simp [State.clusterAt, State.updCluster, AMap.get_set_other _ _ e]

/-- A look-up in the TLBs, with the walk where none has the page, changes TLBs only. -/
theorem State.lookup_frame (s : State) (c va : Nat) (fetch : Bool) : onlyTlbs s (s.lookup c va fetch).1 := by
  have h1 : ∀ (u : State) (e : TlbE), onlyTlbs u (u.updCore c (fun k =>
      if fetch then { k with itlb := tlbPut 16 e k.itlb } else { k with dtlb := tlbPut 32 e k.dtlb })) :=
    fun u e => onlyTlbs_updCore u c _ (fun k => by cases fetch <;> rfl)
  unfold State.lookup
  simp only
  split
  · exact h1 _ _
  · split
    · exact h1 _ _
    · split
      · split
        · exact h1 _ _
        · exact onlyTlbs_trans (onlyTlbs_updCluster s _ (fun k => { k with l2 := l2Put _ k.l2 }) (fun _ => rfl)) (h1 _ _)
      · exact onlyTlbs_refl s

/-- A translation changes TLBs only. -/
theorem State.translate_frame (s : State) (c : Nat) (va : Word) (kind : AccKind) : onlyTlbs s (s.translate c va kind).1 := by
  have h := s.lookup_frame c va.toNat (kind = .exec)
  unfold State.translate
  simp only
  split
  · exact onlyTlbs_refl s
  split
  · exact onlyTlbs_refl s
  split
  · exact onlyTlbs_refl s
  · rename_i e
    rw [e] at h
    repeat' split
    all_goals exact h

/-! ### The checks of an access (R144, R61, R367) -/

/-- With nothing of R61 and R367 in the way, an instruction goes on. -/
theorem toPeer_open {s : State} {peer : Peer} (h : wayOut s peer) (w : Word) (k : State → Out) : toPeer peer w k s = k s := by
  unfold toPeer
  rcases h with h | ⟨h1, h2⟩
  · simp [h, State.peerCause]
  · simp [h1, h2]

/-- With no move of the task asked for and nothing of R61 and R367 in the way, an access goes on. -/
theorem toPage_open {s : State} {x : Xl} (m : s.mustMove x = false) (h : wayOut s x.e.peer) (k : State → Out) :
    toPage x k s = k s := by
  simp [toPage, m, toPeer_open h]

/-- A data access whose way is open has its effect, at the state in which the TLBs have been used. -/
theorem withAccess_open {s t : State} {va : Word} {len : Nat} {write : Bool} {x : Xl} (h : openWay s t va len write x)
    (k : Xl → State → Out) : withAccess va len write k s = k x t := by
  obtain ⟨h1, h2, m, h3⟩ := h
  simp [withAccess, withXl, h1, h2, toPage_open m h3]

/-! ### Sending (R43, R145) -/

/-- What is appended to a pair queue stands last in it. -/
theorem netGet_append (l : List (PairKey × List Packet)) (k : PairKey) (q : List Packet) (p : Packet) :
    netGet (netSet l k (q ++ [p])) k = q ++ [p] := by
  induction l with
  | nil => simp [netSet, netGet]
  | cons e t ih =>
    simp only [netSet]
    split
    · rename_i hk
      simp [netGet, hk]
    · simp [netGet, ‹¬k = e.1›, ih]

/-- An access goes into the own slice's perform queue, or last onto its pair queue. -/
theorem State.access_requested (s : State) (home : Nat) (peer : Peer) (b : Body) : requested s (s.access home peer b) home peer b := by
  have hm : ∀ (o : Peer) (h : Nat) (p : Packet) (q : List Packet), p ∈ enterLocal o h p q := by
    intro o h p q
    induction q with
    | nil => simp [enterLocal]
    | cons a t ih => simp only [enterLocal]; split <;> simp [ih]
  unfold requested State.access State.isLocal
  by_cases h : peer = s.part.peer ∧ isGateway s.cur.1 = false ∧ home = tileOf s.cur.1
  · simp only [h, and_self, if_true, decide_true, Bool.not_false, Bool.and_true, State.homeAt_updHome_self]
    exact ⟨_, hm _ _ _ _, rfl, rfl, rfl, rfl⟩
  · have hl : (decide (peer = s.part.peer) && !isGateway s.cur.1 && decide (home = tileOf s.cur.1)) = false := by
      simp only [Bool.and_eq_false_iff, decide_eq_false_iff_not, Bool.not_eq_false']
      by_contra e
      push Not at e
      exact h ⟨e.1.1, by simpa using e.1.2, e.2⟩
    simp only [h, if_false, hl, Bool.false_eq_true]
    simp [lastIs, State.append, netGet_append]

/-- A request of one state is one of another with the same slot in hand. -/
theorem requested_congr {s s' u : State} {h : Nat} {peer : Peer} {b : Body} (hp : s'.part = s.part) (hc : s'.cur = s.cur)
    (hg : s'.slot.gen = s.slot.gen) (r : requested s' u h peer b) : requested s u h peer b := by
  have hl : s'.isLocal s'.cur.1 h peer = s.isLocal s.cur.1 h peer := by simp [State.isLocal, hp, hc]
  unfold requested at r ⊢
  rw [hl] at r
  simpa only [State.here, hp, hc, hg] using r

/-- An access changes neither slots, cores nor memory. -/
theorem State.access_frame (s : State) (home : Nat) (peer : Peer) (b : Body) :
    (s.access home peer b).mach.slots = s.mach.slots ∧ (s.access home peer b).mach.cores = s.mach.cores ∧
      (s.access home peer b).cur = s.cur ∧ sameMemory s (s.access home peer b) := by
  unfold State.access
  simp only
  split <;> exact ⟨rfl, rfl, rfl, fun _ => rfl⟩

/-! ### Posted writes (R24, R25, R145) -/

/-- A posted write with its place in the journal, if it needs one, is sent, counted and journalled. -/
theorem State.putStore_posted {s t : State} {va : Word} {n : Nat} {x : Xl} (h : openWay s t va n true x) (kind : WKind) (len : Nat)
    (data : VWord) (hf : s.isLocal s.cur.1 (s.xlHome x) x.e.peer = true ∨ freeEntry (s.coreAt s.cur.1).journal ≠ none) :
    ∃ u, t.putStore x kind len data = some u ∧ posted s u x kind len data ∧ u.slot.pc = s.slot.pc ∧ u.cur = s.cur := by
  have hT : onlyTlbs s t := by
    have := s.translate_frame s.cur.1 va .write
    rw [show s.translate s.cur.1 va .write = (t, .ok x) from h.1] at this
    exact this
  have hs : ∀ c l, t.slotAt c l = s.slotAt c l := fun c l => by rw [← hT.1]; rfl
  have hc : t.cur = s.cur := by rw [← hT.1]
  have hp : t.part = s.part := by rw [← hT.1]
  have hx : t.xlHome x = s.xlHome x := by rw [← hT.1]; rfl
  have hj : (t.coreAt s.cur.1).journal = (s.coreAt s.cur.1).journal := by rw [← hT.2.1 s.cur.1]
  have hb : sameMemory s t := fun a => by rw [← hT.1]; rfl
  have hsl : t.slot = s.slot := by simp [State.slot, hc, hs]
  have hloc : ∀ h, t.isLocal t.cur.1 h x.e.peer = s.isLocal s.cur.1 h x.e.peer := fun h => by simp [State.isLocal, hc, hp]
  have hd : ∀ h, t.distance t.cur.1 h x.e.peer = s.distance s.cur.1 h x.e.peer := fun h => by simp [State.distance, hc, hp]
  unfold State.putStore
  simp only [hloc, hx, hd]
  by_cases l : s.isLocal s.cur.1 (s.xlHome x) x.e.peer = true
  · simp only [l, if_true, Option.some.injEq, exists_eq_left']
    set v := t.upd (fun sl => { sl with cntst := sl.cntst + 1 }) with hv
    obtain ⟨f1, f2, f3, f4⟩ := v.access_frame (s.xlHome x) x.e.peer (.store kind x.pa len data none)
    have hvc : v.cur = s.cur := hc
    have hvp : v.part = s.part := hp
    have hvs : v.slot = { s.slot with cntst := s.slot.cntst + 1 } := by rw [hv, State.slot_upd, hsl]
    have hu : (v.access (s.xlHome x) x.e.peer (.store kind x.pa len data none)).slot = v.slot := by
      simp only [State.slot, State.slotAt, f1, f3]
    have hr := requested_congr (s := s) hvp hvc (by rw [hvs]) (v.access_requested (s.xlHome x) x.e.peer (.store kind x.pa len data none))
    refine ⟨⟨by rw [hu, hvs], by rw [hu, hvs], by rw [hu, hvs], fun a => (f4 a).trans (hb a), ?_, ?_, ?_, ?_⟩, by rw [hu, hvs],
      f3.trans hvc⟩
    · simp [hu, hvs, l]
    · simp [hu, hvs, l]
    · simp [hu, hvs, l]
    · simp only [l, if_true]
      refine ⟨?_, hr⟩
      rw [State.coreAt, f2]
      exact hj
  · obtain ⟨e, he⟩ := Option.ne_none_iff_exists'.mp (hf.resolve_left l)
    have l' : s.isLocal s.cur.1 (s.xlHome x) x.e.peer = false := by simpa using l
    have hj' : freeEntry (t.coreAt t.cur.1).journal = some e := by rw [hc, hj, he]
    simp only [l', Bool.false_eq_true, if_false, hj', Option.map_some, Option.some.injEq, exists_eq_left']
    set je : JEntry := { slot := t.cur.2, gen := t.slot.gen, home := s.xlHome x, peer := x.e.peer,
                         cls := s.distance s.cur.1 (s.xlHome x) x.e.peer, pa := x.pa, len := len, data := data, kind := kind,
                         refused := false, reason := 0, undelivered := false } with hje
    set v := (t.upd _).updCore t.cur.1 (fun q => { q with journal := AMap.set q.journal e je }) with hv
    obtain ⟨f1, f2, f3, f4⟩ := v.access_frame (s.xlHome x) x.e.peer (.store kind x.pa len data (some e))
    have hvc : v.cur = s.cur := hc
    have hvp : v.part = s.part := hp
    have hvs : v.slot = _ := (State.slotAt_updCore _ _ _ _ _).trans (State.slot_upd _ _)
    rw [hsl] at hvs
    have hu : (v.access (s.xlHome x) x.e.peer (.store kind x.pa len data (some e))).slot = v.slot := by
      simp only [State.slot, State.slotAt, f1, f3]
    have hr := requested_congr (s := s) hvp hvc (by rw [hvs]) (v.access_requested (s.xlHome x) x.e.peer (.store kind x.pa len data (some e)))
    refine ⟨⟨by rw [hu, hvs], by rw [hu, hvs], by rw [hu, hvs], fun a => (f4 a).trans (hb a), ?_, ?_, ?_, ?_⟩, by rw [hu, hvs],
      f3.trans hvc⟩
    · simp only [hu, hvs, l', true_and]; split <;> rfl
    · simp only [hu, hvs, l', true_and]; split <;> rfl
    · simp only [hu, hvs, l', true_and]; split <;> rfl
    · simp only [l', Bool.false_eq_true, if_false]
      refine ⟨e, he, hr, ?_⟩
      rw [State.coreAt, f2, ← hc]
      have hk : AMap.get (v.coreAt t.cur.1).journal e = some je := by
        rw [hv, State.updCore, State.coreAt_setCore_self]
        exact AMap.get_set_self _ _ _
      rw [State.coreAt] at hk
      rw [hk, hje, hsl, hc]

/-! ### A store to memory (R159) -/

/-- A granule is one of a run's where the run touches it. -/
theorem mem_granules {pa n g : Nat} : g ∈ granules pa n ↔ pa / 16 ≤ g ∧ g < (pa + n + 15) / 16 := by
  simp [granules]; constructor
  · rintro ⟨a, h, rfl⟩; omega
  · intro ⟨h1, h2⟩; exact ⟨g - pa / 16, by omega, by omega⟩

/-- A byte of a run that is put reads as put, where the run lies in one of the two memories. -/
theorem State.byte_rawPut_inside (s : State) (pa : Nat) (bs : List Byte) (i : Nat) (h : i < bs.length)
    (hin : pa + bs.length ≤ 2^30 ∨ 2^30 ≤ pa) : (s.rawPut pa bs).byte (pa + i) = bs[i] := by
  by_cases h0 : pa < 2^30
  · have h1 : pa + i < 2^30 := by omega
    unfold State.rawPut State.byte
    rw [if_pos h0, if_pos h1]
    exact Memory.byte_puts_inside _ _ _ _ h
  · have h1 : ¬ pa + i < 2^30 := by omega
    unfold State.rawPut State.byte
    rw [if_neg h0, if_neg h1]
    exact Memory.byte_puts_inside _ _ _ _ h

/-- A granule put to zero. -/
theorem State.byte_zeroGranule (s : State) (g a : Nat) (hg : 16*g+16 ≤ 2^30 ∨ 2^30 ≤ 16*g) :
    (s.rawPut (16*g) (List.replicate 16 0)).byte a = if a / 16 = g then 0 else s.byte a := by
  split
  · have := State.byte_rawPut_inside s (16*g) (List.replicate 16 0) (a - 16*g) (by simp; omega) (by simpa using hg)
    rw [show 16*g + (a-16*g) = a by omega, List.getElem_replicate] at this
    exact this
  · exact State.byte_rawPut_outside s _ _ a (by simp; omega)

/-- Granules put to zero, one after the other. -/
theorem State.byte_zeroGranules (l : List Nat) (hl : ∀ g ∈ l, 16*g+16 ≤ 2^30 ∨ 2^30 ≤ 16*g) (s : State) (a : Nat) :
    (l.foldl (fun s g => s.rawPut (16 * g) (List.replicate 16 0)) s).byte a = if a / 16 ∈ l then 0 else s.byte a := by
  induction l generalizing s with
  | nil => simp
  | cons g t ih =>
    simp only [List.foldl_cons, List.mem_cons]
    rw [ih (fun g h => hl g (List.mem_cons_of_mem _ h)), State.byte_zeroGranule _ _ _ (hl g (List.mem_cons_self ..))]
    by_cases h1 : a / 16 ∈ t <;> by_cases h2 : a / 16 = g <;> simp [h1, h2]

/-- Putting bytes leaves the poison marks. -/
theorem State.poison_zeroGranules (l : List Nat) (s : State) :
    (l.foldl (fun s g => s.rawPut (16 * g) (List.replicate 16 0)) s).mach.poison = s.mach.poison := by
  induction l generalizing s with
  | nil => rfl
  | cons g t ih => simp only [List.foldl_cons]; rw [ih]; unfold State.rawPut; split <;> rfl

/-- What a map without some numbers holds. -/
theorem AMap.get_without {α : Type} (m : AMap α) (l : List Nat) (n : Nat) :
    AMap.get (m.filter (fun e => !l.contains e.1)) n = if n ∈ l then none else AMap.get m n := by
  induction m with
  | nil => simp [AMap.get]
  | cons e t ih =>
    obtain ⟨k, v⟩ := e
    by_cases hk : k ∈ l <;> by_cases hn : n = k <;> by_cases hl : n ∈ l <;> simp_all [AMap.get]

/-- What a store does (R159): its bytes are written, the poison of the granules that it touches is gone and the other bytes of
those that were poisoned are zero, and every other byte reads as before. -/
theorem State.store_bytes (s : State) (pa : Nat) (bs : List Byte) (hin : pa + bs.length ≤ 2^30 ∨ 2^30 ≤ pa) :
    (∀ i (h : i < bs.length), (s.store pa bs).byte (pa + i) = bs[i]) ∧
    (∀ a, a < pa ∨ pa + bs.length ≤ a → (s.store pa bs).byte a =
      if a / 16 ∈ granules pa bs.length ∧ s.poisonOf (a / 16) ≠ none then 0 else s.byte a) ∧
    (∀ g ∈ granules pa bs.length, (s.store pa bs).poisonOf g = none) := by
  unfold State.store
  by_cases he : s.mach.poison.isEmpty = true
  · have hp : s.mach.poison = [] := by simpa using he
    simp only [he, if_true]
    refine ⟨fun i h => State.byte_rawPut_inside _ _ _ _ h hin, fun a h => ?_, fun g _ => ?_⟩
    · rw [State.byte_rawPut_outside _ _ _ _ h]; simp [State.poisonOf, hp, AMap.get]
    · have : (s.rawPut pa bs).mach.poison = s.mach.poison := by unfold State.rawPut; split <;> rfl
      simp [State.poisonOf, this, hp, AMap.get]
  · simp only [he]
    refine ⟨fun i h => State.byte_rawPut_inside _ _ _ _ h hin, fun a h => ?_, fun g hg => ?_⟩
    · rw [if_neg (by simp), State.byte_rawPut_outside _ _ _ _ h]
      show State.byte (List.foldl _ s _) a = _
      rw [State.byte_zeroGranules]
      · simp [List.mem_filter, Option.isSome_iff_ne_none]
      · intro g hg
        have := (List.mem_filter.1 hg).1
        rw [mem_granules] at this; omega
    · rw [if_neg (by simp)]
      have : ∀ (t : State), (t.rawPut pa bs).mach.poison = t.mach.poison := by intro t; unfold State.rawPut; split <;> rfl
      simp only [State.poisonOf, this]
      rw [State.poison_zeroGranules, AMap.get_without]
      by_cases hx : (AMap.get s.mach.poison g).isSome = true
      · simp [List.mem_filter, hg, hx]
      · simp [Option.not_isSome_iff_eq_none.1 hx]

end Sys2Proof.Machine
end

