-- ==== Sys2Proof/Laws/Shared.lean ====
section
/-! SUPPORT. What the shared operations of levels, links, counts and the drain of a switch leave as it was, one lemma for each, so
that a proof over a step cites them and unfolds none. -/

namespace Sys2Proof.Machine

/-! ### The drain of a switch (R339, R341) -/

/-- With no switch stopping the module nothing is spilled. -/
theorem State.spills_of_running {s : State} (h : s.stopped = false) (b : Body) : s.spills b = false := by
  simp [State.spills, h]

/-- With no switch stopping the module every run goes on. -/
theorem State.goesOn_of_running {s : State} (h : s.stopped = false) (e : Nat) (r : Run) : s.goesOn e r = true := by
  simp [State.goesOn, h]

/-! ### Levels (R319) -/

/-- A record judged anew leaves every other level as it was. -/
theorem State.levelAt_freshen_other (s : State) {k i : Nat} (h : i ≠ k) : (s.freshen k).levelAt i = s.levelAt i := by
  unfold State.freshen
  dsimp only
  split <;> simp [State.levelAt, AMap.get_set_other _ _ h]

/-- A record that has not completed is not judged anew. -/
theorem State.freshen_of_open {s : State} {k : Nat} (h : (s.levelAt k).state ≠ 3) : s.freshen k = s := by
  simp [State.freshen, h]

@[simp] theorem State.freshen_dram (s : State) (k : Nat) : (s.freshen k).dram = s.dram := by
  unfold State.freshen; dsimp only; split <;> rfl
@[simp] theorem State.freshen_sram (s : State) (k : Nat) : (s.freshen k).mach.sram = s.mach.sram := by
  unfold State.freshen; dsimp only; split <;> rfl

/-! ### Counts (R28, R283) -/

/-- A stale reply changes no slot, no memory and no packet. -/
@[simp] theorem State.slotAt_stale (s : State) (c c' l : Nat) : (s.stale c).slotAt c' l = s.slotAt c' l := rfl
@[simp] theorem State.stale_dram (s : State) (c : Nat) : (s.stale c).dram = s.dram := rfl
@[simp] theorem State.stale_sram (s : State) (c : Nat) : (s.stale c).mach.sram = s.mach.sram := rfl
@[simp] theorem State.stale_net (s : State) (c : Nat) : (s.stale c).mach.net = s.mach.net := rfl

/-- Counting an access changes the page records alone. -/
theorem State.countPage_only (s : State) (pa : Nat) (src : Place) (n : Nat) :
    ∃ l, s.countPage pa src n = { s with pages := l } := by
  unfold State.countPage
  dsimp only
  split
  · exact ⟨s.pages, rfl⟩
  · split
    · exact ⟨_, rfl⟩
    · split <;> exact ⟨_, rfl⟩

/-! ### Links (R362, R371) -/

@[simp] theorem Link.down_up (l : Link) : l.down.up = false := rfl
@[simp] theorem Link.down_unacked (l : Link) : l.down.unacked = [] := rfl
@[simp] theorem Link.down_held (l : Link) : l.down.held = [] := rfl
@[simp] theorem Link.owes_used (l : Link) (vc : Nat) : (l.owes vc).used = l.used := rfl
@[simp] theorem Link.owes_unacked (l : Link) (vc : Nat) : (l.owes vc).unacked = l.unacked := rfl
@[simp] theorem Link.credited_unacked (f : Flit) (l : Link) : (l.credited f).unacked = l.unacked := rfl

/-- A restored plan is none where nothing was lit. -/
theorem State.restorePlan_of_dark (s : State) {c : CircRun} (h : c.lit = false) : s.restorePlan c = s := by
  simp [State.restorePlan, h]

/-! ### Signatures (R387) -/

/-- A private key and a pick are numbers from 1 to the order less 1. -/
theorem p256Scalar_range (v : Nat) : 0 < p256Scalar v ∧ p256Scalar v < p256N := by
  have h : v % (p256N - 1) < p256N - 1 := Nat.mod_lt _ (by decide)
  unfold p256Scalar
  omega

end Sys2Proof.Machine
end

