-- ==== Sys2Proof/Tests/Slice0.lean ====
section
/-! SUPPORT. Own tests: an ill-formed term for each check of `Instr.wf`, words of every family written out from the
tables of chapter 06, the manual's worked results, and for every statement with hypotheses a state that meets them. -/

namespace Sys2Proof.Tests

open Sys2Proof Sys2Proof.Machine Sys2Proof.Safety

set_option Elab.async false

/-! ## The checks of `Instr.wf` -/

/-- Shift counts, bit fields, scales and sizes (R105, R106, R109, R110). -/
theorem test_wf_scalar_and_memory_limits :
    (Instr.sllWImm 1 2 31).wf = true ∧ (Instr.sllWImm 1 2 32).wf = false ∧ (Instr.bfx 1 2 32 31).wf = true ∧
    (Instr.bfx 1 2 32 32).wf = false ∧ (Instr.bfi 1 2 63 1).wf = false ∧ (Instr.lea 1 2 3 7).wf = false ∧
    (Instr.ld 1 2 0 4 0).wf = false ∧ (Instr.ldS 1 2 0 3 0).wf = false ∧ (Instr.stFeIndexed 1 2 3 0 4).wf = false ∧
    (Instr.qpush 1 8).wf = false ∧ (Instr.aadd 1 2 3 0 1).wf = false ∧ (Instr.aadd 1 2 3 0 4).wf = false ∧
    (Instr.ldt 1 2 0 10 0).wf = false := by decide

/-- Register runs, equal handle registers, counts and priorities (R112, R113, R173, R175, R178). -/
theorem test_wf_channel_limits :
    (Instr.chnew 3 3).wf = false ∧ (Instr.chnew 3 4).wf = true ∧ (Instr.chsend 1 26 6).wf = true ∧
    (Instr.chsend 1 27 6).wf = false ∧ (Instr.chsend 1 0 7).wf = false ∧ (Instr.chsendh 1 1 0 0).wf = false ∧
    (Instr.chsendh 1 2 0 5).wf = false ∧ (Instr.chsendh 1 2 29 4).wf = false ∧ (Instr.inboxDq 1 25 3).wf = true ∧
    (Instr.inboxDq 1 26 3).wf = false ∧ (Instr.inboxTry 1 0 4).wf = false ∧ (Instr.amsg 26 0).wf = false ∧
    (Instr.amsg 25 5).wf = false ∧ (Instr.spawn 29 0 0).wf = false ∧ (Instr.spawn 30 1 0).wf = false ∧
    (Instr.mrel 3).wf = false := by decide

/-- Vector types, block selectors and register groups, tile and system fields (R114, R115, R199, R208 to R211). -/
theorem test_wf_vector_tile_and_system_limits :
    (Instr.vadd 1 2 3 0 2).wf = false ∧ (Instr.vfma 1 2 3 0 6).wf = false ∧ (Instr.vshl 1 2 3 0 0).wf = false ∧
    (Instr.vquant 1 4 2 2 0 1).wf = true ∧ (Instr.vquant 1 5 2 2 0 1).wf = false ∧ (Instr.vquant 2 4 2 2 0 1).wf = false ∧
    (Instr.vquant 1 4 2 2 0 0).wf = false ∧ (Instr.vquant 1 4 2 7 0 1).wf = false ∧ (Instr.vdeq 2 1 3 2 0 1).wf = false ∧
    (Instr.baq 2 4 5 2 0 1).wf = false ∧ (Instr.vmxdot 1 3 4 0 2 0 1).wf = false ∧ (Instr.vgath 1 2 3 0 6 0).wf = false ∧
    (Instr.shp 1 2 16).wf = false ∧ (Instr.mma 1 2 3 5).wf = false ∧ (Instr.trap 16).wf = false ∧
    (Instr.cancel 1 0).wf = false ∧ (Instr.cancel 1 5).wf = false := by decide

/-! ## Words written out from the tables of chapter 06 -/

/-- Majors 0x01 to 0x07 (Tables 06-4, 06-5, 06-14, 07-5). -/
theorem test_decode_integer :
    decode 0x08200005 = .ok (.addImm 1 0 5) ∧ decode 0x04420800 = .ok (.add 2 2 1 0) ∧
    decode 0x0821FFFF = .ok (.addImm 1 1 0xFFFF) ∧ decode 0x18628009 = .ok (.bfx 3 2 0 9) ∧
    decode 0x0C6303FF = .ok (.andImm 3 3 0x3FF) ∧ decode 0x04A63E04 = .ok (.div 5 6 7 1 1) ∧
    decode 0x192A4005 = .ok (.sllWImm 9 10 5) ∧ decode 0x14222FFF = .ok (.sltNImm 1 2 0xFFF) ∧
    decode 0x1C201234 = .ok (.lui 1 0x1234) ∧ decode 0x1CC1FFFF = .ok (.auipc 6 0xFFFF) ∧
    decode (0x01#6 ++ 3#5 ++ 4#5 ++ 0#5 ++ 1#1 ++ 0#1 ++ 0#3 ++ 0x0E#6) = .ok (.clz 3 4 1) ∧
    decode (0x01#6 ++ 3#5 ++ 4#5 ++ 5#5 ++ 0#1 ++ 1#1 ++ 0#3 ++ 0x13#6) = .ok (.slt 3 4 5 1) := by decide

/-- Majors 0x08 to 0x17 and 0x3C (Table 06-6, R106). -/
theorem test_decode_fp_address_and_branches :
    decode 0x248531C0 = .ok (.fma 4 5 6 7) ∧ decode 0x20221812 = .ok (.fcmpLt 1 2 3) ∧
    decode 0x30432003 = .ok (.lea 2 3 4 3) ∧ decode 0x30830008 = .ok (.gaform 4 3 0) ∧
    decode (0x08#6 ++ 7#5 ++ 8#5 ++ 0#5 ++ 0x021#11) = .ok (.fcvtIF32 7 8) ∧
    decode (0x0C#6 ++ 7#5 ++ 8#5 ++ 9#5 ++ 0x00B#11) = .ok (.padd 7 8 9) ∧
    decode 0x50640002 = .ok (.blo 3 4 2) ∧ decode 0x4420FFFE = .ok (.bne 1 0 0xFFFE) ∧
    decode 0x5C000010 = .ok (.jal 16) ∧ decode 0xEC1F000A = .ok (.jalr 0 31) ∧ decode 0xEFEC000A = .ok (.jalr 31 12) ∧
    decode 0xF120FFFE = .ok (.loop 9 0xFFFE) := by decide

/-- Majors 0x18 to 0x25 (Tables 06-7, 06-14, 08-12). -/
theorem test_decode_memory :
    decode 0x60A41800 = .ok (.ld 5 4 0 3 0) ∧ decode 0x68679800 = .ok (.st 3 7 2 3 0) ∧
    decode 0x604317FE = .ok (.ld 2 3 0 2 0x7FE) ∧ decode 0x6D2C3802 = .ok (.ldFeTake 9 12 0 3 2) ∧
    decode 0x71271802 = .ok (.stFe 9 7 0 3 2) ∧ decode 0x892A0C00 = .ok (.ldt 9 10 0 3 0) ∧
    decode 0x8C290000 = .ok (.rdmV 1 9 0) ∧ decode 0x80740CC0 = .ok (.aadd 3 20 1 2 3) ∧
    decode 0x80742089 = .ok (.acas 3 20 4 0 2) ∧ decode 0x841408C0 = .ok (.anadd 20 1 0 3) ∧
    decode 0x78061802 = .ok (.qpush 6 3) ∧ decode 0x78A01803 = .ok (.qpop 5 3) ∧ decode 0x90000004 = .ok .fenceSystem ∧
    decode 0x90042808 = .ok (.seal 4 5) ∧ decode 0x96B40000 = .ok (.jrd 21 20) ∧ decode 0x94140001 = .ok (.jdrop 20) := by
  decide

/-- Majors 0x28 to 0x2D (Table 06-8, R113). -/
theorem test_decode_channels :
    decode (0x28#6 ++ 1#4 ++ 2#4 ++ 0#5 ++ 0#5 ++ 0#3 ++ 0#5) = .ok (.chnew 1 2) ∧
    decode (0x28#6 ++ 0#4 ++ 2#4 ++ 9#5 ++ 0#5 ++ 0#3 ++ 5#5) = .ok (.chq 2 9) ∧
    decode (0x28#6 ++ 3#4 ++ 0#4 ++ 9#5 ++ 0#5 ++ 0#3 ++ 6#5) = .ok (.chseg 3 9) ∧
    decode (0x29#6 ++ 5#4 ++ 0#2 ++ 0#2 ++ 0x123#18) = .ok (.chbindHandler 5 0x123) ∧
    decode (0x29#6 ++ 5#4 ++ 1#2 ++ 0#2 ++ 0#18) = .ok (.chbindInbox 5) ∧
    decode (0x2A#6 ++ 1#4 ++ 0#4 ++ 10#5 ++ 0#5 ++ 6#3 ++ 0#5) = .ok (.chsend 1 10 6) ∧
    decode (0x2A#6 ++ 1#4 ++ 2#4 ++ 10#5 ++ 0#5 ++ 4#3 ++ 6#5) = .ok (.chsendhCtl 1 2 10 4) ∧
    decode (0x2B#6 ++ 7#4 ++ 0#4 ++ 11#5 ++ 0#5 ++ 3#3 ++ 1#5) = .ok (.inboxTry 7 11 3) ∧
    decode (0x2B#6 ++ 0#4 ++ 0#4 ++ 11#5 ++ 0#5 ++ 4#3 ++ 2#5) = .ok (.amsg 11 4) ∧
    decode (0x2C#6 ++ 12#5 ++ 3#2 ++ 0#1 ++ 0x40#18) = .ok (.spawn 12 3 0x40) ∧
    decode (0x2D#6 ++ 0#4 ++ 0#4 ++ 3#5 ++ 4#5 ++ 0#3 ++ 1#5) = .ok (.mtset 3 4) ∧
    decode (0x2D#6 ++ 0#4 ++ 0#4 ++ 0#5 ++ 0#5 ++ 2#3 ++ 3#5) = .ok (.mrel 2) := by decide

/-- Majors 0x30 to 0x37 (Table 06-9, Table 08-12). -/
theorem test_decode_vector :
    decode (0x30#6 ++ 1#5 ++ 2#5 ++ 3#5 ++ 4#3 ++ 6#3 ++ 1#5) = .ok (.vsub 1 2 3 4 6) ∧
    decode (0x30#6 ++ 1#5 ++ 2#5 ++ 0#5 ++ 0#3 ++ 0#3 ++ 17#5) = .ok (.vbcast 1 2 0 0) ∧
    decode (0x31#6 ++ 5#5 ++ 2#5 ++ 3#5 ++ 4#3 ++ 7#3 ++ 3#5) = .ok (.vcmpLe 5 2 3 4 7) ∧
    decode (0x32#6 ++ 1#5 ++ 2#5 ++ 0#2 ++ 1#3 ++ 4#3 ++ 2#3 ++ 0#5) = .ok (.vcvt 1 2 1 4 2) ∧
    decode (0x32#6 ++ 1#5 ++ 4#5 ++ 2#5 ++ 0#3 ++ 4#3 ++ 0#2 ++ 1#1 ++ 3#2) = .ok (.vquant 1 4 2 4 1 3) ∧
    decode (0x32#6 ++ 4#5 ++ 1#5 ++ 2#5 ++ 0#3 ++ 4#3 ++ 1#2 ++ 0#1 ++ 1#2) = .ok (.vdeq 4 1 2 4 0 1) ∧
    decode (0x32#6 ++ 1#5 ++ 2#5 ++ 4#5 ++ 5#3 ++ 2#3 ++ 3#2 ++ 0#1 ++ 2#2) = .ok (.vmxdot 1 2 4 5 2 0 2) ∧
    decode (0x33#6 ++ 9#5 ++ 2#5 ++ 0#5 ++ 0#3 ++ 0#3 ++ 4#5) = .ok (.mfirst 9 2) ∧
    decode 0xD06D0000 = .ok (.vld 3 13 0 0 0) ∧ decode 0xD8822802 = .ok (.vgath 4 2 5 0 0 0) ∧
    decode (0x36#6 ++ 4#5 ++ 2#5 ++ 5#5 ++ 1#3 ++ 0#3 ++ 2#2 ++ 3#3) = .ok (.vscat 4 2 5 1 0 2) ∧
    decode (0x37#6 ++ 4#5 ++ 2#5 ++ 1#2 ++ 1#3 ++ 0x7FF#11) = .ok (.vstRaw 4 2 1 0x7FF) := by decide

/-- Majors 0x38 to 0x3B (Tables 06-6, 06-10, 06-14, 07-5, 11-1). -/
theorem test_decode_tile_and_system :
    decode 0xE0004300 = .ok (.shp 2 3 0) ∧ decode 0xE00A8000 = .ok (.mmaz 20 0 0 0) ∧
    decode 0xE012B600 = .ok (.accst 21 22 0 0) ∧ decode 0xE0421191 = .ok (.copy 16 17 18 1) ∧
    decode (0x38#6 ++ 0x41#8 ++ 1#5 ++ 2#5 ++ 3#5 ++ 4#3) = .ok (.fill 1 2 3 4) ∧
    decode 0xE41FFFC0 = .ok (.wait 0 31 31 31) ∧ decode 0xE8400012 = .ok (.csrr 2 0x012) ∧
    decode (0x3A#6 ++ 0#5 ++ 4#5 ++ 2#4 ++ 0x003#12) = .ok (.csrs 4 0x003) ∧ decode 0xEC000000 = .ok .nop ∧
    decode 0xEC00000B = .ok .exit ∧ decode (0x3B#6 ++ 0#5 ++ 15#5 ++ 0#5 ++ 1#11) = .ok (.trap 15) ∧
    decode (0x3B#6 ++ 0#5 ++ 3#5 ++ 4#5 ++ 4#11) = .ok (.cancel 3 4) := by decide

/-- The order of the checks of R98. -/
theorem test_decode_refuses :
    decode 0 = .undefined ∧ decode 0x04420403 = .undefined ∧ decode 0x04420840 = .reserved ∧
    decode (0x3B#6 ++ 0#5 ++ 16#5 ++ 0#5 ++ 1#11) = .undefined ∧ decode (0x32#6 ++ 0#5 ++ 0#5 ++ 0#5 ++ 0#3 ++ 0#3 ++ 4#5) =
      .undefined ∧ decode (0x3D#6 ++ 0#26) = .undefined := by decide

/-! ## Results that the manual works out -/

/-- Table 07-7, nearest even. -/
theorem test_fp_results_nearest :
    arith 0 (arithRnd 0) ((decodeElt 0 0x3F800000).add (decodeElt 0 0x33C00000)) = 0x3F800001 ∧
    arith 0 (arithRnd 2) ((decodeElt 0 0x3F800000).div (decodeElt 0 0)) = 0x7F800000 ∧
    arith 0 (arithRnd 0) ((decodeElt 0 0).div (decodeElt 0 0)) = 0x7FC00000 ∧
    toI64 (arithRnd 0) (decodeElt 0 0xC0600000) = 0xFFFFFFFFFFFFFFFC ∧
    toI64 (arithRnd 0) (decodeElt 0 0x5F800000) = 0x7FFFFFFFFFFFFFFF ∧
    arith 0 (arithRnd 0) (intVal 16777219) = 0x4B800002 := by decide +kernel

/-- Table 07-7, truncation, the lesser of zeros and comparisons. -/
theorem test_fp_results_other :
    arith 0 (arithRnd 1) ((decodeElt 0 0x3F800000).add (decodeElt 0 0x33C00000)) = 0x3F800000 ∧
    toI64 (arithRnd 1) (decodeElt 0 0xC0600000) = 0xFFFFFFFFFFFFFFFD ∧
    arith 0 (arithRnd 1) (intVal 16777219) = 0x4B800001 ∧ minmax 0 false 0x80000000 0 = 0x80000000 ∧
    minmax 0 true 0xFFC00001 0x3F800000 = 0x7FC00000 ∧ relVal 0 (decodeElt 0 0x80000000) (decodeElt 0 0) = true ∧
    relVal 1 (decodeElt 0 0x7FC00000) (decodeElt 0 0x7FC00000) = true := by decide +kernel

/-- The flit header of R359's example. -/
theorem test_flit_header :
    Machine.Flit.header
        { vc := 3, cvc := 1, cred := 12, dpeer := 0x02A, speer := 0x011, eseq := 5, lseq := 0x40, lack := 0x3F, ftype := 0
          packets := [], arg := 0, check := 0 } = 0x64C02A01101500FC := by decide +kernel

/-- The tables of the walk of Table 23-6, with the level-3 W0 given. -/
def walkState (leaf : Nat) : State :=
  let put := fun (m : Memory) (a w : Nat) => m.puts a (toBytes w 8)
  { State.reset with
    running := some 0
    jobs := [(0, { Job.none with ptroot := 0x020000000000, sramBase := 0x400000000000 })]
    dram := put (put (put (put [] 0x020000000060 0x2000020000040000) 0x020000052020 0x2000020000080000) 0x020000080A20
      0x2000020000084000) 0x0200000842E0 leaf }

/-- The result of a translation in that state. -/
def walked (leaf : Nat) (kind : AccKind) : Option Nat × Option (Nat × Nat) :=
  match ((walkState leaf).translate 3 0x00001A404A375ABC kind).2 with
  | .ok x => (some x.pa, none)
  | .bad c i => (none, some (c, i))

/-- Table 23-6 and the table below it. -/
theorem test_walk_of_table_23_6 :
    walked 0x5800010000100F00 .read = (some 0x010000105ABC, none) ∧ (walkState 0).homeOf 0x010000105ABC = some 1029 ∧
    (walked 0x5000010000100F00 .write).2.map (·.1) = some 0x041 ∧ (walked 0x5A00010000100F00 .write).2.map (·.1) = some 0x042 ∧
    walked 0x5800010000100F80 .read = (none, some (0x040, 0x2300)) ∧ walked 0 .read = (none, some (0x040, 0x0300)) ∧
    walked 0x7800000000100F00 .read = (none, some (0x040, 0x2300)) := by decide +kernel

/-! ## Witnesses: for every statement with hypotheses, states that meet them -/

/-- A TLB entry of a page that may be read and written, at the frame of the same number: module 0's window at 0. -/
def leafAt (page : Nat) : TlbE :=
  { job := 0, page := page, frame := page * 65536, r := true, w := true, x := false, sealed := false, move := false, fmt := 0x0F
    scale := 0, peer := 0, leafVa := page * 65536, leafLen := 65536, spanVa := page * 65536 }

/-- Job slot 0 runs, a job record of zeros but for handler 0x100 of every class. -/
def running : State := { State.reset with running := some 0, jobs := [(0, { Job.none with handlers := [(0x100, 15)] })] }

/-- Slot 0 of core `c` in hand, Ready at 0x10000; pages 1 (of tile 0's slice) and 17 (of tile 1's) stand in its data TLB. -/
def slotOf (c : Nat) (xs : List (Nat × Word)) : State :=
  let s := { running with cur := (c, 0) }
  let s := s.updCore c (fun k => { k with dtlb := [leafAt 1, leafAt 17] })
  let s := s.updSlotAt c 0 (fun sl => { sl with phase := .ready, pc := 0x10000, tvec := 0x20000 })
  xs.foldl (fun s e => s.setX (BitVec.ofNat 5 e.1) e.2) s

/-- The same of compute core 3 of tile 0. -/
abbrev at3 (xs : List (Nat × Word)) : State := slotOf 3 xs

/-- An address of page 1 or 17, translated. -/
def xlAt (pa : Nat) : Xl := { pa := pa, e := leafAt (pa / 65536) }

def isNext : Out → Bool
  | .next _ => true
  | _ => false

theorem next_of {o : Out} (h : isNext o = true) : ∃ t, o = .next t := by
  cases o <;> simp_all [isNext]

/-- `openWay`, but for the state that the TLBs leave, as a value. -/
def opens (s : State) (va : Word) (len : Nat) (write : Bool) (x : Xl) : Bool :=
  decide ((s.translate s.cur.1 va (if write then .write else .read)).2 = .ok x) && !s.denied x len write &&
    !s.mustMove x && decide (x.e.peer = s.part.peer)

theorem open_of {s : State} {va : Word} {len : Nat} {write : Bool} {x : Xl} (h : opens s va len write x = true) :
    ∃ t, openWay s t va len write x := by
  simp only [opens, Bool.and_eq_true, decide_eq_true_eq, Bool.not_eq_true'] at h
  exact ⟨_, Prod.ext rfl h.1.1.1, h.1.1.2, h.1.2, .inl h.2⟩

theorem translates {s : State} {c : Nat} {va : Word} {k : AccKind} {r : XRes} (h : (s.translate c va k).2 = r) :
    ∃ t, s.translate c va k = (t, r) := ⟨_, Prod.ext rfl h⟩

/-- O1, O2, O3, O4: registers x0 and x31 among them; shifts, fields and scales at their ends. -/
theorem witness_scalar_forms :
    let s := at3 [(1, 5), (31, 0x8000000000000000)]
    ready { reads := [xr 1, xr 31], writes := [xr 0] } s = true ∧ ready { reads := [xr 0, xr 1, xr 31], writes := [xr 31] } s = true ∧
    ready { reads := [xr 31], writes := [xr 1] } s = true ∧ ready { writes := [xr 31] } s = true ∧
    (31#6).toNat ≤ 31 ∧ (63#6).toNat + (0#6).toNat + 1 ≤ 64 ∧ (0#6).toNat + (63#6).toNat + 1 ≤ 64 ∧
    ready { reads := [xr 1, xr 31], writes := [xr 31] } s = true ∧
    ready { reads := [xr 1, xr 31, xr 0], writes := [xr 0] } s = true ∧ (6#3).toNat ≤ 6 := by decide +kernel

/-- O5: a home address that may be read, and one that no leaf maps. -/
theorem witness_gahome :
    ready { reads := [xr 1], writes := [xr 2] } (at3 [(1, 0x110008)]) = true ∧
    (∃ t, (at3 [(1, 0x110008)]).translate 3 0x110008 .home = (t, .ok (xlAt 0x110008))) ∧
    ∃ t, (at3 [(1, 0x30000)]).translate 3 0x30000 .home = (t, .bad 0x040 0) :=
  ⟨by decide +kernel, translates (by decide +kernel), translates (by decide +kernel)⟩

/-- O6: an aligned and a misaligned target. -/
theorem witness_branches :
    let s := at3 [(1, 0x10004), (2, 0x10002)]
    ready { reads := [xr 1, xr 2] } s = true ∧ ready { writes := [31] } s = true ∧
    ready { reads := [xr 1], writes := [xr 31] } s = true ∧ (s.slot.rx 1).toNat % 4 = 0 ∧
    ready { reads := [xr 2], writes := [xr 0] } s = true ∧ (s.slot.rx 2).toNat % 4 ≠ 0 ∧
    ready { reads := [xr 1], writes := [xr 1] } s = true := by decide +kernel

/-- O7: an addition and a division that go on. -/
theorem witness_scalar_frame :
    (∃ t, exec (.add 0 1 2 1) (at3 [(1, 5)]) = .next t) ∧ ∃ t, exec (.div 3 1 2 0 1) (at3 [(1, 5)]) = .next t :=
  ⟨next_of (by decide +kernel), next_of (by decide +kernel)⟩

/-- O8: a local and a remote load; the last of the 63 that may be outstanding. -/
theorem witness_scalar_loads :
    let s := (at3 [(1, 0x110000), (2, 8), (3, 0x10000)]).upd (fun sl => { sl with cntld := 62 })
    ready { reads := [xr 1], writes := [xr 4], hold := waits 3 s.slot || decide (63 ≤ s.slot.cntld) } s = true ∧
    ready { reads := [xr 1, xr 2], writes := [xr 4], hold := waits 3 s.slot || decide (63 ≤ s.slot.cntld) } s = true ∧
    (∃ t, openWay s t (s.slot.rx 1 + (1#11).signExtend 64 * BitVec.ofNat 64 8) 8 false (xlAt 0x110008)) ∧
    (∃ t, openWay s t (s.slot.rx 1 + s.slot.rx 2) 8 false (xlAt 0x110008)) ∧
    inWindow (xlAt 0x110008) s.part.peer = true ∧
    (∃ t, openWay s t (s.slot.rx 3) 1 false (xlAt 0x10000)) ∧
    s.isLocal s.cur.1 (s.xlHome (xlAt 0x10000)) 0 = true ∧ s.isLocal s.cur.1 (s.xlHome (xlAt 0x110008)) 0 = false :=
  ⟨by decide +kernel, by decide +kernel, open_of (by decide +kernel), open_of (by decide +kernel), by decide +kernel,
    open_of (by decide +kernel), by decide +kernel, by decide +kernel⟩

/-- O9: a remote write with a journal entry, and a local one. -/
theorem witness_posted_writes :
    let s := at3 [(1, 0x110000), (2, 8), (3, 0x10000)]
    ready { reads := [xr 1, xr 4], hold := waits 3 s.slot || decide (63 ≤ s.slot.cntst) } s = true ∧
    ready { reads := [xr 1, xr 2, xr 4], hold := waits 0 s.slot || decide (63 ≤ s.slot.cntst) } s = true ∧
    ready { reads := [xr 1, xr 2], hold := decide (63 ≤ s.slot.cntst) } s = true ∧
    (∃ t, openWay s t (s.slot.rx 1 + (1#11).signExtend 64 * BitVec.ofNat 64 8) 8 true (xlAt 0x110008)) ∧
    (∃ t, openWay s t (s.slot.rx 1 + s.slot.rx 2) 8 true (xlAt 0x110008)) ∧
    (∃ t, openWay s t (s.slot.rx 1 + s.slot.rx 2) 1 true (xlAt 0x110008)) ∧
    (∃ t, openWay s t (s.slot.rx 3) 4 true (xlAt 0x10000)) ∧ inWindow (xlAt 0x110008) s.part.peer = true ∧
    freeEntry (s.coreAt s.cur.1).journal ≠ none ∧ s.isLocal s.cur.1 (s.xlHome (xlAt 0x10000)) 0 = true ∧
    isNext (exec (.feSet 1 2) s) = true ∧ isNext (exec (.stFeIndexed 4 3 0 0 2) s) = true :=
  ⟨by decide +kernel, by decide +kernel, by decide +kernel, open_of (by decide +kernel), open_of (by decide +kernel),
    open_of (by decide +kernel), open_of (by decide +kernel), by decide +kernel, by decide +kernel, by decide +kernel,
    by decide +kernel, by decide +kernel⟩

/-- O10: an address one past a multiple, for every size. -/
theorem witness_misaligned :
    let s := at3 [(1, 0x10001), (2, 0x10008)]
    ready { reads := [xr 1], writes := [xr 4], hold := waits 0 s.slot || decide (63 ≤ s.slot.cntld) } s = true ∧
    ready { reads := [xr 1, xr 4], hold := waits 0 s.slot || decide (63 ≤ s.slot.cntst) } s = true ∧
    ready { reads := [xr 1, xr 2], writes := [xr 4], hold := waits 0 s.slot || decide (63 ≤ s.slot.cntld) } s = true ∧
    (s.slot.rx 1 + (0#11).signExtend 64 * BitVec.ofNat 64 (2 ^ 1)).toNat % 2 ^ 1 ≠ 0 ∧ (s.slot.rx 1).toNat % 2 ^ 3 ≠ 0 ∧
    ready { reads := [xr 2], writes := [xr 4], hold := waits 0 s.slot || decide (256 ≤ (s.coreAt s.cur.1).tkLive.length) } s =
      true ∧ (s.slot.rx 2 + (0#10).signExtend 64 * 8).toNat % (8 * 2 ^ 1) ≠ 0 ∧
    ready { lack := vecLack s, reads := [xr 2], writes := [vr 4], hold := waits 0 s.slot || decide (63 ≤ s.slot.cntld) } s = true ∧
    ready { lack := vecLack s, reads := [xr 2, vr 4], hold := waits 0 s.slot || decide (63 ≤ s.slot.cntst) } s = true ∧
    (s.slot.rx 2 + (1#11).signExtend 64 * 16).toNat % 64 ≠ 0 ∧
    (s.slot.rx 1 + s.slot.rx 2).toNat % 2 ^ 1 ≠ 0 ∧ (s.slot.rx 1).toNat % 16 ≠ 0 ∧
    ready { reads := [xr 1, xr 2, xr 4], hold := waits 0 s.slot || decide (63 ≤ s.slot.cntst) } s = true ∧
    ready { reads := [xr 1, xr 2, xr 4], writes := [xr 4], hold := waits 0 s.slot || decide (63 ≤ s.slot.cntld) } s = true ∧
    ready { reads := [xr 1, xr 2], hold := waits 0 s.slot || decide (63 ≤ s.slot.cntst) } s = true ∧
    activeLanes (s.slot.rm 0) 0 = 0 :: (List.range 15).map (· + 1) ∧ (s.slot.rx 1 + 0 * s.slot.rx 2).toNat % (width 0 / 8) ≠ 0 ∧
    (s.slot.rx 1 + laneIndex (s.slot.rv 3) 0).toNat % (width 0 / 8) ≠ 0 ∧
    ready { lack := vecLack s, reads := [xr 1, vr 3, vr 4], hold := decide (63 < s.slot.cntst + 16) } s = true := by decide +kernel

/-- O11: an empty, a filled and a full queue; a gateway core; a queue to which a later core has pushed in this cycle. -/
theorem witness_ring_queues :
    let s := at3 [(1, 7)]
    let full := s.setRing 0 7 { Ring.reset with q := List.replicate 512 0 }
    let late := s.setRing 0 7 { Ring.reset with q := [1], pushAt := some (s.now, 4) }
    isGateway s.cur.1 = false ∧ (7#5).toNat ≤ 7 ∧ ready { reads := [xr 1] } s = true ∧ (s.ringOf 0 0).q = [] ∧ isGateway (slotOf 7168 []).cur.1 = true ∧
    ((late.ringOf 0 7).pushLate late.now late.cur.1 = true ∧ (late.ringOf 0 7).popLate late.now late.cur.1 = true) ∧
    s.ownPending = false ∧ ready { reads := [xr 1] } full = true ∧ 512 ≤ (full.ringOf 0 7).q.length ∧
    ready { writes := [xr 1], hold := decide (63 ≤ full.slot.cntld) } full = true ∧
    (full.ringOf 0 7).q.head? = some 0 ∧ (full.ringOf 0 7).popLate full.now full.cur.1 = false := by decide +kernel

/-- O12: both sizes. -/
theorem witness_atomics :
    let s := at3 [(1, 0x110000), (2, 8)]
    ready { reads := [xr 1, xr 2], writes := [xr 4], hold := waits 0 s.slot || decide (63 ≤ s.slot.cntld) } s = true ∧
    ready { reads := [xr 1, xr 2, xr 4], writes := [xr 4], hold := waits 0 s.slot || decide (63 ≤ s.slot.cntld) } s = true ∧
    (∃ t, openWay s t (s.slot.rx 1) 4 true (xlAt 0x110000)) ∧ ∃ t, openWay s t (s.slot.rx 1) 8 true (xlAt 0x110000) :=
  ⟨by decide +kernel, by decide +kernel, open_of (by decide +kernel), open_of (by decide +kernel)⟩

/-- Peer 5 has an entry in the layout table that lists no unit. -/
def deadPeer (s : State) : State :=
  { s with layouts := [(5, { tiles := [], hbm := [], lp := [], flatH := 0, flatL := 0, withheldH := 0, withheldL := 0 })] }

/-- O13: a ticket of this job whose home is live, one of a home that is not, a malformed one. -/
theorem witness_tickets :
    let tk := ticketOf 0 0 0 3 1 0 0
    let dead := ticketOf 0 0 0 3 1 5 0
    let s := deadPeer (at3 [(1, 0x110000), (2, tk), (3, dead), (4, 0xFFFFFFFFFFFFFFFF), (5, 0x100), (6, 0x10010), (7, 0x104)])
    let holdL := waits 0 s.slot || decide (63 ≤ s.slot.cntld)
    ready { reads := [xr 1], writes := [xr 8], hold := waits 0 s.slot || decide (256 ≤ (s.coreAt s.cur.1).tkLive.length) } s = true ∧
    (∃ t, s.translate s.cur.1 (s.slot.rx 1) .home = (t, .ok (xlAt 0x110000))) ∧ s.denied (xlAt 0x110000) 4096 false = false ∧
    s.mustMove (xlAt 0x110000) = false ∧
    (s.coreAt s.cur.1).nextTicket = some 0 ∧
    ready { lack := vecLack s, reads := [xr 2], writes := [vr 1], hold := holdL } s = true ∧
    (wellFormedTicket tk 0 = true ∧ s.ticketHomeLive tk = true ∧ wayOut s (tkPeerOf tk)) ∧
    (wellFormedTicket dead 0 = true ∧ s.ticketHomeLive dead = false) ∧ wellFormedTicket (s.slot.rx 4) 0 = false ∧
    ready { reads := [xr 6, xr 2], hold := holdL } s = true ∧
    (∃ t, s.translate s.cur.1 (s.slot.rx 6) .write = (t, .ok (xlAt 0x10010))) ∧
    inWindow (xlAt 0x10010) s.part.peer = true ∧ (s.slot.rx 6).toNat % 16 = 0 ∧
    (xlAt 0x10010).pa + tkBytes tk ≤ regionEnd (xlAt 0x10010).pa ∧ s.denied (xlAt 0x10010) (tkBytes tk) true = false ∧
    ready { reads := [xr 5, xr 2], hold := holdL || !(s.coreAt s.cur.1).room 2 } s = true ∧
    s.entered ((s.slot.rx 5).toNat % 2 ^ 32) 2 = true ∧ s.entered ((s.slot.rx 7).toNat % 2 ^ 32) 2 = false ∧
    ready { reads := [xr 2], hold := waits 0 s.slot } s = true ∧ ready { reads := [xr 2], writes := [xr 8], hold := holdL } s = true :=
  ⟨by decide +kernel, translates (by decide +kernel), by decide +kernel, by decide +kernel, by decide +kernel, by decide +kernel,
    ⟨by decide +kernel, by decide +kernel, .inl (by decide +kernel)⟩,
    by decide +kernel, by decide +kernel, by decide +kernel, translates (by decide +kernel), by decide +kernel, by decide +kernel,
    by decide +kernel, by decide +kernel, by decide +kernel, by decide +kernel, by decide +kernel, by decide +kernel,
    by decide +kernel⟩

/-- O14: counters that meet every limit, and counters that meet none. -/
theorem witness_fences :
    let s := at3 []
    let busy := s.upd (fun sl => { sl with stc := 1, stp := 1, stx := 1, cntld := 1, cntst := 3, cntcp := 1, cnttl := 1 })
    (s.slot.stc = 0 ∧ s.slot.stp = 0 ∧ s.slot.stx = 0 ∧ s.slot.cntld ≤ 0) ∧ busy.slot.stc ≠ 0 ∧ busy.slot.stx ≠ 0 ∧
    ((0#5).toNat ≠ 31 ∧ ¬busy.slot.cntld ≤ (0#5).toNat) := by decide +kernel

/-- O15: a range outside the window of 1 GiB that two leaves map, a sealed page, one that nothing maps, and a range that wraps. -/
theorem witness_seal :
    let s := (slotOf 3 [(1, 0x40000000), (2, 0x10000), (3, 0xFFFFFFFFFFFF0000)]).updCore 3
      (fun k => { k with dtlb := [{ leafAt 0x4000 with frame := 0x10000000000 }] })
    let x : Xl := { pa := 0x10000000000, e := { leafAt 0x4000 with frame := 0x10000000000 } }
    ready { reads := [xr 1, xr 2] } s = true ∧
    ¬((s.slot.rx 1).toNat % 65536 ≠ 0 ∨ (s.slot.rx 2).toNat % 65536 ≠ 0 ∨ s.slot.rx 2 = 0 ∨
      2 ^ 64 < (s.slot.rx 1).toNat + (s.slot.rx 2).toNat ∨
      ((s.slot.rx 1).toNat < s.job.sramBase.toNat + 2 ^ 30 ∧ s.job.sramBase.toNat < (s.slot.rx 1).toNat + (s.slot.rx 2).toNat)) ∧
    (∃ t, s.translate s.cur.1 (s.slot.rx 1) .write = (t, .ok x) ∧
      ∃ u, t.translate t.cur.1 (s.slot.rx 1 + s.slot.rx 2 - 1) .write = (u, .ok { x with pa := 0x1000000FFFF })) ∧
    ready { reads := [xr 3, xr 1] } s = true ∧ 2 ^ 64 < (s.slot.rx 3).toNat + (s.slot.rx 1).toNat ∧
    (∃ t, (s.updCore 3 (fun k => { k with dtlb := [{ x.e with sealed := true }] })).translate 3 (s.slot.rx 1) .write =
      (t, .bad 0x042 0)) ∧ ∃ t, (at3 [(1, 0x40000000)]).translate 3 0x40000000 .write = (t, .bad 0x040 0) :=
  ⟨by decide +kernel, by decide +kernel, ⟨_, Prod.ext rfl (by decide +kernel), translates (by decide +kernel)⟩, by decide +kernel,
    by decide +kernel, translates (by decide +kernel), translates (by decide +kernel)⟩

/-- A journal entry of slot 0. -/
def entry (refused : Bool) : JEntry :=
  { slot := 0, gen := 0, home := 1, peer := 0, cls := 1, pa := 0x110000, len := 8, data := 0, kind := .st, refused := refused
    reason := 0, undelivered := false }

/-- O16: a mapped and an unmapped address; own entries, refused and not, at number 31; none. -/
theorem witness_pref_and_journal :
    let s := (at3 [(1, 0x10000), (2, 0x30000), (3, 31), (4, 30), (5, 29)]).updCore 3
      (fun k => { k with journal := [(30, entry false), (31, entry true)] })
    ready { reads := [xr 1, xr 0] } s = true ∧ (∃ t, s.translate s.cur.1 (s.slot.rx 1 + s.slot.rx 0) .home = (t, .ok (xlAt 0x10000))) ∧
    (∃ t, s.translate s.cur.1 (s.slot.rx 2 + s.slot.rx 0) .home = (t, .bad 0x040 0)) ∧
    ready { reads := [xr 3], writes := [xr 6] } s = true ∧ ready { reads := [xr 3] } s = true ∧
    AMap.get (s.coreAt s.cur.1).journal ((s.slot.rx 3).toNat % 32) = some (entry true) ∧
    AMap.get (s.coreAt s.cur.1).journal ((s.slot.rx 4).toNat % 32) = some (entry false) ∧
    AMap.get (s.coreAt s.cur.1).journal ((s.slot.rx 5).toNat % 32) = none ∧
    (entry true).slot = s.cur.2 ∧ (entry true).gen = s.slot.gen :=
  ⟨by decide +kernel, translates (by decide +kernel), translates (by decide +kernel), by decide +kernel, by decide +kernel,
    by decide +kernel, by decide +kernel, by decide +kernel, by decide +kernel, by decide +kernel⟩

/-- A handle of channel 0x77, with two credits. -/
def handle (k : EndKind) : Handle :=
  { kind := k, ident := 0x77, inst := 0, gen := 0, seq := 0, credits := 2, dead := false, loc := 3, locPeer := 0, home := 0, moves := 0 }

/-- The slot of `at3` with a send end of channel 0x77 in h1, its receive end in h2, a send end without credits in h3, a dead
one in h4, and a receive end of another channel in h5. -/
def withEnds (xs : List (Nat × Word)) : State :=
  (((((at3 xs).setH 1 (handle .send)).setH 2 (handle .recv)).setH 3 { handle .send with credits := 0 }).setH 4
    { handle .send with dead := true }).setH 5 { handle .recv with ident := 0x78 }

/-- O17: empty registers, a send end, a receive end, handlers that are and are not in the table. -/
theorem witness_channel_ends :
    let s := withEnds [(1, 7)]
    (6#4) ≠ 7#4 ∧ (s.slot.rh 6).kind = .empty ∧ (s.slot.rh 7).kind = .empty ∧ (s.slot.rh 1).kind = .send ∧
    (s.slot.rh 2).kind = .recv ∧ (s.slot.rh 1).kind ≠ .empty ∧ ready { writes := [xr 1] } s = true ∧
    ((s.closePeers (s.slot.rh 1) ++ s.closePeers (s.slot.rh 2)).all (fun p => decide (p = s.part.peer)) = true) ∧
    (List.range 4).any (fun n => s.entered (4 * (0x40#18).toNat) n) = true ∧
    (List.range 4).any (fun n => s.entered (4 * (0x41#18).toNat) n) = false := by decide +kernel

/-- O18: credits and none, dead, empty, the carried end of another and of the same channel; segment counts. -/
theorem witness_sends :
    let s := withEnds [(1, 7), (2, 0xFFFFFFFF), (3, 0x100000000)]
    (1#4) ≠ 5#4 ∧ ready { reads := payloadRegs 26 6 } s = true ∧ ready { reads := payloadRegs 1 4 } s = true ∧
    ((s.slot.rh 1).kind = .send ∧ (s.slot.rh 1).dead = false ∧ (s.slot.rh 1).locPeer = s.part.peer ∧ 0 < (s.slot.rh 1).credits) ∧
    ((s.slot.rh 5).kind ≠ .empty ∧ ¬((s.slot.rh 5).kind = .recv ∧ (s.slot.rh 5).ident = (s.slot.rh 1).ident) ∧
      s.stubsOfTile s.cur.1 < 64 ∧ (s.slot.rh 5).home = s.part.peer) ∧ (s.slot.rh 3).credits = 0 ∧ (s.slot.rh 6).kind = .empty ∧ (s.slot.rh 4).dead = true ∧
    ((s.slot.rh 2).kind = .recv ∧ (s.slot.rh 2).ident = (s.slot.rh 1).ident) ∧ ready { reads := [xr 2] } s = true ∧
    (s.slot.rx 2 ≠ 0 ∧ (s.slot.rx 2).toNat < 2 ^ 32) ∧ 2 ^ 32 ≤ (s.slot.rx 3).toNat := by decide +kernel

/-- A message of channel 0x77. -/
def message (k : MsgKind) (seq : Nat) : Msg :=
  { ident := 0x77, inst := 0, gen := 0, seq := seq, cls := 2, kind := k, words := 1, payload := Vector.replicate 6 9
    carried := none, src := { peer := 0, agent := .core 4 }, home := 0, fwd := false }

/-- Core 3 holds the receive end of channel 0x77 with this binding. -/
def holds (s : State) (bind : Option (Option Nat)) : State :=
  s.updCore 3 (fun k => { k with ends := [{ ident := 0x77, gen := 0, bind := bind, level := 1, final := none, closes := 0
                                            eventSent := false, home := 0, before := some 0 }] })

/-- O19: a message for the inbox, an empty inbox; room and none on the run queue, a level that is cancelled. -/
theorem witness_inbox_and_spawn :
    let s := (holds (withEnds []) none).updCore 3 (fun k => { k with inq := [(2, [.chan (message .data 0) false false 0])] })
    let e : RunEntry :=
      { kind := .spawned, cls := 1, level := 0, launchid := 0, gridpt := 0, griddim := 0, fseed := 0, tvec := 0
        pc := 0, xferid := 0, segleft := 0, tgenx := none, regs := [], poisoned := [], h0 := Handle.none, hadEnd := false, leases := []
        since := 0, wdStart := 0 }
    let full := s.updCore 3 (fun k => { k with runq := List.replicate 64 e })
    let cancelled := s.updLevel 0 (fun v => { v with cp := true })
    ready { writes := (List.range 7).map (fun j => xr (regAfter 25 j))
            hold := decide (63 ≤ s.slot.cntld) || s.heldBack (dequeuePeers (.chan (message .data 0) false false 0)) ||
              decide ((s.coreAt s.cur.1).withdrewAt = some s.now) } s = true ∧
    (s.slot.rh 1).kind ≠ .empty ∧ (s.slot.rh 6).kind = .empty ∧
    ((s.coreAt s.cur.1).takeItem 2 (s.coreAt s.cur.1).forInbox).map (·.1) = some (.chan (message .data 0) false false 0) ∧
    (s.coreAt s.cur.1).takeItem 3 (s.coreAt s.cur.1).forInbox = none ∧ ready { reads := payloadRegs 29 3 } s = true ∧
    (s.cancelPending s.slot.task.level = false ∧ s.runRoom s.cur.1 = true ∧ s.countFull s.slot.task.level = false ∧
      s.levelPeer s.slot.task.level = s.part.peer) ∧
    (full.cancelPending full.slot.task.level = false ∧ full.runRoom full.cur.1 = false) ∧
    cancelled.cancelPending cancelled.slot.task.level = true := by decide +kernel

/-- O20: a cluster without and with a ring. -/
theorem witness_frieze :
    let s := at3 [(1, 0), (2, 31)]
    let r := s.updCluster 0 (fun k => { k with ring := 16 })
    let late := r.updCluster 0 (fun k => { k with setAt := some (s.now, 5) })
    isGateway s.cur.1 = false ∧ isGateway (slotOf 7168 []).cur.1 = true ∧ (2#3).toNat ≤ 2 ∧ (s.clusterAt 0).ring = 0 ∧ (r.clusterAt 0).ring ≠ 0 ∧
    r.mtsetLate 0 = false ∧ late.mtsetLate 0 = true ∧
    ready { reads := [xr 1, xr 2] } s = true ∧ ready { reads := [xr 1, xr 2] } r = true ∧
    ready { reads := [xr 2], writes := [xr 1] } r = true := by decide +kernel

/-- O21, O22: v31 and v0, the type codes at their ends, a mask and none. -/
theorem witness_vector_lanes :
    let s := (at3 [(1, 0xBF800000)]).setM 1 0x0F
    ready { lack := vecLack s, reads := [vr 31, vr 0] ++ [vr 1], writes := [vr 1] } s = true ∧
    ready { lack := vecLack s, reads := vr 31 :: [vr 1], writes := [vr 1] } s = true ∧
    ready { lack := vecLack s, reads := [vr 31, vr 0, vr 1], writes := [vr 1] } s = true ∧
    ready { lack := vecLack s, reads := [vr 1] ++ [xr 1], writes := [vr 1] } s = true ∧
    ready { lack := vecLack s, reads := [vr 31, vr 0] } s = true ∧ ready { lack := vecLack s, reads := [vr 31], writes := [vr 0] } s =
      true ∧ isStreamer s.cur.1 = false ∧ ready { writes := [xr 31] } s = true ∧
    [0, 1, 6, 7].contains (0#3).toNat = true ∧ [0, 1, 6, 7].contains (7#3).toNat = true ∧ 6 ≤ (6#3).toNat := by decide +kernel

/-- O23: aligned register groups on a compute and on a gateway core. -/
theorem witness_vector_blocks :
    let s := at3 []
    let g := slotOf 7168 []
    ready { lack := vecLack s, reads := vr 1 :: [vr 2], writes := [vr 2] } s = true ∧
    ready { lack := vecLack s, reads := [0, 1, 2, 3].map (fun k => vr (regAfter 28 k)), writes := [vr 1, vr 2] } s = true ∧
    ready { lack := vecLack s, reads := [vr 1, vr 2], writes := [0, 1, 2, 3].map (fun k => vr (regAfter 28 k)) } s = true ∧
    ready { lack := vecLack s, reads := [vr 2, vr (regAfter 2 1), vr 30, vr (regAfter 30 1), vr 5], writes := [vr 5] } s = true ∧
    isGateway g.cur.1 = true ∧ ready { reads := [vr 2, vr (regAfter 2 1), vr 4, vr (regAfter 4 1)]
                                       writes := [vr 6, vr (regAfter 6 1)] } g = true ∧ isCompute s.cur.1 = true ∧
    (28#5).toNat % 4 = 0 ∧ (30#5).toNat % 2 = 0 ∧ 2 ≤ (6#3).toNat ∧ (6#3).toNat ≤ 6 ∧ (3#2) ≠ 0#2 := by decide +kernel

/-- An address that a leaf of format E4M3 without scales maps. -/
def xlE4 : Xl := { pa := 0x20000, e := { leafAt 2 with fmt := 0x02 } }

/-- The translated lanes, where every lane's address is good. -/
def lanesOf (s : State) (ty : Nat) (write : Bool) (va : Nat → Word) (act : List Nat) : Option (List (Nat × Xl)) :=
  match (s.lanesXl ty write va act).2 with
  | .ok l => some l
  | .error _ => none

theorem lanes_of {s : State} {ty : Nat} {write : Bool} {va : Nat → Word} {act : List Nat} {l : List (Nat × Xl)}
    (h : lanesOf s ty write va act = some l) : ∃ t, s.lanesXl ty write va act = (t, .ok l) := by
  unfold lanesOf at h
  split at h <;> simp_all [Prod.ext_iff]

/-- Pages 1 and 2, the second of format E4M3; m1 has one lane, m2 none. -/
def vecState : State :=
  (((at3 [(1, 0x10000), (2, 64), (3, 0x20000)]).setM 1 1).setM 2 0).updCore 3 (fun k => { k with dtlb := [leafAt 1, xlE4.e] })

/-- O24: plain and decoding loads, plain and refused stores. -/
theorem witness_vector_memory :
    ready { lack := vecLack vecState, reads := [xr 1], writes := [vr 5]
            hold := waits 0 vecState.slot || decide (63 ≤ vecState.slot.cntld) } vecState = true ∧
    (∃ t, openWay vecState t 0x10000 64 false (xlAt 0x10000)) ∧
    plainFor (xlAt 0x10000).e.fmt 0 = true ∧ (plainFor xlE4.e.fmt 0 = false ∧ scaled xlE4.e.fmt = false) ∧
    (∃ t, openWay vecState t 0x20000 (lanes 0 * width (fmtOf xlE4.e.fmt) / 8) false xlE4) ∧
    ready { lack := vecLack vecState, reads := [xr 3, vr 5]
            hold := waits 0 vecState.slot || decide (63 ≤ vecState.slot.cntst) } vecState = true ∧
    (∃ t, openWay vecState t 0x20000 64 true xlE4) ∧ (∃ t, openWay vecState t 0x10000 64 true (xlAt 0x10000)) ∧
    (vecState.putStore (xlAt 0x10000) .vst 64 0).isSome = true :=
  ⟨by decide +kernel, open_of (by decide +kernel), by decide +kernel, by decide +kernel, open_of (by decide +kernel),
    by decide +kernel, open_of (by decide +kernel), open_of (by decide +kernel), by decide +kernel⟩

/-- O24: lanes of a mask with one lane. -/
theorem witness_vector_lane_accesses :
    ready { lack := vecLack vecState, reads := [xr 1, xr 2] ++ [vr 5], writes := [vr 5]
            hold := waits 0 vecState.slot || decide (63 ≤ vecState.slot.cntld) } vecState = true ∧
    activeLanes (vecState.slot.rm 1) 0 = [0] ∧
    (∃ t, vecState.lanesXl 0 false (fun i => vecState.slot.rx 1 + BitVec.ofNat 64 i * vecState.slot.rx 2) [0] =
      (t, .ok [(0, xlAt 0x10000)])) ∧
    (∃ t, vecState.lanesXl 0 true (fun i => vecState.slot.rx 1 +
      (BitVec.ofNat 32 (laneOf (vecState.slot.rv 6) 32 i)).signExtend 64) [0] = (t, .ok [(0, xlAt 0x10000)])) ∧
    ready { lack := vecLack vecState, reads := [xr 1, vr 6, vr 5]
            hold := waits 0 vecState.slot || decide (63 < vecState.slot.cntst + 1) } vecState = true ∧
    (vecState.putLanes 0 (vecState.slot.rv 5) [(0, xlAt 0x10000)]).isSome = true ∧
    (xlAt 0x10000).e.peer = vecState.part.peer ∧ unplainLane 0 [(0, xlAt 0x10000)] = none ∧
    unplainLane 0 [(0, xlAt 0x10000), (1, xlE4)] = some 1 ∧ activeLanes (vecState.slot.rm 2) 0 = [] ∧
    (∃ t, vecState.lanesXl 0 false (fun i => vecState.slot.rx 1 + BitVec.ofNat 64 i * vecState.slot.rx 2) [] = (t, .ok [])) :=
  ⟨by decide +kernel, by decide +kernel, lanes_of (by decide +kernel), lanes_of (by decide +kernel), by decide +kernel,
    by decide +kernel, by decide +kernel, by decide +kernel, by decide +kernel, by decide +kernel, lanes_of (by decide +kernel)⟩

/-- `rangeOk`, but for the state that the TLBs leave, as a value. -/
def inRangeOk (s : State) (q : Nat) (va : Word) (align len : Nat) (runs : List (Nat × Nat)) (write : Bool) (x : Xl) : Bool :=
  decide (va.toNat % align = 0) && decide (len % align = 0) &&
    (match (s.translate s.cur.1 va (if write then .write else .home)).2 with
     | .ok y => decide (x = if write then y else s.nearRead q y)
     | .bad _ _ => false) && decide (len ≤ leafLeft x va.toNat) &&
    !runs.any (fun r => s.runDenied x r.1 r.2 write) && !s.mustMove x && decide (x.e.peer = s.part.peer)

theorem range_of {s : State} {q : Nat} {va : Word} {align len : Nat} {runs : List (Nat × Nat)} {write : Bool} {x : Xl}
    (h : inRangeOk s q va align len runs write x = true) :
    rangeOk s (s.translate s.cur.1 va (if write then .write else .home)).1 q va align len runs write x := by
  simp only [inRangeOk, Bool.and_eq_true, decide_eq_true_eq, Bool.not_eq_true'] at h
  refine ⟨h.1.1.1.1.1.1, h.1.1.1.1.1.2, ?_, h.1.1.1.2, h.1.1.2, h.1.2, .inl h.2⟩
  have g := h.1.1.1.1.2
  split at g
  · rename_i y hy
    exact ⟨y, Prod.ext rfl hy, by simpa using g⟩
  · cases g

/-- Two ranges of commands for queue 1 or 0, the second in the state that the first leaves. -/
def inTwoOk (s : State) (q : Nat) (a b : Word) (al la lb : Nat) (ra rb : List (Nat × Nat)) (wa wb : Bool) (x y : Xl) : Bool :=
  inRangeOk s q a al la ra wa x &&
    inRangeOk (s.translate s.cur.1 a (if wa then .write else .home)).1 q b 16 lb rb wb y

theorem two_of {s : State} {q : Nat} {a b : Word} {al la lb : Nat} {ra rb : List (Nat × Nat)} {wa wb : Bool} {x y : Xl}
    (h : inTwoOk s q a b al la lb ra rb wa wb x y = true) :
    ∃ t u, rangeOk s t q a al la ra wa x ∧ rangeOk t u q b 16 lb rb wb y := by
  simp only [inTwoOk, Bool.and_eq_true] at h
  exact ⟨_, _, range_of h.1, range_of h.2⟩

/-- A shape record of `rows` rows of `cols` 16-byte units (Table 06-12). -/
def record (fmt kind cols rows : Nat) (base : Nat) : BitVec 128 :=
  BitVec.ofNat 128 (fmt * 2 ^ 120 + kind * 2 ^ 116 + cols * 2 ^ 104 + rows * 2 ^ 96 + (if kind = 0 then cols * 2 ^ 48 else 0) + base)

/-- Shape records 1 (bf16, 8 x 8, page 1), 2 (the same in page 17), 3 (a register group at v30), and W0 with SHA 1, SHB 2. -/
def shaped (acc : Nat) (xs : List (Nat × Word)) : State :=
  (at3 ((1, BitVec.ofNat 64 (2 ^ 48 + 2 * 2 ^ 44 + acc)) :: xs)).updCore 3 (fun k =>
    { k with shapes := [(1, record 1 0 1 8 0x10000), (2, record 1 0 1 8 0x110000), (3, record 1 1 1 8 30)] })

/-- `commandReady` and an open queue, as a value. -/
def mayEnter (s : State) (op : Nat) (a b c : Reg) (q : BitVec 3) (pl : Place) : Bool :=
  ready { lack := tileLack s.cur.1 op q.toNat
          reads := [xr a, xr b, xr c] ++ (s.groupOf op (tileW0 op (s.slot.rx a))).map vr
          hold := s.tileHold q.toNat false } s && classAccepts ((classOf op).getD 0) q.toNat &&
    (match s.ownTileEngine pl with
     | some e => !s.engineFull e
     | none => true)

theorem may_of {s : State} {op : Nat} {a b c : Reg} {q : BitVec 3} {pl : Place} (h : mayEnter s op a b c q pl = true) :
    commandReady s op a b c q ∧ queueOpen s pl := by
  simp only [mayEnter, Bool.and_eq_true] at h
  refine ⟨⟨h.1.1, h.1.2⟩, fun e he => ?_⟩
  have g := h.2
  rw [he] at g
  simpa using g

/-- O25: a zero record, an aligned one and one whose base is not; the accumulator command and the marker by `amsg`, and an
opcode word that is neither. -/
theorem witness_shp_and_amsg :
    let v := record 1 0 1 8 0x10000
    let s := at3 [(1, v.setWidth 64), (2, (v >>> 64).setWidth 64), (3, v.setWidth 64 + 8), (10, 0x100000000000000),
      (11, 0x600000000000000), (12, 0x10000), (20, 0x200000000000000)]
    isCompute s.cur.1 = true ∧ isCompute (slotOf 0 []).cur.1 = false ∧ ready { reads := [xr 1, xr 2] } s = true ∧
    (shapeOf (s.slot.rx 2 ++ s.slot.rx 1)).aligned = true ∧ (s.slot.rx 2 ++ s.slot.rx 3 : BitVec 128) ≠ 0 ∧
    (shapeOf (s.slot.rx 2 ++ s.slot.rx 3)).aligned = false ∧
    ready { reads := (List.range 7).map (fun i => xr (regAfter 10 i)), hold := s.tileHold 0 false } s = true ∧
    ready { reads := (List.range 7).map (fun i => xr (regAfter 20 i)), hold := s.tileHold 3 true } s = true ∧
    (s.slot.rx 10).toNat = 2 ^ 56 ∧ (s.slot.rx 11).toNat / 2 ^ 56 = 6 ∧ w0Acc (s.slot.rx 11) + (s.slot.rx 12).toNat ≤ 0x10000 ∧
    s.engineFull (ownEngine s.cur.1 0) = false ∧ s.engineFull (ownEngine s.cur.1 3) = false ∧
    (s.slot.rx 20).toNat = 2 ^ 57 ∧ (s.slot.rx 21, s.slot.rx 22, s.slot.rx 24, s.slot.rx 25, s.slot.rx 26) = (0, 0, 0, 0, 0) ∧
    (s.slot.rx 3).toNat % 2 ^ 56 ≠ 0 := by decide +kernel

/-- O26: copy, copyf and fill of the last 64 KiB but 16 that one leaf holds. -/
theorem witness_linear_commands :
    let s := at3 [(1, 0xFFF0), (2, 0x110000), (3, 0x10000)]
    let p := s.enginePlace 1 (some (xlAt 0x110000))
    (∀ op, op = 0x10 ∨ op = 0x12 ∨ op = 0x41 → commandReady s op 1 2 3 1 ∧ queueOpen s p) ∧
    (∃ t u, rangeOk s t 1 0x110000 16 0xFFF0 [(0, 0xFFF0)] false (xlAt 0x110000) ∧
      rangeOk t u 1 0x10000 16 0xFFF0 [(0, 0xFFF0)] true (xlAt 0x10000)) ∧
    (∃ t, rangeOk s t 1 0x10000 16 0xFFF0 [(0, 0xFFF0)] true (xlAt 0x10000)) ∧
    s.inOwnSlice (xlAt 0x10000) 0xFFF0 = true ∧ s.slot.members < 8 ∧ w0Acc (tileW0 0x10 (s.slot.rx 1)) = 0xFFF0 :=
  ⟨by rintro op (rfl | rfl | rfl) <;> exact may_of (by decide +kernel), two_of (by decide +kernel),
    ⟨_, range_of (by decide +kernel)⟩, by decide +kernel, by decide +kernel, by decide +kernel⟩

/-- O26: copy2, gather and xpose of 8 x 8 elements. -/
theorem witness_shaped_commands :
    let s := shaped 1 [(4, 0x10400)]
    let A := shapeOf (s.shape 1)
    let B := shapeOf (s.shape 2)
    let p := s.enginePlace 1 (some (xlAt 0x10000))
    (∀ op, op = 0x11 ∨ op = 0x40 → commandReady s op 1 0 0 1 ∧ queueOpen s p) ∧ commandReady s 0x13 1 4 0 1 ∧
    (∃ t u, rangeOk s t 1 0x10000 16 (A.extent 1) (A.runs 1) false (xlAt 0x10000) ∧
      rangeOk t u 1 0x110000 16 (B.extent 1) (B.runs 1) true (xlAt 0x110000)) ∧
    (∃ t u, rangeOk s t 1 0x10400 4 32 [(0, 32)] false (xlAt 0x10400) ∧ rangeOk t u 1 0x10000 16 0 [(0, 16)] false (xlAt 0x10000)) ∧
    (A.rows, A.cols, A.kind) = (B.rows, B.cols, B.kind) ∧ fmtOf (effFmt none (some (leafAt 1)) A) ≠ 4 ∧
    B.rows = A.elts (effFmt none (some (leafAt 1)) A) ∧ B.elts (effFmt none (some (leafAt 1)) A) = A.rows :=
  ⟨by rintro op (rfl | rfl) <;> exact may_of (by decide +kernel), (may_of (pl := running.here .host) (by decide +kernel)).1,
    two_of (by decide +kernel), two_of (by decide +kernel), by decide +kernel, by decide +kernel, by decide +kernel,
    by decide +kernel⟩

/-- O27: operands in two slices, and a register group; accumulators up to the last. -/
theorem witness_matrix_commands :
    let s := shaped 0xFFC0 [(5, 0x10000)]
    let g := (shaped 0xFFC0 []).setX 1 (BitVec.ofNat 64 (3 * 2 ^ 48 + 2 * 2 ^ 44 + 0xFFC0))
    let A := shapeOf (s.shape 1)
    let B := shapeOf (s.shape 2)
    let G := shapeOf (g.shape 3)
    let pl := s.enginePlace 0 none
    (∀ op, op = 1 ∨ op = 2 ∨ op = 4 ∨ op = 5 → commandReady s op 1 0 0 0 ∧ queueOpen s pl) ∧
    (commandReady s 6 0 5 0 0 ∧ queueOpen s pl) ∧ (∀ op, op = 1 ∨ op = 2 → commandReady g op 1 0 0 0 ∧ queueOpen g pl) ∧
    (∃ t u, rangeOk s t 0 0x10000 16 (A.extent 1) (A.runs 1) false (xlAt 0x10000) ∧
      rangeOk t u 0 0x110000 16 (B.extent 1) (B.runs 1) false (xlAt 0x110000)) ∧
    (∃ t, rangeOk s t 0 0x110000 16 (B.extent 1) (B.runs 1) true (xlAt 0x110000)) ∧
    (s.scalesDenied (xlAt 0x10000) A 1 0x10000 (effFmt none (some (leafAt 1)) A) false = false ∧
      s.scalesDenied (xlAt 0x110000) B 1 0x110000 (effFmt none (some (leafAt 17)) B) true = false) ∧
    (G.kind = 1 ∧ G.groupOk 1 = true) ∧ w0Acc (tileW0 1 (s.slot.rx 1)) + A.rows * B.rows ≤ 0x10000 ∧
    (mmaFormats 1 1 1 = true ∧ A.elts 1 % 8 = 0 ∧ A.elts 1 ≤ 256 ∧ B.elts 1 = A.elts 1 ∧ G.elts 1 = B.elts 1) ∧
    blocksOk (effFmt none (some (leafAt 1)) A) (some (leafAt 1)) 0 (A.runs 1) = true ∧ w0Acc (tileW0 6 (s.slot.rx 0)) = 0 :=
  ⟨by rintro op (rfl | rfl | rfl | rfl) <;> exact may_of (by decide +kernel), may_of (by decide +kernel),
    by rintro op (rfl | rfl) <;> exact may_of (by decide +kernel), two_of (by decide +kernel), ⟨_, range_of (by decide +kernel)⟩,
    by decide +kernel, by decide +kernel, by decide +kernel, by decide +kernel, by decide +kernel, by decide +kernel⟩

/-- O27: a dot-sum-weight operand for mmaw. -/
theorem witness_mmaw :
    let s := (shaped 0 []).updCore 3 (fun k => { k with shapes := [(1, record 2 0 1 8 0x10000), (2, record 5 0 1 8 0x110000)] })
    let A := shapeOf (s.shape 1)
    let B := shapeOf (s.shape 2)
    (commandReady s 3 1 0 0 0 ∧ queueOpen s (s.enginePlace 0 none)) ∧
    (∃ t u, rangeOk s t 0 0x10000 16 (A.extent 1) (A.runs 1) false (xlAt 0x10000) ∧
      rangeOk t u 0 0x110000 16 (B.extent 1) (B.runs 1) false (xlAt 0x110000)) ∧
    mmaFormats 3 (fmtOf (effFmt none (some (leafAt 1)) A)) (fmtOf (effFmt none (some (leafAt 17)) B)) = true ∧
    (A.elts 2 = B.elts 5 ∧ A.elts 2 % 8 = 0 ∧
      s.scalesDenied (xlAt 0x10000) A 1 0x10000 (effFmt none (some (leafAt 1)) A) false = false ∧
      s.scalesDenied (xlAt 0x110000) B 1 0x110000 (effFmt none (some (leafAt 17)) B) false = false) :=
  ⟨may_of (by decide +kernel), two_of (by decide +kernel), by decide +kernel, by decide +kernel⟩

/-- O28: a multicast of no bytes to the first byte of a region; then one to the last place of the scratchpad, a contribution of
64 KiB, a descriptor for stage 15 with an open destination and one with a closed one. -/
theorem witness_empty_multicast :
    let s := at3 [(2, 0x10000), (3, 0x180000)]
    commandReady s 0x20 0 2 3 3 ∧ (∃ t, rangeOk s t 3 0x10000 16 0 [(0, 0)] false (xlAt 0x10000)) ∧
    sliceRegion 0x80000 = some 1 ∧ sliceRegion (0x80000 + (0 - 1)) = some 1 :=
  ⟨(may_of (pl := running.here .host) (by decide +kernel)).1, ⟨_, range_of (by decide +kernel)⟩, by decide +kernel, by decide +kernel⟩

/-- O28, the other forms. -/
theorem witness_collective_commands :
    let s := at3 [(1, 0xFFF0), (2, 0x10000), (3, 0x170010), (4, 0x10000), (5, 15), (6, 0x1000002), (7, 0xB000000002)]
    commandReady s 0x20 1 2 3 3 ∧ commandReady s 0x30 4 2 5 2 ∧ commandReady s 0x31 0 6 5 2 ∧ commandReady s 0x31 0 7 5 2 ∧
    (∃ t, rangeOk s t 3 0x10000 16 0xFFF0 [(0, 0xFFF0)] false (xlAt 0x10000)) ∧
    (∃ t, rangeOk s t 2 0x10000 16 0x10000 [(0, 0x10000)] false (xlAt 0x10000)) ∧
    (let o := (s.slot.rx 3).toNat % 2 ^ 20
     o % 16 = 0 ∧ o + 0xFFF0 ≤ 2 ^ 20 ∧ sliceRegion o = some 0 ∧ sliceRegion (o + 0xFFF0 - 1) = some 0) ∧
    bitsOf (s.slot.rx 3).toNat 35 20 ≠ 0 ∧ (s.slot.rx 5).toNat < 16 ∧ bitsOf (s.slot.rx 6).toNat 3 0 ≤ 2 ∧
    bitsOf (s.slot.rx 6).toNat 39 20 % 16 = 0 ∧ s.closedByte 0x10 = false ∧ bitsOf (s.slot.rx 7).toNat 39 20 = 0xB0000 ∧
    bitsOf (s.slot.rx 7).toNat 19 0 = 2 ∧ s.closedByte 0xB0000 = true :=
  ⟨(may_of (pl := running.here .host) (by decide +kernel)).1, (may_of (pl := running.here .host) (by decide +kernel)).1, (may_of (pl := running.here .host) (by decide +kernel)).1,
    (may_of (pl := running.here .host) (by decide +kernel)).1, ⟨_, range_of (by decide +kernel)⟩, ⟨_, range_of (by decide +kernel)⟩,
    by decide +kernel, by decide +kernel, by decide +kernel, by decide +kernel, by decide +kernel⟩

/-- O29: an assigned and an unassigned CSR. -/
theorem witness_csrs :
    let s := at3 [(1, 7)]
    ready { writes := [xr 31] } s = true ∧ ready { reads := [xr 1] } s = true ∧ s.csr (0x0F2#12).toNat ≠ none ∧
    s.csr (0x003#12).toNat = some 0x20000 ∧ s.csr (0x004#12).toNat = none := by decide +kernel

/-- O30, O31: a vectored user cause; user causes without a vector, system and fatal ones; an EPC that is and is not aligned. -/
theorem witness_causes :
    let s := at3 []
    let u := s.upd (fun sl => { sl with tvec := 0, epc := 2 })
    (userClass 0x01F s.job.debug = true ∧ (s.slotAt 3 0).tvec ≠ 0) ∧ (u.slotAt 3 0).tvec = 0 ∧
    (userClass 0x040 false = false ∧ fatalClass 0x040 = false) ∧ (userClass 0x008 false = false ∧ fatalClass 0x008 = true) ∧
    s.slot.epc.toNat % 4 = 0 ∧ u.slot.epc.toNat % 4 ≠ 0 ∧ s.slot.pc.toNat % 4 = 0 ∧ (15#5).toNat ≤ 15 := by decide +kernel

/-- O32: no store outstanding and one; a wake-up kept and none. -/
theorem witness_waiting :
    let s := at3 []
    let u := s.upd (fun sl => { sl with cntst := 1, wake := true })
    (s.slot.cntst = 0 ∧ s.slot.wake = false) ∧ (u.slot.cntst ≠ 0 ∧ u.slot.wake = true) ∧ ready { writes := [xr 31] } s = true ∧
    s.heldBack (s.slot.h.toList.map (fun h => s.closePeers h)).flatten = false := by
  decide +kernel

/-- O33: an own ancestor, a record of another level, a record outside the table; a plan and none. -/
theorem witness_cancel_and_circ :
    let s := (at3 [(1, 0xFFFFFFFF), (2, 1), (3, 2), (4, 0), (5, 256)]).updLevel 1 (fun v => { v with level := 1 })
    let s := { s.updJob (fun j => { j with hcount := 2, nplan := 1, planb := lpBase / 4096 }) with
      dram := Memory.puts [] lpBase (toBytes (2 ^ 63) 8) }
    let s := s.upd (fun sl => { sl with task := { sl.task with level := 1 } })
    ready { reads := [xr 1] } s = true ∧ s.cancelTarget (s.slot.rx 1) 1 = some 1 ∧ (s.levelAt 1).level = 1 ∧
    s.cancelFlags.getLsbD 1 = false ∧ (s.chain 8 s.slot.task.level).contains 1 = true ∧
    s.cancelTarget (s.slot.rx 2) 2 = some 1 ∧ s.recordKind 1 = 1 ∧ (1 : Nat) ≠ 2 ∧ s.cancelTarget (s.slot.rx 3) 1 = none ∧
    ready { reads := [xr 4], hold := decide (s.slot.stx ≠ 0) } s = true ∧
    ((s.slot.rx 4).toNat < 256 ∧ s.planEmpty (s.slot.rx 4).toNat = false) ∧ 256 ≤ (s.slot.rx 5).toNat := by decide +kernel

/-- A packet of slot 0 of core 3 with this body. -/
def packet (b : Body) : Packet := { body := b, src := { peer := 0, agent := .core 3 }, job := 0, slot := 0, gen := 0 }

/-- It heads the perform queue of home 1; bytes 0x110000 to 0x11000F are full or not. -/
def atHome (full : Bool) (b : Body) : State :=
  let s := (slotOf 3 []).updHome 1 (fun q => { q with q := [packet b] })
  if full then s.setFull (0x110000 / 16) true else s

/-- O34: for each kind of access, one to the granule, which no region shuts out; and one that the home refuses. -/
theorem witness_perform :
    let s := atHome true (.load 0x110000 8 .nothing)
    let e := atHome false (.ldFe true 0x110000 8 .nothing)
    let p := packet (.load 0x110000 8 .nothing)
    (s.homeAt 1).q = [p] ∧ s.mach.poison = [] ∧ isPort 0x110000 = false ∧ s.refuses 1 p 0x110000 = none ∧
    fromEngine p = false ∧ 0x110000 + 8 ≤ 2 ^ 30 ∧ s.isFull (0x110000 / 16) = true ∧ e.isFull (0x110000 / 16) = false ∧
    s.refuses 1 { p with job := 1 } 0x110000 = some 4 ∧
    ((atHome true (.store .stFe 0x110000 8 0 (some 31))).homeAt 1).q = [packet (.store .stFe 0x110000 8 0 (some 31))] ∧
    (∀ kind ∈ [WKind.st, .vst, .scat, .stFe, .feSet, .feClr, .anadd],
      ((atHome false (.store kind 0x110000 8 0 (some 31))).homeAt 1).q = [packet (.store kind 0x110000 8 0 (some 31))]) ∧
    (e.homeAt (0x110000 / 16 / 65536)).waiting = [] ∧ e.poisonIn 0x110000 8 = none ∧ 0x110000 / 16 ∈ granules 0x110000 8 ∧
    ({ s with mach := { s.mach with poison := [(0x11000, 1)] } } : State).poisonIn 0x110000 8 = some 1 := by
  decide +kernel

/-- A body on its way to core 3, in class `cls`, with what lies before it on no queue. -/
def toCore (src : Agent) (cls : Nat) (b : Body) (s : State) : State := s.post src (s.here (.core 3)) cls b 0 0

def keyTo (src : Agent) (cls : Nat) : PairKey := { src := running.here src, dst := running.here (.core 3), cls := cls }

/-- O35: values, an acknowledgement and refusals of entry 31. -/
theorem witness_replies :
    let s := (at3 []).updCore 3 (fun k => { k with journal := [(31, entry false)] })
    let k := keyTo (.home 1) 4
    let head := fun b => (toCore (.home 1) 4 b s).headOf k
    k.dst = s.here (.core 3) ∧ s.stopped = false ∧ ((s.slotAt 3 0).gen = 0 ∧ (s.slotAt 3 0).phase ≠ .free ∧ (s.slotAt 3 0).phase ≠ .draining) ∧
    (head (.value (.xreg 31 true 1) 0x80 none)).map (·.body) = some (.value (.xreg 31 true 1) 0x80 none) ∧
    (head (.ack (some 31))).map (fun p => (p.body, p.slot, p.gen)) = some (.ack (some 31), 0, 0) ∧
    (head (.refusedWrite (some 31) 3 0x110000)).map (·.body) = some (.refusedWrite (some 31) 3 0x110000) ∧
    (head (.refusedRead (.xreg 31 true 1) 3 0x110000)).map (·.body) = some (.refusedRead (.xreg 31 true 1) 3 0x110000) ∧
    AMap.get (s.coreAt 3).journal 31 = some (entry false) ∧ ((entry false).slot, (entry false).gen) = (0, 0) := by decide +kernel

/-- O36: pending causes of both kinds, undefined and reserved words, a logged register and one that is not, a queued access. -/
theorem witness_async_and_parity :
    let s := (at3 []).upd (fun sl => { sl with async := [.load 0x110000] })
    let u := (at3 []).upd (fun sl => { sl with async := [.store 31] })
    let g := (at3 []).updCore 3 (fun k => { k with oplog := [{ slot := 0, reg := 31, val := 5 }] })
    let d := (at3 []).post (.core 3) (running.here (.home 1)) 4 (.load 0x110000 8 .nothing) 0 0
    ((s.slotAt 3 0).asyncReady = true ∧ s.stopped = false) ∧ (u.slotAt 3 0).asyncReady = true ∧ decode 0 = .undefined ∧
    decode 0x04420840 = .reserved ∧ (g.slotAt 3 0).phase = .ready ∧ 0 < slotCount 3 ∧
    (g.coreAt 3).logged 0 31 = some { slot := 0, reg := 31, val := 5 } ∧ (g.coreAt 3).logged 0 87 = none ∧
    (d.headOf { src := d.here (.core 3), dst := d.here (.home 1), cls := 4 }).map (fun p => forHomeQueue p.body) = some true := by
  decide +kernel

/-- A ticket of core 3, number 0, home 1, of 8 bytes. -/
def tk0 : Word := ticketOf 0 0 0 3 1 0 0

/-- The entry that its fetch made. -/
def ticket0 : Ticket :=
  { peer := 0, core := 3, num := 0, gen := 0, job := 0, data := [1, 2, 3, 4, 5, 6, 7, 8], poison := [none], fmt := 0x0F, scale := 0
    elt := 0, block := 0, blocks := 1, at_ := 0 }

/-- The record of that ticket on the lost or the expired list. -/
def record0 : TkRec := { core := 3, num := 0, gen := 0, job := 0 }

/-- O37: a fetch with room, one refused and one without room; a fetch whose ticket home 2 keeps and the snapshot that comes back;
a notice and a snapshot that land at core 3. -/
theorem witness_ticket_fetches :
    let f := atHome false (.fetch tk0 0x110000 0x0F 0 0)
    let full := f.updHome 1 (fun q => { q with tickets := List.replicate (ticketRoom 1) ticket0 })
    let g := atHome false (.fetch (ticketOf 0 0 0 3 2 0 0) 0x110000 0x0F 0 0)
    let b := atHome false (.fetched tk0 (some { data := [1], poison := [none], fmt := 0x0F, scale := 0, elt := 0, at_ := 0 }))
    let c := (at3 []).updCore 3 (fun k => { k with tkGen := [(0, 0)], tkLive := [0] })
    let n := toCore (.home 1) 4 (.release 0 0) c
    let v := toCore (.home 1) 4 (.snapshot (.vreg 1) tk0 [1, 2, 3, 4, 5, 6, 7, 8] [none] 0x0F 0 0) c
    ((f.homeAt 1).heldRdm = [] ∧ (f.homeAt 1).awaiting = [] ∧ (f.homeAt 1).tickets.length < ticketRoom 1 ∧
      freeRun (f.homeAt 1).tickets (max 1 (tkBytes tk0 / 64)) = some 0) ∧
    f.refuses 1 (packet (.fetch tk0 0x110000 0x0F 0 0)) 0x110000 = none ∧
    f.refuses 1 { packet (.fetch tk0 0x110000 0x0F 0 0) with job := 1 } 0x110000 = some 4 ∧
    ticketRoom 1 ≤ (full.homeAt 1).tickets.length ∧ (tkHomeOf tk0, tkPeerOf tk0) = (1, f.part.peer) ∧
    (tkHomeOf (ticketOf 0 0 0 3 2 0 0) = 2 ∧ (g.homeAt 1).q ≠ []) ∧
    ((b.homeAt 1).awaiting = [] ∧ (b.homeAt 1).tickets.length < ticketRoom 1) ∧ AMap.get (c.coreAt 3).tkGen 0 = some 0 ∧
    (n.headOf (keyTo (.home 1) 4)).map (·.body) = some (.release 0 0) ∧
    (v.headOf (keyTo (.home 1) 4)).map (·.body) =
      some (.snapshot (.vreg 1) tk0 [1, 2, 3, 4, 5, 6, 7, 8] (List.replicate ((8 + 15) / 16) none) 0x0F 0 0) ∧
    (c.current 3 0 0 = true ∧ c.draining 3 0 = false ∧ c.stopped = false ∧ snapSize tk0 ≤ 8) ∧ decodes 0x0F = false := by decide +kernel

/-- O37: for each row of Table 08-6 a redemption at the head of home 1's queue; drops, queries and expiries. -/
theorem witness_ticket_rows :
    let r := fun (at_ : Nat) (f : Home → Home) => (atHome false (.redeem tk0 (.vreg 1) at_)).updHome 1 f
    let own := r 0 (fun q => { q with tickets := [ticket0] })
    let other := r 0 (fun q => { q with tickets := [{ ticket0 with job := 1 }] })
    let late := { r (2 ^ 22) (fun q => { q with tickets := [ticket0] }) with mach.clock := 2 ^ 22 }
    let lost := r 0 (fun q => { q with lost := [record0] })
    let gone := r 0 (fun q => { q with expired := [record0] })
    let spent := { r 0 (fun q => { q with fetched := [(3 * 256, 0)] }) with mach.clock := 2 ^ 20 }
    let held := { r 0 (fun q => { q with fetched := [(3 * 256, 0)] }) with mach.clock := 2 ^ 20 + 1 }
    let away := r 0 (fun q => { q with away := [tk0] })
    let fenced : State := { own with part := { own.part with fenced := [1] } }
    let hold := r 0 (fun q => { q with heldRdm := [(packet (.redeem tk0 (.vreg 1) 0), 0)] })
    let lease : State := { (atHome false (.tkDrop tk0)).updHome 1 (fun q => { q with q := [], tickets := [ticket0] }) with mach.clock := 2 ^ 22 }
    let names := fun (e : Ticket) => namesTicket tk0 e.core e.num e.gen
    (own.part.fenced.contains 1 = false ∧ (own.homeAt 1).away.any (sameTicket tk0) = false ∧
      (own.homeAt 1).tickets.find? names = some ticket0 ∧ ticket0.job = (packet (.tkDrop tk0)).job ∧
      own.mach.clock < ticket0.at_ + 2 ^ own.job.lease) ∧
    (other.homeAt 1).tickets.find? names = some { ticket0 with job := 1 } ∧
    ((late.homeAt 1).tickets.find? names = some ticket0 ∧ ticket0.at_ + 2 ^ late.job.lease ≤ late.mach.clock ∧
      ticket0.at_ + 2 ^ late.job.lease ≤ 2 ^ 22) ∧
    ((lost.homeAt 1).tickets.find? names = none ∧ (lost.homeAt 1).lost = [] ++ record0 :: [] ∧
      namesTicket tk0 record0.core record0.num record0.gen = true) ∧
    ((gone.homeAt 1).tickets.find? names = none ∧ (gone.homeAt 1).lost = [] ∧ (gone.homeAt 1).expired = [record0]) ∧
    (AMap.get (spent.homeAt 1).fetched (tkCoreOf tk0 * 256 + tkNumOf tk0) = some 0 ∧ spent.mach.clock ≤ 0 + 2 ^ 20) ∧
    (AMap.get (held.homeAt 1).fetched (tkCoreOf tk0 * 256 + tkNumOf tk0) = some 0 ∧ 0 + 2 ^ 20 < held.mach.clock ∧
      (held.homeAt 1).expired = []) ∧
    (away.homeAt 1).away.any (sameTicket tk0) = true ∧ fenced.part.fenced.contains 1 = true ∧
    ((hold.homeAt 1).heldRdm = [(packet (.redeem tk0 (.vreg 1) 0), 0)] ∧ 0 ≤ hold.mach.clock) ∧
    ((lease.homeAt 1).tickets = [ticket0] ∧ (lease.homeAt 1).q = [] ∧ ticket0.at_ + 2 ^ lease.job.lease ≤ lease.mach.clock) := by
  decide +kernel

/-- A command with W0's operation and nothing else. -/
def command (op : Nat) (marker : Bool) (w3 : Word) : Cmd :=
  { op := BitVec.ofNat 8 op, w0 := 0, w1 := 0, w2 := 0, w3 := w3, shA := 0, shB := 0, paA := 0, paB := 0, fmtA := 0, fmtB := 0
    scA := 0, scB := 0, leafA := 0, leafB := 0, leafLenA := 0, peerA := 0, peerB := 0, peerI := 0, vaB := 0, group := [], fseed := 0
    peer := 0, core := 3, slot := 0, gen := 0, level := 0, follow := 1, matrix := true, marker := marker, leases := []
    waits := false }

/-- A run with one read, one write of given bytes, `n` of each done. -/
def runOf (op n : Nat) : Run :=
  { id := 0, cmd := command op false 0, issued := n, back := n, got := [], sent := n, acked := n, more := false, last := 0
    status := 0, reason := 0, prog := 0
    reads := [{ pa := 0x10000, len := 64, peer := 0, needs := [] }]
    writes := [{ pa := 0x110000, len := 8, peer := 0, src := [], bytes := [1, 2, 3, 4, 5, 6, 7, 8], counts := true, clears := false
                 line := none }] }

def withEngine (e : Nat) (f : Engine → Engine) : State := running.updEngine e f

/-- O38: a head to start at a matrix array and at a streamer, a read, a write and a reply at hand. -/
theorem witness_engine_accesses :
    let s := withEngine 0 (fun k => { k with queue := [command 1 false 0] })
    let r := withEngine 1 (fun k => { k with runs := [runOf 0x10 0] })
    let a := r.post (.home 0) (r.here (.engine 1)) 4 (.value (.eng 0 0) 0 none) 0 0
    ((s.engineAt 0).queue = [command 1 false 0] ∧ (s.engineAt 0).runs = []) ∧
    (r.runAt 1 0).map (fun q => (q.status, q.issued, q.sent)) = some (0, 0, 0) ∧ r.goesOn 1 (runOf 0x10 0) = true ∧
    (runOf 0x10 0).reads[0]?.map (fun x => (x.needs, x.peer, r.closedRegion x)) = some ([], r.part.peer, false) ∧
    (runOf 0x10 0).writes[0]?.map (fun x => (x.line, x.src, x.clears, x.peer)) = some (none, [], false, r.part.peer) ∧
    (a.headOf { src := a.here (.home 0), dst := a.here (.engine 1), cls := 4 }).map (·.body) = some (.value (.eng 0 0) 0 none) := by
  decide +kernel

/-- O39: finished runs of a matrix array and a streamer, a marker, commands parked behind a group that is closed or failed. -/
theorem witness_engine_completions :
    let s := withEngine 0 (fun k => { k with runs := [runOf 6 1] })
    let r := withEngine 1 (fun k => { k with runs := [runOf 0x10 1] })
    let m := withEngine 1 (fun k => { k with queue := [command 0 true 1] })
    let p := withEngine 1 (fun k => { k with parked := [command 1 false 0] })
    let f := withEngine 1 (fun k => { k with parked := [command 1 false 0], failed := [(3, 0, 0, 1)] })
    (s.runAt 0 0).map Run.finished = some true ∧ (r.runAt 1 0).map Run.finished = some true ∧ (runOf 6 1).code = 0 ∧
    isMatrix 0 = true ∧ isMatrix 1 = false ∧ ((m.engineAt 1).queue = [command 0 true 1] ∧ (m.engineAt 1).runs = [] ∧ m.stopped = false ∧ s.stopped = false) ∧
    ((p.engineAt 1).parked = [command 1 false 0] ∧ (p.engineAt 1).open_.contains (followKey (command 1 false 0)) = false ∧
      (p.engineAt 1).failed.contains (followKey (command 1 false 0)) = false ∧ (p.engineAt 0).queue.length < 16) ∧
    (f.engineAt 1).failed.contains (followKey (command 1 false 0)) = true := by decide +kernel

/-- A packet of engine 2 at the head of cluster 0's inbox, with stage 15 loaded or not. -/
def atRouter (loaded : Bool) (b : Body) : State :=
  let p : Packet := { body := b, src := running.here (.engine 2), job := 0, slot := 0, gen := 0 }
  let d : Word := 0x4000000
  running.updCluster 0 (fun k => { k with inbox := [p], stages := if loaded then [(15, { desc := d, len := 0, written := []
                                                                                         writing := [], lines := [], accepted := [] })] else [] })

/-- O40: a stage of two contributors that lacks the one of a later tile, whose line then comes, and one whose line is on its way
to its home, with the answers that may come. -/
theorem witness_reduction_rounds :
    let c := fun (e : Nat) => ({ eng := e, run := 0, len := 128, data := 0 } : Contrib)
    let g : Stage := { desc := 0x4000010, len := 128, written := [], writing := [], lines := [(0, [c 2])], accepted := [] }
    let s := (atRouter true (.contrib 0 15 0 128 0)).updCluster 0 (fun k => { k with
      inbox := [{ packet (.contrib 0 15 0 128 0) with src := running.here (.engine 6) }], stages := [(15, g)] })
    let w := running.updCluster 0 (fun k => { k with
      inbox := [{ packet (.ack (some (accessNo 15 0))) with src := running.here (.home 0) }]
      stages := [(15, { g with writing := [(0, [c 2, c 6])], lines := [] })] })
    let r := w.updCluster 0 (fun k => { k with
      inbox := [{ packet (.refusedWrite (some (accessNo 15 0)) 3 64) with src := running.here (.home 0) }] })
    AMap.get (s.clusterAt 0).stages 15 = some g ∧ (g.n, g.roundLen, g.combined 0) = (2, some 128, false) ∧
    (g.lines.all (fun x => decide (x.2.length < g.n)) && decide ((g.line 0).length + 1 = g.n)) = true ∧
    (s.closedByte g.dest, s.closedByte (g.dest + 63)) = (false, false) ∧ g.line 0 ++ [c 6] = [c 2, c 6] ∧
    engineTile 2 < engineTile 6 ∧ (w.clusterAt 0).inbox.length = 1 ∧ (r.clusterAt 0).inbox.length = 1 ∧
    ((AMap.get (w.clusterAt 0).stages 15).bind (fun g => AMap.get g.writing 0)) = some [c 2, c 6] := by decide +kernel

/-- O40: a stage that is not loaded, and a line of 64 bytes for one that is, whose only contributor it is. -/
theorem witness_reduction_lines :
    let l := atRouter false (.stageLoad 0 15 0x1000000)
    let c := atRouter false (.contrib 0 15 0 64 0)
    let d := atRouter true (.contrib 0 15 0 64 0)
    (l.clusterAt 0).inbox.length = 1 ∧ AMap.get (l.clusterAt 0).stages 15 = none ∧ AMap.get (c.clusterAt 0).stages 15 = none ∧
    (AMap.get (d.clusterAt 0).stages 15).map (fun g => (g.n, g.len, g.written, g.lines.length)) = some (1, 0, [], 0) ∧
    (AMap.get (d.clusterAt 0).stages 15).map (fun g => decide (g.dest < 2 ^ 30 ∧ g.dest % 64 = 0)) = some true ∧
    d.mach.poison = [] ∧ (d.homeAt 0).waiting = [] ∧ (2 : Nat) < 4096 ∧
    (AMap.get (d.clusterAt 0).stages 15).map (fun g => (d.closedByte g.dest, d.closedByte (g.dest + 63))) = some (false, false) := by decide +kernel

/-- O41: a completion at a level that counts and at a cancelled one, and a silent notice. -/
theorem witness_completions :
    let b : Body := .completion 0 0 0 0 true true 0 0 []
    let s := (at3 []).updCore 3 (fun k => { k with inq := [(1, [.pkt (packet b)])] })
    let n := toCore (.engine 0) 1 (.silent 0 0 true 0 []) (at3 [])
    ((s.coreAt 3).takeItem 1 isCompletion).map (·.1) = some (.pkt (packet b)) ∧
    (s.cancelPending 0 = false ∧ s.countFull (s.countLevel 0) = false ∧ s.runRoom 3 = true) ∧
    (s.updLevel 0 (fun v => { v with cp := true })).cancelPending 0 = true ∧
    (n.headOf (keyTo (.engine 0) 1)).map (·.body) = some (.silent 0 0 true 0 []) ∧ (n.current 3 0 0 = true ∧ n.draining 3 0 = false) ∧
    s.stopped = false := by decide +kernel

/-- The entry of channel 0x77 at home 1: one instance at core 3. -/
def chan : Chan :=
  { ident := 0x77, state := .settled, holder := 3, gen := 0, insts := [Inst.new 0 3], made := 1, finalSent := false, rounds := []
    made_ := [], early := [] }

/-- A body at the head of home 1's queue, the home having these entries. -/
def atChan (l : List Chan) (b : Body) : State := (atHome false b).updHome 1 (fun q => { q with chans := l })

/-- O42, O43: a free and a full home, a settled, a carried and a closed end, the last instance and one of two, an instance in
flight, rounds to retire, stray messages of a known and of an unknown channel. -/
theorem witness_channel_home :
    let two := { chan with insts := [Inst.new 0 3, { Inst.new 1 3 with holder := none }], made := 2 }
    let many := List.replicate 512 chan
    let full := { chan with insts := (List.range 255).map (fun i => Inst.new i 3), made := 255 }
    let s := atChan [chan] (.chClose 0x77 0)
    ((atChan [] (.chCreate 0x77 3)).homeAt 1).chans.length < 512 ∧ (atChan [] (.chCreate 0x77 3)).entryAt 1 0x77 = none ∧
    512 ≤ ((atChan many (.chCreate 0x77 3)).homeAt 1).chans.length ∧ s.entryAt 1 0x77 = some chan ∧
    (chan.live.length < 255 ∧ chan.inst chan.made = none) ∧ 255 ≤ full.live.length ∧ chan.state ≠ .closed ∧
    two.inst 1 = some { Inst.new 1 3 with holder := none } ∧ (chan.early = [] ∧ (2 : Nat) ≠ (chan.gen + 1).toNat) ∧
    (two.inst 1).map (fun i => decide (i.landed < 1 ∧ i.moved ≤ 1 ∧ i.closed = false)) = some true ∧
    ((chan.updInst 0 (fun i => { i with closed := true, holder := none, owes := [] })).live = [] ∧ chan.finalSent = false) ∧
    (two.updInst 0 (fun i => { i with closed := true, holder := none, owes := [] })).live ≠ [] ∧ chan.live ≠ [] ∧
    ({ chan with insts := [] } : Chan).live = [] ∧ (message .data 0).kind ≠ .closeMarker ∧ (message .data 0).ident = chan.ident ∧
    (packet (.chCreate 0x77 3)).src.agent = .core 3 := by decide +kernel

/-- A reorder area of channel 0x77, instance 0, holding these messages. -/
def area (l : List Msg) : Area :=
  { ident := 0x77, inst := 0, next := 0, held := l, seg := 0, busy := false, closed := false, waiting := false }

/-- A forwarder stub of channel 0x77 at generation 0. -/
def stub (dest : Option (Nat × BitVec 16)) (l : List Msg) : Stub :=
  { ident := 0x77, gen := 0, dest := dest, msgs := l, named := [], allNamed := false, fences := [], handed := [], areas := []
    closes := 0, final := none, home := 0, seen := [], before := some 0 }

/-- O44: an arrival at its end, at a stub with its last place and at neither; a release; a bound handler; a creation's reply. -/
theorem witness_core_messages :
    let m := message .data 0
    let arrive := fun s => State.updCore s 3 (fun k => { k with arrivals := [m] })
    let h := arrive (holds (at3 []) (some none))
    let st := arrive ((at3 []).updCore 3 (fun k => { k with stubs := [stub none (List.replicate 63 m)] }))
    let r := (holds (at3 []) (some none)).updCore 3 (fun k => { k with areas := [area [m]], fifo := arrived m })
    let b := (holds (at3 []) (some (some 0x100))).updCore 3 (fun k => { k with inq := [(2, [.chan m false false 0])] })
    let q : ChanReq := { slot := 0, gen := 0, hd := 1, ha := 2, ident := 0x77, tries := 0, dup := false }
    let c := toCore (.home 1) 0 (.chCreated 0x77 true) ((at3 []).updCore 3 (fun k => { k with reqs := [q] }))
    (h.coreAt 3).ends.any (fun e => decide (e.ident = m.ident) && decide (e.gen = m.gen)) = true ∧
    ((st.coreAt 3).ends.any (fun e => decide (e.ident = m.ident) && decide (e.gen = m.gen)) = false ∧
      (((st.coreAt 3).stubs.find? (isStub m.ident m.gen)).map (fun x => x.msgs.length)) = some 63) ∧
    ((arrive (at3 [])).coreAt 3).stubs.find? (isStub m.ident m.gen) = none ∧
    ((r.coreAt 3).areas.find? (isArea 0x77 0) = some (area [m]) ∧ m.seq = (area [m]).next ∧
      ((r.coreAt 3).queue m.cls).length < 16 ∧ (3 : Nat) ≠ eqxCore ∧ (0 : Nat) ≠ countOnly ∧ (r.coreAt 3).inOrder m = true) ∧
    (((b.coreAt 3).takeItem 2 (b.coreAt 3).forHandler).map (·.1) = some (.chan m false false 0) ∧
      (b.coreAt 3).binding m = (some 0x100, 1) ∧ b.entered 0x100 2 = true ∧ b.entered 0x104 2 = false ∧
      b.cancelPending 1 = false ∧ b.countFull (b.countLevel 1) = false ∧ b.runRoom 3 = true ∧ b.stopped = false ∧
      (b.updLevel 1 (fun v => { v with cp := true })).cancelPending 1 = true) ∧
    ((c.headOf (keyTo (.home 1) 0)).map (·.body) = some (.chCreated 0x77 true) ∧
      (takeFirst (fun (r : ChanReq) => !r.dup && decide (r.ident = 0x77)) (c.coreAt 3).reqs).map (·.1) = some q ∧
      c.current 3 0 0 = true ∧ c.draining 3 0 = false) := by decide +kernel

/-- O45: an instance at core 3 with each notice for it; an end told of its number; stubs with a message to forward, with a
fence to learn; an area to be handed over. -/
theorem witness_holders :
    let s := withEnds []
    let head := fun (s : State) b => ((toCore (.home 1) 0 b s).headOf (keyTo (.home 1) 0)).map (·.body)
    let f := (at3 []).updCore 3 (fun k => { k with stubs := [stub (some (4, 1)) [message .data 0]] })
    let g := (at3 []).updCore 3 (fun k => { k with stubs := [stub none []] })
    let h := holds (at3 []) none
    let last := { stub (some (4, 1)) [] with named := [0], allNamed := true, areas := [area []] }
    let w := (at3 []).updCore 3 (fun k => { k with stubs := [last] })
    let i := w.updCore 3 (fun k => { k with inq := [(2, [.chan (message .data 0) true false 3])] })
    (head w (.fence 0x77 0 0 (-1)) = some (.fence 0x77 0 0 (-1)) ∧ (w.coreAt 3).stubs.find? (isStub 0x77 0) = some last ∧
      last.accounted 0 (-1) = true ∧ last.has 0 = true ∧ last.areas.all (fun a => decide (a.inst = 0)) = true ∧
      (i.coreAt 3).inq = [(2, [.chan (message .data 0) true false 3])]) ∧
    (s.instAt 3 0x77 0).isSome = true ∧ head s (.credit 0x77 0) = some (.credit 0x77 0) ∧
    head s (.peerClosed 0x77 0) = some (.peerClosed 0x77 0) ∧ head s (.redirect 0x77 0 4 1) = some (.redirect 0x77 0 4 1) ∧
    (head h (.final 0x77 1) = some (.final 0x77 1) ∧ (h.coreAt 3).ends.any (fun e => e.ident = 0x77) = true) ∧
    ((f.coreAt 3).stubs.find? (isStub 0x77 0) = some (stub (some (4, 1)) [message .data 0])) ∧
    (head g (.fence 0x77 0 0 5) = some (.fence 0x77 0 0 5) ∧ (g.coreAt 3).stubs.find? (isStub 0x77 0) = some (stub none [])) ∧
    (head h (.handover 0x77 0 0 5 0 false 0) = some (.handover 0x77 0 0 5 0 false 0) ∧ (0 : Nat) ≠ countOnly) ∧
    (h.coreAt 3).ends.any (fun e => decide (e.ident = 0x77) && decide (e.gen = 0)) = true := by decide +kernel

/-- A run-queue entry of class `cls` and level 0. -/
def runEntry (cls : Nat) : RunEntry :=
  { kind := .spawned, cls := cls, level := 0, launchid := 0, gridpt := 0, griddim := 0, fseed := 0, tvec := 0, pc := 0x10000, xferid := 0, segleft := 0, tgenx := none, regs := [], poisoned := [], h0 := Handle.none, hadEnd := false, leases := [], since := 0, wdStart := 0 }

/-- Die 0's draw-counter unit with one range of launch record 1, and this body at its head. -/
def atDraw (b : Body) : State :=
  running.updDraw 0 (fun k => { k with ranges := [{ lrec := 1, order := 0, next := 0, stop := 1 }], q := [packet b] })

/-- O46: a Free slot with an entry and with indices to draw; requests, a steal, an index, the end of a launch; an old entry; a
summary that is due. -/
theorem witness_scheduling :
    let s := running.updCore 3 (fun k => { k with runq := [runEntry 3] })
    let d := atDraw (.draw 3 0 0)
    let n := toCore (.drawUnit 0) 0 (.drawn 0 none) running
    let g := toCore (.drawUnit 0) 0 (.drawn 0 (some (1, 0))) running
    let o := { s with mach.clock := 65537 }
    (s.freeSlot 3 = some 0 ∧ s.running.isSome = true ∧ s.stopped = false ∧ s.part.coreLive 3 = true ∧ s.mach.coStarts = [] ∧
      (nextEntry (s.coreAt 3).runq).map (·.1) = some (runEntry 3)) ∧
    (d.freeSlot 3 = some 0 ∧ nextEntry (d.coreAt 3).runq = none ∧ isCompute 3 = true ∧ (d.coreAt 3).drawing = none ∧
      (d.coreAt 3).idle = false ∧ d.indicesLeft = true ∧ d.part.coreLive 3 = true) ∧
    ((d.drawAt 0).q = [packet (.draw 3 0 0)] ∧ firstRange (d.drawAt 0).ranges = some { lrec := 1, order := 0, next := 0, stop := 1 }) ∧
    ((atDraw (.draw 3 0 3)).drawAt 0).q = [packet (.draw 3 0 (2 + 1))] ∧
    (n.headOf (keyTo (.drawUnit 0) 0)).map (·.body) = some (.drawn 0 none) ∧
    (g.headOf (keyTo (.drawUnit 0) 0)).map (·.body) = some (.drawn 0 (some (1, 0))) ∧
    ((o.coreAt 3).runq = [runEntry 3] ∧ 2 ≤ (runEntry 3).cls ∧ (runEntry 3).since + 65536 < o.mach.clock) ∧
    o.mach.summaryAt + 4096 ≤ o.mach.clock := by decide +kernel

/-- O46: an idle cluster beside a loaded one. -/
theorem witness_donation :
    let s := running.updCore 115 (fun k => { k with runq := [runEntry 1] })
    let s := (s.updCluster 0 (fun k => { k with mayDonate := true })).updCluster 1 (fun k => { k with load := 1 })
    s.stopped = false ∧ (1 : Nat) / 16 = 0 / 16 ∧ (s.clusterAt 0).mayDonate = true ∧ s.clusterLoad 0 = 0 ∧ s.clusterLoad 1 = 1 ∧
    ((List.range 64).all (fun x => decide ((s.clusterAt x).load ≤ (s.clusterAt 1).load))) = true ∧
    8 ≤ (((s.clusterCores 0).filter isCompute).map (fun y => ((List.range 4).filter (fun i => s.openSlot y i)).length)).sum := by
  decide +kernel

/-- O46: a task whose access waits to move it to module 1, before it has asked and with each answer; the same task on its way in;
a slot whose watchdog has run out; a wait that has. -/
theorem witness_task_moves :
    let s := (at3 []).upd (fun sl => { sl with phase := .stalled, task := { sl.task with move := some (1, 0x10000000000) } })
    let asked := fun r => { s with mach.asks := [({ core := 3, sl := 0, gen := 0, peer := 1, pa := 0x10000000000, answer := r } : Ask)] }
    let x : Transit := { core := 3, sl := 0, slot := some (s.slotAt 3 0) }
    let i := { running with mach.transits := [x] }
    let w := { at3 [] with mach.clock := 2 ^ 34 }
    let f := (at3 []).upd (fun sl => { sl with phase := .blocked (.wfi 0) })
    (s.wantsMove 3 0 = some (1, 0x10000000000) ∧ s.stopped = false ∧ s.mach.asks = []) ∧
    ((asked (some (some (7, 1)))).wantsMove 3 0 = some (1, 0x10000000000) ∧ (s.slotAt 3 0).gen = 0) ∧
    (asked (some none)).wantsMove 3 0 = some (1, 0x10000000000) ∧ (s.chain 8 0).all (fun k => !(s.levelAt k).dead) = true ∧
    (i.mach.transits = [x] ∧ (i.slotAt 3 0).phase = .free ∧ i.stopped = false ∧ isCompute 3 = true) ∧
    (0 < slotCount 3 ∧ (w.slotAt 3 0).phase ≠ .free ∧ (w.slotAt 3 0).task.expired = false ∧ w.stopped = false ∧
      2 ^ w.eqx.wdlog ≤ (w.slotAt 3 0).task.age w.mach.clock) ∧ (f.slotAt 3 0).phase = .blocked (.wfi 0) := by decide +kernel

/-- O47: sub-ring 3 of cluster 63, of 4 tiles, all of which have contributed. -/
theorem witness_step :
    let s := running.updCluster 63 (fun k => { k with ring := 4 })
    let s := [1020, 1021, 1022, 1023].foldl (fun s t => s.updTile t (fun q => { q with contributions := 1 })) s
    s.subRing 63 3 = [1020, 1021, 1022, 1023] ∧ 3 * (s.clusterAt 63).ring < 16 ∧ memoryWf s ∧
    ∀ x ∈ s.subRing 63 3, 0 < (s.tileAt x).contributions ∧ s.leaseFree x = true :=
  ⟨by decide +kernel, by decide +kernel, ⟨by decide +kernel, by decide +kernel, by decide +kernel, by decide +kernel,
    by decide +kernel⟩, by decide +kernel⟩

/-- Job slot 0 runs with 3 records; record 1 has this level and state. -/
def withRecord (v : Level) : State := (running.updJob (fun j => { j with hcount := 3, hbase := lpBase / 4096 })).updLevel 1 (fun _ => v)

/-- A 64-byte port write of this opcode word. -/
def portData (w : Nat) : VWord := BitVec.ofNat 512 (w * 2 ^ 64)

/-- O48: no job, a job that does not run, a record outside its table, starts that count down, that start and that come late. -/
theorem witness_starts :
    let two : Level := { Level.free with level := 2, state := 1, start := 2, count := 1 }
    let last : Level := { two with start := 1 }
    let launch : Level := { last with level := 1, grid := 0x0000100001000002 }
    let s := { withRecord two with jobs := (withRecord two).jobs ++ [(1, Job.none)] }
    let fenced := { s with part.fenced := [hashHome s.part (BitVec.ofNat 64 ((s.jobAt 0).tag.toNat * 2 ^ 48))] }
    (s.portFenced 0 1 = false ∧ s.portFenced 0 2 = false ∧ fenced.portFenced 0 0 = true ∧ fenced.keeps 0 = false) ∧
    AMap.get s.jobs 2 = none ∧ ((AMap.get s.jobs 1).isSome = true ∧ s.keeps 1 = true ∧ s.logFull 1 = false) ∧
    ((AMap.get s.jobs 0).isSome = true ∧ s.keeps 0 = false ∧ (s.jobAt 0).hcount ≤ 3) ∧ 2 < (s.jobAt 0).hcount ∧
    portOp (portData (0x20 * 2 ^ 56)) = 0x20 ∧ s.levelAt 1 = two ∧ (withRecord last).levelAt 1 = last ∧
    (withRecord launch).levelAt 1 = launch ∧ launch.cores = false ∧ s.part.dieTiles 3 ≠ [] ∧ (withRecord { last with state := 3 }).levelAt 1 = { last with state := 3 } := by
  decide +kernel

/-- O48: a record of level 2 that may be armed, one that runs already, a task write for core 3. -/
theorem witness_arms_and_tasks :
    let dram := Memory.puts (Memory.puts [] (lpBase + 64) (toBytes (2 * 2 ^ 58) 8)) (lpBase + 72) (toBytes 1 8)
    let s := { withRecord Level.free with dram := dram }
    let u := { withRecord { Level.free with state := 2 } with dram := dram }
    let s := s.beforeArm 1
    let r := (s.readRecord 1).1
    let d := portData (0x22 * 2 ^ 56 + 3 * 2 ^ 32 + 0x100)
    (s.portFenced 0 1 = false ∧ s.portFenced 0 0 = false) ∧
    (s.armable 1 r (s.readRecord 1).2 = true ∧ s.countFull r.parent = false ∧ s.cancelPending r.parent = false ∧
      (s.levelAt 1).state = 0 ∧ (s.levelAt 1).cp = false ∧ r.level ≠ 1 ∧ (s.levelAt 1).count < 2 ^ 32 ∧ r.start ≠ 0 ∧ r.parent ≠ 1) ∧
    u.armable 1 (u.readRecord 1).1 (u.readRecord 1).2 = false ∧ portOp (portData (0x21 * 2 ^ 56)) = 0x21 ∧
    (portOp d = 0x22 ∧ bitsOf (taskWord d).toNat 44 32 = 3 ∧ bitsOf (taskWord d).toNat 55 45 = 0 ∧ s.part.coreLive 3 = true ∧
      s.entered (bitsOf (taskWord d).toNat 31 0) 0 = true) := by decide +kernel

/-- O49: counts that fall to one and to zero, cancels of a level that runs and of one that is complete, a removal, a deadline with
a task left, a completion for channel H with and without an end. -/
theorem witness_levels :
    let phase : Level := { Level.free with level := 2, state := 2, count := 1 }
    let s := (((withRecord phase).updLevel 0 (fun v => { v with level := 4, state := 2, count := 2 })).updHome 1
      (fun q => { q with q := [packet (.count 1 false)] }))
    let c := { (at3 []).updLevel 1 (fun _ => { phase with cp := true, cpAt := some 0, cdl := 1 }) with mach.clock := 2 }
    let c := c.upd (fun sl => { sl with task := { sl.task with level := 1 } })
    let u := s.updHome 1 (fun q => { q with q := [packet (.count 1 true)] })
    let r := u.updLevel 1 (fun v => { v with count := 2 ^ 32 - 1 })
    let n := { running with mach.hQueue := [(1, 0)] }
    let h := { n with mach.hSend := handle .send }
    let g := { n with mach.hSend := { handle .send with dead := true } }
    (s.homeAt 1).q = [packet (.count 1 false)] ∧
    ((s.levelAt 1).count = 1 ∧ (s.levelAt 1).state = 2 ∧ (s.levelAt 1).tkind ≠ 2 ∧ (s.levelAt 1).parent ≠ 1 ∧
      2 ≤ (s.levelAt (s.levelAt 1).parent).count) ∧
    ((s.levelAt 1).owed = 0 ∧ ((s.updLevel 1 (fun v => { v with owed := 1 })).levelAt 1).owed ≠ 0) ∧
    (((s.freshen 1).levelAt 1).state ≠ 3 ∧ ((s.freshen 1).levelAt 1).cp = false ∧ ((s.freshen 1).levelAt 1).level ≠ 0) ∧
    (((running.freshen 1).levelAt 1).state = 0 ∧ ((running.freshen 1).levelAt 1).cp = false ∧ ((running.freshen 1).levelAt 1).level = 0) ∧
    ((c.freshen 1).levelAt 1).cp = true ∧
    ((atDraw (.removal 1 0)).drawAt 0).q = [packet (.removal 1 0)] ∧ ((u.homeAt 1).q ≠ [] ∧ n.hLives = false) ∧
    (s.updHome 1 (fun q => { q with q := [packet (.farCount (2 ^ 32 + 1) true)] })).levelNamed (2 ^ 32 + 1) ≠ 0 ∧
    ((c.levelAt 1).cpAt = some 0 ∧ c.doomed 1 ≠ [] ∧ 0 + 2 ^ (c.levelAt 1).cdl ≤ c.mach.clock) ∧
    c.stopped = false ∧ ((u.homeAt 1).q = [packet (.count 1 true)] ∧ (u.levelAt 1).count < 2 ^ 32 - 1) ∧
    ((r.homeAt 1).q = [packet (.count 1 true)] ∧ 2 ^ 32 - 1 ≤ (r.levelAt 1).count) ∧
    (n.mach.hQueue = [(1, 0)] ∧ n.ownH = none) ∧ (h.mach.hQueue = [(1, 0)] ∧ h.ownH.map (·.1) = some (handle .send) ∧
      (handle .send).dead = false ∧ 0 < (handle .send).credits) ∧
    (g.ownH.map (fun e => e.1.dead) = some true) := by decide +kernel

/-- The module booted, nothing else. -/
def booted (s : State) : State := { s with eqx := { s.eqx with ready := true, bootRan := true } }

def migration (switched : Bool) : Migration :=
  { old := 0x1000000, new := 0x1000001, peer := 0, switched := switched, undrained := [], far := [] }

/-- O50: an evaluation that is due, a migration before and after its switch, markers, seals, a page to walk, a shootdown. -/
theorem witness_placement :
    let s := { running with now := 2 ^ 20, migrations := [migration false] }
    let h := { atHome false (.dropMarker 3 0x1000000 0) with migrations := [migration true] }
    let q : SealReq := { on := true, status := 0, base := 0x40000000, len := 0x10000, treply := 1, core := 3, level := 0, far := [], ending := false }
    let x : Shoot := { base := 0x40000000, len := 0x10000, why := .seal, left := [.core 3], far := [], cores := 0 }
    let z := { running with shoots := [x] }
    (s.placeAt + 2 ^ 20 ≤ s.now ∧ (s.placeJobs [] [] (s.jobs.map (·.1))).isSome = true ∧ s.migrations.length ≤ 64) ∧
    (s.migrations.find? (fun m => m.old = 0x1000000 ∧ m.switched = false) = some (migration false) ∧
      (migration false).peer = s.part.peer ∧ 2 ^ 14 ≤ (migration false).new ∧ (migration false).new ≠ (migration false).old) ∧
    ((h.homeAt 1).q = [packet (.dropMarker 3 0x1000000 0)] ∧
      h.migrations.find? (fun m => m.old = 0x1000000 ∧ m.switched) = some (migration true)) ∧
    ((atHome false (.drainMarker { peer := 0, agent := .core 3 } 3 0 1)).homeAt 1).q ≠ [] ∧
    (({ running with mach.seals := [q] } : State).mach.seals = [q] ∧
      running.shoots.any (fun x => x.why = .seal ∧ x.base = q.base ∧ x.len = q.len) = false ∧
      running.movingIn q.base q.len = false) ∧
    ((walkState 0x5800010000100F00).running.isSome = true ∧ (walkState 0x5800010000100F00).part.coreLive 3 = true ∧
      (0x00001A404A375ABC#64).toNat < 2 ^ 56 ∧
      ((walkState 0x5800010000100F00).coreAt 3).dtlb.any (fun e => e.page = (0x00001A404A375ABC#64).toNat / 2 ^ 16) = false ∧
      (walked 0x5800010000100F00 .read).1 = some 0x010000105ABC) ∧
    (z.shoots.find? (fun x => x.base = 0x40000000 ∧ x.len = 0x10000 ∧ x.left.contains (.core 3)) = some x ∧
      z.inPage 3 0 0x1000000 = false) := by decide +kernel

theorem no_leaves {s : State} (h : s.mach.sram = []) (g : s.dram = []) : s.leaves = [] := by
  have e : ∀ j, s.leavesOf j = [] := fun j => by
    unfold State.leavesOf State.leavesFrom
    simp [State.entriesIn, h, g]
  simp [State.leaves, e]

/-- O50: the bytes of a page that migrates: a job whose tree of page tables maps nothing. -/
theorem witness_page_copy :
    let s := { running with migrations := [migration false] }
    memoryWf s ∧ s.leaves = [] :=
  ⟨⟨by decide +kernel, by decide +kernel, by decide +kernel, by decide +kernel, by decide +kernel⟩, no_leaves rfl rfl⟩

/-- A job record (Table 21-2) at the first byte of the LPDDR6 region, its window at 2^30 × `w1`. -/
def withJobRecord (w1 : Nat) : State :=
  let put := fun (m : Memory) (i w : Nat) => m.puts (lpBase + 8 * i) (toBytes w 8)
  booted { State.reset with
    dram := put (put (put (put [] 1 w1) 5 (1 * 2 ^ 40)) 8 (2 ^ 63)) 9 (16 * 2 ^ 40) }

/-- O51: a record that is accepted and one that is not, on an idle module and beside a job. -/
theorem witness_create :
    let s := withJobRecord (2 ^ 30)
    let t := booted { running with dram := s.dram }
    (s.eqx.ready = true ∧ AMap.get s.jobs 63 = none ∧ AMap.get s.ended 63 = none ∧ s.tagFree 1 = true ∧ s.jobs = [] ∧
      s.eqx.disable.any (fun e => !e.applied) = false ∧ lpBase + 128 ≤ lpBase + s.part.flatL ∧ lpBase % 8 = 0) ∧
    s.badField lpBase = none ∧ (withJobRecord 1).badField lpBase = some 1 ∧ (s.running = none ∧ s.switch = none) ∧
    (t.eqx.ready = true ∧ AMap.get t.jobs 1 = none ∧ t.tagFree 1 = true ∧ t.badField lpBase = none ∧ t.running ≠ none) := by
  decide +kernel

/-- O51: teardown's two steps, a switch out and in through its stages, invalidations, an attestation buffer. -/
theorem witness_commands :
    let s := booted running
    let tear := booted (running.updJob (fun j => { j with tearing := true }))
    let two := { s with jobs := s.jobs ++ [(1, Job.none)] }
    let w : Switch := { out := some 0, into := some 1, t := 50000, stage := 0, resumeAt := 50000, server := 0, left := [0], late := false }
    let at_ := fun (n : Nat) => { two with switch := some { w with stage := n } }
    let in_ := { two with running := none, switch := some { w with stage := 3 }, time := 50000 }
    AMap.get s.jobs 0 = some s.job ∧ s.switch = none ∧ s.job.tearing = false ∧
    (tear.job.tearing = true ∧ (tear.machOf 0).quiet = true ∧ ((tear.event 0 0 0).jobAt 0).evHeld ≠ []) ∧
    (two.timeOk 50000 = true ∧ two.running = some 0 ∧ (AMap.get two.jobs 1).isSome = true ∧ two.job.circ = none) ∧
    ((at_ 0).switch = some w ∧ (at_ 0).timeOk 50000 = true ∧ (at_ 0).time.toNat < w.t.toNat) ∧
    (({ at_ 0 with switch := some { w with late := true } } : State).timeOk 50000 = true ∧ w.server = two.part.peer ∧ w.left = [w.server] ∧
      two.job.circ = none ∧ (two.jobAt 0).hostLog = [] ∧ w.late = false) ∧
    (({ at_ 1 with switch := some { w with stage := 1, server := 5, left := [] } } : State).drained = true ∧ (5 : Peer) ≠ two.part.peer) ∧
    (w.t.toNat ≤ ({ at_ 0 with time := 50000 } : State).time.toNat) ∧ ((at_ 1).running = some 0 ∧ (at_ 1).drained = true) ∧
    (in_.time.toNat = 50000 ∧ (in_.jobAt 1).hostLog = [] ∧ (in_.jobAt 1).tearing = false) ∧
    ((0x40000000#64).toNat % 65536 = 0 ∧ two.running ≠ some 1 ∧ AMap.get two.jobs 2 = none) ∧
    (two.holders 0x40000000 0x10000 = [] ∧ two.others = [] ∧ two.shoots = []) ∧
    (booted (at3 [])).holders 0x10000 0x10000 ≠ [] ∧ 4096 % 4096 = 0 ∧
    (booted State.reset).jobs = [] := by decide +kernel

/-- A queue of 16 entries at the LPDDR6 base with this opcode word in its first, TAIL 1. -/
def withQueue (w : Nat) : State :=
  booted { running.updJob (fun j => { j with hcount := 1, queues := [(7, { HostQ.reset with base := BitVec.ofNat 64 lpBase, logn := 4, tail := 1 })] })
    with dram := Memory.puts [] (lpBase + 8) (toBytes w 8) }

/-- A fault record. -/
def faultRecord : FaultRec :=
  { jobid := 0, gen := 0, lane := 0, sev := 2, cause := 0x040, index := 0, addr := 0, stamp := 0, peer := 0, ukind := 0, slot := 0
    unit := 3, epc := 0, tval := 0, count := 0, slotted := true }

/-- O52: queue tails in and over their range, entries that no port takes and that one does, a slot parked by a fault and
one by `halt.slot`, rings with and without room, a full reserve. -/
theorem witness_host_writes :
    let s := withQueue (0x22 * 2 ^ 56)
    let two := { s with jobs := s.jobs ++ [(1, Job.none)] }
    let data := fun (s : State) =>
      (BitVec.ofNat 512 (ofBytes (s.ringBytes ((s.queueAt 0 7).base.toNat + 64 * ((s.queueAt 0 7).prog % 2 ^ (s.queueAt 0 7).logn)) 64)) : VWord)
    let e := fun (f : Eqx → Eqx) => f (booted running).eqx
    let p := booted ((at3 []).upd (fun sl => { sl with phase := .parked, held := some faultRecord }))
    let h := booted ((at3 []).upd (fun sl => { sl with phase := .parked, held := some { faultRecord with cause := 0x008 } }))
    let x := { p with switch := some { out := some 0, into := none, t := 0, stage := 1, resumeAt := 0, server := 0, left := [0], late := false } }
    let gone := { booted State.reset with ended := [(1, Job.none)] }
    let away := { two with saved := [(1, Mach.reset)], jobs := [(0, { Job.none with tag := 5 }), (1, Job.none)] }
    ((AMap.get s.jobs 0).isSome = true ∧ s.keeps 0 = false ∧ AMap.get s.ended 0 = none ∧ two.keeps 1 = true ∧ two.logFull 1 = false) ∧
    (AMap.get gone.ended 1 = some Job.none ∧ AMap.get gone.jobs 1 = none) ∧
    ((x.slotAt 3 0).phase = .parked ∧ x.stopped = true ∧ x.logFull 0 = false ∧ p.stopped = false) ∧
    (away.jobs.find? (fun e => decide (e.2.tag = faultRecord.jobid) && (AMap.get away.saved e.1).isSome)).map (·.1) = some 1 ∧
    (4 ≤ (s.queueAt 0 7).logn ∧ 2 ^ (s.queueAt 0 7).logn < (17 + 65536 - (s.queueAt 0 7).prog) % 65536) ∧
    (s.stopped = false ∧ (s.queueAt 0 7).off = false ∧ (s.queueAt 0 7).busy = false ∧ (s.queueAt 0 7).tail ≠ (s.queueAt 0 7).prog) ∧
    (portOp (data s) = 0x22 ∧ 0 < (s.jobAt 0).hcount) ∧ portOp (data (withQueue (0x1F * 2 ^ 56))) < 0x20 ∧
    ((p.slotAt 3 0).phase = .parked ∧ (p.slotAt 3 0).gen = 0 ∧ (p.slotAt 3 0).held.map (·.cause) ≠ some 0x008) ∧
    ((h.slotAt 3 0).phase = .parked ∧ (h.slotAt 3 0).gen = 0 ∧ (h.slotAt 3 0).held.map (·.cause) = some 0x008) ∧
    (e (fun q => { q with rqbase := 0x1004, lane0 := [faultRecord] })).rqRoom = true ∧
    (e (fun q => { q with rqbase := 0x1004, rqtail := 15, lane0 := [faultRecord] })).rqRoom = false ∧
    (e (fun q => { q with fqbase := 0x1004, fqtail := 15, lane1 := [faultRecord] })).fqRoom = true ∧
    (e (fun q => { q with fqbase := 0x1004, fqtail := 16, lane1 := [faultRecord] })).fqRoom = false ∧
    1024 ≤ (e (fun q => { q with reserve := List.replicate 1024 faultRecord })).reserve.length ∧
    (0 < 64 ∧ 0 + 64 ≤ s.part.flatL) := by decide +kernel

/-- A circ request of core 3 for plan 0. -/
def request : CircReq := { plan := 0, treply := 0, peer := 0, core := 3, level := 0 }

/-- It is being served by `server`, these agents' and modules' acknowledgements still to come; whether the new circuits are lit. -/
def serving (server : Peer) (waiting : List Agent) (far : List Peer) (at_ : Option Word) (lit : Bool) : State :=
  { running.updJob (fun j => { j with
    circ := some { req := request, server := server, waiting := waiting, far := far, refused := false, lightAt := at_, lit := lit
                   raised := false, asked := false, before := [] }
    planb := lpBase / 4096, nplan := 1 }) with dram := Memory.puts [] lpBase (toBytes (2 ^ 63) 8) }

/-- The same with the acknowledgement of core 3 at hand. -/
def acked (server : Peer) (waiting : List Agent) (far : List Peer) : State :=
  (serving server waiting far none false).post (.core 3) (running.here .equinox) 0 .holdAck 0 0

/-- With the plan's first entry malformed. -/
def spoiled (s : State) : State := { s with dram := s.dram.puts (lpBase + 8) [0x00, 0xE0] }

/-- O53: a request to take up; hold notices; acknowledgements that leave another agent or another module to wait for; a last one
with a plan that is malformed, that is accepted, and for another module's Equinox. -/
theorem witness_circuit_holds :
    let s := running.updJob (fun j => { j with circs := [request] })
    let n := toCore .equinox 0 .holdNotice running
    let g := running.post .equinox (running.here (.engine 1)) 0 .holdNotice 0 0
    let own := acked 0 [.core 3] []
    let other := acked 1 [.core 3] []
    (s.job.circs = [request] ∧ s.running.isSome = true ∧ s.job.circ = none ∧ s.switch = none) ∧
    (n.headOf (keyTo .equinox 0)).map (·.body) = some .holdNotice ∧
    (g.headOf { src := g.here .equinox, dst := g.here (.engine 1), cls := 0 }).map (·.body) = some .holdNotice ∧
    (((acked 0 [.core 3, .core 4] []).nextAck.map (·.src.agent) = some (.core 3)) ∧
      [Agent.core 3, .core 4].filter (fun a => a ≠ .core 3) ≠ [] ∧ [Agent.core 3].filter (fun a => a ≠ .core 3) = []) ∧
    (acked 0 [.core 3] [1]).nextAck.isSome = true ∧
    ((spoiled own).nextAck.isSome = true ∧ ((spoiled own).planOk (spoiled own).job 0).isNone = true) ∧
    ((own.planOk own.job 0).isSome = true ∧ own.litGroups.isEmpty = true) ∧
    ((1 : Peer) ≠ other.part.peer ∧ ((spoiled other).planOk (spoiled other).job 0).isNone = true) ∧
    ((other.planOk other.job 0).isSome = true ∧ other.litGroups.isEmpty = true) := by decide +kernel

/-- O53: the last module's word that it has raised its TGEN; a plan whose groups train. -/
theorem witness_plan_raised :
    let l := serving 0 [] [] (some 0) false
    let k : PairKey := { src := { peer := 1, agent := .equinox }, dst := l.here .equinox, cls := 0 }
    let up := (l.updJob (fun j => { j with circ := j.circ.map (fun c => { c with raised := true, far := [1] }) })).append k
      { body := .circRaised, src := { peer := 1, agent := .equinox }, job := 0, slot := 0, gen := 0 }
    up.job.circ.map (fun c => (c.raised, c.far)) = some (true, [1]) ∧ (up.headOf k).map (·.body) = some .circRaised ∧
    (up.headOf k).map (fun p => (p.job, p.src.peer)) = some (up.job.tag, 1) ∧
    (l.planOk l.job 0).map (fun gs => l.groupsTrain gs) = some true ∧ l.job.circ.map (·.raised) = some false := by decide +kernel

/-- O53: new circuits that another module's Equinox reports lit; a plan of the own one that is lit, refused and late. -/
theorem witness_plans :
    let o := (serving 1 [] [] (some 0) true).updJob (fun j => { j with circ := j.circ.map (fun c => { c with asked := true }) })
    let l := serving 0 [] [] (some 0) false
    let late := { l with time := 1000000000 }
    (o.job.circ.map (fun c => (c.lit, c.asked)) = some (true, true) ∧ o.streams = []) ∧
    (l.job.circ.map (fun c => (c.waiting, c.far, c.server, c.lightAt, c.lit)) = some ([], [], l.part.peer, some 0, false) ∧
      (l.planOk l.job 0).isSome = true ∧ l.time.toNat ≤ 0 + 1000000000 ∧ l.streams = [] ∧ request.treply.getLsbD 0 = false) ∧
    0 + 1000000000 ≤ late.time.toNat := by decide +kernel

/-- With another module, number 1, that runs the job, and its Equinox's word `b` at hand. -/
def answering (s : State) (b : Body) : State :=
  { s with peers := [(1, 96)] }.append
    { src := { peer := 1, agent := .equinox }, dst := s.here .equinox, cls := 0 }
    { body := b, src := { peer := 1, agent := .equinox }, job := s.job.tag, slot := 0, gen := 0 }

/-- O53: the answer of another module, which has lit its circuits or could not; the request to light them; a request that has another
module still to ask. -/
theorem witness_plan_away :
    let k : PairKey := { src := { peer := 1, agent := .equinox }, dst := running.here .equinox, cls := 0 }
    let own := answering (serving 0 [] [1] (some 0) true) (.circTrained true)
    let bad := answering (serving 0 [] [1] (some 0) true) (.circTrained false)
    let ask := answering (serving 1 [] [] (some 0) false) .circLight
    let at_ := fun (s : State) => (s.headOf k).map (fun p => (p.body, p.job, p.src.peer))
    (at_ own = some (.circTrained true, own.job.tag, 1) ∧ own.job.circ.map (fun c => (c.lit, c.far, c.raised)) = some (true, [1], false) ∧
      own.streams = [] ∧ own.others = [1]) ∧
    at_ bad = some (.circTrained false, bad.job.tag, 1) ∧
    (at_ ask = some (.circLight, ask.job.tag, 1) ∧ (ask.planOk ask.job 0).isSome = true) ∧
    ((answering (serving 0 [] [] (some 0) false) .circRaised).others ≠ []) := by decide +kernel

def flit0 : Flit :=
  { vc := 0, cvc := 0, cred := 0, dpeer := 0, speer := 1, eseq := 0, lseq := 0, lack := 0, ftype := 0, packets := [], arg := 0, check := 0 }

/-- O54: links that are up, flits in order, bad and seen before, a gap, a stream with an acknowledgement and with a copy that is
old, a lit group, a link with keys, a block, light to train. -/
theorem witness_links :
    let link : Link := { Link.reset with up := true, peer := 1 }
    let s := { booted running with links := [(0, link)], now := 2 ^ 18 }
    let gap := { s with links := [(0, { link with gapAt := some 0 })] }
    let copy := s.setStream { s.streamAt 1 5 with link := some 0, copies := [(flit0, 0)] }
    let ack := copy.append { src := { peer := 1, agent := .gateway 0 }, dst := s.here (.gateway 0), cls := 0 }
      { body := .e2eAck 5 0, src := { peer := 1, agent := .gateway 0 }, job := 0, slot := 0, gen := 0 }
    let lit := { s with links := [(48, { link with group := 1, liveRx := 0x8001 })] }
    let keyed := { s with links := [(0, { link with intNow := 1, flits := 2 ^ 32 + 7, keyAt := 7 })] }
    let data : Flit := { flit0 with packets := [(keyTo (.home 1) 4, packet (.ack none))] }
    let full := { s with links := [(0, { link with unacked := [data] })] }
    let block := { s with mach.blocks := [(0, [packet (.block 1 (Vector.replicate 6 0))])] }
    let moved := { s.setStream { s.streamAt 1 5 with link := some 1, copies := [] } with links := [(0, link)] }
    (onlyAcks data = false ∧ (s.streamAt 1 0).deliver = data.eseq ∧ (s.streamAt data.speer data.vc).early = [] ∧ s.saved = [] ∧
      data.packets = [packet (.ack none)].map (fun p => (keyTo (.home 1) 4, p)) ∧ (full.linkAt 0).unacked = [data]) ∧
    (lit.linkAt 48).lossAt ≠ some lit.now ∧
    ((s.linkAt 0).up = true ∧ (flit0.ftype = 0 ∧ flit0.lseq < 256 ∧ flit0.vc < 6 ∧ flit0.eseq < 1024) ∧
      flit0.lseq = ((s.linkAt 0).lack + 1) % 256 ∧ (s.linkAt 0).lack < 256 ∧ (s.linkAt 0).held = []) ∧
    128 ≤ (({ flit0 with lseq := 255 } : Flit).lseq + 255 - (s.linkAt 0).lack) % 256 ∧
    ((gap.linkAt 0).gapAt = some 0 ∧ 0 + 512 ≤ gap.now) ∧
    ((ack.e2eHead 1 5 0).isSome = true ∧ (ack.streamAt 1 5).copies.any (fun c => c.1.eseq = 0) = true) ∧
    ((copy.streamAt 1 5).copies = [(flit0, 0)] ∧ 0 + 2 ^ 18 ≤ copy.now ∧ (copy.linkAt 0).maySend 5 = true ∧ (0 : Nat) < 48) ∧
    data.packets.all (fun e => match e.2.body with | .snapshot .. => false | _ => true) = true ∧
    ((moved.streamAt 1 5).link = some 1 ∧ moved.linkFor 1 = some 0) ∧
    (lit.litGroupOf 0 = some 48 ∧ (lit.linkAt 48).liveRx.getLsbD 15 = true ∧ [0, 15].eraseDups = [0, 15]) ∧
    ((keyed.linkAt 0).intNow ≠ 0 ∧ (keyed.linkAt 0).keyAt + 2 ^ 32 ≤ (keyed.linkAt 0).flits) ∧
    ((AMap.get block.mach.blocks 0).getD [] = [packet (.block 1 (Vector.replicate 6 0))] ∧ (0 : BitVec 16) = block.job.tag ∧
      (0 : BitVec 16) ≠ (block.updJob (fun j => { j with tag := 1 })).job.tag ∧ (block.gatewaysOf 0)[1 % max 1 (block.gatewaysOf 0).length]? = some 7169 ∧
      ((block.coreAt 7169).queue 2).length < 16) ∧ (1 : Peer) ≠ s.part.peer ∧ 0xF &&& s.trainable 47 ≠ 0 := by decide +kernel

/-- O55: an error below its threshold, a window that is over, a boot without an image, a unit at its threshold, evaluations hot and
cold, a trip and its end. -/
theorem witness_reliability :
    let s := { running with now := 2 ^ 31, time := 10000 }
    let v := s.updUnit 3 5 (fun u => { u with window := u.thr - 1 })
    ((v.unitAt 3 5).declared = false ∧ (v.unitAt 3 5).thr ≤ (v.unitAt 3 5).window + 1 ∧ v.jobs ≠ [] ∧
      v.eqx.disable.length < 1024 ∧ v.eqx.disable.any (fun d => d.ukind = 3 ∧ d.unit = 5) = false) ∧
    let u := { State.reset with eqx := { State.reset.eqx with trip := some 0 }, time := 1000000 }
    (∀ u ∈ ({ failed := [(6, 1135)], light := [(3, 15)] } : Training).failed, unitExists u.1 u.2 = true) ∧
    (unitExists 6 1135 = true ∧ errorCauses.contains 0x1C6 = true ∧ (s.unitAt 6 1135).declared = false ∧
      (s.unitAt 6 1135).window + 1 < (s.unitAt 6 1135).thr) ∧
    ({ (running.updUnit 0 3 id) with now := 2 ^ 31 } : State).units.any (fun e => decide (e.ukind = 0 ∧ e.unit = 3 ∧
      e.windowAt < 2 ^ 31 / 2 ^ 31)) = true ∧ unitExists 0 3 = true ∧ State.reset.eqx.bootRan = false ∧
    imageCode 0 0 [] = 0x02 ∧ liveCount (0 : BitVec 1024) = 0 ∧ liveCount State.reset.fused.tiles ≠ 0 ∧
    s.eqx.evalAt.toNat + 10000 ≤ s.time.toNat ∧ (8 ≤ s.eqx.deliv ∧ s.eqx.deliv ≤ 64) ∧
    (s.eqx.limit < 3401 ∧ 100 * 3297 < 97 * s.eqx.limit ∧ 97 * s.eqx.limit ≤ 100 * 3298) ∧ State.reset.eqx.trip = none ∧
    (u.eqx.trip = some 0 ∧ 0 + 1000000 ≤ u.time.toNat) := by decide +kernel

/-- A firmware image without a body, whose header is otherwise zero (Table 27-2): its public key, and a signature of it whose
first number is that of the curve's base point, worked out apart from this model. -/
def imageOf : List Byte :=
  toBytes 0x45514E58 4 ++ List.replicate 60 0 ++
  toBytes 0xDED1836B04A4FBEB71BD08251CD1176AB759330482840DE7A2BC9BED6AD111E2 32 ++
  toBytes 0xEFC0F6F072E84D5EAD826EF8FEF9EBC035B11697F3CF97AC40C5205F58CA6D7A 32 ++
  toBytes 0x6B17D1F2E12C4247F8BCE6E563A440F277037D812DEB33A0F4A13945D898C296 32 ++
  toBytes 0x6B17D1F2E12C4247F8BCE6E563A440F277037D812DEB33A0F4A13945D898C296 32

/-- O55: that image is accepted where the fused hash is that of its key. -/
theorem witness_boot_accepts :
    imageCode 0xE06FD31E163A267E306529326C44666224CB2CEA9A6146ACF9B4C0678EE76388 0 imageOf = 0 := by decide +kernel

/-- SHA-256 of the bytes of "abc" (the first example of FIPS 180-4). -/
theorem test_sha256 :
    sha256 [0x61, 0x62, 0x63] = 0xBA7816BF8F01CFEA414140DE5DAE2223B00361A396177A9CB410FF61F20015AD := by decide +kernel

/-- O56: a core's turn with its word in place, and with a PC that is not mapped. -/
theorem witness_step_runs :
    let s := running.withFetchWord 32 0xEC000000
    let t := { running.withFetchWord 32 0xEC000000 with turns := [{ cycles := 5, act := .issue 3 [] }] }
    let p := { s with turns := [] }.pass 0
    let q := { p with cur := (3, 0) }
    let far := q.updSlotAt 3 0 (fun sl => { sl with pc := 0x30000 })
    (s.eqx.rails = true ∧ s.turns = [{ cycles := 0, act := .issue 3 [] }] ∧ t.turns.length = 1) ∧
    (p.stopped = false ∧ p.part.coreLive 3 = true ∧ (p.coreAt 3).issuedAt ≠ some p.now ∧ p.order 3 [] = [0] ∧ q.slot.asyncReady = false) ∧
    ((match (q.fetch 3 q.slot.pc).2 with | .ok w => decode w | _ => .undefined) = .ok .nop ∧ Instr.nop.wf = true) ∧
    (match (far.fetch 3 far.slot.pc).2 with | .bad cause ix _ => some (cause, ix) | _ => none) = some (0x040, 0) := by decide +kernel

/-- O59: a step of a state whose memories are in canonical form, to a next state. -/
theorem witness_canonical_step :
    memoryWf (running.withFetchWord 32 0x08200005) ∧ ∃ t, step (running.withFetchWord 32 0x08200005) = .next t :=
  ⟨⟨by decide +kernel, by decide +kernel, by decide +kernel, by decide +kernel, by decide +kernel⟩, next_of (by decide +kernel)⟩

/-- O58: a well-formed instruction of each format has its word, and that word decodes to it. -/
theorem witness_encode :
    encode (.add 1 2 3 1) = some 0x04221C00 ∧ (encode (.chsend 1 2 3)).map decode = some (.ok (.chsend 1 2 3)) ∧
    (Instr.chsend 1 2 3).wf = true ∧ (encode (.deliver (keyTo .host 0))) = none := by decide +kernel


/-- AES-128-GMAC under a zero key and IV of no bytes (the first test case of the GCM submission to NIST). -/
theorem test_gmac : gmac 0 0 [] = 0x58E2FCCEFA7E3061367F1D57A4E7455A := by decide +kernel

end Sys2Proof.Tests
end

