-- ==== Sys2Proof/Proofs/MemoryWf.lean ====
section
/-! PROOFS. O59: the memories stay in canonical form (log 4). Every write to one of them goes through an operation of
`Memory` that keeps the form (Laws/Map), so each operation of the state keeps `memoryWf`: one lemma per operation, in the
order of the model's files, each from the lemmas of the operations that its definition calls. `Keeps` says the same of an
outcome, and `exec_keeps` collects the instructions. -/

namespace Sys2Proof.Machine

open Sys2Proof Sys2Proof.Safety

variable {s : State}

/-! ### The saved slices, and states through folds and choices -/

/-- The saved slices of the jobs that are switched out are in canonical form: the last clause of `memoryWf`. -/
def savedWf (l : AMap Mach) : Prop := ∀ e ∈ l, e.2.sram.wf = true

theorem memoryWf_iff :
    memoryWf s ↔ s.mach.sram.wf = true ∧ s.dram.wf = true ∧ s.host.wf = true ∧ s.eqx.mailbox.wf = true ∧ savedWf s.saved :=
  Iff.rfl

theorem savedWf.get {l : AMap Mach} (h : savedWf l) {j : Nat} {m : Mach} (hj : AMap.get l j = some m) :
    m.sram.wf = true := by
  induction l with
  | nil => cases hj
  | cons e t ih =>
    obtain ⟨k, v⟩ := e
    rw [AMap.get] at hj
    split at hj
    · cases hj; exact h _ List.mem_cons_self
    · exact ih (fun e he => h e (List.mem_cons_of_mem _ he)) hj

theorem savedWf.getD {l : AMap Mach} (h : savedWf l) (j : Nat) : ((AMap.get l j).getD Mach.reset).sram.wf = true := by
  cases hj : AMap.get l j with
  | none => rfl
  | some m => exact h.get hj

theorem savedWf.set {l : AMap Mach} (h : savedWf l) (j : Nat) {m : Mach} (hm : m.sram.wf = true) :
    savedWf (AMap.set l j m) := by
  intro e he
  rcases AMap.mem_set he with rfl | he
  · exact hm
  · exact h e he

theorem savedWf.del {l : AMap Mach} (h : savedWf l) (j : Nat) : savedWf (AMap.del l j) :=
  fun e he => h e (List.mem_filter.mp he).1

/-- A next state has its memories in canonical form; a fault or a refusal gives no state. -/
def Keeps (o : Out) : Prop := match o with | .next t => memoryWf t | _ => True

theorem foldl_memoryWf {α : Type} {f : State → α → State} (hf : ∀ s a, memoryWf s → memoryWf (f s a)) (h : memoryWf s)
    (l : List α) : memoryWf (l.foldl f s) := by
  induction l generalizing s with
  | nil => exact h
  | cons a t ih => exact ih (hf s a h)

theorem foldl_fst_memoryWf {α β : Type} {f : State × β → α → State × β} (hf : ∀ p a, memoryWf p.1 → memoryWf (f p a).1)
    {p : State × β} (h : memoryWf p.1) (l : List α) : memoryWf (l.foldl f p).1 := by
  induction l generalizing p with
  | nil => exact h
  | cons a t ih => exact ih (hf p a h)

theorem ite_keeps {p : Prop} [Decidable p] {a b : Out} (ha : Keeps a) (hb : Keeps b) : Keeps (if p then a else b) := by
  split <;> assumption

theorem foldl_option_memoryWf {α : Type} {f : State → α → Option State}
    (hf : ∀ u a, memoryWf u → ∀ t, f u a = some t → memoryWf t) (l : List α) {o : Option State}
    (h : ∀ t, o = some t → memoryWf t) : ∀ t, l.foldl (fun o a => o.bind fun u => f u a) o = some t → memoryWf t := by
  induction l generalizing o with
  | nil => exact h
  | cons a r ih =>
    refine ih fun t ht => ?_
    obtain ⟨u, hu, ht⟩ := Option.bind_eq_some_iff.mp ht
    exact hf u a (h u hu) t ht

theorem mapD_memoryWf {α : Type} {f : α → State} (hf : ∀ a, memoryWf (f a)) (h : memoryWf s) (o : Option α) :
    memoryWf ((o.map f).getD s) := by
  cases o with
  | none => exact h
  | some a => exact hf a

theorem ite_memoryWf {p : Prop} [Decidable p] {a b : State} (ha : memoryWf a) (hb : memoryWf b) :
    memoryWf (if p then a else b) := by
  split <;> assumption

theorem some_memoryWf (h : memoryWf s) : ∀ t, some s = some t → memoryWf t :=
  fun _ ht => Option.some.inj ht ▸ h

theorem none_memoryWf : ∀ t : State, none = some t → memoryWf t :=
  fun t ht => absurd ht.symm (Option.some_ne_none t)

theorem ite_some_memoryWf {p : Prop} [Decidable p] {a b : Option State} (ha : ∀ t, a = some t → memoryWf t)
    (hb : ∀ t, b = some t → memoryWf t) : ∀ t, (if p then a else b) = some t → memoryWf t := by
  split <;> assumption

/-! ### Operations on memories -/

theorem reset_sram_wf : Mach.reset.sram.wf = true := rfl

theorem Memory.foldl_wf {α : Type} {f : Memory → α → Memory} (hf : ∀ m a, m.wf = true → (f m a).wf = true) {m : Memory}
    (h : m.wf = true) (l : List α) : Memory.wf (l.foldl f m) = true :=
  List.foldlRecOn (motive := fun m => Memory.wf m = true) l f h fun m hm a _ => hf m a hm

theorem Memory.fill_wf {m : Memory} (h : m.wf = true) (a n choice : Nat) : (m.fill a n choice).wf = true :=
  Memory.puts_wf h ..

theorem Memory.moveCells_wf {old new : Memory} (ho : old.wf = true) (hn : new.wf = true) (a b n : Nat) :
    Memory.wf (moveCells old a b n new) = true :=
  Memory.foldl_set_wf (fun k => k - a + b) _ hn fun c hc => ((Memory.wf_iff old).mp ho).2 c (List.mem_filter.mp hc).1

theorem Memory.resliced_wf {w : Nat} {m : Memory} (h : m.wf = true) (base size : Nat) (old new : BitVec w) :
    (resliced base size old new m).wf = true := by
  unfold resliced
  split
  · exact h
  · refine Memory.foldl_wf (fun _ _ hm => ?_) (Memory.filter_wf h _) _
    dsimp only
    split
    · exact Memory.put_wf hm ..
    · exact hm

theorem Mach.putRegions_wf {d : Memory} (h : d.wf = true) (m : Mach) (t a choice : Nat) :
    (m.putRegions t a choice d).wf = true := by
  unfold Mach.putRegions
  grind [Memory.foldl_wf, Memory.fill_wf]

theorem Mach.putTile_wf {d : Memory} (h : d.wf = true) (m : Mach) (t a choice : Nat) :
    (m.putTile t a choice d).wf = true := by
  unfold Mach.putTile
  grind [Memory.foldl_wf, Memory.fill_wf, Memory.put_wf, Memory.puts_wf, Mach.putRegions_wf]

theorem newMach_sram_wf (p tag) : (newMach p tag).sram.wf = true := rfl

/-! ### The named operations over the state -/

theorem State.setSlotAt_memoryWf (h : memoryWf s) (c l sl) : memoryWf (s.setSlotAt c l sl) := h
theorem State.updSlotAt_memoryWf (h : memoryWf s) (c l f) : memoryWf (s.updSlotAt c l f) := h
theorem State.upd_memoryWf (h : memoryWf s) (f) : memoryWf (s.upd f) := h
theorem State.setCore_memoryWf (h : memoryWf s) (c k) : memoryWf (s.setCore c k) := h
theorem State.updCore_memoryWf (h : memoryWf s) (c f) : memoryWf (s.updCore c f) := h
theorem State.updTile_memoryWf (h : memoryWf s) (t f) : memoryWf (s.updTile t f) := h
theorem State.updHome_memoryWf (h : memoryWf s) (hm f) : memoryWf (s.updHome hm f) := h
theorem State.updEngine_memoryWf (h : memoryWf s) (e f) : memoryWf (s.updEngine e f) := h
theorem State.updCluster_memoryWf (h : memoryWf s) (c f) : memoryWf (s.updCluster c f) := h
theorem State.updDraw_memoryWf (h : memoryWf s) (d f) : memoryWf (s.updDraw d f) := h
theorem State.updJobAt_memoryWf (h : memoryWf s) (j f) : memoryWf (s.updJobAt j f) := h

theorem State.showCounts_memoryWf (h : memoryWf s) (j) : memoryWf (s.showCounts j) := by
  grind [State.showCounts, memoryWf_iff, Memory.puts_wf]

theorem State.updJob_memoryWf (h : memoryWf s) (f) : memoryWf (s.updJob f) := h
theorem State.updUnit_memoryWf (h : memoryWf s) (k u f) : memoryWf (s.updUnit k u f) := h
theorem State.logWrite_memoryWf (h : memoryWf s) (c l reg v) : memoryWf (s.logWrite c l reg v) := h
theorem State.setXAt_memoryWf (h : memoryWf s) (c l r v) : memoryWf (s.setXAt c l r v) := h
theorem State.setVAt_memoryWf (h : memoryWf s) (c l r v) : memoryWf (s.setVAt c l r v) := h
theorem State.setX_memoryWf (h : memoryWf s) (r v) : memoryWf (s.setX r v) := h
theorem State.setV_memoryWf (h : memoryWf s) (r v) : memoryWf (s.setV r v) := h
theorem State.setM_memoryWf (h : memoryWf s) (r v) : memoryWf (s.setM r v) := h
theorem State.setHAt_memoryWf (h : memoryWf s) (c l r hm) : memoryWf (s.setHAt c l r hm) := h
theorem State.setH_memoryWf (h : memoryWf s) (r hm) : memoryWf (s.setH r hm) := h
theorem State.retire_memoryWf (h : memoryWf s) : memoryWf s.retire := h
theorem State.jump_memoryWf (h : memoryWf s) (t) : memoryWf (s.jump t) := h
theorem State.stall_memoryWf (h : memoryWf s) : memoryWf s.stall := h

theorem State.rawPut_memoryWf (h : memoryWf s) (pa bs) : memoryWf (s.rawPut pa bs) := by
  grind [State.rawPut, memoryWf_iff, Memory.puts_wf]

theorem State.store_memoryWf (h : memoryWf s) (pa bs) : memoryWf (s.store pa bs) := by
  grind [State.store, memoryWf_iff, State.rawPut_memoryWf, foldl_memoryWf]

theorem State.poisonGranule_memoryWf (h : memoryWf s) (g k) : memoryWf (s.poisonGranule g k) :=
  State.rawPut_memoryWf h ..

theorem State.setFull_memoryWf (h : memoryWf s) (g b) : memoryWf (s.setFull g b) := h
theorem State.append_memoryWf (h : memoryWf s) (key p) : memoryWf (s.append key p) := h
theorem State.popNet_memoryWf (h : memoryWf s) (key) : memoryWf (s.popNet key) := h
theorem State.post_memoryWf (h : memoryWf s) (src dst cls b slot gen) : memoryWf (s.post src dst cls b slot gen) := h

theorem State.access_memoryWf (h : memoryWf s) (home peer b) : memoryWf (s.access home peer b) := by
  grind [State.access, State.updHome_memoryWf, State.append_memoryWf]

theorem State.setLevel_memoryWf (h : memoryWf s) (k v) : memoryWf (s.setLevel k v) := by
  grind [State.setLevel, memoryWf_iff, State.rawPut_memoryWf]

theorem State.updLevel_memoryWf (h : memoryWf s) (k f) : memoryWf (s.updLevel k f) := State.setLevel_memoryWf h ..

theorem State.sendCount_memoryWf (h : memoryWf s) (c k up) : memoryWf (s.sendCount c k up) := by
  grind [State.sendCount, State.post_memoryWf]

theorem State.emit_memoryWf (h : memoryWf s) (r) : memoryWf (s.emit r) := by
  grind [State.emit, memoryWf_iff]

theorem State.takeTrap_memoryWf (h : memoryWf s) (c l cause tval epc async index addr) :
    memoryWf (s.takeTrap c l cause tval epc async index addr) := by
  grind [State.takeTrap, State.updSlotAt_memoryWf, State.emit_memoryWf]

theorem State.trap_keeps (h : memoryWf s) (cause tval) : Keeps (s.trap cause tval) := State.takeTrap_memoryWf h ..

theorem State.trapIdx_keeps (h : memoryWf s) (cause index tval) : Keeps (s.trapIdx cause index tval) :=
  State.takeTrap_memoryWf h ..

theorem State.eret_keeps (h : memoryWf s) : Keeps s.eret := by
  grind [State.eret, Keeps, State.trap_keeps, State.jump_memoryWf]

theorem State.wakeSlot_memoryWf (h : memoryWf s) (c l) : memoryWf (s.wakeSlot c l) := h

theorem State.pushLoadCause_memoryWf (h : memoryWf s) (c l pa) : memoryWf (s.pushLoadCause c l pa) := by
  grind [State.pushLoadCause, State.emit_memoryWf, State.wakeSlot_memoryWf, State.updSlotAt_memoryWf]

theorem State.wakeCore_memoryWf (h : memoryWf s) (c) : memoryWf (s.wakeCore c) := by
  grind [State.wakeCore, State.wakeSlot_memoryWf, foldl_memoryWf]

theorem State.event_memoryWf (h : memoryWf s) (j w0 w1) : memoryWf (s.event j w0 w1) := by
  grind [State.event, memoryWf_iff, Memory.puts_wf, State.updJobAt_memoryWf]

theorem State.eqxEvent_memoryWf (h : memoryWf s) (w0 w1 w2) : memoryWf (s.eqxEvent w0 w1 w2) := h
theorem State.updLink_memoryWf (h : memoryWf s) (n f) : memoryWf (s.updLink n f) := h
theorem State.mapElec_memoryWf (h : memoryWf s) : memoryWf s.mapElec := h

theorem State.linkDown_memoryWf (h : memoryWf s) (n) : memoryWf (s.linkDown n) := by
  grind [State.linkDown, memoryWf_iff, State.updLink_memoryWf, State.mapElec_memoryWf, foldl_memoryWf]

theorem State.emitFlit_memoryWf (h : memoryWf s) (n f) : memoryWf (s.emitFlit n f) := h

theorem State.sendControl_memoryWf (h : memoryWf s) (n type arg) : memoryWf (s.sendControl n type arg) :=
  State.emitFlit_memoryWf (State.updLink_memoryWf h ..) ..

theorem State.checkDark_memoryWf (h : memoryWf s) (n) : memoryWf (s.checkDark n) := by
  grind [State.checkDark, State.linkDown_memoryWf]

theorem State.dropWave_memoryWf (h : memoryWf s) (n w) : memoryWf (s.dropWave n w) := by
  grind [State.dropWave, State.updLink_memoryWf, State.sendControl_memoryWf, State.checkDark_memoryWf]

theorem State.fence_memoryWf (h : memoryWf s) (k u) : memoryWf (s.fence k u) := by
  grind [State.fence, memoryWf_iff, State.linkDown_memoryWf, State.dropWave_memoryWf]

theorem State.declareUnit_memoryWf (h : memoryWf s) (k u) : memoryWf (s.declareUnit k u) := by
  grind [State.declareUnit, memoryWf_iff, State.fence_memoryWf, State.updUnit_memoryWf, State.emit_memoryWf]

theorem State.countError_memoryWf (h : memoryWf s) (k u) : memoryWf (s.countError k u) := by
  grind [State.countError, State.updUnit_memoryWf, State.declareUnit_memoryWf]

theorem notEnabled_keeps (name) : Keeps (notEnabled name) := by
  grind [notEnabled, Keeps]

theorem State.appendLog_memoryWf (h : memoryWf s) (j w) : memoryWf (s.appendLog j w) := by
  grind [State.appendLog, memoryWf_iff, Memory.puts_wf, State.updJobAt_memoryWf]

/-! ### What an instruction needs before its effect, in the order of R98, R14, R23 and R13 -/

theorem issue_keeps (h : memoryWf s) (i n k) (hk : ∀ x0, memoryWf x0 → Keeps (k x0)) : Keeps (issue i n k s) := by
  grind [issue, Keeps, State.trap_keeps, State.stall_memoryWf]

theorem writeX_keeps (h : memoryWf s) (i n d f) : Keeps (writeX i n d f s) := by
  grind [writeX, Keeps, issue_keeps, State.retire_memoryWf, State.setX_memoryWf]

theorem toPeer_keeps (h : memoryWf s) (peer t k) (hk : ∀ x0, memoryWf x0 → Keeps (k x0)) :
    Keeps (toPeer peer t k s) := by
  grind [toPeer, Keeps, State.stall_memoryWf, State.trap_keeps]

theorem toPeers_keeps (h : memoryWf s) (t k l) (hk : ∀ u, memoryWf u → Keeps (k u)) : Keeps (toPeers t k l s) := by
  induction l generalizing s with
  | nil => exact hk s h
  | cons p r ih => exact toPeer_keeps h p t _ fun _ hu => ih hu

/-! ### Delivery at an instruction boundary -/

theorem execAsyncCauseDelivery_keeps (h : memoryWf s) (c l) : Keeps (execAsyncCauseDelivery c l s) := by
  grind [execAsyncCauseDelivery, Keeps, notEnabled_keeps, State.takeTrap_memoryWf, State.updSlotAt_memoryWf,
    State.updCore_memoryWf]

theorem execUndefinedInstruction_keeps (h : memoryWf s) (w) : Keeps (execUndefinedInstruction w s) := by
  grind [execUndefinedInstruction, notEnabled_keeps, State.trap_keeps]

/-! ### Address translation -/

theorem State.lookup_memoryWf (h : memoryWf s) (c va fetch) : memoryWf (s.lookup c va fetch).1 := by
  grind [State.lookup, State.updCore_memoryWf, State.updCluster_memoryWf]

theorem State.translate_memoryWf (h : memoryWf s) (c va kind) : memoryWf (s.translate c va kind).1 := by
  grind [State.translate, State.lookup_memoryWf]

theorem State.awaitMove_memoryWf (h : memoryWf s) (x) : memoryWf (s.awaitMove x) := h

theorem toPage_keeps (h : memoryWf s) (x k) (hk : ∀ x0, memoryWf x0 → Keeps (k x0)) : Keeps (toPage x k s) := by
  grind [toPage, Keeps, State.awaitMove_memoryWf, toPeer_keeps]

theorem withXl_keeps (h : memoryWf s) (va kind k) (hk : ∀ x0 x1, memoryWf x1 → Keeps (k x0 x1)) :
    Keeps (withXl va kind k s) := by
  grind [withXl, State.translate_memoryWf, State.trapIdx_keeps]

theorem State.holdWord_memoryWf (h : memoryWf s) (c key w) : memoryWf (s.holdWord c key w) := h
theorem State.setPage_memoryWf (h : memoryWf s) (r) : memoryWf (s.setPage r) := h

theorem State.countPage_memoryWf (h : memoryWf s) (pa src n) : memoryWf (s.countPage pa src n) := by
  grind [State.countPage, State.setPage_memoryWf]

theorem State.countPref_memoryWf (h : memoryWf s) (pa src) : memoryWf (s.countPref pa src) := by
  grind [State.countPref, State.post_memoryWf, State.countPage_memoryWf]

theorem State.askWord_memoryWf (h : memoryWf s) (c l x key) : memoryWf (s.askWord c l x key) := by
  grind [State.askWord, State.updCore_memoryWf, State.updHome_memoryWf, State.append_memoryWf]

theorem State.fetchNew_memoryWf (h : memoryWf s) (c l x key) : memoryWf (s.fetchNew c l x key).1 := by
  grind [State.fetchNew, State.countPage_memoryWf, State.holdWord_memoryWf, State.askWord_memoryWf]

theorem State.fetch_memoryWf (h : memoryWf s) (c pc) : memoryWf (s.fetch c pc).1 := by
  grind [State.fetch, memoryWf_iff, State.translate_memoryWf, State.awaitMove_memoryWf, State.fetchNew_memoryWf]

theorem State.prefetch_memoryWf (h : memoryWf s) (c va) : memoryWf (s.prefetch c va) := by
  grind [State.prefetch, State.translate_memoryWf, State.fetchNew_memoryWf]

/-! ### Address arithmetic, major 0x0C -/

theorem execLea_keeps (h : memoryWf s) (d a b sc) : Keeps (execLea d a b sc s) := writeX_keeps h ..

theorem execGaform_keeps (h : memoryWf s) (d a b) : Keeps (execGaform d a b s) := by
  grind [execGaform, writeX_keeps]

theorem execGatile_keeps (h : memoryWf s) (d a) : Keeps (execGatile d a s) := by
  grind [execGatile, writeX_keeps]

theorem execPadd_keeps (h : memoryWf s) (d a b) : Keeps (execPadd d a b s) := writeX_keeps h ..

theorem execGahome_keeps (h : memoryWf s) (d a) : Keeps (execGahome d a s) := by
  grind [execGahome, Keeps, issue_keeps, withXl_keeps, State.retire_memoryWf, State.setX_memoryWf]

/-! ### Loads, stores, full/empty access and ring queues -/

theorem withAccess_keeps (h : memoryWf s) (va len write k) (hk : ∀ x0 x1, memoryWf x1 → Keeps (k x0 x1)) :
    Keeps (withAccess va len write k s) := by
  grind [withAccess, withXl_keeps, State.trap_keeps, toPage_keeps]

theorem State.sendLoad_memoryWf (h : memoryWf s) (x d b) : memoryWf (s.sendLoad x d b) :=
  State.access_memoryWf (State.upd_memoryWf h ..) ..

theorem loadForm_keeps (h : memoryWf s) (i reads w d sgn size va) : Keeps (loadForm i reads w d sgn size va s) := by
  grind [loadForm, Keeps, issue_keeps, State.trap_keeps, withAccess_keeps, State.retire_memoryWf,
    State.sendLoad_memoryWf]

theorem State.putStore_memoryWf (h : memoryWf s) (x kind len data) :
    ∀ t, s.putStore x kind len data = some t → memoryWf t := by
  grind [State.putStore, State.access_memoryWf, State.upd_memoryWf, State.updCore_memoryWf, Option.map_eq_some_iff]

theorem State.sendStore_keeps (h : memoryWf s) (x kind len data k) (hk : ∀ x0, memoryWf x0 → memoryWf (k x0)) :
    Keeps (s.sendStore x kind len data k) := by
  grind [State.sendStore, Keeps, State.putStore_memoryWf, State.stall_memoryWf, State.retire_memoryWf]

theorem storeForm_keeps (h : memoryWf s) (i reads w src size va) : Keeps (storeForm i reads w src size va s) := by
  grind [storeForm, issue_keeps, State.trap_keeps, withAccess_keeps, State.sendStore_keeps, State.retire_memoryWf]

theorem execLd_keeps (h : memoryWf s) (d a w z o) : Keeps (execLd d a w z o s) := loadForm_keeps h ..
theorem execLdS_keeps (h : memoryWf s) (d a w z o) : Keeps (execLdS d a w z o s) := loadForm_keeps h ..
theorem execSt_keeps (h : memoryWf s) (r a w z o) : Keeps (execSt r a w z o s) := storeForm_keeps h ..
theorem execLdIndexed_keeps (h : memoryWf s) (d a b w z) : Keeps (execLdIndexed d a b w z s) := loadForm_keeps h ..
theorem execLdSIndexed_keeps (h : memoryWf s) (d a b w z) : Keeps (execLdSIndexed d a b w z s) := loadForm_keeps h ..
theorem execStIndexed_keeps (h : memoryWf s) (r a b w z) : Keeps (execStIndexed r a b w z s) := storeForm_keeps h ..

theorem feLoad_keeps (h : memoryWf s) (i reads w d take size va) : Keeps (feLoad i reads w d take size va s) := by
  grind [feLoad, Keeps, issue_keeps, State.trap_keeps, withXl_keeps, State.retire_memoryWf, State.sendLoad_memoryWf,
    State.upd_memoryWf]

theorem feStore_keeps (h : memoryWf s) (i reads w src size va) : Keeps (feStore i reads w src size va s) := by
  grind [feStore, issue_keeps, State.trap_keeps, withXl_keeps, State.sendStore_keeps, State.upd_memoryWf]

theorem execLdFeKeep_keeps (h : memoryWf s) (d a w z o) : Keeps (execLdFeKeep d a w z o s) := feLoad_keeps h ..
theorem execLdFeTake_keeps (h : memoryWf s) (d a w z o) : Keeps (execLdFeTake d a w z o s) := feLoad_keeps h ..
theorem execStFe_keeps (h : memoryWf s) (r a w z o) : Keeps (execStFe r a w z o s) := feStore_keeps h ..

theorem execLdFeKeepIndexed_keeps (h : memoryWf s) (d a b w z) : Keeps (execLdFeKeepIndexed d a b w z s) :=
  feLoad_keeps h ..

theorem execLdFeTakeIndexed_keeps (h : memoryWf s) (d a b w z) : Keeps (execLdFeTakeIndexed d a b w z s) :=
  feLoad_keeps h ..

theorem execStFeIndexed_keeps (h : memoryWf s) (r a b w z) : Keeps (execStFeIndexed r a b w z s) := feStore_keeps h ..

theorem feBit_keeps (h : memoryWf s) (i a b kind) : Keeps (feBit i a b kind s) := by
  grind [feBit, memoryWf_iff, issue_keeps, withXl_keeps, State.trap_keeps, State.sendStore_keeps, State.retire_memoryWf]

theorem execFeSet_keeps (h : memoryWf s) (a b) : Keeps (execFeSet a b s) := feBit_keeps h ..
theorem execFeClr_keeps (h : memoryWf s) (a b) : Keeps (execFeClr a b s) := feBit_keeps h ..
theorem State.setRing_memoryWf (h : memoryWf s) (t n r) : memoryWf (s.setRing t n r) := h

theorem execQpush_keeps (h : memoryWf s) (a n) : Keeps (execQpush a n s) := by
  grind [execQpush, Keeps, issue_keeps, State.stall_memoryWf, State.setRing_memoryWf, State.retire_memoryWf]

theorem execQpop_keeps (h : memoryWf s) (d n) : Keeps (execQpop d n s) := by
  grind [execQpop, Keeps, issue_keeps, State.stall_memoryWf, State.upd_memoryWf, State.setRing_memoryWf,
    State.retire_memoryWf, State.post_memoryWf]

/-! ### Atomics -/

theorem atomicForm_keeps (h : memoryWf s) (i op d a b w z) : Keeps (atomicForm i op d a b w z s) := by
  grind [atomicForm, Keeps, issue_keeps, State.trap_keeps, withAccess_keeps, State.retire_memoryWf,
    State.sendLoad_memoryWf]

theorem execAadd_keeps (h : memoryWf s) (d a b w z) : Keeps (execAadd d a b w z s) := atomicForm_keeps h ..
theorem execAand_keeps (h : memoryWf s) (d a b w z) : Keeps (execAand d a b w z s) := atomicForm_keeps h ..
theorem execAor_keeps (h : memoryWf s) (d a b w z) : Keeps (execAor d a b w z s) := atomicForm_keeps h ..
theorem execAxor_keeps (h : memoryWf s) (d a b w z) : Keeps (execAxor d a b w z s) := atomicForm_keeps h ..
theorem execAmin_keeps (h : memoryWf s) (d a b w z) : Keeps (execAmin d a b w z s) := atomicForm_keeps h ..
theorem execAmax_keeps (h : memoryWf s) (d a b w z) : Keeps (execAmax d a b w z s) := atomicForm_keeps h ..
theorem execAminN_keeps (h : memoryWf s) (d a b w z) : Keeps (execAminN d a b w z s) := atomicForm_keeps h ..
theorem execAmaxN_keeps (h : memoryWf s) (d a b w z) : Keeps (execAmaxN d a b w z s) := atomicForm_keeps h ..
theorem execAswap_keeps (h : memoryWf s) (d a b w z) : Keeps (execAswap d a b w z s) := atomicForm_keeps h ..
theorem execAcas_keeps (h : memoryWf s) (d a b w z) : Keeps (execAcas d a b w z s) := atomicForm_keeps h ..

theorem execAnadd_keeps (h : memoryWf s) (a b w z) : Keeps (execAnadd a b w z s) := by
  grind [execAnadd, issue_keeps, State.trap_keeps, withAccess_keeps, State.sendStore_keeps, State.retire_memoryWf]

/-! ### Ends, messages, inboxes, reorder areas and stubs of a core -/

theorem State.updInst_memoryWf (h : memoryWf s) (c ident inst f) : memoryWf (s.updInst c ident inst f) := by
  grind [State.updInst, State.updSlotAt_memoryWf, State.updCore_memoryWf, foldl_memoryWf]

theorem State.sendOn_memoryWf (h : memoryWf s) (src hm cls kind words payload carried) :
    memoryWf (s.sendOn src hm cls kind words payload carried) :=
  h

theorem State.giveCredit_memoryWf (h : memoryWf s) (src m) : memoryWf (s.giveCredit src m) := by
  grind [State.giveCredit, State.post_memoryWf]

theorem State.closeCarried_memoryWf (h : memoryWf s) (src hm) : memoryWf (s.closeCarried src hm) := by
  grind [State.closeCarried, State.post_memoryWf]

theorem State.dropMsg_memoryWf (h : memoryWf s) (src m) : memoryWf (s.dropMsg src m) := by
  grind [State.dropMsg, State.giveCredit_memoryWf, State.closeCarried_memoryWf]

theorem State.wakeInbox_memoryWf (h : memoryWf s) (c) : memoryWf (s.wakeInbox c) := by
  grind [State.wakeInbox, State.updSlotAt_memoryWf, foldl_memoryWf]

theorem State.release_memoryWf (h : memoryWf s) (c cls i) : memoryWf (s.release c cls i) :=
  State.wakeInbox_memoryWf (State.wakeCore_memoryWf (State.updCore_memoryWf h ..) ..) ..

theorem State.closure_memoryWf (h : memoryWf s) (c ident) : memoryWf (s.closure c ident) := by
  grind [State.closure, State.updCore_memoryWf, State.release_memoryWf]

theorem State.settle_memoryWf (h : memoryWf s) (c ident) : memoryWf (s.settle c ident) :=
  State.closure_memoryWf (State.updCore_memoryWf h ..) ..

theorem State.gone_memoryWf (h : memoryWf s) (c m counts) : memoryWf (s.gone c m counts) :=
  State.settle_memoryWf (State.updCore_memoryWf h ..) ..

theorem State.taken_memoryWf (h : memoryWf s) (c m) : memoryWf (s.taken c m) := State.gone_memoryWf h ..

theorem State.closeRecv_memoryWf (h : memoryWf s) (c hm) : memoryWf (s.closeRecv c hm) := by
  grind [State.closeRecv, State.setCore_memoryWf, State.dropMsg_memoryWf, State.post_memoryWf, foldl_memoryWf]

theorem State.closeEnd_memoryWf (h : memoryWf s) (c hm) : memoryWf (s.closeEnd c hm) := by
  grind [State.closeEnd, State.post_memoryWf, State.sendOn_memoryWf, State.closeRecv_memoryWf]

theorem State.landEnd_memoryWf (h : memoryWf s) (c hm) : memoryWf (s.landEnd c hm).1 := by
  grind [State.landEnd, State.post_memoryWf, State.updCore_memoryWf]

theorem State.carryRecv_memoryWf (h : memoryWf s) (c hm) : memoryWf (s.carryRecv c hm) := h
theorem State.carrySend_memoryWf (h : memoryWf s) (c hm) : memoryWf (s.carrySend c hm) := h
theorem State.forwardMsg_memoryWf (h : memoryWf s) (c dest m) : memoryWf (s.forwardMsg c dest m) := h

theorem State.handOver_memoryWf (h : memoryWf s) (c t dest inst) : memoryWf (s.handOver c t dest inst).1 := by
  grind [State.handOver, State.forwardMsg_memoryWf, State.setCore_memoryWf, State.post_memoryWf]

theorem State.stubCheck_memoryWf (h : memoryWf s) (c ident gen) : memoryWf (s.stubCheck c ident gen) := by
  unfold State.stubCheck
  grind [State.handOver_memoryWf, State.post_memoryWf, State.updCore_memoryWf, foldl_fst_memoryWf]

theorem State.stubDrop_memoryWf (h : memoryWf s) (c ident) : memoryWf (s.stubDrop c ident) := by
  unfold State.stubDrop
  grind [State.setCore_memoryWf, State.dropMsg_memoryWf, State.post_memoryWf, foldl_memoryWf]

/-! ### The life of a task -/

theorem State.overflowRecord_memoryWf (h : memoryWf s) (c k) : memoryWf (s.overflowRecord c k) := h
theorem State.join_memoryWf (h : memoryWf s) (c e) : memoryWf (s.join c e) := h

theorem State.enqueue_memoryWf (h : memoryWf s) (c e) : memoryWf (s.enqueue c e) :=
  State.sendCount_memoryWf (State.join_memoryWf h ..) ..

theorem State.dropLeases_memoryWf (h : memoryWf s) (c l gen which) : memoryWf (s.dropLeases c l gen which) := by
  grind [State.dropLeases, State.updTile_memoryWf]

theorem State.place_memoryWf (h : memoryWf s) (c l e) : memoryWf (s.place c l e) := by
  grind [State.place, State.updCore_memoryWf, State.setSlotAt_memoryWf, State.logWrite_memoryWf,
    State.updTile_memoryWf, foldl_memoryWf]

theorem State.settleExits_memoryWf (h : memoryWf s) (c) : memoryWf (s.settleExits c) := by
  grind [State.settleExits, State.sendCount_memoryWf, State.updCore_memoryWf, foldl_memoryWf]

theorem State.drain_memoryWf (h : memoryWf s) (c l) : memoryWf (s.drain c l) := h

theorem State.endTask_memoryWf (h : memoryWf s) (c l) : memoryWf (s.endTask c l) := by
  unfold State.endTask
  grind [State.closeEnd_memoryWf, State.dropLeases_memoryWf, State.updCore_memoryWf, State.updSlotAt_memoryWf,
    State.sendCount_memoryWf, State.settleExits_memoryWf, State.drain_memoryWf, foldl_memoryWf]

theorem State.kill_memoryWf (h : memoryWf s) (c l cause index addr) : memoryWf (s.kill c l cause index addr) :=
  State.endTask_memoryWf (State.emit_memoryWf h ..) ..

/-! ### What a home does beside its own queue -/

theorem State.reply_memoryWf (h : memoryWf s) (hm p b) : memoryWf (s.reply hm p b) := h

theorem State.unblockFe_memoryWf (h : memoryWf s) (hm p) : memoryWf (s.unblockFe hm p) := by
  grind [State.unblockFe, State.updSlotAt_memoryWf]

theorem State.performFe_memoryWf (h : memoryWf s) (hm p take pa size ret) :
    memoryWf (s.performFe hm p take pa size ret) := by
  grind [State.performFe, State.setFull_memoryWf, State.unblockFe_memoryWf, State.reply_memoryWf]

theorem State.wakeLoads_memoryWf (h : memoryWf s) (hm g fuel) : memoryWf (s.wakeLoads hm g fuel) := by
  induction fuel generalizing s with
  | zero => exact h
  | succ fuel ih => grind [State.wakeLoads, State.updHome_memoryWf, State.performFe_memoryWf]

theorem State.fill_memoryWf (h : memoryWf s) (g) : memoryWf (s.fill g) :=
  State.wakeLoads_memoryWf (State.setFull_memoryWf h ..) ..

theorem State.storeFull_memoryWf (h : memoryWf s) (pa bs) : memoryWf (s.storeFull pa bs) := by
  grind [State.storeFull, State.store_memoryWf, State.fill_memoryWf, foldl_memoryWf]

theorem State.poisonFull_memoryWf (h : memoryWf s) (g k) : memoryWf (s.poisonFull g k) := by
  grind [State.poisonFull, State.fill_memoryWf, State.poisonGranule_memoryWf]

theorem State.poisonV_memoryWf (h : memoryWf s) (c l r k) : memoryWf (s.poisonV c l r k) := h

theorem State.poisonX_memoryWf (h : memoryWf s) (c l r k) : memoryWf (s.poisonX c l r k) := by
  grind [State.poisonX, State.updSlotAt_memoryWf]

theorem State.landRefused_memoryWf (h : memoryWf s) (c l dst ticket k) : memoryWf (s.landRefused c l dst ticket k) := by
  unfold State.landRefused
  grind [State.poisonV_memoryWf, State.poisonFull_memoryWf, State.release_memoryWf, foldl_memoryWf]

/-! ### Tickets -/

theorem execLdt_keeps (h : memoryWf s) (d a w k o) : Keeps (execLdt d a w k o s) := by
  grind [execLdt, Keeps, issue_keeps, State.trap_keeps, withXl_keeps, toPage_keeps, State.stall_memoryWf,
    State.updCore_memoryWf, State.retire_memoryWf, State.access_memoryWf, State.setX_memoryWf]

theorem State.redeem_keeps (h : memoryWf s) (t dst) : Keeps (s.redeem t dst) := by
  grind [State.redeem, Keeps, State.retire_memoryWf, State.landRefused_memoryWf, toPeer_keeps, State.upd_memoryWf,
    State.access_memoryWf]

theorem execRdmV_keeps (h : memoryWf s) (d a w) : Keeps (execRdmV d a w s) := by
  grind [execRdmV, issue_keeps, State.redeem_keeps]

theorem execRdmScratchpad_keeps (h : memoryWf s) (a b w) : Keeps (execRdmScratchpad a b w s) := by
  grind [execRdmScratchpad, issue_keeps, State.trap_keeps, withXl_keeps, State.redeem_keeps]

theorem execRdmM_keeps (h : memoryWf s) (a b w) : Keeps (execRdmM a b w s) := by
  grind [execRdmM, issue_keeps, State.trap_keeps, State.redeem_keeps]

theorem execTkdrop_keeps (h : memoryWf s) (a w) : Keeps (execTkdrop a w s) := by
  grind [execTkdrop, Keeps, issue_keeps, State.retire_memoryWf, toPeer_keeps, State.access_memoryWf]

theorem execTkq_keeps (h : memoryWf s) (d a w) : Keeps (execTkq d a w s) := by
  grind [execTkq, Keeps, issue_keeps, State.retire_memoryWf, State.setX_memoryWf, toPeer_keeps,
    State.access_memoryWf, State.upd_memoryWf]

/-! ### Handle, channel and message instructions and `spawn` -/

theorem State.nextIdent_memoryWf (h : memoryWf s) (c) : memoryWf (s.nextIdent c).2 := State.updCore_memoryWf h ..

theorem State.askChannel_memoryWf (h : memoryWf s) (c l hd ha tries) : memoryWf (s.askChannel c l hd ha tries) :=
  State.post_memoryWf (State.updCore_memoryWf (State.nextIdent_memoryWf h ..) ..) ..

theorem execChnew_keeps (h : memoryWf s) (hd ha) : Keeps (execChnew hd ha s) := by
  grind [execChnew, Keeps, issue_keeps, State.trap_keeps, State.askChannel_memoryWf, State.upd_memoryWf]

theorem execChdup_keeps (h : memoryWf s) (hd ha) : Keeps (execChdup hd ha s) := by
  grind [execChdup, Keeps, issue_keeps, State.trap_keeps, toPeer_keeps, State.updCore_memoryWf, State.post_memoryWf,
    State.upd_memoryWf]

theorem execHmov_keeps (h : memoryWf s) (hd ha) : Keeps (execHmov hd ha s) := by
  grind [execHmov, Keeps, issue_keeps, State.trap_keeps, State.retire_memoryWf, State.setH_memoryWf]

theorem execHclr_keeps (h : memoryWf s) (hd) : Keeps (execHclr hd s) := by
  grind [execHclr, Keeps, issue_keeps, State.retire_memoryWf, toPeers_keeps, State.closeEnd_memoryWf,
    State.setH_memoryWf]

theorem execChclose_keeps (h : memoryWf s) (hd) : Keeps (execChclose hd s) := by
  grind [execChclose, Keeps, issue_keeps, State.trap_keeps, toPeers_keeps, State.retire_memoryWf,
    State.closeEnd_memoryWf, State.setH_memoryWf]

theorem execChq_keeps (h : memoryWf s) (ha a) : Keeps (execChq ha a s) := by
  grind [execChq, Keeps, issue_keeps, State.retire_memoryWf, State.setX_memoryWf]

theorem sendEnd_keeps (h : memoryWf s) (hd own k) (hk : ∀ x0 x1, memoryWf x1 → Keeps (k x0 x1)) :
    Keeps (sendEnd hd own k s) := by
  grind [sendEnd, State.trap_keeps, toPeer_keeps]

theorem execChseg_keeps (h : memoryWf s) (hd a) : Keeps (execChseg hd a s) := by
  grind [execChseg, Keeps, issue_keeps, sendEnd_keeps, State.retire_memoryWf, State.setH_memoryWf,
    State.sendOn_memoryWf]

theorem sendForm_keeps (h : memoryWf s) (i cls hd a n) : Keeps (sendForm i cls hd a n s) := by
  grind [sendForm, Keeps, issue_keeps, sendEnd_keeps, State.sendOn_memoryWf, State.retire_memoryWf, State.setH_memoryWf]

theorem execChsend_keeps (h : memoryWf s) (hd a n) : Keeps (execChsend hd a n s) := sendForm_keeps h ..
theorem execChsendLo_keeps (h : memoryWf s) (hd a n) : Keeps (execChsendLo hd a n s) := sendForm_keeps h ..
theorem execChsendCtl_keeps (h : memoryWf s) (hd a n) : Keeps (execChsendCtl hd a n s) := sendForm_keeps h ..

theorem carryForm_keeps (h : memoryWf s) (i cls hd ha a n) : Keeps (carryForm i cls hd ha a n s) := by
  grind [carryForm, Keeps, issue_keeps, sendEnd_keeps, toPeer_keeps, State.sendOn_memoryWf, State.setH_memoryWf,
    State.carryRecv_memoryWf, State.carrySend_memoryWf, State.retire_memoryWf]

theorem execChsendh_keeps (h : memoryWf s) (hd ha a n) : Keeps (execChsendh hd ha a n s) := carryForm_keeps h ..
theorem execChsendhLo_keeps (h : memoryWf s) (hd ha a n) : Keeps (execChsendhLo hd ha a n s) := carryForm_keeps h ..
theorem execChsendhCtl_keeps (h : memoryWf s) (hd ha a n) : Keeps (execChsendhCtl hd ha a n s) := carryForm_keeps h ..

theorem bindForm_keeps (h : memoryWf s) (i ha target) : Keeps (bindForm i ha target s) := by
  grind [bindForm, Keeps, issue_keeps, State.trap_keeps, State.retire_memoryWf, State.updCore_memoryWf,
    State.wakeInbox_memoryWf]

theorem execChbindHandler_keeps (h : memoryWf s) (ha o) : Keeps (execChbindHandler ha o s) := bindForm_keeps h ..
theorem execChbindInbox_keeps (h : memoryWf s) (ha) : Keeps (execChbindInbox ha s) := bindForm_keeps h ..

theorem State.dequeue_memoryWf (h : memoryWf s) (hd a m segin segend left k) :
    memoryWf (s.dequeue hd a m segin segend left k) := by
  grind [State.dequeue, State.setCore_memoryWf, State.landEnd_memoryWf, State.setH_memoryWf, State.taken_memoryWf,
    State.giveCredit_memoryWf, State.upd_memoryWf, State.post_memoryWf]

theorem inboxForm_keeps (h : memoryWf s) (i wait hd a n) : Keeps (inboxForm i wait hd a n s) := by
  grind [inboxForm, Keeps, issue_keeps, State.trap_keeps, toPeers_keeps, State.retire_memoryWf,
    State.dequeue_memoryWf, State.upd_memoryWf, State.setX_memoryWf]

theorem execInboxDq_keeps (h : memoryWf s) (hd a n) : Keeps (execInboxDq hd a n s) := inboxForm_keeps h ..
theorem execInboxTry_keeps (h : memoryWf s) (hd a n) : Keeps (execInboxTry hd a n s) := inboxForm_keeps h ..

theorem execSpawn_keeps (h : memoryWf s) (a p o) : Keeps (execSpawn a p o s) := by
  grind [execSpawn, Keeps, issue_keeps, State.retire_memoryWf, State.overflowRecord_memoryWf, toPeer_keeps,
    State.enqueue_memoryWf]

/-! ### Waits, fences, seal, hints and the journal, majors 0x24, 0x25 and 0x39 -/

theorem fenceForm_keeps (h : memoryWf s) (i w) : Keeps (fenceForm i w s) := by
  grind [fenceForm, Keeps, issue_keeps, State.retire_memoryWf]

theorem execFenceTile_keeps (h : memoryWf s) : Keeps (execFenceTile s) := fenceForm_keeps h ..
theorem execFenceCluster_keeps (h : memoryWf s) : Keeps (execFenceCluster s) := fenceForm_keeps h ..
theorem execFenceDie_keeps (h : memoryWf s) : Keeps (execFenceDie s) := fenceForm_keeps h ..
theorem execFencePackage_keeps (h : memoryWf s) : Keeps (execFencePackage s) := fenceForm_keeps h ..
theorem execFenceSystem_keeps (h : memoryWf s) : Keeps (execFenceSystem s) := fenceForm_keeps h ..

theorem execWait_keeps (h : memoryWf s) (l st c t) : Keeps (execWait l st c t s) := by
  grind [execWait, Keeps, issue_keeps, State.retire_memoryWf]

theorem withSealable_keeps (h : memoryWf s) (va k) (hk : ∀ x0, memoryWf x0 → Keeps (k x0)) :
    Keeps (withSealable va k s) := by
  grind [withSealable, State.translate_memoryWf, State.trapIdx_keeps]

theorem sealForm_keeps (h : memoryWf s) (i on a b) : Keeps (sealForm i on a b s) := by
  grind [sealForm, Keeps, issue_keeps, State.trap_keeps, withSealable_keeps, State.retire_memoryWf, State.post_memoryWf]

theorem execSeal_keeps (h : memoryWf s) (a b) : Keeps (execSeal a b s) := sealForm_keeps h ..
theorem execUnseal_keeps (h : memoryWf s) (a b) : Keeps (execUnseal a b s) := sealForm_keeps h ..

theorem execPref_keeps (h : memoryWf s) (a b) : Keeps (execPref a b s) := by
  grind [execPref, Keeps, issue_keeps, State.translate_memoryWf, State.retire_memoryWf, State.countPref_memoryWf,
    State.post_memoryWf]

theorem execJrd_keeps (h : memoryWf s) (d a) : Keeps (execJrd d a s) := by
  grind [execJrd, Keeps, issue_keeps, State.retire_memoryWf, State.setX_memoryWf]

theorem execJdrop_keeps (h : memoryWf s) (a) : Keeps (execJdrop a s) := by
  grind [execJdrop, Keeps, issue_keeps, State.retire_memoryWf, State.updCore_memoryWf, State.upd_memoryWf]

/-! ### Vector loads and stores -/

theorem State.startVLoad_memoryWf (h : memoryWf s) (v) : memoryWf (s.startVLoad v) := h

theorem State.sendVec_memoryWf (h : memoryWf s) (x d) : memoryWf (s.sendVec x d) :=
  State.access_memoryWf (State.startVLoad_memoryWf h ..) ..

theorem State.sendDecode_memoryWf (h : memoryWf s) (x va d ty len) : memoryWf (s.sendDecode x va d ty len) := by
  grind [State.sendDecode, State.access_memoryWf, State.startVLoad_memoryWf, foldl_memoryWf]

theorem execVld_keeps (h : memoryWf s) (d a w t o) : Keeps (execVld d a w t o s) := by
  grind [execVld, Keeps, issue_keeps, State.trap_keeps, withXl_keeps, toPage_keeps, State.retire_memoryWf,
    State.sendVec_memoryWf, State.sendDecode_memoryWf]

theorem execVst_keeps (h : memoryWf s) (r a w t o) : Keeps (execVst r a w t o s) := by
  grind [execVst, issue_keeps, State.trap_keeps, withXl_keeps, toPage_keeps, State.sendStore_keeps,
    State.retire_memoryWf]

theorem execVldRaw_keeps (h : memoryWf s) (d a w o) : Keeps (execVldRaw d a w o s) := by
  grind [execVldRaw, Keeps, issue_keeps, State.trap_keeps, withAccess_keeps, State.retire_memoryWf,
    State.sendVec_memoryWf]

theorem execVstRaw_keeps (h : memoryWf s) (r a w o) : Keeps (execVstRaw r a w o s) := by
  grind [execVstRaw, issue_keeps, State.trap_keeps, withAccess_keeps, State.sendStore_keeps, State.retire_memoryWf]

theorem State.lanesXl_memoryWf (h : memoryWf s) (ty write va l) : memoryWf (s.lanesXl ty write va l).1 := by
  induction l generalizing s with
  | nil => exact h
  | cons i t ih => grind [State.lanesXl, State.translate_memoryWf]

theorem State.lanesPeers_keeps (h : memoryWf s) (k l) (hk : ∀ u, memoryWf u → Keeps (k u)) :
    Keeps (s.lanesPeers k l) := by
  induction l generalizing s with
  | nil => exact hk s h
  | cons e r ih => exact toPage_keeps h _ _ fun _ hu => ih hu

theorem State.lanesPass_keeps (h : memoryWf s) (ty va l k) (hk : ∀ x0, memoryWf x0 → Keeps (k x0)) :
    Keeps (s.lanesPass ty va l k) := by
  grind [State.lanesPass, State.trap_keeps, State.lanesPeers_keeps]

theorem laneLoad_keeps (h : memoryWf s) (i reads d m t w va) : Keeps (laneLoad i reads d m t w va s) := by
  grind [laneLoad, Keeps, issue_keeps, State.lanesXl_memoryWf, State.trapIdx_keeps, State.lanesPass_keeps,
    State.retire_memoryWf, State.setV_memoryWf, State.startVLoad_memoryWf, State.access_memoryWf, foldl_memoryWf]

theorem execVlds_keeps (h : memoryWf s) (d a b m t w) : Keeps (execVlds d a b m t w s) := laneLoad_keeps h ..
theorem execVgath_keeps (h : memoryWf s) (d a b m t w) : Keeps (execVgath d a b m t w s) := laneLoad_keeps h ..

theorem State.putLanes_memoryWf (h : memoryWf s) (ty v l) : ∀ t, s.putLanes ty v l = some t → memoryWf t := by
  induction l generalizing s with
  | nil => grind [State.putLanes]
  | cons e r ih => obtain ⟨i, x⟩ := e; grind [State.putLanes, State.putStore_memoryWf, Option.bind_eq_some_iff]

theorem execVscat_keeps (h : memoryWf s) (r a b m t w) : Keeps (execVscat r a b m t w s) := by
  unfold execVscat
  grind [Keeps, issue_keeps, State.lanesXl_memoryWf, State.trapIdx_keeps, State.lanesPass_keeps,
    State.putLanes_memoryWf, State.stall_memoryWf, State.retire_memoryWf]

/-! ### Shape records and tile commands -/

theorem execShp_keeps (h : memoryWf s) (a b n) : Keeps (execShp a b n s) := by
  grind [execShp, Keeps, issue_keeps, State.trap_keeps, State.updCore_memoryWf, State.retire_memoryWf,
    State.upd_memoryWf]

theorem withRange_keeps (h : memoryWf s) (q va align len runs write k) (hk : ∀ x0 x1, memoryWf x1 → Keeps (k x0 x1)) :
    Keeps (withRange q va align len runs write k s) := by
  grind [withRange, State.trap_keeps, withXl_keeps, toPage_keeps]

theorem withLinear_keeps (h : memoryWf s) (q va len write k) (hk : ∀ x0 x1, memoryWf x1 → Keeps (k x0 x1)) :
    Keeps (withLinear q va len write k s) := by
  grind [withLinear, withRange_keeps]

theorem withShaped_keeps (h : memoryWf s) (q r t w write k) (hk : ∀ x0 x1 x2, memoryWf x2 → Keeps (k x0 x1 x2)) :
    Keeps (withShaped q r t w write k s) := by
  grind [withShaped, withRange_keeps]

theorem State.joinFollow_memoryWf (h : memoryWf s) : memoryWf (s.joinFollow).1 := by
  grind [State.joinFollow, State.updCore_memoryWf, State.upd_memoryWf, State.updEngine_memoryWf]

theorem State.countCmd_memoryWf (h : memoryWf s) (c) : memoryWf (s.countCmd c) := by
  grind [State.countCmd, State.updCore_memoryWf, State.upd_memoryWf, State.updTile_memoryWf]

theorem State.sendCmd_memoryWf (h : memoryWf s) (pl c) : memoryWf (s.sendCmd pl c) := by
  grind [State.sendCmd, State.post_memoryWf]

theorem State.enterCmd_keeps {s0 : State} (h : memoryWf s) (h0 : memoryWf s0) (pl member c0) :
    Keeps (s.enterCmd s0 pl member c0) := by
  grind [State.enterCmd, Keeps, State.upd_memoryWf, State.updEngine_memoryWf, State.countCmd_memoryWf,
    State.retire_memoryWf,
    State.stall_memoryWf, State.joinFollow_memoryWf, State.sendCmd_memoryWf]

theorem mmaIssue_keeps (h : memoryWf s) (op w0 w1 w2 w3 tv q) : Keeps (mmaIssue op w0 w1 w2 w3 tv q s) := by
  grind [mmaIssue, State.trap_keeps, withShaped_keeps, State.enterCmd_keeps]

theorem accstIssue_keeps (h : memoryWf s) (op w0 w1 w2 w3 tv q) : Keeps (accstIssue op w0 w1 w2 w3 tv q s) := by
  grind [accstIssue, State.trap_keeps, withShaped_keeps, State.enterCmd_keeps]

theorem accldIssue_keeps (h : memoryWf s) (op w0 w1 w2 w3 tv q) : Keeps (accldIssue op w0 w1 w2 w3 tv q s) := by
  grind [accldIssue, State.trap_keeps, State.enterCmd_keeps, withShaped_keeps]

theorem acczIssue_keeps (h : memoryWf s) (op w0 w1 w2 w3 tv q) : Keeps (acczIssue op w0 w1 w2 w3 tv q s) := by
  grind [acczIssue, State.trap_keeps, State.enterCmd_keeps]

theorem copyIssue_keeps (h : memoryWf s) (op w0 w1 w2 w3 tv q) : Keeps (copyIssue op w0 w1 w2 w3 tv q s) := by
  grind [copyIssue, State.trap_keeps, withLinear_keeps, State.enterCmd_keeps]

theorem copy2Issue_keeps (h : memoryWf s) (op w0 w1 w2 w3 tv q) : Keeps (copy2Issue op w0 w1 w2 w3 tv q s) := by
  grind [copy2Issue, State.trap_keeps, withShaped_keeps, State.enterCmd_keeps]

theorem gatherIssue_keeps (h : memoryWf s) (op w0 w1 w2 w3 tv q) : Keeps (gatherIssue op w0 w1 w2 w3 tv q s) := by
  grind [gatherIssue, State.trap_keeps, withRange_keeps, withShaped_keeps, State.enterCmd_keeps]

theorem xposeIssue_keeps (h : memoryWf s) (op w0 w1 w2 w3 tv q) : Keeps (xposeIssue op w0 w1 w2 w3 tv q s) := by
  grind [xposeIssue, State.trap_keeps, withShaped_keeps, State.enterCmd_keeps]

theorem fillIssue_keeps (h : memoryWf s) (op w0 w1 w2 w3 tv q) : Keeps (fillIssue op w0 w1 w2 w3 tv q s) := by
  grind [fillIssue, State.trap_keeps, withLinear_keeps, State.enterCmd_keeps]

theorem mcastIssue_keeps (h : memoryWf s) (op w0 w1 w2 w3 tv q) : Keeps (mcastIssue op w0 w1 w2 w3 tv q s) := by
  grind [mcastIssue, State.trap_keeps, withLinear_keeps, State.enterCmd_keeps]

theorem reduceIssue_keeps (h : memoryWf s) (op w0 w1 w2 w3 tv q) : Keeps (reduceIssue op w0 w1 w2 w3 tv q s) := by
  grind [reduceIssue, State.trap_keeps, withLinear_keeps, State.enterCmd_keeps]

theorem rstageIssue_keeps (h : memoryWf s) (op w0 w1 w2 w3 tv q) : Keeps (rstageIssue op w0 w1 w2 w3 tv q s) := by
  grind [rstageIssue, State.trap_keeps, State.enterCmd_keeps]

theorem opIssue_keeps (h : memoryWf s) (op w0 w1 w2 w3 tv q) : Keeps (opIssue op w0 w1 w2 w3 tv q s) :=
  ite_keeps (mmaIssue_keeps h ..) <| ite_keeps (accstIssue_keeps h ..) <| ite_keeps (accldIssue_keeps h ..) <|
    ite_keeps (acczIssue_keeps h ..) <| ite_keeps (copyIssue_keeps h ..) <| ite_keeps (copy2Issue_keeps h ..) <|
    ite_keeps (gatherIssue_keeps h ..) <| ite_keeps (xposeIssue_keeps h ..) <| ite_keeps (fillIssue_keeps h ..) <|
    ite_keeps (mcastIssue_keeps h ..) <| ite_keeps (reduceIssue_keeps h ..) (rstageIssue_keeps h ..)

theorem tcmdForm_keeps (h : memoryWf s) (i op a b c q) : Keeps (tcmdForm i op a b c q s) := by
  grind [tcmdForm, issue_keeps, State.trap_keeps, opIssue_keeps]

theorem execMma_keeps (h : memoryWf s) (a b c q) : Keeps (execMma a b c q s) := tcmdForm_keeps h ..
theorem execMmaz_keeps (h : memoryWf s) (a b c q) : Keeps (execMmaz a b c q s) := tcmdForm_keeps h ..
theorem execMmaw_keeps (h : memoryWf s) (a b c q) : Keeps (execMmaw a b c q s) := tcmdForm_keeps h ..
theorem execAccst_keeps (h : memoryWf s) (a b c q) : Keeps (execAccst a b c q s) := tcmdForm_keeps h ..
theorem execAccld_keeps (h : memoryWf s) (a b c q) : Keeps (execAccld a b c q s) := tcmdForm_keeps h ..
theorem execAccz_keeps (h : memoryWf s) (a b c q) : Keeps (execAccz a b c q s) := tcmdForm_keeps h ..
theorem execCopy_keeps (h : memoryWf s) (a b c q) : Keeps (execCopy a b c q s) := tcmdForm_keeps h ..
theorem execCopy2_keeps (h : memoryWf s) (a b c q) : Keeps (execCopy2 a b c q s) := tcmdForm_keeps h ..
theorem execCopyf_keeps (h : memoryWf s) (a b c q) : Keeps (execCopyf a b c q s) := tcmdForm_keeps h ..
theorem execGather_keeps (h : memoryWf s) (a b c q) : Keeps (execGather a b c q s) := tcmdForm_keeps h ..
theorem execMcast_keeps (h : memoryWf s) (a b c q) : Keeps (execMcast a b c q s) := tcmdForm_keeps h ..
theorem execReduce_keeps (h : memoryWf s) (a b c q) : Keeps (execReduce a b c q s) := tcmdForm_keeps h ..
theorem execRstage_keeps (h : memoryWf s) (a b c q) : Keeps (execRstage a b c q s) := tcmdForm_keeps h ..
theorem execXpose_keeps (h : memoryWf s) (a b c q) : Keeps (execXpose a b c q s) := tcmdForm_keeps h ..
theorem execFill_keeps (h : memoryWf s) (a b c q) : Keeps (execFill a b c q s) := tcmdForm_keeps h ..

theorem markerIssue_keeps (h : memoryWf s) (w tv iw q) : Keeps (markerIssue w tv iw q s) := by
  grind [markerIssue, State.trap_keeps, withXl_keeps, toPeer_keeps, State.enterCmd_keeps]

theorem execAmsg_keeps (h : memoryWf s) (a n) : Keeps (execAmsg a n s) := by
  grind [execAmsg, issue_keeps, State.trap_keeps, opIssue_keeps, markerIssue_keeps]

/-! ### Perform, reply and refusal steps -/

theorem State.badWrite_memoryWf (h : memoryWf s) (j) : memoryWf (s.badWrite j) :=
  State.showCounts_memoryWf (State.updJobAt_memoryWf h ..) ..

theorem State.localDone_memoryWf (h : memoryWf s) (p full) : memoryWf (s.localDone p full) := by
  grind [State.localDone, State.settleExits_memoryWf, State.updSlotAt_memoryWf, State.takeTrap_memoryWf]

theorem State.ackWrite_memoryWf (h : memoryWf s) (hm p entry) : memoryWf (s.ackWrite hm p entry) := by
  unfold State.ackWrite
  grind [State.localDone_memoryWf, State.reply_memoryWf]

theorem State.refuseWrite_memoryWf (h : memoryWf s) (hm p entry reason pa) :
    memoryWf (s.refuseWrite hm p entry reason pa) := by
  unfold State.refuseWrite
  grind [State.localDone_memoryWf, State.reply_memoryWf]

theorem State.performStore_memoryWf (h : memoryWf s) (hm p kind pa size data entry) :
    memoryWf (s.performStore hm p kind pa size data entry) := by
  unfold State.performStore
  grind [State.countPage_memoryWf, State.store_memoryWf, State.setFull_memoryWf, State.fill_memoryWf,
    State.ackWrite_memoryWf, State.refuseWrite_memoryWf, foldl_memoryWf]

theorem State.portStore_memoryWf (h : memoryWf s) (hm p kind pa size data entry) :
    ∀ t, s.portStore hm p kind pa size data entry = some t → memoryWf t := by
  grind [State.portStore, State.refuseWrite_memoryWf, State.ackWrite_memoryWf, State.badWrite_memoryWf]

theorem execPerform_keeps (h : memoryWf s) (hm) : Keeps (execPerform hm s) := by
  unfold execPerform
  grind [Keeps, notEnabled_keeps, State.updHome_memoryWf, State.reply_memoryWf, State.countPage_memoryWf,
    State.unblockFe_memoryWf, State.performFe_memoryWf, State.store_memoryWf, State.portStore_memoryWf,
    State.refuseWrite_memoryWf, State.performStore_memoryWf, State.ackWrite_memoryWf, State.badWrite_memoryWf]

theorem State.stale_memoryWf (h : memoryWf s) (c) : memoryWf (s.stale c) := h
theorem State.downLd_memoryWf (h : memoryWf s) (c l) : memoryWf (s.downLd c l) := h

theorem State.landX_memoryWf (h : memoryWf s) (c l r sgn bytes data poison) :
    memoryWf (s.landX c l r sgn bytes data poison) := by
  grind [State.landX, State.downLd_memoryWf, State.poisonX_memoryWf, State.setXAt_memoryWf, State.updSlotAt_memoryWf]

theorem State.stepVLoad_memoryWf (h : memoryWf s) (c l v) : memoryWf (s.stepVLoad c l v) := by
  grind [State.stepVLoad, State.updSlotAt_memoryWf, State.downLd_memoryWf, State.poisonV_memoryWf,
    State.setVAt_memoryWf]

theorem State.accessFor_memoryWf (h : memoryWf s) (c l peer pa b) : memoryWf (s.accessFor c l peer pa b) := by
  grind [State.accessFor, memoryWf_iff, State.access_memoryWf]

theorem State.gotScales_memoryWf (h : memoryWf s) (c l v bs k) : memoryWf (s.gotScales c l v bs k) := by
  grind [State.gotScales, State.accessFor_memoryWf, State.stepVLoad_memoryWf, foldl_memoryWf]

theorem State.retireEntry_memoryWf (h : memoryWf s) (c n) : memoryWf (s.retireEntry c n) := by
  grind [State.retireEntry, State.updCore_memoryWf, State.updSlotAt_memoryWf, State.settleExits_memoryWf]

theorem State.gotWord_memoryWf (h : memoryWf s) (c key n data) : memoryWf (s.gotWord c key n data) := by
  grind [State.gotWord, State.holdWord_memoryWf]

theorem State.noWord_memoryWf (h : memoryWf s) (c l key n pa gen) : memoryWf (s.noWord c l key n pa gen) := by
  grind [State.noWord, State.updCore_memoryWf, State.pushLoadCause_memoryWf]

theorem execReply_keeps (h : memoryWf s) (k) : Keeps (execReply k s) := by
  unfold execReply
  split
  · have hp := State.popNet_memoryWf h k
    refine ite_keeps trivial ?_
    split
    · trivial
    · exact State.gotWord_memoryWf hp ..
    · grind [Keeps, State.landX_memoryWf, State.stale_memoryWf, State.stepVLoad_memoryWf, State.gotScales_memoryWf]
    · grind [Keeps, State.stale_memoryWf, State.downLd_memoryWf, State.updSlotAt_memoryWf, foldl_memoryWf,
        State.setXAt_memoryWf]
    · exact State.retireEntry_memoryWf hp ..
    · grind [Keeps, State.updCore_memoryWf, State.stale_memoryWf, State.closeEnd_memoryWf, State.takeTrap_memoryWf,
        State.setHAt_memoryWf, State.updSlotAt_memoryWf]
    · trivial
  · trivial

theorem State.refusedEntry_memoryWf (h : memoryWf s) (c n reason) : memoryWf (s.refusedEntry c n reason) := by
  grind [State.refusedEntry, State.updCore_memoryWf, State.wakeSlot_memoryWf, State.updSlotAt_memoryWf,
    State.settleExits_memoryWf, State.emit_memoryWf]

theorem State.endRdm_memoryWf (h : memoryWf s) (c l dst) : memoryWf (s.endRdm c l dst) := by
  unfold State.endRdm
  grind [State.updSlotAt_memoryWf, State.downLd_memoryWf]

theorem execRefusal_keeps (h : memoryWf s) (k) : Keeps (execRefusal k s) := by
  unfold execRefusal
  split
  · have hp := State.popNet_memoryWf h k
    refine ite_keeps trivial ?_
    split
    · exact State.refusedEntry_memoryWf hp ..
    · exact State.noWord_memoryWf hp ..
    · grind [Keeps, notEnabled_keeps, State.stale_memoryWf, State.pushLoadCause_memoryWf, State.landX_memoryWf,
        State.stepVLoad_memoryWf]
    · grind [Keeps, notEnabled_keeps, State.stale_memoryWf, State.downLd_memoryWf, State.landRefused_memoryWf,
        State.endRdm_memoryWf]
    · trivial
  · trivial

theorem execRegisterParityReplay_keeps (h : memoryWf s) (c l reg logBad) :
    Keeps (execRegisterParityReplay c l reg logBad s) := by
  unfold execRegisterParityReplay
  grind [Keeps, notEnabled_keeps, State.updSlotAt_memoryWf, State.countError_memoryWf, State.updUnit_memoryWf,
    State.takeTrap_memoryWf]

/-! ### Engines -/

theorem State.setAcc_memoryWf (h : memoryWf s) (t n v) : memoryWf (s.setAcc t n v) := h
theorem State.memberDone_memoryWf (h : memoryWf s) (key code) : memoryWf (s.memberDone key code) := h

theorem State.dropLeasesOf_memoryWf (h : memoryWf s) (core slot gen ws) :
    memoryWf (s.dropLeasesOf core slot gen ws) := by
  grind [State.dropLeasesOf, State.updTile_memoryWf]

theorem State.putRun_memoryWf (h : memoryWf s) (e r) : memoryWf (s.putRun e r) := by
  grind [State.putRun, State.dropLeasesOf_memoryWf, State.memberDone_memoryWf, State.updEngine_memoryWf]

theorem execEngineStart_keeps (h : memoryWf s) (e) : Keeps (execEngineStart e s) := by
  grind [execEngineStart, Keeps, notEnabled_keeps, State.updEngine_memoryWf, State.putRun_memoryWf]

theorem State.engineRead_keeps (h : memoryWf s) (e r) : Keeps (s.engineRead e r) := by
  grind [State.engineRead, Keeps, notEnabled_keeps, State.putRun_memoryWf, State.post_memoryWf]

theorem State.engineWrite_keeps (h : memoryWf s) (e r) : Keeps (s.engineWrite e r) := by
  grind [State.engineWrite, Keeps, notEnabled_keeps, State.putRun_memoryWf, State.post_memoryWf]

theorem State.engineReply_keeps (h : memoryWf s) (e k) : Keeps (s.engineReply e k) := by
  grind [State.engineReply, Keeps, notEnabled_keeps, State.popNet_memoryWf, State.putRun_memoryWf]

theorem execEngineAccess_keeps (h : memoryWf s) (e act) : Keeps (execEngineAccess e act s) := by
  unfold execEngineAccess
  grind [State.engineRead_keeps, notEnabled_keeps, State.engineWrite_keeps, State.engineReply_keeps]

theorem State.sendCompletion_memoryWf (h : memoryWf s) (e c status code) :
    memoryWf (s.sendCompletion e c status code) :=
  h

theorem execEngineComplete_keeps (h : memoryWf s) (e id) : Keeps (execEngineComplete e id s) := by
  grind [execEngineComplete, Keeps, notEnabled_keeps, State.setAcc_memoryWf, State.updEngine_memoryWf,
    State.sendCompletion_memoryWf, foldl_memoryWf]

theorem execParkedCommandRelease_keeps (h : memoryWf s) (e) : Keeps (execParkedCommandRelease e s) := by
  grind [execParkedCommandRelease, Keeps, notEnabled_keeps, State.updEngine_memoryWf, State.sendCompletion_memoryWf,
    State.dropLeasesOf_memoryWf]

theorem execEngineMarkerComplete_keeps (h : memoryWf s) (e) : Keeps (execEngineMarkerComplete e s) := by
  grind [execEngineMarkerComplete, Keeps, notEnabled_keeps, State.updEngine_memoryWf, State.sendCompletion_memoryWf]

theorem State.setStage_memoryWf (h : memoryWf s) (cl n g) : memoryWf (s.setStage cl n g) := h

theorem State.lineWritten_memoryWf (h : memoryWf s) (cl n g j code reason use) :
    memoryWf (s.lineWritten cl n g j code reason use) := by
  grind [State.lineWritten, State.post_memoryWf, State.setStage_memoryWf, foldl_memoryWf]

theorem State.fireStage_memoryWf (h : memoryWf s) (cl n fuel) : memoryWf (s.fireStage cl n fuel) := by
  induction fuel generalizing s with
  | zero => exact h
  | succ fuel ih =>
    unfold State.fireStage
    split
    · exact h
    · split
      · exact h
      · refine ih ?_
        split
        · exact State.lineWritten_memoryWf h ..
        · exact State.post_memoryWf (State.setStage_memoryWf h ..) ..

theorem State.lineAnswered_memoryWf (h : memoryWf s) (cl no code reason) :
    memoryWf (s.lineAnswered cl no code reason) := by
  grind [State.lineAnswered, State.fireStage_memoryWf, State.lineWritten_memoryWf]

theorem execReductionLine_keeps (h : memoryWf s) (cl) : Keeps (execReductionLine cl s) := by
  grind [execReductionLine, Keeps, notEnabled_keeps, State.updCluster_memoryWf, State.post_memoryWf,
    State.setStage_memoryWf, State.fireStage_memoryWf, State.lineAnswered_memoryWf]

/-! ### Channel homes -/

theorem State.setChan_memoryWf (h : memoryWf s) (hm e) : memoryWf (s.setChan hm e) := h

theorem State.freeChan_memoryWf (h : memoryWf s) (hm e) : memoryWf (s.freeChan hm e) := by
  grind [State.freeChan, State.updHome_memoryWf, State.setChan_memoryWf]

theorem State.tell_memoryWf (h : memoryWf s) (hm loc b) : memoryWf (s.tell hm loc b) := h

theorem State.finalCheck_memoryWf (h : memoryWf s) (hm e) : memoryWf (s.finalCheck hm e).1 := by
  grind [State.finalCheck, State.tell_memoryWf]

theorem State.takeHome_memoryWf (h : memoryWf s) (hm) : ∀ x t, s.takeHome hm = some (x, t) → memoryWf t := by
  grind [State.takeHome, State.updHome_memoryWf]

theorem execChannelCreationRequest_keeps (h : memoryWf s) (hm) : Keeps (execChannelCreationRequest hm s) := by
  grind [execChannelCreationRequest, Keeps, State.takeHome_memoryWf, State.post_memoryWf, State.updHome_memoryWf,
    notEnabled_keeps]

theorem execChannelCreationReply_keeps (h : memoryWf s) (k) : Keeps (execChannelCreationReply k s) := by
  grind [execChannelCreationReply, Keeps, notEnabled_keeps, State.popNet_memoryWf, State.updCore_memoryWf,
    State.stale_memoryWf, State.closeEnd_memoryWf, State.updSlotAt_memoryWf, State.setHAt_memoryWf,
    State.askChannel_memoryWf, State.takeTrap_memoryWf]

theorem execInstanceAllocation_keeps (h : memoryWf s) (hm) : Keeps (execInstanceAllocation hm s) := by
  unfold execInstanceAllocation
  grind [Keeps, State.takeHome_memoryWf, State.post_memoryWf, State.finalCheck_memoryWf, State.freeChan_memoryWf,
    notEnabled_keeps]

theorem execMovingNotice_keeps (h : memoryWf s) (hm) : Keeps (execMovingNotice hm s) := by
  unfold execMovingNotice
  grind [Keeps, State.takeHome_memoryWf, State.setChan_memoryWf, notEnabled_keeps]

theorem State.tellStub_memoryWf (h : memoryWf s) (hm e round dest insts) :
    memoryWf (s.tellStub hm e round dest insts) :=
  h

theorem State.landRecv_memoryWf (h : memoryWf s) (hm e loc) : memoryWf (s.landRecv hm e loc) := by
  grind [State.landRecv, State.tell_memoryWf, State.tellStub_memoryWf, State.setChan_memoryWf, foldl_memoryWf]

theorem State.landings_memoryWf (h : memoryWf s) (hm ident fuel loc n) : memoryWf (s.landings hm ident fuel loc n) := by
  induction fuel generalizing s loc n with
  | zero => exact h
  | succ fuel ih => grind [State.landings, State.setChan_memoryWf, State.landRecv_memoryWf]

theorem State.landInst_memoryWf (h : memoryWf s) (hm e n loc move) : memoryWf (s.landInst hm e n loc move) := by
  unfold State.landInst
  grind [State.setChan_memoryWf, State.tell_memoryWf, State.tellStub_memoryWf, foldl_memoryWf]

theorem execLandingNotice_keeps (h : memoryWf s) (hm) : Keeps (execLandingNotice hm s) := by
  unfold execLandingNotice
  grind [Keeps, State.takeHome_memoryWf, State.tell_memoryWf, State.landings_memoryWf, State.landInst_memoryWf,
    notEnabled_keeps]

theorem execStubRetirement_keeps (h : memoryWf s) (hm) : Keeps (execStubRetirement hm s) := by
  unfold execStubRetirement
  grind [Keeps, State.takeHome_memoryWf, State.setChan_memoryWf, notEnabled_keeps]

theorem State.instClosed_memoryWf (h : memoryWf s) (hm e n) : memoryWf (s.instClosed hm e n) := by
  grind [State.instClosed, State.setChan_memoryWf, State.tellStub_memoryWf, State.finalCheck_memoryWf,
    State.freeChan_memoryWf, foldl_memoryWf]

theorem State.recvClosed_memoryWf (h : memoryWf s) (hm e carried) : memoryWf (s.recvClosed hm e carried) := by
  grind [State.recvClosed, State.tell_memoryWf, State.freeChan_memoryWf, foldl_memoryWf]

theorem execCloseNotice_keeps (h : memoryWf s) (hm) : Keeps (execCloseNotice hm s) := by
  unfold execCloseNotice
  grind [Keeps, State.takeHome_memoryWf, State.instClosed_memoryWf, State.recvClosed_memoryWf, notEnabled_keeps]

theorem State.countDropped_memoryWf (h : memoryWf s) (m) : memoryWf (s.countDropped m) := by
  grind [State.countDropped, State.showCounts_memoryWf, State.updJob_memoryWf]

theorem execMismatchedMessageReturn_keeps (h : memoryWf s) (hm) : Keeps (execMismatchedMessageReturn hm s) := by
  unfold execMismatchedMessageReturn
  split
  · have hp := State.takeHome_memoryWf h hm _ _ ‹_›
    split
    · split
      · exact State.countDropped_memoryWf (State.dropMsg_memoryWf hp ..) ..
      · refine ite_keeps (State.countDropped_memoryWf (State.dropMsg_memoryWf hp ..) ..) ?_
        split <;> exact State.post_memoryWf hp ..
    · trivial
  · trivial

theorem State.updStub_memoryWf (h : memoryWf s) (c ident gen f) : memoryWf (s.updStub c ident gen f) := h

theorem execMessageArrival_keeps (h : memoryWf s) (c) : Keeps (execMessageArrival c s) := by
  grind [execMessageArrival, Keeps, notEnabled_keeps, State.updCore_memoryWf, State.settle_memoryWf,
    State.updStub_memoryWf, State.post_memoryWf]

theorem execMessageRelease_keeps (h : memoryWf s) (c ident inst) : Keeps (execMessageRelease c ident inst s) := by
  grind [execMessageRelease, Keeps, State.closure_memoryWf, notEnabled_keeps, State.updCore_memoryWf,
    State.release_memoryWf]

theorem execStubForward_keeps (h : memoryWf s) (c ident gen) : Keeps (execStubForward c ident gen s) := by
  grind [execStubForward, Keeps, notEnabled_keeps, State.stubCheck_memoryWf, State.forwardMsg_memoryWf,
    State.updStub_memoryWf]

theorem State.stubTold_memoryWf (h : memoryWf s) (c ident gen dest made insts done) :
    memoryWf (s.stubTold c ident gen dest made insts done) := by
  grind [State.stubTold, State.post_memoryWf, State.stubCheck_memoryWf, State.updStub_memoryWf]

theorem State.updSend_memoryWf (h : memoryWf s) (a ident inst f) : memoryWf (s.updSend a ident inst f) := by
  unfold State.updSend
  grind [memoryWf_iff, State.updInst_memoryWf]

theorem State.followNotice_memoryWf (h : memoryWf s) (k b home ident inst f keep) (hf : ∀ u x, memoryWf u → memoryWf
    (f u x)) :
    memoryWf (s.followNotice k b home ident inst f keep) := by
  unfold State.followNotice
  split
  · split
    · exact h
    · split
      · exact h
      · grind [State.tell_memoryWf, State.setChan_memoryWf]
  · split
    · exact hf _ _ h
    · exact State.post_memoryWf h ..

theorem State.notice_keeps (h : memoryWf s) (name k b ident inst f keep) (hf : ∀ x0 x1, memoryWf x0 → memoryWf (f x0
    x1)) : Keeps (s.notice name k b ident inst f keep) := by
  grind [State.notice, Keeps, notEnabled_keeps, State.followNotice_memoryWf, State.popNet_memoryWf]

theorem execRedirect_keeps (h : memoryWf s) (k) : Keeps (execRedirect k s) := by
  grind [execRedirect, State.notice_keeps, State.post_memoryWf, State.updSend_memoryWf, notEnabled_keeps]

theorem execCreditReturn_keeps (h : memoryWf s) (k) : Keeps (execCreditReturn k s) := by
  grind [execCreditReturn, State.notice_keeps, State.updSend_memoryWf, notEnabled_keeps]

theorem execPeerClosedNotice_keeps (h : memoryWf s) (k) : Keeps (execPeerClosedNotice k s) := by
  grind [execPeerClosedNotice, State.notice_keeps, State.updSend_memoryWf, notEnabled_keeps]

theorem execFinalNotice_keeps (h : memoryWf s) (k) : Keeps (execFinalNotice k s) := by
  unfold execFinalNotice
  split
  · split
    · refine ite_keeps trivial (ite_keeps (State.settle_memoryWf (by exact h) ..) ?_)
      split
      · exact h
      · split
        · exact State.post_memoryWf (by exact h) ..
        · exact State.updStub_memoryWf (by exact h) ..
    · trivial
  · trivial

theorem execFenceMarker_keeps (h : memoryWf s) (k) : Keeps (execFenceMarker k s) := by
  grind [execFenceMarker, Keeps, notEnabled_keeps, State.stubCheck_memoryWf, State.updStub_memoryWf,
    State.popNet_memoryWf]

theorem execHandoverMarker_keeps (h : memoryWf s) (k) : Keeps (execHandoverMarker k s) := by
  unfold execHandoverMarker
  split
  · split
    · refine ite_keeps trivial (ite_keeps (State.settle_memoryWf (by exact h) ..) ?_)
      have hp := State.popNet_memoryWf h k
      split
      · exact hp
      · grind [Keeps, State.updStub_memoryWf, State.post_memoryWf, State.stubCheck_memoryWf]
    · trivial
  · trivial

theorem State.dropTaken_memoryWf (h : memoryWf s) (c m) : memoryWf (s.dropTaken c m) :=
  State.gone_memoryWf (State.dropMsg_memoryWf h ..) ..

theorem State.chanTask_memoryWf (h : memoryWf s) (c cls m segin segend left off level) :
    memoryWf (s.chanTask c cls m segin segend left off level) := by
  grind [State.chanTask, State.landEnd_memoryWf, State.taken_memoryWf, State.enqueue_memoryWf,
    State.giveCredit_memoryWf]

theorem execHandlerTaskCreate_keeps (h : memoryWf s) (c cls) : Keeps (execHandlerTaskCreate c cls s) := by
  grind [execHandlerTaskCreate, Keeps, notEnabled_keeps, State.setCore_memoryWf, State.emit_memoryWf,
    State.dropTaken_memoryWf, State.overflowRecord_memoryWf, State.chanTask_memoryWf, State.closeCarried_memoryWf,
    State.landEnd_memoryWf, State.enqueue_memoryWf]

theorem execCompletionTaskCreate_keeps (h : memoryWf s) (c) : Keeps (execCompletionTaskCreate c s) := by
  grind [execCompletionTaskCreate, Keeps, notEnabled_keeps, State.setCore_memoryWf, State.settleExits_memoryWf,
    State.sendCount_memoryWf, State.overflowRecord_memoryWf, State.join_memoryWf, State.enqueue_memoryWf]

theorem State.commandDone_memoryWf (h : memoryWf s) (c l gen matrix num) :
    memoryWf (s.commandDone c l gen matrix num) := by
  grind [State.commandDone, State.updCore_memoryWf, State.updSlotAt_memoryWf]

theorem State.foreignEnd_memoryWf (h : memoryWf s) (c p slot gen follow code leases) :
    memoryWf (s.foreignEnd c p slot gen follow code leases) := by
  grind [State.foreignEnd, State.dropLeasesOf_memoryWf, State.memberDone_memoryWf]

theorem execSilentNotice_keeps (h : memoryWf s) (k) : Keeps (execSilentNotice k s) := by
  grind [execSilentNotice, Keeps, notEnabled_keeps, State.settleExits_memoryWf, State.commandDone_memoryWf,
    State.foreignEnd_memoryWf, State.popNet_memoryWf]

/-! ### Frieze rings -/

theorem friezeForm_keeps (h : memoryWf s) (i reads writes k) (hk : ∀ x0, memoryWf x0 → Keeps (k x0)) :
    Keeps (friezeForm i reads writes k s) := by
  grind [friezeForm, issue_keeps, State.trap_keeps]

theorem execRrot_keeps (h : memoryWf s) : Keeps (execRrot s) := by
  grind [execRrot, Keeps, friezeForm_keeps, State.updTile_memoryWf, State.upd_memoryWf]

theorem execMtset_keeps (h : memoryWf s) (a b) : Keeps (execMtset a b s) := by
  grind [execMtset, Keeps, friezeForm_keeps, State.retire_memoryWf, State.updCluster_memoryWf]

theorem execMtlist_keeps (h : memoryWf s) (a b) : Keeps (execMtlist a b s) := by
  grind [execMtlist, Keeps, friezeForm_keeps, State.updTile_memoryWf, State.retire_memoryWf, State.setX_memoryWf]

theorem execMrel_keeps (h : memoryWf s) (n) : Keeps (execMrel n s) := by
  grind [execMrel, Keeps, issue_keeps, State.retire_memoryWf, State.dropLeases_memoryWf]

theorem State.rotate_memoryWf (h : memoryWf s) (tiles) : memoryWf (s.rotate tiles) := by
  obtain ⟨hs, hrest⟩ := h
  refine ⟨?_, hrest⟩
  exact List.foldlRecOn (motive := fun m => Memory.wf m = true) _ _ (Memory.filter_wf hs _)
    fun _ hm _ _ => Memory.moveCells_wf hs hm ..

theorem State.writeMiss_memoryWf (h : memoryWf s) (t step tagA tagB) : memoryWf (s.writeMiss t step tagA tagB) := by
  grind [State.writeMiss, State.updTile_memoryWf, State.updCluster_memoryWf, State.updUnit_memoryWf]

theorem State.joinMatch_memoryWf (h : memoryWf s) (c e) : memoryWf (s.joinMatch c e) :=
  State.updLevel_memoryWf (State.join_memoryWf h ..) ..

theorem State.encounter_memoryWf (h : memoryWf s) (t which step due tagA tagB e again) :
    memoryWf (s.encounter t which step due tagA tagB e again) := by
  grind [State.encounter, State.writeMiss_memoryWf, State.updUnit_memoryWf, State.updTile_memoryWf,
    State.overflowRecord_memoryWf, State.updCluster_memoryWf, State.joinMatch_memoryWf]

theorem State.matchTile_memoryWf (h : memoryWf s) (t n step total) : memoryWf (s.matchTile t n step total) := by
  grind [State.matchTile, State.updTile_memoryWf, State.encounter_memoryWf]

theorem State.sweepDone_memoryWf (h : memoryWf s) (cl) : memoryWf (s.sweepDone cl) := by
  grind [State.sweepDone, State.updCluster_memoryWf, State.post_memoryWf]

theorem State.endRrot_memoryWf (h : memoryWf s) (t) : memoryWf (s.endRrot t) := by
  grind [State.endRrot, State.updTile_memoryWf, State.updSlotAt_memoryWf]

theorem execStep_keeps (h : memoryWf s) (cl sub) : Keeps (execStep cl sub s) := by
  grind [execStep, Keeps, notEnabled_keeps, State.updCluster_memoryWf, State.updTile_memoryWf, State.rotate_memoryWf,
    State.matchTile_memoryWf, State.sweepDone_memoryWf, State.endRrot_memoryWf, foldl_memoryWf]

/-! ### Levels -/

theorem State.notify_memoryWf (h : memoryWf s) (k v cancelled) : memoryWf (s.notify k v cancelled) := by
  grind [State.notify, State.event_memoryWf, State.post_memoryWf]

theorem State.relevel_memoryWf (h : memoryWf s) (k job) : memoryWf (s.relevel k job) := h
theorem State.tellLevels_memoryWf (h : memoryWf s) (p keys n) : memoryWf (s.tellLevels p keys n) := h

theorem State.tasksAway_memoryWf (h : memoryWf s) (l) : memoryWf (s.tasksAway l) := by
  grind [State.tasksAway, State.updLevel_memoryWf]

theorem State.settleLevel_memoryWf (h : memoryWf s) (fuel k) : memoryWf (s.settleLevel fuel k) := by
  induction fuel generalizing s k with
  | zero => exact h
  | succ fuel ih =>
    grind [State.settleLevel, foldl_memoryWf, State.tellLevels_memoryWf, State.setLevel_memoryWf,
      State.relevel_memoryWf,
      State.tasksAway_memoryWf, State.notify_memoryWf, State.updLevel_memoryWf]

theorem State.lowerLevel_memoryWf (h : memoryWf s) (k n) : memoryWf (s.lowerLevel k n) :=
  State.settleLevel_memoryWf (State.updLevel_memoryWf h ..) ..

theorem State.countAt_memoryWf (h : memoryWf s) (hm k up) : memoryWf (s.countAt hm k up) := by
  grind [State.countAt, State.overflowRecord_memoryWf, State.updLevel_memoryWf, State.lowerLevel_memoryWf]

theorem State.countKilled_memoryWf (h : memoryWf s) (k top) : memoryWf (s.countKilled k top) := by
  grind [State.countKilled, State.updLevel_memoryWf, foldl_memoryWf]

theorem execCountChange_keeps (h : memoryWf s) (hm) : Keeps (execCountChange hm s) := by
  grind [execCountChange, Keeps, State.takeHome_memoryWf, State.countAt_memoryWf, State.countKilled_memoryWf,
    notEnabled_keeps]

theorem State.admitCores_memoryWf (h : memoryWf s) (k final) : memoryWf (s.admitCores k final) := by
  grind [State.admitCores, memoryWf_iff, State.setLevel_memoryWf, State.place_memoryWf, foldl_memoryWf]

theorem State.endCycle_memoryWf (h : memoryWf s) : memoryWf s.endCycle := by
  grind [State.endCycle, memoryWf_iff, State.settleLevel_memoryWf, State.admitCores_memoryWf, foldl_memoryWf]

theorem State.divide_memoryWf (h : memoryWf s) (k) : memoryWf (s.divide k) := by
  grind [State.divide, memoryWf_iff, State.updDraw_memoryWf, foldl_memoryWf]

theorem State.ringStart_memoryWf (h : memoryWf s) (k v) : memoryWf (s.ringStart k v) := by
  grind [State.ringStart, State.updTile_memoryWf, State.updCluster_memoryWf, foldl_memoryWf]

theorem State.startLevel_memoryWf (h : memoryWf s) (k) : memoryWf (s.startLevel k) := by
  grind [State.startLevel, memoryWf_iff, State.setLevel_memoryWf, State.ringStart_memoryWf,
    State.admitCores_memoryWf, State.divide_memoryWf, State.settleLevel_memoryWf]

theorem State.markCancel_memoryWf (h : memoryWf s) (k) : memoryWf (s.markCancel k) := by
  grind [State.markCancel, State.setLevel_memoryWf, State.post_memoryWf, foldl_memoryWf]

theorem State.purgeRunq_memoryWf (h : memoryWf s) (lvs c) : memoryWf (s.purgeRunq lvs c) := by
  grind [State.purgeRunq, State.sendCount_memoryWf, State.closeEnd_memoryWf, State.updCore_memoryWf, foldl_memoryWf]

theorem State.wakeCancelled_memoryWf (h : memoryWf s) (fresh) : memoryWf (s.wakeCancelled fresh) := by
  grind [State.wakeCancelled, State.wakeSlot_memoryWf, foldl_memoryWf]

theorem State.makePending_memoryWf (h : memoryWf s) (lvs) : memoryWf (s.makePending lvs) := by
  grind [State.makePending, State.markCancel_memoryWf, State.tellLevels_memoryWf, State.purgeRunq_memoryWf,
    State.settleLevel_memoryWf, State.wakeCancelled_memoryWf, foldl_memoryWf]

theorem PortWrite.done_memoryWf (h : memoryWf s) (w) : memoryWf (PortWrite.done w s) := by
  grind [PortWrite.done, State.ackWrite_memoryWf]

theorem State.portWrite_memoryWf (h : memoryWf s) (w) : ∀ q, s.portWrite w = some q → memoryWf q.rest := by
  unfold State.portWrite
  grind [State.takeHome_memoryWf, Option.map_eq_some_iff]

theorem State.freshen_memoryWf (h : memoryWf s) (k) : memoryWf (s.freshen k) := by
  grind [State.freshen, memoryWf_iff]

theorem State.hostPort_memoryWf (h : memoryWf s) (w) : ∀ t, s.hostPort w = some t → memoryWf t := by
  unfold State.hostPort
  grind [State.appendLog_memoryWf, State.badWrite_memoryWf]

theorem State.doStart_memoryWf (h : memoryWf s) (k j) : memoryWf (s.doStart k j) := by
  grind [State.doStart, State.freshen_memoryWf, State.setLevel_memoryWf, State.startLevel_memoryWf,
    State.badWrite_memoryWf]

theorem execStart_keeps (h : memoryWf s) (w) : Keeps (execStart w s) := by
  grind [execStart, Keeps, notEnabled_keeps, State.hostPort_memoryWf, State.portWrite_memoryWf,
    PortWrite.done_memoryWf, State.doStart_memoryWf]

theorem State.beforeArm_memoryWf (h : memoryWf s) (k) : memoryWf (s.beforeArm k) := by
  grind [State.beforeArm, State.freshen_memoryWf]

theorem State.doArm_memoryWf (h : memoryWf s) (k j) : memoryWf (s.doArm k j) := by
  grind [State.doArm, State.beforeArm_memoryWf, State.badWrite_memoryWf, State.overflowRecord_memoryWf,
    State.updLevel_memoryWf, State.setLevel_memoryWf, State.makePending_memoryWf, State.startLevel_memoryWf]

theorem execArm_keeps (h : memoryWf s) (w) : Keeps (execArm w s) := by
  grind [execArm, Keeps, notEnabled_keeps, State.portWrite_memoryWf, PortWrite.done_memoryWf, State.doArm_memoryWf]

theorem State.newOfH_memoryWf (h : memoryWf s) (holder) : ∀ x t, s.newOfH holder = some (x, t) → memoryWf t := by
  grind [State.newOfH, State.setChan_memoryWf]

theorem State.doTask_memoryWf (h : memoryWf s) (j data) : memoryWf (s.doTask j data) := by
  grind [State.doTask, memoryWf_iff, State.badWrite_memoryWf, State.post_memoryWf, State.carryRecv_memoryWf,
    State.newOfH_memoryWf]

theorem execTask_keeps (h : memoryWf s) (w) : Keeps (execTask w s) := by
  grind [execTask, Keeps, notEnabled_keeps, State.portWrite_memoryWf, PortWrite.done_memoryWf,
    State.badWrite_memoryWf, State.doTask_memoryWf]

theorem State.ownH_memoryWf (h : memoryWf s) : ∀ x t, s.ownH = some (x, t) → memoryWf t := by
  grind [State.ownH, State.newOfH_memoryWf]

theorem execHCompletion_keeps (h : memoryWf s) : Keeps (execHCompletion s) := by
  unfold execHCompletion
  split
  · trivial
  · dsimp only
    split
    · split
      · trivial
      · exact h
    · have := State.ownH_memoryWf h _ _ ‹_›
      split_ifs
      · exact this
      · trivial
      · exact this

theorem State.cancelLevel_memoryWf (h : memoryWf s) (k) : memoryWf (s.cancelLevel k) :=
  State.makePending_memoryWf (State.setLevel_memoryWf h ..) ..

theorem execCancelRequest_keeps (h : memoryWf s) (hm) : Keeps (execCancelRequest hm s) := by
  unfold execCancelRequest
  grind [Keeps, notEnabled_keeps, State.takeHome_memoryWf, State.freshen_memoryWf, State.cancelLevel_memoryWf,
    mapD_memoryWf]

theorem execRemovalNotice_keeps (h : memoryWf s) (die) : Keeps (execRemovalNotice die s) := by
  grind [execRemovalNotice, Keeps, State.updDraw_memoryWf, State.lowerLevel_memoryWf, State.updLevel_memoryWf,
    notEnabled_keeps]

theorem State.killAt_memoryWf (h : memoryWf s) (k e) : memoryWf (s.killAt k e) := by
  grind [State.killAt, State.countKilled_memoryWf, State.post_memoryWf, State.kill_memoryWf]

theorem execCancelDeadline_keeps (h : memoryWf s) (k) : Keeps (execCancelDeadline k s) := by
  grind [execCancelDeadline, Keeps, notEnabled_keeps, State.tellLevels_memoryWf, State.setLevel_memoryWf,
    State.killAt_memoryWf, foldl_memoryWf]

theorem State.takeCopy_memoryWf (h : memoryWf s) (c) : memoryWf (s.takeCopy c) := by
  grind [State.takeCopy, State.setLevel_memoryWf]

theorem State.levelAway_memoryWf (h : memoryWf s) (from_ key) : memoryWf (s.levelAway from_ key) := by
  grind [State.levelAway, State.tellLevels_memoryWf, State.tasksAway_memoryWf, State.updLevel_memoryWf]

theorem State.levelNews_memoryWf (h : memoryWf s) (keys n) : memoryWf (s.levelNews keys n) := by
  unfold State.levelNews
  grind [memoryWf_iff, State.makePending_memoryWf, State.killAt_memoryWf, State.setLevel_memoryWf,
    State.relevel_memoryWf, foldl_memoryWf]

/-! ### Filling slots -/

theorem execSlotFill_keeps (h : memoryWf s) (c) : Keeps (execSlotFill c s) := by
  grind [execSlotFill, Keeps, notEnabled_keeps, State.place_memoryWf, State.setCore_memoryWf, State.post_memoryWf]

theorem State.passDraw_memoryWf (h : memoryWf s) (die p c l tries) : memoryWf (s.passDraw die p c l tries) := by
  grind [State.passDraw, State.post_memoryWf]

theorem execDraw_keeps (h : memoryWf s) (die) : Keeps (execDraw die s) := by
  grind [execDraw, Keeps, notEnabled_keeps, State.updDraw_memoryWf, State.post_memoryWf, State.passDraw_memoryWf]

theorem execSteal_keeps (h : memoryWf s) (die) : Keeps (execSteal die s) := by
  grind [execSteal, Keeps, notEnabled_keeps, State.updDraw_memoryWf, State.post_memoryWf, State.passDraw_memoryWf]

theorem execDrawReply_keeps (h : memoryWf s) (k) : Keeps (execDrawReply k s) := by
  grind [execDrawReply, Keeps, notEnabled_keeps, State.updCore_memoryWf, State.popNet_memoryWf, State.place_memoryWf,
    State.updCluster_memoryWf]

theorem execRunQueueAgeing_keeps (h : memoryWf s) (c) : Keeps (execRunQueueAgeing c s) := by
  grind [execRunQueueAgeing, Keeps, notEnabled_keeps, State.updCore_memoryWf]

theorem execLoadSummary_keeps (h : memoryWf s) : Keeps (execLoadSummary s) := by
  grind [execLoadSummary, Keeps, memoryWf_iff, notEnabled_keeps, State.updCluster_memoryWf, foldl_memoryWf]

theorem State.shipOne_memoryWf (h : memoryWf s) (asker victim) : ∀ t, s.shipOne asker victim = some t → memoryWf t := by
  unfold State.shipOne
  grind [memoryWf_iff, State.updCore_memoryWf, State.join_memoryWf, Option.bind_eq_some_iff]

theorem State.ship_memoryWf (h : memoryWf s) (asker victim n) : memoryWf (s.ship asker victim n) := by
  induction n generalizing s with
  | zero => exact h
  | succ n ih => grind [State.ship, State.shipOne_memoryWf]

theorem execWorkDonation_keeps (h : memoryWf s) (asker victim) : Keeps (execWorkDonation asker victim s) := by
  grind [execWorkDonation, Keeps, notEnabled_keeps, State.updCluster_memoryWf, State.ship_memoryWf]

theorem State.askSlot_memoryWf (h : memoryWf s) (c l peer pa) : memoryWf (s.askSlot c l peer pa) := h

theorem State.giveBack_memoryWf (h : memoryWf s) (a pick) : memoryWf (s.giveBack a pick) := by
  unfold State.giveBack
  grind [State.post_memoryWf]

theorem State.shipTask_memoryWf (h : memoryWf s) (c l peer to_) : memoryWf (s.shipTask c l peer to_) := by
  grind [State.shipTask, State.carrySend_memoryWf, State.post_memoryWf, State.updSlotAt_memoryWf, foldl_memoryWf]

theorem execTaskMigration_keeps (h : memoryWf s) (c l) : Keeps (execTaskMigration c l s) := by
  grind [execTaskMigration, Keeps, memoryWf_iff, notEnabled_keeps, State.askSlot_memoryWf, State.giveBack_memoryWf,
    State.shipTask_memoryWf, State.updSlotAt_memoryWf]

theorem State.reserveSlot_memoryWf (h : memoryWf s) (from_ pa) : memoryWf (s.reserveSlot from_ pa) := by
  unfold State.reserveSlot
  grind [memoryWf_iff, State.post_memoryWf]

theorem State.slotAnswered_memoryWf (h : memoryWf s) (from_ pick) : memoryWf (s.slotAnswered from_ pick) := h

theorem State.unreserve_memoryWf (h : memoryWf s) (c l) : memoryWf (s.unreserve c l) := by
  grind [State.unreserve, memoryWf_iff]

theorem State.takeContext_memoryWf (h : memoryWf s) (c l sl levels) :
    ∀ t, s.takeContext c l sl levels = some t → memoryWf t := by
  unfold State.takeContext
  grind [memoryWf_iff, State.takeCopy_memoryWf, State.post_memoryWf, foldl_memoryWf, Option.map_eq_some_iff]

theorem execMigrationArrival_keeps (h : memoryWf s) (c l) : Keeps (execMigrationArrival c l s) := by
  grind [execMigrationArrival, Keeps, memoryWf_iff, notEnabled_keeps, State.updCore_memoryWf,
    State.setSlotAt_memoryWf, State.landEnd_memoryWf, State.killAt_memoryWf, foldl_memoryWf]

theorem execWatchdogExpiry_keeps (h : memoryWf s) (c l) : Keeps (execWatchdogExpiry c l s) := by
  grind [execWatchdogExpiry, Keeps, notEnabled_keeps, State.updSlotAt_memoryWf, State.emit_memoryWf,
    State.kill_memoryWf, State.updCore_memoryWf, State.sendCount_memoryWf, State.closeEnd_memoryWf]

theorem execWfiTimeout_keeps (h : memoryWf s) (c l) : Keeps (execWfiTimeout c l s) := by
  grind [execWfiTimeout, Keeps, notEnabled_keeps, State.updSlotAt_memoryWf]

/-! ### Armature's placement and the TLBs' upkeep -/

theorem State.beginMigration_memoryWf (h : memoryWf s) (old new peer) : memoryWf (s.beginMigration old new peer) := h

theorem State.replicate_memoryWf (h : memoryWf s) (r die f) : memoryWf (s.replicate r die f) := by
  grind [State.replicate, memoryWf_iff, Memory.copy_wf, State.setPage_memoryWf]

theorem State.migrateDue_memoryWf (h : memoryWf s) (l pick die ok none_) :
    ∀ t, s.migrateDue l pick die ok none_ = some t → memoryWf t := by
  unfold State.migrateDue
  grind [State.beginMigration_memoryWf]

theorem State.askPage_memoryWf (h : memoryWf s) (f p) : memoryWf (s.askPage f p) := by
  grind [State.askPage, memoryWf_iff, State.post_memoryWf]

theorem State.placeDue_memoryWf (h : memoryWf s) (cs live l) : ∀ t, s.placeDue cs live l = some t → memoryWf t := by
  unfold State.placeDue
  cases s.due l with
  | nothing => exact ite_some_memoryWf (some_memoryWf h) none_memoryWf
  | replicas want =>
    refine ite_some_memoryWf (ite_some_memoryWf (some_memoryWf h) none_memoryWf) (ite_some_memoryWf none_memoryWf
      (foldl_option_memoryWf ?_ want (some_memoryWf h)))
    intro u d hu
    split
    · exact ite_some_memoryWf none_memoryWf (some_memoryWf hu)
    · exact ite_some_memoryWf (some_memoryWf (State.replicate_memoryWf hu ..)) none_memoryWf
  | peer p => grind [State.askPage_memoryWf]
  | hbm ds best => grind [State.migrateDue_memoryWf]
  | lpddr => grind [State.migrateDue_memoryWf]

theorem State.markLeaf_memoryWf (h : memoryWf s) (l) : memoryWf (s.markLeaf l) := by
  unfold State.markLeaf
  grind [State.post_memoryWf, State.rawPut_memoryWf, State.setPage_memoryWf, foldl_memoryWf]

theorem State.placeAll_memoryWf (h : memoryWf s) (cs live done l) :
    ∀ t d, s.placeAll cs live done l = some (t, d) → memoryWf t := by
  induction l generalizing s done with
  | nil => grind [State.placeAll]
  | cons a r ih => grind [State.placeAll, State.placeDue_memoryWf, State.markLeaf_memoryWf, Option.bind_eq_some_iff]

theorem State.tellQuiet_memoryWf (h : memoryWf s) : memoryWf s.tellQuiet := by
  grind [State.tellQuiet, memoryWf_iff, State.post_memoryWf, foldl_memoryWf]

theorem State.asJob_memoryWf (h : memoryWf s) (j) : memoryWf (s.asJob j) := by
  obtain ⟨hs, hd, hh, hm, hv⟩ := id h
  unfold State.asJob
  split
  · exact h
  · refine ⟨savedWf.get hv ‹_›, hd, hh, hm, ?_⟩
    dsimp only
    split
    · exact savedWf.set (savedWf.del hv j) _ hs
    · exact savedWf.del hv j

theorem State.placeJob_memoryWf (h : memoryWf s) (cs done j) :
    ∀ t d, s.placeJob cs done j = some (t, d) → memoryWf t := by
  intro t d ht
  unfold State.placeJob at ht
  dsimp only at ht
  split at ht
  · obtain ⟨⟨u, e⟩, hu, ht⟩ := Option.map_eq_some_iff.mp ht
    have := State.placeAll_memoryWf h _ _ _ _ _ _ hu
    grind [State.tellQuiet_memoryWf]
  · split at ht
    · grind
    · obtain ⟨⟨u, e⟩, hu, ht⟩ := Option.map_eq_some_iff.mp ht
      have hu := State.placeAll_memoryWf (State.asJob_memoryWf h j) _ _ _ _ _ _ hu
      cases ht
      split
      · exact State.asJob_memoryWf hu _
      · obtain ⟨hs, hd, hh, hm, hv⟩ := hu
        exact ⟨h.1, hd, hh, hm, savedWf.set hv j hs⟩

theorem State.placeJobs_memoryWf (h : memoryWf s) (cs done l) : ∀ t, s.placeJobs cs done l = some t → memoryWf t := by
  induction l generalizing s done with
  | nil => grind [State.placeJobs]
  | cons j r ih => grind [State.placeJobs, State.placeJob_memoryWf, Option.bind_eq_some_iff]

theorem execEvaluation_keeps (h : memoryWf s) (choices) : Keeps (execEvaluation choices s) := by
  unfold execEvaluation
  split
  · trivial
  · split
    · trivial
    · rename_i t ht
      have := State.placeJobs_memoryWf h choices [] _ t ht
      exact this

theorem State.forwardTo_memoryWf (h : memoryWf s) (hm m p) : memoryWf (s.forwardTo hm m p) := by
  grind [State.forwardTo, State.updHome_memoryWf, State.append_memoryWf]

theorem State.enterHome_memoryWf (h : memoryWf s) (hm p) : memoryWf (s.enterHome hm p) := by
  grind [State.enterHome, State.forwardTo_memoryWf, State.updHome_memoryWf]

theorem State.arriveHome_memoryWf (h : memoryWf s) (hm src p0) : memoryWf (s.arriveHome hm src p0) := by
  grind [State.arriveHome, State.updHome_memoryWf, State.enterHome_memoryWf]

theorem State.rewriteLeaf_memoryWf (h : memoryWf s) (peer new l) : memoryWf (s.rewriteLeaf peer new l) := by
  grind [State.rewriteLeaf, State.rawPut_memoryWf]

theorem State.tellManagement_memoryWf (h : memoryWf s) (b peer) : memoryWf (s.tellManagement b peer) := h

theorem State.dropAll_memoryWf (h : memoryWf s) (p old n) : memoryWf (s.dropAll p old n) := by
  grind [State.dropAll, State.post_memoryWf, foldl_memoryWf]

theorem State.endShoots_memoryWf (h : memoryWf s) : memoryWf s.endShoots := by
  grind [State.endShoots, memoryWf_iff, State.eqxEvent_memoryWf, State.dropAll_memoryWf,
    State.tellManagement_memoryWf, State.post_memoryWf, foldl_memoryWf]

theorem State.openDrains_memoryWf (h : memoryWf s) (from_ old new) : memoryWf (s.openDrains from_ old new) := by
  grind [State.openDrains, State.updHome_memoryWf, foldl_memoryWf]

theorem State.putPoison_memoryWf (h : memoryWf s) (f l) : memoryWf (s.putPoison f l) := h

theorem execMigrationSwitch_keeps (h : memoryWf s) (old) : Keeps (execMigrationSwitch old s) := by
  unfold execMigrationSwitch
  split
  · trivial
  · lift_lets
    extract_lets own me leaves bad r data inOld _ clean s1 s2 olds sources m1 s3 s4 goes s5 s6 s7 s8
    have h1 : memoryWf s1 := by grind [memoryWf_iff, Memory.copy_wf, State.putPoison_memoryWf]
    have h2 : memoryWf s2 := foldl_memoryWf (fun _ _ hu => State.rewriteLeaf_memoryWf hu ..) h1 _
    have h4 : memoryWf s4 := by grind [memoryWf_iff, State.openDrains_memoryWf]
    have h5 : memoryWf s5 := foldl_memoryWf (fun _ _ hu =>
      foldl_memoryWf (fun _ _ hu => State.forwardTo_memoryWf hu ..) (by exact hu) _) h4 _
    have h6 : memoryWf s6 := foldl_memoryWf (fun _ _ hu => State.post_memoryWf hu ..) h5 _
    have h8 : memoryWf s8 := by grind [memoryWf_iff, State.setPage_memoryWf]
    exact State.endShoots_memoryWf h8

theorem State.pageMoved_memoryWf (h : memoryWf s) (src old new dst data poison dies peers) :
    memoryWf (s.pageMoved src old new dst data poison dies peers) := by
  grind [State.pageMoved, memoryWf_iff, State.rewriteLeaf_memoryWf, State.openDrains_memoryWf,
    State.setPage_memoryWf, State.putPoison_memoryWf, State.rawPut_memoryWf, State.dropAll_memoryWf,
    State.endShoots_memoryWf, foldl_memoryWf]

theorem State.takePageAsk_memoryWf (h : memoryWf s) (from_ old) : memoryWf (s.takePageAsk from_ old) := h

theorem State.takePageRoom_memoryWf (h : memoryWf s) (from_ old new) : memoryWf (s.takePageRoom from_ old new) := by
  unfold State.takePageRoom
  grind [memoryWf_iff, State.beginMigration_memoryWf, State.post_memoryWf]

theorem State.takePageBack_memoryWf (h : memoryWf s) (from_ old new) : memoryWf (s.takePageBack from_ old new) := h

theorem State.putMove_memoryWf (h : memoryWf s) (src frame on) : memoryWf (s.putMove src frame on) := by
  grind [State.putMove, State.rawPut_memoryWf, foldl_memoryWf]

theorem State.undrain_memoryWf (h : memoryWf s) (old src hm) : memoryWf (s.undrain old src hm) := h

theorem State.sendDrains_memoryWf (h : memoryWf s) (hm m c srcs) : memoryWf (s.sendDrains hm m c srcs) := by
  grind [State.sendDrains, State.post_memoryWf, foldl_memoryWf]

theorem execDropMarker_keeps (h : memoryWf s) (hm) : Keeps (execDropMarker hm s) := by
  unfold execDropMarker
  split
  · have hp := State.takeHome_memoryWf h hm _ _ ‹_›
    split
    · split
      · exact hp
      · grind [Keeps, memoryWf_iff, State.sendDrains_memoryWf, State.undrain_memoryWf]
    · trivial
  · trivial

theorem State.releaseHeld_memoryWf (h : memoryWf s) (hm) : memoryWf (s.releaseHeld hm) := by
  grind [State.releaseHeld, State.enterHome_memoryWf, State.updHome_memoryWf, foldl_memoryWf]

theorem State.settleIncoming_memoryWf (h : memoryWf s) : memoryWf s.settleIncoming := h

theorem execDrainMarker_keeps (h : memoryWf s) (hm) : Keeps (execDrainMarker hm s) := by
  grind [execDrainMarker, Keeps, State.takeHome_memoryWf, State.settleIncoming_memoryWf, State.releaseHeld_memoryWf,
    State.updHome_memoryWf, notEnabled_keeps]

theorem State.dropTlb_memoryWf (h : memoryWf s) (who base len) : memoryWf (s.dropTlb who base len) := by
  unfold State.dropTlb
  grind [State.updCore_memoryWf, State.updCluster_memoryWf]

theorem State.sendDrops_memoryWf (h : memoryWf s) (c x) : memoryWf (s.sendDrops c x) := by
  grind [State.sendDrops, State.post_memoryWf, foldl_memoryWf]

theorem execTlbShootdown_keeps (h : memoryWf s) (who base len) : Keeps (execTlbShootdown who base len s) := by
  grind [execTlbShootdown, Keeps, memoryWf_iff, notEnabled_keeps, State.dropTlb_memoryWf, State.sendDrops_memoryWf,
    State.endShoots_memoryWf]

theorem State.shoot_memoryWf (h : memoryWf s) (base len why far) : memoryWf (s.shoot base len why far) :=
  State.endShoots_memoryWf h ..

theorem State.invalidate_memoryWf (h : memoryWf s) (j base len) : memoryWf (s.invalidate j base len) := by
  grind [State.invalidate, State.tellManagement_memoryWf, State.shoot_memoryWf, foldl_memoryWf]

theorem State.takeShoot_memoryWf (h : memoryWf s) (from_ tag base len) : memoryWf (s.takeShoot from_ tag base len) := by
  grind [State.takeShoot, State.shoot_memoryWf, State.tellManagement_memoryWf]

theorem State.shootEnds_memoryWf (h : memoryWf s) (from_ base len) : memoryWf (s.shootEnds from_ base len) := by
  grind [State.shootEnds, memoryWf_iff, State.endShoots_memoryWf]

theorem State.putSeal_memoryWf (h : memoryWf s) (on page) : memoryWf (s.putSeal on page) := by
  grind [State.putSeal, State.rawPut_memoryWf]

theorem State.askSeal_memoryWf (h : memoryWf s) (a base len) : memoryWf (s.askSeal a base len) := by
  grind [State.askSeal, State.post_memoryWf, foldl_memoryWf]

theorem State.sealLeaves_memoryWf (h : memoryWf s) (base len why) : memoryWf (s.sealLeaves base len why) := by
  grind [State.sealLeaves, memoryWf_iff, State.putSeal_memoryWf, State.shoot_memoryWf, foldl_memoryWf]

theorem State.takeQuiet_memoryWf (h : memoryWf s) (from_ base len) : memoryWf (s.takeQuiet from_ base len) := h

theorem State.beginSeal_memoryWf (h : memoryWf s) (on base len treply core level) :
    memoryWf (s.beginSeal on base len treply core level) := by
  grind [State.beginSeal, memoryWf_iff, State.sealLeaves_memoryWf, State.askSeal_memoryWf]

theorem State.endSeal_memoryWf (h : memoryWf s) (q) : memoryWf (s.endSeal q) := by
  grind [State.endSeal, State.post_memoryWf]

theorem execSealCompletion_keeps (h : memoryWf s) : Keeps (execSealCompletion s) := by
  grind [execSealCompletion, Keeps, memoryWf_iff, notEnabled_keeps, State.endSeal_memoryWf]

theorem State.dropReplicas_memoryWf (h : memoryWf s) (page) : memoryWf (s.dropReplicas page) := by
  grind [State.dropReplicas, memoryWf_iff]

theorem State.endSealed_memoryWf (h : memoryWf s) (base len) : memoryWf (s.endSealed base len) := by
  grind [State.endSealed, State.putSeal_memoryWf, State.dropTlb_memoryWf, foldl_memoryWf]

theorem execUnsealCompletion_keeps (h : memoryWf s) : Keeps (execUnsealCompletion s) := by
  grind [execUnsealCompletion, Keeps, memoryWf_iff, notEnabled_keeps, State.endSeal_memoryWf,
    State.dropReplicas_memoryWf, State.askSeal_memoryWf, State.endSealed_memoryWf, foldl_memoryWf]

theorem State.takeSeal_memoryWf (h : memoryWf s) (from_ a base len) : memoryWf (s.takeSeal from_ a base len) := by
  unfold State.takeSeal
  grind [memoryWf_iff, State.sealLeaves_memoryWf, State.dropReplicas_memoryWf, State.post_memoryWf,
    State.endSealed_memoryWf, foldl_memoryWf]

theorem State.sealAnswered_memoryWf (h : memoryWf s) (from_ base len) : memoryWf (s.sealAnswered from_ base len) := h

theorem execPageWalk_keeps (h : memoryWf s) (c va fetch) : Keeps (execPageWalk c va fetch s) := by
  grind [execPageWalk, Keeps, notEnabled_keeps, State.lookup_memoryWf]

/-! ### Errors and declarations, the job boundary, boot and power -/

theorem State.applyDisables_memoryWf (h : memoryWf s) : memoryWf s.applyDisables := by
  obtain ⟨hs, hd, hrest⟩ := h
  exact ⟨hs, Memory.resliced_wf (Memory.resliced_wf hd ..) .., hrest⟩

theorem State.sendLayout_memoryWf (h : memoryWf s) (peer) : memoryWf (s.sendLayout peer) := h

theorem State.jobBoundary_memoryWf (h : memoryWf s) : memoryWf s.jobBoundary := by
  grind [State.jobBoundary, State.applyDisables_memoryWf, State.sendLayout_memoryWf, foldl_memoryWf]

theorem State.boundaryDue_memoryWf (h : memoryWf s) : memoryWf s.boundaryDue := by
  grind [State.boundaryDue, State.jobBoundary_memoryWf]

theorem State.stopEngines_memoryWf (h : memoryWf s) (k u) : memoryWf (s.stopEngines k u) := by
  refine foldl_memoryWf (fun t e ht => ?_) h _
  split
  · exact ht
  · exact foldl_memoryWf (fun _ _ hu => State.putRun_memoryWf hu ..) ht _

theorem execErrorDetected_keeps (h : memoryWf s) (k u cause addr) : Keeps (execErrorDetected k u cause addr s) := by
  grind [execErrorDetected, Keeps, notEnabled_keeps, State.countError_memoryWf, State.boundaryDue_memoryWf,
    State.emit_memoryWf, State.stopEngines_memoryWf]

theorem execWindowRestart_keeps (h : memoryWf s) (k u) : Keeps (execWindowRestart k u s) := by
  grind [execWindowRestart, Keeps, notEnabled_keeps, State.updUnit_memoryWf]

theorem State.restart_memoryWf (h : memoryWf s) : memoryWf s.restart := by
  obtain ⟨-, -, hhost, -, -⟩ := h
  exact ⟨rfl, rfl, hhost, rfl, fun _ he => nomatch he⟩

theorem State.bootFails_memoryWf (h : memoryWf s) (code) : memoryWf (s.bootFails code) := h

theorem State.failTraining_memoryWf (h : memoryWf s) (u) : memoryWf (s.failTraining u) :=
  State.declareUnit_memoryWf h ..

theorem State.trainPort_memoryWf (h : memoryWf s) (n light) : memoryWf (s.trainPort n light) := by
  grind [State.trainPort, memoryWf_iff, State.linkDown_memoryWf, State.updLink_memoryWf, State.mapElec_memoryWf]

theorem execPowerOn_keeps (h : memoryWf s) (fuseOk linkOk found) : Keeps (execPowerOn fuseOk linkOk found s) := by
  unfold execPowerOn
  grind [Keeps, memoryWf_iff, notEnabled_keeps, State.restart_memoryWf, State.bootFails_memoryWf, foldl_memoryWf,
    State.failTraining_memoryWf, State.applyDisables_memoryWf, State.trainPort_memoryWf, Eqx.withDisable]

theorem execModuleReset_keeps (h : memoryWf s) : Keeps (execModuleReset s) := State.restart_memoryWf h ..

theorem State.setTj_memoryWf (h : memoryWf s) (tj) : memoryWf (s.setTj tj) := by
  grind [State.setTj, memoryWf_iff]

theorem execPowerEvaluation_keeps (h : memoryWf s) (power tj) : Keeps (execPowerEvaluation power tj s) := by
  grind [execPowerEvaluation, Keeps, memoryWf_iff, notEnabled_keeps, State.setTj_memoryWf]

theorem execThermalTrip_keeps (h : memoryWf s) (tj) : Keeps (execThermalTrip tj s) := by
  grind [execThermalTrip, Keeps, notEnabled_keeps, State.setTj_memoryWf]

theorem execRailRemoval_keeps (h : memoryWf s) : Keeps (execRailRemoval s) := by
  grind [execRailRemoval, Keeps, memoryWf_iff, notEnabled_keeps]

/-! ### The context area of a job -/

theorem State.putHeader_memoryWf (h : memoryWf s) (j) : memoryWf (s.putHeader j) := by
  grind [State.putHeader, memoryWf_iff, Memory.puts_wf]

theorem State.saveContext_memoryWf (h : memoryWf s) (j m) : memoryWf (s.saveContext j m) := by
  have hput : ∀ (d : Memory) (n : Nat), d.wf = true → memoryWf ({ s with dram := d, free := n }.putHeader j) := by
    intro d n hd
    refine State.putHeader_memoryWf ?_ j
    exact ⟨h.1, hd, h.2.2⟩
  refine hput _ _ ?_
  exact Memory.foldl_wf (fun _ _ hm => Memory.fill_wf hm ..) (Memory.foldl_wf (fun _ _ hm => Memory.fill_wf hm ..)
    (Memory.foldl_wf (fun _ _ hm => Mach.putTile_wf hm ..) (Memory.foldl_wf (fun _ _ hm => Memory.fill_wf hm ..)
    (Memory.foldl_wf (fun _ _ hm => Memory.puts_wf hm ..) (Memory.filter_wf h.2.1 _) _) _) _) _) _

/-! ### Fault records at Equinox -/

theorem State.putReplayable_memoryWf (h : memoryWf s) (r) : memoryWf (s.putReplayable r) := by
  grind [State.putReplayable, memoryWf_iff, Memory.puts_wf]

theorem State.settleOverflow_memoryWf (h : memoryWf s) : memoryWf s.settleOverflow := by
  grind [State.settleOverflow, memoryWf_iff, Memory.puts_wf, State.putReplayable_memoryWf]

theorem State.writeHeld_memoryWf (h : memoryWf s) (fuel) : memoryWf (s.writeHeld fuel) := by
  induction fuel generalizing s with
  | zero => exact h
  | succ fuel ih => grind [State.writeHeld, memoryWf_iff, State.putReplayable_memoryWf]

theorem State.raiseHeld_memoryWf (h : memoryWf s) : memoryWf s.raiseHeld :=
  State.settleOverflow_memoryWf (State.writeHeld_memoryWf h ..) ..

theorem State.takeReplayable_memoryWf (h : memoryWf s) (r) : memoryWf (s.takeReplayable r) := by
  unfold State.takeReplayable
  split
  · exact State.putReplayable_memoryWf h r
  · split
    · obtain ⟨hs, hd, hh, hm, hv⟩ := h
      exact ⟨hs, hd, hh, hm, savedWf.set hv _ (savedWf.getD hv _)⟩
    · exact State.settleOverflow_memoryWf (by exact h)

theorem State.putFatal_memoryWf (h : memoryWf s) (r) : memoryWf (s.putFatal r) := by
  grind [State.putFatal, memoryWf_iff, Memory.puts_wf]

theorem State.writeReserve_memoryWf (h : memoryWf s) (fuel) : memoryWf (s.writeReserve fuel) := by
  induction fuel generalizing s with
  | zero => exact h
  | succ fuel ih => grind [State.writeReserve, memoryWf_iff, State.putFatal_memoryWf]

theorem State.takeFatal_memoryWf (h : memoryWf s) (r) : memoryWf (s.takeFatal r) := by
  grind [State.takeFatal, memoryWf_iff, State.putFatal_memoryWf]

theorem execFaultRecord_keeps (h : memoryWf s) (fatal) : Keeps (execFaultRecord fatal s) := by
  grind [execFaultRecord, Keeps, memoryWf_iff, State.takeFatal_memoryWf, notEnabled_keeps,
    State.takeReplayable_memoryWf]

theorem State.writeRqhead_memoryWf (h : memoryWf s) (v) : memoryWf (s.writeRqhead v) := State.raiseHeld_memoryWf h ..

theorem State.writeFqhead_memoryWf (h : memoryWf s) (v) : memoryWf (s.writeFqhead v) := by
  grind [State.writeFqhead, memoryWf_iff, State.writeReserve_memoryWf]

theorem State.writeRqbase_memoryWf (h : memoryWf s) (v) : memoryWf (s.writeRqbase v) := by
  grind [State.writeRqbase, memoryWf_iff, State.raiseHeld_memoryWf]

theorem State.writeFqbase_memoryWf (h : memoryWf s) (v) : memoryWf (s.writeFqbase v) := by
  grind [State.writeFqbase, memoryWf_iff, State.writeReserve_memoryWf]

theorem State.writeMccount_memoryWf (h : memoryWf s) (v) : memoryWf (s.writeMccount v) := h

theorem State.hostDoes_keeps (h : memoryWf s) (f) (hf : ∀ x0, memoryWf x0 → memoryWf (f x0)) :
    Keeps (s.hostDoes f) := by
  grind [State.hostDoes, Keeps]

theorem execRqheadWrite_keeps (h : memoryWf s) (v) : Keeps (execRqheadWrite v s) := by
  grind [execRqheadWrite, State.hostDoes_keeps, State.writeRqhead_memoryWf]

theorem execFqheadWrite_keeps (h : memoryWf s) (v) : Keeps (execFqheadWrite v s) := by
  grind [execFqheadWrite, State.hostDoes_keeps, State.writeFqhead_memoryWf]

theorem execRqbaseWrite_keeps (h : memoryWf s) (v) : Keeps (execRqbaseWrite v s) := by
  grind [execRqbaseWrite, State.hostDoes_keeps, State.writeRqbase_memoryWf]

theorem execFqbaseWrite_keeps (h : memoryWf s) (v) : Keeps (execFqbaseWrite v s) := by
  grind [execFqbaseWrite, State.hostDoes_keeps, State.writeFqbase_memoryWf]

theorem execMccountWrite_keeps (h : memoryWf s) (v) : Keeps (execMccountWrite v s) := by
  grind [execMccountWrite, State.hostDoes_keeps, State.writeMccount_memoryWf]

theorem State.unpark_memoryWf (h : memoryWf s) (c l pc) : memoryWf (s.unpark c l pc) := h

theorem State.doRelease_memoryWf (h : memoryWf s) (act c l gen) : memoryWf (s.doRelease act c l gen) := by
  unfold State.doRelease
  grind [State.endTask_memoryWf, State.unpark_memoryWf]

theorem State.releaseOrKeep_memoryWf (h : memoryWf s) (act c l gen) : memoryWf (s.release_ act c l gen) := by
  grind [State.release_, State.appendLog_memoryWf, State.doRelease_memoryWf]

theorem State.releaseByWord_memoryWf (h : memoryWf s) (f v) (hf : ∀ x0 x1 x2 x3 x4, memoryWf x0 → memoryWf (f x0 x1
    x2 x3 x4)) : memoryWf (s.releaseByWord f v) := by
  grind [State.releaseByWord]

theorem execReleaseRetry_keeps (h : memoryWf s) (c l gen) : Keeps (execReleaseRetry c l gen s) := by
  grind [execReleaseRetry, notEnabled_keeps, State.hostDoes_keeps, State.releaseOrKeep_memoryWf]

theorem execReleaseResume_keeps (h : memoryWf s) (c l gen) : Keeps (execReleaseResume c l gen s) := by
  grind [execReleaseResume, notEnabled_keeps, State.hostDoes_keeps, State.releaseOrKeep_memoryWf]

theorem execReleaseKill_keeps (h : memoryWf s) (c l gen) : Keeps (execReleaseKill c l gen s) := by
  grind [execReleaseKill, notEnabled_keeps, State.hostDoes_keeps, State.releaseOrKeep_memoryWf]

/-! ### System instructions, majors 0x3A and 0x3B -/

theorem execCsrr_keeps (h : memoryWf s) (d c) : Keeps (execCsrr d c s) := by
  grind [execCsrr, Keeps, issue_keeps, State.trap_keeps, State.retire_memoryWf, State.setX_memoryWf]

theorem csrForm_keeps (h : memoryWf s) (i a c f) : Keeps (csrForm i a c f s) := by
  grind [csrForm, Keeps, issue_keeps, State.trap_keeps, State.retire_memoryWf, State.upd_memoryWf]

theorem execCsrw_keeps (h : memoryWf s) (a c) : Keeps (execCsrw a c s) := csrForm_keeps h ..
theorem execCsrs_keeps (h : memoryWf s) (a c) : Keeps (execCsrs a c s) := csrForm_keeps h ..
theorem execCsrc_keeps (h : memoryWf s) (a c) : Keeps (execCsrc a c s) := csrForm_keeps h ..

theorem execNop_keeps (h : memoryWf s) : Keeps (execNop s) := by
  grind [execNop, Keeps, issue_keeps, State.retire_memoryWf]

theorem execTrap_keeps (h : memoryWf s) (n) : Keeps (execTrap n s) := by
  grind [execTrap, issue_keeps, State.trap_keeps]

theorem execEret_keeps (h : memoryWf s) : Keeps (execEret s) := by
  grind [execEret, issue_keeps, State.eret_keeps]

theorem execIfence_keeps (h : memoryWf s) : Keeps (execIfence s) := by
  grind [execIfence, Keeps, issue_keeps, State.retire_memoryWf, State.updCore_memoryWf]

theorem State.sendCancel_memoryWf (h : memoryWf s) (k) : memoryWf (s.sendCancel k) := by
  grind [State.sendCancel, State.post_memoryWf]

theorem execCancel_keeps (h : memoryWf s) (a l) : Keeps (execCancel a l s) := by
  grind [execCancel, Keeps, issue_keeps, State.trap_keeps, toPeer_keeps, State.sendCancel_memoryWf,
    State.upd_memoryWf, State.retire_memoryWf]

theorem execCirc_keeps (h : memoryWf s) (a) : Keeps (execCirc a s) := by
  grind [execCirc, Keeps, issue_keeps, State.trap_keeps, State.retire_memoryWf, State.post_memoryWf]

theorem execTime_keeps (h : memoryWf s) (d) : Keeps (execTime d s) := by
  grind [execTime, Keeps, issue_keeps, State.retire_memoryWf, State.setX_memoryWf]

theorem execBrk_keeps (h : memoryWf s) : Keeps (execBrk s) := by
  grind [execBrk, issue_keeps, State.trap_keeps]

theorem execHaltSlot_keeps (h : memoryWf s) : Keeps (execHaltSlot s) := by
  grind [execHaltSlot, issue_keeps, State.trap_keeps]

theorem execWfi_keeps (h : memoryWf s) : Keeps (execWfi s) := by
  grind [execWfi, Keeps, issue_keeps, State.retire_memoryWf, State.upd_memoryWf]

theorem execExit_keeps (h : memoryWf s) : Keeps (execExit s) := by
  grind [execExit, Keeps, issue_keeps, State.endTask_memoryWf]

/-! ### The host's side -/

theorem State.setMach_memoryWf (h : memoryWf s) {m : Mach} (hm : m.sram.wf = true) : memoryWf (s.setMach m) :=
  foldl_memoryWf (s := { s with mach := m }) (fun _ _ h => foldl_memoryWf (fun _ _ h => State.append_memoryWf h ..) h _)
    ⟨hm, h.2⟩ _

theorem execCreate_keeps (h : memoryWf s) (rec jslot tag) : Keeps (execCreate rec jslot tag s) := by
  unfold execCreate
  refine ite_keeps trivial ?_
  split
  · exact State.eqxEvent_memoryWf h ..
  · refine State.eqxEvent_memoryWf (State.putHeader_memoryWf ?_ _) ..
    have hm := newMach_sram_wf s.part tag
    grind [memoryWf_iff, Memory.puts_wf, State.setMach_memoryWf, State.saveContext_memoryWf, savedWf.set]

theorem State.dropPages_memoryWf (h : memoryWf s) : memoryWf s.dropPages := h
theorem State.dropShoots_memoryWf (h : memoryWf s) : memoryWf s.dropShoots := State.endShoots_memoryWf h ..

theorem execTeardown_keeps (h : memoryWf s) (j) : Keeps (execTeardown j s) := by
  unfold execTeardown
  refine ite_keeps trivial ?_
  split
  · exact State.eqxEvent_memoryWf h ..
  · refine ite_keeps trivial (ite_keeps ?_ (ite_keeps trivial (State.jobBoundary_memoryWf (State.dropPages_memoryWf
    ?_))))
    · grind [Keeps, State.updJobAt_memoryWf, State.cancelLevel_memoryWf]
    · have he := State.event_memoryWf h j 0 (BitVec.ofNat 64 j)
      grind [memoryWf_iff, savedWf.del, State.setMach_memoryWf, reset_sram_wf, State.dropShoots_memoryWf]

theorem State.tellSwitch_memoryWf (h : memoryWf s) (b) : memoryWf (s.tellSwitch b) := by
  grind [State.tellSwitch, State.tellManagement_memoryWf, foldl_memoryWf]

theorem State.sendTime_memoryWf (h : memoryWf s) (w) : memoryWf (s.sendTime w) := State.tellSwitch_memoryWf h ..

theorem execSwitch_keeps (h : memoryWf s) (out into t) : Keeps (execSwitch out into t s) := by
  grind [execSwitch, Keeps, memoryWf_iff, notEnabled_keeps, State.sendTime_memoryWf]

theorem State.portNow_memoryWf (h : memoryWf s) (j k size data) : memoryWf (s.portNow j k size data) := by
  grind [State.portNow, State.badWrite_memoryWf, State.doStart_memoryWf, State.doArm_memoryWf, State.doTask_memoryWf]

theorem State.updQueue_memoryWf (h : memoryWf s) (j q f) : memoryWf (s.updQueue j q f) := h

theorem State.tailNow_memoryWf (h : memoryWf s) (j q v) : memoryWf (s.tailNow j q v) := by
  grind [State.tailNow, State.updQueue_memoryWf, State.event_memoryWf]

theorem State.writeEvents_memoryWf (h : memoryWf s) (jb fuel) : memoryWf (s.writeEvents jb fuel).1 := by
  induction fuel generalizing s jb with
  | zero => exact h
  | succ fuel ih => grind [State.writeEvents, memoryWf_iff, Memory.puts_wf]

theorem State.evheadNow_memoryWf (h : memoryWf s) (j v) : memoryWf (s.evheadNow j v) :=
  State.updJobAt_memoryWf (State.writeEvents_memoryWf h ..) ..

theorem State.evheadEnded_memoryWf (h : memoryWf s) (j jb v) : memoryWf (s.evheadEnded j jb v) :=
  State.writeEvents_memoryWf h ..

theorem State.replayLog_memoryWf (h : memoryWf s) (j w) : memoryWf (s.replayLog j w) := by
  unfold State.replayLog
  grind [State.tailNow_memoryWf, State.evheadNow_memoryWf, State.portNow_memoryWf, State.releaseByWord_memoryWf,
    State.doRelease_memoryWf]

theorem State.replayAll_memoryWf (h : memoryWf s) (j l) : memoryWf (s.replayAll j l) := by
  grind [State.replayAll, State.replayLog_memoryWf, foldl_memoryWf]

theorem State.loadJob_memoryWf (h : memoryWf s) (j f) : memoryWf (s.loadJob j f) := by
  obtain ⟨-, -, -, hm, hv⟩ := id h
  obtain ⟨hs, hd, hh, -, -⟩ := State.setMach_memoryWf h
    (m := { (AMap.get s.saved j).getD Mach.reset with heldRecs := [] }) (savedWf.getD hv j)
  exact ⟨hs, hd, hh, hm, savedWf.del hv j⟩

theorem State.goOn_memoryWf (h : memoryWf s) (w) : memoryWf (s.goOn w) := by
  grind [State.goOn, memoryWf_iff, State.putHeader_memoryWf, State.loadJob_memoryWf, State.replayAll_memoryWf,
    State.raiseHeld_memoryWf, State.updJobAt_memoryWf]

theorem execStopTimeLate_keeps (h : memoryWf s) (t) : Keeps (execStopTimeLate t s) := by
  unfold execStopTimeLate
  grind [Keeps, memoryWf_iff, notEnabled_keeps, State.sendTime_memoryWf, State.tellSwitch_memoryWf, State.goOn_memoryWf]

theorem State.takeTime_memoryWf (h : memoryWf s) (from_ w t) : memoryWf (s.takeTime from_ w t) := by
  grind [State.takeTime, memoryWf_iff, State.tellManagement_memoryWf]

theorem State.takeStopAt_memoryWf (h : memoryWf s) (from_ out into t) : memoryWf (s.takeStopAt from_ out into t) := by
  grind [State.takeStopAt, State.tellManagement_memoryWf, State.takeTime_memoryWf]

theorem State.takeResumeAt_memoryWf (h : memoryWf s) (from_ into t) : memoryWf (s.takeResumeAt from_ into t) := by
  grind [State.takeResumeAt, State.takeTime_memoryWf]

theorem State.takeWithdrawn_memoryWf (h : memoryWf s) (from_ stop) : memoryWf (s.takeWithdrawn from_ stop) := by
  grind [State.takeWithdrawn, memoryWf_iff, State.goOn_memoryWf]

theorem State.takeLate_memoryWf (h : memoryWf s) : memoryWf s.takeLate := h

theorem execSwitchOut_keeps (h : memoryWf s) : Keeps (execSwitchOut s) := by
  grind [execSwitchOut, Keeps, memoryWf_iff, notEnabled_keeps]

theorem State.countSpills_memoryWf (h : memoryWf s) (m) : memoryWf (s.countSpills m) := by
  grind [State.countSpills, memoryWf_iff, State.updUnit_memoryWf, foldl_memoryWf]

theorem State.allSaved_memoryWf (h : memoryWf s) (w) : memoryWf (s.allSaved w) := by
  grind [State.allSaved, memoryWf_iff, State.eqxEvent_memoryWf, State.sendTime_memoryWf]

theorem State.takeDone_memoryWf (h : memoryWf s) (from_) : memoryWf (s.takeDone from_) := by
  grind [State.takeDone, memoryWf_iff, State.allSaved_memoryWf]

theorem State.reportSaved_memoryWf (h : memoryWf s) (w) : memoryWf (s.reportSaved w) := by
  grind [State.reportSaved, memoryWf_iff, State.takeDone_memoryWf, State.tellManagement_memoryWf]

theorem execSwitchOutDone_keeps (h : memoryWf s) : Keeps (execSwitchOutDone s) := by
  have hsave : ∀ {u : State}, memoryWf u → ∀ (j : Nat) (m : Mach) (l : List Shoot), m.sram.wf = true → memoryWf
      { u.setMach Mach.reset with saved := AMap.set u.saved j m, running := none, shoots := l } := by
    grind [memoryWf_iff, State.setMach_memoryWf, reset_sram_wf, savedWf.set]
  unfold execSwitchOutDone
  split
  · refine ite_keeps trivial (State.reportSaved_memoryWf (State.endShoots_memoryWf (State.countSpills_memoryWf
      (hsave (State.saveContext_memoryWf (State.updJobAt_memoryWf (State.settleOverflow_memoryWf ?_) ..) ..) _ _ _
        ?_) _)) _)
    · exact h
    · exact h.1
  · trivial

theorem execResume_keeps (h : memoryWf s) : Keeps (execResume s) := by
  grind [execResume, Keeps, memoryWf_iff, notEnabled_keeps, State.loadJob_memoryWf, State.replayAll_memoryWf,
    State.raiseHeld_memoryWf, State.putHeader_memoryWf, State.cancelLevel_memoryWf]

theorem execInvalidate_keeps (h : memoryWf s) (j base len) : Keeps (execInvalidate j base len s) := by
  grind [execInvalidate, Keeps, notEnabled_keeps, State.eqxEvent_memoryWf, State.invalidate_memoryWf]

theorem execAttestation_keeps (h : memoryWf s) (nonce buf) : Keeps (execAttestation nonce buf s) := by
  refine ite_keeps trivial (State.eqxEvent_memoryWf ?_ ..)
  exact ⟨h.1, h.2.1, Memory.puts_wf h.2.2.1 .., h.2.2.2⟩

theorem execClearDisableList_keeps (h : memoryWf s) (ix) : Keeps (execClearDisableList ix s) := by
  grind [execClearDisableList, Keeps, memoryWf_iff, notEnabled_keeps, State.eqxEvent_memoryWf]

theorem execRaiseFirmwareMinimum_keeps (h : memoryWf s) : Keeps (execRaiseFirmwareMinimum s) := by
  grind [execRaiseFirmwareMinimum, Keeps, memoryWf_iff, notEnabled_keeps, State.eqxEvent_memoryWf]

theorem State.jobWrite_memoryWf (h : memoryWf s) (j w) : memoryWf (s.jobWrite j w) := by
  grind [State.jobWrite, State.appendLog_memoryWf, State.replayLog_memoryWf]

theorem State.evheadWrite_memoryWf (h : memoryWf s) (j v) : memoryWf (s.evheadWrite j v) := by
  grind [State.evheadWrite, State.evheadEnded_memoryWf, State.jobWrite_memoryWf]

theorem execQtailWrite_keeps (h : memoryWf s) (j q v) : Keeps (execQtailWrite j q v s) := by
  grind [execQtailWrite, Keeps, notEnabled_keeps, State.jobWrite_memoryWf]

theorem execEvheadWrite_keeps (h : memoryWf s) (j v) : Keeps (execEvheadWrite j v s) := by
  grind [execEvheadWrite, Keeps, notEnabled_keeps, State.evheadWrite_memoryWf]

theorem execQueueEntrySubmit_keeps (h : memoryWf s) (j q) : Keeps (execQueueEntrySubmit j q s) := by
  grind [execQueueEntrySubmit, Keeps, notEnabled_keeps, State.updQueue_memoryWf, State.badWrite_memoryWf,
    State.post_memoryWf]

theorem State.setEqx_memoryWf (h : memoryWf s) {f : Eqx → Eqx} (hf : (f s.eqx).mailbox.wf = true) :
    memoryWf (s.setEqx f) := by
  obtain ⟨h1, h2, h3, -, h5⟩ := h
  exact ⟨h1, h2, h3, hf, h5⟩

theorem State.writeRasctl_memoryWf (h : memoryWf s) (v) : memoryWf (s.writeRasctl v) := h

theorem State.writeRingReg_memoryWf (h : memoryWf s) (off v) : memoryWf (s.writeRingReg off v) := by
  obtain ⟨-, -, -, hm, -⟩ := id h
  unfold State.writeRingReg
  split
  · exact State.writeRqbase_memoryWf h v
  · exact State.writeRqhead_memoryWf h v
  · exact State.writeFqbase_memoryWf h v
  · exact State.writeFqhead_memoryWf h v
  · exact State.writeMccount_memoryWf h v
  · exact State.setEqx_memoryWf h hm
  · exact State.releaseByWord_memoryWf h _ _ fun _ _ _ _ _ hu => State.releaseOrKeep_memoryWf hu ..
  · exact State.setEqx_memoryWf h hm
  · exact ite_memoryWf (State.setEqx_memoryWf h hm) h
  · exact h

theorem State.writeQueueReg_memoryWf (h : memoryWf s) (off v) : memoryWf (s.writeQueueReg off v) := by
  grind [State.writeQueueReg, State.evheadWrite_memoryWf, State.updQueue_memoryWf, State.jobWrite_memoryWf]

theorem State.writeBar0_memoryWf (h : memoryWf s) (off v) : memoryWf (s.writeBar0 off v) := by
  obtain ⟨-, -, -, hm, -⟩ := id h
  unfold State.writeBar0
  exact ite_memoryWf (ite_memoryWf (State.writeRingReg_memoryWf h ..) h) <|
    ite_memoryWf (State.setEqx_memoryWf h (Memory.puts_wf hm ..)) <| ite_memoryWf h <|
    ite_memoryWf (ite_memoryWf (by exact h) h) <| ite_memoryWf (State.writeRasctl_memoryWf h v) <|
    ite_memoryWf (State.setEqx_memoryWf h hm) <| ite_memoryWf (State.setEqx_memoryWf h hm) <|
    ite_memoryWf (State.setEqx_memoryWf h hm) <| ite_memoryWf (State.writeQueueReg_memoryWf h ..) h

theorem State.hostStore_memoryWf (h : memoryWf s) (a l) : memoryWf (s.hostStore a l) := by
  induction l generalizing s a with
  | nil => exact h
  | cons b t ih => grind [State.hostStore, State.store_memoryWf]

theorem execHostRegisterWrite_keeps (h : memoryWf s) (bar off size v) :
    Keeps (execHostRegisterWrite bar off size v s) := by
  grind [execHostRegisterWrite, Keeps, notEnabled_keeps, State.writeBar0_memoryWf, State.jobWrite_memoryWf,
    State.hostStore_memoryWf]

/-! ### Optical circuits -/

theorem State.sendNotices_memoryWf (h : memoryWf s) : memoryWf s.sendNotices := by
  grind [State.sendNotices, State.post_memoryWf, foldl_memoryWf]

theorem State.tellEquinox_memoryWf (h : memoryWf s) (b peer) : memoryWf (s.tellEquinox b peer) := h

theorem State.takeCircReq_memoryWf (h : memoryWf s) (r) : memoryWf (s.takeCircReq r) := by
  grind [State.takeCircReq, State.updJob_memoryWf, State.tellEquinox_memoryWf]

theorem execCircRequest_keeps (h : memoryWf s) : Keeps (execCircRequest s) := by
  grind [execCircRequest, Keeps, notEnabled_keeps, State.updJob_memoryWf, State.tellEquinox_memoryWf,
    State.sendNotices_memoryWf, foldl_memoryWf]

theorem State.takeCircHold_memoryWf (h : memoryWf s) (from_ plan) :
    ∀ t, s.takeCircHold from_ plan = some t → memoryWf t := by
  grind [State.takeCircHold, memoryWf_iff, State.sendNotices_memoryWf, State.updJob_memoryWf]

theorem State.takeCircHeld_memoryWf (h : memoryWf s) (from_ ok) : memoryWf (s.takeCircHeld from_ ok) := h

theorem execHoldNotice_keeps (h : memoryWf s) (k) : Keeps (execHoldNotice k s) := by
  grind [execHoldNotice, Keeps, notEnabled_keeps, State.post_memoryWf, State.updCore_memoryWf, State.popNet_memoryWf,
    State.updEngine_memoryWf]

theorem State.endHold_memoryWf (h : memoryWf s) : memoryWf s.endHold := h

theorem State.circDone_memoryWf (h : memoryWf s) (r code) : memoryWf (s.circDone r code) := by
  grind [State.circDone, State.post_memoryWf]

theorem State.lightPlan_memoryWf (h : memoryWf s) (gs) : memoryWf (s.lightPlan gs) := h
theorem State.tryPlan_memoryWf (h : memoryWf s) (c gs) : memoryWf (s.tryPlan c gs) := h

theorem State.restorePlan_memoryWf (h : memoryWf s) (c) : memoryWf (s.restorePlan c) := by
  grind [State.restorePlan, State.lightPlan_memoryWf]

theorem State.refusePlan_memoryWf (h : memoryWf s) (c) : memoryWf (s.refusePlan c) := by
  grind [State.refusePlan, State.tellEquinox_memoryWf, State.circDone_memoryWf, State.endHold_memoryWf,
    State.updJob_memoryWf, State.restorePlan_memoryWf, foldl_memoryWf]

theorem State.askSwitch_memoryWf (h : memoryWf s) (c) : ∀ t, s.askSwitch c = some t → memoryWf t := by
  grind [State.askSwitch, State.updJob_memoryWf, State.refusePlan_memoryWf, State.tellEquinox_memoryWf]

theorem execHoldAck_keeps (h : memoryWf s) : Keeps (execHoldAck s) := by
  unfold execHoldAck
  have ha : ∀ {u : State}, memoryWf u → ∀ c, memoryWf ((u.askSwitch c).getD u) := fun hu c => by
    cases hc : State.askSwitch _ c with
    | none => exact hu
    | some t => exact State.askSwitch_memoryWf hu c t hc
  grind [Keeps, notEnabled_keeps, State.popNet_memoryWf, State.updJob_memoryWf]

theorem State.circOver_memoryWf (h : memoryWf s) (c) : memoryWf (s.circOver c) :=
  State.circDone_memoryWf (State.updJob_memoryWf h ..) ..

theorem State.circLit_memoryWf (h : memoryWf s) (c) : memoryWf (s.circLit c) := by
  grind [State.circLit, State.endHold_memoryWf, State.updJob_memoryWf, State.circOver_memoryWf,
    State.tellEquinox_memoryWf, foldl_memoryWf]

theorem State.takeCircRaised_memoryWf (h : memoryWf s) (from_) : memoryWf (s.takeCircRaised from_) := by
  grind [State.takeCircRaised, State.circOver_memoryWf, State.updJob_memoryWf]

theorem State.light_memoryWf (h : memoryWf s) (c) : memoryWf (s.light c) := by
  grind [State.light, State.circLit_memoryWf, State.updJob_memoryWf]

theorem State.takeCircLight_memoryWf (h : memoryWf s) : memoryWf s.takeCircLight := by
  grind [State.takeCircLight, State.tellEquinox_memoryWf, State.tryPlan_memoryWf]

theorem State.takeCircTrained_memoryWf (h : memoryWf s) (from_ ok) : memoryWf (s.takeCircTrained from_ ok) := by
  grind [State.takeCircTrained, State.refusePlan_memoryWf, State.updJob_memoryWf, State.light_memoryWf]

theorem State.takeCircEnd_memoryWf (h : memoryWf s) (lit) : memoryWf (s.takeCircEnd lit) := by
  grind [State.takeCircEnd, State.light_memoryWf, State.endHold_memoryWf, State.updJob_memoryWf,
    State.restorePlan_memoryWf]

theorem execPlanLit_keeps (h : memoryWf s) : Keeps (execPlanLit s) := by
  unfold execPlanLit
  have hl : ∀ u, memoryWf u → memoryWf (s.others.foldl (fun t p => t.tellEquinox .circLight p) u) := fun u hu =>
    foldl_memoryWf (fun _ _ h => State.tellEquinox_memoryWf h ..) hu _
  split
  · refine ite_keeps trivial (ite_keeps (ite_keeps (State.circLit_memoryWf h _) trivial) ?_)
    split
    · refine ite_keeps trivial ?_
      have ht := fun c gs => State.tryPlan_memoryWf h c gs
      grind [Keeps, State.light_memoryWf]
    · trivial
  · trivial

theorem execCircTimeout_keeps (h : memoryWf s) : Keeps (execCircTimeout s) := by
  grind [execCircTimeout, Keeps, notEnabled_keeps, State.refusePlan_memoryWf]

theorem execSwitchRefusedPlan_keeps (h : memoryWf s) : Keeps (execSwitchRefusedPlan s) := by
  grind [execSwitchRefusedPlan, Keeps, notEnabled_keeps, State.refusePlan_memoryWf]

/-! ### Control transfer within a task -/

theorem branchIf_keeps (h : memoryWf s) (i cc a b d) : Keeps (branchIf i cc a b d s) := by
  grind [branchIf, Keeps, issue_keeps, State.jump_memoryWf, State.retire_memoryWf]

theorem execBeq_keeps (h : memoryWf s) (a b d) : Keeps (execBeq a b d s) := branchIf_keeps h ..
theorem execBne_keeps (h : memoryWf s) (a b d) : Keeps (execBne a b d s) := branchIf_keeps h ..
theorem execBlt_keeps (h : memoryWf s) (a b d) : Keeps (execBlt a b d s) := branchIf_keeps h ..
theorem execBge_keeps (h : memoryWf s) (a b d) : Keeps (execBge a b d s) := branchIf_keeps h ..
theorem execBlo_keeps (h : memoryWf s) (a b d) : Keeps (execBlo a b d s) := branchIf_keeps h ..
theorem execBhs_keeps (h : memoryWf s) (a b d) : Keeps (execBhs a b d s) := branchIf_keeps h ..

theorem execJ_keeps (h : memoryWf s) (d) : Keeps (execJ d s) := by
  grind [execJ, Keeps, issue_keeps, State.jump_memoryWf]

theorem execJal_keeps (h : memoryWf s) (d) : Keeps (execJal d s) := by
  grind [execJal, Keeps, issue_keeps, State.jump_memoryWf, State.setX_memoryWf]

theorem execJalr_keeps (h : memoryWf s) (d a) : Keeps (execJalr d a s) := by
  grind [execJalr, Keeps, issue_keeps, State.trap_keeps, State.jump_memoryWf, State.setX_memoryWf]

theorem execLoop_keeps (h : memoryWf s) (a d) : Keeps (execLoop a d s) := by
  grind [execLoop, Keeps, issue_keeps, State.jump_memoryWf, State.setX_memoryWf, State.retire_memoryWf]

/-! ### The fabric -/

theorem State.transmit_memoryWf (h : memoryWf s) (n f) : memoryWf (s.transmit n f) :=
  State.emitFlit_memoryWf (State.updLink_memoryWf h ..) ..

theorem State.resend_memoryWf (h : memoryWf s) (n) : memoryWf (s.resend n) := by
  grind [State.resend, State.emitFlit_memoryWf, foldl_memoryWf]

theorem State.setStream_memoryWf (h : memoryWf s) (x) : memoryWf (s.setStream x) := h

theorem State.payBack_memoryWf (h : memoryWf s) (n) : memoryWf (s.payBack n) := by
  grind [State.payBack, State.updLink_memoryWf, State.sendControl_memoryWf, foldl_memoryWf]

theorem State.depart_memoryWf (h : memoryWf s) (k p) : ∀ t, s.depart k p = some t → memoryWf t := by
  grind [State.depart, memoryWf_iff, State.payBack_memoryWf, State.transmit_memoryWf, State.setStream_memoryWf]

theorem State.spillLate_memoryWf (h : memoryWf s) (j k p) : memoryWf (s.spillLate j k p) := by
  obtain ⟨hs, hd, hh, hm, hv⟩ := h
  exact ⟨hs, hd, hh, hm, savedWf.set hv _ (savedWf.getD hv j)⟩

theorem State.arrivePacket_memoryWf (h : memoryWf s) (e) : memoryWf (s.arrivePacket e) := by
  grind [State.arrivePacket, memoryWf_iff, State.spillLate_memoryWf]

theorem State.sendE2e_memoryWf (h : memoryWf s) (n peer vc eseq) : memoryWf (s.sendE2e n peer vc eseq) := h

theorem State.deliverStream_memoryWf (h : memoryWf s) (n peer vc fuel) : memoryWf (s.deliverStream n peer vc fuel) := by
  induction fuel generalizing s with
  | zero => exact h
  | succ fuel ih =>
    grind [State.deliverStream, foldl_memoryWf, State.setStream_memoryWf, State.arrivePacket_memoryWf,
      State.sendE2e_memoryWf]

theorem State.arriveFlit_memoryWf (h : memoryWf s) (n f) : memoryWf (s.arriveFlit n f) := by
  grind [State.arriveFlit, State.arrivePacket_memoryWf, State.sendE2e_memoryWf, State.updLink_memoryWf,
    State.deliverStream_memoryWf, State.setStream_memoryWf, foldl_memoryWf]

theorem State.releaseFlits_memoryWf (h : memoryWf s) (n fuel) : memoryWf (s.releaseFlits n fuel) := by
  induction fuel generalizing s with
  | zero => exact h
  | succ fuel ih => grind [State.releaseFlits, State.updLink_memoryWf, State.arriveFlit_memoryWf]

theorem State.timeGap_memoryWf (h : memoryWf s) (n lack) : memoryWf (s.timeGap n lack) := h

theorem State.takeReplay_memoryWf (h : memoryWf s) (n lack) : memoryWf (s.takeReplay n lack) := by
  grind [State.takeReplay, State.updLink_memoryWf, State.updUnit_memoryWf, State.resend_memoryWf,
    State.declareUnit_memoryWf]

theorem execFlit_keeps (h : memoryWf s) (n f checkOk headersOk) : Keeps (execFlit n f checkOk headersOk s) := by
  grind [execFlit, Keeps, notEnabled_keeps, State.sendControl_memoryWf, State.updLink_memoryWf,
    State.boundaryDue_memoryWf, State.takeReplay_memoryWf, State.countError_memoryWf, State.emit_memoryWf,
    State.payBack_memoryWf, State.timeGap_memoryWf, State.releaseFlits_memoryWf]

theorem execReplayRequest_keeps (h : memoryWf s) (n lack) : Keeps (execReplayRequest n lack s) := by
  grind [execReplayRequest, Keeps, State.boundaryDue_memoryWf, State.takeReplay_memoryWf, notEnabled_keeps]

theorem execGapTimer_keeps (h : memoryWf s) (n) : Keeps (execGapTimer n s) := by
  grind [execGapTimer, Keeps, notEnabled_keeps, State.sendControl_memoryWf, State.updLink_memoryWf]

theorem execEndToEndAcknowledgement_keeps (h : memoryWf s) (peer vc eseq) :
    Keeps (execEndToEndAcknowledgement peer vc eseq s) := by
  grind [execEndToEndAcknowledgement, Keeps, notEnabled_keeps, State.setStream_memoryWf, State.popNet_memoryWf]

theorem execEndToEndRetransmission_keeps (h : memoryWf s) (peer vc) : Keeps (execEndToEndRetransmission peer vc s) := by
  unfold execEndToEndRetransmission
  grind [Keeps, notEnabled_keeps, State.updUnit_memoryWf, State.transmit_memoryWf, State.setStream_memoryWf,
    foldl_fst_memoryWf]

theorem execLinkChange_keeps (h : memoryWf s) (peer vc) : Keeps (execLinkChange peer vc s) := by
  grind [execLinkChange, Keeps, notEnabled_keeps, State.setStream_memoryWf]

theorem execLossOfLight_keeps (h : memoryWf s) (f ws) : Keeps (execLossOfLight f ws s) := by
  grind [execLossOfLight, Keeps, notEnabled_keeps, State.sendControl_memoryWf, State.updLink_memoryWf,
    State.countError_memoryWf, State.emit_memoryWf, State.boundaryDue_memoryWf, State.checkDark_memoryWf,
    foldl_memoryWf]

theorem execLiveMask_keeps (h : memoryWf s) (f mask) : Keeps (execLiveMask f mask s) := by
  grind [execLiveMask, Keeps, notEnabled_keeps, State.checkDark_memoryWf, State.updLink_memoryWf]

theorem execKeyReplacement_keeps (h : memoryWf s) (n) : Keeps (execKeyReplacement n s) := by
  grind [execKeyReplacement, Keeps, notEnabled_keeps, State.sendControl_memoryWf, State.updLink_memoryWf]

theorem execTrainLink_keeps (h : memoryWf s) (n light) : Keeps (execTrainLink n light s) := by
  grind [execTrainLink, Keeps, memoryWf_iff, notEnabled_keeps, State.trainPort_memoryWf, State.updLink_memoryWf,
    State.checkDark_memoryWf, foldl_memoryWf]

theorem execGatewayBlock_keeps (h : memoryWf s) (n) : Keeps (execGatewayBlock n s) := by
  unfold execGatewayBlock
  split
  · trivial
  · extract_lets m s0 g
    have h0 : memoryWf s0 := h
    clear_value s0
    split
    · split
      · exact h0
      · split
        · split
          · exact State.release_memoryWf h0 ..
          · trivial
        · exact h0
    · exact h0

theorem execTimeMessage_keeps (h : memoryWf s) (t) : Keeps (execTimeMessage t s) := by
  grind [execTimeMessage, Keeps, memoryWf_iff]

theorem State.takeLayout_memoryWf (h : memoryWf s) (peer l) : memoryWf (s.takeLayout peer l) := by
  grind [State.takeLayout, memoryWf_iff, State.sendLayout_memoryWf]

theorem execPeerLayoutEntry_keeps (h : memoryWf s) (peer l) : Keeps (execPeerLayoutEntry peer l s) := by
  grind [execPeerLayoutEntry, Keeps, notEnabled_keeps, State.takeLayout_memoryWf]

/-! ### DELIVER -/

theorem State.entryDone_memoryWf (h : memoryWf s) (j q) : memoryWf (s.entryDone j q) := h

theorem State.takeCmd_memoryWf (h : memoryWf s) (e c) : ∀ t, s.takeCmd e c = some t → memoryWf t := by
  grind [State.takeCmd, State.updEngine_memoryWf]

theorem State.takeCont_memoryWf (h : memoryWf s) (e peer core slot gen shB) :
    memoryWf (s.takeCont e peer core slot gen shB) :=
  h

theorem State.deliverCore_memoryWf (h : memoryWf s) (c p) : ∀ t, s.deliverCore c p = some t → memoryWf t := by
  grind [State.deliverCore, State.updCore_memoryWf, State.foreignEnd_memoryWf, State.release_memoryWf,
    State.settleExits_memoryWf, State.commandDone_memoryWf, State.stubTold_memoryWf, State.stubDrop_memoryWf,
    State.takeContext_memoryWf]

theorem State.deliverEquinox_memoryWf (h : memoryWf s) (p) : ∀ t, s.deliverEquinox p = some t → memoryWf t := by
  intro t ht
  have he : ∀ q, (s.slotOfTag p.job).map (fun j => s.entryDone j q) = some t → memoryWf t := by
    grind [State.entryDone_memoryWf, Option.map_eq_some_iff]
  obtain ⟨b, src, job, sl, gen, addr, len, tag⟩ := p
  cases b with
  | circReq => cases ht; exact State.takeCircReq_memoryWf h _
  | circHold plan => exact State.takeCircHold_memoryWf h src.peer plan t ht
  | circHeld => cases ht; exact State.takeCircHeld_memoryWf h ..
  | circLight => cases ht; exact State.takeCircLight_memoryWf h
  | circTrained => cases ht; exact State.takeCircTrained_memoryWf h ..
  | circEnd => cases ht; exact State.takeCircEnd_memoryWf h ..
  | circRaised => cases ht; exact State.takeCircRaised_memoryWf h ..
  | stopAt => cases ht; exact State.takeStopAt_memoryWf h ..
  | resumeAt => cases ht; exact State.takeResumeAt_memoryWf h ..
  | switchLate => cases ht; exact State.takeLate_memoryWf h
  | switchWithdrawn => cases ht; exact State.takeWithdrawn_memoryWf h ..
  | switchDone => cases ht; exact State.takeDone_memoryWf h ..
  | shootReq => cases ht; exact State.takeShoot_memoryWf h ..
  | shootDone => cases ht; exact State.shootEnds_memoryWf h ..
  | layout l => cases ht; split; exacts [h, State.takeLayout_memoryWf h ..]
  | hDone => cases ht; exact h
  | ack entry => cases entry with
    | none => cases ht
    | some q => exact he q ht
  | refusedWrite entry => cases entry with
    | none => cases ht
    | some q => exact he q ht
  | _ => cases ht

theorem State.deliverHere_memoryWf (h : memoryWf s) (k p) : ∀ t, s.deliverHere k p = some t → memoryWf t := by
  unfold State.deliverHere
  grind [memoryWf_iff, State.arriveHome_memoryWf, State.enterHome_memoryWf, State.takeCmd_memoryWf,
    State.takeCont_memoryWf, State.deliverCore_memoryWf, State.updDraw_memoryWf, State.updCluster_memoryWf,
    State.beginSeal_memoryWf, State.reserveSlot_memoryWf, State.slotAnswered_memoryWf, State.unreserve_memoryWf,
    State.levelAway_memoryWf, State.levelNews_memoryWf, State.pageMoved_memoryWf, State.putMove_memoryWf,
    State.countPref_memoryWf, State.takePageAsk_memoryWf, State.takePageRoom_memoryWf, State.takePageBack_memoryWf,
    State.takeSeal_memoryWf, State.takeQuiet_memoryWf, State.sealAnswered_memoryWf, State.deliverEquinox_memoryWf]

theorem execDeliver_keeps (h : memoryWf s) (k) : Keeps (execDeliver k s) := by
  grind [execDeliver, Keeps, notEnabled_keeps, State.depart_memoryWf, State.popNet_memoryWf, State.deliverHere_memoryWf]

/-! ### The integer register forms, the immediate forms and the shift and bit-field forms of majors 0x01 to 0x07 -/

theorem regForm_keeps (h : memoryWf s) (i d a b f) : Keeps (regForm i d a b f s) := writeX_keeps h ..
theorem unForm_keeps (h : memoryWf s) (i d a f) : Keeps (unForm i d a f s) := writeX_keeps h ..
theorem execAdd_keeps (h : memoryWf s) (d a b w) : Keeps (execAdd d a b w s) := regForm_keeps h ..
theorem execSub_keeps (h : memoryWf s) (d a b w) : Keeps (execSub d a b w s) := regForm_keeps h ..
theorem execMul_keeps (h : memoryWf s) (d a b w) : Keeps (execMul d a b w s) := regForm_keeps h ..
theorem execSll_keeps (h : memoryWf s) (d a b w) : Keeps (execSll d a b w s) := regForm_keeps h ..
theorem execSrl_keeps (h : memoryWf s) (d a b w) : Keeps (execSrl d a b w s) := regForm_keeps h ..
theorem execSra_keeps (h : memoryWf s) (d a b w) : Keeps (execSra d a b w s) := regForm_keeps h ..
theorem execRot_keeps (h : memoryWf s) (d a b w) : Keeps (execRot d a b w s) := regForm_keeps h ..
theorem execMulh_keeps (h : memoryWf s) (d a b n) : Keeps (execMulh d a b n s) := regForm_keeps h ..
theorem execDiv_keeps (h : memoryWf s) (d a b w n) : Keeps (execDiv d a b w n s) := regForm_keeps h ..
theorem execRem_keeps (h : memoryWf s) (d a b w n) : Keeps (execRem d a b w n s) := regForm_keeps h ..
theorem execAnd_keeps (h : memoryWf s) (d a b) : Keeps (execAnd d a b s) := regForm_keeps h ..
theorem execOr_keeps (h : memoryWf s) (d a b) : Keeps (execOr d a b s) := regForm_keeps h ..
theorem execXor_keeps (h : memoryWf s) (d a b) : Keeps (execXor d a b s) := regForm_keeps h ..
theorem execAndn_keeps (h : memoryWf s) (d a b) : Keeps (execAndn d a b s) := regForm_keeps h ..
theorem execClz_keeps (h : memoryWf s) (d a w) : Keeps (execClz d a w s) := unForm_keeps h ..
theorem execCtz_keeps (h : memoryWf s) (d a w) : Keeps (execCtz d a w s) := unForm_keeps h ..
theorem execPopc_keeps (h : memoryWf s) (d a w) : Keeps (execPopc d a w s) := unForm_keeps h ..
theorem execMin_keeps (h : memoryWf s) (d a b n) : Keeps (execMin d a b n s) := regForm_keeps h ..
theorem execMax_keeps (h : memoryWf s) (d a b n) : Keeps (execMax d a b n s) := regForm_keeps h ..
theorem execSlt_keeps (h : memoryWf s) (d a b n) : Keeps (execSlt d a b n s) := regForm_keeps h ..
theorem execSel_keeps (h : memoryWf s) (d a b) : Keeps (execSel d a b s) := writeX_keeps h ..
theorem execSextB_keeps (h : memoryWf s) (d a) : Keeps (execSextB d a s) := unForm_keeps h ..
theorem execSextH_keeps (h : memoryWf s) (d a) : Keeps (execSextH d a s) := unForm_keeps h ..
theorem execSextW_keeps (h : memoryWf s) (d a) : Keeps (execSextW d a s) := unForm_keeps h ..
theorem execZextB_keeps (h : memoryWf s) (d a) : Keeps (execZextB d a s) := unForm_keeps h ..
theorem execZextH_keeps (h : memoryWf s) (d a) : Keeps (execZextH d a s) := unForm_keeps h ..
theorem execZextW_keeps (h : memoryWf s) (d a) : Keeps (execZextW d a s) := unForm_keeps h ..
theorem execAddImm_keeps (h : memoryWf s) (d a i) : Keeps (execAddImm d a i s) := unForm_keeps h ..
theorem execAndImm_keeps (h : memoryWf s) (d a i) : Keeps (execAndImm d a i s) := unForm_keeps h ..
theorem execOrImm_keeps (h : memoryWf s) (d a i) : Keeps (execOrImm d a i s) := unForm_keeps h ..
theorem execXorImm_keeps (h : memoryWf s) (d a i) : Keeps (execXorImm d a i s) := unForm_keeps h ..
theorem execSltImm_keeps (h : memoryWf s) (d a i) : Keeps (execSltImm d a i s) := unForm_keeps h ..
theorem execSltNImm_keeps (h : memoryWf s) (d a i) : Keeps (execSltNImm d a i s) := unForm_keeps h ..
theorem execAddWImm_keeps (h : memoryWf s) (d a i) : Keeps (execAddWImm d a i s) := unForm_keeps h ..
theorem execMulImm_keeps (h : memoryWf s) (d a i) : Keeps (execMulImm d a i s) := unForm_keeps h ..
theorem execMinImm_keeps (h : memoryWf s) (d a i) : Keeps (execMinImm d a i s) := unForm_keeps h ..
theorem execMaxImm_keeps (h : memoryWf s) (d a i) : Keeps (execMaxImm d a i s) := unForm_keeps h ..
theorem execMinNImm_keeps (h : memoryWf s) (d a i) : Keeps (execMinNImm d a i s) := unForm_keeps h ..
theorem execMaxNImm_keeps (h : memoryWf s) (d a i) : Keeps (execMaxNImm d a i s) := unForm_keeps h ..
theorem execSllImm_keeps (h : memoryWf s) (d a c) : Keeps (execSllImm d a c s) := unForm_keeps h ..
theorem execSllWImm_keeps (h : memoryWf s) (d a c) : Keeps (execSllWImm d a c s) := unForm_keeps h ..
theorem execSrlImm_keeps (h : memoryWf s) (d a c) : Keeps (execSrlImm d a c s) := unForm_keeps h ..
theorem execSrlWImm_keeps (h : memoryWf s) (d a c) : Keeps (execSrlWImm d a c s) := unForm_keeps h ..
theorem execSraImm_keeps (h : memoryWf s) (d a c) : Keeps (execSraImm d a c s) := unForm_keeps h ..
theorem execSraWImm_keeps (h : memoryWf s) (d a c) : Keeps (execSraWImm d a c s) := unForm_keeps h ..
theorem execRotImm_keeps (h : memoryWf s) (d a c) : Keeps (execRotImm d a c s) := unForm_keeps h ..
theorem execRotWImm_keeps (h : memoryWf s) (d a c) : Keeps (execRotWImm d a c s) := unForm_keeps h ..
theorem execBfx_keeps (h : memoryWf s) (d a l w) : Keeps (execBfx d a l w s) := unForm_keeps h ..
theorem execBfi_keeps (h : memoryWf s) (d a l w) : Keeps (execBfi d a l w s) := writeX_keeps h ..
theorem execLui_keeps (h : memoryWf s) (d i) : Keeps (execLui d i s) := writeX_keeps h ..
theorem execAuipc_keeps (h : memoryWf s) (d i) : Keeps (execAuipc d i s) := writeX_keeps h ..

/-! ### Scalar FP32 -/

theorem fpForm_keeps (h : memoryWf s) (i d a b f) : Keeps (fpForm i d a b f s) := writeX_keeps h ..
theorem execFadd_keeps (h : memoryWf s) (d a b) : Keeps (execFadd d a b s) := fpForm_keeps h ..
theorem execFsub_keeps (h : memoryWf s) (d a b) : Keeps (execFsub d a b s) := fpForm_keeps h ..
theorem execFmul_keeps (h : memoryWf s) (d a b) : Keeps (execFmul d a b s) := fpForm_keeps h ..
theorem execFdiv_keeps (h : memoryWf s) (d a b) : Keeps (execFdiv d a b s) := fpForm_keeps h ..
theorem fpPick_keeps (h : memoryWf s) (i mx d a b) : Keeps (fpPick i mx d a b s) := writeX_keeps h ..
theorem execFmin_keeps (h : memoryWf s) (d a b) : Keeps (execFmin d a b s) := fpPick_keeps h ..
theorem execFmax_keeps (h : memoryWf s) (d a b) : Keeps (execFmax d a b s) := fpPick_keeps h ..
theorem execFabs_keeps (h : memoryWf s) (d a) : Keeps (execFabs d a s) := writeX_keeps h ..
theorem fpCompare_keeps (h : memoryWf s) (i cc d a b) : Keeps (fpCompare i cc d a b s) := writeX_keeps h ..
theorem execFcmpEq_keeps (h : memoryWf s) (d a b) : Keeps (execFcmpEq d a b s) := fpCompare_keeps h ..
theorem execFcmpNe_keeps (h : memoryWf s) (d a b) : Keeps (execFcmpNe d a b s) := fpCompare_keeps h ..
theorem execFcmpLt_keeps (h : memoryWf s) (d a b) : Keeps (execFcmpLt d a b s) := fpCompare_keeps h ..
theorem execFcmpLe_keeps (h : memoryWf s) (d a b) : Keeps (execFcmpLe d a b s) := fpCompare_keeps h ..
theorem execFcmpGt_keeps (h : memoryWf s) (d a b) : Keeps (execFcmpGt d a b s) := fpCompare_keeps h ..
theorem execFcmpGe_keeps (h : memoryWf s) (d a b) : Keeps (execFcmpGe d a b s) := fpCompare_keeps h ..
theorem execFcvtF32I_keeps (h : memoryWf s) (d a) : Keeps (execFcvtF32I d a s) := writeX_keeps h ..
theorem execFcvtIF32_keeps (h : memoryWf s) (d a) : Keeps (execFcvtIF32 d a s) := writeX_keeps h ..
theorem execFcvtF32Bf16_keeps (h : memoryWf s) (d a) : Keeps (execFcvtF32Bf16 d a s) := writeX_keeps h ..
theorem execFcvtBf16F32_keeps (h : memoryWf s) (d a) : Keeps (execFcvtBf16F32 d a s) := writeX_keeps h ..
theorem execFma_keeps (h : memoryWf s) (d a b c) : Keeps (execFma d a b c s) := writeX_keeps h ..

/-! ### Tickets at their home -/

theorem State.releaseTicket_memoryWf (h : memoryWf s) (hm peer core num gen) :
    memoryWf (s.releaseTicket hm peer core num gen) :=
  h

theorem State.answerRdm_memoryWf (h : memoryWf s) (hm p t dst at_) : memoryWf (s.answerRdm hm p t dst at_).1 := by
  grind [State.answerRdm, State.updHome_memoryWf, State.releaseTicket_memoryWf, State.reply_memoryWf]

theorem State.doRedeem_memoryWf (h : memoryWf s) (hm p t dst at_) : memoryWf (s.doRedeem hm p t dst at_) := by
  grind [State.doRedeem, State.answerRdm_memoryWf, State.updHome_memoryWf]

theorem State.doDrop_memoryWf (h : memoryWf s) (hm p t) : memoryWf (s.doDrop hm p t) := by
  grind [State.doDrop, State.releaseTicket_memoryWf, State.updHome_memoryWf]

theorem State.doQuery_memoryWf (h : memoryWf s) (hm p t r) : memoryWf (s.doQuery hm p t r) := h

theorem State.doTicketItem_memoryWf (h : memoryWf s) (hm p) : memoryWf (s.doTicketItem hm p) := by
  grind [State.doTicketItem, State.doRedeem_memoryWf, State.doDrop_memoryWf, State.doQuery_memoryWf]

theorem State.ticketItem_memoryWf (h : memoryWf s) (hm p t) : memoryWf (s.ticketItem hm p t) := by
  grind [State.ticketItem, State.updHome_memoryWf, State.doTicketItem_memoryWf]

theorem State.serveHeld_memoryWf (h : memoryWf s) (hm t) : memoryWf (s.serveHeld hm t) := by
  grind [State.serveHeld, State.updHome_memoryWf, State.doTicketItem_memoryWf, foldl_memoryWf]

theorem State.makeEntry_memoryWf (h : memoryWf s) (hm p t snap) : memoryWf (s.makeEntry hm p t snap) := by
  unfold State.makeEntry
  grind [State.updHome_memoryWf, State.releaseTicket_memoryWf, State.updUnit_memoryWf, State.serveHeld_memoryWf]

theorem execTicketFetch_keeps (h : memoryWf s) (hm) : Keeps (execTicketFetch hm s) := by
  grind [execTicketFetch, Keeps, State.updHome_memoryWf, State.countPage_memoryWf, State.makeEntry_memoryWf,
    State.append_memoryWf, notEnabled_keeps]

theorem execRedemption_keeps (h : memoryWf s) (hm) : Keeps (execRedemption hm s) := by
  grind [execRedemption, Keeps, State.ticketItem_memoryWf, State.updHome_memoryWf, notEnabled_keeps]

theorem execRedemptionHoldExpiry_keeps (h : memoryWf s) (hm) : Keeps (execRedemptionHoldExpiry hm s) := by
  grind [execRedemptionHoldExpiry, Keeps, State.updHome_memoryWf, State.reply_memoryWf, notEnabled_keeps]

theorem execTicketDrop_keeps (h : memoryWf s) (hm) : Keeps (execTicketDrop hm s) := by
  grind [execTicketDrop, Keeps, State.ticketItem_memoryWf, State.updHome_memoryWf, notEnabled_keeps]

theorem execTicketQuery_keeps (h : memoryWf s) (hm) : Keeps (execTicketQuery hm s) := by
  grind [execTicketQuery, Keeps, State.ticketItem_memoryWf, State.updHome_memoryWf, notEnabled_keeps]

theorem execLeaseEnd_keeps (h : memoryWf s) (hm) : Keeps (execLeaseEnd hm s) := by
  grind [execLeaseEnd, Keeps, State.updHome_memoryWf, State.updTile_memoryWf, State.releaseTicket_memoryWf,
    State.updUnit_memoryWf, notEnabled_keeps]

theorem execReleaseNotice_keeps (h : memoryWf s) (k) : Keeps (execReleaseNotice k s) := by
  grind [execReleaseNotice, Keeps, notEnabled_keeps, State.updCore_memoryWf, State.popNet_memoryWf]

theorem State.landGranule_memoryWf (h : memoryWf s) (pa bs k) : memoryWf (s.landGranule pa bs k) := by
  unfold State.landGranule
  grind [State.poisonFull_memoryWf, State.storeFull_memoryWf]

theorem State.landRdm_memoryWf (h : memoryWf s) (c l ticket r) : memoryWf (s.landRdm c l ticket r) := by
  grind [State.landRdm, State.poisonV_memoryWf, State.setVAt_memoryWf, State.landGranule_memoryWf,
    State.pushLoadCause_memoryWf, State.release_memoryWf, foldl_memoryWf]

theorem execSnapshotReply_keeps (h : memoryWf s) (k) : Keeps (execSnapshotReply k s) := by
  grind [execSnapshotReply, Keeps, notEnabled_keeps, State.popNet_memoryWf, State.stale_memoryWf,
    State.downLd_memoryWf, State.endRdm_memoryWf, State.landRdm_memoryWf, State.updSlotAt_memoryWf,
    State.updCore_memoryWf, State.accessFor_memoryWf, foldl_memoryWf]

theorem State.rdmScales_memoryWf (h : memoryWf s) (c l id off bs) : memoryWf (s.rdmScales c l id off bs) := by
  grind [State.rdmScales, State.updSlotAt_memoryWf, State.downLd_memoryWf, State.endRdm_memoryWf,
    State.landRdm_memoryWf]

theorem execScaleReadReply_keeps (h : memoryWf s) (k) : Keeps (execScaleReadReply k s) := by
  grind [execScaleReadReply, Keeps, notEnabled_keeps, State.popNet_memoryWf, State.stale_memoryWf,
    State.rdmScales_memoryWf, State.pushLoadCause_memoryWf]

/-! ### The vector unit, majors 0x30 to 0x33 -/

theorem writeV_keeps (h : memoryWf s) (i n d f) : Keeps (writeV i n d f s) := by
  grind [writeV, Keeps, issue_keeps, State.retire_memoryWf, State.setV_memoryWf]

theorem vecBinary_keeps (h : memoryWf s) (i f d a b m t) : Keeps (vecBinary i f d a b m t s) := by
  grind [vecBinary, writeV_keeps]

theorem vecUnary_keeps (h : memoryWf s) (i f d a m t) : Keeps (vecUnary i f d a m t s) := by
  grind [vecUnary, writeV_keeps]

theorem execVadd_keeps (h : memoryWf s) (d a b m t) : Keeps (execVadd d a b m t s) := vecBinary_keeps h ..
theorem execVsub_keeps (h : memoryWf s) (d a b m t) : Keeps (execVsub d a b m t s) := vecBinary_keeps h ..
theorem execVmul_keeps (h : memoryWf s) (d a b m t) : Keeps (execVmul d a b m t s) := vecBinary_keeps h ..
theorem execVmax_keeps (h : memoryWf s) (d a b m t) : Keeps (execVmax d a b m t s) := vecBinary_keeps h ..
theorem execVmin_keeps (h : memoryWf s) (d a b m t) : Keeps (execVmin d a b m t s) := vecBinary_keeps h ..
theorem execVand_keeps (h : memoryWf s) (d a b m t) : Keeps (execVand d a b m t s) := vecBinary_keeps h ..
theorem execVor_keeps (h : memoryWf s) (d a b m t) : Keeps (execVor d a b m t s) := vecBinary_keeps h ..
theorem execVxor_keeps (h : memoryWf s) (d a b m t) : Keeps (execVxor d a b m t s) := vecBinary_keeps h ..
theorem execVshl_keeps (h : memoryWf s) (d a b m t) : Keeps (execVshl d a b m t s) := vecBinary_keeps h ..
theorem execVshr_keeps (h : memoryWf s) (d a b m t) : Keeps (execVshr d a b m t s) := vecBinary_keeps h ..
theorem execVabs_keeps (h : memoryWf s) (d a m t) : Keeps (execVabs d a m t s) := vecUnary_keeps h ..
theorem execVneg_keeps (h : memoryWf s) (d a m t) : Keeps (execVneg d a m t s) := vecUnary_keeps h ..
theorem execVexp2_keeps (h : memoryWf s) (d a m t) : Keeps (execVexp2 d a m t s) := vecUnary_keeps h ..
theorem execVrcp_keeps (h : memoryWf s) (d a m t) : Keeps (execVrcp d a m t s) := vecUnary_keeps h ..
theorem execVrsq_keeps (h : memoryWf s) (d a m t) : Keeps (execVrsq d a m t s) := vecUnary_keeps h ..
theorem execVmov_keeps (h : memoryWf s) (d a m t) : Keeps (execVmov d a m t s) := vecUnary_keeps h ..

theorem execVfma_keeps (h : memoryWf s) (d a b m t) : Keeps (execVfma d a b m t s) := by
  grind [execVfma, writeV_keeps]

theorem execVbcast_keeps (h : memoryWf s) (d a m t) : Keeps (execVbcast d a m t s) := by
  grind [execVbcast, writeV_keeps]

theorem execVperm_keeps (h : memoryWf s) (d a b m t) : Keeps (execVperm d a b m t s) := by
  grind [execVperm, writeV_keeps]

theorem execVsel_keeps (h : memoryWf s) (d a b m t) : Keeps (execVsel d a b m t s) := by
  grind [execVsel, writeV_keeps]

theorem reduceForm_keeps (h : memoryWf s) (i f unit d a m t) : Keeps (reduceForm i f unit d a m t s) := by
  grind [reduceForm, writeV_keeps]

theorem execVredsum_keeps (h : memoryWf s) (d a m t) : Keeps (execVredsum d a m t s) := reduceForm_keeps h ..
theorem execVredmax_keeps (h : memoryWf s) (d a m t) : Keeps (execVredmax d a m t s) := reduceForm_keeps h ..

theorem compareForm_keeps (h : memoryWf s) (i cc d a b m t) : Keeps (compareForm i cc d a b m t s) := by
  grind [compareForm, Keeps, issue_keeps, State.retire_memoryWf, State.setM_memoryWf]

theorem execVcmpEq_keeps (h : memoryWf s) (d a b m t) : Keeps (execVcmpEq d a b m t s) := compareForm_keeps h ..
theorem execVcmpNe_keeps (h : memoryWf s) (d a b m t) : Keeps (execVcmpNe d a b m t s) := compareForm_keeps h ..
theorem execVcmpLt_keeps (h : memoryWf s) (d a b m t) : Keeps (execVcmpLt d a b m t s) := compareForm_keeps h ..
theorem execVcmpLe_keeps (h : memoryWf s) (d a b m t) : Keeps (execVcmpLe d a b m t s) := compareForm_keeps h ..
theorem execVcmpGt_keeps (h : memoryWf s) (d a b m t) : Keeps (execVcmpGt d a b m t s) := compareForm_keeps h ..
theorem execVcmpGe_keeps (h : memoryWf s) (d a b m t) : Keeps (execVcmpGe d a b m t s) := compareForm_keeps h ..

theorem execVcvt_keeps (h : memoryWf s) (d a ts m t) : Keeps (execVcvt d a ts m t s) := by
  grind [execVcvt, writeV_keeps]

theorem execVquant_keeps (h : memoryWf s) (d a b t f g) : Keeps (execVquant d a b t f g s) := by
  grind [execVquant, Keeps, issue_keeps, State.retire_memoryWf, State.setV_memoryWf]

theorem execVdeq_keeps (h : memoryWf s) (d a b t f g) : Keeps (execVdeq d a b t f g s) := by
  grind [execVdeq, Keeps, issue_keeps, State.retire_memoryWf, State.setV_memoryWf, foldl_memoryWf]

theorem execVmxdot_keeps (h : memoryWf s) (d a b m t f g) : Keeps (execVmxdot d a b m t f g s) := writeV_keeps h ..

theorem execBaq_keeps (h : memoryWf s) (d a b t f g) : Keeps (execBaq d a b t f g s) := by
  grind [execBaq, Keeps, issue_keeps, State.retire_memoryWf, State.setV_memoryWf]

theorem maskForm_keeps (h : memoryWf s) (i d f) : Keeps (maskForm i d f s) := by
  grind [maskForm, Keeps, issue_keeps, State.retire_memoryWf, State.setM_memoryWf]

theorem execMand_keeps (h : memoryWf s) (d a b) : Keeps (execMand d a b s) := maskForm_keeps h ..
theorem execMor_keeps (h : memoryWf s) (d a b) : Keeps (execMor d a b s) := maskForm_keeps h ..
theorem execMnot_keeps (h : memoryWf s) (d a) : Keeps (execMnot d a s) := maskForm_keeps h ..
theorem execMpop_keeps (h : memoryWf s) (d a) : Keeps (execMpop d a s) := writeX_keeps h ..
theorem execMfirst_keeps (h : memoryWf s) (d a) : Keeps (execMfirst d a s) := writeX_keeps h ..

/-! ### A turn of the machine -/

theorem State.pass_memoryWf (h : memoryWf s) (n) : memoryWf (s.pass n) := by
  unfold State.pass
  grind [memoryWf_iff, State.endCycle_memoryWf]

theorem exec_keeps (hs : memoryWf s) : ∀ i, Keeps (exec i s)
  | .add d a b w => execAdd_keeps hs d a b w
  | .sub d a b w => execSub_keeps hs d a b w
  | .mul d a b w => execMul_keeps hs d a b w
  | .mulh d a b n => execMulh_keeps hs d a b n
  | .div d a b w n => execDiv_keeps hs d a b w n
  | .rem d a b w n => execRem_keeps hs d a b w n
  | .and d a b => execAnd_keeps hs d a b
  | .or d a b => execOr_keeps hs d a b
  | .xor d a b => execXor_keeps hs d a b
  | .andn d a b => execAndn_keeps hs d a b
  | .sll d a b w => execSll_keeps hs d a b w
  | .srl d a b w => execSrl_keeps hs d a b w
  | .sra d a b w => execSra_keeps hs d a b w
  | .rot d a b w => execRot_keeps hs d a b w
  | .clz d a w => execClz_keeps hs d a w
  | .ctz d a w => execCtz_keeps hs d a w
  | .popc d a w => execPopc_keeps hs d a w
  | .min d a b n => execMin_keeps hs d a b n
  | .max d a b n => execMax_keeps hs d a b n
  | .slt d a b n => execSlt_keeps hs d a b n
  | .sel d a b => execSel_keeps hs d a b
  | .sextB d a => execSextB_keeps hs d a
  | .sextH d a => execSextH_keeps hs d a
  | .sextW d a => execSextW_keeps hs d a
  | .zextB d a => execZextB_keeps hs d a
  | .zextH d a => execZextH_keeps hs d a
  | .zextW d a => execZextW_keeps hs d a
  | .addImm d a imm => execAddImm_keeps hs d a imm
  | .andImm d a imm => execAndImm_keeps hs d a imm
  | .orImm d a imm => execOrImm_keeps hs d a imm
  | .xorImm d a imm => execXorImm_keeps hs d a imm
  | .sltImm d a imm => execSltImm_keeps hs d a imm
  | .sltNImm d a imm => execSltNImm_keeps hs d a imm
  | .addWImm d a imm => execAddWImm_keeps hs d a imm
  | .mulImm d a imm => execMulImm_keeps hs d a imm
  | .minImm d a imm => execMinImm_keeps hs d a imm
  | .maxImm d a imm => execMaxImm_keeps hs d a imm
  | .minNImm d a imm => execMinNImm_keeps hs d a imm
  | .maxNImm d a imm => execMaxNImm_keeps hs d a imm
  | .sllImm d a c => execSllImm_keeps hs d a c
  | .srlImm d a c => execSrlImm_keeps hs d a c
  | .sraImm d a c => execSraImm_keeps hs d a c
  | .rotImm d a c => execRotImm_keeps hs d a c
  | .sllWImm d a c => execSllWImm_keeps hs d a c
  | .srlWImm d a c => execSrlWImm_keeps hs d a c
  | .sraWImm d a c => execSraWImm_keeps hs d a c
  | .rotWImm d a c => execRotWImm_keeps hs d a c
  | .bfx d a l w => execBfx_keeps hs d a l w
  | .bfi d a l w => execBfi_keeps hs d a l w
  | .lui d imm => execLui_keeps hs d imm
  | .auipc d imm => execAuipc_keeps hs d imm
  | .fadd d a b => execFadd_keeps hs d a b
  | .fsub d a b => execFsub_keeps hs d a b
  | .fmul d a b => execFmul_keeps hs d a b
  | .fdiv d a b => execFdiv_keeps hs d a b
  | .fmin d a b => execFmin_keeps hs d a b
  | .fmax d a b => execFmax_keeps hs d a b
  | .fabs d a => execFabs_keeps hs d a
  | .fcmpEq d a b => execFcmpEq_keeps hs d a b
  | .fcmpNe d a b => execFcmpNe_keeps hs d a b
  | .fcmpLt d a b => execFcmpLt_keeps hs d a b
  | .fcmpLe d a b => execFcmpLe_keeps hs d a b
  | .fcmpGt d a b => execFcmpGt_keeps hs d a b
  | .fcmpGe d a b => execFcmpGe_keeps hs d a b
  | .fcvtF32I d a => execFcvtF32I_keeps hs d a
  | .fcvtIF32 d a => execFcvtIF32_keeps hs d a
  | .fcvtF32Bf16 d a => execFcvtF32Bf16_keeps hs d a
  | .fcvtBf16F32 d a => execFcvtBf16F32_keeps hs d a
  | .fma d a b c => execFma_keeps hs d a b c
  | .lea d a b r => execLea_keeps hs d a b r
  | .gaform d a b => execGaform_keeps hs d a b
  | .gahome d a => execGahome_keeps hs d a
  | .gatile d a => execGatile_keeps hs d a
  | .padd d a b => execPadd_keeps hs d a b
  | .beq a b d => execBeq_keeps hs a b d
  | .bne a b d => execBne_keeps hs a b d
  | .blt a b d => execBlt_keeps hs a b d
  | .bge a b d => execBge_keeps hs a b d
  | .blo a b d => execBlo_keeps hs a b d
  | .bhs a b d => execBhs_keeps hs a b d
  | .j d => execJ_keeps hs d
  | .jal d => execJal_keeps hs d
  | .ld d a w z o => execLd_keeps hs d a w z o
  | .ldS d a w z o => execLdS_keeps hs d a w z o
  | .st r a w z o => execSt_keeps hs r a w z o
  | .ldFeKeep d a w z o => execLdFeKeep_keeps hs d a w z o
  | .ldFeTake d a w z o => execLdFeTake_keeps hs d a w z o
  | .stFe r a w z o => execStFe_keeps hs r a w z o
  | .ldIndexed d a b w z => execLdIndexed_keeps hs d a b w z
  | .ldSIndexed d a b w z => execLdSIndexed_keeps hs d a b w z
  | .stIndexed r a b w z => execStIndexed_keeps hs r a b w z
  | .ldFeKeepIndexed d a b w z => execLdFeKeepIndexed_keeps hs d a b w z
  | .ldFeTakeIndexed d a b w z => execLdFeTakeIndexed_keeps hs d a b w z
  | .stFeIndexed r a b w z => execStFeIndexed_keeps hs r a b w z
  | .feSet a b => execFeSet_keeps hs a b
  | .feClr a b => execFeClr_keeps hs a b
  | .qpush a n => execQpush_keeps hs a n
  | .qpop d n => execQpop_keeps hs d n
  | .aadd d a b w z => execAadd_keeps hs d a b w z
  | .aand d a b w z => execAand_keeps hs d a b w z
  | .aor d a b w z => execAor_keeps hs d a b w z
  | .axor d a b w z => execAxor_keeps hs d a b w z
  | .amin d a b w z => execAmin_keeps hs d a b w z
  | .amax d a b w z => execAmax_keeps hs d a b w z
  | .aminN d a b w z => execAminN_keeps hs d a b w z
  | .amaxN d a b w z => execAmaxN_keeps hs d a b w z
  | .aswap d a b w z => execAswap_keeps hs d a b w z
  | .acas d a b w z => execAcas_keeps hs d a b w z
  | .anadd a b w z => execAnadd_keeps hs a b w z
  | .ldt d a w k o => execLdt_keeps hs d a w k o
  | .rdmV d a w => execRdmV_keeps hs d a w
  | .rdmScratchpad a b w => execRdmScratchpad_keeps hs a b w
  | .rdmM a b w => execRdmM_keeps hs a b w
  | .tkdrop a w => execTkdrop_keeps hs a w
  | .tkq d a w => execTkq_keeps hs d a w
  | .fenceTile => execFenceTile_keeps hs
  | .fenceCluster => execFenceCluster_keeps hs
  | .fenceDie => execFenceDie_keeps hs
  | .fencePackage => execFencePackage_keeps hs
  | .fenceSystem => execFenceSystem_keeps hs
  | .seal a b => execSeal_keeps hs a b
  | .unseal a b => execUnseal_keeps hs a b
  | .pref a b => execPref_keeps hs a b
  | .jrd d a => execJrd_keeps hs d a
  | .jdrop a => execJdrop_keeps hs a
  | .chnew h g => execChnew_keeps hs h g
  | .chdup h g => execChdup_keeps hs h g
  | .hmov h g => execHmov_keeps hs h g
  | .hclr h => execHclr_keeps hs h
  | .chclose h => execChclose_keeps hs h
  | .chq g a => execChq_keeps hs g a
  | .chseg h a => execChseg_keeps hs h a
  | .chbindHandler g o => execChbindHandler_keeps hs g o
  | .chbindInbox g => execChbindInbox_keeps hs g
  | .chsend h a n => execChsend_keeps hs h a n
  | .chsendLo h a n => execChsendLo_keeps hs h a n
  | .chsendCtl h a n => execChsendCtl_keeps hs h a n
  | .chsendh h g a n => execChsendh_keeps hs h g a n
  | .chsendhLo h g a n => execChsendhLo_keeps hs h g a n
  | .chsendhCtl h g a n => execChsendhCtl_keeps hs h g a n
  | .inboxDq h a n => execInboxDq_keeps hs h a n
  | .inboxTry h a n => execInboxTry_keeps hs h a n
  | .amsg a n => execAmsg_keeps hs a n
  | .spawn a p o => execSpawn_keeps hs a p o
  | .rrot => execRrot_keeps hs
  | .mtset a b => execMtset_keeps hs a b
  | .mtlist a b => execMtlist_keeps hs a b
  | .mrel n => execMrel_keeps hs n
  | .vadd d a b m t => execVadd_keeps hs d a b m t
  | .vsub d a b m t => execVsub_keeps hs d a b m t
  | .vmul d a b m t => execVmul_keeps hs d a b m t
  | .vfma d a b m t => execVfma_keeps hs d a b m t
  | .vmax d a b m t => execVmax_keeps hs d a b m t
  | .vmin d a b m t => execVmin_keeps hs d a b m t
  | .vabs d a m t => execVabs_keeps hs d a m t
  | .vneg d a m t => execVneg_keeps hs d a m t
  | .vexp2 d a m t => execVexp2_keeps hs d a m t
  | .vrcp d a m t => execVrcp_keeps hs d a m t
  | .vrsq d a m t => execVrsq_keeps hs d a m t
  | .vand d a b m t => execVand_keeps hs d a b m t
  | .vor d a b m t => execVor_keeps hs d a b m t
  | .vxor d a b m t => execVxor_keeps hs d a b m t
  | .vshl d a b m t => execVshl_keeps hs d a b m t
  | .vshr d a b m t => execVshr_keeps hs d a b m t
  | .vmov d a m t => execVmov_keeps hs d a m t
  | .vbcast d a m t => execVbcast_keeps hs d a m t
  | .vredsum d a m t => execVredsum_keeps hs d a m t
  | .vredmax d a m t => execVredmax_keeps hs d a m t
  | .vsel d a b m t => execVsel_keeps hs d a b m t
  | .vperm d a b m t => execVperm_keeps hs d a b m t
  | .vcmpEq d a b m t => execVcmpEq_keeps hs d a b m t
  | .vcmpNe d a b m t => execVcmpNe_keeps hs d a b m t
  | .vcmpLt d a b m t => execVcmpLt_keeps hs d a b m t
  | .vcmpLe d a b m t => execVcmpLe_keeps hs d a b m t
  | .vcmpGt d a b m t => execVcmpGt_keeps hs d a b m t
  | .vcmpGe d a b m t => execVcmpGe_keeps hs d a b m t
  | .vcvt d a r m t => execVcvt_keeps hs d a r m t
  | .vquant d a b t f g => execVquant_keeps hs d a b t f g
  | .vdeq d a b t f g => execVdeq_keeps hs d a b t f g
  | .baq d a b t f g => execBaq_keeps hs d a b t f g
  | .vmxdot d a b m t f g => execVmxdot_keeps hs d a b m t f g
  | .mand d a b => execMand_keeps hs d a b
  | .mor d a b => execMor_keeps hs d a b
  | .mnot d a => execMnot_keeps hs d a
  | .mpop d a => execMpop_keeps hs d a
  | .mfirst d a => execMfirst_keeps hs d a
  | .vld d a w t o => execVld_keeps hs d a w t o
  | .vst r a w t o => execVst_keeps hs r a w t o
  | .vlds d a b m t w => execVlds_keeps hs d a b m t w
  | .vgath d a b m t w => execVgath_keeps hs d a b m t w
  | .vscat r a b m t w => execVscat_keeps hs r a b m t w
  | .vldRaw d a w o => execVldRaw_keeps hs d a w o
  | .vstRaw r a w o => execVstRaw_keeps hs r a w o
  | .shp a b r => execShp_keeps hs a b r
  | .mma a b c q => execMma_keeps hs a b c q
  | .mmaz a b c q => execMmaz_keeps hs a b c q
  | .mmaw a b c q => execMmaw_keeps hs a b c q
  | .accst a b c q => execAccst_keeps hs a b c q
  | .accld a b c q => execAccld_keeps hs a b c q
  | .accz a b c q => execAccz_keeps hs a b c q
  | .copy a b c q => execCopy_keeps hs a b c q
  | .copy2 a b c q => execCopy2_keeps hs a b c q
  | .copyf a b c q => execCopyf_keeps hs a b c q
  | .gather a b c q => execGather_keeps hs a b c q
  | .mcast a b c q => execMcast_keeps hs a b c q
  | .reduce a b c q => execReduce_keeps hs a b c q
  | .rstage a b c q => execRstage_keeps hs a b c q
  | .xpose a b c q => execXpose_keeps hs a b c q
  | .fill a b c q => execFill_keeps hs a b c q
  | .wait l r c t => execWait_keeps hs l r c t
  | .csrr d c => execCsrr_keeps hs d c
  | .csrw a c => execCsrw_keeps hs a c
  | .csrs a c => execCsrs_keeps hs a c
  | .csrc a c => execCsrc_keeps hs a c
  | .nop => execNop_keeps hs
  | .trap n => execTrap_keeps hs n
  | .eret => execEret_keeps hs
  | .ifence => execIfence_keeps hs
  | .cancel a l => execCancel_keeps hs a l
  | .circ a => execCirc_keeps hs a
  | .time d => execTime_keeps hs d
  | .brk => execBrk_keeps hs
  | .haltSlot => execHaltSlot_keeps hs
  | .wfi => execWfi_keeps hs
  | .jalr d a => execJalr_keeps hs d a
  | .exit => execExit_keeps hs
  | .loop a d => execLoop_keeps hs a d
  | .registerParityReplay c sl reg logBad => execRegisterParityReplay_keeps hs c sl reg logBad
  | .deliver k => execDeliver_keeps hs k
  | .perform h => execPerform_keeps hs h
  | .reply k => execReply_keeps hs k
  | .refusal k => execRefusal_keeps hs k
  | .asyncCauseDelivery c sl => execAsyncCauseDelivery_keeps hs c sl
  | .ticketFetch h => execTicketFetch_keeps hs h
  | .redemption h => execRedemption_keeps hs h
  | .redemptionHoldExpiry h => execRedemptionHoldExpiry_keeps hs h
  | .ticketDrop h => execTicketDrop_keeps hs h
  | .ticketQuery h => execTicketQuery_keeps hs h
  | .leaseEnd h => execLeaseEnd_keeps hs h
  | .releaseNotice k => execReleaseNotice_keeps hs k
  | .snapshotReply k => execSnapshotReply_keeps hs k
  | .scaleReadReply k => execScaleReadReply_keeps hs k
  | .engineStart e => execEngineStart_keeps hs e
  | .engineAccess e act => execEngineAccess_keeps hs e act
  | .engineComplete e run => execEngineComplete_keeps hs e run
  | .parkedCommandRelease e => execParkedCommandRelease_keeps hs e
  | .engineMarkerComplete e => execEngineMarkerComplete_keeps hs e
  | .reductionLine cl => execReductionLine_keeps hs cl
  | .completionTaskCreate c => execCompletionTaskCreate_keeps hs c
  | .silentNotice k => execSilentNotice_keeps hs k
  | .channelCreationRequest h => execChannelCreationRequest_keeps hs h
  | .channelCreationReply k => execChannelCreationReply_keeps hs k
  | .instanceAllocation h => execInstanceAllocation_keeps hs h
  | .messageArrival c => execMessageArrival_keeps hs c
  | .mismatchedMessageReturn h => execMismatchedMessageReturn_keeps hs h
  | .messageRelease c ident inst => execMessageRelease_keeps hs c ident inst
  | .handlerTaskCreate c cls => execHandlerTaskCreate_keeps hs c cls
  | .creditReturn k => execCreditReturn_keeps hs k
  | .closeNotice h => execCloseNotice_keeps hs h
  | .finalNotice k => execFinalNotice_keeps hs k
  | .peerClosedNotice k => execPeerClosedNotice_keeps hs k
  | .movingNotice h => execMovingNotice_keeps hs h
  | .landingNotice h => execLandingNotice_keeps hs h
  | .redirect k => execRedirect_keeps hs k
  | .stubForward c ident gen => execStubForward_keeps hs c ident gen
  | .fenceMarker k => execFenceMarker_keeps hs k
  | .handoverMarker k => execHandoverMarker_keeps hs k
  | .stubRetirement h => execStubRetirement_keeps hs h
  | .step cl sub => execStep_keeps hs cl sub
  | .slotFill c => execSlotFill_keeps hs c
  | .draw die => execDraw_keeps hs die
  | .drawReply k => execDrawReply_keeps hs k
  | .steal die => execSteal_keeps hs die
  | .runQueueAgeing c => execRunQueueAgeing_keeps hs c
  | .loadSummary => execLoadSummary_keeps hs
  | .workDonation asker victim => execWorkDonation_keeps hs asker victim
  | .start w => execStart_keeps hs w
  | .arm w => execArm_keeps hs w
  | .task w => execTask_keeps hs w
  | .cancelRequest h => execCancelRequest_keeps hs h
  | .removalNotice die => execRemovalNotice_keeps hs die
  | .cancelDeadline rec => execCancelDeadline_keeps hs rec
  | .countChange h => execCountChange_keeps hs h
  | .hCompletion => execHCompletion_keeps hs
  | .taskMigration c sl => execTaskMigration_keeps hs c sl
  | .migrationArrival c sl => execMigrationArrival_keeps hs c sl
  | .watchdogExpiry c sl => execWatchdogExpiry_keeps hs c sl
  | .wfiTimeout c sl => execWfiTimeout_keeps hs c sl
  | .evaluation choices => execEvaluation_keeps hs choices
  | .migrationSwitch page => execMigrationSwitch_keeps hs page
  | .dropMarker h => execDropMarker_keeps hs h
  | .drainMarker h => execDrainMarker_keeps hs h
  | .sealCompletion => execSealCompletion_keeps hs
  | .unsealCompletion => execUnsealCompletion_keeps hs
  | .pageWalk c va fetch => execPageWalk_keeps hs c va fetch
  | .tlbShootdown who base len => execTlbShootdown_keeps hs who base len
  | .create rec jslot tag => execCreate_keeps hs rec jslot tag
  | .teardown jslot => execTeardown_keeps hs jslot
  | .switch out into t => execSwitch_keeps hs out into t
  | .stopTimeLate t => execStopTimeLate_keeps hs t
  | .switchOut => execSwitchOut_keeps hs
  | .switchOutDone => execSwitchOutDone_keeps hs
  | .resume => execResume_keeps hs
  | .invalidate jslot base len => execInvalidate_keeps hs jslot base len
  | .attestation nonce buf => execAttestation_keeps hs nonce buf
  | .clearDisableList ix => execClearDisableList_keeps hs ix
  | .raiseFirmwareMinimum => execRaiseFirmwareMinimum_keeps hs
  | .qtailWrite j q v => execQtailWrite_keeps hs j q v
  | .queueEntrySubmit j q => execQueueEntrySubmit_keeps hs j q
  | .evheadWrite j v => execEvheadWrite_keeps hs j v
  | .releaseRetry c sl gen => execReleaseRetry_keeps hs c sl gen
  | .releaseResume c sl gen => execReleaseResume_keeps hs c sl gen
  | .releaseKill c sl gen => execReleaseKill_keeps hs c sl gen
  | .rqheadWrite v => execRqheadWrite_keeps hs v
  | .fqheadWrite v => execFqheadWrite_keeps hs v
  | .rqbaseWrite v => execRqbaseWrite_keeps hs v
  | .fqbaseWrite v => execFqbaseWrite_keeps hs v
  | .mccountWrite v => execMccountWrite_keeps hs v
  | .hostRegisterWrite bar off size v => execHostRegisterWrite_keeps hs bar off size v
  | .faultRecord fatal => execFaultRecord_keeps hs fatal
  | .circRequest => execCircRequest_keeps hs
  | .holdNotice k => execHoldNotice_keeps hs k
  | .holdAck => execHoldAck_keeps hs
  | .planLit => execPlanLit_keeps hs
  | .circTimeout => execCircTimeout_keeps hs
  | .flit link f checkOk headersOk => execFlit_keeps hs link f checkOk headersOk
  | .replayRequest link lack => execReplayRequest_keeps hs link lack
  | .gapTimer link => execGapTimer_keeps hs link
  | .endToEndAcknowledgement peer vc eseq => execEndToEndAcknowledgement_keeps hs peer vc eseq
  | .endToEndRetransmission peer vc => execEndToEndRetransmission_keeps hs peer vc
  | .lossOfLight fibre waves => execLossOfLight_keeps hs fibre waves
  | .liveMask fibre mask => execLiveMask_keeps hs fibre mask
  | .keyReplacement link => execKeyReplacement_keeps hs link
  | .gatewayBlock link => execGatewayBlock_keeps hs link
  | .linkChange peer vc => execLinkChange_keeps hs peer vc
  | .timeMessage t => execTimeMessage_keeps hs t
  | .errorDetected ukind unit cause addr => execErrorDetected_keeps hs ukind unit cause addr
  | .windowRestart ukind unit => execWindowRestart_keeps hs ukind unit
  | .powerOn fuseOk linkOk found => execPowerOn_keeps hs fuseOk linkOk found
  | .powerEvaluation power tj => execPowerEvaluation_keeps hs power tj
  | .thermalTrip tj => execThermalTrip_keeps hs tj
  | .railRemoval => execRailRemoval_keeps hs
  | .undefinedInstruction w => execUndefinedInstruction_keeps hs w
  | .peerLayoutEntry peer layout => execPeerLayoutEntry_keeps hs peer layout
  | .trainLink link light => execTrainLink_keeps hs link light
  | .switchRefusedPlan => execSwitchRefusedPlan_keeps hs
  | .moduleReset => execModuleReset_keeps hs

theorem State.runWord_keeps (h : memoryWf s) (w) : Keeps (s.runWord w) := by
  grind [State.runWord, exec_keeps, execUndefinedInstruction_keeps]

theorem State.fetchRefused_memoryWf (h : memoryWf s) (c l pa) : memoryWf (s.fetchRefused c l pa) := by
  grind [State.fetchRefused, State.stall_memoryWf, State.pushLoadCause_memoryWf]

theorem State.newTry_memoryWf (h : memoryWf s) : memoryWf s.newTry := by
  grind [State.newTry, State.upd_memoryWf]

theorem State.boundary_keeps (h : memoryWf s) (c l) : Keeps (s.boundary c l) := by
  grind [State.boundary, Keeps, memoryWf_iff, State.newTry_memoryWf, execAsyncCauseDelivery_keeps,
    State.fetch_memoryWf, State.trapIdx_keeps, State.fetchRefused_memoryWf, State.stall_memoryWf, State.runWord_keeps]

theorem State.tryIssue_keeps (h : memoryWf s) (c l) : Keeps (s.tryIssue c l) := by
  induction l generalizing s with
  | nil => exact h
  | cons a t ih =>
    have hb := State.boundary_keeps h c a
    unfold State.tryIssue
    grind [Keeps, State.updCore_memoryWf]

theorem State.issueCore_keeps (h : memoryWf s) (c busy) : Keeps (s.issueCore c busy) := by
  grind [State.issueCore, Keeps, State.tryIssue_keeps]

theorem State.prefetchCore_keeps (h : memoryWf s) (c va) : Keeps (s.prefetchCore c va) := by
  grind [State.prefetchCore, Keeps, memoryWf_iff, State.prefetch_memoryWf]

theorem State.turn_keeps (h : memoryWf s) (t) : Keeps (s.turn t) := by
  grind [State.turn, Keeps, State.issueCore_keeps, State.pass_memoryWf, State.prefetchCore_keeps, notEnabled_keeps,
    exec_keeps]

theorem State.advance_keeps (h : memoryWf s) : Keeps s.advance := by
  grind [State.advance, Keeps, memoryWf_iff, State.turn_keeps]

/-! ### `step`, and where it fetches its next instruction -/

theorem step_keeps (h : memoryWf s) : Keeps (step s) := State.advance_keeps h ..

end Sys2Proof.Machine

namespace Sys2Proof.Machine

open Sys2Proof Sys2Proof.Safety

/-- Settles O59: `step` is the turn of the first unit in the list, and every unit's turn keeps the memories in form. -/
theorem everyStepKeepsTheMemoriesCanonical : Obligations.every_step_keeps_the_memories_canonical := by
  intro s t h ht
  have hk := step_keeps h
  rwa [ht] at hk

end Sys2Proof.Machine
end

