-- ==== Sys2Proof/Proofs/LinkReplay.lean ====
section
/-! PROOFS. O54 fails: a replay request that brings a link to its threshold declares the link in the same step, and the link
that has gone down sends nothing again (R362, R376, R377). -/

namespace Sys2Proof.Machine

open Sys2Proof Sys2Proof.Safety

/-- A flit that port 0 has sent and its peer has not acknowledged. -/
def unackedFlit : Flit :=
  { ftype := 0, vc := 0, cvc := 0, cred := 0, dpeer := 1, speer := 0, eseq := 0, lseq := 0, lack := 255, packets := [], arg := 0
    check := 0 }

/-- A module with a job whose port 0 is up with one flit not acknowledged, and has had one replay request less in this
window than its link threshold, 1024 at reset. -/
def linkBeforeThreshold : State :=
  { State.reset with
    jobs := [(0, Job.none)]
    links := [(0, { Link.reset with up := true, peer := 1, lseq := 1, unacked := [unackedFlit] })]
    units := [{ State.reset.unitAt 6 0 with replays := 1023 }] }

/-- The replay request that reaches the link's threshold declares the link, which takes it down (R376, R377) and empties its
replay buffer: nothing is sent again. -/
theorem linkBeforeThreshold_replayRequest :
    ∃ t, exec (.replayRequest 0 255) linkBeforeThreshold = .next t ∧ (t.linkAt 0).up = false ∧ t.sent = [] :=
  ⟨_, rfl, by decide +kernel, by decide +kernel⟩

/-- Refutes O54, in its clause on replay requests: a request that reaches the link's threshold leaves nothing to resend, where
the clause has every flit not acknowledged sent again. -/
theorem not_linksReplayStreamsRecoverAndLightFails :
    ¬ Obligations.links_replay_streams_recover_and_light_fails := by
  intro h
  obtain ⟨-, hreplay, -⟩ := h linkBeforeThreshold 0
  obtain ⟨t, gs, ht, -, -, hsent, -, hflits⟩ := hreplay 255 nofun rfl (by decide)
  obtain ⟨u, hu, -, hnone⟩ := linkBeforeThreshold_replayRequest
  cases Host.Outcome.next.inj (ht.symm.trans hu)
  have hgs : gs = [] := hsent.symm.trans hnone
  rw [hgs] at hflits
  exact absurd hflits (by decide +kernel)

end Sys2Proof.Machine
end

