-- ==== Sys2Proof/Proofs/StateRules.lean ====
section
/-! PROOFS. The rules of the shared operations that the statements about state rest on: what a read of a slot, a core, a pair
queue or a byte gives after each of them, and what each leaves as it was. -/

namespace Sys2Proof.Machine

open Sys2Proof Sys2Proof.Safety

variable {s t u : State}

/-! ### Reads past updates of other parts -/

@[simp] theorem State.slotAt_updTile (s : State) (n : Nat) (f) (c l : Nat) : (s.updTile n f).slotAt c l = s.slotAt c l := rfl
@[simp] theorem State.slotAt_updHome (s : State) (n : Nat) (f) (c l : Nat) : (s.updHome n f).slotAt c l = s.slotAt c l := rfl
@[simp] theorem State.slotAt_append (s : State) (k : PairKey) (p) (c l : Nat) : (s.append k p).slotAt c l = s.slotAt c l := rfl
@[simp] theorem State.slotAt_post (s : State) (a : Agent) (d n b i g) (c l : Nat) :
    (s.post a d n b i g).slotAt c l = s.slotAt c l := rfl
@[simp] theorem State.slotAt_popNet (s : State) (k : PairKey) (c l : Nat) : (s.popNet k).slotAt c l = s.slotAt c l := rfl
@[simp] theorem State.coreAt_updSlotAt (s : State) (c l : Nat) (f) (c' : Nat) :
    (s.updSlotAt c l f).coreAt c' = s.coreAt c' := rfl
@[simp] theorem State.coreAt_updTile (s : State) (n : Nat) (f) (c : Nat) : (s.updTile n f).coreAt c = s.coreAt c := rfl
@[simp] theorem State.coreAt_append (s : State) (k : PairKey) (p) (c : Nat) : (s.append k p).coreAt c = s.coreAt c := rfl
@[simp] theorem State.coreAt_post (s : State) (a : Agent) (d n b i g) (c : Nat) :
    (s.post a d n b i g).coreAt c = s.coreAt c := rfl
@[simp] theorem State.coreAt_popNet (s : State) (k : PairKey) (c : Nat) : (s.popNet k).coreAt c = s.coreAt c := rfl
@[simp] theorem State.coreAt_emit (s : State) (r : FaultRec) (c : Nat) : (s.emit r).coreAt c = s.coreAt c := by
  unfold State.emit; split <;> rfl
@[simp] theorem State.slotAt_emit (s : State) (r : FaultRec) (c l : Nat) : (s.emit r).slotAt c l = s.slotAt c l := by
  unfold State.emit; split <;> rfl

@[simp] theorem State.coreAt_updCore_self (s : State) (c : Nat) (f : Core → Core) :
    (s.updCore c f).coreAt c = f (s.coreAt c) := s.coreAt_setCore_self c _

theorem State.coreAt_updCore_other (s : State) {c c' : Nat} (f : Core → Core) (h : c' ≠ c) :
    (s.updCore c f).coreAt c' = s.coreAt c' := s.coreAt_setCore_other _ h

@[simp] theorem State.drawAt_updDraw_self (s : State) (d : Nat) (f : DrawUnit → DrawUnit) :
    (s.updDraw d f).drawAt d = f (s.drawAt d) := by
  simp [State.drawAt, State.updDraw, AMap.get_set_self]

@[simp] theorem State.slot_post (s : State) (a : Agent) (d n b i g) : (s.post a d n b i g).slot = s.slot := rfl
@[simp] theorem State.slot_retire (s : State) :
    s.retire.slot = { s.slot with pc := s.slot.pc + 4, phase := .ready } := by simp [State.retire]

/-- A packet that is posted stands last in its pair queue. -/
theorem State.post_lastIs (s : State) (a : Agent) (d : Place) (n : Nat) (b : Body) (i : Nat) (g : BitVec 16) :
    lastIs (s.post a d n b i g) { src := s.here a, dst := d, cls := n } b := by
  simp [lastIs, State.post, State.append, netGet_append]

/-! ### Registers of a slot (R12 to R14) -/

/-- A mark that is set is read as set; x0 has none. -/
theorem Slot.pendingAt_pendX (sl : Slot) {r : Reg} (h : r ≠ 0) (b : Bool) : (sl.pendX r b).pendingAt r.toNat = b := by
  have hr : r.toNat < 32 := r.isLt
  rw [Slot.pendX, if_neg h]
  cases b <;> simp [Slot.pendingAt, hr]

@[simp] theorem Slot.pendX_cntld (sl : Slot) (r : Reg) (b : Bool) : (sl.pendX r b).cntld = sl.cntld := by
  unfold Slot.pendX; split <;> rfl
@[simp] theorem Slot.pendX_pc (sl : Slot) (r : Reg) (b : Bool) : (sl.pendX r b).pc = sl.pc := by
  unfold Slot.pendX; split <;> rfl
@[simp] theorem Slot.pendX_phase (sl : Slot) (r : Reg) (b : Bool) : (sl.pendX r b).phase = sl.phase := by
  unfold Slot.pendX; split <;> rfl
@[simp] theorem Slot.pendX_async (sl : Slot) (r : Reg) (b : Bool) : (sl.pendX r b).async = sl.async := by
  unfold Slot.pendX; split <;> rfl
@[simp] theorem Slot.pendX_rx (sl : Slot) (r : Reg) (b : Bool) (q : Reg) : (sl.pendX r b).rx q = sl.rx q := by
  unfold Slot.pendX; split <;> rfl
@[simp] theorem Slot.pendX_poisonAt (sl : Slot) (r : Reg) (b : Bool) (n : Nat) :
    (sl.pendX r b).poisonAt n = sl.poisonAt n := by
  unfold Slot.pendX; split <;> rfl
@[simp] theorem Slot.wx_phase (sl : Slot) (r : Reg) (v : Word) : (sl.wx r v).phase = sl.phase := by
  unfold Slot.wx; split <;> rfl
@[simp] theorem Slot.wx_cntld (sl : Slot) (r : Reg) (v : Word) : (sl.wx r v).cntld = sl.cntld := by
  unfold Slot.wx; split <;> rfl
@[simp] theorem Slot.wx_async (sl : Slot) (r : Reg) (v : Word) : (sl.wx r v).async = sl.async := by
  unfold Slot.wx; split <;> rfl

/-- A register that is written whole holds no poison (R13). -/
theorem Slot.poisonAt_wx_self (sl : Slot) {r : Reg} (h : r ≠ 0) (v : Word) : (sl.wx r v).poisonAt r.toNat = none := by
  have hr : r.toNat < 32 := r.isLt
  rw [Slot.wx, if_neg h]
  simp [Slot.poisonAt, Vector.getD, hr]

/-! ### What changes nothing but slots, cores, tiles and pair queues -/

/-- Nothing but slots, cores, tiles and pair queues differs: all that the operations of a core on its tasks, its inbox and its
channel ends can change. -/
def CoreSide (s t : State) : Prop :=
  { t with mach := { t.mach with
      slots := s.mach.slots, cores := s.mach.cores, tiles := s.mach.tiles, net := s.mach.net } } = s

theorem CoreSide.refl (s : State) : CoreSide s s := rfl

theorem CoreSide.trans (h : CoreSide s t) (k : CoreSide t u) : CoreSide s u := by
  unfold CoreSide at *
  rw [← k] at h
  exact h

theorem CoreSide.foldl {α : Type} {f : State → α → State} (hf : ∀ u a, CoreSide u (f u a)) (s : State) (l : List α) :
    CoreSide s (l.foldl f s) := by
  induction l generalizing s with
  | nil => exact .refl s
  | cons a r ih => exact (hf s a).trans (ih _)

theorem CoreSide.sram (h : CoreSide s t) : t.mach.sram = s.mach.sram := congrArg (·.mach.sram) h
theorem CoreSide.dram (h : CoreSide s t) : t.dram = s.dram := congrArg (·.dram) h
theorem CoreSide.full (h : CoreSide s t) : t.mach.full = s.mach.full := congrArg (·.mach.full) h
theorem CoreSide.poison (h : CoreSide s t) : t.mach.poison = s.mach.poison := congrArg (·.mach.poison) h
theorem CoreSide.homes (h : CoreSide s t) : t.mach.homes = s.mach.homes := congrArg (·.mach.homes) h
theorem CoreSide.levels (h : CoreSide s t) : t.mach.levels = s.mach.levels := congrArg (·.mach.levels) h
theorem CoreSide.asks (h : CoreSide s t) : t.mach.asks = s.mach.asks := congrArg (·.mach.asks) h
theorem CoreSide.transits (h : CoreSide s t) : t.mach.transits = s.mach.transits := congrArg (·.mach.transits) h
theorem CoreSide.eqx (h : CoreSide s t) : t.eqx = s.eqx := congrArg (·.eqx) h
theorem CoreSide.part (h : CoreSide s t) : t.part = s.part := congrArg (·.part) h

/-- Every byte of memory reads as before. -/
theorem CoreSide.sameMemory (h : CoreSide s t) : sameMemory s t := fun a => by
  simp only [State.byte, h.sram, h.dram]

theorem CoreSide.updSlotAt (s : State) (c l : Nat) (f) : CoreSide s (s.updSlotAt c l f) := rfl
theorem CoreSide.updCore (s : State) (c : Nat) (f) : CoreSide s (s.updCore c f) := rfl
theorem CoreSide.setCore (s : State) (c : Nat) (k) : CoreSide s (s.setCore c k) := rfl
theorem CoreSide.updTile (s : State) (n : Nat) (f) : CoreSide s (s.updTile n f) := rfl
theorem CoreSide.post (s : State) (a : Agent) (d n b i g) : CoreSide s (s.post a d n b i g) := rfl
theorem CoreSide.popNet (s : State) (k : PairKey) : CoreSide s (s.popNet k) := rfl
theorem CoreSide.wakeSlot (s : State) (c l : Nat) : CoreSide s (s.wakeSlot c l) := rfl
theorem CoreSide.drain (s : State) (c l : Nat) : CoreSide s (s.drain c l) := rfl
theorem CoreSide.logWrite (s : State) (c l reg v) : CoreSide s (s.logWrite c l reg v) := rfl

theorem CoreSide.setXAt (s : State) (c l r v) : CoreSide s (s.setXAt c l r v) := rfl
theorem CoreSide.downLd (s : State) (c l : Nat) : CoreSide s (s.downLd c l) := rfl

theorem CoreSide.wakeCore (s : State) (c : Nat) : CoreSide s (s.wakeCore c) := .foldl (fun _ _ => .wakeSlot ..) ..

theorem CoreSide.wakeInbox (s : State) (c : Nat) : CoreSide s (s.wakeInbox c) :=
  .foldl (fun u l => by split; exacts [.updSlotAt .., .refl u]) ..

theorem CoreSide.release (s : State) (c cls : Nat) (i : InItem) : CoreSide s (s.release c cls i) :=
  ((CoreSide.updCore ..).trans (.wakeCore ..)).trans (.wakeInbox ..)

theorem CoreSide.sendCount (s : State) (c k : Nat) (up : Bool) : CoreSide s (s.sendCount c k up) := by
  unfold State.sendCount; split <;> exact .post ..

theorem CoreSide.settleExits (s : State) (c : Nat) : CoreSide s (s.settleExits c) := by
  unfold State.settleExits
  dsimp only
  split
  · exact .refl s
  · exact (CoreSide.updCore ..).trans (.foldl (fun u e => by split; exacts [.sendCount .., .refl u]) ..)

theorem CoreSide.closure (s : State) (c : Nat) (ident : Word) : CoreSide s (s.closure c ident) := by
  unfold State.closure
  dsimp only
  split
  · exact .refl s
  · split
    · exact (CoreSide.updCore ..).trans (.release ..)
    · exact .refl s

theorem CoreSide.settle (s : State) (c : Nat) (ident : Word) : CoreSide s (s.settle c ident) :=
  (CoreSide.updCore ..).trans (.closure ..)

theorem CoreSide.gone (s : State) (c : Nat) (m : Msg) (counts : Bool) : CoreSide s (s.gone c m counts) :=
  (CoreSide.updCore ..).trans (.settle ..)

theorem CoreSide.giveCredit (s : State) (a : Agent) (m : Msg) : CoreSide s (s.giveCredit a m) := by
  unfold State.giveCredit; split; exacts [.post .., .post .., .refl s]

theorem CoreSide.closeCarried (s : State) (a : Agent) (h : Handle) : CoreSide s (s.closeCarried a h) := by
  unfold State.closeCarried
  split
  · exact .refl s
  · exact .post ..
  · exact (CoreSide.post ..).trans (.post ..)

theorem CoreSide.dropMsg (s : State) (a : Agent) (m : Msg) : CoreSide s (s.dropMsg a m) := by
  unfold State.dropMsg
  dsimp only
  split
  · exact (CoreSide.giveCredit ..).trans (.closeCarried ..)
  · exact .giveCredit ..

theorem CoreSide.closeRecv (s : State) (c : Nat) (h : Handle) : CoreSide s (s.closeRecv c h) :=
  ((CoreSide.setCore ..).trans (.foldl (fun _ _ => .dropMsg ..) ..)).trans (.post ..)

theorem CoreSide.closeEnd (s : State) (c : Nat) (h : Handle) : CoreSide s (s.closeEnd c h) := by
  unfold State.closeEnd
  split
  · exact .refl s
  · exact (CoreSide.post ..).trans (.post ..)
  · exact .closeRecv ..

theorem CoreSide.dropLeases (s : State) (c l : Nat) (g : BitVec 16) (w : Nat → Bool) : CoreSide s (s.dropLeases c l g w) := by
  unfold State.dropLeases; split; exacts [.refl s, .updTile ..]

theorem CoreSide.endTask (s : State) (c l : Nat) : CoreSide s (s.endTask c l) := by
  have closes := CoreSide.foldl (f := fun u h => u.closeEnd c h) (fun u h => .closeEnd u c h) s (s.slotAt c l).h.toList
  unfold State.endTask
  dsimp only
  refine CoreSide.trans (closes.trans ((CoreSide.dropLeases _ c l (s.slotAt c l).gen (fun _ => true)).trans ?_)) (.settleExits _ c)
  split
  · rfl
  · exact CoreSide.trans (CoreSide.trans (by rfl) (.sendCount _ c (s.slotAt c l).task.level false)) (.drain _ c l)

theorem CoreSide.place (s : State) (c l : Nat) (e : RunEntry) : CoreSide s (s.place c l e) :=
  ((show CoreSide s ((s.setSlotAt c l _).updCore c _) from rfl).trans (.foldl (fun _ _ => by rfl) ..)).trans
    (.foldl (fun _ _ => by rfl) ..)

/-! ### What leaves the cores, the slots or the pair queues as they were -/

/-- A part of the state that every step of a fold leaves is left by the fold. -/
theorem foldl_leaves {α β : Type} {π : State → β} {f : State → α → State} (h : ∀ u a, π (f u a) = π u) (s : State)
    (l : List α) : π (l.foldl f s) = π s := by
  induction l generalizing s with
  | nil => rfl
  | cons a r ih => rw [List.foldl_cons, ih, h]

@[simp] theorem State.wakeSlot_cores (s : State) (c l : Nat) : (s.wakeSlot c l).mach.cores = s.mach.cores := rfl
@[simp] theorem State.wakeSlot_net (s : State) (c l : Nat) : (s.wakeSlot c l).mach.net = s.mach.net := rfl
@[simp] theorem State.coreAt_wakeSlot (s : State) (c l c' : Nat) : (s.wakeSlot c l).coreAt c' = s.coreAt c' := rfl

@[simp] theorem State.coreAt_wakeCore (s : State) (c c' : Nat) : (s.wakeCore c).coreAt c' = s.coreAt c' :=
  foldl_leaves (π := (·.coreAt c')) (fun _ _ => by rfl) ..
@[simp] theorem State.wakeCore_net (s : State) (c : Nat) : (s.wakeCore c).mach.net = s.mach.net :=
  foldl_leaves (π := (·.mach.net)) (fun _ _ => by rfl) ..

@[simp] theorem State.coreAt_wakeInbox (s : State) (c c' : Nat) : (s.wakeInbox c).coreAt c' = s.coreAt c' :=
  foldl_leaves (π := (·.coreAt c')) (fun _ _ => by split <;> rfl) ..
@[simp] theorem State.wakeInbox_net (s : State) (c : Nat) : (s.wakeInbox c).mach.net = s.mach.net :=
  foldl_leaves (π := (·.mach.net)) (fun _ _ => by split <;> rfl) ..

@[simp] theorem State.coreAt_release (s : State) (c cls : Nat) (i : InItem) :
    (s.release c cls i).coreAt c = (s.coreAt c).putItem cls i := by simp [State.release]
@[simp] theorem State.release_net (s : State) (c cls : Nat) (i : InItem) : (s.release c cls i).mach.net = s.mach.net := by
  simp [State.release, State.updCore]

@[simp] theorem State.coreAt_sendCount (s : State) (c k : Nat) (up : Bool) (c' : Nat) :
    (s.sendCount c k up).coreAt c' = s.coreAt c' := by
  unfold State.sendCount; split <;> rfl
@[simp] theorem State.slotAt_sendCount (s : State) (c k : Nat) (up : Bool) (c' l : Nat) :
    (s.sendCount c k up).slotAt c' l = s.slotAt c' l := by
  unfold State.sendCount; split <;> rfl

/-- A raise or lowering of a level's count goes out in class 1: the pair queues of the other classes stay. -/
theorem State.sendCount_net (s : State) (c k : Nat) (up : Bool) {key : PairKey} (h : key.cls ≠ 1) :
    netGet (s.sendCount c k up).mach.net key = netGet s.mach.net key := by
  unfold State.sendCount
  split <;> exact netGet_netSet_other _ _ fun e => h (congrArg PairKey.cls e)

@[simp] theorem State.slotAt_settleExits (s : State) (c c' l : Nat) : (s.settleExits c).slotAt c' l = s.slotAt c' l := by
  unfold State.settleExits
  dsimp only
  split
  · rfl
  · exact foldl_leaves (π := (·.slotAt c' l)) (fun _ _ => by split <;> simp) ..

/-- Exited tasks that report leave their core with the others: nothing else of a core changes. -/
theorem State.coreAt_settleExits (s : State) (c : Nat) :
    ∃ x, (s.settleExits c).coreAt c = { s.coreAt c with exited := x } := by
  unfold State.settleExits
  dsimp only
  split
  · exact ⟨_, rfl⟩
  · refine ⟨_, (foldl_leaves (π := (·.coreAt c)) (fun _ _ => ?_) ..).trans (State.coreAt_updCore_self ..)⟩
    split <;> simp

/-- A slot that does not drain is left as it is. -/
theorem State.slotAt_drain_of_ne {s : State} {c l : Nat} (h : (s.slotAt c l).phase ≠ .draining) :
    (s.drain c l).slotAt c l = s.slotAt c l := by
  simp [State.drain, h]

/-- A slot that is woken: its flag is set, and it may go on from `wfi`. -/
theorem State.slotAt_wakeSlot (s : State) (c l : Nat) :
    ∃ ph pc, (s.wakeSlot c l).slotAt c l = { s.slotAt c l with phase := ph, pc := pc, wake := true } := by
  unfold State.wakeSlot
  rw [State.slotAt_updSlotAt_self]
  split <;> exact ⟨_, _, rfl⟩

end Sys2Proof.Machine
end

