-- ==== Sys2Proof/Proofs/RingQueues.lean ====
section
/-! PROOFS. O11: the ring queues of a tile (R36, R151). -/

namespace Sys2Proof.Machine

open Sys2Proof Sys2Proof.Safety

variable {s : State}

theorem exec_qpush (a : Reg) (n : BitVec 5) (s : State) : exec (.qpush a n) s = execQpush a n s := rfl
theorem exec_qpop (d : Reg) (n : BitVec 5) (s : State) : exec (.qpop d n) s = execQpop d n s := rfl

@[simp] theorem State.ringOf_setRing (s : State) (t n : Nat) (r : Ring) : (s.setRing t n r).ringOf t n = r := by
  simp [State.ringOf, State.setRing, AMap.get_set_self]

@[simp] theorem State.slot_setRing (s : State) (t n : Nat) (r : Ring) : (s.setRing t n r).slot = s.slot := rfl
@[simp] theorem State.ringOf_upd (s : State) (f : Slot → Slot) (t n : Nat) : (s.upd f).ringOf t n = s.ringOf t n := rfl
@[simp] theorem State.ringOf_stall (s : State) (t n : Nat) : s.stall.ringOf t n = s.ringOf t n := rfl
@[simp] theorem State.ringOf_retire (s : State) (t n : Nat) : s.retire.ringOf t n = s.ringOf t n := rfl
@[simp] theorem State.ringOf_post (s : State) (a : Agent) (d m b i g) (t n : Nat) :
    (s.post a d m b i g).ringOf t n = s.ringOf t n := rfl

/-- A core with a tile lacks nothing for its ring queues (R212). -/
theorem gateLack_of_tile (h : isGateway s.cur.1 = false) : gateLack s = none := by simp [gateLack, h]

/-- `qpush` on a core with a tile, with nothing in its way. -/
theorem execQpush_ready (hg : isGateway s.cur.1 = false) {a : Reg} (hr : ready { reads := [xr a] } s = true) (n : BitVec 5) :
    exec (.qpush a n) s =
      let t := tileOf s.cur.1
      let r := s.ringOf t n.toNat
      if s.ownPending ∨ r.pushLate s.now s.cur.1 then .next s.stall
      else if 512 ≤ r.q.length then .next (s.setRing t n.toNat { r with fullAt := some s.now }).stall
      else .next (s.setRing t n.toNat { r with pushAt := some (s.now, s.cur.1), q := r.q ++ [s.slot.rx a] }).retire := by
  rw [exec_qpush, execQpush, gateLack_of_tile hg]
  exact issue_ready hr ..

/-- `qpop` on a core with a tile, with nothing in its way: the entry goes from the core to itself in the access class. -/
theorem execQpop_ready (hg : isGateway s.cur.1 = false) {d : Reg}
    (hr : ready { writes := [xr d], hold := decide (63 ≤ s.slot.cntld) } s = true) (n : BitVec 5) :
    exec (.qpop d n) s =
      let t := tileOf s.cur.1
      let r := s.ringOf t n.toNat
      if r.popLate s.now s.cur.1 then .next s.stall
      else
        match r.q with
        | [] => .next s.stall
        | v :: q =>
          let s1 := (s.setRing t n.toNat { r with popAt := some (s.now, s.cur.1), q := q }).upd (fun sl => (sl.upLd).pendX d true)
          .next (s1.post (.core s.cur.1) (s.here (.core s.cur.1)) 4 (.value (.xreg d false 8) (v.setWidth 512) none)
            s.cur.2 s.slot.gen).retire := by
  rw [exec_qpop, execQpop, gateLack_of_tile hg]
  exact (issue_ready hr ..).trans (by rfl)

/-- Settles O11. -/
theorem ringQueuesPushAndPopInOrder : Obligations.ring_queues_push_and_pop_in_order := by
  refine ⟨fun s d a n hg => ⟨?_, ?_⟩, fun s d a n hg _ => ⟨fun hr => ⟨fun hgo => ?_, fun hstop => ?_⟩, fun hr => ⟨?_, ?_⟩⟩⟩
  · rw [exec_qpush, execQpush, gateLack, if_pos hg]; rfl
  · rw [exec_qpop, execQpop, gateLack, if_pos hg]; rfl
  · obtain ⟨hroom, hown, hlate⟩ : _ ∧ _ ∧ _ := by simpa only [not_or] using hgo
    rw [execQpush_ready hg hr]
    simp only [hown, hlate, hroom, or_self, if_false]
    exact ⟨_, rfl, by simp, rfl⟩
  · rw [execQpush_ready hg hr]
    dsimp only
    split
    · exact ⟨_, rfl, by simp, rfl⟩
    · next hno =>
      have hfull := hstop.resolve_right hno
      rw [if_pos hfull]
      exact ⟨_, rfl, by simp, rfl⟩
  · intro hstop
    rw [execQpop_ready hg hr]
    dsimp only
    split
    · exact ⟨_, rfl, by simp, rfl⟩
    · next hno =>
      rw [hstop.resolve_right hno]
      exact ⟨_, rfl, by simp [hstop.resolve_right hno], rfl⟩
  · intro v q hgo hq
    obtain ⟨-, hlate⟩ := not_or.mp hgo
    rw [execQpop_ready hg hr]
    simp only [hlate, hq]
    refine ⟨_, rfl, by simp, by simp [Slot.upLd], fun hd => ?_, by simp [Slot.upLd], State.post_lastIs ..⟩
    simp only [State.slot_retire, State.slot_post, State.slot_upd, State.slot_setRing]
    exact Slot.pendingAt_pendX s.slot.upLd hd true

end Sys2Proof.Machine
end

