-- ==== Sys2Proof/Proofs/Csrs.lean ====
section
/-! PROOFS. O29: CSRs read and written (R18, R239, R240). -/

namespace Sys2Proof.Machine

open Sys2Proof Sys2Proof.Safety

variable {s : State}

theorem exec_csrr (d : Reg) (c : BitVec 12) (s : State) : exec (.csrr d c) s = execCsrr d c s := rfl
theorem exec_csrw (a : Reg) (c : BitVec 12) (s : State) : exec (.csrw a c) s = execCsrw a c s := rfl
theorem exec_csrs (a : Reg) (c : BitVec 12) (s : State) : exec (.csrs a c) s = execCsrs a c s := rfl
theorem exec_csrc (a : Reg) (c : BitVec 12) (s : State) : exec (.csrc a c) s = execCsrc a c s := rfl

/-- A CSR of an assigned number is changed by the form's function of its value and X[xa]. -/
theorem csrForm_assigned {a : Reg} (hr : ready { reads := [xr a] } s = true) {c : BitVec 12} {v : Word}
    (hv : s.csr c.toNat = some v) (i : Instr) (f : Word → Word → Word) :
    csrForm i a c f s = .next (s.upd (fun sl => sl.writeCsr c.toNat (f v (s.slot.rx a)))).retire := by
  rw [csrForm, issue_ready hr, hv]
  rfl

/-- A number that is not assigned takes cause 0x004 with the number (R239). -/
theorem csrForm_unassigned {a : Reg} (hr : ready { reads := [xr a] } s = true) {c : BitVec 12} (hv : s.csr c.toNat = none)
    (i : Instr) (f : Word → Word → Word) : csrForm i a c f s = s.trap 0x004 (c.setWidth 64) := by
  rw [csrForm, issue_ready hr, hv]

/-- The assigned numbers of Tables 02-4 to 02-7. -/
theorem State.csr_isSome (s : State) (n : Nat) :
    (s.csr n).isSome = true ↔ n ∈ [0x000, 0x001, 0x002, 0x003, 0x010, 0x011, 0x012, 0x013, 0x014, 0x015, 0x016,
      0x020, 0x021, 0x030, 0x031, 0x040, 0x041, 0x042, 0x043, 0x044, 0x045, 0x046, 0x050, 0x051, 0x052, 0x060, 0x061, 0x070,
      0x071, 0x0F0, 0x0F1, 0x0F2] := by
  unfold State.csr
  dsimp only
  split <;> simp_all

/-- A number that names no writable CSR changes nothing (R18). -/
theorem Slot.writeCsr_readOnly (sl : Slot) (v : Word) {n : Nat} (h : ¬[0x001, 0x003, 0x021, 0x051, 0x070, 0x071].contains n) :
    sl.writeCsr n v = sl := by
  unfold Slot.writeCsr
  split <;> simp_all

/-- FRM takes the low two bits, but for the reserved 3 (R240). -/
theorem Slot.writeCsr_frm (sl : Slot) (v : Word) :
    (sl.writeCsr 0x070 v).frm = if v.setWidth 2 = 3#2 then sl.frm else v.setWidth 2 := by
  show (if v.setWidth 2 = 3#2 then sl else { sl with frm := v.setWidth 2 }).frm = _
  split <;> rfl

/-- Settles O29. -/
theorem csrInstructionsReadAndWriteTheAssignedCsrs : Obligations.csr_instructions_read_and_write_the_assigned_csrs := by
  intro s d a c x put
  refine ⟨fun hr => ⟨fun v hv => ?_, fun hv => ?_⟩, fun hr => ⟨fun v hv => ?_, fun hv => ?_⟩, fun sl v => ?_, s.csr_isSome, rfl, rfl,
    rfl, rfl⟩
  · rw [exec_csrr, execCsrr, issue_ready hr, hv]
  · rw [exec_csrr, execCsrr, issue_ready hr, hv]
  · rw [exec_csrw, exec_csrs, exec_csrc, execCsrw, execCsrs, execCsrc]
    exact ⟨csrForm_assigned hr hv .., csrForm_assigned hr hv .., csrForm_assigned hr hv ..⟩
  · rw [exec_csrw, exec_csrs, exec_csrc, execCsrw, execCsrs, execCsrc]
    exact ⟨csrForm_unassigned hr hv .., csrForm_unassigned hr hv .., csrForm_unassigned hr hv ..⟩
  · exact ⟨rfl, rfl, rfl, rfl, rfl, sl.writeCsr_frm v, fun n => Slot.writeCsr_readOnly sl v⟩

end Sys2Proof.Machine
end

