-- ==== Sys2Proof/Proofs/Replies.lean ====
section
/-! PROOFS. O35: what lands at a core (R23, R44, R145 to R147, R330). -/

namespace Sys2Proof.Machine

open Sys2Proof Sys2Proof.Safety

variable {s : State}

theorem exec_reply (k : PairKey) (s : State) : exec (.reply k) s = execReply k s := rfl
theorem exec_refusal (k : PairKey) (s : State) : exec (.refusal k) s = execRefusal k s := rfl

/-! ### A scalar value lands -/

/-- A slot in which a scalar value has landed: the register written, its pending mark cleared, one load less. -/
def Slot.landed (sl : Slot) (r : Reg) (v : Word) : Slot :=
  { ((sl.wx r v).pendX r false) with cntld := sl.cntld - 1 }

/-- The value of the register that a scalar load fills (R148). -/
def landedValue (sgn : Bool) (n : Nat) (v : VWord) : Word :=
  if sgn then BitVec.ofInt 64 (sextInt (v.toNat % 2 ^ (8 * n)) (8 * n)) else BitVec.ofNat 64 (v.toNat % 2 ^ (8 * n))

theorem landedValue_zero : landedValue false 8 0 = 0 := by
  have h0 : (0 : VWord).toNat = 0 := BitVec.toNat_zero
  rw [landedValue, if_neg Bool.false_ne_true, h0, Nat.zero_mod]
  rfl

theorem CoreSide.landX (s : State) (c l : Nat) (r : Reg) (sgn : Bool) (n : Nat) (v : VWord) :
    CoreSide s (s.landX c l r sgn n v none) := by
  unfold State.landX
  split
  · exact .downLd ..
  · exact ((CoreSide.setXAt ..).trans (.updSlotAt ..)).trans (.downLd ..)

/-- A scalar value lands in a slot that does not drain, and sends nothing. -/
theorem State.landX_live {c l : Nat} (h : (s.slotAt c l).phase ≠ .draining) (r : Reg) (sgn : Bool) (n : Nat) (v : VWord) :
    (s.landX c l r sgn n v none).slotAt c l = (s.slotAt c l).landed r (landedValue sgn n v) ∧
      (s.landX c l r sgn n v none).mach.net = s.mach.net := by
  have hd : s.draining c l = false := by simp [State.draining, h]
  unfold State.landX
  rw [hd]
  refine ⟨?_, rfl⟩
  dsimp only
  rw [if_neg Bool.false_ne_true, State.downLd, State.slotAt_drain_of_ne (by simp [State.setXAt, State.logWrite, h])]
  simp only [State.slotAt_updSlotAt_self, State.setXAt, State.logWrite, State.slotAt_updCore, Slot.landed, landedValue,
    Slot.pendX_cntld, Slot.wx_cntld]

/-- What a slot holds once a scalar value has landed in it: the register, no mark and no poison of it, one load less, and the other
registers as they were. -/
theorem Slot.landed_reads (sl : Slot) (r : Reg) (v : Word) :
    (sl.landed r v).cntld = sl.cntld - 1 ∧ (sl.landed r v).async = sl.async ∧ (∀ q, q ≠ r → (sl.landed r v).rx q = sl.rx q) ∧
      (sl.landed r v).rx r = (if r = 0 then 0 else v) ∧
      (r ≠ 0 → (sl.landed r v).pendingAt r.toNat = false ∧ (sl.landed r v).poisonAt r.toNat = none) := by
  have hx : ∀ q, (sl.landed r v).rx q = ((sl.wx r v).pendX r false).rx q := fun _ => rfl
  refine ⟨rfl, by simp [Slot.landed], fun q hq => ?_, ?_, fun h => ⟨(sl.wx r v).pendingAt_pendX h false, ?_⟩⟩
  · rw [hx, Slot.pendX_rx, Slot.rx_wx_other _ _ hq]
  · rw [hx, Slot.pendX_rx, Slot.rx_wx_self]
  · exact ((sl.wx r v).pendX_poisonAt ..).trans (sl.poisonAt_wx_self h v)

/-! ### Entries of the journal (R23 to R25, R146) -/

/-- The slot still holds the task of a packet, and does not drain. -/
theorem State.current_of {c l : Nat} {g : BitVec 16} (hg : (s.slotAt c l).gen = g) (hf : (s.slotAt c l).phase ≠ .free) :
    s.current c l g = true := by
  simp [State.current, hg, hf]

theorem CoreSide.retireEntry (s : State) (c n : Nat) : CoreSide s (s.retireEntry c n) := by
  unfold State.retireEntry
  split
  · exact .refl s
  · dsimp only
    refine CoreSide.trans ?_ (.settleExits ..)
    split
    · exact (CoreSide.updCore ..).trans (.updSlotAt ..)
    · exact .updCore ..

/-- The journal entry of a live task retires: it is free, and its slot has one write less on its way. -/
theorem State.retireEntry_live {c n : Nat} {e : JEntry} (he : AMap.get (s.coreAt c).journal n = some e)
    (hc : s.current c e.slot e.gen = true) (hd : s.draining c e.slot = false) :
    AMap.get ((s.retireEntry c n).coreAt c).journal n = none ∧
      (s.retireEntry c n).slotAt c e.slot = (s.slotAt c e.slot).downSt e.cls := by
  unfold State.retireEntry
  rw [he]
  simp only [hc, hd, and_self, if_true, State.slotAt_settleExits, State.slotAt_updSlotAt_self, State.slotAt_updCore, and_true]
  obtain ⟨x, hx⟩ := State.coreAt_settleExits
    ((s.updCore c fun k => { k with journal := AMap.del k.journal n }).updSlotAt c e.slot fun sl => sl.downSt e.cls) c
  rw [hx]
  simp [AMap.get_del_self]

/-- The journal entry of a live task is marked refused and undelivered, its cause is pending, and the slot is woken. -/
theorem State.refusedEntry_live {c n : Nat} {e : JEntry} (he : AMap.get (s.coreAt c).journal n = some e)
    (hc : s.current c e.slot e.gen = true) (hd : s.draining c e.slot = false) (reason : Nat) :
    CoreSide s (s.refusedEntry c n reason) ∧
      AMap.get ((s.refusedEntry c n reason).coreAt c).journal n =
        some { e with refused := true, reason := reason, undelivered := true } ∧
      ((s.refusedEntry c n reason).slotAt c e.slot).async = (s.slotAt c e.slot).async ++ [.store n] ∧
      ((s.refusedEntry c n reason).slotAt c e.slot).cntst = (s.slotAt c e.slot).cntst := by
  unfold State.refusedEntry
  rw [he]
  simp only [hc, hd, and_self, if_true]
  refine ⟨((CoreSide.updCore ..).trans (.updSlotAt ..)).trans (.wakeSlot ..), by simp [AMap.get_set_self], ?_⟩
  set u := (s.updCore c _).updSlotAt c e.slot fun sl => { sl with async := sl.async ++ [.store n] } with hu
  obtain ⟨ph, pc, hw⟩ := u.slotAt_wakeSlot c e.slot
  rw [hw]
  exact ⟨by simp [hu], by simp [hu]⟩

/-! ### The address of a refused load (R147, R330) -/

theorem State.pushLoadCause_room {c l : Nat}
    (h : ((s.slotAt c l).async.filter (fun q => match q with | .load _ => true | .store _ => false)).length < 4) (pa : Nat) :
    s.pushLoadCause c l pa =
      (s.updSlotAt c l (fun sl => { sl with async := sl.async ++ [.load (BitVec.ofNat 64 pa)] })).wakeSlot c l := by
  unfold State.pushLoadCause
  exact if_neg (Nat.not_le.mpr h)

/-- Settles O35. -/
theorem repliesAndRefusalsLandAtTheirCore : Obligations.replies_and_refusals_land_at_their_core := by
  intro s k c p hk hp hs l a hg hf hd
  have hcur : s.current c l p.gen = true := State.current_of hg hf
  have hdr : s.draining c l = false := by simpa [State.draining] using hd
  have hdst : k.dst.agent = .core c ∧ k.dst.peer = s.part.peer := by rw [hk]; exact ⟨rfl, rfl⟩
  refine ⟨fun r sgn n v hb => ?_, fun n e hb he hl hge => ?_, fun n e reason pa hb he hl hge => ?_,
    fun r sgn n reason pa hb hroom => ?_⟩
  · have hx : exec (.reply k) s = .next ((s.popNet k).landX c l r sgn n v none) := by
      rw [exec_reply, execReply]
      simp [hdst, hp, hb, State.spills_of_running hs, hcur, l]
    obtain ⟨hslot, hnet⟩ := State.landX_live (s := s.popNet k) (c := c) (l := l) hd r sgn n v
    obtain ⟨h1, -, h2, h3, h4⟩ := Slot.landed_reads a r (landedValue sgn n v)
    refine ⟨_, hx, hnet, ?_, ((CoreSide.popNet s k).trans (.landX ..)).sameMemory, fun q hq => ?_, fun hr => ?_⟩
    · rw [hslot]; exact h1
    · rw [hslot]; exact h2 q hq
    · rw [hslot]; exact ⟨(h4 hr).1, (h4 hr).2, h3.trans (if_neg hr)⟩
  · have hx : exec (.reply k) s = .next ((s.popNet k).retireEntry c n) := by
      rw [exec_reply, execReply]
      simp [hdst, hp, hb, State.spills_of_running hs]
    obtain ⟨h1, h2⟩ := State.retireEntry_live (s := s.popNet k) (c := c) (n := n) (e := e) he
      (by rw [hl, hge]; exact hcur) (by rw [hl]; exact hdr)
    rw [hl] at h2
    refine ⟨_, hx, h1, ?_, ?_, ((CoreSide.popNet s k).trans (.retireEntry ..)).sameMemory⟩
    · rw [h2]; rfl
    · rw [h2]; rfl
  · have hx : exec (.refusal k) s = .next ((s.popNet k).refusedEntry c n reason) := by
      rw [exec_refusal, execRefusal]
      simp [hdst, hp, hb, State.spills_of_running hs]
    obtain ⟨h0, h1, h2, h3⟩ := State.refusedEntry_live (s := s.popNet k) (c := c) (n := n) (e := e) he
      (by rw [hl, hge]; exact hcur) (by rw [hl]; exact hdr) reason
    rw [hl] at h2 h3
    exact ⟨_, hx, h1, h2, h3, ((CoreSide.popNet s k).trans h0).sameMemory⟩
  · set u := (s.popNet k).landX c l r false 8 0 none with hu
    have hx : exec (.refusal k) s = .next (u.pushLoadCause c l pa) := by
      rw [exec_refusal, execRefusal]
      simp [hdst, hp, hb, State.spills_of_running hs, hcur, hdr, l, hu]
    obtain ⟨hslot, -⟩ := State.landX_live (s := s.popNet k) (c := c) (l := l) hd r false 8 0
    obtain ⟨h1, h2, -, h3, -⟩ := Slot.landed_reads a r (landedValue false 8 0)
    have hua : u.slotAt c l = a.landed r (landedValue false 8 0) := hslot
    rw [State.pushLoadCause_room (by rw [hua, h2]; exact hroom)] at hx
    set w := u.updSlotAt c l fun sl => { sl with async := sl.async ++ [.load (BitVec.ofNat 64 pa)] } with hw
    obtain ⟨ph, pc, hwake⟩ := w.slotAt_wakeSlot c l
    have hwa : w.slotAt c l = { a.landed r (landedValue false 8 0) with
        async := a.async ++ [.load (BitVec.ofNat 64 pa)] } := by
      rw [hw, State.slotAt_updSlotAt_self, hua, h2]
    rw [hwa] at hwake
    refine ⟨_, hx, ?_, ?_, ?_, (((CoreSide.popNet s k).trans (.landX ..)).trans
      ((CoreSide.updSlotAt ..).trans (.wakeSlot ..))).sameMemory⟩
    · rw [hwake]
      exact h3.trans (by rw [landedValue_zero, ite_self])
    · rw [hwake]; exact h1
    · rw [hwake]

end Sys2Proof.Machine
end

