-- ==== Sys2Proof/Proofs/FriezeStep.lean ====
section
/-! PROOFS. O47 fails: a step whose encounter matches makes a match task and raises its level's count before the step ends (R193,
R259), and the level's record in the table in memory shows the count (R319): a byte outside the slots changes. -/

namespace Sys2Proof.Machine

open Sys2Proof Sys2Proof.Safety

/-- A launch that is armed and started, at which nothing is counted yet. -/
def startedLaunch : Level := { Level.free with level := 1, state := 2 }

/-- The address of record 1 of a launch-port table at the base of HBM. -/
def recordAt : Nat := hbmBase + 64

/-- Cluster 0 with sub-rings of four tiles for the launch of record 1, whose record stands in the table. The tiles of sub-ring 0
have contributed; the A slot of tile 3 has tag 1 and the B slot of tile 1 tag 2, which meet at tile 0 in the next step, and the
one entry of tile 0's match table names these two. -/
def beforeMatchingStep : State :=
  { State.reset with
    mach := { Mach.reset with
      clusters := [(0, { Cluster.reset with ring := 4, launch := 1 })]
      tiles := [(0, { Tile.reset with contributions := 1, mtable := [(0, 0x80000000_00020001)] })
               , (1, { Tile.reset with contributions := 1 }), (2, { Tile.reset with contributions := 1 })
               , (3, { Tile.reset with contributions := 1 })]
      levels := [(1, startedLaunch)]
      sram := [(friezeAt 1 1, 2), (friezeAt 3 0, 1)] }
    dram := Memory.puts [] recordAt (toBytes (startedLaunch.w0 + 2 ^ 64 * startedLaunch.w1) 16)
    jobs := [(0, { Job.none with hbase := hbmBase / 4096 })]
    running := some 0 }

/-- A byte after an answer, where there is a next state. -/
def Out.byteAfter (o : Out) (a : Nat) : Option Byte :=
  match o with
  | .next t => some (t.byte a)
  | _ => none

/-- Count 0 of the record becomes 1 in the step. -/
theorem beforeMatchingStep_counts :
    beforeMatchingStep.byte recordAt = 0 ∧ Out.byteAfter (exec (.step 0 0) beforeMatchingStep) recordAt = some 1 := by
  decide +kernel

theorem beforeMatchingStep_ready :
    memoryWf beforeMatchingStep ∧ beforeMatchingStep.subRing 0 0 = [0, 1, 2, 3] ∧
      ∀ x ∈ [0, 1, 2, 3], 0 < (beforeMatchingStep.tileAt x).contributions ∧ beforeMatchingStep.leaseFree x = true := by
  refine ⟨⟨?_, ?_, ?_, ?_, ?_⟩, ?_, ?_⟩
  · decide +kernel
  · decide +kernel
  · decide +kernel
  · decide +kernel
  · exact fun e he => nomatch he
  · decide +kernel
  · decide +kernel

/-- Refutes O47, in its clause that no byte outside the slots changes: the count in a level's record does. -/
theorem not_aStepOfASubRingRotatesItsSlots : ¬ Obligations.a_step_of_a_sub_ring_rotates_its_slots := by
  intro h
  obtain ⟨hwf, hring, hgo⟩ := beforeMatchingStep_ready
  obtain ⟨hbefore, hafter⟩ := beforeMatchingStep_counts
  obtain ⟨t, ht, -, houtside, -⟩ := h beforeMatchingStep 0 0 hwf rfl (by decide) (by decide) (.inl rfl)
    (by rw [hring]; exact List.cons_ne_nil _ _) (by rw [hring]; exact hgo)
  have hfar : ∀ x ∈ [0, 1, 2, 3], recordAt < friezeAt x 0 ∨ friezeAt x 0 + 0x30000 ≤ recordAt := by decide
  have hsame := houtside recordAt (by rw [hring]; exact hfar)
  rw [ht] at hafter
  have hone : t.byte recordAt = 1 := Option.some.inj hafter
  exact absurd (hone.symm.trans (hsame.trans hbefore)) (by decide)

end Sys2Proof.Machine
end

