-- ==== Sys2Proof/Proofs/Perform.lean ====
section
/-! PROOFS. O34: PERFORM (R34, R35, R48, R146, R149, R150, R152, R153, R159). -/

namespace Sys2Proof.Machine

open Sys2Proof Sys2Proof.Safety

variable {s t u : State}

theorem exec_perform (h : Nat) (s : State) : exec (.perform h) s = execPerform h s := rfl

/-! ### Bytes of a number -/

theorem getElem_toBytes (v n i : Nat) (h : i < (toBytes v n).length) : (toBytes v n)[i] = BitVec.ofNat 8 (v / 256 ^ i) := by
  induction n generalizing v i with
  | zero => simp [toBytes] at h
  | succ n ih =>
    cases i with
    | zero => simp [toBytes]
    | succ i =>
      have := ih (v / 256) i (by simpa using h)
      simpa [toBytes, Nat.pow_succ', Nat.div_div_eq_div_mul] using this

/-! ### What a home's steps change besides memory -/

/-- Nothing but slots, cores, tiles, pair queues, full bits and what waits at homes differs, and every perform queue is the same. -/
def HomeSide (s t : State) : Prop :=
  { t with mach := { t.mach with
      slots := s.mach.slots, cores := s.mach.cores, tiles := s.mach.tiles, net := s.mach.net, full := s.mach.full
      homes := s.mach.homes } } = s ∧
    ∀ n, (t.homeAt n).q = (s.homeAt n).q

theorem HomeSide.refl (s : State) : HomeSide s s := ⟨rfl, fun _ => rfl⟩

theorem HomeSide.trans (h : HomeSide s t) (k : HomeSide t u) : HomeSide s u := by
  obtain ⟨h1, h2⟩ := h
  obtain ⟨k1, k2⟩ := k
  refine ⟨?_, fun n => (k2 n).trans (h2 n)⟩
  rw [← k1] at h1
  exact h1

theorem CoreSide.homeAt (h : CoreSide s t) (n : Nat) : t.homeAt n = s.homeAt n := by
  unfold State.homeAt; rw [h.homes]

theorem CoreSide.homeSide (h : CoreSide s t) : HomeSide s t :=
  ⟨by unfold CoreSide at h; rw [← h], fun n => by rw [h.homeAt]⟩

theorem HomeSide.sram (h : HomeSide s t) : t.mach.sram = s.mach.sram := congrArg (·.mach.sram) h.1
theorem HomeSide.dram (h : HomeSide s t) : t.dram = s.dram := congrArg (·.dram) h.1
theorem HomeSide.part (h : HomeSide s t) : t.part = s.part := congrArg (·.part) h.1
theorem HomeSide.byte (h : HomeSide s t) (a : Nat) : t.byte a = s.byte a := by
  simp only [State.byte, h.sram, h.dram]

theorem HomeSide.setFull (s : State) (g : Nat) (b : Bool) : HomeSide s (s.setFull g b) := ⟨rfl, fun _ => rfl⟩

/-- Only what waits at a home changes. -/
theorem HomeSide.updHome (s : State) (h : Nat) {f : Home → Home} (hf : ∀ q, (f q).q = q.q) : HomeSide s (s.updHome h f) := by
  refine ⟨rfl, fun n => ?_⟩
  by_cases e : n = h
  · subst e; rw [State.homeAt_updHome_self, hf]
  · rw [State.homeAt_updHome_other s f e]

theorem CoreSide.reply (s : State) (h : Nat) (p : Packet) (b : Body) : CoreSide s (s.reply h p b) := rfl

theorem CoreSide.unblockFe (s : State) (h : Nat) (p : Packet) : CoreSide s (s.unblockFe h p) := by
  unfold State.unblockFe
  split
  · split
    · exact .updSlotAt ..
    · exact .refl s
  · exact .refl s

@[simp] theorem State.unblockFe_net (s : State) (h : Nat) (p : Packet) : (s.unblockFe h p).mach.net = s.mach.net := by
  unfold State.unblockFe
  split
  · split <;> rfl
  · rfl

/-- A `ld.fe` on a full granule empties it if it takes, and replies. -/
theorem HomeSide.performFe (s : State) (h : Nat) (p : Packet) (take : Bool) (pa n : Nat) (ret : Ret) :
    HomeSide s (s.performFe h p take pa n ret) := by
  unfold State.performFe
  dsimp only
  refine HomeSide.trans ?_ ((CoreSide.reply _ h p _).trans (.unblockFe _ h p)).homeSide
  split
  · exact .setFull ..
  · exact .refl s

theorem HomeSide.wakeLoads (s : State) (h g fuel : Nat) : HomeSide s (s.wakeLoads h g fuel) := by
  induction fuel generalizing s with
  | zero => exact .refl s
  | succ fuel ih =>
    unfold State.wakeLoads
    split
    · exact .refl s
    · split
      · exact .refl s
      · next p r _ =>
        have hw : HomeSide s (s.updHome h (fun q => { q with waiting := r })) := .updHome _ _ fun _ => rfl
        dsimp only
        split
        · exact (hw.trans (.performFe ..)).trans (ih _)
        · exact hw

theorem HomeSide.fill (s : State) (g : Nat) : HomeSide s (s.fill g) := (HomeSide.setFull ..).trans (.wakeLoads ..)

theorem mem_insNat (l : List Nat) (g : Nat) : g ∈ insNat l g := by
  induction l with
  | nil => simp [insNat]
  | cons k t ih =>
    unfold insNat
    split
    · simp
    · split <;> simp_all

/-- A granule for which no load waits stays full once it has become full (R34, R35). -/
theorem State.fill_isFull {g : Nat} (h : (s.homeAt (g / 65536)).waiting = []) : (s.fill g).isFull g = true := by
  have hw : ((s.setFull g true).homeAt (g / 65536)).waiting = [] := h
  have hf : (s.setFull g true).isFull g = true := by simp [State.isFull, State.setFull, mem_insNat]
  unfold State.fill
  dsimp only
  rw [h, List.length_nil, State.wakeLoads, hw]
  simp [hf, takeFirst]

/-! ### Answers to a write (R145, R146) -/

/-- A reply stands last in the pair queue from the home to the source, for the slot and generation of its request (R44). -/
theorem State.reply_answers (s : State) (h : Nat) (p : Packet) (b : Body) :
    ∃ r, (netGet (s.reply h p b).mach.net { src := s.here (.home h), dst := p.src, cls := 4 }).getLast? = some r ∧
      r.body = b ∧ r.slot = p.slot ∧ r.gen = p.gen := by
  simp [State.reply, State.append, netGet_append]

/-- A local write that is done changes its slot and reports at its level at most. -/
theorem CoreSide.localDone (s : State) (p : Packet) : CoreSide s (s.localDone p false) := by
  unfold State.localDone
  split
  · dsimp only
    split
    · exact .settleExits ..
    · split
      · rfl
      · exact .updSlotAt ..
  · exact .refl s

theorem CoreSide.ackWrite (s : State) (h : Nat) (p : Packet) (e : Option Nat) : CoreSide s (s.ackWrite h p e) := by
  unfold State.ackWrite
  split
  · exact .localDone ..
  · exact .reply ..

/-- A write with a journal entry is acknowledged (R145). -/
theorem State.ackWrite_answers (s : State) (h : Nat) (p : Packet) {e : Option Nat} (he : e ≠ none) :
    ∃ r, (netGet (s.ackWrite h p e).mach.net { src := s.here (.home h), dst := p.src, cls := 4 }).getLast? = some r ∧
      r.body = .ack e ∧ r.slot = p.slot ∧ r.gen = p.gen := by
  obtain ⟨k, rfl⟩ := Option.ne_none_iff_exists'.mp he
  exact s.reply_answers h p _

/-! ### Stores (R159) -/

/-- A store changes memory and poison alone. -/
theorem State.store_only (s : State) (pa : Nat) (bs : List Byte) :
    ∃ m d k, s.store pa bs = { s with dram := d, mach := { s.mach with sram := m, poison := k } } := by
  have hput : ∀ (u : State) (pa : Nat) (bs : List Byte),
      ∃ m d, u.rawPut pa bs = { u with dram := d, mach := { u.mach with sram := m } } := by
    intro u pa bs
    unfold State.rawPut
    split <;> exact ⟨_, _, rfl⟩
  have hfold : ∀ (l : List Nat) (u : State), ∃ m d, l.foldl (fun s g => s.rawPut (16 * g) (List.replicate 16 0)) u =
      { u with dram := d, mach := { u.mach with sram := m } } := by
    intro l
    induction l with
    | nil => exact fun u => ⟨_, _, rfl⟩
    | cons g t ih =>
      intro u
      obtain ⟨m, d, h⟩ := hput u (16 * g) (List.replicate 16 0)
      obtain ⟨m', d', h'⟩ := ih (u.rawPut (16 * g) (List.replicate 16 0))
      exact ⟨m', d', by rw [List.foldl_cons, h', h]⟩
  unfold State.store
  split
  · obtain ⟨m, d, h⟩ := hput s pa bs
    exact ⟨m, d, _, h⟩
  · obtain ⟨m, d, h⟩ := hfold ((granules pa bs.length).filter (fun g => (s.poisonOf g).isSome)) s
    dsimp only
    rw [h]
    obtain ⟨m', d', h'⟩ := hput { s with
      dram := d
      mach := { s.mach with
        sram := m
        poison := s.mach.poison.filter (fun e => !((granules pa bs.length).filter (fun g => (s.poisonOf g).isSome)).contains e.1) } }
      pa bs
    exact ⟨m', d', _, h'⟩

/-- No granule of a run without poison has some. -/
theorem State.poisonOf_of_poisonIn {pa n : Nat} (h : s.poisonIn pa n = none) {g : Nat} (hg : g ∈ granules pa n) :
    s.poisonOf g = none := by
  unfold State.poisonIn at h
  split at h
  · have : s.mach.poison = [] := by simpa using ‹s.mach.poison.isEmpty = true›
    simp [State.poisonOf, this, AMap.get]
  · exact List.findSome?_eq_none_iff.mp h g hg

/-- Memory after `n` bytes of a number have been written at an address: they are the number's, and no other byte has changed. -/
def wroteNum (s t : State) (pa n v : Nat) : Prop :=
  (∀ i, i < n → t.byte (pa + i) = BitVec.ofNat 8 (v / 256 ^ i)) ∧ ∀ a, a < pa ∨ pa + n ≤ a → t.byte a = s.byte a

/-- A store of a number: its bytes are written, those of the granules that were poisoned are zero beside them, and the poison is
gone. -/
theorem State.store_num (s : State) {pa n : Nat} (v : Nat) (hin : pa + n ≤ 2 ^ 30 ∨ 2 ^ 30 ≤ pa) :
    (∀ i, i < n → (s.store pa (toBytes v n)).byte (pa + i) = BitVec.ofNat 8 (v / 256 ^ i)) ∧
    (∀ a, a < pa ∨ pa + n ≤ a → (s.store pa (toBytes v n)).byte a =
      if a / 16 ∈ granules pa n ∧ s.poisonOf (a / 16) ≠ none then 0 else s.byte a) ∧
    (∀ g ∈ granules pa n, (s.store pa (toBytes v n)).poisonOf g = none) := by
  obtain ⟨h1, h2, h3⟩ := s.store_bytes pa (toBytes v n) (by rwa [length_toBytes])
  rw [length_toBytes] at h2 h3
  refine ⟨fun i hi => ?_, h2, h3⟩
  rw [h1 i (by rwa [length_toBytes]), getElem_toBytes]

/-- A store of a number where no granule is poisoned changes no other byte. -/
theorem State.store_wroteNum (s : State) {pa n : Nat} (v : Nat) (hin : pa + n ≤ 2 ^ 30 ∨ 2 ^ 30 ≤ pa)
    (hp : s.poisonIn pa n = none) : wroteNum s (s.store pa (toBytes v n)) pa n v := by
  obtain ⟨h1, h2, -⟩ := s.store_num v hin
  refine ⟨h1, fun a ha => (h2 a ha).trans (if_neg fun ⟨hg, hne⟩ => hne (State.poisonOf_of_poisonIn hp hg))⟩

/-! ### The head of a perform queue taken -/

/-- Home `h` has taken the head of its perform queue, of which `rest` is left (R48). -/
def State.afterHead (s : State) (h : Nat) (rest : List Packet) : State := s.updHome h (fun q => { q with q := rest })

/-- A state after the head of a perform queue has been taken, with page counts of its own (R283). -/
def TookHead (s : State) (h : Nat) (rest : List Packet) (u : State) : Prop := ∃ l, u = { s.afterHead h rest with pages := l }

theorem TookHead.taken (s : State) (h : Nat) (rest : List Packet) : TookHead s h rest (s.afterHead h rest) := ⟨_, rfl⟩

theorem TookHead.counted (s : State) (h : Nat) (rest : List Packet) (pa : Nat) (src : Place) (n : Nat) :
    TookHead s h rest ((s.afterHead h rest).countPage pa src n) :=
  State.countPage_only ..

theorem TookHead.q {h : Nat} {rest : List Packet} (hu : TookHead s h rest u) : (u.homeAt h).q = rest := by
  obtain ⟨l, rfl⟩ := hu
  show ((s.updHome h fun q => { q with q := rest }).homeAt h).q = rest
  rw [State.homeAt_updHome_self]

theorem TookHead.waiting {h : Nat} {rest : List Packet} (hu : TookHead s h rest u) (n : Nat) :
    (u.homeAt n).waiting = (s.homeAt n).waiting := by
  obtain ⟨l, rfl⟩ := hu
  show ((s.updHome h fun q => { q with q := rest }).homeAt n).waiting = _
  by_cases e : n = h
  · subst e; rw [State.homeAt_updHome_self]
  · rw [State.homeAt_updHome_other s _ e]

theorem TookHead.sameMemory {h : Nat} {rest : List Packet} (hu : TookHead s h rest u) : sameMemory s u := by
  obtain ⟨l, rfl⟩ := hu; exact fun _ => rfl
theorem TookHead.full {h : Nat} {rest : List Packet} (hu : TookHead s h rest u) : u.mach.full = s.mach.full := by
  obtain ⟨l, rfl⟩ := hu; rfl
theorem TookHead.poison {h : Nat} {rest : List Packet} (hu : TookHead s h rest u) : u.mach.poison = s.mach.poison := by
  obtain ⟨l, rfl⟩ := hu; rfl
theorem TookHead.poisonOf {h : Nat} {rest : List Packet} (hu : TookHead s h rest u) (g : Nat) : u.poisonOf g = s.poisonOf g :=
  congrArg (AMap.get · g) hu.poison
theorem TookHead.poisonIn {h : Nat} {rest : List Packet} (hu : TookHead s h rest u) (pa n : Nat) :
    u.poisonIn pa n = s.poisonIn pa n := by
  obtain ⟨l, rfl⟩ := hu; rfl
theorem TookHead.part {h : Nat} {rest : List Packet} (hu : TookHead s h rest u) : u.part = s.part := by
  obtain ⟨l, rfl⟩ := hu; rfl

/-- The reply of home `h` of the module of `s` to a packet stands last in its pair queue (R44). -/
def answered (s t : State) (h : Nat) (p : Packet) (b : Body) : Prop :=
  ∃ r, (netGet t.mach.net { src := s.here (.home h), dst := p.src, cls := 4 }).getLast? = some r ∧
    r.body = b ∧ r.slot = p.slot ∧ r.gen = p.gen

/-- What the reply that follows a taken head leaves. -/
theorem TookHead.reply {h : Nat} {rest : List Packet} (hu : TookHead s h rest u) (p : Packet) (b : Body) :
    ((u.reply h p b).homeAt h).q = rest ∧ Safety.sameMemory s (u.reply h p b) ∧ (u.reply h p b).mach.full = s.mach.full ∧
      (u.reply h p b).mach.poison = s.mach.poison ∧ answered s (u.reply h p b) h p b := by
  have hc := CoreSide.reply u h p b
  refine ⟨?_, fun a => (hc.sameMemory a).trans (hu.sameMemory a), hc.full.trans hu.full, hc.poison.trans hu.poison, ?_⟩
  · rw [hc.homeAt, hu.q]
  · have := u.reply_answers h p b
    rwa [State.here, hu.part] at this

/-- What the end of a write leaves: memory, full bits and poison as the write has put them, and an acknowledgement where the write
has a journal entry. -/
theorem State.ackWrite_leaves {v : State} {h : Nat} (hp : v.part = s.part) (p : Packet) (e : Option Nat) :
    ((v.ackWrite h p e).homeAt h).q = (v.homeAt h).q ∧ Safety.sameMemory v (v.ackWrite h p e) ∧
      (v.ackWrite h p e).mach.full = v.mach.full ∧ (v.ackWrite h p e).mach.poison = v.mach.poison ∧
      (e ≠ none → answered s (v.ackWrite h p e) h p (.ack e)) := by
  have hc := CoreSide.ackWrite v h p e
  refine ⟨by rw [hc.homeAt], hc.sameMemory, hc.full, hc.poison, fun he => ?_⟩
  have := v.ackWrite_answers h p he
  rwa [State.here, hp] at this

/-- A performed `ld.fe` replies with the bytes and the poison as they stand, and empties its granule if it takes (Table 02-12). -/
theorem State.performFe_leaves (u : State) (h : Nat) (p : Packet) (take : Bool) (pa n : Nat) (ret : Ret) :
    (u.performFe h p take pa n ret).mach.full = (if take then delNat u.mach.full (pa / 16) else u.mach.full) ∧
      answered u (u.performFe h p take pa n ret) h p (.value ret (u.wide pa n) (u.poisonIn pa n)) := by
  unfold State.performFe answered
  rw [State.unblockFe_net]
  cases take
  · exact ⟨(CoreSide.unblockFe ..).full, u.reply_answers h p _⟩
  · exact ⟨(CoreSide.unblockFe ..).full, (u.setFull (pa / 16) false).reply_answers h p _⟩

/-! ### PERFORM of each kind of access -/

variable {h : Nat} {p : Packet} {rest : List Packet}

theorem execPerform_load (hq : (s.homeAt h).q = p :: rest) {pa n : Nat} {ret : Ret} (hb : p.body = .load pa n ret)
    (hport : isPort pa = false) (href : s.refuses h p pa = none) :
    exec (.perform h) s =
      .next (((s.afterHead h rest).countPage pa p.src 1).reply h p (.value ret (s.wide pa n) (s.poisonIn pa n))) := by
  rw [exec_perform, execPerform, hq]
  dsimp only
  rw [hb]
  simp only [hport, Bool.false_eq_true, false_and, if_false, href]
  rfl

theorem execPerform_load_refused (hq : (s.homeAt h).q = p :: rest) {pa n r : Nat} {ret : Ret} (hb : p.body = .load pa n ret)
    (hport : isPort pa = false) (href : s.refuses h p pa = some r) :
    exec (.perform h) s = .next ((s.afterHead h rest).reply h p (.refusedRead ret r pa)) := by
  rw [exec_perform, execPerform, hq]
  dsimp only
  rw [hb]
  simp only [hport, Bool.false_eq_true, false_and, if_false, href]
  rfl

theorem execPerform_store (hq : (s.homeAt h).q = p :: rest) {kind : WKind} {pa n : Nat} {v : VWord} {e : Option Nat}
    (hb : p.body = .store kind pa n v e) (hport : isPort pa = false) (href : s.refuses h p pa = none) :
    exec (.perform h) s = .next ((s.afterHead h rest).performStore h p kind pa n v e) := by
  rw [exec_perform, execPerform, hq]
  dsimp only
  rw [hb]
  simp only [hport, Bool.false_eq_true, if_false, href]
  rfl

theorem execPerform_atomic (hq : (s.homeAt h).q = p :: rest) {op : AtOp} {pa n : Nat} {b e : Word} {ret : Ret}
    (hb : p.body = .atomic op pa n b e ret) (hport : isPort pa = false) (href : s.refuses h p pa = none)
    (hp : s.poisonIn pa n = none) :
    exec (.perform h) s =
      .next ((((s.afterHead h rest).countPage pa p.src 1).store pa
        (toBytes (atomicNew op (8 * n) (s.num pa n) b.toNat e.toNat) n)).reply h p (.value ret (s.wide pa n) none)) := by
  rw [exec_perform, execPerform, hq]
  dsimp only
  rw [hb]
  simp only [hport, Bool.false_eq_true, if_false, href, hp]
  rfl

theorem execPerform_atomic_poisoned (hq : (s.homeAt h).q = p :: rest) {op : AtOp} {pa n : Nat} {b e : Word} {ret : Ret}
    (hb : p.body = .atomic op pa n b e ret) (hport : isPort pa = false) (href : s.refuses h p pa = none) {k : BitVec 2}
    (hp : s.poisonIn pa n = some k) :
    exec (.perform h) s = .next (((s.afterHead h rest).countPage pa p.src 1).reply h p (.value ret 0 (some k))) := by
  rw [exec_perform, execPerform, hq]
  dsimp only
  rw [hb]
  simp only [hport, Bool.false_eq_true, if_false, href, hp]
  rfl

theorem execPerform_ldFe (hq : (s.homeAt h).q = p :: rest) {take : Bool} {pa n : Nat} {ret : Ret}
    (hb : p.body = .ldFe take pa n ret) (href : s.refuses h p pa = none) :
    exec (.perform h) s =
      if s.isFull (pa / 16) then .next ((s.afterHead h rest).performFe h p take pa n ret)
      else .next ((s.afterHead h rest).updHome h (fun q => { q with waiting := q.waiting ++ [p] })) := by
  rw [exec_perform, execPerform, hq]
  dsimp only
  rw [hb]
  simp only [href]
  rfl

/-- What a store of a number leaves beside memory and poison. -/
theorem State.store_leaves (u : State) (pa : Nat) (bs : List Byte) :
    (u.store pa bs).part = u.part ∧ (u.store pa bs).mach.full = u.mach.full ∧ ∀ n, (u.store pa bs).homeAt n = u.homeAt n := by
  obtain ⟨m, d, k, he⟩ := u.store_only pa bs
  rw [he]
  exact ⟨rfl, rfl, fun _ => rfl⟩

/-- A core's write that is performed as a plain store of a number. -/
theorem TookHead.stored (hu : TookHead s h rest u) (pa n v : Nat) (e : Option Nat) :
    let w := u.store pa (toBytes v n)
    let t := w.ackWrite h p e
    (t.homeAt h).q = rest ∧ (∀ a, t.byte a = w.byte a) ∧ (∀ g, t.poisonOf g = w.poisonOf g) ∧ t.mach.full = s.mach.full ∧
      (e ≠ none → answered s t h p (.ack e)) := by
  intro w t
  obtain ⟨hpart, hfull, hhome⟩ := u.store_leaves pa (toBytes v n)
  obtain ⟨h1, h2, h3, h4, h5⟩ := State.ackWrite_leaves (s := s) (v := w) (h := h) (hpart.trans hu.part) p e
  exact ⟨h1.trans ((congrArg Home.q (hhome h)).trans hu.q), h2, fun g => congrArg (AMap.get · g) h4, h3.trans (hfull.trans hu.full), h5⟩

/-- A store of a number by a core where no granule is poisoned writes it, and nothing else. -/
theorem TookHead.wroteNum (hu : TookHead s h rest u) {pa n : Nat} (v : Nat) (hin : pa + n ≤ 2 ^ 30 ∨ 2 ^ 30 ≤ pa)
    (hp : s.poisonIn pa n = none) : wroteNum s (u.store pa (toBytes v n)) pa n v := by
  obtain ⟨h1, h2⟩ := State.store_wroteNum u v hin ((hu.poisonIn pa n).trans hp)
  exact ⟨h1, fun a ha => (h2 a ha).trans (hu.sameMemory a)⟩

theorem wroteNum.of_byte {w : State} {pa n v : Nat} (hw : wroteNum s w pa n v) (ht : ∀ a, t.byte a = w.byte a) :
    wroteNum s t pa n v :=
  ⟨fun i hi => (ht _).trans (hw.1 i hi), fun a ha => (ht a).trans (hw.2 a ha)⟩

/-- A core's write whose granule becomes full after its store of a number, or without one. -/
theorem State.filled_leaves {w : State} (hw : w.part = s.part) (hq : (w.homeAt h).q = rest) (g : Nat) (e : Option Nat) :
    let t := (w.fill g).ackWrite h p e
    (t.homeAt h).q = rest ∧ (∀ a, t.byte a = w.byte a) ∧ ((w.homeAt (g / 65536)).waiting = [] → t.isFull g = true) ∧
      (e ≠ none → answered s t h p (.ack e)) := by
  intro t
  have hf := HomeSide.fill w g
  obtain ⟨h1, h2, h3, -, h5⟩ := State.ackWrite_leaves (s := s) (v := w.fill g) (h := h) (hf.part.trans hw) p e
  refine ⟨h1.trans ((hf.2 h).trans hq), fun a => (h2 a).trans (hf.byte a), fun hn => ?_, h5⟩
  exact (congrArg (List.contains · g) h3).trans (State.fill_isFull hn)

/-- A local write's own reply is none; one with a journal entry is refused by a reply (R146). -/
theorem State.refuseWrite_some (u : State) (h : Nat) (p : Packet) (k reason pa : Nat) :
    u.refuseWrite h p (some k) reason pa = u.reply h p (.refusedWrite (some k) reason pa) := rfl

/-- Settles O34. -/
theorem aHomePerformsAccessesOnItsMemory : Obligations.a_home_performs_accesses_on_its_memory := by
  intro s h p rest hq key answers runs inOne wrote
  refine ⟨fun pa n ret hb hport href => ?_, fun kind pa n v e hb hport heng href => ?_,
    fun op pa n b e ret hb hport href => ⟨fun hp hin => ?_, fun k hp => ?_⟩,
    fun take pa n ret hb href => ⟨fun hf => ?_, fun hf => ?_⟩, fun pa n ret r hb hport href => ?_⟩
  · obtain ⟨h1, h2, h3, -, h5⟩ := (TookHead.counted s h rest pa p.src 1).reply p (.value ret (s.wide pa n) (s.poisonIn pa n))
    exact ⟨_, execPerform_load hq hb hport href, h1, h2, h3, h5⟩
  · have hx := execPerform_store hq hb hport href
    have hc := TookHead.counted s h rest pa p.src 1
    have ht := TookHead.taken s h rest
    intro acked fills
    refine ⟨fun hk hin => ?_, fun hk hf hin hp => ?_, fun hk hf k he => ?_, fun hk => ?_, fun hk => ?_, fun hk hp hin => ?_,
      fun hk k b he hp => ?_⟩
    · obtain ⟨h1, h2, h3, h4, h5⟩ := hc.stored (p := p) pa n v.toNat e
      obtain ⟨b1, b2, b3⟩ := State.store_num ((s.afterHead h rest).countPage pa p.src 1) v.toNat hin
      refine ⟨_, hx.trans (congrArg _ ?_), h1, fun i hi => (h2 _).trans (b1 i hi), fun a ha => (h2 a).trans ((b2 a ha).trans ?_),
        fun g hg => (h3 g).trans (b3 g hg), h4, h5⟩
      · rcases hk with rfl | rfl | rfl <;> simp [State.performStore, heng]
      · rw [hc.poisonOf, hc.sameMemory a]
    · obtain ⟨hpart, -, hhome⟩ := State.store_leaves ((s.afterHead h rest).countPage pa p.src 1) pa (toBytes v.toNat n)
      obtain ⟨h1, h2, h3, h4⟩ := State.filled_leaves (p := p) (hpart.trans hc.part)
        ((congrArg Home.q (hhome h)).trans hc.q) (pa / 16) e
      refine ⟨_, hx.trans (congrArg _ ?_), h1, (hc.wroteNum v.toNat hin hp).of_byte h2, fun hn => h3 ?_, h4⟩
      · have hf' : (s.afterHead h rest).isFull (pa / 16) = false := hf
        simp [State.performStore, heng, hk, hf']
      · rw [hhome, hc.waiting, hn]
    · subst he
      obtain ⟨h1, h2, h3, -, h5⟩ := ht.reply p (.refusedWrite (some k) 1 pa)
      refine ⟨_, hx.trans (congrArg _ ?_), h1, h2, h3, h5⟩
      have hf' : (s.afterHead h rest).isFull (pa / 16) = true := hf
      simp [State.performStore, heng, hk, hf', State.refuseWrite_some]
    · obtain ⟨h1, h2, h3, h4⟩ := State.filled_leaves (p := p) ht.part ht.q (pa / 16) e
      refine ⟨_, hx.trans (congrArg _ ?_), h1, fun a => (h2 a).trans (ht.sameMemory a), fun hn => h3 (by rw [ht.waiting, hn]), h4⟩
      simp [State.performStore, heng, hk]
    · obtain ⟨h1, h2, h3, -, h5⟩ := State.ackWrite_leaves (s := s) (v := (s.afterHead h rest).setFull (pa / 16) false) (h := h) rfl p e
      refine ⟨_, hx.trans (congrArg _ ?_), h1.trans ht.q, h2, h3, h5⟩
      simp [State.performStore, heng, hk]
    · obtain ⟨h1, h2, -, h4, h5⟩ := hc.stored (p := p) pa n (atomicNew .add (8 * n) (s.num pa n) v.toNat 0) e
      refine ⟨_, hx.trans (congrArg _ ?_), h1, (hc.wroteNum _ hin hp).of_byte h2, h4, h5⟩
      have hp' : (s.afterHead h rest).poisonIn pa n = none := hp
      have hnum : (s.afterHead h rest).num pa n = s.num pa n := rfl
      simp [State.performStore, heng, hk, hp', hnum]
    · subst he
      obtain ⟨h1, h2, h3, -, h5⟩ := ht.reply p (.refusedWrite (some k) 6 pa)
      refine ⟨_, hx.trans (congrArg _ ?_), h1, h2, h3, h5⟩
      have hp' : (s.afterHead h rest).poisonIn pa n = some b := hp
      simp [State.performStore, heng, hk, hp', State.refuseWrite_some]
  · have hc := TookHead.counted s h rest pa p.src 1
    obtain ⟨hpart, hfull, hhome⟩ := State.store_leaves ((s.afterHead h rest).countPage pa p.src 1) pa
      (toBytes (atomicNew op (8 * n) (s.num pa n) b.toNat e.toNat) n)
    have hr := CoreSide.reply (((s.afterHead h rest).countPage pa p.src 1).store pa
      (toBytes (atomicNew op (8 * n) (s.num pa n) b.toNat e.toNat) n)) h p (.value ret (s.wide pa n) none)
    refine ⟨_, execPerform_atomic hq hb hport href hp, ?_, (hc.wroteNum _ hin hp).of_byte hr.sameMemory,
      hr.full.trans (hfull.trans hc.full), ?_⟩
    · rw [hr.homeAt, hhome, hc.q]
    · have := State.reply_answers (((s.afterHead h rest).countPage pa p.src 1).store pa
        (toBytes (atomicNew op (8 * n) (s.num pa n) b.toNat e.toNat) n)) h p (.value ret (s.wide pa n) none)
      rwa [State.here, hpart.trans hc.part] at this
  · obtain ⟨h1, h2, h3, h4, h5⟩ := (TookHead.counted s h rest pa p.src 1).reply p (.value ret 0 (some k))
    exact ⟨_, execPerform_atomic_poisoned hq hb hport href hp, h1, h2, h4, h3, h5⟩
  · have hs := HomeSide.performFe (s.afterHead h rest) h p take pa n ret
    have ht := TookHead.taken s h rest
    obtain ⟨hfull, hans⟩ := (s.afterHead h rest).performFe_leaves h p take pa n ret
    exact ⟨_, (execPerform_ldFe hq hb href).trans (if_pos hf), (hs.2 h).trans ht.q, hs.byte, hans, hfull⟩
  · have ht := TookHead.taken s h rest
    have hs : HomeSide (s.afterHead h rest) ((s.afterHead h rest).updHome h (fun q => { q with waiting := q.waiting ++ [p] })) :=
      .updHome _ _ fun _ => rfl
    refine ⟨_, (execPerform_ldFe hq hb href).trans (if_neg (by simp [hf])), (hs.2 h).trans ht.q, hs.byte, rfl, rfl, ?_⟩
    rw [State.homeAt_updHome_self, ht.waiting]
  · obtain ⟨h1, h2, -, -, h5⟩ := (TookHead.taken s h rest).reply p (.refusedRead ret r pa)
    exact ⟨_, execPerform_load_refused hq hb hport href, h1, h2, h5⟩

end Sys2Proof.Machine
end

