-- ==== Sys2Proof/Proofs/CompletionTasks.lean ====
section
/-! PROOFS. O41: completions made into tasks, and silent notices (R23, R29, R232, R260, R261). -/

namespace Sys2Proof.Machine

open Sys2Proof Sys2Proof.Safety

variable {s : State}

theorem exec_completionTaskCreate (c : Nat) (s : State) : exec (.completionTaskCreate c) s = execCompletionTaskCreate c s := rfl
theorem exec_silentNotice (k : PairKey) (s : State) : exec (.silentNotice k) s = execSilentNotice k s := rfl

/-! ### The inbox (R30) -/

/-- Overflow messages that move up change the class queues and the overflow area alone. -/
theorem refill_only (fuel cls : Nat) (k : Core) : ∃ i x, refill fuel cls k = { k with inq := i, spill := x } := by
  induction fuel generalizing k with
  | zero => exact ⟨_, _, rfl⟩
  | succ fuel ih =>
    unfold refill
    split
    · exact ⟨_, _, rfl⟩
    · split
      · exact ⟨_, _, rfl⟩
      · obtain ⟨i, x, h⟩ := ih _
        exact ⟨i, x, h⟩

/-- An item taken out changes the class queues and the overflow area alone. -/
theorem Core.takeItem_only {k q : Core} {cls : Nat} {p : InItem → Bool} {i : InItem} (h : k.takeItem cls p = some (i, q)) :
    ∃ j x, q = { k with inq := j, spill := x } := by
  obtain ⟨e, -, he⟩ := Option.map_eq_some_iff.mp h
  obtain ⟨j, x, hr⟩ := refill_only 16 cls { k with inq := AMap.set k.inq cls e.2 }
  exact ⟨j, x, ((Prod.mk.inj he).2).symm.trans hr⟩

/-! ### Run queues (R31, R259) -/

theorem CoreSide.join (s : State) (c : Nat) (e : RunEntry) : CoreSide s (s.join c e) := rfl
theorem CoreSide.enqueue (s : State) (c : Nat) (e : RunEntry) : CoreSide s (s.enqueue c e) :=
  (CoreSide.join s c e).trans (.sendCount ..)

@[simp] theorem State.coreAt_join (s : State) (c : Nat) (e : RunEntry) :
    (s.join c e).coreAt c = { s.coreAt c with runq := (s.coreAt c).runq ++ [e] } := by simp [State.join]

@[simp] theorem State.coreAt_enqueue (s : State) (c : Nat) (e : RunEntry) :
    (s.enqueue c e).coreAt c = { s.coreAt c with runq := (s.coreAt c).runq ++ [e] } := by simp [State.enqueue]

@[simp] theorem State.settleExits_runq (s : State) (c : Nat) : ((s.settleExits c).coreAt c).runq = (s.coreAt c).runq := by
  obtain ⟨x, h⟩ := s.coreAt_settleExits c
  rw [h]

/-! ### Completions (R260, R261) -/

/-- The entry of a completion's task (R29, R232). -/
def State.completionEntry (s : State) (level : Nat) (w3 status : Word) : RunEntry :=
  { s.newTask .completion 1 level (w3.toNat / 2 ^ 32) with xferid := w3.extractLsb' 16 16, regs := [(10, status)] }

section

variable {c : Nat} {p : Packet} {q : Core} {w3 st : Word} {l : Nat} {g : BitVec 16} {mx ct : Bool} {lv fo : Nat} {ls : List Nat}
variable (hs : s.stopped = false) (htake : (s.coreAt c).takeItem 1 isCompletion = some (.pkt p, q))
  (hb : p.body = .completion w3 st l g mx ct lv fo ls)

include hs htake hb

/-- A completion that may become a task joins the run queue, and raises its level's count unless it is a level's own. -/
theorem execCompletionTaskCreate_makes (hcp : s.cancelPending lv = false) (hfull : s.countFull (s.countLevel lv) = false)
    (hroom : s.runRoom c = true) :
    ∃ t, exec (.completionTaskCreate c) s = .next (t.settleExits c) ∧ CoreSide (s.setCore c q) t ∧
      (t.coreAt c).runq = q.runq ++ [s.completionEntry lv w3 st] := by
  rw [exec_completionTaskCreate, execCompletionTaskCreate, htake]
  dsimp only
  rw [hb]
  simp only [hs, hcp, hfull, hroom, Bool.false_eq_true, Bool.true_eq_false, and_false, if_false]
  refine ⟨_, rfl, ?_, ?_⟩
  · split
    · exact .join ..
    · exact .enqueue ..
  · split <;> simp [State.completionEntry]

/-- A completion at whose level a cancel is pending makes no task. -/
theorem execCompletionTaskCreate_cancelled (hcp : s.cancelPending lv = true) :
    ∃ t, exec (.completionTaskCreate c) s = .next (t.settleExits c) ∧ CoreSide (s.setCore c q) t ∧ t.coreAt c = q := by
  rw [exec_completionTaskCreate, execCompletionTaskCreate, htake]
  dsimp only
  rw [hb]
  simp only [hs, hcp, Bool.false_eq_true, if_false, if_true]
  refine ⟨_, rfl, ?_, ?_⟩
  · split
    · exact .sendCount ..
    · exact .refl _
  · split <;> simp

end

/-! ### The end of a command (R23, R229, R232, R236) -/

/-- What another module's streamer tells of a command's end changes no slot and no memory. -/
theorem State.foreignEnd_leaves (s : State) (c : Nat) (p : Packet) (l : Nat) (g : BitVec 16) (fo code : Nat) (ls : List Nat) :
    (s.foreignEnd c p l g fo code ls).mach.slots = s.mach.slots ∧ sameMemory s (s.foreignEnd c p l g fo code ls) := by
  have hdrop : ∀ u : State, (u.dropLeasesOf c l g ls).mach.slots = u.mach.slots ∧ sameMemory u (u.dropLeasesOf c l g ls) := by
    intro u
    unfold State.dropLeasesOf
    split <;> exact ⟨rfl, fun _ => rfl⟩
  unfold State.foreignEnd
  split
  · exact ⟨rfl, fun _ => rfl⟩
  · dsimp only
    split <;> exact hdrop s

/-- A command of a live task that does not drain has ended: the counter of its class falls by one. -/
theorem State.commandDone_live {c l : Nat} {g : BitVec 16} (hc : s.current c l g = true) (hd : s.draining c l = false) (mx : Bool)
    (num : Nat) :
    CoreSide s (s.commandDone c l g mx num) ∧
      (s.commandDone c l g mx num).slotAt c l = (if mx then { s.slotAt c l with cnttl := (s.slotAt c l).cnttl - 1 }
        else { s.slotAt c l with cntcp := (s.slotAt c l).cntcp - 1 }) := by
  have hc' : (s.updCore c (fun k => { k with cmds := k.cmds.filter (fun x => x.num ≠ num) })).current c l g = true := hc
  have hd' : (s.updCore c (fun k => { k with cmds := k.cmds.filter (fun x => x.num ≠ num) })).draining c l = false := hd
  unfold State.commandDone
  simp only [hc', hd', Bool.not_false, Bool.and_self, if_true]
  exact ⟨(CoreSide.updCore ..).trans (.updSlotAt ..), by simp⟩

/-- Settles O41. -/
theorem completionsBecomeTasksAndSilentNoticesCount : Obligations.completions_become_tasks_and_silent_notices_count := by
  intro s c hs
  refine ⟨fun p k w3 st l g mx ct lv fo ls htake hb => ⟨fun hcp hfull hroom => ?_, fun hcp => ?_⟩,
    fun k l g mx fo ls hhead hc hd => ?_⟩
  · obtain ⟨j, x, rfl⟩ := Core.takeItem_only htake
    obtain ⟨t, hx, hside, hq⟩ := execCompletionTaskCreate_makes hs htake hb hcp hfull hroom
    exact ⟨_, s.completionEntry lv w3 st, hx, (t.settleExits_runq c).trans hq, rfl, rfl, rfl, rfl, rfl, rfl,
      ((CoreSide.setCore ..).trans (hside.trans (.settleExits ..))).sameMemory⟩
  · obtain ⟨j, x, rfl⟩ := Core.takeItem_only htake
    obtain ⟨t, hx, hside, hq⟩ := execCompletionTaskCreate_cancelled hs htake hb hcp
    exact ⟨_, hx, (t.settleExits_runq c).trans (by rw [hq]),
      ((CoreSide.setCore ..).trans (hside.trans (.settleExits ..))).sameMemory⟩
  · obtain ⟨hk, p, hp, hb⟩ := hhead
    obtain ⟨hslots, hmem⟩ := (s.popNet k).foreignEnd_leaves c p l g fo 0 ls
    set u := (s.popNet k).foreignEnd c p l g fo 0 ls with hu
    have hslot : ∀ c l, u.slotAt c l = s.slotAt c l := fun c l => by rw [State.slotAt, hslots]; rfl
    obtain ⟨hside, hend⟩ := State.commandDone_live (s := u) (c := c) (l := l) (g := g)
      (by rw [State.current, hslot]; exact hc) (by rw [State.draining, hslot]; exact hd) mx p.tag
    refine ⟨(u.commandDone c l g mx p.tag).settleExits c, ?_,
      fun a => ((hside.trans (.settleExits ..)).sameMemory a).trans (hmem a), ?_⟩
    · rw [exec_silentNotice, execSilentNotice, hk, hp]
      simp [State.here, hb, hu]
    · rw [State.slotAt_settleExits, hend, hslot]

end Sys2Proof.Machine
end

