-- ==== Sys2Proof/Proofs/Messages.lean ====
section
/-! PROOFS. O44: messages at a core (R29, R173, R179, R180, R183, R185, R291). -/

namespace Sys2Proof.Machine

open Sys2Proof Sys2Proof.Safety

variable {s : State}

theorem exec_messageArrival (c : Nat) (s : State) : exec (.messageArrival c) s = execMessageArrival c s := rfl
theorem exec_messageRelease (c : Nat) (ident : Word) (inst : Nat) (s : State) :
    exec (.messageRelease c ident inst) s = execMessageRelease c ident inst s := rfl
theorem exec_handlerTaskCreate (c cls : Nat) (s : State) : exec (.handlerTaskCreate c cls) s = execHandlerTaskCreate c cls s := rfl
theorem exec_channelCreationReply (k : PairKey) (s : State) :
    exec (.channelCreationReply k) s = execChannelCreationReply k s := rfl

/-! ### Lists -/

/-- What is first of its kind before a change that keeps its kind is first after it. -/
theorem find?_mapWhere {α : Type} {p : α → Bool} {f : α → α} (hf : ∀ a, p a = true → p (f a) = true) (l : List α) :
    (mapWhere p f l).find? p = (l.find? p).map f := by
  induction l with
  | nil => rfl
  | cons a t ih =>
    rw [mapWhere, List.map_cons]
    by_cases h : p a = true
    · simp [h, hf a h]
    · simp only [h, Bool.false_eq_true, if_false, List.find?_cons]
      exact ih

/-- An element that is not the one taken out is left. -/
theorem mem_of_takeFirst {α : Type} {p : α → Bool} {l r : List α} {a b : α} (h : takeFirst p l = some (a, r)) (hb : b ∈ l) :
    b = a ∨ b ∈ r := by
  induction l generalizing r with
  | nil => cases hb
  | cons x t ih =>
    unfold takeFirst at h
    split at h
    · cases h
      exact List.mem_cons.mp hb
    · obtain ⟨⟨y, q⟩, hy, he⟩ := Option.map_eq_some_iff.mp h
      cases he
      rcases List.mem_cons.mp hb with rfl | hb
      · exact .inr List.mem_cons_self
      · exact (ih hy hb).imp_right (List.mem_cons_of_mem _)

theorem find?_of_any {α : Type} {p : α → Bool} {l : List α} (h : l.any p = true) : ∃ a, l.find? p = some a :=
  Option.isSome_iff_exists.mp (List.find?_isSome.mpr (List.any_eq_true.mp h))

theorem find?_of_not_any {α : Type} {p : α → Bool} {l : List α} (h : l.any p = false) : l.find? p = none :=
  List.find?_eq_none.mpr fun a ha => by simpa using List.any_eq_false.mp h a ha

/-! ### What the settling of an end changes at its core -/

theorem Core.putItem_only (k : Core) (cls : Nat) (i : InItem) : ∃ j x, k.putItem cls i = { k with inq := j, spill := x } := by
  unfold Core.putItem
  split <;> exact ⟨_, _, rfl⟩

/-- An item joins the class queue that has a place. -/
theorem Core.queue_putItem_of_room {k : Core} {cls : Nat} (i : InItem) (h : (k.queue cls).length < 16) :
    (k.putItem cls i).queue cls = k.queue cls ++ [i] := by
  rw [Core.putItem, if_pos h, Core.queue, AMap.get_set_self]
  rfl

/-- A closure event that is due enters class 0, and its end knows it. -/
theorem State.closure_only (s : State) (c : Nat) (ident : Word) :
    (∃ j x e, (s.closure c ident).coreAt c = { s.coreAt c with inq := j, spill := x, ends := e }) ∧
      (s.closure c ident).mach.net = s.mach.net := by
  unfold State.closure
  dsimp only
  split
  · exact ⟨⟨_, _, _, rfl⟩, rfl⟩
  · split
    · rw [State.coreAt_release, State.coreAt_updCore_self, State.release_net]
      obtain ⟨j, x, h⟩ := Core.putItem_only _ 0 _
      exact ⟨⟨j, x, _, h⟩, rfl⟩
    · exact ⟨⟨_, _, _, rfl⟩, rfl⟩

/-- An area once its end has been settled. -/
def Area.settledFor (ident : Word) (a : Area) : Area := if a.ident = ident then (a.settle (a.held.length + 1)).1 else a

/-- The settling of an end settles its areas; it sends nothing. -/
theorem State.settle_only (s : State) (c : Nat) (ident : Word) :
    (∃ j x e, (s.settle c ident).coreAt c =
      { s.coreAt c with inq := j, spill := x, ends := e, areas := (s.coreAt c).areas.map (Area.settledFor ident) }) ∧
      (s.settle c ident).mach.net = s.mach.net := by
  unfold State.settle
  dsimp only
  obtain ⟨⟨j, x, e, h⟩, hn⟩ := State.closure_only (s.updCore c _) c ident
  have hareas (l : List Area) : (l.map fun a => if a.ident = ident then a.settle (a.held.length + 1) else (a, 0)).map (·.1) =
      l.map (Area.settledFor ident) := by
    rw [List.map_map]
    exact List.map_congr_left fun a _ => by unfold Area.settledFor; dsimp only [Function.comp]; split <;> rfl
  refine ⟨⟨j, x, e, h.trans ?_⟩, hn⟩
  rw [State.coreAt_updCore_self, hareas]

/-- A message that has left its queue changes areas, stubs and ends, and what is queued; nothing is sent. -/
theorem State.gone_only (s : State) (c : Nat) (m : Msg) (counts : Bool) :
    (∃ j x e a t, (s.gone c m counts).coreAt c =
      { s.coreAt c with inq := j, spill := x, ends := e, areas := a, stubs := t }) ∧
      (s.gone c m counts).mach.net = s.mach.net := by
  unfold State.gone
  dsimp only
  obtain ⟨⟨j, x, e, h⟩, hn⟩ := State.settle_only (s.updCore c _) c m.ident
  exact ⟨⟨j, x, e, _, _, h.trans (by rw [State.coreAt_updCore_self])⟩, hn⟩

/-- A data message held for an instance is no marker: settling leaves it held. -/
theorem Area.settle_holds (fuel : Nat) {a : Area} {m : Msg} (hm : m ∈ a.held) (hk : m.kind = .data) :
    m ∈ (a.settle fuel).1.held ∧ (a.settle fuel).1.ident = a.ident ∧ (a.settle fuel).1.inst = a.inst := by
  induction fuel generalizing a with
  | zero => exact ⟨hm, rfl, rfl⟩
  | succ fuel ih =>
    unfold Area.settle
    split
    · exact ⟨hm, rfl, rfl⟩
    · split
      · exact ⟨hm, rfl, rfl⟩
      · next x r hx =>
        have hr : x.kind ≠ .data → m ∈ r := fun hne =>
          (mem_of_takeFirst hx hm).resolve_left fun e => hne (e ▸ hk)
        split
        · next n hxk => exact ih (hr (by rw [hxk]; nofun))
        · next hxk => exact ih (hr (by rw [hxk]; nofun))
        · exact ⟨hm, rfl, rfl⟩

theorem Area.settledFor_holds (ident : Word) {a : Area} {m : Msg} (hm : m ∈ a.held) (hk : m.kind = .data) :
    m ∈ (a.settledFor ident).held ∧ (a.settledFor ident).ident = a.ident ∧ (a.settledFor ident).inst = a.inst := by
  unfold Area.settledFor
  split
  · exact Area.settle_holds _ hm hk
  · exact ⟨hm, rfl, rfl⟩

/-! ### Arrival (R180, R291) -/

/-- The reorder areas of a core once a message has joined its instance's: a new area where there was none. -/
def Core.areasWith (k : Core) (e : RecvEnd) (m : Msg) : List Area :=
  mapWhere (isArea m.ident m.inst) (fun a => { a with held := a.held ++ [m] })
    (if k.areas.any (isArea m.ident m.inst) then k.areas else k.areas ++ [newArea m.ident m.inst (needsHandover e.before m.inst)])

/-- A message that has joined is held in its instance's area. -/
theorem Core.mem_areasWith (k : Core) (e : RecvEnd) (m : Msg) :
    ∃ a ∈ k.areasWith e m, isArea m.ident m.inst a = true ∧ m ∈ a.held := by
  have hin : ∀ l : List Area, (∃ a ∈ l, isArea m.ident m.inst a = true) →
      ∃ a ∈ mapWhere (isArea m.ident m.inst) (fun a => { a with held := a.held ++ [m] }) l,
        isArea m.ident m.inst a = true ∧ m ∈ a.held := by
    rintro l ⟨a, ha, hi⟩
    refine ⟨{ a with held := a.held ++ [m] }, List.mem_map.mpr ⟨a, ha, by rw [if_pos hi]⟩, hi, by simp⟩
  unfold Core.areasWith
  split
  · next h => exact hin _ (List.any_eq_true.mp h)
  · exact hin _ ⟨newArea m.ident m.inst (needsHandover e.before m.inst), by simp, by simp [isArea, newArea]⟩

theorem execMessageArrival_held {c : Nat} {m : Msg} {rest : List Msg} (ha : (s.coreAt c).arrivals = m :: rest) {e : RecvEnd}
    (he : (s.coreAt c).ends.find? (fun e => decide (e.ident = m.ident) && decide (e.gen = m.gen)) = some e) :
    exec (.messageArrival c) s = .next (((s.updCore c (fun k => { k with arrivals := rest })).updCore c (fun k => { k with
      areas := (s.coreAt c).areasWith e m, fifo := k.fifo ++ arrived m })).settle c m.ident) := by
  rw [exec_messageArrival, execMessageArrival, ha]
  dsimp only
  rw [he]
  simp only [Core.areasWith]

/-! ### Credits and dropped messages (R179) -/

@[simp] theorem State.coreAt_giveCredit (s : State) (a : Agent) (m : Msg) (c : Nat) : (s.giveCredit a m).coreAt c = s.coreAt c := by
  unfold State.giveCredit; split <;> rfl

/-- The credit of a data message is on its way to the message's source. -/
theorem State.giveCredit_sends (s : State) (a : Agent) {m : Msg} (hk : m.kind = .data) :
    ∃ r ∈ netGet (s.giveCredit a m).mach.net { src := s.here a, dst := m.src, cls := 0 }, r.body = .credit m.ident m.inst := by
  have hg : s.giveCredit a m = s.post a m.src 0 (.credit m.ident m.inst) 0 0 := by rw [State.giveCredit, hk]
  obtain ⟨r, hr, hb⟩ := s.post_lastIs a m.src 0 (.credit m.ident m.inst) 0 0
  exact ⟨r, by rw [hg]; exact List.mem_of_getLast? hr, hb⟩

theorem CoreSide.dropTaken (s : State) (c : Nat) (m : Msg) : CoreSide s (s.dropTaken c m) :=
  (CoreSide.dropMsg ..).trans (.gone ..)

/-- A message without an end that is dropped leaves the run queue. -/
theorem State.dropTaken_runq {c : Nat} {m : Msg} (hm : m.carried = none) :
    ((s.dropTaken c m).coreAt c).runq = (s.coreAt c).runq := by
  obtain ⟨⟨j, x, e, a, t, h⟩, -⟩ := (s.dropMsg (.core c) m).gone_only c m false
  rw [State.dropTaken, h]
  simp [State.dropMsg, hm]

/-! ### Tasks from messages (R183, R185) -/

/-- The entry of the handler task of a message without an end (R29, R185). -/
def State.handlerEntry (s : State) (cls level off : Nat) (m : Msg) (segin segend : Bool) (left : Nat) : RunEntry :=
  { s.newTask .handler cls level off with
    regs := handlerRegs (opcodeWord m segin segend off) (readPayload m), segleft := BitVec.ofNat 64 left, h0 := Handle.none
    hadEnd := false }

theorem CoreSide.chanTask {c : Nat} {m : Msg} (hm : m.carried = none) (cls : Nat) (sb se : Bool) (left off lv : Nat) :
    CoreSide s (s.chanTask c cls m sb se left off lv) := by
  unfold State.chanTask
  rw [hm]
  exact ((CoreSide.giveCredit ..).trans (.enqueue ..)).trans (.gone ..)

/-- The handler task of a data message without an end is last on the run queue, and the message's credit returns. -/
theorem State.chanTask_leaves {c : Nat} {m : Msg} (hm : m.carried = none) (hk : m.kind = .data) (cls : Nat) (sb se : Bool)
    (left off lv : Nat) :
    ((s.chanTask c cls m sb se left off lv).coreAt c).runq = (s.coreAt c).runq ++ [s.handlerEntry cls lv off m sb se left] ∧
      ∃ r ∈ netGet (s.chanTask c cls m sb se left off lv).mach.net { src := s.here (.core c), dst := m.src, cls := 0 },
        r.body = .credit m.ident m.inst := by
  unfold State.chanTask
  rw [hm]
  dsimp only
  obtain ⟨⟨j, x, e, a, t, h⟩, hn⟩ := ((s.giveCredit (.core c) m).enqueue c (s.handlerEntry cls lv off m sb se left)).gone_only c m true
  refine ⟨?_, ?_⟩
  · refine (congrArg Core.runq h).trans ?_
    simp
  · obtain ⟨r, hr, hb⟩ := s.giveCredit_sends (.core c) hk
    refine ⟨r, ?_, hb⟩
    have hq := State.sendCount_net ((s.giveCredit (.core c) m).join c (s.handlerEntry cls lv off m sb se left)) c
      (s.handlerEntry cls lv off m sb se left).level true (key := { src := s.here (.core c), dst := m.src, cls := 0 }) nofun
    exact (congrArg (netGet · _) hn).trans hq ▸ hr

/-! ### Handle registers -/

theorem Slot.rh_wh_self (sl : Slot) (r : HReg) (h : Handle) : (sl.wh r h).rh r = h := by simp [Slot.rh, Slot.wh]

theorem Slot.rh_wh_of_ne (sl : Slot) {r q : HReg} (hne : q ≠ r) (h : Handle) : (sl.wh r h).rh q = sl.rh q := by
  have hne' : r.toNat ≠ q.toNat := fun e => hne (BitVec.eq_of_toNat_eq e).symm
  simp [Slot.rh, Slot.wh, Vector.getElem_set_ne _ _ hne']

@[simp] theorem State.slotAt_setHAt (s : State) (c l : Nat) (r : HReg) (h : Handle) :
    (s.setHAt c l r h).slotAt c l = (s.slotAt c l).wh r h := by
  rw [State.setHAt, State.logWrite, State.slotAt_updCore, State.slotAt_updSlotAt_self]

/-! ### The four parts of the statement -/

/-- A data message of an end held here is held for its instance (R180). -/
theorem arrival_of_held {c : Nat} {m : Msg} {rest : List Msg} (ha : (s.coreAt c).arrivals = m :: rest)
    (hany : (s.coreAt c).ends.any (fun e => decide (e.ident = m.ident) && decide (e.gen = m.gen)) = true) (hk : m.kind = .data) :
    ∃ t, exec (.messageArrival c) s = .next t ∧ (t.coreAt c).arrivals = rest ∧ sameMemory s t ∧
      ∃ a ∈ (t.coreAt c).areas, isArea m.ident m.inst a = true ∧ m ∈ a.held := by
  obtain ⟨e, he⟩ := find?_of_any hany
  refine ⟨_, execMessageArrival_held ha he, ?_⟩
  obtain ⟨a, hain, hi, hm⟩ := (s.coreAt c).mem_areasWith e m
  obtain ⟨hm', hident, hinst⟩ := Area.settledFor_holds m.ident hm hk
  obtain ⟨⟨j, x, n, h⟩, -⟩ := State.settle_only ((s.updCore c (fun k => { k with arrivals := rest })).updCore c (fun k => { k with
      areas := (s.coreAt c).areasWith e m, fifo := k.fifo ++ arrived m })) c m.ident
  rw [h]
  refine ⟨by simp, ((CoreSide.updCore ..).trans ((CoreSide.updCore ..).trans (.settle ..))).sameMemory, a.settledFor m.ident, ?_, ?_, hm'⟩
  · simpa using List.mem_map_of_mem hain
  · rw [isArea, hident, hinst]
    exact hi

/-- A message whose end has moved on joins the stub of its generation, or goes to its channel home (R180, R291). -/
theorem arrival_of_not_held {c : Nat} {m : Msg} {rest : List Msg} (ha : (s.coreAt c).arrivals = m :: rest)
    (hany : (s.coreAt c).ends.any (fun e => decide (e.ident = m.ident) && decide (e.gen = m.gen)) = false) :
    (∀ st, (s.coreAt c).stubs.find? (isStub m.ident m.gen) = some st → st.msgs.length < 64 →
      ∃ t, exec (.messageArrival c) s = .next t ∧ sameMemory s t ∧
        (t.coreAt c).stubs.find? (isStub m.ident m.gen) = some (st.take m)) ∧
    ((s.coreAt c).stubs.find? (isStub m.ident m.gen) = none → ∃ t, exec (.messageArrival c) s = .next t ∧ sameMemory s t ∧
      lastIs t { src := s.here (.core c), dst := s.chanHome m.home m.ident, cls := 0 } (.returned m)) := by
  have he := find?_of_not_any hany
  refine ⟨fun st hst hlen => ?_, fun hst => ?_⟩
  · refine ⟨(s.updCore c (fun k => { k with arrivals := rest })).updStub c m.ident m.gen (fun t => t.take m), ?_,
      ((CoreSide.updCore ..).trans (.updCore ..)).sameMemory, ?_⟩
    · have hroom : ¬(st.dest.isNone = true ∧ 64 ≤ (st.msgs.filter (fun x => x.inst = m.inst)).length) := fun h => by
        have := List.length_filter_le (fun x : Msg => decide (x.inst = m.inst)) st.msgs
        omega
      rw [exec_messageArrival, execMessageArrival, ha]
      dsimp only
      rw [he]
      dsimp only
      rw [hst]
      dsimp only
      rw [if_neg hroom]
    · rw [State.updStub, State.coreAt_updCore_self, State.coreAt_updCore_self]
      exact (find?_mapWhere (p := isStub m.ident m.gen) (f := fun t => t.take m) (fun _ h => h) _).trans (congrArg _ hst)
  · refine ⟨(s.updCore c (fun k => { k with arrivals := rest })).post (.core c) (s.chanHome m.home m.ident) 0 (.returned m) 0 0, ?_,
      ((CoreSide.updCore ..).trans (.post ..)).sameMemory, State.post_lastIs ..⟩
    rw [exec_messageArrival, execMessageArrival, ha]
    dsimp only
    rw [he]
    dsimp only
    rw [hst]

/-- The area's next message enters its class queue with its segment marks (R55, R180, R185). -/
theorem release_of_next {c : Nat} {ident : Word} {inst : Nat} {a : Area} {m : Msg} {r : List Msg}
    (ha : (s.coreAt c).areas.find? (isArea ident inst) = some a) (hbusy : a.busy = false) (hwait : a.waiting = false)
    (hc : c ≠ eqxCore) (hheld : a.held = m :: r) (hseq : m.seq = a.next) (hk : m.kind = .data)
    (hlen : ((s.coreAt c).queue m.cls).length < 16) (hinst : inst ≠ countOnly) (hord : (s.coreAt c).inOrder m = true) :
    ∃ t, exec (.messageRelease c ident inst) s = .next t ∧ sameMemory s t ∧
      (t.coreAt c).queue m.cls =
        (s.coreAt c).queue m.cls ++ [.chan m (decide (a.seg ≠ 0)) (decide (a.seg = 1)) (a.seg - 1)] ∧
      (t.coreAt c).areas.find? (isArea ident inst) = some { a with next := a.next + 1, held := r, busy := true } := by
  have htake : takeFirst (fun (m : Msg) => decide (m.seq = a.next)) a.held = some (m, r) := by
    rw [hheld, takeFirst, if_pos (by simpa using hseq)]
  have hroom : (s.coreAt c).room m.cls = true := by simp [Core.room, hlen]
  have hb : isArea ident inst { a with next := a.next + 1, held := r, busy := true } = true :=
    (List.find?_some ha :)
  refine ⟨(s.updCore c (fun k => { k with
      areas := mapWhere (isArea ident inst) (fun _ => { a with next := a.next + 1, held := r, busy := true }) k.areas
      fifo := k.fifo.filter (fun x => !(arrived m).contains x) })).release c m.cls
        (.chan m (decide (a.seg ≠ 0)) (decide (a.seg = 1)) (a.seg - 1)), ?_,
    ((CoreSide.updCore ..).trans (.release ..)).sameMemory, ?_⟩
  · rw [exec_messageRelease, execMessageRelease, if_neg hinst, ha]
    dsimp only
    rw [htake]
    simp [hbusy, hwait, hc, hk, hroom, hord]
  · rw [State.coreAt_release, State.coreAt_updCore_self]
    refine ⟨Core.queue_putItem_of_room _ hlen, ?_⟩
    obtain ⟨_, _, h⟩ := Core.putItem_only _ m.cls (.chan m (decide (a.seg ≠ 0)) (decide (a.seg = 1)) (a.seg - 1))
    rw [h]
    exact (find?_mapWhere (p := isArea ident inst) (fun _ _ => hb) _).trans (congrArg _ ha)

section

variable {c cls left off lv : Nat} {m : Msg} {sb se : Bool} {q : Core}
variable (htake : (s.coreAt c).takeItem cls (s.coreAt c).forHandler = some (.chan m sb se left, q))
  (hbind : (s.coreAt c).binding m = (some off, lv)) (hcar : m.carried = none) (hk : m.kind = .data)

include htake hbind hcar

include hk in
/-- The first message for an entered handler becomes its task, and its credit returns (R29, R183, R185). -/
theorem handler_task (hs : s.stopped = false) (hent : s.entered off cls = true) (hcp : s.cancelPending lv = false)
    (hfull : s.countFull (s.countLevel lv) = false) (hroom : s.runRoom c = true) :
    ∃ t e, exec (.handlerTaskCreate c cls) s = .next t ∧ (t.coreAt c).runq = (s.coreAt c).runq ++ [e] ∧ e.kind = .handler ∧
      e.cls = cls ∧ e.level = s.countLevel lv ∧ e.pc = s.job.code + BitVec.ofNat 64 off ∧
      e.regs = handlerRegs (opcodeWord m sb se off) (readPayload m) ∧ e.segleft = BitVec.ofNat 64 left ∧ sameMemory s t ∧
      ∃ r ∈ netGet t.mach.net { src := s.here (.core c), dst := m.src, cls := 0 }, r.body = .credit m.ident m.inst := by
  obtain ⟨j, x, rfl⟩ := Core.takeItem_only htake
  set u := s.setCore c { s.coreAt c with inq := j, spill := x } with hu
  obtain ⟨hq, hcred⟩ := u.chanTask_leaves (c := c) hcar hk cls sb se left off lv
  refine ⟨u.chanTask c cls m sb se left off lv, u.handlerEntry cls lv off m sb se left, ?_, ?_, rfl, rfl, rfl, rfl, rfl, rfl,
    ((CoreSide.setCore ..).trans (.chanTask hcar ..)).sameMemory, hcred⟩
  · rw [exec_handlerTaskCreate, execHandlerTaskCreate, htake]
    simp [hs, hbind, hent, hcp, hfull, hroom, hu]
  · rw [hq]
    simp [hu]

include hk in
/-- A handler that is not entered drops the message with a record of cause 0x085 (R183). -/
theorem handler_not_entered (hs : s.stopped = false) (hent : s.entered off cls = false) :
    ∃ t r, exec (.handlerTaskCreate c cls) s = .next t ∧ (t.coreAt c).runq = (s.coreAt c).runq ∧
      t.eqx.lane0 = s.eqx.lane0 ++ [r] ∧ r.cause = 0x085 ∧ sameMemory s t := by
  obtain ⟨j, x, rfl⟩ := Core.takeItem_only htake
  set u := s.setCore c { s.coreAt c with inq := j, spill := x } with hu
  set r := s.unitRec 0 c 0x085 s.job.tag 0 (BitVec.ofNat 64 off) (s.unitAt 0 c).window with hr
  have hside : CoreSide s (u.dropTaken c m) := (CoreSide.setCore ..).trans (.dropTaken ..)
  have hemit : (u.dropTaken c m).emit r = { u.dropTaken c m with
      eqx := { (u.dropTaken c m).eqx with lane0 := (u.dropTaken c m).eqx.lane0 ++ [r] } } := by
    rw [State.emit, if_neg (show r.lane ≠ 1 from nofun)]
  refine ⟨(u.dropTaken c m).emit r, r, ?_, ?_, ?_, rfl, ?_⟩
  · rw [exec_handlerTaskCreate, execHandlerTaskCreate, htake]
    simp [hs, hbind, hent, hk, hu, hr]
  · rw [State.coreAt_emit, State.dropTaken_runq hcar]
    simp [hu]
  · rw [hemit, hside.eqx]
  · rw [hemit]
    exact hside.sameMemory

/-- A message at whose level a cancel is pending is dropped. -/
theorem handler_cancelled (hs : s.stopped = false) (hent : s.entered off cls = true) (hcp : s.cancelPending lv = true) :
    ∃ t, exec (.handlerTaskCreate c cls) s = .next t ∧ (t.coreAt c).runq = (s.coreAt c).runq ∧ t.eqx = s.eqx ∧ sameMemory s t := by
  obtain ⟨j, x, rfl⟩ := Core.takeItem_only htake
  set u := s.setCore c { s.coreAt c with inq := j, spill := x } with hu
  have hside : CoreSide s (u.dropTaken c m) := (CoreSide.setCore ..).trans (.dropTaken ..)
  refine ⟨u.dropTaken c m, ?_, ?_, hside.eqx, hside.sameMemory⟩
  · rw [exec_handlerTaskCreate, execHandlerTaskCreate, htake]
    simp [hs, hbind, hent, hcp, hu]
  · rw [State.dropTaken_runq hcar]
    simp [hu]

end

theorem CoreSide.setHAt (s : State) (c l : Nat) (r : HReg) (h : Handle) : CoreSide s (s.setHAt c l r h) :=
  (CoreSide.updSlotAt ..).trans (.logWrite ..)

/-- Both ends of a channel made for a request that has left the core's list, in the slot's registers (R173). -/
def State.withChannel (s : State) (c : Nat) (r : ChanReq) (ident : Word) (reqs : List ChanReq) : State :=
  (((s.updCore c (fun k => { k with reqs := reqs })).updCore c (fun k => { k with ends := k.ends ++
    [{ ident := ident, gen := 0, bind := none, level := 0, final := none, closes := 0, eventSent := false
       home := s.part.peer, before := some 0 }] })).setHAt c r.slot r.hd (newSend s.part.peer c ident)).setHAt c r.slot r.ha
      (newRecv s.part.peer c ident)

theorem CoreSide.withChannel (s : State) (c : Nat) (r : ChanReq) (ident : Word) (reqs : List ChanReq) :
    CoreSide s (s.withChannel c r ident reqs) :=
  ((CoreSide.updCore ..).trans (.updCore ..)).trans ((CoreSide.setHAt ..).trans (.setHAt ..))

theorem State.slotAt_withChannel (s : State) (c : Nat) (r : ChanReq) (ident : Word) (reqs : List ChanReq) :
    (s.withChannel c r ident reqs).slotAt c r.slot =
      ((s.slotAt c r.slot).wh r.hd (newSend s.part.peer c ident)).wh r.ha (newRecv s.part.peer c ident) := by
  rw [State.withChannel, State.slotAt_setHAt, State.slotAt_setHAt]
  rfl

theorem State.withChannel_reqs (s : State) (c : Nat) (r : ChanReq) (ident : Word) (reqs : List ChanReq) :
    ((s.withChannel c r ident reqs).coreAt c).reqs = reqs := by
  simp [State.withChannel, State.setHAt, State.logWrite]

/-- The reply of a channel's home writes both ends of the new channel, and the slot goes on (R173). -/
theorem creation_reply {c : Nat} {q : PairKey} {ident : Word} {r : ChanReq} {reqs : List ChanReq}
    (hh : heads s q (.core c) (.chCreated ident true))
    (htake : takeFirst (fun (r : ChanReq) => !r.dup && decide (r.ident = ident)) (s.coreAt c).reqs = some (r, reqs))
    (hcur : s.current c r.slot r.gen = true) (hdr : s.draining c r.slot = false) (hne : r.hd ≠ r.ha) :
    ∃ t, exec (.channelCreationReply q) s = .next t ∧ (t.slotAt c r.slot).rh r.hd = newSend s.part.peer c ident ∧
      (t.slotAt c r.slot).rh r.ha = newRecv s.part.peer c ident ∧ (t.slotAt c r.slot).phase = .ready ∧
      (t.slotAt c r.slot).pc = (s.slotAt c r.slot).pc + 4 ∧ (t.coreAt c).reqs = reqs ∧ sameMemory s t := by
  obtain ⟨hd, p, hp, hb⟩ := hh
  have hgen : (s.slotAt c r.slot).gen = r.gen := by
    simp only [State.current, Bool.and_eq_true, decide_eq_true_eq] at hcur
    exact hcur.1
  have hpeer : q.dst.peer = s.part.peer := by rw [hd]; rfl
  have hagent : q.dst.agent = .core c := by rw [hd]; rfl
  have hslot : (((s.popNet q).withChannel c r ident reqs).updSlotAt c r.slot
      (fun sl => { sl with phase := .ready, pc := sl.pc + 4 })).slotAt c r.slot =
      { ((s.slotAt c r.slot).wh r.hd (newSend s.part.peer c ident)).wh r.ha (newRecv s.part.peer c ident) with
        phase := .ready, pc := (s.slotAt c r.slot).pc + 4 } := by
    rw [State.slotAt_updSlotAt_self, State.slotAt_withChannel]
    rfl
  refine ⟨((s.popNet q).withChannel c r ident reqs).updSlotAt c r.slot (fun sl => { sl with phase := .ready, pc := sl.pc + 4 }),
    ?_, ?_, ?_, ?_, ?_, ?_, ((CoreSide.popNet ..).trans ((CoreSide.withChannel ..).trans (.updSlotAt ..))).sameMemory⟩
  · rw [exec_channelCreationReply, execChannelCreationReply, hagent, hp]
    simp [hb, hpeer, htake, hgen, hcur, hdr, State.withChannel, show (s.popNet q).part = s.part from rfl]
  · rw [hslot]
    exact (Slot.rh_wh_of_ne _ hne _).trans (Slot.rh_wh_self ..)
  · rw [hslot]
    exact Slot.rh_wh_self ..
  · rw [hslot]
  · rw [hslot]
  · rw [State.coreAt_updSlotAt, State.withChannel_reqs]

/-- Settles O44. -/
theorem coresCheckReleaseAndDispatchMessages : Obligations.cores_check_release_and_dispatch_messages := by
  intro s c k
  refine ⟨fun m rest ha => ⟨arrival_of_held ha, arrival_of_not_held ha⟩, fun ident inst a m r => release_of_next,
    fun cls m sb se left q off lv htake hbind hcar hk => ?_, fun q ident r reqs => creation_reply⟩
  exact ⟨handler_task htake hbind hcar hk, handler_not_entered htake hbind hcar hk, handler_cancelled htake hbind hcar⟩

end Sys2Proof.Machine
end

