-- ==== Sys2Proof/Proofs/Scheduling.lean ====
section
/-! PROOFS. O46: slots are filled, units drawn, entries aged and shared, tasks moved and watched (R18, R254 to R256, R264 to R266,
R270, R271, R337). -/

namespace Sys2Proof.Machine

open Sys2Proof Sys2Proof.Safety

variable {s : State}

theorem exec_slotFill (c : Nat) (s : State) : exec (.slotFill c) s = execSlotFill c s := rfl
theorem exec_draw (d : Nat) (s : State) : exec (.draw d) s = execDraw d s := rfl
theorem exec_steal (d : Nat) (s : State) : exec (.steal d) s = execSteal d s := rfl
theorem exec_drawReply (k : PairKey) (s : State) : exec (.drawReply k) s = execDrawReply k s := rfl
theorem exec_runQueueAgeing (c : Nat) (s : State) : exec (.runQueueAgeing c) s = execRunQueueAgeing c s := rfl
theorem exec_loadSummary (s : State) : exec .loadSummary s = execLoadSummary s := rfl
theorem exec_workDonation (a v : Nat) (s : State) : exec (.workDonation a v) s = execWorkDonation a v s := rfl
theorem exec_taskMigration (c l : Nat) (s : State) : exec (.taskMigration c l) s = execTaskMigration c l s := rfl
theorem exec_migrationArrival (c l : Nat) (s : State) : exec (.migrationArrival c l) s = execMigrationArrival c l s := rfl
theorem exec_watchdogExpiry (c l : Nat) (s : State) : exec (.watchdogExpiry c l) s = execWatchdogExpiry c l s := rfl
theorem exec_wfiTimeout (c l : Nat) (s : State) : exec (.wfiTimeout c l) s = execWfiTimeout c l s := rfl

/-! ### A task placed on a slot (R18, R28, R29) -/

/-- A slot as its task starts on it, before the registers of the entry are written. -/
def State.entrySlot (s : State) (c l : Nat) (e : RunEntry) : Slot :=
  { Slot.reset with
    phase := .ready, gen := (s.slotAt c l).gen + 1, pc := e.pc, tvec := e.tvec, gridpt := e.gridpt, griddim := e.griddim
    launchid := e.launchid, jobid := s.job.tag, tgenx := e.tgenx.getD s.job.tgen, xferid := e.xferid, segleft := e.segleft
    fseed := e.fseed
    task := { Task.none with
      kind := e.kind, cls := e.cls, level := e.level, wdStart := e.wdStart
      pinned := (s.levelAt (s.launchOf e.level)).cores } }

/-- Registers written one after the other change the register file and its poison alone. -/
theorem Slot.foldl_wx_only (l : List (Reg × Word)) (sl : Slot) :
    ∃ x p, l.foldl (fun sl r => sl.wx r.1 r.2) sl = { sl with x := x, px := p } := by
  induction l generalizing sl with
  | nil => exact ⟨_, _, rfl⟩
  | cons r t ih =>
    obtain ⟨x, p, h⟩ := ih (sl.wx r.1 r.2)
    refine ⟨x, p, h.trans ?_⟩
    unfold Slot.wx
    split <;> rfl

/-- Poison set in one register after the other changes the poison alone. -/
theorem Slot.foldl_poison_only (l : List (Reg × BitVec 2)) (sl : Slot) :
    ∃ p, l.foldl (fun (sl : Slot) r =>
      if r.1 = 0 then sl else { sl with px := sl.px.set r.1.toNat (some r.2) r.1.isLt }) sl = { sl with px := p } := by
  induction l generalizing sl with
  | nil => exact ⟨_, rfl⟩
  | cons r t ih =>
    rw [List.foldl_cons]
    split
    · exact ih sl
    · obtain ⟨p, h⟩ := ih { sl with px := sl.px.set r.1.toNat (some r.2) r.1.isLt }
      exact ⟨p, h⟩

/-- A placed task's slot is its fresh one but for the registers that the entry carries. -/
theorem State.slotAt_place (s : State) (c l : Nat) (e : RunEntry) :
    ∃ x h p, (s.place c l e).slotAt c l = { s.entrySlot c l e with x := x, h := h, px := p } ∧
      (e.regs = [] → x = Vector.replicate 32 0) := by
  obtain ⟨x, p, hx⟩ := Slot.foldl_wx_only e.regs (s.entrySlot c l e)
  obtain ⟨p', hp⟩ := Slot.foldl_poison_only e.poisoned { s.entrySlot c l e with x := x, h := (s.entrySlot c l e).h.set 0 e.h0, px := p }
  refine ⟨x, (s.entrySlot c l e).h.set 0 e.h0, p', ?_, fun hr => ?_⟩
  · unfold State.place
    dsimp only
    rw [foldl_leaves (π := (·.slotAt c l)) (fun _ _ => by rfl), foldl_leaves (π := (·.slotAt c l)) (fun _ _ => by rfl),
      State.slotAt_updCore, State.slotAt_setSlotAt_self]
    exact (congrArg (fun sl : Slot => e.poisoned.foldl (fun (sl : Slot) r =>
      if r.1 = 0 then sl else { sl with px := sl.px.set r.1.toNat (some r.2) r.1.isLt }) { sl with h := sl.h.set 0 e.h0 }) hx).trans hp
  · rw [hr] at hx
    exact (congrArg Slot.x hx).symm

/-- What a task finds in its slot as it starts (R18). -/
theorem State.place_starts (s : State) (c l : Nat) (e : RunEntry) :
    let sl := (s.place c l e).slotAt c l
    sl.phase = .ready ∧ sl.gen = (s.slotAt c l).gen + 1 ∧ sl.pc = e.pc ∧ sl.tvec = e.tvec ∧ sl.gridpt = e.gridpt ∧
      sl.jobid = s.job.tag ∧ sl.tgenx = e.tgenx.getD s.job.tgen ∧ sl.cause = 0 ∧ sl.v = Vector.replicate 32 0 ∧
      sl.task.level = e.level ∧ (e.regs = [] → sl.x = Vector.replicate 32 0) := by
  obtain ⟨x, h, p, hslot, hx⟩ := s.slotAt_place c l e
  dsimp only
  rw [hslot]
  exact ⟨rfl, rfl, rfl, rfl, rfl, rfl, rfl, rfl, rfl, rfl, hx⟩

/-- A core but for its operand log. -/
def Core.noLog (k : Core) : Core := { k with oplog := [] }

@[simp] theorem State.noLog_logWrite (s : State) (c l reg : Nat) (v : VWord) :
    ((s.logWrite c l reg v).coreAt c).noLog = (s.coreAt c).noLog := by
  rw [State.logWrite, State.coreAt_updCore_self]
  rfl

/-- A task that is placed leaves its core's state but the operand log. -/
theorem State.coreAt_place (s : State) (c l : Nat) (e : RunEntry) : ((s.place c l e).coreAt c).noLog = (s.coreAt c).noLog := by
  unfold State.place
  dsimp only
  refine (foldl_leaves (π := fun u => (u.coreAt c).noLog) (fun _ _ => by rfl) ..).trans ?_
  refine (foldl_leaves (π := fun u => (u.coreAt c).noLog) (fun _ _ => by simp) ..).trans ?_
  rw [State.coreAt_updCore_self]
  rfl

/-! ### Filling and drawing (R255, R264, R265) -/

theorem execSlotFill_entry {c l : Nat} (hfree : s.freeSlot c = some l) (hrun : s.running.isSome = true) (hs : s.stopped = false)
    (hlive : s.part.coreLive c = true) (hco : isCompute c = true → s.mach.coStarts = []) {e : RunEntry} {rest : List RunEntry}
    (hn : nextEntry (s.coreAt c).runq = some (e, rest)) :
    exec (.slotFill c) s = .next ((s.setCore c { s.coreAt c with runq := rest }).place c l e) := by
  have hno : ¬(s.running.isNone ∨ s.stopped ∨ s.part.coreLive c = false ∨ (isCompute c ∧ !s.mach.coStarts.isEmpty)) := by
    simpa [hs, hlive, Option.isSome_iff_ne_none] using ⟨Option.isSome_iff_ne_none.mp hrun, hco⟩
  rw [exec_slotFill, execSlotFill, hfree]
  dsimp only
  rw [if_neg hno, hn]

theorem execSlotFill_draws {c l : Nat} (hfree : s.freeSlot c = some l) (hrun : s.running.isSome = true) (hs : s.stopped = false)
    (hlive : s.part.coreLive c = true) (hco : isCompute c = true → s.mach.coStarts = [])
    (hn : nextEntry (s.coreAt c).runq = none) (hc : isCompute c = true) (hd : (s.coreAt c).drawing = none)
    (hi : (s.coreAt c).idle = false) (hleft : s.indicesLeft = true) :
    exec (.slotFill c) s = .next ((s.setCore c { s.coreAt c with drawing := some l, drawnAt := s.mach.starts }).post (.core c)
      (s.here (.drawUnit (dieOf (tileOf c)))) 0 (.draw c l 0) l 0) := by
  have hno : ¬(s.running.isNone ∨ s.stopped ∨ s.part.coreLive c = false ∨ (isCompute c ∧ !s.mach.coStarts.isEmpty)) := by
    simpa [hs, hlive, Option.isSome_iff_ne_none] using ⟨Option.isSome_iff_ne_none.mp hrun, hco⟩
  rw [exec_slotFill, execSlotFill, hfree]
  dsimp only
  rw [if_neg hno, hn]
  dsimp only
  rw [if_pos ⟨hc, hd, hi, hleft⟩]

@[simp] theorem State.drawAt_post (s : State) (a : Agent) (d n b i g) (u : Nat) : (s.post a d n b i g).drawAt u = s.drawAt u := rfl

/-- A draw unit answers the head of its queue with an index of a range, which is that much shorter afterwards. -/
def State.answersDraw (s : State) (die c l : Nat) (rest : List Packet) (r : Range) (unit : Nat × Nat) : State :=
  ((s.updDraw die (fun u => { u with q := rest })).updDraw die (fun u => { u with ranges := putRange u.ranges r })).post
    (.drawUnit die) (s.here (.core c)) 0 (.drawn l (some unit)) 0 0

theorem State.answersDraw_leaves (s : State) (die c l : Nat) (rest : List Packet) (r : Range) (unit : Nat × Nat) :
    sameMemory s (s.answersDraw die c l rest r unit) ∧ ((s.answersDraw die c l rest r unit).drawAt die).q = rest ∧
      ((s.answersDraw die c l rest r unit).drawAt die).ranges = putRange (s.drawAt die).ranges r ∧
      lastIs (s.answersDraw die c l rest r unit) (queueOf s (.drawUnit die) (.core c) 0) (.drawn l (some unit)) :=
  ⟨fun _ => rfl, by simp [State.answersDraw], by simp [State.answersDraw], State.post_lastIs ..⟩

theorem execDraw_gives {die c l : Nat} {p : Packet} {rest : List Packet} {r : Range} (hs : s.stopped = false)
    (hq : (s.drawAt die).q = p :: rest) (hr : firstRange (s.drawAt die).ranges = some r) (hb : p.body = .draw c l 0) :
    exec (.draw die) s = .next (s.answersDraw die c l rest { r with next := r.next + 1 } (r.lrec, r.next)) := by
  rw [exec_draw, execDraw, if_neg (by simp [hs]), hq]
  dsimp only
  rw [hb, hr]
  rfl

theorem execSteal_gives {die c l n : Nat} {p : Packet} {rest : List Packet} {r : Range} (hs : s.stopped = false)
    (hq : (s.drawAt die).q = p :: rest) (hr : firstRange (s.drawAt die).ranges = some r) (hb : p.body = .draw c l (n + 1)) :
    exec (.steal die) s = .next (s.answersDraw die c l rest { r with stop := r.stop - 1 } (r.lrec, r.stop - 1)) := by
  rw [exec_steal, execSteal, if_neg (by simp [hs]), hq]
  dsimp only
  rw [hb]
  dsimp only
  rw [hr]
  rfl

/-! ### Load summaries (R266) -/

/-- A cluster's load as the others learn it. -/
def State.learnLoad (s : State) (cl : Nat) : State :=
  if s.clusterLoad cl = (s.clusterAt cl).load then s else s.updCluster cl (fun k => { k with load := s.clusterLoad cl })

/-- What a summary says of a cluster is its load. -/
def State.knowsLoad (s : State) (cl : Nat) : Prop := (s.clusterAt cl).load = s.clusterLoad cl

theorem State.clusterAt_updCluster_other (s : State) {k n : Nat} (f : Cluster → Cluster) (h : n ≠ k) :
    (s.updCluster k f).clusterAt n = s.clusterAt n := by
  simp [State.clusterAt, State.updCluster, AMap.get_set_other _ _ h]

@[simp] theorem State.clusterLoad_learnLoad (s : State) (a cl : Nat) : (s.learnLoad a).clusterLoad cl = s.clusterLoad cl := by
  unfold State.learnLoad; split <;> rfl
@[simp] theorem State.byte_learnLoad (s : State) (a : Nat) (pa : Nat) : (s.learnLoad a).byte pa = s.byte pa := by
  unfold State.learnLoad; split <;> rfl

theorem State.knowsLoad_learnLoad_self (s : State) (cl : Nat) : (s.learnLoad cl).knowsLoad cl := by
  rw [State.knowsLoad, State.clusterLoad_learnLoad, State.learnLoad]
  split
  · next h => exact h.symm
  · rw [State.clusterAt_updCluster_self]

theorem State.knowsLoad_learnLoad {cl : Nat} (h : s.knowsLoad cl) (a : Nat) : (s.learnLoad a).knowsLoad cl := by
  by_cases e : cl = a
  · exact e ▸ s.knowsLoad_learnLoad_self cl
  · rw [State.knowsLoad, State.clusterLoad_learnLoad, State.learnLoad]
    split
    · exact h
    · rw [State.clusterAt_updCluster_other _ _ e]
      exact h

/-- Once every cluster of a list has been gone through, the summary says its load. -/
theorem State.knowsLoad_foldl {cl : Nat} (l : List Nat) (h : s.knowsLoad cl ∨ cl ∈ l) : (l.foldl State.learnLoad s).knowsLoad cl := by
  induction l generalizing s with
  | nil => exact h.resolve_right List.not_mem_nil
  | cons a t ih =>
    refine ih ?_
    rcases h with h | h
    · exact .inl (State.knowsLoad_learnLoad h a)
    · rcases List.mem_cons.mp h with rfl | h
      · exact .inl (s.knowsLoad_learnLoad_self cl)
      · exact .inr h

theorem execLoadSummary_due (h : s.mach.summaryAt + 4096 ≤ s.mach.clock) :
    exec .loadSummary s = .next { (List.range 64).foldl State.learnLoad s with
      mach := { ((List.range 64).foldl State.learnLoad s).mach with summaryAt := s.mach.clock } } := by
  rw [exec_loadSummary, execLoadSummary, if_neg (by omega)]
  rfl

/-! ### Donation (R266) -/

theorem foldl_max_of_le {f : Nat → Nat} (l : List Nat) {b : Nat} (h : ∀ x ∈ l, f x ≤ b) : l.foldl (fun m c => max m (f c)) b = b := by
  induction l with
  | nil => rfl
  | cons a t ih => rw [List.foldl_cons, max_eq_left (h a List.mem_cons_self), ih fun x hx => h x (List.mem_cons_of_mem _ hx)]

/-- The greatest load is that of a cluster whose load no other exceeds. -/
theorem foldl_max_eq {f : Nat → Nat} (l : List Nat) {v m : Nat} (hv : v ∈ l) (h : ∀ x ∈ l, f x ≤ f v) (hm : m ≤ f v) :
    l.foldl (fun m c => max m (f c)) m = f v := by
  induction l generalizing m with
  | nil => cases hv
  | cons a t ih =>
    have ht : ∀ x ∈ t, f x ≤ f v := fun x hx => h x (List.mem_cons_of_mem _ hx)
    rw [List.foldl_cons]
    rcases List.mem_cons.mp hv with rfl | hv
    · rw [max_eq_right hm, foldl_max_of_le t ht]
    · exact ih hv ht (max_le hm (h a List.mem_cons_self))

theorem State.byte_updCluster (s : State) (k : Nat) (f : Cluster → Cluster) (a : Nat) : (s.updCluster k f).byte a = s.byte a := rfl

/-- One entry that is shipped changes no memory. -/
theorem State.shipOne_sameMemory {a v : Nat} {t : State} (h : s.shipOne a v = some t) : sameMemory s t := by
  unfold State.shipOne at h
  obtain ⟨e, -, h⟩ := Option.bind_eq_some_iff.mp h
  obtain ⟨r, -, h⟩ := Option.bind_eq_some_iff.mp h
  dsimp only at h
  split at h
  · cases h
  · cases h
    exact fun _ => rfl

theorem State.ship_sameMemory (s : State) (a v n : Nat) : sameMemory s (s.ship a v n) := by
  induction n generalizing s with
  | zero => exact fun _ => rfl
  | succ n ih =>
    unfold State.ship
    split
    · next t ht => exact fun pa => (ih t pa).trans (State.shipOne_sameMemory ht pa)
    · exact fun _ => rfl

/-- A cluster with 8 open slots and nothing queued asks the cluster of its die with the greatest load (R266). -/
theorem execWorkDonation_ships {a v : Nat} (hs : s.stopped = false) (hv : v < 64) (hva : v ≠ a) (hdie : v / 16 = a / 16)
    (hmay : (s.clusterAt a).mayDonate = true) (hempty : s.clusterLoad a = 0)
    (hmax : ∀ x, x < 64 → x ≠ a → (s.clusterAt x).load ≤ (s.clusterAt v).load) (hpos : 0 < (s.clusterAt v).load)
    (hopen : 8 ≤ (((s.clusterCores a).filter isCompute).map
      (fun y => ((List.range 4).filter (fun i => s.openSlot y i)).length)).sum) :
    exec (.workDonation a v) s = .next ((s.ship a v 8).updCluster a (fun q => { q with mayDonate := false })) := by
  have hvin : v ∈ (List.range 64).filter (fun c => decide (c ≠ a)) := by simp [hv, hva]
  have hbest : ((List.range 64).filter (fun c => decide (c ≠ a))).foldl (fun m c => max m (s.clusterAt c).load) 0 =
      (s.clusterAt v).load :=
    foldl_max_eq (f := fun c => (s.clusterAt c).load) _ hvin (fun x hx => by
      simp only [List.mem_filter, List.mem_range, decide_eq_true_eq] at hx
      exact hmax x hx.1 hx.2) (Nat.zero_le _)
  have hnear : v ∈ (((List.range 64).filter (fun c => decide (c ≠ a))).filter
      (fun c => decide ((s.clusterAt c).load = (s.clusterAt v).load))).filter (fun c => decide (c / 16 = a / 16)) := by
    simp [hv, hva, hdie]
  rw [exec_workDonation, execWorkDonation]
  dsimp only
  rw [hbest, if_neg]
  rw [if_neg (by simpa using List.ne_nil_of_mem hnear)]
  simp only [hs, hmay, hempty, not_or]
  refine ⟨nofun, nofun, by omega, by simp, by omega, ?_⟩
  simpa using hnear

/-! ### Migration (R270, R271) -/

@[simp] theorem State.landEnd_slots (s : State) (c : Nat) (h : Handle) : (s.landEnd c h).1.mach.slots = s.mach.slots := by
  unfold State.landEnd; split <;> rfl

theorem CoreSide.landEnd (s : State) (c : Nat) (h : Handle) : CoreSide s (s.landEnd c h).1 := by
  unfold State.landEnd
  split
  · exact .refl s
  · exact .post ..
  · exact (CoreSide.updCore ..).trans (.post ..)

/-- The levels above a task are found in the level table alone. -/
theorem State.chain_of_levels {t : State} (h : t.mach.levels = s.mach.levels) (n k : Nat) : t.chain n k = s.chain n k := by
  induction n generalizing k with
  | zero => rfl
  | succ n ih =>
    have hl : t.levelAt k = s.levelAt k := by rw [State.levelAt, h, State.levelAt]
    rw [State.chain, State.chain, ih, hl]

/-! ### A task that is killed (R143, R269) -/

@[simp] theorem State.giveCredit_slots (s : State) (a : Agent) (m : Msg) : (s.giveCredit a m).mach.slots = s.mach.slots := by
  unfold State.giveCredit; split <;> rfl
@[simp] theorem State.closeCarried_slots (s : State) (a : Agent) (h : Handle) : (s.closeCarried a h).mach.slots = s.mach.slots := by
  unfold State.closeCarried; split <;> rfl
@[simp] theorem State.dropMsg_slots (s : State) (a : Agent) (m : Msg) : (s.dropMsg a m).mach.slots = s.mach.slots := by
  unfold State.dropMsg; dsimp only; split <;> simp
@[simp] theorem State.closeEnd_slots (s : State) (c : Nat) (h : Handle) : (s.closeEnd c h).mach.slots = s.mach.slots := by
  unfold State.closeEnd
  split
  · rfl
  · rfl
  · exact foldl_leaves (π := (·.mach.slots)) (fun _ _ => by simp) ..

@[simp] theorem State.slotAt_dropLeases (s : State) (c l : Nat) (g : BitVec 16) (w : Nat → Bool) (c' l' : Nat) :
    (s.dropLeases c l g w).slotAt c' l' = s.slotAt c' l' := by
  unfold State.dropLeases; split <;> rfl

/-- A task that ends leaves its slot draining or Free; what is kept of the task stays. -/
theorem State.slotAt_endTask (s : State) (c l : Nat) :
    (((s.endTask c l).slotAt c l).phase = .draining ∨ ((s.endTask c l).slotAt c l).phase = .free) ∧
      ((s.endTask c l).slotAt c l).task = (s.slotAt c l).task := by
  have hend : ∃ sl : Slot, sl.task = (s.slotAt c l).task ∧ sl.phase = .draining ∧
      (s.endTask c l).slotAt c l = if sl.cntld = 0 then { sl with phase := .free } else sl := by
    have hclosed : (((s.slotAt c l).h.toList.foldl (fun s h => s.closeEnd c h) s).dropLeases c l (s.slotAt c l).gen
        (fun _ => true)).slotAt c l = s.slotAt c l := by
      rw [State.slotAt_dropLeases, State.slotAt, foldl_leaves (π := (·.mach.slots)) (fun _ _ => by simp)]
      rfl
    unfold State.endTask
    dsimp only
    generalize ((s.slotAt c l).h.toList.foldl (fun s h => s.closeEnd c h) s).dropLeases c l (s.slotAt c l).gen
      (fun _ => true) = u at hclosed ⊢
    rw [State.slotAt_settleExits, State.drain, State.slotAt_updSlotAt_self]
    refine ⟨{ s.slotAt c l with
      phase := .draining, h := Vector.replicate 16 Handle.none, async := [], held := none
      cntst := 0, cntcp := 0, cnttl := 0, stc := 0, stp := 0, stx := 0, nx := 0, nv := 0 }, rfl, rfl, ?_⟩
    split <;> simp [hclosed]
  obtain ⟨sl, htask, hph, h⟩ := hend
  rw [h]
  split
  · exact ⟨.inr rfl, htask⟩
  · exact ⟨.inl hph, htask⟩

/-- A record of a slot whose cause ends the task goes to lane 1. -/
theorem State.emit_slotRec_fatal (s u : State) (c l : Nat) {cause : Nat} (hf : fatalClass cause = true) (i : Nat) (a : Word) (b : Bool) :
    u.emit (s.slotRec c l cause i a b) = { u with eqx := { u.eqx with lane1 := u.eqx.lane1 ++ [s.slotRec c l cause i a b] } } := by
  rw [State.emit, if_pos (by rw [State.slotRec, if_pos hf])]

/-! ### The parts of the statement -/

/-- What the reply of the draw units makes of the slot that was kept: a unit is placed on it, or its core waits (R254, R264, R265). -/
def State.drawAnswered (s : State) (c l : Nat) : Option (Nat × Nat) → State
  | some (r, i) => s.place c l (s.unitEntry r i c l)
  | none => (s.updCore c (fun k => { k with idle := decide (k.drawnAt = s.mach.starts) })).updCluster (clusterOf (tileOf c))
      (fun k => { k with mayDonate := true })

theorem State.drawAnswered_none (s : State) (k : PairKey) (c l : Nat) :
    ((((s.popNet k).updCore c (fun q => { q with drawing := none })).drawAnswered c l none).coreAt c).idle =
        decide ((s.coreAt c).drawnAt = s.mach.starts) ∧
      ((((s.popNet k).updCore c (fun q => { q with drawing := none })).drawAnswered c l none).coreAt c).drawing = none := by
  have hcore (u : State) (n : Nat) (f) : (u.updCluster n f).coreAt c = u.coreAt c := rfl
  simp only [State.drawAnswered, hcore, State.coreAt_updCore_self]
  exact ⟨rfl, trivial⟩

theorem State.drawAnswered_some (s : State) (k : PairKey) (c l r i : Nat) :
    let t := ((s.popNet k).updCore c (fun q => { q with drawing := none })).drawAnswered c l (some (r, i))
    (t.coreAt c).drawing = none ∧ (t.slotAt c l).phase = .ready ∧ (t.slotAt c l).launchid = BitVec.ofNat 64 r ∧
      (t.slotAt c l).gridpt = gridPoint (s.levelAt r).grid i := by
  set u := (s.popNet k).updCore c (fun q => { q with drawing := none }) with hu
  obtain ⟨x, h, p, hslot, -⟩ := u.slotAt_place c l (u.unitEntry r i c l)
  have hcore := congrArg Core.drawing (u.coreAt_place c l (u.unitEntry r i c l))
  refine ⟨hcore.trans (by simp [Core.noLog, hu]), ?_⟩
  rw [State.drawAnswered, hslot]
  exact ⟨rfl, rfl, rfl⟩

theorem execDrawReply_heads {q : PairKey} {c l : Nat} {unit : Option (Nat × Nat)} (hs : s.stopped = false)
    (hh : heads s q (.core c) (.drawn l unit)) :
    exec (.drawReply q) s = .next (((s.popNet q).updCore c (fun k => { k with drawing := none })).drawAnswered c l unit) := by
  obtain ⟨hd, p, hp, hb⟩ := hh
  have hagent : q.dst.agent = .core c := by rw [hd]; rfl
  have hno : ¬(q.dst.peer ≠ s.part.peer ∨ s.stopped = true) := by rw [hd, hs]; simp [State.here]
  rw [exec_drawReply, execDrawReply, hagent, hp]
  dsimp only
  rw [hb]
  dsimp only
  rw [if_neg hno]
  rcases unit with _ | ⟨r, i⟩ <;> rfl

/-- An entry of class 2 or 3 that has waited long goes to the tail of the next higher class (R256). -/
theorem execRunQueueAgeing_head {c : Nat} {e : RunEntry} {rest : List RunEntry} (hq : (s.coreAt c).runq = e :: rest)
    (hcls : 2 ≤ e.cls) (hold : e.since + 65536 < s.mach.clock) :
    exec (.runQueueAgeing c) s = .next (s.updCore c (fun k => { k with
      runq := rest ++ [{ e with cls := e.cls - 1, since := s.mach.clock }] })) := by
  have haged : s.aged e = true := by simp [State.aged, hcls, hold]
  rw [exec_runQueueAgeing, execRunQueueAgeing, hq, takeFirst, if_pos haged]

section

variable {c l pa : Nat} {peer : Peer}

theorem execTaskMigration_asks (hs : s.stopped = false) (hw : s.wantsMove c l = some (peer, pa))
    (hnone : ∀ a ∈ s.mach.asks, a.core ≠ c ∨ a.sl ≠ l) : exec (.taskMigration c l) s = .next (s.askSlot c l peer pa) := by
  have hno : takeFirst (fun (a : Ask) => decide (a.core = c) && decide (a.sl = l)) s.mach.asks = none := by
    generalize s.mach.asks = asks at hnone
    induction asks with
    | nil => rfl
    | cons a t ih =>
      rw [takeFirst, if_neg (by have := hnone a List.mem_cons_self; simpa [imp_iff_not_or] using this),
        ih fun b hb => hnone b (List.mem_cons_of_mem _ hb)]
      rfl
  rw [exec_taskMigration, execTaskMigration, if_neg (by simp [hs]), hno, hw]

/-- What the answer of the page's module makes of the task: it leaves for the slot named, or its access is to proceed (R270). -/
def State.moveAnswered (s : State) (c l : Nat) (peer : Peer) : Option (Nat × Nat) → State
  | some to_ => s.shipTask c l peer to_
  | none => s.updSlotAt c l (fun sl => { sl with task := { sl.task with move := none, stay := some sl.pc } })

theorem execTaskMigration_answered (hs : s.stopped = false) (hw : s.wantsMove c l = some (peer, pa)) {pick : Option (Nat × Nat)}
    {rest : List Ask} (ha : s.mach.asks =
      { core := c, sl := l, gen := (s.slotAt c l).gen, peer := peer, pa := pa, answer := some pick } :: rest) :
    exec (.taskMigration c l) s = .next (State.moveAnswered { s with mach := { s.mach with asks := rest } } c l peer pick) := by
  rw [exec_taskMigration, execTaskMigration, if_neg (by simp [hs]), ha, takeFirst, if_pos (by simp), hw]
  dsimp only
  rw [if_neg (by simp)]
  cases pick <;> rfl

end

/-- A send end that its task takes along sends its notice; nothing else changes. -/
theorem CoreSide.carrySend (s : State) (c : Nat) (h : Handle) : CoreSide s (s.carrySend c h) := .post ..

/-- The task that leaves is on its way, with its registers as they are; its slot is Free (R270, R271). -/
theorem State.shipTask_leaves (s : State) (c l : Nat) (peer : Peer) (to_ : Nat × Nat) :
    CoreSide s (s.shipTask c l peer to_) ∧
      (s.shipTask c l peer to_).slotAt c l = { s.slotAt c l with phase := .free, h := Vector.replicate 16 Handle.none } ∧
      ∃ task levels, lastIs (s.shipTask c l peer to_)
        { src := s.here (.core c), dst := { peer := peer, agent := .core to_.1 }, cls := 1 }
        (.context { s.slotAt c l with h := (s.slotAt c l).h.map moved, task := task } levels) := by
  have hcarry := CoreSide.foldl (f := fun s h => s.carrySend c h) (fun u h => .carrySend u c h) s
    ((s.slotAt c l).h.toList.filter (fun h => h.kind = .send))
  have hslots : (((s.slotAt c l).h.toList.filter (fun h => h.kind = .send)).foldl (fun s h => s.carrySend c h) s).slotAt c l =
      s.slotAt c l := foldl_leaves (π := (·.slotAt c l)) (fun _ _ => by rfl) ..
  unfold State.shipTask
  dsimp only
  generalize ((s.slotAt c l).h.toList.filter (fun h => h.kind = .send)).foldl (fun s h => s.carrySend c h) s = u at hcarry hslots ⊢
  have hhere : s.here (.core c) = u.here (.core c) := by rw [State.here, ← hcarry.part]; rfl
  rw [hhere]
  exact ⟨hcarry.trans ((CoreSide.updSlotAt ..).trans (.post ..)), by simp [hslots], _, _, State.post_lastIs ..⟩

/-- A task from another module resumes where none of its levels is dead (R271). -/
theorem execMigrationArrival_lands {c l : Nat} {x : Slot} {rest : List Transit}
    (ht : s.mach.transits = { core := c, sl := l, slot := some x } :: rest) (hs : s.stopped = false)
    (hfree : (s.slotAt c l).phase = .free) (hc : isCompute c = true)
    (hdead : ∀ k ∈ s.chain 8 x.task.level, (s.levelAt k).dead = false) :
    ∃ t, exec (.migrationArrival c l) s = .next t ∧ sameMemory s t ∧ t.mach.transits = rest ∧ t.slotAt c l = { x with
      gen := (s.slotAt c l).gen + 1, phase := .ready, wake := false, cntld := 0, cntst := 0, cntcp := 0, cnttl := 0
      stc := 0, stp := 0, stx := 0, task := { x.task with wdStart := s.mach.clock - x.task.wdStart } } := by
  set sl : Slot := { x with
    gen := (s.slotAt c l).gen + 1, phase := .ready, wake := false, cntld := 0, cntst := 0, cntcp := 0, cnttl := 0
    stc := 0, stp := 0, stx := 0, task := { x.task with wdStart := s.mach.clock - x.task.wdStart } } with hsl
  set s1 : State := (State.setSlotAt { s with mach := { s.mach with transits := rest } } c l sl).updCore c
    (fun k => { k with oplog := k.oplog.filter (fun e => e.slot ≠ l) }) with hs1
  have hside := CoreSide.foldl (f := fun s h => (s.landEnd c h).1) (fun u h => .landEnd u c h) s1
    (sl.h.toList.filter (fun h => h.kind = .send))
  have hslots := foldl_leaves (π := (·.mach.slots)) (f := fun s h => (s.landEnd c h).1) (fun u h => u.landEnd_slots c h) s1
    (sl.h.toList.filter (fun h => h.kind = .send))
  set s2 := (sl.h.toList.filter (fun h => h.kind = .send)).foldl (fun s h => (s.landEnd c h).1) s1 with hs2
  have hlev : s2.mach.levels = s.mach.levels := hside.levels
  have hnone : (s2.chain 8 x.task.level).find? (fun k => (s2.levelAt k).dead) = none := by
    rw [State.chain_of_levels hlev]
    refine List.find?_eq_none.mpr fun k hk => ?_
    rw [State.levelAt, hlev]
    simpa [State.levelAt] using hdead k hk
  refine ⟨s2, ?_, fun a => (hside.sameMemory a).trans rfl, hside.transits, ?_⟩
  · rw [exec_migrationArrival, execMigrationArrival, ht, takeFirst, if_pos (by simp)]
    dsimp only
    rw [if_neg (by simp [hs, hfree, hc])]
    split
    · next k hk => cases hk.symm.trans hnone
    · rfl
  · rw [State.slotAt, hslots]
    exact State.slotAt_setSlotAt_self ..

/-- A task that has run for 2^WDLIMIT delivered cycles is killed, or, where it drains already, reported, once (R337). -/
theorem execWatchdogExpiry_kills {c l : Nat} (hs : s.stopped = false) (hl : l < slotCount c) (hph : (s.slotAt c l).phase ≠ .free)
    (hexp : (s.slotAt c l).task.expired = false) (hage : 2 ^ s.eqx.wdlog ≤ (s.slotAt c l).task.age s.mach.clock) :
    ∃ t, exec (.watchdogExpiry c l) s = .next t ∧ sameMemory s t ∧
      ((t.slotAt c l).phase = .draining ∨ (t.slotAt c l).phase = .free) ∧ (t.slotAt c l).task.expired = true ∧
      ∃ r, t.eqx.lane1 = s.eqx.lane1 ++ [r] ∧ r.cause = 0x186 ∧ r.slot = l ∧ r.unit = c := by
  set s1 := s.updSlotAt c l (fun sl => { sl with task := { sl.task with expired := true } }) with hs1
  have hslot : s1.slotAt c l = { s.slotAt c l with task := { (s.slotAt c l).task with expired := true } } := by
    rw [hs1, State.slotAt_updSlotAt_self]
  have hemit := s1.emit_slotRec_fatal s1 c l (cause := 0x186) (by decide) 0 0 true
  have hmem : sameMemory s (s1.emit (s1.slotRec c l 0x186 0 0 true)) := by rw [hemit]; exact fun _ => rfl
  have hlane : (s1.emit (s1.slotRec c l 0x186 0 0 true)).eqx.lane1 = s.eqx.lane1 ++ [s1.slotRec c l 0x186 0 0 true] := by
    rw [hemit]; rfl
  have hgo : exec (.watchdogExpiry c l) s = if (s.slotAt c l).phase = .draining
      then .next (s1.emit (s1.slotRec c l 0x186 0 0 true)) else .next (s1.kill c l 0x186 0 0) := by
    rw [exec_watchdogExpiry, execWatchdogExpiry]
    dsimp only
    rw [if_neg (by simp [hs]), if_pos hl, if_neg (by simp [hph, hexp, hage])]
  by_cases hd : (s.slotAt c l).phase = .draining
  · refine ⟨_, hgo.trans (if_pos hd), hmem, .inl ?_, ?_, _, hlane, rfl, rfl, rfl⟩
    · rw [State.slotAt_emit, hslot]
      exact hd
    · rw [State.slotAt_emit, hslot]
  · obtain ⟨hphase, htask⟩ := State.slotAt_endTask (s1.emit (s1.slotRec c l 0x186 0 0 true)) c l
    have hside := CoreSide.endTask (s1.emit (s1.slotRec c l 0x186 0 0 true)) c l
    refine ⟨_, hgo.trans (if_neg hd), fun a => (hside.sameMemory a).trans (hmem a), hphase, ?_, _,
      (congrArg (·.lane1) hside.eqx).trans hlane, rfl, rfl, rfl⟩
    rw [State.kill, htask, State.slotAt_emit, hslot]

/-- Settles O46. -/
theorem schedulersFillDrawAgeAndExpire : Obligations.schedulers_fill_draw_age_and_expire := by
  intro s c l k runs
  refine ⟨fun hfree hrun hs hlive hco => ⟨fun e rest hn => ?_, fun hn hc hd hi hleft => ?_⟩,
    fun die p rest r hs hq hr => ⟨fun hb => ?_, fun n hb => ?_⟩, fun q hs => ⟨fun hh => ?_, fun r i hh => ?_⟩,
    fun e rest hq hcls hold => ?_, fun hdue => ?_, fun a v hs _ hv hva hdie hmay hempty hmax hpos hopen => ?_,
    fun peer pa hs hw => ⟨fun hnone => ?_, fun to_ rest ha => ?_, fun rest ha => ?_⟩,
    fun x rest ht hs hfree hc hdead => execMigrationArrival_lands ht hs hfree hc hdead,
    fun hs hl hph hexp hage => execWatchdogExpiry_kills hs hl hph hexp hage, fun d hph hd => ?_⟩
  · exact ⟨_, execSlotFill_entry hfree hrun hs hlive hco hn, ((CoreSide.setCore ..).trans (.place ..)).sameMemory,
      (congrArg Core.runq (State.coreAt_place _ c l e)).trans (by simp [Core.noLog]), State.place_starts _ c l e⟩
  · exact ⟨_, execSlotFill_draws hfree hrun hs hlive hco hn hc hd hi hleft, fun _ => rfl, by simp, by simp, State.post_lastIs ..⟩
  · exact ⟨_, execDraw_gives hs hq hr hb, State.answersDraw_leaves ..⟩
  · exact ⟨_, execSteal_gives hs hq hr hb, State.answersDraw_leaves ..⟩
  · exact ⟨_, execDrawReply_heads hs hh, fun _ => rfl, State.drawAnswered_none ..⟩
  · exact ⟨_, execDrawReply_heads hs hh, ((CoreSide.popNet ..).trans ((CoreSide.updCore ..).trans (.place ..))).sameMemory,
      State.drawAnswered_some ..⟩
  · exact ⟨_, execRunQueueAgeing_head hq hcls hold, fun _ => rfl, by simp⟩
  · refine ⟨_, execLoadSummary_due hdue, fun a => foldl_leaves (π := (·.byte a)) (fun _ _ => by simp) .., rfl,
      fun cl hcl => ?_⟩
    exact (State.knowsLoad_foldl (s := s) (List.range 64) (.inr (List.mem_range.mpr hcl))).trans
      (foldl_leaves (π := (·.clusterLoad cl)) (fun _ _ => by simp) ..)
  · exact ⟨_, execWorkDonation_ships hs hv hva hdie hmay hempty hmax hpos hopen,
      fun b => (State.byte_updCluster ..).trans (s.ship_sameMemory a v 8 b), by rw [State.clusterAt_updCluster_self], rfl⟩
  · exact ⟨_, execTaskMigration_asks hs hw hnone, fun _ => rfl, rfl, rfl, State.post_lastIs ..⟩
  · obtain ⟨hside, hslot, task, levels, hlast⟩ := State.shipTask_leaves { s with mach := { s.mach with asks := rest } } c l peer to_
    exact ⟨_, execTaskMigration_answered hs hw ha, fun a => (hside.sameMemory a).trans rfl, hside.asks, by
      rw [State.moveAnswered, hslot]
      exact ⟨rfl, rfl, rfl, _, levels, hlast, rfl, rfl, rfl, rfl, rfl, rfl⟩⟩
  · refine ⟨_, execTaskMigration_answered hs hw ha, fun _ => rfl, rfl, ?_⟩
    rw [State.moveAnswered, State.slotAt_updSlotAt_self]
    rfl
  · rw [exec_wfiTimeout, execWfiTimeout, hph]
    exact if_neg (by omega)

end Sys2Proof.Machine
end

