-- ==== Sys2Proof/Proofs/Issue.lean ====
section
/-! PROOFS. O56: a core's turn to issue runs the instruction at its slot's PC (R42, R97, R98, R257, R329). -/

namespace Sys2Proof.Machine

open Sys2Proof Sys2Proof.Safety

variable {s u : State} {c l : Nat} {busy ls : List Nat}

/-- A listed turn of issue, with power, is its core's issue once the turn's cycles have passed (R42, R388). -/
theorem step_issue {n : Nat} {rest : List Turn} (hrails : s.eqx.rails = true)
    (hturns : s.turns = { cycles := n, act := .issue c busy } :: rest) :
    step s = ({ s with turns := rest }.pass n).issueCore c busy := by
  rw [step, State.advance, hturns]
  exact if_pos hrails

/-- A live core that has not issued in this cycle, held by no switch, tries its slots in their order (R257, R339). -/
theorem State.issueCore_tries (hstop : s.stopped = false) (hlive : s.part.coreLive c = true)
    (hnew : (s.coreAt c).issuedAt ≠ some s.now) (horder : s.order c busy = l :: ls) :
    s.issueCore c busy = s.tryIssue c (l :: ls) := by
  simp [State.issueCore, hstop, hlive, hnew, horder]

/-- With no asynchronous cause to take, the instruction whose word is fetched is executed (R97, R98, R329). -/
theorem State.boundary_word {w : IWord} {i : Instr}
    (hasync : ({ s with cur := (c, l) }).newTry.slot.asyncReady = false)
    (hfetch : ({ s with cur := (c, l) }).newTry.fetch c ({ s with cur := (c, l) }).newTry.slot.pc = (u, .ok w))
    (hdecode : decode w = .ok i) : s.boundary c l = exec i u := by
  simp [State.boundary, hasync, hfetch, State.runWord, hdecode]

/-- A fetch that fails takes its cause (R97). -/
theorem State.boundary_fetch_fails {cause ix : Nat} {a : Word}
    (hasync : ({ s with cur := (c, l) }).newTry.slot.asyncReady = false)
    (hfetch : ({ s with cur := (c, l) }).newTry.fetch c ({ s with cur := (c, l) }).newTry.slot.pc = (u, .bad cause ix a)) :
    s.boundary c l = u.trapIdx cause ix a := by
  simp [State.boundary, hasync, hfetch]

/-- What the first slot that is tried answers decides the cycle: an instruction that has not stalled has issued, one that stalls
leaves the cycle to the next slot, and any other answer is the core's (R26, R257). -/
theorem State.tryIssue_first {o : Out} (hb : s.boundary c l = o) :
    (∀ t, o = .next t → (t.slotAt c l).phase ≠ .stalled →
      s.tryIssue c (l :: ls) = .next (t.updCore c (fun k => { k with last := l, issuedAt := some s.now }))) ∧
    (∀ t, o = .next t → (t.slotAt c l).phase = .stalled → s.tryIssue c (l :: ls) = t.tryIssue c ls) ∧
    ((∀ t, o ≠ .next t) → s.tryIssue c (l :: ls) = o) := by
  refine ⟨fun t ho hne => ?_, fun t ho he => ?_, fun hno => ?_⟩
  · rw [State.tryIssue, hb, ho]
    exact if_neg hne
  · rw [State.tryIssue, hb, ho]
    exact if_pos he
  · rw [State.tryIssue, hb]
    cases o with
    | next t => exact absurd rfl (hno t)
    | fault f => rfl
    | refused r => rfl

/-- Settles O56: the turn is the core's, so `step` tries its slots, and the first one's boundary is the fetched word's or its cause's. -/
theorem aStepRunsTheDecodedInstruction : Obligations.a_step_runs_the_decoded_instruction := by
  intro s n c l busy ls rest hrails hturns p q goes hstop hlive hnew horder hasync
  have hstep : step s = p.tryIssue c (l :: ls) :=
    (step_issue hrails hturns).trans (State.issueCore_tries hstop hlive hnew horder)
  have hgoes : ∀ o, p.boundary c l = o → goes o := fun o hb => by
    dsimp only [goes]
    rw [hstep]
    exact State.tryIssue_first hb
  exact ⟨fun u w i hfetch hdecode _ => hgoes _ (State.boundary_word hasync hfetch hdecode),
    fun u cause ix a hfetch => hgoes _ (State.boundary_fetch_fails hasync hfetch)⟩

end Sys2Proof.Machine
end

