-- ==== Sys2Proof/Proofs/EngineAccess.lean ====
section
/-! PROOFS. O38: an engine starts a command, makes its accesses and counts their answers (R53, R61, R62, R74, R222, R233, R339). -/

namespace Sys2Proof.Machine

open Sys2Proof Sys2Proof.Safety

variable {s t : State} {e : Nat}

theorem exec_engineStart (e : Nat) (s : State) : exec (.engineStart e) s = execEngineStart e s := rfl
theorem exec_engineAccess (e : Nat) (a : EngAct) (s : State) : exec (.engineAccess e a) s = execEngineAccess e a s := rfl

/-! ### What a run put back at its engine changes -/

theorem State.engineAt_updEngine_other (s : State) {a b : Nat} (f : Engine → Engine) (h : b ≠ a) :
    (s.updEngine a f).engineAt b = s.engineAt b := by
  simp [State.engineAt, State.updEngine, AMap.get_set_other _ _ h]

@[simp] theorem State.engineAt_updTile (s : State) (n : Nat) (f : Tile → Tile) (e : Nat) :
    (s.updTile n f).engineAt e = s.engineAt e := rfl
@[simp] theorem State.engineAt_post (s : State) (a : Agent) (d n b i g) (e : Nat) :
    (s.post a d n b i g).engineAt e = s.engineAt e := rfl
@[simp] theorem State.engineAt_popNet (s : State) (k : PairKey) (e : Nat) : (s.popNet k).engineAt e = s.engineAt e := rfl

/-- Nothing but tiles and engines differs: all that a run put back at its engine can change (R229, R236). -/
def TileSide (s t : State) : Prop :=
  { t with mach := { t.mach with tiles := s.mach.tiles, engines := s.mach.engines } } = s

theorem TileSide.trans {u : State} (h : TileSide s t) (k : TileSide t u) : TileSide s u := by
  unfold TileSide at *
  rw [← k] at h
  exact h

theorem TileSide.net (h : TileSide s t) : t.mach.net = s.mach.net := congrArg (·.mach.net) h

theorem TileSide.sameMemory (h : TileSide s t) : sameMemory s t := fun a => congrArg (·.byte a) h

theorem TileSide.updEngine (s : State) (e : Nat) (f : Engine → Engine) : TileSide s (s.updEngine e f) := rfl

theorem TileSide.dropLeasesOf (s : State) (c l : Nat) (g : BitVec 16) (ws : List Nat) : TileSide s (s.dropLeasesOf c l g ws) := by
  unfold State.dropLeasesOf
  split <;> rfl

theorem TileSide.memberDone (s : State) (key : Nat × Nat × Nat × Nat) (code : Nat) : TileSide s (s.memberDone key code) := rfl

@[simp] theorem State.engineAt_dropLeasesOf (s : State) (c l : Nat) (g : BitVec 16) (ws : List Nat) (e : Nat) :
    (s.dropLeasesOf c l g ws).engineAt e = s.engineAt e := by
  unfold State.dropLeasesOf
  split <;> rfl

/-- A follow-on member that is done changes the groups that wait or have failed alone (R229). -/
theorem State.engineAt_memberDone (s : State) (key : Nat × Nat × Nat × Nat) (code e : Nat) :
    ∃ o f, (s.memberDone key code).engineAt e = { s.engineAt e with open_ := o, failed := f } := by
  by_cases h : e = ownEngine key.1 1
  · subst h
    exact ⟨_, _, State.engineAt_updEngine_self ..⟩
  · exact ⟨_, _, State.engineAt_updEngine_other s _ h⟩

/-- A run as its engine keeps it when it is put back: some leases of its command may be gone, and its place in a follow-on group
(R229, R236). -/
def Run.keptAs (r : Run) (leases : List Nat) (follow : Nat) : Run :=
  { r with cmd := { r.cmd with leases := leases, follow := follow } }

/-- A run is put back into the place of those of its number, after leases have gone and a follow-on group may have been told. -/
theorem State.putRun_eq (s : State) (e : Nat) (r : Run) :
    ∃ u lv fo, TileSide s u ∧ (∃ o f, u.engineAt e = { s.engineAt e with open_ := o, failed := f }) ∧
      s.putRun e r = u.updEngine e (fun k => { k with
        runs := k.runs.map (fun x => if x.id = r.id then r.keptAs lv fo else x) }) := by
  refine ⟨_, _, _, ?_, ?_, rfl⟩
  · split
    · exact (TileSide.dropLeasesOf ..).trans (.memberDone ..)
    · exact .dropLeasesOf ..
  · split
    · obtain ⟨o, f, h⟩ := State.engineAt_memberDone (s.dropLeasesOf r.cmd.core r.cmd.slot r.cmd.gen _) (followKey r.cmd) r.code e
      exact ⟨o, f, by rw [h, State.engineAt_dropLeasesOf]⟩
    · exact ⟨_, _, State.engineAt_dropLeasesOf ..⟩

theorem TileSide.putRun (s : State) (e : Nat) (r : Run) : TileSide s (s.putRun e r) := by
  obtain ⟨u, lv, fo, hside, -, heq⟩ := s.putRun_eq e r
  rw [heq]
  exact hside.trans (.updEngine ..)

/-- A run put back stands in the place of those of its number, and the rest of the engine but for its follow-on groups stays. -/
theorem State.engineAt_putRun (s : State) (e : Nat) (r : Run) :
    ∃ lv fo o f, (s.putRun e r).engineAt e = { s.engineAt e with
      runs := (s.engineAt e).runs.map (fun x => if x.id = r.id then r.keptAs lv fo else x), open_ := o, failed := f } := by
  obtain ⟨u, lv, fo, -, ⟨o, f, hu⟩, heq⟩ := s.putRun_eq e r
  exact ⟨lv, fo, o, f, by rw [heq, State.engineAt_updEngine_self, hu]⟩

/-- The first run of a number is the one that is put in the place of those of that number. -/
theorem find?_run_replaced {l : List Run} {n : Nat} {a b : Run} (h : l.find? (fun x => x.id = n) = some a) (hb : b.id = n) :
    (l.map (fun x => if x.id = n then b else x)).find? (fun x => x.id = n) = some b := by
  induction l with
  | nil => cases h
  | cons x r ih =>
    by_cases hx : x.id = n
    · simp [hx, hb]
    · simpa [hx] using ih (by simpa [hx] using h)

/-- A run that its engine knows is found as it was put back. -/
theorem State.runAt_putRun {id : Nat} {r q : Run} (hid : r.id = id) (h : s.runAt e id = some q) :
    ∃ lv fo, (s.putRun e r).runAt e id = some (r.keptAs lv fo) := by
  subst hid
  obtain ⟨lv, fo, o, f, he⟩ := s.engineAt_putRun e r
  refine ⟨lv, fo, ?_⟩
  rw [State.runAt, he]
  exact find?_run_replaced h rfl

theorem State.runAt_id {id : Nat} {r : Run} (h : s.runAt e id = some r) : r.id = id := by
  simpa using List.find?_some h

/-! ### Starting -/

/-- A run of a command of which nothing has been issued or answered. -/
def Run.unissued (id : Nat) (c : Cmd) (r : Run) : Prop := ∃ rs ws more, r = Run.new id c rs ws more

theorem Run.unissued_new (id : Nat) (c : Cmd) (rs : List EAcc) (ws : List EWrite) (more : Bool) :
    (Run.new id c rs ws more).unissued id c := ⟨rs, ws, more, rfl⟩

/-- A command's plan is such a run, whatever the operation (R223 to R231). -/
theorem State.planCmd_unissued (s : State) (e id : Nat) (c : Cmd) : (s.planCmd e id c).unissued id c := by
  unfold State.planCmd
  dsimp only
  iterate 11 refine iteInduction (motive := Run.unissued id c) (fun _ => Run.unissued_new ..) fun _ => ?_
  exact Run.unissued_new ..

/-- The state in which an engine has taken a command from the head of its queue, the hold moving up (R222). -/
def State.headTaken (s : State) (e : Nat) (rest : List Cmd) (r : Run) : State :=
  s.updEngine e (fun k => ({ k with queue := rest, runs := k.runs ++ [r], next := k.next + 1 }).refill)

/-- The head of an engine's queue starts, with no switch and nothing else in its way (R53, R118, R222, R339). -/
theorem execEngineStart_head {c : Cmd} {rest : List Cmd} (hs : s.stopped = false) (hq : (s.engineAt e).queue = c :: rest)
    (hm : c.marker = false) (hw : c.waits = false) (hone : isMatrix e = true → (s.engineAt e).runs = []) :
    exec (.engineStart e) s = .next ((s.headTaken e rest (s.planCmd e (s.engineAt e).next c)).putRun e
      (s.planCmd e (s.engineAt e).next c)) := by
  have hfree : ¬(isMatrix e = true ∧ (s.engineAt e).runs ≠ []) := fun h => h.2 (hone h.1)
  rw [exec_engineStart, execEngineStart, hq]
  exact if_neg (by simpa [hs, hm, hw] using hfree)

/-- What a started command leaves: its run is the last, with nothing issued, and the hold has moved up (R222). -/
theorem State.headTaken_putRun_leaves (s : State) (e : Nat) (rest : List Cmd) (c : Cmd) :
    let k := s.engineAt e
    let r := s.planCmd e k.next c
    let t := (s.headTaken e rest r).putRun e r
    ∃ lv fo, (t.engineAt e).runs.getLast? = some (r.keptAs lv fo) ∧
      (t.engineAt e).queue = rest ++ k.hold.take (16 - rest.length) ∧ (t.engineAt e).hold = k.hold.drop (16 - rest.length) ∧
      (t.engineAt e).next = k.next + 1 := by
  intro k r t
  obtain ⟨lv, fo, o, f, he⟩ := (s.headTaken e rest r).engineAt_putRun e r
  have ht : (s.headTaken e rest r).engineAt e = ({ k with queue := rest, runs := k.runs ++ [r], next := k.next + 1 }).refill :=
    State.engineAt_updEngine_self ..
  rw [ht] at he
  refine ⟨lv, fo, ?_, ?_, ?_, ?_⟩
  · rw [he]; simp [Engine.refill]
  all_goals rw [he]; rfl

/-! ### Accesses -/

/-- The next read of a run that goes on is sent to its home and counted (R53, R61, R74). -/
theorem execEngineAccess_read {id : Nat} {r : Run} {a : EAcc} (hr : s.runAt e id = some r) (hst : r.status = 0)
    (hgo : s.goesOn e r = true) (ha : r.reads[r.issued]? = some a) (hneeds : ∀ n ∈ a.needs, (AMap.get r.got n).isSome = true)
    (hhold : (s.engineAt e).holding = true → a.peer = s.part.peer) (hopen : s.closedRegion a = false) :
    exec (.engineAccess e (.read id)) s =
      .next ((s.post (.engine e) (s.homePlace a.peer a.pa) 4 (.load a.pa a.len (.eng r.id r.issued)) 0 0).putRun e
        { r with issued := r.issued + 1 }) := by
  have hscales : ∀ n ∈ a.needs, AMap.get r.got n ≠ none := fun n hn => Option.isSome_iff_ne_none.mp (hneeds n hn)
  rw [exec_engineAccess, execEngineAccess, hr]
  simp only [State.engineRead, ha]
  rw [if_neg (by simpa [hst, hgo] using ⟨hscales, hhold⟩), if_neg (by simp [hopen])]

/-- The next write of a run that goes on, its bytes known, is sent to its home and counted (R53, R61). -/
theorem execEngineAccess_write {id : Nat} {r : Run} {w : EWrite} (hr : s.runAt e id = some r) (hst : r.status = 0)
    (hgo : s.goesOn e r = true) (hw : r.writes[r.sent]? = some w) (hline : w.line = none) (hsrc : w.src = [])
    (hclears : w.clears = false) (hhold : (s.engineAt e).holding = true → w.peer = s.part.peer) :
    exec (.engineAccess e (.write id)) s =
      .next ((s.post (.engine e) (s.homePlace w.peer w.pa) 4
        (.store .st w.pa w.len (ofVbytes w.bytes) (some (accessNo r.id r.sent))) 0 0).putRun e { r with sent := r.sent + 1 }) := by
  rw [exec_engineAccess, execEngineAccess, hr]
  simp only [State.engineWrite, hw]
  rw [if_neg (by simpa [hst, hgo, hsrc] using hhold)]
  simp [hline, hsrc, hclears]

/-- A value's reply at an engine leaves its queue, and its run takes the bytes (R53, R233). -/
theorem execEngineAccess_value {id ix : Nat} {r : Run} {d : VWord} {q : PairKey} (hr : s.runAt e id = some r)
    (hh : heads s q (.engine e) (.value (.eng id ix) d none)) :
    ∃ bs, exec (.engineAccess e (.reply q)) s = .next ((s.popNet q).putRun e (r.gotRead ix bs 0 0)) := by
  obtain ⟨hdst, p, hp, hb⟩ := hh
  have hreply : s.engineReply e q = .next ((s.popNet q).putRun e (r.gotRead ix
      ((vbytes d).take (match r.reads[ix]? with | some a => a.len | none => 0)) 0 0)) := by
    simp only [State.engineReply, hp, hb, hr]
    rfl
  exact ⟨_, (if_pos hdst).trans hreply⟩

theorem Run.expand_counts (r : Run) : r.expand.back = r.back ∧ r.expand.id = r.id :=
  iteInduction (motive := fun q : Run => q.back = r.back ∧ q.id = r.id) (fun _ => ⟨rfl, rfl⟩) fun _ => ⟨rfl, rfl⟩

/-- Bytes that a read brings are counted once, whether or not more of the run follows on them. -/
theorem Run.gotRead_counts (r : Run) (ix : Nat) (bs : List Byte) (status reason : Nat) :
    (r.gotRead ix bs status reason).back = r.back + 1 ∧ (r.gotRead ix bs status reason).id = r.id :=
  iteInduction (motive := fun q : Run => q.back = r.back + 1 ∧ q.id = r.id) (fun _ => Run.expand_counts _) fun _ => ⟨rfl, rfl⟩

/-- Settles O38: one equation of the engine's step per kind of access, and what putting the run back leaves. -/
theorem enginesStartReadWriteAndCollectReplies : Obligations.engines_start_read_write_and_collect_replies := by
  intro s e k
  refine ⟨fun c rest hs hq hm hw hone => ?_, fun id r hr hst hgo => ⟨fun a ha hneeds hhold hopen => ?_,
    fun w hw hline hsrc hclears hhold => ?_, fun q ix d hh => ?_⟩⟩
  · obtain ⟨lv, fo, hlast, hqueue, hhold, hnext⟩ := s.headTaken_putRun_leaves e rest c
    obtain ⟨rs, ws, more, hnew⟩ := s.planCmd_unissued e k.next c
    refine ⟨_, _, execEngineStart_head hs hq hm hw hone, hlast, ?_, ?_, ?_, ?_, ?_, ?_, ?_, hqueue, hhold, hnext,
      (TileSide.trans (.updEngine ..) (.putRun ..)).sameMemory⟩
    all_goals rw [hnew]; rfl
  · have hid := State.runAt_id hr
    obtain ⟨lv, fo, hrun⟩ := State.runAt_putRun (r := { r with issued := r.issued + 1 })
      (s := s.post (.engine e) (s.homePlace a.peer a.pa) 4 (.load a.pa a.len (.eng r.id r.issued)) 0 0) hid hr
    refine ⟨_, _, execEngineAccess_read hr hst hgo ha hneeds hhold hopen, hrun, rfl, rfl, (TileSide.putRun ..).sameMemory, ?_⟩
    rw [lastIs, (TileSide.putRun ..).net]
    exact State.post_lastIs ..
  · have hid := State.runAt_id hr
    obtain ⟨lv, fo, hrun⟩ := State.runAt_putRun (r := { r with sent := r.sent + 1 })
      (s := s.post (.engine e) (s.homePlace w.peer w.pa) 4
        (.store .st w.pa w.len (ofVbytes w.bytes) (some (accessNo r.id r.sent))) 0 0) hid hr
    refine ⟨_, _, execEngineAccess_write hr hst hgo hw hline hsrc hclears hhold, hrun, rfl, rfl,
      (TileSide.putRun ..).sameMemory, ?_⟩
    rw [lastIs, (TileSide.putRun ..).net]
    exact State.post_lastIs ..
  · obtain ⟨bs, hx⟩ := execEngineAccess_value hr hh
    obtain ⟨hback, hid⟩ := r.gotRead_counts ix bs 0 0
    obtain ⟨lv, fo, hrun⟩ := State.runAt_putRun (s := s.popNet q) (hid.trans (State.runAt_id hr)) hr
    exact ⟨_, _, hx, hrun, hback, (TileSide.putRun ..).net, (TileSide.putRun ..).sameMemory⟩

end Sys2Proof.Machine
end

