-- ==== Sys2Proof/Proofs/SentPackets.lean ====
section
/-! PROOFS. What a row of packets sent one after the other leaves: the last of each pair queue, and all but the pair queues as it
was (R43, R61). -/

namespace Sys2Proof.Machine

open Sys2Proof Sys2Proof.Safety

variable {s t u : State} {α : Type}

/-! ### Nothing but pair queues -/

/-- Nothing but pair queues differs. -/
def NetSide (s t : State) : Prop := { t with mach := { t.mach with net := s.mach.net } } = s

theorem NetSide.refl (s : State) : NetSide s s := rfl

theorem NetSide.trans (h : NetSide s t) (k : NetSide t u) : NetSide s u := by
  unfold NetSide at *
  rw [← k] at h
  exact h

theorem NetSide.append (s : State) (k : PairKey) (p : Packet) : NetSide s (s.append k p) := rfl
theorem NetSide.post (s : State) (a : Agent) (d n b i g) : NetSide s (s.post a d n b i g) := rfl
theorem NetSide.popNet (s : State) (k : PairKey) : NetSide s (s.popNet k) := rfl
theorem NetSide.tellEquinox (s : State) (b : Body) (p : Peer) : NetSide s (s.tellEquinox b p) := rfl

theorem NetSide.foldl {f : State → α → State} (hf : ∀ u a, NetSide u (f u a)) (s : State) (l : List α) :
    NetSide s (l.foldl f s) := by
  induction l generalizing s with
  | nil => exact .refl s
  | cons a r ih => exact (hf s a).trans (ih _)

theorem NetSide.part (h : NetSide s t) : t.part = s.part := congrArg (·.part) h
theorem NetSide.job (h : NetSide s t) : t.job = s.job := congrArg (·.job) h
theorem NetSide.links (h : NetSide s t) : t.links = s.links := congrArg (·.links) h
theorem NetSide.peers (h : NetSide s t) : t.peers = s.peers := congrArg (·.peers) h
theorem NetSide.others (h : NetSide s t) : t.others = s.others := congrArg (·.others) h
theorem NetSide.coreAt (h : NetSide s t) (c : Nat) : t.coreAt c = s.coreAt c := congrArg (·.coreAt c) h
theorem NetSide.engineAt (h : NetSide s t) (e : Nat) : t.engineAt e = s.engineAt e := congrArg (·.engineAt e) h
theorem NetSide.sameMemory (h : NetSide s t) : sameMemory s t := fun a => congrArg (·.byte a) h

/-! ### The last packet of a pair queue -/

theorem State.append_lastIs (s : State) (k : PairKey) (p : Packet) : lastIs (s.append k p) k p.body := by
  simp [lastIs, State.append, netGet_append]

/-- A packet that goes onto another pair queue, or has the same body, leaves what is last. -/
theorem State.append_lastIs_of {k j : PairKey} {p : Packet} {b : Body} (h : lastIs s k b) (hj : k = j → p.body = b) :
    lastIs (s.append j p) k b := by
  by_cases e : k = j
  · subst e
    exact hj rfl ▸ s.append_lastIs k p
  · rwa [lastIs, State.append, netGet_netSet_other _ _ e]

theorem State.here_congr (h : u.part = s.part) (a : Agent) : u.here a = s.here a := by rw [State.here, State.here, h]

/-- A packet that is posted is appended to its pair queue. -/
theorem State.post_appends (s : State) (a : Agent) (d : Place) (n : Nat) (b : Body) (i : Nat) (g : BitVec 16) :
    ∃ p : Packet, p.body = b ∧ s.post a d n b i g = s.append { src := s.here a, dst := d, cls := n } p := ⟨_, rfl, rfl⟩

/-- Packets appended one after the other, each with the same body for its pair queue: it is last there, and what is last on the
other pair queues stays. -/
theorem State.foldl_lastIs {f : State → α → State} {key : α → PairKey} {b : Body}
    (hf : ∀ u a, u.part = s.part → ∃ p : Packet, p.body = b ∧ f u a = u.append (key a) p) {k : PairKey} {d : Body}
    (l : List α) (h : (∃ a ∈ l, key a = k ∧ b = d) ∨ lastIs s k d ∧ ∀ a ∈ l, key a = k → b = d) :
    lastIs (l.foldl f s) k d := by
  induction l generalizing s with
  | nil => simpa using h
  | cons a r ih =>
    obtain ⟨p, hp, ha⟩ := hf s a rfl
    rw [List.foldl_cons, ha]
    refine ih (s := s.append (key a) p) hf ?_
    rcases h with ⟨x, hx, hk, hb⟩ | ⟨hlast, hkeep⟩
    · by_cases hr : ∃ y ∈ r, key y = k ∧ b = d
      · exact .inl hr
      · rcases List.mem_cons.mp hx with rfl | hx
        · exact .inr ⟨by rw [← hk, ← hb, ← hp]; exact s.append_lastIs .., fun _ _ _ => hb⟩
        · exact absurd ⟨x, hx, hk, hb⟩ hr
    · exact .inr ⟨State.append_lastIs_of hlast fun e => hp.trans (hkeep a List.mem_cons_self e.symm),
        fun y hy => hkeep y (List.mem_cons_of_mem _ hy)⟩

end Sys2Proof.Machine
end

