-- ==== Sys2Proof/Proofs/Circuits.lean ====
section
/-! PROOFS. O53: a circ request holds cross-package traffic, and the plan then changes or is refused (R61, R246, R247, R358, R367,
R368). -/

namespace Sys2Proof.Machine

open Sys2Proof Sys2Proof.Safety

variable {s t u : State} {c : CircRun} {k : PairKey} {p : Packet}

theorem exec_circRequest (s : State) : exec .circRequest s = execCircRequest s := rfl
theorem exec_holdNotice (k : PairKey) (s : State) : exec (.holdNotice k) s = execHoldNotice k s := rfl
theorem exec_holdAck (s : State) : exec .holdAck s = execHoldAck s := rfl
theorem exec_planLit (s : State) : exec .planLit s = execPlanLit s := rfl
theorem exec_circTimeout (s : State) : exec .circTimeout s = execCircTimeout s := rfl
theorem exec_switchRefusedPlan (s : State) : exec .switchRefusedPlan s = execSwitchRefusedPlan s := rfl
theorem exec_deliver (k : PairKey) (s : State) : exec (.deliver k) s = execDeliver k s := rfl

/-! ### The job in hand, and the other modules -/

@[simp] theorem State.job_updJob (s : State) (f : Job → Job) : (s.updJob f).job = f s.job := s.jobAt_updJobAt_self ..

@[simp] theorem State.job_endHold (s : State) : s.endHold.job = s.job := rfl
@[simp] theorem State.job_lightPlan (s : State) (gs : List Group) : (s.lightPlan gs).job = s.job := rfl
@[simp] theorem State.job_restorePlan (s : State) (c : CircRun) : (s.restorePlan c).job = s.job := by
  unfold State.restorePlan; split <;> rfl

/-- The link bit of a peer's entry is none of the bits that tell whether it is live (R367). -/
theorem setOpt_live (on : Bool) (v : BitVec 8) : (setOpt on v).toNat / 32 = v.toNat / 32 := by
  revert v
  cases on <;> decide

/-- A plan that is lit changes no module's place in the partition. -/
theorem State.others_lightPlan (s : State) (gs : List Group) : (s.lightPlan gs).others = s.others := by
  simp only [State.others, State.lightPlan, List.filter_map, List.map_map, Function.comp_def, setOpt_live]

theorem State.others_restorePlan (s : State) (c : CircRun) : (s.restorePlan c).others = s.others := by
  unfold State.restorePlan; split; exacts [s.others_lightPlan _, rfl]

theorem State.part_restorePlan (s : State) (c : CircRun) : (s.restorePlan c).part = s.part := by
  unfold State.restorePlan; split <;> rfl

/-- What the end of a circuit change takes from the state in which it was: the module's number, the other modules and `TGEN`. -/
structure SameModules (s u : State) : Prop where
  part : u.part = s.part
  others : u.others = s.others
  tgen : u.job.tgen = s.job.tgen

theorem NetSide.sameModules (h : NetSide s u) : SameModules s u := ⟨h.part, h.others, by rw [h.job]⟩

theorem SameModules.trans (h : SameModules s t) (k : SameModules t u) : SameModules s u :=
  ⟨k.part.trans h.part, k.others.trans h.others, k.tgen.trans h.tgen⟩

/-- A change of the request in hand alone. -/
theorem SameModules.updJob (s : State) {f : Job → Job} (hf : (f s.job).tgen = s.job.tgen) : SameModules s (s.updJob f) :=
  ⟨rfl, rfl, by rw [State.job_updJob, hf]⟩

theorem SameModules.restorePlan (s : State) (c : CircRun) : SameModules s (s.restorePlan c) :=
  ⟨s.part_restorePlan c, s.others_restorePlan c, by rw [State.job_restorePlan]⟩

theorem SameModules.tryPlan (s : State) (c : CircRun) (gs : List Group) : SameModules s (s.tryPlan c gs) :=
  ⟨rfl, s.others_lightPlan gs, by rw [State.tryPlan, State.job_updJob]; rfl⟩

/-! ### The hold ends (R61) -/

/-- No core and no engine holds what would leave for another package. -/
def noHold (t : State) : Prop := (∀ c, (t.coreAt c).hold = false) ∧ ∀ e, (t.engineAt e).holding = false

theorem AMap.get_map {α : Type} (f : α → α) (m : AMap α) (n : Nat) :
    AMap.get (m.map (fun e => (e.1, f e.2))) n = (AMap.get m n).map f := by
  induction m with
  | nil => rfl
  | cons e r ih =>
    obtain ⟨k, v⟩ := e
    simp only [List.map_cons, AMap.get]
    split
    · rfl
    · exact ih

theorem State.endHold_noHold (s : State) : noHold s.endHold := by
  refine ⟨fun c => ?_, fun e => ?_⟩
  · rw [State.coreAt, State.endHold]
    dsimp only
    rw [AMap.get_map (fun k : Core => { k with hold := false })]
    cases AMap.get s.mach.cores c <;> rfl
  · rw [State.engineAt, State.endHold]
    dsimp only
    rw [AMap.get_map (fun k : Engine => { k with holding := false })]
    cases AMap.get s.mach.engines e <;> rfl

theorem NetSide.noHold (h : NetSide s t) (hs : noHold s) : noHold t :=
  ⟨fun c => by rw [h.coreAt]; exact hs.1 c, fun e => by rw [h.engineAt]; exact hs.2 e⟩

/-! ### What Equinox sends (R246, R247) -/

/-- Equinox of this module has told that of another one. -/
def told (s t : State) (p : Peer) (b : Body) : Prop :=
  lastIs t { src := s.here .equinox, dst := { peer := p, agent := .equinox }, cls := 0 } b

/-- The completion of a circ request has gone to its core (Table 12-3). -/
def completed (s t : State) (r : CircReq) (code : Nat) : Prop :=
  lastIs t { src := s.here .equinox, dst := { peer := r.peer, agent := .core r.core }, cls := 1 }
    (.completion r.treply (BitVec.ofNat 64 (t.job.tgen.toNat * 2 ^ 16 + code)) 0 0 false false r.level 0 [])

/-- Every other module is told the same. -/
theorem State.tellOthers_told (hp : u.part = s.part) {l : List Peer} {q : Peer} (hq : q ∈ l) (b : Body) :
    told s (l.foldl (fun s p => s.tellEquinox b p) u) q b :=
  State.foldl_lastIs (key := fun p => { src := s.here .equinox, dst := { peer := p, agent := .equinox }, cls := 0 })
    (fun v _ hv => State.here_congr (hv.trans hp) .equinox ▸ v.post_appends ..) l (.inl ⟨q, hq, rfl, rfl⟩)

theorem NetSide.tellOthers (u : State) (l : List Peer) (b : Body) : NetSide u (l.foldl (fun s p => s.tellEquinox b p) u) :=
  .foldl (fun v a => .tellEquinox v b a) u l

/-- What is last on a pair queue to a party other than an Equinox stays so. -/
theorem State.tellOthers_lastIs {d b : Body} (h : lastIs u k d) (hk : k.dst.agent ≠ .equinox) (l : List Peer) :
    lastIs (l.foldl (fun s p => s.tellEquinox b p) u) k d :=
  State.foldl_lastIs (b := b) (key := fun p => { src := u.here .equinox, dst := { peer := p, agent := .equinox }, cls := 0 })
    (fun v _ hv => State.here_congr hv .equinox ▸ v.post_appends ..) l (.inr ⟨h, fun _ _ e => absurd (e ▸ rfl) hk⟩)

theorem NetSide.circDone (s : State) (r : CircReq) (code : Nat) : NetSide s (s.circDone r code) := by
  unfold State.circDone; split <;> rfl

/-- A request completes, but for code 0 under ERRONLY (R247). -/
theorem State.circDone_completed (hp : u.part = s.part) {r : CircReq} {code : Nat}
    (h : ¬(code = 0 ∧ r.treply.getLsbD 0 = true)) : completed s (u.circDone r code) r code := by
  rw [completed, (NetSide.circDone u r code).job, State.circDone, if_neg h, ← State.here_congr hp]
  exact State.post_lastIs ..

/-! ### A plan refused, and a plan in force (R246, R368) -/

/-- A refused plan: the hold has ended, `TGEN` is as it was, the request has completed with 0x146 and the other modules are told
(R368). -/
def planRefused (s t : State) (r : CircReq) : Prop :=
  t.job.circ = none ∧ t.job.tgen = s.job.tgen ∧ noHold t ∧ completed s t r 0x146 ∧ ∀ p ∈ s.others, told s t p (.circEnd false)

/-- A plan in force: `TGEN` is one higher and the hold has ended; the Equinox that serves completes the request or waits for the other
modules, and another one answers it (R246). -/
def planInForce (s t : State) (c : CircRun) : Prop :=
  t.job.tgen = s.job.tgen + 1 ∧ t.job.plan = some c.req.plan ∧ noHold t ∧
    (c.server = s.part.peer → s.others = [] → t.job.circ = none ∧ (c.req.treply.getLsbD 0 = false → completed s t c.req 0)) ∧
    (c.server = s.part.peer → s.others ≠ [] → t.job.circ = some { c with raised := true, far := s.others } ∧
      ∀ p ∈ s.others, told s t p (.circEnd true)) ∧
    (c.server ≠ s.part.peer → t.job.circ = none ∧ told s t c.server .circRaised)

/-- The state in which a refused plan's circuits are restored and the hold has ended. -/
def State.unplanned (u : State) (c : CircRun) : State := ((u.restorePlan c).updJob (fun j => { j with circ := none })).endHold

theorem State.refusePlan_eq (u : State) (c : CircRun) :
    u.refusePlan c = u.others.foldl (fun s p => s.tellEquinox (.circEnd false) p) ((u.unplanned c).circDone c.req 0x146) := rfl

theorem NetSide.refusePlan (u : State) (c : CircRun) : NetSide (u.unplanned c) (u.refusePlan c) :=
  (NetSide.circDone ..).trans (.tellOthers ..)

theorem State.job_unplanned (u : State) (c : CircRun) : (u.unplanned c).job = { u.job with circ := none } := by
  rw [State.unplanned, State.job_endHold, State.job_updJob, State.job_restorePlan]

theorem State.refusePlan_links (u : State) (c : CircRun) : (u.refusePlan c).links = (u.restorePlan c).links :=
  (NetSide.refusePlan u c).links

theorem State.refusePlan_peers (u : State) (c : CircRun) : (u.refusePlan c).peers = (u.restorePlan c).peers :=
  (NetSide.refusePlan u c).peers

theorem State.refusePlan_refuses (h : SameModules s u) {r : CircReq} (hr : c.req = r) : planRefused s (u.refusePlan c) r := by
  subst hr
  have hnet := NetSide.refusePlan u c
  have hpart : (u.unplanned c).part = s.part := (u.part_restorePlan c).trans h.part
  have hdone : completed s ((u.unplanned c).circDone c.req 0x146) c.req 0x146 := State.circDone_completed hpart (by simp)
  refine ⟨by rw [hnet.job, State.job_unplanned], by rw [hnet.job, State.job_unplanned]; exact h.tgen,
    hnet.noHold (State.endHold_noHold _), ?_, fun p hp => ?_⟩
  · rw [completed, hnet.job, ← (NetSide.circDone (u.unplanned c) c.req 0x146).job]
    exact State.tellOthers_lastIs hdone nofun _
  · rw [State.refusePlan_eq, h.others]
    exact State.tellOthers_told ((NetSide.circDone ..).part.trans hpart) hp _

/-- A plan that is dark when it is refused leaves the links as they are. -/
theorem State.refusePlan_dark (h : SameModules s u) (hl : u.links = s.links) (hp : u.peers = s.peers) {r : CircReq}
    (hr : c.req = r) (hdark : c.lit = false) :
    planRefused s (u.refusePlan c) r ∧ (u.refusePlan c).links = s.links ∧ (u.refusePlan c).peers = s.peers :=
  ⟨State.refusePlan_refuses h hr, by rw [State.refusePlan_links, State.restorePlan_of_dark u hdark, hl],
    by rw [State.refusePlan_peers, State.restorePlan_of_dark u hdark, hp]⟩

/-- The state in which a plan is in force and the hold has ended. -/
def State.planned (u : State) (c : CircRun) : State :=
  (u.updJob (fun j => { j with plan := some c.req.plan, tgen := j.tgen + 1 })).endHold

theorem State.job_planned (u : State) (c : CircRun) :
    (u.planned c).job = { u.job with plan := some c.req.plan, tgen := u.job.tgen + 1 } := by
  rw [State.planned, State.job_endHold, State.job_updJob]

theorem State.planned_noHold (u : State) (c : CircRun) (f : Job → Job) : noHold ((u.planned c).updJob f) := State.endHold_noHold _

/-- A request that is over has left, and has completed but under ERRONLY (R246, R247). -/
theorem State.circOver_completes (hp : u.part = s.part) (c : CircRun) :
    (u.circOver c).job.circ = none ∧ (u.circOver c).job.tgen = u.job.tgen ∧
      (c.req.treply.getLsbD 0 = false → completed s (u.circOver c) c.req 0) := by
  have hjob : (u.circOver c).job = { u.job with circ := none } :=
    (NetSide.circDone ..).job.trans (State.job_updJob u _)
  exact ⟨by rw [hjob], by rw [hjob], fun hbit => State.circDone_completed (u := u.updJob _) hp fun ⟨_, h⟩ => by rw [hbit] at h; cases h⟩

/-- A plan lit everywhere is in force; `d` is the request as it is in hand here. -/
theorem State.circLit_inForce {d : CircRun} (h : SameModules s u) (hreq : d.req = c.req) (hserver : d.server = c.server)
    (hnext : s.others ≠ [] → { d with raised := true, far := s.others } = { c with raised := true, far := s.others }) :
    planInForce s (u.circLit d) c := by
  have hpart : (u.planned d).part = s.part := h.part
  have hjob : (u.planned d).job = { u.job with plan := some c.req.plan, tgen := s.job.tgen + 1 } := by
    rw [State.job_planned, hreq, h.tgen]
  have hcirc : u.circLit d = if d.server = u.part.peer then
      (if u.others = [] then (u.planned d).circOver { d with raised := true, far := u.others }
        else u.others.foldl (fun s p => s.tellEquinox (.circEnd true) p)
          ((u.planned d).updJob (fun j => { j with circ := some { d with raised := true, far := u.others } })))
      else ((u.planned d).updJob (fun j => { j with circ := none })).tellEquinox .circRaised d.server := rfl
  rw [h.part, h.others] at hcirc
  by_cases hown : c.server = s.part.peer
  · rw [if_pos (hserver.trans hown)] at hcirc
    by_cases hothers : s.others = []
    · rw [if_pos hothers] at hcirc
      obtain ⟨-, -, hdone⟩ := State.circOver_completes (u := u.planned d) hpart { d with raised := true, far := s.others }
      have hall : (u.circLit d).job = { (u.planned d).job with circ := none } := by
        rw [hcirc]
        exact (NetSide.circDone ..).job.trans (State.job_updJob ..)
      refine ⟨by rw [hall, hjob], by rw [hall, hjob], ?_, fun _ _ => ⟨by rw [hall], fun hbit => ?_⟩,
        fun _ hne => absurd hothers hne, fun hne => absurd hown hne⟩
      · rw [hcirc]
        exact (NetSide.circDone ..).noHold (u.planned_noHold d _)
      · rw [hcirc, ← hreq]
        exact hdone (hreq ▸ hbit)
    · rw [if_neg hothers] at hcirc
      have hnet : NetSide _ (u.circLit d) := hcirc ▸ NetSide.tellOthers ..
      have hall : (u.circLit d).job = { (u.planned d).job with circ := some { d with raised := true, far := s.others } } :=
        hnet.job.trans (State.job_updJob ..)
      refine ⟨by rw [hall, hjob], by rw [hall, hjob], hnet.noHold (u.planned_noHold d _), fun _ he => absurd he hothers,
        fun _ _ => ⟨by rw [hall, hnext hothers], fun p hp => ?_⟩, fun hne => absurd hown hne⟩
      rw [hcirc]
      exact State.tellOthers_told (u := (u.planned d).updJob _) hpart hp _
  · rw [if_neg fun e => hown (hserver.symm.trans e)] at hcirc
    have hnet : NetSide _ (u.circLit d) := hcirc ▸ NetSide.tellEquinox ..
    have hall : (u.circLit d).job = { (u.planned d).job with circ := none } := hnet.job.trans (State.job_updJob ..)
    refine ⟨by rw [hall, hjob], by rw [hall, hjob], hnet.noHold (u.planned_noHold d _), fun he => absurd he hown,
      fun he => absurd he hown, fun _ => ⟨by rw [hall], ?_⟩⟩
    rw [hcirc, told, ← State.here_congr hpart, ← hserver]
    exact State.post_lastIs ..

/-- With nothing unacknowledged on any stream, R358 holds for every group. -/
theorem State.lightMoves_of_quiet (hq : ∀ x ∈ s.streams, x.copies = []) (gs : List Group) : s.lightMoves gs = true := by
  simp only [State.lightMoves, List.all_eq_true, Bool.or_eq_true]
  exact fun g _ x hx => .inr (by simp [hq x hx])

theorem State.light_of_quiet (hq : ∀ x ∈ s.streams, x.copies = []) (c : CircRun) : s.light c = s.circLit c :=
  if_pos (State.lightMoves_of_quiet hq _)

/-! ### The plan as the job's table has it (R368) -/

theorem State.planGroups_congr {a b : Job} (h : ∀ p f, u.planFibre a p f = s.planFibre b p f) (p fuel f : Nat) :
    u.planGroups a p fuel f = s.planGroups b p fuel f := by
  induction fuel generalizing f with
  | zero => rfl
  | succ n ih => simp only [State.planGroups, h, ih]

/-- What is in transit, and the request in hand, have no part in whether a plan is accepted. -/
theorem State.planOk_congr {a b : Job} (hsram : u.mach.sram = s.mach.sram) (hdram : u.dram = s.dram) (hp : u.peers = s.peers)
    (hn : a.nplan = b.nplan) (hbase : a.planb = b.planb) (p : Nat) : u.planOk a p = s.planOk b p := by
  have hb : ∀ x n, u.num x n = s.num x n := fun x n => by rw [State.num, State.num, State.bytes, State.bytes, hsram, hdram]
  have hg := fun f => State.planGroups_congr (s := s) (u := u) (a := a) (b := b)
    (fun p f => by rw [State.planFibre, State.planFibre, hb, hbase]) p 64 f
  simp only [State.planOk, hb, hp, hn, hbase, hg]

/-! ### The steps -/

/-- A circ request as Equinox begins to serve it: every agent of this module is to acknowledge, and every other module to answer
(R61). -/
def State.newCirc (s : State) (r : CircReq) : CircRun :=
  { req := r, server := s.part.peer, waiting := s.holdAgents, far := s.others, refused := false, lightAt := none, lit := false
    raised := false, asked := false, before := [] }

/-- Equinox begins to serve the oldest request: all its agents are to acknowledge, and the other modules to answer (R61, R246). -/
theorem execCircRequest_begins {r : CircReq} {rest : List CircReq} (hq : s.job.circs = r :: rest) (hrun : s.running.isSome = true)
    (hnone : s.job.circ = none) (hsw : s.switch = none) :
    exec .circRequest s = .next (s.others.foldl (fun s p => s.tellEquinox (.circHold r.plan) p)
      (s.updJob (fun j => { j with circs := rest, circ := some (s.newCirc r) })).sendNotices) := by
  rw [exec_circRequest, execCircRequest, hq]
  exact if_neg (by simp [hnone, hsw, Option.isSome_iff_ne_none.mp hrun])

theorem NetSide.sendNotices (s : State) : NetSide s s.sendNotices := .foldl (fun _ _ => .post ..) ..

/-- Every core and engine of this module gets a hold notice (R61). -/
theorem State.sendNotices_lastIs (hp : u.part = s.part) {a : Agent} (ha : a ∈ s.holdAgents) :
    lastIs u.sendNotices (queueOf s .equinox a 0) .holdNotice := by
  have hagents : u.holdAgents = s.holdAgents := by simp only [State.holdAgents, hp]
  rw [State.sendNotices, hagents]
  exact State.foldl_lastIs (key := fun a => queueOf s .equinox a 0) (fun v a hv => by
    rw [queueOf, ← State.here_congr (hv.trans hp), ← State.here_congr (hv.trans hp) a]
    exact v.post_appends ..) s.holdAgents (.inl ⟨a, ha, rfl, rfl⟩)

theorem State.ne_equinox_of_mem_holdAgents {a : Agent} (ha : a ∈ s.holdAgents) : a ≠ .equinox := by
  rintro rfl
  simp [State.holdAgents] at ha

/-- A core that gets a hold notice holds and acknowledges (R61). -/
theorem execHoldNotice_core {n : Nat} (hsrc : k.src = s.here .equinox) (hh : heads s k (.core n) .holdNotice) :
    exec (.holdNotice k) s =
      .next (((s.popNet k).updCore n (fun q => { q with hold := true })).post (.core n) (s.here .equinox) 0 .holdAck 0 0) := by
  obtain ⟨hdst, p, hp, hb⟩ := hh
  rw [exec_holdNotice, execHoldNotice, hp]
  simp [hb, hdst, hsrc, State.here]

/-- An engine that gets a hold notice holds and acknowledges (R61). -/
theorem execHoldNotice_engine {n : Nat} (hsrc : k.src = s.here .equinox) (hh : heads s k (.engine n) .holdNotice) :
    exec (.holdNotice k) s =
      .next (((s.popNet k).updEngine n (fun q => { q with holding := true })).post (.engine n) (s.here .equinox) 0 .holdAck 0 0) := by
  obtain ⟨hdst, p, hp, hb⟩ := hh
  rw [exec_holdNotice, execHoldNotice, hp]
  simp [hb, hdst, hsrc, State.here]

/-- The request without the agent whose acknowledgement has come. -/
def CircRun.without (c : CircRun) (a : Agent) : CircRun := { c with waiting := c.waiting.filter (fun x => x ≠ a) }

/-- The state in which an acknowledgement has been counted. -/
def State.counted (s : State) (k : PairKey) (c : CircRun) : State :=
  (s.popNet k).updJob (fun j => { j with circ := some (c.without k.src.agent) })

theorem execHoldAck_counts (hc : s.job.circ = some c) (hk : s.nextAck = some k) :
    exec .holdAck s = .next (if (c.without k.src.agent).held then
      ((s.counted k c).askSwitch (c.without k.src.agent)).getD (s.counted k c) else s.counted k c) := by
  rw [exec_holdAck, execHoldAck, hc, hk]
  rfl

theorem State.job_counted (s : State) (k : PairKey) (c : CircRun) :
    (s.counted k c).job = { s.job with circ := some (c.without k.src.agent) } :=
  State.job_updJob (s.popNet k) _

theorem SameModules.counted (s : State) (k : PairKey) (c : CircRun) : SameModules s (s.counted k c) :=
  ⟨rfl, rfl, by rw [State.job_counted]⟩

theorem State.planOk_counted (s : State) (k : PairKey) (c : CircRun) (p : Nat) :
    (s.counted k c).planOk (s.counted k c).job p = s.planOk s.job p :=
  State.planOk_congr (s := s) (u := s.counted k c) rfl rfl rfl (by rw [State.job_counted]) (by rw [State.job_counted]) p

/-- The Equinox that serves refuses a plan that it or another module cannot accept (R368). -/
theorem State.askSwitch_refuses (hown : c.server = s.part.peer) (h : s.planOk s.job c.req.plan = none ∨ c.refused = true) :
    s.askSwitch c = some (s.refusePlan c) := by
  unfold State.askSwitch
  dsimp only
  split
  · rw [if_pos hown]
  · next hok => rw [if_pos ⟨hown, h.resolve_left (by simp [hok])⟩]

/-- The state in which the switch has been asked, or the answer is given. -/
def State.asked (s : State) (c : CircRun) : State := s.updJob (fun j => { j with circ := some { c with lightAt := some s.time } })

/-- A module that does not serve refuses a plan that it cannot accept (R368). -/
theorem State.askSwitch_declines (hown : c.server ≠ s.part.peer) (h : s.planOk s.job c.req.plan = none) :
    s.askSwitch c = some ((s.asked c).tellEquinox (.circHeld false) c.server) := by
  simp [State.askSwitch, h, hown, State.asked]

/-- With every lit group kept by a plan that is accepted, no old circuit has to drain: the switch is asked, or the Equinox that serves
is answered (R61). -/
theorem State.askSwitch_asks {gs : List Group} (hok : s.planOk s.job c.req.plan = some gs)
    (hserve : c.server = s.part.peer → c.refused = false) (hkept : ∀ g ∈ s.litGroups, g ∈ gs) :
    s.askSwitch c = some (if c.server = s.part.peer then s.asked c else (s.asked c).tellEquinox (.circHeld true) c.server) := by
  have hquiet : s.removedQuiet gs = true := by
    simp only [State.removedQuiet, List.all_eq_true, Bool.or_eq_true, List.contains_iff_mem]
    exact fun g hg => .inl (hkept g hg)
  simp only [State.askSwitch, hok]
  rw [if_neg (by simpa using hserve), if_pos hquiet]
  rfl

/-- What the Equinox of this module takes of what heads a pair queue of its job (R45). -/
theorem execDeliver_equinox (hdst : k.dst = s.here .equinox) (hp : s.headOf k = some p) (hj : p.job = s.job.tag)
    (hu : (s.popNet k).deliverEquinox p = some u) : exec (.deliver k) s = .next u := by
  rw [exec_deliver, execDeliver, hp]
  simp only [hdst, hj, State.here, ne_eq, not_true, if_false, false_and, and_false, State.deliverHere]
  rw [hu]

/-- Every answer about its new groups has come, and nothing is unacknowledged: the plan is in force (R358, R368). -/
theorem State.takeCircTrained_last {q : Peer} (hc : s.job.circ = some c) (hraised : c.raised = false) (hlit : c.lit = true)
    (hfar : c.far = [q]) (hq : ∀ x ∈ s.streams, x.copies = []) :
    s.takeCircTrained q true = (s.updJob (fun j => { j with circ := some { c with far := [] } })).circLit { c with far := [] } := by
  simp only [State.takeCircTrained, hc, hraised, hlit, hfar]
  simpa using State.light_of_quiet (s := s.updJob _) hq _

/-- A module whose new groups have not trained has the plan refused (R368). -/
theorem State.takeCircTrained_fails {q : Peer} (hc : s.job.circ = some c) (hraised : c.raised = false) (hlit : c.lit = true)
    (hfar : q ∈ c.far) : s.takeCircTrained q false = s.refusePlan c := by
  simp [State.takeCircTrained, hc, hraised, hlit, hfar]

/-- A module that is asked to light an accepted plan answers whether its new groups have trained (R368). -/
theorem State.takeCircLight_answers {gs : List Group} (hc : s.job.circ = some c) (hok : s.planOk s.job c.req.plan = some gs) :
    s.takeCircLight = (if s.groupsTrain gs then s.tryPlan c gs else s).tellEquinox (.circTrained (s.groupsTrain gs)) c.server := by
  simp only [State.takeCircLight, hc, hok]
  cases h : s.groupsTrain gs <;> simp

theorem State.job_tryPlan (s : State) (c : CircRun) (gs : List Group) :
    (s.tryPlan c gs).job = { s.job with
      circ := some { c with lit := true, before := s.litGroups.map (fun g => (g.first, g.size, g.peer)) } } :=
  State.job_updJob (s.lightPlan gs) _

/-- A plan lit everywhere, with nothing unacknowledged, is in force (R358). -/
theorem execPlanLit_lit (hc : s.job.circ = some c) (hraised : c.raised = false) (hlit : c.lit = true) (hasked : c.asked = true)
    (hq : ∀ x ∈ s.streams, x.copies = []) : exec .planLit s = .next (s.circLit c) := by
  rw [exec_planLit, execPlanLit, hc]
  simp [hraised, hlit, hasked, State.lightMoves_of_quiet hq]

/-- The request at the Equinox that serves it, with every module held and the switch asked at a time. -/
structure SwitchAsked (s : State) (c : CircRun) (at_ : Word) : Prop where
  circ : s.job.circ = some c
  waiting : c.waiting = []
  far : c.far = []
  own : c.server = s.part.peer
  lightAt : c.lightAt = some at_
  dark : c.lit = false
  raised : c.raised = false

theorem SwitchAsked.ready {at_ : Word} (h : SwitchAsked s c at_) : s.circReady = some c := by
  simp [State.circReady, h.circ, h.waiting, h.far, h.own, h.raised]

/-- The request as it is once its plan is lit and the other modules are asked to light theirs. -/
def State.litCirc (s : State) (c : CircRun) : CircRun :=
  { c with far := s.others, lit := true, before := s.litGroups.map (fun g => (g.first, g.size, g.peer)) }

/-- The switch reports in time, and every new group trains: the plan is lit, and the other modules are asked to light theirs
(R368). -/
theorem execPlanLit_trains {at_ : Word} {gs : List Group} (h : SwitchAsked s c at_) (hok : s.planOk s.job c.req.plan = some gs)
    (htrain : s.groupsTrain gs = true) (htime : s.time.toNat ≤ at_.toNat + 1000000000) :
    let u := s.tryPlan { c with far := s.others } gs
    exec .planLit s = .next (if s.others = [] then u.light (s.litCirc c)
      else s.others.foldl (fun s p => s.tellEquinox .circLight p) u) := by
  intro u
  have hu : u.job.circ = some (s.litCirc c) := by rw [State.job_tryPlan]; rfl
  rw [exec_planLit, execPlanLit, h.circ]
  have hready : s.circReady.bind (·.lightAt) = some at_ := by rw [h.ready]; exact h.lightAt
  dsimp only
  rw [if_neg (by simp [h.raised]), if_neg (by simp [h.dark]), hready, hok]
  dsimp only
  rw [if_neg (by simp [htrain, htime])]
  exact congrArg (fun o : Option CircRun => (match o with
    | some d => .next (if s.others = [] then u.light d else s.others.foldl (fun s p => s.tellEquinox .circLight p) u)
    | none => .next u : Out)) hu

theorem execSwitchRefusedPlan_refuses {at_ : Word} (h : SwitchAsked s c at_) :
    exec .switchRefusedPlan s = .next (s.refusePlan c) := by
  rw [exec_switchRefusedPlan, execSwitchRefusedPlan, h.ready]
  simp [h.lightAt, h.dark]

theorem execCircTimeout_refuses {at_ : Word} (h : SwitchAsked s c at_) (htime : at_.toNat + 1000000000 ≤ s.time.toNat) :
    exec .circTimeout s = .next (s.refusePlan c) := by
  rw [exec_circTimeout, execCircTimeout, h.circ]
  simp only [h.lightAt, h.own, h.raised, h.dark]
  exact if_neg (by simpa using htime)

/-! ### The clauses of the statement -/

/-- The plan in hand refused in the step that counts the last acknowledgement leaves the circuits as they were. -/
theorem State.counted_refused (hdark : c.lit = false) :
    planRefused s ((s.counted k c).refusePlan (c.without k.src.agent)) c.req ∧
      ((s.counted k c).refusePlan (c.without k.src.agent)).links = s.links ∧
      ((s.counted k c).refusePlan (c.without k.src.agent)).peers = s.peers :=
  State.refusePlan_dark (.counted s k c) rfl rfl rfl hdark

/-- The last acknowledgement of this module, with no other module to wait for: `asked` is the request once the switch is asked or
the answer given. -/
theorem hold_completes (hc : s.job.circ = some c) (hk : s.nextAck = some k)
    (hlast : c.waiting.filter (fun a => a ≠ k.src.agent) = []) (hfar : c.far = []) (hnone : c.lightAt = none) :
    let asked : CircRun := { c with waiting := [], lightAt := some s.time }
    (c.server = s.part.peer → c.lit = false → s.planOk s.job c.req.plan = none ∨ c.refused = true →
      ∃ t, exec .holdAck s = .next t ∧ planRefused s t c.req ∧ t.links = s.links ∧ t.peers = s.peers) ∧
    (∀ gs, c.server = s.part.peer → c.refused = false → s.planOk s.job c.req.plan = some gs → (∀ g ∈ s.litGroups, g ∈ gs) →
      ∃ t, exec .holdAck s = .next t ∧ t.job.circ = some asked ∧ t.job.tgen = s.job.tgen) ∧
    (c.server ≠ s.part.peer → s.planOk s.job c.req.plan = none →
      ∃ t, exec .holdAck s = .next t ∧ t.job.circ = some asked ∧ told s t c.server (.circHeld false)) ∧
    (∀ gs, c.server ≠ s.part.peer → s.planOk s.job c.req.plan = some gs → (∀ g ∈ s.litGroups, g ∈ gs) →
      ∃ t, exec .holdAck s = .next t ∧ t.job.circ = some asked ∧ told s t c.server (.circHeld true)) := by
  intro asked
  have hheld : (c.without k.src.agent).held = true := by
    rw [CircRun.held, CircRun.without]
    simp only [hlast, hfar, hnone]
    rfl
  have hstep : ∀ u, (s.counted k c).askSwitch (c.without k.src.agent) = some u → exec .holdAck s = .next u := fun u hu => by
    rw [execHoldAck_counts hc hk, if_pos hheld, hu]
    rfl
  have hasked : ((s.counted k c).asked (c.without k.src.agent)).job = { s.job with circ := some asked } := by
    rw [State.asked, State.job_updJob, State.job_counted, CircRun.without, hlast]
    rfl
  have hok : (s.counted k c).planOk (s.counted k c).job (c.without k.src.agent).req.plan = s.planOk s.job c.req.plan :=
    s.planOk_counted k c _
  refine ⟨fun hown hdark hbad => ?_, fun gs hown hgood hplan hkept => ?_, fun hown hplan => ?_, fun gs hown hplan hkept => ?_⟩
  · exact ⟨_, hstep _ (State.askSwitch_refuses hown (hok.symm ▸ hbad)), State.counted_refused hdark⟩
  · refine ⟨_, hstep _ (State.askSwitch_asks (hok.trans hplan) (fun _ => hgood) hkept), ?_⟩
    rw [if_pos (show (c.without k.src.agent).server = (s.counted k c).part.peer from hown), hasked]
    exact ⟨rfl, rfl⟩
  · exact ⟨_, hstep _ (State.askSwitch_declines hown (hok.trans hplan)), congrArg Job.circ hasked, State.post_lastIs ..⟩
  · refine ⟨_, hstep _ (State.askSwitch_asks (hok.trans hplan) (fun h => absurd h hown) hkept), ?_⟩
    rw [if_neg (show (c.without k.src.agent).server ≠ (s.counted k c).part.peer from hown)]
    exact ⟨congrArg Job.circ hasked, State.post_lastIs ..⟩

/-- The lit plan of this module is asked for by the Equinox that serves. -/
theorem light_asked {gs : List Group} (hc : s.job.circ = some c) (hok : s.planOk s.job c.req.plan = some gs) :
    let t := (s.popNet k).takeCircLight
    t.job.tgen = s.job.tgen ∧ told s t c.server (.circTrained (s.groupsTrain gs)) ∧
      (s.groupsTrain gs = true → t.job.circ = some { c with
        lit := true, before := s.litGroups.map (fun g => (g.first, g.size, g.peer)) }) ∧
      (s.groupsTrain gs = false → t.job.circ = some c ∧ t.links = s.links) := by
  intro t
  have ht : t = (if s.groupsTrain gs then (s.popNet k).tryPlan c gs else s.popNet k).tellEquinox
      (.circTrained (s.groupsTrain gs)) c.server :=
    State.takeCircLight_answers (s := s.popNet k) hc ((State.planOk_congr (s := s) (u := s.popNet k) rfl rfl rfl rfl rfl _).trans hok)
  cases htr : s.groupsTrain gs
  · rw [htr] at ht
    rw [ht]
    exact ⟨rfl, State.post_lastIs .., nofun, fun _ => ⟨hc, rfl⟩⟩
  · rw [htr] at ht
    have hjob : t.job = ((s.popNet k).tryPlan c gs).job := by rw [ht]; rfl
    rw [State.job_tryPlan] at hjob
    refine ⟨by rw [hjob]; rfl, ?_, fun _ => by rw [hjob]; rfl, nofun⟩
    rw [ht]
    exact State.post_lastIs ..

/-- Settles O53: each notice, answer and timeout is an equation of its step; what it posts and leaves is that of `NetSide`. -/
theorem circuitsChangeAfterAHold : Obligations.circuits_change_after_a_hold := by
  intro s held tells done risen refused ended litNow
  refine ⟨fun r rest hq hrun hnone hsw => ?_, fun k n hsrc => ⟨fun hh => ?_, fun hh => ?_⟩, fun c k hc hk =>
    ⟨fun hwait => ?_, fun hlast hfar hnone => hold_completes hc hk hlast hfar hnone⟩, fun c hc hraised hlit hasked hquiet => ?_,
    fun c k p hc hraised hdst hp hj => ⟨fun hb hlit hfar hquiet => ?_, fun hb hlit hfar => ?_, fun gs hb hok => ?_⟩,
    fun c k p hc hraised hdst hp hj hb hfar => ?_,
    fun c at_ hc hw hf hown hl hdark hraised => ⟨fun gs hok htrain htime hquiet => ?_, ?_, fun htime => ?_⟩⟩
  · refine ⟨_, execCircRequest_begins hq hrun hnone hsw, ?_⟩
    have hnet := (NetSide.sendNotices (s.updJob (fun j => { j with circs := rest, circ := some (s.newCirc r) }))).trans
      (.tellOthers _ s.others (.circHold r.plan))
    have hjob := hnet.job.trans (State.job_updJob ..)
    refine ⟨congrArg Job.circs hjob, congrArg Job.circ hjob, hnet.sameMemory, fun a ha => ?_, fun q hq => ?_⟩
    · exact State.tellOthers_lastIs (State.sendNotices_lastIs (u := s.updJob _) rfl ha) (State.ne_equinox_of_mem_holdAgents ha) _
    · exact State.tellOthers_told (NetSide.sendNotices _).part hq _
  · exact ⟨_, execHoldNotice_core hsrc hh, by simp, State.post_lastIs ..⟩
  · exact ⟨_, execHoldNotice_engine hsrc hh,
      congrArg Engine.holding ((s.popNet k).engineAt_updEngine_self n (fun q => { q with holding := true })), State.post_lastIs ..⟩
  · have hnot : (c.without k.src.agent).held = false := by
      simp only [CircRun.held, CircRun.without, Bool.and_eq_false_iff, List.isEmpty_eq_false_iff]
      exact .inl hwait
    rw [execHoldAck_counts hc hk, hnot]
    exact ⟨_, rfl, rfl, by simp [State.job_counted, CircRun.without]⟩
  · exact ⟨_, execPlanLit_lit hc hraised hlit hasked hquiet, State.circLit_inForce ⟨rfl, rfl, rfl⟩ rfl rfl fun _ => rfl⟩
  · refine ⟨_, execDeliver_equinox hdst hp hj (by rw [State.deliverEquinox, hb]), ?_⟩
    rw [State.takeCircTrained_last (s := s.popNet k) hc hraised hlit hfar hquiet]
    exact State.circLit_inForce ((NetSide.popNet s k).sameModules.trans (.updJob _ rfl)) rfl rfl fun _ => rfl
  · refine ⟨_, execDeliver_equinox hdst hp hj (by rw [State.deliverEquinox, hb]), ?_⟩
    rw [State.takeCircTrained_fails (s := s.popNet k) hc hraised hlit hfar, State.refusePlan_links]
    refine ⟨State.refusePlan_refuses (NetSide.popNet s k).sameModules rfl, ?_⟩
    unfold State.restorePlan
    split <;> rfl
  · exact ⟨_, execDeliver_equinox hdst hp hj (by rw [State.deliverEquinox, hb]), light_asked hc hok⟩
  · have htook : (s.popNet k).takeCircRaised p.src.peer = (s.popNet k).circOver { c with far := [] } := by
      simp [State.takeCircRaised, show (s.popNet k).job.circ = some c from hc, hraised, hfar]
    obtain ⟨hnone, htgen, hdone⟩ := State.circOver_completes (s := s) (u := s.popNet k) rfl { c with far := [] }
    refine ⟨_, execDeliver_equinox hdst hp hj (by rw [State.deliverEquinox, hb]), ?_⟩
    rw [htook]
    exact ⟨hnone, htgen, hdone⟩
  · have h : SwitchAsked s c at_ := ⟨hc, hw, hf, hown, hl, hdark, hraised⟩
    refine ⟨_, execPlanLit_trains h hok htrain htime, fun hnone => ?_, fun hsome => ?_⟩
    · rw [if_pos hnone, State.light_of_quiet (s := s.tryPlan _ gs) hquiet]
      exact State.circLit_inForce (.tryPlan s _ gs) rfl rfl fun hne => absurd hnone hne
    · rw [if_neg hsome]
      have hjob := (NetSide.tellOthers (s.tryPlan { c with far := s.others } gs) s.others .circLight).job
      rw [State.job_tryPlan] at hjob
      exact ⟨by dsimp only [litNow]; rw [hjob], by rw [hjob], fun q hq => State.tellOthers_told rfl hq _⟩
  · have h : SwitchAsked s c at_ := ⟨hc, hw, hf, hown, hl, hdark, hraised⟩
    exact ⟨_, execSwitchRefusedPlan_refuses h, State.refusePlan_dark ⟨rfl, rfl, rfl⟩ rfl rfl rfl hdark⟩
  · have h : SwitchAsked s c at_ := ⟨hc, hw, hf, hown, hl, hdark, hraised⟩
    exact ⟨_, execCircTimeout_refuses h htime, State.refusePlan_dark ⟨rfl, rfl, rfl⟩ rfl rfl rfl hdark⟩

end Sys2Proof.Machine
end

