-- ==== Sys2Proof/Proofs/Armature.lean ====
section
/-! PROOFS. O50: evaluations, the switch of a migration, its markers, seals, walks and shootdowns (R57, R58, R163, R282, R284, R287,
R288, R352, R353, R355). -/

namespace Sys2Proof.Machine

open Sys2Proof Sys2Proof.Safety

variable {s t u : State}

theorem exec_evaluation (cs : List PlaceChoice) (s : State) : exec (.evaluation cs) s = execEvaluation cs s := rfl
theorem exec_migrationSwitch (old : Nat) (s : State) : exec (.migrationSwitch old) s = execMigrationSwitch old s := rfl
theorem exec_dropMarker (h : Nat) (s : State) : exec (.dropMarker h) s = execDropMarker h s := rfl
theorem exec_drainMarker (h : Nat) (s : State) : exec (.drainMarker h) s = execDrainMarker h s := rfl
theorem exec_sealCompletion (s : State) : exec .sealCompletion s = execSealCompletion s := rfl
theorem exec_unsealCompletion (s : State) : exec .unsealCompletion s = execUnsealCompletion s := rfl
theorem exec_pageWalk (c : Nat) (va : Word) (fetch : Bool) (s : State) : exec (.pageWalk c va fetch) s = execPageWalk c va fetch s := rfl
theorem exec_tlbShootdown (who : Agent) (base len : Word) (s : State) :
    exec (.tlbShootdown who base len) s = execTlbShootdown who base len s := rfl

/-! ### What the bookkeeping of pages changes -/

/-- Nothing but homes, pair queues, shootdowns, page records and Equinox differs: no memory, no TLB and no migration. -/
def PageSide (s t : State) : Prop :=
  { t with
    shoots := s.shoots, pages := s.pages, eqx := s.eqx
    mach := { t.mach with homes := s.mach.homes, net := s.mach.net } } = s

theorem PageSide.refl (s : State) : PageSide s s := rfl

theorem PageSide.trans (h : PageSide s t) (k : PageSide t u) : PageSide s u := by
  unfold PageSide at *
  rw [← k] at h
  exact h

theorem PageSide.foldl {α : Type} {f : State → α → State} (hf : ∀ u a, PageSide u (f u a)) (s : State) (l : List α) :
    PageSide s (l.foldl f s) := by
  induction l generalizing s with
  | nil => exact .refl s
  | cons a r ih => exact (hf s a).trans (ih _)

theorem PageSide.dram (h : PageSide s t) : t.dram = s.dram := congrArg (·.dram) h
theorem PageSide.migrations (h : PageSide s t) : t.migrations = s.migrations := congrArg (·.migrations) h
theorem PageSide.coreAt (h : PageSide s t) (c : Nat) : t.coreAt c = s.coreAt c := congrArg (·.coreAt c) h
theorem PageSide.sameMemory (h : PageSide s t) : sameMemory s t := fun a => congrArg (·.byte a) h

theorem PageSide.ite {p : Prop} [Decidable p] (h : PageSide s t) : PageSide s (if p then t else s) := by
  split
  · exact h
  · exact .refl s

theorem NetSide.pageSide (h : NetSide s t) : PageSide s t := by
  unfold NetSide at h
  rw [← h]
  rfl

theorem PageSide.updHome (s : State) (h : Nat) (f) : PageSide s (s.updHome h f) := rfl
theorem PageSide.withShoots (s : State) (l : List Shoot) : PageSide s { s with shoots := l } := rfl
theorem PageSide.withPages (s : State) (l : List PageRec) : PageSide s { s with pages := l } := rfl
theorem PageSide.setPage (s : State) (r : PageRec) : PageSide s (s.setPage r) := rfl

theorem PageSide.forwardTo (s : State) (h : Nat) (m : Migration) (p : Packet) : PageSide s (s.forwardTo h m p) := by
  unfold State.forwardTo
  dsimp only
  split
  · split <;> rfl
  · rfl

theorem PageSide.enterHome (s : State) (h : Nat) (p : Packet) : PageSide s (s.enterHome h p) := by
  unfold State.enterHome
  split
  · exact .forwardTo ..
  · exact .updHome ..

theorem PageSide.openDrains (s : State) (q : Peer) (old new : Nat) : PageSide s (s.openDrains q old new) :=
  .foldl (fun _ _ => .foldl (fun _ _ => .updHome ..) ..) ..

theorem PageSide.endShoots (s : State) : PageSide s s.endShoots := by
  unfold State.endShoots
  dsimp only
  refine (PageSide.withShoots s _).trans (.foldl (fun u x => ?_) ..)
  split
  · rfl
  · split
    · exact .refl u
    · exact (NetSide.foldl (fun _ _ => .post ..) ..).pageSide
  · rfl
  · rfl
  · exact .refl u

/-! ### Evaluations (R283, R284, R287) -/

/-- A migration starts only where fewer than 64 are in flight (R287). -/
theorem State.few_of_mayMigrate {die : Option Nat} (h : s.mayMigrate die = true) : s.migrations.length < 64 := by
  simp only [State.mayMigrate, Bool.and_eq_true, decide_eq_true_eq] at h
  omega

/-- At most 64 migrations are in flight. -/
def fewMigrations (s : State) : Prop := s.migrations.length ≤ 64

theorem fewMigrations.of_eq (h : fewMigrations s) (e : t.migrations = s.migrations) : fewMigrations t := by
  rwa [fewMigrations, e]

theorem State.migrateDue_few (h : fewMigrations s) {l : LeafAt} {pick : List Nat} {die : Nat → Option Nat} {ok : Nat → Bool}
    {no : Bool} (ht : s.migrateDue l pick die ok no = some t) : fewMigrations t := by
  unfold State.migrateDue at ht
  split at ht
  · split at ht
    · exact Option.some.inj ht ▸ h
    · cases ht
  · split at ht
    · next hgo =>
      obtain ⟨-, hmay, -⟩ := hgo
      have := State.few_of_mayMigrate hmay
      rw [← Option.some.inj ht]
      simpa [fewMigrations, State.beginMigration] using this
    · cases ht

/-- Replicas move no page. -/
theorem foldl_replicas_migrations {f : Option State → Nat → Option State}
    (hf : ∀ v d w, f (some v) d = some w → w.migrations = v.migrations) (hn : ∀ d, f none d = none) (l : List Nat) (s : State)
    (h : l.foldl f (some s) = some t) : t.migrations = s.migrations := by
  induction l generalizing s with
  | nil => rw [Option.some.inj h]
  | cons d r ih =>
    rw [List.foldl_cons] at h
    cases hd : f (some s) d with
    | none =>
      have hnone : r.foldl f none = none := List.foldl_fixed' hn r
      rw [hd, hnone] at h
      cases h
    | some w =>
      rw [hd] at h
      exact (ih w h).trans (hf s d w hd)

theorem State.placeDue_few (h : fewMigrations s) {cs : List PlaceChoice} {live : Bool} {l : LeafAt}
    (ht : s.placeDue cs live l = some t) : fewMigrations t := by
  have hstill : ∀ {p : Prop} [Decidable p], (if p then some s else none) = some t → fewMigrations t := fun hi => by
    split at hi
    · exact Option.some.inj hi ▸ h
    · cases hi
  unfold State.placeDue at ht
  dsimp only at ht
  split at ht
  · exact hstill ht
  · split at ht
    · exact hstill ht
    · split at ht
      · cases ht
      · refine h.of_eq (foldl_replicas_migrations (fun v d w hw => ?_) (fun _ => rfl) _ s ht)
        rw [Option.bind_some] at hw
        split at hw
        · split at hw
          · cases hw
          · rw [Option.some.inj hw]
        · split at hw
          · rw [← Option.some.inj hw]; rfl
          · cases hw
  · split at ht
    · obtain ⟨v, hv, rfl⟩ := Option.map_eq_some_iff.mp ht
      have hvs : v = s := by
        split at hv
        · exact (Option.some.inj hv).symm
        · cases hv
      subst hvs
      refine h.of_eq ?_
      unfold State.askPage
      split <;> rfl
    · exact hstill ht
  · split at ht
    · exact hstill ht
    · exact State.migrateDue_few h ht
  · split at ht
    · exact State.migrateDue_few h ht
    · exact hstill ht

@[simp] theorem State.rawPut_migrations (s : State) (pa : Nat) (bs : List Byte) : (s.rawPut pa bs).migrations = s.migrations := by
  unfold State.rawPut; split <;> rfl

/-- The flags and the index of a leaf move no page. -/
theorem State.markLeaf_migrations (s : State) (l : LeafAt) : (s.markLeaf l).migrations = s.migrations := by
  unfold State.markLeaf
  dsimp only
  split
  · rfl
  · refine (State.rawPut_migrations ..).trans (((NetSide.foldl (fun _ _ => .post ..) ..).pageSide.migrations).trans
      (NetSide.foldl (fun _ _ => .post ..) ..).pageSide.migrations)

theorem State.placeAll_few {cs : List PlaceChoice} {live : Bool} {ls : List LeafAt} {done done' : List Nat} (h : fewMigrations s)
    (ht : s.placeAll cs live done ls = some (t, done')) : fewMigrations t := by
  induction ls generalizing s done with
  | nil =>
    cases ht
    exact h
  | cons l r ih =>
    unfold State.placeAll at ht
    obtain ⟨v, hv, hr⟩ := Option.bind_eq_some_iff.mp ht
    refine ih ?_ hr
    refine fewMigrations.of_eq ?_ (v.markLeaf_migrations l)
    split at hv
    · exact Option.some.inj hv ▸ h
    · exact State.placeDue_few h hv

theorem State.asJob_migrations (s : State) (j : Nat) : (s.asJob j).migrations = s.migrations := by
  unfold State.asJob
  split <;> rfl

theorem State.tellQuiet_migrations (s : State) : s.tellQuiet.migrations = s.migrations :=
  (NetSide.foldl (fun _ _ => .foldl (fun _ _ => .post ..) ..) ..).pageSide.migrations

theorem State.placeJob_few {cs : List PlaceChoice} {j : Nat} {done done' : List Nat} (h : fewMigrations s)
    (ht : s.placeJob cs done j = some (t, done')) : fewMigrations t := by
  unfold State.placeJob at ht
  dsimp only at ht
  split at ht
  · obtain ⟨⟨v, d⟩, hv, hr⟩ := Option.map_eq_some_iff.mp ht
    have hfew := State.placeAll_few h hv
    split at hr
    · cases hr
      exact hfew
    · cases hr
      exact hfew.of_eq v.tellQuiet_migrations
  · split at ht
    · cases ht
      exact h
    · obtain ⟨⟨v, d⟩, hv, hr⟩ := Option.map_eq_some_iff.mp ht
      have hfew := State.placeAll_few (h.of_eq (s.asJob_migrations j)) hv
      split at hr
      · cases hr
        exact hfew.of_eq (v.asJob_migrations _)
      · cases hr
        exact hfew

theorem State.placeJobs_few {cs : List PlaceChoice} {js done : List Nat} (h : fewMigrations s)
    (ht : s.placeJobs cs done js = some t) : fewMigrations t := by
  induction js generalizing s done with
  | nil =>
    cases ht
    exact h
  | cons j r ih =>
    unfold State.placeJobs at ht
    obtain ⟨⟨v, d⟩, hv, hr⟩ := Option.bind_eq_some_iff.mp ht
    exact ih (State.placeJob_few h hv) hr

/-- An evaluation that is due places every page and halves every count (R283, R284). -/
theorem execEvaluation_due {cs : List PlaceChoice} (hdue : s.placeAt + 2 ^ 20 ≤ s.now)
    (hu : s.placeJobs cs [] (s.jobs.map (·.1)) = some u) :
    exec (.evaluation cs) s = .next { u with
      placeAt := s.now
      pages := u.pages.map (fun r => { r with dies := r.dies.map (· / 2), peers := r.peers.map (fun q => (q.1, q.2 / 2)) }) } := by
  rw [exec_evaluation, execEvaluation, if_neg (by omega), hu]

/-! ### A run of memory copied (R355) -/

theorem AMap.get_filter_key {α : Type} (m : AMap α) (p : Nat → Bool) (n : Nat) :
    AMap.get (m.filter (fun e => p e.1)) n = if p n then AMap.get m n else none := by
  induction m with
  | nil => simp [AMap.get]
  | cons e r ih =>
    obtain ⟨k, v⟩ := e
    cases hk : p k with
    | true =>
      rw [List.filter_cons_of_pos (by simpa using hk), AMap.get, AMap.get, ih]
      by_cases hn : n = k <;> simp [hn, hk]
    | false =>
      rw [List.filter_cons_of_neg (by simp [hk]), ih, AMap.get]
      by_cases hn : n = k <;> simp [hn, hk]

theorem AMap.get_none_of_lt {α : Type} {m : AMap α} {n : Nat} (h : ∀ c ∈ m, n < c.1) : AMap.get m n = none := by
  induction m with
  | nil => rfl
  | cons e r ih =>
    have hne : n ≠ e.1 := (h e List.mem_cons_self).ne
    rw [AMap.get, if_neg hne]
    exact ih fun c hc => h c (List.mem_cons_of_mem _ hc)

/-- Cells whose addresses rise, moved by the same distance into a map: a cell of them stands where it was moved to. -/
theorem AMap.get_foldl_moved {α : Type} {src : AMap α} (hs : src.Pairwise (fun a b => a.1 < b.1)) {a : Nat}
    (ha : ∀ c ∈ src, a ≤ c.1) (b i : Nat) (m : AMap α) :
    AMap.get (src.foldl (fun acc c => AMap.set acc (c.1 - a + b) c.2) m) (b + i) =
      (AMap.get src (a + i)).or (AMap.get m (b + i)) := by
  induction src generalizing m with
  | nil => rfl
  | cons c r ih =>
    obtain ⟨hc, hr⟩ := List.pairwise_cons.mp hs
    have hle : a ≤ c.1 := ha c List.mem_cons_self
    rw [List.foldl_cons, ih hr fun d hd => ha d (List.mem_cons_of_mem _ hd)]
    by_cases h : a + i = c.1
    · have hnone : AMap.get r (a + i) = none := AMap.get_none_of_lt (h ▸ hc)
      rw [hnone, show b + i = c.1 - a + b by omega, AMap.get_set_self, AMap.get, if_pos h]
      rfl
    · rw [AMap.get_set_other _ _ (by omega), AMap.get, if_neg h]

/-- A copied byte reads as the one that it was copied from. -/
theorem Memory.byte_copy {m : Memory} (h : m.wf = true) (a b : Nat) {n i : Nat} (hi : i < n) :
    (m.copy a b n).byte (b + i) = m.byte (a + i) := by
  have hrise := ((Memory.wf_iff m).mp h).1
  have hsrc := AMap.get_filter_key m (fun k => decide (a ≤ k) && decide (k < a + n)) (a + i)
  have hrest := AMap.get_filter_key m (fun k => !(decide (b ≤ k) && decide (k < b + n))) (b + i)
  rw [if_pos (by simp [hi])] at hsrc
  rw [if_neg (by simp [hi])] at hrest
  have hmoved := AMap.get_foldl_moved (hrise.filter (fun c => decide (a ≤ c.1) && decide (c.1 < a + n))) (a := a)
    (fun c hc => of_decide_eq_true (Bool.and_eq_true_iff.mp (List.mem_filter.mp hc).2).1) b i
    (m.filter (fun c => !(decide (b ≤ c.1) && decide (c.1 < b + n))))
  rw [hsrc, hrest] at hmoved
  rw [Memory.byte, Memory.copy, hmoved, Option.or_none]
  rfl

/-! ### The switch of a migration (R355) -/

/-- A run of bytes put elsewhere leaves a byte of the module's memory. -/
theorem State.dram_rawPut_outside (s : State) (pa : Nat) (bs : List Byte) {x : Nat} (h : x < pa ∨ pa + bs.length ≤ x) :
    (s.rawPut pa bs).dram.byte x = s.dram.byte x := by
  unfold State.rawPut
  split
  · rfl
  · exact Memory.byte_puts_outside _ _ _ h

/-- A leaf rewritten for its page's new frame changes no byte outside its 32. -/
theorem State.dram_rewriteLeaf_outside (s : State) (q : Peer) (new : Nat) (l : LeafAt) {x : Nat} (h : x < l.addr ∨ l.addr + 32 ≤ x) :
    (s.rewriteLeaf q new l).dram.byte x = s.dram.byte x := by
  unfold State.rewriteLeaf
  dsimp only
  split <;> rw [State.dram_rawPut_outside _ _ _ (by simp; omega), State.dram_rawPut_outside _ _ _ (by simp; omega)]

theorem State.rewriteLeaf_migrations (s : State) (q : Peer) (new : Nat) (l : LeafAt) :
    (s.rewriteLeaf q new l).migrations = s.migrations := by
  unfold State.rewriteLeaf
  dsimp only
  split <;> simp

/-- The poison of a migrating page has left its old frame, and, for a frame of this module, its bytes and its poison stand in the
new one. -/
def State.carried (s : State) (m : Migration) : State :=
  let inOld (g : Nat) : Bool := decide (m.old * 2 ^ 12 ≤ g) && decide (g < (m.old + 1) * 2 ^ 12)
  let clean : State := { s with mach := { s.mach with poison := s.mach.poison.filter (fun e => !inOld e.1) } }
  if decide (m.peer = s.part.peer) then
    ({ clean with dram := s.dram.copy (m.old * 2 ^ 16) (m.new * 2 ^ 16) (2 ^ 16) }).putPoison m.new (s.poisonOfFrame m.old)
  else clean

/-- The page's bytes are carried, and every leaf of it names the new frame. -/
def State.relocated (s : State) (m : Migration) : State :=
  (s.leaves.filter (fun l => s.leafKind l = 2 ∧ s.leafFrame l = m.old)).foldl (fun s l => s.rewriteLeaf m.peer m.new l) (s.carried m)

/-- The list of migrations once the one of frame `old` has switched as `m`: those with nothing left to drain are over. -/
def switchedList (l : List Migration) (old : Nat) (m : Migration) : List Migration :=
  (l.map (fun x => if x.old = old ∧ x.switched = false then m else x)).filter (fun x => !(x.switched && x.undrained.isEmpty))

theorem State.relocated_migrations (s : State) (m : Migration) : (s.relocated m).migrations = s.migrations := by
  refine (foldl_leaves (π := (·.migrations)) (fun u l => u.rewriteLeaf_migrations m.peer m.new l) ..).trans ?_
  unfold State.carried
  dsimp only
  split <;> rfl

/-- Each byte of the new frame reads as that of the old one did, where no leaf lies in the new frame. -/
theorem State.relocated_bytes (hwf : s.dram.wf = true) {m : Migration} (hown : m.peer = s.part.peer)
    (hout : ∀ l ∈ s.leaves, l.addr + 32 ≤ m.new * 2 ^ 16 ∨ m.new * 2 ^ 16 + 2 ^ 16 ≤ l.addr) {i : Nat} (hi : i < 2 ^ 16) :
    (s.relocated m).dram.byte (m.new * 2 ^ 16 + i) = s.dram.byte (m.old * 2 ^ 16 + i) := by
  have hkeep : ∀ (ls : List LeafAt) (u : State), (∀ l ∈ ls, l ∈ s.leaves) →
      (ls.foldl (fun s l => s.rewriteLeaf m.peer m.new l) u).dram.byte (m.new * 2 ^ 16 + i) = u.dram.byte (m.new * 2 ^ 16 + i) := by
    intro ls
    induction ls with
    | nil => exact fun _ _ => rfl
    | cons l r ih =>
      intro u hls
      have hl := hout l (hls l List.mem_cons_self)
      rw [List.foldl_cons, ih _ fun x hx => hls x (List.mem_cons_of_mem _ hx),
        State.dram_rewriteLeaf_outside u m.peer m.new l (by omega)]
  rw [State.relocated, hkeep _ _ fun l hl => (List.mem_filter.mp hl).1, State.carried]
  dsimp only
  rw [if_pos (by simpa using hown)]
  exact Memory.byte_copy hwf _ _ hi

/-- The sources whose drop markers a switch waits for, each with an old home of the page: the cores of this module that may hold it,
and for each other module its Armature (R355; log 96). -/
def State.undrainedOf (s : State) (m : Migration) : List (Place × Nat) :=
  ((s.users.map (fun c => s.here (.core c)) ++ s.others.map (fun p => ({ peer := p, agent := .armature } : Place))).map
    (fun x => (s.frameHomes s.part.peer m.old).eraseDups.map (fun h => (x, h)))).flatten

/-- The state in which the page is carried and its migration has switched. -/
def State.switchedTo (s : State) (old : Nat) (m : Migration) : State :=
  { s.relocated m with
    migrations := switchedList (s.relocated m).migrations old { m with switched := true, undrained := s.undrainedOf m } }

/-- A migration that has not switched does so: what follows on the carried page is bookkeeping. -/
theorem execMigrationSwitch_switches {old : Nat} {m : Migration}
    (hm : s.migrations.find? (fun m => m.old = old ∧ m.switched = false) = some m) :
    ∃ t, exec (.migrationSwitch old) s = .next t ∧ PageSide (s.switchedTo old m) t := by
  rw [exec_migrationSwitch, execMigrationSwitch, hm]
  refine ⟨_, rfl, ?_⟩
  refine PageSide.trans ?_ (.endShoots _)
  refine PageSide.trans ?_ (.ite (.setPage ..))
  refine PageSide.trans ?_ (.withPages ..)
  refine PageSide.trans ?_ (NetSide.foldl (fun _ _ => .post ..) ..).pageSide
  refine PageSide.trans ?_ (.foldl (fun _ _ => .trans (.updHome ..) (.foldl (fun _ _ => .forwardTo ..) ..)) ..)
  refine PageSide.trans ?_ (.ite (.openDrains ..))
  exact .withShoots (s.switchedTo old m) _

/-- No migration of the frame is left that has not switched. -/
theorem switchedList_switched {l : List Migration} {old : Nat} {m x : Migration} (hm : m.switched = true)
    (hx : x ∈ switchedList l old m) (hold : x.old = old) : x.switched = true := by
  obtain ⟨y, -, hy⟩ := List.mem_map.mp (List.mem_filter.mp hx).1
  split at hy
  · exact hy ▸ hm
  · next hno =>
    subst hy
    simpa [hold] using hno

/-! ### Markers (R58, R355) -/

theorem State.takeHome_head {h : Nat} {p : Packet} {rest : List Packet} (hq : (s.homeAt h).q = p :: rest) :
    s.takeHome h = some (p, s.afterHead h rest) := by
  rw [State.takeHome, hq]
  rfl

/-- A packet with this body is in a pair queue. -/
def queued (t : State) (k : PairKey) (b : Body) : Prop := ∃ r ∈ netGet t.mach.net k, r.body = b

theorem queued.append {k : PairKey} {b : Body} (h : queued s k b) (j : PairKey) (p : Packet) : queued (s.append j p) k b := by
  obtain ⟨r, hr, hb⟩ := h
  refine ⟨r, ?_, hb⟩
  by_cases e : k = j
  · subst e
    rw [State.append, netGet_append]
    exact List.mem_append_left _ hr
  · rwa [State.append, netGet_netSet_other _ _ e]

theorem State.append_queued (s : State) (k : PairKey) (p : Packet) : queued (s.append k p) k p.body :=
  ⟨p, by rw [State.append, netGet_append]; exact List.mem_append_right _ List.mem_cons_self, rfl⟩

/-- What is in a pair queue stays there while a row of steps leaves it there; what one of them puts there is there at the end. -/
theorem queued_foldl {α : Type} {f : State → α → State} {k : PairKey} {b : Body} (hkeep : ∀ u a, queued u k b → queued (f u a) k b)
    (hpart : ∀ u a, (f u a).part = u.part) {l : List α}
    (h : queued s k b ∨ ∃ a ∈ l, ∀ u : State, u.part = s.part → queued (f u a) k b) : queued (l.foldl f s) k b := by
  induction l generalizing s with
  | nil => simpa using h
  | cons a r ih =>
    refine ih ?_
    rcases h with h | ⟨x, hx, hput⟩
    · exact .inl (hkeep s a h)
    · rcases List.mem_cons.mp hx with rfl | hx
      · exact .inl (hput s rfl)
      · exact .inr ⟨x, hx, fun u hu => hput u (hu.trans (hpart s a))⟩

theorem NetSide.sendDrains (s : State) (h : Nat) (m : Migration) (c : Nat) (l : List Place) : NetSide s (s.sendDrains h m c l) :=
  .foldl (fun _ _ => .foldl (fun _ _ => .post ..) ..) ..

theorem queued.sendDrains {k : PairKey} {b : Body} (hk : queued s k b) (h : Nat) (m : Migration) (c : Nat) (l : List Place) :
    queued (s.sendDrains h m c l) k b :=
  queued_foldl (fun _ _ hu => queued_foldl (fun _ _ hv => hv.append ..) (fun _ _ => rfl) (.inl hu))
    (fun u _ => (NetSide.foldl (fun _ _ => .post ..) u _).part) (.inl hk)

/-- Each new home gets a drain marker for each source (R58). -/
theorem State.sendDrains_queued (hp : u.part = s.part) {h n : Nat} {m : Migration} (hn : n ∈ u.newHomes m h) (c : Nat) {l : List Place}
    {x : Place} (hx : x ∈ l) :
    queued (u.sendDrains h m c l) { src := s.here (.home h), dst := { peer := m.peer, agent := .home n }, cls := 4 }
      (.drainMarker x c m.old (viaOf s.part.peer h)) := by
  refine queued_foldl (fun _ _ hu => queued_foldl (fun _ _ hv => hv.append ..) (fun _ _ => rfl) (.inl hu))
    (fun u _ => (NetSide.foldl (fun _ _ => .post ..) u _).part) (.inr ⟨n, hn, fun v hv => ?_⟩)
  refine queued_foldl (fun _ _ hv => hv.append ..) (fun _ _ => rfl) (.inr ⟨x, hx, fun w hw => ?_⟩)
  have hpart : w.part = s.part := hw.trans (hv.trans hp)
  rw [← State.here_congr hpart, ← hpart]
  exact State.append_queued ..

/-- The drain markers of a migration for these sources are on their way from a home, and no byte has changed. -/
def drainsSent (s t : State) (h c old : Nat) (m : Migration) (l : List Place) : Prop :=
  sameMemory s t ∧ ∀ n ∈ s.newHomes m h, ∀ x ∈ l,
    queued t { src := s.here (.home h), dst := { peer := m.peer, agent := .home n }, cls := 4 }
      (.drainMarker x c old (viaOf s.part.peer h))

theorem State.sendDrains_sent (s : State) (h c : Nat) (rest : List Packet) (m : Migration) (l : List Place) :
    drainsSent s ((s.afterHead h rest).sendDrains h m c l) h c m.old m l :=
  ⟨(NetSide.sendDrains (s.afterHead h rest) h m c l).sameMemory, fun _ hn _ hx => State.sendDrains_queued (u := s.afterHead h rest) rfl hn c hx⟩

section
variable {h c old : Nat} {m : Migration} {l : List Place}

theorem drainsSent.withMigrations (hd : drainsSent s t h c old m l) (ms : List Migration) :
    drainsSent s { t with migrations := ms } h c old m l := hd

theorem drainsSent.undrain (hd : drainsSent s t h c old m l) (x : Place) : drainsSent s (t.undrain old x h) h c old m l :=
  hd.withMigrations _

theorem drainsSent.sendDrains (hd : drainsSent s t h c old m l) (m1 : Migration) (d : Nat) (r : List Place) :
    drainsSent s (t.sendDrains h m1 d r) h c old m l := by
  obtain ⟨hmem, hsent⟩ := hd
  exact ⟨fun a => ((NetSide.sendDrains t h m1 d r).sameMemory a).trans (hmem a), fun n hn x hx => (hsent n hn x hx).sendDrains ..⟩
end

/-- A core's drop marker sends a drain marker for the core and each engine of its tile to the new homes of the page (R58, R355). -/
theorem execDropMarker_drains {h c old k : Nat} {p : Packet} {rest : List Packet} {m : Migration} (hq : (s.homeAt h).q = p :: rest)
    (hb : p.body = .dropMarker c old k) (hc : c ≠ allCores)
    (hm : s.migrations.find? (fun m => m.old = old ∧ m.switched) = some m) :
    ∃ t, exec (.dropMarker h) s = .next t ∧ drainsSent s t h c old m (sourcesOf p.src.peer c) := by
  have hold : m.old = old := by
    have := List.find?_some hm
    simp only [Bool.decide_and, Bool.and_eq_true, decide_eq_true_eq] at this
    exact this.1
  have hsent := s.sendDrains_sent h c rest m (sourcesOf p.src.peer c)
  rw [hold] at hsent
  rw [exec_dropMarker, execDropMarker, State.takeHome_head hq]
  simp only [hb, hm, if_neg hc]
  split
  · exact ⟨_, rfl, hsent.undrain _⟩
  · split
    · exact ⟨_, rfl, ((hsent.withMigrations _).sendDrains ..).undrain _⟩
    · exact ⟨_, rfl, hsent.withMigrations _⟩

/-- What a home waits for of a migration stays as an access enters it or is forwarded. -/
theorem State.enterHome_waits (s : State) (h : Nat) (p : Packet) (n : Nat) :
    ((s.enterHome h p).homeAt n).draining = (s.homeAt n).draining ∧ ((s.enterHome h p).homeAt n).far = (s.homeAt n).far := by
  have hupd : ∀ (f : Home → Home), (∀ q, (f q).draining = q.draining ∧ (f q).far = q.far) →
      ((s.updHome h f).homeAt n).draining = (s.homeAt n).draining ∧ ((s.updHome h f).homeAt n).far = (s.homeAt n).far := fun f hf => by
    by_cases e : n = h
    · subst e
      rw [State.homeAt_updHome_self]
      exact hf _
    · rw [State.homeAt_updHome_other s f e]
      exact ⟨rfl, rfl⟩
  unfold State.enterHome
  split
  · unfold State.forwardTo
    dsimp only [State.append, State.homeAt]
    split
    · next t _ =>
      split
      · exact hupd (fun q => { q with away := q.away ++ [t] }) fun _ => ⟨rfl, rfl⟩
      · exact ⟨rfl, rfl⟩
    · exact ⟨rfl, rfl⟩
  · exact hupd (fun q => { q with q := q.q ++ [stampArrival s.mach.clock p] }) fun _ => ⟨rfl, rfl⟩

/-- What is released from a home's hold changes nothing of what it waits for. -/
theorem State.releaseHeld_waits (s : State) (h : Nat) :
    ((s.releaseHeld h).homeAt h).draining = (s.homeAt h).draining ∧ ((s.releaseHeld h).homeAt h).far = (s.homeAt h).far := by
  unfold State.releaseHeld
  dsimp only
  refine ⟨(foldl_leaves (π := fun u => (u.homeAt h).draining) (fun u (e : Place × Packet) => (u.enterHome_waits h e.2 h).1) ..).trans ?_,
    (foldl_leaves (π := fun u => (u.homeAt h).far) (fun u (e : Place × Packet) => (u.enterHome_waits h e.2 h).2) ..).trans ?_⟩
  all_goals rw [State.homeAt_updHome_self]

theorem PageSide.releaseHeld (s : State) (h : Nat) : PageSide s (s.releaseHeld h) :=
  PageSide.trans (.updHome ..) (.foldl (fun _ _ => .enterHome ..) ..)

/-- A home's entries once a drain marker has come (R58; log 96). -/
def Home.drained (q : Home) (x : Place) (c old via : Nat) : Home :=
  { q with
    draining := q.draining.filter (fun d => !(decide (d.src = x) && decide (d.core = c) && decide (d.old = old) && decide (d.via = via)))
    far := if c = allCores then q.far.filter (fun d => !(d.peer = x.peer ∧ d.old = old ∧ d.via = via))
      else q.far.map (fun d => if d.peer = x.peer ∧ d.old = old ∧ d.via = via then { d with done := d.done ++ [x] } else d) }

theorem execDrainMarker_drains {h c old via : Nat} {x : Place} {p : Packet} {rest : List Packet} (hq : (s.homeAt h).q = p :: rest)
    (hb : p.body = .drainMarker x c old via) :
    exec (.drainMarker h) s =
      .next ((((s.afterHead h rest).updHome h (fun q => q.drained x c old via)).releaseHeld h).settleIncoming) := by
  rw [exec_drainMarker, execDrainMarker, State.takeHome_head hq]
  simp only [hb]
  rfl

/-- What a home waits for once a drain marker has been performed. -/
theorem State.drained_waits (s : State) (h : Nat) (rest : List Packet) (x : Place) (c old via : Nat) :
    let t := (((s.afterHead h rest).updHome h (fun q => q.drained x c old via)).releaseHeld h).settleIncoming
    (t.homeAt h).draining = ((s.homeAt h).drained x c old via).draining ∧ (t.homeAt h).far = ((s.homeAt h).drained x c old via).far := by
  intro t
  obtain ⟨hd, hf⟩ := ((s.afterHead h rest).updHome h (fun q => q.drained x c old via)).releaseHeld_waits h
  rw [State.homeAt_updHome_self, State.afterHead, State.homeAt_updHome_self] at hd hf
  exact ⟨hd, hf⟩

/-! ### Seals (R57, R163) -/

/-- A seal or unseal that is over: its request has left, and its completion has gone to its core but for status 0 under ERRONLY. -/
def sealDone (s t : State) (q : SealReq) (rest : List SealReq) : Prop :=
  t.mach.seals = rest ∧ (q.status = 0 ∧ q.treply.getLsbD 0 = true ∨
    lastIs t (queueOf s .armature (.core q.core) 1) (.completion q.treply (BitVec.ofNat 64 q.status) 0 0 false false q.level 0 []))

theorem State.endSeal_done (hp : u.part = s.part) {q : SealReq} {rest : List SealReq} (hrest : u.mach.seals = rest) :
    sealDone s (u.endSeal q) q rest := by
  unfold State.endSeal
  split
  · next hquiet => exact ⟨hrest, .inl hquiet⟩
  · refine ⟨hrest, .inr ?_⟩
    rw [queueOf, ← State.here_congr hp, ← State.here_congr hp]
    exact State.post_lastIs ..

/-- Bytes that are written leave the requests and the part. -/
theorem State.rawPut_leaves (s : State) (pa : Nat) (bs : List Byte) :
    (s.rawPut pa bs).mach.seals = s.mach.seals ∧ (s.rawPut pa bs).part = s.part := by
  unfold State.rawPut
  split <;> exact ⟨rfl, rfl⟩

/-- The end of a seal at the leaves and in the TLBs leaves the requests and the part. -/
theorem State.endSealed_leaves (s : State) (base len : Word) :
    (s.endSealed base len).mach.seals = s.mach.seals ∧ (s.endSealed base len).part = s.part := by
  have hput : ∀ (u : State) (page : Nat), (u.putSeal false page).mach.seals = u.mach.seals ∧ (u.putSeal false page).part = u.part := by
    intro u page
    unfold State.putSeal
    split
    · exact ⟨rfl, rfl⟩
    · split
      · exact ⟨rfl, rfl⟩
      · exact u.rawPut_leaves ..
  have hdrop : ∀ (u : State) (w : Agent), (u.dropTlb w base len).mach.seals = u.mach.seals ∧ (u.dropTlb w base len).part = u.part := by
    intro u w
    unfold State.dropTlb
    dsimp only
    split <;> exact ⟨rfl, rfl⟩
  exact ⟨(foldl_leaves (π := (·.mach.seals)) (fun u w => (hdrop u w).1) ..).trans
      (foldl_leaves (π := (·.mach.seals)) (fun u page => (hput u page).1) ..),
    (foldl_leaves (π := (·.part)) (fun u w => (hdrop u w).2) ..).trans (foldl_leaves (π := (·.part)) (fun u page => (hput u page).2) ..)⟩

/-- Replicas that are dropped change page records alone (R282). -/
theorem State.dropReplicas_only (s : State) (l : List Nat) :
    ∃ ps, l.foldl (fun s p => s.dropReplicas p) s = { s with pages := ps } := by
  induction l generalizing s with
  | nil => exact ⟨_, rfl⟩
  | cons a r ih =>
    have hone : ∃ ps, s.dropReplicas a = { s with pages := ps } := by
      unfold State.dropReplicas
      split <;> exact ⟨_, rfl⟩
    obtain ⟨ps, hps⟩ := hone
    obtain ⟨qs, hqs⟩ := ih (s.dropReplicas a)
    exact ⟨qs, by rw [List.foldl_cons, hqs, hps]⟩

/-- The seal at the head completes once every module and TLB has done its part and no page of it is migrating (R163, R288). -/
theorem execSealCompletion_completes {q : SealReq} {rest : List SealReq} (hq : s.mach.seals = q :: rest)
    (hrun : s.running.isSome = true) (hon : q.on = true) (hfar : q.far = [])
    (hshoots : s.shoots.any (fun x => x.why = .seal ∧ x.base = q.base ∧ x.len = q.len) = false)
    (hmoving : s.movingIn q.base q.len = false) :
    exec .sealCompletion s = .next (({ s with mach := { s.mach with seals := rest } }).endSeal q) := by
  rw [exec_sealCompletion, execSealCompletion, hq]
  dsimp only
  rw [hshoots, hmoving]
  exact if_neg (by simp [Option.isSome_iff_ne_none.mp hrun, hon, hfar])

/-- The unseal at the head, with every other module's part of a round done: refused pages complete at once, else the replicas go and
the seal ends here or, with other modules about, is asked of them (R57, R163; log 103). -/
theorem execUnsealCompletion_answers {q : SealReq} {rest : List SealReq} (hq : s.mach.seals = q :: rest)
    (hrun : s.running.isSome = true) (hon : q.on = false) (hfar : q.far = []) :
    exec .unsealCompletion s =
      if q.status = 2 then .next (({ s with mach := { s.mach with seals := rest } }).endSeal q)
      else
        let s1 := (pagesOf q.base q.len).foldl (fun s p => s.dropReplicas p) s
        if q.ending = false ∧ !s.others.isEmpty then
          .next ({ s1 with mach := { s1.mach with seals := { q with ending := true, far := s.others } :: rest } }.askSeal .clear q.base q.len)
        else .next (({ s1 with mach := { s1.mach with seals := rest } }.endSealed q.base q.len).endSeal q) := by
  rw [exec_unsealCompletion, execUnsealCompletion, hq]
  exact if_neg (by simp [Option.isSome_iff_ne_none.mp hrun, hon, hfar])

theorem NetSide.askSeal (s : State) (a : SealAct) (base len : Word) : NetSide s (s.askSeal a base len) := .foldl (fun _ _ => .post ..) ..

/-- The clauses of an unseal. -/
theorem unseal_completes {q : SealReq} {rest : List SealReq} (hq : s.mach.seals = q :: rest) (hrun : s.running.isSome = true)
    (hon : q.on = false) (hfar : q.far = []) :
    (q.status = 2 ∨ q.ending = true ∨ s.others = [] → ∃ t, exec .unsealCompletion s = .next t ∧ sealDone s t q rest) ∧
    (q.status ≠ 2 → q.ending = false → s.others ≠ [] → ∃ t, exec .unsealCompletion s = .next t ∧
      t.mach.seals = { q with ending := true, far := s.others } :: rest) := by
  rw [execUnsealCompletion_answers hq hrun hon hfar]
  obtain ⟨ps, hps⟩ := s.dropReplicas_only (pagesOf q.base q.len)
  dsimp only
  rw [hps]
  refine ⟨fun hend => ?_, fun hst hending hothers => ?_⟩
  · split
    · exact ⟨_, rfl, State.endSeal_done rfl rfl⟩
    · next hst =>
      have hlast : ¬(q.ending = false ∧ (!s.others.isEmpty) = true) := by
        rcases hend.resolve_left hst with h | h <;> simp [h]
      rw [if_neg hlast]
      obtain ⟨hseals, hpart⟩ := State.endSealed_leaves { s with pages := ps, mach := { s.mach with seals := rest } } q.base q.len
      exact ⟨_, rfl, State.endSeal_done hpart hseals⟩
  · rw [if_neg hst, if_pos ⟨hending, by simpa using hothers⟩]
    exact ⟨_, rfl, congrArg (·.mach.seals) (NetSide.askSeal { s with pages := ps, mach := { s.mach with
      seals := { q with ending := true, far := s.others } :: rest } } .clear q.base q.len)⟩

/-! ### Walks (R352) -/

theorem takeFirst_holds {α : Type} {p : α → Bool} {l r : List α} {a : α} (h : takeFirst p l = some (a, r)) : p a = true := by
  induction l generalizing r with
  | nil => cases h
  | cons x t ih =>
    rw [takeFirst] at h
    split at h
    · next hx =>
      cases h
      exact hx
    · obtain ⟨⟨b, q⟩, hb, he⟩ := Option.map_eq_some_iff.mp h
      cases he
      exact ih hb

/-- An entry that a TLB finds is of the page. -/
theorem tlbFind_page {job : BitVec 16} {page : Nat} {l r : List TlbE} {e : TlbE} (h : tlbFind job page l = some (e, r)) : e.page = page := by
  obtain ⟨⟨a, q⟩, ha, he⟩ := Option.map_eq_some_iff.mp h
  cases he
  have := takeFirst_holds ha
  simp only [Bool.and_eq_true, decide_eq_true_eq] at this
  exact this.1

theorem State.leaf_page {va level w0 w1 w2 w3 : Nat} {e : TlbE} (h : s.leaf va level w0 w1 w2 w3 = some e) : e.page = va / 2 ^ 16 := by
  unfold State.leaf at h
  obtain ⟨-, he⟩ := Option.ite_none_right_eq_some.mp h
  exact Option.some.inj he ▸ rfl

/-- A walk finds the entry of the page of its address (R345). -/
theorem State.walkFrom_page {va fuel level table : Nat} {e : TlbE} (h : s.walkFrom va fuel level table = .ok e) : e.page = va / 2 ^ 16 := by
  induction fuel generalizing level table with
  | zero => cases h
  | succ n ih =>
    unfold State.walkFrom at h
    dsimp only at h
    split at h
    · cases h
    split at h
    · cases h
    split at h
    · cases h
    split at h
    · split at h
      · exact ih h
      · cases h
    · split at h
      · cases h
      · next l hl =>
        split at h
        · cases h
        · cases h
          exact State.leaf_page hl

/-- A page is in the TLB of a core that serves an access of this kind. -/
def tlbHas (s : State) (c : Nat) (fetch : Bool) (page : Nat) : Bool :=
  (if fetch then (s.coreAt c).itlb else (s.coreAt c).dtlb).any (fun e => e.page = page)

/-- An entry put into a core's TLB is there. -/
theorem tlbHas_put (s : State) (c : Nat) (fetch : Bool) {e : TlbE} {page : Nat} (he : e.page = page) :
    tlbHas (s.updCore c (fun k => if fetch then { k with itlb := tlbPut 16 e k.itlb } else { k with dtlb := tlbPut 32 e k.dtlb }))
      c fetch page = true := by
  rw [tlbHas, State.coreAt_updCore_self]
  cases fetch <;> simp [tlbPut, he]

/-- A look-up that finds an entry puts it into the core's TLB (R352). -/
theorem State.lookup_fills {c va : Nat} {fetch : Bool} {e : TlbE} (h : (s.lookup c va fetch).2 = .ok e) :
    tlbHas (s.lookup c va fetch).1 c fetch (va / 2 ^ 16) = true := by
  unfold State.lookup at h ⊢
  dsimp only at h ⊢
  split at h
  · next d r hd => exact tlbHas_put _ _ _ (tlbFind_page hd)
  · split at h
    · next d r hd =>
      split at hd
      · cases hd
      · exact tlbHas_put _ _ _ (tlbFind_page hd)
    · split at h
      · next d hd => exact tlbHas_put _ _ _ (State.walkFrom_page hd)
      · cases h

theorem execPageWalk_walks {c : Nat} {va : Word} {fetch : Bool} (hrun : s.running.isSome = true) (hlive : s.part.coreLive c = true)
    (hva : va.toNat < 2 ^ 56) (hmiss : tlbHas s c fetch (va.toNat / 2 ^ 16) = false) :
    exec (.pageWalk c va fetch) s = .next (s.lookup c va.toNat fetch).1 := by
  rw [exec_pageWalk, execPageWalk]
  rw [show (if fetch then (s.coreAt c).itlb else (s.coreAt c).dtlb).any (fun e => e.page = va.toNat / 2 ^ 16) = false from hmiss]
  exact if_neg (by simp [Option.isSome_iff_ne_none.mp hrun, hlive]; omega)

/-! ### Shootdowns (R353) -/

theorem NetSide.sendDrops (s : State) (c : Nat) (x : Shoot) : NetSide s (s.sendDrops c x) := by
  unfold State.sendDrops
  split
  · split
    · exact .refl s
    · exact .foldl (fun _ _ => .post ..) ..
  · exact .refl s

/-- A core with nothing in hand that names a migrating page drops the range of a shootdown; what follows is bookkeeping (R353,
R355). -/
theorem execTlbShootdown_drops {c : Nat} {base len : Word} {x : Shoot}
    (hx : s.shoots.find? (fun x => x.base = base ∧ x.len = len ∧ x.left.contains (.core c)) = some x)
    (hidle : ∀ q old, x.why = .migration q old → s.inPage c q old = false) :
    ∃ t, exec (.tlbShootdown (.core c) base len) s = .next t ∧ PageSide (s.dropTlb (.core c) base len) t := by
  have hfree : (match Agent.core c, x.why with
      | .core c, .migration p old => s.inPage c p old
      | _, _ => false) = false := by
    split
    · next hc hw =>
      cases hc
      exact hidle _ _ hw
    · rfl
  rw [exec_tlbShootdown, execTlbShootdown, hx]
  dsimp only
  refine ⟨_, if_neg fun hbusy => Bool.false_ne_true (hfree.symm.trans hbusy), ?_⟩
  refine PageSide.trans ?_ (.endShoots _)
  refine PageSide.trans ?_ (NetSide.sendDrops ..).pageSide
  exact .withShoots ..

/-- No translation of a dropped range is left in the core. -/
theorem State.dropTlb_core (s : State) (c : Nat) (base len : Word) :
    let k := (s.dropTlb (.core c) base len).coreAt c
    ∀ e ∈ k.itlb ++ k.dtlb, inRange base len e.page = false := by
  intro k e he
  have hk : k = _ := State.coreAt_updCore_self ..
  rw [hk] at he
  rcases List.mem_append.mp he with h | h
  all_goals simpa using (List.mem_filter.mp h).2

/-- Settles O50, clause by clause: an evaluation keeps `fewMigrations`, what follows a carried page or a dropped range is bookkeeping
(`PageSide`), and what a marker or a completion posts stays in its queue. -/
theorem armaturePlacesPagesAndKeepsTheTlbs : Obligations.armature_places_pages_and_keeps_the_tlbs := by
  intro s
  refine ⟨fun cs u hdue hu => ⟨_, execEvaluation_due hdue hu, rfl, rfl, fun hfew => State.placeJobs_few (t := u) hfew hu⟩,
    fun old m hm => ?_, fun h p rest hq => ⟨fun c old k m hb hc hm => execDropMarker_drains hq hb hc hm, fun x c old via hb => ?_⟩,
    fun q rest hq hrun => ⟨fun hon hfar hshoots hmoving => ?_, fun hon hfar => unseal_completes hq hrun hon hfar⟩,
    fun c va fetch hrun hlive hva hmiss => ⟨_, execPageWalk_walks hrun hlive hva hmiss, ?_, fun e he => State.lookup_fills he⟩,
    fun c base len x hx hidle => ?_⟩
  · obtain ⟨t, ht, hside⟩ := execMigrationSwitch_switches hm
    refine ⟨t, ht, fun x hx hold => ?_, fun hown hwf _ _ hout i hi => ?_⟩
    · rw [hside.migrations] at hx
      exact switchedList_switched rfl hx hold
    · obtain ⟨-, hdram, -⟩ := hwf
      rw [hside.dram]
      exact State.relocated_bytes hdram hown hout hi
  · refine ⟨_, execDrainMarker_drains hq hb, fun a => ((PageSide.releaseHeld ..).sameMemory a), fun d => ?_, fun hc d hd => ?_⟩
    · rw [(s.drained_waits h rest x c old via).1]
      simp [Home.drained, List.mem_filter, imp_iff_not_or, or_assoc]
    · rw [(s.drained_waits h rest x c old via).2, Home.drained, hc] at hd
      simpa [imp_iff_not_or] using (List.mem_filter.mp hd).2
  · exact ⟨_, execSealCompletion_completes hq hrun hon hfar hshoots hmoving, State.endSeal_done rfl rfl, fun a => by
      unfold State.endSeal
      split <;> rfl⟩
  · obtain ⟨hstate, -, -⟩ := s.lookup_frame c va.toNat fetch
    exact fun a => congrArg (·.byte a) hstate
  · obtain ⟨t, ht, hside⟩ := execTlbShootdown_drops hx hidle
    refine ⟨t, ht, fun a => hside.sameMemory a, ?_⟩
    rw [hside.coreAt]
    exact s.dropTlb_core c base len

end Sys2Proof.Machine
end

