-- ==== Sys2Proof/Proofs/ScalarForms.lean ====
section
/-! PROOFS. O1 to O6: what the scalar instructions write and where they go (R120 to R142). Each arm of `exec` is one call of a
shared form (`regForm`, `unForm`, `fpForm`, `writeX`, `branchIf`), a form with nothing in its way writes its function's value, and
the lemmas on values say what those functions are. -/

namespace Sys2Proof.Machine

open Sys2Proof Sys2Proof.Safety

/-! ### The arms of the instructions that only compute -/

section
variable (d a b c : Reg) (w n : BitVec 1) (i : BitVec 16) (j : BitVec 12) (k l : BitVec 6) (z : BitVec 3) (s : State)

theorem exec_add : exec (.add d a b w) s = regForm (.add d a b w) d a b (atWidth w (fun a b => a + b)) s := rfl
theorem exec_sub : exec (.sub d a b w) s = regForm (.sub d a b w) d a b (atWidth w (fun a b => a - b)) s := rfl
theorem exec_mul : exec (.mul d a b w) s = regForm (.mul d a b w) d a b (atWidth w (fun a b => a * b)) s := rfl
theorem exec_mulh : exec (.mulh d a b n) s = regForm (.mulh d a b n) d a b (mulHigh (n = 1)) s := rfl
theorem exec_div : exec (.div d a b w n) s = regForm (.div d a b w n) d a b (atWidth w (divide (n = 1))) s := rfl
theorem exec_rem : exec (.rem d a b w n) s = regForm (.rem d a b w n) d a b (atWidth w (remainder (n = 1))) s := rfl
theorem exec_and : exec (.and d a b) s = regForm (.and d a b) d a b (fun a b => a &&& b) s := rfl
theorem exec_or : exec (.or d a b) s = regForm (.or d a b) d a b (fun a b => a ||| b) s := rfl
theorem exec_xor : exec (.xor d a b) s = regForm (.xor d a b) d a b (fun a b => a ^^^ b) s := rfl
theorem exec_andn : exec (.andn d a b) s = regForm (.andn d a b) d a b (fun a b => a &&& ~~~b) s := rfl
theorem exec_sll : exec (.sll d a b w) s = regForm (.sll d a b w) d a b (atWidth w (fun a b => a <<< shiftCount b)) s := rfl
theorem exec_srl : exec (.srl d a b w) s = regForm (.srl d a b w) d a b (atWidth w (fun a b => a >>> shiftCount b)) s := rfl
theorem exec_sra : exec (.sra d a b w) s =
    regForm (.sra d a b w) d a b (atWidth w (fun a b => a.sshiftRight (shiftCount b))) s := rfl
theorem exec_rot : exec (.rot d a b w) s =
    regForm (.rot d a b w) d a b (atWidth w (fun a b => a.rotateRight (shiftCount b))) s := rfl
theorem exec_min : exec (.min d a b n) s = regForm (.min d a b n) d a b (pick false (n = 1)) s := rfl
theorem exec_max : exec (.max d a b n) s = regForm (.max d a b n) d a b (pick true (n = 1)) s := rfl
theorem exec_slt : exec (.slt d a b n) s = regForm (.slt d a b n) d a b (fun x y => bit (lessThan (n = 1) x y)) s := rfl
theorem exec_sel : exec (.sel d a b) s = writeX (.sel d a b) { reads := [xr a, xr b, xr d] } d
    (fun sl => if sl.rx d ≠ 0 then sl.rx a else sl.rx b) s := rfl
theorem exec_clz : exec (.clz d a w) s = unForm (.clz d a w) d a (fun x => atWidth w (fun x _ => clz x) x 0) s := rfl
theorem exec_ctz : exec (.ctz d a w) s = unForm (.ctz d a w) d a (fun x => atWidth w (fun x _ => ctz x) x 0) s := rfl
theorem exec_popc : exec (.popc d a w) s = unForm (.popc d a w) d a (fun x => atWidth w (fun x _ => popc x) x 0) s := rfl
theorem exec_sextB : exec (.sextB d a) s = unForm (.sextB d a) d a (fun x => sx (x.setWidth 8)) s := rfl
theorem exec_sextH : exec (.sextH d a) s = unForm (.sextH d a) d a (fun x => sx (x.setWidth 16)) s := rfl
theorem exec_sextW : exec (.sextW d a) s = unForm (.sextW d a) d a (fun x => sx (x.setWidth 32)) s := rfl
theorem exec_zextB : exec (.zextB d a) s = unForm (.zextB d a) d a (fun x => zx (x.setWidth 8)) s := rfl
theorem exec_zextH : exec (.zextH d a) s = unForm (.zextH d a) d a (fun x => zx (x.setWidth 16)) s := rfl
theorem exec_zextW : exec (.zextW d a) s = unForm (.zextW d a) d a (fun x => zx (x.setWidth 32)) s := rfl
theorem exec_addImm : exec (.addImm d a i) s = unForm (.addImm d a i) d a (fun x => x + sx i) s := rfl
theorem exec_andImm : exec (.andImm d a i) s = unForm (.andImm d a i) d a (fun x => x &&& zx i) s := rfl
theorem exec_orImm : exec (.orImm d a i) s = unForm (.orImm d a i) d a (fun x => x ||| zx i) s := rfl
theorem exec_xorImm : exec (.xorImm d a j) s = unForm (.xorImm d a j) d a (fun x => x ^^^ sx j) s := rfl
theorem exec_sltImm : exec (.sltImm d a j) s = unForm (.sltImm d a j) d a (fun x => bit (lessThan false x (sx j))) s := rfl
theorem exec_sltNImm : exec (.sltNImm d a j) s = unForm (.sltNImm d a j) d a (fun x => bit (lessThan true x (sx j))) s := rfl
theorem exec_addWImm : exec (.addWImm d a j) s =
    unForm (.addWImm d a j) d a (fun x => atWidth 1 (fun x y => x + y) x (sx j)) s := rfl
theorem exec_mulImm : exec (.mulImm d a j) s = unForm (.mulImm d a j) d a (fun x => x * sx j) s := rfl
theorem exec_minImm : exec (.minImm d a j) s = unForm (.minImm d a j) d a (fun x => pick false false x (sx j)) s := rfl
theorem exec_maxImm : exec (.maxImm d a j) s = unForm (.maxImm d a j) d a (fun x => pick true false x (sx j)) s := rfl
theorem exec_minNImm : exec (.minNImm d a j) s = unForm (.minNImm d a j) d a (fun x => pick false true x (sx j)) s := rfl
theorem exec_maxNImm : exec (.maxNImm d a j) s = unForm (.maxNImm d a j) d a (fun x => pick true true x (sx j)) s := rfl
theorem exec_sllImm : exec (.sllImm d a k) s =
    unForm (.sllImm d a k) d a (fun x => atWidth 0 (fun x y => x <<< shiftCount y) x (zx k)) s := rfl
theorem exec_srlImm : exec (.srlImm d a k) s =
    unForm (.srlImm d a k) d a (fun x => atWidth 0 (fun x y => x >>> shiftCount y) x (zx k)) s := rfl
theorem exec_sraImm : exec (.sraImm d a k) s =
    unForm (.sraImm d a k) d a (fun x => atWidth 0 (fun x y => x.sshiftRight (shiftCount y)) x (zx k)) s := rfl
theorem exec_rotImm : exec (.rotImm d a k) s =
    unForm (.rotImm d a k) d a (fun x => atWidth 0 (fun x y => x.rotateRight (shiftCount y)) x (zx k)) s := rfl
theorem exec_sllWImm : exec (.sllWImm d a k) s =
    unForm (.sllWImm d a k) d a (fun x => atWidth 1 (fun x y => x <<< shiftCount y) x (zx k)) s := rfl
theorem exec_srlWImm : exec (.srlWImm d a k) s =
    unForm (.srlWImm d a k) d a (fun x => atWidth 1 (fun x y => x >>> shiftCount y) x (zx k)) s := rfl
theorem exec_sraWImm : exec (.sraWImm d a k) s =
    unForm (.sraWImm d a k) d a (fun x => atWidth 1 (fun x y => x.sshiftRight (shiftCount y)) x (zx k)) s := rfl
theorem exec_rotWImm : exec (.rotWImm d a k) s =
    unForm (.rotWImm d a k) d a (fun x => atWidth 1 (fun x y => x.rotateRight (shiftCount y)) x (zx k)) s := rfl
theorem exec_bfx : exec (.bfx d a k l) s = unForm (.bfx d a k l) d a (fun x => (x >>> k.toNat) &&& maskLow (l.toNat + 1)) s := rfl
theorem exec_bfi : exec (.bfi d a k l) s =
    writeX (.bfi d a k l) { reads := [xr a, xr d] } d (fun sl => (sl.rx d &&& ~~~(maskLow (l.toNat + 1) <<< k.toNat)) |||
      ((sl.rx a &&& maskLow (l.toNat + 1)) <<< k.toNat)) s := rfl
theorem exec_lui : exec (.lui d i) s = writeX (.lui d i) {} d (fun _ => sx i <<< 16) s := rfl
theorem exec_auipc : exec (.auipc d i) s = writeX (.auipc d i) {} d (fun sl => sl.pc + (sx i <<< 16)) s := rfl
theorem exec_fadd : exec (.fadd d a b) s = fpForm (.fadd d a b) d a b Val.add s := rfl
theorem exec_fsub : exec (.fsub d a b) s = fpForm (.fsub d a b) d a b (fun x y => x.add y.neg) s := rfl
theorem exec_fmul : exec (.fmul d a b) s = fpForm (.fmul d a b) d a b Val.mul s := rfl
theorem exec_fdiv : exec (.fdiv d a b) s = fpForm (.fdiv d a b) d a b Val.div s := rfl
theorem exec_fmin : exec (.fmin d a b) s = fpPick (.fmin d a b) false d a b s := rfl
theorem exec_fmax : exec (.fmax d a b) s = fpPick (.fmax d a b) true d a b s := rfl
theorem exec_fabs : exec (.fabs d a) s = writeX (.fabs d a) { reads := [xr a] } d (fun sl => sl.rx a &&& 0x7FFFFFFF) s := rfl
theorem exec_fcmpEq : exec (.fcmpEq d a b) s = fpCompare (.fcmpEq d a b) 0 d a b s := rfl
theorem exec_fcmpNe : exec (.fcmpNe d a b) s = fpCompare (.fcmpNe d a b) 1 d a b s := rfl
theorem exec_fcmpLt : exec (.fcmpLt d a b) s = fpCompare (.fcmpLt d a b) 2 d a b s := rfl
theorem exec_fcmpLe : exec (.fcmpLe d a b) s = fpCompare (.fcmpLe d a b) 3 d a b s := rfl
theorem exec_fcmpGt : exec (.fcmpGt d a b) s = fpCompare (.fcmpGt d a b) 4 d a b s := rfl
theorem exec_fcmpGe : exec (.fcmpGe d a b) s = fpCompare (.fcmpGe d a b) 5 d a b s := rfl
theorem exec_fcvtF32I : exec (.fcvtF32I d a) s =
    writeX (.fcvtF32I d a) { reads := [xr a] } d (fun sl => toF32 sl.frm (intVal (sl.rx a))) s := rfl
theorem exec_fcvtIF32 : exec (.fcvtIF32 d a) s = writeX (.fcvtIF32 d a) { reads := [xr a] } d
    (fun sl => toI64 (arithRnd sl.frm) (f32Of (sl.rx a))) s := rfl
theorem exec_fcvtF32Bf16 : exec (.fcvtF32Bf16 d a) s = writeX (.fcvtF32Bf16 d a) { reads := [xr a] } d
    (fun sl => BitVec.ofNat 64 (convert 0 .rne (decodeElt 1 ((sl.rx a).toNat % 2 ^ 16)))) s := rfl
theorem exec_fcvtBf16F32 : exec (.fcvtBf16F32 d a) s = writeX (.fcvtBf16F32 d a) { reads := [xr a] } d
    (fun sl => BitVec.ofNat 64 (convert 1 (arithRnd sl.frm) (f32Of (sl.rx a)))) s := rfl
theorem exec_fma : exec (.fma d a b c) s = writeX (.fma d a b c) { reads := [xr a, xr b, xr c] } d
    (fun sl => toF32 sl.frm (((f32Of (sl.rx a)).mul (f32Of (sl.rx b))).add (f32Of (sl.rx c)))) s := rfl
theorem exec_lea : exec (.lea d a b z) s =
    writeX (.lea d a b z) { reads := [xr a, xr b] } d (fun sl => sl.rx a + (sl.rx b <<< z.toNat)) s := rfl
theorem exec_gaform : exec (.gaform d a b) s = writeX (.gaform d a b) { reads := [xr a, xr b] } d
    (fun sl => s.job.sramBase + ((sl.rx a &&& 0x3FF) <<< 20) + (sl.rx b &&& 0xFFFFF)) s := rfl
theorem exec_gatile : exec (.gatile d a) s = writeX (.gatile d a) { reads := [xr a] } d (fun sl =>
      if s.job.sramBase.toNat ≤ (sl.rx a).toNat ∧ (sl.rx a).toNat < s.job.sramBase.toNat + 2 ^ 30 then
        ((sl.rx a - s.job.sramBase) >>> 20) &&& 0x3FF
      else BitVec.allOnes 64) s := rfl
theorem exec_padd : exec (.padd d a b) s = writeX (.padd d a b) { reads := [xr a, xr b] } d
    (fun sl => (sl.rx a &&& ~~~0xFFFFF#64) ||| ((sl.rx a + sl.rx b) &&& 0xFFFFF)) s := rfl

end

/-! ### What is written to X[xd] (R119) -/

/-- An instruction that only computes, with nothing in its way: X[xd] is written and the slot goes on. -/
theorem writeX_writes {s : State} {o : Out} {i : Instr} {n : Need} {d : Reg} {f : Slot → Word} {v : Word}
    (ho : o = writeX i n d f s) (hr : ready { n with writes := [xr d] } s = true) (hv : f s.slot = v) :
    o = .next (s.setX d v).retire := by
  rw [ho, writeX_ready hr, hv]

/-! ### Values of the register forms (R120 to R122) -/

section
variable {m : Nat} (w n : BitVec 1) (x y : Word)

/-- An operation at the width that `.w` names, where its results at both widths are known (R120). -/
theorem atWidth_eq_atN {f : {m : Nat} → BitVec m → BitVec m → BitVec m} {r64 : Word} {r32 : BitVec 32}
    (h64 : f x y = r64) (h32 : f (low x) (low y) = r32) : atWidth w f x y = atN w r64 r32 := by
  rw [← h64, ← h32]
  rfl

theorem mulHigh_eq : mulHigh (n = 1) x y =
    if n = 1 then BitVec.ofNat 64 (x.toNat * y.toNat / 2 ^ 64) else BitVec.ofInt 64 (x.toInt * y.toInt / 2 ^ 64) := by
  simp only [mulHigh, decide_eq_true_eq]

theorem divide_eq (a b : BitVec m) : divide (n = 1) a b =
    if b = 0 then BitVec.allOnes m else if n = 1 then a / b else a.sdiv b := by
  simp only [divide, decide_eq_true_eq]

theorem remainder_eq (a b : BitVec m) : remainder (n = 1) a b =
    if b = 0 then a else if n = 1 then a % b else a.srem b := by
  simp only [remainder, decide_eq_true_eq]

theorem lessThan_eq (a b : BitVec m) : lessThan (n = 1) a b = if n = 1 then a.ult b else a.slt b := by
  simp only [lessThan, decide_eq_true_eq]

theorem bit_eq_oneIf (b : Bool) : bit b = oneIf (b = true) := rfl

theorem pick_min_eq (uns : Bool) : pick false uns x y = if lessThan uns x y then x else y := by
  simp only [pick, Bool.bne_false]

theorem pick_max_eq (uns : Bool) : pick true uns x y = if lessThan uns x y then y else x := by
  cases h : lessThan uns x y <;> simp [pick, h]

/-- A count at width 32 is taken modulo 32 (R120, R121). -/
theorem shiftCount_low : shiftCount (low y) = y.toNat % 32 := by
  rw [shiftCount, low, BitVec.toNat_setWidth]
  exact Nat.mod_mod_of_dvd _ (by decide)

theorem getLsbD_low {i : Nat} (hi : i < 32) : (low x).getLsbD i = x.getLsbD i := by
  simp [low, hi]

/-- The low `k` bits of a word, zero-extended, are the word under a mask of `k` ones. -/
theorem zx_setWidth (k : Nat) (hk : k ≤ 64) : zx (x.setWidth k) = x &&& BitVec.ofNat 64 (2 ^ k - 1) := by
  have hpow : 2 ^ k ≤ 2 ^ 64 := Nat.pow_le_pow_right (by decide) hk
  have hpos : 0 < 2 ^ k := Nat.two_pow_pos k
  apply BitVec.eq_of_toNat_eq
  rw [zx, BitVec.toNat_and, BitVec.toNat_ofNat, Nat.mod_eq_of_lt (by omega), Nat.and_two_pow_sub_one_eq_mod,
    BitVec.toNat_setWidth, BitVec.toNat_setWidth, Nat.mod_eq_of_lt]
  exact (Nat.mod_lt _ hpos).trans_le hpow

/-- The search for a one from place `i` on: none below its answer, one at it unless the search ran out (R121). -/
theorem ctzGo_spec (a : BitVec m) (fuel i : Nat) :
    i ≤ ctzGo a fuel i ∧ ctzGo a fuel i ≤ i + fuel ∧ (∀ j, i ≤ j → j < ctzGo a fuel i → a.getLsbD j = false) ∧
      (ctzGo a fuel i < i + fuel → a.getLsbD (ctzGo a fuel i) = true) := by
  induction fuel generalizing i with
  | zero => exact ⟨le_refl i, le_refl i, fun j hij hj => absurd hj (by simpa [ctzGo] using hij), fun h => absurd h (lt_irrefl i)⟩
  | succ fuel ih =>
    rw [ctzGo]
    cases hbit : a.getLsbD i with
    | true => exact ⟨le_refl i, Nat.le_add_right .., fun j hij hj => absurd hj (by simpa using hij), fun _ => hbit⟩
    | false =>
      obtain ⟨hlo, hhi, hzero, hone⟩ := ih (i + 1)
      simp only [Bool.false_eq_true, if_false]
      refine ⟨by omega, by omega, fun j hij hj => ?_, fun h => hone (by omega)⟩
      rcases Nat.eq_or_lt_of_le hij with rfl | hij
      · exact hbit
      · exact hzero j hij hj

theorem ctzGo_low_spec : ctzGo (low x) 32 0 ≤ 32 ∧ (∀ i, i < ctzGo (low x) 32 0 → x.getLsbD i = false) ∧
    (ctzGo (low x) 32 0 < 32 → x.getLsbD (ctzGo (low x) 32 0) = true) := by
  obtain ⟨-, hle, hzero, hone⟩ := ctzGo_spec (low x) 32 0
  rw [Nat.zero_add] at hle hone
  refine ⟨hle, fun i hi => ?_, fun h => ?_⟩
  · rw [← getLsbD_low x (hi.trans_le hle)]
    exact hzero i (Nat.zero_le i) hi
  · rw [← getLsbD_low x h]
    exact hone h

theorem countOnes_eq_countP (a : BitVec m) (k : Nat) : countOnes a k = (List.range k).countP (fun i => a.getLsbD i) := by
  induction k with
  | zero => rfl
  | succ k ih => rw [countOnes, ih, List.range_succ, List.countP_append, List.countP_singleton, Nat.add_comm]

theorem countOnes_low : countOnes (low x) 32 = (List.range 32).countP (fun i => x.getLsbD i) := by
  rw [countOnes_eq_countP]
  exact List.countP_congr fun i hi => by rw [getLsbD_low x (List.mem_range.mp hi)]

end

/-- Settles O1: each form's arm, the needs that hold and the value that its function has. -/
theorem registerFormsGiveTheResultsOfTable071 : Obligations.register_forms_give_the_results_of_table_07_1 := by
  intro s d a b w n x y c done
  refine ⟨fun hr => ?_, fun hr => ?_, fun hr => ?_⟩
  · exact ⟨writeX_writes (exec_add ..) hr (atWidth_eq_atN w x y rfl rfl),
      writeX_writes (exec_sub ..) hr (atWidth_eq_atN w x y rfl rfl),
      writeX_writes (exec_mul ..) hr (atWidth_eq_atN w x y rfl rfl),
      writeX_writes (exec_mulh ..) hr (mulHigh_eq n x y),
      writeX_writes (exec_div ..) hr (atWidth_eq_atN w x y (divide_eq ..) (divide_eq ..)),
      writeX_writes (exec_rem ..) hr (atWidth_eq_atN w x y (remainder_eq ..) (remainder_eq ..)),
      writeX_writes (exec_and ..) hr rfl,
      writeX_writes (exec_or ..) hr rfl,
      writeX_writes (exec_xor ..) hr rfl,
      writeX_writes (exec_andn ..) hr rfl,
      writeX_writes (exec_sll ..) hr (atWidth_eq_atN w x y rfl (congrArg (low x <<< ·) (shiftCount_low y))),
      writeX_writes (exec_srl ..) hr (atWidth_eq_atN w x y rfl (congrArg (low x >>> ·) (shiftCount_low y))),
      writeX_writes (exec_sra ..) hr (atWidth_eq_atN w x y rfl (congrArg (low x).sshiftRight (shiftCount_low y))),
      writeX_writes (exec_rot ..) hr (atWidth_eq_atN w x y rfl (congrArg (low x).rotateRight (shiftCount_low y))),
      writeX_writes (exec_min ..) hr ((pick_min_eq ..).trans (by rw [lessThan_eq])),
      writeX_writes (exec_max ..) hr ((pick_max_eq ..).trans (by rw [lessThan_eq])),
      writeX_writes (exec_slt ..) hr ((bit_eq_oneIf _).trans (by rw [lessThan_eq]))⟩
  · exact writeX_writes (exec_sel ..) hr rfl
  · refine ⟨writeX_writes (exec_clz ..) hr (atWidth_eq_atN w x 0 rfl rfl),
      ⟨ctzGo x 64 0, ctzGo (low x) 32 0, writeX_writes (exec_ctz ..) hr (atWidth_eq_atN w x 0 rfl rfl), ?_, ctzGo_low_spec x⟩,
      writeX_writes (exec_popc ..) hr (atWidth_eq_atN w x 0 (congrArg (BitVec.ofNat 64) (countOnes_eq_countP x 64))
        (congrArg (BitVec.ofNat 32) (countOnes_low x))),
      writeX_writes (exec_sextB ..) hr rfl,
      writeX_writes (exec_sextH ..) hr rfl,
      writeX_writes (exec_sextW ..) hr rfl,
      writeX_writes (exec_zextB ..) hr (zx_setWidth x 8 (by decide)),
      writeX_writes (exec_zextH ..) hr (zx_setWidth x 16 (by decide)),
      writeX_writes (exec_zextW ..) hr (zx_setWidth x 32 (by decide))⟩
    obtain ⟨-, hle, hzero, hone⟩ := ctzGo_spec x 64 0
    rw [Nat.zero_add] at hle hone
    exact ⟨hle, fun i => hzero i (Nat.zero_le i), hone⟩

/-! ### Values of the immediate, shift and bit-field forms (R123 to R125) -/

section
variable {x y : Word}

theorem atWidth_zero (f : {m : Nat} → BitVec m → BitVec m → BitVec m) : atWidth 0 f x y = f x y := if_neg (by decide)

theorem atWidth_one (f : {m : Nat} → BitVec m → BitVec m → BitVec m) :
    atWidth 1 f x y = (f (low x) (low y)).signExtend 64 := if_pos rfl

theorem low_add : low x + low y = low (x + y) := (BitVec.setWidth_add x y (by decide)).symm

/-- A count of six bits is its own shift count at width 64 (R125). -/
theorem shiftCount_zx (c : BitVec 6) : shiftCount (zx c) = c.toNat := by
  rw [shiftCount, zx, BitVec.toNat_setWidth, Nat.mod_eq_of_lt (a := c.toNat), Nat.mod_eq_of_lt] <;> omega

/-- A count below 32 is its own shift count at width 32 (R125, Table 06-5). -/
theorem shiftCount_low_zx {c : BitVec 6} (hc : c.toNat ≤ 31) : shiftCount (low (zx c)) = c.toNat := by
  rw [shiftCount_low, zx, BitVec.toNat_setWidth, Nat.mod_eq_of_lt (a := c.toNat), Nat.mod_eq_of_lt] <;> omega

theorem getLsbD_maskLow (n b : Nat) : (maskLow n).getLsbD b = (decide (b < 64) && decide (b < n)) := by
  rw [maskLow, BitVec.getLsbD_ofNat, Nat.testBit_two_pow_sub_one]

/-- A field of `n` bits at `l` replaced by the low bits of `x`: its bits are those of `x`, all others those of `y` (R125). -/
theorem getLsbD_insertField {l n b : Nat} (hb : b < 64) :
    ((y &&& ~~~(maskLow n <<< l)) ||| ((x &&& maskLow n) <<< l)).getLsbD b =
      if l ≤ b ∧ b < l + n then x.getLsbD (b - l) else y.getLsbD b := by
  simp only [BitVec.getLsbD_or, BitVec.getLsbD_and, BitVec.getLsbD_not, BitVec.getLsbD_shiftLeft, getLsbD_maskLow]
  by_cases hlo : b < l
  · simp [hb, hlo, Nat.not_le.mpr hlo]
  · have hin : b - l < n ↔ b < l + n := by omega
    have h64 : b - l < 64 := by omega
    by_cases hhi : b < l + n <;> simp [hb, hlo, h64, hin, hhi, Nat.not_lt.mp hlo]

end

/-- Settles O2: each form's arm, the needs that hold and the value that its function has. -/
theorem immediateFormsGiveTheResultsOfTheirTables : Obligations.immediate_forms_give_the_results_of_their_tables := by
  intro s d a i j c l w x y k done
  refine ⟨fun hr => ?_, fun hr _ => ?_, fun hr => ?_⟩
  · refine ⟨writeX_writes (exec_addImm ..) hr rfl,
      writeX_writes (exec_andImm ..) hr rfl,
      writeX_writes (exec_orImm ..) hr rfl,
      writeX_writes (exec_xorImm ..) hr rfl,
      writeX_writes (exec_sltImm ..) hr (bit_eq_oneIf _),
      writeX_writes (exec_sltNImm ..) hr (bit_eq_oneIf _),
      writeX_writes (exec_addWImm ..) hr ((atWidth_one _).trans (congrArg _ low_add)),
      writeX_writes (exec_mulImm ..) hr rfl,
      writeX_writes (exec_minImm ..) hr (pick_min_eq ..),
      writeX_writes (exec_maxImm ..) hr (pick_max_eq ..),
      writeX_writes (exec_minNImm ..) hr (pick_min_eq ..),
      writeX_writes (exec_maxNImm ..) hr (pick_max_eq ..),
      writeX_writes (exec_sllImm ..) hr ((atWidth_zero _).trans (congrArg (x <<< ·) (shiftCount_zx c))),
      writeX_writes (exec_srlImm ..) hr ((atWidth_zero _).trans (congrArg (x >>> ·) (shiftCount_zx c))),
      writeX_writes (exec_sraImm ..) hr ((atWidth_zero _).trans (congrArg x.sshiftRight (shiftCount_zx c))),
      writeX_writes (exec_rotImm ..) hr ((atWidth_zero _).trans (congrArg x.rotateRight (shiftCount_zx c))),
      fun hc => ?_,
      fun _ => writeX_writes (exec_bfx ..) hr rfl⟩
    have hcount := shiftCount_low_zx hc
    exact ⟨writeX_writes (exec_sllWImm ..) hr ((atWidth_one _).trans (congrArg (fun n => (low x <<< n).signExtend 64) hcount)),
      writeX_writes (exec_srlWImm ..) hr ((atWidth_one _).trans (congrArg (fun n => (low x >>> n).signExtend 64) hcount)),
      writeX_writes (exec_sraWImm ..) hr ((atWidth_one _).trans (congrArg (fun n => ((low x).sshiftRight n).signExtend 64) hcount)),
      writeX_writes (exec_rotWImm ..) hr ((atWidth_one _).trans (congrArg (fun n => ((low x).rotateRight n).signExtend 64) hcount))⟩
  · refine ⟨_, writeX_writes (exec_bfi ..) hr rfl, fun b hb => ?_⟩
    rw [Nat.add_assoc]
    exact getLsbD_insertField hb
  · exact ⟨writeX_writes (exec_lui ..) hr rfl, writeX_writes (exec_auipc ..) hr rfl⟩

/-! ### Scalar FP32 (R127 to R131) -/

/-- Settles O3: each form's arm names the value, whose rounding is the model's. -/
theorem fp32FormsRoundOnceAndClearTheUpperHalf : Obligations.fp32_forms_round_once_and_clear_the_upper_half := by
  intro s d a b c f code rnd done rounded rel
  refine ⟨fun hr => ?_, fun hr => ?_, fun hr => writeX_writes (exec_fma ..) hr rfl⟩
  · exact ⟨writeX_writes (exec_fadd ..) hr rfl,
      writeX_writes (exec_fsub ..) hr rfl,
      writeX_writes (exec_fmul ..) hr rfl,
      writeX_writes (exec_fdiv ..) hr rfl,
      writeX_writes (exec_fmin ..) hr rfl,
      writeX_writes (exec_fmax ..) hr rfl,
      writeX_writes (exec_fcmpEq ..) hr rfl,
      writeX_writes (exec_fcmpNe ..) hr rfl,
      writeX_writes (exec_fcmpLt ..) hr rfl,
      writeX_writes (exec_fcmpLe ..) hr rfl,
      writeX_writes (exec_fcmpGt ..) hr rfl,
      writeX_writes (exec_fcmpGe ..) hr rfl⟩
  · exact ⟨writeX_writes (exec_fabs ..) hr rfl,
      writeX_writes (exec_fcvtF32I ..) hr rfl,
      writeX_writes (exec_fcvtIF32 ..) hr rfl,
      writeX_writes (exec_fcvtF32Bf16 ..) hr rfl,
      writeX_writes (exec_fcvtBf16F32 ..) hr rfl⟩

/-! ### Address arithmetic (R133 to R137) -/

/-- The pointer of `padd` has X[xa]'s bits from 20 upwards, and below them the sum's (R136). -/
theorem getLsbD_padd {x y : Word} {b : Nat} (hb : b < 64) :
    ((x &&& ~~~0xFFFFF#64) ||| (y &&& 0xFFFFF)).getLsbD b = if b < 20 then y.getLsbD b else x.getLsbD b := by
  have hfield := getLsbD_insertField (x := y) (y := x) (l := 0) (n := 20) hb
  simp only [BitVec.shiftLeft_zero, Nat.zero_le, true_and, Nat.zero_add, Nat.sub_zero] at hfield
  exact hfield

theorem padd_ushiftRight (x y : Word) : ((x &&& ~~~0xFFFFF#64) ||| (y &&& 0xFFFFF)) >>> 20 = x >>> 20 := by
  refine BitVec.eq_of_getLsbD_eq fun i _ => ?_
  rw [BitVec.getLsbD_ushiftRight, BitVec.getLsbD_ushiftRight]
  rcases Nat.lt_or_ge (20 + i) 64 with hi | hi
  · rw [getLsbD_padd hi, if_neg (by omega)]
  · rw [BitVec.getLsbD_of_ge _ _ hi, BitVec.getLsbD_of_ge _ _ hi]

theorem padd_and_mask (x y : Word) : ((x &&& ~~~0xFFFFF#64) ||| (y &&& 0xFFFFF)) &&& 0xFFFFF = y &&& 0xFFFFF := by
  have hmask (b : Nat) : (0xFFFFF : Word).getLsbD b = (decide (b < 64) && decide (b < 20)) := getLsbD_maskLow 20 b
  refine BitVec.eq_of_getLsbD_eq fun i hi => ?_
  rw [BitVec.getLsbD_and, BitVec.getLsbD_and, getLsbD_padd hi, hmask]
  by_cases hlow : i < 20 <;> simp [hlow]

/-- Settles O4: the sums are those of the arms, and `padd` keeps the bits from 20 upwards. -/
theorem addressFormsComputeInTheWindow : Obligations.address_forms_compute_in_the_window := by
  intro s d a b k x y base done
  exact ⟨fun hr => ⟨fun _ => writeX_writes (exec_lea ..) hr rfl, writeX_writes (exec_gaform ..) hr rfl, _,
      writeX_writes (exec_padd ..) hr rfl, padd_ushiftRight x (x + y), padd_and_mask x (x + y)⟩,
    fun hr => writeX_writes (exec_gatile ..) hr rfl⟩

theorem exec_gahome (d a : Reg) (s : State) : exec (.gahome d a) s = execGahome d a s := rfl

/-- Settles O5: the arm issues, and then goes by what translation answers. -/
theorem gahomeWritesTheHomeItsPeerAndTheDistance : Obligations.gahome_writes_the_home_its_peer_and_the_distance := by
  intro s d a hr
  rw [exec_gahome, execGahome, issue_ready hr, withXl]
  exact ⟨fun x t hok => by rw [hok], fun cause index t hbad => by rw [hbad]⟩

/-! ### Branches, jumps and `loop` (R139 to R142) -/

section
variable (d a b : Reg) (disp : BitVec 16) (far : BitVec 26) (s : State)

theorem exec_beq : exec (.beq a b disp) s = branchIf (.beq a b disp) 0 a b disp s := rfl
theorem exec_bne : exec (.bne a b disp) s = branchIf (.bne a b disp) 1 a b disp s := rfl
theorem exec_blt : exec (.blt a b disp) s = branchIf (.blt a b disp) 2 a b disp s := rfl
theorem exec_bge : exec (.bge a b disp) s = branchIf (.bge a b disp) 3 a b disp s := rfl
theorem exec_blo : exec (.blo a b disp) s = branchIf (.blo a b disp) 4 a b disp s := rfl
theorem exec_bhs : exec (.bhs a b disp) s = branchIf (.bhs a b disp) 5 a b disp s := rfl
theorem exec_j : exec (.j far) s = execJ far s := rfl
theorem exec_jal : exec (.jal far) s = execJal far s := rfl
theorem exec_jalr : exec (.jalr d a) s = execJalr d a s := rfl
theorem exec_loop : exec (.loop a disp) s = execLoop a disp s := rfl

end

/-- A branch with nothing in its way goes by its relation. -/
theorem branchIf_goes {s : State} {o : Out} {i : Instr} {cc : Nat} {a b : Reg} {disp : BitVec 16} {p : Bool}
    (ho : o = branchIf i cc a b disp s) (hr : ready { reads := [xr a, xr b] } s = true)
    (hp : branchRel cc (s.slot.rx a) (s.slot.rx b) = p) :
    o = .next (if p then s.jump (s.slot.pc + disp.signExtend 64 * 4) else s.retire) := by
  rw [ho, branchIf, issue_ready hr, hp]
  cases p <;> rfl

/-- An instruction that reads and writes nothing always issues. -/
theorem ready_of_no_needs (s : State) : ready {} s = true := rfl

/-- Settles O6: the relation of each branch is the comparison named; jumps, `jalr` and `loop` are their arms once they issue. -/
theorem branchesAndJumpsTransferAsStated : Obligations.branches_and_jumps_transfer_as_stated := by
  intro s d a b disp far x y pc go
  refine ⟨fun hr => ?_, ?_, fun hr => ?_, fun hr => ?_, fun hr => ?_⟩
  · exact ⟨branchIf_goes (exec_beq ..) hr rfl,
      branchIf_goes (exec_bne ..) hr (decide_not ..).symm,
      branchIf_goes (exec_blt ..) hr rfl,
      branchIf_goes (exec_bge ..) hr ((decide_not ..).symm.trans (decide_eq_decide.mpr Int.not_lt)),
      branchIf_goes (exec_blo ..) hr rfl,
      branchIf_goes (exec_bhs ..) hr ((decide_not ..).symm.trans (decide_eq_decide.mpr Nat.not_lt))⟩
  · rw [exec_j, execJ, issue_ready (ready_of_no_needs s)]
    rfl
  · rw [exec_jal, execJal, issue_ready hr]
    rfl
  · rw [exec_jalr, execJalr, issue_ready hr]
    exact ⟨fun haligned => if_neg (not_not.mpr haligned), fun hodd => if_pos hodd⟩
  · rw [exec_loop, execLoop, issue_ready hr]
    exact (apply_ite Host.Outcome.next ..).symm

end Sys2Proof.Machine
end

