-- ==== Sys2Proof/Proofs/ScalarFrame.lean ====
section
/-! PROOFS. O7: the frame of the instructions that only compute (R12, R119, R138). All of them are `writeX`, whose issue ends in one
of four ways; each way keeps the frame. -/

namespace Sys2Proof.Machine

open Sys2Proof Sys2Proof.Safety

variable {s t : State} {d : Reg}

/-! ### An instruction that only computes (R119) -/

/-- An outcome of an instruction that only writes X[d]: one of `writeX`. -/
def Computes (d : Reg) (s : State) (o : Out) : Prop := ∃ i n f, o = writeX i n d f s

/-- Every instruction with a scalar destination only writes it. -/
theorem exec_computes {i : Instr} (h : scalarDest i = some d) (s : State) : Computes d s (exec i s) := by
  unfold scalarDest at h
  split at h <;> cases h
  exacts [⟨_, _, _, exec_add ..⟩, ⟨_, _, _, exec_sub ..⟩, ⟨_, _, _, exec_mul ..⟩, ⟨_, _, _, exec_mulh ..⟩,
    ⟨_, _, _, exec_div ..⟩, ⟨_, _, _, exec_rem ..⟩, ⟨_, _, _, exec_and ..⟩, ⟨_, _, _, exec_or ..⟩, ⟨_, _, _, exec_xor ..⟩,
    ⟨_, _, _, exec_andn ..⟩, ⟨_, _, _, exec_sll ..⟩, ⟨_, _, _, exec_srl ..⟩, ⟨_, _, _, exec_sra ..⟩, ⟨_, _, _, exec_rot ..⟩,
    ⟨_, _, _, exec_clz ..⟩, ⟨_, _, _, exec_ctz ..⟩, ⟨_, _, _, exec_popc ..⟩, ⟨_, _, _, exec_min ..⟩, ⟨_, _, _, exec_max ..⟩,
    ⟨_, _, _, exec_slt ..⟩, ⟨_, _, _, exec_sel ..⟩, ⟨_, _, _, exec_sextB ..⟩, ⟨_, _, _, exec_sextH ..⟩, ⟨_, _, _, exec_sextW ..⟩,
    ⟨_, _, _, exec_zextB ..⟩, ⟨_, _, _, exec_zextH ..⟩, ⟨_, _, _, exec_zextW ..⟩, ⟨_, _, _, exec_addImm ..⟩,
    ⟨_, _, _, exec_andImm ..⟩, ⟨_, _, _, exec_orImm ..⟩, ⟨_, _, _, exec_xorImm ..⟩, ⟨_, _, _, exec_sltImm ..⟩,
    ⟨_, _, _, exec_sltNImm ..⟩, ⟨_, _, _, exec_addWImm ..⟩, ⟨_, _, _, exec_mulImm ..⟩, ⟨_, _, _, exec_minImm ..⟩,
    ⟨_, _, _, exec_maxImm ..⟩, ⟨_, _, _, exec_minNImm ..⟩, ⟨_, _, _, exec_maxNImm ..⟩, ⟨_, _, _, exec_sllImm ..⟩,
    ⟨_, _, _, exec_srlImm ..⟩, ⟨_, _, _, exec_sraImm ..⟩, ⟨_, _, _, exec_rotImm ..⟩, ⟨_, _, _, exec_sllWImm ..⟩,
    ⟨_, _, _, exec_srlWImm ..⟩, ⟨_, _, _, exec_sraWImm ..⟩, ⟨_, _, _, exec_rotWImm ..⟩, ⟨_, _, _, exec_bfx ..⟩,
    ⟨_, _, _, exec_bfi ..⟩, ⟨_, _, _, exec_lui ..⟩, ⟨_, _, _, exec_auipc ..⟩, ⟨_, _, _, exec_fadd ..⟩, ⟨_, _, _, exec_fsub ..⟩,
    ⟨_, _, _, exec_fmul ..⟩, ⟨_, _, _, exec_fdiv ..⟩, ⟨_, _, _, exec_fmin ..⟩, ⟨_, _, _, exec_fmax ..⟩, ⟨_, _, _, exec_fabs ..⟩,
    ⟨_, _, _, exec_fcmpEq ..⟩, ⟨_, _, _, exec_fcmpNe ..⟩, ⟨_, _, _, exec_fcmpLt ..⟩, ⟨_, _, _, exec_fcmpLe ..⟩,
    ⟨_, _, _, exec_fcmpGt ..⟩, ⟨_, _, _, exec_fcmpGe ..⟩, ⟨_, _, _, exec_fcvtF32I ..⟩, ⟨_, _, _, exec_fcvtIF32 ..⟩,
    ⟨_, _, _, exec_fcvtF32Bf16 ..⟩, ⟨_, _, _, exec_fcvtBf16F32 ..⟩, ⟨_, _, _, exec_fma ..⟩, ⟨_, _, _, exec_lea ..⟩,
    ⟨_, _, _, exec_gaform ..⟩, ⟨_, _, _, exec_gatile ..⟩, ⟨_, _, _, exec_padd ..⟩]

/-! ### What the parts of its issue leave unchanged (R12, R13, R119, R138) -/

/-- The frame of an instruction that only computes, with X[d] its destination: the words of O7. -/
def ComputeFrame (d : Reg) (s t : State) : Prop :=
  sameSlotBut d s.slot (t.slotAt s.cur.1 s.cur.2) ∧ otherSlotsSame s t ∧ sameMemory s t ∧ sameOutside s t

/-- Both memories lie outside the slots, the cores and Equinox. -/
theorem sameMemory_of_sameOutside (h : sameOutside s t) : sameMemory s t := by
  have hsram : t.mach.sram = s.mach.sram := congrArg (·.mach.sram) h
  have hdram : t.dram = s.dram := congrArg (·.dram) h
  exact fun a => by simp only [State.byte, hsram, hdram]

theorem sameSlotBut_phase (d : Reg) (sl : Slot) (p : Phase) : sameSlotBut d sl { sl with phase := p } :=
  ⟨fun _ _ => rfl, fun _ _ => rfl, .inl rfl⟩

theorem State.slotAt_upd_other (s : State) {c l : Nat} (f : Slot → Slot) (h : slotKey c l ≠ slotKey s.cur.1 s.cur.2) :
    (s.upd f).slotAt c l = s.slotAt c l := s.slotAt_setSlotAt_other _ h

theorem State.slotAt_setX_other (s : State) {c l : Nat} (d : Reg) (v : Word) (h : slotKey c l ≠ slotKey s.cur.1 s.cur.2) :
    (s.setX d v).slotAt c l = s.slotAt c l := s.slotAt_setSlotAt_other _ h

/-- A register written whole leaves every other poison marker (R13). -/
theorem Slot.poisonAt_wx_other (sl : Slot) {r : Reg} {n : Nat} (h : n ≠ r.toNat) (v : Word) :
    (sl.wx r v).poisonAt n = sl.poisonAt n := by
  unfold Slot.wx
  split
  · rfl
  · simp [Slot.poisonAt, Vector.getD, h.symm]

theorem sameSlotBut_wx (d : Reg) (sl : Slot) (v : Word) (pc : Word) (p : Phase) :
    sameSlotBut d sl { sl.wx d v with pc := pc, phase := p } := by
  refine ⟨fun r hr => sl.rx_wx_other v hr, fun n hn => sl.poisonAt_wx_other hn v, .inl ?_⟩
  unfold Slot.wx
  split <;> rfl

theorem ComputeFrame.retire (d : Reg) (s : State) (v : Word) : ComputeFrame d s (s.setX d v).retire := by
  have hout : sameOutside s (s.setX d v).retire := rfl
  refine ⟨?_, fun c l hne => ?_, sameMemory_of_sameOutside hout, hout⟩
  · rw [show (s.setX d v).retire.slotAt s.cur.1 s.cur.2 = (s.setX d v).retire.slot from rfl, State.slot_setX_retire]
    exact sameSlotBut_wx ..
  · exact ((s.setX d v).slotAt_upd_other _ hne).trans (s.slotAt_setX_other d v hne)

theorem ComputeFrame.stall (d : Reg) (s : State) : ComputeFrame d s s.stall := by
  have hout : sameOutside s s.stall := rfl
  refine ⟨?_, fun c l hne => s.slotAt_upd_other _ hne, sameMemory_of_sameOutside hout, hout⟩
  rw [show s.stall.slotAt s.cur.1 s.cur.2 = s.stall.slot from rfl, State.stall, State.slot_upd]
  exact sameSlotBut_phase ..

/-- A record on its lane changes Equinox only. -/
theorem State.sameOutside_emit {u : State} (h : sameOutside s u) (r : FaultRec) : sameOutside s (u.emit r) := by
  unfold State.emit
  split <;> exact h

section
variable (s : State) (c l cause : Nat) (tval epc : Word) (async : Bool) (index : Nat) (addr : Word)

/-- Of the slot that takes a cause only the PC, the phase, CAUSE, EPC, TVAL and what a parked slot keeps change (R242, R329). -/
theorem State.slotAt_takeTrap : ∃ pc p cs ep tv held dbg,
    (s.takeTrap c l cause tval epc async index addr).slotAt c l =
      { s.slotAt c l with
        pc := pc, phase := p, cause := cs, epc := ep, tval := tv, held := held
        task := { (s.slotAt c l).task with dbg := dbg } } := by
  unfold State.takeTrap
  dsimp only
  split
  · simp only [State.slotAt_updSlotAt_self]
    exact ⟨_, _, _, _, _, _, _, rfl⟩
  · simp only [State.slotAt_emit, State.slotAt_updSlotAt_self]
    exact ⟨_, _, _, _, _, _, _, rfl⟩

theorem State.slotAt_takeTrap_other {c' l' : Nat} (h : slotKey c' l' ≠ slotKey c l) :
    (s.takeTrap c l cause tval epc async index addr).slotAt c' l' = s.slotAt c' l' := by
  unfold State.takeTrap
  dsimp only
  split <;> simp only [State.slotAt_emit, State.slotAt_updSlotAt_other _ _ h]

theorem State.sameOutside_takeTrap : sameOutside s (s.takeTrap c l cause tval epc async index addr) := by
  unfold State.takeTrap
  dsimp only
  split
  · rfl
  · refine State.sameOutside_emit ?_ _
    rfl

end

theorem ComputeFrame.takeTrap (d : Reg) (s : State) (cause : Nat) (tval epc : Word) (async : Bool) (index : Nat) (addr : Word) :
    ComputeFrame d s (s.takeTrap s.cur.1 s.cur.2 cause tval epc async index addr) := by
  have hout := s.sameOutside_takeTrap s.cur.1 s.cur.2 cause tval epc async index addr
  refine ⟨?_, fun c l hne => State.slotAt_takeTrap_other (h := hne) .., sameMemory_of_sameOutside hout, hout⟩
  obtain ⟨pc, p, cs, ep, tv, held, dbg, hslot⟩ := s.slotAt_takeTrap s.cur.1 s.cur.2 cause tval epc async index addr
  rw [hslot]
  exact ⟨fun _ _ => rfl, fun _ _ => rfl, .inr rfl⟩

/-- What issue answers, in each of its cases, keeps the frame. -/
theorem Computes.frame (h : Computes d s (.next t)) : ComputeFrame d s t := by
  obtain ⟨i, n, f, h⟩ := h
  rcases issue_cases i { n with writes := [xr d] } (fun s => .next (s.setX d (f s.slot)).retire) s with
    ⟨c, -, hi⟩ | ⟨-, -, hi⟩ | ⟨-, -, r, q, -, hi⟩ | ⟨-, hi⟩
  all_goals
    cases h.trans hi
  · exact .takeTrap ..
  · exact .stall ..
  · exact .takeTrap ..
  · exact .retire ..

/-- Settles O7: the instruction is one of `writeX`, and each way its issue can end keeps the frame. -/
theorem scalarFrame : Obligations.scalar_frame := fun s _ _ _ hdest hnext =>
  Computes.frame (hnext ▸ exec_computes hdest s)

end Sys2Proof.Machine
end

