-- ==== Sys2Proof/Proofs/IssueRules.lean ====
section
/-! PROOFS. The rules of issue that the statements about memory instructions share: what a translation leaves, and what an access, a
load and a posted write leave (R24, R25, R145, R350, R352). -/

namespace Sys2Proof.Machine

open Sys2Proof Sys2Proof.Safety

variable {s t u : State} {x : Xl}

/-! ### What a translation leaves (R350, R352) -/

theorem State.onlyTlbs_of_translate {c : Nat} {va : Word} {kind : AccKind} {r : XRes} (h : s.translate c va kind = (t, r)) :
    onlyTlbs s t := by
  have hframe := s.translate_frame c va kind
  rwa [h] at hframe

/-- The state at which an access goes on differs in its TLBs. -/
theorem openWay_onlyTlbs {va : Word} {n : Nat} {write : Bool} (h : openWay s t va n write x) : onlyTlbs s t :=
  State.onlyTlbs_of_translate h.1

theorem onlyTlbs.cur (h : onlyTlbs s t) : t.cur = s.cur := (congrArg (·.cur) h.1 :)
theorem onlyTlbs.part (h : onlyTlbs s t) : t.part = s.part := (congrArg (·.part) h.1 :)
theorem onlyTlbs.job (h : onlyTlbs s t) : t.job = s.job := (congrArg (·.job) h.1 :)
theorem onlyTlbs.slotAt (h : onlyTlbs s t) (c l : Nat) : t.slotAt c l = s.slotAt c l := (congrArg (·.slotAt c l) h.1 :)
theorem onlyTlbs.xlHome (h : onlyTlbs s t) (x : Xl) : t.xlHome x = s.xlHome x := (congrArg (·.xlHome x) h.1 :)
theorem onlyTlbs.sameMemory (h : onlyTlbs s t) : sameMemory s t := fun a => (congrArg (·.byte a) h.1 :)
theorem onlyTlbs.slot (h : onlyTlbs s t) : t.slot = s.slot := by rw [State.slot, h.cur, h.slotAt, State.slot]
theorem onlyTlbs.isLocal (h : onlyTlbs s t) (c home : Nat) (peer : Peer) : t.isLocal c home peer = s.isLocal c home peer := by
  rw [State.isLocal, h.part, State.isLocal]

/-- Nothing holds an instruction that has nothing in its way. -/
theorem hold_of_ready {n : Need} (h : ready n s = true) : n.hold = false := by
  simp only [ready, Bool.and_eq_true, Bool.not_eq_true'] at h
  exact h.1.1.2

/-! ### What an access leaves (R145) -/

@[simp] theorem State.coreAt_upd (s : State) (f : Slot → Slot) (c : Nat) : (s.upd f).coreAt c = s.coreAt c := rfl
@[simp] theorem State.coreAt_retire (s : State) (c : Nat) : s.retire.coreAt c = s.coreAt c := rfl

@[simp] theorem State.access_cur (s : State) (home : Nat) (peer : Peer) (b : Body) : (s.access home peer b).cur = s.cur :=
  (s.access_frame home peer b).2.2.1
@[simp] theorem State.slotAt_access (s : State) (home : Nat) (peer : Peer) (b : Body) (c l : Nat) :
    (s.access home peer b).slotAt c l = s.slotAt c l := by rw [State.slotAt, (s.access_frame home peer b).1, State.slotAt]
@[simp] theorem State.coreAt_access (s : State) (home : Nat) (peer : Peer) (b : Body) (c : Nat) :
    (s.access home peer b).coreAt c = s.coreAt c := by rw [State.coreAt, (s.access_frame home peer b).2.1, State.coreAt]
@[simp] theorem State.slot_access (s : State) (home : Nat) (peer : Peer) (b : Body) : (s.access home peer b).slot = s.slot := by
  simp [State.slot]

@[simp] theorem Slot.pendX_x (sl : Slot) (r : Reg) (b : Bool) : (sl.pendX r b).x = sl.x := by
  unfold Slot.pendX; split <;> rfl
@[simp] theorem Slot.pendX_cntst (sl : Slot) (r : Reg) (b : Bool) : (sl.pendX r b).cntst = sl.cntst := by
  unfold Slot.pendX; split <;> rfl
@[simp] theorem Slot.pendX_gen (sl : Slot) (r : Reg) (b : Bool) : (sl.pendX r b).gen = sl.gen := by
  unfold Slot.pendX; split <;> rfl

/-- A load that has been sent: its register is pending, CNTLD is one more, no register and no byte of memory has changed, and the
request is on its way (R145, R148). -/
theorem State.sendLoad_leaves (h : onlyTlbs s t) (x : Xl) (d : Reg) (body : Body) :
    let u := (t.sendLoad x d body).retire
    u.slot.cntld = s.slot.cntld + 1 ∧ u.slot.pc = s.slot.pc + 4 ∧ (d ≠ 0 → u.slot.pendingAt d.toNat = true) ∧
      u.slot.x = s.slot.x ∧ u.slot.cntst = s.slot.cntst ∧ sameMemory s u ∧ requested s u (s.xlHome x) x.e.peer body := by
  intro u
  set v := t.upd (fun sl => (sl.upLd).pendX d true) with hv
  have hvs : v.slot = s.slot.upLd.pendX d true := by rw [hv, State.slot_upd, h.slot]
  have hslot : u.slot = { s.slot.upLd.pendX d true with pc := (s.slot.upLd.pendX d true).pc + 4, phase := .ready } := by
    rw [State.slot_retire, State.sendLoad, State.slot_access, ← hv, hvs]
  rw [hslot]
  refine ⟨by simp [Slot.upLd], by simp [Slot.upLd], fun hd => s.slot.upLd.pendingAt_pendX hd true, by simp [Slot.upLd],
    by simp [Slot.upLd], fun a => ?_, ?_⟩
  · exact ((v.access_frame (t.xlHome x) x.e.peer body).2.2.2 a).trans (h.sameMemory a)
  · have hsent : u = (v.access (s.xlHome x) x.e.peer body).retire := by rw [← h.xlHome]; rfl
    rw [hsent]
    exact requested_congr (s' := v) h.part h.cur (by simp [hvs, Slot.upLd]) (v.access_requested (s.xlHome x) x.e.peer body)

/-! ### What a posted write leaves (R24, R25, R145) -/

/-- A change of the slot in hand that keeps its counters and registers keeps what was said of a posted write. -/
theorem posted_upd {kind : WKind} {n : Nat} {data : VWord} {f : Slot → Slot} (h : posted s u x kind n data)
    (hf : ∀ sl, { f sl with pc := sl.pc, phase := sl.phase } = sl) : posted s (u.upd f) x kind n data := by
  obtain ⟨hst, hld, hx, hmem, hc, hp, hxx, hwhere⟩ := h
  have hcntst : (f u.slot).cntst = u.slot.cntst := (congrArg (·.cntst) (hf u.slot) :)
  have hcntld : (f u.slot).cntld = u.slot.cntld := (congrArg (·.cntld) (hf u.slot) :)
  have hregs : (f u.slot).x = u.slot.x := (congrArg (·.x) (hf u.slot) :)
  have hstc : (f u.slot).stc = u.slot.stc := (congrArg (·.stc) (hf u.slot) :)
  have hstp : (f u.slot).stp = u.slot.stp := (congrArg (·.stp) (hf u.slot) :)
  have hstx : (f u.slot).stx = u.slot.stx := (congrArg (·.stx) (hf u.slot) :)
  refine ⟨?_, ?_, ?_, hmem, ?_, ?_, ?_, hwhere⟩ <;> rw [State.slot_upd]
  exacts [hcntst.trans hst, hcntld.trans hld, hregs.trans hx, hstc.trans hc, hstp.trans hp, hstx.trans hxx]

/-- The state with free choices taken up to number `n`. -/
def State.withFree (s : State) (n : Nat) : State := { s with free := n }

theorem State.access_withFree (s : State) (n home : Nat) (peer : Peer) (b : Body) :
    (s.withFree n).access home peer b = (s.access home peer b).withFree n := by
  by_cases hl : peer = s.part.peer ∧ isGateway s.cur.1 = false ∧ home = tileOf s.cur.1
  · rw [show s.access home peer b = _ from if_pos hl]
    exact if_pos hl
  · rw [show s.access home peer b = _ from if_neg hl]
    exact if_neg hl

/-- A remote write counted, with its journal entry `e`, before its request goes (R24, R25). -/
def State.journalled (s : State) (x : Xl) (kind : WKind) (len : Nat) (data : VWord) (e : Nat) : State :=
  let cls := s.distance s.cur.1 (s.xlHome x) x.e.peer
  (s.upd (fun sl => { sl with
    cntst := sl.cntst + 1
    stc := if cls = 1 then sl.stc + 1 else sl.stc
    stp := if cls = 2 then sl.stp + 1 else sl.stp
    stx := if cls = 3 then sl.stx + 1 else sl.stx })).updCore s.cur.1 (fun q => { q with
      journal := AMap.set q.journal e
        { slot := s.cur.2, gen := s.slot.gen, home := s.xlHome x, peer := x.e.peer, cls := cls, pa := x.pa, len := len
          data := data, kind := kind, refused := false, reason := 0, undelivered := false } })

theorem State.putStore_remote (hl : ¬s.isLocal s.cur.1 (s.xlHome x) x.e.peer = true) (kind : WKind) (len : Nat) (data : VWord) :
    s.putStore x kind len data = (freeEntry (s.coreAt s.cur.1).journal).map (fun e =>
      (s.journalled x kind len data e).access (s.xlHome x) x.e.peer (.store kind x.pa len data (some e))) := if_neg hl

/-- A posted write does not depend on the free choices that are left. -/
theorem State.putStore_withFree (s : State) (n : Nat) (x : Xl) (kind : WKind) (len : Nat) (data : VWord) :
    (s.withFree n).putStore x kind len data = (s.putStore x kind len data).map (State.withFree · n) := by
  by_cases hl : s.isLocal s.cur.1 (s.xlHome x) x.e.peer = true
  · rw [show s.putStore x kind len data = _ from if_pos hl]
    exact (if_pos hl).trans (congrArg some
      (State.access_withFree (s.upd (fun sl => { sl with cntst := sl.cntst + 1 })) n _ _ _))
  · rw [State.putStore_remote hl, Option.map_map]
    exact (State.putStore_remote (s := s.withFree n) hl ..).trans (congrArg (Option.map · (freeEntry (s.coreAt s.cur.1).journal))
      (funext fun e => State.access_withFree (s.journalled x kind len data e) n _ _ _))

/-- A posted write has been issued and the slot goes on. -/
def postsOn (s : State) (x : Xl) (kind : WKind) (n : Nat) (data : VWord) (o : Out) : Prop :=
  ∃ u, o = .next u ∧ posted s u x kind n data ∧ u.slot.pc = s.slot.pc + 4 ∧ u.slot.phase = .ready

theorem postsOn_retire {kind : WKind} {n : Nat} {data : VWord} (h : posted s u x kind n data) (hpc : u.slot.pc = s.slot.pc) :
    postsOn s x kind n data (.next u.retire) :=
  ⟨_, rfl, posted_upd h fun _ => rfl, by rw [State.slot_retire, hpc], by rw [State.slot_retire]⟩

/-- There is room for a write to a translated address: it is local, or a journal entry is free (R25). -/
def hasRoom (s : State) (x : Xl) : Prop :=
  s.isLocal s.cur.1 (s.xlHome x) x.e.peer = true ∨ freeEntry (s.coreAt s.cur.1).journal ≠ none

/-- A write with room, sent: the end `k` of its issue is for a local one. -/
theorem State.sendStore_posts {va : Word} {m n : Nat} (hw : openWay s t va m true x) (hroom : hasRoom s x) (kind : WKind)
    (data : VWord) (k : State → State) :
    ∃ u, posted s u x kind n data ∧ u.slot.pc = s.slot.pc ∧ t.sendStore x kind n data k =
      .next (if s.isLocal s.cur.1 (s.xlHome x) x.e.peer then k u else u.retire) := by
  obtain ⟨u, hput, hposted, hpc, -⟩ := State.putStore_posted hw kind n data hroom
  have hT := openWay_onlyTlbs hw
  refine ⟨u, hposted, hpc, ?_⟩
  rw [State.sendStore, hput]
  dsimp only
  rw [hT.isLocal, hT.cur, hT.xlHome]
  split <;> rfl

/-- A write with room whose slot goes on in either case. -/
theorem State.sendStore_postsOn {va : Word} {m n : Nat} (hw : openWay s t va m true x) (hroom : hasRoom s x) (kind : WKind)
    (data : VWord) : postsOn s x kind n data (t.sendStore x kind n data State.retire) := by
  obtain ⟨u, hposted, hpc, hsend⟩ := State.sendStore_posts (n := n) hw hroom kind data State.retire
  rw [hsend, ite_self]
  exact postsOn_retire hposted hpc

end Sys2Proof.Machine
end

