-- ==== Sys2Proof/Proofs/LoadsStores.lean ====
section
/-! PROOFS. O8, O9, O12: scalar loads, full/empty accesses, posted writes and atomics at issue (R144, R145, R148 to R153). Each arm of
`exec` is one call of a shared form, and each form with nothing in its way either traps on its address or sends. -/

namespace Sys2Proof.Machine

open Sys2Proof Sys2Proof.Safety

variable {s t : State} {x : Xl}

/-! ### The arms of loads, stores, full/empty accesses and atomics -/

section
variable (d r a b : Reg) (w z2 : BitVec 2) (z : BitVec 3) (o : BitVec 11) (s : State)

theorem exec_ld : exec (.ld d a w z o) s =
    loadForm (.ld d a w z o) [xr a] w d false (2 ^ z.toNat) (fun sl => offAddr sl a o (2 ^ z.toNat)) s := rfl
theorem exec_ldS : exec (.ldS d a w z o) s =
    loadForm (.ldS d a w z o) [xr a] w d true (2 ^ z.toNat) (fun sl => offAddr sl a o (2 ^ z.toNat)) s := rfl
theorem exec_ldIndexed : exec (.ldIndexed d a b w z) s =
    loadForm (.ldIndexed d a b w z) [xr a, xr b] w d false (2 ^ z.toNat) (fun sl => sl.rx a + sl.rx b) s := rfl
theorem exec_ldSIndexed : exec (.ldSIndexed d a b w z) s =
    loadForm (.ldSIndexed d a b w z) [xr a, xr b] w d true (2 ^ z.toNat) (fun sl => sl.rx a + sl.rx b) s := rfl
theorem exec_ldFeKeep : exec (.ldFeKeep d a w z2 o) s =
    feLoad (.ldFeKeep d a w z2 o) [xr a] w d false (2 ^ z2.toNat) (fun sl => offAddr sl a o (2 ^ z2.toNat)) s := rfl
theorem exec_ldFeTake : exec (.ldFeTake d a w z2 o) s =
    feLoad (.ldFeTake d a w z2 o) [xr a] w d true (2 ^ z2.toNat) (fun sl => offAddr sl a o (2 ^ z2.toNat)) s := rfl
theorem exec_ldFeKeepIndexed : exec (.ldFeKeepIndexed d a b w z) s =
    feLoad (.ldFeKeepIndexed d a b w z) [xr a, xr b] w d false (2 ^ z.toNat) (fun sl => sl.rx a + sl.rx b) s := rfl
theorem exec_ldFeTakeIndexed : exec (.ldFeTakeIndexed d a b w z) s =
    feLoad (.ldFeTakeIndexed d a b w z) [xr a, xr b] w d true (2 ^ z.toNat) (fun sl => sl.rx a + sl.rx b) s := rfl
theorem exec_st : exec (.st r a w z o) s =
    storeForm (.st r a w z o) [xr a, xr r] w r (2 ^ z.toNat) (fun sl => offAddr sl a o (2 ^ z.toNat)) s := rfl
theorem exec_stIndexed : exec (.stIndexed r a b w z) s =
    storeForm (.stIndexed r a b w z) [xr a, xr b, xr r] w r (2 ^ z.toNat) (fun sl => sl.rx a + sl.rx b) s := rfl
theorem exec_stFe : exec (.stFe r a w z2 o) s =
    feStore (.stFe r a w z2 o) [xr a, xr r] w r (2 ^ z2.toNat) (fun sl => offAddr sl a o (2 ^ z2.toNat)) s := rfl
theorem exec_stFeIndexed : exec (.stFeIndexed r a b w z) s =
    feStore (.stFeIndexed r a b w z) [xr a, xr b, xr r] w r (2 ^ z.toNat) (fun sl => sl.rx a + sl.rx b) s := rfl
theorem exec_feSet : exec (.feSet a b) s = feBit (.feSet a b) a b .feSet s := rfl
theorem exec_feClr : exec (.feClr a b) s = feBit (.feClr a b) a b .feClr s := rfl
theorem exec_anadd : exec (.anadd a b w z) s = execAnadd a b w z s := rfl
theorem exec_aadd : exec (.aadd d a b w z) s = atomicForm (.aadd d a b w z) .add d a b w z s := rfl
theorem exec_aand : exec (.aand d a b w z) s = atomicForm (.aand d a b w z) .and d a b w z s := rfl
theorem exec_aor : exec (.aor d a b w z) s = atomicForm (.aor d a b w z) .or d a b w z s := rfl
theorem exec_axor : exec (.axor d a b w z) s = atomicForm (.axor d a b w z) .xor d a b w z s := rfl
theorem exec_amin : exec (.amin d a b w z) s = atomicForm (.amin d a b w z) .min d a b w z s := rfl
theorem exec_amax : exec (.amax d a b w z) s = atomicForm (.amax d a b w z) .max d a b w z s := rfl
theorem exec_aminN : exec (.aminN d a b w z) s = atomicForm (.aminN d a b w z) .minN d a b w z s := rfl
theorem exec_amaxN : exec (.amaxN d a b w z) s = atomicForm (.amaxN d a b w z) .maxN d a b w z s := rfl
theorem exec_aswap : exec (.aswap d a b w z) s = atomicForm (.aswap d a b w z) .swap d a b w z s := rfl
theorem exec_acas : exec (.acas d a b w z) s = atomicForm (.acas d a b w z) .cas d a b w z s := rfl

end

/-! ### What each form answers (R144, R148 to R150, R152, R153) -/

section
variable {i : Instr} {reads : List Nat} {w : BitVec 2} {d a b : Reg} {sgn take : Bool} {n : Nat} {va : Slot → Word} {z : BitVec 3}
  {op : AtOp}

/-- A load or full/empty load with nothing in its way. -/
abbrev loadReady (s : State) (reads : List Nat) (w : BitVec 2) (d : Reg) : Prop :=
  ready { reads := reads, writes := [xr d], hold := waits w s.slot || decide (63 ≤ s.slot.cntld) } s = true

/-- A posted write with nothing in its way. -/
abbrev storeReady (s : State) (reads : List Nat) (w : BitVec 2) : Prop :=
  ready { reads := reads, hold := waits w s.slot || decide (63 ≤ s.slot.cntst) } s = true

theorem loadForm_misaligned (hr : loadReady s reads w d) (ha : (va s.slot).toNat % n ≠ 0) :
    loadForm i reads w d sgn n va s = s.trap 0x043 (va s.slot) := by
  rw [loadForm, issue_ready hr]
  exact if_pos ha

theorem loadForm_sends (hr : loadReady s reads w d) (ha : (va s.slot).toNat % n = 0) (hw : openWay s t (va s.slot) n false x) :
    loadForm i reads w d sgn n va s = .next (t.sendLoad x d (.load x.pa n (.xreg d sgn n))).retire := by
  rw [loadForm, issue_ready hr]
  exact (if_neg (not_not.mpr ha)).trans (withAccess_open hw _)

theorem feLoad_misaligned (hr : loadReady s reads w d) (ha : (va s.slot).toNat % n ≠ 0) :
    feLoad i reads w d take n va s = s.trap 0x043 (va s.slot) := by
  rw [feLoad, issue_ready hr]
  exact if_pos ha

/-- A full/empty load is sent as a load is; a local one blocks its slot (R47, R149). -/
theorem feLoad_sends (hr : loadReady s reads w d) (ha : (va s.slot).toNat % n = 0) (hin : inWindow x s.part.peer = true)
    (hw : openWay s t (va s.slot) n false x) :
    feLoad i reads w d take n va s =
      let u := (t.sendLoad x d (.ldFe take x.pa n (.xreg d false n))).retire
      .next (if s.isLocal s.cur.1 (s.xlHome x) x.e.peer then u.upd (fun sl => { sl with phase := .blocked .ldFe }) else u) := by
  obtain ⟨hxl, hden, -, -⟩ := hw
  rw [if_neg Bool.false_ne_true] at hxl
  rw [feLoad, issue_ready hr]
  dsimp only
  rw [if_neg (not_not.mpr ha), withXl, hxl]
  simp only [hin, hden, Bool.true_eq_false, Bool.false_eq_true, if_false]
  exact (apply_ite Host.Outcome.next ..).symm

theorem storeForm_misaligned (hr : storeReady s reads w) (ha : (va s.slot).toNat % n ≠ 0) :
    storeForm i reads w d n va s = s.trap 0x043 (va s.slot) := by
  rw [storeForm, issue_ready hr]
  exact if_pos ha

theorem storeForm_posts (hr : storeReady s reads w) (ha : (va s.slot).toNat % n = 0) (hw : openWay s t (va s.slot) n true x)
    (hroom : hasRoom s x) : postsOn s x .st n ((s.slot.rx d).setWidth 512) (storeForm i reads w d n va s) := by
  rw [storeForm, issue_ready hr]
  dsimp only
  rw [if_neg (not_not.mpr ha), withAccess_open hw]
  exact State.sendStore_postsOn hw hroom ..

theorem feStore_misaligned (hr : storeReady s reads w) (ha : (va s.slot).toNat % n ≠ 0) :
    feStore i reads w d n va s = s.trap 0x043 (va s.slot) := by
  rw [feStore, issue_ready hr]
  exact if_pos ha

/-- A full/empty store is posted as a store is; a local one holds its slot's next issue, at its own PC (R26, R149). -/
theorem feStore_posts (hr : storeReady s reads w) (ha : (va s.slot).toNat % n = 0) (hin : inWindow x s.part.peer = true)
    (hw : openWay s t (va s.slot) n true x) (hroom : hasRoom s x) :
    ∃ u, feStore i reads w d n va s = .next u ∧ posted s u x .stFe n ((s.slot.rx d).setWidth 512) ∧
      if s.isLocal s.cur.1 (s.xlHome x) x.e.peer = true then u.slot.pc = s.slot.pc ∧ u.slot.phase = .holding (va s.slot)
      else u.slot.pc = s.slot.pc + 4 ∧ u.slot.phase = .ready := by
  obtain ⟨u, hposted, hpc, hsend⟩ := State.sendStore_posts (n := n) hw hroom .stFe ((s.slot.rx d).setWidth 512)
    (fun u => u.upd (fun sl => { sl with phase := .holding (va s.slot) }))
  obtain ⟨hxl, hden, -, -⟩ := hw
  rw [if_pos rfl] at hxl
  rw [feStore, issue_ready hr]
  dsimp only
  rw [if_neg (not_not.mpr ha), withXl, hxl]
  simp only [hin, hden, Bool.true_eq_false, Bool.false_eq_true, if_false]
  rw [hsend]
  split
  · exact ⟨_, rfl, posted_upd hposted fun _ => rfl, by rw [State.slot_upd, hpc], by rw [State.slot_upd]⟩
  · exact postsOn_retire hposted hpc

/-- A write to a full/empty bit is posted, with 1 to 64 bytes as its length (log 19). -/
theorem feBit_posts (hr : ready { reads := [xr a, xr b], hold := decide (63 ≤ s.slot.cntst) } s = true)
    (hin : inWindow x s.part.peer = true) (hw : openWay s t (s.slot.rx a + s.slot.rx b) 1 true x) (hroom : hasRoom s x)
    (kind : WKind) : ∃ len, 1 ≤ len ∧ len ≤ 64 ∧ postsOn s x kind len 0 (feBit i a b kind s) := by
  refine ⟨1 + Config.choice t.free % 64, by omega, by omega, ?_⟩
  obtain ⟨u, hput, hposted, hpc, -⟩ := State.putStore_posted hw kind (1 + Config.choice t.free % 64) 0 hroom
  obtain ⟨hxl, hden, -, -⟩ := hw
  rw [if_pos rfl] at hxl
  rw [feBit, issue_ready hr]
  dsimp only
  rw [withXl, hxl]
  simp only [hin, hden, Bool.true_eq_false, Bool.false_eq_true, if_false]
  change postsOn s x kind _ 0 ((t.withFree (t.free + 1)).sendStore ..)
  rw [State.sendStore, State.putStore_withFree, hput, Option.map_some]
  simp only [ite_self]
  exact postsOn_retire (u := u.withFree (t.free + 1)) hposted hpc

theorem execAnadd_misaligned (hr : storeReady s [xr a, xr b] w) (ha : (s.slot.rx a).toNat % 2 ^ z.toNat ≠ 0) :
    execAnadd a b w z s = s.trap 0x043 (s.slot.rx a) := by
  rw [execAnadd, issue_ready hr]
  exact if_pos ha

theorem execAnadd_posts (hr : storeReady s [xr a, xr b] w) (ha : (s.slot.rx a).toNat % 2 ^ z.toNat = 0)
    (hw : openWay s t (s.slot.rx a) (2 ^ z.toNat) true x) (hroom : hasRoom s x) :
    postsOn s x .anadd (2 ^ z.toNat) ((s.slot.rx b).setWidth 512) (execAnadd a b w z s) := by
  rw [execAnadd, issue_ready hr]
  dsimp only [sizeOf]
  rw [if_neg (not_not.mpr ha), withAccess_open hw]
  exact State.sendStore_postsOn hw hroom ..

/-- The registers that an atomic reads: `acas` takes the expected value from X[xd] (R152). -/
abbrev atomicReads (op : AtOp) (d a b : Reg) : List Nat := if op = .cas then [xr a, xr b, xr d] else [xr a, xr b]

theorem atomicForm_misaligned (hr : loadReady s (atomicReads op d a b) w d) (ha : (s.slot.rx a).toNat % 2 ^ z.toNat ≠ 0) :
    atomicForm i op d a b w z s = s.trap 0x043 (s.slot.rx a) := by
  rw [atomicForm, issue_ready hr]
  exact if_pos ha

theorem atomicForm_sends (hr : loadReady s (atomicReads op d a b) w d) (ha : (s.slot.rx a).toNat % 2 ^ z.toNat = 0)
    (hw : openWay s t (s.slot.rx a) (2 ^ z.toNat) true x) :
    atomicForm i op d a b w z s = .next (t.sendLoad x d
      (.atomic op x.pa (2 ^ z.toNat) (s.slot.rx b) (s.slot.rx d) (.xreg d true (2 ^ z.toNat)))).retire := by
  rw [atomicForm, issue_ready hr]
  dsimp only [sizeOf]
  rw [if_neg (not_not.mpr ha), withAccess_open hw]

end

/-! ### Loads (R148, R149) -/

/-- Settles O8: each arm is `loadForm` or `feLoad`, which sends. -/
theorem scalarLoadsSendOneRequest : Obligations.scalar_loads_send_one_request := by
  intro s t d a b w z z2 o x size size2 off off2 sum hold isLocal sent sentFe _
  refine ⟨fun hr => ⟨fun ha hw => ?_, fun ha hin hw => ?_⟩, fun hr ha hw => ?_, fun va kind body hxl => ?_⟩
  · exact ⟨(exec_ld ..).trans (loadForm_sends hr ha hw), fun _ => (exec_ldS ..).trans (loadForm_sends hr ha hw)⟩
  · exact ⟨(exec_ldFeKeep ..).trans (feLoad_sends hr ha hin hw), (exec_ldFeTake ..).trans (feLoad_sends hr ha hin hw)⟩
  · exact ⟨(exec_ldIndexed ..).trans (loadForm_sends hr ha hw), fun _ => (exec_ldSIndexed ..).trans (loadForm_sends hr ha hw),
      fun hin => ⟨(exec_ldFeKeepIndexed ..).trans (feLoad_sends hr ha hin hw),
        (exec_ldFeTakeIndexed ..).trans (feLoad_sends hr ha hin hw)⟩⟩
  · exact State.sendLoad_leaves (State.onlyTlbs_of_translate hxl) x d body

/-! ### Posted writes (R148 to R150, R153) -/

/-- Settles O9. -/
theorem postedWritesCountAndAreJournalled : Obligations.posted_writes_count_and_are_journalled := by
  intro s t r a b w z z2 o x size size2 off off2 sum data full isLocal on onFe _ hroom
  refine ⟨fun hr => ⟨fun ha hw => ?_, fun ha hw hin => ?_⟩, fun hr ha hw => ⟨?_, fun hin => ?_⟩, fun hr hw hin => ⟨?_, ?_⟩,
    fun hr _ ha hw => ?_⟩
  · rw [exec_st]
    exact storeForm_posts hr ha hw hroom
  · rw [exec_stFe]
    exact feStore_posts hr ha hin hw hroom
  · rw [exec_stIndexed]
    exact storeForm_posts hr ha hw hroom
  · rw [exec_stFeIndexed]
    exact feStore_posts hr ha hin hw hroom
  · obtain ⟨len, h1, h64, u, hu⟩ := feBit_posts (i := .feSet a b) hr hin hw hroom .feSet
    exact ⟨u, len, h1, h64, hu⟩
  · obtain ⟨len, h1, h64, u, hu⟩ := feBit_posts (i := .feClr a b) hr hin hw hroom .feClr
    exact ⟨u, len, h1, h64, hu⟩
  · rw [exec_anadd]
    exact execAnadd_posts hr ha hw hroom

/-! ### Atomics (R152, Table 08-4) -/

theorem sextInt_toNat {n : Nat} (hn : 0 < n) (x : BitVec n) : sextInt x.toNat n = x.toInt := by
  have hpow : 2 ^ n = 2 * 2 ^ (n - 1) := by rw [← Nat.pow_succ', Nat.succ_eq_add_one, Nat.sub_add_cancel hn]
  have hsign : x.toNat < 2 ^ (n - 1) ↔ 2 * x.toNat < 2 ^ n := by omega
  simp only [sextInt, BitVec.toNat_mod_cancel, BitVec.toInt_eq_toNat_cond, hsign]
  push_cast
  rfl

/-- The new value of each atomic on two words of `n` bits, and for `acas` an expected one (Table 08-4). -/
theorem atomicNew_values {n : Nat} (hn : 0 < n) (x y e : BitVec n) :
    let f : AtOp → Nat := fun op => atomicNew op n x.toNat y.toNat e.toNat
    f .add = (x + y).toNat ∧ f .and = (x &&& y).toNat ∧ f .or = (x ||| y).toNat ∧ f .xor = (x ^^^ y).toNat ∧
    f .min = (if x.toInt ≤ y.toInt then x else y).toNat ∧ f .max = (if y.toInt ≤ x.toInt then x else y).toNat ∧
    f .minN = min x.toNat y.toNat ∧ f .maxN = max x.toNat y.toNat ∧ f .swap = y.toNat ∧
    f .cas = if x = e then y.toNat else x.toNat := by
  simp only [atomicNew, BitVec.toNat_mod_cancel, sextInt_toNat hn, ge_iff_le, apply_ite BitVec.toNat, BitVec.toNat_add, BitVec.toNat_and,
    BitVec.toNat_or, BitVec.toNat_xor, BitVec.toNat_inj, true_and,
    and_true]
  exact ⟨Nat.min_def.symm, max_comm y.toNat x.toNat ▸ Nat.max_def.symm⟩

/-- An atomic sees the low bits of its words alone. -/
theorem atomicNew_low (op : AtOp) (x y e : Word) :
    atomicNew op 32 x.toNat y.toNat e.toNat = atomicNew op 32 (low x).toNat (low y).toNat (low e).toNat := by
  simp only [atomicNew, low, BitVec.toNat_setWidth, Nat.mod_mod]

/-- Settles O12: each arm is `atomicForm`, which sends; the values are those of two words of the width. -/
theorem atomicsSendTheirOperationWhichCombines : Obligations.atomics_send_their_operation_which_combines := by
  refine ⟨fun s t d a b w z x _ => ?_, fun x y e => atomicNew_values (by decide) x y e, fun x y e => ?_⟩
  · intro size va hold sent ha hw
    refine ⟨fun hr => ⟨?_, ?_, ?_, ?_, ?_, ?_, ?_, ?_, ?_⟩, fun hr => ?_⟩
    · exact (exec_aadd ..).trans (atomicForm_sends hr ha hw)
    · exact (exec_aand ..).trans (atomicForm_sends hr ha hw)
    · exact (exec_aor ..).trans (atomicForm_sends hr ha hw)
    · exact (exec_axor ..).trans (atomicForm_sends hr ha hw)
    · exact (exec_amin ..).trans (atomicForm_sends hr ha hw)
    · exact (exec_amax ..).trans (atomicForm_sends hr ha hw)
    · exact (exec_aminN ..).trans (atomicForm_sends hr ha hw)
    · exact (exec_amaxN ..).trans (atomicForm_sends hr ha hw)
    · exact (exec_aswap ..).trans (atomicForm_sends hr ha hw)
    · exact (exec_acas ..).trans (atomicForm_sends hr ha hw)
  · intro f
    have hlow : f = fun op => atomicNew op 32 (low x).toNat (low y).toNat (low e).toNat := funext fun op => atomicNew_low op x y e
    rw [hlow]
    exact atomicNew_values (by decide) (low x) (low y) (low e)

end Sys2Proof.Machine
end

