-- ==== Sys2Proof/Proofs/WaitsAndJournal.lean ====
section
/-! PROOFS. O14, O15, O16: fences and `wait`, `seal` and `unseal`, `pref` and the words of the journal (R162 to R166). -/

namespace Sys2Proof.Machine

open Sys2Proof Sys2Proof.Safety

variable {s t u : State}

/-! ### Fences and `wait` (R162, Table 03-3) -/

section
variable (l st c m : BitVec 5) (s : State)

theorem exec_fenceTile : exec .fenceTile s = fenceForm .fenceTile 0 s := rfl
theorem exec_fenceCluster : exec .fenceCluster s = fenceForm .fenceCluster 1 s := rfl
theorem exec_fenceDie : exec .fenceDie s = fenceForm .fenceDie 2 s := rfl
theorem exec_fencePackage : exec .fencePackage s = fenceForm .fencePackage 2 s := rfl
theorem exec_fenceSystem : exec .fenceSystem s = fenceForm .fenceSystem 3 s := rfl
theorem exec_wait : exec (.wait l st c m) s = execWait l st c m s := rfl

end

/-- An instruction that names no register and only holds its issue goes on where nothing holds it, and stalls otherwise. -/
theorem issue_holdOnly {hold : Bool} {p : Prop} (hp : hold = false ↔ p) (i : Instr) (s : State) :
    let o := issue i { hold := hold } (fun s => .next s.retire) s
    (p → o = .next s.retire) ∧ (¬p → o = .next s.stall) := by
  cases hold with
  | false => exact ⟨fun _ => rfl, fun hn => absurd (hp.mp rfl) hn⟩
  | true => exact ⟨fun h => (nomatch hp.mpr h), fun _ => rfl⟩

theorem overLimit_eq_false (k : BitVec 5) (n : Nat) : overLimit k n = false ↔ k.toNat = 31 ∨ n ≤ k.toNat := by
  simp only [overLimit, Bool.and_eq_false_iff, decide_eq_false_iff_not, not_not, Nat.not_lt, ne_eq]

/-- Settles O14: a fence holds issue by the wait field of its reach, and `wait` by the counters over their limits. -/
theorem fencesAndWaitsOnlyWait : Obligations.fences_and_waits_only_wait := by
  intro s l st c t sl within go
  refine ⟨rfl, ?_, ?_, ?_, ?_, ?_⟩
  · exact issue_holdOnly (by simp [waits, sl]) .fenceCluster s
  · exact issue_holdOnly (by simp [waits, sl]) .fenceDie s
  · exact issue_holdOnly (by simp [waits, sl]) .fencePackage s
  · exact issue_holdOnly (by simp [waits, sl, and_assoc]) .fenceSystem s
  · exact issue_holdOnly (by simp only [Bool.or_eq_false_iff, overLimit_eq_false, and_assoc, sl, within]) (.wait l st c t) s

/-! ### `seal` and `unseal` (R163) -/

theorem exec_seal (a b : Reg) (s : State) : exec (.seal a b) s = sealForm (.seal a b) true a b s := rfl
theorem exec_unseal (a b : Reg) (s : State) : exec (.unseal a b) s = sealForm (.unseal a b) false a b s := rfl

/-- A range that R163 does not allow: not of whole pages, empty, past 2^64 (log 112), or one that meets the SRAM window. -/
def badRange (s : State) (base len : Word) : Prop :=
  base.toNat % 65536 ≠ 0 ∨ len.toNat % 65536 ≠ 0 ∨ len = 0 ∨ 2 ^ 64 < base.toNat + len.toNat ∨
    (base.toNat < s.job.sramBase.toNat + 2 ^ 30 ∧ s.job.sramBase.toNat < base.toNat + len.toNat)

/-- A translation as a write that does not stop `seal` or `unseal`: an address, or a page that is sealed already (log 27). -/
def XRes.sealable : XRes → Prop
  | .ok _ => True
  | .bad cause _ => cause = 0x042

theorem withSealable_goes {va : Word} {r : XRes} (hx : s.translate s.cur.1 va .write = (t, r)) (hr : r.sealable)
    (k : State → Out) : withSealable va k s = k t := by
  rw [withSealable, hx]
  cases r with
  | ok x => rfl
  | bad cause index => exact if_pos hr

theorem withSealable_traps {va : Word} {cause index : Nat} (hx : s.translate s.cur.1 va .write = (t, .bad cause index))
    (hc : cause ≠ 0x042) (k : State → Out) : withSealable va k s = s.trapIdx cause index va := by
  rw [withSealable, hx]
  exact if_neg hc

section
variable {i : Instr} {on : Bool} {a b : Reg}

theorem sealForm_badRange (hr : ready { reads := [xr a, xr b] } s = true) (hbad : badRange s (s.slot.rx a) (s.slot.rx b)) :
    sealForm i on a b s = s.trap 0x046 (s.slot.rx a) := by
  rw [sealForm, issue_ready hr]
  exact if_pos hbad

/-- A range that R163 allows is translated at its first and its last byte, and the request goes to Armature. -/
theorem sealForm_goodRange (hr : ready { reads := [xr a, xr b] } s = true) (hgood : ¬badRange s (s.slot.rx a) (s.slot.rx b)) :
    sealForm i on a b s = withSealable (s.slot.rx a) (withSealable (s.slot.rx a + s.slot.rx b - 1) (fun s1 =>
      .next (s1.post (.core s.cur.1) (s.here .armature) 0
        (.sealReq on (s.slot.rx a) (s.slot.rx b) s.slot.treply s.cur.1 s.slot.task.level) s.cur.2 s.slot.gen).retire)) s := by
  rw [sealForm, issue_ready hr]
  exact if_neg hgood

end

/-- Settles O15: both arms are `sealForm`. -/
theorem sealAndUnsealAskArmature : Obligations.seal_and_unseal_ask_armature := by
  intro s t u a b x y hr sealable traps base len win bad asked
  have hsealable : ∀ r, sealable r → XRes.sealable r := fun r h => by cases r <;> exact h
  refine ⟨fun hbad => ?_, fun hgood hx hy => ⟨fun hsx hsy => ?_, fun cause index hc hne => ?_, fun cause index hc hne => ?_⟩⟩
  · exact ⟨(exec_seal ..).trans (sealForm_badRange hr hbad), (exec_unseal ..).trans (sealForm_badRange hr hbad)⟩
  · have hgo : ∀ k, withSealable base (withSealable (base + len - 1) k) s = k u := fun k =>
      (withSealable_goes hx (hsealable x hsx) _).trans (withSealable_goes hy (hsealable y hsy) k)
    exact ⟨((exec_seal ..).trans (sealForm_goodRange hr hgood)).trans (hgo _),
      ((exec_unseal ..).trans (sealForm_goodRange hr hgood)).trans (hgo _)⟩
  · subst hc
    exact ((exec_seal ..).trans (sealForm_goodRange hr hgood)).trans (withSealable_traps hx hne _)
  · subst hc
    exact ((exec_unseal ..).trans (sealForm_goodRange hr hgood)).trans (withSealable_traps hx hne _)

/-! ### `pref` and the words of the journal (R164 to R166) -/

theorem exec_pref (a b : Reg) (s : State) : exec (.pref a b) s = execPref a b s := rfl
theorem exec_jrd (d a : Reg) (s : State) : exec (.jrd d a) s = execJrd d a s := rfl
theorem exec_jdrop (a : Reg) (s : State) : exec (.jdrop a) s = execJdrop a s := rfl

/-- The slot in hand holds entry X[xa][4:0] at its present generation (R165, R166). -/
theorem State.ownEntry_eq_some (s : State) (v : Word) (e : JEntry) : s.ownEntry v = some e ↔
    AMap.get (s.coreAt s.cur.1).journal (v.toNat % 32) = some e ∧ e.slot = s.cur.2 ∧ e.gen = s.slot.gen := by
  unfold State.ownEntry
  split
  · next f hf =>
    rw [hf, Option.some.injEq]
    split
    · next hown =>
      rw [Option.some.injEq]
      exact ⟨fun h => ⟨h, h ▸ hown⟩, fun h => h.1⟩
    · next hown => exact ⟨nofun, fun ⟨h, hs⟩ => absurd (h ▸ hs) hown⟩
  · next hf => rw [hf]; exact ⟨nofun, fun h => nomatch h.1⟩

theorem State.ownEntry_eq_none {v : Word} (h : ∀ e, ¬(AMap.get (s.coreAt s.cur.1).journal (v.toNat % 32) = some e ∧
    e.slot = s.cur.2 ∧ e.gen = s.slot.gen)) : s.ownEntry v = none :=
  Option.eq_none_iff_forall_ne_some.mpr fun e he => h e ((s.ownEntry_eq_some v e).mp he)

theorem execJrd_own {d a : Reg} (hr : ready { reads := [xr a], writes := [xr d] } s = true) {e : JEntry}
    (he : s.ownEntry (s.slot.rx a) = some e) :
    execJrd d a s = .next (s.setX d (e.word (bitsOf (s.slot.rx a).toNat 8 5))).retire := by
  rw [execJrd, issue_ready hr]
  dsimp only
  rw [he]

theorem execJrd_other {d a : Reg} (hr : ready { reads := [xr a], writes := [xr d] } s = true)
    (he : s.ownEntry (s.slot.rx a) = none) : execJrd d a s = .next (s.setX d 0).retire := by
  rw [execJrd, issue_ready hr]
  dsimp only
  rw [he]

/-- A refused entry that is dropped: it is free, and its slot has one write less on its way (R166). -/
theorem execJdrop_refused {a : Reg} (hr : ready { reads := [xr a] } s = true) {e : JEntry} (he : s.ownEntry (s.slot.rx a) = some e)
    (href : e.refused = true) : ∃ q, execJdrop a s = .next
      ((s.updCore s.cur.1 (fun k => { k with journal := AMap.del k.journal ((s.slot.rx a).toNat % 32) })).upd
        (fun sl => { sl.downSt e.cls with async := q })).retire := by
  rw [execJdrop, issue_ready hr]
  dsimp only
  rw [he]
  simp only [href, Bool.true_eq_false, if_false]
  exact ⟨_, rfl⟩

/-- An entry that is not an own refused one stays (R166). -/
theorem execJdrop_other {a : Reg} (hr : ready { reads := [xr a] } s = true)
    (he : ∀ e, s.ownEntry (s.slot.rx a) = some e → e.refused = false) : execJdrop a s = .next s.retire := by
  rw [execJdrop, issue_ready hr]
  dsimp only
  split
  · rfl
  · next e hown => exact if_pos (he e hown)

/-- Settles O16: `pref` goes by its translation, `jrd` and `jdrop` by the slot's own entry. -/
theorem prefAndTheJournalWords : Obligations.pref_and_the_journal_words := by
  intro s d a b v n own
  refine ⟨fun hr => ⟨fun t c i hx => ?_, fun t x hx => ?_⟩, fun hr => ⟨fun e he => ?_, fun hn => ?_⟩,
    fun hr => ⟨fun e he href => ?_, fun e he href => ?_, fun hn => ?_⟩⟩
  · rw [exec_pref, execPref, issue_ready hr, hx]
  · rw [exec_pref, execPref, issue_ready hr, hx]
  · exact (exec_jrd ..).trans (execJrd_own hr ((s.ownEntry_eq_some v e).mpr he))
  · exact (exec_jrd ..).trans (execJrd_other hr (State.ownEntry_eq_none hn))
  · obtain ⟨q, hq⟩ := execJdrop_refused hr ((s.ownEntry_eq_some v e).mpr he) href
    refine ⟨_, (exec_jdrop ..).trans hq, ?_, ?_, ?_, ?_, fun _ => rfl⟩
    · rw [State.coreAt_retire, State.coreAt_upd, State.coreAt_updCore_self]
    all_goals rw [State.slot_retire, State.slot_upd]; rfl
  · refine (exec_jdrop ..).trans (execJdrop_other hr fun f hf => ?_)
    cases ((s.ownEntry_eq_some v e).mpr he).symm.trans hf
    exact href
  · refine (exec_jdrop ..).trans (execJdrop_other hr fun f hf => ?_)
    cases (State.ownEntry_eq_none hn).symm.trans hf

end Sys2Proof.Machine
end

