-- ==== Sys2Proof/Proofs/TicketIssue.lean ====
section
/-! PROOFS. O13: tickets at issue (R154, R155, R158, R160, R367). -/

namespace Sys2Proof.Machine

open Sys2Proof Sys2Proof.Safety

variable {s t u : State} {x : Xl}

theorem exec_ldt (d a : Reg) (w : BitVec 2) (k : BitVec 4) (o : BitVec 10) (s : State) :
    exec (.ldt d a w k o) s = execLdt d a w k o s := rfl
theorem exec_rdmV (d a : Reg) (w : BitVec 2) (s : State) : exec (.rdmV d a w) s = execRdmV d a w s := rfl
theorem exec_rdmScratchpad (a b : Reg) (w : BitVec 2) (s : State) :
    exec (.rdmScratchpad a b w) s = execRdmScratchpad a b w s := rfl
theorem exec_rdmM (a b : Reg) (w : BitVec 2) (s : State) : exec (.rdmM a b w) s = execRdmM a b w s := rfl
theorem exec_tkdrop (a : Reg) (w : BitVec 2) (s : State) : exec (.tkdrop a w) s = execTkdrop a w s := rfl
theorem exec_tkq (d a : Reg) (w : BitVec 2) (s : State) : exec (.tkq d a w) s = execTkq d a w s := rfl

/-! ### `ldt` (R154, R155) -/

/-- A core with fewer than 256 live numbers has one for the next ticket (R154): the 256 that it tries in rotation cannot all be live. -/
theorem Core.nextTicket_of_room {k : Core} (h : k.tkLive.length < 256) :
    ∃ n, k.nextTicket = some n ∧ n < 256 ∧ n ∉ k.tkLive := by
  set tried := (List.range 256).map (fun i => (k.tkLast + 1 + i) % 256) with htried
  have hnodup : tried.Nodup := List.nodup_range.map_on fun i hi j hj hij => by
    rw [List.mem_range] at hi hj
    omega
  cases hn : k.nextTicket with
  | none =>
    have hlive : tried ⊆ k.tkLive := fun n hmem => by simpa using List.find?_eq_none.mp hn n hmem
    have hlength := (hnodup.subperm hlive).length_le
    simp only [htried, List.length_map, List.length_range] at hlength
    omega
  | some n =>
    obtain ⟨i, -, hi⟩ := List.mem_map.mp (List.mem_of_find?_eq_some hn)
    exact ⟨n, rfl, hi ▸ Nat.mod_lt _ (by decide), by simpa using List.find?_some hn⟩

/-- A ticket's number taken at a core, in a generation (R154). -/
def Core.tookTicket (k : Core) (n : Nat) (g : BitVec 6) : Core :=
  { k with tkLive := insNat k.tkLive n, tkLast := n, tkGen := AMap.set k.tkGen n g }

/-- What `ldt` needs (R155). -/
abbrev ldtReady (s : State) (d a : Reg) (w : BitVec 2) : Prop :=
  ready { reads := [xr a], writes := [xr d], hold := waits w s.slot || decide (256 ≤ (s.coreAt s.cur.1).tkLive.length) } s = true

section
variable {d a : Reg} {w : BitVec 2} {k : BitVec 4} {o : BitVec 10}

theorem execLdt_misaligned (hr : ldtReady s d a w) (ha : (s.slot.rx a + o.signExtend 64 * 8).toNat % (8 * 2 ^ k.toNat) ≠ 0) :
    execLdt d a w k o s = s.trap 0x043 (s.slot.rx a + o.signExtend 64 * 8) := by
  rw [execLdt, issue_ready hr]
  exact if_pos ha

/-- `ldt` of an allowed address writes the ticket and posts its fetch. -/
theorem execLdt_posts (hr : ldtReady s d a w) (ha : (s.slot.rx a + o.signExtend 64 * 8).toNat % (8 * 2 ^ k.toNat) = 0)
    (hx : s.translate s.cur.1 (s.slot.rx a + o.signExtend 64 * 8) .home = (t, .ok x))
    (hden : s.denied x (8 * 2 ^ k.toNat) false = false) (hmove : s.mustMove x = false) (hout : wayOut s x.e.peer) {n : Nat}
    (hn : (s.coreAt s.cur.1).nextTicket = some n) :
    ∃ g blk, execLdt d a w k o s =
      let tk := ticketOf s.slot.jobid (BitVec.toNat g) n s.cur.1 (s.xlHome x) x.e.peer k.toNat
      .next (((t.updCore s.cur.1 (Core.tookTicket · n g)).setX d tk).access (s.xlHome x) x.e.peer
        (.fetch tk x.pa x.e.fmt blk (eltAt x (s.slot.rx a + o.signExtend 64 * 8).toNat))).retire := by
  rw [execLdt, issue_ready hr]
  dsimp only [sx]
  rw [if_neg (not_not.mpr ha), withXl, hx]
  simp only [hden, Bool.false_eq_true, if_false]
  rw [toPage_open hmove hout]
  simp only [hn]
  exact ⟨_, _, rfl⟩

end

@[simp] theorem State.slot_setX (s : State) (d : Reg) (v : Word) : (s.setX d v).slot = s.slot.wx d v :=
  (State.slotAt_updCore ..).trans (s.slotAt_updSlotAt_self s.cur.1 s.cur.2 _)

/-- A register written adds to its core's log alone (R333). -/
theorem State.tkLive_setX (s : State) (d : Reg) (v : Word) : ((s.setX d v).coreAt s.cur.1).tkLive = (s.coreAt s.cur.1).tkLive := by
  simp [State.setX, State.setXAt, State.logWrite]

@[simp] theorem Slot.wx_cntst (sl : Slot) (r : Reg) (v : Word) : (sl.wx r v).cntst = sl.cntst := by unfold Slot.wx; split <;> rfl
@[simp] theorem Slot.wx_gen (sl : Slot) (r : Reg) (v : Word) : (sl.wx r v).gen = sl.gen := by unfold Slot.wx; split <;> rfl

/-- What a ticket written and its fetch posted leave (R51, R155). -/
theorem State.ticketPosted_leaves (hT : onlyTlbs s t) (x : Xl) (d : Reg) (tk : Word) (n : Nat) (g : BitVec 6) (body : Body) :
    let u := (((t.updCore s.cur.1 (Core.tookTicket · n g)).setX d tk).access (s.xlHome x) x.e.peer body).retire
    n ∈ (u.coreAt s.cur.1).tkLive ∧ u.slot.rx d = (if d = 0 then 0 else tk) ∧ requested s u (s.xlHome x) x.e.peer body ∧
      u.slot.cntld = s.slot.cntld ∧ u.slot.cntst = s.slot.cntst ∧ u.slot.pc = s.slot.pc + 4 ∧ sameMemory s u := by
  intro u
  set v := (t.updCore s.cur.1 (Core.tookTicket · n g)).setX d tk with hv
  have hvs : v.slot = s.slot.wx d tk := by rw [hv, State.slot_setX]; exact congrArg (Slot.wx · d tk) hT.slot
  have hslot : u.slot = { s.slot.wx d tk with pc := (s.slot.wx d tk).pc + 4, phase := .ready } := by
    rw [State.slot_retire, State.slot_access, hvs]
  refine ⟨?_, ?_, ?_, ?_, ?_, ?_, fun a => ?_⟩
  · have hcore := State.tkLive_setX (t.updCore s.cur.1 (Core.tookTicket · n g)) d tk
    rw [show (t.updCore s.cur.1 (Core.tookTicket · n g)).cur = s.cur from hT.cur, State.coreAt_updCore_self] at hcore
    rw [State.coreAt_retire, State.coreAt_access, hcore]
    exact mem_insNat ..
  · rw [hslot]
    exact Slot.rx_wx_self ..
  · exact requested_congr (s' := v) hT.part hT.cur (by rw [hvs, Slot.wx_gen]) (v.access_requested ..)
  · rw [hslot]; exact Slot.wx_cntld ..
  · rw [hslot]; exact Slot.wx_cntst ..
  · rw [hslot]; exact congrArg (· + 4) (Slot.wx_pc ..)
  · exact ((v.access_frame ..).2.2.2 a).trans (hT.sameMemory a)

/-! ### `rdm` (R158, R367) -/

theorem onlyTlbs.ticketHomeLive (h : onlyTlbs s t) (tk : Word) : t.ticketHomeLive tk = s.ticketHomeLive tk :=
  (congrArg (·.ticketHomeLive tk) h.1 :)

theorem onlyTlbs.peerCause (h : onlyTlbs s t) (peer : Peer) : t.peerCause peer = s.peerCause peer :=
  (congrArg (·.peerCause peer) h.1 :)

theorem onlyTlbs.wayOut (h : onlyTlbs s t) {peer : Peer} (hout : wayOut s peer) : wayOut t peer := by
  have hhold : (t.coreAt s.cur.1).hold = (s.coreAt s.cur.1).hold := (congrArg (·.hold) (h.2.1 s.cur.1) :)
  rwa [Safety.wayOut, h.part, h.cur, hhold, h.peerCause]

section
variable {tk : Word} {dst : RdmDst}

/-- A ticket that is not well formed lands as foreign, and nothing is sent. -/
theorem State.redeem_malformed (h : wellFormedTicket tk s.slot.jobid = false) :
    s.redeem tk dst = .next (s.landRefused s.cur.1 s.cur.2 dst tk 2).retire := if_pos h

/-- A ticket whose home is not live lands as lost, and nothing is sent. -/
theorem State.redeem_lost (h : wellFormedTicket tk s.slot.jobid = true ∧ s.ticketHomeLive tk = false) :
    s.redeem tk dst = .next (s.landRefused s.cur.1 s.cur.2 dst tk 3).retire :=
  (if_neg (by simp [h.1])).trans (if_pos h.2)

/-- A ticket to be taken to its home: well formed, its home live, the way there open. -/
def goodTicket (s : State) (tk : Word) : Prop :=
  wellFormedTicket tk s.slot.jobid = true ∧ s.ticketHomeLive tk = true ∧ wayOut s (tkPeerOf tk)

/-- What is marked while a redemption is on its way: CNTLD, and the register that it fills (R14, R23). -/
def Slot.redeeming (sl : Slot) (dst : RdmDst) : Slot :=
  match dst with
  | .vreg r => { sl with cntld := sl.cntld + 1 }.pendV r true
  | _ => { sl with cntld := sl.cntld + 1 }

theorem State.redeem_good (h : goodTicket s tk) : s.redeem tk dst =
    .next ((s.upd (fun sl => sl.redeeming dst)).access (tkHomeOf tk) (tkPeerOf tk) (.redeem tk dst s.mach.clock)).retire := by
  obtain ⟨hwf, hlive, hout⟩ := h
  unfold State.redeem
  simp only [hwf, hlive, Bool.true_eq_false, if_false]
  rw [toPeer_open hout]
  cases dst <;> rfl

end

/-- A slice address whose run ends in its region lies with it in one slice. -/
theorem regionEnd_slice {pa n : Nat} (h : pa + n ≤ regionEnd pa) : pa % 2 ^ 20 + n ≤ 2 ^ 20 := by
  unfold regionEnd at h
  dsimp only at h
  have := Nat.mod_le pa (2 ^ 20)
  split at h
  · omega
  · split at h
    · omega
    · split at h <;> omega

section
variable {d a b : Reg} {w : BitVec 2}

theorem execRdmV_ready (hr : ready { lack := vecLack s, reads := [xr a], writes := [vr d]
                                     hold := waits w s.slot || decide (63 ≤ s.slot.cntld) } s = true) :
    execRdmV d a w s = s.redeem (s.slot.rx a) (.vreg d) := by
  rw [execRdmV, issue_ready hr]

/-- What a redemption into scratchpad needs. -/
abbrev spadReady (s : State) (a b : Reg) (w : BitVec 2) : Prop :=
  ready { reads := [xr a, xr b], hold := waits w s.slot || decide (63 ≤ s.slot.cntld) } s = true

theorem execRdmScratchpad_misaligned (hr : spadReady s a b w) (ha : (s.slot.rx a).toNat % 16 ≠ 0) :
    execRdmScratchpad a b w s = s.trap 0x043 (s.slot.rx a) := by
  rw [execRdmScratchpad, issue_ready hr]
  exact if_pos ha

/-- A destination in one region of one slice (log 17) takes the redemption. -/
theorem execRdmScratchpad_redeems (hr : spadReady s a b w) (ha : (s.slot.rx a).toNat % 16 = 0)
    (hx : s.translate s.cur.1 (s.slot.rx a) .write = (t, .ok x)) (hin : inWindow x s.part.peer = true)
    (hden : s.denied x (tkBytes (s.slot.rx b)) true = false) (hend : x.pa + tkBytes (s.slot.rx b) ≤ regionEnd x.pa) :
    execRdmScratchpad a b w s = t.redeem (s.slot.rx b) (.spad x.pa (s.slot.rx a)) := by
  rw [execRdmScratchpad, issue_ready hr]
  dsimp only
  rw [if_neg (not_not.mpr ha), withXl, hx]
  simp only [hin, hden, Bool.true_eq_false, Bool.false_eq_true, if_false]
  rw [if_neg (Nat.not_lt.mpr (regionEnd_slice hend)), if_neg (Nat.not_lt.mpr hend)]

/-- What `rdm.m` needs, a place for its message among it (log 82). -/
abbrev rdmMReady (s : State) (a b : Reg) (w : BitVec 2) : Prop :=
  ready { reads := [xr a, xr b]
          hold := (waits w s.slot || decide (63 ≤ s.slot.cntld)) || !(s.coreAt s.cur.1).room 2 } s = true

theorem execRdmM_traps (hr : rdmMReady s a b w) (he : s.entered ((s.slot.rx a).toNat % 2 ^ 32) 2 = false) :
    execRdmM a b w s = s.trap 0x084 (s.slot.rx a &&& 0xFFFFFFFF) := by
  rw [execRdmM, issue_ready hr]
  exact if_pos he

theorem execRdmM_redeems (hr : rdmMReady s a b w) (he : s.entered ((s.slot.rx a).toNat % 2 ^ 32) 2 = true) :
    execRdmM a b w s = s.redeem (s.slot.rx b) (.msg (s.slot.rx a)) := by
  rw [execRdmM, issue_ready hr]
  dsimp only
  rw [he]
  exact if_neg nofun

/-! ### `tkdrop` and `tkq` (R160, R367) -/

theorem execTkdrop_bad (hr : ready { reads := [xr a], hold := waits w s.slot } s = true)
    (h : wellFormedTicket (s.slot.rx a) s.slot.jobid = false ∨ s.ticketHomeLive (s.slot.rx a) = false) :
    execTkdrop a w s = .next s.retire := by
  rw [execTkdrop, issue_ready hr]
  exact if_pos h

theorem execTkdrop_good (hr : ready { reads := [xr a], hold := waits w s.slot } s = true) (h : goodTicket s (s.slot.rx a)) :
    execTkdrop a w s = .next (s.access (tkHomeOf (s.slot.rx a)) (tkPeerOf (s.slot.rx a)) (.tkDrop (s.slot.rx a))).retire := by
  obtain ⟨hwf, hlive, hout⟩ := h
  rw [execTkdrop, issue_ready hr]
  dsimp only
  rw [if_neg (by simp [hwf, hlive]), toPeer_open hout]

theorem execTkq_malformed (hr : loadReady s [xr a] w d) (h : wellFormedTicket (s.slot.rx a) s.slot.jobid = false) :
    execTkq d a w s = .next (s.setX d 5).retire := by
  rw [execTkq, issue_ready hr]
  exact if_pos h

theorem execTkq_lost (hr : loadReady s [xr a] w d)
    (h : wellFormedTicket (s.slot.rx a) s.slot.jobid = true ∧ s.ticketHomeLive (s.slot.rx a) = false) :
    execTkq d a w s = .next (s.setX d 4).retire := by
  rw [execTkq, issue_ready hr]
  exact (if_neg (by simp [h.1])).trans (if_pos h.2)

theorem execTkq_good (hr : loadReady s [xr a] w d) (h : goodTicket s (s.slot.rx a)) :
    execTkq d a w s = .next (((s.upd (fun sl => (sl.upLd).pendX d true)).access (tkHomeOf (s.slot.rx a)) (tkPeerOf (s.slot.rx a))
      (.tkQuery (s.slot.rx a) d))).retire := by
  obtain ⟨hwf, hlive, hout⟩ := h
  rw [execTkq, issue_ready hr]
  dsimp only
  rw [if_neg (by simp [hwf]), if_neg (by simp [hlive]), toPeer_open hout]

end

/-- Settles O13. -/
theorem ticketsAreBuiltAndRedeemedAtIssue : Obligations.tickets_are_built_and_redeemed_at_issue := by
  intro s t d a b w k o x c job va len ta tb holdL lost good up sent
  refine ⟨fun hr _ ha hx hden hmove hout => ?_, fun hr => ?_, fun hr ha hx hin hden hend => ?_, fun hr => ?_, fun hr => ?_,
    fun hr => ?_⟩
  · have hroom : (s.coreAt s.cur.1).tkLive.length < 256 := by
      simpa using (Bool.or_eq_false_iff.mp (hold_of_ready hr)).2
    obtain ⟨n, hn, hlt, hfresh⟩ := Core.nextTicket_of_room hroom
    obtain ⟨g, blk, hexec⟩ := execLdt_posts hr ha hx hden hmove hout hn
    obtain ⟨hlive, hrx, hreq, hrest⟩ := State.ticketPosted_leaves (State.onlyTlbs_of_translate hx) x d
      (ticketOf job g.toNat n c (s.xlHome x) x.e.peer k.toNat) n g
      (.fetch (ticketOf job g.toNat n c (s.xlHome x) x.e.peer k.toNat) x.pa x.e.fmt blk (eltAt x va.toNat))
    exact ⟨n, g.toNat, _, blk, (exec_ldt ..).trans hexec, hlt, hfresh, hlive, hrx, hreq, hrest⟩
  · have hexec := (exec_rdmV d a w s).trans (execRdmV_ready hr)
    exact ⟨fun h => hexec.trans (State.redeem_malformed h), fun h => hexec.trans (State.redeem_lost h),
      fun h => hexec.trans (State.redeem_good h)⟩
  · have hexec := (exec_rdmScratchpad a b w s).trans (execRdmScratchpad_redeems hr ha hx hin hden hend)
    have hT := State.onlyTlbs_of_translate hx
    have hslot := congrArg Slot.jobid hT.slot
    have hlive := hT.ticketHomeLive tb
    rw [hexec]
    refine ⟨fun h => ?_, fun h => ?_, fun h => ?_⟩
    · rw [State.redeem_malformed (by rwa [hslot]), hT.cur]
    · rw [State.redeem_lost (by rwa [hslot, hlive]), hT.cur]
    · exact State.redeem_good ⟨by rw [hslot]; exact h.1, hlive.trans h.2.1, hT.wayOut h.2.2⟩
  · refine ⟨fun he => (exec_rdmM ..).trans (execRdmM_traps hr he), fun he => ?_⟩
    have hexec := (exec_rdmM a b w s).trans (execRdmM_redeems hr he)
    exact ⟨fun h => hexec.trans (State.redeem_malformed h), fun h => hexec.trans (State.redeem_lost h),
      fun h => hexec.trans (State.redeem_good h)⟩
  · exact ⟨fun h => (exec_tkdrop ..).trans (execTkdrop_bad hr (h.imp_right And.right)),
      fun h => (exec_tkdrop ..).trans (execTkdrop_good hr h)⟩
  · exact ⟨fun h => (exec_tkq ..).trans (execTkq_malformed hr h), fun h => (exec_tkq ..).trans (execTkq_lost hr h),
      fun h => (exec_tkq ..).trans (execTkq_good hr h)⟩

end Sys2Proof.Machine
end

