-- ==== Sys2Proof/Proofs/VectorAccess.lean ====
section
/-! PROOFS. O24: vector loads and stores at issue (R74, R144, R167 to R169). -/

namespace Sys2Proof.Machine

open Sys2Proof Sys2Proof.Safety

variable {s t u : State} {x : Xl}

section
variable (d r a b : Reg) (m : MReg) (w : BitVec 2) (ty : BitVec 3) (o : BitVec 11) (s : State)

theorem exec_vld : exec (.vld d a w ty o) s = execVld d a w ty o s := rfl
theorem exec_vst : exec (.vst r a w ty o) s = execVst r a w ty o s := rfl
theorem exec_vldRaw : exec (.vldRaw d a w o) s = execVldRaw d a w o s := rfl
theorem exec_vstRaw : exec (.vstRaw r a w o) s = execVstRaw r a w o s := rfl
theorem exec_vlds : exec (.vlds d a b m ty w) s =
    laneLoad (.vlds d a b m ty w) [xr a, xr b] d m ty w (fun sl i => sl.rx a + BitVec.ofNat 64 i * sl.rx b) s := rfl
theorem exec_vgath : exec (.vgath d a b m ty w) s =
    laneLoad (.vgath d a b m ty w) [xr a, vr b] d m ty w (fun sl i => sl.rx a + laneIndex (sl.rv b) i) s := rfl
theorem exec_vscat : exec (.vscat r a b m ty w) s = execVscat r a b m ty w s := rfl

end

/-- A vector load with nothing in its way. -/
abbrev vloadReady (s : State) (reads : List Nat) (w : BitVec 2) (d : Reg) : Prop :=
  ready { lack := vecLack s, reads := reads, writes := [vr d], hold := waits w s.slot || decide (63 ≤ s.slot.cntld) } s = true

/-- A vector store of 64 bytes with nothing in its way. -/
abbrev vstoreReady (s : State) (r a : Reg) (w : BitVec 2) : Prop :=
  ready { lack := vecLack s, reads := [xr a, vr r], hold := waits w s.slot || decide (63 ≤ s.slot.cntst) } s = true

/-! ### 64 bytes (R167, R168) -/

section
variable {d r a : Reg} {w : BitVec 2} {ty : BitVec 3} {o : BitVec 11}

theorem execVldRaw_misaligned (hr : vloadReady s [xr a] w d) (ha : (vecAddr s.slot a o).toNat % 64 ≠ 0) :
    execVldRaw d a w o s = s.trap 0x043 (vecAddr s.slot a o) := by
  rw [execVldRaw, issue_ready hr]
  exact if_pos ha

theorem execVldRaw_sends (hr : vloadReady s [xr a] w d) (ha : (vecAddr s.slot a o).toNat % 64 = 0)
    (hw : openWay s t (vecAddr s.slot a o) 64 false x) : execVldRaw d a w o s = .next (t.sendVec x d).retire := by
  rw [execVldRaw, issue_ready hr]
  exact (if_neg (not_not.mpr ha)).trans (withAccess_open hw _)

theorem execVld_misaligned (hr : vloadReady s [xr a] w d) (ha : (vecAddr s.slot a o).toNat % 64 ≠ 0) :
    execVld d a w ty o s = s.trap 0x043 (vecAddr s.slot a o) := by
  rw [execVld, issue_ready hr]
  exact if_pos ha

/-- `vld` of a page that is plain for its type reads 64 bytes as they are. -/
theorem execVld_plain (hr : vloadReady s [xr a] w d) (ha : (vecAddr s.slot a o).toNat % 64 = 0)
    (hw : openWay s t (vecAddr s.slot a o) 64 false x) (hp : plainFor x.e.fmt ty.toNat = true) :
    execVld d a w ty o s = .next (t.sendVec x d).retire := by
  obtain ⟨hx, hden, hmove, hout⟩ := hw
  rw [if_neg Bool.false_ne_true] at hx
  rw [execVld, issue_ready hr]
  dsimp only
  rw [if_neg (not_not.mpr ha), withXl, hx]
  simp only [hp, ha, hden, if_true, ne_eq, not_true_eq_false, Bool.true_eq_false, Bool.false_eq_true, false_and, or_self, if_false]
  exact toPage_open hmove hout _

/-- `vld` of another page reads the bytes of its elements, and its block scales where none lies in a closed region (R74; log 143). -/
theorem execVld_decodes (hr : vloadReady s [xr a] w d) (ha : (vecAddr s.slot a o).toNat % 64 = 0)
    (hp : plainFor x.e.fmt ty.toNat = false)
    (hlen : (vecAddr s.slot a o).toNat % (lanes ty.toNat * width (fmtOf x.e.fmt) / 8) = 0)
    (hw : openWay s t (vecAddr s.slot a o) (lanes ty.toNat * width (fmtOf x.e.fmt) / 8) false x)
    (hscale : scaled x.e.fmt = true → s.denied { x with pa := (scaleRun x (vecAddr s.slot a o).toNat ty.toNat).1 }
      (scaleRun x (vecAddr s.slot a o).toNat ty.toNat).2 false = false) :
    execVld d a w ty o s = .next (t.sendDecode x (vecAddr s.slot a o).toNat d ty.toNat
      (lanes ty.toNat * width (fmtOf x.e.fmt) / 8)).retire := by
  obtain ⟨hx, hden, hmove, hout⟩ := hw
  rw [if_neg Bool.false_ne_true] at hx
  have hopen : ¬(scaled x.e.fmt = true ∧ s.denied { x with pa := (scaleRun x (vecAddr s.slot a o).toNat ty.toNat).1 }
      (scaleRun x (vecAddr s.slot a o).toNat ty.toNat).2 false = true) := fun ⟨h1, h2⟩ => by simp [hscale h1] at h2
  rw [execVld, issue_ready hr]
  dsimp only
  rw [if_neg (not_not.mpr ha), withXl, hx]
  simp only [hp, Bool.false_eq_true, if_false, hlen, hden, ne_eq, not_true_eq_false, true_and, hopen, or_self]
  exact toPage_open hmove hout _

theorem execVstRaw_misaligned (hr : vstoreReady s r a w) (ha : (vecAddr s.slot a o).toNat % 64 ≠ 0) :
    execVstRaw r a w o s = s.trap 0x043 (vecAddr s.slot a o) := by
  rw [execVstRaw, issue_ready hr]
  exact if_pos ha

theorem execVst_misaligned (hr : vstoreReady s r a w) (ha : (vecAddr s.slot a o).toNat % 64 ≠ 0) :
    execVst r a w ty o s = s.trap 0x043 (vecAddr s.slot a o) := by
  rw [execVst, issue_ready hr]
  exact if_pos ha

/-- A write whose slot goes on in either case, with the state that it leaves. -/
theorem State.sendStore_of_putStore {kind : WKind} {n : Nat} {data : VWord} (h : t.putStore x kind n data = some u) :
    t.sendStore x kind n data State.retire = .next u.retire := by
  rw [State.sendStore, h]
  exact ite_self _

theorem execVstRaw_sends (hr : vstoreReady s r a w) (ha : (vecAddr s.slot a o).toNat % 64 = 0)
    (hw : openWay s t (vecAddr s.slot a o) 64 true x) (hu : t.putStore x .vst 64 (s.slot.rv r) = some u) :
    execVstRaw r a w o s = .next u.retire := by
  rw [execVstRaw, issue_ready hr]
  exact ((if_neg (not_not.mpr ha)).trans (withAccess_open hw _)).trans (State.sendStore_of_putStore hu)

/-- What a vector store answers once its page has been translated. -/
theorem execVst_translated (hr : vstoreReady s r a w) (ha : (vecAddr s.slot a o).toNat % 64 = 0)
    (hw : openWay s t (vecAddr s.slot a o) 64 true x) : execVst r a w ty o s =
      if plainFor x.e.fmt ty.toNat = false then s.trap 0x045 (vecAddr s.slot a o)
      else t.sendStore x .vst 64 (s.slot.rv r) State.retire := by
  obtain ⟨hx, hden, hmove, hout⟩ := hw
  rw [if_pos rfl] at hx
  rw [execVst, issue_ready hr]
  dsimp only
  rw [if_neg (not_not.mpr ha), withXl, hx]
  simp only [hden, Bool.false_eq_true, if_false, toPage_open hmove hout]

end

/-! ### Lanes (R169) -/

/-- With every lane's way open the lanes go on. -/
theorem State.lanesPeers_open {ls : List (Nat × Xl)} (h : ∀ e ∈ ls, s.mustMove e.2 = false ∧ Safety.wayOut s e.2.e.peer)
    (k : State → Out) : s.lanesPeers k ls = k s := by
  induction ls with
  | nil => rfl
  | cons e r ih =>
    obtain ⟨hmove, hout⟩ := h e List.mem_cons_self
    exact (toPage_open hmove hout _).trans (ih fun f hf => h f (List.mem_cons_of_mem _ hf))

/-- After every lane has been translated: a lane whose page is not plain stops them all, else they go on. -/
theorem State.lanesPass_plain {ls : List (Nat × Xl)} (h : ∀ e ∈ ls, s.mustMove e.2 = false ∧ Safety.wayOut s e.2.e.peer) {ty : Nat}
    (hp : unplainLane ty ls = none) (va : Nat → Word) (k : State → Out) : s.lanesPass ty va ls k = k s := by
  rw [State.lanesPass, hp]
  exact State.lanesPeers_open h k

theorem State.lanesPass_stops {ls : List (Nat × Xl)} {ty i : Nat} (hp : unplainLane ty ls = some i) (va : Nat → Word)
    (k : State → Out) : s.lanesPass ty va ls k = s.trap 0x045 (va i) := by
  rw [State.lanesPass, hp]

section
variable {i : Instr} {reads : List Nat} {d r a b : Reg} {m : MReg} {ty : BitVec 3} {w : BitVec 2} {va : Slot → Nat → Word}
  {ls : List (Nat × Xl)}

/-- The reads of a lane load: vd too where a mask may leave lanes of it (R169). -/
theorem laneReads_eq (reads : List Nat) (d : Reg) (m : MReg) :
    (if m = 0 then reads else reads ++ [vr d]) = reads ++ (if m = 0 then [] else [vr d]) := by
  split
  · exact (List.append_nil _).symm
  · rfl

/-- What a lane load sends: one read for each lane in lane order; with no active lane vd stays as it was. -/
theorem laneLoad_sends (hr : vloadReady s (reads ++ (if m = 0 then [] else [vr d])) w d)
    (hxl : s.lanesXl ty.toNat false (va s.slot) (activeLanes (s.slot.rm m) ty.toNat) = (t, .ok ls))
    (hopen : ∀ e ∈ ls, s.mustMove e.2 = false ∧ wayOut s e.2.e.peer) (hp : unplainLane ty.toNat ls = none) :
    laneLoad i reads d m ty w va s =
      if ls = [] then .next (t.setV d (s.slot.rv d)).retire
      else .next (ls.foldl (fun s e => s.access (s.xlHome e.2) e.2.e.peer
        (.load e.2.pa (width ty.toNat / 8) (.vpart d e.1)))
        (t.startVLoad { vload d ls.length with how := 2, ty := ty.toNat })).retire := by
  rw [← laneReads_eq] at hr
  rw [laneLoad, issue_ready hr]
  dsimp only
  rw [hxl]
  refine (State.lanesPass_plain hopen hp _ _).trans ?_
  simp only [List.isEmpty_iff]

theorem laneLoad_stops (hr : vloadReady s (reads ++ (if m = 0 then [] else [vr d])) w d)
    (hxl : s.lanesXl ty.toNat false (va s.slot) (activeLanes (s.slot.rm m) ty.toNat) = (t, .ok ls)) {n : Nat}
    (hp : unplainLane ty.toNat ls = some n) : laneLoad i reads d m ty w va s = s.trap 0x045 (va s.slot n) := by
  rw [← laneReads_eq] at hr
  rw [laneLoad, issue_ready hr]
  dsimp only
  rw [hxl]
  exact State.lanesPass_stops hp _ _

/-- `vscat` with nothing in its way: CNTST has room for all its lanes. -/
abbrev vscatReady (s : State) (r a b : Reg) (m : MReg) (ty : BitVec 3) (w : BitVec 2) : Prop :=
  ready { lack := vecLack s, reads := [xr a, vr b, vr r]
          hold := waits w s.slot || decide (63 < s.slot.cntst + (activeLanes (s.slot.rm m) ty.toNat).length) } s = true

theorem execVscat_sends (hr : vscatReady s r a b m ty w)
    (hxl : s.lanesXl ty.toNat true (fun i => s.slot.rx a + laneIndex (s.slot.rv b) i) (activeLanes (s.slot.rm m) ty.toNat) =
      (t, .ok ls))
    (hopen : ∀ e ∈ ls, s.mustMove e.2 = false ∧ wayOut s e.2.e.peer) (hp : unplainLane ty.toNat ls = none)
    (hu : t.putLanes ty.toNat (s.slot.rv r) ls = some u) : execVscat r a b m ty w s = .next u.retire := by
  rw [execVscat, issue_ready hr]
  dsimp only
  rw [hxl]
  refine (State.lanesPass_plain hopen hp _ _).trans ?_
  rw [hu]

theorem execVscat_stops (hr : vscatReady s r a b m ty w)
    (hxl : s.lanesXl ty.toNat true (fun i => s.slot.rx a + laneIndex (s.slot.rv b) i) (activeLanes (s.slot.rm m) ty.toNat) =
      (t, .ok ls)) {n : Nat}
    (hp : unplainLane ty.toNat ls = some n) : execVscat r a b m ty w s = s.trap 0x045 (s.slot.rx a + laneIndex (s.slot.rv b) n) := by
  rw [execVscat, issue_ready hr]
  dsimp only
  rw [hxl]
  exact State.lanesPass_stops hp _ _

end

/-- Settles O24. -/
theorem vectorLoadsAndStoresMove64BytesOrLanes : Obligations.vector_loads_and_stores_move_64_bytes_or_lanes := by
  intro s t d a b w ty m o x va holdL holdS room rd act lane strided got
  refine ⟨fun hr ha => ⟨fun hw => ?_, fun hp hlen hw hscale => ?_⟩, fun hr ha hw => ⟨fun hroom => ?_, fun hp => ?_⟩,
    fun ls hopen => ⟨fun hr hxl => ?_, fun hr hxl => ?_, fun hr hxl => ?_⟩⟩
  · exact ⟨(exec_vldRaw ..).trans (execVldRaw_sends hr ha hw), fun hp => (exec_vld ..).trans (execVld_plain hr ha hw hp)⟩
  · exact (exec_vld ..).trans (execVld_decodes hr ha hp hlen hw hscale)
  · obtain ⟨u, hu, -⟩ := State.putStore_posted hw .vst 64 (s.slot.rv d) hroom
    refine ⟨u, hu, (exec_vstRaw ..).trans (execVstRaw_sends hr ha hw hu), fun hp => ?_⟩
    exact ((exec_vst ..).trans (execVst_translated hr ha hw)).trans ((if_neg (by simp [hp])).trans (State.sendStore_of_putStore hu))
  · exact ((exec_vst ..).trans (execVst_translated hr ha hw)).trans (if_pos hp)
  · exact ⟨fun hp => (exec_vlds ..).trans (laneLoad_sends hr hxl hopen hp), fun i hp => (exec_vlds ..).trans (laneLoad_stops hr hxl hp)⟩
  · exact ⟨fun hp => (exec_vgath ..).trans (laneLoad_sends hr hxl hopen hp), fun i hp => (exec_vgath ..).trans (laneLoad_stops hr hxl hp)⟩
  · exact ⟨fun hp u hu => (exec_vscat ..).trans (execVscat_sends hr hxl hopen hp hu),
      fun i hp => (exec_vscat ..).trans (execVscat_stops hr hxl hp)⟩

end Sys2Proof.Machine
end

