-- ==== Sys2Proof/Proofs/Misaligned.lean ====
section
/-! PROOFS. O10: a memory instruction looks at its address before it translates it (R144, R148, R149, R152, R153, R155, R158, R167 to
R169). -/

namespace Sys2Proof.Machine

open Sys2Proof Sys2Proof.Safety

variable {s : State} {n : Nat} {rest : List Nat}

/-- A cause with INDEX 0 is one without (R329). -/
theorem State.trapIdx_zero (s : State) (cause : Nat) (tval : Word) : s.trapIdx cause 0 tval = s.trap cause tval := rfl

/-- The first active lane that is not aligned ends the translation of the lanes (R169). -/
theorem State.lanesXl_misaligned {ty : Nat} {write : Bool} {va : Nat → Word} (ha : (va n).toNat % (width ty / 8) ≠ 0) :
    s.lanesXl ty write va (n :: rest) = (s, .error (0x043, 0, va n)) := if_pos ha

section
variable {i : Instr} {reads : List Nat} {d r a b : Reg} {m : MReg} {ty : BitVec 3} {w : BitVec 2} {va : Slot → Nat → Word}

theorem laneLoad_misaligned (hact : activeLanes (s.slot.rm m) ty.toNat = n :: rest)
    (hr : vloadReady s (reads ++ (if m = 0 then [] else [vr d])) w d) (ha : (va s.slot n).toNat % (width ty.toNat / 8) ≠ 0) :
    laneLoad i reads d m ty w va s = s.trap 0x043 (va s.slot n) := by
  rw [← laneReads_eq] at hr
  rw [laneLoad, issue_ready hr]
  dsimp only
  rw [hact, State.lanesXl_misaligned ha]
  exact State.trapIdx_zero ..

theorem execVscat_misaligned (hact : activeLanes (s.slot.rm m) ty.toNat = n :: rest) (hr : vscatReady s r a b m ty w)
    (ha : (s.slot.rx a + laneIndex (s.slot.rv b) n).toNat % (width ty.toNat / 8) ≠ 0) :
    execVscat r a b m ty w s = s.trap 0x043 (s.slot.rx a + laneIndex (s.slot.rv b) n) := by
  rw [execVscat, issue_ready hr]
  dsimp only
  rw [hact, State.lanesXl_misaligned ha]
  exact State.trapIdx_zero ..

end

/-- Settles O10. -/
theorem misalignedAccessesTrapBeforeTranslation : Obligations.misaligned_accesses_trap_before_translation := by
  intro s d a b w z2 z o k p ty m off off2 line tk sum holdL holdS
  refine ⟨fun hr => ⟨fun ha => ?_, fun ha => ?_⟩, fun hr => ⟨fun ha => ?_, fun ha => ?_⟩, fun hr ha => ?_, fun hr ha => ?_,
    fun ha => ⟨fun hr => ?_, fun hr => ?_, fun hr => ?_⟩, fun hr ha => ?_, fun hr ha => ?_, fun hr ha => ?_, fun hr ha => ?_,
    fun i rest hact => ⟨fun hr ha => ?_, fun hr ha => ?_, fun hr ha => ?_⟩⟩
  · exact ⟨(exec_ld ..).trans (loadForm_misaligned hr ha), (exec_ldS ..).trans (loadForm_misaligned hr ha)⟩
  · exact ⟨(exec_ldFeKeep ..).trans (feLoad_misaligned hr ha), (exec_ldFeTake ..).trans (feLoad_misaligned hr ha)⟩
  · exact (exec_st ..).trans (storeForm_misaligned hr ha)
  · exact (exec_stFe ..).trans (feStore_misaligned hr ha)
  · exact ⟨(exec_ldIndexed ..).trans (loadForm_misaligned hr ha), (exec_ldSIndexed ..).trans (loadForm_misaligned hr ha),
      (exec_ldFeKeepIndexed ..).trans (feLoad_misaligned hr ha), (exec_ldFeTakeIndexed ..).trans (feLoad_misaligned hr ha)⟩
  · exact ⟨(exec_stIndexed ..).trans (storeForm_misaligned hr ha), (exec_stFeIndexed ..).trans (feStore_misaligned hr ha)⟩
  · exact ⟨(exec_aadd ..).trans (atomicForm_misaligned hr ha), (exec_aand ..).trans (atomicForm_misaligned hr ha),
      (exec_aor ..).trans (atomicForm_misaligned hr ha), (exec_axor ..).trans (atomicForm_misaligned hr ha),
      (exec_amin ..).trans (atomicForm_misaligned hr ha), (exec_amax ..).trans (atomicForm_misaligned hr ha),
      (exec_aminN ..).trans (atomicForm_misaligned hr ha), (exec_amaxN ..).trans (atomicForm_misaligned hr ha),
      (exec_aswap ..).trans (atomicForm_misaligned hr ha)⟩
  · exact (exec_acas ..).trans (atomicForm_misaligned hr ha)
  · exact (exec_anadd ..).trans (execAnadd_misaligned hr ha)
  · exact (exec_ldt ..).trans (execLdt_misaligned hr ha)
  · exact ⟨(exec_vld ..).trans (execVld_misaligned hr ha), (exec_vldRaw ..).trans (execVldRaw_misaligned hr ha)⟩
  · exact ⟨(exec_vst ..).trans (execVst_misaligned hr ha), (exec_vstRaw ..).trans (execVstRaw_misaligned hr ha)⟩
  · exact (exec_rdmScratchpad ..).trans (execRdmScratchpad_misaligned hr ha)
  · exact (exec_vlds ..).trans (laneLoad_misaligned hact hr ha)
  · exact (exec_vgath ..).trans (laneLoad_misaligned hact hr ha)
  · exact (exec_vscat ..).trans (execVscat_misaligned hact (by rw [vscatReady, hact]; exact hr) ha)

end Sys2Proof.Machine
end

