-- ==== Sys2Proof/Proofs/TicketHome.lean ====
section
/-! PROOFS. O37: tickets at their home, and redemptions as they land (R154, R156 to R161, R278, R377, Tables 08-6 to 08-8). A step of
the home changes its lists and sends; each row of Table 08-6 is one answer of `matchRdm`, and each answer leaves what one lemma says. -/

namespace Sys2Proof.Machine

open Sys2Proof Sys2Proof.Safety

variable {s t u : State}

theorem exec_ticketFetch (h : Nat) (s : State) : exec (.ticketFetch h) s = execTicketFetch h s := rfl
theorem exec_redemption (h : Nat) (s : State) : exec (.redemption h) s = execRedemption h s := rfl
theorem exec_redemptionHoldExpiry (h : Nat) (s : State) :
    exec (.redemptionHoldExpiry h) s = execRedemptionHoldExpiry h s := rfl
theorem exec_ticketDrop (h : Nat) (s : State) : exec (.ticketDrop h) s = execTicketDrop h s := rfl
theorem exec_ticketQuery (h : Nat) (s : State) : exec (.ticketQuery h) s = execTicketQuery h s := rfl
theorem exec_leaseEnd (h : Nat) (s : State) : exec (.leaseEnd h) s = execLeaseEnd h s := rfl
theorem exec_releaseNotice (k : PairKey) (s : State) : exec (.releaseNotice k) s = execReleaseNotice k s := rfl
theorem exec_snapshotReply (k : PairKey) (s : State) : exec (.snapshotReply k) s = execSnapshotReply k s := rfl
theorem exec_scaleReadReply (k : PairKey) (s : State) : exec (.scaleReadReply k) s = execScaleReadReply k s := rfl

/-! ### The first of its kind taken out of a list -/

theorem takeFirst_append {α : Type} {p : α → Bool} {a b : List α} {x : α} (ha : ∀ y ∈ a, p y = false) (hx : p x = true) :
    takeFirst p (a ++ x :: b) = some (x, a ++ b) := by
  induction a with
  | nil => exact if_pos hx
  | cons y r ih =>
    have hy : ¬p y = true := by simp [ha y List.mem_cons_self]
    rw [List.cons_append, takeFirst, if_neg hy, ih fun z hz => ha z (List.mem_cons_of_mem _ hz)]
    rfl

theorem takeFirst_eq_none {α : Type} {p : α → Bool} {l : List α} (h : ∀ y ∈ l, p y = false) : takeFirst p l = none := by
  induction l with
  | nil => rfl
  | cons y r ih =>
    have hy : ¬p y = true := by simp [h y List.mem_cons_self]
    rw [takeFirst, if_neg hy, ih fun z hz => h z (List.mem_cons_of_mem _ hz)]
    rfl

/-! ### What a ticket step of a home changes -/

/-- Nothing but homes, tiles, pair queues, page records and counts of errors differs. -/
def TicketSide (s t : State) : Prop :=
  { t with
    pages := s.pages, units := s.units
    mach := { t.mach with homes := s.mach.homes, tiles := s.mach.tiles, net := s.mach.net } } = s

theorem TicketSide.refl (s : State) : TicketSide s s := rfl

theorem TicketSide.trans (h : TicketSide s t) (k : TicketSide t u) : TicketSide s u := by
  unfold TicketSide at *
  rw [← k] at h
  exact h

theorem TicketSide.sameMemory (h : TicketSide s t) : sameMemory s t := fun a => (congrArg (·.byte a) h :)
theorem TicketSide.part (h : TicketSide s t) : t.part = s.part := (congrArg (·.part) h :)

theorem TicketSide.updHome (s : State) (h : Nat) (f) : TicketSide s (s.updHome h f) := rfl
theorem TicketSide.updTile (s : State) (n : Nat) (f) : TicketSide s (s.updTile n f) := rfl
theorem TicketSide.updUnit (s : State) (k n : Nat) (f) : TicketSide s (s.updUnit k n f) := rfl
theorem TicketSide.append (s : State) (k : PairKey) (p) : TicketSide s (s.append k p) := rfl
theorem TicketSide.reply (s : State) (h : Nat) (p b) : TicketSide s (s.reply h p b) := rfl
theorem TicketSide.releaseTicket (s : State) (h : Nat) (q c n g) : TicketSide s (s.releaseTicket h q c n g) := rfl

theorem TookHead.ticketSide {h : Nat} {rest : List Packet} (hu : TookHead s h rest u) : TicketSide s u := by
  obtain ⟨l, rfl⟩ := hu
  rfl

@[simp] theorem State.homeAt_reply (s : State) (h : Nat) (p b) (n : Nat) : (s.reply h p b).homeAt n = s.homeAt n := rfl
@[simp] theorem State.homeAt_append (s : State) (k : PairKey) (p) (n : Nat) : (s.append k p).homeAt n = s.homeAt n := rfl
@[simp] theorem State.homeAt_updUnit (s : State) (k m : Nat) (f) (n : Nat) : (s.updUnit k m f).homeAt n = s.homeAt n := rfl
@[simp] theorem State.homeAt_updTile (s : State) (m : Nat) (f) (n : Nat) : (s.updTile m f).homeAt n = s.homeAt n := rfl
@[simp] theorem State.homeAt_releaseTicket (s : State) (h : Nat) (q c m g) (n : Nat) :
    (s.releaseTicket h q c m g).homeAt n = s.homeAt n := rfl

/-- The home whose head has been taken has its lists as they were. -/
theorem TookHead.homeAt {h : Nat} {rest : List Packet} (hu : TookHead s h rest u) :
    u.homeAt h = { s.homeAt h with q := rest } := by
  obtain ⟨l, rfl⟩ := hu
  exact s.homeAt_updHome_self h (fun q => { q with q := rest })

theorem TookHead.net {h : Nat} {rest : List Packet} (hu : TookHead s h rest u) : u.mach.net = s.mach.net := by
  obtain ⟨l, rfl⟩ := hu
  rfl

/-! ### What has been sent (R43) -/

/-- A body has been put on a pair queue, behind all that stood on it. -/
def sentOn (s t : State) (k : PairKey) (b : Body) : Prop :=
  ∃ new, netGet t.mach.net k = netGet s.mach.net k ++ new ∧ b ∈ new.map (·.body)

theorem sentOn_append_self (h : u.mach.net = s.mach.net) (k : PairKey) (p : Packet) : sentOn s (u.append k p) k p.body :=
  ⟨[p], by rw [State.append, netGet_append, h], by simp⟩

/-- What has been sent stays sent. -/
theorem sentOn.append {k : PairKey} {b : Body} (h : sentOn s u k b) (j : PairKey) (p : Packet) : sentOn s (u.append j p) k b := by
  obtain ⟨new, hnew, hb⟩ := h
  by_cases e : k = j
  · subst e
    exact ⟨new ++ [p], by rw [State.append, netGet_append, hnew, List.append_assoc], by simp [List.map_append, hb]⟩
  · exact ⟨new, by rw [State.append, netGet_netSet_other _ _ e, hnew], hb⟩

/-- What is sent behind another packet. -/
theorem sentOn_append_behind (h : u.mach.net = s.mach.net) (k j : PairKey) (p q : Packet) :
    sentOn s ((u.append j q).append k p) k p.body := by
  by_cases e : k = j
  · subst e
    exact ⟨[q, p], by rw [State.append, netGet_append, State.append, netGet_append, h, List.append_assoc]; rfl, by simp⟩
  · exact ⟨[p], by rw [State.append, netGet_append, State.append, netGet_netSet_other _ _ e, h], by simp⟩

/-- The number of a ticket has been released to its core (R154). -/
def releasedTo (s t : State) (h : Nat) (peer : Peer) (core num : Nat) (gen : BitVec 6) : Prop :=
  sentOn s t { src := s.here (.home h), dst := { peer := peer, agent := .core core }, cls := 4 } (.release num gen)

theorem State.releaseTicket_releases (hu : TicketSide s u) (hnet : u.mach.net = s.mach.net) (h : Nat) (peer : Peer) (core num : Nat)
    (gen : BitVec 6) : releasedTo s (u.releaseTicket h peer core num gen) h peer core num gen := by
  unfold releasedTo
  rw [← State.here_congr hu.part]
  exact sentOn_append_self hnet _ _

theorem releasedTo.updHome {h core num : Nat} {peer : Peer} {gen : BitVec 6} (hr : releasedTo s u h peer core num gen) (n : Nat)
    (f : Home → Home) : releasedTo s (u.updHome n f) h peer core num gen := hr

/-- A reply of home `h` has been sent (R44). -/
def repliedTo (s t : State) (h : Nat) (p : Packet) (b : Body) : Prop :=
  sentOn s t { src := s.here (.home h), dst := p.src, cls := 4 } b

theorem State.reply_replies (hu : TicketSide s u) (hnet : u.mach.net = s.mach.net) (h : Nat) (p : Packet) (b : Body) :
    repliedTo s (u.reply h p b) h p b := by
  unfold repliedTo
  rw [← State.here_congr hu.part]
  exact sentOn_append_self hnet _ _

/-! ### A fetch (R51, R52, R156, R157) -/

theorem State.updHome_congr {h : Nat} {f g : Home → Home} (hfg : f (s.homeAt h) = g (s.homeAt h)) :
    s.updHome h f = s.updHome h g := by
  unfold State.updHome
  rw [hfg]

/-- With nothing that waits for a fetch at a home, its entry serves nothing. -/
theorem State.serveHeld_quiet {h : Nat} (hheld : (u.homeAt h).heldRdm = []) (hawait : (u.homeAt h).awaiting = []) (tk : Word) :
    ∃ away, u.serveHeld h tk = u.updHome h (fun q => { q with away := away }) := by
  unfold State.serveHeld
  dsimp only
  rw [hheld, hawait]
  simp only [List.filter_nil, List.foldl_nil]
  exact ⟨(u.homeAt h).away.filter (fun v => !sameTicket tk v),
    State.updHome_congr (by simp only [hheld, hawait, List.filter_nil])⟩

/-- The table of a home, and at a tile its snapshot pool, have room for a ticket's entry (R156, R157). -/
def State.ticketFits (s : State) (h : Nat) (tk : Word) : Prop :=
  (s.homeAt h).tickets.length < ticketRoom h ∧
    ∃ b, (if h < 1024 then freeRun (s.homeAt h).tickets (max 1 (tkBytes tk / 64)) else some 0) = some b

section
variable {h : Nat} {p : Packet} {tk : Word}

/-- The home with the clock of a ticket's fetch kept (R156). -/
def State.keptFetch (s : State) (h : Nat) (tk : Word) (at_ : Nat) : State :=
  s.updHome h (fun q => { q with fetched := AMap.set q.fetched (tkCoreOf tk * 256 + tkNumOf tk) at_ })

/-- A fetch that is lost: its record, the count of the home's unit, and its number released (R156). -/
def State.lostFetch (s : State) (h : Nat) (p : Packet) (tk : Word) : State :=
  ((s.updHome h (fun q => { q with lost := pushRec q.lost { core := tkCoreOf tk, num := tkNumOf tk,
                                                            gen := BitVec.ofNat 6 (tkGenOf tk), job := p.job } })).updUnit
    (homeKind h) h (fun u => { u with c3 := bump u.c3 })).releaseTicket h p.src.peer (tkCoreOf tk) (tkNumOf tk)
      (BitVec.ofNat 6 (tkGenOf tk))

theorem TicketSide.keptFetch (s : State) (h : Nat) (tk : Word) (at_ : Nat) : TicketSide s (s.keptFetch h tk at_) := .updHome ..

theorem TicketSide.lostFetch (s : State) (h : Nat) (p : Packet) (tk : Word) : TicketSide s (s.lostFetch h p tk) :=
  ((TicketSide.updHome ..).trans (.updUnit ..)).trans (.releaseTicket ..)

theorem State.lostFetch_releases (hu : TicketSide s u) (hnet : u.mach.net = s.mach.net) (h : Nat) (p : Packet) (tk : Word) :
    releasedTo s (u.lostFetch h p tk) h p.src.peer (tkCoreOf tk) (tkNumOf tk) (BitVec.ofNat 6 (tkGenOf tk)) :=
  State.releaseTicket_releases ((hu.trans (.updHome ..)).trans (.updUnit ..)) hnet ..

/-- A snapshot that fits has its entry in the table. -/
theorem State.makeEntry_fits (hfits : u.ticketFits h tk) (v : Snap) :
    ∃ e, u.makeEntry h p tk (some v) =
        ((u.keptFetch h tk v.at_).updHome h (fun q => { q with tickets := q.tickets ++ [e] })).serveHeld h tk ∧
      e.data = v.data ∧ e.job = p.job ∧ e.num = tkNumOf tk ∧ e.core = tkCoreOf tk := by
  obtain ⟨hlen, b, hb⟩ := hfits
  unfold State.makeEntry
  dsimp only
  rw [hb]
  simp only [hlen, if_true]
  exact ⟨_, rfl, rfl, rfl, rfl, rfl⟩

/-- Without a snapshot, or without room for it, the fetch is lost. -/
theorem State.makeEntry_lost {snap : Option Snap} (hlost : snap = none ∨ ¬u.ticketFits h tk) :
    ∃ at_, u.makeEntry h p tk snap = ((u.keptFetch h tk at_).lostFetch h p tk).serveHeld h tk := by
  refine ⟨(snap.map (·.at_)).getD u.mach.clock, ?_⟩
  unfold State.makeEntry
  dsimp only
  split
  · next v b hb =>
    have hfull : ¬(u.homeAt h).tickets.length < ticketRoom h := fun hlen =>
      hlost.elim nofun fun hno => hno ⟨hlen, b, hb⟩
    rw [if_neg hfull]
    rfl
  · rfl

variable {rest : List Packet}

/-- A snapshot that fits is kept: the table has its entry behind the others. -/
theorem TookHead.makeEntry_keeps (hu : TookHead s h rest u) (hheld : (s.homeAt h).heldRdm = [])
    (hawait : (s.homeAt h).awaiting = []) (hfits : s.ticketFits h tk) (v : Snap) :
    let t := u.makeEntry h p tk (some v)
    ∃ e, (t.homeAt h).tickets = (s.homeAt h).tickets ++ [e] ∧ (t.homeAt h).q = rest ∧ e.data = v.data ∧ e.job = p.job ∧
      e.num = tkNumOf tk ∧ e.core = tkCoreOf tk ∧ Safety.sameMemory s t := by
  intro t
  obtain ⟨e, hentry, hfields⟩ := State.makeEntry_fits (u := u) (h := h) (p := p) (tk := tk)
    (by unfold State.ticketFits; rw [hu.homeAt]; exact hfits) v
  obtain ⟨away, hserve⟩ := State.serveHeld_quiet (h := h)
    (u := (u.keptFetch h tk v.at_).updHome h (fun q => { q with tickets := q.tickets ++ [e] }))
    (by simp [State.keptFetch, hu.homeAt, hheld]) (by simp [State.keptFetch, hu.homeAt, hawait]) tk
  have ht : t = _ := hentry.trans hserve
  refine ⟨e, ?_, ?_, ?_⟩
  · rw [ht]; simp [State.keptFetch, hu.homeAt]
  · rw [ht]; simp [State.keptFetch, hu.homeAt]
  · obtain ⟨h1, h2, h3, h4⟩ := hfields
    rw [ht]
    exact ⟨h1, h2, h3, h4, (((hu.ticketSide.trans (.keptFetch ..)).trans (.updHome ..)).trans (.updHome ..)).sameMemory⟩

/-- A fetch without a snapshot, or without room for it, is lost: its record is kept and its number released. -/
theorem TookHead.makeEntry_loses (hu : TookHead s h rest u) (hheld : (s.homeAt h).heldRdm = [])
    (hawait : (s.homeAt h).awaiting = []) {snap : Option Snap} (hlost : snap = none ∨ ¬s.ticketFits h tk) :
    let t := u.makeEntry h p tk snap
    (t.homeAt h).tickets = (s.homeAt h).tickets ∧ Safety.sameMemory s t ∧
      (t.homeAt h).lost = pushRec (s.homeAt h).lost { core := tkCoreOf tk, num := tkNumOf tk, gen := BitVec.ofNat 6 (tkGenOf tk),
                                                      job := p.job } ∧
      releasedTo s t h p.src.peer (tkCoreOf tk) (tkNumOf tk) (BitVec.ofNat 6 (tkGenOf tk)) := by
  intro t
  obtain ⟨at_, hentry⟩ := State.makeEntry_lost (u := u) (h := h) (p := p) (tk := tk) (snap := snap)
    (hlost.imp_right fun hno => by unfold State.ticketFits; rw [hu.homeAt]; exact hno)
  obtain ⟨away, hserve⟩ := State.serveHeld_quiet (h := h) (u := (u.keptFetch h tk at_).lostFetch h p tk)
    (by simp [State.keptFetch, State.lostFetch, hu.homeAt, hheld]) (by simp [State.keptFetch, State.lostFetch, hu.homeAt, hawait]) tk
  have ht : t = _ := hentry.trans hserve
  have hkept := hu.ticketSide.trans (.keptFetch u h tk at_)
  rw [ht]
  refine ⟨?_, ((hkept.trans (.lostFetch ..)).trans (.updHome ..)).sameMemory, ?_,
    (State.lostFetch_releases hkept hu.net h p tk).updHome ..⟩
  all_goals simp [State.keptFetch, State.lostFetch, hu.homeAt]

theorem State.snapshotOf_allowed {pa sc elt : Nat} {fmt : BitVec 8} (href : s.refuses h p pa = none) :
    ∃ v, s.snapshotOf h p tk pa fmt sc elt = some v ∧ v.data = s.bytes pa (tkBytes tk) := by
  rw [State.snapshotOf, href]
  exact ⟨_, rfl, rfl⟩

theorem State.snapshotOf_refused {pa sc elt : Nat} {fmt : BitVec 8} (href : s.refuses h p pa ≠ none) :
    s.snapshotOf h p tk pa fmt sc elt = none :=
  if_pos (Option.isSome_iff_ne_none.mpr href)

/-- The head of the queue taken, its access counted where it is one. -/
theorem TookHead.countedIf (s : State) (h : Nat) (rest : List Packet) (b : Bool) (pa : Nat) (src : Place) :
    TookHead s h rest (if b then (s.afterHead h rest).countPage pa src 1 else s.afterHead h rest) := by
  split
  · exact .counted ..
  · exact .taken ..

/-- A fetch at the home that its ticket names makes its entry there. -/
theorem execTicketFetch_own (hq : (s.homeAt h).q = p :: rest) {pa sc elt : Nat} {fmt : BitVec 8}
    (hb : p.body = .fetch tk pa fmt sc elt) (hown : tkHomeOf tk = h ∧ tkPeerOf tk = s.part.peer) :
    ∃ u, TookHead s h rest u ∧ execTicketFetch h s = .next (u.makeEntry h p tk (s.snapshotOf h p tk pa fmt sc elt)) := by
  refine ⟨_, TookHead.countedIf s h rest (s.snapshotOf h p tk pa fmt sc elt).isSome pa p.src, ?_⟩
  rw [execTicketFetch, hq]
  dsimp only
  rw [hb]
  exact if_pos hown

/-- A fetch that has been forwarded sends what it has read to the home that its ticket names (log 87). -/
theorem execTicketFetch_forwarded (hq : (s.homeAt h).q = p :: rest) {pa sc elt : Nat} {fmt : BitVec 8}
    (hb : p.body = .fetch tk pa fmt sc elt) (hown : ¬(tkHomeOf tk = h ∧ tkPeerOf tk = s.part.peer)) :
    ∃ u : State, execTicketFetch h s = .next (u.append
      { src := s.here (.home h), dst := { peer := tkPeerOf tk, agent := .home (tkHomeOf tk) }, cls := 4 }
      { p with body := .fetched tk (s.snapshotOf h p tk pa fmt sc elt) }) := by
  refine ⟨if (s.snapshotOf h p tk pa fmt sc elt).isSome then (s.afterHead h rest).countPage pa p.src 1 else s.afterHead h rest, ?_⟩
  rw [execTicketFetch, hq]
  dsimp only
  rw [hb]
  exact if_neg hown

theorem execTicketFetch_returned (hq : (s.homeAt h).q = p :: rest) {snap : Option Snap} (hb : p.body = .fetched tk snap) :
    execTicketFetch h s = .next ((s.afterHead h rest).makeEntry h p tk snap) := by
  rw [execTicketFetch, hq]
  dsimp only
  rw [hb]
  rfl

end

/-! ### A redemption (R52, R156, R158, R161, R377, Table 08-6) -/

section
variable {h : Nat} {p : Packet} {rest : List Packet} {tk : Word} {dst : RdmDst} {job : BitVec 16} {at_ : Nat}

/-- A ticket names an entry of a table. -/
def namesEntry (tk : Word) (e : Ticket) : Bool := namesTicket tk e.core e.num e.gen

/-- The answers of Table 08-6 go by the lists of the home, which the head of its queue has not touched. -/
theorem State.matchRdm_afterHead (s : State) (h : Nat) (rest : List Packet) (tk : Word) (job : BitVec 16) (at_ : Nat) :
    (s.afterHead h rest).matchRdm h tk job at_ = s.matchRdm h tk job at_ := by
  unfold State.matchRdm
  rw [(TookHead.taken s h rest).homeAt]
  rfl

/-- A home that is not fenced answers for an entry by its lease and its job. -/
theorem State.matchRdm_entry (hf : ¬s.part.fenced.contains h = true) {e : Ticket}
    (he : (s.homeAt h).tickets.find? (namesEntry tk) = some e) : s.matchRdm h tk job at_ =
      if s.leaseOver e at_ then .refused 1 false else if e.job ≠ job then .refused 2 false else .sent e := by
  unfold namesEntry at he
  unfold State.matchRdm
  dsimp only
  rw [he]
  exact if_neg fun hc => hf hc.1

section
variable (hf : ¬s.part.fenced.contains h = true) (hno : (s.homeAt h).tickets.find? (namesEntry tk) = none)
include hf hno

theorem State.matchRdm_lost (hl : (s.homeAt h).lost.any (namesRec tk) = true) : s.matchRdm h tk job at_ = .refused 3 true := by
  unfold namesEntry at hno
  unfold State.matchRdm
  dsimp only
  rw [hno]
  exact (if_neg fun hc => hf hc.1).trans (if_pos hl)

variable (hl : (s.homeAt h).lost.any (namesRec tk) = false)
include hl

theorem State.matchRdm_expired (hx : (s.homeAt h).expired.any (namesRec tk) = true) :
    s.matchRdm h tk job at_ = .refused 1 false := by
  unfold namesEntry at hno
  unfold State.matchRdm
  dsimp only
  rw [hno, hl]
  exact ((if_neg fun hc => hf hc.1).trans (if_neg Bool.false_ne_true)).trans (if_pos hx)

variable (hx : (s.homeAt h).expired.any (namesRec tk) = false)
include hx

/-- With nothing found, a number of which a fetch was performed in the last 2^20 cycles is spent. -/
theorem State.matchRdm_spent {f : Nat} (hlast : AMap.get (s.homeAt h).fetched (tkCoreOf tk * 256 + tkNumOf tk) = some f)
    (hrecent : s.mach.clock ≤ f + 2 ^ 20) : s.matchRdm h tk job at_ = .refused 0 false := by
  unfold namesEntry at hno
  unfold State.matchRdm
  dsimp only
  rw [hno, hl, hx, hlast]
  exact (((if_neg fun hc => hf hc.1).trans (if_neg Bool.false_ne_true)).trans (if_neg Bool.false_ne_true)).trans (if_pos hrecent)

/-- With nothing found and no recent fetch of the number, the redemption is held. -/
theorem State.matchRdm_held
    (hlast : ∀ f, AMap.get (s.homeAt h).fetched (tkCoreOf tk * 256 + tkNumOf tk) = some f → f + 2 ^ 20 < s.mach.clock) :
    s.matchRdm h tk job at_ = .hold := by
  unfold namesEntry at hno
  unfold State.matchRdm
  dsimp only
  rw [hno, hl, hx]
  refine ((if_neg fun hc => hf hc.1).trans (if_neg Bool.false_ne_true)).trans ((if_neg Bool.false_ne_true).trans ?_)
  split
  · next f hget => exact if_neg (Nat.not_le.mpr (hlast f hget))
  · rfl

end

/-- A fenced home answers what it holds as lost (R377). -/
theorem State.matchRdm_fenced (hf : s.part.fenced.contains h = true)
    (hany : (s.homeAt h).tickets.any (namesEntry tk) = true ∨ (s.homeAt h).lost.any (namesRec tk) = true ∨
      (s.homeAt h).expired.any (namesRec tk) = true) : s.matchRdm h tk job at_ = .refused 3 false := by
  refine if_pos ⟨hf, hany.imp_left fun hentry => ?_⟩
  rw [List.find?_isSome]
  exact List.any_eq_true.mp hentry

/-- What an answer other than `hold` leaves of a home: its entries and what it holds, but for the lost record that it takes. -/
def refusedAt (s t : State) (h : Nat) (p : Packet) (dst : RdmDst) (tk : Word) (n : BitVec 2) : Prop :=
  (t.homeAt h).tickets = (s.homeAt h).tickets ∧ (t.homeAt h).heldRdm = (s.homeAt h).heldRdm ∧
    repliedTo s t h p (.refusedRdm dst tk n)

/-- The home's lost list without the first record that a ticket names. -/
def Home.tookLost (q : Home) (tk : Word) : Home :=
  { q with lost := match takeFirst (namesRec tk) q.lost with | some (_, r) => r | none => q.lost }

theorem State.doRedeem_refused {k : BitVec 2} {drop : Bool} (hm : u.matchRdm h tk p.job at_ = .refused k drop) :
    u.doRedeem h p tk dst at_ =
      (if drop then u.updHome h (Home.tookLost · tk) else u).reply h p (.refusedRdm dst tk k) := by
  rw [State.doRedeem, State.answerRdm, hm]
  rfl

theorem State.doRedeem_sent {e : Ticket} (hm : u.matchRdm h tk p.job at_ = .sent e) : u.doRedeem h p tk dst at_ =
    ((u.updHome h (fun q => { q with tickets := q.tickets.filter (fun x => !namesEntry tk x) })).reply h p
      (.snapshot dst tk e.data e.poison e.fmt e.scale e.elt)).releaseTicket h e.peer e.core e.num e.gen := by
  rw [State.doRedeem, State.answerRdm, hm]
  rfl

theorem State.doRedeem_held (hm : u.matchRdm h tk p.job at_ = .hold) : u.doRedeem h p tk dst at_ =
    u.updHome h (fun q => { q with heldRdm := q.heldRdm ++ [(p, u.mach.clock + 2 ^ 20)] }) := by
  rw [State.doRedeem, State.answerRdm, hm]

/-- Whatever its answer, a redemption leaves the home's queue and memory. -/
theorem State.doRedeem_frame (u : State) (h : Nat) (p : Packet) (tk : Word) (dst : RdmDst) (at_ : Nat) :
    TicketSide u (u.doRedeem h p tk dst at_) ∧ ((u.doRedeem h p tk dst at_).homeAt h).q = (u.homeAt h).q := by
  cases hm : u.matchRdm h tk p.job at_ with
  | sent e =>
    rw [State.doRedeem_sent hm]
    exact ⟨((TicketSide.updHome ..).trans (.reply ..)).trans (.releaseTicket ..), by simp⟩
  | refused k drop =>
    rw [State.doRedeem_refused hm]
    cases drop with
    | true =>
      rw [if_pos rfl]
      exact ⟨(TicketSide.updHome ..).trans (.reply ..), by simp [Home.tookLost]⟩
    | false =>
      rw [if_neg Bool.false_ne_true]
      exact ⟨.reply .., rfl⟩
  | hold =>
    rw [State.doRedeem_held hm]
    exact ⟨.updHome .., by simp⟩

/-- A refused redemption is answered, and takes at most a lost record from the home. -/
theorem TookHead.doRedeem_refuses (hu : TookHead s h rest u) {k : BitVec 2} {drop : Bool}
    (hm : u.matchRdm h tk p.job at_ = .refused k drop) :
    let t := u.doRedeem h p tk dst at_
    refusedAt s t h p dst tk k ∧ (t.homeAt h).expired = (s.homeAt h).expired ∧
      (t.homeAt h).lost = if drop then ((s.homeAt h).tookLost tk).lost else (s.homeAt h).lost := by
  intro t
  have ht : t = _ := State.doRedeem_refused hm
  rw [ht]
  cases drop with
  | true =>
    rw [if_pos rfl]
    refine ⟨⟨?_, ?_, State.reply_replies (hu.ticketSide.trans (.updHome ..)) hu.net ..⟩, ?_, ?_⟩
    all_goals simp [Home.tookLost, hu.homeAt]
  | false =>
    rw [if_neg Bool.false_ne_true]
    refine ⟨⟨?_, ?_, State.reply_replies hu.ticketSide hu.net ..⟩, ?_, ?_⟩
    all_goals simp [hu.homeAt]

/-- A redemption that is answered with its entry takes it, sends the snapshot and releases the number. -/
theorem TookHead.doRedeem_sends (hu : TookHead s h rest u) {e : Ticket} (hm : u.matchRdm h tk p.job at_ = .sent e) :
    let t := u.doRedeem h p tk dst at_
    (t.homeAt h).tickets = (s.homeAt h).tickets.filter (fun x => !namesEntry tk x) ∧
      repliedTo s t h p (.snapshot dst tk e.data e.poison e.fmt e.scale e.elt) ∧
      releasedTo s t h e.peer e.core e.num e.gen := by
  intro t
  have ht : t = _ := State.doRedeem_sent hm
  have hS := hu.ticketSide.trans (.updHome u h (fun q => { q with tickets := q.tickets.filter (fun x => !namesEntry tk x) }))
  rw [ht]
  refine ⟨by simp [hu.homeAt], (State.reply_replies hS hu.net ..).append .., ?_⟩
  unfold releasedTo
  rw [← State.here_congr hS.part]
  exact sentOn_append_behind hu.net ..

/-- A step about a ticket waits while the ticket's fetch is with another home. -/
theorem State.ticketItem_afterHead (s : State) (h : Nat) (rest : List Packet) (p : Packet) (tk : Word) :
    (s.afterHead h rest).ticketItem h p tk = if (s.homeAt h).away.any (sameTicket tk) then
        (s.afterHead h rest).updHome h (fun q => { q with awaiting := q.awaiting ++ [p] })
      else (s.afterHead h rest).doTicketItem h p := by
  rw [State.ticketItem, (TookHead.taken s h rest).homeAt]

theorem execRedemption_at (hq : (s.homeAt h).q = p :: rest) (hb : p.body = .redeem tk dst at_) :
    execRedemption h s = .next (if (s.homeAt h).away.any (sameTicket tk) then
        (s.afterHead h rest).updHome h (fun q => { q with awaiting := q.awaiting ++ [p] })
      else (s.afterHead h rest).doRedeem h p tk dst at_) := by
  have hitem := s.ticketItem_afterHead h rest p tk
  simp only [State.doTicketItem, hb] at hitem
  rw [execRedemption, hq]
  dsimp only
  rw [hb]
  exact congrArg Host.Outcome.next hitem

theorem execTicketDrop_at (hq : (s.homeAt h).q = p :: rest) (hb : p.body = .tkDrop tk) :
    execTicketDrop h s = .next (if (s.homeAt h).away.any (sameTicket tk) then
        (s.afterHead h rest).updHome h (fun q => { q with awaiting := q.awaiting ++ [p] })
      else (s.afterHead h rest).doDrop h p tk) := by
  have hitem := s.ticketItem_afterHead h rest p tk
  simp only [State.doTicketItem, hb] at hitem
  rw [execTicketDrop, hq]
  dsimp only
  rw [hb]
  exact congrArg Host.Outcome.next hitem

theorem execTicketQuery_at {r : Reg} (hq : (s.homeAt h).q = p :: rest) (hb : p.body = .tkQuery tk r) :
    execTicketQuery h s = .next (if (s.homeAt h).away.any (sameTicket tk) then
        (s.afterHead h rest).updHome h (fun q => { q with awaiting := q.awaiting ++ [p] })
      else (s.afterHead h rest).doQuery h p tk r) := by
  have hitem := s.ticketItem_afterHead h rest p tk
  simp only [State.doTicketItem, hb] at hitem
  rw [execTicketQuery, hq]
  dsimp only
  rw [hb]
  exact congrArg Host.Outcome.next hitem

/-! ### A drop and a query (R158, R160, R161) -/

/-- An entry that a drop removes: named by the ticket, and of the drop's job. -/
def dropsEntry (tk : Word) (job : BitVec 16) (e : Ticket) : Bool := namesTicket tk e.core e.num e.gen && decide (e.job = job)

/-- A drop removes an entry whose lease runs, and releases its number. -/
theorem State.doDrop_found {e : Ticket} {l : List Ticket}
    (hfound : takeFirst (dropsEntry tk p.job) (u.homeAt h).tickets = some (e, l)) (hlease : u.leaseOver e u.mach.clock = false) :
    u.doDrop h p tk = (u.updHome h (fun q => { q with tickets := l })).releaseTicket h e.peer e.core e.num e.gen := by
  unfold dropsEntry at hfound
  rw [State.doDrop, hfound]
  exact if_neg (ne_true_of_eq_false hlease)

theorem State.doDrop_none (hnone : takeFirst (dropsEntry tk p.job) (u.homeAt h).tickets = none) : u.doDrop h p tk = u := by
  unfold dropsEntry at hnone
  rw [State.doDrop, hnone]

/-- A drop leaves the home's queue and memory. -/
theorem State.doDrop_frame (u : State) (h : Nat) (p : Packet) (tk : Word) :
    TicketSide u (u.doDrop h p tk) ∧ ((u.doDrop h p tk).homeAt h).q = (u.homeAt h).q := by
  unfold State.doDrop
  split
  · split
    · exact ⟨.refl u, rfl⟩
    · exact ⟨(TicketSide.updHome ..).trans (.releaseTicket ..), by simp⟩
  · exact ⟨.refl u, rfl⟩

theorem TookHead.doDrop_removes (hu : TookHead s h rest u) {e : Ticket} {l : List Ticket}
    (hfound : takeFirst (dropsEntry tk p.job) (s.homeAt h).tickets = some (e, l)) (hlease : u.leaseOver e u.mach.clock = false) :
    ((u.doDrop h p tk).homeAt h).tickets = l ∧ releasedTo s (u.doDrop h p tk) h e.peer e.core e.num e.gen := by
  rw [State.doDrop_found (by rw [hu.homeAt]; exact hfound) hlease]
  exact ⟨by simp, State.releaseTicket_releases (hu.ticketSide.trans (.updHome ..)) hu.net ..⟩

/-- A home that is not fenced answers a query about an entry by its lease and its job (R161). -/
theorem TookHead.ticketState_entry (hu : TookHead s h rest u) (hclock : u.mach.clock = s.mach.clock) (hlease : u.job = s.job)
    (hf : ¬s.part.fenced.contains h = true) {e : Ticket} (he : (s.homeAt h).tickets.find? (namesEntry tk) = some e) :
    u.ticketState h tk job = if e.at_ + 2 ^ s.job.lease ≤ s.mach.clock then 3 else if e.job = job then 1 else 5 := by
  unfold namesEntry at he
  unfold State.ticketState State.leaseOver
  dsimp only
  rw [hu.part, hu.homeAt, hclock, hlease]
  dsimp only
  rw [he]
  refine (if_neg fun hc => hf hc.1).trans ?_
  simp only [Bool.and_self, decide_eq_true_eq]

theorem TookHead.ticketState_noEntry (hu : TookHead s h rest u) (hf : ¬s.part.fenced.contains h = true)
    (hno : (s.homeAt h).tickets.find? (namesEntry tk) = none) : u.ticketState h tk job =
      if (s.homeAt h).lost.any (namesRec tk) then 4 else if (s.homeAt h).expired.any (namesRec tk) then 3 else 2 := by
  unfold namesEntry at hno
  unfold State.ticketState
  dsimp only
  rw [hu.part, hu.homeAt]
  dsimp only
  rw [hno]
  exact if_neg fun hc => hf hc.1

end

/-! ### What the home ends by itself (R158, R159) -/

/-- A redemption held past its time is answered as spent. -/
theorem execRedemptionHoldExpiry_expires {h : Nat} {e : Packet × Nat} {r : List (Packet × Nat)} (hheld : (s.homeAt h).heldRdm = e :: r)
    (htime : e.2 ≤ s.mach.clock) {tk : Word} {dst : RdmDst} {at_ : Nat} (hb : e.1.body = .redeem tk dst at_) :
    execRedemptionHoldExpiry h s =
      .next ((s.updHome h (fun q => { q with heldRdm := r })).reply h e.1 (.refusedRdm dst tk 0)) := by
  rw [execRedemptionHoldExpiry, hheld, takeFirst, if_pos (decide_eq_true htime)]
  dsimp only
  rw [hb]

/-- The table of home `h` without an entry whose lease has ended: its record, the counts of the home, its number released (R159). -/
def State.endLease (s : State) (h : Nat) (e : Ticket) (r : List Ticket) : State :=
  let s1 := s.updHome h (fun q => { q with
    tickets := r, expired := pushRec q.expired { core := e.core, num := e.num, gen := e.gen, job := e.job }
    orphans := if h < 1024 then q.orphans else q.orphans + 1 })
  let s2 := if h < 1024 then s1.updTile h (fun t => { t with tkorph := satAdd 32 t.tkorph 1 }) else s1
  (s2.updUnit (homeKind h) h (fun u => { u with c2 := bump u.c2 })).releaseTicket h e.peer e.core e.num e.gen

theorem execLeaseEnd_ends {h : Nat} {e : Ticket} {r : List Ticket} (htickets : (s.homeAt h).tickets = e :: r)
    (hq : (s.homeAt h).q = []) (hstop : e.at_ + 2 ^ s.job.lease ≤ s.mach.clock) : execLeaseEnd h s = .next (s.endLease h e r) := by
  unfold execLeaseEnd
  dsimp only
  rw [htickets, hq, takeFirst, if_pos (by simp [hstop])]
  rfl

theorem State.endLease_leaves (s : State) (h : Nat) (e : Ticket) (r : List Ticket) :
    ((s.endLease h e r).homeAt h).tickets = r ∧
      ((s.endLease h e r).homeAt h).expired = pushRec (s.homeAt h).expired { core := e.core, num := e.num, gen := e.gen, job := e.job } ∧
      releasedTo s (s.endLease h e r) h e.peer e.core e.num e.gen ∧ Safety.sameMemory s (s.endLease h e r) := by
  unfold State.endLease
  dsimp only
  split
  · exact ⟨by simp, by simp, State.releaseTicket_releases (((TicketSide.updHome ..).trans (.updTile ..)).trans (.updUnit ..)) rfl ..,
      ((((TicketSide.updHome ..).trans (.updTile ..)).trans (.updUnit ..)).trans (.releaseTicket ..)).sameMemory⟩
  · exact ⟨by simp, by simp, State.releaseTicket_releases ((TicketSide.updHome ..).trans (.updUnit ..)) rfl ..,
      (((TicketSide.updHome ..).trans (.updUnit ..)).trans (.releaseTicket ..)).sameMemory⟩

/-! ### What lands at a core (R154, R158, R278) -/

/-- A core whose ticket number has been released at the generation that it has (R154). -/
def Core.releasedNum (q : Core) (num : Nat) (gen : BitVec 6) : Core :=
  if AMap.get q.tkGen num = some gen then { q with tkLive := delNat q.tkLive num } else q

section
variable {k : PairKey} {c : Nat} {p : Packet} (hdst : k.dst = s.here (.core c)) (hp : s.headOf k = some p)
include hdst hp

theorem execReleaseNotice_frees {num : Nat} {gen : BitVec 6} (hb : p.body = .release num gen) :
    execReleaseNotice k s = .next ((s.popNet k).updCore c fun q => q.releasedNum num gen) := by
  have hpeer : ¬k.dst.peer ≠ s.part.peer := by rw [hdst]; exact not_not.mpr rfl
  have hagent : k.dst.agent = .core c := by rw [hdst]; rfl
  rw [execReleaseNotice, hagent, hp]
  dsimp only
  rw [hb]
  exact if_neg hpeer

theorem execScaleReadReply_lands {id off : Nat} {v : VWord} (hb : p.body = .value (.rdmScale id off) v none)
    (hlive : s.current c p.slot p.gen = true) (hrun : s.stopped = false) :
    execScaleReadReply k s = .next ((s.popNet k).rdmScales c p.slot id off (vbytes v)) := by
  have hpeer : ¬(k.dst.peer ≠ s.part.peer ∨ s.spills p.body = true) := by
    rw [hdst, State.spills_of_running hrun]
    exact fun hor => hor.elim (fun hne => hne rfl) Bool.false_ne_true
  have hagent : k.dst.agent = .core c := by rw [hdst]; rfl
  rw [execScaleReadReply, hagent, hp]
  dsimp only
  rw [if_neg hpeer, hb]
  dsimp only
  rw [if_neg (by simp [hlive])]
  rfl

end

/-- A mark of a v register that is set is read as set. -/
theorem Slot.pendingAt_pendV (sl : Slot) (r : Reg) (b : Bool) : (sl.pendV r b).pendingAt (32 + r.toNat) = b := by
  have hr : r.toNat < 32 := r.isLt
  have hge : ¬32 + r.toNat < 32 := Nat.not_lt.mpr (Nat.le_add_right ..)
  cases b <;> simp [Slot.pendingAt, Slot.pendV, hge, hr]

/-- A slot in which a v register has been filled: its pending mark cleared, one load less. -/
def Slot.landedV (sl : Slot) (d : Reg) (v : VWord) : Slot :=
  { ((sl.wv d v).pendV d false) with cntld := sl.cntld - 1 }

theorem Slot.landedV_reads (sl : Slot) (d : Reg) (v : VWord) : (sl.landedV d v).rv d = v ∧
    (sl.landedV d v).cntld = sl.cntld - 1 ∧ (sl.landedV d v).pendingAt (32 + d.toNat) = false :=
  ⟨sl.rv_wv_self d v, rfl, (sl.wv d v).pendingAt_pendV d false⟩

theorem lowPoison_replicate_none (m n : Nat) : lowPoison (List.replicate m none) n = none := by
  simp [lowPoison, List.take_replicate]

/-- A raw snapshot without poison fills its v register (R158). -/
theorem State.landRdm_raw {c l : Nat} {tk : Word} {r : Redeem} {d : Reg} {m : Nat} (hdst : r.dst = .vreg d)
    (hfmt : decodes r.fmt = false) (hpoison : r.poison = List.replicate m none) :
    s.landRdm c l tk r = s.setVAt c l d (ofVbytes r.data) := by
  unfold State.landRdm
  dsimp only
  rw [hdst, hfmt, hpoison]
  dsimp only
  rw [lowPoison_replicate_none]
  rfl

/-- A v register filled in a slot that does not drain, and its load ended. -/
theorem State.slotAt_endRdm_setVAt {c l : Nat} (hdrain : (s.slotAt c l).phase ≠ .draining) (d : Reg) (v : VWord) :
    ((s.setVAt c l d v).endRdm c l (.vreg d)).slotAt c l = (s.slotAt c l).landedV d v := by
  unfold State.endRdm State.downLd
  dsimp only
  rw [State.slotAt_drain_of_ne (by simp [State.setVAt, State.logWrite, Slot.pendV, Slot.wv, hdrain])]
  simp [State.setVAt, State.logWrite, Slot.landedV, Slot.pendV, Slot.wv]

theorem CoreSide.endRdm_setVAt (s : State) (c l : Nat) (d : Reg) (v : VWord) :
    CoreSide s ((s.setVAt c l d v).endRdm c l (.vreg d)) :=
  (((CoreSide.updSlotAt ..).trans (.logWrite ..)).trans (.updSlotAt ..)).trans (.downLd ..)

/-- A raw snapshot that has come whole lands in its v register at once. -/
theorem execSnapshotReply_raw {k : PairKey} {c : Nat} {p : Packet} (hdst : k.dst = s.here (.core c)) (hp : s.headOf k = some p)
    {d : Reg} {tk : Word} {data : List Byte} {m : Nat} {fmt : BitVec 8} {sc elt : Nat}
    (hb : p.body = .snapshot (.vreg d) tk data (List.replicate m none) fmt sc elt) (hwhole : snapSize tk ≤ data.length)
    (hfmt : decodes fmt = false) (hlive : s.current c p.slot p.gen = true) (hdrain : s.draining c p.slot = false)
    (hrun : s.stopped = false) : execSnapshotReply k s =
      .next (((s.popNet k).setVAt c p.slot d (ofVbytes data)).endRdm c p.slot (.vreg d)) := by
  have hagent : k.dst.agent = .core c := by rw [hdst]; rfl
  have hpeer : k.dst.peer = s.part.peer := by rw [hdst]; rfl
  have hsnap : snapWhole p.body = true := by rw [hb]; exact decide_eq_true hwhole
  have hspill := State.spills_of_running hrun p.body
  rw [hb] at hsnap hspill
  unfold execSnapshotReply
  rw [hagent, hp]
  dsimp only
  rw [hb]
  simp only [hpeer, hsnap, hspill, hlive, hdrain, hfmt, rdmIsMsg, ne_eq, not_true_eq_false, Bool.true_eq_false, Bool.false_eq_true,
    or_self, if_false, Bool.false_and, List.isEmpty_nil, if_true, false_and]
  rw [State.landRdm_raw rfl hfmt rfl]

/-! ### The rows of Table 08-6 -/

section
variable {h : Nat} {p : Packet} {rest : List Packet} {tk : Word} {dst : RdmDst} {at_ : Nat}

theorem State.leaseOver_iff {e : Ticket} :
    s.leaseOver e at_ = true ↔ e.at_ + 2 ^ s.job.lease ≤ s.mach.clock ∧ e.at_ + 2 ^ s.job.lease ≤ at_ := by
  simp [State.leaseOver]

/-- A redemption held is kept with the time at which it ends. -/
theorem State.redeem_holds (hm : s.matchRdm h tk p.job at_ = .hold) :
    let t := (s.afterHead h rest).doRedeem h p tk dst at_
    (t.homeAt h).tickets = (s.homeAt h).tickets ∧
      (t.homeAt h).heldRdm = (s.homeAt h).heldRdm ++ [(p, s.mach.clock + 2 ^ 20)] ∧ t.mach.net = s.mach.net := by
  intro t
  have ht : t = _ := State.doRedeem_held ((s.matchRdm_afterHead h rest tk p.job at_).trans hm)
  rw [ht]
  refine ⟨?_, ?_, rfl⟩
  · simp [(TookHead.taken s h rest).homeAt]
  · simp [(TookHead.taken s h rest).homeAt]; rfl

theorem State.redeem_refuses {k : BitVec 2} {drop : Bool} (hm : s.matchRdm h tk p.job at_ = .refused k drop) :
    let t := (s.afterHead h rest).doRedeem h p tk dst at_
    refusedAt s t h p dst tk k ∧ (t.homeAt h).expired = (s.homeAt h).expired ∧
      (t.homeAt h).lost = if drop then ((s.homeAt h).tookLost tk).lost else (s.homeAt h).lost :=
  (TookHead.taken s h rest).doRedeem_refuses ((s.matchRdm_afterHead h rest tk p.job at_).trans hm)

theorem dropsEntry_eq_false {job : BitVec 16} {x : Ticket} (h : namesEntry tk x = false ∨ x.job ≠ job) :
    dropsEntry tk job x = false := by
  rw [dropsEntry]
  exact Bool.and_eq_false_iff.mpr (h.imp_right decide_eq_false)

/-- A drop removes the first entry that it names of its own job, while that entry's lease runs (R160). -/
theorem State.drop_removes {a b : List Ticket} {e : Ticket} (hl : (s.homeAt h).tickets = a ++ e :: b)
    (ha : ∀ x ∈ a, namesEntry tk x = false ∨ x.job ≠ p.job) (hname : namesEntry tk e = true) (hjob : e.job = p.job)
    (hrun : s.mach.clock < e.at_ + 2 ^ s.job.lease) :
    let t := (s.afterHead h rest).doDrop h p tk
    (t.homeAt h).tickets = a ++ b ∧ releasedTo s t h e.peer e.core e.num e.gen := by
  have hdrops : dropsEntry tk p.job e = true := Bool.and_eq_true_iff.mpr ⟨hname, decide_eq_true hjob⟩
  refine (TookHead.taken s h rest).doDrop_removes ?_
    (eq_false_of_ne_true (State.leaseOver_iff.not.mpr fun hend => Nat.not_le.mpr hrun hend.1))
  rw [hl]
  exact takeFirst_append (fun x hx => dropsEntry_eq_false (ha x hx)) hdrops

theorem State.drop_unchanged (hnone : ∀ x ∈ (s.homeAt h).tickets, namesEntry tk x = false ∨ x.job ≠ p.job) :
    (s.afterHead h rest).doDrop h p tk = s.afterHead h rest := by
  refine State.doDrop_none ?_
  rw [(TookHead.taken s h rest).homeAt]
  exact takeFirst_eq_none fun x hx => dropsEntry_eq_false (hnone x hx)

theorem Home.tookLost_lost {q : Home} {a b : List TkRec} {r : TkRec} (hl : q.lost = a ++ r :: b) (ha : a.any (namesRec tk) = false)
    (hr : namesRec tk r = true) : (q.tookLost tk).lost = a ++ b := by
  rw [Home.tookLost, hl, takeFirst_append (fun y hy => by simpa using List.any_eq_false.mp ha y hy) hr]

end

/-- Settles O37, clause by clause: each step of the home is one equation, and each row of Table 08-6 one answer of `matchRdm`. -/
theorem ticketsAtTheirHomeAndLanding : Obligations.tickets_at_their_home_and_landing := by
  intro s h p rest q names lists popped own room sends freed keeps loses here waits stop fenced
  have htook := TookHead.taken s h rest
  refine ⟨fun hq => ⟨fun hheld hawait => ⟨fun tk pa fmt sc elt hb hown => ?_, fun tk v hb => ⟨fun hroom => ?_, fun hroom => ?_⟩⟩,
    fun tk pa fmt sc elt hb hown => ?_, fun tk dst at_ hb => ⟨fun hw => ?_, fun hh => ?_⟩, fun tk hb => ⟨fun hw => ?_, fun hh => ?_⟩,
    fun tk r hb => ⟨fun hw => ?_, fun hh hf => ?_⟩⟩, fun e r hr htime tk dst at_ hb => ?_, fun e r htickets hempty hstop => ?_,
    fun k c hdst hp => ⟨fun num gen hb hgen => ?_, fun hlive hdrain hrun => ⟨fun d tk data fmt sc elt hb hwhole hfmt => ?_,
      fun id off v hb => ?_⟩⟩⟩
  -- a fetch at the home that its ticket names
  · obtain ⟨u, hu, hexec⟩ := execTicketFetch_own hq hb hown
    refine ⟨fun href hroom => ?_, fun hlost => ?_⟩
    · obtain ⟨v, hv, hdata⟩ := State.snapshotOf_allowed (tk := tk) (sc := sc) (elt := elt) (fmt := fmt) href
      rw [hv] at hexec
      obtain ⟨e, htickets, hqueue, hcopy, hfields⟩ := hu.makeEntry_keeps hheld hawait hroom v
      exact ⟨_, e, hexec, htickets, hqueue, hcopy.trans hdata, hfields⟩
    · exact ⟨_, hexec, hu.makeEntry_loses hheld hawait (hlost.imp_left State.snapshotOf_refused)⟩
  -- a snapshot that comes back
  · obtain ⟨e, hkeeps⟩ := htook.makeEntry_keeps hheld hawait hroom v
    exact ⟨_, e, execTicketFetch_returned hq hb, hkeeps⟩
  · exact ⟨_, execTicketFetch_returned hq hb, htook.makeEntry_loses hheld hawait (.inr hroom)⟩
  -- a forwarded fetch
  · obtain ⟨u, hexec⟩ := execTicketFetch_forwarded hq hb hown
    exact ⟨_, hexec, State.append_lastIs ..⟩
  -- a redemption
  · exact (execRedemption_at hq hb).trans (congrArg Host.Outcome.next (if_pos hw))
  · obtain ⟨hside, hqueue⟩ := (s.afterHead h rest).doRedeem_frame h p tk dst at_
    refine ⟨_, (execRedemption_at hq hb).trans (congrArg Host.Outcome.next (if_neg (ne_true_of_eq_false hh))), hqueue.trans htook.q,
      (htook.ticketSide.trans hside).sameMemory, fun e hf he => ⟨fun hjob hrun => ?_, fun hjob hrun => ?_, fun hend => ?_⟩,
      fun a r b hf hno hl ha hr => ?_, fun hf hno hl => ⟨fun hx => ?_, fun hx => ⟨fun f hlast hrecent => ?_, fun hlast => ?_⟩⟩,
      fun hf hany => ?_⟩
    · have hm := State.matchRdm_entry (job := p.job) (at_ := at_) hf he
      rw [if_neg (State.leaseOver_iff.not.mpr hrun), if_neg (not_not.mpr hjob)] at hm
      exact htook.doRedeem_sends ((s.matchRdm_afterHead ..).trans hm)
    · have hm := State.matchRdm_entry (job := p.job) (at_ := at_) hf he
      rw [if_neg (State.leaseOver_iff.not.mpr hrun), if_pos hjob] at hm
      exact (State.redeem_refuses hm).1
    · have hm := State.matchRdm_entry (job := p.job) (at_ := at_) hf he
      rw [if_pos (State.leaseOver_iff.mpr hend)] at hm
      exact (State.redeem_refuses hm).1
    · have hany : (s.homeAt h).lost.any (namesRec tk) = true := List.any_eq_true.mpr ⟨r, by rw [hl]; simp, hr⟩
      obtain ⟨hrefused, -, hlost⟩ := State.redeem_refuses (rest := rest) (dst := dst)
        (State.matchRdm_lost (job := p.job) (at_ := at_) hf hno hany)
      exact ⟨hrefused, hlost.trans (Home.tookLost_lost hl ha hr)⟩
    · obtain ⟨hrefused, hexpired, -⟩ := State.redeem_refuses (rest := rest) (dst := dst)
        (State.matchRdm_expired (job := p.job) (at_ := at_) hf hno hl hx)
      exact ⟨hrefused, hexpired⟩
    · exact (State.redeem_refuses (State.matchRdm_spent hf hno hl hx hlast hrecent)).1
    · exact State.redeem_holds (State.matchRdm_held hf hno hl hx hlast)
    · exact (State.redeem_refuses (State.matchRdm_fenced hf hany)).1
  -- a drop
  · exact (execTicketDrop_at hq hb).trans (congrArg Host.Outcome.next (if_pos hw))
  · obtain ⟨hside, hqueue⟩ := (s.afterHead h rest).doDrop_frame h p tk
    refine ⟨_, (execTicketDrop_at hq hb).trans (congrArg Host.Outcome.next (if_neg (ne_true_of_eq_false hh))), hqueue.trans htook.q,
      (htook.ticketSide.trans hside).sameMemory, fun a e b hl ha hname hjob hrun => ?_, fun hnone => ?_⟩
    · exact State.drop_removes hl ha hname hjob hrun
    · rw [State.drop_unchanged hnone, htook.homeAt]
      exact ⟨rfl, rfl⟩
  -- a query
  · exact (execTicketQuery_at hq hb).trans (congrArg Host.Outcome.next (if_pos hw))
  · refine (execTicketQuery_at hq hb).trans (congrArg Host.Outcome.next ((if_neg (ne_true_of_eq_false hh)).trans ?_))
    rw [State.doQuery]
    cases he : q.tickets.find? (names tk) with
    | some e =>
      rw [htook.ticketState_entry rfl rfl hf he]
      rfl
    | none =>
      rw [htook.ticketState_noEntry hf he]
      rfl
  -- what ends by itself
  · exact execRedemptionHoldExpiry_expires hr htime hb
  · exact ⟨_, execLeaseEnd_ends htickets hempty hstop, s.endLease_leaves h e r⟩
  -- what lands at a core
  · refine ⟨_, execReleaseNotice_frees hdst hp hb, ?_, ((CoreSide.popNet s k).trans (.updCore ..)).sameMemory⟩
    simp [Core.releasedNum, hgen]
  · have hslot : ((s.popNet k).slotAt c p.slot).phase ≠ .draining := of_decide_eq_false hdrain
    obtain ⟨hv, hld, hpend⟩ := (s.slotAt c p.slot).landedV_reads d (ofVbytes data)
    refine ⟨_, execSnapshotReply_raw hdst hp hb hwhole hfmt hlive hdrain hrun, ?_⟩
    rw [State.slotAt_endRdm_setVAt hslot, State.slotAt_popNet]
    exact ⟨hv, hld, hpend, ((CoreSide.popNet s k).trans (.endRdm_setVAt ..)).sameMemory⟩
  · exact execScaleReadReply_lands hdst hp hb hlive hrun

end Sys2Proof.Machine
end

