-- ==== Sys2Proof/Proofs/ChannelEnds.lean ====
section
/-! PROOFS. O17: the handle instructions (R172 to R176, R182, R188, Table 09-1). -/

namespace Sys2Proof.Machine

open Sys2Proof Sys2Proof.Safety

variable {s : State} {h g : HReg} {a : Reg} {o : BitVec 18}

/-! ### The way to several modules (R61, R367) -/

/-- With nothing of R61 and R367 in the way to any of the modules, an instruction goes on. -/
theorem toPeers_open {l : List Peer} (hl : ∀ p ∈ l, wayOut s p) (w : Word) (k : State → Out) : toPeers w k l s = k s := by
  induction l with
  | nil => rfl
  | cons p r ih =>
    rw [toPeers, toPeer_open (hl p List.mem_cons_self)]
    exact ih fun q hq => hl q (List.mem_cons_of_mem _ hq)

/-! ### Handle registers -/

@[simp] theorem State.slot_setH (s : State) (r : HReg) (e : Handle) : (s.setH r e).slot = s.slot.wh r e := s.slotAt_setHAt ..

@[simp] theorem Slot.wh_x (sl : Slot) (r : HReg) (e : Handle) : (sl.wh r e).x = sl.x := rfl

/-! ### What each instruction does: it names no x or v register that could hold it, but for `chq` -/

theorem exec_chnew : exec (.chnew h g) s =
    if (s.slot.rh h).kind ≠ .empty then s.trap 0x082 (hnum h)
    else if (s.slot.rh g).kind ≠ .empty then s.trap 0x082 (hnum g)
    else .next ((s.askChannel s.cur.1 s.cur.2 h g 0).upd (fun sl => { sl with phase := .asking })) := by
  change execChnew h g s = _
  rw [execChnew, issue_ready (ready_of_no_needs s)]

theorem exec_hmov : exec (.hmov h g) s =
    if (s.slot.rh g).kind = .empty then s.trap 0x081 (hnum g)
    else if (s.slot.rh h).kind ≠ .empty then s.trap 0x082 (hnum h)
    else .next ((s.setH h (s.slot.rh g)).setH g Handle.none).retire := by
  change execHmov h g s = _
  rw [execHmov, issue_ready (ready_of_no_needs s)]

/-- The request of a `chdup` for an instance (R174). -/
def State.dupReq (s : State) (h g : HReg) : ChanReq :=
  { slot := s.cur.2, gen := s.slot.gen, hd := h, ha := g, ident := (s.slot.rh g).ident, tries := 0, dup := true }

/-- The state in which a `chdup` has asked its channel's home and its slot waits (R174). -/
def State.askInstance (s : State) (h g : HReg) : State :=
  (((s.updCore s.cur.1 (fun k => { k with reqs := k.reqs ++ [s.dupReq h g] })).post (.core s.cur.1)
    (s.chanHome (s.slot.rh g).home (s.slot.rh g).ident) 0 (.chInst (s.slot.rh g).ident s.cur.1) s.cur.2 s.slot.gen).upd
      (fun sl => { sl with phase := .asking }))

theorem exec_chdup_of_empty (hg : (s.slot.rh g).kind = .empty) : exec (.chdup h g) s = s.trap 0x081 (hnum g) := by
  change execChdup h g s = _
  rw [execChdup, issue_ready (ready_of_no_needs s)]
  simp only [hg]

theorem exec_chdup_of_recv (hg : (s.slot.rh g).kind = .recv) : exec (.chdup h g) s = s.trap 0x083 (hnum g) := by
  change execChdup h g s = _
  rw [execChdup, issue_ready (ready_of_no_needs s)]
  simp only [hg]

theorem exec_chdup_of_full (hg : (s.slot.rh g).kind = .send) (hh : (s.slot.rh h).kind ≠ .empty) :
    exec (.chdup h g) s = s.trap 0x082 (hnum h) := by
  change execChdup h g s = _
  rw [execChdup, issue_ready (ready_of_no_needs s)]
  simp only [hg, if_pos hh]

theorem exec_chdup_of_send (hg : (s.slot.rh g).kind = .send) (hh : (s.slot.rh h).kind = .empty)
    (hw : wayOut s (s.slot.rh g).home) : exec (.chdup h g) s = .next (s.askInstance h g) := by
  change execChdup h g s = _
  rw [execChdup, issue_ready (ready_of_no_needs s)]
  simp only [hg, if_neg (not_not.mpr hh)]
  rw [toPeer_open hw]
  rfl

theorem exec_chclose_of_empty (hg : (s.slot.rh g).kind = .empty) : exec (.chclose g) s = s.trap 0x081 (hnum g) := by
  change execChclose g s = _
  rw [execChclose, issue_ready (ready_of_no_needs s)]
  exact if_pos hg

theorem exec_hclr_of_empty (hg : (s.slot.rh g).kind = .empty) : exec (.hclr g) s = .next s.retire := by
  change execHclr g s = _
  rw [execHclr, issue_ready (ready_of_no_needs s)]
  exact if_pos hg

theorem exec_chclose_of_end (hg : (s.slot.rh g).kind ≠ .empty) (hw : ∀ p ∈ s.closePeers (s.slot.rh g), wayOut s p) :
    exec (.chclose g) s = .next ((s.setH g Handle.none).closeEnd s.cur.1 (s.slot.rh g)).retire := by
  change execChclose g s = _
  rw [execChclose, issue_ready (ready_of_no_needs s)]
  exact (if_neg hg).trans (toPeers_open hw _ _)

theorem exec_hclr_of_end (hg : (s.slot.rh g).kind ≠ .empty) (hw : ∀ p ∈ s.closePeers (s.slot.rh g), wayOut s p) :
    exec (.hclr g) s = .next ((s.setH g Handle.none).closeEnd s.cur.1 (s.slot.rh g)).retire := by
  change execHclr g s = _
  rw [execHclr, issue_ready (ready_of_no_needs s)]
  exact (if_neg hg).trans (toPeers_open hw _ _)

theorem exec_chbindHandler : exec (.chbindHandler g o) s = bindForm (.chbindHandler g o) g (some (4 * o.toNat)) s := rfl
theorem exec_chbindInbox : exec (.chbindInbox g) s = bindForm (.chbindInbox g) g none s := rfl

section
variable {i : Instr} {target : Option Nat}

theorem bindForm_of_empty (hg : (s.slot.rh g).kind = .empty) : bindForm i g target s = s.trap 0x081 (hnum g) := by
  rw [bindForm, issue_ready (ready_of_no_needs s)]
  simp only [hg]

theorem bindForm_of_send (hg : (s.slot.rh g).kind = .send) : bindForm i g target s = s.trap 0x083 (hnum g) := by
  rw [bindForm, issue_ready (ready_of_no_needs s)]
  simp only [hg]

/-- The state in which the receive end of a register is bound, at the task's level (R182). -/
def State.boundTo (s : State) (g : HReg) (target : Option Nat) : State :=
  s.updCore s.cur.1 (fun k => { k with ends := k.ends.map (fun e =>
    if e.ident = (s.slot.rh g).ident then { e with bind := some target, level := s.slot.task.level } else e) })

theorem bindForm_handler (hg : (s.slot.rh g).kind = .recv) (off : Nat) : bindForm i g (some off) s =
    if (List.range 4).any (fun n => s.entered off n) = false then s.trap 0x084 (BitVec.ofNat 64 off)
    else .next (s.boundTo g (some off)).retire := by
  rw [bindForm, issue_ready (ready_of_no_needs s)]
  simp only [hg]
  rfl

theorem bindForm_inbox (hg : (s.slot.rh g).kind = .recv) :
    bindForm i g none s = .next ((s.boundTo g none).wakeInbox s.cur.1).retire := by
  rw [bindForm, issue_ready (ready_of_no_needs s)]
  simp only [hg]
  rfl

end

/-! ### What `hmov` and `chdup` leave -/

theorem State.askInstance_leaves (s : State) (h g : HReg) :
    (s.askInstance h g).slot = { s.slot with phase := .asking } ∧
      ((s.askInstance h g).coreAt s.cur.1).reqs = (s.coreAt s.cur.1).reqs ++ [s.dupReq h g] ∧
      CoreSide s (s.askInstance h g) := by
  refine ⟨State.slot_upd _ _, ?_, rfl⟩
  rw [State.askInstance, State.coreAt_upd, State.coreAt_post, State.coreAt_updCore_self]

/-- A handle that has moved stands in its new register alone, and every other register is as it was (R175). -/
theorem Slot.moved_reads (sl : Slot) (e : Handle) (hne : h ≠ g) :
    ((sl.wh h e).wh g Handle.none).rh h = e ∧ ((sl.wh h e).wh g Handle.none).rh g = Handle.none ∧
      ∀ q, q ≠ h → q ≠ g → ((sl.wh h e).wh g Handle.none).rh q = sl.rh q := by
  refine ⟨?_, Slot.rh_wh_self .., fun q hh hg => ?_⟩
  · rw [Slot.rh_wh_of_ne _ hne, Slot.rh_wh_self]
  · rw [Slot.rh_wh_of_ne _ hg, Slot.rh_wh_of_ne _ hh]

/-- Settles O17: each clause is the instruction's own lemma, by the kinds of its registers. -/
theorem channelEndsAreMadeMovedAndClosed : Obligations.channel_ends_are_made_moved_and_closed := by
  intro s h g a o hne c eh eg waiting ways bound
  refine ⟨fun hh hg => ?_, fun hh hg => ?_, fun hh => ⟨?_, fun hg => exec_chdup_of_full hg hh, fun hg => ?_⟩, fun hg hh hw => ?_,
    fun hg => ⟨exec_chdup_of_empty hg, ?_, exec_chclose_of_empty hg, exec_hclr_of_empty hg,
      exec_chbindInbox.trans (bindForm_of_empty hg), exec_chbindHandler.trans (bindForm_of_empty hg)⟩,
    exec_chdup_of_recv, fun hg hh => ?_, fun hg hw => ⟨exec_chclose_of_end hg hw, exec_hclr_of_end hg hw⟩, fun hr => ?_,
    fun hg => ⟨fun hent => ?_, fun hent => ?_, exec_chbindInbox.trans (bindForm_inbox hg)⟩, fun hg =>
      ⟨exec_chbindInbox.trans (bindForm_of_send hg), exec_chbindHandler.trans (bindForm_of_send hg)⟩⟩
  · rw [exec_chnew, if_neg (not_not.mpr hh), if_neg (not_not.mpr hg)]
  · rw [exec_chnew, if_neg (not_not.mpr hh), if_pos hg]; rfl
  · rw [exec_chnew, if_pos hh]; rfl
  · rw [exec_hmov, if_neg hg, if_pos hh]; rfl
  · obtain ⟨hslot, hreqs, hside⟩ := s.askInstance_leaves h g
    refine ⟨_, exec_chdup_of_send hg hh hw, ?_, State.post_lastIs .., ⟨_, hreqs, rfl, rfl, rfl, rfl⟩, ?_, ?_, hside.sameMemory⟩ <;>
      rw [hslot]
  · rw [exec_hmov, if_pos hg]; rfl
  · obtain ⟨hto, hfrom, hother⟩ := s.slot.moved_reads eg hne
    refine ⟨((s.setH h eg).setH g Handle.none).retire, ?_, ?_, ?_, ?_, ?_⟩
    · rw [exec_hmov, if_neg hg, if_neg (not_not.mpr hh)]
    all_goals rw [State.slot_retire, State.slot_setH, State.slot_setH]
    exacts [hto, hfrom, hother, rfl]
  · change execChq g a s = _
    rw [execChq, issue_ready hr]
  · exact (exec_chbindHandler.trans (bindForm_handler hg _)).trans (if_neg (ne_false_of_eq_true hent))
  · exact (exec_chbindHandler.trans (bindForm_handler hg _)).trans (if_pos hent)

end Sys2Proof.Machine
end

