-- ==== Sys2Proof/Proofs/Sends.lean ====
section
/-! PROOFS. O18: sends and segment markers (R177 to R181, R185, Table 09-1). -/

namespace Sys2Proof.Machine

open Sys2Proof Sys2Proof.Safety

variable {s : State} {h g : HReg} {a : Reg} {n : BitVec 3} {i : Instr} {cls : Nat}

/-! ### Ends that send (R171, R178, R179) -/

/-- A live send end, whose way is open. -/
abbrev canSend (s : State) (h : HReg) : Prop :=
  (s.slot.rh h).kind = .send ∧ (s.slot.rh h).dead = false ∧ wayOut s (s.slot.rh h).locPeer

theorem outOfCredit_of_pos {e : Handle} (hc : 0 < e.credits) : outOfCredit e = false := by
  simp [outOfCredit, Nat.pos_iff_ne_zero.mp hc]

theorem outOfCredit_of_not_live {e : Handle} (hl : liveSend e = false) : outOfCredit e = false := by
  simp [outOfCredit, hl]

theorem outOfCredit_of_live {e : Handle} (hk : e.kind = .send) (hd : e.dead = false) (hc : e.credits = 0) : outOfCredit e = true := by
  simp [outOfCredit, liveSend, hk, hd, hc]

theorem liveSend_of_kind {e : Handle} (hk : e.kind ≠ .send) : liveSend e = false := by simp [liveSend, hk]

theorem liveSend_of_dead {e : Handle} (hd : e.dead = true) : liveSend e = false := by simp [liveSend, hd]

section
variable {own : Handle → Option (Nat × Word)} {k : Handle → State → Out}

theorem sendEnd_of_empty (he : (s.slot.rh h).kind = .empty) : sendEnd h own k s = s.trap 0x081 (hnum h) := by
  simp only [sendEnd, he]

theorem sendEnd_of_recv (he : (s.slot.rh h).kind = .recv) : sendEnd h own k s = s.trap 0x083 (hnum h) := by
  simp only [sendEnd, he]

theorem sendEnd_of_dead (he : (s.slot.rh h).kind = .send) (hd : (s.slot.rh h).dead = true) :
    sendEnd h own k s = s.trap 0x080 (hnum h) := by
  simp only [sendEnd, he, hd, if_true]

theorem sendEnd_refused (he : (s.slot.rh h).kind = .send) (hd : (s.slot.rh h).dead = false) {cause : Nat} {t : Word}
    (ho : own (s.slot.rh h) = some (cause, t)) : sendEnd h own k s = s.trap cause t := by
  simp only [sendEnd, he, hd, ho, Bool.false_eq_true, if_false]

theorem sendEnd_sends (hc : canSend s h) (ho : own (s.slot.rh h) = none) : sendEnd h own k s = k (s.slot.rh h) s := by
  obtain ⟨he, hd, hw⟩ := hc
  simp only [sendEnd, he, hd, ho, Bool.false_eq_true, if_false]
  exact toPeer_open hw _ _

end

/-- An instruction that is held stalls (R26, R171). -/
theorem issue_held {m : Need} (hl : m.lack = none) (hh : m.hold = true) (i : Instr) (k : State → Out) :
    issue i m k s = .next s.stall := by
  simp [issue, hl, hh]

/-! ### Sends without an end (R178, R179) -/

/-- A send has gone: its message is on its way, its handle has the next sequence and one credit less (R177, R179). -/
def State.sentFrom (s : State) (h : HReg) (cls : Nat) (kind : MsgKind) (a : Reg) (n : BitVec 3) (carried : Option Handle) : State :=
  (s.sendOn (.core s.cur.1) (s.slot.rh h) cls kind n.toNat (payloadOf s.slot a n.toNat) carried).setH h
    { bumpSeq (s.slot.rh h) with credits := (s.slot.rh h).credits - 1 }

theorem exec_chsend : exec (.chsend h a n) s = sendForm (.chsend h a n) 2 h a n s := rfl
theorem exec_chsendLo : exec (.chsendLo h a n) s = sendForm (.chsendLo h a n) 3 h a n s := rfl
theorem exec_chsendCtl : exec (.chsendCtl h a n) s = sendForm (.chsendCtl h a n) 0 h a n s := rfl

theorem sendForm_stalls (hk : (s.slot.rh h).kind = .send) (hd : (s.slot.rh h).dead = false) (hc : (s.slot.rh h).credits = 0) :
    sendForm i cls h a n s = .next s.stall := by
  rw [sendForm, issue_held rfl (outOfCredit_of_live hk hd hc)]

/-- A send whose register has a credit, or is no live send end, comes to the checks of R178. -/
theorem sendForm_issues (hr : ready { reads := payloadRegs a n.toNat } s = true) (hc : outOfCredit (s.slot.rh h) = false) :
    sendForm i cls h a n s = sendEnd h (fun _ => none) (fun e s =>
      .next ((s.sendOn (.core s.cur.1) e cls .data n.toNat (payloadOf s.slot a n.toNat) none).setH h
        { bumpSeq e with credits := e.credits - 1 }).retire) s := by
  rw [sendForm, hc, issue_ready hr]

theorem sendForm_sends (hr : ready { reads := payloadRegs a n.toNat } s = true) (hs : canSend s h)
    (hc : 0 < (s.slot.rh h).credits) : sendForm i cls h a n s = .next (s.sentFrom h cls .data a n none).retire :=
  (sendForm_issues hr (outOfCredit_of_pos hc)).trans (sendEnd_sends hs rfl)

/-! ### Sends that carry an end (R181, R291, R296) -/

theorem exec_chsendh : exec (.chsendh h g a n) s = carryForm (.chsendh h g a n) 2 h g a n s := rfl
theorem exec_chsendhLo : exec (.chsendhLo h g a n) s = carryForm (.chsendhLo h g a n) 3 h g a n s := rfl
theorem exec_chsendhCtl : exec (.chsendhCtl h g a n) s = carryForm (.chsendhCtl h g a n) 0 h g a n s := rfl

/-- A message has gone with an end in it, which has left its register and its core (R181). -/
def State.carriedOff (s : State) (h g : HReg) (cls : Nat) (a : Reg) (n : BitVec 3) : State :=
  let f := s.slot.rh g
  let u := (s.sentFrom h cls .dataEnd a n (some (moved f))).setH g Handle.none
  if f.kind = .recv then u.carryRecv s.cur.1 f else u.carrySend s.cur.1 f

theorem carryForm_stalls (hk : (s.slot.rh h).kind = .send) (hd : (s.slot.rh h).dead = false) (hc : (s.slot.rh h).credits = 0) :
    carryForm i cls h g a n s = .next s.stall := by
  rw [carryForm]
  exact issue_held rfl (Bool.or_eq_true_iff.mpr (.inl (outOfCredit_of_live hk hd hc))) ..

/-- What a send checks of the end that it is to carry (R181). -/
def carryCause (g : HReg) (f e : Handle) : Option (Nat × Word) :=
  if f.kind = .empty then some (0x081, hnum g) else if f.kind = .recv ∧ f.ident = e.ident then some (0x086, hnum g) else none

/-- A carrying send with a credit, and with a place for the stub of a receive end, comes to its checks. -/
theorem carryForm_issues (hr : ready { reads := payloadRegs a n.toNat } s = true) (hc : 0 < (s.slot.rh h).credits)
    (hstub : (s.slot.rh g).kind = .recv → s.stubsOfTile s.cur.1 < 64) :
    carryForm i cls h g a n s = sendEnd h (carryCause g (s.slot.rh g)) (fun e s' =>
      toPeer (s.slot.rh g).home (hnum h) (fun s' =>
        let u := ((s'.sendOn (.core s'.cur.1) e cls .dataEnd n.toNat (payloadOf s'.slot a n.toNat)
          (some (moved (s.slot.rh g)))).setH h { bumpSeq e with credits := e.credits - 1 }).setH g Handle.none
        .next (if (s.slot.rh g).kind = .recv then u.carryRecv s'.cur.1 (s.slot.rh g)
          else u.carrySend s'.cur.1 (s.slot.rh g)).retire) s') s := by
  have hfull : (liveSend (s.slot.rh h) && decide ((s.slot.rh g).kind = .recv) && decide (64 ≤ s.stubsOfTile s.cur.1)) = false := by
    by_cases hg : (s.slot.rh g).kind = .recv
    · simp [Nat.not_le.mpr (hstub hg)]
    · simp [hg]
  rw [carryForm]
  dsimp only
  rw [outOfCredit_of_pos hc, hfull]
  exact issue_ready hr _ _

theorem carryForm_refused (hr : ready { reads := payloadRegs a n.toNat } s = true) (hs : canSend s h)
    (hc : 0 < (s.slot.rh h).credits) (hstub : (s.slot.rh g).kind = .recv → s.stubsOfTile s.cur.1 < 64) {cause : Nat} {t : Word}
    (hown : carryCause g (s.slot.rh g) (s.slot.rh h) = some (cause, t)) : carryForm i cls h g a n s = s.trap cause t :=
  (carryForm_issues hr hc hstub).trans (sendEnd_refused hs.1 hs.2.1 hown)

theorem carryForm_sends (hr : ready { reads := payloadRegs a n.toNat } s = true) (hs : canSend s h)
    (hc : 0 < (s.slot.rh h).credits) (hstub : (s.slot.rh g).kind = .recv → s.stubsOfTile s.cur.1 < 64)
    (hg : (s.slot.rh g).kind ≠ .empty) (hown : ¬((s.slot.rh g).kind = .recv ∧ (s.slot.rh g).ident = (s.slot.rh h).ident))
    (hw : wayOut s (s.slot.rh g).home) : carryForm i cls h g a n s = .next (s.carriedOff h g cls a n).retire := by
  rw [carryForm_issues hr hc hstub, sendEnd_sends hs ((if_neg hg).trans (if_neg hown)), toPeer_open hw]
  rfl

/-! ### Segment markers (R185) -/

/-- What `chseg` checks of its length. -/
def segCause (v : Word) : Option (Nat × Word) := if v = 0 ∨ 2 ^ 32 ≤ v.toNat then some (0x089, v) else none

theorem exec_chseg (hr : ready { reads := [xr a] } s = true) : exec (.chseg h a) s =
    sendEnd h (fun _ => segCause (s.slot.rx a)) (fun e s' =>
      .next ((s'.sendOn (.core s'.cur.1) e 0 (.segMarker (s.slot.rx a).toNat) 0 noPayload none).setH h (bumpSeq e)).retire) s := by
  change execChseg h a s = _
  rw [execChseg, issue_ready hr]
  rfl

/-- Settles O18: each form is `sendForm` or `carryForm`, whose clauses the kind, the death and the credits of the end decide. -/
theorem sendsTakeOneCreditAndTheNextSequence : Obligations.sends_take_one_credit_and_the_next_sequence := by
  intro s h g a n _ c e f v sent plain carry live
  refine ⟨fun hr => ⟨fun hs hc => ⟨fun _ => ?_, fun _ hg hown hstub hw => ?_⟩, fun ⟨hk, hd, _⟩ hc => ?_, fun hk => ?_, fun hk => ?_,
    fun hk hd => ?_, fun hs hc hg => ?_, fun hs hc hg hstub hid => ?_⟩, fun hr hk hd => ⟨fun hw hv hlt => ?_, fun hv => ?_⟩⟩
  · exact ⟨exec_chsend.trans (sendForm_sends hr hs hc), exec_chsendLo.trans (sendForm_sends hr hs hc),
      exec_chsendCtl.trans (sendForm_sends hr hs hc)⟩
  · exact ⟨exec_chsendh.trans (carryForm_sends hr hs hc hstub hg hown hw),
      exec_chsendhLo.trans (carryForm_sends hr hs hc hstub hg hown hw),
      exec_chsendhCtl.trans (carryForm_sends hr hs hc hstub hg hown hw)⟩
  · exact ⟨exec_chsend.trans (sendForm_stalls hk hd hc), exec_chsendLo.trans (sendForm_stalls hk hd hc),
      exec_chsendCtl.trans (sendForm_stalls hk hd hc), exec_chsendh.trans (carryForm_stalls hk hd hc),
      exec_chsendhLo.trans (carryForm_stalls hk hd hc), exec_chsendhCtl.trans (carryForm_stalls hk hd hc)⟩
  · have hlive : liveSend e = false := liveSend_of_kind (by rw [hk]; exact nofun)
    exact exec_chsend.trans ((sendForm_issues hr (outOfCredit_of_not_live hlive)).trans (sendEnd_of_empty hk))
  · have hlive : liveSend e = false := liveSend_of_kind (by rw [hk]; exact nofun)
    exact exec_chsend.trans ((sendForm_issues hr (outOfCredit_of_not_live hlive)).trans (sendEnd_of_recv hk))
  · exact exec_chsend.trans ((sendForm_issues hr (outOfCredit_of_not_live (liveSend_of_dead hd))).trans (sendEnd_of_dead hk hd))
  · exact exec_chsendh.trans (carryForm_refused hr hs hc (fun hg' => absurd (hg.symm.trans hg') nofun) (if_pos hg))
  · have hne : f.kind ≠ .empty := by rw [hg]; exact nofun
    exact exec_chsendh.trans (carryForm_refused hr hs hc (fun _ => hstub) ((if_neg hne).trans (if_pos ⟨hg, hid⟩)))
  · have hgood : segCause v = none := if_neg fun hbad => hbad.elim hv (Nat.not_le.mpr hlt)
    exact (exec_chseg hr).trans (sendEnd_sends ⟨hk, hd, hw⟩ hgood)
  · exact (exec_chseg hr).trans (sendEnd_refused hk hd (if_pos hv))

end Sys2Proof.Machine
end

