-- ==== Sys2Proof/Proofs/InboxAndSpawn.lean ====
section
/-! PROOFS. O19: `inbox.dq`, `inbox.try` and `spawn` (R182, R184, R190, R254, R258, R259, R261). -/

namespace Sys2Proof.Machine

open Sys2Proof Sys2Proof.Safety

variable {s : State} {h : HReg} {a : Reg} {n : BitVec 3} {i : Instr}

/-! ### The inbox (R184) -/

/-- The item that the slot in hand would take from a class queue, with the core after it. -/
def State.inboxItem (s : State) (n : BitVec 3) : Option (InItem × Core) :=
  (s.coreAt s.cur.1).takeItem n.toNat (s.coreAt s.cur.1).forInbox

/-- Modules to which taking that item sends something. -/
def State.inboxPeers (s : State) (n : BitVec 3) : List Peer := ((s.inboxItem n).map (fun e => dequeuePeers e.1)).getD []

/-- An inbox form with nothing in its way (R14, R61, R306). -/
abbrev inboxReady (s : State) (a : Reg) (n : BitVec 3) : Prop :=
  ready { writes := (List.range 7).map (fun j => xr (regAfter a j))
          hold := decide (63 ≤ s.slot.cntld) || s.heldBack (s.inboxPeers n) ||
            decide ((s.coreAt s.cur.1).withdrewAt = some s.now) } s = true

theorem exec_inboxDq : exec (.inboxDq h a n) s = inboxForm (.inboxDq h a n) true h a n s := rfl
theorem exec_inboxTry : exec (.inboxTry h a n) s = inboxForm (.inboxTry h a n) false h a n s := rfl

theorem inboxForm_full (hr : inboxReady s a n) (hh : (s.slot.rh h).kind ≠ .empty) (wait : Bool) :
    inboxForm i wait h a n s = s.trap 0x082 (hnum h) := by
  rw [inboxForm]
  exact (issue_ready hr _ _).trans (if_pos hh)

theorem inboxForm_takes (hr : inboxReady s a n) (hh : (s.slot.rh h).kind = .empty) {m : Msg} {sb se : Bool} {left : Nat} {k : Core}
    (hitem : s.inboxItem n = some (.chan m sb se left, k)) (hw : ∀ p ∈ s.inboxPeers n, wayOut s p) (wait : Bool) :
    inboxForm i wait h a n s = .next (s.dequeue h a m sb se left k).retire := by
  rw [inboxForm]
  refine (issue_ready hr _ _).trans ((if_neg (not_not.mpr hh)).trans ?_)
  rw [State.inboxPeers, hitem] at hw
  rw [show (s.coreAt s.cur.1).takeItem n.toNat (s.coreAt s.cur.1).forInbox = _ from hitem]
  exact toPeers_open hw _ _

theorem inboxForm_none (hr : inboxReady s a n) (hh : (s.slot.rh h).kind = .empty) (hitem : s.inboxItem n = none) (wait : Bool) :
    inboxForm i wait h a n s =
      if wait then .next (s.upd (fun sl => { sl with phase := .blocked (.inbox n.toNat a h) })) else .next (s.setX a 0).retire := by
  rw [inboxForm]
  refine (issue_ready hr _ _).trans ((if_neg (not_not.mpr hh)).trans ?_)
  rw [show (s.coreAt s.cur.1).takeItem n.toNat (s.coreAt s.cur.1).forInbox = _ from hitem]

/-! ### `spawn` (R190, R254, R258, R259) -/

section
variable {p : BitVec 2} {o : BitVec 18}

/-- The entry of the task that `spawn` makes: of the slot's level, with three registers (R190). -/
def State.spawnEntry (s : State) (a : Reg) (p : BitVec 2) (o : BitVec 18) : RunEntry :=
  { s.newTask .spawned p.toNat s.slot.task.level (4 * o.toNat) with
    regs := (List.range 3).map (fun j => (BitVec.ofNat 5 (10 + j), s.slot.rx (regAfter a j))) }

theorem exec_spawn_cancelled (hr : ready { reads := payloadRegs a 3 } s = true) (hc : s.cancelPending s.slot.task.level = true) :
    exec (.spawn a p o) s = .next s.retire := by
  change execSpawn a p o s = _
  rw [execSpawn]
  dsimp only
  rw [hc]
  exact (issue_ready hr _ _).trans (if_pos hc)

theorem exec_spawn_full (hc : s.cancelPending s.slot.task.level = false) (hroom : s.runRoom s.cur.1 = false) :
    exec (.spawn a p o) s = .next s.stall := by
  change execSpawn a p o s = _
  rw [execSpawn]
  exact issue_held rfl (by simp only [hc, hroom]; rfl) _ _

theorem exec_spawn_makes (hr : ready { reads := payloadRegs a 3 } s = true) (hc : s.cancelPending s.slot.task.level = false)
    (hroom : s.runRoom s.cur.1 = true) (hfull : s.countFull s.slot.task.level = false)
    (hw : wayOut s (s.levelPeer s.slot.task.level)) :
    exec (.spawn a p o) s = .next (s.enqueue s.cur.1 (s.spawnEntry a p o)).retire := by
  change execSpawn a p o s = _
  rw [execSpawn]
  dsimp only
  rw [hc, hroom]
  refine (issue_ready hr _ _).trans ((if_neg (ne_true_of_eq_false hc)).trans ((if_neg (ne_true_of_eq_false hfull)).trans ?_))
  exact toPeer_open hw _ _

/-- The registers that the task starts with: x10 to x12 (R190). -/
theorem State.spawnEntry_regs (s : State) (a : Reg) (p : BitVec 2) (o : BitVec 18) :
    (s.spawnEntry a p o).regs = [(10, s.slot.rx a), (11, s.slot.rx (regAfter a 1)), (12, s.slot.rx (regAfter a 2))] := by
  have h0 : regAfter a 0 = a := by simp [regAfter]
  change [((10 : Reg), s.slot.rx (regAfter a 0)), _, _] = _
  rw [h0]
  rfl

theorem State.slot_enqueue (s : State) (c : Nat) (e : RunEntry) : (s.enqueue c e).slot = s.slot := by
  unfold State.enqueue State.sendCount
  split <;> rfl

/-- A task that joins a run queue raises its level's count: the raise goes to the home of the level's record (R259, R271). -/
theorem State.enqueue_raises (s : State) (c : Nat) (e : RunEntry) :
    if e.level < 2 ^ 32 then
      lastIs (s.enqueue c e) { src := s.here (.core c), dst := s.here (.home (s.levelHome e.level)), cls := 1 } (.count e.level true)
    else lastIs (s.enqueue c e) { src := s.here (.core c), dst := s.farHome e.level, cls := 1 } (.farCount e.level true) := by
  unfold State.enqueue State.sendCount
  split
  · exact State.post_lastIs ..
  · exact State.post_lastIs ..

end

/-- Settles O19. -/
theorem inboxInstructionsAndSpawn : Obligations.inbox_instructions_and_spawn := by
  refine ⟨fun s h a n _ _ => ?_, fun s a p o _ _ hr => ?_⟩
  · intro k item away hr
    refine ⟨fun hh => ?_, fun hh => ⟨fun m sb se left k1 hitem hw => ?_, fun hitem => ?_⟩⟩
    · exact ⟨exec_inboxDq.trans (inboxForm_full hr hh _), exec_inboxTry.trans (inboxForm_full hr hh _)⟩
    · exact ⟨exec_inboxDq.trans (inboxForm_takes hr hh hitem hw _), exec_inboxTry.trans (inboxForm_takes hr hh hitem hw _)⟩
    · exact ⟨exec_inboxDq.trans (inboxForm_none hr hh hitem true), exec_inboxTry.trans (inboxForm_none hr hh hitem false)⟩
  · intro c k raised
    refine ⟨exec_spawn_cancelled hr, exec_spawn_full, fun hc hroom hfull hw => ?_⟩
    refine ⟨_, _, exec_spawn_makes hr hc hroom hfull hw, ?_, rfl, rfl, rfl, s.enqueue_raises c _, rfl, s.spawnEntry_regs a p o, ?_, ?_,
      (CoreSide.enqueue s c (s.spawnEntry a p o)).sameMemory⟩
    · rw [State.coreAt_retire, State.coreAt_enqueue]
    · rw [State.slot_retire, State.slot_enqueue]
    · rw [State.slot_retire, State.slot_enqueue]

end Sys2Proof.Machine
end

