-- ==== Sys2Proof/Proofs/FriezeForms.lean ====
section
/-! PROOFS. O20: the Frieze instructions (R191, R192, R194, R196, R197, R212). -/

namespace Sys2Proof.Machine

open Sys2Proof Sys2Proof.Safety

variable {s : State} {a b : Reg} {n : BitVec 3} {i : Instr} {reads writes : List Nat} {k : State → Out}

theorem exec_rrot : exec .rrot s = execRrot s := rfl
theorem exec_mtset : exec (.mtset a b) s = execMtset a b s := rfl
theorem exec_mtlist : exec (.mtlist a b) s = execMtlist a b s := rfl
theorem exec_mrel : exec (.mrel n) s = execMrel n s := rfl

/-! ### The tile and its ring (R191, R212) -/

theorem gateLack_of_gateway (hg : isGateway s.cur.1 = true) : gateLack s = some 5 := by simp [gateLack, hg]

theorem friezeForm_gateway (hg : isGateway s.cur.1 = true) : friezeForm i reads writes k s = s.trap 5 (wordOf i) := by
  simp only [friezeForm, issue, gateLack_of_gateway hg]

/-- A Frieze instruction of a tile's core with nothing in its way needs its cluster's ring. -/
theorem friezeForm_ready (hg : isGateway s.cur.1 = false) (hr : ready { reads := reads, writes := writes } s = true) :
    friezeForm i reads writes k s = if (s.clusterAt (clusterOf (tileOf s.cur.1))).ring = 0 then s.trap 0x104 0 else k s := by
  rw [friezeForm, gateLack_of_tile hg, issue_ready hr]

theorem friezeForm_noRing (hg : isGateway s.cur.1 = false) (hr : ready { reads := reads, writes := writes } s = true)
    (hring : (s.clusterAt (clusterOf (tileOf s.cur.1))).ring = 0) : friezeForm i reads writes k s = s.trap 0x104 0 :=
  (friezeForm_ready hg hr).trans (if_pos hring)

theorem friezeForm_ring (hg : isGateway s.cur.1 = false) (hr : ready { reads := reads, writes := writes } s = true)
    (hring : (s.clusterAt (clusterOf (tileOf s.cur.1))).ring ≠ 0) : friezeForm i reads writes k s = k s :=
  (friezeForm_ready hg hr).trans (if_neg hring)

/-! ### `rrot` (R192) -/

/-- The tile of the slot in hand has one contribution more, and the slot blocks. -/
def State.contributed (s : State) : State :=
  (s.updTile (tileOf s.cur.1) (fun t => { t with
    contributions := t.contributions + 1, waiting := t.waiting ++ [(s.cur.1, s.cur.2, s.slot.gen)] })).upd
      (fun sl => { sl with phase := .blocked .rrot })

@[simp] theorem State.tileAt_upd (s : State) (f : Slot → Slot) (n : Nat) : (s.upd f).tileAt n = s.tileAt n := rfl
@[simp] theorem State.tileAt_retire (s : State) (n : Nat) : s.retire.tileAt n = s.tileAt n := rfl
@[simp] theorem State.slot_updTile (s : State) (n : Nat) (f) : (s.updTile n f).slot = s.slot := rfl
@[simp] theorem State.slot_updCluster (s : State) (n : Nat) (f) : (s.updCluster n f).slot = s.slot := rfl
@[simp] theorem State.clusterAt_retire (s : State) (n : Nat) : s.retire.clusterAt n = s.clusterAt n := rfl

theorem execRrot_contributes (hg : isGateway s.cur.1 = false) (hring : (s.clusterAt (clusterOf (tileOf s.cur.1))).ring ≠ 0) :
    execRrot s = .next s.contributed := friezeForm_ring hg (ready_of_no_needs s) hring

theorem State.contributed_leaves (s : State) :
    s.contributed.slot = { s.slot with phase := .blocked .rrot } ∧
      s.contributed.tileAt (tileOf s.cur.1) = { s.tileAt (tileOf s.cur.1) with
        contributions := (s.tileAt (tileOf s.cur.1)).contributions + 1
        waiting := (s.tileAt (tileOf s.cur.1)).waiting ++ [(s.cur.1, s.cur.2, s.slot.gen)] } ∧
      CoreSide s s.contributed := by
  refine ⟨?_, ?_, rfl⟩
  · rw [State.contributed, State.slot_upd, State.slot_updTile]
  · rw [State.contributed, State.tileAt_upd, State.tileAt_updTile_self]

/-! ### `mtset` (R196, R304) -/

/-- A cluster at which a sweep starts with `n` results expected; with 0 of them it ends. -/
def Cluster.sweeping (k : Cluster) (n handler pos now : Nat) (owner : Nat × Nat × Nat) : Cluster :=
  { k with sweep := decide (n ≠ 0), expected := n, resolved := 0, fired := 0, missed := 0, setAt := some (now, pos)
           handler := handler, owner := some owner, steps := [] }

def State.sweepSet (s : State) (n handler : Nat) : State :=
  s.updCluster (clusterOf (tileOf s.cur.1)) (fun k =>
    k.sweeping n handler (s.ringPos (tileOf s.cur.1)) s.now (s.cur.1, s.slot.task.level, s.cur.2))

theorem execMtset_ring (hg : isGateway s.cur.1 = false) (hr : ready { reads := [xr a, xr b] } s = true)
    (hring : (s.clusterAt (clusterOf (tileOf s.cur.1))).ring ≠ 0) : execMtset a b s =
      if s.mtsetLate (tileOf s.cur.1) then .next s.retire
      else .next (s.sweepSet ((s.slot.rx a).toNat % 2 ^ 32) ((s.slot.rx b).toNat % 2 ^ 32)).retire :=
  friezeForm_ring hg hr hring

/-! ### `mtlist` (R197) -/

/-- A miss-list entry marked invalid, where the operand's bit 5 asks for it. -/
def State.missesRead (s : State) (v : Nat) : State :=
  if v / 32 % 2 = 1 then
    s.updTile (tileOf s.cur.1) (fun q => { q with misses := q.misses.mapIdx (fun i m => if i = v % 16 then { m with valid := false } else m) })
  else s

/-- The word of the miss list that `mtlist` reads. -/
def Tile.missWord (q : Tile) (v : Nat) : Word :=
  if v / 16 % 2 = 1 then BitVec.ofNat 64 q.missCount else ((q.misses[v % 16]?).map Miss.word).getD 0

/-- Bit 4 of the operand asks for the count, its low four bits name the entry (R197). -/
theorem Tile.missWord_eq (q : Tile) (v : Word) : q.missWord v.toNat =
    if v.getLsbD 4 then BitVec.ofNat 64 q.missCount else ((q.misses[v.toNat % 16]?).map Miss.word).getD 0 := by
  have hbit : v.getLsbD 4 = decide (v.toNat / 16 % 2 = 1) := Nat.testBit_eq_decide_div_mod_eq
  simp only [Tile.missWord, hbit, decide_eq_true_eq]

theorem execMtlist_ring (hg : isGateway s.cur.1 = false) (hr : ready { reads := [xr b], writes := [xr a] } s = true)
    (hring : (s.clusterAt (clusterOf (tileOf s.cur.1))).ring ≠ 0) : execMtlist a b s =
      .next (((s.missesRead (s.slot.rx b).toNat).setX a ((s.tileAt (tileOf s.cur.1)).missWord (s.slot.rx b).toNat)).retire) :=
  friezeForm_ring hg hr hring

theorem CoreSide.missesRead (s : State) (v : Nat) : CoreSide s (s.missesRead v) := by
  unfold State.missesRead; split; exacts [.updTile .., .refl s]

@[simp] theorem State.slot_missesRead (s : State) (v : Nat) : (s.missesRead v).slot = s.slot := by
  unfold State.missesRead; split <;> rfl

/-! ### `mrel` (R194) -/

/-- The leases that `mrel n` names: both, that of the A slot, or that of the matched slot. -/
def mrelNames (n : BitVec 3) (w : Nat) : Bool :=
  decide (n = 0) || (decide (n = 1) && decide (w = 0)) || (decide (n = 2) && decide (w ≠ 0))

theorem mrelNames_iff {n : BitVec 3} {w : Nat} : mrelNames n w = true ↔ n = 0 ∨ (n = 1 ∧ w = 0) ∨ (n = 2 ∧ w ≠ 0) := by
  simp [mrelNames, or_assoc]

theorem execMrel_drops : execMrel n s = .next (s.dropLeases s.cur.1 s.cur.2 s.slot.gen (mrelNames n)).retire := by
  rw [execMrel, issue_ready (ready_of_no_needs s)]
  rfl

theorem State.dropLeases_gateway {c : Nat} (hg : isGateway c = true) (l : Nat) (g : BitVec 16) (w : Nat → Bool) :
    s.dropLeases c l g w = s := if_pos hg

/-- The leases of a tile once a task has released some (R194). -/
theorem State.mem_leases_dropLeases {c : Nat} (hg : isGateway c = false) (l : Nat) (g : BitVec 16) (w : Nat → Bool) (e : Lease) :
    e ∈ ((s.dropLeases c l g w).tileAt (tileOf c)).leases ↔ e ∈ (s.tileAt (tileOf c)).leases ∧
      ¬(e.core = c ∧ e.slot = l ∧ e.gen = g ∧ e.engine = false ∧ w e.which = true) := by
  rw [State.dropLeases, if_neg (ne_true_of_eq_false hg), State.tileAt_updTile_self, List.mem_filter]
  refine and_congr_right fun _ => ?_
  rw [Bool.not_eq_true', ← Bool.not_eq_true]
  simp only [Bool.and_eq_true, decide_eq_true_eq, Bool.not_eq_true', and_assoc]

@[simp] theorem State.slot_dropLeases (s : State) (c l : Nat) (g : BitVec 16) (w : Nat → Bool) :
    (s.dropLeases c l g w).slot = s.slot := by
  unfold State.dropLeases; split <;> rfl

/-- Settles O20. -/
theorem friezeInstructionsNeedARing : Obligations.frieze_instructions_need_a_ring := by
  refine ⟨fun s a b n hg => ⟨?_, ?_, ?_, ?_⟩, fun s a b n hg _ => ?_⟩
  · exact exec_rrot.trans (friezeForm_gateway hg)
  · exact exec_mtset.trans (friezeForm_gateway hg)
  · exact exec_mtlist.trans (friezeForm_gateway hg)
  · rw [exec_mrel, execMrel_drops, State.dropLeases_gateway hg]
  intro tl cl va vb
  refine ⟨fun hring => ⟨?_, fun hr => ?_, fun hr => ?_⟩, fun hring => ⟨?_, fun hr hlate => ?_, fun hr hlate => ?_, fun hr => ?_⟩, ?_⟩
  · exact exec_rrot.trans (friezeForm_noRing hg (ready_of_no_needs s) hring)
  · exact exec_mtset.trans (friezeForm_noRing hg hr hring)
  · exact exec_mtlist.trans (friezeForm_noRing hg hr hring)
  · obtain ⟨hslot, htile, hside⟩ := s.contributed_leaves
    refine ⟨_, exec_rrot.trans (execRrot_contributes hg hring), ?_, ?_, ?_, ?_, hside.sameMemory⟩
    · rw [hslot]
    · rw [hslot]
    · rw [htile]
    · rw [htile]
  · exact exec_mtset.trans ((execMtset_ring hg hr hring).trans (if_pos hlate))
  · refine ⟨_, exec_mtset.trans ((execMtset_ring hg hr hring).trans (if_neg (ne_true_of_eq_false hlate))), ?_, ?_, ?_, ?_, ?_, fun _ => rfl⟩
    · rw [State.clusterAt_retire, State.sweepSet, State.clusterAt_updCluster_self, Cluster.sweeping]
    · rw [State.clusterAt_retire, State.sweepSet, State.clusterAt_updCluster_self, Cluster.sweeping, decide_eq_true_iff]
    · rw [State.clusterAt_retire, State.sweepSet, State.clusterAt_updCluster_self, Cluster.sweeping]
    · rw [State.clusterAt_retire, State.sweepSet, State.clusterAt_updCluster_self, Cluster.sweeping]
    · rw [State.slot_retire, State.sweepSet, State.slot_updCluster]
  · refine ⟨_, exec_mtlist.trans (execMtlist_ring hg hr hring), ?_, ?_, ?_⟩
    · rw [State.slot_setX_retire, State.slot_missesRead]
      exact (s.slot.rx_wx_self a _).trans (by rw [Tile.missWord_eq])
    · rw [State.slot_setX_retire, State.slot_missesRead]
    · exact (CoreSide.missesRead s vb.toNat).sameMemory
  · refine ⟨_, exec_mrel.trans execMrel_drops, ?_, ?_, fun e => ?_⟩
    · rw [State.slot_retire, State.slot_dropLeases]
    · exact (CoreSide.dropLeases ..).sameMemory
    · rw [State.tileAt_retire]
      refine (State.mem_leases_dropLeases hg ..).trans ?_
      rw [mrelNames_iff]

end Sys2Proof.Machine
end

