-- ==== Sys2Proof/Proofs/EngineCompletion.lean ====
section
/-! PROOFS. O39: a command leaves its engine, and its completion goes to the issuing core (R189, R226, R229, R232, R234, R341). -/

namespace Sys2Proof.Machine

open Sys2Proof Sys2Proof.Safety

variable {s u : State} {e : Nat}

theorem exec_engineComplete (e id : Nat) (s : State) : exec (.engineComplete e id) s = execEngineComplete e id s := rfl
theorem exec_engineMarkerComplete (e : Nat) (s : State) : exec (.engineMarkerComplete e) s = execEngineMarkerComplete e s := rfl
theorem exec_parkedCommandRelease (e : Nat) (s : State) : exec (.parkedCommandRelease e) s = execParkedCommandRelease e s := rfl

/-! ### Accumulators (R37, R226) -/

/-- The state with these accumulators. -/
def State.withAcc (s : State) (m : AMap (BitVec 32)) : State := { s with mach := { s.mach with acc := m } }

/-- Writing accumulator entries changes the accumulators alone. -/
theorem State.foldl_setAcc_only (l : List (Nat × Nat)) (t : Nat) (s : State) :
    ∃ m, l.foldl (fun s w => s.setAcc t w.1 w.2) s = s.withAcc m := by
  induction l generalizing s with
  | nil => exact ⟨s.mach.acc, rfl⟩
  | cons w r ih =>
    obtain ⟨m, hm⟩ := ih (s.setAcc t w.1 w.2)
    exact ⟨m, hm⟩

/-- An accumulator entry that is zeroed reads zero, and every other of its tile as before. -/
theorem State.accAt_setAcc_zero (s : State) (t j n : Nat) : (s.setAcc t j 0).accAt t n = if n = j then 0 else s.accAt t n := by
  by_cases h : n = j
  · subst h
    simp [State.accAt, State.setAcc, AMap.get_del_self]
  · have hkey : t * 65536 + n ≠ t * 65536 + j := by omega
    simp [State.accAt, State.setAcc, AMap.get_del_other _ hkey, h]

/-- A run of entries zeroed, from `b` upwards. -/
theorem State.accAt_zeroed (s : State) (t b k n : Nat) :
    ((List.range k).foldl (fun s i => s.setAcc t (b + i) 0) s).accAt t n = if b ≤ n ∧ n < b + k then 0 else s.accAt t n := by
  induction k with
  | zero => rw [if_neg (by omega)]; rfl
  | succ k ih =>
    rw [List.range_succ, List.foldl_append]
    refine (State.accAt_setAcc_zero ..).trans ?_
    rw [ih]
    by_cases hlast : n = b + k
    · rw [if_pos hlast, if_pos (by omega)]
    · rw [if_neg hlast]
      exact ite_congr (propext (by omega)) (fun _ => rfl) fun _ => rfl

/-- ACCZ zeroes its entries (R226). -/
theorem State.accWrites_accz (s : State) (t : Nat) {r : Run} (hop : r.cmd.op = 6) :
    s.accWrites t r = (List.range r.cmd.w1.toNat).map (fun i => (w0Acc r.cmd.w0 + i, 0)) := by
  simp [State.accWrites, hop, isMma]

/-! ### Completions (R232) -/

/-- The notice of a command's end: its completion, or under ERRONLY and code 0 the silent notice. -/
def endNotice (c : Cmd) (code : Nat) (status : Word) : Body :=
  if c.w3.getLsbD 0 = true ∧ code = 0 then .silent c.slot c.gen c.matrix c.follow c.leases
  else .completion c.w3 status c.slot c.gen c.matrix true c.level c.follow c.leases

/-- The notice is on its way to the issuing core. -/
theorem State.sendCompletion_lastIs (hp : u.part = s.part) (e : Nat) (c : Cmd) (status : Word) (code : Nat) :
    lastIs (u.sendCompletion e c status code)
      { src := s.here (.engine e), dst := { peer := c.peer, agent := .core c.core }, cls := 1 } (endNotice c code status) := by
  rw [← State.here_congr hp]
  exact State.append_lastIs ..

@[simp] theorem State.engineAt_sendCompletion (s : State) (e : Nat) (c : Cmd) (status : Word) (code x : Nat) :
    (s.sendCompletion e c status code).engineAt x = s.engineAt x := rfl

theorem State.sendCompletion_sameMemory (s : State) (e : Nat) (c : Cmd) (status : Word) (code : Nat) :
    sameMemory s (s.sendCompletion e c status code) := fun _ => rfl

/-! ### A run that has finished (R232 to R234, R341) -/

/-- The accumulator writes of a run that did not stop at a matrix array. -/
def State.accWritten (s : State) (e : Nat) (r : Run) : State :=
  if isMatrix e ∧ r.code = 0 then (s.accWrites (engineTile e) r).foldl (fun s w => s.setAcc (engineTile e) w.1 w.2) s else s

/-- The run has left its engine. -/
def State.runLeft (s : State) (e id : Nat) : State := s.updEngine e (fun k => { k with runs := k.runs.filter (fun x => x.id ≠ id) })

theorem execEngineComplete_finished {id : Nat} {r : Run} (hr : s.runAt e id = some r) (hf : r.finished = true)
    (hstop : s.stopped = false ∨ r.code ≠ 0x1C0) :
    exec (.engineComplete e id) s = .next (((s.accWritten e r).runLeft e id).sendCompletion e r.cmd
      (statusWord r.prog r.cmd.op.toNat r.why r.code) r.code) := by
  have hgo : ¬(r.finished = false ∨ (s.stopped ∧ r.code = 0x1C0)) := by
    rintro (h | ⟨h1, h2⟩)
    · exact absurd (hf.symm.trans h) nofun
    · exact hstop.elim (fun h => absurd (h.symm.trans h1) nofun) fun h => h h2
  rw [exec_engineComplete, execEngineComplete, hr]
  exact if_neg hgo

theorem State.accWritten_only (s : State) (e : Nat) (r : Run) : ∃ m, s.accWritten e r = s.withAcc m := by
  unfold State.accWritten
  split
  · exact State.foldl_setAcc_only ..
  · exact ⟨_, rfl⟩

theorem State.runAt_runLeft (s : State) (e id : Nat) : (s.runLeft e id).runAt e id = none := by
  rw [State.runAt, State.runLeft, State.engineAt_updEngine_self]
  exact List.find?_eq_none.mpr fun x hx => by simpa using (List.mem_filter.mp hx).2

theorem State.accAt_accWritten_accz {r : Run} (hop : r.cmd.op = 6) (hm : isMatrix e = true) (hcode : r.code = 0) (n : Nat) :
    (s.accWritten e r).accAt (engineTile e) n =
      if w0Acc r.cmd.w0 ≤ n ∧ n < w0Acc r.cmd.w0 + r.cmd.w1.toNat then 0 else s.accAt (engineTile e) n := by
  rw [State.accWritten, if_pos ⟨hm, hcode⟩, State.accWrites_accz s _ hop, List.foldl_map]
  exact State.accAt_zeroed ..

/-! ### Markers and parked commands (R189, R229) -/

theorem execEngineMarkerComplete_head {c : Cmd} {rest : List Cmd} (hq : (s.engineAt e).queue = c :: rest) (hm : c.marker = true)
    (hruns : (s.engineAt e).runs = []) (hs : s.stopped = false) : exec (.engineMarkerComplete e) s =
      .next ((s.updEngine e (fun k => ({ k with queue := rest }).refill)).sendCompletion e c 0 0) := by
  rw [exec_engineMarkerComplete, execEngineMarkerComplete, hq]
  exact if_neg (by simp [hm, hruns, hs])

/-- The first parked command has left an inbound streamer, with the failure of its group. -/
def State.unparked (s : State) (e : Nat) (c : Cmd) (rest : List Cmd) : State :=
  s.updEngine e (fun k => { k with parked := rest, failed := k.failed.filter (fun x => x ≠ followKey c) })

section
variable {c : Cmd} {rest : List Cmd} (hq : (s.engineAt e).parked = c :: rest)
  (hopen : (s.engineAt e).open_.contains (followKey c) = false)

include hq hopen

theorem execParkedCommandRelease_enters (hfail : (s.engineAt e).failed.contains (followKey c) = false)
    (hroom : (s.engineAt (e - 1)).queue.length < 16) : exec (.parkedCommandRelease e) s =
      .next ((s.unparked e c rest).updEngine (e - 1) (fun q => { q with queue := q.queue ++ [{ c with follow := 0 }] })) := by
  rw [exec_parkedCommandRelease, execParkedCommandRelease, hq]
  simp only [takeFirst, hopen, Bool.not_false, if_true, hfail, Bool.false_eq_true, if_false, Nat.not_le.mpr hroom]
  rfl

theorem execParkedCommandRelease_fails (hfail : (s.engineAt e).failed.contains (followKey c) = true) :
    exec (.parkedCommandRelease e) s =
      .next (((s.unparked e c rest).dropLeasesOf c.core c.slot c.gen c.leases).sendCompletion e { c with follow := 0, leases := [] }
        (statusWord 0 c.op.toNat 0 0x109) 0x109) := by
  rw [exec_parkedCommandRelease, execParkedCommandRelease, hq]
  simp only [takeFirst, hopen, Bool.not_false, if_true, hfail]
  rfl

end

/-- A command that enters the matrix array's queue leaves the parked ones, also where no engine stands before (`e` zero). -/
theorem State.unparked_enters (s : State) (e : Nat) (c d : Cmd) (rest : List Cmd) :
    let t := (s.unparked e c rest).updEngine (e - 1) (fun q => { q with queue := q.queue ++ [d] })
    (t.engineAt e).parked = rest ∧ (t.engineAt (e - 1)).queue = (s.engineAt (e - 1)).queue ++ [d] := by
  intro t
  have hun : (s.unparked e c rest).engineAt e = { s.engineAt e with
      parked := rest, failed := (s.engineAt e).failed.filter (fun x => x ≠ followKey c) } := State.engineAt_updEngine_self ..
  have hd : t.engineAt (e - 1) = { (s.unparked e c rest).engineAt (e - 1) with
      queue := ((s.unparked e c rest).engineAt (e - 1)).queue ++ [d] } := State.engineAt_updEngine_self ..
  by_cases h : e - 1 = e
  · rw [h] at hd ⊢
    rw [hd, hun]
    exact ⟨rfl, rfl⟩
  · have he : t.engineAt e = (s.unparked e c rest).engineAt e := State.engineAt_updEngine_other _ _ (Ne.symm h)
    have hq : (s.unparked e c rest).engineAt (e - 1) = s.engineAt (e - 1) := State.engineAt_updEngine_other _ _ h
    rw [he, hd, hun, hq]
    exact ⟨rfl, rfl⟩

/-- Settles O39. -/
theorem enginesCompleteAndTellTheIssuingCore : Obligations.engines_complete_and_tell_the_issuing_core := by
  intro s e k told
  refine ⟨fun id r hr hf hstop => ?_, fun c rest hq hm hruns hs => ?_, fun c rest hq hopen => ⟨fun hfail hroom => ?_, fun hfail => ?_⟩⟩
  · obtain ⟨m, hacc⟩ := s.accWritten_only e r
    refine ⟨_, execEngineComplete_finished hr hf hstop, State.runAt_runLeft (s.accWritten e r) e id, State.sendCompletion_lastIs ?_ .., ?_,
      fun hop hmat hcode n => State.accAt_accWritten_accz (s := s) hop hmat hcode n, fun hno => ?_⟩
    · rw [hacc]; rfl
    · rw [hacc]; exact fun _ => rfl
    · have hnone : s.accWritten e r = s := if_neg fun ⟨hmat, hcode⟩ =>
        hno.elim (fun h => absurd (h.symm.trans hmat) nofun) fun h => h hcode
      exact congrArg (·.mach.acc) hnone
  · refine ⟨_, execEngineMarkerComplete_head hq hm hruns hs, ?_, State.sendCompletion_lastIs rfl .., fun _ => rfl⟩
    rw [State.engineAt_sendCompletion, State.engineAt_updEngine_self]
    rfl
  · obtain ⟨hparked, hqueue⟩ := s.unparked_enters e c { c with follow := 0 } rest
    exact ⟨_, execParkedCommandRelease_enters hq hopen hfail hroom, hparked, fun _ => rfl, hqueue⟩
  · have hside := TileSide.dropLeasesOf (s.unparked e c rest) c.core c.slot c.gen c.leases
    refine ⟨_, execParkedCommandRelease_fails hq hopen hfail, ?_, State.sendCompletion_lastIs ?_ .., hside.sameMemory⟩
    · rw [State.engineAt_sendCompletion, State.engineAt_dropLeasesOf, State.unparked, State.engineAt_updEngine_self]
    · exact congrArg (·.part) hside

end Sys2Proof.Machine
end

