-- ==== Sys2Proof/Proofs/HomeEntries.lean ====
section
/-! PROOFS. The entries of a channel home as its steps leave them: what is read after an entry has been set or freed, and what
a notice leaves (R173, R187, R289). -/

namespace Sys2Proof.Machine

open Sys2Proof Sys2Proof.Safety

variable {s t u : State} {h : Nat} {ident : Word} {e d : Chan}

/-! ### What a step of a channel home keeps -/

/-- A step of channel home `h` after its packet has been taken: memory and the rest of its perform queue stay. -/
def ChanStep (h : Nat) (s t : State) : Prop := TicketSide s t ∧ (t.homeAt h).q = (s.homeAt h).q

theorem NetSide.homeAt (hn : NetSide s t) (n : Nat) : t.homeAt n = s.homeAt n := congrArg (·.homeAt n) hn

theorem NetSide.ticketSide (hn : NetSide s t) : TicketSide s t := by
  unfold NetSide at hn
  unfold TicketSide
  rw [← hn]

theorem NetSide.chanStep (hn : NetSide s t) : ChanStep h s t := ⟨hn.ticketSide, congrArg (·.q) (hn.homeAt h)⟩

theorem NetSide.entryAt (hn : NetSide s t) (n : Nat) (ident : Word) : t.entryAt n ident = s.entryAt n ident :=
  congrArg (·.entryAt n ident) hn

theorem NetSide.tell (s : State) (n loc : Nat) (b : Body) : NetSide s (s.tell n loc b) := .post ..

theorem NetSide.tellStub (s : State) (n : Nat) (e : Chan) (round dest : Nat × BitVec 16) (insts : List Nat) :
    NetSide s (s.tellStub n e round dest insts) := .tell ..

theorem ChanStep.trans (ha : ChanStep h s t) (hb : ChanStep h t u) : ChanStep h s u :=
  ⟨ha.1.trans hb.1, hb.2.trans ha.2⟩

theorem ChanStep.sameMemory (ha : ChanStep h s t) : sameMemory s t := ha.1.sameMemory
theorem ChanStep.part (ha : ChanStep h s t) : t.part = s.part := ha.1.part

theorem ChanStep.setChan (s : State) (h : Nat) (e : Chan) : ChanStep h s (s.setChan h e) :=
  ⟨.updHome .., by rw [State.setChan, State.homeAt_updHome_self]⟩

theorem ChanStep.freeChan (s : State) (h : Nat) (e : Chan) : ChanStep h s (s.freeChan h e) := by
  unfold State.freeChan
  split
  · exact ⟨.updHome .., by rw [State.homeAt_updHome_self]⟩
  · exact .setChan ..

@[simp] theorem State.setChan_net (s : State) (h : Nat) (e : Chan) : (s.setChan h e).mach.net = s.mach.net := rfl

@[simp] theorem State.freeChan_net (s : State) (h : Nat) (e : Chan) : (s.freeChan h e).mach.net = s.mach.net := by
  unfold State.freeChan
  split <;> rfl

/-- The stubs of the rounds that an instance in flight was still to be told of account for instance `n`; the entry is `d` by then. -/
def State.tellRounds (s : State) (h : Nat) (e d : Chan) (n : Nat) (owes : List (Nat × BitVec 16)) : State :=
  owes.foldl (fun s o =>
    match e.rounds.find? (fun r => r.2 + 1 = o.2) with
    | some r => s.tellStub h d r o [n]
    | none => s) s

theorem NetSide.tellRounds (s : State) (h : Nat) (e d : Chan) (n : Nat) (owes : List (Nat × BitVec 16)) :
    NetSide s (s.tellRounds h e d n owes) :=
  .foldl (fun _ _ => by split; exacts [.tellStub .., .refl _]) ..

/-! ### The head of the perform queue taken -/

theorem State.afterHead_q (s : State) (h : Nat) (rest : List Packet) : ((s.afterHead h rest).homeAt h).q = rest :=
  (TookHead.taken s h rest).q

theorem State.entryAt_afterHead (s : State) (h : Nat) (rest : List Packet) (ident : Word) :
    (s.afterHead h rest).entryAt h ident = s.entryAt h ident := by
  rw [State.entryAt, (TookHead.taken s h rest).homeAt]
  rfl

/-- A step of a home from the state in which its packet has been taken. -/
theorem ChanStep.ofHead {rest : List Packet} (ha : ChanStep h (s.afterHead h rest) t) :
    (t.homeAt h).q = rest ∧ Safety.sameMemory s t :=
  ⟨ha.2.trans (s.afterHead_q h rest), fun a => (ha.sameMemory a).trans ((TookHead.taken s h rest).sameMemory a)⟩

/-! ### Entries set and freed -/

theorem State.entryAt_ident (he : s.entryAt h ident = some e) : e.ident = ident := by
  simpa using List.find?_some he

/-- An entry that is there and has been set reads as it was set. -/
theorem State.entryAt_setChan (he : s.entryAt h ident = some e) (hd : d.ident = ident) : (s.setChan h d).entryAt h ident = some d := by
  have hmap := find?_mapWhere (p := fun x : Chan => decide (x.ident = ident)) (f := fun _ => d) (fun _ _ => by simpa using hd)
    (s.homeAt h).chans
  have hset : (s.homeAt h).chans.map (fun x => if x.ident = d.ident then d else x) =
      mapWhere (fun x : Chan => decide (x.ident = ident)) (fun _ => d) (s.homeAt h).chans := by
    simp [mapWhere, hd]
  rw [State.entryAt, State.setChan, State.homeAt_updHome_self]
  dsimp only
  rw [hset, hmap, ← State.entryAt, he]
  rfl

/-- An entry whose receive end or an instance of which is live stays (R187). -/
theorem State.freeChan_live (s : State) (h : Nat) (hl : e.state ≠ .closed ∨ e.live ≠ []) : s.freeChan h e = s.setChan h e := by
  refine if_neg fun ⟨hstate, hlive⟩ => ?_
  exact hl.elim (· hstate) (· (List.isEmpty_iff.mp hlive))

/-- A closed entry without live instances is gone (R187). -/
theorem State.entryAt_freeChan_closed (s : State) (h : Nat) (hs : e.state = .closed) (hl : e.live = []) :
    (s.freeChan h e).entryAt h e.ident = none := by
  rw [State.freeChan, if_pos ⟨hs, by rw [hl]; rfl⟩, State.entryAt, State.homeAt_updHome_self]
  simp

/-! ### Instances of an entry -/

/-- An instance of an entry changed: what is read of it. -/
theorem Chan.inst_updInst (e : Chan) (n : Nat) {f : Inst → Inst} (hf : ∀ i, (f i).num = i.num) :
    (e.updInst n f).inst n = (e.inst n).map f := by
  have hmap := find?_mapWhere (p := fun i : Inst => decide (i.num = n)) (f := f) (fun i hi => by simpa [hf i] using hi) e.insts
  simpa [Chan.inst, Chan.updInst, mapWhere] using hmap

/-- A change of the instances that are live, but not of which they are. -/
theorem live_map_nil {f : Inst → Inst} (hf : ∀ i, (f i).closed = i.closed) (l : List Inst) :
    (l.map f).filter (fun i => !i.closed) = [] ↔ l.filter (fun i => !i.closed) = [] := by
  simp [List.filter_eq_nil_iff, hf]

/-! ### Notices of a home -/

/-- A notice is on its way to its holder (R43). -/
theorem State.tell_queued (hp : u.part = s.part) (h loc : Nat) (b : Body) :
    queued (u.tell h loc b) { src := s.here (.home h), dst := locPlace loc, cls := 0 } b := by
  rw [← State.here_congr hp]
  exact State.append_queued ..

theorem queued.tell {k : PairKey} {b : Body} (hk : queued u k b) (h loc : Nat) (d : Body) : queued (u.tell h loc d) k b := hk.append ..

theorem queued.tellStub {k : PairKey} {b : Body} (hk : queued u k b) (h : Nat) (e : Chan) (round dest : Nat × BitVec 16)
    (insts : List Nat) : queued (u.tellStub h e round dest insts) k b := hk.tell ..

theorem queued.of_net {k : PairKey} {b : Body} (hk : queued s k b) (hn : t.mach.net = s.mach.net) : queued t k b := by
  unfold queued
  rwa [hn]

/-- Instances of an entry that a core holds. -/
def Chan.held (e : Chan) : List Inst := e.live.filter (fun i => i.holder.isSome)

/-- Every holder of an instance is told. -/
theorem State.tellHeld_queued (hp : u.part = s.part) (h : Nat) {e : Chan} (b : Inst → Body) {i : Inst} (hi : i ∈ e.live) {x : Nat}
    (hx : i.holder = some x) : queued (e.held.foldl (fun s i => s.tell h (i.holder.getD 0) (b i)) u)
      { src := s.here (.home h), dst := locPlace x, cls := 0 } (b i) := by
  refine queued_foldl (fun _ _ hk => hk.tell ..) (fun _ _ => rfl)
    (.inr ⟨i, List.mem_filter.mpr ⟨hi, by rw [hx]; rfl⟩, fun v hv => ?_⟩)
  rw [hx]
  exact State.tell_queued (hv.trans hp) h x (b i)

end Sys2Proof.Machine
end

