-- ==== Sys2Proof/Proofs/ClosingAtHome.lean ====
section
/-! PROOFS. O43: a channel home closes instances and ends, and sends stray messages on (R180, R186, R187, R299). -/

namespace Sys2Proof.Machine

open Sys2Proof Sys2Proof.Safety

variable {s t u : State} {h n : Nat} {ident : Word} {e : Chan} {i : Inst} {p : Packet} {rest : List Packet} {m : Msg}

theorem exec_closeNotice (h : Nat) (s : State) : exec (.closeNotice h) s = execCloseNotice h s := rfl
theorem exec_mismatchedMessageReturn (h : Nat) (s : State) :
    exec (.mismatchedMessageReturn h) s = execMismatchedMessageReturn h s := rfl

/-! ### A send end closed (R186) -/

/-- The entry with one instance closed. -/
def Chan.closeInst (e : Chan) (n : Nat) : Chan := e.updInst n (fun i => { i with closed := true, holder := none, owes := [] })

theorem State.instClosed_known (s : State) (h : Nat) (hi : e.inst n = some i) : s.instClosed h e n =
    ((s.tellRounds h e (e.closeInst n) n i.owes).finalCheck h (e.closeInst n)).1.freeChan h
      ((s.tellRounds h e (e.closeInst n) n i.owes).finalCheck h (e.closeInst n)).2 := by
  rw [State.instClosed, hi]
  rfl

theorem State.finalCheck_live (s : State) (h : Nat) (hl : e.live ≠ []) : s.finalCheck h e = (s, e) :=
  if_neg fun hc => hl (List.isEmpty_iff.mp hc.1)

theorem State.finalCheck_last (s : State) (h : Nat) (hl : e.live = []) (hf : e.finalSent = false) (hs : e.state ≠ .closed) :
    s.finalCheck h e = (s.tell h e.holder (.final e.ident e.made), { e with finalSent := true }) :=
  if_pos ⟨by rw [hl]; rfl, hf, hs⟩

/-- While another instance is live, the entry has this one closed. -/
theorem State.instClosed_one (he : s.entryAt h ident = some e) (hi : e.inst n = some i) (hl : (e.closeInst n).live ≠ []) :
    (s.instClosed h e n).entryAt h ident = some (e.closeInst n) ∧ ChanStep h s (s.instClosed h e n) := by
  have hnet := NetSide.tellRounds s h e (e.closeInst n) n i.owes
  rw [State.instClosed_known s h hi, State.finalCheck_live _ h hl, State.freeChan_live _ h (.inr hl)]
  have hid := State.entryAt_ident he
  exact ⟨State.entryAt_setChan ((hnet.entryAt h ident).trans he) hid, hnet.chanStep.trans (.setChan ..)⟩

/-- With the last instance the final notice goes to the holder of the receive end. -/
theorem State.instClosed_last (he : s.entryAt h ident = some e) (hi : e.inst n = some i) (hl : (e.closeInst n).live = [])
    (hs : e.state ≠ .closed) (hf : e.finalSent = false) :
    (s.instClosed h e n).entryAt h ident = some { e.closeInst n with finalSent := true } ∧
      queued (s.instClosed h e n) { src := s.here (.home h), dst := locPlace e.holder, cls := 0 } (.final ident e.made) ∧
      ChanStep h s (s.instClosed h e n) := by
  have hid := State.entryAt_ident he
  have hnet := NetSide.tellRounds s h e (e.closeInst n) n i.owes
  have htold := hnet.trans (.tell (s.tellRounds h e (e.closeInst n) n i.owes) h e.holder (.final e.ident e.made))
  rw [State.instClosed_known s h hi, State.finalCheck_last (e := e.closeInst n) _ h hl hf hs,
    State.freeChan_live _ h (e := { e.closeInst n with finalSent := true }) (.inl hs)]
  refine ⟨State.entryAt_setChan ((htold.entryAt h ident).trans he) hid, ?_, htold.chanStep.trans (.setChan ..)⟩
  rw [← hid]
  exact State.tell_queued (u := s.tellRounds h e (e.closeInst n) n i.owes) hnet.part h e.holder (.final e.ident e.made)

/-! ### The receive end closed (R187, R299) -/

/-- The entry with its receive end closed. -/
def Chan.closeRecv (e : Chan) : Chan :=
  { e with
    state := .closed, rounds := []
    insts := e.insts.map (fun i => if i.closed ∨ i.holder.isSome then i else { i with dead := true }) }

theorem Chan.closeRecv_live (e : Chan) : e.closeRecv.live = [] ↔ e.live = [] :=
  live_map_nil (fun i => by split <;> rfl) e.insts

/-- The holders of the instances are told that the receive end is closed. -/
def State.toldDead (s : State) (h : Nat) (e : Chan) : State :=
  e.held.foldl (fun s i => s.tell h (i.holder.getD 0) (.peerClosed e.ident i.num)) s

/-- The entry is closed, or freed, once the holders and the places of stubs have been told. -/
theorem State.recvClosed_tells (s : State) (h : Nat) (e : Chan) (carried : Bool) : ∃ places : List Nat,
    s.recvClosed h e carried =
      (places.foldl (fun s r => s.tell h r (.recvClose e.ident false)) (s.toldDead h e)).freeChan h e.closeRecv := ⟨_, rfl⟩

theorem State.recvClosed_closes (he : s.entryAt h ident = some e) (carried : Bool) :
    ChanStep h s (s.recvClosed h e carried) ∧
      (e.live ≠ [] → (s.recvClosed h e carried).entryAt h ident = some e.closeRecv) ∧
      (e.live = [] → (s.recvClosed h e carried).entryAt h ident = none) ∧
      ∀ i ∈ e.live, ∀ x, i.holder = some x → queued (s.recvClosed h e carried)
        { src := s.here (.home h), dst := locPlace x, cls := 0 } (.peerClosed ident i.num) := by
  have hid := State.entryAt_ident he
  obtain ⟨places, hr⟩ := s.recvClosed_tells h e carried
  have hnet : NetSide s (places.foldl (fun s r => s.tell h r (.recvClose e.ident false)) (s.toldDead h e)) :=
    .trans (.foldl (fun _ _ => .tell ..) ..) (.foldl (fun _ _ => .tell ..) ..)
  rw [hr]
  refine ⟨hnet.chanStep.trans (.freeChan ..), fun hl => ?_, fun hl => ?_, fun i hi x hx => ?_⟩
  · rw [State.freeChan_live _ h (.inr (mt e.closeRecv_live.mp hl))]
    exact State.entryAt_setChan ((hnet.entryAt h ident).trans he) hid
  · rw [← hid]
    exact State.entryAt_freeChan_closed (e := e.closeRecv) _ h rfl (e.closeRecv_live.mpr hl)
  · refine queued.of_net ?_ (State.freeChan_net ..)
    rw [← hid]
    exact queued_foldl (fun _ _ hk => hk.tell ..) (fun _ _ => rfl)
      (.inl (State.tellHeld_queued rfl h (fun i => .peerClosed e.ident i.num) hi hx))

/-! ### Close notices -/

theorem execCloseNotice_inst (hq : (s.homeAt h).q = p :: rest) (hp : p.body = .chClose ident n) (he : s.entryAt h ident = some e) :
    exec (.closeNotice h) s = .next ((s.afterHead h rest).instClosed h e n) := by
  rw [exec_closeNotice, execCloseNotice, State.takeHome_head hq]
  dsimp only
  rw [hp]
  dsimp only
  rw [he]

theorem execCloseNotice_recv (hq : (s.homeAt h).q = p :: rest) {carried : Bool} (hp : p.body = .recvClose ident carried)
    (he : s.entryAt h ident = some e) : exec (.closeNotice h) s = .next ((s.afterHead h rest).recvClosed h e carried) := by
  rw [exec_closeNotice, execCloseNotice, State.takeHome_head hq]
  dsimp only
  rw [hp]
  dsimp only
  rw [he]

/-! ### Messages that came back (R180, R187) -/

theorem execMismatchedMessageReturn_forwards (hq : (s.homeAt h).q = p :: rest) (hp : p.body = .returned m)
    (he : s.entryAt h m.ident = some e) (hs : e.state ≠ .closed) (hm : m.kind ≠ .closeMarker) :
    exec (.mismatchedMessageReturn h) s = .next ((s.afterHead h rest).post (.home h) (locPlace e.holder) m.cls
      (.msg { m with gen := e.gen, fwd := true }) 0 0) := by
  have hno : e.rounds.find? (fun r => decide (r.2 = m.gen) && decide (m.kind = .closeMarker)) = none := by simp [hm]
  rw [exec_mismatchedMessageReturn, execMismatchedMessageReturn, State.takeHome_head hq]
  dsimp only
  rw [hp]
  dsimp only
  rw [he]
  dsimp only
  rw [if_neg hs, hno]

theorem execMismatchedMessageReturn_drops (hq : (s.homeAt h).q = p :: rest) (hp : p.body = .returned m)
    (he : s.entryAt h m.ident = none) :
    exec (.mismatchedMessageReturn h) s = .next (((s.afterHead h rest).dropMsg (.home h) m).countDropped m) := by
  rw [exec_mismatchedMessageReturn, execMismatchedMessageReturn, State.takeHome_head hq]
  dsimp only
  rw [hp]
  dsimp only
  rw [he]

theorem NetSide.dropMsg (s : State) (a : Agent) (m : Msg) : NetSide s (s.dropMsg a m) := by
  have hcredit : NetSide s (s.giveCredit a m) := by
    unfold State.giveCredit
    split
    · exact .post ..
    · exact .post ..
    · exact .refl _
  unfold State.dropMsg
  dsimp only
  split
  · next hc =>
    refine hcredit.trans ?_
    unfold State.closeCarried
    split
    · exact .refl _
    · exact .post ..
    · exact .trans (.post ..) (.post ..)
  · exact hcredit

theorem State.job_withDram (s : State) (d : Memory) : ({ s with dram := d } : State).job = s.job := rfl

theorem State.job_showCounts (s : State) (j : Nat) : (s.showCounts j).job = s.job := by
  unfold State.showCounts
  dsimp only
  split
  · rfl
  · exact s.job_withDram _

/-- The data messages that a job has had dropped are counted (R187). -/
theorem State.countDropped_dropped (s : State) (m : Msg) : (s.countDropped m).job.dropped =
    if m.kind = .data ∨ m.kind = .dataEnd then satAdd 32 s.job.dropped 1 else s.job.dropped := by
  have hcount : ((s.updJob (fun j => { j with dropped := satAdd 32 j.dropped 1 })).showCounts s.jslot).job.dropped =
      satAdd 32 s.job.dropped 1 := by
    rw [State.job_showCounts, State.job_updJob]
  unfold State.countDropped
  split
  · next hk => rw [if_pos (.inl hk), hcount]
  · next hk => rw [if_pos (.inr hk), hcount]
  · next hdata hend => rw [if_neg fun hk => hk.elim hdata hend]

/-- Settles O43. -/
theorem channelHomesCloseEndsAndReturnMessages : Obligations.channel_homes_close_ends_and_return_messages := by
  intro s h p rest hq told
  have hhead {t : State} (ht : ChanStep h (s.afterHead h rest) t) : sameMemory s t := (ChanStep.ofHead ht).2
  refine ⟨fun ident e he => ?_, fun m hp he => ?_⟩
  · have he' := (s.entryAt_afterHead h rest ident).trans he
    refine ⟨fun n i hp hi => ⟨fun hl => ?_, fun hl hs hf => ?_⟩, fun cr hp => ?_, fun m hp hm hs hk => ?_⟩
    · obtain ⟨hentry, hstep⟩ := State.instClosed_one he' hi hl
      exact ⟨_, execCloseNotice_inst hq hp he, hentry, hhead hstep⟩
    · obtain ⟨hentry, htold, hstep⟩ := State.instClosed_last he' hi hl hs hf
      exact ⟨_, execCloseNotice_inst hq hp he, hentry, htold, hhead hstep⟩
    · obtain ⟨hstep, hlive, hfree, htold⟩ := State.recvClosed_closes he' cr
      exact ⟨fun hl => ⟨_, _, execCloseNotice_recv hq hp he, hlive hl, rfl, rfl, hhead hstep, htold⟩,
        fun hl => ⟨_, execCloseNotice_recv hq hp he, hfree hl, hhead hstep⟩⟩
    · exact ⟨_, execMismatchedMessageReturn_forwards hq hp (hm ▸ he) hs hk, hhead (NetSide.post ..).chanStep, State.post_lastIs ..⟩
  · refine ⟨_, execMismatchedMessageReturn_drops hq hp he, ?_⟩
    have hjob : ((s.afterHead h rest).dropMsg (.home h) m).job = s.job := (NetSide.dropMsg ..).job
    rw [State.countDropped_dropped, hjob, satAdd]

end Sys2Proof.Machine
end

