-- ==== Sys2Proof/Proofs/RecordsAtHome.lean ====
section
/-! PROOFS. O42: a channel home records channels and instances, and follows moves, landings and retirements (R173, R174, R289 to
R296). -/

namespace Sys2Proof.Machine

open Sys2Proof Sys2Proof.Safety

variable {s t u : State} {h n g loc : Nat} {ident : Word} {e : Chan} {i : Inst} {p : Packet} {rest : List Packet}

theorem exec_channelCreationRequest (h : Nat) (s : State) :
    exec (.channelCreationRequest h) s = execChannelCreationRequest h s := rfl
theorem exec_instanceAllocation (h : Nat) (s : State) : exec (.instanceAllocation h) s = execInstanceAllocation h s := rfl
theorem exec_movingNotice (h : Nat) (s : State) : exec (.movingNotice h) s = execMovingNotice h s := rfl
theorem exec_landingNotice (h : Nat) (s : State) : exec (.landingNotice h) s = execLandingNotice h s := rfl
theorem exec_stubRetirement (h : Nat) (s : State) : exec (.stubRetirement h) s = execStubRetirement h s := rfl

/-! ### Creations (R173) -/

section creation

variable {c c0 : Nat} (hq : (s.homeAt h).q = p :: rest) (hp : p.body = .chCreate ident c) (hsrc : p.src.agent = .core c0)

include hq hp hsrc in
theorem execChannelCreationRequest_refuses (hno : 512 ≤ (s.homeAt h).chans.length ∨ (s.entryAt h ident).isSome = true) :
    exec (.channelCreationRequest h) s = .next ((s.afterHead h rest).post (.home h) p.src 0 (.chCreated ident false) 0 0) := by
  rw [exec_channelCreationRequest, execChannelCreationRequest, State.takeHome_head hq]
  dsimp only
  rw [hp, hsrc]
  exact if_pos hno

/-- The entry of a new channel. -/
def newChan (ident : Word) (loc : Nat) : Chan :=
  { ident := ident, state := .settled, holder := loc, gen := 0, insts := [Inst.new 0 loc], made := 1
    finalSent := false, rounds := [], made_ := [], early := [] }

/-- The home once it has recorded a new channel. -/
def State.withChan (s : State) (h : Nat) (e : Chan) : State := s.updHome h (fun q => { q with chans := q.chans ++ [e] })

theorem ChanStep.withChan (s : State) (h : Nat) (e : Chan) : ChanStep h s (s.withChan h e) :=
  ⟨.updHome .., by rw [State.withChan, State.homeAt_updHome_self]⟩

theorem State.withChan_chans (s : State) (h : Nat) (e : Chan) : ((s.withChan h e).homeAt h).chans = (s.homeAt h).chans ++ [e] := by
  rw [State.withChan, State.homeAt_updHome_self]

include hq hp hsrc in
theorem execChannelCreationRequest_records (hroom : (s.homeAt h).chans.length < 512) (hnew : s.entryAt h ident = none) :
    exec (.channelCreationRequest h) s = .next (((s.afterHead h rest).withChan h (newChan ident (locOf p.src.peer c))).post
      (.home h) p.src 0 (.chCreated ident true) 0 0) := by
  have hyes : ¬(512 ≤ (s.homeAt h).chans.length ∨ (s.entryAt h ident).isSome = true) := by simp [hnew, hroom]
  rw [exec_channelCreationRequest, execChannelCreationRequest, State.takeHome_head hq]
  dsimp only
  rw [hp, hsrc]
  exact if_neg hyes

theorem State.chans_afterHead (s : State) (h : Nat) (rest : List Packet) :
    ((s.afterHead h rest).homeAt h).chans = (s.homeAt h).chans :=
  (congrArg Home.chans (TookHead.taken s h rest).homeAt :)

end creation

/-! ### Instances (R174) -/

/-- The answer of a home to a request for an instance. -/
def State.answerInst (s : State) (h : Nat) (p : Packet) (ident : Word) (e : Chan) (n : Option Nat) : State :=
  s.post (.home h) p.src 0 (.instReply ident n e.gen (e.holder % 8192) (BitVec.ofNat 12 (e.holder / 8192))
    (decide (e.state = .closed))) p.slot p.gen

/-- The entry with its next instance. -/
def Chan.withInst (e : Chan) (loc : Nat) : Chan := { e with made := e.made + 1, insts := e.insts ++ [Inst.new e.made loc] }

theorem Chan.withInst_live (e : Chan) (loc : Nat) : (e.withInst loc).live ≠ [] := by
  simp [Chan.live, Chan.withInst, Inst.new]

section instances

variable {c : Nat} (hq : (s.homeAt h).q = p :: rest) (hp : p.body = .chInst ident c) (he : s.entryAt h ident = some e)

include hq hp he

theorem execInstanceAllocation_gives (hroom : e.live.length < 255) (hnew : e.inst e.made = none) :
    exec (.instanceAllocation h) s = .next (((s.afterHead h rest).setChan h (e.withInst (locOf p.src.peer c))).answerInst
      h p ident e (some e.made)) := by
  rw [exec_instanceAllocation, execInstanceAllocation, State.takeHome_head hq]
  dsimp only
  rw [hp]
  dsimp only
  rw [he]
  dsimp only
  have hlive := e.withInst_live (locOf p.src.peer c)
  rw [if_neg (Nat.not_le.mpr hroom), hnew, Option.isSome_none, if_neg Bool.false_ne_true, ← Chan.withInst,
    State.finalCheck_live _ h hlive]
  dsimp only
  rw [State.freeChan_live _ h (.inr hlive)]
  rfl

theorem execInstanceAllocation_full (hfull : 255 ≤ e.live.length) :
    exec (.instanceAllocation h) s = .next ((s.afterHead h rest).answerInst h p ident e none) := by
  rw [exec_instanceAllocation, execInstanceAllocation, State.takeHome_head hq]
  dsimp only
  rw [hp]
  dsimp only
  rw [he]
  exact if_pos hfull

end instances

/-! ### Ends in flight (R291, R296) -/

section moving

variable (hq : (s.homeAt h).q = p :: rest) (he : s.entryAt h ident = some e)

include hq he

theorem execMovingNotice_recv (hp : p.body = .moving ident none g) : exec (.movingNotice h) s =
    .next ((s.afterHead h rest).setChan h
      (if e.state ≠ .closed ∧ g = e.gen.toNat then { e with state := .carried } else e)) := by
  have hif : (if e.state = .closed ∨ e.gen.toNat ≠ g then e else { e with state := .carried }) =
      if e.state ≠ .closed ∧ g = e.gen.toNat then { e with state := .carried } else e := by
    by_cases hc : e.state ≠ .closed ∧ g = e.gen.toNat
    · rw [if_pos hc, if_neg fun hn => hn.elim hc.1 fun hg => hg hc.2.symm]
    · rw [if_neg hc, if_pos]
      exact or_iff_not_imp_left.mpr fun hs hg => hc ⟨hs, hg.symm⟩
  rw [exec_movingNotice, execMovingNotice, State.takeHome_head hq, ← hif]
  dsimp only
  rw [hp]
  dsimp only
  rw [he]

theorem execMovingNotice_inst (hp : p.body = .moving ident (some n) g) : exec (.movingNotice h) s =
    .next ((s.afterHead h rest).setChan h
      (e.updInst n (fun i => if i.landed < g then { i with holder := none, moved := g } else i))) := by
  rw [exec_movingNotice, execMovingNotice, State.takeHome_head hq]
  dsimp only
  rw [hp]
  dsimp only
  rw [he]

theorem execLandingNotice_recv (hp : p.body = .landing ident none loc g) (hs : e.state ≠ .closed) :
    exec (.landingNotice h) s = .next ((s.afterHead h rest).landings h ident (e.early.length + 1) loc g) := by
  rw [exec_landingNotice, execLandingNotice, State.takeHome_head hq]
  dsimp only
  rw [hp]
  dsimp only
  rw [he]
  dsimp only
  rw [if_neg hs]

theorem execLandingNotice_inst (hp : p.body = .landing ident (some n) loc g) :
    exec (.landingNotice h) s = .next ((s.afterHead h rest).landInst h e n loc g) := by
  rw [exec_landingNotice, execLandingNotice, State.takeHome_head hq]
  dsimp only
  rw [hp]
  dsimp only
  rw [he]

/-- The entry with the redirect round of a generation ended (R294). -/
def Chan.retire (e : Chan) (gen : BitVec 16) : Chan :=
  let rounds := e.rounds.filter (fun r => r.2 ≠ gen)
  { e with rounds := rounds, state := if rounds.isEmpty ∧ e.state = .redirecting then .settled else e.state }

theorem execStubRetirement_ends {gen : BitVec 16} (hp : p.body = .retired ident gen) :
    exec (.stubRetirement h) s = .next ((s.afterHead h rest).setChan h (e.retire gen)) := by
  rw [exec_stubRetirement, execStubRetirement, State.takeHome_head hq]
  dsimp only
  rw [hp]
  dsimp only
  rw [he]
  rfl

end moving

theorem Chan.retire_state {gen : BitVec 16} (hs : e.state = .redirecting) :
    (e.retire gen).state = if (e.retire gen).rounds = [] then .settled else .redirecting := by
  simp only [Chan.retire, List.isEmpty_iff, hs, and_true]

/-! ### Landings of the receive end (R292) -/

theorem State.landings_early (he : s.entryAt h ident = some e) (fuel : Nat) (hg : g ≠ (e.gen + 1).toNat) :
    s.landings h ident (fuel + 1) loc g = s.setChan h { e with early := e.early ++ [(loc, g)] } := by
  rw [State.landings, he]
  exact if_pos hg

theorem State.landings_next (he : s.entryAt h ident = some e) (fuel : Nat) (hearly : e.early = []) :
    s.landings h ident (fuel + 1) loc (e.gen + 1).toNat = s.landRecv h e loc := by
  rw [State.landings, he]
  dsimp only
  rw [if_neg (not_not.mpr rfl), hearly]
  rfl

/-- The holders of the instances are told the new holder of the receive end. -/
def State.redirected (s : State) (h : Nat) (e : Chan) (loc : Nat) : State :=
  e.held.foldl (fun s i => s.tell h (i.holder.getD 0) (.redirect e.ident i.num loc (e.gen + 1))) s

/-- The entry once its receive end has landed. -/
def Chan.landedAt (e : Chan) (loc : Nat) : Chan :=
  { e with
    state := .redirecting, holder := loc, gen := e.gen + 1
    insts := e.insts.map (fun i => if i.closed ∨ i.holder.isSome then i else { i with owes := i.owes ++ [(loc, e.gen + 1)] })
    rounds := e.rounds ++ [(e.holder, e.gen)], made_ := AMap.set e.made_ (e.gen + 1).toNat e.made }

theorem State.landRecv_tells (s : State) (h : Nat) (e : Chan) (loc : Nat) : ∃ insts, s.landRecv h e loc =
    ((s.redirected h e loc).setChan h (e.landedAt loc)).tellStub h (e.landedAt loc) (e.holder, e.gen) (loc, e.gen + 1) insts :=
  ⟨_, rfl⟩

/-- After a landing the entry names the new holder, and every holder of an instance has been told. -/
theorem State.landRecv_lands (he : s.entryAt h ident = some e) (loc : Nat) :
    ChanStep h s (s.landRecv h e loc) ∧ (s.landRecv h e loc).entryAt h ident = some (e.landedAt loc) ∧
      ∀ i ∈ e.live, ∀ x, i.holder = some x → queued (s.landRecv h e loc)
        { src := s.here (.home h), dst := locPlace x, cls := 0 } (.redirect ident i.num loc (e.gen + 1)) := by
  have hid := State.entryAt_ident he
  obtain ⟨insts, hl⟩ := s.landRecv_tells h e loc
  have hnet : NetSide s (s.redirected h e loc) := .foldl (fun _ _ => .tell ..) ..
  rw [hl]
  refine ⟨(hnet.chanStep.trans (.setChan ..)).trans (NetSide.tellStub ..).chanStep, ?_, fun i hi x hx => ?_⟩
  · rw [(NetSide.tellStub ..).entryAt]
    exact State.entryAt_setChan ((hnet.entryAt h ident).trans he) hid
  · rw [← hid]
    have htold := State.tellHeld_queued (u := s) rfl h (fun i => .redirect e.ident i.num loc (e.gen + 1)) hi hx
    exact (htold.of_net (t := (s.redirected h e loc).setChan h (e.landedAt loc)) rfl).tellStub ..

/-! ### Landings of a send end (R296) -/

/-- An instance that has landed with its move `g` at the place `loc`. -/
def Inst.landedAt (i : Inst) (loc g : Nat) : Inst := { i with holder := some loc, owes := [], credits := 0, dead := false, landed := g }

/-- The entry once an instance has landed. -/
def Chan.instLanded (e : Chan) (n loc g : Nat) : Chan :=
  (e.updInst n (fun i => { i with landed := g })).updInst n
    (fun i => { i with holder := some loc, owes := [], credits := 0, dead := false })

theorem Chan.instLanded_inst (hi : e.inst n = some i) (loc g : Nat) : (e.instLanded n loc g).inst n = some (i.landedAt loc g) := by
  have hmoved := e.inst_updInst n (f := fun i => { i with landed := g }) fun _ => rfl
  have hlanded := (e.updInst n (fun i => { i with landed := g })).inst_updInst n
    (f := fun i => { i with holder := some loc, owes := [], credits := 0, dead := false }) fun _ => rfl
  rw [Chan.instLanded, hlanded, hmoved, hi]
  rfl

/-- What waited for the landing of an instance follows it: redirects, word to their stubs, credits. -/
def State.sendOwed (s : State) (h : Nat) (e d : Chan) (n loc : Nat) (i : Inst) : State :=
  (List.range i.credits).foldl (fun s _ => s.tell h loc (.credit e.ident n))
    ((i.owes.foldl (fun s o => s.tell h loc (.redirect e.ident n o.1 o.2)) s).tellRounds h e d n i.owes)

theorem NetSide.sendOwed (s : State) (h : Nat) (e d : Chan) (n loc : Nat) (i : Inst) : NetSide s (s.sendOwed h e d n loc i) :=
  .trans (.trans (.foldl (fun _ _ => .tell ..) ..) (.tellRounds ..)) (.foldl (fun _ _ => .tell ..) ..)

/-- An instance that has not moved on lands, and what waited for it is sent. -/
theorem State.landInst_lands (hi : e.inst n = some i) (hc : i.closed = false) (hl : i.landed < g) (hm : i.moved ≤ g) (s : State)
    (h loc : Nat) : NetSide (s.setChan h (e.instLanded n loc g)) (s.landInst h e n loc g) := by
  have hopen : ¬(i.closed = true ∨ g < i.moved) := by simp [hc, hm]
  rw [State.landInst, hi]
  dsimp only
  rw [if_neg (Nat.not_le.mpr hl), if_neg hopen]
  have howed := NetSide.sendOwed (s.setChan h (e.instLanded n loc g)) h (e.updInst n (fun i => { i with landed := g }))
    (e.instLanded n loc g) n loc i
  split
  · exact howed.trans (.tell ..)
  · exact howed

/-- Settles O42. -/
theorem channelHomesRecordCreationsAndMoves : Obligations.channel_homes_record_creations_and_moves := by
  intro s h p rest hq back runs
  have hrun {i : Instr} {t : State} {post : State → Prop} (hi : exec i s = .next t) (ht : ChanStep h (s.afterHead h rest) t)
      (hpost : post t) : runs i post := ⟨t, hi, ht.ofHead.1, ht.ofHead.2, hpost⟩
  refine ⟨fun ident c c0 hp hsrc => ⟨fun hroom hnew => ?_, fun hno => ?_⟩, fun ident e he => ?_⟩
  · refine hrun (execChannelCreationRequest_records hq hp hsrc hroom hnew) ((ChanStep.withChan ..).trans (NetSide.post ..).chanStep)
      ⟨⟨newChan ident (locOf p.src.peer c), ?_, rfl, rfl, rfl, rfl, rfl, rfl⟩, State.post_lastIs ..⟩
    exact (State.withChan_chans ..).trans (congrArg (· ++ [_]) (s.chans_afterHead h rest))
  · exact hrun (execChannelCreationRequest_refuses hq hp hsrc hno) (NetSide.post ..).chanStep
      ⟨s.chans_afterHead h rest, State.post_lastIs ..⟩
  · have he' := (s.entryAt_afterHead h rest ident).trans he
    have hid := State.entryAt_ident he
    have hset {d : Chan} (hd : d.ident = ident) : ((s.afterHead h rest).setChan h d).entryAt h ident = some d :=
      State.entryAt_setChan he' hd
    refine ⟨fun c hp hroom hnew => ?_, fun c hp hfull => ?_, fun g hp => ?_, fun n g hp => ?_, fun loc g hp hs hg => ?_,
      fun loc hp hs hearly => ?_, fun n i loc g hp hi hc hl hm => ?_, fun g hp => ?_⟩
    · exact hrun (execInstanceAllocation_gives hq hp he hroom hnew) ((ChanStep.setChan ..).trans (NetSide.post ..).chanStep)
        ⟨hset hid, State.post_lastIs ..⟩
    · obtain ⟨r, hr, hb⟩ := State.post_lastIs (s.afterHead h rest) (.home h) p.src 0 (.instReply ident none e.gen (e.holder % 8192)
        (BitVec.ofNat 12 (e.holder / 8192)) (decide (e.state = .closed))) p.slot p.gen
      exact ⟨_, execInstanceAllocation_full hq hp he hfull, he', r, hr, _, _, _, _, hb⟩
    · refine hrun (execMovingNotice_recv hq he hp) (.setChan ..) (hset ?_)
      split
      · exact hid
      · exact hid
    · exact hrun (execMovingNotice_inst hq he hp) (.setChan ..) (hset hid)
    · have hexec := execLandingNotice_recv hq he hp hs
      rw [State.landings_early he' _ hg] at hexec
      exact hrun hexec (.setChan ..) (hset hid)
    · have hexec := execLandingNotice_recv hq he hp hs
      rw [State.landings_next he' _ hearly] at hexec
      obtain ⟨hstep, hentry, htold⟩ := State.landRecv_lands he' loc
      exact hrun hexec hstep ⟨⟨_, hentry, rfl, rfl, rfl, rfl⟩, htold⟩
    · have hnet := State.landInst_lands hi hc hl hm (s.afterHead h rest) h loc
      exact hrun (execLandingNotice_inst hq he hp) ((ChanStep.setChan ..).trans hnet.chanStep)
        ⟨_, (hnet.entryAt h ident).trans (hset hid), Chan.instLanded_inst hi loc g⟩
    · exact hrun (execStubRetirement_ends hq he hp) (.setChan ..) ⟨_, hset hid, rfl, Chan.retire_state⟩

end Sys2Proof.Machine
end

