-- ==== Sys2Proof/Proofs/HolderNotices.lean ====
section
/-! PROOFS. For O45: what credits, closures, redirects, final notices and handovers do at the core that holds the end (R179, R186,
R187, R293, R295). -/

namespace Sys2Proof.Machine

open Sys2Proof Sys2Proof.Safety

variable {s t u : State} {c inst : Nat} {k : PairKey} {ident : Word} {x : Handle}

theorem exec_redirect (k : PairKey) (s : State) : exec (.redirect k) s = execRedirect k s := rfl
theorem exec_creditReturn (k : PairKey) (s : State) : exec (.creditReturn k) s = execCreditReturn k s := rfl
theorem exec_peerClosedNotice (k : PairKey) (s : State) : exec (.peerClosedNotice k) s = execPeerClosedNotice k s := rfl
theorem exec_finalNotice (k : PairKey) (s : State) : exec (.finalNotice k) s = execFinalNotice k s := rfl
theorem exec_handoverMarker (k : PairKey) (s : State) : exec (.handoverMarker k) s = execHandoverMarker k s := rfl

/-! ### Notices for an instance that is here (R179, R187, R293) -/

theorem agent_of_heads {a : Agent} {b : Body} (hh : heads s k a b) : k.dst.agent = a := congrArg Place.agent hh.1
theorem peer_of_heads {a : Agent} {b : Body} (hh : heads s k a b) : k.dst.peer = s.part.peer := congrArg Place.peer hh.1

theorem State.updSend_core (hc : c ≠ eqxCore) (s : State) (ident : Word) (inst : Nat) (f : Handle → Handle) :
    s.updSend (.core c) ident inst f = s.updInst c ident inst f := if_neg hc

/-- At the core that holds the instance the notice acts. -/
theorem State.notice_held (hc : c ≠ eqxCore) (hx : s.instAt c ident inst = some x) {b : Body} (hh : heads s k (.core c) b)
    (name : String) (d : Body) (f : State → Handle → State) (keep : Inst → Inst) :
    s.notice name k d ident inst f keep = .next (f (s.popNet k) x) := by
  have hsend : (s.popNet k).sendAt (.core c) ident inst = some x := (if_neg hc).trans hx
  rw [State.notice, if_neg (not_not.mpr (peer_of_heads hh)), State.followNotice, agent_of_heads hh]
  dsimp only
  rw [hsend]

section held

variable (hc : c ≠ eqxCore) (hx : s.instAt c ident inst = some x)

include hc hx

theorem execCreditReturn_held (hh : heads s k (.core c) (.credit ident inst)) : exec (.creditReturn k) s =
    .next ((s.popNet k).updInst c ident inst (fun h => { h with credits := min 64 (h.credits + 1) })) := by
  obtain ⟨-, p, hp, hb⟩ := id hh
  rw [exec_creditReturn, execCreditReturn, hp]
  dsimp only
  rw [hb]
  dsimp only
  rw [State.notice_held hc hx hh, agent_of_heads hh, State.updSend_core hc]

theorem execPeerClosedNotice_held (hh : heads s k (.core c) (.peerClosed ident inst)) : exec (.peerClosedNotice k) s =
    .next ((s.popNet k).updInst c ident inst (fun h => { h with dead := true })) := by
  obtain ⟨-, p, hp, hb⟩ := id hh
  rw [exec_peerClosedNotice, execPeerClosedNotice, hp]
  dsimp only
  rw [hb]
  dsimp only
  rw [State.notice_held hc hx hh, agent_of_heads hh, State.updSend_core hc]

variable {loc : Nat} {g : BitVec 16} (hh : heads s k (.core c) (.redirect ident inst loc g))

include hh

/-- A redirect of another generation than the next goes back to the channel home. -/
theorem execRedirect_returns (hg : g ≠ x.gen + 1) : exec (.redirect k) s =
    .next ((s.popNet k).post (.core c) (s.chanHome (s.noticeHome ident k) ident) 0 (.redirect ident inst loc g) 0 0) := by
  obtain ⟨-, p, hp, hb⟩ := id hh
  rw [exec_redirect, execRedirect, hp]
  dsimp only
  rw [hb]
  dsimp only
  rw [State.notice_held hc hx hh, if_pos hg, agent_of_heads hh]
  rfl

/-- A redirect of the next generation sends the fence to the old holder and points the handle at the new one. -/
theorem execRedirect_follows (hg : g = x.gen + 1) : exec (.redirect k) s =
    .next (((s.popNet k).post (.core c) (locPlace (locOf x.locPeer x.loc)) 0 (.fence ident inst x.gen ((x.seq : Int) - 1)) 0 0).updInst
      c ident inst (fun h => { h with gen := g, loc := loc % 8192, locPeer := BitVec.ofNat 12 (loc / 8192) })) := by
  obtain ⟨-, p, hp, hb⟩ := id hh
  rw [exec_redirect, execRedirect, hp]
  dsimp only
  rw [hb]
  dsimp only
  rw [State.notice_held hc hx hh, if_neg (not_not.mpr hg), agent_of_heads hh, State.updSend_core hc]

end held

/-! ### Final notices (R186) -/

/-- The ends of a core with a final notice kept. -/
def keepFinal (ident : Word) (n : Nat) (l : List RecvEnd) : List RecvEnd :=
  l.map (fun e => if e.ident = ident then { e with final := some n } else e)

theorem execFinalNotice_kept {n : Nat} (hh : heads s k (.core c) (.final ident n))
    (hany : (s.coreAt c).ends.any (fun e => e.ident = ident) = true) : exec (.finalNotice k) s =
    .next (((s.popNet k).updCore c (fun q => { q with ends := keepFinal ident n q.ends })).settle c ident) := by
  obtain ⟨-, p, hp, hb⟩ := id hh
  rw [exec_finalNotice, execFinalNotice, agent_of_heads hh, hp]
  dsimp only
  rw [hb]
  dsimp only
  rw [if_neg (not_not.mpr (peer_of_heads hh)), if_pos hany]
  rfl

/-- An end of this channel that has been told how many instances there were. -/
def knowsFinal (ident : Word) (n : Nat) (k : Core) : Prop := ∃ e ∈ k.ends, e.ident = ident ∧ e.final = some n

/-- A change of the ends that keeps what they are and their final notices. -/
theorem knowsFinal.map {n : Nat} {q r : Core} (h : knowsFinal ident n q) {f : RecvEnd → RecvEnd} (hr : r.ends = q.ends.map f)
    (hf : ∀ e, (f e).ident = e.ident ∧ (f e).final = e.final) : knowsFinal ident n r := by
  obtain ⟨e, he, hident, hfinal⟩ := h
  obtain ⟨h1, h2⟩ := hf e
  exact ⟨f e, hr ▸ List.mem_map_of_mem he, h1.trans hident, h2.trans hfinal⟩

theorem State.closure_knowsFinal {n : Nat} {id : Word} (h : knowsFinal ident n (s.coreAt c)) :
    knowsFinal ident n ((s.closure c id).coreAt c) := by
  unfold State.closure
  dsimp only
  split
  · exact h
  · split
    · rw [State.coreAt_release, State.coreAt_updCore_self]
      obtain ⟨j, x, hput⟩ := Core.putItem_only _ 0 _
      rw [hput]
      exact h.map rfl fun e => by split <;> exact ⟨rfl, rfl⟩
    · exact h

theorem State.settle_knowsFinal {n : Nat} {id : Word} (h : knowsFinal ident n (s.coreAt c)) :
    knowsFinal ident n ((s.settle c id).coreAt c) := by
  unfold State.settle
  dsimp only
  refine State.closure_knowsFinal ?_
  rw [State.coreAt_updCore_self]
  exact h.map rfl fun e => by split <;> exact ⟨rfl, rfl⟩

theorem knowsFinal_keepFinal (n : Nat) {q : Core} (hany : q.ends.any (fun e => e.ident = ident) = true) :
    knowsFinal ident n { q with ends := keepFinal ident n q.ends } := by
  obtain ⟨e, he, hident⟩ := List.any_eq_true.mp hany
  have hident : e.ident = ident := by simpa using hident
  exact ⟨{ e with final := some n }, List.mem_map.mpr ⟨e, he, if_pos hident⟩, hident, rfl⟩

/-- A final notice is kept at the receive end. -/
theorem final_at_end {n : Nat} (hh : heads s k (.core c) (.final ident n))
    (hany : (s.coreAt c).ends.any (fun e => e.ident = ident) = true) :
    ∃ t, exec (.finalNotice k) s = .next t ∧ sameMemory s t ∧ knowsFinal ident n (t.coreAt c) := by
  refine ⟨_, execFinalNotice_kept hh hany, ((CoreSide.popNet ..).trans ((CoreSide.updCore ..).trans (.settle ..))).sameMemory, ?_⟩
  refine State.settle_knowsFinal ?_
  rw [State.coreAt_updCore_self]
  exact knowsFinal_keepFinal n hany

/-! ### Handovers at the new holder (R295) -/

/-- An area whose handover has come. -/
def Area.released (a : Area) (start seg : Nat) (closed : Bool) : Area :=
  { a with next := start, seg := seg, closed := closed, waiting := false }

/-- Where every area of an instance waits for its handover, one of them, or a new one, is released by it. -/
theorem mem_handArea {l : List Area} (hw : ∀ a ∈ l, isArea ident inst a = true → a.waiting = true) (start seg : Nat) (closed : Bool) :
    ∃ a, (a ∈ l ∨ a.held = []) ∧ isArea ident inst a = true ∧
      a.released start seg closed ∈ handArea ident inst start seg closed l := by
  have hput {l' : List Area} {a : Area} (ha : a ∈ l') (hi : isArea ident inst a = true) (hwait : a.waiting = true) :
      a.released start seg closed ∈ mapWhere (isArea ident inst) (fun a =>
        if a.waiting then { a with next := start, seg := seg, closed := closed, waiting := false } else a) l' :=
    List.mem_map.mpr ⟨a, ha, (if_pos hi).trans (if_pos hwait)⟩
  unfold handArea
  dsimp only
  split
  · next hany =>
    obtain ⟨a, ha, hi⟩ := List.any_eq_true.mp hany
    exact ⟨a, .inl ha, hi, hput ha hi (hw a ha hi)⟩
  · have hi : isArea ident inst (newArea ident inst true) = true := by simp [isArea, newArea]
    exact ⟨newArea ident inst true, .inr rfl, hi, hput (List.mem_append_right _ List.mem_cons_self) hi rfl⟩

/-- Settling moves an area on in its sequence, and on only. -/
theorem Area.settle_advances (fuel : Nat) (a : Area) :
    (a.settle fuel).1.ident = a.ident ∧ (a.settle fuel).1.inst = a.inst ∧ (a.settle fuel).1.waiting = a.waiting ∧
      a.next ≤ (a.settle fuel).1.next := by
  have hstay : a.ident = a.ident ∧ a.inst = a.inst ∧ a.waiting = a.waiting ∧ a.next ≤ a.next := ⟨rfl, rfl, rfl, Nat.le_refl _⟩
  induction fuel generalizing a with
  | zero => exact hstay
  | succ fuel ih =>
    have hmore (b : Area) (hb : b.ident = a.ident ∧ b.inst = a.inst ∧ b.waiting = a.waiting ∧ b.next = a.next + 1) :
        (b.settle fuel).1.ident = a.ident ∧ (b.settle fuel).1.inst = a.inst ∧ (b.settle fuel).1.waiting = a.waiting ∧
          a.next ≤ (b.settle fuel).1.next := by
      obtain ⟨h1, h2, h3, h4⟩ := hb
      obtain ⟨g1, g2, g3, g4⟩ := ih b ⟨rfl, rfl, rfl, Nat.le_refl _⟩
      exact ⟨g1.trans h1, g2.trans h2, g3.trans h3, by omega⟩
    unfold Area.settle
    split
    · exact hstay
    · split
      · exact hstay
      · split
        · exact hmore _ ⟨rfl, rfl, rfl, rfl⟩
        · exact hmore _ ⟨rfl, rfl, rfl, rfl⟩
        · exact hstay

/-- What is taken out of a list was in it. -/
theorem mem_takeFirst {α : Type} {p : α → Bool} {l r : List α} {a : α} (h : takeFirst p l = some (a, r)) : a ∈ l := by
  induction l generalizing r with
  | nil => cases h
  | cons y t ih =>
    unfold takeFirst at h
    split at h
    · cases h
      exact List.mem_cons_self
    · obtain ⟨⟨b, q⟩, hb, he⟩ := Option.map_eq_some_iff.mp h
      cases he
      exact List.mem_cons_of_mem _ (ih hb)

/-- An area that holds data messages only settles as it is. -/
theorem Area.settle_of_data (fuel : Nat) {a : Area} (hd : ∀ m ∈ a.held, m.kind = .data) : (a.settle fuel).1 = a := by
  cases fuel with
  | zero => rfl
  | succ fuel =>
    unfold Area.settle
    split
    · rfl
    · split
      · rfl
      · next m r hm =>
        have hk := hd m (mem_takeFirst hm)
        rw [hk]

theorem execHandoverMarker_held {g : BitVec 16} {start seg closes : Nat} {closed : Bool}
    (hh : heads s k (.core c) (.handover ident inst g start seg closed closes)) (hi : inst ≠ countOnly)
    (hany : (s.coreAt c).ends.any (fun e => decide (e.ident = ident) && decide (e.gen = g)) = true) : exec (.handoverMarker k) s =
    .next (((s.popNet k).updCore c (fun q => { q with areas := handArea ident inst start seg closed q.areas })).settle c ident) := by
  obtain ⟨-, p, hp, hb⟩ := id hh
  rw [exec_handoverMarker, execHandoverMarker, agent_of_heads hh, hp]
  dsimp only
  rw [hb]
  dsimp only
  rw [if_neg (not_not.mpr (peer_of_heads hh)), if_pos hany, decide_eq_false hi]
  rfl

/-- A handover lets an instance that waits for it be released from the sequence that it names. -/
theorem handover_at_end {g : BitVec 16} {start seg closes : Nat} {closed : Bool}
    (hh : heads s k (.core c) (.handover ident inst g start seg closed closes)) (hi : inst ≠ countOnly)
    (hany : (s.coreAt c).ends.any (fun e => decide (e.ident = ident) && decide (e.gen = g)) = true)
    (hw : ∀ a ∈ (s.coreAt c).areas, isArea ident inst a = true → a.waiting = true) :
    ∃ t, exec (.handoverMarker k) s = .next t ∧ sameMemory s t ∧
      ∃ a ∈ (t.coreAt c).areas, isArea ident inst a = true ∧ a.waiting = false ∧ start ≤ a.next ∧
        ((∀ b ∈ (s.coreAt c).areas, isArea ident inst b = true → ∀ m ∈ b.held, m.kind = .data) → a.next = start ∧ a.seg = seg) := by
  refine ⟨_, execHandoverMarker_held hh hi hany, ((CoreSide.popNet ..).trans ((CoreSide.updCore ..).trans (.settle ..))).sameMemory, ?_⟩
  obtain ⟨a, hfrom, ha, hmem⟩ := mem_handArea hw start seg closed
  obtain ⟨⟨j, y, e, hcore⟩, -⟩ := State.settle_only ((s.popNet k).updCore c (fun q =>
    { q with areas := handArea ident inst start seg closed q.areas })) c ident
  have hident : a.ident = ident := by
    simp only [isArea, Bool.and_eq_true, decide_eq_true_eq] at ha
    exact ha.1
  have hsettled : (a.released start seg closed).settledFor ident = ((a.released start seg closed).settle (a.held.length + 1)).1 :=
    if_pos hident
  obtain ⟨h1, h2, h3, h4⟩ := (a.released start seg closed).settle_advances (a.held.length + 1)
  rw [hcore, State.coreAt_updCore_self]
  refine ⟨_, List.mem_map_of_mem hmem, ?_⟩
  rw [hsettled]
  refine ⟨?_, h3, h4, fun hdata => ?_⟩
  · rw [isArea, h1, h2]
    exact ha
  · have hheld : ∀ m ∈ (a.released start seg closed).held, m.kind = .data :=
      hfrom.elim (fun hin => hdata a hin ha) fun hnil m hm => absurd (hnil ▸ hm) List.not_mem_nil
    rw [Area.settle_of_data _ hheld]
    exact ⟨rfl, rfl⟩

end Sys2Proof.Machine
end

