-- ==== Sys2Proof/Proofs/StubHandovers.lean ====
section
/-! PROOFS. O45: the stub of an end that has moved on forwards, learns fences, hands its instances over and retires (R290, R292,
R294, R295). -/

namespace Sys2Proof.Machine

open Sys2Proof Sys2Proof.Safety

variable {s t u v : State} {c inst : Nat} {k : PairKey} {ident : Word} {gen : BitVec 16} {st : Stub} {d : Nat × BitVec 16}

theorem exec_stubForward (c : Nat) (ident : Word) (gen : BitVec 16) (s : State) :
    exec (.stubForward c ident gen) s = execStubForward c ident gen s := rfl
theorem exec_fenceMarker (k : PairKey) (s : State) : exec (.fenceMarker k) s = execFenceMarker k s := rfl

/-! ### Steps of a core that only send -/

/-- A step of a core on its ends and stubs: memory stays, and what is in a pair queue stays there, ahead of what it sends. -/
def StubStep (s t : State) : Prop := CoreSide s t ∧ ∀ k, netGet s.mach.net k <+: netGet t.mach.net k

theorem StubStep.refl (s : State) : StubStep s s := ⟨.refl s, fun _ => List.prefix_rfl⟩
theorem StubStep.trans (h : StubStep s t) (g : StubStep t u) : StubStep s u := ⟨h.1.trans g.1, fun k => (h.2 k).trans (g.2 k)⟩
theorem StubStep.sameMemory (h : StubStep s t) : sameMemory s t := h.1.sameMemory
theorem StubStep.part (h : StubStep s t) : t.part = s.part := h.1.part
theorem StubStep.setCore (s : State) (c : Nat) (q : Core) : StubStep s (s.setCore c q) := ⟨.setCore .., fun _ => List.prefix_rfl⟩
theorem StubStep.updCore (s : State) (c : Nat) (f : Core → Core) : StubStep s (s.updCore c f) := ⟨.updCore .., fun _ => List.prefix_rfl⟩

theorem StubStep.post (s : State) (a : Agent) (d n b i g) : StubStep s (s.post a d n b i g) := by
  refine ⟨.post .., fun k => ?_⟩
  rw [State.post, State.append]
  by_cases e : k = { src := s.here a, dst := d, cls := n }
  · subst e
    rw [netGet_append]
    exact List.prefix_append ..
  · rw [netGet_netSet_other _ _ e]

/-- The home of a channel is the same after it. -/
theorem StubStep.chanHome (h : StubStep s t) (p : Peer) (ident : Word) : t.chanHome p ident = s.chanHome p ident :=
  congrArg (·.chanHome p ident) h.1

theorem queued.step {b : Body} (hk : queued s k b) (h : StubStep s t) : queued t k b := by
  obtain ⟨r, hr, hb⟩ := hk
  exact ⟨r, (h.2 k).subset hr, hb⟩

/-- What such a step sends is behind all that was there. -/
theorem StubStep.sentOn_post (h : StubStep s u) (a : Agent) (d : Place) (n : Nat) (b : Body) (i : Nat) (g : BitVec 16) :
    sentOn s (u.post a d n b i g) { src := s.here a, dst := d, cls := n } b := by
  obtain ⟨new, hnew⟩ := h.2 { src := s.here a, dst := d, cls := n }
  refine ⟨new ++ [{ body := b, src := u.here a, job := u.job.tag, slot := i, gen := g }], ?_, by simp⟩
  rw [State.post, State.append, State.here_congr h.part, netGet_append, ← hnew, List.append_assoc]

theorem sentOn.step {b : Body} (hs : sentOn s t k b) (h : StubStep t u) : sentOn s u k b := by
  obtain ⟨new, hnew, hb⟩ := hs
  obtain ⟨more, hmore⟩ := h.2 k
  exact ⟨new ++ more, by rw [← hmore, hnew, List.append_assoc], by simp [List.map_append, hb]⟩

/-! ### A message withdrawn from the inbox (R294) -/

/-- A message of an instance, released at the old holder and not taken. -/
def Stub.mine (t : Stub) (inst : Nat) : InItem → Bool
  | .chan m _ _ _ => decide (m.ident = t.ident) && decide (m.gen = t.gen) && decide (m.inst = inst) && m.kind != .closure
  | _ => false

/-- What is withdrawn depends on the class queues and the overflow area alone. -/
theorem Core.withdraw_congr {q r : Core} (hq : r.inq = q.inq) (hs : r.spill = q.spill) (p : InItem → Bool) :
    (r.withdraw p).map (·.1) = (q.withdraw p).map (·.1) := by
  have hcls (k : Core) (hk : k.inq = q.inq) : (Option.map (·.1) ∘ fun cls => k.takeItem cls p) =
      fun cls => (takeFirst p ((AMap.get q.inq cls).getD [])).map (·.1) := by
    funext cls
    rw [Function.comp_apply, Core.takeItem, Core.queue, hk, Option.map_map]
    rfl
  have hboth (k : Core) (hi : k.inq = q.inq) (hp : k.spill = q.spill) : (k.withdraw p).map (·.1) =
      match [0, 1, 2, 3].findSome? (fun cls => (takeFirst p ((AMap.get q.inq cls).getD [])).map (·.1)) with
      | some i => some i
      | none => (takeFirst (fun (e : Nat × InItem) => p e.2) q.spill).map (·.1.2) := by
    rw [← hcls k hi, ← List.map_findSome?, Core.withdraw, hp]
    cases [0, 1, 2, 3].findSome? (fun cls => k.takeItem cls p) with
    | some r => rfl
    | none => simp [Option.map_map, Function.comp_def]
  rw [hboth r hq hs, hboth q rfl rfl]

theorem Core.withdraw_only {q r : Core} {p : InItem → Bool} {i : InItem} (h : q.withdraw p = some (i, r)) :
    ∃ j x, r = { q with inq := j, spill := x } := by
  unfold Core.withdraw at h
  split at h
  · next y hy =>
    obtain ⟨cls, -, hcls⟩ := List.exists_of_findSome?_eq_some hy
    cases h
    exact Core.takeItem_only hcls
  · obtain ⟨⟨e, x⟩, -, he⟩ := Option.map_eq_some_iff.mp h
    cases he
    exact ⟨_, _, rfl⟩

/-! ### Handing an instance over (R294, R295) -/

/-- The reorder area of an instance that a stub hands over. -/
def Stub.area (t : Stub) (inst : Nat) : Area := (t.areas.find? (fun a => a.inst = inst)).getD (newArea t.ident inst false)

/-- The state of an old holder once a message that still waited there has been withdrawn and forwarded, with the sequence at which
the new holder starts. -/
def State.withdrawn (s : State) (c : Nat) (t : Stub) (d : Nat × BitVec 16) (inst : Nat) : State × Nat :=
  match (s.coreAt c).withdraw (t.mine inst) with
  | some (.chan m _ _ _, q) => ((s.setCore c { q with withdrewAt := some s.now }).forwardMsg c d m, m.seq)
  | _ => (s, (t.area inst).next)

theorem State.handOver_marker (s : State) (c : Nat) (t : Stub) (d : Nat × BitVec 16) (inst : Nat) : s.handOver c t d inst =
    ((s.withdrawn c t d inst).1.post (.core c) (locPlace d.1) 0
      (.handover t.ident inst d.2 (s.withdrawn c t d inst).2 (t.area inst).seg (t.area inst).closed t.closes) 0 0,
      { t with handed := t.handed ++ [inst] }) := by
  rfl

theorem StubStep.withdrawn (s : State) (c : Nat) (t : Stub) (d : Nat × BitVec 16) (inst : Nat) :
    StubStep s (s.withdrawn c t d inst).1 := by
  unfold State.withdrawn
  split
  · exact (StubStep.setCore ..).trans (.post ..)
  · exact .refl s

theorem StubStep.handOver (s : State) (c : Nat) (t : Stub) (d : Nat × BitVec 16) (inst : Nat) : StubStep s (s.handOver c t d inst).1 := by
  rw [State.handOver_marker]
  exact (StubStep.withdrawn ..).trans (.post ..)

theorem StubStep.handOvers (c : Nat) (d : Nat × BitVec 16) (l : List Nat) (x : State × Stub) :
    StubStep x.1 (l.foldl (fun x i => x.1.handOver c x.2 d i) x).1 := by
  induction l generalizing x with
  | nil => exact .refl _
  | cons i r ih => exact (StubStep.handOver x.1 c x.2 d i).trans (ih _)

theorem StubStep.stubCheck (s : State) (c : Nat) (ident : Word) (gen : BitVec 16) : StubStep s (s.stubCheck c ident gen) := by
  unfold State.stubCheck
  split
  · exact .refl s
  · split
    · exact .refl s
    · dsimp only
      split
      · exact (StubStep.handOvers ..).trans ((StubStep.updCore ..).trans (.post ..))
      · exact (StubStep.handOvers ..).trans (.updCore ..)

/-- Withdrawing leaves the stubs of the core. -/
theorem State.withdrawn_stubs (s : State) (c : Nat) (t : Stub) (d : Nat × BitVec 16) (inst : Nat) :
    ((s.withdrawn c t d inst).1.coreAt c).stubs = (s.coreAt c).stubs := by
  unfold State.withdrawn
  split
  · next m x1 x2 x3 q hw =>
    obtain ⟨j, x, rfl⟩ := Core.withdraw_only hw
    rw [State.forwardMsg, State.coreAt_post, State.coreAt_setCore_self]
  · rfl

/-! ### The stub of one instance retires -/

/-- A stub that the home has told everything of its one instance, all of whose stream it accounts for. -/
structure Stub.Last (t : Stub) (d : Nat × BitVec 16) (inst : Nat) (f : Int) : Prop where
  dest : t.dest = some d
  named : t.named = [inst]
  allNamed : t.allNamed = true
  msgs : t.msgs = []
  handed : t.handed = []
  areas : ∀ a ∈ t.areas, a.inst = inst
  fence : (inst, f) ∈ t.fences
  accounted : t.accounted inst f = true
  has : t.has inst = true

variable {f : Int}

theorem Stub.Last.mayHand (h : st.Last d inst f) : st.mayHand inst = true := by
  have hfence : st.fences.any (fun f => f.1 = inst && st.accounted inst f.2) = true :=
    List.any_eq_true.mpr ⟨(inst, f), h.fence, by simp [h.accounted]⟩
  simp [Stub.mayHand, h.handed, hfence, h.msgs, h.has]

/-- The one instance is all that it hands over. -/
theorem Stub.Last.due (h : st.Last d inst f) :
    (st.named ++ (st.areas.map (·.inst)).filter (fun i => !st.named.contains i)).filter st.mayHand = [inst] := by
  have hnone : (st.areas.map (·.inst)).filter (fun i => !st.named.contains i) = [] := by
    simpa [h.named] using h.areas
  rw [hnone, h.named]
  simp [h.mayHand]

theorem Stub.Last.area (h : st.Last d inst f) : st.area inst = st.areas.head?.getD (newArea st.ident inst false) := by
  have hareas := h.areas
  unfold Stub.area
  cases hl : st.areas with
  | nil => rfl
  | cons a r => simp [hareas a (hl ▸ List.mem_cons_self)]

/-- The state in which a stub has handed its one instance over, and is gone. -/
def State.handedOver (s : State) (c : Nat) (t : Stub) (d : Nat × BitVec 16) (inst : Nat) : State :=
  (s.handOver c t d inst).1.updCore c (fun q => { q with stubs := (s.coreAt c).stubs.filter (fun u => !isStub t.ident t.gen u) })

/-- It hands the instance over and retires. -/
theorem State.stubCheck_last (hfind : (s.coreAt c).stubs.find? (isStub ident gen) = some st) (h : st.Last d inst f) :
    s.stubCheck c ident gen =
      (s.handedOver c st d inst).post (.core c) (s.chanHome st.home ident) 0 (.retired ident gen) 0 0 := by
  have hid : st.ident = ident ∧ st.gen = gen := by simpa [isStub] using List.find?_some hfind
  have hstubs : ((s.handOver c st d inst).1.coreAt c).stubs = (s.coreAt c).stubs := by
    rw [State.handOver_marker]
    exact s.withdrawn_stubs c st d inst
  have hretires : (st.allNamed && st.msgs.isEmpty && st.named.all (fun i => (st.handed ++ [inst]).contains i)) = true := by
    simp [h.allNamed, h.msgs, h.named]
  rw [State.stubCheck, hfind]
  dsimp only
  rw [h.dest]
  dsimp only
  rw [h.due]
  refine (if_pos hretires).trans ?_
  rw [State.handedOver, hid.1, hid.2]
  dsimp only [List.foldl]
  rw [hstubs]

/-! ### Fences (R294) -/

theorem execFenceMarker_core {g : BitVec 16} (hh : heads s k (.core c) (.fence ident inst g f)) : exec (.fenceMarker k) s =
    .next (((s.popNet k).updStub c ident g (fun t => { t with fences := t.fences ++ [(inst, f)] })).stubCheck c ident g) := by
  obtain ⟨-, p, hp, hb⟩ := id hh
  rw [exec_fenceMarker, execFenceMarker, agent_of_heads hh, hp]
  dsimp only
  rw [hb]
  dsimp only
  rw [if_neg (not_not.mpr (peer_of_heads hh))]

/-- The stub of a core that has been changed is found as it is now. -/
theorem State.find?_updStub (hst : (s.coreAt c).stubs.find? (isStub ident gen) = some st) {f : Stub → Stub}
    (hf : ∀ t, (f t).ident = t.ident ∧ (f t).gen = t.gen) :
    ((s.updStub c ident gen f).coreAt c).stubs.find? (isStub ident gen) = some (f st) := by
  rw [State.updStub, State.coreAt_updCore_self]
  refine (find?_mapWhere (p := isStub ident gen) (f := f) (fun t ht => ?_) _).trans (congrArg _ hst)
  obtain ⟨h1, h2⟩ := hf t
  rwa [isStub, h1, h2]

/-- A stub that has not been told the new holder hands nothing over. -/
theorem State.stubCheck_untold (hfind : (s.coreAt c).stubs.find? (isStub ident gen) = some st) (hd : st.dest = none) :
    s.stubCheck c ident gen = s := by
  rw [State.stubCheck, hfind]
  dsimp only
  rw [hd]

/-- The other stubs are those that a stub's change leaves. -/
theorem filter_mapWhere_not {α : Type} {p : α → Bool} {f : α → α} (hf : ∀ a, p a = true → p (f a) = true) (l : List α) :
    (mapWhere p f l).filter (fun a => !p a) = l.filter (fun a => !p a) := by
  induction l with
  | nil => rfl
  | cons a r ih =>
    rw [mapWhere, List.map_cons]
    by_cases h : p a = true
    · simp only [h, if_true, List.filter_cons, hf a h, Bool.not_true, Bool.false_eq_true, if_false]
      exact ih
    · simp only [h, Bool.false_eq_true, if_false, List.filter_cons, Bool.not_false, if_true]
      exact congrArg _ ih

/-! ### What the parts of the statement say -/

/-- The first message of a stub goes to the new holder. -/
theorem stub_forwards {m : Msg} {r : List Msg} (hst : (s.coreAt c).stubs.find? (isStub ident gen) = some st) (hd : st.dest = some d)
    (hm : st.msgs = m :: r) : ∃ t, exec (.stubForward c ident gen) s = .next t ∧ sameMemory s t ∧
      queued t { src := s.here (.core c), dst := locPlace d.1, cls := m.cls } (.msg { m with gen := d.2, fwd := true }) := by
  have hexec : exec (.stubForward c ident gen) s = .next (((s.updStub c ident gen (fun t => { t with msgs := r })).forwardMsg c d
      m).stubCheck c ident gen) := by
    rw [exec_stubForward, execStubForward, hst]
    dsimp only
    rw [hd, hm]
  refine ⟨_, hexec, (((StubStep.updCore ..).trans (.post ..)).trans (.stubCheck ..)).sameMemory, ?_⟩
  exact queued.step (State.append_queued ..) (.stubCheck ..)

/-- A stub once a fence has come. -/
def Stub.fenced (t : Stub) (inst : Nat) (f : Int) : Stub := { t with fences := t.fences ++ [(inst, f)] }

/-- The state in which a stub has taken a fence. -/
def State.fenced (s : State) (k : PairKey) (c : Nat) (ident : Word) (gen : BitVec 16) (inst : Nat) (f : Int) : State :=
  (s.popNet k).updStub c ident gen (·.fenced inst f)

section fence

variable (hh : heads s k (.core c) (.fence ident inst gen f)) (hst : (s.coreAt c).stubs.find? (isStub ident gen) = some st)

include hst

theorem State.find?_fenced (k : PairKey) (inst : Nat) (f : Int) :
    ((s.fenced k c ident gen inst f).coreAt c).stubs.find? (isStub ident gen) = some (st.fenced inst f) :=
  State.find?_updStub (s := s.popNet k) hst fun _ => ⟨rfl, rfl⟩

include hh

/-- A fence is added to the stub that waits to be told. -/
theorem stub_learns_fence (hd : st.dest = none) : ∃ t, exec (.fenceMarker k) s = .next t ∧ sameMemory s t ∧
    (t.coreAt c).stubs.find? (isStub ident gen) = some { st with fences := st.fences ++ [(inst, f)] } := by
  have hexec : exec (.fenceMarker k) s = .next ((s.fenced k c ident gen inst f).stubCheck c ident gen) := execFenceMarker_core hh
  rw [State.stubCheck_untold (State.find?_fenced hst k inst f) hd] at hexec
  exact ⟨_, hexec, ((CoreSide.popNet ..).trans (.updCore ..)).sameMemory, State.find?_fenced hst k inst f⟩

/-- With the last fence the stub withdraws what still waits, hands over from its sequence, and retires. -/
theorem stub_hands_over (hlast : (st.fenced inst f).Last d inst f) :
    let w := (s.fenced k c ident gen inst f).withdrawn c (st.fenced inst f) d inst
    ∃ t, exec (.fenceMarker k) s = .next t ∧ sameMemory s t ∧
      (t.coreAt c).stubs = (s.coreAt c).stubs.filter (fun u => !isStub ident gen u) ∧
      sentOn (s.popNet k) t { src := s.here (.core c), dst := locPlace d.1, cls := 0 }
        (.handover st.ident inst d.2 w.2 (st.area inst).seg (st.area inst).closed st.closes) ∧
      sentOn (s.popNet k) t { src := s.here (.core c), dst := s.chanHome st.home ident, cls := 0 } (.retired ident gen) ∧
      StubStep w.1 t := by
  intro w
  have hid : st.ident = ident ∧ st.gen = gen := by simpa [isStub] using List.find?_some hst
  have hu : StubStep (s.popNet k) (s.fenced k c ident gen inst f) := .updCore ..
  have hw : StubStep (s.fenced k c ident gen inst f) w.1 := .withdrawn ..
  have hdone : StubStep ((s.fenced k c ident gen inst f).handOver c (st.fenced inst f) d inst).1
      ((s.fenced k c ident gen inst f).handedOver c (st.fenced inst f) d inst) := .updCore ..
  have hover := (StubStep.handOver (s.fenced k c ident gen inst f) c (st.fenced inst f) d inst).trans hdone
  have hexec : exec (.fenceMarker k) s = .next ((s.fenced k c ident gen inst f).stubCheck c ident gen) := execFenceMarker_core hh
  rw [State.stubCheck_last (State.find?_fenced hst k inst f) hlast] at hexec
  refine ⟨_, hexec, ?_, ?_, ?_, (hu.trans hover).sentOn_post .., (StubStep.post ..).trans (hdone.trans (.post ..))⟩
  · exact fun a => ((hu.trans (hover.trans (.post ..))).sameMemory a).trans ((CoreSide.popNet s k).sameMemory a)
  · rw [State.coreAt_post, State.handedOver, State.coreAt_updCore_self, State.fenced, State.updStub, State.coreAt_updCore_self]
    have hkind : isStub (st.fenced inst f).ident (st.fenced inst f).gen = isStub ident gen := by rw [← hid.1, ← hid.2]; rfl
    dsimp only
    rw [hkind]
    exact filter_mapWhere_not (p := isStub ident gen) (f := (·.fenced inst f)) (fun _ ht => ht) (s.coreAt c).stubs
  · have hsent := (hu.trans hw).sentOn_post (.core c) (locPlace d.1) 0
      (.handover st.ident inst d.2 w.2 (st.area inst).seg (st.area inst).closed st.closes) 0 0
    exact hsent.step (hdone.trans (.post ..))

omit hst hh in
/-- What is withdrawn once the fence has come is what could be before. -/
theorem State.withdraw_fenced (s : State) (k : PairKey) (c : Nat) (ident : Word) (gen : BitVec 16) (st : Stub) (inst : Nat) (f : Int) :
    (((s.fenced k c ident gen inst f).coreAt c).withdraw ((st.fenced inst f).mine inst)).map (·.1) =
      ((s.coreAt c).withdraw (st.mine inst)).map (·.1) := by
  rw [State.fenced, State.updStub, State.coreAt_updCore_self]
  refine Core.withdraw_congr ?_ ?_ (st.mine inst)
  · rfl
  · rfl

end fence

/-- Without a message to withdraw the new holder starts at the area's sequence. -/
theorem State.withdrawn_none (h : ((s.coreAt c).withdraw (st.mine inst)).map (·.1) = none) :
    s.withdrawn c st d inst = (s, (st.area inst).next) := by
  rw [State.withdrawn, Option.map_eq_none_iff.mp h]

/-- A message that waited goes to the new holder, which starts at its sequence. -/
theorem State.withdrawn_chan {m : Msg} {segin segend : Bool} {left : Nat}
    (h : ((s.coreAt c).withdraw (st.mine inst)).map (·.1) = some (.chan m segin segend left)) :
    ∃ q, s.withdrawn c st d inst = ((s.setCore c q).forwardMsg c d m, m.seq) := by
  obtain ⟨⟨i, q⟩, hw, hi⟩ := Option.map_eq_some_iff.mp h
  cases hi
  exact ⟨{ q with withdrewAt := some s.now }, by rw [State.withdrawn, hw]⟩

/-- Settles O45. -/
theorem holdersFollowNoticesAndStubsForward : Obligations.holders_follow_notices_and_stubs_forward := by
  intro s c k ident inst hc q popped
  refine ⟨fun x hx => ⟨execCreditReturn_held hc hx, execPeerClosedNotice_held hc hx, fun loc g hh hg => execRedirect_returns hc hx hh hg,
    fun loc g hh hg => execRedirect_follows hc hx hh hg⟩, fun n hh hany => final_at_end hh hany,
    fun g st d m r hst hd hm => stub_forwards hst hd hm, fun g f st hh hst hd => stub_learns_fence hh hst hd, ?_,
    fun g start seg cl n hh hi hany hw => handover_at_end hh hi hany hw⟩
  intro g f st d hh hst hd hnamed hall hmsgs hhanded hareas hacc hhas a mine sends hands
  have hlast : (st.fenced inst f).Last d inst f :=
    { dest := hd, named := hnamed, allNamed := hall, msgs := hmsgs, handed := hhanded, areas := hareas
      fence := List.mem_append_right _ List.mem_cons_self, accounted := hacc, has := hhas }
  have harea : st.area inst = a := hlast.area
  have hmine : st.mine inst = mine := rfl
  have hwithdraw := s.withdraw_fenced k c ident g st inst f
  obtain ⟨t, hexec, hmem, hstubs, hover, hretired, hstep⟩ := stub_hands_over hh hst hlast
  rw [harea] at hover
  refine ⟨fun hnone => ?_, fun m segin segend left k1 hsome => ?_⟩
  · rw [hmine, hnone] at hwithdraw
    rw [State.withdrawn_none hwithdraw] at hover
    refine ⟨t, hexec, hmem, hstubs, harea ▸ hover, hretired, fun m segin segend left k1 hsome => ?_⟩
    rw [hnone] at hsome
    cases hsome
  · rw [hmine, hsome] at hwithdraw
    obtain ⟨w, hw⟩ := State.withdrawn_chan (d := d) hwithdraw
    rw [hw] at hover hstep
    refine ⟨t, hexec, hmem, hstubs, hover, hretired, fun m' segin' segend' left' k1' hsome' => ?_⟩
    rw [hsome] at hsome'
    cases hsome'
    have hfenced : StubStep popped ((s.fenced k c ident g inst f).setCore c w) := (StubStep.updCore ..).trans (.setCore ..)
    exact (hfenced.sentOn_post ..).step hstep

end Sys2Proof.Machine
end

