-- ==== Sys2Proof/Proofs/VectorForms.lean ====
section
/-! PROOFS. O21: the element-wise vector instructions (R200 to R203, Table 10-4). Each arm of `exec` is one call of a shared form, a
form with nothing in its way writes vd with its active lanes replaced, and the lemmas on values say what the lane functions are. -/

namespace Sys2Proof.Machine

open Sys2Proof Sys2Proof.Safety

/-! ### The arms of major 0x30 -/

section
variable (d a b : Reg) (m : MReg) (t : BitVec 3) (s : State)

theorem exec_vadd : exec (.vadd d a b m t) s = vecBinary (.vadd d a b m t) vAdd d a b m t s := rfl
theorem exec_vsub : exec (.vsub d a b m t) s = vecBinary (.vsub d a b m t) vSub d a b m t s := rfl
theorem exec_vmul : exec (.vmul d a b m t) s = vecBinary (.vmul d a b m t) vMul d a b m t s := rfl
theorem exec_vmax : exec (.vmax d a b m t) s = vecBinary (.vmax d a b m t) (vPick true) d a b m t s := rfl
theorem exec_vmin : exec (.vmin d a b m t) s = vecBinary (.vmin d a b m t) (vPick false) d a b m t s := rfl
theorem exec_vand : exec (.vand d a b m t) s = vecBinary (.vand d a b m t) (fun _ _ x y _ => x &&& y) d a b m t s := rfl
theorem exec_vor : exec (.vor d a b m t) s = vecBinary (.vor d a b m t) (fun _ _ x y _ => x ||| y) d a b m t s := rfl
theorem exec_vxor : exec (.vxor d a b m t) s = vecBinary (.vxor d a b m t) (fun _ _ x y _ => x ^^^ y) d a b m t s := rfl
theorem exec_vshl : exec (.vshl d a b m t) s = vecBinary (.vshl d a b m t) vShl d a b m t s := rfl
theorem exec_vshr : exec (.vshr d a b m t) s = vecBinary (.vshr d a b m t) vShr d a b m t s := rfl
theorem exec_vabs : exec (.vabs d a m t) s = vecUnary (.vabs d a m t) vAbs d a m t s := rfl
theorem exec_vneg : exec (.vneg d a m t) s = vecUnary (.vneg d a m t) vNeg d a m t s := rfl
theorem exec_vmov : exec (.vmov d a m t) s = vecUnary (.vmov d a m t) (fun _ _ x _ _ => x) d a m t s := rfl
theorem exec_vexp2 : exec (.vexp2 d a m t) s = vecUnary (.vexp2 d a m t) vExp2 d a m t s := rfl
theorem exec_vrcp : exec (.vrcp d a m t) s = vecUnary (.vrcp d a m t) vRcp d a m t s := rfl
theorem exec_vrsq : exec (.vrsq d a m t) s = vecUnary (.vrsq d a m t) vRsq d a m t s := rfl
theorem exec_vfma : exec (.vfma d a b m t) s = writeV (.vfma d a b m t)
    { lack := vecLack s, reads := [vr a, vr b, vr d] } d (fun sl => governed sl d m t.toNat (fun k =>
      vFma sl.frm t.toNat (laneOf (sl.rv a) (width t.toNat) k) (laneOf (sl.rv b) (width t.toNat) k)
        (laneOf (sl.rv d) (width t.toNat) k))) s := rfl
theorem exec_vbcast : exec (.vbcast d a m t) s = writeV (.vbcast d a m t)
    { lack := vecLack s, reads := maskReads m d ++ [xr a] } d (fun sl =>
      governed sl d m t.toNat (fun _ => (sl.rx a).toNat % 2 ^ width t.toNat)) s := rfl
theorem exec_vperm : exec (.vperm d a b m t) s = writeV (.vperm d a b m t)
    { lack := vecLack s, reads := [vr a, vr b] ++ maskReads m d } d (fun sl => governed sl d m t.toNat (fun k =>
      laneOf (sl.rv a) (width t.toNat) (laneOf (sl.rv b) (width t.toNat) k % lanes t.toNat))) s := rfl

end

/-! ### What is written to V[vd] (R200, R201) -/

section
variable {s : State} {o : Out} {i : Instr} {d a b : Reg} {m : MReg} {t : BitVec 3}

/-- An instruction that only writes vd, with nothing in its way: V[vd] is written and the slot goes on. -/
theorem writeV_writes {n : Need} {f : Slot → VWord} {v : VWord} (ho : o = writeV i n d f s)
    (hr : ready { n with writes := [vr d] } s = true) (hv : f s.slot = v) : o = .next (s.setV d v).retire := by
  rw [ho, writeV, issue_ready hr, hv]

/-- An element-wise instruction with two vector sources replaces the active lanes of vd. -/
theorem vecBinary_writes {f : LaneFn} {g : Nat → Nat} (ho : o = vecBinary i f d a b m t s)
    (hr : ready { lack := vecLack s, reads := [vr a, vr b] ++ maskReads m d, writes := [vr d] } s = true)
    (hf : ∀ k, f s.slot.frm t.toNat (laneOf (s.slot.rv a) (width t.toNat) k) (laneOf (s.slot.rv b) (width t.toNat) k) 0 = g k) :
    o = .next (s.setV d (governed s.slot d m t.toNat g)).retire := by
  rw [vecBinary] at ho
  exact writeV_writes ho hr (congrArg (governed s.slot d m t.toNat) (funext hf))

/-- An element-wise instruction with one vector source replaces the active lanes of vd. -/
theorem vecUnary_writes {f : LaneFn} {g : Nat → Nat} (ho : o = vecUnary i f d a m t s)
    (hr : ready { lack := vecLack s, reads := vr a :: maskReads m d, writes := [vr d] } s = true)
    (hf : ∀ k, f s.slot.frm t.toNat (laneOf (s.slot.rv a) (width t.toNat) k) 0 0 = g k) :
    o = .next (s.setV d (governed s.slot d m t.toNat g)).retire := by
  rw [vecUnary] at ho
  exact writeV_writes ho hr (congrArg (governed s.slot d m t.toNat) (funext hf))

end

/-! ### Values of the lane functions (R69, R202) -/

/-- The float types are the codes 0 and 1 (Table 10-1). -/
theorem isFloat_iff (ty : Nat) : isFloat ty = true ↔ ty ≤ 1 := decide_eq_true_iff

theorem vAdd_eq (mode : BitVec 2) (ty x y z : Nat) : vAdd mode ty x y z =
    if ty ≤ 1 then arith ty (arithRnd mode) ((decodeElt ty x).add (decodeElt ty y)) else (x + y) % 2 ^ width ty :=
  if_congr (isFloat_iff ty) rfl rfl

/-- Settles O21: each form's arm, the needs that hold and the value of its lane function. -/
theorem elementWiseVectorFormsActOnActiveLanes : Obligations.element_wise_vector_forms_act_on_active_lanes := by
  intro s d a b m t ty w A B D put rd val rnd isF
  refine ⟨fun hr _ => ?_, fun hr _ => ?_, fun hr _ => ?_, fun hr _ => ?_⟩
  · exact ⟨vecBinary_writes (exec_vadd ..) hr fun k => vAdd_eq ..,
      vecBinary_writes (exec_vsub ..) hr fun _ => rfl,
      vecBinary_writes (exec_vmul ..) hr fun _ => rfl,
      vecBinary_writes (exec_vmax ..) hr fun _ => rfl,
      vecBinary_writes (exec_vmin ..) hr fun _ => rfl,
      vecBinary_writes (exec_vand ..) hr fun _ => rfl,
      vecBinary_writes (exec_vor ..) hr fun _ => rfl,
      vecBinary_writes (exec_vxor ..) hr fun _ => rfl,
      writeV_writes (exec_vperm ..) hr rfl,
      fun _ => ⟨vecBinary_writes (exec_vshl ..) hr fun _ => rfl, vecBinary_writes (exec_vshr ..) hr fun _ => rfl⟩⟩
  · exact ⟨vecUnary_writes (exec_vabs ..) hr fun _ => rfl,
      vecUnary_writes (exec_vneg ..) hr fun _ => rfl,
      vecUnary_writes (exec_vmov ..) hr fun _ => rfl,
      fun _ => ⟨vecUnary_writes (exec_vexp2 ..) hr fun _ => rfl,
        vecUnary_writes (exec_vrcp ..) hr fun _ => rfl,
        vecUnary_writes (exec_vrsq ..) hr fun _ => rfl⟩⟩
  · exact writeV_writes (exec_vfma ..) hr rfl
  · exact writeV_writes (exec_vbcast ..) hr rfl

end Sys2Proof.Machine
end

