-- ==== Sys2Proof/Proofs/VectorSelection.lean ====
section
/-! PROOFS. O22: `vsel`, the reductions, the compares and the mask operations (R82, R204 to R206, R213). -/

namespace Sys2Proof.Machine

open Sys2Proof Sys2Proof.Safety

section
variable (d a b : Reg) (md ma mb m : MReg) (t : BitVec 3) (s : State)

theorem exec_vsel : exec (.vsel d a b m t) s = writeV (.vsel d a b m t) { lack := vecLack s, reads := [vr a, vr b] } d (fun sl =>
    ofLanes (width t.toNat) ((List.range (lanes t.toNat)).map (fun k => if (sl.rm m).getLsbD k then
      laneOf (sl.rv a) (width t.toNat) k else laneOf (sl.rv b) (width t.toNat) k))) s := rfl
theorem exec_vredsum : exec (.vredsum d a m t) s = reduceForm (.vredsum d a m t) vAdd
    (fun ty => if isFloat ty then 2 ^ (width ty - 1) else 0) d a m t s := rfl
theorem exec_vredmax : exec (.vredmax d a m t) s = reduceForm (.vredmax d a m t) (vPick true)
    (fun ty => if ty = 0 then 0xFF800000 else if ty = 1 then 0xFF80 else 2 ^ (width ty - 1)) d a m t s := rfl
theorem exec_vcmpEq : exec (.vcmpEq md a b m t) s = compareForm (.vcmpEq md a b m t) 0 md a b m t s := rfl
theorem exec_vcmpNe : exec (.vcmpNe md a b m t) s = compareForm (.vcmpNe md a b m t) 1 md a b m t s := rfl
theorem exec_vcmpLt : exec (.vcmpLt md a b m t) s = compareForm (.vcmpLt md a b m t) 2 md a b m t s := rfl
theorem exec_vcmpLe : exec (.vcmpLe md a b m t) s = compareForm (.vcmpLe md a b m t) 3 md a b m t s := rfl
theorem exec_vcmpGt : exec (.vcmpGt md a b m t) s = compareForm (.vcmpGt md a b m t) 4 md a b m t s := rfl
theorem exec_vcmpGe : exec (.vcmpGe md a b m t) s = compareForm (.vcmpGe md a b m t) 5 md a b m t s := rfl
theorem exec_mand : exec (.mand md ma mb) s = maskForm (.mand md ma mb) md (fun sl => sl.rm ma &&& sl.rm mb) s := rfl
theorem exec_mor : exec (.mor md ma mb) s = maskForm (.mor md ma mb) md (fun sl => sl.rm ma ||| sl.rm mb) s := rfl
theorem exec_mnot : exec (.mnot md ma) s = maskForm (.mnot md ma) md (fun sl => ~~~sl.rm ma) s := rfl
theorem exec_mpop : exec (.mpop d ma) s = writeX (.mpop d ma) { lack := vecLack s } d
    (fun sl => BitVec.ofNat 64 (countOnes (sl.rm ma) 64)) s := rfl
theorem exec_mfirst : exec (.mfirst d ma) s = writeX (.mfirst d ma) { lack := vecLack s } d
    (fun sl => BitVec.ofNat 64 (firstOne (sl.rm ma) 64)) s := rfl

end

/-! ### What the forms write -/

section
variable {s : State} {o : Out} {i : Instr} {d a b : Reg} {md m : MReg} {t : BitVec 3}

/-- A reduction puts the pairwise tree of the selected elements into element 0 and zeros elsewhere (R82, R205). -/
theorem reduceForm_writes {f : LaneFn} {unit : Nat → Nat} {u : Nat} (ho : o = reduceForm i f unit d a m t s)
    (hr : ready { lack := vecLack s, reads := [vr a], writes := [vr d] } s = true) (hu : unit t.toNat = u) :
    o = .next (s.setV d (BitVec.ofNat 512 (tree (fun x y => f s.slot.frm t.toNat x y 0) 6 ((List.range (lanes t.toNat)).map
      (fun k => if (s.slot.rm m).getLsbD k then laneOf (s.slot.rv a) (width t.toNat) k else u))))).retire := by
  rw [reduceForm] at ho
  exact writeV_writes ho hr (by rw [hu])

/-- A compare writes the mask of the selected lanes that satisfy its relation (R206). -/
theorem compareForm_writes {cc : Nat} (ho : o = compareForm i cc md a b m t s)
    (hr : ready { lack := vecLack s, reads := [vr a, vr b] } s = true) :
    o = .next (s.setM md (maskOf (fun k => (s.slot.rm m).getLsbD k && laneRel cc t.toNat
      (laneOf (s.slot.rv a) (width t.toNat) k) (laneOf (s.slot.rv b) (width t.toNat) k)) (lanes t.toNat))).retire := by
  rw [ho, compareForm, issue_ready hr]

/-- A core that is no streamer has the vector unit (R98). -/
theorem vecLack_of_vectorUnit (h : isStreamer s.cur.1 = false) : vecLack s = none := by simp [vecLack, h]

/-- A mask operation needs the vector unit alone (R213). -/
theorem maskForm_writes {f : Slot → Word} (ho : o = maskForm i md f s) (h : isStreamer s.cur.1 = false) :
    o = .next (s.setM md (f s.slot)).retire := by
  rw [ho, maskForm, vecLack_of_vectorUnit h, issue_ready (ready_of_no_needs s)]

end

/-! ### Values (R205, R213) -/

/-- An unselected element of a sum enters as -0 in a float type, as 0 in an integer type (R205). -/
theorem sumUnit_eq (ty : Nat) : (if isFloat ty then 2 ^ (width ty - 1) else 0) = if ty ≤ 1 then 2 ^ (width ty - 1) else 0 :=
  if_congr (isFloat_iff ty) rfl rfl

/-- The search for a one from bit `64 - n` on: none below its answer, one at it unless it is 64 (R213). -/
theorem firstOne_spec (v : Word) {n : Nat} (hn : n ≤ 64) :
    firstOne v n ≤ 64 ∧ (∀ i, 64 - n ≤ i → i < firstOne v n → v.getLsbD i = false) ∧
      (firstOne v n < 64 → v.getLsbD (firstOne v n) = true) := by
  induction n with
  | zero => exact ⟨le_refl 64, fun i hlo hhi => absurd hhi (Nat.not_lt.mpr hlo), fun h => absurd h (lt_irrefl 64)⟩
  | succ n ih =>
    rw [firstOne]
    by_cases hbit : v.getLsbD (63 - n) = true
    · rw [if_pos hbit]
      exact ⟨by omega, fun i hlo hhi => by omega, fun _ => hbit⟩
    · rw [if_neg hbit]
      obtain ⟨hle, hzero, hone⟩ := ih (by omega)
      refine ⟨hle, fun i hlo hhi => ?_, hone⟩
      rcases Nat.eq_or_lt_of_le hlo with rfl | hlo
      · rw [show 64 - (n + 1) = 63 - n by omega]
        exact Bool.eq_false_of_not_eq_true hbit
      · exact hzero i (by omega) hhi

@[simp] theorem State.slot_setM (s : State) (r : MReg) (v : Word) : (s.setM r v).slot = s.slot.wm r v :=
  s.slot_upd (fun sl => sl.wm r v)

/-- A write to m0 is discarded: it still reads all ones (R12). -/
theorem State.rm_zero_setM (s : State) (v : Word) : (s.setM 0 v).slot.rm 0 = BitVec.allOnes 64 := by
  rw [State.slot_setM, Slot.rm_wm_self, if_pos rfl]

/-- Settles O22: each form's arm, the needs that hold and the value that it writes. -/
theorem selectionReductionAndCompareOfVectors : Obligations.selection_reduction_and_compare_of_vectors := by
  intro s d a b md ma mb m t ty w A B on putM folded cmp
  refine ⟨fun hr _ => writeV_writes (exec_vsel ..) hr rfl, fun hr _ => ?_, fun hr _ => ?_, fun h => ?_, fun v => s.rm_zero_setM v⟩
  · exact ⟨reduceForm_writes (exec_vredsum ..) hr (sumUnit_eq ty), reduceForm_writes (exec_vredmax ..) hr rfl⟩
  · exact ⟨compareForm_writes (exec_vcmpEq ..) hr, compareForm_writes (exec_vcmpNe ..) hr, compareForm_writes (exec_vcmpLt ..) hr,
      compareForm_writes (exec_vcmpLe ..) hr, compareForm_writes (exec_vcmpGt ..) hr, compareForm_writes (exec_vcmpGe ..) hr⟩
  · refine ⟨maskForm_writes (exec_mand ..) h, maskForm_writes (exec_mor ..) h, maskForm_writes (exec_mnot ..) h, fun hr => ?_⟩
    rw [← vecLack_of_vectorUnit h] at hr
    obtain ⟨hle, hzero, hone⟩ := firstOne_spec (s.slot.rm ma) (le_refl 64)
    exact ⟨writeX_writes (exec_mpop ..) hr (congrArg (BitVec.ofNat 64) (countOnes_eq_countP ..)),
      firstOne (s.slot.rm ma) 64, writeX_writes (exec_mfirst ..) hr rfl, hle, fun i => hzero i (Nat.zero_le i), hone⟩

end Sys2Proof.Machine
end

