-- ==== Sys2Proof/Proofs/VectorBlocks.lean ====
section
/-! PROOFS. O23: conversion, quantisation, block dot and `baq` (R73, R80, R207 to R211). -/

namespace Sys2Proof.Machine

open Sys2Proof Sys2Proof.Safety

section
variable (d a b : Reg) (ts m t : BitVec 3) (f : BitVec 1) (g : BitVec 2) (s : State)

theorem exec_vcvt : exec (.vcvt d a ts m t) s = writeV (.vcvt d a ts m t)
    { lack := vecLack s, reads := vr a :: maskReads m d } d (fun sl => governed sl d m t.toNat (fun k =>
      if k < min (lanes ts.toNat) (lanes t.toNat) then
        convert t.toNat (convRnd sl.frm.toNat t.toNat sl.fseed 0 k)
          (decodeElt ts.toNat (laneOf (sl.rv a) (width ts.toNat) k))
      else zeroCode t.toNat)) s := rfl
theorem exec_vquant : exec (.vquant d a b t f g) s = execVquant d a b t f g s := rfl
theorem exec_vdeq : exec (.vdeq d a b t f g) s = execVdeq d a b t f g s := rfl
theorem exec_vmxdot : exec (.vmxdot d a b m t f g) s = writeV (.vmxdot d a b m t f g)
    { lack := vecLack s, reads := [vr a, vr (regAfter a 1), vr b, vr (regAfter b 1), vr d] } d (fun sl =>
      BitVec.ofNat 512 (mxdot t.toNat (f = 1) (blockLen g.toNat) (sl.rm m) (sl.rv a) (sl.rv (regAfter a 1)) (sl.rv b)
        (sl.rv (regAfter b 1)) (laneOf (sl.rv d) 32 0) % 2 ^ 32 + (sl.rv d).toNat / 2 ^ 32 * 2 ^ 32)) s := rfl
theorem exec_baq : exec (.baq d a b t f g) s = execBaq d a b t f g s := rfl

end

/-! ### Several vector registers written (R209) -/

@[simp] theorem State.slot_setV (s : State) (r : Reg) (v : VWord) : (s.setV r v).slot = s.slot.wv r v :=
  s.slot_upd (fun sl => sl.wv r v)

/-- Going on writes no vector register. -/
theorem State.rv_retire (s : State) (q : Reg) : s.retire.slot.rv q = s.slot.rv q := by rw [State.slot_retire]; rfl

/-- The 32 registers from `d` on, counted round, are different ones. -/
theorem regAfter_injOn (d : Reg) {i j : Nat} (hi : i < 32) (hj : j < 32) (h : regAfter d i = regAfter d j) : i = j := by
  have hn := congrArg BitVec.toNat h
  simp only [regAfter, BitVec.toNat_ofNat] at hn
  omega

/-- The four registers that `vdeq` writes are different ones (R209). -/
theorem nodup_regAfter (d : Reg) : ((List.range 4).map (regAfter d)).Nodup :=
  List.Nodup.map_on (fun i hi j hj => regAfter_injOn d ((List.mem_range.mp hi).trans (by decide))
    ((List.mem_range.mp hj).trans (by decide))) List.nodup_range

section
variable (r : Nat → Reg) (f : Nat → VWord)

/-- The slot in hand after a run of writes to its vector registers. -/
theorem State.slot_foldl_setV (l : List Nat) (s : State) :
    (l.foldl (fun s k => s.setV (r k) (f k)) s).slot = l.foldl (fun sl k => sl.wv (r k) (f k)) s.slot :=
  (List.foldl_hom State.slot fun s k => (s.slot_setV (r k) (f k)).symm).symm

theorem Slot.foldl_wv_pc (l : List Nat) (sl : Slot) : (l.foldl (fun sl k => sl.wv (r k) (f k)) sl).pc = sl.pc :=
  List.foldlRecOn (motive := fun u : Slot => u.pc = sl.pc) l _ rfl fun _ h _ _ => h

/-- Of a run of writes a register outside it keeps its value. -/
theorem Slot.rv_foldl_wv_other {q : Reg} {l : List Nat} (h : ∀ k ∈ l, q ≠ r k) (sl : Slot) :
    (l.foldl (fun sl k => sl.wv (r k) (f k)) sl).rv q = sl.rv q :=
  List.foldlRecOn (motive := fun u : Slot => u.rv q = sl.rv q) l _ rfl fun u hu k hk => (u.rv_wv_other (f k) (h k hk)).trans hu

/-- Of a run of writes to different registers each has its own value. -/
theorem Slot.rv_foldl_wv {l : List Nat} (hd : (l.map r).Nodup) {k : Nat} (hk : k ∈ l) (sl : Slot) :
    (l.foldl (fun sl k => sl.wv (r k) (f k)) sl).rv (r k) = f k := by
  induction l generalizing sl with
  | nil => cases hk
  | cons j l ih =>
    rw [List.map_cons, List.nodup_cons] at hd
    obtain ⟨hj, hd⟩ := hd
    rw [List.foldl_cons]
    rcases List.mem_cons.mp hk with rfl | hk
    · rw [Slot.rv_foldl_wv_other r f fun i hi e => hj (List.mem_map.mpr ⟨i, hi, e.symm⟩), Slot.rv_wv_self]
    · exact ih hd hk _

end

/-! ### What the forms write -/

section
variable {s : State} {d a b : Reg} {t m : BitVec 3} {f : BitVec 1} {g : BitVec 2}

/-- `vquant` writes the codes to vd and the scales to vb (R208). -/
theorem execVquant_writes (hr : ready { lack := vecLack s, reads := [0, 1, 2, 3].map (fun k => vr (regAfter a k))
                                        writes := [vr d, vr b] } s = true) :
    execVquant d a b t f g s =
      let q := requantAll (f = 1) t.toNat (blockLen g.toNat) (laneRnd s.slot t.toNat) (fp32x64 s.slot a)
      .next ((s.setV d (ofLanes (width t.toNat) q.2)).setV b (scaleReg q.1)).retire := by
  rw [execVquant, issue_ready hr]

/-- The FP32 codes of a register of block-scaled codes (R73, R209). -/
def dequantised (sl : Slot) (a b : Reg) (t : BitVec 3) (f : BitVec 1) (g : BitVec 2) : List Nat :=
  (decode64 t.toNat (f = 1) (blockLen g.toNat) (sl.rv a) (sl.rv b)).map (convert 0 (arithRnd sl.frm))

/-- `vdeq` writes sixteen codes to each of the four registers from vd (R209). -/
theorem execVdeq_writes (hr : ready { lack := vecLack s, reads := [vr a, vr b]
                                      writes := [0, 1, 2, 3].map (fun k => vr (regAfter d k)) } s = true) :
    execVdeq d a b t f g s = .next ((List.range 4).foldl (fun u k => u.setV (regAfter d k)
      (ofLanes 32 (((dequantised s.slot a b t f g).drop (16 * k)).take 16))) s).retire := by
  rw [execVdeq, issue_ready hr]
  rfl

/-- A gateway core has what `baq` needs (R211). -/
theorem baqLack_of_gateway (h : isGateway s.cur.1 = true) : baqLack s = none := by simp [baqLack, isStreamer, isCompute, h]

/-- `baq` on a compute core lacks its unit with cause 0x005 (R98, R211). -/
theorem baqLack_of_compute (h : isCompute s.cur.1 = true) : baqLack s = some 5 := by
  have hs : isStreamer s.cur.1 = false := by
    simp only [isCompute, Bool.and_eq_true, decide_eq_true_eq] at h
    simp [isStreamer, Nat.not_lt.mpr h.2]
  simp [baqLack, hs, h]

theorem execBaq_compute (h : isCompute s.cur.1 = true) :
    execBaq d a b t f g s = s.trap 0x005 (wordOf (.baq d a b t f g)) := by
  rw [execBaq, baqLack_of_compute h, issue]

/-- `baq` writes the codes of the exact sums, requantised, to vd and their scales to the register after it (R211). -/
theorem execBaq_writes (hg : isGateway s.cur.1 = true)
    (hr : ready { reads := [vr a, vr (regAfter a 1), vr b, vr (regAfter b 1)], writes := [vr d, vr (regAfter d 1)] } s = true) :
    execBaq d a b t f g s =
      let q := requantAll (f = 1) t.toNat (blockLen g.toNat) (laneRnd s.slot t.toNat)
        ((decode64 t.toNat (f = 1) (blockLen g.toNat) (s.slot.rv a) (s.slot.rv (regAfter a 1))).zipWith Val.add
          (decode64 t.toNat (f = 1) (blockLen g.toNat) (s.slot.rv b) (s.slot.rv (regAfter b 1))))
      .next ((s.setV d (ofLanes (width t.toNat) q.2)).setV (regAfter d 1) (scaleReg q.1)).retire := by
  rw [execBaq, baqLack_of_gateway hg, issue_ready hr]

end

/-- Settles O23: each form's arm, the needs that hold and what it writes. -/
theorem conversionAndBlockFormsWriteWholeRegisters : Obligations.conversion_and_block_forms_write_whole_registers := by
  intro s d a b ts m t f g ty fr w R rd n q
  refine ⟨fun hr => writeV_writes (exec_vcvt ..) hr rfl, fun _ _ _ => ⟨fun hr _ _ => ?_, fun hr _ => ?_, fun hr _ _ => ?_,
    fun hg hr _ _ _ => ?_, fun h => ?_⟩⟩
  · exact (exec_vquant ..).trans (execVquant_writes hr)
  · refine ⟨_, (exec_vdeq ..).trans (execVdeq_writes hr), ?_, fun k hk => ?_⟩
    · rw [State.slot_retire, State.slot_foldl_setV, Slot.foldl_wv_pc]
    · rw [State.rv_retire, State.slot_foldl_setV]
      exact Slot.rv_foldl_wv (regAfter d) _ (nodup_regAfter d) (List.mem_range.mpr hk) s.slot
  · exact ⟨_, writeV_writes (exec_vmxdot ..) hr rfl, rfl⟩
  · exact (exec_baq ..).trans (execBaq_writes hg hr)
  · exact (exec_baq ..).trans (execBaq_compute h)

end Sys2Proof.Machine
end

