-- ==== Sys2Proof/Proofs/CommandEntry.lean ====
section
/-! PROOFS. The rules that the statements about tile commands share: a range that passes its checks, what the entry of a command
leaves, and a form with nothing in its way (R218 to R222, R229, R236). -/

namespace Sys2Proof.Machine

open Sys2Proof Sys2Proof.Safety

variable {s t u : State} {x y : Xl} {c d : Cmd} {pl : Place} {op q : Nat} {m : Bool}

/-! ### A range (R220) -/

section
variable {va : Word} {align len : Nat} {runs : List (Nat × Nat)} {write : Bool}

theorem rangeOk_onlyTlbs (h : rangeOk s t q va align len runs write x) : onlyTlbs s t := by
  obtain ⟨_, _, ⟨_, hx, _⟩, _⟩ := h
  exact State.onlyTlbs_of_translate hx

/-- A range that passes its checks goes on, at the state in which the TLBs have been used. -/
theorem withRange_open (h : rangeOk s t q va align len runs write x) (k : Xl → State → Out) :
    withRange q va align len runs write k s = k x t := by
  obtain ⟨hva, hlen, ⟨z, hz, hx⟩, hleaf, hruns, hmove, hout⟩ := h
  have haligned : ¬(va.toNat % align ≠ 0 ∨ len % align ≠ 0) := fun e => e.elim (absurd hva) (absurd hlen)
  rw [withRange, if_neg haligned, withXl, hz]
  dsimp only
  rw [← hx, if_neg (Nat.not_lt.mpr hleaf), if_neg (ne_true_of_eq_false hruns)]
  exact toPage_open hmove hout _

theorem withLinear_open {n : Nat} (h : rangeOk s t q va 16 n [(0, n)] write x) (k : Xl → State → Out) :
    withLinear q va n write k s = k x t := withRange_open h k

theorem withShaped_open {r : Shape} {n : Nat} {w : Word}
    (h : rangeOk s t q (BitVec.ofNat 64 r.base + w) 16 (r.extent n) (r.runs n) write x) (k : Word → Xl → State → Out) :
    withShaped q r n w write k s = k (BitVec.ofNat 64 r.base + w) x t := withRange_open h _

end

/-! ### What the steps of an entry leave -/

/-- The slot in hand is as it was but for its follow-on group, and memory as well: all that a command may change before it is
counted. -/
def Issuing (s t : State) : Prop :=
  t.cur = s.cur ∧ { t.slot with follow := s.slot.follow, members := s.slot.members } = s.slot ∧ sameMemory s t

theorem Issuing.trans (h : Issuing s t) (k : Issuing t u) : Issuing s u := by
  obtain ⟨hcur, hslot, hmem⟩ := h
  obtain ⟨kcur, kslot, kmem⟩ := k
  refine ⟨kcur.trans hcur, ?_, fun a => (kmem a).trans (hmem a)⟩
  rw [← hslot, ← kslot]

theorem onlyTlbs.issuing (h : onlyTlbs s t) : Issuing s t := ⟨h.cur, by rw [h.slot], h.sameMemory⟩

theorem Issuing.updEngine (s : State) (e : Nat) (f : Engine → Engine) : Issuing s (s.updEngine e f) := ⟨rfl, rfl, fun _ => rfl⟩
theorem Issuing.updCore (s : State) (n : Nat) (f : Core → Core) : Issuing s (s.updCore n f) := ⟨rfl, rfl, fun _ => rfl⟩
theorem Issuing.post (s : State) (a : Agent) (p n b i g) : Issuing s (s.post a p n b i g) := ⟨rfl, rfl, fun _ => rfl⟩

theorem Issuing.upd (s : State) (follow members : Nat) :
    Issuing s (s.upd (fun sl => { sl with follow := follow, members := members })) :=
  ⟨rfl, by rw [State.slot_upd], fun _ => rfl⟩

theorem Issuing.sendCmd (s : State) (pl : Place) (c : Cmd) : Issuing s (s.sendCmd pl c) := by
  unfold State.sendCmd
  dsimp only
  split
  · exact (Issuing.post ..).trans (.post ..)
  · exact .post ..

theorem Issuing.joinFollow (s : State) : Issuing s s.joinFollow.1 := by
  refine Issuing.trans (t := if s.slot.members = 0 then
    s.updCore s.cur.1 (fun k => { k with followNext := k.followNext + 1 }) else s) ?_ ((Issuing.upd ..).trans (.updEngine ..))
  split
  · exact .updCore ..
  · exact ⟨rfl, rfl, fun _ => rfl⟩

/-- A member joins its slot's group, another command none (R229). -/
def State.joined (s : State) (member : Bool) : State × Nat := if member then s.joinFollow else (s, 0)

theorem Issuing.joined (s : State) (member : Bool) : Issuing s (s.joined member).1 := by
  cases member
  · exact ⟨rfl, rfl, fun _ => rfl⟩
  · exact .joinFollow s

theorem State.joined_net (s : State) (member : Bool) : (s.joined member).1.mach.net = s.mach.net := by
  cases member
  · rfl
  · show (if s.slot.members = 0 then s.updCore _ _ else s).mach.net = _
    split <;> rfl

/-! ### What the count of a command leaves (R218, R236) -/

@[simp] theorem State.engineAt_countCmd (s : State) (c : Cmd) (e : Nat) : (s.countCmd c).engineAt e = s.engineAt e := by
  unfold State.countCmd; dsimp only; split <;> rfl
@[simp] theorem State.countCmd_net (s : State) (c : Cmd) : (s.countCmd c).mach.net = s.mach.net := by
  unfold State.countCmd; dsimp only; split <;> rfl
theorem State.sameMemory_countCmd (s : State) (c : Cmd) : sameMemory s (s.countCmd c) := by
  unfold State.countCmd; dsimp only; split <;> exact fun _ => rfl

@[simp] theorem State.slot_countCmd (s : State) (c : Cmd) : (s.countCmd c).slot =
    if c.matrix then { s.slot with cnttl := s.slot.cnttl + 1 } else { s.slot with cntcp := s.slot.cntcp + 1 } := by
  unfold State.countCmd
  dsimp only
  split
  · exact State.slot_upd ..
  · exact (State.slot_updTile ..).trans (State.slot_upd ..)

@[simp] theorem State.retire_net (s : State) : s.retire.mach.net = s.mach.net := rfl

/-- A command for `q` has been counted: its counter is one more and the next word follows; registers and memory are as they
were. -/
def Counted (s v : State) (q : Nat) : Prop :=
  (if q = 0 then v.slot.cnttl = s.slot.cnttl + 1 ∧ v.slot.cntcp = s.slot.cntcp
    else v.slot.cntcp = s.slot.cntcp + 1 ∧ v.slot.cnttl = s.slot.cnttl) ∧
  v.slot.pc = s.slot.pc + 4 ∧ v.slot.x = s.slot.x ∧ v.slot.v = s.slot.v ∧ sameMemory s v

theorem Issuing.counted (h : Issuing s t) (hc : c.matrix = decide (q = 0)) : Counted s (t.countCmd c).retire q := by
  obtain ⟨-, hslot, hmem⟩ := h
  have hpc : t.slot.pc = s.slot.pc := congrArg (·.pc) hslot
  have hx : t.slot.x = s.slot.x := congrArg (·.x) hslot
  have hv : t.slot.v = s.slot.v := congrArg (·.v) hslot
  have htl : t.slot.cnttl = s.slot.cnttl := congrArg (·.cnttl) hslot
  have hcp : t.slot.cntcp = s.slot.cntcp := congrArg (·.cntcp) hslot
  have hsame : sameMemory s (t.countCmd c).retire := fun a => (t.sameMemory_countCmd c a).trans (hmem a)
  by_cases hq : q = 0 <;> simp [Counted, hc, hq, hpc, hx, hv, htl, hcp, hsame]

/-! ### Where a command arrives (R218, R222, R229) -/

/-- A command of `op` for `q`, or a marker, of the slot in hand. -/
structure IssuedBy (c : Cmd) (s : State) (op q : Nat) (marker : Bool) : Prop where
  op : c.op = BitVec.ofNat 8 op
  core : c.core = s.cur.1
  slot : c.slot = s.cur.2
  gen : c.gen = s.slot.gen
  matrix : c.matrix = decide (q = 0)
  marker : c.marker = marker

/-- A counted command, or marker, that is parked behind its slot's follow-on group. -/
theorem commandEntered_parked (h : Counted s u q) (hc : IssuedBy c s op q m)
    (hpark : q = 0 ∧ m = false ∧ s.slot.followOpen = true)
    (hlast : (u.engineAt (ownEngine s.cur.1 1)).parked.getLast? = some c) : commandEntered s u pl op q m := by
  obtain ⟨hcnt, hpc, hx, hv, hmem⟩ := h
  refine ⟨hcnt, hpc, hx, hv, hmem, c, hc.op, hc.core, hc.slot, hc.gen, hc.marker, ?_⟩
  rwa [if_pos hpark]

/-- One that is last in an own engine's queue. -/
theorem commandEntered_queued (h : Counted s u q) (hc : IssuedBy c s op q m)
    (hpark : ¬(q = 0 ∧ m = false ∧ s.slot.followOpen = true)) {e : Nat} (hown : s.ownTileEngine pl = some e)
    (hlast : (u.engineAt e).queue.getLast? = some c) : commandEntered s u pl op q m := by
  obtain ⟨hcnt, hpc, hx, hv, hmem⟩ := h
  refine ⟨hcnt, hpc, hx, hv, hmem, c, hc.op, hc.core, hc.slot, hc.gen, hc.marker, ?_⟩
  rwa [if_neg hpark, hown]

/-- A command has been put on the pair queue to another place, with the continuation that carries its second record (R118). -/
def State.sentCmd (s u : State) (pl : Place) (op : Nat) (c : Cmd) : Prop :=
  let k : PairKey := { src := s.here (.core s.cur.1), dst := pl, cls := 2 }
  ∃ p, p.body = .cmd c ∧
    if hasCont op then ∃ r v, r.body = .shapeCont s.cur.1 s.cur.2 s.slot.gen v ∧
      netGet u.mach.net k = netGet s.mach.net k ++ [p, r]
    else netGet u.mach.net k = netGet s.mach.net k ++ [p]

/-- One that leaves its tile. -/
theorem commandEntered_sent (h : Counted s u q) (hc : IssuedBy c s op q m)
    (hpark : ¬(q = 0 ∧ m = false ∧ s.slot.followOpen = true))
    (hown : s.ownTileEngine pl = none) (hsent : s.sentCmd u pl op c) : commandEntered s u pl op q m := by
  obtain ⟨hcnt, hpc, hx, hv, hmem⟩ := h
  refine ⟨hcnt, hpc, hx, hv, hmem, c, hc.op, hc.core, hc.slot, hc.gen, hc.marker, ?_⟩
  rw [if_neg hpark, hown]
  exact hsent

/-- A packet that is posted stands behind what was on its pair queue. -/
theorem State.post_net (s : State) (a : Agent) (p : Place) (n : Nat) (b : Body) (i : Nat) (g : BitVec 16) :
    netGet (s.post a p n b i g).mach.net { src := s.here a, dst := p, cls := n } =
      netGet s.mach.net { src := s.here a, dst := p, cls := n } ++
        [{ body := b, src := s.here a, job := s.job.tag, slot := i, gen := g }] := netGet_append ..

/-- The command with its first record inline, as it travels (R118). -/
def inlined (c : Cmd) : Cmd :=
  { c with shA := if usesA c.op.toNat then inlineShape c.shA c.paA else 0, shB := 0, waits := hasCont c.op.toNat }

theorem State.sendCmd_inlined (s : State) (pl : Place) (c : Cmd) : s.sendCmd pl c =
    if hasCont c.op.toNat then
      (s.post (.core s.cur.1) pl 2 (.cmd (inlined c)) s.cur.2 s.slot.gen).post (.core s.cur.1) pl 2
        (.shapeCont c.core c.slot c.gen (inlineShape c.shB c.paB)) s.cur.2 s.slot.gen
    else s.post (.core s.cur.1) pl 2 (.cmd (inlined c)) s.cur.2 s.slot.gen := rfl

theorem State.sendCmd_sends (hcur : t.cur = s.cur) (hpart : t.part = s.part) (hnet : t.mach.net = s.mach.net)
    (hc : IssuedBy c s op q m) (hop : op < 256) : s.sentCmd (t.sendCmd pl c) pl op (inlined c) := by
  have hno : c.op.toNat = op := by rw [hc.op, BitVec.toNat_ofNat, Nat.mod_eq_of_lt hop]
  have hkey : t.here (.core t.cur.1) = s.here (.core s.cur.1) := by rw [State.here_congr hpart, hcur]
  refine ⟨{ body := .cmd (inlined c), src := t.here (.core t.cur.1), job := t.job.tag, slot := t.cur.2, gen := t.slot.gen }, rfl, ?_⟩
  rw [State.sendCmd_inlined, hno, ← hkey, ← hnet]
  split
  · refine ⟨{ body := .shapeCont c.core c.slot c.gen (inlineShape c.shB c.paB), src := t.here (.core t.cur.1), job := t.job.tag
              slot := t.cur.2, gen := t.slot.gen }, _, by rw [hc.core, hc.slot, hc.gen], ?_⟩
    exact (State.post_net ..).trans ((congrArg (· ++ _) (t.post_net ..)).trans (List.append_assoc ..))
  · exact State.post_net ..

/-! ### Entry (R218 step 9) -/

/-- What an instruction answers when its command, or marker, enters. -/
def enters (s : State) (o : Out) (pl : Place) (op q : Nat) (marker : Bool := false) : Prop :=
  ∃ v, o = .next v ∧ commandEntered s v pl op q marker

/-- An instruction that answers what enters has its command, or marker, enter. -/
theorem enters_of_eq {o o' : Out} (h : o' = o) (he : enters s o pl op q m) :
    ∃ v, o' = .next v ∧ commandEntered s v pl op q m := h ▸ he

theorem State.enterCmd_parks {s0 : State} (hpark : c.matrix = true ∧ c.marker = false ∧ s.slot.followOpen = true) (member : Bool) :
    s.enterCmd s0 pl member c =
      .next ((((s.upd (fun sl => { sl with follow := 0, members := 0 })).updEngine (ownEngine s.cur.1 1) (fun e => { e with
        parked := e.parked ++ [{ s.numbered c with follow := s.slot.follow }] })).countCmd
          { s.numbered c with follow := s.slot.follow }).retire) := if_pos hpark

theorem State.enterCmd_queues {s0 : State} (hpark : ¬(c.matrix = true ∧ c.marker = false ∧ s.slot.followOpen = true)) {e : Nat}
    (hown : s.ownTileEngine pl = some e) (hfull : s.engineFull e = false) (member : Bool) :
    s.enterCmd s0 pl member c =
      .next ((((s.joined member).1.updEngine e (fun k => { k with
        queue := k.queue ++ [{ s.numbered c with follow := (s.joined member).2 }] })).countCmd
          { s.numbered c with follow := (s.joined member).2 }).retire) := by
  refine (if_neg hpark).trans ?_
  rw [hown]
  exact if_neg (ne_true_of_eq_false hfull)

theorem State.enterCmd_sends {s0 : State} (hpark : ¬(c.matrix = true ∧ c.marker = false ∧ s.slot.followOpen = true))
    (hown : s.ownTileEngine pl = none) (member : Bool) :
    s.enterCmd s0 pl member c =
      .next ((((s.joined member).1.sendCmd pl { s.numbered c with follow := (s.joined member).2 }).countCmd
        { s.numbered c with follow := (s.joined member).2 }).retire) := by
  refine (if_neg hpark).trans ?_
  rw [hown]
  rfl

theorem onlyTlbs.ownTileEngine (h : onlyTlbs s t) (pl : Place) : t.ownTileEngine pl = s.ownTileEngine pl := by
  rw [State.ownTileEngine, State.ownTileEngine, h.part, h.cur]

theorem State.joined_part (s : State) (member : Bool) : (s.joined member).1.part = s.part := by
  cases member
  · rfl
  · show (if s.slot.members = 0 then s.updCore _ _ else s).part = _
    split <;> rfl

/-- A command of the slot in hand enters: behind its open group, in a queue that has a place, or on its way to another tile. -/
theorem State.enterCmd_enters (hT : onlyTlbs s u) (hc : IssuedBy c s op q m) (hop : op < 256)
    (hroom : (q = 0 ∧ m = false ∧ s.slot.followOpen = true) ∨ queueOpen u pl) (member : Bool) :
    enters s (u.enterCmd s pl member c) pl op q m := by
  have hnum (n : Nat) : IssuedBy { u.numbered c with follow := n } s op q m :=
    ⟨hc.op, hc.core, hc.slot, hc.gen, hc.matrix, hc.marker⟩
  have hcond : (c.matrix = true ∧ c.marker = false ∧ u.slot.followOpen = true) ↔ (q = 0 ∧ m = false ∧ s.slot.followOpen = true) := by
    rw [hc.matrix, hc.marker, hT.slot, decide_eq_true_iff]
  by_cases hpark : q = 0 ∧ m = false ∧ s.slot.followOpen = true
  · refine ⟨_, State.enterCmd_parks (hcond.mpr hpark) member, commandEntered_parked
      ((hT.issuing.trans ((Issuing.upd ..).trans (.updEngine ..))).counted hc.matrix) (hnum u.slot.follow) hpark ?_⟩
    rw [← hT.cur]
    exact (congrArg (fun e : Engine => e.parked.getLast?)
      ((State.engineAt_countCmd ..).trans (State.engineAt_updEngine_self ..))).trans List.getLast?_concat
  · have hnot := mt hcond.mp hpark
    cases hown : s.ownTileEngine pl with
    | some e =>
      have hown' := (hT.ownTileEngine pl).trans hown
      refine ⟨_, State.enterCmd_queues hnot hown' (hroom.resolve_left hpark e hown') member, commandEntered_queued
        ((hT.issuing.trans ((Issuing.joined ..).trans (.updEngine ..))).counted hc.matrix) (hnum (u.joined member).2) hpark hown ?_⟩
      exact (congrArg (fun e : Engine => e.queue.getLast?)
        ((State.engineAt_countCmd ..).trans (State.engineAt_updEngine_self ..))).trans List.getLast?_concat
    | none =>
      have hjoin := hT.issuing.trans (Issuing.joined u member)
      have hsent := State.sendCmd_sends (pl := pl) hjoin.1 ((u.joined_part member).trans hT.part)
        ((u.joined_net member).trans (congrArg (·.mach.net) hT.1 :)) (hnum (u.joined member).2) hop
      refine ⟨_, State.enterCmd_sends hnot ((hT.ownTileEngine pl).trans hown) member, commandEntered_sent
        (c := inlined { u.numbered c with follow := (u.joined member).2 }) ((hjoin.trans (Issuing.sendCmd ..)).counted hc.matrix)
        ⟨hc.op, hc.core, hc.slot, hc.gen, hc.matrix, hc.marker⟩ hpark hown ?_⟩
      rw [State.sentCmd, State.retire_net, State.countCmd_net]
      exact hsent

/-- A command not of a follow-on group, or with a place in it: the destination lies in the own slice and the group has less than 8
members (R229). -/
theorem State.memberBad_of {member : Bool} {n : Nat} (h : member = true → s.inOwnSlice y n = true ∧ s.slot.members < 8) :
    s.memberBad member y n = false := by
  cases member with
  | false => rfl
  | true => simp [State.memberBad, h rfl]

/-! ### The form (R218 steps 1 to 5) -/

/-- Steps 6 to 9 of R218 by a function of the operation, on the registers of a `tcmd`. -/
abbrev onRegisters (f : Nat → Word → Word → Word → Word → Word → Nat → State → Out) (op : Nat) (a b c : Reg) (q : Nat)
    (s : State) : Out :=
  f op (tileW0 op (s.slot.rx a)) (s.slot.rx b) (s.slot.rx c) s.slot.treply (s.slot.rx a) q s

theorem tcmdForm_ready {a b c : Reg} {q : BitVec 3} (h : commandReady s op a b c q) (i : Instr) :
    tcmdForm i op a b c q s = onRegisters opIssue op a b c q.toNat s := by
  obtain ⟨hr, hq⟩ := h
  rw [tcmdForm, issue_ready hr]
  exact if_neg (ne_false_of_eq_true hq)

end Sys2Proof.Machine
end

