-- ==== Sys2Proof/Proofs/CopyCommands.lean ====
section
/-! PROOFS. O26: the copy class at issue (R227 to R229). -/

namespace Sys2Proof.Machine

open Sys2Proof Sys2Proof.Safety

variable {s t u r : State} {i x y : Xl} {op q : Nat} {w0 w1 w2 w3 tv : Word}

section
variable {a b c : Reg} {q : BitVec 3}

theorem exec_copy (h : commandReady s 0x10 a b c q) : exec (.copy a b c q) s = onRegisters copyIssue 0x10 a b c q.toNat s :=
  (tcmdForm_ready h (.copy a b c q)).trans (by simp [onRegisters, opIssue, isMma])
theorem exec_copyf (h : commandReady s 0x12 a b c q) : exec (.copyf a b c q) s = onRegisters copyIssue 0x12 a b c q.toNat s :=
  (tcmdForm_ready h (.copyf a b c q)).trans (by simp [onRegisters, opIssue, isMma])
theorem exec_fill (h : commandReady s 0x41 a b c q) : exec (.fill a b c q) s = onRegisters fillIssue 0x41 a b c q.toNat s :=
  (tcmdForm_ready h (.fill a b c q)).trans (by simp [onRegisters, opIssue, isMma])
theorem exec_copy2 (h : commandReady s 0x11 a b c q) : exec (.copy2 a b c q) s = onRegisters copy2Issue 0x11 a b c q.toNat s :=
  (tcmdForm_ready h (.copy2 a b c q)).trans (by simp [onRegisters, opIssue, isMma])
theorem exec_gather (h : commandReady s 0x13 a b c q) : exec (.gather a b c q) s = onRegisters gatherIssue 0x13 a b c q.toNat s :=
  (tcmdForm_ready h (.gather a b c q)).trans (by simp [onRegisters, opIssue, isMma])
theorem exec_xpose (h : commandReady s 0x40 a b c q) : exec (.xpose a b c q) s = onRegisters xposeIssue 0x40 a b c q.toNat s :=
  (tcmdForm_ready h (.xpose a b c q)).trans (by simp [onRegisters, opIssue, isMma])

end

/-! ### Linear commands (R227, R229) -/

/-- COPY, and COPYF as a member with a place in its group. -/
theorem copyIssue_enters (hop : op < 256) (hlen : w0Acc w0 ≠ 0) (hx : rangeOk s t q w1 16 (w0Acc w0) [(0, w0Acc w0)] false x)
    (hy : rangeOk t u q w2 16 (w0Acc w0) [(0, w0Acc w0)] true y) (hroom : queueOpen u (s.enginePlace q (some x)))
    (hmem : decide (op = 0x12) = true → s.inOwnSlice y (w0Acc w0) = true ∧ s.slot.members < 8) :
    enters s (copyIssue op w0 w1 w2 w3 tv q s) (s.enginePlace q (some x)) op q := by
  unfold copyIssue
  dsimp only
  rw [if_neg hlen, withLinear_open hx, withLinear_open hy, if_neg (ne_true_of_eq_false (State.memberBad_of hmem))]
  exact State.enterCmd_enters (onlyTlbs_trans (rangeOk_onlyTlbs hx) (rangeOk_onlyTlbs hy)) ⟨rfl, rfl, rfl, rfl, rfl, rfl⟩ hop
    (.inr hroom) _

theorem fillIssue_enters (hop : op < 256) (hlen : w0Acc w0 ≠ 0) (hy : rangeOk s t q w2 16 (w0Acc w0) [(0, w0Acc w0)] true y)
    (hroom : queueOpen t (s.enginePlace q (some y))) :
    enters s (fillIssue op w0 w1 w2 w3 tv q s) (s.enginePlace q (some y)) op q := by
  unfold fillIssue
  dsimp only
  rw [if_neg hlen, withLinear_open hy]
  exact State.enterCmd_enters (rangeOk_onlyTlbs hy) ⟨rfl, rfl, rfl, rfl, rfl, rfl⟩ hop (.inr hroom) _

/-! ### Shaped commands (R227 to R229) -/

/-- Two records are shapes in memory, neither of them empty (R215, R219). -/
def twoShapes (va vb : BitVec 128) : Prop := va ≠ 0 ∧ vb ≠ 0 ∧ (shapeOf va).kind = 0 ∧ (shapeOf vb).kind = 0

/-- With two such records only what else the operation checks can fail it. -/
theorem twoShapes_pass {va vb : BitVec 128} {P : Prop} (h : twoShapes va vb) (hP : ¬P) :
    ¬(va = 0 ∨ vb = 0 ∨ (shapeOf va).kind ≠ 0 ∨ (shapeOf vb).kind ≠ 0 ∨ P) := by
  obtain ⟨ha, hb, hka, hkb⟩ := h
  simp only [ha, hb, hka, hkb, hP, ne_eq, not_true_eq_false, or_self, not_false_eq_true]

section
variable {A B : Shape} (hA : shapeOf (s.shape (w0Sha w0)) = A) (hB : shapeOf (s.shape (w0Shb w0)) = B) (hop : op < 256)
  (hshapes : twoShapes (s.shape (w0Sha w0)) (s.shape (w0Shb w0)))
include hA hB hop hshapes

theorem copy2Issue_enters (hrows : A.rows = B.rows) (hcols : A.cols = B.cols) (hpos : 1 ≤ w0Acc w0) (hmax : w0Acc w0 ≤ 65535)
    (hx : rangeOk s t q (BitVec.ofNat 64 A.base + w1) 16 (A.extent (w0Acc w0)) (A.runs (w0Acc w0)) false x)
    (hy : rangeOk t u q (BitVec.ofNat 64 B.base + w2) 16 (B.extent (w0Acc w0)) (B.runs (w0Acc w0)) true y)
    (hroom : queueOpen u (s.enginePlace q (some x)))
    (hmem : 128 ≤ w0Flags w0 → s.inOwnSlice y (B.extent (w0Acc w0)) = true ∧ s.slot.members < 8) :
    enters s (copy2Issue op w0 w1 w2 w3 tv q s) (s.enginePlace q (some x)) op q := by
  subst hA hB
  unfold copy2Issue
  dsimp only
  rw [if_neg (twoShapes_pass hshapes (by omega)), withShaped_open hx, withShaped_open hy,
    if_neg (ne_true_of_eq_false (State.memberBad_of fun e => hmem (of_decide_eq_true e)))]
  exact State.enterCmd_enters (onlyTlbs_trans (rangeOk_onlyTlbs hx) (rangeOk_onlyTlbs hy)) ⟨rfl, rfl, rfl, rfl, rfl, rfl⟩ hop
    (.inr hroom) _

/-- GATHER: the index array, the granule at the source's base, the destination (R228; log 88). -/
theorem gatherIssue_enters (hcols : A.cols = B.cols) (hi : rangeOk s t q w1 4 (4 * B.rows) [(0, 4 * B.rows)] false i)
    (hx : rangeOk t u q (BitVec.ofNat 64 A.base) 16 0 [(0, 16)] false x)
    (hy : rangeOk u r q (BitVec.ofNat 64 B.base + w2) 16 (B.extent 1) (B.runs 1) true y)
    (hroom : queueOpen r (s.enginePlace q (some i)))
    (hmem : 128 ≤ w0Flags w0 → s.inOwnSlice y (B.extent 1) = true ∧ s.slot.members < 8) :
    enters s (gatherIssue op w0 w1 w2 w3 tv q s) (s.enginePlace q (some i)) op q := by
  subst hA hB
  unfold gatherIssue
  dsimp only
  rw [if_neg (twoShapes_pass hshapes (not_not.mpr hcols)), withRange_open hi, withRange_open hx, withShaped_open hy,
    if_neg (ne_true_of_eq_false (State.memberBad_of fun e => hmem (of_decide_eq_true e)))]
  exact State.enterCmd_enters
    (onlyTlbs_trans (onlyTlbs_trans (rangeOk_onlyTlbs hi) (rangeOk_onlyTlbs hx)) (rangeOk_onlyTlbs hy))
    ⟨rfl, rfl, rfl, rfl, rfl, rfl⟩ hop (.inr hroom) _

/-- XPOSE: the destination has the source's rows and elements exchanged, of a format of whole bytes. -/
theorem xposeIssue_enters (hx : rangeOk s t q (BitVec.ofNat 64 A.base + w1) 16 (A.extent 1) (A.runs 1) false x)
    (hy : rangeOk t u q (BitVec.ofNat 64 B.base + w2) 16 (B.extent 1) (B.runs 1) true y)
    (hroom : queueOpen u (s.enginePlace q (some x)))
    (hfmt : fmtOf (effFmt none (some x.e) A) ≠ 4) (hrows : B.rows = A.elts (effFmt none (some x.e) A))
    (hcols : B.elts (effFmt none (some x.e) A) = A.rows) :
    enters s (xposeIssue op w0 w1 w2 w3 tv q s) (s.enginePlace q (some x)) op q := by
  subst hA hB
  unfold xposeIssue
  dsimp only
  rw [if_neg (by simpa only [or_false] using twoShapes_pass hshapes not_false), withShaped_open hx, withShaped_open hy,
    if_neg fun e => e.elim hfmt fun e => e.elim (absurd hrows) (absurd hcols)]
  exact State.enterCmd_enters (onlyTlbs_trans (rangeOk_onlyTlbs hx) (rangeOk_onlyTlbs hy)) ⟨rfl, rfl, rfl, rfl, rfl, rfl⟩ hop
    (.inr hroom) _

end

/-- Settles O26. -/
theorem copyClassCommandsEnterTheirQueue : Obligations.copy_class_commands_enter_their_queue := by
  intro s t u r a b c q i x y w1 w2 W len va vb A B base pl enters shaped member
  refine ⟨fun hr hlen hx hy hroom => ?_, fun hr hlen hx hy hroom hmem => ?_, fun hr hlen hy hroom => ?_,
    fun hr hshapes hrows hcols hpos hmax hx hy hroom hmem => ?_, fun hr hshapes hcols hi hx hy hroom hmem => ?_,
    fun hr hshapes hx hy hroom ⟨hfmt, hrows, hcols⟩ => ?_⟩
  · exact enters_of_eq (exec_copy hr) (copyIssue_enters (by decide) hlen hx hy hroom (by simp))
  · exact enters_of_eq (exec_copyf hr) (copyIssue_enters (by decide) hlen hx hy hroom fun _ => hmem)
  · exact enters_of_eq (exec_fill hr) (fillIssue_enters (by decide) hlen hy hroom)
  · exact enters_of_eq (exec_copy2 hr)
      (copy2Issue_enters rfl rfl (by decide) hshapes hrows hcols hpos hmax hx hy hroom hmem)
  · exact enters_of_eq (exec_gather hr) (gatherIssue_enters rfl rfl (by decide) hshapes hcols hi hx hy hroom hmem)
  · exact enters_of_eq (exec_xpose hr) (xposeIssue_enters rfl rfl (by decide) hshapes hx hy hroom hfmt hrows hcols)

end Sys2Proof.Machine
end

