-- ==== Sys2Proof/Proofs/MatrixCommands.lean ====
section
/-! PROOFS. O27: the matrix commands at issue (R221, R223 to R226, R229). -/

namespace Sys2Proof.Machine

open Sys2Proof Sys2Proof.Safety

variable {s t u : State} {x y : Xl} {op : Nat} {w0 w1 w2 w3 tv : Word}

section
variable {a b c : Reg} {q : BitVec 3}

theorem exec_mma (h : commandReady s 0x01 a b c q) : exec (.mma a b c q) s = onRegisters mmaIssue 0x01 a b c q.toNat s :=
  (tcmdForm_ready h (.mma a b c q)).trans (by simp [onRegisters, opIssue, isMma])
theorem exec_mmaz (h : commandReady s 0x02 a b c q) : exec (.mmaz a b c q) s = onRegisters mmaIssue 0x02 a b c q.toNat s :=
  (tcmdForm_ready h (.mmaz a b c q)).trans (by simp [onRegisters, opIssue, isMma])
theorem exec_mmaw (h : commandReady s 0x03 a b c q) : exec (.mmaw a b c q) s = onRegisters mmaIssue 0x03 a b c q.toNat s :=
  (tcmdForm_ready h (.mmaw a b c q)).trans (by simp [onRegisters, opIssue, isMma])
theorem exec_accst (h : commandReady s 0x04 a b c q) : exec (.accst a b c q) s = onRegisters accstIssue 0x04 a b c q.toNat s :=
  (tcmdForm_ready h (.accst a b c q)).trans (by simp [onRegisters, opIssue, isMma])
theorem exec_accld (h : commandReady s 0x05 a b c q) : exec (.accld a b c q) s = onRegisters accldIssue 0x05 a b c q.toNat s :=
  (tcmdForm_ready h (.accld a b c q)).trans (by simp [onRegisters, opIssue, isMma])
theorem exec_accz (h : commandReady s 0x06 a b c q) : exec (.accz a b c q) s = onRegisters acczIssue 0x06 a b c q.toNat s :=
  (tcmdForm_ready h (.accz a b c q)).trans (by simp [onRegisters, opIssue, isMma])

end

/-- A place for a matrix command: an open follow-on group behind which it parks, or the queue's (R222, R229). -/
def State.matrixRoom (s u : State) : Prop := s.slot.followOpen = true ∨ queueOpen u (s.enginePlace 0 none)

/-- A matrix command enters where it has a place. -/
theorem State.matrixRoom.enters {c : Cmd} (hroom : s.matrixRoom u) (hT : onlyTlbs s u) (hc : IssuedBy c s op 0 false) (hop : op < 256) :
    enters s (u.enterCmd s (s.enginePlace 0 none) false c) (s.enginePlace 0 none) op 0 :=
  State.enterCmd_enters hT hc hop (hroom.imp_left fun h => ⟨rfl, rfl, h⟩) false

/-! ### MMA, MMAZ and MMAW (R223, R224) -/

/-- The formats and sizes of a matrix command's operands agree (R224), `fa` and `fb` being their effective formats. -/
def mmaAgree (op : Nat) (A B : Shape) (fa fb : BitVec 8) : Prop :=
  mmaFormats op (fmtOf fa) (fmtOf fb) = true ∧ A.elts fa % 8 = 0 ∧ A.elts fa ≤ 256 ∧ B.elts fb = A.elts fa

/-- Records, sizes and accumulator range that MMA lets through before its ranges are translated (R224; log 117). -/
theorem mma_sizes_pass {va vb : BitVec 128} {A B : Shape} {acc n : Nat} (ha : va ≠ 0) (hb : vb ≠ 0) (hkb : B.kind = 0)
    (hgroup : A.kind = 1 → A.groupOk n = true) (hm : A.rows ≤ 64) (hn : B.rows ≤ 64) (hacc : acc < 0x10000)
    (hrange : acc + A.rows * B.rows ≤ 0x10000) :
    ¬(va = 0 ∨ vb = 0 ∨ B.kind ≠ 0 ∨ (A.kind = 1 ∧ A.groupOk n = false) ∨ 64 < A.rows ∨ 64 < B.rows ∨
      0x10000 < acc + A.rows * B.rows ∨ 0x10000 ≤ acc) := by
  have hno : ¬(A.kind = 1 ∧ A.groupOk n = false) := fun ⟨hk, hg⟩ => by simp [hgroup hk] at hg
  simp only [ha, hb, hkb, hno, ne_eq, not_true_eq_false, false_or]
  omega

section
variable {A B : Shape} (hA : shapeOf (s.shape (w0Sha w0)) = A) (hB : shapeOf (s.shape (w0Shb w0)) = B) (hop : op < 256)
  (hroom : s.matrixRoom u) (ha : s.shape (w0Sha w0) ≠ 0) (hb : s.shape (w0Shb w0) ≠ 0) (hkb : B.kind = 0)
  (hm : A.rows ≤ 64) (hn : B.rows ≤ 64) (hacc : w0Acc w0 < 0x10000) (hrange : w0Acc w0 + A.rows * B.rows ≤ 0x10000)
  (hy : rangeOk t u 0 (BitVec.ofNat 64 B.base + w2) 16 (B.extent (ktiles op w0)) (B.runs (ktiles op w0)) false y)
  (hblocks : blocksOk (effFmt (w0Fovr w0) (some y.e) B) (some y.e) ((BitVec.ofNat 64 B.base + w2).toNat - y.e.spanVa)
    (B.runs (ktiles op w0)) = true)
  (hscales : s.scalesDenied y B (ktiles op w0) (BitVec.ofNat 64 B.base + w2) (effFmt (w0Fovr w0) (some y.e) B) false = false)
include hA hB hop hroom ha hb hkb hm hn hacc hrange hy hblocks hscales

/-- Operand A in memory. -/
theorem mmaIssue_enters (hka : A.kind = 0)
    (hx : rangeOk s t 0 (BitVec.ofNat 64 A.base + w1) 16 (A.extent (ktiles op w0)) (A.runs (ktiles op w0)) false x)
    (hscalesA : s.scalesDenied x A (ktiles op w0) (BitVec.ofNat 64 A.base + w1) (effFmt none (some x.e) A) false = false)
    (hblocksA : blocksOk (effFmt none (some x.e) A) (some x.e) ((BitVec.ofNat 64 A.base + w1).toNat - x.e.spanVa)
      (A.runs (ktiles op w0)) = true)
    (hagree : mmaAgree op A B (effFmt none (some x.e) A) (effFmt (w0Fovr w0) (some y.e) B)) :
    enters s (mmaIssue op w0 w1 w2 w3 tv 0 s) (s.enginePlace 0 none) op 0 := by
  obtain ⟨hfmts, hmod, hmax, helts⟩ := hagree
  unfold mmaIssue
  dsimp only
  rw [hA, hB, if_neg (mma_sizes_pass ha hb hkb (by omega) hm hn hacc hrange), if_neg (by omega), withShaped_open hx,
    if_neg (ne_true_of_eq_false hscalesA), withShaped_open hy, if_neg (ne_true_of_eq_false hscales),
    if_pos (by simp only [hblocksA, hblocks, hfmts, hmod, hmax, helts, decide_true, Bool.and_self])]
  exact hroom.enters (onlyTlbs_trans (rangeOk_onlyTlbs hx) (rangeOk_onlyTlbs hy)) ⟨rfl, rfl, rfl, rfl, rfl, rfl⟩ hop

/-- Operand A in a group of vector registers (R215). -/
theorem mmaIssue_group_enters (hka : A.kind = 1) (ht : t = s) (hgroup : A.groupOk (ktiles op w0) = true)
    (hblocksA : blocksOk (effFmt none none A) none 0 [] = true)
    (hagree : mmaAgree op A B (effFmt none none A) (effFmt (w0Fovr w0) (some y.e) B)) :
    enters s (mmaIssue op w0 w1 w2 w3 tv 0 s) (s.enginePlace 0 none) op 0 := by
  obtain ⟨hfmts, hmod, hmax, helts⟩ := hagree
  subst ht
  unfold mmaIssue
  dsimp only
  rw [hA, hB, if_neg (mma_sizes_pass ha hb hkb (fun _ => hgroup) hm hn hacc hrange), if_pos hka, withShaped_open hy,
    if_neg (ne_true_of_eq_false hscales),
    if_pos (by simp only [hblocksA, hblocks, hfmts, hmod, hmax, helts, decide_true, Bool.and_self])]
  exact hroom.enters (rangeOk_onlyTlbs hy) ⟨rfl, rfl, rfl, rfl, rfl, rfl⟩ hop

end

/-! ### ACCST, ACCLD and ACCZ (R225, R226) -/

theorem accstIssue_enters {B : Shape} (hB : shapeOf (s.shape (w0Shb w0)) = B) (hop : op < 256) (hroom : s.matrixRoom t)
    (hb : s.shape (w0Shb w0) ≠ 0) (hkb : B.kind = 0) (hflags : w0Flags w0 % 4 ≠ 3) (hscale : w1.toNat < 2 ^ 32)
    (hacc : w0Acc w0 < 0x10000) (hy : rangeOk s t 0 (BitVec.ofNat 64 B.base + w2) 16 (B.extent 1) (B.runs 1) true y)
    (hscales : s.scalesDenied y B 1 (BitVec.ofNat 64 B.base + w2) (effFmt (w0Fovr w0) (some y.e) B) true = false)
    (hblocks : blocksOk (effFmt (w0Fovr w0) (some y.e) B) (some y.e) ((BitVec.ofNat 64 B.base + w2).toNat - y.e.spanVa)
      (B.runs 1) = true)
    (hrange : w0Acc w0 + B.rows * B.elts (effFmt (w0Fovr w0) (some y.e) B) ≤ 0x10000) :
    enters s (accstIssue op w0 w1 w2 w3 tv 0 s) (s.enginePlace 0 none) op 0 := by
  have hbad : ¬(s.shape (w0Shb w0) = 0 ∨ B.kind ≠ 0 ∨ w0Flags w0 % 4 = 3 ∨ 2 ^ 32 ≤ w1.toNat ∨ 0x10000 ≤ w0Acc w0) := by
    simp only [hb, hkb, hflags, ne_eq, not_true_eq_false, false_or]; omega
  unfold accstIssue
  dsimp only
  rw [hB, if_neg hbad, withShaped_open hy, if_neg (ne_true_of_eq_false hscales),
    if_pos (by simp only [hblocks, hrange, decide_true, Bool.and_self])]
  exact hroom.enters (rangeOk_onlyTlbs hy) ⟨rfl, rfl, rfl, rfl, rfl, rfl⟩ hop

/-- A format that ACCLD decodes, of entries that the accumulators hold (R226). -/
def accldGood (A : Shape) (acc : Nat) (f : BitVec 8) : Prop :=
  (blkOf f = 0 ∨ (fmtOf f ≠ 0 ∧ fmtOf f ≠ 7)) ∧ acc + A.rows * A.elts f ≤ 0x10000

theorem accldDecodes_iff {f : BitVec 8} : (blkOf f = 0 ∨ (fmtOf f ≠ 0 ∧ fmtOf f ≠ 7)) ↔
    (!(decide (blkOf f ≠ 0) && (decide (fmtOf f = 0) || decide (fmtOf f = 7)))) = true := by
  simp only [Bool.not_eq_true', Bool.and_eq_false_iff, decide_eq_false_iff_not, not_not, Bool.or_eq_false_iff, ne_eq]

section
variable {A : Shape} (hA : shapeOf (s.shape (w0Sha w0)) = A) (hop : op < 256) (ha : s.shape (w0Sha w0) ≠ 0) (hacc : w0Acc w0 < 0x10000)
include hA hop ha hacc

/-- The source in memory. -/
theorem accldIssue_enters (hka : A.kind = 0) (hroom : s.matrixRoom t)
    (hx : rangeOk s t 0 (BitVec.ofNat 64 A.base + w1) 16 (A.extent 1) (A.runs 1) false x)
    (hscales : s.scalesDenied x A 1 (BitVec.ofNat 64 A.base + w1) (effFmt (w0Fovr w0) (some x.e) A) false = false)
    (hblocks : blocksOk (effFmt (w0Fovr w0) (some x.e) A) (some x.e) ((BitVec.ofNat 64 A.base + w1).toNat - x.e.spanVa)
      (A.runs 1) = true)
    (hgood : accldGood A (w0Acc w0) (effFmt (w0Fovr w0) (some x.e) A)) :
    enters s (accldIssue op w0 w1 w2 w3 tv 0 s) (s.enginePlace 0 none) op 0 := by
  obtain ⟨hdecodes, hrange⟩ := hgood
  rw [accldDecodes_iff] at hdecodes
  have hbad : ¬(s.shape (w0Sha w0) = 0 ∨ (A.kind = 1 ∧ A.groupOk 1 = false) ∨ 0x10000 ≤ w0Acc w0) := by
    simp only [ha, hka, zero_ne_one, false_and, false_or]; omega
  unfold accldIssue
  dsimp only
  rw [hA, if_neg hbad, if_neg (by omega), withShaped_open hx, if_neg (ne_true_of_eq_false hscales),
    if_pos (by simp only [hblocks, hdecodes, hrange, decide_true, Bool.and_self])]
  exact hroom.enters (rangeOk_onlyTlbs hx) ⟨rfl, rfl, rfl, rfl, rfl, rfl⟩ hop

/-- The source in a group of vector registers (R215; log 120). -/
theorem accldIssue_group_enters (hka : A.kind = 1) (hroom : s.matrixRoom s) (hgroup : A.groupOk 1 = true)
    (hblocks : blocksOk (effFmt (w0Fovr w0) none A) none 0 [] = true)
    (hgood : accldGood A (w0Acc w0) (effFmt (w0Fovr w0) none A)) :
    enters s (accldIssue op w0 w1 w2 w3 tv 0 s) (s.enginePlace 0 none) op 0 := by
  obtain ⟨hdecodes, hrange⟩ := hgood
  rw [accldDecodes_iff] at hdecodes
  have hbad : ¬(s.shape (w0Sha w0) = 0 ∨ (A.kind = 1 ∧ A.groupOk 1 = false) ∨ 0x10000 ≤ w0Acc w0) := by
    simp only [ha, hgroup, Bool.true_eq_false, and_false, false_or]; omega
  unfold accldIssue
  dsimp only
  rw [hA, if_neg hbad, if_pos hka, if_pos (by simp only [hblocks, hdecodes, hrange, decide_true, Bool.and_self])]
  exact hroom.enters (onlyTlbs_refl s) ⟨rfl, rfl, rfl, rfl, rfl, rfl⟩ hop

end

theorem acczIssue_enters (hop : op < 256) (hroom : s.matrixRoom s) (hpos : 1 ≤ w1.toNat) (hmax : w1.toNat ≤ 65536)
    (hacc : w0Acc w0 < 0x10000) (hrange : w0Acc w0 + w1.toNat ≤ 0x10000) :
    enters s (acczIssue op w0 w1 w2 w3 tv 0 s) (s.enginePlace 0 none) op 0 := by
  have hne : w1 ≠ 0 := fun e => by simp [e] at hpos
  rw [acczIssue, if_neg (by simp only [hne, false_or]; omega)]
  exact hroom.enters (onlyTlbs_refl s) ⟨rfl, rfl, rfl, rfl, rfl, rfl⟩ hop

/-- Settles O27. -/
theorem matrixCommandsEnterTheirQueue : Obligations.matrix_commands_enter_their_queue := by
  intro s t u a b c x y w1 w2 W acc va vb A B base pl enters room mul
  have hmul (op : Nat) (ins : Instr) (hop : op < 256)
      (hexec : commandReady s op a b c 0 → exec ins s = onRegisters mmaIssue op a b c 0 s) : mul op ins := by
    intro hr hroom ha hb hkb hm hn hacc hrange hy fb good hscales
    refine ⟨fun hka hx hscalesA ⟨hblocks, hagree⟩ hblocksA => ?_, fun hka ht hgroup ⟨hblocks, hagree⟩ hblocksA => ?_⟩
    · exact enters_of_eq (hexec hr)
        (mmaIssue_enters rfl rfl hop hroom ha hb hkb hm hn hacc hrange hy hblocks hscales hka hx hscalesA hblocksA hagree)
    · exact enters_of_eq (hexec hr)
        (mmaIssue_group_enters rfl rfl hop hroom ha hb hkb hm hn hacc hrange hy hblocks hscales hka ht hgroup hblocksA hagree)
  refine ⟨hmul 1 _ (by decide) exec_mma, hmul 2 _ (by decide) exec_mmaz, hmul 3 _ (by decide) exec_mmaw,
    fun hr hroom hb hkb hflags hscale hacc hy ⟨hscales, hblocks, hrange⟩ => ?_,
    fun hr ha hacc => ⟨fun hka hroom hx ⟨hscales, hblocks, hgood⟩ => ?_, fun hka hroom hgroup ⟨hblocks, hgood⟩ => ?_⟩,
    fun hr hroom hpos hmax hacc hrange => ?_⟩
  · exact enters_of_eq (exec_accst hr) (accstIssue_enters rfl (by decide) hroom hb hkb hflags hscale hacc hy hscales hblocks hrange)
  · exact enters_of_eq (exec_accld hr) (accldIssue_enters rfl (by decide) ha hacc hka hroom hx hscales hblocks hgood)
  · exact enters_of_eq (exec_accld hr) (accldIssue_group_enters rfl (by decide) ha hacc hka hroom hgroup hblocks hgood)
  · exact enters_of_eq (exec_accz hr) (acczIssue_enters (by decide) hroom hpos hmax hacc hrange)

end Sys2Proof.Machine
end

