-- ==== Sys2Proof/Proofs/CollectiveCommands.lean ====
section
/-! PROOFS. O28: multicast, contribution and stage descriptor at issue (R230, R231). -/

namespace Sys2Proof.Machine

open Sys2Proof Sys2Proof.Safety

variable {s t : State} {x : Xl} {op q : Nat} {w0 w1 w2 w3 tv : Word}

section
variable {a b c : Reg} {q : BitVec 3}

theorem exec_mcast (h : commandReady s 0x20 a b c q) : exec (.mcast a b c q) s = onRegisters mcastIssue 0x20 a b c q.toNat s :=
  (tcmdForm_ready h (.mcast a b c q)).trans (by simp [onRegisters, opIssue, isMma])
theorem exec_reduce (h : commandReady s 0x30 a b c q) : exec (.reduce a b c q) s = onRegisters reduceIssue 0x30 a b c q.toNat s :=
  (tcmdForm_ready h (.reduce a b c q)).trans (by simp [onRegisters, opIssue, isMma])
theorem exec_rstage (h : commandReady s 0x31 a b c q) : exec (.rstage a b c q) s = onRegisters rstageIssue 0x31 a b c q.toNat s :=
  (tcmdForm_ready h (.rstage a b c q)).trans (by simp [onRegisters, opIssue, isMma])

end

/-- The bits of a number from one above its highest are zero. -/
theorem bitsOf_eq_zero {n lo : Nat} (h : n < 2 ^ lo) (hi : Nat) : bitsOf n hi lo = 0 := by
  rw [bitsOf, Nat.shiftRight_eq_div_pow, Nat.div_eq_of_lt h, Nat.zero_mod]

/-- MCAST into one region with program access, the trailing B slot only with no sweep (R230, R33, R38). -/
theorem mcastIssue_enters {k : Nat} (hop : op < 256) (hroom : queueOpen t (s.enginePlace q none)) (hreserved : w2.toNat < 2 ^ 52)
    (htiles : bitsOf w2.toNat 35 20 ≠ 0) (hx : rangeOk s t q w1 16 (w0Acc w0) [(0, w0Acc w0)] false x)
    (haligned : w2.toNat % 2 ^ 20 % 16 = 0) (hend : w2.toNat % 2 ^ 20 + w0Acc w0 ≤ 2 ^ 20)
    (hfirst : sliceRegion (w2.toNat % 2 ^ 20) = some k) (hlast : sliceRegion (w2.toNat % 2 ^ 20 + (w0Acc w0 - 1)) = some k)
    (hsweep : k = 3 → ∀ tl ∈ s.mcastTiles (tileOf s.cur.1) w2, (s.clusterAt (clusterOf tl)).sweep = false) :
    enters s (mcastIssue op w0 w1 w2 w3 tv q s) (s.enginePlace q none) op q := by
  have hword : ¬(bitsOf w2.toNat 63 52 ≠ 0 ∨ bitsOf w2.toNat 35 20 = 0) := fun e =>
    e.elim (absurd (bitsOf_eq_zero hreserved 63)) htiles
  have hquiet : ¬(some k = some 3 ∧ (s.mcastTiles (tileOf s.cur.1) w2).any (fun t => (s.clusterAt (clusterOf t)).sweep) = true) := by
    rintro ⟨hk, hany⟩
    obtain ⟨tl, htl, hsw⟩ := List.any_eq_true.mp hany
    exact absurd hsw (ne_true_of_eq_false (hsweep (Option.some.inj hk) tl htl))
  unfold mcastIssue
  dsimp only
  rw [if_neg hword, withLinear_open hx, hfirst, hlast, if_neg (by omega), if_neg (by simp), if_neg (not_not.mpr rfl), if_neg hquiet]
  exact State.enterCmd_enters (rangeOk_onlyTlbs hx) ⟨rfl, rfl, rfl, rfl, rfl, rfl⟩ hop (.inr hroom) _

/-- REDUCE of whole lines, at most 64 KiB (R231). -/
theorem reduceIssue_enters (hop : op < 256) (hroom : queueOpen t (s.enginePlace q none)) (hstage : w2.toNat < 16)
    (hlines : w0Acc w0 % 64 = 0) (hmax : w0Acc w0 ≤ 65536) (hx : rangeOk s t q w1 16 (w0Acc w0) [(0, w0Acc w0)] false x) :
    enters s (reduceIssue op w0 w1 w2 w3 tv q s) (s.enginePlace q none) op q := by
  unfold reduceIssue
  dsimp only
  rw [if_neg (by omega), withLinear_open hx]
  exact State.enterCmd_enters (rangeOk_onlyTlbs hx) ⟨rfl, rfl, rfl, rfl, rfl, rfl⟩ hop (.inr hroom) _

/-- Where a stage descriptor has its stage write (Table 11-5). -/
def stageDest (d : Nat) : Nat := bitsOf d 19 10 * 2 ^ 20 + bitsOf d 39 20

/-- A stage descriptor without reserved bits, of a defined operation and an aligned destination, is judged by its destination. -/
theorem rstageIssue_destination (hstage : w2.toNat < 16) (htop : w1.toNat < 2 ^ 40) (hmid : bitsOf w1.toNat 9 8 = 0)
    (hcombine : bitsOf w1.toNat 3 0 ≤ 2) (haligned : bitsOf w1.toNat 39 20 % 16 = 0) :
    rstageIssue op w0 w1 w2 w3 tv q s =
      if s.closedByte (stageDest w1.toNat) then s.trap 0x041 (s.job.sramBase + BitVec.ofNat 64 (stageDest w1.toNat))
      else s.enterCmd s (s.enginePlace q none) false (s.blankCmd op w0 w1 w2 w3 q) := by
  have hword : ¬(16 ≤ w2.toNat ∨ bitsOf w1.toNat 63 40 ≠ 0 ∨ bitsOf w1.toNat 9 8 ≠ 0 ∨ 2 < bitsOf w1.toNat 3 0 ∨
      bitsOf w1.toNat 39 20 % 16 ≠ 0) := by
    rw [bitsOf_eq_zero htop 63, hmid]
    omega
  exact if_neg hword

/-- Settles O28. -/
theorem multicastAndReductionCommandsEnterTheirQueue : Obligations.multicast_and_reduction_commands_enter_their_queue := by
  intro s t a b c x w1 w2 len pl enters d
  refine ⟨fun hr hroom hreserved htiles hx haligned hend ⟨k, hfirst, hlast, hsweep⟩ => ?_, fun hr hroom hstage hlines hmax hx => ?_,
    fun hr hroom hstage htop hmid hcombine haligned => ⟨fun hopen => ?_, fun hclosed => ?_⟩⟩
  · exact enters_of_eq (exec_mcast hr)
      (mcastIssue_enters (by decide) hroom hreserved htiles hx haligned hend hfirst hlast hsweep)
  · exact enters_of_eq (exec_reduce hr) (reduceIssue_enters (by decide) hroom hstage hlines hmax hx)
  · exact enters_of_eq ((exec_rstage hr).trans ((rstageIssue_destination hstage htop hmid hcombine haligned).trans
      (if_neg (ne_true_of_eq_false hopen))))
      (State.enterCmd_enters (onlyTlbs_refl s) ⟨rfl, rfl, rfl, rfl, rfl, rfl⟩ (by decide) (.inr hroom) false)
  · exact (exec_rstage hr).trans ((rstageIssue_destination hstage htop hmid hcombine haligned).trans (if_pos hclosed))

end Sys2Proof.Machine
end

