-- ==== Sys2Proof/Proofs/ShapesAndAmsg.lean ====
section
/-! PROOFS. O25: shape records (R214, R217, R270) and `amsg` (R189). -/

namespace Sys2Proof.Machine

open Sys2Proof Sys2Proof.Safety

variable {s : State} {a b n : Reg}

theorem exec_shp : exec (.shp a b n) s = execShp a b n s := rfl
theorem exec_amsg (m : BitVec 3) : exec (.amsg a m) s = execAmsg a m s := rfl

/-! ### Shape records (R214, R217) -/

theorem shapeLack_of_compute (h : isCompute s.cur.1 = true) : shapeLack s = none := if_pos h

/-- A core without a shape table takes cause 0x005 (R214). -/
theorem execShp_no_table (h : isCompute s.cur.1 = false) : execShp a b n s = s.trap 5 (wordOf (.shp a b n)) := by
  rw [execShp, show shapeLack s = some 5 from if_neg (ne_true_of_eq_false h), issue]

/-- The state once a record has been written and its task pinned (R214, R270). -/
def State.shaped (s : State) (k : Nat) (v : BitVec 128) : State :=
  (s.updCore s.cur.1 (fun c => { c with shapes := AMap.set c.shapes k v })).upd
    (fun sl => { sl with task := { sl.task with pinned := true } })

/-- The record that `shp` writes (R214). -/
def Slot.shapeWord (sl : Slot) (a b : Reg) : BitVec 128 := sl.rx b ++ sl.rx a

/-- `shp` on a compute core with nothing in its way. -/
theorem execShp_ready (hc : isCompute s.cur.1 = true) (hr : ready { reads := [xr a, xr b] } s = true) : execShp a b n s =
    if s.slot.shapeWord a b ≠ 0 ∧ (shapeOf (s.slot.shapeWord a b)).aligned = false then s.trap 0x048 (s.slot.rx a)
    else .next (s.shaped (n.toNat % 16) (s.slot.shapeWord a b)).retire := by
  rw [execShp, shapeLack_of_compute hc, issue_ready hr]
  rfl

theorem State.shapes_shaped (s : State) (k : Nat) (v : BitVec 128) :
    ((s.shaped k v).retire.coreAt s.cur.1).shapes = AMap.set (s.coreAt s.cur.1).shapes k v := by
  rw [State.coreAt_retire, State.shaped, State.coreAt_upd, State.coreAt_updCore_self]

theorem State.shape_shaped_self (s : State) (k : Nat) (v : BitVec 128) : (s.shaped k v).retire.shape k = v := by
  show (AMap.get ((s.shaped k v).retire.coreAt s.cur.1).shapes k).getD 0 = v
  rw [State.shapes_shaped, AMap.get_set_self, Option.getD_some]

theorem State.shape_shaped_other {k j : Nat} (h : j ≠ k) (s : State) (v : BitVec 128) : (s.shaped k v).retire.shape j = s.shape j := by
  show (AMap.get ((s.shaped k v).retire.coreAt s.cur.1).shapes j).getD 0 = _
  rw [State.shapes_shaped, AMap.get_set_other _ _ h, State.shape]

theorem State.slot_shaped (s : State) (k : Nat) (v : BitVec 128) : (s.shaped k v).retire.slot =
    { s.slot with task := { s.slot.task with pinned := true }, pc := s.slot.pc + 4, phase := .ready } := by
  rw [State.slot_retire, State.shaped, State.slot_upd]
  rfl

/-! ### `amsg` (R189) -/

section
variable {m : BitVec 3}

/-- `amsg` with nothing in its way. -/
abbrev amsgReady (s : State) (a : Reg) (m : BitVec 3) : Prop :=
  ready { reads := (List.range 7).map (fun i => xr (regAfter a i))
          hold := s.tileHold m.toNat (decide ((s.slot.rx (regAfter a 0)).toNat / 2 ^ 56 = 2)) } s = true

theorem regAfter_zero (a : Reg) : regAfter a 0 = a := by simp [regAfter]

/-- An opcode word with other bits, or with an opcode that names nothing (R189). -/
theorem execAmsg_undefined (hr : amsgReady s a m) (h : (s.slot.rx (regAfter a 0)).toNat % 2 ^ 56 ≠ 0 ∨
      ((s.slot.rx (regAfter a 0)).toNat / 2 ^ 56 ≠ 1 ∧ (s.slot.rx (regAfter a 0)).toNat / 2 ^ 56 ≠ 2)) :
    execAmsg a m s = s.trap 0x101 (s.slot.rx (regAfter a 0)) := by
  rw [amsgReady, regAfter_zero] at hr
  rw [execAmsg, execAmsg.payloadRegsOf, issue_ready hr]
  dsimp only
  by_cases hlow : (s.slot.rx (regAfter a 0)).toNat % 2 ^ 56 ≠ 0
  · exact if_pos hlow
  · obtain ⟨h1, h2⟩ := h.resolve_left hlow
    rw [if_neg hlow, if_neg h1, if_neg h2]

/-- ACCZ reads no register group (R215). -/
theorem State.groupOf_accz (s : State) (w0 : Word) : s.groupOf 6 w0 = [] := rfl

/-- Opcode 0x01 with an ACCZ for the matrix queue goes to the checks of ACCZ (R189, R226). -/
theorem execAmsg_accz (hr : amsgReady s a 0) (hop : (s.slot.rx (regAfter a 0)).toNat = 2 ^ 56)
    (hcmd : (s.slot.rx (regAfter a 1)).toNat / 2 ^ 56 = 6) (hcls : bitsOf (s.slot.rx (regAfter a 1)).toNat 55 52 = 0)
    (h5 : s.slot.rx (regAfter a 5) = 0) (h6 : s.slot.rx (regAfter a 6) = 0) (hg : isGateway s.cur.1 = false) :
    execAmsg a 0 s = acczIssue 6 (tileW0 6 (s.slot.rx (regAfter a 1))) (s.slot.rx (regAfter a 2)) (s.slot.rx (regAfter a 3))
      (s.slot.rx (regAfter a 4)) (s.slot.rx (regAfter a 0)) 0 s := by
  rw [amsgReady, regAfter_zero] at hr
  have hunit : ¬(tileLack s.cur.1 6 0).isSome = true := by simp [tileLack, hg, usesA, usesB, isMma]
  have hgroup : ready { reads := (s.groupOf 6 (tileW0 6 (s.slot.rx (regAfter a 1)))).map vr } s = true := ready_of_no_needs s
  rw [execAmsg, execAmsg.payloadRegsOf, issue_ready hr]
  dsimp only
  rw [if_neg (by omega), if_pos (by omega), hcmd, show classOf 6 = some 0 from rfl]
  dsimp only
  rw [if_neg (by simp [hcls, h5, h6]), if_neg (by decide)]
  refine (if_neg hunit).trans ((issue_ready hgroup ..).trans ?_)
  simp [opIssue, isMma]

/-- Opcode 0x02 for an engine of the own tile queues its marker (R189). -/
theorem execAmsg_marker (hr : amsgReady s a m) (hop : (s.slot.rx (regAfter a 0)).toNat = 2 ^ 57) (h1 : s.slot.rx (regAfter a 1) = 0)
    (h2 : s.slot.rx (regAfter a 2) = 0) (h3 : s.slot.rx (regAfter a 3) = 0) (h5 : s.slot.rx (regAfter a 5) = 0)
    (h6 : s.slot.rx (regAfter a 6) = 0) (hq : m.toNat ≤ 3) (hg : isGateway s.cur.1 = false) :
    execAmsg a m s = s.enterCmd s (s.enginePlace m.toNat none) false
      { s.blankCmd 0 0 0 0 (s.slot.rx (regAfter a 4)) m.toNat with marker := true } := by
  rw [amsgReady, regAfter_zero] at hr
  rw [execAmsg, execAmsg.payloadRegsOf, issue_ready hr]
  dsimp only
  rw [if_neg (by omega), if_neg (by omega), if_pos (by omega), markerIssue, if_neg (by simp [h1, h2, h3, h5, h6]),
    if_neg (by simp [hg])]
  exact if_neg (by omega)

end

/-- W0 of an ACCZ keeps the ACC field of the word that it is made from (R116). -/
theorem w0Acc_tileW0_accz (v : Word) : w0Acc (tileW0 6 v) = w0Acc v := by
  have hlt : bitsOf v.toNat 23 0 < 2 ^ 24 := Nat.mod_lt _ (by decide)
  have hword : tileW0 6 v = BitVec.ofNat 64 (6 * 2 ^ 56 + bitsOf v.toNat 23 0) := by
    simp [tileW0, classOf, keepField, usesA, usesB, usesFlags, usesFovr, usesAcc, isMma]
  have hmod (n : Nat) : bitsOf n 23 0 = n % 2 ^ 24 := rfl
  rw [w0Acc, hword, BitVec.toNat_ofNat, hmod, w0Acc]
  omega

/-- Settles O25. -/
theorem shpSetsShapesAndAmsgIssuesCommands : Obligations.shp_sets_shapes_and_amsg_issues_commands := by
  refine ⟨fun s a b n hn => ⟨fun hc hr => ⟨fun hv => ?_, fun hv hbad => ?_⟩, fun hc => ?_⟩, fun s a m _ _ => ?_⟩
  · have hk : n.toNat % 16 = n.toNat := Nat.mod_eq_of_lt (by omega)
    have hgood : ¬(s.slot.shapeWord a b ≠ 0 ∧ (shapeOf (s.slot.shapeWord a b)).aligned = false) := fun ⟨hne, hbad⟩ =>
      hv.elim hne fun ha => absurd ha (ne_true_of_eq_false hbad)
    refine ⟨_, exec_shp.trans ((execShp_ready hc hr).trans (if_neg hgood)), ?_, fun k hne => ?_, ?_, ?_, ?_, fun _ => rfl⟩
    · rw [hk, State.shape_shaped_self]
      rfl
    · exact State.shape_shaped_other (hk.symm ▸ hne) ..
    · rw [State.slot_shaped]
    · rw [State.slot_shaped]
    · rw [State.slot_shaped]
  · exact exec_shp.trans ((execShp_ready hc hr).trans (if_pos ⟨hv, hbad⟩))
  · exact exec_shp.trans (execShp_no_table hc)
  intro w ow q pl acc hr
  refine ⟨fun h => ?_, fun hop hcmd hcls h5 h6 hm hg hroom hpos hmax hacc hrange => ?_, fun hop h1 h2 h3 h5 h6 hq hg hroom => ?_⟩
  · exact (exec_amsg m).trans (execAmsg_undefined hr h)
  · subst hm
    have hfield : w0Acc (tileW0 6 (w 1)) = acc := w0Acc_tileW0_accz _
    exact enters_of_eq ((exec_amsg 0).trans (execAmsg_accz hr hop hcmd hcls h5 h6 hg))
      (acczIssue_enters (by decide) (.inr hroom) hpos hmax (hfield ▸ hacc) (hfield ▸ hrange))
  · exact enters_of_eq ((exec_amsg m).trans (execAmsg_marker hr hop h1 h2 h3 h5 h6 hq hg))
      (State.enterCmd_enters (onlyTlbs_refl s) ⟨rfl, rfl, rfl, rfl, rfl, rfl⟩ (by decide) (.inr hroom) false)

end Sys2Proof.Machine
end

