-- ==== Sys2Proof/Proofs/ReductionStages.lean ====
section
/-! PROOFS. O40: the reduction stages of a router: a descriptor that is loaded, a line for a stage that is not, the contribution that
completes a line, and the answer to its write (R231, R235, Table 11-5). -/

namespace Sys2Proof.Machine

open Sys2Proof Sys2Proof.Safety

variable {s t u : State} {cl n j : Nat} {g : Stage} {p : Packet} {rest : List Packet}

theorem exec_reductionLine (cl : Nat) (s : State) : exec (.reductionLine cl) s = execReductionLine cl s := rfl

/-! ### What the steps of a router leave -/

/-- A step of a router on its stages: memory and its inbox stay, and what is in a pair queue stays there, ahead of what it sends. -/
def RouterStep (cl : Nat) (s t : State) : Prop :=
  { t with mach := { t.mach with net := s.mach.net, clusters := s.mach.clusters } } = s ∧
    (t.clusterAt cl).inbox = (s.clusterAt cl).inbox ∧ ∀ k, netGet s.mach.net k <+: netGet t.mach.net k

theorem RouterStep.refl (cl : Nat) (s : State) : RouterStep cl s s := ⟨rfl, rfl, fun _ => List.prefix_rfl⟩

theorem RouterStep.trans (h : RouterStep cl s t) (k : RouterStep cl t u) : RouterStep cl s u := by
  obtain ⟨hstate, hinbox, hnet⟩ := h
  obtain ⟨kstate, kinbox, knet⟩ := k
  refine ⟨?_, kinbox.trans hinbox, fun key => (hnet key).trans (knet key)⟩
  rw [← kstate] at hstate
  exact hstate

theorem RouterStep.sameMemory (h : RouterStep cl s t) : sameMemory s t := fun a => (congrArg (·.byte a) h.1 :)
theorem RouterStep.part (h : RouterStep cl s t) : t.part = s.part := (congrArg (·.part) h.1 :)
theorem RouterStep.inbox (h : RouterStep cl s t) : (t.clusterAt cl).inbox = (s.clusterAt cl).inbox := h.2.1

theorem RouterStep.post (cl : Nat) (s : State) (a : Agent) (d m b i g) : RouterStep cl s (s.post a d m b i g) :=
  ⟨rfl, rfl, (StubStep.post ..).2⟩

theorem RouterStep.setStage (cl n : Nat) (s : State) (g : Stage) : RouterStep cl s (s.setStage cl n g) :=
  ⟨rfl, by rw [State.setStage, State.clusterAt_updCluster_self], fun _ => List.prefix_rfl⟩

theorem RouterStep.foldl {α : Type} {f : State → α → State} (hf : ∀ u a, RouterStep cl u (f u a)) (s : State) (l : List α) :
    RouterStep cl s (l.foldl f s) := by
  induction l generalizing s with
  | nil => exact .refl cl s
  | cons a r ih => exact (hf s a).trans (ih _)

theorem RouterStep.lineWritten (s : State) (cl n : Nat) (g : Stage) (j code reason : Nat) (use : List Contrib) :
    RouterStep cl s (s.lineWritten cl n g j code reason use) := (RouterStep.foldl (fun _ _ => .post ..) ..).trans (.setStage ..)

theorem RouterStep.fireStage (s : State) (cl n fuel : Nat) : RouterStep cl s (s.fireStage cl n fuel) := by
  induction fuel generalizing s with
  | zero => exact .refl cl s
  | succ fuel ih =>
    unfold State.fireStage
    split
    · exact .refl cl s
    · split
      · exact .refl cl s
      · refine RouterStep.trans ?_ (ih _)
        dsimp only
        split
        · exact .lineWritten ..
        · exact (RouterStep.setStage ..).trans (.post ..)

/-- What has been sent stays sent. -/
theorem sentOn.router {k : PairKey} {b : Body} (h : sentOn s t k b) (hstep : RouterStep cl t u) : sentOn s u k b := by
  obtain ⟨new, hnew, hb⟩ := h
  obtain ⟨more, hmore⟩ := hstep.2.2 k
  exact ⟨new ++ more, by rw [← hmore, hnew, List.append_assoc], by simp [List.map_append, hb]⟩

theorem RouterStep.sentOn_post (h : RouterStep cl s u) (a : Agent) (d : Place) (m : Nat) (b : Body) (i : Nat) (gen : BitVec 16) :
    sentOn s (u.post a d m b i gen) { src := s.here a, dst := d, cls := m } b := by
  obtain ⟨new, hnew⟩ := h.2.2 { src := u.here a, dst := d, cls := m }
  rw [← State.here_congr h.part a]
  exact ⟨new ++ [{ body := b, src := u.here a, job := u.job.tag, slot := i, gen := gen }],
    by rw [State.post_net, ← hnew, List.append_assoc], by simp⟩

/-! ### The head of the inbox -/

/-- The packet that heads the inbox has been taken. -/
def State.inboxTaken (s : State) (cl : Nat) (rest : List Packet) : State := s.updCluster cl (fun k => { k with inbox := rest })

theorem State.inboxTaken_leaves (s : State) (cl : Nat) (rest : List Packet) :
    ((s.inboxTaken cl rest).clusterAt cl).inbox = rest ∧ ((s.inboxTaken cl rest).clusterAt cl).stages = (s.clusterAt cl).stages ∧
      sameMemory s (s.inboxTaken cl rest) := by
  refine ⟨?_, ?_, fun _ => rfl⟩ <;> rw [State.inboxTaken, State.clusterAt_updCluster_self]

/-- A router's step on the packet that headed its inbox leaves the others there, and memory as it was. -/
theorem RouterStep.popped (h : RouterStep cl (s.inboxTaken cl rest) t) : (t.clusterAt cl).inbox = rest ∧ Safety.sameMemory s t :=
  ⟨h.inbox.trans (s.inboxTaken_leaves cl rest).1, fun a => (h.sameMemory a).trans ((s.inboxTaken_leaves cl rest).2.2 a)⟩

theorem State.stages_setStage (s : State) (cl n : Nat) (g : Stage) :
    ((s.setStage cl n g).clusterAt cl).stages = AMap.set (s.clusterAt cl).stages n g := by
  rw [State.setStage, State.clusterAt_updCluster_self]

theorem State.stage_setStage (s : State) (cl n : Nat) (g : Stage) :
    AMap.get ((s.setStage cl n g).clusterAt cl).stages n = some g := by
  rw [State.stages_setStage, AMap.get_set_self]

/-! ### Contributions in order of their tiles (R231) -/

/-- A contribution comes from no later tile than another. -/
abbrev tileLe (a b : Contrib) : Prop := engineTile a.eng ≤ engineTile b.eng

/-- Contributions are sorted by insertion. -/
theorem byTile_eq_insertionSort (l : List Contrib) : byTile l = l.insertionSort tileLe := by
  have hins (c : Contrib) (l : List Contrib) : byTile.ins c l = l.orderedInsert tileLe c := by
    induction l with
    | nil => rfl
    | cons d r ih => simp only [byTile.ins, List.orderedInsert, ih]
  induction l with
  | nil => rfl
  | cons c r ih => rw [byTile, hins, ih, List.insertionSort_cons]

/-- Contributions on different tiles have one order. -/
theorem byTile_of_perm {l m : List Contrib} (hperm : m.Perm l)
    (hsorted : m.Pairwise (fun a b => engineTile a.eng < engineTile b.eng)) : byTile l = m := by
  have htiles : (m.map (fun c => engineTile c.eng)).Nodup := by
    rw [List.Nodup, List.pairwise_map]
    exact hsorted.imp fun h => h.ne
  rw [byTile_eq_insertionSort]
  have htotal : Std.Total tileLe := ⟨fun a b => Nat.le_total (engineTile a.eng) (engineTile b.eng)⟩
  have htrans : IsTrans Contrib tileLe := ⟨fun _ _ _ => Nat.le_trans⟩
  have hp : (l.insertionSort tileLe).Perm m := (List.perm_insertionSort tileLe l).trans hperm.symm
  exact hp.eq_of_pairwise (le := tileLe)
    (fun a b ha hb hab hba => List.inj_on_of_nodup_map htiles (hp.subset ha) hb (Nat.le_antisymm hab hba))
    (List.pairwise_insertionSort tileLe l) (hsorted.imp Nat.le_of_lt)

/-- The lanes of the contributions on different tiles, combined one after the other in the order of the tiles. -/
theorem combineLines_of_perm {c : Contrib} {l m : List Contrib} (op : Nat) (hperm : (c :: m).Perm l)
    (hsorted : (c :: m).Pairwise (fun a b => engineTile a.eng < engineTile b.eng)) : combineLines op l =
      ofLanes 32 ((List.range 16).map (fun i =>
        m.foldl (fun acc d => combine op acc (laneOf d.data 32 i)) (laneOf c.data 32 i))) := by
  rw [combineLines, byTile_of_perm hperm hsorted]

/-! ### A line that is complete (R231) -/

/-- A number set in a map is the first entry with a property that no other entry has. -/
theorem AMap.find?_set_of_forall {α : Type} {m : AMap α} {n : Nat} {a : α} {f : Nat × α → Bool} (hm : ∀ e ∈ m, f e = false)
    (ha : f (n, a) = true) : (AMap.set m n a).find? f = some (n, a) := by
  induction m with
  | nil => simp [AMap.set, ha]
  | cons e t ih =>
    obtain ⟨k, v⟩ := e
    have hkv : f (k, v) = false := hm _ List.mem_cons_self
    simp only [AMap.set]
    split
    · simp [ha]
    · split
      · simp [ha]
      · simpa [hkv] using ih fun e he => hm e (List.mem_cons_of_mem _ he)

/-- A line of a stage that can be combined. -/
def Stage.complete (g : Stage) (e : Nat × List Contrib) : Bool := decide (g.n ≤ e.2.length) && !g.combined e.1

/-- A stage whose first complete line is `j`, once it has been combined and its write is on its way (R231). -/
def Stage.fired (g : Stage) (j : Nat) (l : List Contrib) : Stage :=
  { g with
    len := if g.len = 0 then ((l.take g.n).head?.map (·.len)).getD 0 else g.len
    lines := AMap.set g.lines j (l.drop g.n), writing := AMap.set g.writing j (l.take g.n) }

theorem State.fireStage_idle (hg : AMap.get (s.clusterAt cl).stages n = some g) (hnone : g.lines.find? g.complete = none) (fuel : Nat) :
    s.fireStage cl n fuel = s := by
  cases fuel with
  | zero => rfl
  | succ fuel =>
    unfold Stage.complete at hnone
    rw [State.fireStage, hg]
    dsimp only
    rw [hnone]

/-- Line `j` of a stage combined, with its write on the way to its home. -/
def State.lineFired (s : State) (cl n : Nat) (g : Stage) (j : Nat) (l : List Contrib) : State :=
  (s.setStage cl n (g.fired j l)).post (.router cl) (s.here (.home ((g.dest + 64 * j) / 2 ^ 20))) 4
    (.store .st (g.dest + 64 * j) 64 (combineLines (g.desc.toNat % 16) (l.take g.n)) (some (accessNo n j))) 0 0

theorem State.lineFired_lastIs {l : List Contrib} (hl : l.length = g.n) : lastIs (s.lineFired cl n g j l)
    (queueOf s (.router cl) (.home ((g.dest + 64 * j) / 2 ^ 20)) 4)
    (.store .st (g.dest + 64 * j) 64 (combineLines (g.desc.toNat % 16) l) (some (accessNo n j))) := by
  rw [State.lineFired, List.take_of_length_le (Nat.le_of_eq hl)]
  exact State.post_lastIs ..

/-- A complete line whose destination is open is combined, and its write goes to its home. -/
theorem State.fireStage_writes (hg : AMap.get (s.clusterAt cl).stages n = some g) {l : List Contrib}
    (hfind : g.lines.find? g.complete = some (j, l)) (hfirst : s.closedByte (g.dest + 64 * j) = false)
    (hlast : s.closedByte (g.dest + 64 * j + 63) = false) (fuel : Nat) :
    s.fireStage cl n (fuel + 1) = (s.lineFired cl n g j l).fireStage cl n fuel := by
  unfold Stage.complete at hfind
  rw [State.fireStage, hg]
  dsimp only
  rw [hfind]
  dsimp only
  rw [if_neg (by simp [hfirst, hlast])]
  rfl

/-- With one line complete, whose destination is open, its write is all that the stage sends. -/
theorem State.fireStage_one {l : List Contrib} (hg : AMap.get (s.clusterAt cl).stages n = some g)
    (hlines : ∀ e ∈ g.lines, e.1 ≠ j → g.complete e = false) (hfind : g.lines.find? g.complete = some (j, l))
    (hfirst : s.closedByte (g.dest + 64 * j) = false) (hlast : s.closedByte (g.dest + 64 * j + 63) = false) :
    s.fireStage cl n g.waiting = s.lineFired cl n g j l := by
  have hl : g.n ≤ l.length := by
    have hcomplete := List.find?_some hfind
    exact of_decide_eq_true (Bool.and_eq_true_iff.mp hcomplete).1
  have hwait : 1 ≤ g.waiting :=
    Nat.le_trans (Nat.le_trans (Nat.le_add_left 1 _) hl)
      (List.le_sum_of_mem (List.mem_map_of_mem (f := fun e : Nat × List Contrib => e.2.length) (List.mem_of_find?_eq_some hfind)))
  obtain ⟨fuel, hfuel⟩ := Nat.exists_eq_add_of_le' hwait
  rw [hfuel, State.fireStage_writes hg hfind hfirst hlast]
  refine State.fireStage_idle (g := g.fired j l) ?_ (List.find?_eq_none.mpr fun e he => ?_) fuel
  · exact State.stage_setStage ..
  rw [Bool.not_eq_true]
  have hcomplete (e : Nat × List Contrib) : (g.fired j l).complete e =
      (decide (g.n ≤ e.2.length) && !(g.written.contains e.1 || (AMap.get (AMap.set g.writing j (l.take g.n)) e.1).isSome)) := rfl
  by_cases hj : e.1 = j
  · rw [hcomplete, hj, AMap.get_set_self]
    simp
  · have hold : e ∈ g.lines := (AMap.mem_set he).resolve_left fun h => hj (congrArg Prod.fst h)
    rw [hcomplete, AMap.get_set_other _ _ hj]
    exact hlines e hold hj

/-- A stage with one contribution more for line `j` (R231). -/
def Stage.contributed (g : Stage) (j : Nat) (c : Contrib) (acc : List (Nat × Nat)) (len : Nat) : Stage :=
  { g with accepted := acc, len := len, lines := AMap.set g.lines j (g.line j ++ [c]) }

/-- The contribution that completes its line completes no other. -/
theorem Stage.incomplete_contributed {c : Contrib} {acc : List (Nat × Nat)} {len : Nat} (hlines : ∀ e ∈ g.lines, e.2.length < g.n)
    (e : Nat × List Contrib) (he : e ∈ (g.contributed j c acc len).lines) (hne : e.1 ≠ j) :
    (g.contributed j c acc len).complete e = false := by
  have hold : e ∈ g.lines := (AMap.mem_set he).resolve_left fun h => hne (congrArg Prod.fst h)
  exact Bool.and_eq_false_imp.mpr fun h => absurd (of_decide_eq_true h) (Nat.not_le.mpr (hlines e hold))

theorem Stage.find?_contributed {c : Contrib} (acc : List (Nat × Nat)) (len : Nat) (hlines : ∀ e ∈ g.lines, e.2.length < g.n)
    (hn : (g.line j).length + 1 = g.n) (hcomb : g.combined j = false) :
    (g.contributed j c acc len).lines.find? (g.contributed j c acc len).complete = some (j, g.line j ++ [c]) := by
  have hcomplete : (g.contributed j c acc len).complete = g.complete := rfl
  rw [hcomplete]
  refine AMap.find?_set_of_forall (fun e he => ?_) ?_
  · simp [Stage.complete, Nat.not_le.mpr (hlines e he)]
  · simp [Stage.complete, hn, hcomb]

/-- What a router does with a contribution that it accepts. -/
theorem execReductionLine_accepts {e run len : Nat} {d : VWord} (hin : (s.clusterAt cl).inbox = p :: rest)
    (hsrc : p.src = s.here (.engine e)) (hbody : p.body = .contrib run n j len d) (hg : AMap.get (s.clusterAt cl).stages n = some g)
    (hlen : len ≠ 0) (hok : if j = 0 then ∀ l, g.roundLen = some l → l = len else (e, run) ∈ g.accepted) :
    ∃ acc l, execReductionLine cl s =
      .next (((s.inboxTaken cl rest).setStage cl n (g.contributed j { eng := e, run := run, len := len, data := d } acc l)).fireStage
        cl n (g.contributed j { eng := e, run := run, len := len, data := d } acc l).waiting) := by
  unfold execReductionLine
  rw [hin]
  dsimp only
  rw [hsrc, hbody]
  dsimp only [State.here]
  rw [hg]
  refine ⟨_, _, (if_neg ?_).trans ((if_neg hlen).trans rfl)⟩
  rw [Bool.not_eq_false]
  by_cases hj : j = 0
  · rw [if_pos hj] at hok ⊢
    cases hround : g.roundLen with
    | none => rfl
    | some l => exact decide_eq_true (hok l hround)
  · rw [if_neg hj] at hok ⊢
    exact List.contains_iff_mem.mpr hok

/-- A stage as its descriptor loads it (R231). -/
def loadedStage (d : Word) : Stage := { desc := d, len := 0, written := [], writing := [], lines := [], accepted := [] }

/-- A stage is loaded where none was (R231). -/
theorem execReductionLine_loads {e run : Nat} {d : Word} (hin : (s.clusterAt cl).inbox = p :: rest)
    (hsrc : p.src = s.here (.engine e)) (hbody : p.body = .stageLoad run n d) (hg : AMap.get (s.clusterAt cl).stages n = none) :
    execReductionLine cl s = .next (((s.inboxTaken cl rest).setStage cl n (loadedStage d)).post (.router cl)
      (s.here (.engine e)) 1 (.stageReply run 0 0 0) 0 0) := by
  unfold execReductionLine
  rw [hin]
  dsimp only
  rw [hsrc, hbody]
  dsimp only [State.here]
  rw [hg]
  rfl

/-- A line for a stage that is not loaded is answered with 0x106. -/
theorem execReductionLine_unloaded {e run len : Nat} {d : VWord} (hin : (s.clusterAt cl).inbox = p :: rest)
    (hsrc : p.src = s.here (.engine e)) (hbody : p.body = .contrib run n j len d) (hg : AMap.get (s.clusterAt cl).stages n = none) :
    execReductionLine cl s = .next ((s.inboxTaken cl rest).post (.router cl) (s.here (.engine e)) 1 (.stageReply run j 0x106 0) 0 0) := by
  unfold execReductionLine
  rw [hin]
  dsimp only
  rw [hsrc, hbody]
  dsimp only [State.here]
  rw [hg]
  rfl

/-- The answer of a home to the write of a combined line. -/
theorem execReductionLine_answered {h no : Nat} (hin : (s.clusterAt cl).inbox = p :: rest) (hsrc : p.src = s.here (.home h)) :
    (p.body = .ack (some no) → execReductionLine cl s = .next ((s.inboxTaken cl rest).lineAnswered cl no 0 0)) ∧
    (∀ reason pa, p.body = .refusedWrite (some no) reason pa →
      execReductionLine cl s = .next ((s.inboxTaken cl rest).lineAnswered cl no 0x060 reason)) := by
  refine ⟨fun hbody => ?_, fun reason pa hbody => ?_⟩
  all_goals
    unfold execReductionLine
    rw [hin]
    dsimp only
    rw [hsrc, hbody]
    rfl

/-! ### The destination of a stage (R33, R38) -/

/-- A step of a router on its stages closes no place. -/
theorem State.closedByte_setStage (s : State) (cl n : Nat) (g : Stage) (rest : List Packet) (pa : Nat) :
    ((s.inboxTaken cl rest).setStage cl n g).closedByte pa = s.closedByte pa := by
  have hsweep (k : Nat) : (((s.inboxTaken cl rest).setStage cl n g).clusterAt k).sweep = (s.clusterAt k).sweep := by
    by_cases hk : k = cl
    · rw [hk, State.setStage, State.clusterAt_updCluster_self, State.inboxTaken, State.clusterAt_updCluster_self]
    · rw [State.setStage, State.clusterAt_updCluster_other _ _ hk, State.inboxTaken, State.clusterAt_updCluster_other _ _ hk]
  rw [State.closedByte, hsweep, State.closedByte]

/-! ### The answer to a write (R231; log 59) -/

/-- A contributor of a line told of its write. -/
def State.toldContributor (s : State) (cl j code reason : Nat) (c : Contrib) : State :=
  s.post (.router cl) (s.here (.engine c.eng)) 1 (.stageReply c.run j code reason) 0 0

/-- Every contributor of a line is told, on its engine's pair queue. -/
theorem State.foldl_toldContributor {code reason : Nat} {use : List Contrib} {c : Contrib} (hc : c ∈ use) (s : State) (cl j : Nat) :
    sentOn s (use.foldl (fun s c => s.toldContributor cl j code reason c) s) (queueOf s (.router cl) (.engine c.eng) 1)
      (.stageReply c.run j code reason) := by
  induction use using List.reverseRecOn with
  | nil => exact absurd hc List.not_mem_nil
  | append_singleton l d ih =>
    have hstep := RouterStep.foldl (cl := cl) (f := fun s c => s.toldContributor cl j code reason c) (fun _ _ => .post ..) s l
    rw [List.foldl_append, List.foldl_cons, List.foldl_nil]
    rcases List.mem_append.mp hc with hc | hc
    · exact (ih hc).router (.post (cl := cl) ..)
    · obtain rfl := List.mem_singleton.mp hc
      rw [State.toldContributor, State.here_congr hstep.part]
      exact hstep.sentOn_post ..

/-- The answer to the write of a line reaches the line's contributors (R231). -/
theorem State.lineAnswered_answers {code reason : Nat} {use : List Contrib} (hg : AMap.get (s.clusterAt cl).stages n = some g)
    (huse : AMap.get g.writing j = some use) (hj : j < 2 ^ 32) :
    RouterStep cl s (s.lineAnswered cl (accessNo n j) code reason) ∧
      ∀ c ∈ use, sentOn s (s.lineAnswered cl (accessNo n j) code reason) (queueOf s (.router cl) (.engine c.eng) 1)
        (.stageReply c.run j code reason) := by
  have hn : accessNo n j / 2 ^ 32 = n := by unfold accessNo; omega
  have hline : accessNo n j % 2 ^ 32 = j := by unfold accessNo; omega
  unfold State.lineAnswered
  dsimp only
  rw [hn, hline, hg]
  dsimp only
  rw [huse]
  exact ⟨(RouterStep.lineWritten ..).trans (.fireStage ..),
    fun c hc => ((State.foldl_toldContributor hc ..).router (.setStage ..)).router (.fireStage ..)⟩

/-- Settles O40. -/
theorem reductionStagesCombineAndAnswerTheirContributors :
    Obligations.reduction_stages_combine_and_answer_their_contributors := by
  intro s cl p rest hin stages popped
  refine ⟨fun e hsrc => ⟨fun run n d hbody hg => ?_, fun run n j len d hbody hg => ?_, fun run n j len d g hbody hg hlen => ?_⟩,
    fun h n j g use hsrc hg huse hj => ?_⟩
  · have hstep : RouterStep cl (s.inboxTaken cl rest) (((s.inboxTaken cl rest).setStage cl n (loadedStage d)).post (.router cl)
        (s.here (.engine e)) 1 (.stageReply run 0 0 0) 0 0) := (RouterStep.setStage ..).trans (.post ..)
    exact ⟨_, _, (exec_reductionLine ..).trans (execReductionLine_loads hin hsrc hbody hg), hstep.popped,
      State.stage_setStage .., rfl, rfl, State.post_lastIs ..⟩
  · exact ⟨_, (exec_reductionLine ..).trans (execReductionLine_unloaded hin hsrc hbody hg), (RouterStep.post ..).popped,
      State.post_lastIs ..⟩
  · intro c pa hok hlines hn hcomb hfirst hlast first others hperm hsorted
    obtain ⟨acc, l, hexec⟩ := execReductionLine_accepts hin hsrc hbody hg hlen hok
    have hfire := State.fireStage_one (State.stage_setStage (s.inboxTaken cl rest) cl n (g.contributed j c acc l))
      (Stage.incomplete_contributed hlines) (Stage.find?_contributed acc l hlines hn hcomb)
      ((State.closedByte_setStage ..).trans hfirst) ((State.closedByte_setStage ..).trans hlast)
    have hstep : RouterStep cl (s.inboxTaken cl rest)
        (((s.inboxTaken cl rest).setStage cl n (g.contributed j c acc l)).lineFired cl n (g.contributed j c acc l) j
          (g.line j ++ [c])) := (RouterStep.setStage ..).trans ((RouterStep.setStage ..).trans (.post ..))
    refine ⟨_, (exec_reductionLine ..).trans (hexec.trans (congrArg _ hfire)), hstep.popped, ?_⟩
    rw [← combineLines_of_perm _ hperm hsorted]
    exact State.lineFired_lastIs ((List.length_append ..).trans hn)
  · have hstage : AMap.get ((s.inboxTaken cl rest).clusterAt cl).stages n = some g := by
      rw [(s.inboxTaken_leaves cl rest).2.1]
      exact hg
    obtain ⟨hack, hrefused⟩ := execReductionLine_answered (no := accessNo n j) hin hsrc
    have hanswered (code reason : Nat) := State.lineAnswered_answers (code := code) (reason := reason) hstage huse hj
    exact ⟨fun hbody => ⟨_, (exec_reductionLine ..).trans (hack hbody), (hanswered 0 0).1.popped, (hanswered 0 0).2⟩,
      fun reason pa hbody => ⟨_, (exec_reductionLine ..).trans (hrefused reason pa hbody), (hanswered 0x060 reason).1.popped,
        (hanswered 0x060 reason).2⟩⟩

end Sys2Proof.Machine
end

