-- ==== Sys2Proof/Proofs/TrapsAndRequests.lean ====
section
/-! PROOFS. O30, O31 and O33: a cause that is taken, the software traps and the return from them, and the requests of `cancel` and
`circ` (R241 to R246, R249, R250, R268, R328, R329). -/

namespace Sys2Proof.Machine

open Sys2Proof Sys2Proof.Safety

variable {s : State}

/-! ### Taking a cause -/

@[simp] theorem State.emit_cores (s : State) (r : FaultRec) : (s.emit r).mach.cores = s.mach.cores := by
  unfold State.emit
  split <;> rfl

section
variable (s : State) (c l cause : Nat) (tval epc : Word) (async : Bool) (index : Nat) (addr : Word)

/-- What CAUSE holds of a cause: its code, with ASYNC (R329). -/
def causeWord (cause : Nat) (async : Bool) : Word := BitVec.ofNat 64 cause ||| (if async then 1#64 <<< 63 else 0)

theorem causeWord_sync : causeWord cause false = BitVec.ofNat 64 cause := by simp [causeWord]

/-- A user-class cause with a handler's address goes to it (R242). -/
theorem State.takeTrap_vectored (hu : userClass cause s.job.debug = true) (hv : (s.slotAt c l).tvec ≠ 0) :
    s.takeTrap c l cause tval epc async index addr = (s.updSlotAt c l (fun sl =>
      { sl with cause := causeWord cause async, epc := epc, tval := tval })).updSlotAt c l
        (fun sl => { sl with pc := sl.tvec, phase := .ready }) := by
  rw [State.takeTrap, if_pos ⟨hu, hv⟩]
  rfl

theorem State.slotAt_takeTrap_vectored (hu : userClass cause s.job.debug = true) (hv : (s.slotAt c l).tvec ≠ 0) :
    (s.takeTrap c l cause tval epc async index addr).slotAt c l = { s.slotAt c l with
      cause := causeWord cause async, epc := epc, tval := tval, pc := (s.slotAt c l).tvec, phase := .ready } := by
  rw [s.takeTrap_vectored c l cause tval epc async index addr hu hv, State.slotAt_updSlotAt_self, State.slotAt_updSlotAt_self]

/-- The record of a slot that is parked with a cause (Table 22-2). -/
def State.parkedRec : FaultRec :=
  (s.updSlotAt c l (fun sl => { sl with cause := causeWord cause async, epc := epc, tval := tval })).slotRec c l cause index
    addr true

/-- Any other cause parks the slot with its record (R329). -/
theorem State.takeTrap_parked (h : userClass cause s.job.debug = false ∨ (s.slotAt c l).tvec = 0) : ∃ dbg,
    s.takeTrap c l cause tval epc async index addr = ((s.updSlotAt c l (fun sl =>
      { sl with cause := causeWord cause async, epc := epc, tval := tval })).updSlotAt c l (fun sl => { sl with
        phase := .parked, held := some (s.parkedRec c l cause tval epc async index addr)
        task := { sl.task with dbg := dbg } })).emit (s.parkedRec c l cause tval epc async index addr) := by
  have hno : ¬(userClass cause s.job.debug = true ∧ (s.slotAt c l).tvec ≠ 0) := by
    rcases h with h | h <;> simp [h]
  rw [State.takeTrap, if_neg hno]
  exact ⟨_, rfl⟩

/-- Its record names the slot, and holds what it saves. -/
theorem State.parkedRec_fields :
    let r := s.parkedRec c l cause tval epc async index addr
    r.cause = cause ∧ r.epc = epc ∧ r.tval = tval ∧ r.unit = c ∧ r.slot = l ∧ r.gen = (s.slotAt c l).gen ∧
      r.slotted = true ∧ r.lane = if fatalClass cause then 1 else 0 := by
  simp [State.parkedRec, State.slotRec]

theorem State.takeTrap_cores : (s.takeTrap c l cause tval epc async index addr).mach.cores = s.mach.cores := by
  by_cases h : userClass cause s.job.debug = true ∧ (s.slotAt c l).tvec ≠ 0
  · rw [s.takeTrap_vectored c l cause tval epc async index addr h.1 h.2]
    rfl
  · obtain ⟨dbg, ht⟩ := s.takeTrap_parked c l cause tval epc async index addr (by
      rwa [not_and_or, Bool.not_eq_true, ne_eq, not_not] at h)
    rw [ht, State.emit_cores]
    rfl

end

/-- A record goes to the end of the lane that it names (R334). -/
theorem State.emit_eqx (s : State) (r : FaultRec) :
    (s.emit r).eqx = if r.lane = 1 then { s.eqx with lane1 := s.eqx.lane1 ++ [r] }
      else { s.eqx with lane0 := s.eqx.lane0 ++ [r] } := by
  unfold State.emit
  split <;> rfl

/-- Settles O30, from what a vectored and a parked cause leave. -/
theorem takingACauseSavesAndTransfers : Obligations.taking_a_cause_saves_and_transfers := by
  intro s c l cause tval epc async index addr a t b code
  have hout : sameOutside s t := s.sameOutside_takeTrap ..
  refine ⟨fun hu hv => ⟨s.slotAt_takeTrap_vectored c l cause tval epc async index addr hu hv, ?_⟩, fun h => ?_,
    fun c' l' hne => State.slotAt_takeTrap_other (h := hne) .., s.takeTrap_cores .., sameMemory_of_sameOutside hout, hout⟩
  · exact (congrArg (·.eqx) (s.takeTrap_vectored c l cause tval epc async index addr hu hv) :)
  · obtain ⟨dbg, ht⟩ := s.takeTrap_parked c l cause tval epc async index addr h
    obtain ⟨hcause, hepc, htval, hunit, hslot, hgen, hslotted, hlane⟩ := s.parkedRec_fields c l cause tval epc async index addr
    have heqx := (congrArg (·.eqx) ht).trans (State.emit_eqx ..)
    refine ⟨_, ?_, hcause, hepc, htval, hunit, hslot, hgen, hslotted, fun hf => ?_, fun hf => ?_⟩
    · simp only [b, t, ht, State.slotAt_emit, State.slotAt_updSlotAt_self]
      rfl
    · rw [hlane, hf] at heqx
      exact heqx
    · rw [hlane, hf] at heqx
      exact heqx

/-! ### The software traps and their return -/

/-- An instruction that names no register and waits for nothing has its effect. -/
theorem issue_no_needs (i : Instr) (k : State → Out) (s : State) : issue i {} k s = k s := issue_ready (ready_of_no_needs s) i k

theorem exec_trap (n : BitVec 5) (s : State) : exec (.trap n) s = s.trap (0x010 + n.toNat) (n.setWidth 64) :=
  issue_no_needs (.trap n) _ s
theorem exec_brk (s : State) : exec .brk s = s.trap 0x007 0 := issue_no_needs .brk _ s
theorem exec_haltSlot (s : State) : exec .haltSlot s = s.trap 0x008 0 := issue_no_needs .haltSlot _ s
theorem exec_eret (s : State) : exec .eret s = s.eret := issue_no_needs .eret _ s

theorem State.eret_aligned (h : s.slot.epc.toNat % 4 = 0) : s.eret = .next (s.jump s.slot.epc) := by
  rw [State.eret]
  exact if_neg (not_not_intro h)

/-- The software traps are user-class (Table 22-1). -/
theorem userClass_software {n : Nat} (h : n < 16) (d : Bool) : userClass (0x010 + n) d = true := by
  have hcause : 0x010 + n ≠ 7 := by omega
  have hrange : 0x010 ≤ 0x010 + n ∧ 0x010 + n ≤ 0x01F := by omega
  simp [userClass, hcause, hrange]

/-- The classes U and F of Table 22-1 share no cause. -/
theorem userClass_of_fatalClass {n : Nat} (h : fatalClass n = true) (d : Bool) : userClass n d = false := by
  simp only [fatalClass, Bool.or_eq_true, List.contains_iff_mem, Bool.and_eq_true, decide_eq_true_eq, List.mem_cons,
    List.not_mem_nil, or_false] at h
  have h7 : n ≠ 7 := by omega
  simp only [userClass, h7, if_false, Bool.or_eq_false_iff, Bool.and_eq_false_iff, decide_eq_false_iff_not]
  refine ⟨⟨⟨by omega, by omega⟩, by omega⟩, ?_⟩
  simp only [← Bool.not_eq_true, List.contains_iff_mem, List.mem_cons, List.not_mem_nil, or_false]
  omega

/-- After a vectored cause of the instruction in hand, `eret` goes back to it (R242, R243). -/
theorem State.eret_after_trap {cause : Nat} {v : Word} (hu : userClass cause s.job.debug = true) (hv : s.slot.tvec ≠ 0)
    (hpc : s.slot.pc.toNat % 4 = 0) : ∃ t u, s.trap cause v = .next t ∧ exec .eret t = .next u ∧ u.slot.pc = s.slot.pc ∧
      u.slot.x = s.slot.x ∧ u.slot.cause = BitVec.ofNat 64 cause := by
  have hslot : (s.takeTrap s.cur.1 s.cur.2 cause v s.slot.pc false 0 v).slot = { s.slot with
      cause := BitVec.ofNat 64 cause, epc := s.slot.pc, tval := v, pc := s.slot.tvec, phase := .ready } := by
    rw [State.slot, s.takeTrap_vectored _ _ _ _ _ _ _ _ hu hv, ← causeWord_sync]
    simp only [State.updSlotAt, State.setSlotAt_cur, State.slotAt_setSlotAt_self]
    rfl
  refine ⟨s.takeTrap s.cur.1 s.cur.2 cause v s.slot.pc false 0 v, _, rfl,
    (exec_eret _).trans (State.eret_aligned ?_), ?_⟩
  · rw [hslot]
    exact hpc
  · simp only [State.jump, State.slot_upd, hslot, and_self]

/-- Settles O31: none of the four waits for anything, and a vectored cause saves the PC that `eret` restores. -/
theorem trapsBreakpointHaltAndEret : Obligations.traps_breakpoint_halt_and_eret := by
  refine ⟨fun s n _ => ⟨exec_trap n s, exec_brk s, exec_haltSlot s⟩, 
    fun s => ⟨fun h => ?_, fun h => ?_, fun cause v => State.eret_after_trap⟩,
    fun _ => rfl, fun n d h => userClass_software h d, rfl, fun n d _ h => ?_⟩
  · exact (exec_eret s).trans (State.eret_aligned h)
  · rw [exec_eret, State.eret]
    exact if_pos h
  · exact absurd h.1 (by simp [userClass_of_fatalClass h.2])

/-! ### The requests of `cancel` and `circ` -/

theorem exec_cancel (a l : Reg) (s : State) : exec (.cancel a l) s = execCancel a l s := rfl
theorem exec_circ (a : Reg) (s : State) : exec (.circ a) s = execCirc a s := rfl

/-- The state after a `cancel` of record `k`, of the kind `l`: the request is sent, and where the level is the task's own or an
ancestor its bit in CANCEL is set, a wake event where it was clear (R245, R251). -/
def State.cancelSent (s : State) (k l : Nat) : State :=
  (if (s.chain 8 s.slot.task.level).contains k then (s.sendCancel k).upd (fun sl => { sl with
      cancelled := sl.cancelled ||| (1#5 <<< l), wake := sl.wake || !s.cancelFlags.getLsbD l })
    else s.sendCancel k).retire

/-- `cancel` of a record of the kind that it names sends its request. -/
theorem execCancel_sends {a l : Reg} {k : Nat} (hr : ready { reads := [xr a] } s = true)
    (hk : s.cancelTarget (s.slot.rx a) l.toNat = some k) (hkind : s.recordKind k = l.toNat) (hway : wayOut s (s.levelPeer k)) :
    execCancel a l s = .next (s.cancelSent k l.toNat) := by
  rw [execCancel, issue_ready hr]
  simp only [hk, hkind, ne_eq, not_true_eq_false, if_false, toPeer_open hway]
  rfl

theorem CoreSide.cancelSent (s : State) (k l : Nat) : CoreSide s (s.cancelSent k l) := by
  unfold State.cancelSent State.sendCancel
  split <;> split <;> rfl

theorem State.slot_cancelSent (s : State) (k l : Nat) :
    let own := (s.chain 8 s.slot.task.level).contains k
    (s.cancelSent k l).slot = { s.slot with
      cancelled := if own then s.slot.cancelled ||| (1#5 <<< l) else s.slot.cancelled
      wake := if own then s.slot.wake || !s.cancelFlags.getLsbD l else s.slot.wake
      pc := s.slot.pc + 4, phase := .ready } := by
  have hsent : (s.sendCancel k).slot = s.slot := by
    unfold State.sendCancel
    split <;> rfl
  unfold State.cancelSent
  split
  · next hown => simp only [hown, if_true, State.slot_retire, State.slot_upd, hsent]
  · next hown => simp only [hown, if_false, State.slot_retire, hsent, Bool.false_eq_true]

/-- The request is last on its pair queue: to the record's home here, or on the module that counts the level (R245, R271). -/
theorem State.cancelSent_lastIs (s : State) (k l : Nat) :
    if k < 2 ^ 32 then lastIs (s.cancelSent k l)
      { src := s.here (.core s.cur.1), dst := s.here (.home (s.levelHome k)), cls := 0 } (.cancelReq k)
    else lastIs (s.cancelSent k l) { src := s.here (.core s.cur.1), dst := s.farHome k, cls := 0 } (.farCancel k) := by
  have hnet : (s.cancelSent k l).mach.net = (s.sendCancel k).mach.net := by
    unfold State.cancelSent
    split <;> rfl
  unfold lastIs
  rw [hnet]
  unfold State.sendCancel
  split <;> exact State.post_lastIs ..

/-- Settles O33. -/
theorem cancelAndCircSendTheirRequests : Obligations.cancel_and_circ_send_their_requests := by
  intro s a l v
  refine ⟨fun hr _ _ => ⟨fun hnone => ?_, fun k hk => ⟨fun hkind => ?_, fun hkind hway => ?_⟩⟩,
    fun hr => ⟨fun h => ?_, fun hlt hplan => ?_⟩⟩
  · rw [exec_cancel, execCancel, issue_ready hr]
    simp only [v] at hnone ⊢
    simp only [hnone]
  · rw [exec_cancel, execCancel, issue_ready hr]
    simp only [v] at hk
    simp only [hk]
    exact if_pos hkind
  · have hslot := s.slot_cancelSent k l.toNat
    refine ⟨_, (exec_cancel ..).trans (execCancel_sends hr hk hkind hway), ?_⟩
    rw [hslot]
    exact ⟨rfl, rfl, (CoreSide.cancelSent s k l.toNat).sameMemory, s.cancelSent_lastIs k l.toNat,
      fun hfresh hown => by simp only [hfresh, hown, if_true, Bool.not_false, Bool.or_true], rfl⟩
  · rw [exec_circ, execCirc, issue_ready hr]
    exact if_pos h
  · rw [exec_circ, execCirc, issue_ready hr]
    exact if_neg (by simp only [v] at hlt hplan; simp [hplan, hlt])

end Sys2Proof.Machine
end

