-- ==== Sys2Proof/Proofs/Levels.lean ====
section
/-! PROOFS. O49: the counts of levels, and what a level that completes leaves as it was (R258 to R260). -/

namespace Sys2Proof.Machine

open Sys2Proof Sys2Proof.Safety

variable {s t u : State} {k : Nat}

/-! ### What changes the level table, or Equinox, alone -/

/-- Nothing but the level table and memory differs: all that a change of a level's record can change (R319). -/
def LevelSide (s t : State) : Prop :=
  { t with dram := s.dram, mach := { t.mach with levels := s.mach.levels, sram := s.mach.sram } } = s

theorem LevelSide.refl (s : State) : LevelSide s s := rfl

theorem LevelSide.trans (h : LevelSide s t) (k : LevelSide t u) : LevelSide s u := by
  unfold LevelSide at *
  rw [← k] at h
  exact h

theorem LevelSide.foldl {α : Type} {f : State → α → State} (hf : ∀ u a, LevelSide u (f u a)) (s : State) (l : List α) :
    LevelSide s (l.foldl f s) := by
  induction l generalizing s with
  | nil => exact .refl s
  | cons a r ih => exact (hf s a).trans (ih _)

theorem LevelSide.slotAt (h : LevelSide s t) (c l : Nat) : t.slotAt c l = s.slotAt c l := (congrArg (·.slotAt c l) h :)
theorem LevelSide.homeAt (h : LevelSide s t) (n : Nat) : t.homeAt n = s.homeAt n := (congrArg (·.homeAt n) h :)
theorem LevelSide.coreAt (h : LevelSide s t) (c : Nat) : t.coreAt c = s.coreAt c := (congrArg (·.coreAt c) h :)
theorem LevelSide.draws (h : LevelSide s t) : t.mach.draws = s.mach.draws := (congrArg (·.mach.draws) h :)
theorem LevelSide.eqx (h : LevelSide s t) : t.eqx = s.eqx := (congrArg (·.eqx) h :)

theorem LevelSide.setLevel (s : State) (k : Nat) (v : Level) : LevelSide s (s.setLevel k v) := by
  unfold State.setLevel State.rawPut
  dsimp only
  split
  · rfl
  · split <;> rfl

theorem LevelSide.updLevel (s : State) (k : Nat) (f : Level → Level) : LevelSide s (s.updLevel k f) := .setLevel ..

/-- A record changes nothing but Equinox. -/
theorem State.emit_only (s : State) (r : FaultRec) : ∃ e, s.emit r = { s with eqx := e } := by
  unfold State.emit
  split <;> exact ⟨_, rfl⟩

/-! ### Level records -/

theorem State.levelAt_congr (h : t.mach.levels = s.mach.levels) (i : Nat) : t.levelAt i = s.levelAt i := by
  rw [State.levelAt, h, State.levelAt]

theorem State.levelAt_setLevel (s : State) (k i : Nat) (v : Level) :
    (s.setLevel k v).levelAt i = if i = k then v else s.levelAt i := by
  have hl : (s.setLevel k v).mach.levels = AMap.set s.mach.levels k v := by
    unfold State.setLevel State.rawPut
    dsimp only
    split
    · rfl
    · split <;> rfl
  rw [State.levelAt, hl, State.levelAt]
  split
  · next h => rw [h, AMap.get_set_self]; rfl
  · next h => rw [AMap.get_set_other _ _ h]

theorem State.levelAt_updLevel_self (s : State) (k : Nat) (f : Level → Level) :
    (s.updLevel k f).levelAt k = f (s.levelAt k) := by
  rw [State.updLevel, State.levelAt_setLevel, if_pos rfl]

theorem State.levelAt_updLevel_other (s : State) {k i : Nat} (f : Level → Level) (h : i ≠ k) :
    (s.updLevel k f).levelAt i = s.levelAt i := by
  rw [State.updLevel, State.levelAt_setLevel, if_neg h]

/-! ### A level that completes (R260, R261) -/

theorem NetSide.levels (h : NetSide s t) : t.mach.levels = s.mach.levels := (congrArg (·.mach.levels) h :)
theorem NetSide.draws (h : NetSide s t) : t.mach.draws = s.mach.draws := (congrArg (·.mach.draws) h :)

/-- The modules at which tasks of the level `k` are have been told that it completes (R261; log 109). -/
def State.tellComplete (s : State) (k : Nat) : State :=
  (s.levelAt k).away.foldl (fun s p => s.tellLevels p [s.globalKey k] .complete) s

/-- The record of a completed level: complete, one use more, and with no module left to tell (R260, R261). -/
def Level.complete (v : Level) : Level := { v with state := 3, inc := v.inc + 1, away := [], told := [] }

/-- The level `k` complete, before its completion is sent. -/
def State.markComplete (s : State) (k : Nat) : State :=
  (((s.tellComplete k).setLevel k (s.levelAt k).complete).relevel k 0).tasksAway (s.levelAt k).away

/-- The level `k` complete and its completion sent, before its parent's count falls (R260). -/
def State.completed (s : State) (k : Nat) : State := (s.markComplete k).notify k (s.levelAt k) (s.cancelPending k)

theorem State.settleLevel_succ (s : State) (fuel k : Nat) : s.settleLevel (fuel + 1) k =
    if k % 2 ^ 32 = 0 ∨ 2 ^ 32 ≤ k ∨ (s.levelAt k).closable = false then s
    else if (s.levelAt k).tkind = 2 then s.completed k
    else ((s.completed k).updLevel (s.levelAt k).parent (fun p => { p with count := p.count - 1 })).settleLevel fuel
      (s.levelAt k).parent := rfl

theorem Level.closable_of_count {v : Level} (h : v.count ≠ 0) : v.closable = false := by simp [Level.closable, h]

/-- A level that may not complete stays as it is. -/
theorem State.settleLevel_of_open (h : (s.levelAt k).closable = false) (fuel : Nat) : s.settleLevel fuel k = s := by
  cases fuel with
  | zero => rfl
  | succ fuel => rw [State.settleLevel_succ, if_pos (.inr (.inr h))]

theorem State.event_mach (s : State) (j : Nat) (w0 w1 : Word) : (s.event j w0 w1).mach = s.mach := by
  unfold State.event
  dsimp only
  split <;> rfl

/-- The completion sent to a level's target leaves the levels, the cores and the draw units (Table 21-3). -/
theorem State.notify_leaves (s : State) (k : Nat) (v : Level) (cancelled : Bool) :
    (s.notify k v cancelled).mach.levels = s.mach.levels ∧ (s.notify k v cancelled).mach.cores = s.mach.cores ∧
      (s.notify k v cancelled).mach.draws = s.mach.draws := by
  unfold State.notify
  dsimp only
  split
  · rw [State.event_mach]
    exact ⟨rfl, rfl, rfl⟩
  · exact ⟨rfl, rfl, rfl⟩
  · exact ⟨rfl, rfl, rfl⟩
  · exact ⟨rfl, rfl, rfl⟩

theorem State.levelAt_tasksAway (s : State) (l : List Peer) (i : Nat) :
    ∃ a, (s.tasksAway l).levelAt i = { s.levelAt i with away := a } := by
  unfold State.tasksAway
  split
  · exact ⟨_, rfl⟩
  · rw [State.updLevel, State.levelAt_setLevel]
    split
    · next h => exact ⟨_, by rw [h]⟩
    · exact ⟨_, rfl⟩

theorem LevelSide.tasksAway (s : State) (l : List Peer) : LevelSide s (s.tasksAway l) := by
  unfold State.tasksAway
  split
  · exact .refl s
  · exact .updLevel ..

/-- What refers to a level that completes is of the job level: in a run queue too (R261). -/
def RunEntry.relevel (k : Nat) (e : RunEntry) : RunEntry := { e with level := if e.level = k then 0 else e.level }

theorem State.relevel_leaves (s : State) (k : Nat) :
    (s.relevel k 0).mach.levels = s.mach.levels ∧ (s.relevel k 0).mach.draws = s.mach.draws ∧
      ∀ c, ((s.relevel k 0).coreAt c).runq = (s.coreAt c).runq.map (.relevel k) := by
  refine ⟨rfl, rfl, fun c => ?_⟩
  have hcores : (s.relevel k 0).mach.cores =
      s.mach.cores.map (fun e => (e.1, e.2.relevel s.part.peer (fun n => if n = k then 0 else n))) := rfl
  rw [State.coreAt, hcores, AMap.get_map, State.coreAt]
  cases AMap.get s.mach.cores c <;> rfl

theorem NetSide.tellComplete (s : State) (k : Nat) : NetSide s (s.tellComplete k) := .foldl (fun _ _ => .post ..) ..

/-- Of all levels' records a completion changes only what the completed one holds, and where tasks of a level are (R260, R261). -/
theorem State.levelAt_completed (s : State) (k i : Nat) : ∃ a, (s.completed k).levelAt i =
    { if i = k then (s.levelAt k).complete else s.levelAt i with away := a } := by
  rw [State.completed, State.levelAt_congr (State.notify_leaves ..).1, State.markComplete]
  obtain ⟨a, h⟩ := State.levelAt_tasksAway (((s.tellComplete k).setLevel k (s.levelAt k).complete).relevel k 0)
    (s.levelAt k).away i
  refine ⟨a, h.trans ?_⟩
  rw [State.levelAt_congr (State.relevel_leaves ..).1, State.levelAt_setLevel,
    State.levelAt_congr (NetSide.tellComplete s k).levels]

theorem State.draws_completed (s : State) (k : Nat) : (s.completed k).mach.draws = s.mach.draws := by
  rw [State.completed, (State.notify_leaves ..).2.2, State.markComplete, (LevelSide.tasksAway ..).draws,
    (State.relevel_leaves ..).2.1, (LevelSide.setLevel ..).draws, (NetSide.tellComplete s k).draws]

theorem State.runq_completed (s : State) (k c : Nat) :
    ((s.completed k).coreAt c).runq = (s.coreAt c).runq.map (.relevel k) := by
  rw [State.completed, State.coreAt, (State.notify_leaves ..).2.1, ← State.coreAt, State.markComplete,
    (LevelSide.tasksAway ..).coreAt, (State.relevel_leaves ..).2.2, (LevelSide.setLevel ..).coreAt,
    (NetSide.tellComplete s k).coreAt]

/-! ### What completions leave of levels, draw units and run queues -/

/-- A record that may differ in its count, its state and use, and the modules that are told of it. -/
def Level.recounted (v w : Level) : Prop :=
  { w with count := v.count, state := v.state, inc := v.inc, away := v.away, told := v.told } = v

theorem Level.recounted.trans {v w x : Level} (h : v.recounted w) (k : w.recounted x) : v.recounted x := by
  unfold Level.recounted at *
  rw [← k] at h
  exact h

theorem Level.recounted.cpAt {v w : Level} (h : v.recounted w) : w.cpAt = v.cpAt := (congrArg Level.cpAt h :)
theorem Level.recounted.cp {v w : Level} (h : v.recounted w) : w.cp = v.cp := (congrArg Level.cp h :)
theorem Level.recounted.undrawn {v w : Level} (h : v.recounted w) : w.undrawn = v.undrawn := (congrArg Level.undrawn h :)

/-- Every run-queue entry was one before, for a level that may have been another. -/
def runqsFrom (s t : State) : Prop := ∀ c, ∀ e ∈ (t.coreAt c).runq, ∃ d ∈ (s.coreAt c).runq, e = { d with level := e.level }

/-- What completions and changes of counts leave: of the levels the rest of their records, the draw units, and the run queues but
for the levels that they name. -/
structure Recounted (s t : State) : Prop where
  levels : ∀ i, (s.levelAt i).recounted (t.levelAt i)
  draws : t.mach.draws = s.mach.draws
  runqs : runqsFrom s t

theorem Recounted.refl (s : State) : Recounted s s := ⟨fun _ => rfl, rfl, fun _ e he => ⟨e, he, rfl⟩⟩

theorem Recounted.trans (h : Recounted s t) (k : Recounted t u) : Recounted s u := by
  refine ⟨fun i => (h.levels i).trans (k.levels i), k.draws.trans h.draws, fun c e he => ?_⟩
  obtain ⟨d, hd, hed⟩ := k.runqs c e he
  obtain ⟨x, hx, hdx⟩ := h.runqs c d hd
  refine ⟨x, hx, hed.trans ?_⟩
  rw [hdx]

theorem Recounted.foldl {α : Type} {f : State → α → State} (hf : ∀ u a, Recounted u (f u a)) (s : State) (l : List α) :
    Recounted s (l.foldl f s) := by
  induction l generalizing s with
  | nil => exact .refl s
  | cons a r ih => exact (hf s a).trans (ih _)

theorem Recounted.updLevel (s : State) (k : Nat) {f : Level → Level} (hf : ∀ v : Level, v.recounted (f v)) :
    Recounted s (s.updLevel k f) := by
  refine ⟨fun i => ?_, (LevelSide.updLevel ..).draws, fun c e he => ⟨e, ?_, rfl⟩⟩
  · by_cases h : i = k
    · rw [h, State.levelAt_updLevel_self]
      exact hf _
    · rw [State.levelAt_updLevel_other _ _ h]
      rfl
  · rwa [(LevelSide.updLevel s k f).coreAt c] at he

theorem Recounted.lessCount (s : State) (k n : Nat) : Recounted s (s.updLevel k (fun v => { v with count := v.count - n })) :=
  .updLevel s k fun _ => rfl

theorem Recounted.completed (s : State) (k : Nat) : Recounted s (s.completed k) := by
  refine ⟨fun i => ?_, s.draws_completed k, fun c e he => ?_⟩
  · obtain ⟨a, h⟩ := s.levelAt_completed k i
    rw [h]
    split
    · next hi => rw [hi]; rfl
    · rfl
  · rw [State.runq_completed, List.mem_map] at he
    obtain ⟨d, hd, rfl⟩ := he
    exact ⟨d, hd, rfl⟩

/-- A level whose count is zero, and those above it that then have none left, complete (R260). -/
theorem Recounted.settleLevel (s : State) (fuel k : Nat) : Recounted s (s.settleLevel fuel k) := by
  induction fuel generalizing s k with
  | zero => exact .refl s
  | succ fuel ih =>
    rw [State.settleLevel_succ]
    split
    · exact .refl s
    · split
      · exact .completed s k
      · exact ((Recounted.completed s k).trans (.lessCount ..)).trans (ih ..)

theorem Recounted.lowerLevel (s : State) (k n : Nat) : Recounted s (s.lowerLevel k n) :=
  (Recounted.lessCount ..).trans (.settleLevel ..)

/-! ### Counts that are raised and lowered (R258, R259) -/

theorem exec_countChange (h : Nat) (s : State) : exec (.countChange h) s = execCountChange h s := rfl

theorem State.countAt_raises (h : (s.levelAt k).count < 2 ^ 32 - 1) (hm : Nat) :
    s.countAt hm k true = s.updLevel k (fun v => { v with count := v.count + 1 }) := by
  rw [State.countAt, if_pos rfl, if_neg (by omega)]

/-- A raise of a full count is refused, with a record of 0x185 (R258). -/
theorem State.countAt_full (h : 2 ^ 32 - 1 ≤ (s.levelAt k).count) (hm : Nat) :
    ∃ r : FaultRec, ∃ e, s.countAt hm k true = { s.updLevel k (fun v => { v with owed := v.owed + 1 }) with eqx := e } ∧
      e.lane0 = s.eqx.lane0 ++ [r] ∧ r.cause = 0x185 ∧ r.index = k % 2 ^ 32 := by
  rw [State.countAt, if_pos rfl, if_pos h, State.overflowRecord]
  generalize hu : s.updLevel k (fun v => { v with owed := v.owed + 1 }) = u
  generalize hr : u.unitRec 0 (7 * hm + 3) 0x185 u.job.tag (k % 2 ^ 32) (BitVec.ofNat 64 (k % 2 ^ 32))
    (u.unitAt 0 (7 * hm + 3)).window = r
  obtain ⟨e, he⟩ := u.emit_only r
  have hlane : r.lane ≠ 1 := by rw [← hr]; exact Nat.zero_ne_one
  have heqx : e = { u.eqx with lane0 := u.eqx.lane0 ++ [r] } :=
    (congrArg (·.eqx) he :).symm.trans ((u.emit_eqx r).trans (if_neg hlane))
  refine ⟨r, e, he, ?_, ?_, ?_⟩
  · rw [heqx, ← hu, (LevelSide.updLevel ..).eqx]
  · rw [← hr]; rfl
  · rw [← hr]; rfl

theorem State.countAt_owed (h : (s.levelAt k).owed ≠ 0) (hm : Nat) :
    s.countAt hm k false = s.updLevel k (fun v => { v with owed := v.owed - 1 }) := by
  rw [State.countAt, if_neg nofun, if_pos h]

theorem State.countAt_lowers (h : (s.levelAt k).owed = 0) (hm : Nat) : s.countAt hm k false = s.lowerLevel k 1 := by
  rw [State.countAt, if_neg nofun, if_neg (not_not_intro h)]

/-- A level with tasks left does not complete. -/
theorem State.lowerLevel_of_open {n : Nat} (h : n < (s.levelAt k).count) :
    s.lowerLevel k n = s.updLevel k (fun v => { v with count := v.count - n }) := by
  refine State.settleLevel_of_open (Level.closable_of_count ?_) 6
  rw [State.levelAt_updLevel_self]
  exact Nat.sub_ne_zero_of_lt h

/-- The last task of an open level: the level completes, and its parent, which has others, loses one with it (R260). -/
theorem State.lowerLevel_completes (hcount : (s.levelAt k).count = 1) (hk : k ≠ 0) (hown : k < 2 ^ 32)
    (hstate : (s.levelAt k).state = 2) (hkind : (s.levelAt k).tkind ≠ 2) (hparent : (s.levelAt k).parent ≠ k)
    (hothers : 2 ≤ (s.levelAt (s.levelAt k).parent).count) :
    ((s.lowerLevel k 1).levelAt k).state = 3 ∧ ((s.lowerLevel k 1).levelAt k).count = 0 ∧
      ((s.lowerLevel k 1).levelAt (s.levelAt k).parent).count = (s.levelAt (s.levelAt k).parent).count - 1 := by
  generalize hu : s.updLevel k (fun v => { v with count := v.count - 1 }) = u
  generalize hp : (s.levelAt k).parent = p at *
  have huk : u.levelAt k = { s.levelAt k with count := 0 } := by rw [← hu, State.levelAt_updLevel_self, hcount]
  have hup : u.levelAt p = s.levelAt p := by rw [← hu, State.levelAt_updLevel_other _ _ hparent]
  obtain ⟨a, hck⟩ := u.levelAt_completed k k
  obtain ⟨b, hcp⟩ := u.levelAt_completed k p
  rw [if_pos rfl, huk] at hck
  rw [if_neg hparent, hup] at hcp
  have hopen : ¬(k % 2 ^ 32 = 0 ∨ 2 ^ 32 ≤ k ∨ (u.levelAt k).closable = false) := by
    rw [huk]
    rintro (h | h | h)
    · omega
    · omega
    · simp [Level.closable, hstate] at h
  have hlast : (u.completed k).updLevel p (fun v => { v with count := v.count - 1 }) = s.lowerLevel k 1 := by
    rw [State.lowerLevel, hu, State.settleLevel_succ, if_neg hopen, huk, if_neg hkind, hp]
    refine (State.settleLevel_of_open (Level.closable_of_count ?_) 5).symm
    rw [State.levelAt_updLevel_self, hcp]
    exact Nat.sub_ne_zero_of_lt hothers
  rw [← hlast, State.levelAt_updLevel_self, State.levelAt_updLevel_other _ _ hparent.symm, hck, hcp]
  exact ⟨rfl, rfl, rfl⟩

/-- A raise or lowering at the head of a home's perform queue is performed (R259). -/
theorem execCountChange_head {h : Nat} {p : Packet} {rest : List Packet} (hq : (s.homeAt h).q = p :: rest) {up : Bool}
    (hb : p.body = .count k up) : exec (.countChange h) s = .next ((s.afterHead h rest).countAt h k up) := by
  rw [exec_countChange, execCountChange, State.takeHome_head hq]
  dsimp only
  rw [hb]

/-- One that another module has sent names the level as that module knows it (R271). -/
theorem execCountChange_far {h key : Nat} {p : Packet} {rest : List Packet} (hq : (s.homeAt h).q = p :: rest) {up : Bool}
    (hb : p.body = .farCount key up) :
    exec (.countChange h) s = .next ((s.afterHead h rest).countAt h (s.levelNamed key) up) := by
  rw [exec_countChange, execCountChange, State.takeHome_head hq]
  dsimp only
  rw [hb]

/-- A raise of a level with room: the packet has left the home's queue, and the count is one more. -/
theorem State.countAt_raised {h : Nat} {rest : List Packet} (hroom : (s.levelAt k).count < 2 ^ 32 - 1) :
    (((s.afterHead h rest).countAt h k true).homeAt h).q = rest ∧
      ((s.afterHead h rest).countAt h k true).levelAt k = { s.levelAt k with count := (s.levelAt k).count + 1 } := by
  rw [State.countAt_raises (s := s.afterHead h rest) hroom, (LevelSide.updLevel ..).homeAt, State.afterHead_q,
    State.levelAt_updLevel_self]
  exact ⟨rfl, rfl⟩

end Sys2Proof.Machine
end

