-- ==== Sys2Proof/Proofs/LevelCancels.lean ====
section
/-! PROOFS. O49: a level that is cancelled, its deadline, and the completions that go out on channel H (R251, R268, R269,
R322). -/

namespace Sys2Proof.Machine

open Sys2Proof Sys2Proof.Safety

variable {s t u : State} {k : Nat}

/-! ### Levels become cancel-pending (R268) -/

/-- No level loses its cancel mark, and none its time of cancel. -/
def CancelsKept (s t : State) : Prop :=
  ∀ i, (t.levelAt i).cpAt = (s.levelAt i).cpAt ∧ ((s.levelAt i).cp = true → (t.levelAt i).cp = true)

theorem CancelsKept.of_levels (h : t.mach.levels = s.mach.levels) : CancelsKept s t := fun i => by
  rw [State.levelAt_congr h]
  exact ⟨rfl, id⟩

theorem CancelsKept.trans (h : CancelsKept s t) (k : CancelsKept t u) : CancelsKept s u := fun i =>
  ⟨(k i).1.trans (h i).1, fun hcp => (k i).2 ((h i).2 hcp)⟩

theorem Recounted.cancelsKept (h : Recounted s t) : CancelsKept s t := fun i =>
  ⟨(h.levels i).cpAt, fun hcp => (h.levels i).cp.trans hcp⟩

/-- A level that becomes cancel-pending: of its record only the mark, the count and what of its grid is not drawn change; the draw
units are told. -/
theorem State.markCancel_only (s : State) (k : Nat) : ∃ n d u, LevelSide s u ∧ NetSide u (s.markCancel k) ∧
    ∀ i, u.levelAt i = if i = k then { s.levelAt k with cp := true, count := n, undrawn := d } else s.levelAt i := by
  have hone (i : Nat) : (s.setLevel k { s.levelAt k with cp := true }).levelAt i =
      if i = k then { s.levelAt k with cp := true } else s.levelAt i := State.levelAt_setLevel ..
  have hset := LevelSide.setLevel s k { s.levelAt k with cp := true }
  unfold State.markCancel
  dsimp only
  split
  · exact ⟨_, _, _, hset, .refl _, hone⟩
  · split
    · refine ⟨(s.levelAt k).count - gridSize (s.levelAt k).grid, (s.levelAt k).undrawn + gridSize (s.levelAt k).grid, _,
        hset.trans (.setLevel ..), .refl _, fun i => ?_⟩
      rw [State.levelAt_setLevel, hone]
      split <;> rfl
    · split
      · exact ⟨_, _, _, hset, .foldl (fun _ _ => .post ..) .., hone⟩
      · exact ⟨_, _, _, hset, .refl _, hone⟩

theorem State.coreAt_markCancel (s : State) (k c : Nat) : (s.markCancel k).coreAt c = s.coreAt c := by
  obtain ⟨n, d, u, hside, hnet, -⟩ := s.markCancel_only k
  rw [hnet.coreAt, hside.coreAt]

theorem State.levelAt_markCancel (s : State) (k : Nat) : ∃ n d, ∀ i, (s.markCancel k).levelAt i =
    if i = k then { s.levelAt k with cp := true, count := n, undrawn := d } else s.levelAt i := by
  obtain ⟨n, d, u, -, hnet, hlevel⟩ := s.markCancel_only k
  exact ⟨n, d, fun i => (State.levelAt_congr hnet.levels i).trans (hlevel i)⟩

theorem CancelsKept.markCancel (s : State) (k : Nat) : CancelsKept s (s.markCancel k) := fun i => by
  obtain ⟨n, d, h⟩ := s.levelAt_markCancel k
  rw [h]
  split
  · next hi => rw [hi]; exact ⟨rfl, fun _ => rfl⟩
  · exact ⟨rfl, id⟩

/-- Levels marked one after the other are all marked. -/
theorem State.markCancel_all (s : State) (l : List Nat) :
    CancelsKept s (l.foldl State.markCancel s) ∧ ∀ i ∈ l, ((l.foldl State.markCancel s).levelAt i).cp = true := by
  induction l generalizing s with
  | nil => exact ⟨.of_levels rfl, nofun⟩
  | cons k r ih =>
    obtain ⟨hkept, hall⟩ := ih (s.markCancel k)
    refine ⟨(CancelsKept.markCancel s k).trans hkept, fun i hi => ?_⟩
    rcases List.mem_cons.mp hi with rfl | hi
    · obtain ⟨n, d, h⟩ := s.levelAt_markCancel i
      exact (hkept i).2 (by rw [h, if_pos rfl])
    · exact hall i hi

/-! ### Run-queue entries that are removed (R268) -/

theorem Core.purge_runq (k : Core) (ident : Word) : (k.purge ident).2.runq = k.runq := by
  have hrefill (fuel cls : Nat) (k : Core) : (refill fuel cls k).runq = k.runq := by
    obtain ⟨i, x, h⟩ := refill_only fuel cls k
    rw [h]
  simp only [Core.purge, List.foldl_cons, List.foldl_nil, hrefill]

@[simp] theorem State.coreAt_closeCarried (s : State) (a : Agent) (h : Handle) (c : Nat) :
    (s.closeCarried a h).coreAt c = s.coreAt c := by
  unfold State.closeCarried
  split <;> rfl

@[simp] theorem State.coreAt_dropMsg (s : State) (a : Agent) (m : Msg) (c : Nat) : (s.dropMsg a m).coreAt c = s.coreAt c := by
  unfold State.dropMsg
  dsimp only
  split <;> simp

theorem State.runq_closeRecv (s : State) (c : Nat) (h : Handle) (c' : Nat) :
    ((s.closeRecv c h).coreAt c').runq = (s.coreAt c').runq := by
  have hdrop (u : State) (l : List Msg) : (l.foldl (fun s m => s.dropMsg (.core c) m) u).coreAt c' = u.coreAt c' :=
    foldl_leaves (π := (·.coreAt c')) (fun u m => u.coreAt_dropMsg ..) u l
  have hpurge := (s.coreAt c).purge_runq h.ident
  unfold State.closeRecv
  generalize (s.coreAt c).purge h.ident = x at hpurge ⊢
  obtain ⟨gone, k⟩ := x
  dsimp only
  rw [State.coreAt_post, hdrop]
  by_cases hc : c' = c
  · rw [hc, State.coreAt_setCore_self]
    exact hpurge
  · rw [State.coreAt_setCore_other _ _ hc]

/-- An end that is closed leaves every run queue. -/
theorem State.runq_closeEnd (s : State) (c : Nat) (h : Handle) (c' : Nat) :
    ((s.closeEnd c h).coreAt c').runq = (s.coreAt c').runq := by
  unfold State.closeEnd
  split
  · rfl
  · rw [State.coreAt_post]
    rfl
  · exact s.runq_closeRecv ..

/-- The entries of the cancelled levels leave the core's run queue; the other cores keep theirs. -/
theorem State.runq_purgeRunq (s : State) (lvs : List Nat) (c c' : Nat) : ((s.purgeRunq lvs c).coreAt c').runq =
    if c' = c then (s.coreAt c).runq.filter (fun e => !lvs.contains e.level) else (s.coreAt c').runq := by
  unfold State.purgeRunq
  rw [List.partition_eq_filter_filter]
  dsimp only
  split
  · next hnone =>
    have hall : (s.coreAt c).runq.filter (fun e => !lvs.contains e.level) = (s.coreAt c).runq := by
      simpa [List.filter_eq_self] using hnone
    rw [hall]
    split
    · next hc => rw [hc]
    · rfl
  · rw [foldl_leaves (π := fun u => (u.coreAt c').runq) (fun u e => by rw [State.coreAt_sendCount, State.runq_closeEnd])]
    split
    · next hc =>
      rw [hc, State.coreAt_updCore_self]
      rfl
    · next hc => rw [State.coreAt_updCore_other _ _ hc]

theorem CoreSide.purgeRunq (s : State) (lvs : List Nat) (c : Nat) : CoreSide s (s.purgeRunq lvs c) := by
  unfold State.purgeRunq
  dsimp only
  split
  · exact .refl s
  · exact (CoreSide.updCore ..).trans (.foldl (fun _ _ => (CoreSide.closeEnd ..).trans (.sendCount ..)) ..)

theorem State.runq_purgeRunq_cores (s : State) (lvs : List Nat) (l : List (Nat × Core)) (c : Nat) :
    ((l.foldl (fun s e => s.purgeRunq lvs e.1) s).coreAt c).runq =
      if c ∈ l.map (·.1) then (s.coreAt c).runq.filter (fun e => !lvs.contains e.level) else (s.coreAt c).runq := by
  induction l generalizing s with
  | nil => rfl
  | cons x r ih =>
    rw [List.foldl_cons, ih, State.runq_purgeRunq]
    by_cases hx : c = x.1
    · have hmem : c ∈ (x :: r).map (·.1) := List.mem_map.mpr ⟨x, List.mem_cons_self, hx.symm⟩
      rw [if_pos hx, if_pos hmem, ← hx]
      split
      · rw [List.filter_filter]
        simp only [Bool.and_self]
      · rfl
    · have hmem : c ∈ (x :: r).map (·.1) ↔ c ∈ r.map (·.1) := by
        rw [List.map_cons, List.mem_cons, or_iff_right hx]
      rw [if_neg hx]
      simp only [hmem]

/-- A core that the table does not hold has an empty run queue. -/
theorem State.runq_of_absent {c : Nat} (h : c ∉ s.mach.cores.map (·.1)) : (s.coreAt c).runq = [] := by
  have hnone (m : AMap Core) (hm : c ∉ m.map (·.1)) : AMap.get m c = none := by
    induction m with
    | nil => rfl
    | cons e r ih =>
      rw [List.map_cons, List.mem_cons, not_or] at hm
      rw [AMap.get, if_neg hm.1, ih hm.2]
  rw [State.coreAt, hnone _ h]
  rfl

/-! ### The stages of a cancel (R268) -/

/-- Tasks that are woken leave the levels and the cores (R251). -/
theorem State.wakeCancelled_leaves (s : State) (fresh : List Nat) :
    (s.wakeCancelled fresh).mach.levels = s.mach.levels ∧ ∀ c, (s.wakeCancelled fresh).coreAt c = s.coreAt c := by
  unfold State.wakeCancelled
  dsimp only
  exact ⟨foldl_leaves (π := (·.mach.levels)) (fun u e => by split <;> rfl) ..,
    fun c => foldl_leaves (π := (·.coreAt c)) (fun u e => by split <;> rfl) ..⟩

/-- The run queues of all cores after the cancelled levels' entries have been removed. -/
theorem State.runq_purgeAll (s : State) (lvs : List Nat) (c : Nat) :
    ((s.mach.cores.foldl (fun s e => s.purgeRunq lvs e.1) s).coreAt c).runq =
      (s.coreAt c).runq.filter (fun e => !lvs.contains e.level) := by
  rw [State.runq_purgeRunq_cores]
  split
  · rfl
  · next hc => rw [State.runq_of_absent hc]; rfl

/-- Levels that become cancel-pending: they are marked, their run-queue entries removed, and then those that can complete do. -/
theorem State.makePending_stages (s : State) (lvs : List Nat) : ∃ u v : State,
    (CancelsKept s u ∧ ∀ i ∈ lvs, (u.levelAt i).cp = true) ∧
    (v.mach.levels = u.mach.levels ∧ ∀ c, (v.coreAt c).runq = (s.coreAt c).runq.filter (fun e => !lvs.contains e.level)) ∧
    Recounted v (s.makePending lvs) := by
  unfold State.makePending
  dsimp only
  generalize hfresh : lvs.filter (fun i => !(s.levelAt i).cp) = fresh
  generalize hmarked : fresh.foldl State.markCancel s = u
  generalize (if fresh.isEmpty then [] else ((lvs.map (fun i => (s.levelAt i).away)).flatten).eraseDups) = peers
  generalize htold : peers.foldl (fun s p => s.tellLevels p (fresh.map s.globalKey) .cancelled) u = w
  obtain ⟨hkept, hall⟩ := s.markCancel_all fresh
  rw [hmarked] at hkept hall
  have hcores (c : Nat) : u.coreAt c = s.coreAt c := by
    rw [← hmarked]
    exact foldl_leaves (π := (·.coreAt c)) (fun u k => u.coreAt_markCancel k c) ..
  have hnet : NetSide u w := htold ▸ .foldl (fun _ _ => .post ..) ..
  have hside : CoreSide w (w.mach.cores.foldl (fun s e => s.purgeRunq lvs e.1) w) := .foldl (fun _ _ => .purgeRunq ..) ..
  obtain ⟨hlevels, hwoken⟩ := State.wakeCancelled_leaves (w.mach.cores.foldl (fun s e => s.purgeRunq lvs e.1) w) fresh
  refine ⟨u, _, ⟨hkept, fun i hi => ?_⟩, ⟨hlevels.trans (hside.levels.trans hnet.levels), fun c => ?_⟩,
    .foldl (fun _ _ => .settleLevel ..) ..⟩
  · by_cases hcp : (s.levelAt i).cp = true
    · exact (hkept i).2 hcp
    · exact hall i (by rw [← hfresh]; simpa [hcp] using hi)
  · rw [hwoken, State.runq_purgeAll, hnet.coreAt, hcores]

/-- What a cancel of levels leaves: every mark stays, all the levels are marked, and no entry of a run queue is theirs (R268). -/
theorem State.makePending_cancels (s : State) (lvs : List Nat) :
    CancelsKept s (s.makePending lvs) ∧ (∀ i ∈ lvs, ((s.makePending lvs).levelAt i).cp = true) ∧
      ∀ c, ∀ e ∈ ((s.makePending lvs).coreAt c).runq, ∃ d ∈ (s.coreAt c).runq, d.level ∉ lvs ∧
        e = { d with level := e.level } := by
  obtain ⟨u, v, ⟨hkept, hall⟩, ⟨hlevels, hrunq⟩, hdone⟩ := s.makePending_stages lvs
  have hrest : CancelsKept u (s.makePending lvs) := (CancelsKept.of_levels hlevels).trans hdone.cancelsKept
  refine ⟨hkept.trans hrest, fun i hi => (hrest i).2 (hall i hi), fun c e he => ?_⟩
  obtain ⟨d, hd, hed⟩ := hdone.runqs c e he
  rw [hrunq, List.mem_filter] at hd
  exact ⟨d, hd.1, by simpa using hd.2, hed⟩

/-! ### A cancel request at a level's home (R268, R269) -/

theorem exec_cancelRequest (h : Nat) (s : State) : exec (.cancelRequest h) s = execCancelRequest h s := rfl

/-- What the request does at its home: nothing at a level that is complete or marked (R245). -/
theorem execCancelRequest_head {h : Nat} {p : Packet} {rest : List Packet} (hq : (s.homeAt h).q = p :: rest)
    (hb : p.body = .cancelReq k) : exec (.cancelRequest h) s = .next
      (if ((s.freshen k).levelAt k).state = 3 ∨ ((s.freshen k).levelAt k).cp = true then s.afterHead h rest
        else ((s.freshen k).afterHead h rest).cancelLevel k) := by
  have hfresh : (s.afterHead h rest).freshen k = (s.freshen k).afterHead h rest := by
    unfold State.freshen
    dsimp only
    by_cases hc : (s.levelAt k).state = 3 ∧ (s.readRecord k).2 ≠ 3
    · rw [if_pos hc]
      exact if_pos hc
    · rw [if_neg hc]
      exact if_neg hc
  rw [exec_cancelRequest, execCancelRequest, State.takeHome_head hq]
  dsimp only
  rw [hb]
  dsimp only
  rw [hfresh]
  rfl

theorem State.coreAt_freshen (s : State) (k c : Nat) : (s.freshen k).coreAt c = s.coreAt c := by
  unfold State.freshen
  dsimp only
  split <;> rfl

theorem State.freshen_clock (s : State) (k : Nat) : (s.freshen k).mach.clock = s.mach.clock := by
  unfold State.freshen
  dsimp only
  split <;> rfl

/-- A level that is cancelled: its time is noted, it is marked where no record is armed, all under it are, and no entry of a run
queue is theirs (R268, R269; log 137). -/
theorem State.cancelLevel_cancels (s : State) (k : Nat) :
    ((s.cancelLevel k).levelAt k).cpAt = some s.mach.clock ∧
      ((s.levelAt k).level = 0 → ((s.cancelLevel k).levelAt k).cp = true) ∧
      (∀ i ∈ s.underLevel k, ((s.cancelLevel k).levelAt i).cp = true) ∧
      ∀ c, ∀ e ∈ ((s.cancelLevel k).coreAt c).runq, ∃ d ∈ (s.coreAt c).runq, d.level ∉ s.underLevel k ∧
        e = { d with level := e.level } := by
  rw [State.cancelLevel]
  generalize hv : { s.levelAt k with
    cpAt := some s.mach.clock, cp := (s.levelAt k).cp || decide ((s.levelAt k).level = 0) } = v
  have hk : (s.setLevel k v).levelAt k = v := by rw [State.levelAt_setLevel, if_pos rfl]
  obtain ⟨hkept, hall, hrunq⟩ := (s.setLevel k v).makePending_cancels (s.underLevel k)
  refine ⟨?_, fun h0 => (hkept k).2 ?_, hall, fun c e he => ?_⟩
  · rw [(hkept k).1, hk, ← hv]
  · rw [hk, ← hv]
    simp [h0]
  · obtain ⟨d, hd, hrest⟩ := hrunq c e he
    rw [(LevelSide.setLevel s k v).coreAt] at hd
    exact ⟨d, hd, hrest⟩

/-- A level that is not complete is under itself. -/
theorem State.mem_underLevel_self (hstate : (s.levelAt k).state ≠ 3) (hlevel : (s.levelAt k).level ≠ 0) :
    k ∈ s.underLevel k := by
  have hmem (m : AMap Level) (v : Level) (h : AMap.get m k = some v) : (k, v) ∈ m := by
    induction m with
    | nil => exact nomatch h
    | cons e r ih =>
      rw [AMap.get] at h
      split at h
      · next hke =>
        cases h
        rw [hke]
        exact List.mem_cons_self
      · exact List.mem_cons_of_mem _ (ih h)
  have hchain : (s.chain 8 k).contains k = true := by
    rw [State.chain]
    split <;> simp
  unfold State.levelAt at hstate hlevel
  cases hg : AMap.get s.mach.levels k with
  | none =>
    rw [hg] at hlevel
    exact absurd rfl hlevel
  | some v =>
    rw [hg] at hstate hlevel
    refine List.mem_map.mpr ⟨(k, v), List.mem_filter.mpr ⟨hmem _ v hg, ?_⟩, rfl⟩
    have hs : v.state ≠ 3 := hstate
    have hl : v.level ≠ 0 := hlevel
    simp only [hchain, Bool.and_true, Bool.and_eq_true, decide_eq_true_eq]
    exact ⟨hs, hl⟩

/-! ### A removal notice at a draw-counter unit (R268) -/

theorem exec_removalNotice (die : Nat) (s : State) : exec (.removalNotice die) s = execRemovalNotice die s := rfl

/-- The range of the launch is dropped, and its indices counted as not drawn. -/
theorem execRemovalNotice_drops {die o : Nat} {p : Packet} {rest : List Packet} (hq : (s.drawAt die).q = p :: rest)
    (hb : p.body = .removal k o) :
    let mine : Range → Bool := fun r => decide (r.lrec = k) && decide (r.order = o)
    ∃ t, exec (.removalNotice die) s = .next t ∧
      (t.drawAt die).ranges = (s.drawAt die).ranges.filter (fun r => !mine r) ∧
      (t.levelAt k).undrawn = (s.levelAt k).undrawn +
        (((s.drawAt die).ranges.filter mine).map (fun r => r.stop - r.next)).sum := by
  intro mine
  have hexec : exec (.removalNotice die) s = .next (((s.updDraw die (fun u => { u with
      q := rest, ranges := (s.drawAt die).ranges.filter (fun r => !mine r) })).updLevel k (fun v => { v with
        undrawn := v.undrawn + (((s.drawAt die).ranges.filter mine).map (fun r => r.stop - r.next)).sum })).lowerLevel k
          (((s.drawAt die).ranges.filter mine).map (fun r => r.stop - r.next)).sum) := by
    rw [exec_removalNotice, execRemovalNotice, hq]
    dsimp only
    rw [hb]
    dsimp only
    rw [List.partition_eq_filter_filter]
    rfl
  generalize (((s.drawAt die).ranges.filter mine).map (fun r => r.stop - r.next)).sum = n at hexec ⊢
  refine ⟨_, hexec, ?_, ?_⟩
  · rw [State.drawAt, (Recounted.lowerLevel ..).draws, (LevelSide.updLevel ..).draws, ← State.drawAt, State.drawAt_updDraw_self]
  · rw [((Recounted.lowerLevel ..).levels k).undrawn, State.levelAt_updLevel_self]
    rfl

/-! ### The deadline (R269) -/

theorem exec_cancelDeadline (k : Nat) (s : State) : exec (.cancelDeadline k) s = execCancelDeadline k s := rfl

/-- A task has ended: its slot drains, or is Free. -/
def Slot.over (sl : Slot) : Prop := sl.phase = .draining ∨ sl.phase = .free

/-- A task that ends leaves the other slots. -/
theorem State.slotAt_endTask_other (s : State) {c l c' l' : Nat} (h : slotKey c' l' ≠ slotKey c l) :
    (s.endTask c l).slotAt c' l' = s.slotAt c' l' := by
  have hcloses : ((s.slotAt c l).h.toList.foldl (fun s h => s.closeEnd c h) s).slotAt c' l' = s.slotAt c' l' :=
    foldl_leaves (π := (·.slotAt c' l')) (fun u x => by rw [State.slotAt, State.closeEnd_slots, State.slotAt]) ..
  unfold State.endTask
  dsimp only
  rw [State.slotAt_settleExits, State.drain, State.slotAt_updSlotAt_other _ _ h]
  split
  · rw [State.slotAt_updSlotAt_other _ _ h, State.slotAt_updCore, State.slotAt_dropLeases, hcloses]
  · rw [State.slotAt_sendCount, State.slotAt_updSlotAt_other _ _ h, State.slotAt_updCore, State.slotAt_dropLeases, hcloses]

theorem State.slotAt_countKilled (s : State) (k top c l : Nat) : (s.countKilled k top).slotAt c l = s.slotAt c l :=
  (LevelSide.foldl (fun _ _ => .updLevel ..) ..).slotAt c l

/-- A kill counts the task, sends its record and ends it. -/
theorem State.killAt_ends (s : State) (k : Nat) (e : Nat × Nat × Nat) :
    ∃ u : State, s.killAt k e = u.endTask e.1 e.2.1 ∧ ∀ c l, u.slotAt c l = s.slotAt c l := by
  refine ⟨_, rfl, fun c l => ?_⟩
  rw [State.slotAt_emit]
  split
  · exact s.slotAt_countKilled ..
  · rfl

theorem State.killAt_over (s : State) (k : Nat) (e : Nat × Nat × Nat) : ((s.killAt k e).slotAt e.1 e.2.1).over := by
  obtain ⟨u, h, -⟩ := s.killAt_ends k e
  rw [h]
  exact (u.slotAt_endTask ..).1

/-- A task that has ended stays so while others are killed. -/
theorem State.killAt_keeps_over (k : Nat) (e : Nat × Nat × Nat) {c l : Nat} (h : (s.slotAt c l).over) :
    ((s.killAt k e).slotAt c l).over := by
  by_cases hkey : slotKey c l = slotKey e.1 e.2.1
  · have hsame (t : State) : t.slotAt c l = t.slotAt e.1 e.2.1 := by rw [State.slotAt, hkey, State.slotAt]
    rw [hsame]
    exact s.killAt_over k e
  · obtain ⟨u, hkill, hslots⟩ := s.killAt_ends k e
    rw [hkill, State.slotAt_endTask_other _ hkey, hslots]
    exact h

theorem State.foldl_killAt_keeps_over (k : Nat) (l : List (Nat × Nat × Nat)) {c i : Nat} (h : (s.slotAt c i).over) :
    ((l.foldl (fun s e => s.killAt k e) s).slotAt c i).over := by
  induction l generalizing s with
  | nil => exact h
  | cons e r ih => exact ih (State.killAt_keeps_over k e h)

theorem State.foldl_killAt_over (s : State) (k : Nat) (l : List (Nat × Nat × Nat)) :
    ∀ e ∈ l, ((l.foldl (fun s e => s.killAt k e) s).slotAt e.1 e.2.1).over := by
  induction l generalizing s with
  | nil => nofun
  | cons x r ih =>
    intro e he
    rcases List.mem_cons.mp he with rfl | he
    · exact State.foldl_killAt_keeps_over k r (s.killAt_over k e)
    · exact ih _ e he

theorem execCancelDeadline_kills {at_ : Nat} (hrun : s.stopped = false) (hat : (s.levelAt k).cpAt = some at_)
    (hdoomed : s.doomed k ≠ []) (htime : at_ + 2 ^ (if (s.levelAt k).cdl = 0 then 20 else (s.levelAt k).cdl) ≤ s.mach.clock) :
    ∃ u : State, exec (.cancelDeadline k) s = .next ((s.doomed k).foldl (fun s e => s.killAt k e) u) := by
  rw [exec_cancelDeadline, execCancelDeadline]
  dsimp only
  rw [hat]
  dsimp only
  refine ⟨_, if_neg ?_⟩
  simp only [hrun, List.isEmpty_iff, hdoomed, Bool.false_eq_true, false_and, false_or, or_false, not_lt]
  exact htime

/-! ### Completions for channel H (R322; log 92) -/

theorem exec_hCompletion (s : State) : exec .hCompletion s = execHCompletion s := rfl

/-- Equinox's own instance is made without a packet. -/
theorem State.ownH_leaves {e : Handle} (h : s.ownH = some (e, u)) : u.mach.net = s.mach.net ∧ u.part = s.part := by
  unfold State.ownH at h
  split at h
  · cases h
    exact ⟨rfl, rfl⟩
  · unfold State.newOfH at h
    dsimp only at h
    split at h
    · exact nomatch h
    · split at h
      · exact nomatch h
      · cases h
        exact ⟨rfl, rfl⟩

/-- H has no entry any more: the completion is dropped. -/
theorem execHCompletion_gone {st : Word} {q : List (Nat × Word)} (hq : s.mach.hQueue = (k, st) :: q) (hown : s.ownH = none)
    (hlives : s.hLives = false) : ∃ t, exec .hCompletion s = .next t ∧ t.mach.hQueue = q ∧ t.mach.net = s.mach.net := by
  rw [exec_hCompletion, execHCompletion, hq]
  dsimp only
  rw [hown, hlives]
  exact ⟨_, rfl, rfl, rfl⟩

/-- Its end is dead: the completion is dropped. -/
theorem execHCompletion_dead {st : Word} {q : List (Nat × Word)} {e : Handle} (hq : s.mach.hQueue = (k, st) :: q)
    (hown : s.ownH = some (e, u)) (hdead : e.dead = true) :
    ∃ t, exec .hCompletion s = .next t ∧ t.mach.hQueue = q ∧ t.mach.net = s.mach.net := by
  rw [exec_hCompletion, execHCompletion, hq]
  dsimp only
  rw [hown]
  dsimp only
  rw [if_pos hdead]
  exact ⟨_, rfl, rfl, (State.ownH_leaves hown).1⟩

/-- The message of a completion for H: its status and record in the first two words. -/
def State.hMessage (s : State) (e : Handle) (k : Nat) (st : Word) : Msg :=
  { ident := e.ident, inst := e.inst, gen := e.gen, seq := e.seq, cls := 1, kind := .data, words := 2
    payload := (noPayload.setIfInBounds 0 st).setIfInBounds 1 (BitVec.ofNat 64 k), carried := none, src := s.here (.core eqxCore)
    home := e.home, fwd := false }

/-- The oldest completion goes out as a message of Equinox's instance, for one credit. -/
theorem execHCompletion_sends {st : Word} {q : List (Nat × Word)} {e : Handle} (hq : s.mach.hQueue = (k, st) :: q)
    (hown : s.ownH = some (e, u)) (hdead : e.dead = false) (hcredit : 0 < e.credits) :
    ∃ t m, exec .hCompletion s = .next t ∧ t.mach.hQueue = q ∧
      t.mach.hSend.credits = e.credits - 1 ∧ t.mach.hSend.seq = e.seq + 1 ∧
      lastIs t { src := s.here (.core eqxCore), dst := locPlace (locOf e.locPeer e.loc), cls := 1 } (.msg m) ∧
      m.seq = e.seq ∧ m.payload[0] = st ∧ m.payload[1] = BitVec.ofNat 64 k := by
  rw [exec_hCompletion, execHCompletion, hq]
  dsimp only
  rw [hown]
  dsimp only
  rw [if_neg (by simp [hdead]), if_neg hcredit.ne']
  refine ⟨_, u.hMessage e k st, rfl, rfl, rfl, rfl, ?_, rfl, rfl, rfl⟩
  rw [← State.here_congr (State.ownH_leaves hown).2]
  exact State.post_lastIs ..

/-- Settles O49, from the rules of counts, cancels, removal notices, the deadline and the completions for H. -/
theorem levelsCountCompleteAndCancel : Obligations.levels_count_complete_and_cancel := by
  intro s h p rest
  refine ⟨fun hq => ⟨fun k hb => ⟨fun hroom => ?_, fun hfull => ?_⟩, fun key hb hroom => ?_,
      fun k hb => ⟨fun howed => ?_, fun howed hcount => ?_, fun howed hcount hk hown hstate hkind hparent hothers => ?_⟩,
      fun k hb => ⟨fun hdone => ?_, fun hfree hcp hlevel => ?_, fun hstate hcp hlevel => ?_⟩⟩,
    fun die k o hq hb => execRemovalNotice_drops hq hb, fun k at_ hrun hat hdoomed htime => ?_,
    fun k st q hq => ⟨execHCompletion_gone hq, fun e u hown => ⟨execHCompletion_dead hq hown, execHCompletion_sends hq hown⟩⟩⟩
  · exact ⟨_, execCountChange_head hq hb, State.countAt_raised hroom⟩
  · obtain ⟨r, e, hcount, hlane, hcause, hindex⟩ := State.countAt_full (s := s.afterHead h rest) hfull h
    have hside := LevelSide.updLevel (s.afterHead h rest) k (fun v => { v with owed := v.owed + 1 })
    refine ⟨_, r, execCountChange_head hq hb, ?_, ?_, ?_, hcause, hindex⟩
    · rw [hcount]
      exact (congrArg Home.q (hside.homeAt h)).trans (s.afterHead_q h rest)
    · rw [hcount]
      exact State.levelAt_updLevel_self ..
    · rw [hcount]
      exact hlane
  · exact ⟨_, execCountChange_far hq hb, State.countAt_raised hroom⟩
  · refine ⟨_, execCountChange_head hq hb, ?_⟩
    rw [State.countAt_owed (s := s.afterHead h rest) howed, State.levelAt_updLevel_self]
    rfl
  · refine ⟨_, execCountChange_head hq hb, ?_⟩
    rw [State.countAt_lowers (s := s.afterHead h rest) howed, State.lowerLevel_of_open (s := s.afterHead h rest) hcount,
      State.levelAt_updLevel_self]
    rfl
  · refine ⟨_, execCountChange_head hq hb, ?_⟩
    rw [State.countAt_lowers (s := s.afterHead h rest) howed]
    exact State.lowerLevel_completes (s := s.afterHead h rest) hcount hk hown hstate hkind hparent hothers
  · exact ⟨_, (execCancelRequest_head hq hb).trans (congrArg _ (if_pos hdone)), rfl, rfl⟩
  · obtain ⟨hat, hmarked, -⟩ := State.cancelLevel_cancels ((s.freshen k).afterHead h rest) k
    refine ⟨_, (execCancelRequest_head hq hb).trans (congrArg _ (if_neg ?_)), hmarked hlevel, hat.trans ?_⟩
    · simp [hfree, hcp]
    · exact congrArg some (s.freshen_clock k)
  · obtain ⟨hat, -, hall, hrunq⟩ := State.cancelLevel_cancels ((s.freshen k).afterHead h rest) k
    refine ⟨_, (execCancelRequest_head hq hb).trans (congrArg _ (if_neg ?_)), hat.trans ?_, hall,
      State.mem_underLevel_self hstate hlevel, fun c e he => ?_⟩
    · simp [hstate, hcp]
    · exact congrArg some (s.freshen_clock k)
    · obtain ⟨d, hd, hrest⟩ := hrunq c e he
      exact ⟨d, s.coreAt_freshen k c ▸ hd, hrest⟩
  · obtain ⟨u, hexec⟩ := execCancelDeadline_kills hrun hat hdoomed htime
    exact ⟨_, hexec, u.foldl_killAt_over k (s.doomed k)⟩

end Sys2Proof.Machine
end

