-- ==== Sys2Proof/Proofs/HostWrites.lean ====
section
/-! PROOFS. O52: host writes to queue tails, event heads, ring registers and BAR4, releases of parked slots, queue entries, and
fault records at Equinox (R250, R316, R323 to R325, R331, R334 to R336, R341). -/

namespace Sys2Proof.Machine

open Sys2Proof Sys2Proof.Safety

variable {s : State} {j q : Nat}

theorem exec_qtailWrite (j q : Nat) (v : Word) (s : State) : exec (.qtailWrite j q v) s = execQtailWrite j q v s := rfl
theorem exec_evheadWrite (j : Nat) (v : Word) (s : State) : exec (.evheadWrite j v) s = execEvheadWrite j v s := rfl
theorem exec_queueEntrySubmit (j q : Nat) (s : State) : exec (.queueEntrySubmit j q) s = execQueueEntrySubmit j q s := rfl
theorem exec_faultRecord (fatal : Bool) (s : State) : exec (.faultRecord fatal) s = execFaultRecord fatal s := rfl
theorem exec_hostRegisterWrite (bar off size : Nat) (v : VWord) (s : State) :
    exec (.hostRegisterWrite bar off size v) s = execHostRegisterWrite bar off size v s := rfl

/-! ### QTAIL and EVHEAD (R323 to R325) -/

theorem execQtailWrite_writes (hj : j < 64) (hq : q < 8) (hroom : s.logWaits j = false) (v : Word) :
    exec (.qtailWrite j q v) s = .next (s.jobWrite j (.tail q v)) := by
  rw [exec_qtailWrite, execQtailWrite, if_neg (by simp [hroom]; omega)]

theorem execEvheadWrite_writes (hj : j < 64) (hroom : s.logWaits j = false) (v : Word) :
    exec (.evheadWrite j v) s = .next (s.evheadWrite j v) := by
  rw [exec_evheadWrite, execEvheadWrite, if_neg (by simp [hroom]; omega)]

/-- A write for a job that is kept joins its log (R325, R341). -/
theorem State.jobWrite_kept (hready : s.eqx.ready = true) (hjob : (AMap.get s.jobs j).isSome = true) (hkept : s.keeps j = true)
    (w : LogW) : s.jobWrite j w = s.appendLog j w := by
  rw [State.jobWrite, if_neg (by simp [State.serves, hready, Option.isSome_iff_ne_none.mp hjob]), if_pos hkept]

/-- A write for the running job is performed. -/
theorem State.jobWrite_now (hready : s.eqx.ready = true) (hjob : (AMap.get s.jobs j).isSome = true) (hkept : s.keeps j = false)
    (w : LogW) : s.jobWrite j w = s.replayLog j w := by
  rw [State.jobWrite, if_neg (by simp [State.serves, hready, Option.isSome_iff_ne_none.mp hjob]), if_neg (by simp [hkept])]

theorem State.evheadWrite_of_job (h : AMap.get s.ended j = none) (v : Word) : s.evheadWrite j v = s.jobWrite j (.evhead v) := by
  rw [State.evheadWrite, h]

@[simp] theorem State.queueAt_updQueue_self (s : State) (j q : Nat) (f : HostQ → HostQ) :
    (s.updQueue j q f).queueAt j q = f (s.queueAt j q) := by
  rw [State.queueAt, State.updQueue, State.jobAt_updJobAt_self, AMap.get_set_self]
  rfl

/-- A host event leaves the queues (R323). -/
theorem State.queueAt_event (s : State) (j : Nat) (w0 w1 : Word) (q : Nat) : (s.event j w0 w1).queueAt j q = s.queueAt j q := by
  unfold State.event State.queueAt
  dsimp only
  split
  · rw [State.jobAt_updJobAt_self]
    rfl
  · rw [State.jobAt_updJobAt_self]

/-- QTAIL takes effect, and a tail more than the ring's size ahead disables the queue (R324, R325). -/
theorem State.tailNow_queue (s : State) (j q : Nat) (v : Word) :
    ((s.tailNow j q v).queueAt j q).tail = v.toNat % 65536 ∧
      (4 ≤ (s.queueAt j q).logn → 2 ^ (s.queueAt j q).logn < (v.toNat % 65536 + 65536 - (s.queueAt j q).prog) % 65536 →
        ((s.tailNow j q v).queueAt j q).off = true) := by
  unfold State.tailNow
  dsimp only
  split
  · next h =>
    rw [State.queueAt_updQueue_self]
    refine ⟨rfl, fun hlog hahead => ?_⟩
    rcases h with h | h | h
    · exact h
    · omega
    · omega
  · rw [State.queueAt_event, State.queueAt_updQueue_self, State.queueAt_updQueue_self]
    exact ⟨rfl, fun _ _ => rfl⟩

/-- Held events that are written leave EVHEAD (R323). -/
theorem State.writeEvents_evHead (s : State) (jb : Job) (fuel : Nat) : (s.writeEvents jb fuel).2.evHead = jb.evHead := by
  induction fuel generalizing s jb with
  | zero => rfl
  | succ fuel ih =>
    unfold State.writeEvents
    split
    · rfl
    · split
      · rfl
      · exact ih ..

theorem State.evheadNow_evHead (s : State) (j : Nat) (v : Word) : ((s.evheadNow j v).jobAt j).evHead = v.toNat % 65536 := by
  unfold State.evheadNow
  dsimp only
  rw [State.jobAt_updJobAt_self, State.writeEvents_evHead]

/-! ### Queue entries (R324) -/

/-- A write that no port takes is counted (R316). -/
theorem State.jobAt_badWrite (s : State) (j : Nat) :
    (s.badWrite j).jobAt j = { s.jobAt j with badwr := min ((s.jobAt j).badwr + 1) (2 ^ 32 - 1) } := by
  have hjobs (u : State) : (u.showCounts j).jobs = u.jobs := by
    unfold State.showCounts
    dsimp only
    split <;> rfl
  rw [State.badWrite, State.jobAt, hjobs, ← State.jobAt, State.jobAt_updJobAt_self, satAdd]

theorem State.jobAt_updQueue (s : State) (j q : Nat) (f : HostQ → HostQ) :
    ∃ x, (s.updQueue j q f).jobAt j = { s.jobAt j with queues := x } := ⟨_, State.jobAt_updJobAt_self ..⟩

/-- The next entry of a queue, as its ring holds it (R324; log 44). -/
def State.queueEntry (s : State) (j q : Nat) : VWord :=
  let x := s.queueAt j q
  BitVec.ofNat 512 (ofBytes (s.ringBytes (x.base.toNat + 64 * (x.prog % 2 ^ x.logn)) 64))

/-- A queue of the running job with an entry to submit (R324). -/
structure State.canSubmit (s : State) (j q : Nat) : Prop where
  running : s.running = some j
  going : s.stopped = false
  queue : q < 8
  on : (s.queueAt j q).off = false
  ring : 4 ≤ (s.queueAt j q).logn
  idle : (s.queueAt j q).busy = false
  ahead : (s.queueAt j q).tail ≠ (s.queueAt j q).prog

theorem State.canSubmit.enabled (h : s.canSubmit j q) : ¬(s.running ≠ some j ∨ s.stopped = true ∨ 8 ≤ q ∨
    (s.queueAt j q).off = true ∨ (s.queueAt j q).logn < 4 ∨ (s.queueAt j q).busy = true ∨ (s.queueAt j q).tail = (s.queueAt j q).prog) := by
  obtain ⟨hrun, hgoing, hq, hon, hring, hidle, hahead⟩ := h
  simp only [hrun, hgoing, hon, hidle, hahead, ne_eq, not_true_eq_false, Bool.false_eq_true, false_or, or_false]
  omega

/-- An entry with an opcode that no port takes is passed and counted (R316, R324). -/
theorem execQueueEntrySubmit_counts (h : s.canSubmit j q)
    (hop : portOp (s.queueEntry j q) < 0x20 ∨ 0x22 < portOp (s.queueEntry j q)) :
    exec (.queueEntrySubmit j q) s =
      .next ((s.badWrite j).updQueue j q (fun x => { x with prog := (x.prog + 1) % 65536 })) := by
  rw [exec_queueEntrySubmit, execQueueEntrySubmit]
  dsimp only
  rw [if_neg h.enabled]
  exact if_pos (hop.imp_right .inl)

/-- A task write goes to the home of record 0, and the queue waits for it (R324). -/
theorem execQueueEntrySubmit_posts (h : s.canSubmit j q) (hop : portOp (s.queueEntry j q) = 0x22)
    (hjob : 0 < (s.jobAt j).hcount) : exec (.queueEntrySubmit j q) s = .next ((s.updQueue j q (fun x => { x with busy := true })).post .equinox
      (s.here (.home (s.levelHome 0))) 0 (.port j 0 (s.queueEntry j q) (some q) false) 0 0) := by
  unfold State.queueEntry at hop ⊢
  dsimp only at hop ⊢
  rw [exec_queueEntrySubmit, execQueueEntrySubmit]
  dsimp only
  rw [if_neg h.enabled, hop, if_neg (by simpa using hjob.ne')]
  rfl

/-! ### Releases of parked slots (R250, R331) -/

section
variable {c l act : Nat} {g : BitVec 16}

/-- A release of a slot that the running job has parked is kept by a switch that has stopped the job, else performed (R341). -/
theorem State.releaseKept_running (hrun : s.running = some j) (hparked : (s.slotAt c l).phase = .parked)
    (hgen : (s.slotAt c l).gen = g) : s.releaseKept c l g = if s.stopped then some j else none := by
  have hmine : (AMap.get s.mach.slots (slotKey c l)).any (fun x => decide (x.phase = .parked ∧ x.gen = g)) = true := by
    unfold State.slotAt at hparked hgen
    cases hg : AMap.get s.mach.slots (slotKey c l) with
    | none =>
      rw [hg] at hparked
      exact nomatch hparked
    | some sl =>
      rw [hg] at hparked hgen
      exact decide_eq_true ⟨hparked, hgen⟩
  rw [State.releaseKept, hrun]
  exact if_pos hmine

/-- What the three release instructions do, by the action that they ask (Table 22-3). -/
def releaseStep (name : String) (act c l : Nat) (g : BitVec 16) (s : State) : Out :=
  if s.releaseWaits c l g then notEnabled name else s.hostDoes (fun s => s.release_ act c l g)

theorem exec_releaseRetry (c l : Nat) (g : BitVec 16) (s : State) :
    exec (.releaseRetry c l g) s = releaseStep "RELEASE_RETRY" 0 c l g s := rfl
theorem exec_releaseResume (c l : Nat) (g : BitVec 16) (s : State) :
    exec (.releaseResume c l g) s = releaseStep "RELEASE_RESUME" 1 c l g s := rfl
theorem exec_releaseKill (c l : Nat) (g : BitVec 16) (s : State) :
    exec (.releaseKill c l g) s = releaseStep "RELEASE_KILL" 2 c l g s := rfl

theorem releaseStep_logs (hready : s.eqx.ready = true) (hrun : s.running = some j) (hparked : (s.slotAt c l).phase = .parked)
    (hgen : (s.slotAt c l).gen = g) (hstop : s.stopped = true) (hroom : s.logFull j = false) (name : String) (act : Nat) :
    releaseStep name act c l g s = .next (s.appendLog j (.release (releaseWord act c l g))) := by
  have hkept : s.releaseKept c l g = some j := by rw [State.releaseKept_running hrun hparked hgen, if_pos hstop]
  rw [releaseStep, State.releaseWaits, hkept, if_neg (by simp [hroom]), State.hostDoes, State.serves, hready, if_pos rfl,
    State.release_, hkept]

theorem releaseStep_performs (hready : s.eqx.ready = true) (hrun : s.running = some j) (hparked : (s.slotAt c l).phase = .parked)
    (hgen : (s.slotAt c l).gen = g) (hgoing : s.stopped = false) (name : String) (act : Nat) :
    releaseStep name act c l g s = .next (s.doRelease act c l g) := by
  have hkept : s.releaseKept c l g = none := (State.releaseKept_running hrun hparked hgen).trans (if_neg (by simp [hgoing]))
  rw [releaseStep, State.releaseWaits, hkept, if_neg nofun, State.hostDoes, State.serves, hready, if_pos rfl,
    State.release_, hkept]

/-- A release that names a parked slot's task is not for one that has gone. -/
theorem release_named (hparked : (s.slotAt c l).phase = .parked) (hgen : (s.slotAt c l).gen = g) :
    ¬((s.slotAt c l).phase ≠ .parked ∨ (s.slotAt c l).gen ≠ g) := not_or.mpr ⟨not_not_intro hparked, not_not_intro hgen⟩

/-- A slot that `halt.slot` has parked ends its task, whichever action is asked (R250). -/
theorem State.doRelease_halted (hparked : (s.slotAt c l).phase = .parked) (hgen : (s.slotAt c l).gen = g)
    (hhalt : (s.slotAt c l).held.map (·.cause) = some 0x008) (hact : act < 3) : s.doRelease act c l g = s.endTask c l :=
  (if_neg (release_named hparked hgen)).trans (if_pos ⟨hact, hhalt⟩)

section
variable (hparked : (s.slotAt c l).phase = .parked) (hgen : (s.slotAt c l).gen = g)
  (hhalt : (s.slotAt c l).held.map (·.cause) ≠ some 0x008)
include hparked hgen hhalt

theorem State.doRelease_retry : s.doRelease 0 c l g = s.unpark c l (s.slotAt c l).epc :=
  (if_neg (release_named hparked hgen)).trans (if_neg fun h => hhalt h.2)

theorem State.doRelease_resume : s.doRelease 1 c l g = s.unpark c l s.eqx.relpc :=
  (if_neg (release_named hparked hgen)).trans (if_neg fun h => hhalt h.2)

theorem State.doRelease_ends : s.doRelease 2 c l g = s.endTask c l :=
  (if_neg (release_named hparked hgen)).trans (if_neg fun h => hhalt h.2)

end

/-- A release that kills ends the task, however the slot was parked (R331). -/
theorem State.doRelease_kill (hparked : (s.slotAt c l).phase = .parked) (hgen : (s.slotAt c l).gen = g) :
    s.doRelease 2 c l g = s.endTask c l := by
  by_cases hhalt : (s.slotAt c l).held.map (·.cause) = some 0x008
  · exact State.doRelease_halted hparked hgen hhalt (by decide)
  · exact State.doRelease_ends hparked hgen hhalt

theorem State.slotAt_unpark (s : State) (c l : Nat) (pc : Word) : ((s.unpark c l pc).slotAt c l).phase = .ready ∧
    ((s.unpark c l pc).slotAt c l).pc = pc ∧ ((s.unpark c l pc).slotAt c l).x = (s.slotAt c l).x := by
  rw [State.unpark, State.slotAt_updSlotAt_self]
  exact ⟨rfl, rfl, rfl⟩

end

/-! ### Fault records and the registers of their rings (R334 to R336) -/

/-- The overflow record changes the ring that it is written to, its tail, and where it stands (R335). -/
theorem State.settleOverflow_only (s : State) : ∃ m n o,
    s.settleOverflow = { s with host := m, eqx := { s.eqx with rqtail := n, overflowAt := o } } := by
  unfold State.settleOverflow
  dsimp only
  split
  · exact ⟨_, _, _, rfl⟩
  · split
    · exact ⟨_, _, _, rfl⟩
    · split <;> exact ⟨_, _, _, rfl⟩

theorem State.writeHeld_only (s : State) (fuel : Nat) : ∃ m n h,
    s.writeHeld fuel = { s with host := m, eqx := { s.eqx with rqtail := n, held := h } } := by
  induction fuel generalizing s with
  | zero => exact ⟨_, _, _, rfl⟩
  | succ fuel ih =>
    unfold State.writeHeld
    split
    · exact ⟨_, _, _, rfl⟩
    · next r rest _ =>
      split
      · obtain ⟨m, n, h, hw⟩ := ih ({ s with eqx := { s.eqx with held := rest } }.putReplayable r)
        exact ⟨m, n, h, hw⟩
      · exact ⟨_, _, _, rfl⟩

/-- Held records that are raised again leave the head and the base of their ring (R335). -/
theorem State.raiseHeld_regs (s : State) : s.raiseHeld.eqx.rqhead = s.eqx.rqhead ∧ s.raiseHeld.eqx.rqbase = s.eqx.rqbase := by
  obtain ⟨m, n, h, hw⟩ := s.writeHeld_only s.eqx.held.length
  obtain ⟨m', n', o, ho⟩ := (s.writeHeld s.eqx.held.length).settleOverflow_only
  rw [State.raiseHeld, ho, hw]
  exact ⟨rfl, rfl⟩

/-- The reserve that is written out leaves the head and the base of the fatal ring (R336). -/
theorem State.writeReserve_regs (s : State) (fuel : Nat) :
    (s.writeReserve fuel).eqx.fqhead = s.eqx.fqhead ∧ (s.writeReserve fuel).eqx.fqbase = s.eqx.fqbase := by
  induction fuel generalizing s with
  | zero => exact ⟨rfl, rfl⟩
  | succ fuel ih =>
    unfold State.writeReserve
    split
    · exact ⟨rfl, rfl⟩
    · split
      · exact ih _
      · exact ⟨rfl, rfl⟩

/-- A ring register is written where the module serves (R383). -/
theorem State.hostDoes_ready (h : s.eqx.ready = true) (f : State → State) : s.hostDoes f = .next (f s) := by
  rw [State.hostDoes, State.serves, h, if_pos rfl]

section
variable (hready : s.eqx.ready = true) (v : Word)
include hready

theorem exec_rqheadWrite : exec (.rqheadWrite v) s = .next (s.writeRqhead v) := s.hostDoes_ready hready (·.writeRqhead v)
theorem exec_fqheadWrite : exec (.fqheadWrite v) s = .next (s.writeFqhead v) := s.hostDoes_ready hready (·.writeFqhead v)
theorem exec_rqbaseWrite : exec (.rqbaseWrite v) s = .next (s.writeRqbase v) := s.hostDoes_ready hready (·.writeRqbase v)
theorem exec_fqbaseWrite : exec (.fqbaseWrite v) s = .next (s.writeFqbase v) := s.hostDoes_ready hready (·.writeFqbase v)
theorem exec_mccountWrite : exec (.mccountWrite v) s = .next (s.writeMccount v) := s.hostDoes_ready hready (·.writeMccount v)

end

theorem State.writeRqbase_rqbase (s : State) (v : Word) : (s.writeRqbase v).eqx.rqbase = v &&& ~~~0xFF0#64 := by
  unfold State.writeRqbase
  dsimp only
  split
  · rw [(State.raiseHeld_regs _).2]
    rfl
  · rfl

theorem State.writeFqbase_fqbase (s : State) (v : Word) : (s.writeFqbase v).eqx.fqbase = v &&& ~~~0xFF0#64 := by
  unfold State.writeFqbase
  dsimp only
  split
  · rw [(State.writeReserve_regs ..).2]
    rfl
  · rfl

section
variable {r : FaultRec} {rest : List FaultRec}

/-- The head of the replayable lane reaches Equinox once the fatal lane is empty (R334). -/
theorem execFaultRecord_replayable (h0 : s.eqx.lane0 = r :: rest) (h1 : s.eqx.lane1 = []) :
    exec (.faultRecord false) s = .next ({ s with eqx := { s.eqx with lane0 := rest } }.takeReplayable r) := by
  rw [exec_faultRecord, execFaultRecord, if_neg nofun, h0]
  dsimp only
  rw [if_neg (not_not_intro h1)]

theorem execFaultRecord_fatal (h1 : s.eqx.lane1 = r :: rest) :
    exec (.faultRecord true) s = .next ({ s with eqx := { s.eqx with lane1 := rest } }.takeFatal r) := by
  rw [exec_faultRecord, execFaultRecord, if_pos rfl, h1]

theorem State.takeReplayable_writes (hheld : s.eqx.held = []) (hroom : s.eqx.rqRoom = true) :
    s.takeReplayable r = s.putReplayable r := by
  rw [State.takeReplayable, if_pos (by simp [hheld, hroom])]

/-- The job that is switched out of whose slot a record tells (R341). -/
def State.awayJob (s : State) (r : FaultRec) : Option (Nat × Job) :=
  s.jobs.find? (fun e => decide (e.2.tag = r.jobid) && (AMap.get s.saved e.1).isSome)

/-- With no room a record is held (R335). -/
theorem State.takeReplayable_holds (hroom : s.eqx.rqRoom = false) (haway : r.slotted = false ∨ s.awayJob r = none) :
    s.takeReplayable r = { s with eqx := { s.eqx with held := s.eqx.held ++ [r] } }.settleOverflow := by
  have hnone : (if r.slotted = true then s.awayJob r else none) = none := by
    rcases haway with h | h
    · rw [h]
      rfl
    · rw [h, ite_self]
  unfold State.awayJob at hnone
  rw [State.takeReplayable, if_neg (by simp [hroom]), hnone]

/-- That of a slot of a job that is switched out is kept with the job (R341). -/
theorem State.takeReplayable_keeps (hroom : s.eqx.rqRoom = false) (hslot : r.slotted = true) {e : Nat × Job}
    (haway : s.awayJob r = some e) : s.takeReplayable r = { s with
      saved := AMap.set s.saved e.1 { (AMap.get s.saved e.1).getD Mach.reset with
        heldRecs := ((AMap.get s.saved e.1).getD Mach.reset).heldRecs ++ [r] } } := by
  unfold State.awayJob at haway
  rw [State.takeReplayable, if_neg (by simp [hroom]), if_pos hslot, haway]

theorem State.takeFatal_writes (hreserve : s.eqx.reserve = []) (hroom : s.eqx.fqRoom = true) : s.takeFatal r = s.putFatal r := by
  rw [State.takeFatal]
  exact if_pos (by simp [hreserve, hroom])

theorem State.takeFatal_reserves (hroom : s.eqx.fqRoom = false) (hreserve : s.eqx.reserve.length < 1024) :
    s.takeFatal r = { s with eqx := { s.eqx with reserve := s.eqx.reserve ++ [r] } } := by
  rw [State.takeFatal]
  exact (if_neg (by simp [hroom])).trans (if_pos hreserve)

/-- A full reserve: the record is counted, and the machine check raised as the count leaves zero (R336). -/
theorem State.takeFatal_counts (hreserve : 1024 ≤ s.eqx.reserve.length) : s.takeFatal r = { s with eqx := { s.eqx with
    mccount := min (s.eqx.mccount + 1) (2 ^ 32 - 1)
    msix := if s.eqx.mccount = 0 then s.eqx.msix ++ [s.eqx.mcvec] else s.eqx.msix } } := by
  have hne : s.eqx.reserve ≠ [] := fun h => by simp [h] at hreserve
  rw [State.takeFatal]
  exact (if_neg (by simp [hne])).trans (if_neg (by omega))

end

/-! ### BAR4 and BAR0 (R316, R319) -/

/-- A byte of BAR4 after the host has written it: that of a record of the device stays, and of a job record only the writer's
fields change (R4, R319). -/
def State.hostByte (s : State) (a : Nat) (b : Byte) : Byte :=
  if s.deviceRecord a = true then s.dram.byte a else (s.dram.byte a &&& ~~~s.hostBits a) ||| (b &&& s.hostBits a)

/-- The host's bytes are stored one by one, each at its address alone. -/
theorem State.hostStore_bytes (hp : s.mach.poison = []) {a : Nat} (ha : 2 ^ 30 ≤ a) (l : List Byte) :
    ∃ m, s.hostStore a l = { s with dram := m } ∧ (∀ i (h : i < l.length), m.byte (a + i) = s.hostByte (a + i) l[i]) ∧
      ∀ x, x < a → m.byte x = s.dram.byte x := by
  induction l generalizing s a with
  | nil => exact ⟨_, rfl, nofun, fun _ _ => rfl⟩
  | cons b r ih =>
    have hfirst : ∃ m, (if s.deviceRecord a = true then s
        else s.store a [(s.byte a &&& ~~~s.hostBits a) ||| (b &&& s.hostBits a)]) = { s with dram := m } ∧
        m.byte a = s.hostByte a b ∧ ∀ x, x ≠ a → m.byte x = s.dram.byte x := by
      unfold State.hostByte
      split
      · exact ⟨_, rfl, rfl, fun _ _ => rfl⟩
      · have hbyte : s.byte a = s.dram.byte a := if_neg (by omega)
        refine ⟨s.dram.puts a [(s.byte a &&& ~~~s.hostBits a) ||| (b &&& s.hostBits a)], ?_, ?_, fun x hx => ?_⟩
        · rw [State.store, hp, List.isEmpty_nil, if_pos rfl, State.rawPut, if_neg (by omega)]
        · rw [← hbyte]
          exact Memory.byte_puts_inside _ a [_] 0 (by simp)
        · exact Memory.byte_puts_outside _ _ _ (by simp; omega)
    obtain ⟨m, hm, hbyte, hother⟩ := hfirst
    obtain ⟨m', hm', hbytes, hbelow⟩ := ih (s := { s with dram := m }) hp (a := a + 1) (by omega)
    refine ⟨m', ?_, fun i h => ?_, fun x hx => ?_⟩
    · rw [State.hostStore, hm]
      exact hm'
    · rcases i with _ | i
      · exact (hbelow a (by omega)).trans hbyte
      · have hi := hbytes i (by simpa using h)
        have hlater : a + 1 + i = a + (i + 1) := by omega
        rw [hlater] at hi
        refine hi.trans ?_
        unfold State.hostByte
        rw [← hother (a + (i + 1)) (by omega)]
        rfl
    · exact (hbelow x (by omega)).trans (hother x (by omega))

/-- An aligned write of 8 bytes to a register of BAR0 below the queues, other than RELEASE, is performed (R316; log 48). -/
theorem execHostRegisterWrite_bar0 {off : Nat} (halign : off % 8 = 0) (hrelease : off ≠ 0x448) (hlow : off < 0x10000)
    (v : VWord) : exec (.hostRegisterWrite 0 off 8 v) s = .next (s.writeBar0 off (v.setWidth 64)) := by
  have hgoes : s.bar0Waits off (v.setWidth 64) = false := by
    have hnot : ¬0x10000 ≤ off := by omega
    unfold State.bar0Waits
    simp [hrelease, hnot]
  rw [exec_hostRegisterWrite, execHostRegisterWrite, if_neg (by omega), if_pos rfl, if_neg (by omega), hgoes, if_neg nofun]

theorem State.writeBar0_ring (hready : s.eqx.ready = true) {off : Nat} (h : 0x400 ≤ off ∧ off < 0x460) (v : Word) :
    s.writeBar0 off v = s.writeRingReg (off - 0x400) v := by
  rw [State.writeBar0, if_pos h, State.serves, hready, if_pos rfl]

/-! ### The statement's parts -/

section
variable {c l : Nat} {g : BitVec 16}

/-- Releases of a slot that the running job has parked, with no switch in the way (R250, R331). -/
theorem releases_perform (hready : s.eqx.ready = true) (hrun : s.running = some j) (hparked : (s.slotAt c l).phase = .parked)
    (hgen : (s.slotAt c l).gen = g) (hgoing : s.stopped = false) : ∃ t u w,
      exec (.releaseRetry c l g) s = .next t ∧ exec (.releaseResume c l g) s = .next u ∧
      exec (.releaseKill c l g) s = .next w ∧ ((w.slotAt c l).phase = .draining ∨ (w.slotAt c l).phase = .free) ∧
      ((s.slotAt c l).held.map (·.cause) ≠ some 0x008 →
        (t.slotAt c l).phase = .ready ∧ (t.slotAt c l).pc = (s.slotAt c l).epc ∧ (t.slotAt c l).x = (s.slotAt c l).x ∧
        (u.slotAt c l).phase = .ready ∧ (u.slotAt c l).pc = s.eqx.relpc ∧ (u.slotAt c l).x = (s.slotAt c l).x) ∧
      ((s.slotAt c l).held.map (·.cause) = some 0x008 →
        ((t.slotAt c l).phase = .draining ∨ (t.slotAt c l).phase = .free) ∧
        ((u.slotAt c l).phase = .draining ∨ (u.slotAt c l).phase = .free)) := by
  have hstep := releaseStep_performs hready hrun hparked hgen hgoing
  have hended := (s.slotAt_endTask c l).1
  refine ⟨_, _, _, (exec_releaseRetry ..).trans (hstep ..), (exec_releaseResume ..).trans (hstep ..),
    (exec_releaseKill ..).trans (hstep ..), ?_, fun hhalt => ?_, fun hhalt => ?_⟩
  · rw [State.doRelease_kill hparked hgen]
    exact hended
  · rw [State.doRelease_retry hparked hgen hhalt, State.doRelease_resume hparked hgen hhalt]
    obtain ⟨hphase, hpc, hx⟩ := s.slotAt_unpark c l (s.slotAt c l).epc
    exact ⟨hphase, hpc, hx, s.slotAt_unpark c l s.eqx.relpc⟩
  · rw [State.doRelease_halted hparked hgen hhalt (by decide), State.doRelease_halted hparked hgen hhalt (by decide)]
    exact ⟨hended, hended⟩

end

/-- The host's bytes in BAR4 (R316, R319). -/
theorem execHostRegisterWrite_bar4 (hready : s.eqx.ready = true) {off size : Nat} (hpos : 0 < size) (hsize : size ≤ 64)
    (hin : off + size ≤ s.part.flatL) (hp : s.mach.poison = []) (v : VWord) :
    ∃ t, exec (.hostRegisterWrite 4 off size v) s = .next t ∧ ∀ i, i < size →
      t.dram.byte (lpBase + off + i) = s.hostByte (lpBase + off + i) ((toBytes v.toNat size).getD i 0) := by
  have hbase : 2 ^ 30 ≤ lpBase + off := by
    have : 2 ^ 30 ≤ lpBase := by decide
    omega
  obtain ⟨m, hm, hbytes, -⟩ := State.hostStore_bytes hp hbase (toBytes v.toNat size)
  refine ⟨{ s with dram := m }, ?_, fun i hi => ?_⟩
  · rw [exec_hostRegisterWrite, execHostRegisterWrite, if_neg (by omega), if_neg (by decide),
      if_neg (by simp [State.serves, hready]), if_neg (by decide), if_pos ⟨rfl, hin⟩, hm]
  · have hl : i < (toBytes v.toNat size).length := by rwa [length_toBytes]
    rw [List.getD_eq_getElem _ _ hl]
    exact hbytes i hl

/-- A held record stays held by Equinox (R335). -/
theorem execFaultRecord_holds {r : FaultRec} {rest : List FaultRec} (h0 : s.eqx.lane0 = r :: rest) (h1 : s.eqx.lane1 = [])
    (hroom : s.eqx.rqRoom = false) (haway : r.slotted = false ∨ s.awayJob r = none) :
    ∃ t, exec (.faultRecord false) s = .next t ∧ t.eqx.held = s.eqx.held ++ [r] := by
  refine ⟨_, (execFaultRecord_replayable h0 h1).trans (congrArg _ (State.takeReplayable_holds hroom haway)), ?_⟩
  obtain ⟨m, n, o, h⟩ := State.settleOverflow_only
    { s with eqx := { s.eqx with lane0 := rest, held := s.eqx.held ++ [r] } }
  exact (congrArg (·.eqx.held) h :)

/-- Settles O52, from the rules of queue writes, releases, ring registers, fault records and the windows. -/
theorem hostWritesAndFaultRecordsReachEquinox : Obligations.host_writes_and_fault_records_reach_equinox := by
  intro s hready log
  refine ⟨fun j q v hj hq hjob hended => ⟨fun hkept hroom => ?_, fun hkept => ?_⟩, fun j jb v hj hended hjob => ?_,
    fun j q hrun hgoing hq hon hring hidle hahead => ⟨fun hop => ?_, fun hop hcount => ?_⟩,
    fun c l g j hrun hparked hgen hstop hroom => ?_, fun c l g hparked hgen hrun hgoing => ?_, fun v => ?_,
    fun r rest h0 h1 => ⟨fun hheld hroom => ?_, fun hroom => ⟨execFaultRecord_holds h0 h1 hroom, fun e hslot haway => ?_⟩⟩,
    fun r rest h1 => ⟨fun hreserve hroom => ?_, fun hroom hreserve => ?_, fun hreserve => ?_⟩,
    fun off size v => ⟨fun hpos hsize hin _ hp => execHostRegisterWrite_bar4 hready hpos hsize hin hp v, ?_, ?_, ?_, ?_, ?_⟩⟩
  · have hlog : s.logWaits j = false := by simp [State.logWaits, hroom]
    rw [execQtailWrite_writes hj hq hlog, execEvheadWrite_writes hj hlog, State.evheadWrite_of_job hended,
      State.jobWrite_kept hready hjob hkept, State.jobWrite_kept hready hjob hkept]
    exact ⟨rfl, rfl⟩
  · have hlog : s.logWaits j = false := by simp [State.logWaits, hkept]
    rw [execQtailWrite_writes hj hq hlog, execEvheadWrite_writes hj hlog, State.evheadWrite_of_job hended,
      State.jobWrite_now hready hjob hkept, State.jobWrite_now hready hjob hkept]
    obtain ⟨htail, hoff⟩ := s.tailNow_queue j q v
    exact ⟨_, _, rfl, htail, hoff, rfl, s.evheadNow_evHead j v⟩
  · have hempty : s.logFull j = false := by
      rw [State.logFull, State.jobAt, hjob]
      rfl
    rw [execEvheadWrite_writes hj (by simp [State.logWaits, hempty]), State.evheadWrite, hended]
    exact congrArg _ (if_pos hready)
  · obtain ⟨x, hjobs⟩ := (s.badWrite j).jobAt_updQueue j q (fun x => { x with prog := (x.prog + 1) % 65536 })
    refine ⟨_, execQueueEntrySubmit_counts ⟨hrun, hgoing, hq, hon, hring, hidle, hahead⟩ hop, ?_, ?_⟩
    · rw [State.queueAt_updQueue_self, State.queueAt, s.jobAt_badWrite]
      rfl
    · rw [hjobs, s.jobAt_badWrite]
  · refine ⟨_, execQueueEntrySubmit_posts ⟨hrun, hgoing, hq, hon, hring, hidle, hahead⟩ hop hcount, ?_, State.post_lastIs ..⟩
    exact (congrArg HostQ.busy (s.queueAt_updQueue_self j q (fun x => { x with busy := true })) :)
  · have h := releaseStep_logs hready hrun hparked hgen hstop hroom
    exact ⟨(exec_releaseRetry ..).trans (h ..), (exec_releaseResume ..).trans (h ..), (exec_releaseKill ..).trans (h ..)⟩
  · obtain ⟨j, hj⟩ := Option.isSome_iff_exists.mp hrun
    exact releases_perform hready hj hparked hgen hgoing
  · exact ⟨_, _, _, _, _, exec_rqheadWrite hready v, (State.raiseHeld_regs _).1, exec_fqheadWrite hready v,
      (State.writeReserve_regs ..).1, exec_rqbaseWrite hready v, s.writeRqbase_rqbase v, exec_fqbaseWrite hready v,
      s.writeFqbase_fqbase v, exec_mccountWrite hready v, rfl⟩
  · exact ⟨_, (execFaultRecord_replayable h0 h1).trans (congrArg _ (State.takeReplayable_writes hheld hroom)), rfl, rfl, rfl⟩
  · have hkeeps := State.takeReplayable_keeps (s := { s with eqx := { s.eqx with lane0 := rest } }) hroom hslot haway
    exact ⟨_, _, (execFaultRecord_replayable h0 h1).trans (congrArg _ hkeeps), AMap.get_set_self .., rfl⟩
  · exact ⟨_, (execFaultRecord_fatal h1).trans (congrArg _ (State.takeFatal_writes hreserve hroom)), rfl, rfl, rfl⟩
  · exact ⟨_, (execFaultRecord_fatal h1).trans (congrArg _ (State.takeFatal_reserves hroom hreserve)), rfl⟩
  · exact ⟨_, (execFaultRecord_fatal h1).trans (congrArg _ (State.takeFatal_counts hreserve)), rfl, fun h => if_pos h⟩
  · rw [execHostRegisterWrite_bar0 (by decide) (by decide) (by decide), State.writeBar0_ring hready (by decide)]
    rfl
  · rw [execHostRegisterWrite_bar0 (by decide) (by decide) (by decide), State.writeBar0_ring hready (by decide)]
    have hlow : (v.setWidth 64).toNat % 256 = v.toNat % 256 := by
      rw [BitVec.toNat_setWidth]
      omega
    show Host.Outcome.next (s.setEqx (fun e => { e with mcvec := (v.setWidth 64).toNat % 256 })) = _
    rw [hlow]
  · rw [execHostRegisterWrite_bar0 (by decide) (by decide) (by decide), State.writeBar0_ring hready (by decide)]
    rfl
  · rw [execHostRegisterWrite_bar0 (by decide) (by decide) (by decide), State.writeBar0, State.serves, hready]
    rfl
  · rw [execHostRegisterWrite_bar0 (by decide) (by decide) (by decide), State.writeBar0, State.serves, hready]
    rfl

end Sys2Proof.Machine
end
